-- ==== Sys2Proof/Word.lean ====
section
/-! DEFINITION. The word types of the HK6816 and the index types of its parts. -/

namespace Sys2Proof

/-- A 32-bit register word (02, R43). -/
abbrev Word := BitVec 32

/-- A byte. -/
abbrev Byte := BitVec 8

/-- A 40-bit sequencer word (12, R344). -/
abbrev Word40 := BitVec 40

/-- A line lane, a line port, a host lane or a host port: 0 to 15 (01, Levels). -/
abbrev Lane := Fin 16

/-- A slice S0 to S3. -/
abbrev Slice := Fin 4

/-- A sequencer by bulk index k: 0 to 7 loop, 8 to 23 lane (12, Resources). -/
abbrev SeqId := Fin 24

/-- An HBM stack. -/
abbrev Stack := Fin 4

/-- A DMA ring. -/
abbrev Ring := Fin 8

/-- An ingress queue, 8 x line port + class. -/
abbrev QueueId := Fin 128

/-- A thermal zone TZ0 to TZ11. -/
abbrev Zone := Fin 12

/-- A supply rail k. -/
abbrev Rail := Fin 8

/-- A clock island (14, R372). -/
abbrev Island := Fin 63

/-- The slice that holds a lane. -/
def sliceOf (n : Lane) : Slice := ⟨n.val / 4, by omega⟩

/-- The lane offset of a lane in its slice. -/
def offsetOf (n : Lane) : Fin 4 := ⟨n.val % 4, by omega⟩

/-- Lane 4s + q. -/
def laneAt (s : Slice) (q : Fin 4) : Lane := ⟨4 * s.val + q.val, by omega⟩

end Sys2Proof
end

