-- ==== Sys2Proof/Syntax.lean ====
section
/-! DEFINITION. The commands of the HK6816: one constructor of `Instr` per row of the table of operations
and events, in the table's order. A command that a bus master issues names the master; an event that the
outside world or the block's own time raises names the unit it happens at and what was observed. -/

namespace Sys2Proof

/-- The masters of the register space (02, table of master IDs). -/
inductive Master where
  | host                 -- 0x01
  | bmc                  -- 0x02
  | mc                   -- 0x03
  | jtag                 -- 0x04
  | loopSeq (m : Fin 8)  -- 0x10 + m
  | laneSeq (n : Fin 16) -- 0x20 + n
  deriving DecidableEq, Repr

/-- What the host unmasks: a vector, the function by its mask, or the function by enabling MSI-X (16, R413). -/
inductive MsixTarget where
  | vector (v : Fin 64)
  | function
  | enable
  deriving DecidableEq, Repr

/-- What a line lane's report of one millisecond carries: quality estimates (03, R103) and the
adapted values of the equaliser (03, R85). The numbers come from the analogue signal. -/
structure LaneReport where
  snr     : BitVec 16
  ber     : BitVec 16
  eyeL    : BitVec 16
  eyeM    : BitVec 16
  eyeU    : BitVec 16
  ffe     : List (BitVec 16)
  levels  : List Word
  dfe     : Word
  gain    : BitVec 16
  freq    : BitVec 16
  depth   : BitVec 16
  suppr   : BitVec 16
  envelope : Word
  deriving DecidableEq, Repr

/-- The codewords of a lane that touch a frame, by their numbers on the lane (04, R129). -/
structure CwSpan where
  lane  : Lane
  first : Nat
  last  : Nat
  deriving DecidableEq, Repr

/-- Which case of R122 drops alignment. -/
inductive AlignLossCause where
  | groupWindow
  | uncorrectableRun
  deriving DecidableEq, Repr

/-- How an HBM operation ends (07, R214, R234): a parity failure is retried once. -/
inductive HbmResult where
  | ok
  | corrected
  | uncorrectable
  | parity
  deriving DecidableEq, Repr

/-- A line of a channel's reserved regions that relocation cannot read (07, R237). -/
inductive RelocLine where
  | state (flow : Fin 33554432)
  | key (flow : Fin 33554432)
  | shadow (index : Fin 4194304)
  | link (page : Fin 23986176)
  deriving DecidableEq, Repr

/-- Why a channel retires by itself (07, R235). -/
inductive RetireCause where
  | unreadableCount
  | parityStop
  deriving DecidableEq, Repr

/-- A received MAC control frame: destination, EtherType, opcode, enable bits and times (01 R29, R508; 07 R231, R233). -/
structure MacControl where
  da        : BitVec 48
  etherType : BitVec 16
  opcode    : BitVec 16
  enables   : BitVec 8
  times     : List (BitVec 16)
  fcsOk     : Bool
  pcsOk     : Bool
  deriving DecidableEq, Repr

/-- Host RS codewords of a lane decoded up to a frame since the last: how many were corrected, and how many could not be
(08, `RS_CORR`, `RS_UNC`). -/
structure HostFec where
  corrected     : Nat
  uncorrectable : Nat
  deriving DecidableEq, Repr

/-- What ends a Lantern receiver's work on a frame, in the order in which it acts in one symbol (10, R302). -/
inductive LtTrigger where
  | off
  | capture
  | clip
  | lost
  | header
  | frameEnd
  deriving DecidableEq, Repr

/-- What the supervision of an output senses: its current in 0.1 µA, drawn by an IDAC or the load of a VDAC, and its ball
voltage in 0.1 mV (11, R324). -/
structure OutSense where
  current : Int
  voltage : Int
  deriving DecidableEq, Repr

/-- How a poll transaction ends (11, R334, R338); `stuck` after a recovery that leaves a line low. -/
inductive PollEnd where
  | ok
  | nackAddr
  | nackData
  | stretch
  | timeout
  | stuck
  deriving DecidableEq, Repr

/-- One poll of a module (11, R335, R336): whether SDA was low at its start, how it ended, and the module's memory as it was
read: the lower page, page 00h and page 11h of bank 0, each 128 bytes. -/
structure ModulePoll where
  sdaLow : Bool
  result : PollEnd
  lower  : List Byte
  page00 : List Byte
  page11 : List Byte
  intLow : Bool
  deriving DecidableEq, Repr

/-- The result codes of an I2C transaction that a module gives (11, R338). -/
inductive XferResult where
  | ok (bytes : List Byte)
  | nackAddr
  | nackData
  | busStuck
  deriving DecidableEq, Repr

/-- One measured part of a calibration record (13). -/
structure CalMeasurement where
  refError  : BitVec 16
  values    : List (Nat × List Int)
  deriving DecidableEq, Repr

/-- Which part of a record is measured: a lane record has an ADC part and a DAC part (13, R364). -/
inductive CalPart where
  | partA
  | partB
  deriving DecidableEq, Repr

/-- The bytes of the two directory copies as the ROM reads them (15, R395). -/
structure DirectoryFound where
  copyA : List Byte
  copyB : List Byte
  deriving DecidableEq, Repr

/-- The results of the two signature checks of an image, which no rule of the manual computes itself (15, R396). -/
structure ImageCrypto where
  rsaOk     : Bool
  slhOk     : Bool
  deriving DecidableEq, Repr

/-- How a fuse bit read back after programming and after its one retry (15, R399). -/
inductive FuseReadback where
  | blown
  | blownOnRetry
  | unblown
  deriving DecidableEq, Repr

/-- A DMA descriptor as the device read it from host memory (16, R418, R419). -/
structure DmaDescriptor where
  addr     : BitVec 64
  len      : BitVec 32
  tag      : BitVec 32
  count    : BitVec 16
  flags    : BitVec 8
  reserved : Bool
  txLane   : Lane
  deriving DecidableEq, Repr

/-- An update descriptor as 64 bytes (05, R165). -/
abbrev DescBytes := List Byte

/-- A zone's sensor as sampled, in 1/1024 degree (17, R442), or reading open, shorted or out of range. -/
structure ZoneSample where
  value   : Int
  invalid : Bool
  deriving DecidableEq, Repr

/-- How a self-test target ended (18, R467, R472). -/
inductive TestEnd where
  | complete (patterns total signature expected : Word) (mbistEqual : Bool) (failAt : BitVec 24)
  | stopped (patterns total : Word)
  deriving DecidableEq, Repr

/-- The commands: one constructor per row of the table. -/
inductive Instr where
  -- register access (02)
  | registerWrite (m : Master) (addr : BitVec 24) (be : BitVec 4) (v : Word)
      (upper : Option (BitVec 4 × Word) := none) (bar2 : Bool := false)
  | postedWriteApply (page : BitVec 10)
  | maskedLowWrite (m : Master) (addr : BitVec 22) (be : BitVec 4) (v : Word)
  | maskedHighWrite (m : Master) (addr : BitVec 22) (be : BitVec 4) (v : Word)
  | lockRead (m : Master) (page : BitVec 10) (be : BitVec 4 := 0xF)
  | lockWrite (m : Master) (page : BitVec 10) (v : Word)
  | lockBreak (m : Master) (v : Word)
  | expertKey (m : Master) (v : Word)
  | softReset (m : Master) (page : BitVec 10)
  | softResetDone (page : BitVec 10)
  | intForce (m : Master) (page : BitVec 10) (v : Word)
  | msixUnmask (t : MsixTarget) (masked : Bool := false)
  | parityCheckSweep (upsets : List (BitVec 22 × Fin 32))
  | parityFaultClear (m : Master) (page : BitVec 10)
  | parityAutoRestore (page : BitVec 10) (copyGood : Bool)
  | counterLowRead (m : Master) (addr : BitVec 22) (be : BitVec 4 := 0xF)
  | counterHighWrite (m : Master) (addr : BitVec 22) (v : Word)
  | rcRead (m : Master) (addr : BitVec 24) (be : BitVec 4 := 0xF) (upper : Option (BitVec 4) := none)
      (upset : Option (Fin 32) := none) (bar2 : Bool := false)
  -- slice configuration and line pause (01, 08)
  | sliceCfgWrite (m : Master) (s : Slice) (v : Word)
  | hostCfgWrite (m : Master) (s : Slice) (v : Word)
  | lpMapWrite (m : Master) (s : Slice) (v : Word)
  | lineMacControlFrame (port : Lane) (f : MacControl) (spans : List CwSpan)
  | linePauseExpiry (port : Lane)
  -- line receive lanes (03)
  | laneEnable (m : Master) (n : Lane)
  | laneDisable (m : Master) (n : Lane)
  | laneCmdRetry (m : Master) (n : Lane)
  | laneCmdReacquire (m : Master) (n : Lane)
  | laneCmdWarm (m : Master) (n : Lane)
  | laneCmdCkptNow (m : Master) (n : Lane) (cut : Bool := false)
  | laneCmdCkptClear (m : Master) (n : Lane)
  | laneCmdProceed (m : Master) (n : Lane)
  | calibrateComplete (n : Lane) (inRange : Bool)
  | calTimeout (n : Lane)
  | acqTimeout (n : Lane)
  | acquireLock (n : Lane)
  | holdLimitExpiry (n : Lane)
  | holdRecover (n : Lane)
  | warmRestartComplete (n : Lane)
  | warmRestartTimeout (n : Lane)
  | ckptTick (n : Lane) (cut : Bool := false)
  | inServiceCalStep
  | qualityUpdate (n : Lane) (r : LaneReport)
  | losAssert (n : Lane) (amp : BitVec 12)
  | losDeassert (n : Lane) (amp : BitVec 12)
  | cdrLockChange (n : Lane) (locked : Bool)
  | eyeStart (m : Master) (n : Lane)
  | eyeAbort (m : Master) (n : Lane)
  | eyePointDone (n : Lane) (errors : Nat)
  -- line decoding (04)
  | innerWordDecode (n : Lane) (r : BitVec 128) (reliability : List (BitVec 4))
  | rsCodewordDecode (n : Lane) (line : List (List (Fin 4)))
  | groupHuntTest (n : Lane) (symbols : List (Fin 4))
  | cwLockSearch (n : Lane) (start : Nat) (line : List (List (Fin 4)))
  | alignConfirm (n : Lane)
  | amLock (n : Lane) (arrival : Nat)
  | deskewCheck (n : Lane) (arrival peer : Nat) (ordered : Bool)
  | alignLoss (n : Lane) (cause : AlignLossCause)
  | linkFaultReceived (n : Lane) (lf rf : Bool)
  | amReceived (n : Lane) (remoteDegraded inPlace : Bool)
  | degWindowEnd (n : Lane)
  | degCmdPortDown (m : Master) (n : Lane)
  | degCmdPortUp (m : Master) (n : Lane)
  -- ingress packets, classifier and flow state (05, 06)
  | headerWindowComplete (port : Lane) (window : List Byte) (len : Nat) (rxTime : BitVec 80)
  | classifierLookup (port : Lane) (stagingFull : Bool) (busy : List (Fin 8) := []) (ecc : List (Fin 2 × Bool) := [])
  | bucketReload (bank : Fin 8) (bucket : BitVec 17)
  | meterDecision (port : Lane)
  | packetLastByte (port : Lane) (rest : List Byte) (spans : List CwSpan) (invalid : Nat)
  | packetCommit (port : Lane)
  | packetRevoke (port : Lane)
  | verdictTimeout (port : Lane)
  | profileWordWrite (m : Master) (profile : Fin 1024) (w : Fin 7) (v : Word)
  | profileCommit (m : Master) (profile : Fin 1024) (v : Word)
  | learnInit (m : Master)
  | freeIdRefill
  | learnApply
  | updGo (m : Master)
  | stageGo (m : Master)
  | updateNop
  | updateInsert
  | updateReplace
  | updateModify
  | updateDelete
  | rdCmdRead (m : Master)
  | rdCmdReadShadow (m : Master)
  | agingPass
  | restoreStart (m : Master)
  | restoreDone (bank : Fin 8 := 7)
  | recordWordStage (m : Master) (i : Fin 8192) (w : Fin 15) (v : Word)
  | recordWordCommit (m : Master) (i : Fin 8192) (v : Word)
  | initState (m : Master)
  | initKeys (m : Master)
  | initDone
  | cacheFlush (m : Master)
  | cacheFlushDone
  | sweepVisit
  | fbWindowEnd (n : Lane)
  | fbCmdEnter (m : Master) (n : Lane)
  | fbCmdExit (m : Master) (n : Lane)
  | admitSnap (m : Master) (s : Slice)
  -- packet buffer and queues (07)
  | hbmOperationIssue (k : Stack)
  | hbmPriorityRaise (k : Stack)
  | hbmOperationComplete (k : Stack) (r : HbmResult)
  | schedulerSelect (h : Lane)
  | hostFrameTx (h : Lane)
  | hostMacControlFrame (h : Lane) (f : MacControl) (fec : HostFec)
  | hostPfcExpiry (h : Lane) (prio : Fin 8)
  | queueFlush (m : Master) (q : QueueId)
  | channelRetirement (c : Fin 64) (cause : RetireCause)
  | retireCmdChannels (m : Master) (k : Stack) (chs : BitVec 16)
  | retireCmdStack (m : Master) (k : Stack)
  | relocationDone (k : Stack) (unreadable : List RelocLine)
  | mrCmdRead (m : Master) (k : Stack)
  | mrCmdWrite (m : Master) (k : Stack)
  | stackTempRead (k : Stack) (degrees : BitVec 8) (refresh : Fin 3)
  -- host lanes, egress and time (08)
  | hostEnable (m : Master) (n : Lane)
  | hostDisable (m : Master) (n : Lane)
  | prbsModeSet (m : Master) (n : Lane)
  | prbsModeClear (m : Master) (n : Lane)
  | hostLaneUp (n : Lane)
  | hostLaneDown (n : Lane) (signal cdr am : Bool)
  | biyleyLoad (copyA copyB : List Byte)
  | eqSetStageWrite (m : Master) (n : Lane) (hi : Bool) (w : Fin 7) (v : Word)
  | eqSetCommit (m : Master) (n : Lane) (hi : Bool) (v : Word)
  | egressFrameRx (lane : Lane) (frame : List Byte) (pcsOk : Bool) (fec : HostFec)
  | egressFrameTx (port : Lane) (txTime : BitVec 80)
  | flowControlFrameTx (h : Lane)
  | flowControlRepeat (h : Lane)
  | timeCmdSet (m : Master)
  | timeCmdStep (m : Master)
  | timeCmdSetAtPps (m : Master)
  | timeRdRead (m : Master)
  | ppsCaptRead (m : Master)
  | ppsEdge (falling : Bool)
  | ppsLost
  | txtsPop (m : Master) (port : Lane)
  | prbsInject (m : Master) (n : Lane)
  | prbsClear (m : Master) (n : Lane)
  | prbsLock (n : Lane) (symbols : List (Fin 4))
  | prbsLoss (n : Lane) (symbols : List (Fin 4))
  | hostEyeStart (m : Master) (n : Lane)
  | hostEyeAbort (m : Master) (n : Lane)
  | hostEyePointDone (n : Lane) (errors : Nat)
  -- line transmitters (09)
  | txEnable (m : Master) (n : Lane)
  | txDisable (m : Master) (n : Lane)
  | txSendEntry (port : Lane)
  | firApply (m : Master) (n : Lane)
  | pilotDepthStep (n : Lane)
  -- Lantern (09, 10)
  | tuneReq (n : Lane)
  | tuneReply (n : Lane)
  | identity (n : Lane)
  | warm (n : Lane)
  | fault (n : Lane)
  | wake (n : Lane)
  | hostDefinedFrame (n : Lane)
  | lanternFrameReject (n : Lane)
  | lanternEnergyDetect (n : Lane) (levels : List (BitVec 16))
  | lanternAcquireAbandon (n : Lane) (symbols : Nat) (levels : List (BitVec 16))
  | lanternPreambleDetect (n : Lane) (level : BitVec 16) (decisions : List Bool)
  | lanternSyncFound (n : Lane) (level : BitVec 16) (decisions : List Bool)
  | lanternSyncWindowExpire (n : Lane) (decisions : List Bool)
  | lanternClip (n : Lane) (full samples : Nat) (along : List LtTrigger := [])
  | lanternCapture (n : Lane) (levels : List (BitVec 16)) (along : List LtTrigger := [])
  | lanternCollision (n : Lane) (levels : List (BitVec 16)) (along : List LtTrigger := [])
  | lanternSignalLost (n : Lane) (levels : List (BitVec 16)) (along : List LtTrigger := [])
  | lanternHeaderError (n : Lane) (soft : List (BitVec 4)) (along : List LtTrigger := [])
  | lanternFrameEnd (n : Lane) (soft : List (BitVec 4)) (along : List LtTrigger := [])
  | lanternTxFrameStart (n : Lane)
  | lanternTxFrameEnd (n : Lane)
  | identityPeriod (n : Lane)
  | sendIdent (m : Master) (n : Lane)
  | sendWake (m : Master) (n : Lane)
  | txFlush (m : Master) (n : Lane)
  | keyInstall (m : Master) (n : Lane) (slot : Bool)
  | keyErase (m : Master) (n : Lane) (slot : Bool)
  | lanternTxRecord (n : Lane) (record : List Byte)
  -- optical attach and analogue control (11)
  | outEnable (m : Master) (s : Slice) (k : Fin 10)
  | outDisable (m : Master) (s : Slice) (k : Fin 10)
  | outCmdClear (m : Master) (s : Slice) (k : Fin 10)
  | outputRetry (s : Slice) (k : Fin 10)
  | readbackCheckDone (s : Slice) (mean : BitVec 20) (sense : OutSense)
  | supervisionTrip (s : Slice) (k : Fin 10) (sense : OutSense)
  | codeWrite (m : Master) (s : Slice) (k : Fin 10) (v : Word)
  | ditherSync (m : Master) (gens : BitVec 16)
  | monitorSample (s : Slice) (i : Fin 12) (sum : Int) (ovr borrowed : Bool)
  | sampleLoRead (m : Master) (s : Slice) (i : Fin 12)
  | resamplerSample (c : Fin 8) (lantern : List (BitVec 40 × Bool))
  | moduleRemoved (n : Lane)
  | moduleInserted (n : Lane)
  | modulePoll (n : Lane) (p : ModulePoll)
  | modulePowerupTimeout (n : Lane)
  | initWaitTimeout (n : Lane)
  | intStorm (n : Lane)
  | xferGo (m : Master) (n : Lane) (sdaLow : Bool)
  | xferDone (n : Lane) (r : XferResult)
  | repoll (m : Master) (n : Lane)
  | resetModule (m : Master) (n : Lane)
  | unisolate (m : Master) (n : Lane)
  | stretchTimeout (n : Lane) (stuckAfter : Bool)
  | xferTimeout (n : Lane) (stuckAfter : Bool)
  | writePollTimeout (n : Lane) (stuckAfter : Bool)
  -- the sequencers' instructions (12, R344, R345)
  | nop (k : SeqId)
  | ldi (k : SeqId) (d : Fin 16) (imm : BitVec 18)
  | ldh (k : SeqId) (d : Fin 16) (imm : BitVec 22)
  | mov (k : SeqId) (d a : Fin 16)
  | add (k : SeqId) (d a b : Fin 16)
  | sub (k : SeqId) (d a b : Fin 16)
  | addi (k : SeqId) (d a : Fin 16) (imm : BitVec 18)
  | mul (k : SeqId) (d a b : Fin 16) (s : BitVec 6)
  | min (k : SeqId) (d a b : Fin 16)
  | max (k : SeqId) (d a b : Fin 16)
  | and (k : SeqId) (d a b : Fin 16)
  | or (k : SeqId) (d a b : Fin 16)
  | xor (k : SeqId) (d a b : Fin 16)
  | abs (k : SeqId) (d a : Fin 16)
  | andi (k : SeqId) (d a : Fin 16) (imm : BitVec 18)
  | shl (k : SeqId) (d a : Fin 16) (imm : BitVec 18)
  | shr (k : SeqId) (d a : Fin 16) (imm : BitVec 18)
  | sar (k : SeqId) (d a : Fin 16) (imm : BitVec 18)
  | ld (k : SeqId) (d a : Fin 16) (imm : BitVec 18)
  | st (k : SeqId) (d a : Fin 16) (imm : BitVec 18)
  | ldw (k : SeqId) (d a : Fin 16) (imm : BitVec 18)
  | windowReadReturn (k : SeqId)
  | stw (k : SeqId) (d a : Fin 16) (imm : BitVec 18)
  | windowWriteError (k : SeqId)
  | rdt (k : SeqId) (d : Fin 16)
  | tmr (k : SeqId) (a : Fin 16) (imm : BitVec 18)
  | wait (k : SeqId) (d a : Fin 16)
  | waitResume (k : SeqId)
  | seqTimerExpiry (k : SeqId)
  | dog (k : SeqId)
  | send (k : SeqId) (d a b : Fin 16)
  | recv (k : SeqId) (d a : Fin 16)
  | dbl (k : SeqId) (a b : Fin 16)
  | br (k : SeqId) (c : BitVec 4) (a : Fin 16) (target : BitVec 11)
  | call (k : SeqId) (target : BitVec 11)
  | ret (k : SeqId)
  | jr (k : SeqId) (a : Fin 16)
  | halt (k : SeqId)
  | trap (k : SeqId) (imm : BitVec 18)
  | seqWatchdog (k : SeqId)
  | seqRestart (k : SeqId)
  | breakpointHalt (k : SeqId)
  | seqStart (m : Master) (k : SeqId)
  | seqHalt (m : Master) (k : SeqId)
  | seqCont (m : Master) (k : SeqId)
  | seqStep (m : Master) (k : SeqId)
  | seqKick (m : Master) (k : SeqId)
  | xregWrite (m : Master) (k : SeqId) (x : Fin 16) (hi : Bool) (v : Word)
  | roleWrite (m : Master) (k : SeqId) (v : Word)
  | seqDataWordWrite (m : Master) (k : SeqId) (w : Fin 1024) (hi : Bool) (v : Word)
  | seqInstrWrite (m : Master) (k : SeqId) (w : Fin 2048) (v : Word)
  | loadComplete (k : SeqId)
  | lseqHostAssistClear (m : Master) (i : Fin 8)
  -- calibration (13)
  | calRun (m : Master)
  | calAbort (m : Master)
  | calRestore (m : Master)
  | calPartDone (r : Fin 20) (p : CalPart) (meas : CalMeasurement)
  | liveRead (m : Master)
  | liveExpertWrite (m : Master) (w : Fin 67) (v : Word)
  -- clocks and resets (14)
  | islandWatchdog (i : Island)
  | islandResetComplete (i : Island) (relocked : Bool)
  | islandCmdReset (m : Master)
  | devReset (m : Master) (v : Word)
  | mcReset (m : Master)
  | rstN
  | perstN
  | trstN
  | functionLevelReset
  | refLoss (r : Fin 3)
  | refPresent (r : Fin 3)
  | pllLock (p : Fin 15)
  | pllUnlock (p : Fin 15)
  -- start-up, security and identity (15)
  | powerOnResetRelease
  | directoryRead (d : DirectoryFound)
  | firmwareRead (copyB : Bool) (image : List Byte)
  | hbmTrainingDone (failed : BitVec 4)
  | startupCalibrationDone (s : Slice) (meas : CalMeasurement)
  | bootRetry (m : Master)
  | privilegedShutdown (z : Zone)
  | privilegedRestart
  | imgBegin (m : Master)
  | imgAbort (m : Master)
  | imgData (m : Master) (v : Word)
  | imageVerification (c : ImageCrypto)
  | secAdvance (m : Master)
  | secDebugDisable (m : Master)
  | secOwnerDebugDisable (m : Master)
  | fuseBitProgram (r : FuseReadback)
  | dbgChallenge (m : Master) (random : BitVec 256)
  | dbgRelock (m : Master)
  | flashGo (m : Master)
  | flashDone (bytes : List Byte)
  | attestKeysReady (certs : List Byte)
  | attestationRequest (nonce : BitVec 256) (bufLen : Nat) (tag : Word)
  | attestationReport
  -- host interfaces (16)
  | poisonedWrite
  | busMasterDisable
  | smbusWrite (pecOk : Bool) (addr : BitVec 24) (v : Word)
  | smbusRead (pecOk : Bool) (addr : BitVec 24)
  | smbusStatus (pecOk : Bool)
  | smbusTimeout
  | ping (sender : Master) (words : List Word)
  | info (sender : Master) (words : List Word)
  | mcReplyRetry (expired : Bool)
  | ringRunStart (m : Master) (r : Ring)
  | ringRunStop (m : Master) (r : Ring)
  | sqTailWrite (m : Master) (r : Ring) (v : Word)
  | cqHeadWrite (m : Master) (r : Ring) (v : Word)
  | descriptorFetch (r : Ring) (d : DmaDescriptor)
  | deviceReadError (r : Ring) (ofBuffer : Bool)
  | tableUpdateDescriptor (descs : List DescBytes)
  | firmwareUpload (image : List Byte)
  | bufferFillTimeout (r : Ring)
  | coalesceTimeout (r : Ring)
  | harvestPeriod
  | hvSnap (m : Master)
  | harvestDone
  | mbxSend (m : Master)
  | rxHdrRead (m : Master)
  | rxPop (m : Master)
  | inboxFlush (m : Master) (page : Fin 4) (j : Fin 16)
  | roleBump (m : Master)
  | dbTx (m : Master) (e : Fin 32) (v : Word)
  | dbRxValRead (m : Master) (e : Fin 27)
  | stalemate (a b : Master)
  -- thermal, supply and Vigil (17)
  | thermalSample (dtNs : Nat) (zones : List ZoneSample)
  | sampleRateSlow
  | sensorBroken (z : Zone)
  | unbreak (m : Master) (zones : BitVec 12)
  | pauseStep
  | pauseReleaseStep
  | pauseSet (m : Master) (v : Word)
  | railDip (k : Rail) (quarterMv : BitVec 16)
  | railRecover (k : Rail)
  | supplyHoldEnd
  | paritySweepDone (upsets : List (BitVec 22 × Fin 32))
  | railReset (k : Rail)
  | overVoltage (k : Rail)
  | vigilEnter (m : Master)
  | vigilEntryComplete
  | vigilExit (m : Master)
  | vigilTimerWake
  | wakeN
  | flowRefreshPass (vigilNs : Nat)
  | vigilExitToTraffic
  -- self-test (18)
  | bistStart (m : Master)
  | bistAbort (m : Master)
  | bistTargetStart
  | bistTargetEnd (e : TestEnd)
  | cacheSegmentStart
  | rotationStart
  | scanCtrlWrite (m : Master) (v : Word)
  -- fault containment (19)
  | lockstepMismatch
  | mcRestart
  | faultRecRead (m : Master)
  | faultPop (m : Master)
  -- later rows
  | hostLinkFaultReceived (n : Lane) (lf rf : Bool)
  | hostLosChange (n : Lane) (asserted : Bool)
  | pcieLinkReset
  | relocationScan (c : Fin 64)
  deriving DecidableEq, Repr

end Sys2Proof
end

