-- ==== Sys2Proof/Config.lean ====
section
/-! DEFINITION. What the manual leaves open and this model leaves open too: free values, constants without a body. -/

namespace Sys2Proof

/-- A value no rule gives: applied to the model's counter of free values, or to it and the unit the value is of. No proof
can see a value of it. -/
opaque Config.freeWord : Nat → Word

/-- The 16-bit value that an early-drop draw takes from a state of the device generator: its polynomial is given, how
its bits make up the value is not (07, R227). -/
opaque Config.earlyDraw : BitVec 31 → BitVec 16

/-- `PWR_EST` and `PWR_PEAK` at an instant: no rule gives the estimate, and no command measures it (17). -/
opaque Config.powerNow : Nat → BitVec 16
opaque Config.powerPeak : Nat → BitVec 16

/-- The code a rejected window write's error carries, by its slot and offset: R343 names the access error's codes, and the
slots' own refusals of R341 have none. -/
opaque Config.windowCode : BitVec 16 → BitVec 8

/-- An alignment marker group of a FEC flow, by the port's rate, the flow and the local-degraded indication: R125 and R137
name the PCS clause that gives its bits, and no chapter gives them. -/
opaque Config.amBits : Nat → Nat → Bool → BitVec 2056

/-- The coefficients h_φ[t] of the fractional resampler, 30 fractional bits, by phase and tap: R331 calls them a fixed
windowed-sinc prototype, and no chapter lists them. -/
opaque Config.rsCoef : Nat → Nat → Int

end Sys2Proof
end

