-- ==== Sys2Proof/Machine/LineCode.lean ====
section
/-! DEFINITION. The codes of a line lane, as functions of bits and symbols (04): the inner code and its Chase decoder
(R111, R114–R116), interleave groups and the Gray mapping (R112), RS(544,514) and the FEC stream (R109), precoding (R125). -/

namespace Sys2Proof.Machine

/-! ### The inner code (R111, R114–R116) -/

/-- Column h(j) of the inner code: the j-th number that is no power of two, then the powers of two, then 0 (R114). -/
def innerColumn (j : Nat) : Nat :=
  if j = 127 then 0
  else if 120 ≤ j then 2 ^ (j - 120)
  else
    let e := ((List.range 7).find? (fun e => decide (j + 2 + e < 2 ^ (e + 1)))).getD 6
    j + 2 + e

/-- Positions of a word that are 1. -/
def onesOf (r : BitVec 128) : List Nat := (List.range 128).filter (fun j => r.getLsbD j)

/-- Syndrome of a word given its ones. -/
def innerSyndrome (ones : List Nat) : Nat × Nat := (ones.foldl (fun a j => a ^^^ innerColumn j) 0, ones.length % 2)

/-- A word whose two syndromes are 0, an inner codeword (R111, R117). -/
def innerPasses (r : BitVec 128) : Bool := innerSyndrome (onesOf r) == (0, 0)

/-- The inner codeword of 120 information bits: `p_i` from the columns, then `p7` over the other 127 bits (R111). -/
def innerEncode (u : BitVec 120) : BitVec 128 :=
  let syn := innerSyndrome ((List.range 120).filter u.getLsbD)
  let ones := syn.2 + ((List.range 7).filter syn.1.testBit).length
  BitVec.ofNat 128 (u.toNat + 2 ^ 120 * syn.1 + 2 ^ 127 * (ones % 2))

/-- Hard decoding of a syndrome: the position to flip if any, or a detected double error (R114). -/
def hardDecode (sh sp : Nat) : Option (Option Nat) :=
  if sp = 0 then (if sh = 0 then some none else none)
  else if sh = 0 then some (some 127)
  else if 2 ^ Nat.log2 sh = sh then some (some (120 + Nat.log2 sh))
  else some (some (sh - 2 - Nat.log2 sh))

/-- Flipping a position twice leaves it. -/
def toggle (l : List Nat) (j : Nat) : List Nat := if l.contains j then l.filter (· != j) else j :: l

/-- The L least reliable positions, ties to the lower one (R115). -/
def leastReliable (rel : Nat → Nat) (l : Nat) : List Nat :=
  (((List.range 16).flatMap (fun v => (List.range 128).filter (fun j => rel j == v)))).take l

/-- The positions in which the candidate of test pattern k differs from the word, if it has one. -/
def chaseCandidate (sh sp : Nat) (least : List Nat) (k : Nat) : Option (List Nat) :=
  let flips := ((List.range least.length).filter (fun i => k.testBit i)).map (fun i => least.getD i 0)
  let sh' := flips.foldl (fun a j => a ^^^ innerColumn j) sh
  match hardDecode sh' ((sp + flips.length) % 2) with
  | none => none
  | some none => some flips
  | some (some j) => some (toggle flips j)

/-- The Chase decoder: the flips of the cheapest candidate, the lowest pattern winning a tie; none when no pattern
gives one (R115, R116). -/
def chase (r : BitVec 128) (rel : Nat → Nat) (l : Nat) : Option (List Nat) :=
  let syn := innerSyndrome (onesOf r)
  let least := leastReliable rel l
  let step (best : Option (Nat × List Nat)) (k : Nat) :=
    match chaseCandidate syn.1 syn.2 least k with
    | none => best
    | some f =>
      let cost := (f.map rel).sum
      match best with
      | none => some (cost, f)
      | some b => if cost < b.1 then some (cost, f) else best
  ((List.range (2 ^ l)).foldl step none).map (·.2)

/-- A word with some positions flipped. -/
def flipBits (r : BitVec 128) (l : List Nat) : BitVec 128 := l.foldl (fun a j => a ^^^ BitVec.ofNat 128 (2 ^ j)) r

/-- The 120 hard information bits that leave the inner decoder: r itself where there is no candidate (R116). -/
def innerOutput (r : BitVec 128) (flips : Option (List Nat)) : BitVec 120 := BitVec.setWidth 120 (flipBits r (flips.getD []))

/-! ### Symbols and interleave groups (R112) -/

/-- The level of two bits, the more significant first, under the Gray mapping. -/
def gray (a b : Bool) : Fin 4 := if a then (if b then 2 else 3) else (if b then 1 else 0)

/-- The two bits of a level, the more significant first. -/
def grayHigh (x : Fin 4) : Bool := decide (2 ≤ x.val)
def grayLow (x : Fin 4) : Bool := x == 1 || x == 2

/-- Information bits of codeword c of a group of 480 stream bits: u_j is bit 4j + c. -/
def groupInfo (g : BitVec 480) (c : Nat) : BitVec 120 :=
  BitVec.ofNat 120 ((List.range 120).foldr (fun j a => 2 * a + (g.getLsbD (4 * j + c)).toNat) 0)

/-- The stream bits of a group from the information bits of its four codewords. -/
def groupBits (u : List (BitVec 120)) : BitVec 480 :=
  BitVec.ofNat 480 ((List.range 480).foldr (fun t a => 2 * a + ((u.getD (t % 4) 0).getLsbD (t / 4)).toNat) 0)

/-- The 256 symbols of a group: output bit t is bit ⌊t/4⌋ of codeword t mod 4, and symbol m has bits 2m and 2m + 1. -/
def groupSymbols (g : BitVec 480) : List (Fin 4) :=
  let x := (List.range 4).map (fun c => innerEncode (groupInfo g c))
  let bit (t : Nat) := (x.getD (t % 4) 0).getLsbD (t / 4)
  (List.range 256).map (fun m => gray (bit (2 * m)) (bit (2 * m + 1)))

/-- The four received words of a group's symbols, as numbers: an even symbol holds a bit of codewords 0 and 1, an odd one a
bit of codewords 2 and 3. -/
def symbolWords : List (Fin 4) → List Nat
  | a :: b :: r =>
    let w := symbolWords r
    [2 * w.getD 0 0 + (grayHigh a).toNat, 2 * w.getD 1 0 + (grayLow a).toNat,
     2 * w.getD 2 0 + (grayHigh b).toNat, 2 * w.getD 3 0 + (grayLow b).toNat]
  | _ => [0, 0, 0, 0]

/-- Groups of 256 symbols from a point of a run of symbols. -/
def symbolGroups : Nat → List (Fin 4) → List (List Nat)
  | 0, _ => []
  | n + 1, l => symbolWords (l.take 256) :: symbolGroups n (l.drop 256)

/-- For each codeword position, the words of 64 groups that pass (R117). -/
def groupPasses (l : List (Fin 4)) : List Nat :=
  (List.range 4).map (fun c => ((symbolGroups 64 l).filter (fun w => innerPasses (BitVec.ofNat 128 (w.getD c 0)))).length)

/-! ### 1/(1+D) mod 4 precoding (R125) -/

/-- A run of symbols precoded after the symbol last sent. -/
def precode : Fin 4 → List (Fin 4) → List (Fin 4)
  | _, [] => []
  | last, x :: r => (x - last) :: precode (x - last) r

/-- The symbols of a precoded run, received after a symbol. -/
def unprecode : Fin 4 → List (Fin 4) → List (Fin 4)
  | _, [] => []
  | last, x :: r => (x + last) :: unprecode x r

/-! ### GF(2^10) and RS(544,514)

The field, generator and symbol order of IEEE 802.3 Clause 119, which R109 and R125 name: PRESUMED, log entry 65. -/

/-- An RS symbol. -/
abbrev Gf := BitVec 10

/-- Products by α and by its inverse, α^10 = α^3 + 1. -/
def gfDouble (a : Gf) : Gf := (a <<< 1) ^^^ (if a.getLsbD 9 then 0x009 else 0)
def gfHalf (a : Gf) : Gf := (a >>> 1) ^^^ (if a.getLsbD 0 then 0x204 else 0)

def gfMul (a b : Gf) : Gf := (List.range 10).foldr (fun i x => gfDouble x ^^^ (if a.getLsbD i then b else 0)) 0

/-- The inverse a^1022 of a nonzero symbol. -/
def gfInv (a : Gf) : Gf := ((List.range 9).foldl (fun x _ => (gfMul x.1 x.1, gfMul x.2 (gfMul x.1 x.1))) (a, (1 : Gf))).2

/-- The first n of the values x, f x, f (f x), … -/
def gfRun (f : Gf → Gf) : Nat → Gf → List Gf
  | 0, _ => []
  | n + 1, x => x :: gfRun f n (f x)

/-- A polynomial at x, its highest coefficient first, and its lowest first. -/
def evalHigh (p : List Gf) (x : Gf) : Gf := p.foldl (fun a c => gfMul a x ^^^ c) 0
def evalLow (p : List Gf) (x : Gf) : Gf := p.foldr (fun c a => gfMul a x ^^^ c) 0

/-- The generator, with roots α^0 to α^29, without its leading 1, highest coefficient first. -/
def rsGenerator : List Gf :=
  ((gfRun gfDouble 30 1).foldl (fun p r => List.zipWith (· ^^^ ·) (p ++ [0]) (0 :: p.map (gfMul r))) [1]).drop 1

/-- The 30 parity symbols of a message. -/
def rsParity (m : List Gf) : List Gf :=
  let g := rsGenerator
  m.foldl (fun st x =>
    let f := x ^^^ st.headD 0
    List.zipWith (fun a b => a ^^^ gfMul f b) (st.drop 1 ++ [0]) g) (List.replicate 30 0)

/-- The codeword of a message of 514 symbols, in the order sent. -/
def rsEncode (m : List Gf) : List Gf := m ++ rsParity m

/-- The 30 syndromes of a received word. -/
def rsSyndromes (r : List Gf) : List Gf := (gfRun gfDouble 30 1).map (evalHigh r)

/-- One step of the Berlekamp–Massey search: locator, auxiliary polynomial and length, lowest coefficient first. -/
def bmStep (syn : List Gf) (st : List Gf × List Gf × Nat) (n : Nat) : List Gf × List Gf × Nat :=
  let (loc, aux, len) := st
  let d := (List.range (n + 1)).foldl (fun a i => a ^^^ gfMul (loc.getD i 0) (syn.getD (n - i) 0)) 0
  let aux' := 0 :: aux
  if d = 0 then (loc, aux', len)
  else
    let size := max loc.length aux'.length
    let next := (List.range size).map (fun i => loc.getD i 0 ^^^ gfMul d (aux'.getD i 0))
    if 2 * len ≤ n then (next, loc.map (gfMul (gfInv d)), n + 1 - len) else (next, aux', len)

/-- The value of the error whose locator's inverse is x. -/
def rsValue (syn loc : List Gf) (x : Gf) : Gf :=
  let omega := (List.range 30).map (fun k => (List.range (k + 1)).foldl (fun a i => a ^^^ gfMul (loc.getD i 0) (syn.getD (k - i) 0)) 0)
  let slope := (List.range loc.length).map (fun i => if i % 2 = 0 then loc.getD (i + 1) 0 else 0)
  gfMul (gfInv x) (gfMul (evalLow omega x) (gfInv (evalLow slope x)))

/-- The errors of a received word by their index in it, at most 15; none where it is uncorrectable (R129). -/
def rsErrors (r : List Gf) : Option (List (Nat × Gf)) :=
  let syn := rsSyndromes r
  let (loc, _, len) := (List.range 30).foldl (bmStep syn) ([1], [1], 0)
  let points := (gfRun gfHalf 544 1).reverse
  let found := ((List.range 544).zip points).filter (fun q => evalLow loc q.2 = 0)
  let errs := found.map (fun q => (q.1, rsValue syn loc q.2))
  let fixed := errs.foldl (fun l e => l.set e.1 (l.getD e.1 0 ^^^ e.2)) r
  if decide (len ≤ 15) && decide (errs.length = len) && (rsSyndromes fixed).all (· == 0) then some errs else none

/-- Bits that are 1 in a symbol. -/
def gfOnes (a : Gf) : Nat := ((List.range 10).filter (fun i => a.getLsbD i)).length

/-! ### The FEC stream: two interleaved codewords in the order of symbol distribution (R109) -/

/-- The symbols of a codeword pair in stream order, for a number of FEC lanes: in the even ones of its rows the symbols of
the first codeword come first, in the odd ones those of the second. -/
def pairWeave (lanes : Nat) (a b : List Gf) : List Gf :=
  (List.zip a b).zipIdx.flatMap (fun q => if q.2 / (lanes / 2) % 2 = 0 then [q.1.1, q.1.2] else [q.1.2, q.1.1])

/-- The two codewords of a pair. -/
def pairParts (lanes : Nat) (l : List Gf) : List Gf × List Gf :=
  let two := fun (w : Nat) => (l.getD (2 * w) 0, l.getD (2 * w + 1) 0)
  let q := (List.range (l.length / 2)).map (fun w => if w / (lanes / 2) % 2 = 0 then two w else ((two w).2, (two w).1))
  (q.map Prod.fst, q.map Prod.snd)

/-- A string of bits in symbols of ten, bit 0 first. -/
def bitSymbols : List Bool → List Gf
  | a :: b :: c :: d :: e :: f :: g :: h :: i :: j :: r =>
    BitVec.ofNat 10 ([a, b, c, d, e, f, g, h, i, j].foldr (fun x v => 2 * v + x.toNat) 0) :: bitSymbols r
  | _ => []

/-- The bits of symbols, bit 0 of each first. -/
def symbolBits (l : List Gf) : List Bool := l.flatMap (fun x => (List.range 10).map (fun i => x.getLsbD i))

/-- Bits in groups of 480. -/
def bitGroups : Nat → List Bool → List (BitVec 480)
  | 0, _ => []
  | n + 1, l => BitVec.ofNat 480 ((l.take 480).foldr (fun x v => 2 * v + x.toNat) 0) :: bitGroups n (l.drop 480)

/-- The bits of groups in stream order. -/
def groupsBits (l : List (BitVec 480)) : List Bool := l.flatMap (fun g => (List.range 480).map (fun t => g.getLsbD t))

/-- The symbols of codeword pair p of a block of 68 groups: the pairs start at block bits 0, 10,880 and 21,760 (R113). -/
def blockPair (l : List (BitVec 480)) (p : Nat) : List Gf :=
  bitSymbols (((groupsBits ((l.drop (10880 * p / 480)).take 24)).drop (10880 * p % 480)).take 10880)

/-- Every eighth bit of a string. -/
def everyEighth (k : Nat) (l : List Bool) : List Bool := (l.zipIdx.filter (fun q => q.2 % 8 == k)).map Prod.fst

/-- The symbols of a pair from those of its flow's lanes, eight FEC lanes multiplexed bit by bit on each (R125, L212). -/
def unmux (lanes : Nat) (cols : List (List (Fin 4))) : List Gf :=
  let bits := cols.map (fun l => l.flatMap (fun x => [grayHigh x, grayLow x]))
  let flanes := bits.flatMap (fun b => (List.range 8).map (fun k => bitSymbols (everyEighth k b)))
  (List.range 1088).map (fun q => (flanes.getD (q % lanes) []).getD (q / lanes) 0)

/-- Both codewords of a pair are correctable. -/
def pairOk (lanes : Nat) (l : List Gf) : Bool :=
  (rsErrors (pairParts lanes l).1).isSome && (rsErrors (pairParts lanes l).2).isSome

/-- A block boundary passes when the three pairs of the block that starts there decode (R118). -/
def boundaryOk (l : List (BitVec 480)) : Bool := (List.range 3).all (fun p => pairOk 16 (blockPair l p))

end Sys2Proof.Machine
end

