-- ==== Sys2Proof/Machine/Sparse.lean ====
section
/-! DEFINITION. Sparse tables: a list of keys and values in one canonical form, over a default function that
says what an unlisted key reads as. The register file, the record stores and the per-page and per-master
tables of the state are held in this form, so that equal contents are equal data. -/

namespace Sys2Proof.Machine

/-- A sparse table: keys strictly rising, no value equal to what the key reads as when unlisted. -/
abbrev Sparse (α : Type) := List (Nat × α)

namespace Sparse

variable {α : Type}

/-- The value at a key: the listed one, or the default of the key. -/
def get (d : Nat → α) : Sparse α → Nat → α
  | [], k => d k
  | p :: r, k => if p.1 = k then p.2 else get d r k

/-- Everything but one key. -/
def drop (k : Nat) : Sparse α → Sparse α
  | [] => []
  | p :: r => if p.1 = k then drop k r else p :: drop k r

/-- A new entry before the first larger key. -/
def place (k : Nat) (v : α) : Sparse α → Sparse α
  | [] => [(k, v)]
  | p :: r => if k < p.1 then (k, v) :: p :: r else p :: place k v r

/-- The table with one key changed, canonical when it was. -/
def put [DecidableEq α] (d : Nat → α) (m : Sparse α) (k : Nat) (v : α) : Sparse α :=
  if v = d k then drop k m else place k v (drop k m)

/-- Keys strictly rising, all above a bound where one is given. -/
def sortedFrom : Option Nat → Sparse α → Bool
  | _, [] => true
  | none, p :: r => sortedFrom (some p.1) r
  | some b, p :: r => decide (b < p.1) && sortedFrom (some p.1) r

/-- The canonical form. -/
def wf [DecidableEq α] (d : Nat → α) (m : Sparse α) : Bool :=
  sortedFrom none m && m.all (fun p => decide (p.2 ≠ d p.1))

/-- The table without the entries a test selects: they read as their default again. -/
def clear (sel : Nat → Bool) (m : Sparse α) : Sparse α := m.filter (fun p => !sel p.1)

end Sparse

end Sys2Proof.Machine
end

