-- ==== Sys2Proof/Machine/Operands.lean ====
section
/-! DEFINITION. Operand forms: bit fields of registers, byte orders, the check functions the chapters give
(CRC-32C, CRC-16, CRC-8, SHA-256, HMAC and SHA-384), signed fields, rounding and the 40-bit arithmetic of the sequencers. -/

namespace Sys2Proof.Machine

/-! ### Bit fields -/

/-- Bits [lo + len − 1 : lo] of a word. -/
def fieldOf (w : Word) (lo len : Nat) : Nat := (w.toNat / 2 ^ lo) % 2 ^ len

/-- Ones at bits [lo + len − 1 : lo]. -/
def maskOf (lo len : Nat) : Word := BitVec.ofNat 32 ((2 ^ len - 1) * 2 ^ lo)

/-- The word with bits [lo + len − 1 : lo] replaced by v mod 2^len. -/
def withField (w : Word) (lo len v : Nat) : Word :=
  (w &&& ~~~(maskOf lo len)) ||| BitVec.ofNat 32 ((v % 2 ^ len) * 2 ^ lo)

/-- Bit i of a word. -/
def bitOf (w : Word) (i : Nat) : Bool := w.getLsbD i

/-- The word with bit i made b. -/
def withBit (w : Word) (i : Nat) (b : Bool) : Word := withField w i 1 (if b then 1 else 0)

/-- A field of len bits read as a two's-complement number. -/
def signedOf (len v : Nat) : Int := if v % 2 ^ len < 2 ^ (len - 1) then (v % 2 ^ len : Nat) else (v % 2 ^ len : Nat) - 2 ^ len

/-- A number as a two's-complement field of len bits. -/
def twosOf (len : Nat) (x : Int) : Nat := (x % 2 ^ len).toNat

/-- The selected bits of a register replaced by those of a written word. -/
def mergeBits (old sel v : Word) : Word := (old &&& ~~~sel) ||| (v &&& sel)

/-- The bits of a plain, masked-low and masked-high write: what they select and the values (R30, R31). -/
def maskedLowSel (v : Word) : Word := v >>> 16
def maskedLowVal (v : Word) : Word := v &&& 0xFFFF
def maskedHighSel (v : Word) : Word := v &&& 0xFFFF0000
def maskedHighVal (v : Word) : Word := v <<< 16

/-! ### Bytes -/

/-- The n bytes of a number, least significant first. -/
def bytesLE : Nat → Nat → List Byte
  | 0, _ => []
  | n + 1, v => BitVec.ofNat 8 v :: bytesLE n (v / 256)

/-- The n bytes of a number, most significant first. -/
def bytesBE (n v : Nat) : List Byte := (bytesLE n v).reverse

/-- The number whose bytes, most significant first, are given. -/
def natBE (l : List Byte) : Nat := l.foldl (fun a b => a * 256 + b.toNat) 0

/-- The number whose bytes, least significant first, are given. -/
def natLE (l : List Byte) : Nat := natBE l.reverse

/-- n bytes from an offset; bytes beyond the end read 0. -/
def slice (l : List Byte) (off n : Nat) : List Byte := (List.range n).map (fun i => l.getD (off + i) 0)

/-- Word k of a byte string, byte 4k in bits [31:24]. -/
def wordBE (l : List Byte) (k : Nat) : Word := BitVec.ofNat 32 (natBE (slice l (4 * k) 4))

/-- The 4 bytes of a word, bits [31:24] first. -/
def wordBytesBE (w : Word) : List Byte := bytesBE 4 w.toNat

/-- Whether every byte of a list is 0. -/
def allZero (l : List Byte) : Bool := l.all (fun b => b == 0)

/-! ### Check functions -/

/-- One bit of a reflected CRC with polynomial p. -/
def crcStepR (p c : Nat) : Nat := if c % 2 = 1 then (c / 2) ^^^ p else c / 2

/-- One byte of a reflected CRC. -/
def crcByteR (p c : Nat) (b : Byte) : Nat :=
  let x := c ^^^ b.toNat
  crcStepR p (crcStepR p (crcStepR p (crcStepR p (crcStepR p (crcStepR p (crcStepR p (crcStepR p x)))))))

/-- CRC-32C (R297): reflected, initial value and final XOR all ones. -/
def crc32c (l : List Byte) : Nat := (l.foldl (crcByteR 0x82F63B78) 0xFFFFFFFF) ^^^ 0xFFFFFFFF

/-- One bit of a CRC of w bits with polynomial p, most significant bit first. -/
def crcStep (w p c : Nat) : Nat := if 2 ^ (w - 1) ≤ c then ((2 * c) % 2 ^ w) ^^^ p else 2 * c

/-- One byte of such a CRC. -/
def crcByte (w p c : Nat) (b : Byte) : Nat :=
  let x := c ^^^ (b.toNat * 2 ^ (w - 8))
  let f := crcStep w p
  f (f (f (f (f (f (f (f x)))))))

/-- The CRC-16 of the Ingress Tag (R257). -/
def crc16 (l : List Byte) : Nat := l.foldl (crcByte 16 0x1021) 0xFFFF

/-- The CRC-8 of the Egress Tag (R258). -/
def crc8 (l : List Byte) : Nat := l.foldl (crcByte 8 0x07) 0

/-! ### SHA-256 (FIPS 180-4) and HMAC (FIPS 198-1), which R296 names -/

def shaK : List Nat :=
  [0x428a2f98, 0x71374491, 0xb5c0fbcf, 0xe9b5dba5, 0x3956c25b, 0x59f111f1, 0x923f82a4, 0xab1c5ed5,
   0xd807aa98, 0x12835b01, 0x243185be, 0x550c7dc3, 0x72be5d74, 0x80deb1fe, 0x9bdc06a7, 0xc19bf174] ++
  [0xe49b69c1, 0xefbe4786, 0x0fc19dc6, 0x240ca1cc, 0x2de92c6f, 0x4a7484aa, 0x5cb0a9dc, 0x76f988da,
   0x983e5152, 0xa831c66d, 0xb00327c8, 0xbf597fc7, 0xc6e00bf3, 0xd5a79147, 0x06ca6351, 0x14292967] ++
  [0x27b70a85, 0x2e1b2138, 0x4d2c6dfc, 0x53380d13, 0x650a7354, 0x766a0abb, 0x81c2c92e, 0x92722c85,
   0xa2bfe8a1, 0xa81a664b, 0xc24b8b70, 0xc76c51a3, 0xd192e819, 0xd6990624, 0xf40e3585, 0x106aa070] ++
  [0x19a4c116, 0x1e376c08, 0x2748774c, 0x34b0bcb5, 0x391c0cb3, 0x4ed8aa4a, 0x5b9cca4f, 0x682e6ff3,
   0x748f82ee, 0x78a5636f, 0x84c87814, 0x8cc70208, 0x90befffa, 0xa4506ceb, 0xbef9a3f7, 0xc67178f2]

def shaH : List Nat :=
  [0x6a09e667, 0xbb67ae85, 0x3c6ef372, 0xa54ff53a, 0x510e527f, 0x9b05688c, 0x1f83d9ab, 0x5be0cd19]

def add32 (a b : Nat) : Nat := (a + b) % 2 ^ 32
def rotr32 (n x : Nat) : Nat := (x / 2 ^ n) ||| ((x * 2 ^ (32 - n)) % 2 ^ 32)

/-- The message schedule: the 16 words of a block, latest first, extended by n words. -/
def shaExtend : Nat → List Nat → List Nat
  | 0, w => w
  | n + 1, w =>
    let w2 := w.getD 1 0
    let w15 := w.getD 14 0
    let s0 := rotr32 7 w15 ^^^ rotr32 18 w15 ^^^ (w15 / 2 ^ 3)
    let s1 := rotr32 17 w2 ^^^ rotr32 19 w2 ^^^ (w2 / 2 ^ 10)
    shaExtend n (add32 (add32 (w.getD 15 0) s0) (add32 (w.getD 6 0) s1) :: w)

/-- One round on the eight working variables. -/
def shaRound (v : List Nat) (kw : Nat × Nat) : List Nat :=
  match v with
  | [a, b, c, d, e, f, g, h] =>
    let t1 := add32 (add32 h (rotr32 6 e ^^^ rotr32 11 e ^^^ rotr32 25 e))
      (add32 ((e &&& f) ^^^ ((e ^^^ 0xFFFFFFFF) &&& g)) (add32 kw.1 kw.2))
    let t2 := add32 (rotr32 2 a ^^^ rotr32 13 a ^^^ rotr32 22 a) ((a &&& b) ^^^ (a &&& c) ^^^ (b &&& c))
    [add32 t1 t2, a, b, c, add32 d t1, e, f, g]
  | _ => v

/-- One block of 64 bytes. -/
def shaBlock (h : List Nat) (block : List Byte) : List Nat :=
  let w := (shaExtend 48 ((List.range 16).map (fun i => natBE (slice block (4 * i) 4))).reverse).reverse
  List.zipWith add32 h ((List.zip shaK w).foldl shaRound h)

/-- The blocks of a message, at most n of them. -/
def shaBlocks : Nat → List Nat → List Byte → List Nat
  | 0, h, _ => h
  | n + 1, h, m => if m.isEmpty then h else shaBlocks n (shaBlock h (m.take 64)) (m.drop 64)

/-- SHA-256 of a byte string, 32 bytes. -/
def sha256 (m : List Byte) : List Byte :=
  let pad := (119 - m.length % 64) % 64
  let padded := m ++ [0x80] ++ List.replicate pad 0 ++ bytesBE 8 (8 * m.length)
  (shaBlocks (padded.length / 64 + 1) shaH padded).flatMap (bytesBE 4)

/-- HMAC-SHA-256 under a key of at most 64 bytes. -/
def hmacSha256 (key m : List Byte) : List Byte :=
  let k := slice key 0 64
  sha256 (k.map (· ^^^ 0x5C) ++ sha256 (k.map (· ^^^ 0x36) ++ m))

/-! ### SHA-384 (FIPS 180-4), which R396 and R405 name -/

def sha5K : List Nat :=
  [0x428a2f98d728ae22, 0x7137449123ef65cd, 0xb5c0fbcfec4d3b2f, 0xe9b5dba58189dbbc,
   0x3956c25bf348b538, 0x59f111f1b605d019, 0x923f82a4af194f9b, 0xab1c5ed5da6d8118,
   0xd807aa98a3030242, 0x12835b0145706fbe, 0x243185be4ee4b28c, 0x550c7dc3d5ffb4e2,
   0x72be5d74f27b896f, 0x80deb1fe3b1696b1, 0x9bdc06a725c71235, 0xc19bf174cf692694] ++
  [0xe49b69c19ef14ad2, 0xefbe4786384f25e3, 0x0fc19dc68b8cd5b5, 0x240ca1cc77ac9c65,
   0x2de92c6f592b0275, 0x4a7484aa6ea6e483, 0x5cb0a9dcbd41fbd4, 0x76f988da831153b5,
   0x983e5152ee66dfab, 0xa831c66d2db43210, 0xb00327c898fb213f, 0xbf597fc7beef0ee4,
   0xc6e00bf33da88fc2, 0xd5a79147930aa725, 0x06ca6351e003826f, 0x142929670a0e6e70] ++
  [0x27b70a8546d22ffc, 0x2e1b21385c26c926, 0x4d2c6dfc5ac42aed, 0x53380d139d95b3df,
   0x650a73548baf63de, 0x766a0abb3c77b2a8, 0x81c2c92e47edaee6, 0x92722c851482353b,
   0xa2bfe8a14cf10364, 0xa81a664bbc423001, 0xc24b8b70d0f89791, 0xc76c51a30654be30,
   0xd192e819d6ef5218, 0xd69906245565a910, 0xf40e35855771202a, 0x106aa07032bbd1b8] ++
  [0x19a4c116b8d2d0c8, 0x1e376c085141ab53, 0x2748774cdf8eeb99, 0x34b0bcb5e19b48a8,
   0x391c0cb3c5c95a63, 0x4ed8aa4ae3418acb, 0x5b9cca4f7763e373, 0x682e6ff3d6b2b8a3,
   0x748f82ee5defb2fc, 0x78a5636f43172f60, 0x84c87814a1f0ab72, 0x8cc702081a6439ec,
   0x90befffa23631e28, 0xa4506cebde82bde9, 0xbef9a3f7b2c67915, 0xc67178f2e372532b] ++
  [0xca273eceea26619c, 0xd186b8c721c0c207, 0xeada7dd6cde0eb1e, 0xf57d4f7fee6ed178,
   0x06f067aa72176fba, 0x0a637dc5a2c898a6, 0x113f9804bef90dae, 0x1b710b35131c471b,
   0x28db77f523047d84, 0x32caab7b40c72493, 0x3c9ebe0a15c9bebc, 0x431d67c49c100d4c,
   0x4cc5d4becb3e42b6, 0x597f299cfc657e2a, 0x5fcb6fab3ad6faec, 0x6c44198c4a475817]

def sha384H : List Nat :=
  [0xcbbb9d5dc1059ed8, 0x629a292a367cd507, 0x9159015a3070dd17, 0x152fecd8f70e5939,
   0x67332667ffc00b31, 0x8eb44a8768581511, 0xdb0c2e0d64f98fa7, 0x47b5481dbefa4fa4]

def add64 (a b : Nat) : Nat := (a + b) % 2 ^ 64
def rotr64 (n x : Nat) : Nat := (x / 2 ^ n) ||| ((x * 2 ^ (64 - n)) % 2 ^ 64)

/-- The message schedule: the 16 words of a block, latest first, extended by n words. -/
def sha5Extend : Nat → List Nat → List Nat
  | 0, w => w
  | n + 1, w =>
    let w2 := w.getD 1 0
    let w15 := w.getD 14 0
    let s0 := rotr64 1 w15 ^^^ rotr64 8 w15 ^^^ (w15 / 2 ^ 7)
    let s1 := rotr64 19 w2 ^^^ rotr64 61 w2 ^^^ (w2 / 2 ^ 6)
    sha5Extend n (add64 (add64 (w.getD 15 0) s0) (add64 (w.getD 6 0) s1) :: w)

/-- One round on the eight working variables. -/
def sha5Round (v : List Nat) (kw : Nat × Nat) : List Nat :=
  match v with
  | [a, b, c, d, e, f, g, h] =>
    let t1 := add64 (add64 h (rotr64 14 e ^^^ rotr64 18 e ^^^ rotr64 41 e))
      (add64 ((e &&& f) ^^^ ((e ^^^ 0xFFFFFFFFFFFFFFFF) &&& g)) (add64 kw.1 kw.2))
    let t2 := add64 (rotr64 28 a ^^^ rotr64 34 a ^^^ rotr64 39 a) ((a &&& b) ^^^ (a &&& c) ^^^ (b &&& c))
    [add64 t1 t2, a, b, c, add64 d t1, e, f, g]
  | _ => v

/-- One block of 128 bytes. -/
def sha5Block (h : List Nat) (block : List Byte) : List Nat :=
  let w := (sha5Extend 64 ((List.range 16).map (fun i => natBE (slice block (8 * i) 8))).reverse).reverse
  List.zipWith add64 h ((List.zip sha5K w).foldl sha5Round h)

/-- The blocks of a message, at most n of them. -/
def sha5Blocks : Nat → List Nat → List Byte → List Nat
  | 0, h, _ => h
  | n + 1, h, m => if m.isEmpty then h else sha5Blocks n (sha5Block h (m.take 128)) (m.drop 128)

/-- SHA-384 of a byte string, 48 bytes. -/
def sha384 (m : List Byte) : List Byte :=
  let pad := (239 - m.length % 128) % 128
  let padded := m ++ [0x80] ++ List.replicate pad 0 ++ bytesBE 16 (8 * m.length)
  ((sha5Blocks (padded.length / 128 + 1) sha384H padded).take 6).flatMap (bytesBE 8)

/-! ### Rounding and 40-bit arithmetic -/

/-- n / 2^s rounded half to even. -/
def roundHalfEven (n : Int) (s : Nat) : Int :=
  let q := n / 2 ^ s
  let r := n % 2 ^ s
  if 2 * r > 2 ^ s then q + 1 else if 2 * r = 2 ^ s ∧ s ≠ 0 then q + q % 2 else q

/-- n / d rounded half to even, d positive. -/
def divHalfEven (n d : Int) : Int :=
  let q := n / d
  let r := n % d
  if 2 * r > d then q + 1 else if 2 * r = d then q + q % 2 else q

/-- The clamp of R344: the result and whether it saturated. -/
def sat40 (x : Int) : BitVec 40 × Bool :=
  if x > 2 ^ 39 - 1 then (BitVec.ofInt 40 (2 ^ 39 - 1), true)
  else if x < -(2 ^ 39) then (BitVec.ofInt 40 (-(2 ^ 39)), true)
  else (BitVec.ofInt 40 x, false)

/-- Base-2 logarithm of a ratio N / e as the contour code of R274: ⌊16 log10(N / e)⌋, at most 0xFE, computed as the
largest k with 10^k e^16 ≤ N^16. -/
def contourCode (n e : Nat) : Nat :=
  if e = 0 then 0xFF else ((List.range 160).filter (fun k => decide (0 < k) && decide (10 ^ k * e ^ 16 ≤ n ^ 16))).length

end Sys2Proof.Machine
end

