-- ==== Sys2Proof/Machine/RegMap.lean ====
section
/-! DEFINITION. The register map: the pages, the offsets of every register, and for each register its reset value,
the bits software may write, the bits only an expert may write and the bits a 1 clears, from the register and
field tables of the chapters. -/

namespace Sys2Proof.Machine

/-! ### Register offsets, by page (the tables of the chapters named) -/

/-! `HDR` (02). -/

namespace HDR
@[simp] abbrev PAGE_ID : Nat := 0x000
@[simp] abbrev PAGE_REV : Nat := 0x004
@[simp] abbrev PAGE_CTRL : Nat := 0x008
@[simp] abbrev PAGE_STATUS : Nat := 0x00C
@[simp] abbrev INT_STATUS : Nat := 0x010
@[simp] abbrev INT_ENABLE : Nat := 0x014
@[simp] abbrev INT_FORCE : Nat := 0x018
@[simp] abbrev LOCK : Nat := 0x01C
@[simp] abbrev ERR_INFO : Nat := 0x020
@[simp] abbrev PARITY_ADDR : Nat := 0x024
end HDR

/-! `DEVICE` (02, 19). -/

namespace DEVICE
@[simp] abbrev CHIP_ID : Nat := 0x040
@[simp] abbrev SILICON_REV : Nat := 0x044
@[simp] abbrev EXPERT_KEY : Nat := 0x048
@[simp] abbrev PART_CODE : Nat := 0x04C
@[simp] abbrev SCRATCH : Nat := 0x050
@[simp] abbrev FAULT_CTRL : Nat := 0x100
@[simp] abbrev FAULT_STATUS : Nat := 0x104
@[simp] abbrev FAULT_POP : Nat := 0x108
@[simp] abbrev LOG_LOST : Nat := 0x10C
@[simp] abbrev FAULT_REC : Nat := 0x110
@[simp] abbrev FAULT_CNT : Nat := 0x184
end DEVICE

/-! `INTR` (02). -/

namespace INTR
@[simp] abbrev GROUP_STATUS : Nat := 0x040
@[simp] abbrev ROUTE : Nat := 0x080
@[simp] abbrev PAGE_PENDING : Nat := 0x100
end INTR

/-! `LOCKS` (02). -/

namespace LOCKS
@[simp] abbrev LOCK_QUERY : Nat := 0x040
@[simp] abbrev LOCK_RESULT : Nat := 0x044
@[simp] abbrev LOCK_BREAK : Nat := 0x048
@[simp] abbrev BREAK_COUNT : Nat := 0x04C
@[simp] abbrev EXPERT_SESSION : Nat := 0x050
end LOCKS

/-! `THERM` (17). -/

namespace THERM
@[simp] abbrev THERM_CFG : Nat := 0x040
@[simp] abbrev LIMIT_ABS : Nat := 0x044
@[simp] abbrev LIMIT_RATE : Nat := 0x048
@[simp] abbrev STACK_LIMIT : Nat := 0x04C
@[simp] abbrev THERM_STATUS : Nat := 0x050
@[simp] abbrev ZONE_ALARM : Nat := 0x054
@[simp] abbrev BROKEN : Nat := 0x058
@[simp] abbrev THERM_CMD : Nat := 0x05C
@[simp] abbrev PAUSE_SET : Nat := 0x060
@[simp] abbrev SHUT_RECORD : Nat := 0x064
@[simp] abbrev PRIV_TRIP : Nat := 0x068
@[simp] abbrev STACK_TEMP : Nat := 0x06C
@[simp] abbrev ZONE_TEMP : Nat := 0x080
@[simp] abbrev ZONE_RAW : Nat := 0x0C0
@[simp] abbrev WARN_EVENTS : Nat := 0x100
@[simp] abbrev THROTTLE_EVENTS : Nat := 0x104
@[simp] abbrev THROTTLE_MS : Nat := 0x108
end THERM

/-! `SUPPLY` (17). -/

namespace SUPPLY
@[simp] abbrev SUP_STATUS : Nat := 0x040
@[simp] abbrev SUP_EVENT : Nat := 0x044
@[simp] abbrev HOLD_LEFT : Nat := 0x048
@[simp] abbrev SWEEP_STATUS : Nat := 0x04C
@[simp] abbrev RAIL_V : Nat := 0x080
@[simp] abbrev DIP_COUNT : Nat := 0x0C0
end SUPPLY

/-! `VIGIL` (17). -/

namespace VIGIL
@[simp] abbrev VIGIL_CFG : Nat := 0x040
@[simp] abbrev VIGIL_CMD : Nat := 0x044
@[simp] abbrev VIGIL_TIMER : Nat := 0x048
@[simp] abbrev VIGIL_STATUS : Nat := 0x04C
@[simp] abbrev WAKE_CAUSE : Nat := 0x050
@[simp] abbrev ENTRY_TIME : Nat := 0x054
@[simp] abbrev EXIT_TIME : Nat := 0x058
@[simp] abbrev VIGIL_COUNT : Nat := 0x05C
@[simp] abbrev VIGIL_MS : Nat := 0x060
end VIGIL

/-! `PWR` (17). -/

namespace PWR
@[simp] abbrev PWR_EST : Nat := 0x040
@[simp] abbrev PWR_PEAK : Nat := 0x044
@[simp] abbrev PAUSE_SLOTS : Nat := 0x048
end PWR

/-! `CLKRST` (08, 14). -/

namespace CLKRST
@[simp] abbrev TIME_RD : Nat := 0x200
@[simp] abbrev TIME_WR : Nat := 0x210
@[simp] abbrev TIME_CMD : Nat := 0x21C
@[simp] abbrev FREQ_ADJ : Nat := 0x220
@[simp] abbrev PPS_CTRL : Nat := 0x224
@[simp] abbrev PPS_STATUS : Nat := 0x228
@[simp] abbrev PPS_CAPT : Nat := 0x230
@[simp] abbrev PPS_COUNT : Nat := 0x23C
@[simp] abbrev REF_STATUS : Nat := 0x040
@[simp] abbrev PLL_STATUS : Nat := 0x044
@[simp] abbrev RESET_CAUSE : Nat := 0x048
@[simp] abbrev DEV_RESET : Nat := 0x04C
@[simp] abbrev MC_RESET : Nat := 0x050
@[simp] abbrev ISLAND_SEL : Nat := 0x054
@[simp] abbrev ISLAND_CMD : Nat := 0x058
@[simp] abbrev ISLAND_STATUS : Nat := 0x05C
@[simp] abbrev HANG_ISLAND : Nat := 0x060
@[simp] abbrev WD_RESETS : Nat := 0x064
@[simp] abbrev BRIDGE_DROPS : Nat := 0x068
@[simp] abbrev REF_LOSSES : Nat := 0x06C
@[simp] abbrev PLL_UNLOCKS : Nat := 0x070
@[simp] abbrev LPLL_INT : Nat := 0x080
@[simp] abbrev LPLL_NUM : Nat := 0x084
@[simp] abbrev LPLL_DEN : Nat := 0x088
@[simp] abbrev LPLL_CTRL : Nat := 0x08C
end CLKRST

/-! `LRX` (03). -/

namespace LRX
@[simp] abbrev LANE_CTRL : Nat := 0x040
@[simp] abbrev LANE_CMD : Nat := 0x044
@[simp] abbrev LANE_STATE : Nat := 0x048
@[simp] abbrev STATE_TIME : Nat := 0x04C
@[simp] abbrev BRINGUP_TMO : Nat := 0x050
@[simp] abbrev HOLD_LIMIT : Nat := 0x054
@[simp] abbrev CKPT_CTRL : Nat := 0x058
@[simp] abbrev CKPT_STATUS : Nat := 0x05C
@[simp] abbrev CKPT_SEL : Nat := 0x060
@[simp] abbrev AGC_CTRL : Nat := 0x064
@[simp] abbrev AGC_STATUS : Nat := 0x068
@[simp] abbrev CDR_CTRL : Nat := 0x06C
@[simp] abbrev CDR_STATUS : Nat := 0x070
@[simp] abbrev FFE_CTRL : Nat := 0x074
@[simp] abbrev FFE_FREEZE_LO : Nat := 0x078
@[simp] abbrev FFE_FREEZE_HI : Nat := 0x07C
@[simp] abbrev MLSE_CTRL : Nat := 0x080
@[simp] abbrev DFE_CTRL : Nat := 0x084
@[simp] abbrev DFE_TAP : Nat := 0x088
@[simp] abbrev PILOT_STATUS : Nat := 0x08C
@[simp] abbrev LOS_CTRL : Nat := 0x090
@[simp] abbrev LOS_STATUS : Nat := 0x094
@[simp] abbrev QUALITY : Nat := 0x098
@[simp] abbrev SNR_EYE_LM : Nat := 0x09C
@[simp] abbrev SNR_EYE_U : Nat := 0x0A0
@[simp] abbrev SNR_ALARM : Nat := 0x0A4
@[simp] abbrev EYE_CTRL : Nat := 0x0A8
@[simp] abbrev EYE_GRID : Nat := 0x0AC
@[simp] abbrev EYE_CMD : Nat := 0x0B0
@[simp] abbrev EYE_STATUS : Nat := 0x0B4
@[simp] abbrev ACQ_COUNT : Nat := 0x0C0
@[simp] abbrev HOLD_COUNT : Nat := 0x0C4
@[simp] abbrev WR_COUNT : Nat := 0x0C8
@[simp] abbrev WR_FAIL : Nat := 0x0CC
@[simp] abbrev WR_NOCKPT : Nat := 0x0D0
@[simp] abbrev LOS_COUNT : Nat := 0x0D4
@[simp] abbrev FAULT_COUNT : Nat := 0x0D8
@[simp] abbrev CKPT_SAVES : Nat := 0x0DC
@[simp] abbrev CKPT_SKIPS : Nat := 0x0E0
@[simp] abbrev FFE_MU : Nat := 0x0E4
@[simp] abbrev FFE_TAP : Nat := 0x100
@[simp] abbrev MLSE_LEVEL : Nat := 0x200
@[simp] abbrev CKPT_DATA : Nat := 0x300
@[simp] abbrev EYE_DATA : Nat := 0x800
end LRX

/-! `LTX` (09). -/

namespace LTX
@[simp] abbrev TX_CTRL : Nat := 0x040
@[simp] abbrev TX_STATE : Nat := 0x044
@[simp] abbrev LEVEL : Nat := 0x048
@[simp] abbrev PD_CTRL : Nat := 0x04C
@[simp] abbrev PILOT_CTRL : Nat := 0x050
@[simp] abbrev PILOT_STATUS : Nat := 0x054
@[simp] abbrev FIR_CMD : Nat := 0x058
@[simp] abbrev FIR_STATUS : Nat := 0x05C
@[simp] abbrev TUNE_CTRL : Nat := 0x060
@[simp] abbrev TUNE_STATUS : Nat := 0x064
@[simp] abbrev TUNE_APPLIED : Nat := 0x068
@[simp] abbrev TUNE_REFUSED : Nat := 0x06C
@[simp] abbrev TUNE_FWD : Nat := 0x070
@[simp] abbrev TUNE_DUP : Nat := 0x074
@[simp] abbrev SQUELCH_COUNT : Nat := 0x078
@[simp] abbrev TX_ABORTED : Nat := 0x07C
@[simp] abbrev CLIPS : Nat := 0x080
@[simp] abbrev TX_FRAMES : Nat := 0x088
@[simp] abbrev TX_BYTES : Nat := 0x090
@[simp] abbrev TX_TAP : Nat := 0x0A0
@[simp] abbrev FIR_STAGE : Nat := 0x0E0
@[simp] abbrev TAP_BOUND : Nat := 0x120
@[simp] abbrev PD_TABLE : Nat := 0x200
end LTX

/-! `LFEC` (04). -/

namespace LFEC
@[simp] abbrev FEC_CTRL : Nat := 0x040
@[simp] abbrev ALIGN_STATUS : Nat := 0x044
@[simp] abbrev ALIGN_CTRL : Nat := 0x048
@[simp] abbrev SKEW : Nat := 0x04C
@[simp] abbrev DEG_WINDOW : Nat := 0x050
@[simp] abbrev DEG_SET : Nat := 0x054
@[simp] abbrev DEG_CLR : Nat := 0x058
@[simp] abbrev DEG_HOLDOFF : Nat := 0x05C
@[simp] abbrev DEG_CMD : Nat := 0x060
@[simp] abbrev HIST_LIM_LO : Nat := 0x064
@[simp] abbrev HIST_LIM_HI : Nat := 0x068
@[simp] abbrev DEG_ACC : Nat := 0x06C
@[simp] abbrev INNER_CW : Nat := 0x100
@[simp] abbrev INNER_CORR1 : Nat := 0x108
@[simp] abbrev INNER_CORRM : Nat := 0x110
@[simp] abbrev INNER_FAIL : Nat := 0x118
@[simp] abbrev RS_CW : Nat := 0x120
@[simp] abbrev RS_CORR : Nat := 0x128
@[simp] abbrev RS_UNC : Nat := 0x130
@[simp] abbrev RS_SYM : Nat := 0x138
@[simp] abbrev RS_BIT : Nat := 0x140
@[simp] abbrev ALIGN_LOSS : Nat := 0x150
@[simp] abbrev DEG_EVENTS : Nat := 0x154
@[simp] abbrev PORT_HOLDS : Nat := 0x158
@[simp] abbrev DESKEW_ERRS : Nat := 0x15C
@[simp] abbrev AM_ERRS : Nat := 0x160
@[simp] abbrev BLK_ERR : Nat := 0x164
@[simp] abbrev HIST : Nat := 0x180
end LFEC

/-! `HOST` (08). -/

namespace HOST
@[simp] abbrev HOST_CTRL : Nat := 0x040
@[simp] abbrev HOST_STATE : Nat := 0x044
@[simp] abbrev LINK_STATUS : Nat := 0x048
@[simp] abbrev EQ_STATUS : Nat := 0x04C
@[simp] abbrev PRBS_CTRL : Nat := 0x050
@[simp] abbrev PRBS_CMD : Nat := 0x054
@[simp] abbrev PRBS_STATUS : Nat := 0x058
@[simp] abbrev PRBS_BITS : Nat := 0x060
@[simp] abbrev PRBS_ERRS : Nat := 0x068
@[simp] abbrev EYE_CTRL : Nat := 0x070
@[simp] abbrev EYE_GRID : Nat := 0x074
@[simp] abbrev EYE_CMD : Nat := 0x078
@[simp] abbrev EYE_STATUS : Nat := 0x07C
@[simp] abbrev RX_FRAMES : Nat := 0x080
@[simp] abbrev RX_BYTES : Nat := 0x088
@[simp] abbrev TX_FRAMES : Nat := 0x090
@[simp] abbrev TX_BYTES : Nat := 0x098
@[simp] abbrev TAG_ERRS : Nat := 0x0A0
@[simp] abbrev FCS_ERRS : Nat := 0x0A4
@[simp] abbrev LENGTH_ERRS : Nat := 0x0A8
@[simp] abbrev RS_CORR : Nat := 0x0AC
@[simp] abbrev RS_UNC : Nat := 0x0B0
@[simp] abbrev DOWN_COUNT : Nat := 0x0B4
@[simp] abbrev TS_ADJ : Nat := 0x0C4
@[simp] abbrev TXTS_STATUS : Nat := 0x0C8
@[simp] abbrev TXTS_SEQ : Nat := 0x0CC
@[simp] abbrev TXTS_TIME : Nat := 0x0D0
@[simp] abbrev TXTS_POP : Nat := 0x0DC
@[simp] abbrev TS_DROPPED : Nat := 0x0E0
@[simp] abbrev TS_RANGE : Nat := 0x0E4
@[simp] abbrev EQ_SET0 : Nat := 0x100
@[simp] abbrev EQ_SET1 : Nat := 0x120
@[simp] abbrev EYE_DATA : Nat := 0x800
end HOST

/-! `SLICE` (01, 08). -/

namespace SLICE
@[simp] abbrev SLICE_CFG : Nat := 0x040
@[simp] abbrev SLICE_STATUS : Nat := 0x044
@[simp] abbrev LINE_PAUSE_RX : Nat := 0x048
@[simp] abbrev LINE_PAUSED : Nat := 0x04C
@[simp] abbrev LINE_MACCTL_RX : Nat := 0x050
@[simp] abbrev LINE_CTL_ERR : Nat := 0x054
@[simp] abbrev HOST_CFG : Nat := 0x100
@[simp] abbrev LP_MAP : Nat := 0x104
@[simp] abbrev EG_CTRL : Nat := 0x200
@[simp] abbrev EG_SA_LO : Nat := 0x204
@[simp] abbrev EG_SA_HI : Nat := 0x208
@[simp] abbrev EG_FC_STATUS : Nat := 0x20C
@[simp] abbrev EG_FC_SENT : Nat := 0x210
@[simp] abbrev EG_XOFF : Nat := 0x240
@[simp] abbrev EG_XON : Nat := 0x244
@[simp] abbrev EG_PRI : Nat := 0x248
@[simp] abbrev EG_FILL : Nat := 0x24C
@[simp] abbrev EG_OVERFLOW : Nat := 0x250
@[simp] abbrev EG_XOFF_EVENTS : Nat := 0x258
end SLICE

/-! `CLS` (05). -/

namespace CLS
@[simp] abbrev CLS_CTRL : Nat := 0x040
@[simp] abbrev DIGEST_SEED_LO : Nat := 0x044
@[simp] abbrev DIGEST_SEED_HI : Nat := 0x048
@[simp] abbrev OCCUPANCY : Nat := 0x04C
@[simp] abbrev LOOKUPS : Nat := 0x050
@[simp] abbrev HITS : Nat := 0x058
@[simp] abbrev MISSES : Nat := 0x060
@[simp] abbrev PARSE_TRUNC : Nat := 0x068
@[simp] abbrev PARSE_MALFORMED : Nat := 0x06C
@[simp] abbrev AGE_CTRL : Nat := 0x070
@[simp] abbrev AGED : Nat := 0x074
@[simp] abbrev AGE_DEFER : Nat := 0x078
@[simp] abbrev RESTORE_CMD : Nat := 0x07C
@[simp] abbrev RESTORE_STATUS : Nat := 0x080
@[simp] abbrev RESTORE_BAD : Nat := 0x084
@[simp] abbrev PORT_KEY : Nat := 0x0C0
end CLS

/-! `CLS_PROF` (05). -/

namespace CLS_PROF
@[simp] abbrev PROF_STATUS : Nat := 0x040
@[simp] abbrev PROF_REJECTS : Nat := 0x044
@[simp] abbrev GROUP : Nat := 0x400
end CLS_PROF

/-! `CLS_MISS` (05). -/

namespace CLS_MISS
@[simp] abbrev LEARN_BASE : Nat := 0x040
@[simp] abbrev LEARN_COUNT : Nat := 0x044
@[simp] abbrev LEARN_CMD : Nat := 0x048
@[simp] abbrev LEARN_POOL : Nat := 0x04C
@[simp] abbrev PUNT_HOLD : Nat := 0x050
@[simp] abbrev LEARNED : Nat := 0x054
@[simp] abbrev LEARN_NOID : Nat := 0x058
@[simp] abbrev LEARN_DROP : Nat := 0x05C
@[simp] abbrev LEARN_REVOKED : Nat := 0x060
@[simp] abbrev LEARN_EXISTS : Nat := 0x064
@[simp] abbrev LEARN_FULL : Nat := 0x068
@[simp] abbrev PUNTS : Nat := 0x06C
@[simp] abbrev PUNT_DUP : Nat := 0x070
@[simp] abbrev PUNT_LIMITED : Nat := 0x074
@[simp] abbrev PUNT_RING_FULL : Nat := 0x078
@[simp] abbrev MISS_CFG : Nat := 0x100
@[simp] abbrev DEF_FLOW : Nat := 0x104
@[simp] abbrev PUNT_RATE : Nat := 0x108
end CLS_MISS

/-! `CLS_UPD` (05). -/

namespace CLS_UPD
@[simp] abbrev UPD_CTRL : Nat := 0x040
@[simp] abbrev UPD_CMD : Nat := 0x044
@[simp] abbrev STAGE_RANGE : Nat := 0x048
@[simp] abbrev UPD_STATUS : Nat := 0x04C
@[simp] abbrev UPD_TAG : Nat := 0x050
@[simp] abbrev RD_INDEX : Nat := 0x054
@[simp] abbrev RD_CMD : Nat := 0x058
@[simp] abbrev RD_DATA : Nat := 0x060
@[simp] abbrev UPDATES : Nat := 0x070
@[simp] abbrev UPD_FAILS : Nat := 0x074
@[simp] abbrev MOVES : Nat := 0x078
@[simp] abbrev UPD_DESC : Nat := 0x100
end CLS_UPD

/-! `CLS_BANK` (05). -/

namespace CLS_BANK
@[simp] abbrev BANK_STATUS : Nat := 0x040
@[simp] abbrev BANK_OCC : Nat := 0x044
@[simp] abbrev SHADOW_SERVED : Nat := 0x048
@[simp] abbrev SHADOW_OVER : Nat := 0x04C
@[simp] abbrev ECC_CORR : Nat := 0x050
@[simp] abbrev ECC_UNC : Nat := 0x054
@[simp] abbrev RELOADS : Nat := 0x058
end CLS_BANK

/-! `FLOW` (06). -/

namespace FLOW
@[simp] abbrev JOURNAL_CTRL : Nat := 0x040
@[simp] abbrev JOURNAL_STATUS : Nat := 0x044
@[simp] abbrev JOURNAL_PEAK : Nat := 0x048
@[simp] abbrev REC_BASE : Nat := 0x04C
@[simp] abbrev INIT_FIRST : Nat := 0x050
@[simp] abbrev INIT_COUNT : Nat := 0x054
@[simp] abbrev INIT_CMD : Nat := 0x058
@[simp] abbrev INIT_STATUS : Nat := 0x05C
@[simp] abbrev TPL_RATE_C : Nat := 0x060
@[simp] abbrev TPL_RATE_E : Nat := 0x064
@[simp] abbrev TPL_BURST_C : Nat := 0x068
@[simp] abbrev TPL_BURST_E : Nat := 0x06C
@[simp] abbrev CACHE_CMD : Nat := 0x070
@[simp] abbrev CACHE_STATUS : Nat := 0x074
@[simp] abbrev CACHE_HITS : Nat := 0x080
@[simp] abbrev CACHE_MISSES : Nat := 0x088
@[simp] abbrev WRITEBACKS : Nat := 0x090
@[simp] abbrev ALIASES : Nat := 0x098
@[simp] abbrev KEY_UNREAD : Nat := 0x0A0
@[simp] abbrev REFUND_SPILL : Nat := 0x0A4
@[simp] abbrev STAGE_DISCARD : Nat := 0x0A8
end FLOW

/-! `FEXP` (06). -/

namespace FEXP
@[simp] abbrev EXP_IDLE : Nat := 0x040
@[simp] abbrev EXP_ACTIVE : Nat := 0x044
@[simp] abbrev SWEEP_PERIOD : Nat := 0x048
@[simp] abbrev SWEEP_STATUS : Nat := 0x04C
@[simp] abbrev EXPORTS : Nat := 0x050
@[simp] abbrev EXP_RING_FULL : Nat := 0x058
@[simp] abbrev SWEEP_TIME : Nat := 0x05C
end FEXP

/-! `ADMIT` (06). -/

namespace ADMIT
@[simp] abbrev FB_WINDOW : Nat := 0x040
@[simp] abbrev FB_ENTER : Nat := 0x044
@[simp] abbrev FB_EXIT : Nat := 0x048
@[simp] abbrev FB_HOLD : Nat := 0x04C
@[simp] abbrev FB_CMD : Nat := 0x050
@[simp] abbrev FB_STATUS : Nat := 0x054
@[simp] abbrev SNAP_CMD : Nat := 0x058
@[simp] abbrev PENDING : Nat := 0x100
@[simp] abbrev PEAK : Nat := 0x104
@[simp] abbrev FB_WIN : Nat := 0x108
@[simp] abbrev FB_TIME : Nat := 0x10C
@[simp] abbrev ENTERED : Nat := 0x110
@[simp] abbrev COMMITTED : Nat := 0x118
@[simp] abbrev REV_FEC : Nat := 0x120
@[simp] abbrev REV_PCS : Nat := 0x128
@[simp] abbrev REV_FCS : Nat := 0x130
@[simp] abbrev REV_LENGTH : Nat := 0x138
@[simp] abbrev REV_KEY : Nat := 0x140
@[simp] abbrev REV_PINNED : Nat := 0x148
@[simp] abbrev REV_TIMEOUT : Nat := 0x150
@[simp] abbrev SF_ADMITTED : Nat := 0x158
@[simp] abbrev SF_REJECTED : Nat := 0x160
@[simp] abbrev SLOT_FULL : Nat := 0x168
@[simp] abbrev LANE_FEC_BAD : Nat := 0x170
@[simp] abbrev FB_EVENTS : Nat := 0x174
end ADMIT

/-! `BUF` (07). -/

namespace BUF
@[simp] abbrev HBM_GUARD : Nat := 0x040
@[simp] abbrev POOL_HEADROOM : Nat := 0x044
@[simp] abbrev TOTAL_PAGES : Nat := 0x048
@[simp] abbrev FREE_PAGES : Nat := 0x04C
@[simp] abbrev GUARANTEE_PAGES : Nat := 0x050
@[simp] abbrev INFLIGHT : Nat := 0x054
@[simp] abbrev INFLIGHT_PEAK : Nat := 0x058
@[simp] abbrev VOID_BYTES : Nat := 0x05C
@[simp] abbrev DROP_PROF : Nat := 0x200
end BUF

/-! `SCHED` (07). -/

namespace SCHED
@[simp] abbrev LP_WEIGHT : Nat := 0x040
@[simp] abbrev SP_CTRL : Nat := 0x100
@[simp] abbrev CLASS_WEIGHT_LO : Nat := 0x104
@[simp] abbrev CLASS_WEIGHT_HI : Nat := 0x108
@[simp] abbrev PFC_MAP_LO : Nat := 0x10C
@[simp] abbrev PFC_MAP_HI : Nat := 0x110
@[simp] abbrev PFC_STATUS : Nat := 0x114
@[simp] abbrev PFC_RX : Nat := 0x118
@[simp] abbrev PAUSE_IGNORED : Nat := 0x11C
@[simp] abbrev TX_PKTS : Nat := 0x120
@[simp] abbrev TX_BYTES : Nat := 0x128
end SCHED

/-! `QUEUE` (07). -/

namespace QUEUE
@[simp] abbrev Q_CFG : Nat := 0x100
@[simp] abbrev Q_MIN : Nat := 0x104
@[simp] abbrev Q_MAX : Nat := 0x108
@[simp] abbrev OCC_KIB : Nat := 0x10C
@[simp] abbrev AVG_KIB : Nat := 0x110
@[simp] abbrev Q_PKTS : Nat := 0x114
@[simp] abbrev Q_BYTES : Nat := 0x118
@[simp] abbrev Q_CMD : Nat := 0x11C
@[simp] abbrev ENQ_PKTS : Nat := 0x120
@[simp] abbrev DEQ_PKTS : Nat := 0x128
@[simp] abbrev DEQ_BYTES : Nat := 0x130
@[simp] abbrev HEAD : Nat := 0x138
end QUEUE

/-! `DROP` (07). -/

namespace DROP
@[simp] abbrev EG_WRONG_SLICE : Nat := 0x040
@[simp] abbrev EG_PORT_DOWN : Nat := 0x080
end DROP

/-! `HBM` (07). -/

namespace HBM
@[simp] abbrev STACK_STATUS : Nat := 0x040
@[simp] abbrev CH_RETIRED : Nat := 0x044
@[simp] abbrev RETIRE_CMD : Nat := 0x048
@[simp] abbrev UNC_LIMIT : Nat := 0x04C
@[simp] abbrev TEMP : Nat := 0x050
@[simp] abbrev REFRESH : Nat := 0x054
@[simp] abbrev INFLIGHT : Nat := 0x058
@[simp] abbrev INFLIGHT_PEAK : Nat := 0x05C
@[simp] abbrev ECC_CORR : Nat := 0x060
@[simp] abbrev ECC_UNC : Nat := 0x068
@[simp] abbrev PARITY_RETRY : Nat := 0x06C
@[simp] abbrev RELOC_STATUS : Nat := 0x070
@[simp] abbrev MR_ADDR : Nat := 0x074
@[simp] abbrev MR_DATA : Nat := 0x078
@[simp] abbrev MR_CMD : Nat := 0x07C
@[simp] abbrev CH_UNC : Nat := 0x080
end HBM

/-! `LANTERN` (10). -/

namespace LANTERN
@[simp] abbrev LT_CTRL : Nat := 0x040
@[simp] abbrev SUB_FREQ : Nat := 0x044
@[simp] abbrev LT_STATUS : Nat := 0x048
@[simp] abbrev RSSI : Nat := 0x04C
@[simp] abbrev DETECT_CFG : Nat := 0x050
@[simp] abbrev CAPTURE_CFG : Nat := 0x054
@[simp] abbrev AGC_CFG : Nat := 0x058
@[simp] abbrev AUTH_CTRL : Nat := 0x05C
@[simp] abbrev KEY_STAGE : Nat := 0x060
@[simp] abbrev KEY_CMD : Nat := 0x080
@[simp] abbrev KEY_STATUS : Nat := 0x084
@[simp] abbrev CTR_INIT_TX : Nat := 0x088
@[simp] abbrev CTR_INIT_RX : Nat := 0x090
@[simp] abbrev TX_CTR : Nat := 0x098
@[simp] abbrev RX_FLOOR0 : Nat := 0x0A0
@[simp] abbrev RX_FLOOR1 : Nat := 0x0A8
@[simp] abbrev RATE_LIM : Nat := 0x0B0
@[simp] abbrev IDENT_PERIOD : Nat := 0x0B4
@[simp] abbrev TX_CMD : Nat := 0x0B8
@[simp] abbrev TX_STATUS : Nat := 0x0BC
@[simp] abbrev FAR_STATE : Nat := 0x0C0
@[simp] abbrev FAR_FAULT : Nat := 0x0C4
@[simp] abbrev LAST_REPLY : Nat := 0x0C8
@[simp] abbrev FAR_ID : Nat := 0x0E0
@[simp] abbrev RX_DETECT : Nat := 0x100
@[simp] abbrev RX_FALSE : Nat := 0x104
@[simp] abbrev RX_OK : Nat := 0x108
@[simp] abbrev RX_CRC : Nat := 0x10C
@[simp] abbrev RX_HDR : Nat := 0x110
@[simp] abbrev RX_AUTH : Nat := 0x114
@[simp] abbrev RX_REPLAY : Nat := 0x118
@[simp] abbrev RX_RATE : Nat := 0x11C
@[simp] abbrev RX_UNKNOWN : Nat := 0x120
@[simp] abbrev RX_PREEMPTED : Nat := 0x124
@[simp] abbrev RX_COLLISION : Nat := 0x128
@[simp] abbrev RX_CLIP : Nat := 0x12C
@[simp] abbrev RX_LOST_SIG : Nat := 0x130
@[simp] abbrev RX_WAKE_IGN : Nat := 0x134
@[simp] abbrev RX_RING_FULL : Nat := 0x138
@[simp] abbrev TX_FRAMES : Nat := 0x13C
@[simp] abbrev TX_ABORTED : Nat := 0x140
@[simp] abbrev TX_DROPPED : Nat := 0x144
@[simp] abbrev FAR_RESTARTS : Nat := 0x148
end LANTERN

/-! `ANA` (11). -/

namespace ANA
@[simp] abbrev ANA_CTRL : Nat := 0x040
@[simp] abbrev OUT_CMD : Nat := 0x044
@[simp] abbrev CHK_STATUS : Nat := 0x048
@[simp] abbrev CHK_VALUE : Nat := 0x04C
@[simp] abbrev FAULT_MAP : Nat := 0x050
@[simp] abbrev FAULT_COUNT : Nat := 0x200
@[simp] abbrev CLAMP_COUNT : Nat := 0x240
@[simp] abbrev OUT_CFG : Nat := 0x100
@[simp] abbrev CODE : Nat := 0x104
@[simp] abbrev OUT_STATUS : Nat := 0x108
@[simp] abbrev DITHER_AMP : Nat := 0x10C
end ANA

/-! `ANA_COM` (11). -/

namespace ANA_COM
@[simp] abbrev SUP_CFG : Nat := 0x040
@[simp] abbrev CHK_CODE : Nat := 0x044
@[simp] abbrev CHK_TOL : Nat := 0x048
@[simp] abbrev SLICE_STATE : Nat := 0x04C
end ANA_COM

/-! `DITHER` (11). -/

namespace DITHER
@[simp] abbrev DITHER_CMD : Nat := 0x040
@[simp] abbrev FREQ_LO : Nat := 0x100
@[simp] abbrev FREQ_HI : Nat := 0x104
@[simp] abbrev GEN_CTRL : Nat := 0x108
@[simp] abbrev PHASE : Nat := 0x10C
end DITHER

/-! `DECIM` (11). -/

namespace DECIM
@[simp] abbrev DEC_STATUS : Nat := 0x040
@[simp] abbrev CH_CFG : Nat := 0x100
@[simp] abbrev SAMPLE_LO : Nat := 0x104
@[simp] abbrev SAMPLE_HI : Nat := 0x108
@[simp] abbrev REF : Nat := 0x10C
@[simp] abbrev OVER_COUNT : Nat := 0x110
end DECIM

/-! `RESAMP` (11). -/

namespace RESAMP
@[simp] abbrev RS_CFG : Nat := 0x100
@[simp] abbrev STEP_LO : Nat := 0x104
@[simp] abbrev STEP_HI : Nat := 0x108
@[simp] abbrev RS_STATUS : Nat := 0x10C
@[simp] abbrev SAMPLE_LO : Nat := 0x110
@[simp] abbrev SAMPLE_HI : Nat := 0x114
end RESAMP

/-! `LSEQ` (12). -/

namespace LSEQ
@[simp] abbrev SEQ_CTRL : Nat := 0x040
@[simp] abbrev SEQ_CMD : Nat := 0x044
@[simp] abbrev SEQ_STATE : Nat := 0x048
@[simp] abbrev TRAP_REC : Nat := 0x04C
@[simp] abbrev TRAP_PC : Nat := 0x050
@[simp] abbrev ROLE : Nat := 0x054
@[simp] abbrev ROLE_EPOCH : Nat := 0x058
@[simp] abbrev PROG_INFO : Nat := 0x05C
@[simp] abbrev PROG_VER : Nat := 0x060
@[simp] abbrev EVENT_PEND : Nat := 0x064
@[simp] abbrev EVENT_FORCE : Nat := 0x068
@[simp] abbrev WAIT_MASK : Nat := 0x06C
@[simp] abbrev BUSY_CYCLES : Nat := 0x070
@[simp] abbrev TRAPS : Nat := 0x078
@[simp] abbrev RESTARTS : Nat := 0x07C
@[simp] abbrev XREG : Nat := 0x080
@[simp] abbrev BREAK : Nat := 0x100
end LSEQ

/-! `MM` (11). -/

namespace MM
@[simp] abbrev MM_CTRL : Nat := 0x040
@[simp] abbrev MM_STATE : Nat := 0x044
@[simp] abbrev STRETCH_MAX : Nat := 0x048
@[simp] abbrev XFER_TMO : Nat := 0x04C
@[simp] abbrev WR_POLL : Nat := 0x050
@[simp] abbrev INIT_TMO : Nat := 0x054
@[simp] abbrev DP_TMO : Nat := 0x058
@[simp] abbrev POLL_CFG : Nat := 0x05C
@[simp] abbrev MM_CMD : Nat := 0x060
@[simp] abbrev XFER_CTRL : Nat := 0x064
@[simp] abbrev XFER_PAGE : Nat := 0x068
@[simp] abbrev XFER_STATUS : Nat := 0x06C
@[simp] abbrev MOD_ID : Nat := 0x070
@[simp] abbrev MOD_MON : Nat := 0x074
@[simp] abbrev MOD_FLAGS : Nat := 0x078
@[simp] abbrev LANE_MON : Nat := 0x080
@[simp] abbrev XFERS : Nat := 0x0A0
@[simp] abbrev NACKS : Nat := 0x0A4
@[simp] abbrev STRETCH_TMOS : Nat := 0x0A8
@[simp] abbrev TIMEOUTS : Nat := 0x0AC
@[simp] abbrev BUS_RECOVERIES : Nat := 0x0B0
@[simp] abbrev ISOLATIONS : Nat := 0x0B4
@[simp] abbrev CHECKSUM_ERRS : Nat := 0x0B8
@[simp] abbrev INSERTIONS : Nat := 0x0BC
@[simp] abbrev LANE_FLAGS : Nat := 0x0E0
@[simp] abbrev XFER_DATA : Nat := 0x100
end MM

/-! `CAL` (13). -/

namespace CAL
@[simp] abbrev CAL_CTRL : Nat := 0x040
@[simp] abbrev CAL_SEL : Nat := 0x044
@[simp] abbrev CAL_RUN_MASK : Nat := 0x048
@[simp] abbrev CAL_CMD : Nat := 0x04C
@[simp] abbrev CAL_STATUS : Nat := 0x050
@[simp] abbrev CAL_SETTLING : Nat := 0x054
@[simp] abbrev SEL_RESULT : Nat := 0x058
@[simp] abbrev OOR_MAP : Nat := 0x05C
@[simp] abbrev VREF_MEAS : Nat := 0x060
@[simp] abbrev RUN_TEMP : Nat := 0x064
@[simp] abbrev RUNS : Nat := 0x080
@[simp] abbrev RERUNS : Nat := 0x084
@[simp] abbrev RESTORE_REJECTS : Nat := 0x088
@[simp] abbrev LIVE : Nat := 0x100
@[simp] abbrev STAGE : Nat := 0x300
end CAL

/-! `BIST` (18). -/

namespace BIST
@[simp] abbrev BIST_SEL : Nat := 0x040
@[simp] abbrev BIST_CMD : Nat := 0x044
@[simp] abbrev BIST_STATUS : Nat := 0x048
@[simp] abbrev ROT_CFG : Nat := 0x04C
@[simp] abbrev ROT_NEXT : Nat := 0x050
@[simp] abbrev PASS_MAP : Nat := 0x054
@[simp] abbrev FAIL_MAP : Nat := 0x058
@[simp] abbrev INCOMPLETE_MAP : Nat := 0x05C
@[simp] abbrev REFUSED_MAP : Nat := 0x060
@[simp] abbrev RES_ID : Nat := 0x064
@[simp] abbrev RES_PATTERNS : Nat := 0x068
@[simp] abbrev RES_TOTAL : Nat := 0x06C
@[simp] abbrev RES_SIG : Nat := 0x070
@[simp] abbrev RES_EXP : Nat := 0x074
@[simp] abbrev RES_FAIL : Nat := 0x078
@[simp] abbrev RES_COVER : Nat := 0x07C
@[simp] abbrev RES_TIME : Nat := 0x080
@[simp] abbrev SCAN_CTRL : Nat := 0x084
@[simp] abbrev SCAN_STATUS : Nat := 0x088
@[simp] abbrev RUNS : Nat := 0x0A0
@[simp] abbrev PASSES : Nat := 0x0A4
@[simp] abbrev FAILS : Nat := 0x0A8
@[simp] abbrev INCOMPLETES : Nat := 0x0AC
@[simp] abbrev REFUSALS : Nat := 0x0B0
@[simp] abbrev ROT_RUNS : Nat := 0x0B4
end BIST

/-! `MBX` (16). -/

namespace MBX
@[simp] abbrev TX_DEST : Nat := 0x040
@[simp] abbrev MBX_SEND : Nat := 0x044
@[simp] abbrev MBX_ROLE : Nat := 0x048
@[simp] abbrev ROLE_BUMP : Nat := 0x04C
@[simp] abbrev RX_STATUS : Nat := 0x050
@[simp] abbrev RX_POP : Nat := 0x054
@[simp] abbrev RX_HDR : Nat := 0x058
@[simp] abbrev STALEMATE_WINDOW : Nat := 0x064
@[simp] abbrev STALEMATE : Nat := 0x068
@[simp] abbrev INBOX_FLUSH : Nat := 0x06C
@[simp] abbrev OVF_CTRL : Nat := 0x070
@[simp] abbrev TX_DATA : Nat := 0x080
@[simp] abbrev RX_DATA : Nat := 0x0A0
@[simp] abbrev DB_TX : Nat := 0x100
@[simp] abbrev DB_RX_VAL : Nat := 0x200
@[simp] abbrev DB_RX_CNT : Nat := 0x300
@[simp] abbrev EP_STATUS : Nat := 0x800
@[simp] abbrev EP_OLDEST : Nat := 0x804
@[simp] abbrev RX_MSGS : Nat := 0x808
@[simp] abbrev SEND_REJECTS : Nat := 0x80C
@[simp] abbrev STALE_MSGS : Nat := 0x810
@[simp] abbrev FLUSHED : Nat := 0x814
@[simp] abbrev LAST_REJECT : Nat := 0x818
end MBX

/-! `BOOT` (15). -/

namespace BOOT
@[simp] abbrev BOOT_STATUS : Nat := 0x040
@[simp] abbrev BOOT_CMD : Nat := 0x044
@[simp] abbrev FW_VERSION : Nat := 0x048
@[simp] abbrev FW_ROLLBACK : Nat := 0x04C
@[simp] abbrev ROLLBACK_CTR : Nat := 0x050
@[simp] abbrev ROLLBACK_TARGET : Nat := 0x054
@[simp] abbrev SEC_CMD : Nat := 0x058
@[simp] abbrev SEC_STATUS : Nat := 0x05C
@[simp] abbrev KEY_STATE : Nat := 0x060
@[simp] abbrev DEBUG_STATE : Nat := 0x064
@[simp] abbrev ALM_UID : Nat := 0x070
@[simp] abbrev ALM_LOT_LO : Nat := 0x080
@[simp] abbrev ALM_LOT_HI : Nat := 0x084
@[simp] abbrev ALM_POS : Nat := 0x088
@[simp] abbrev ALM_INFO : Nat := 0x08C
@[simp] abbrev FUSE_SEL : Nat := 0x090
@[simp] abbrev FUSE_DATA : Nat := 0x094
@[simp] abbrev IMG_LEN : Nat := 0x0A0
@[simp] abbrev IMG_CMD : Nat := 0x0A4
@[simp] abbrev IMG_DATA : Nat := 0x0A8
@[simp] abbrev IMG_STATUS : Nat := 0x0AC
@[simp] abbrev ATTEST_STATUS : Nat := 0x0B0
@[simp] abbrev IMG_REJECTS : Nat := 0x0B4
@[simp] abbrev ATTESTS : Nat := 0x0B8
@[simp] abbrev DBG_CHAL : Nat := 0x0C0
@[simp] abbrev DBG_CMD : Nat := 0x0E0
@[simp] abbrev FLASH_XFER : Nat := 0x0F0
@[simp] abbrev FLASH_GO : Nat := 0x0F4
@[simp] abbrev FLASH_STATUS : Nat := 0x0F8
@[simp] abbrev FLASH_DATA : Nat := 0x100
end BOOT

/-! `DMA` (16). -/

namespace DMA
@[simp] abbrev DMA_STATUS : Nat := 0x040
@[simp] abbrev HV_PERIOD : Nat := 0x044
@[simp] abbrev HV_CMD : Nat := 0x048
@[simp] abbrev HV_STATUS : Nat := 0x04C
@[simp] abbrev HV_SNAPS : Nat := 0x050
@[simp] abbrev HV_SKIPPED : Nat := 0x054
@[simp] abbrev POISON_RX : Nat := 0x058
@[simp] abbrev MC_REPLY_DROPS : Nat := 0x05C
@[simp] abbrev HV_LIST : Nat := 0x080
end DMA

/-! `RING` (16). -/

namespace RING
@[simp] abbrev RING_CTRL : Nat := 0x040
@[simp] abbrev RING_CFG : Nat := 0x044
@[simp] abbrev SQ_BASE_LO : Nat := 0x048
@[simp] abbrev SQ_BASE_HI : Nat := 0x04C
@[simp] abbrev CQ_BASE_LO : Nat := 0x050
@[simp] abbrev CQ_BASE_HI : Nat := 0x054
@[simp] abbrev SQ_TAIL : Nat := 0x058
@[simp] abbrev SQ_HEAD : Nat := 0x05C
@[simp] abbrev CQ_TAIL : Nat := 0x060
@[simp] abbrev CQ_HEAD : Nat := 0x064
@[simp] abbrev IRQ_CFG : Nat := 0x068
@[simp] abbrev RING_STATUS : Nat := 0x06C
@[simp] abbrev RECORDS : Nat := 0x070
@[simp] abbrev FULL_EVENTS : Nat := 0x078
@[simp] abbrev BAD_DESCS : Nat := 0x07C
end RING

/-! ### Pages (02, page allocation index): the byte address of each page, by instance -/

namespace Pg
@[simp] abbrev DEVICE : Nat := 0x000000
@[simp] abbrev INTR : Nat := 0x001000
@[simp] abbrev LOCKS : Nat := 0x002000
@[simp] abbrev THERM : Nat := 0x004000
@[simp] abbrev SUPPLY : Nat := 0x005000
@[simp] abbrev VIGIL : Nat := 0x006000
@[simp] abbrev PWR : Nat := 0x007000
@[simp] abbrev CLKRST : Nat := 0x008000
@[simp] abbrev LRX (i : Nat) : Nat := (0x010 + i) * 0x1000
@[simp] abbrev LTX (i : Nat) : Nat := (0x020 + i) * 0x1000
@[simp] abbrev LFEC (i : Nat) : Nat := (0x030 + i) * 0x1000
@[simp] abbrev HOST (i : Nat) : Nat := (0x040 + i) * 0x1000
@[simp] abbrev SLICE (i : Nat) : Nat := (0x050 + i) * 0x1000
@[simp] abbrev CLS : Nat := 0x060000
@[simp] abbrev CLS_PROF : Nat := 0x061000
@[simp] abbrev CLS_MISS : Nat := 0x062000
@[simp] abbrev CLS_UPD : Nat := 0x063000
@[simp] abbrev CLS_BANK (i : Nat) : Nat := (0x064 + i) * 0x1000
@[simp] abbrev FLOW : Nat := 0x070000
@[simp] abbrev FEXP : Nat := 0x071000
@[simp] abbrev ADMIT (i : Nat) : Nat := (0x072 + i) * 0x1000
@[simp] abbrev BUF : Nat := 0x080000
@[simp] abbrev SCHED : Nat := 0x081000
@[simp] abbrev QUEUE (i : Nat) : Nat := (0x082 + i) * 0x1000
@[simp] abbrev DROP : Nat := 0x086000
@[simp] abbrev HBM (i : Nat) : Nat := (0x088 + i) * 0x1000
@[simp] abbrev LANTERN (i : Nat) : Nat := (0x090 + i) * 0x1000
@[simp] abbrev ANA (i : Nat) : Nat := (0x0A0 + i) * 0x1000
@[simp] abbrev ANA_COM : Nat := 0x0A4000
@[simp] abbrev DITHER : Nat := 0x0A5000
@[simp] abbrev DECIM (i : Nat) : Nat := (0x0A8 + i) * 0x1000
@[simp] abbrev RESAMP : Nat := 0x0AC000
@[simp] abbrev LSEQ (i : Nat) : Nat := (0x0B0 + i) * 0x1000
@[simp] abbrev SEQ (i : Nat) : Nat := (0x0B8 + i) * 0x1000
@[simp] abbrev MM (i : Nat) : Nat := (0x0D0 + i) * 0x1000
@[simp] abbrev CAL : Nat := 0x0E0000
@[simp] abbrev BIST : Nat := 0x0E8000
@[simp] abbrev MBX (i : Nat) : Nat := (0x0F0 + i) * 0x1000
@[simp] abbrev BOOT : Nat := 0x0F8000
@[simp] abbrev DMA : Nat := 0x100000
@[simp] abbrev RING (i : Nat) : Nat := (0x101 + i) * 0x1000
end Pg

/-- The page types. -/
inductive PageType where
  | device
  | intr
  | locks
  | therm
  | supply
  | vigil
  | pwr
  | clkrst
  | lrx
  | ltx
  | lfec
  | host
  | slice
  | cls
  | clsprof
  | clsmiss
  | clsupd
  | clsbank
  | flow
  | fexp
  | admission
  | buf
  | sched
  | queue
  | drop
  | hbm
  | lantern
  | ana
  | anacom
  | dither
  | decim
  | resamp
  | lseq
  | seq
  | mm
  | cal
  | bist
  | mbx
  | boot
  | dma
  | ring
  deriving DecidableEq, Repr

/-- One line of the page index: first page, number of pages, type, posted, interrupt group and whether the
pages have a host-assisted function. -/
structure PageRow where
  first : Nat
  count : Nat
  type : PageType
  posted : Bool
  group : Nat
  assist : Bool
  deriving DecidableEq, Repr

/-- The page allocation index (02). `assist` is read from the chapters and from the table of hardware and
host-assisted modes (01): DEDUCED, log entry 27. -/
def pageIndex : List PageRow := [
  ⟨0x000, 1, .device, false, 0, false⟩,
  ⟨0x001, 1, .intr, false, 0, false⟩,
  ⟨0x002, 1, .locks, false, 0, false⟩,
  ⟨0x004, 1, .therm, true, 1, true⟩,
  ⟨0x005, 1, .supply, true, 1, false⟩,
  ⟨0x006, 1, .vigil, true, 1, false⟩,
  ⟨0x007, 1, .pwr, true, 1, false⟩,
  ⟨0x008, 1, .clkrst, false, 2, false⟩,
  ⟨0x010, 16, .lrx, true, 3, true⟩,
  ⟨0x020, 16, .ltx, true, 4, true⟩,
  ⟨0x030, 16, .lfec, true, 5, true⟩,
  ⟨0x040, 16, .host, true, 6, false⟩,
  ⟨0x050, 4, .slice, true, 7, false⟩,
  ⟨0x060, 1, .cls, true, 8, true⟩,
  ⟨0x061, 1, .clsprof, true, 8, true⟩,
  ⟨0x062, 1, .clsmiss, true, 8, true⟩,
  ⟨0x063, 1, .clsupd, true, 8, true⟩,
  ⟨0x064, 4, .clsbank, true, 8, true⟩,
  ⟨0x070, 1, .flow, true, 9, true⟩,
  ⟨0x071, 1, .fexp, true, 9, true⟩,
  ⟨0x072, 4, .admission, true, 9, true⟩,
  ⟨0x080, 1, .buf, true, 10, false⟩,
  ⟨0x081, 1, .sched, true, 10, false⟩,
  ⟨0x082, 4, .queue, true, 10, false⟩,
  ⟨0x086, 1, .drop, true, 10, false⟩,
  ⟨0x088, 4, .hbm, true, 11, false⟩,
  ⟨0x090, 16, .lantern, true, 12, true⟩,
  ⟨0x0A0, 4, .ana, true, 13, true⟩,
  ⟨0x0A4, 1, .anacom, true, 13, true⟩,
  ⟨0x0A5, 1, .dither, true, 13, true⟩,
  ⟨0x0A8, 4, .decim, true, 14, true⟩,
  ⟨0x0AC, 1, .resamp, true, 14, true⟩,
  ⟨0x0B0, 8, .lseq, true, 15, true⟩,
  ⟨0x0B8, 16, .seq, true, 16, true⟩,
  ⟨0x0D0, 16, .mm, false, 17, true⟩,
  ⟨0x0E0, 1, .cal, true, 18, true⟩,
  ⟨0x0E8, 1, .bist, false, 19, true⟩,
  ⟨0x0F0, 4, .mbx, false, 20, false⟩,
  ⟨0x0F8, 1, .boot, true, 21, false⟩,
  ⟨0x100, 1, .dma, false, 22, true⟩,
  ⟨0x101, 8, .ring, false, 22, true⟩]

/-- The line of the index that holds a page number. -/
def pageRow (page : Nat) : Option PageRow :=
  pageIndex.find? (fun r => decide (r.first ≤ page) && decide (page < r.first + r.count))

/-- The clock island a page lies on (02, column Island; 14, R372). -/
def pageIsland (t : PageType) (i : Nat) : Nat :=
  match t with
  | .device => 60
  | .intr => 60
  | .locks => 60
  | .therm => 62
  | .supply => 62
  | .vigil => 62
  | .pwr => 62
  | .clkrst => 60
  | .lrx => i
  | .ltx => 16 + i
  | .lfec => i
  | .host => 32 + i
  | .slice => 48 + i
  | .cls => 52
  | .clsprof => 52
  | .clsmiss => 52
  | .clsupd => 52
  | .clsbank => 52
  | .flow => 53
  | .fexp => 53
  | .admission => 53
  | .buf => 53
  | .sched => 53
  | .queue => 53
  | .drop => 53
  | .hbm => 54 + i
  | .lantern => i
  | .ana => 58
  | .anacom => 58
  | .dither => 58
  | .decim => 58
  | .resamp => 58
  | .lseq => 59
  | .seq => 59
  | .mm => 60
  | .cal => 58
  | .bist => 60
  | .mbx => 60
  | .boot => 61
  | .dma => 60
  | .ring => 60

/-- The block causes of `INT_STATUS` that a page type defines. -/
def blockCauses : PageType → Word
  | .device => 0x00000700
  | .intr => 0x00000000
  | .locks => 0x00000000
  | .therm => 0x00003F00
  | .supply => 0x00000700
  | .vigil => 0x00000700
  | .pwr => 0x00000000
  | .clkrst => 0x03001F00
  | .lrx => 0x0003FF00
  | .ltx => 0x00001F00
  | .lfec => 0x0001FF00
  | .host => 0x0001FF00
  | .slice => 0x00000300
  | .cls => 0x00000F00
  | .clsprof => 0x00000100
  | .clsmiss => 0x00000700
  | .clsupd => 0x00000F00
  | .clsbank => 0x00000700
  | .flow => 0x00000F00
  | .fexp => 0x00000300
  | .admission => 0x001FFF00
  | .buf => 0x00000700
  | .sched => 0x00000000
  | .queue => 0x00000100
  | .drop => 0x00000100
  | .hbm => 0x00001F00
  | .lantern => 0x0007FF00
  | .ana => 0x000FFF00
  | .anacom => 0x00000000
  | .dither => 0x00000000
  | .decim => 0x000FFF00
  | .resamp => 0x00000000
  | .lseq => 0x00003F00
  | .seq => 0x00003F00
  | .mm => 0x00001F00
  | .cal => 0x00003F00
  | .bist => 0x00001F00
  | .mbx => 0x00000700
  | .boot => 0x00003F00
  | .dma => 0x00000700
  | .ring => 0x00000F00

/-- How a register behaves beside its masks. -/
inductive RegKind where
  | plain            -- masks say all
  | cnt              -- 32-bit counter (CNT)
  | cntLo (w : Nat)  -- low word of a counter of w bits (R71)
  | cntHi (w : Nat)  -- high word of a counter of w bits
  | rc               -- RC: a 32-bit plain read clears it
  | cmd              -- SC, WO or W1S: reads 0, a write is a command
  deriving DecidableEq, Repr

/-- A register, or `count` registers `stride` bytes apart. -/
structure RegRow where
  off : Nat
  count : Nat
  stride : Nat
  reset : Word
  rw : Word      -- RW and RWH bits
  ex : Word      -- the same, expert
  w1c : Word
  kind : RegKind
  deriving DecidableEq, Repr

/-- Registers of `DEVICE` (02, 19). -/
def rowsDevice : List RegRow := [
  ⟨0x040, 1, 4, 0x6816, 0x0, 0x0, 0x0, .plain⟩,
  ⟨0x044, 1, 4, 0x4101, 0x0, 0x0, 0x0, .plain⟩,
  ⟨0x048, 1, 4, 0x0, 0x0, 0x0, 0x0, .cmd⟩,
  ⟨0x04C, 1, 4, 0x43000060, 0x0, 0x0, 0x0, .plain⟩,
  ⟨0x050, 1, 4, 0x0, 0xFFFFFFFF, 0x0, 0x0, .plain⟩,
  ⟨0x100, 1, 4, 0x3, 0x3, 0x0, 0x0, .plain⟩,
  ⟨0x104, 1, 4, 0x80000000, 0x0, 0x0, 0x0, .plain⟩,
  ⟨0x108, 1, 4, 0x0, 0x0, 0x0, 0x0, .cmd⟩,
  ⟨0x10C, 1, 4, 0x0, 0x0, 0x0, 0x0, .cnt⟩,
  ⟨0x110, 4, 4, 0x0, 0x0, 0x0, 0x0, .plain⟩,
  ⟨0x184, 18, 4, 0x0, 0x0, 0x0, 0x0, .cnt⟩]

/-- Registers of `INTR` (02). -/
def rowsIntr : List RegRow := [
  ⟨0x040, 1, 4, 0x0, 0x0, 0x0, 0x0, .plain⟩,
  ⟨0x080, 23, 4, 0x400, 0x73F, 0x0, 0x0, .plain⟩,
  ⟨0x100, 32, 4, 0x0, 0x0, 0x0, 0x0, .plain⟩]

/-- Registers of `LOCKS` (02). -/
def rowsLocks : List RegRow := [
  ⟨0x040, 1, 4, 0x0, 0x3FF, 0x0, 0x0, .plain⟩,
  ⟨0x044, 1, 4, 0x0, 0x0, 0x0, 0x0, .plain⟩,
  ⟨0x048, 1, 4, 0x0, 0x0, 0x0, 0x0, .cmd⟩,
  ⟨0x04C, 1, 4, 0x0, 0x0, 0x0, 0x0, .cnt⟩,
  ⟨0x050, 1, 4, 0x0, 0x0, 0x0, 0x0, .plain⟩]

/-- Registers of `THERM` (17). -/
def rowsTherm : List RegRow := [
  ⟨0x040, 1, 4, 0xA080114, 0x0, 0xFF0FFFFF, 0x0, .plain⟩,
  ⟨0x044, 1, 4, 0x6964, 0x0, 0xFFFF, 0x0, .plain⟩,
  ⟨0x048, 1, 4, 0xF08, 0x0, 0xFFFF, 0x0, .plain⟩,
  ⟨0x04C, 1, 4, 0x5F5A, 0x0, 0xFFFF, 0x0, .plain⟩,
  ⟨0x050, 1, 4, 0x0, 0x0, 0x0, 0x0, .plain⟩,
  ⟨0x054, 1, 4, 0x0, 0x0, 0x0, 0x0, .plain⟩,
  ⟨0x058, 1, 4, 0x0, 0x0, 0x0, 0x0, .plain⟩,
  ⟨0x05C, 1, 4, 0x0, 0x0, 0x0, 0x0, .cmd⟩,
  ⟨0x060, 1, 4, 0x0, 0xF, 0x0, 0x0, .plain⟩,
  ⟨0x064, 1, 4, 0x0, 0x0, 0x0, 0x0, .plain⟩,
  ⟨0x068, 1, 4, 0x0, 0x0, 0x0, 0x0, .plain⟩,
  ⟨0x06C, 1, 4, 0x0, 0x0, 0x0, 0x0, .plain⟩,
  ⟨0x080, 12, 4, 0x0, 0x0, 0x0, 0x0, .plain⟩,
  ⟨0x0C0, 12, 4, 0x0, 0x0, 0x0, 0x0, .plain⟩,
  ⟨0x100, 1, 4, 0x0, 0x0, 0x0, 0x0, .cnt⟩,
  ⟨0x104, 1, 4, 0x0, 0x0, 0x0, 0x0, .cnt⟩,
  ⟨0x108, 1, 4, 0x0, 0x0, 0x0, 0x0, .cnt⟩]

/-- Registers of `SUPPLY` (17). -/
def rowsSupply : List RegRow := [
  ⟨0x040, 1, 4, 0x0, 0x0, 0x0, 0x0, .plain⟩,
  ⟨0x044, 1, 4, 0x0, 0x0, 0x0, 0xFFFF, .plain⟩,
  ⟨0x048, 1, 4, 0x0, 0x0, 0x0, 0x0, .plain⟩,
  ⟨0x04C, 1, 4, 0x0, 0x0, 0x0, 0x0, .plain⟩,
  ⟨0x080, 8, 4, 0x0, 0x0, 0x0, 0x0, .plain⟩,
  ⟨0x0C0, 8, 4, 0x0, 0x0, 0x0, 0x0, .cnt⟩]

/-- Registers of `VIGIL` (17). -/
def rowsVigil : List RegRow := [
  ⟨0x040, 1, 4, 0x700, 0x711, 0x0, 0x0, .plain⟩,
  ⟨0x044, 1, 4, 0x0, 0x0, 0x0, 0x0, .cmd⟩,
  ⟨0x048, 1, 4, 0x0, 0xFFFFFFFF, 0x0, 0x0, .plain⟩,
  ⟨0x04C, 1, 4, 0x0, 0x0, 0x0, 0x0, .plain⟩,
  ⟨0x050, 1, 4, 0x0, 0x0, 0x0, 0xF1F, .plain⟩,
  ⟨0x054, 1, 4, 0x0, 0x0, 0x0, 0x0, .plain⟩,
  ⟨0x058, 1, 4, 0x0, 0x0, 0x0, 0x0, .plain⟩,
  ⟨0x05C, 1, 4, 0x0, 0x0, 0x0, 0x0, .cnt⟩,
  ⟨0x060, 1, 4, 0x0, 0x0, 0x0, 0x0, .cnt⟩]

/-- Registers of `PWR` (17). -/
def rowsPwr : List RegRow := [
  ⟨0x040, 1, 4, 0x0, 0x0, 0x0, 0x0, .plain⟩,
  ⟨0x044, 1, 4, 0x0, 0x0, 0x0, 0x0, .rc⟩,
  ⟨0x048, 1, 4, 0x0, 0x0, 0x0, 0x0, .cntLo 48⟩,
  ⟨0x04C, 1, 4, 0x0, 0x0, 0x0, 0x0, .cntHi 48⟩]

/-- Registers of `CLKRST` (08, 14). -/
def rowsClkrst : List RegRow := [
  ⟨0x200, 3, 4, 0x0, 0x0, 0x0, 0x0, .plain⟩,
  ⟨0x210, 3, 4, 0x0, 0xFFFFFFFF, 0x0, 0x0, .plain⟩,
  ⟨0x21C, 1, 4, 0x0, 0x0, 0x0, 0x0, .cmd⟩,
  ⟨0x220, 1, 4, 0x0, 0xFFFFFFFF, 0x0, 0x0, .plain⟩,
  ⟨0x224, 1, 4, 0x0, 0x3, 0x0, 0x0, .plain⟩,
  ⟨0x228, 1, 4, 0x0, 0x0, 0x0, 0x0, .plain⟩,
  ⟨0x230, 3, 4, 0x0, 0x0, 0x0, 0x0, .plain⟩,
  ⟨0x23C, 1, 4, 0x0, 0x0, 0x0, 0x0, .cnt⟩,
  ⟨0x040, 1, 4, 0x0, 0x0, 0x0, 0x0, .plain⟩,
  ⟨0x044, 1, 4, 0x0, 0x0, 0x0, 0x0, .plain⟩,
  ⟨0x048, 1, 4, 0x1, 0x0, 0x0, 0x1F, .plain⟩,
  ⟨0x04C, 1, 4, 0x0, 0x0, 0x0, 0x0, .cmd⟩,
  ⟨0x050, 1, 4, 0x0, 0x0, 0x0, 0x0, .cmd⟩,
  ⟨0x054, 1, 4, 0x0, 0x3F, 0x0, 0x0, .plain⟩,
  ⟨0x058, 1, 4, 0x0, 0x0, 0x0, 0x0, .cmd⟩,
  ⟨0x05C, 1, 4, 0x0, 0x0, 0x0, 0x0, .plain⟩,
  ⟨0x060, 1, 4, 0x0, 0x0, 0x0, 0x0, .plain⟩,
  ⟨0x064, 1, 4, 0x0, 0x0, 0x0, 0x0, .cnt⟩,
  ⟨0x068, 1, 4, 0x0, 0x0, 0x0, 0x0, .cnt⟩,
  ⟨0x06C, 1, 4, 0x0, 0x0, 0x0, 0x0, .cnt⟩,
  ⟨0x070, 1, 4, 0x0, 0x0, 0x0, 0x0, .cnt⟩,
  ⟨0x080, 4, 16, 0x0, 0x0, 0x1FF, 0x0, .plain⟩,
  ⟨0x084, 4, 16, 0x0, 0x0, 0xFFFFFFFF, 0x0, .plain⟩,
  ⟨0x088, 4, 16, 0x1, 0x0, 0xFFFFFFFF, 0x0, .plain⟩,
  ⟨0x08C, 4, 16, 0x0, 0x0, 0x1, 0x0, .plain⟩]

/-- Registers of `LRX` (03). -/
def rowsLrx : List RegRow := [
  ⟨0x040, 1, 4, 0x4, 0x7, 0x0, 0x0, .plain⟩,
  ⟨0x044, 1, 4, 0x0, 0x0, 0x0, 0x0, .cmd⟩,
  ⟨0x048, 1, 4, 0x0, 0x0, 0x0, 0x0, .plain⟩,
  ⟨0x04C, 1, 4, 0x0, 0x0, 0x0, 0x0, .plain⟩,
  ⟨0x050, 1, 4, 0x31400C8, 0x0, 0xFFFFFFF, 0x0, .plain⟩,
  ⟨0x054, 1, 4, 0xC8, 0x0, 0xFFFF, 0x0, .plain⟩,
  ⟨0x058, 1, 4, 0xE00007D, 0x0, 0xFFFFFFFF, 0x0, .plain⟩,
  ⟨0x05C, 1, 4, 0x0, 0x0, 0x0, 0x0, .plain⟩,
  ⟨0x060, 1, 4, 0x0, 0x7, 0x0, 0x0, .plain⟩,
  ⟨0x064, 1, 4, 0x4005, 0x7, 0x1FF00, 0x0, .plain⟩,
  ⟨0x068, 1, 4, 0x0, 0x0, 0x0, 0x0, .plain⟩,
  ⟨0x06C, 1, 4, 0x2, 0x7, 0x100, 0x0, .plain⟩,
  ⟨0x070, 1, 4, 0x0, 0x0, 0x0, 0x0, .plain⟩,
  ⟨0x074, 1, 4, 0x6, 0x0, 0x1F, 0x0, .plain⟩,
  ⟨0x078, 1, 4, 0x0, 0x0, 0xFFFFFFFF, 0x0, .plain⟩,
  ⟨0x07C, 1, 4, 0x0, 0x0, 0x1, 0x0, .plain⟩,
  ⟨0x080, 1, 4, 0x68080, 0x0, 0x1FFFFF, 0x0, .plain⟩,
  ⟨0x084, 1, 4, 0x6, 0x0, 0x1F, 0x0, .plain⟩,
  ⟨0x088, 1, 4, 0x0, 0xFFFFFFFF, 0x0, 0x0, .plain⟩,
  ⟨0x08C, 1, 4, 0x0, 0x0, 0x0, 0x0, .plain⟩,
  ⟨0x090, 1, 4, 0x201E14, 0xFFFFFF, 0x0, 0x0, .plain⟩,
  ⟨0x094, 1, 4, 0x1, 0x0, 0x0, 0x0, .plain⟩,
  ⟨0x098, 1, 4, 0x0, 0x0, 0x0, 0x0, .plain⟩,
  ⟨0x09C, 1, 4, 0x0, 0x0, 0x0, 0x0, .plain⟩,
  ⟨0x0A0, 1, 4, 0x0, 0x0, 0x0, 0x0, .plain⟩,
  ⟨0x0A4, 1, 4, 0xD00, 0xFFFF, 0x0, 0x0, .plain⟩,
  ⟨0x0A8, 1, 4, 0x8021401, 0xFF3F1F03, 0x0, 0x0, .plain⟩,
  ⟨0x0AC, 1, 4, 0x84202020, 0xFF3F3F3F, 0x0, 0x0, .plain⟩,
  ⟨0x0B0, 1, 4, 0x0, 0x0, 0x0, 0x0, .cmd⟩,
  ⟨0x0B4, 1, 4, 0x0, 0x0, 0x0, 0x0, .plain⟩,
  ⟨0x0C0, 1, 4, 0x0, 0x0, 0x0, 0x0, .cnt⟩,
  ⟨0x0C4, 1, 4, 0x0, 0x0, 0x0, 0x0, .cnt⟩,
  ⟨0x0C8, 1, 4, 0x0, 0x0, 0x0, 0x0, .cnt⟩,
  ⟨0x0CC, 1, 4, 0x0, 0x0, 0x0, 0x0, .cnt⟩,
  ⟨0x0D0, 1, 4, 0x0, 0x0, 0x0, 0x0, .cnt⟩,
  ⟨0x0D4, 1, 4, 0x0, 0x0, 0x0, 0x0, .cnt⟩,
  ⟨0x0D8, 1, 4, 0x0, 0x0, 0x0, 0x0, .cnt⟩,
  ⟨0x0DC, 1, 4, 0x0, 0x0, 0x0, 0x0, .cnt⟩,
  ⟨0x0E0, 1, 4, 0x0, 0x0, 0x0, 0x0, .cnt⟩,
  ⟨0x0E4, 5, 4, 0x44444444, 0x0, 0xFFFFFFFF, 0x0, .plain⟩,
  ⟨0x100, 33, 4, 0x0, 0xFFFF, 0x0, 0x0, .plain⟩,
  ⟨0x200, 16, 4, 0x0, 0xFFFFFFFF, 0x0, 0x0, .plain⟩,
  ⟨0x300, 48, 4, 0x0, 0x0, 0x0, 0x0, .plain⟩,
  ⟨0x800, 512, 4, 0x0, 0x0, 0x0, 0x0, .plain⟩]

/-- Registers of `LTX` (09). -/
def rowsLtx : List RegRow := [
  ⟨0x040, 1, 4, 0x1E00, 0xFF0F, 0x0, 0x0, .plain⟩,
  ⟨0x044, 1, 4, 0x0, 0x0, 0x0, 0x0, .plain⟩,
  ⟨0x048, 1, 4, 0x6020E0A0, 0x0, 0xFFFFFFFF, 0x0, .plain⟩,
  ⟨0x04C, 1, 4, 0x0, 0x0, 0x1, 0x0, .plain⟩,
  ⟨0x050, 1, 4, 0x14, 0x3F, 0x0, 0x0, .plain⟩,
  ⟨0x054, 1, 4, 0x0, 0x0, 0x0, 0x0, .plain⟩,
  ⟨0x058, 1, 4, 0x0, 0x0, 0x0, 0x0, .cmd⟩,
  ⟨0x05C, 1, 4, 0x100, 0x0, 0x0, 0x0, .plain⟩,
  ⟨0x060, 1, 4, 0x2, 0x3, 0x0, 0x0, .plain⟩,
  ⟨0x064, 1, 4, 0x0, 0x0, 0x0, 0x0, .plain⟩,
  ⟨0x068, 1, 4, 0x0, 0x0, 0x0, 0x0, .cnt⟩,
  ⟨0x06C, 1, 4, 0x0, 0x0, 0x0, 0x0, .cnt⟩,
  ⟨0x070, 1, 4, 0x0, 0x0, 0x0, 0x0, .cnt⟩,
  ⟨0x074, 1, 4, 0x0, 0x0, 0x0, 0x0, .cnt⟩,
  ⟨0x078, 1, 4, 0x0, 0x0, 0x0, 0x0, .cnt⟩,
  ⟨0x07C, 1, 4, 0x0, 0x0, 0x0, 0x0, .cnt⟩,
  ⟨0x080, 1, 4, 0x0, 0x0, 0x0, 0x0, .cntLo 48⟩,
  ⟨0x084, 1, 4, 0x0, 0x0, 0x0, 0x0, .cntHi 48⟩,
  ⟨0x088, 1, 4, 0x0, 0x0, 0x0, 0x0, .cntLo 48⟩,
  ⟨0x08C, 1, 4, 0x0, 0x0, 0x0, 0x0, .cntHi 48⟩,
  ⟨0x090, 1, 4, 0x0, 0x0, 0x0, 0x0, .cntLo 64⟩,
  ⟨0x094, 1, 4, 0x0, 0x0, 0x0, 0x0, .cntHi 64⟩,
  ⟨0x0A0, 9, 4, 0x0, 0x0, 0x0, 0x0, .plain⟩,
  ⟨0x0E0, 9, 4, 0x0, 0x3FF, 0x0, 0x0, .plain⟩,
  ⟨0x120, 9, 4, 0x0, 0x3FF03FF, 0x0, 0x0, .plain⟩,
  ⟨0x200, 64, 4, 0x0, 0x0, 0xFFFFFFFF, 0x0, .plain⟩]

/-- Registers of `LFEC` (04). -/
def rowsLfec : List RegRow := [
  ⟨0x040, 1, 4, 0xC04, 0xF00, 0x7, 0x0, .plain⟩,
  ⟨0x044, 1, 4, 0x0, 0x0, 0x0, 0x0, .plain⟩,
  ⟨0x048, 1, 4, 0x6000408, 0x0, 0xFFFFFFFF, 0x0, .plain⟩,
  ⟨0x04C, 1, 4, 0x0, 0x0, 0x0, 0x0, .plain⟩,
  ⟨0x050, 1, 4, 0x100000, 0x0, 0xFFFFFFFF, 0x0, .plain⟩,
  ⟨0x054, 1, 4, 0xF4240, 0xFFFFFFFF, 0x0, 0x0, .plain⟩,
  ⟨0x058, 1, 4, 0x7A120, 0xFFFFFFFF, 0x0, 0x0, .plain⟩,
  ⟨0x05C, 1, 4, 0x3E8, 0x0, 0xFFFF, 0x0, .plain⟩,
  ⟨0x060, 1, 4, 0x0, 0x0, 0x0, 0x0, .cmd⟩,
  ⟨0x064, 1, 4, 0x76543210, 0x0, 0xFFFFFFFF, 0x0, .plain⟩,
  ⟨0x068, 1, 4, 0xFEDCBA98, 0x0, 0xFFFFFFFF, 0x0, .plain⟩,
  ⟨0x06C, 1, 4, 0x0, 0x0, 0x0, 0x0, .plain⟩,
  ⟨0x100, 1, 4, 0x0, 0x0, 0x0, 0x0, .cntLo 48⟩,
  ⟨0x104, 1, 4, 0x0, 0x0, 0x0, 0x0, .cntHi 48⟩,
  ⟨0x108, 1, 4, 0x0, 0x0, 0x0, 0x0, .cntLo 48⟩,
  ⟨0x10C, 1, 4, 0x0, 0x0, 0x0, 0x0, .cntHi 48⟩,
  ⟨0x110, 1, 4, 0x0, 0x0, 0x0, 0x0, .cntLo 48⟩,
  ⟨0x114, 1, 4, 0x0, 0x0, 0x0, 0x0, .cntHi 48⟩,
  ⟨0x118, 1, 4, 0x0, 0x0, 0x0, 0x0, .cntLo 48⟩,
  ⟨0x11C, 1, 4, 0x0, 0x0, 0x0, 0x0, .cntHi 48⟩,
  ⟨0x120, 1, 4, 0x0, 0x0, 0x0, 0x0, .cntLo 48⟩,
  ⟨0x124, 1, 4, 0x0, 0x0, 0x0, 0x0, .cntHi 48⟩,
  ⟨0x128, 1, 4, 0x0, 0x0, 0x0, 0x0, .cntLo 48⟩,
  ⟨0x12C, 1, 4, 0x0, 0x0, 0x0, 0x0, .cntHi 48⟩,
  ⟨0x130, 1, 4, 0x0, 0x0, 0x0, 0x0, .cntLo 48⟩,
  ⟨0x134, 1, 4, 0x0, 0x0, 0x0, 0x0, .cntHi 48⟩,
  ⟨0x138, 1, 4, 0x0, 0x0, 0x0, 0x0, .cntLo 48⟩,
  ⟨0x13C, 1, 4, 0x0, 0x0, 0x0, 0x0, .cntHi 48⟩,
  ⟨0x140, 1, 4, 0x0, 0x0, 0x0, 0x0, .cntLo 48⟩,
  ⟨0x144, 1, 4, 0x0, 0x0, 0x0, 0x0, .cntHi 48⟩,
  ⟨0x150, 1, 4, 0x0, 0x0, 0x0, 0x0, .cnt⟩,
  ⟨0x154, 1, 4, 0x0, 0x0, 0x0, 0x0, .cnt⟩,
  ⟨0x158, 1, 4, 0x0, 0x0, 0x0, 0x0, .cnt⟩,
  ⟨0x15C, 1, 4, 0x0, 0x0, 0x0, 0x0, .cnt⟩,
  ⟨0x160, 1, 4, 0x0, 0x0, 0x0, 0x0, .cnt⟩,
  ⟨0x164, 1, 4, 0x0, 0x0, 0x0, 0x0, .cnt⟩,
  ⟨0x180, 16, 8, 0x0, 0x0, 0x0, 0x0, .cntLo 48⟩,
  ⟨0x184, 16, 8, 0x0, 0x0, 0x0, 0x0, .cntHi 48⟩]

/-- Registers of `HOST` (08). -/
def rowsHost : List RegRow := [
  ⟨0x040, 1, 4, 0x4, 0x7, 0x0, 0x0, .plain⟩,
  ⟨0x044, 1, 4, 0x0, 0x0, 0x0, 0x0, .plain⟩,
  ⟨0x048, 1, 4, 0x1, 0x0, 0x0, 0x0, .plain⟩,
  ⟨0x04C, 1, 4, 0x0, 0x0, 0x0, 0x0, .plain⟩,
  ⟨0x050, 1, 4, 0x0, 0x333, 0x0, 0x0, .plain⟩,
  ⟨0x054, 1, 4, 0x0, 0x0, 0x0, 0x0, .cmd⟩,
  ⟨0x058, 1, 4, 0x0, 0x0, 0x0, 0x0, .plain⟩,
  ⟨0x060, 1, 4, 0x0, 0x0, 0x0, 0x0, .cntLo 64⟩,
  ⟨0x064, 1, 4, 0x0, 0x0, 0x0, 0x0, .cntHi 64⟩,
  ⟨0x068, 1, 4, 0x0, 0x0, 0x0, 0x0, .cntLo 48⟩,
  ⟨0x06C, 1, 4, 0x0, 0x0, 0x0, 0x0, .cntHi 48⟩,
  ⟨0x070, 1, 4, 0x8021401, 0xFF3F1F03, 0x0, 0x0, .plain⟩,
  ⟨0x074, 1, 4, 0x84202020, 0xFF3F3F3F, 0x0, 0x0, .plain⟩,
  ⟨0x078, 1, 4, 0x0, 0x0, 0x0, 0x0, .cmd⟩,
  ⟨0x07C, 1, 4, 0x0, 0x0, 0x0, 0x0, .plain⟩,
  ⟨0x080, 1, 4, 0x0, 0x0, 0x0, 0x0, .cntLo 48⟩,
  ⟨0x084, 1, 4, 0x0, 0x0, 0x0, 0x0, .cntHi 48⟩,
  ⟨0x088, 1, 4, 0x0, 0x0, 0x0, 0x0, .cntLo 64⟩,
  ⟨0x08C, 1, 4, 0x0, 0x0, 0x0, 0x0, .cntHi 64⟩,
  ⟨0x090, 1, 4, 0x0, 0x0, 0x0, 0x0, .cntLo 48⟩,
  ⟨0x094, 1, 4, 0x0, 0x0, 0x0, 0x0, .cntHi 48⟩,
  ⟨0x098, 1, 4, 0x0, 0x0, 0x0, 0x0, .cntLo 64⟩,
  ⟨0x09C, 1, 4, 0x0, 0x0, 0x0, 0x0, .cntHi 64⟩,
  ⟨0x0A0, 1, 4, 0x0, 0x0, 0x0, 0x0, .cnt⟩,
  ⟨0x0A4, 1, 4, 0x0, 0x0, 0x0, 0x0, .cnt⟩,
  ⟨0x0A8, 1, 4, 0x0, 0x0, 0x0, 0x0, .cnt⟩,
  ⟨0x0AC, 1, 4, 0x0, 0x0, 0x0, 0x0, .cnt⟩,
  ⟨0x0B0, 1, 4, 0x0, 0x0, 0x0, 0x0, .cnt⟩,
  ⟨0x0B4, 1, 4, 0x0, 0x0, 0x0, 0x0, .cnt⟩,
  ⟨0x0C4, 1, 4, 0x0, 0xFFFFFFFF, 0x0, 0x0, .plain⟩,
  ⟨0x0C8, 1, 4, 0x0, 0x0, 0x0, 0x0, .plain⟩,
  ⟨0x0CC, 1, 4, 0x0, 0x0, 0x0, 0x0, .plain⟩,
  ⟨0x0D0, 3, 4, 0x0, 0x0, 0x0, 0x0, .plain⟩,
  ⟨0x0DC, 1, 4, 0x0, 0x0, 0x0, 0x0, .cmd⟩,
  ⟨0x0E0, 1, 4, 0x0, 0x0, 0x0, 0x0, .cnt⟩,
  ⟨0x0E4, 1, 4, 0x0, 0x0, 0x0, 0x0, .cnt⟩,
  ⟨0x100, 8, 4, 0x0, 0x0, 0x0, 0x0, .plain⟩,
  ⟨0x120, 8, 4, 0x0, 0x0, 0x0, 0x0, .plain⟩,
  ⟨0x800, 256, 4, 0x0, 0x0, 0x0, 0x0, .plain⟩]

/-- Registers of `SLICE` (01, 08). -/
def rowsSlice : List RegRow := [
  ⟨0x040, 1, 4, 0xFF000000, 0xFF0107F3, 0x0, 0x0, .plain⟩,
  ⟨0x044, 1, 4, 0x0, 0x0, 0x0, 0x0, .plain⟩,
  ⟨0x048, 1, 4, 0x0, 0x0, 0x0, 0x0, .cnt⟩,
  ⟨0x04C, 1, 4, 0x0, 0x0, 0x0, 0x0, .plain⟩,
  ⟨0x050, 1, 4, 0x0, 0x0, 0x0, 0x0, .cnt⟩,
  ⟨0x054, 1, 4, 0x0, 0x0, 0x0, 0x0, .cnt⟩,
  ⟨0x100, 1, 4, 0x2, 0x703, 0x0, 0x0, .plain⟩,
  ⟨0x104, 1, 4, 0xE4, 0xFF, 0x0, 0x0, .plain⟩,
  ⟨0x200, 1, 4, 0xFFFF0002, 0xFFFF0003, 0x0, 0x0, .plain⟩,
  ⟨0x204, 1, 4, 0x0, 0xFFFFFFFF, 0x0, 0x0, .plain⟩,
  ⟨0x208, 1, 4, 0x0, 0xFFFF, 0x0, 0x0, .plain⟩,
  ⟨0x20C, 1, 4, 0x0, 0x0, 0x0, 0x0, .plain⟩,
  ⟨0x210, 1, 4, 0x0, 0x0, 0x0, 0x0, .cnt⟩,
  ⟨0x240, 4, 32, 0x300, 0x1FFF, 0x0, 0x0, .plain⟩,
  ⟨0x244, 4, 32, 0x200, 0x1FFF, 0x0, 0x0, .plain⟩,
  ⟨0x248, 4, 32, 0xFF, 0xFF, 0x0, 0x0, .plain⟩,
  ⟨0x24C, 4, 32, 0x0, 0x0, 0x0, 0x0, .plain⟩,
  ⟨0x250, 4, 32, 0x0, 0x0, 0x0, 0x0, .cntLo 48⟩,
  ⟨0x254, 4, 32, 0x0, 0x0, 0x0, 0x0, .cntHi 48⟩,
  ⟨0x258, 4, 32, 0x0, 0x0, 0x0, 0x0, .cnt⟩]

/-- Registers of `CLS` (05). -/
def rowsCls : List RegRow := [
  ⟨0x040, 1, 4, 0x12B50000, 0xFFFF0000, 0x0, 0x0, .plain⟩,
  ⟨0x044, 1, 4, 0x0, 0x0, 0xFFFFFFFF, 0x0, .plain⟩,
  ⟨0x048, 1, 4, 0x0, 0x0, 0xFF, 0x0, .plain⟩,
  ⟨0x04C, 1, 4, 0x0, 0x0, 0x0, 0x0, .plain⟩,
  ⟨0x050, 1, 4, 0x0, 0x0, 0x0, 0x0, .cntLo 48⟩,
  ⟨0x054, 1, 4, 0x0, 0x0, 0x0, 0x0, .cntHi 48⟩,
  ⟨0x058, 1, 4, 0x0, 0x0, 0x0, 0x0, .cntLo 48⟩,
  ⟨0x05C, 1, 4, 0x0, 0x0, 0x0, 0x0, .cntHi 48⟩,
  ⟨0x060, 1, 4, 0x0, 0x0, 0x0, 0x0, .cntLo 48⟩,
  ⟨0x064, 1, 4, 0x0, 0x0, 0x0, 0x0, .cntHi 48⟩,
  ⟨0x068, 1, 4, 0x0, 0x0, 0x0, 0x0, .cnt⟩,
  ⟨0x06C, 1, 4, 0x0, 0x0, 0x0, 0x0, .cnt⟩,
  ⟨0x070, 1, 4, 0xE000A, 0xFFFFFF, 0x0, 0x0, .plain⟩,
  ⟨0x074, 1, 4, 0x0, 0x0, 0x0, 0x0, .cnt⟩,
  ⟨0x078, 1, 4, 0x0, 0x0, 0x0, 0x0, .cnt⟩,
  ⟨0x07C, 1, 4, 0x0, 0x0, 0x0, 0x0, .cmd⟩,
  ⟨0x080, 1, 4, 0x0, 0x0, 0x0, 0x0, .plain⟩,
  ⟨0x084, 1, 4, 0x0, 0x0, 0x0, 0x0, .cnt⟩,
  ⟨0x0C0, 16, 4, 0x0, 0xFB, 0x0, 0x0, .plain⟩]

/-- Registers of `CLS_PROF` (05). -/
def rowsClsProf : List RegRow := [
  ⟨0x040, 1, 4, 0x0, 0x0, 0x0, 0x0, .plain⟩,
  ⟨0x044, 1, 4, 0x0, 0x0, 0x0, 0x0, .cnt⟩,
  ⟨0x400, 64, 16, 0x0, 0x0, 0x0, 0x0, .cntLo 48⟩,
  ⟨0x404, 64, 16, 0x0, 0x0, 0x0, 0x0, .cntHi 48⟩,
  ⟨0x408, 64, 16, 0x0, 0x0, 0x0, 0x0, .cntLo 64⟩,
  ⟨0x40C, 64, 16, 0x0, 0x0, 0x0, 0x0, .cntHi 64⟩]

/-- Registers of `CLS_MISS` (05). -/
def rowsClsMiss : List RegRow := [
  ⟨0x040, 1, 4, 0x0, 0x1FFFFFF, 0x0, 0x0, .plain⟩,
  ⟨0x044, 1, 4, 0x0, 0x3FFFFFF, 0x0, 0x0, .plain⟩,
  ⟨0x048, 1, 4, 0x0, 0x0, 0x0, 0x0, .cmd⟩,
  ⟨0x04C, 1, 4, 0x0, 0x0, 0x0, 0x0, .plain⟩,
  ⟨0x050, 1, 4, 0xA, 0xFF, 0x0, 0x0, .plain⟩,
  ⟨0x054, 1, 4, 0x0, 0x0, 0x0, 0x0, .cnt⟩,
  ⟨0x058, 1, 4, 0x0, 0x0, 0x0, 0x0, .cnt⟩,
  ⟨0x05C, 1, 4, 0x0, 0x0, 0x0, 0x0, .cnt⟩,
  ⟨0x060, 1, 4, 0x0, 0x0, 0x0, 0x0, .cnt⟩,
  ⟨0x064, 1, 4, 0x0, 0x0, 0x0, 0x0, .cnt⟩,
  ⟨0x068, 1, 4, 0x0, 0x0, 0x0, 0x0, .cnt⟩,
  ⟨0x06C, 1, 4, 0x0, 0x0, 0x0, 0x0, .cnt⟩,
  ⟨0x070, 1, 4, 0x0, 0x0, 0x0, 0x0, .cnt⟩,
  ⟨0x074, 1, 4, 0x0, 0x0, 0x0, 0x0, .cnt⟩,
  ⟨0x078, 1, 4, 0x0, 0x0, 0x0, 0x0, .cnt⟩,
  ⟨0x100, 16, 16, 0x0, 0xC3FF03FF, 0x0, 0x0, .plain⟩,
  ⟨0x104, 16, 16, 0x0, 0x1FFFFFF, 0x0, 0x0, .plain⟩,
  ⟨0x108, 16, 16, 0x64, 0xFFFF, 0x0, 0x0, .plain⟩]

/-- Registers of `CLS_UPD` (05). -/
def rowsClsUpd : List RegRow := [
  ⟨0x040, 1, 4, 0x4000, 0x0, 0xFF01, 0x0, .plain⟩,
  ⟨0x044, 1, 4, 0x0, 0x0, 0x0, 0x0, .cmd⟩,
  ⟨0x048, 1, 4, 0x0, 0x1FFF0FFF, 0x0, 0x0, .plain⟩,
  ⟨0x04C, 1, 4, 0x0, 0x0, 0x0, 0x0, .plain⟩,
  ⟨0x050, 1, 4, 0x0, 0x0, 0x0, 0x0, .plain⟩,
  ⟨0x054, 1, 4, 0x0, 0x7FFFFF, 0x0, 0x0, .plain⟩,
  ⟨0x058, 1, 4, 0x0, 0x0, 0x0, 0x0, .cmd⟩,
  ⟨0x060, 4, 4, 0x0, 0x0, 0x0, 0x0, .plain⟩,
  ⟨0x070, 1, 4, 0x0, 0x0, 0x0, 0x0, .cnt⟩,
  ⟨0x074, 1, 4, 0x0, 0x0, 0x0, 0x0, .cnt⟩,
  ⟨0x078, 1, 4, 0x0, 0x0, 0x0, 0x0, .cnt⟩,
  ⟨0x100, 16, 4, 0x0, 0xFFFFFFFF, 0x0, 0x0, .plain⟩]

/-- Registers of `CLS_BANK` (05). -/
def rowsClsBank : List RegRow := [
  ⟨0x040, 2, 64, 0x0, 0x0, 0x0, 0x0, .plain⟩,
  ⟨0x044, 2, 64, 0x0, 0x0, 0x0, 0x0, .plain⟩,
  ⟨0x048, 2, 64, 0x0, 0x0, 0x0, 0x0, .cnt⟩,
  ⟨0x04C, 2, 64, 0x0, 0x0, 0x0, 0x0, .cnt⟩,
  ⟨0x050, 2, 64, 0x0, 0x0, 0x0, 0x0, .cnt⟩,
  ⟨0x054, 2, 64, 0x0, 0x0, 0x0, 0x0, .cnt⟩,
  ⟨0x058, 2, 64, 0x0, 0x0, 0x0, 0x0, .cnt⟩]

/-- Registers of `FLOW` (06). -/
def rowsFlow : List RegRow := [
  ⟨0x040, 1, 4, 0x100, 0x0, 0x1FF, 0x0, .plain⟩,
  ⟨0x044, 1, 4, 0x0, 0x0, 0x0, 0x0, .plain⟩,
  ⟨0x048, 1, 4, 0x0, 0x0, 0x0, 0x0, .rc⟩,
  ⟨0x04C, 1, 4, 0x0, 0xFFF, 0x0, 0x0, .plain⟩,
  ⟨0x050, 1, 4, 0x0, 0x1FFFFFF, 0x0, 0x0, .plain⟩,
  ⟨0x054, 1, 4, 0x0, 0x3FFFFFF, 0x0, 0x0, .plain⟩,
  ⟨0x058, 1, 4, 0x0, 0x0, 0x0, 0x0, .cmd⟩,
  ⟨0x05C, 1, 4, 0x0, 0x0, 0x0, 0x0, .plain⟩,
  ⟨0x060, 1, 4, 0x0, 0xFFFFFFFF, 0x0, 0x0, .plain⟩,
  ⟨0x064, 1, 4, 0x0, 0xFFFFFFFF, 0x0, 0x0, .plain⟩,
  ⟨0x068, 1, 4, 0x0, 0xFFFFFFFF, 0x0, 0x0, .plain⟩,
  ⟨0x06C, 1, 4, 0x0, 0xFFFFFFFF, 0x0, 0x0, .plain⟩,
  ⟨0x070, 1, 4, 0x0, 0x0, 0x0, 0x0, .cmd⟩,
  ⟨0x074, 1, 4, 0x0, 0x0, 0x0, 0x0, .plain⟩,
  ⟨0x080, 1, 4, 0x0, 0x0, 0x0, 0x0, .cntLo 48⟩,
  ⟨0x084, 1, 4, 0x0, 0x0, 0x0, 0x0, .cntHi 48⟩,
  ⟨0x088, 1, 4, 0x0, 0x0, 0x0, 0x0, .cntLo 48⟩,
  ⟨0x08C, 1, 4, 0x0, 0x0, 0x0, 0x0, .cntHi 48⟩,
  ⟨0x090, 1, 4, 0x0, 0x0, 0x0, 0x0, .cntLo 48⟩,
  ⟨0x094, 1, 4, 0x0, 0x0, 0x0, 0x0, .cntHi 48⟩,
  ⟨0x098, 1, 4, 0x0, 0x0, 0x0, 0x0, .cntLo 48⟩,
  ⟨0x09C, 1, 4, 0x0, 0x0, 0x0, 0x0, .cntHi 48⟩,
  ⟨0x0A0, 1, 4, 0x0, 0x0, 0x0, 0x0, .cnt⟩,
  ⟨0x0A4, 1, 4, 0x0, 0x0, 0x0, 0x0, .cnt⟩,
  ⟨0x0A8, 1, 4, 0x0, 0x0, 0x0, 0x0, .cnt⟩]

/-- Registers of `FEXP` (06). -/
def rowsFexp : List RegRow := [
  ⟨0x040, 1, 4, 0xF, 0xFFFF, 0x0, 0x0, .plain⟩,
  ⟨0x044, 1, 4, 0x3C, 0xFFFF, 0x0, 0x0, .plain⟩,
  ⟨0x048, 1, 4, 0xA, 0xFF, 0x0, 0x0, .plain⟩,
  ⟨0x04C, 1, 4, 0x0, 0x0, 0x0, 0x0, .plain⟩,
  ⟨0x050, 1, 4, 0x0, 0x0, 0x0, 0x0, .cntLo 48⟩,
  ⟨0x054, 1, 4, 0x0, 0x0, 0x0, 0x0, .cntHi 48⟩,
  ⟨0x058, 1, 4, 0x0, 0x0, 0x0, 0x0, .cnt⟩,
  ⟨0x05C, 1, 4, 0x0, 0x0, 0x0, 0x0, .plain⟩]

/-- Registers of `ADMIT` (06). -/
def rowsAdmit : List RegRow := [
  ⟨0x040, 1, 4, 0x64, 0x0, 0xFFFF, 0x0, .plain⟩,
  ⟨0x044, 1, 4, 0x100, 0x0, 0xFFFF, 0x0, .plain⟩,
  ⟨0x048, 1, 4, 0x10, 0x0, 0xFFFF, 0x0, .plain⟩,
  ⟨0x04C, 1, 4, 0x64, 0x0, 0xFF, 0x0, .plain⟩,
  ⟨0x050, 1, 4, 0x0, 0x0, 0x0, 0x0, .cmd⟩,
  ⟨0x054, 1, 4, 0x0, 0x0, 0x0, 0x0, .plain⟩,
  ⟨0x058, 1, 4, 0x0, 0x0, 0x0, 0x0, .cmd⟩,
  ⟨0x100, 4, 128, 0x0, 0x0, 0x0, 0x0, .plain⟩,
  ⟨0x104, 4, 128, 0x0, 0x0, 0x0, 0x0, .rc⟩,
  ⟨0x108, 4, 128, 0x0, 0x0, 0x0, 0x0, .plain⟩,
  ⟨0x10C, 4, 128, 0x0, 0x0, 0x0, 0x0, .cnt⟩,
  ⟨0x110, 4, 128, 0x0, 0x0, 0x0, 0x0, .cntLo 48⟩,
  ⟨0x114, 4, 128, 0x0, 0x0, 0x0, 0x0, .cntHi 48⟩,
  ⟨0x118, 4, 128, 0x0, 0x0, 0x0, 0x0, .cntLo 48⟩,
  ⟨0x11C, 4, 128, 0x0, 0x0, 0x0, 0x0, .cntHi 48⟩,
  ⟨0x120, 4, 128, 0x0, 0x0, 0x0, 0x0, .cntLo 48⟩,
  ⟨0x124, 4, 128, 0x0, 0x0, 0x0, 0x0, .cntHi 48⟩,
  ⟨0x128, 4, 128, 0x0, 0x0, 0x0, 0x0, .cntLo 48⟩,
  ⟨0x12C, 4, 128, 0x0, 0x0, 0x0, 0x0, .cntHi 48⟩,
  ⟨0x130, 4, 128, 0x0, 0x0, 0x0, 0x0, .cntLo 48⟩,
  ⟨0x134, 4, 128, 0x0, 0x0, 0x0, 0x0, .cntHi 48⟩,
  ⟨0x138, 4, 128, 0x0, 0x0, 0x0, 0x0, .cntLo 48⟩,
  ⟨0x13C, 4, 128, 0x0, 0x0, 0x0, 0x0, .cntHi 48⟩,
  ⟨0x140, 4, 128, 0x0, 0x0, 0x0, 0x0, .cntLo 48⟩,
  ⟨0x144, 4, 128, 0x0, 0x0, 0x0, 0x0, .cntHi 48⟩,
  ⟨0x148, 4, 128, 0x0, 0x0, 0x0, 0x0, .cntLo 48⟩,
  ⟨0x14C, 4, 128, 0x0, 0x0, 0x0, 0x0, .cntHi 48⟩,
  ⟨0x150, 4, 128, 0x0, 0x0, 0x0, 0x0, .cntLo 48⟩,
  ⟨0x154, 4, 128, 0x0, 0x0, 0x0, 0x0, .cntHi 48⟩,
  ⟨0x158, 4, 128, 0x0, 0x0, 0x0, 0x0, .cntLo 48⟩,
  ⟨0x15C, 4, 128, 0x0, 0x0, 0x0, 0x0, .cntHi 48⟩,
  ⟨0x160, 4, 128, 0x0, 0x0, 0x0, 0x0, .cntLo 48⟩,
  ⟨0x164, 4, 128, 0x0, 0x0, 0x0, 0x0, .cntHi 48⟩,
  ⟨0x168, 4, 128, 0x0, 0x0, 0x0, 0x0, .cntLo 48⟩,
  ⟨0x16C, 4, 128, 0x0, 0x0, 0x0, 0x0, .cntHi 48⟩,
  ⟨0x170, 4, 128, 0x0, 0x0, 0x0, 0x0, .cnt⟩,
  ⟨0x174, 4, 128, 0x0, 0x0, 0x0, 0x0, .cnt⟩,
  ⟨0x500, 128, 4, 0x0, 0x0, 0x0, 0x0, .plain⟩]

/-- Registers of `BUF` (07). -/
def rowsBuf : List RegRow := [
  ⟨0x040, 1, 4, 0x800, 0x0, 0x1FFF, 0x0, .plain⟩,
  ⟨0x044, 1, 4, 0x1000, 0x1FFFFFF, 0x0, 0x0, .plain⟩,
  ⟨0x048, 1, 4, 0x16E0000, 0x0, 0x0, 0x0, .plain⟩,
  ⟨0x04C, 1, 4, 0x16E0000, 0x0, 0x0, 0x0, .plain⟩,
  ⟨0x050, 1, 4, 0x0, 0x0, 0x0, 0x0, .plain⟩,
  ⟨0x054, 1, 4, 0x0, 0x0, 0x0, 0x0, .plain⟩,
  ⟨0x058, 1, 4, 0x0, 0x0, 0x0, 0x0, .rc⟩,
  ⟨0x05C, 1, 4, 0x0, 0x0, 0x0, 0x0, .cntLo 48⟩,
  ⟨0x060, 1, 4, 0x0, 0x0, 0x0, 0x0, .cntHi 48⟩,
  ⟨0x200, 16, 48, 0x7FFFFFF, 0x7FFFFFF, 0x0, 0x0, .plain⟩,
  ⟨0x204, 16, 48, 0x7FFFFFF, 0x7FFFFFF, 0x0, 0x0, .plain⟩,
  ⟨0x208, 16, 48, 0x0, 0xFFFF, 0x0, 0x0, .plain⟩,
  ⟨0x210, 16, 48, 0x7FFFFFF, 0x7FFFFFF, 0x0, 0x0, .plain⟩,
  ⟨0x214, 16, 48, 0x7FFFFFF, 0x7FFFFFF, 0x0, 0x0, .plain⟩,
  ⟨0x218, 16, 48, 0x0, 0xFFFF, 0x0, 0x0, .plain⟩,
  ⟨0x220, 16, 48, 0x7FFFFFF, 0x7FFFFFF, 0x0, 0x0, .plain⟩,
  ⟨0x224, 16, 48, 0x7FFFFFF, 0x7FFFFFF, 0x0, 0x0, .plain⟩,
  ⟨0x228, 16, 48, 0x0, 0xFFFF, 0x0, 0x0, .plain⟩]

/-- Registers of `SCHED` (07). -/
def rowsSched : List RegRow := [
  ⟨0x040, 4, 4, 0x1010101, 0xFFFFFFFF, 0x0, 0x0, .plain⟩,
  ⟨0x100, 16, 64, 0x10000, 0x100FF, 0x0, 0x0, .plain⟩,
  ⟨0x104, 16, 64, 0x1010101, 0xFFFFFFFF, 0x0, 0x0, .plain⟩,
  ⟨0x108, 16, 64, 0x1010101, 0xFFFFFFFF, 0x0, 0x0, .plain⟩,
  ⟨0x10C, 16, 64, 0x8040201, 0xFFFFFFFF, 0x0, 0x0, .plain⟩,
  ⟨0x110, 16, 64, 0x80402010, 0xFFFFFFFF, 0x0, 0x0, .plain⟩,
  ⟨0x114, 16, 64, 0x0, 0x0, 0x0, 0x0, .plain⟩,
  ⟨0x118, 16, 64, 0x0, 0x0, 0x0, 0x0, .cnt⟩,
  ⟨0x11C, 16, 64, 0x0, 0x0, 0x0, 0x0, .cnt⟩,
  ⟨0x120, 16, 64, 0x0, 0x0, 0x0, 0x0, .cntLo 48⟩,
  ⟨0x124, 16, 64, 0x0, 0x0, 0x0, 0x0, .cntHi 48⟩,
  ⟨0x128, 16, 64, 0x0, 0x0, 0x0, 0x0, .cntLo 64⟩,
  ⟨0x12C, 16, 64, 0x0, 0x0, 0x0, 0x0, .cntHi 64⟩]

/-- Registers of `QUEUE` (07). -/
def rowsQueue : List RegRow := [
  ⟨0x100, 32, 64, 0x0, 0xF0F, 0x0, 0x0, .plain⟩,
  ⟨0x104, 32, 64, 0x0, 0x7FFFFFF, 0x0, 0x0, .plain⟩,
  ⟨0x108, 32, 64, 0x7FFFFFF, 0x7FFFFFF, 0x0, 0x0, .plain⟩,
  ⟨0x10C, 32, 64, 0x0, 0x0, 0x0, 0x0, .plain⟩,
  ⟨0x110, 32, 64, 0x0, 0x0, 0x0, 0x0, .plain⟩,
  ⟨0x114, 32, 64, 0x0, 0x0, 0x0, 0x0, .plain⟩,
  ⟨0x118, 32, 64, 0x0, 0x0, 0x0, 0x0, .plain⟩,
  ⟨0x11C, 32, 64, 0x0, 0x0, 0x0, 0x0, .cmd⟩,
  ⟨0x120, 32, 64, 0x0, 0x0, 0x0, 0x0, .cntLo 48⟩,
  ⟨0x124, 32, 64, 0x0, 0x0, 0x0, 0x0, .cntHi 48⟩,
  ⟨0x128, 32, 64, 0x0, 0x0, 0x0, 0x0, .cntLo 48⟩,
  ⟨0x12C, 32, 64, 0x0, 0x0, 0x0, 0x0, .cntHi 48⟩,
  ⟨0x130, 32, 64, 0x0, 0x0, 0x0, 0x0, .cntLo 64⟩,
  ⟨0x134, 32, 64, 0x0, 0x0, 0x0, 0x0, .cntHi 64⟩,
  ⟨0x138, 32, 64, 0x0, 0x0, 0x0, 0x0, .plain⟩]

/-- Registers of `DROP` (07). -/
def rowsDrop : List RegRow := [
  ⟨0x040, 4, 16, 0x0, 0x0, 0x0, 0x0, .cntLo 48⟩,
  ⟨0x044, 4, 16, 0x0, 0x0, 0x0, 0x0, .cntHi 48⟩,
  ⟨0x080, 4, 16, 0x0, 0x0, 0x0, 0x0, .cntLo 48⟩,
  ⟨0x084, 4, 16, 0x0, 0x0, 0x0, 0x0, .cntHi 48⟩,
  ⟨0x100, 160, 16, 0x0, 0x0, 0x0, 0x0, .cntLo 48⟩,
  ⟨0x104, 160, 16, 0x0, 0x0, 0x0, 0x0, .cntHi 48⟩,
  ⟨0x108, 160, 16, 0x0, 0x0, 0x0, 0x0, .cntLo 64⟩,
  ⟨0x10C, 160, 16, 0x0, 0x0, 0x0, 0x0, .cntHi 64⟩]

/-- Registers of `HBM` (07). -/
def rowsHbm : List RegRow := [
  ⟨0x040, 1, 4, 0x0, 0x0, 0x0, 0x0, .plain⟩,
  ⟨0x044, 1, 4, 0x0, 0x0, 0x0, 0x0, .plain⟩,
  ⟨0x048, 1, 4, 0x0, 0x0, 0x0, 0x0, .cmd⟩,
  ⟨0x04C, 1, 4, 0x2, 0x0, 0xFF, 0x0, .plain⟩,
  ⟨0x050, 1, 4, 0x0, 0x0, 0x0, 0x0, .plain⟩,
  ⟨0x054, 1, 4, 0x0, 0x0, 0x0, 0x0, .plain⟩,
  ⟨0x058, 1, 4, 0x0, 0x0, 0x0, 0x0, .plain⟩,
  ⟨0x05C, 1, 4, 0x0, 0x0, 0x0, 0x0, .rc⟩,
  ⟨0x060, 1, 4, 0x0, 0x0, 0x0, 0x0, .cntLo 48⟩,
  ⟨0x064, 1, 4, 0x0, 0x0, 0x0, 0x0, .cntHi 48⟩,
  ⟨0x068, 1, 4, 0x0, 0x0, 0x0, 0x0, .cnt⟩,
  ⟨0x06C, 1, 4, 0x0, 0x0, 0x0, 0x0, .cnt⟩,
  ⟨0x070, 1, 4, 0x0, 0x0, 0x0, 0x0, .plain⟩,
  ⟨0x074, 1, 4, 0x0, 0x0, 0xF00FF, 0x0, .plain⟩,
  ⟨0x078, 1, 4, 0x0, 0x0, 0xFF, 0x0, .plain⟩,
  ⟨0x07C, 1, 4, 0x0, 0x0, 0x0, 0x0, .cmd⟩,
  ⟨0x080, 16, 4, 0x0, 0x0, 0x0, 0x0, .cnt⟩]

/-- Registers of `LANTERN` (10). -/
def rowsLantern : List RegRow := [
  ⟨0x040, 1, 4, 0x10, 0x3F77, 0x0, 0x0, .plain⟩,
  ⟨0x044, 1, 4, 0x3D090, 0xFFFFF, 0x0, 0x0, .plain⟩,
  ⟨0x048, 1, 4, 0x0, 0x0, 0x0, 0x0, .plain⟩,
  ⟨0x04C, 1, 4, 0x0, 0x0, 0x0, 0x0, .plain⟩,
  ⟨0x050, 1, 4, 0x300290, 0x0, 0xFFFFFF, 0x0, .plain⟩,
  ⟨0x054, 1, 4, 0x418, 0x0, 0xFFFF, 0x0, .plain⟩,
  ⟨0x058, 1, 4, 0x3010, 0x0, 0xFF1F, 0x0, .plain⟩,
  ⟨0x05C, 1, 4, 0x0, 0x3, 0x0, 0x0, .plain⟩,
  ⟨0x060, 8, 4, 0x0, 0xFFFFFFFF, 0x0, 0x0, .cmd⟩,
  ⟨0x080, 1, 4, 0x0, 0x0, 0x0, 0x0, .cmd⟩,
  ⟨0x084, 1, 4, 0x0, 0x0, 0x0, 0x0, .plain⟩,
  ⟨0x088, 1, 4, 0x0, 0xFFFFFFFF, 0x0, 0x0, .plain⟩,
  ⟨0x08C, 1, 4, 0x0, 0xFF, 0x0, 0x0, .plain⟩,
  ⟨0x090, 1, 4, 0x0, 0xFFFFFFFF, 0x0, 0x0, .plain⟩,
  ⟨0x094, 1, 4, 0x0, 0xFF, 0x0, 0x0, .plain⟩,
  ⟨0x098, 1, 4, 0x0, 0x0, 0x0, 0x0, .plain⟩,
  ⟨0x09C, 1, 4, 0x0, 0x0, 0x0, 0x0, .plain⟩,
  ⟨0x0A0, 1, 4, 0x0, 0x0, 0x0, 0x0, .plain⟩,
  ⟨0x0A4, 1, 4, 0x0, 0x0, 0x0, 0x0, .plain⟩,
  ⟨0x0A8, 1, 4, 0x0, 0x0, 0x0, 0x0, .plain⟩,
  ⟨0x0AC, 1, 4, 0x0, 0x0, 0x0, 0x0, .plain⟩,
  ⟨0x0B0, 1, 4, 0x814, 0xFFFF, 0x0, 0x0, .plain⟩,
  ⟨0x0B4, 1, 4, 0xA, 0xFFFF, 0x0, 0x0, .plain⟩,
  ⟨0x0B8, 1, 4, 0x0, 0x0, 0x0, 0x0, .cmd⟩,
  ⟨0x0BC, 1, 4, 0x0, 0x0, 0x0, 0x0, .plain⟩,
  ⟨0x0C0, 1, 4, 0x0, 0x0, 0x0, 0x0, .plain⟩,
  ⟨0x0C4, 1, 4, 0x0, 0x0, 0x0, 0x0, .plain⟩,
  ⟨0x0C8, 3, 4, 0x0, 0x0, 0x0, 0x0, .plain⟩,
  ⟨0x0E0, 8, 4, 0x0, 0x0, 0x0, 0x0, .plain⟩,
  ⟨0x100, 1, 4, 0x0, 0x0, 0x0, 0x0, .cnt⟩,
  ⟨0x104, 1, 4, 0x0, 0x0, 0x0, 0x0, .cnt⟩,
  ⟨0x108, 1, 4, 0x0, 0x0, 0x0, 0x0, .cnt⟩,
  ⟨0x10C, 1, 4, 0x0, 0x0, 0x0, 0x0, .cnt⟩,
  ⟨0x110, 1, 4, 0x0, 0x0, 0x0, 0x0, .cnt⟩,
  ⟨0x114, 1, 4, 0x0, 0x0, 0x0, 0x0, .cnt⟩,
  ⟨0x118, 1, 4, 0x0, 0x0, 0x0, 0x0, .cnt⟩,
  ⟨0x11C, 1, 4, 0x0, 0x0, 0x0, 0x0, .cnt⟩,
  ⟨0x120, 1, 4, 0x0, 0x0, 0x0, 0x0, .cnt⟩,
  ⟨0x124, 1, 4, 0x0, 0x0, 0x0, 0x0, .cnt⟩,
  ⟨0x128, 1, 4, 0x0, 0x0, 0x0, 0x0, .cnt⟩,
  ⟨0x12C, 1, 4, 0x0, 0x0, 0x0, 0x0, .cnt⟩,
  ⟨0x130, 1, 4, 0x0, 0x0, 0x0, 0x0, .cnt⟩,
  ⟨0x134, 1, 4, 0x0, 0x0, 0x0, 0x0, .cnt⟩,
  ⟨0x138, 1, 4, 0x0, 0x0, 0x0, 0x0, .cnt⟩,
  ⟨0x13C, 1, 4, 0x0, 0x0, 0x0, 0x0, .cnt⟩,
  ⟨0x140, 1, 4, 0x0, 0x0, 0x0, 0x0, .cnt⟩,
  ⟨0x144, 1, 4, 0x0, 0x0, 0x0, 0x0, .cnt⟩,
  ⟨0x148, 1, 4, 0x0, 0x0, 0x0, 0x0, .cnt⟩]

/-- Registers of `ANA` (11). -/
def rowsAna : List RegRow := [
  ⟨0x040, 1, 4, 0x3030064, 0xFFFFFF, 0x3000000, 0x0, .plain⟩,
  ⟨0x044, 1, 4, 0x0, 0x0, 0x0, 0x0, .cmd⟩,
  ⟨0x048, 1, 4, 0x0, 0x0, 0x0, 0x0, .plain⟩,
  ⟨0x04C, 1, 4, 0x0, 0x0, 0x0, 0x0, .plain⟩,
  ⟨0x050, 1, 4, 0x0, 0x0, 0x0, 0x0, .plain⟩,
  ⟨0x200, 10, 4, 0x0, 0x0, 0x0, 0x0, .cnt⟩,
  ⟨0x240, 8, 4, 0x0, 0x0, 0x0, 0x0, .cnt⟩,
  ⟨0x100, 10, 16, 0x10, 0x1331, 0x0, 0x0, .plain⟩,
  ⟨0x104, 10, 16, 0x0, 0x0, 0x0, 0x0, .plain⟩,
  ⟨0x108, 10, 16, 0x0, 0x0, 0x0, 0x0, .plain⟩,
  ⟨0x10C, 10, 16, 0x0, 0x0, 0xFFFF, 0x0, .plain⟩]

/-- Registers of `ANA_COM` (11). -/
def rowsAnaCom : List RegRow := [
  ⟨0x040, 1, 4, 0xA0A, 0x0, 0xFFFF, 0x0, .plain⟩,
  ⟨0x044, 1, 4, 0x10000, 0x0, 0xFFFFF, 0x0, .plain⟩,
  ⟨0x048, 1, 4, 0xA001E, 0x0, 0xFF00FF, 0x0, .plain⟩,
  ⟨0x04C, 1, 4, 0x0, 0x0, 0x0, 0x0, .plain⟩]

/-- Registers of `DITHER` (11). -/
def rowsDither : List RegRow := [
  ⟨0x040, 1, 4, 0x0, 0x0, 0x0, 0x0, .cmd⟩,
  ⟨0x100, 16, 16, 0x0, 0xFFFFFFFF, 0x0, 0x0, .plain⟩,
  ⟨0x104, 16, 16, 0x0, 0xFF, 0x0, 0x0, .plain⟩,
  ⟨0x108, 16, 16, 0x0, 0x1, 0x0, 0x0, .plain⟩,
  ⟨0x10C, 16, 16, 0x0, 0x0, 0x0, 0x0, .plain⟩]

/-- Registers of `DECIM` (11). -/
def rowsDecim : List RegRow := [
  ⟨0x040, 1, 4, 0x0, 0x0, 0x0, 0x0, .plain⟩,
  ⟨0x100, 12, 32, 0x20, 0x1373, 0x3FF0000, 0x0, .plain⟩,
  ⟨0x104, 12, 32, 0x0, 0x0, 0x0, 0x0, .plain⟩,
  ⟨0x108, 12, 32, 0x0, 0x0, 0x0, 0x0, .plain⟩,
  ⟨0x10C, 12, 32, 0x0, 0x0, 0x0, 0x0, .plain⟩,
  ⟨0x110, 12, 32, 0x0, 0x0, 0x0, 0x0, .cnt⟩]

/-- Registers of `RESAMP` (11). -/
def rowsResamp : List RegRow := [
  ⟨0x100, 8, 32, 0x0, 0x7F01, 0x0, 0x0, .plain⟩,
  ⟨0x104, 8, 32, 0x0, 0xFFFFFFFF, 0x0, 0x0, .plain⟩,
  ⟨0x108, 8, 32, 0x10, 0xFF, 0x0, 0x0, .plain⟩,
  ⟨0x10C, 8, 32, 0x0, 0x0, 0x0, 0x0, .plain⟩,
  ⟨0x110, 8, 32, 0x0, 0x0, 0x0, 0x0, .plain⟩,
  ⟨0x114, 8, 32, 0x0, 0x0, 0x0, 0x0, .plain⟩]

/-- Registers of `LSEQ` (12). -/
def rowsLseq : List RegRow := [
  ⟨0x040, 1, 4, 0x3E80301, 0xFF01, 0xFFFF0000, 0x0, .plain⟩,
  ⟨0x044, 1, 4, 0x0, 0x0, 0x0, 0x0, .cmd⟩,
  ⟨0x048, 1, 4, 0x0, 0x0, 0x0, 0x0, .plain⟩,
  ⟨0x04C, 1, 4, 0x0, 0x0, 0x0, 0x0, .plain⟩,
  ⟨0x050, 1, 4, 0x0, 0x0, 0x0, 0x0, .plain⟩,
  ⟨0x054, 1, 4, 0x0, 0x0, 0x0, 0x0, .plain⟩,
  ⟨0x058, 1, 4, 0x0, 0x0, 0x0, 0x0, .plain⟩,
  ⟨0x05C, 1, 4, 0x0, 0x0, 0x0, 0x0, .plain⟩,
  ⟨0x060, 1, 4, 0x0, 0x0, 0x0, 0x0, .plain⟩,
  ⟨0x064, 1, 4, 0x0, 0x0, 0x0, 0x0, .plain⟩,
  ⟨0x068, 1, 4, 0x0, 0x0, 0x0, 0x0, .cmd⟩,
  ⟨0x06C, 1, 4, 0x0, 0x0, 0x0, 0x0, .plain⟩,
  ⟨0x070, 1, 4, 0x0, 0x0, 0x0, 0x0, .cntLo 48⟩,
  ⟨0x074, 1, 4, 0x0, 0x0, 0x0, 0x0, .cntHi 48⟩,
  ⟨0x078, 1, 4, 0x0, 0x0, 0x0, 0x0, .cnt⟩,
  ⟨0x07C, 1, 4, 0x0, 0x0, 0x0, 0x0, .cnt⟩,
  ⟨0x080, 32, 4, 0x0, 0x0, 0x0, 0x0, .plain⟩,
  ⟨0x100, 1, 4, 0x0, 0x800007FF, 0x0, 0x0, .plain⟩]

/-- Registers of `MM` (11). -/
def rowsMm : List RegRow := [
  ⟨0x040, 1, 4, 0x11, 0x33, 0x0, 0x0, .plain⟩,
  ⟨0x044, 1, 4, 0x0, 0x0, 0x0, 0x0, .plain⟩,
  ⟨0x048, 1, 4, 0x1F4, 0x0, 0xFFFF, 0x0, .plain⟩,
  ⟨0x04C, 1, 4, 0x19, 0x0, 0xFFFF, 0x0, .plain⟩,
  ⟨0x050, 1, 4, 0x28, 0x0, 0xFFFF, 0x0, .plain⟩,
  ⟨0x054, 1, 4, 0x271007D0, 0x0, 0xFFFFFFFF, 0x0, .plain⟩,
  ⟨0x058, 1, 4, 0x2710, 0x0, 0xFFFF, 0x0, .plain⟩,
  ⟨0x05C, 1, 4, 0x30064, 0xFFFFFF, 0x0, 0x0, .plain⟩,
  ⟨0x060, 1, 4, 0x0, 0x0, 0x0, 0x0, .cmd⟩,
  ⟨0x064, 1, 4, 0x500000, 0xC07FFFFF, 0x0, 0x0, .plain⟩,
  ⟨0x068, 1, 4, 0x0, 0xFFFF, 0x0, 0x0, .plain⟩,
  ⟨0x06C, 1, 4, 0x0, 0x0, 0x0, 0x0, .plain⟩,
  ⟨0x070, 1, 4, 0x0, 0x0, 0x0, 0x0, .plain⟩,
  ⟨0x074, 1, 4, 0x0, 0x0, 0x0, 0x0, .plain⟩,
  ⟨0x078, 1, 4, 0x0, 0x0, 0x0, 0xFFFFFFFF, .plain⟩,
  ⟨0x080, 4, 4, 0x0, 0x0, 0x0, 0x0, .plain⟩,
  ⟨0x0A0, 1, 4, 0x0, 0x0, 0x0, 0x0, .cnt⟩,
  ⟨0x0A4, 1, 4, 0x0, 0x0, 0x0, 0x0, .cnt⟩,
  ⟨0x0A8, 1, 4, 0x0, 0x0, 0x0, 0x0, .cnt⟩,
  ⟨0x0AC, 1, 4, 0x0, 0x0, 0x0, 0x0, .cnt⟩,
  ⟨0x0B0, 1, 4, 0x0, 0x0, 0x0, 0x0, .cnt⟩,
  ⟨0x0B4, 1, 4, 0x0, 0x0, 0x0, 0x0, .cnt⟩,
  ⟨0x0B8, 1, 4, 0x0, 0x0, 0x0, 0x0, .cnt⟩,
  ⟨0x0BC, 1, 4, 0x0, 0x0, 0x0, 0x0, .cnt⟩,
  ⟨0x0E0, 5, 4, 0x0, 0x0, 0x0, 0xFFFFFFFF, .plain⟩,
  ⟨0x100, 32, 4, 0x0, 0xFFFFFFFF, 0x0, 0x0, .plain⟩]

/-- Registers of `CAL` (13). -/
def rowsCal : List RegRow := [
  ⟨0x040, 1, 4, 0x120, 0x1FF, 0x0, 0x0, .plain⟩,
  ⟨0x044, 1, 4, 0x0, 0x1F, 0x0, 0x0, .plain⟩,
  ⟨0x048, 1, 4, 0xFFFFF, 0xFFFFF, 0x0, 0x0, .plain⟩,
  ⟨0x04C, 1, 4, 0x0, 0x0, 0x0, 0x0, .cmd⟩,
  ⟨0x050, 1, 4, 0x0, 0x0, 0x0, 0x0, .plain⟩,
  ⟨0x054, 1, 4, 0x0, 0x0, 0x0, 0x0, .plain⟩,
  ⟨0x058, 1, 4, 0x0, 0x0, 0x0, 0x0, .plain⟩,
  ⟨0x05C, 1, 4, 0x0, 0x0, 0x0, 0x0, .plain⟩,
  ⟨0x060, 1, 4, 0x0, 0x0, 0x0, 0x0, .plain⟩,
  ⟨0x064, 4, 4, 0x0, 0x0, 0x0, 0x0, .plain⟩,
  ⟨0x080, 1, 4, 0x0, 0x0, 0x0, 0x0, .cnt⟩,
  ⟨0x084, 1, 4, 0x0, 0x0, 0x0, 0x0, .cnt⟩,
  ⟨0x088, 1, 4, 0x0, 0x0, 0x0, 0x0, .cnt⟩,
  ⟨0x100, 67, 4, 0x0, 0x0, 0x0, 0x0, .plain⟩,
  ⟨0x300, 67, 4, 0x0, 0xFFFFFFFF, 0x0, 0x0, .plain⟩]

/-- Registers of `BIST` (18). -/
def rowsBist : List RegRow := [
  ⟨0x040, 1, 4, 0x0, 0xFFFFFFF, 0x0, 0x0, .plain⟩,
  ⟨0x044, 1, 4, 0x0, 0x0, 0x0, 0x0, .cmd⟩,
  ⟨0x048, 1, 4, 0x0, 0x0, 0x0, 0x0, .plain⟩,
  ⟨0x04C, 1, 4, 0x3C01FE, 0xFFFF01FE, 0x0, 0x0, .plain⟩,
  ⟨0x050, 1, 4, 0x1000000, 0x0, 0x0, 0x0, .plain⟩,
  ⟨0x054, 1, 4, 0x0, 0x0, 0x0, 0x0, .plain⟩,
  ⟨0x058, 1, 4, 0x0, 0x0, 0x0, 0x0, .plain⟩,
  ⟨0x05C, 1, 4, 0x0, 0x0, 0x0, 0x0, .plain⟩,
  ⟨0x060, 1, 4, 0x0, 0x0, 0x0, 0x0, .plain⟩,
  ⟨0x064, 1, 4, 0x0, 0x0, 0x0, 0x0, .plain⟩,
  ⟨0x068, 1, 4, 0x0, 0x0, 0x0, 0x0, .plain⟩,
  ⟨0x06C, 1, 4, 0x0, 0x0, 0x0, 0x0, .plain⟩,
  ⟨0x070, 1, 4, 0x0, 0x0, 0x0, 0x0, .plain⟩,
  ⟨0x074, 1, 4, 0x0, 0x0, 0x0, 0x0, .plain⟩,
  ⟨0x078, 1, 4, 0x0, 0x0, 0x0, 0x0, .plain⟩,
  ⟨0x07C, 1, 4, 0x0, 0x0, 0x0, 0x0, .plain⟩,
  ⟨0x080, 1, 4, 0x0, 0x0, 0x0, 0x0, .plain⟩,
  ⟨0x084, 1, 4, 0x0, 0x0, 0x0, 0x0, .plain⟩,
  ⟨0x088, 1, 4, 0x0, 0x0, 0x0, 0x0, .plain⟩,
  ⟨0x0A0, 1, 4, 0x0, 0x0, 0x0, 0x0, .cnt⟩,
  ⟨0x0A4, 1, 4, 0x0, 0x0, 0x0, 0x0, .cnt⟩,
  ⟨0x0A8, 1, 4, 0x0, 0x0, 0x0, 0x0, .cnt⟩,
  ⟨0x0AC, 1, 4, 0x0, 0x0, 0x0, 0x0, .cnt⟩,
  ⟨0x0B0, 1, 4, 0x0, 0x0, 0x0, 0x0, .cnt⟩,
  ⟨0x0B4, 1, 4, 0x0, 0x0, 0x0, 0x0, .cnt⟩]

/-- Registers of `MBX` (16). -/
def rowsMbx : List RegRow := [
  ⟨0x040, 1, 4, 0x0, 0x0, 0x0, 0x0, .plain⟩,
  ⟨0x044, 1, 4, 0x0, 0x0, 0x0, 0x0, .plain⟩,
  ⟨0x048, 1, 4, 0x0, 0x0, 0x0, 0x0, .plain⟩,
  ⟨0x04C, 1, 4, 0x0, 0x0, 0x0, 0x0, .cmd⟩,
  ⟨0x050, 1, 4, 0x0, 0x0, 0x0, 0x0, .plain⟩,
  ⟨0x054, 1, 4, 0x0, 0x0, 0x0, 0x0, .cmd⟩,
  ⟨0x058, 3, 4, 0x0, 0x0, 0x0, 0x0, .plain⟩,
  ⟨0x064, 1, 4, 0xA, 0xFFFF, 0x0, 0x0, .plain⟩,
  ⟨0x068, 1, 4, 0x0, 0x0, 0x0, 0x0, .plain⟩,
  ⟨0x06C, 1, 4, 0x0, 0x0, 0x0, 0x0, .cmd⟩,
  ⟨0x070, 1, 4, 0x0, 0x1, 0x0, 0x0, .plain⟩,
  ⟨0x080, 8, 4, 0x0, 0x0, 0x0, 0x0, .plain⟩,
  ⟨0x0A0, 8, 4, 0x0, 0x0, 0x0, 0x0, .plain⟩,
  ⟨0x100, 27, 4, 0x0, 0x0, 0x0, 0x0, .cmd⟩,
  ⟨0x200, 27, 4, 0x0, 0x0, 0x0, 0x0, .plain⟩,
  ⟨0x300, 27, 4, 0x0, 0x0, 0x0, 0x0, .plain⟩,
  ⟨0x800, 16, 32, 0x0, 0x0, 0x0, 0x0, .plain⟩,
  ⟨0x804, 16, 32, 0x0, 0x0, 0x0, 0x0, .plain⟩,
  ⟨0x808, 16, 32, 0x0, 0x0, 0x0, 0x0, .cnt⟩,
  ⟨0x80C, 16, 32, 0x0, 0x0, 0x0, 0x0, .cnt⟩,
  ⟨0x810, 16, 32, 0x0, 0x0, 0x0, 0x0, .cnt⟩,
  ⟨0x814, 16, 32, 0x0, 0x0, 0x0, 0x0, .cnt⟩,
  ⟨0x818, 16, 32, 0x0, 0x0, 0x0, 0x0, .plain⟩]

/-- Registers of `BOOT` (15). -/
def rowsBoot : List RegRow := [
  ⟨0x040, 1, 4, 0x0, 0x0, 0x0, 0x0, .plain⟩,
  ⟨0x044, 1, 4, 0x0, 0x0, 0x0, 0x0, .cmd⟩,
  ⟨0x048, 1, 4, 0x0, 0x0, 0x0, 0x0, .plain⟩,
  ⟨0x04C, 1, 4, 0x0, 0x0, 0x0, 0x0, .plain⟩,
  ⟨0x050, 1, 4, 0x0, 0x0, 0x0, 0x0, .plain⟩,
  ⟨0x054, 1, 4, 0x0, 0x7F, 0x0, 0x0, .plain⟩,
  ⟨0x058, 1, 4, 0x0, 0x0, 0x0, 0x0, .cmd⟩,
  ⟨0x05C, 1, 4, 0x0, 0x0, 0x0, 0x0, .plain⟩,
  ⟨0x060, 1, 4, 0x0, 0x0, 0x0, 0x0, .plain⟩,
  ⟨0x064, 1, 4, 0x0, 0x0, 0x0, 0x0, .plain⟩,
  ⟨0x070, 4, 4, 0x0, 0x0, 0x0, 0x0, .plain⟩,
  ⟨0x080, 1, 4, 0x0, 0x0, 0x0, 0x0, .plain⟩,
  ⟨0x084, 1, 4, 0x0, 0x0, 0x0, 0x0, .plain⟩,
  ⟨0x088, 1, 4, 0x0, 0x0, 0x0, 0x0, .plain⟩,
  ⟨0x08C, 1, 4, 0x0, 0x0, 0x0, 0x0, .plain⟩,
  ⟨0x090, 1, 4, 0x0, 0x7F, 0x0, 0x0, .plain⟩,
  ⟨0x094, 1, 4, 0x0, 0x0, 0x0, 0x0, .plain⟩,
  ⟨0x0A0, 1, 4, 0x0, 0x1FFFFF, 0x0, 0x0, .plain⟩,
  ⟨0x0A4, 1, 4, 0x0, 0x0, 0x0, 0x0, .cmd⟩,
  ⟨0x0A8, 1, 4, 0x0, 0x0, 0x0, 0x0, .cmd⟩,
  ⟨0x0AC, 1, 4, 0x0, 0x0, 0x0, 0x0, .plain⟩,
  ⟨0x0B0, 1, 4, 0x0, 0x0, 0x0, 0x0, .plain⟩,
  ⟨0x0B4, 1, 4, 0x0, 0x0, 0x0, 0x0, .cnt⟩,
  ⟨0x0B8, 1, 4, 0x0, 0x0, 0x0, 0x0, .cnt⟩,
  ⟨0x0C0, 8, 4, 0x0, 0x0, 0x0, 0x0, .plain⟩,
  ⟨0x0E0, 1, 4, 0x0, 0x0, 0x0, 0x0, .cmd⟩,
  ⟨0x0F0, 1, 4, 0x0, 0x1FF01FF, 0x0, 0x0, .plain⟩,
  ⟨0x0F4, 1, 4, 0x0, 0x0, 0x0, 0x0, .cmd⟩,
  ⟨0x0F8, 1, 4, 0x0, 0x0, 0x0, 0x0, .plain⟩,
  ⟨0x100, 66, 4, 0x0, 0xFFFFFFFF, 0x0, 0x0, .plain⟩]

/-- Registers of `DMA` (16). -/
def rowsDma : List RegRow := [
  ⟨0x040, 1, 4, 0x0, 0x0, 0x0, 0x0, .plain⟩,
  ⟨0x044, 1, 4, 0x3E8, 0x3FFF, 0x0, 0x0, .plain⟩,
  ⟨0x048, 1, 4, 0x0, 0x0, 0x0, 0x0, .cmd⟩,
  ⟨0x04C, 1, 4, 0x0, 0x0, 0x0, 0x0, .plain⟩,
  ⟨0x050, 1, 4, 0x0, 0x0, 0x0, 0x0, .cnt⟩,
  ⟨0x054, 1, 4, 0x0, 0x0, 0x0, 0x0, .cnt⟩,
  ⟨0x058, 1, 4, 0x0, 0x0, 0x0, 0x0, .cnt⟩,
  ⟨0x05C, 1, 4, 0x0, 0x0, 0x0, 0x0, .cnt⟩,
  ⟨0x080, 32, 4, 0x0, 0xBFFFFFFF, 0x0, 0x0, .plain⟩]

/-- Registers of `RING` (16). -/
def rowsRing : List RegRow := [
  ⟨0x040, 1, 4, 0x0, 0x1, 0x0, 0x0, .plain⟩,
  ⟨0x044, 1, 4, 0x10000A0A, 0xFF000F0F, 0x0, 0x0, .plain⟩,
  ⟨0x048, 1, 4, 0x0, 0xFFFFFFC0, 0x0, 0x0, .plain⟩,
  ⟨0x04C, 1, 4, 0x0, 0xFFFFFFFF, 0x0, 0x0, .plain⟩,
  ⟨0x050, 1, 4, 0x0, 0xFFFFFFC0, 0x0, 0x0, .plain⟩,
  ⟨0x054, 1, 4, 0x0, 0xFFFFFFFF, 0x0, 0x0, .plain⟩,
  ⟨0x058, 1, 4, 0x0, 0xFFFF, 0x0, 0x0, .plain⟩,
  ⟨0x05C, 1, 4, 0x0, 0x0, 0x0, 0x0, .plain⟩,
  ⟨0x060, 1, 4, 0x0, 0x0, 0x0, 0x0, .plain⟩,
  ⟨0x064, 1, 4, 0x0, 0xFFFF, 0x0, 0x0, .plain⟩,
  ⟨0x068, 1, 4, 0x200000, 0x803FFFFF, 0x0, 0x0, .plain⟩,
  ⟨0x06C, 1, 4, 0x0, 0x0, 0x0, 0x0, .plain⟩,
  ⟨0x070, 1, 4, 0x0, 0x0, 0x0, 0x0, .cntLo 48⟩,
  ⟨0x074, 1, 4, 0x0, 0x0, 0x0, 0x0, .cntHi 48⟩,
  ⟨0x078, 1, 4, 0x0, 0x0, 0x0, 0x0, .cnt⟩,
  ⟨0x07C, 1, 4, 0x0, 0x0, 0x0, 0x0, .cnt⟩]

/-- The registers of a page type. Loop and lane sequencers share one layout (12). -/
def regRows : PageType → List RegRow
  | .device => rowsDevice
  | .intr => rowsIntr
  | .locks => rowsLocks
  | .therm => rowsTherm
  | .supply => rowsSupply
  | .vigil => rowsVigil
  | .pwr => rowsPwr
  | .clkrst => rowsClkrst
  | .lrx => rowsLrx
  | .ltx => rowsLtx
  | .lfec => rowsLfec
  | .host => rowsHost
  | .slice => rowsSlice
  | .cls => rowsCls
  | .clsprof => rowsClsProf
  | .clsmiss => rowsClsMiss
  | .clsupd => rowsClsUpd
  | .clsbank => rowsClsBank
  | .flow => rowsFlow
  | .fexp => rowsFexp
  | .admission => rowsAdmit
  | .buf => rowsBuf
  | .sched => rowsSched
  | .queue => rowsQueue
  | .drop => rowsDrop
  | .hbm => rowsHbm
  | .lantern => rowsLantern
  | .ana => rowsAna
  | .anacom => rowsAnaCom
  | .dither => rowsDither
  | .decim => rowsDecim
  | .resamp => rowsResamp
  | .lseq => rowsLseq
  | .seq => rowsLseq
  | .mm => rowsMm
  | .cal => rowsCal
  | .bist => rowsBist
  | .mbx => rowsMbx
  | .boot => rowsBoot
  | .dma => rowsDma
  | .ring => rowsRing

/-- Whether a row holds the register at an offset. -/
def RegRow.holds (r : RegRow) (off : Nat) : Bool :=
  decide (r.off ≤ off) && decide ((off - r.off) % r.stride = 0) && decide ((off - r.off) / r.stride < r.count)

/-- The row of the register at an offset of a page type, block registers only. -/
def regRow (t : PageType) (off : Nat) : Option RegRow := (regRows t).find? (fun r => r.holds off)

/-- `PAGE_CTRL.ENABLE` resets to 1 on pages 0x000-0x008, 0x0D0-0x0F8 and 0x100-0x108 (02, page header). -/
def enableReset (page : Nat) : Bool :=
  decide (page ≤ 0x008) || (decide (0x0D0 ≤ page) && decide (page ≤ 0x0F8)) || decide (0x100 ≤ page)

/-- Word w of `MLSE_LEVEL` after reset and at each entry to ACQUIRE: four entries of the linear model with h0 = 32,
so of level −96, −32, +32 or +96 by the current symbol's number, w / 4 (03, R86 and its page text). -/
def mlseResetWord (w : Nat) : Word :=
  match w / 4 with
  | 0 => 0xA0A0A0A0
  | 1 => 0xE0E0E0E0
  | 2 => 0x20202020
  | _ => 0x60606060

/-- Reset values that differ among the instances of one row (the field tables of the chapters). -/
def instanceReset (t : PageType) (i off : Nat) (r : RegRow) : Word :=
  match t with
  | .intr => if off ≥ INTR.ROUTE ∧ off < 0x0DC then BitVec.ofNat 32 (0x400 + (off - INTR.ROUTE) / 4) else r.reset
  | .lrx =>
    if off = LRX.FFE_MU + 16 then 0x4
    else if off = LRX.FFE_TAP + 24 then 0x4000            -- the tap at the reset `FFE_MAIN`, 6
    else if off ≥ LRX.MLSE_LEVEL ∧ off < 0x240 then mlseResetWord ((off - LRX.MLSE_LEVEL) / 4)
    else r.reset
  | .ltx =>
    if off = LTX.TX_TAP + 12 ∨ off = LTX.FIR_STAGE + 12 then 0x100
    else if off = LTX.TAP_BOUND + 12 then 0x01000080 else r.reset
  | .lantern =>
    if off = LANTERN.LT_CTRL then BitVec.ofNat 32 (0x10 + (8 * (i / 4) + 2 * (i % 4) + 1) * 256) else r.reset
  | .ana =>
    if off = ANA.OUT_CFG + 0x80 ∨ off = ANA.OUT_CFG + 0x90 then 0x20 else r.reset
  | .seq => if off = LSEQ.SEQ_CTRL then 0x00640301 else r.reset
  | .ring => if off = RING.IRQ_CFG then BitVec.ofNat 32 ((32 + i) * 0x10000) else r.reset
  | _ => r.reset

/-- The reset value of the register at an address: what the register file reads as where nothing is listed. -/
def regReset (a : Nat) : Word :=
  match pageRow (a / 0x1000) with
  | none => 0
  | some p =>
    let off := a % 0x1000
    let i := a / 0x1000 - p.first
    if off = HDR.PAGE_REV then 0x100
    else if off = HDR.PAGE_CTRL then (if enableReset (a / 0x1000) then 1 else 0)
    else if off < 0x40 then 0
    else
      match regRow p.type off with
      | none => 0
      | some r => instanceReset p.type i off r

end Sys2Proof.Machine
end

