-- ==== Sys2Proof/Machine/State.lean ====
section
/-! DEFINITION. The state of the HK6816: the register file, every buffer, queue, timer and latch the chapters give
the blocks, the queue of waiting commands and the record of what left the device. The default of a field is its value
at power-on; for most hidden state the manual gives none (log entry 8). -/

namespace Sys2Proof.Machine

/-- How a step can stop with a fault. No rule of the manual stops the block on a command: no meaning raises one. -/
inductive Fault where
  /-- Reserved. No command raises it. Safe. -/
  | none
  deriving DecidableEq, Repr

/-- How a step can be refused. -/
inductive Refusal where
  /-- Raised by the dispatch for a command that has no meaning yet, by its mnemonic. Safe. -/
  | notModelled (mnemonic : String)
  deriving DecidableEq, Repr

/-! ### Register access (02) -/

/-- A write accepted into a posted page's write buffer (R50): the bits it selects and their new values. -/
structure PostedWrite where
  master : Master
  off    : Nat
  sel    : Word
  val    : Word
  pc     : BitVec 11      -- address of the window write, for a sequencer (12, R343)
  deriving DecidableEq, Repr

/-- The state of the access rules of chapter 02, by page number or by master. -/
structure Bus where
  locks     : Sparse (BitVec 8) := []  -- holder of each page, 0 when free (R60)
  broken    : Sparse (List (BitVec 8)) := []  -- former holders of a page's broken locks (R65)
  keySeen   : List (BitVec 8) := []  -- masters whose last EXPERT_KEY write was the first key (R66)
  expert    : List (BitVec 8) := []  -- masters with an open expert session (R68)
  buffer    : Sparse (Option PostedWrite) := []  -- write buffer of each posted page (R50)
  softRst   : Sparse Bool := []  -- soft reset in progress, by page (R41)
  loHeld    : Sparse (Option Word) := []  -- held low word of a wide counter, by its address (R71)
  hiLatch   : Sparse (Option Word) := []  -- high word latched for a master, by 256 x address + master (R71)
  seqLo     : Sparse (Option Word) := []  -- staged lower data word of a sequencer, by bulk offset (R37)
  upset     : Sparse (Option (Word × Word)) := []  -- the wrong and the right value of a register that fails parity (R56)
  deriving DecidableEq, Repr

def Bus.init : Bus := {}

/-! ### Islands (14) and the fault log (19) -/

/-- The reset and power state of the 63 islands. -/
structure Islands where
  released  : Sparse Bool := []  -- out of reset
  unpowered : Sparse Bool := []  -- powered down in Vigil
  cmdReset  : Sparse Bool := []  -- a commanded reset runs (R388)
  wdReset   : Sparse Bool := []  -- a watchdog reset runs (R385)
  held      : Bool := false  -- datapath shutdown latch (17, R454)
  privDown  : Bool := false  -- privileged set shut down (17, R455)
  mcDown    : Bool := false  -- management controller in reset (R389, R482)
  deriving DecidableEq, Repr

def Islands.init : Islands := {}

/-- A fault record (19, R483, R484). -/
structure FaultRec where
  cls      : Nat
  island   : Nat
  port     : Option Nat
  hostSide : Bool
  unit     : Nat
  time     : BitVec 40     -- time base at detection
  start    : Nat           -- elapsed nanoseconds at detection
  lost0    : Nat           -- packets the port's loss counters showed at detection
  us       : Nat
  outcome  : Nat
  lost     : Nat
  deriving DecidableEq, Repr

/-- The fault log: records in progress, and complete records in the order of completion. -/
structure FaultLog where
  opened    : List FaultRec := []
  done      : List FaultRec := []
  latch     : Sparse (List Word) := []  -- FAULT_REC copy latched per master
  deriving DecidableEq, Repr

def FaultLog.init : FaultLog := {}

/-! ### Line receive lanes (03, 04) -/

/-- An Octave checkpoint (R93-R97). The CRC-32C of the record is computed where it is read. -/
structure Ckpt where
  valid : Bool := false
  l453  : Bool := false
  dfe   : Bool := false
  main  : Nat := 0
  tag   : Int := 0  -- temperature, 1/16 degree
  sig   : Word := 0
  seq   : Nat := 0
  taps  : List Word := []
  levels : List Word := []
  dfeTaps : Word := 0
  gain  : BitVec 16 := 0
  freq  : BitVec 16 := 0
  envelope : Word := 0
  snr   : BitVec 16 := 0
  deriving DecidableEq, Repr

/-- The working state of a line receive lane beside its registers. -/
structure RxLane where
  since     : Nat := 0  -- elapsed nanoseconds at the last state change (STATE_TIME)
  retries   : Nat := 3  -- ACQ_RETRIES left (R88)
  warmCal   : Bool := false  -- CALIBRATE was entered at Vigil-1 exit or by RETRY
  warmUp    : Bool := false  -- a bring-up begun at Vigil-1 exit still waits in OFF (R88)
  preTest   : Nat := 0  -- state before IN_TEST
  holdOver  : Bool := false  -- HOLD_LIMIT has expired in this HOLD
  tracked   : Bool := false  -- in TRACK for 1 ms (R93)
  unsettled : Bool := false  -- TRACK left or a HOLD trigger since the last period tick (R93)
  snrArmed  : Bool := true  -- SNR has risen 0.5 dB above SNR_MIN (R104)
  los       : Bool := true  -- loss of signal as measured
  envelope  : Word := 0  -- pilot envelope estimates
  seqWait   : Bool := false  -- bring-up waits until the lane sequencer runs again (19, R478)
  refused   : Bool := false  -- the lane sequencer's restart was refused and it has not run since (R478)
  bringUp   : Bool := false  -- in a bring-up begun at OFF, FAULT or REACQUIRE (R87)
  ckpts     : List Ckpt := []
  mlseKept  : List Word := []  -- MLSE levels as they stood when DFE mode took over from MLSE mode (R96)
  degWarm   : Bool := false  -- the warm restart in progress is a FEC degrade action
  degBack   : Option Nat := none  -- elapsed nanoseconds when the lane returned from one (R134)
  winCw     : Nat := 0  -- codewords counted in the degrade window (R133)
  degWin    : Nat := 0  -- DEG_WINDOW, DEG_SET and DEG_CLR as the window began (R138)
  degSet    : Nat := 0
  degClr    : Nat := 0
  huntPos   : Nat := 0  -- the 32 offsets the group hunt tests next (R117)
  grpOffset : Nat := 0  -- the symbol offset at which it locked
  words     : List (BitVec 120) := []  -- inner outputs of the group in progress (R116)
  groups    : List (BitVec 480) := []  -- groups of the FEC stream decoded and not yet used (R112, R116)
  grpCount  : Nat := 0  -- words of the present group window (R122)
  grpLimit  : Nat := 0  -- GRP_LOSS as the window began (R138)
  grpPass   : List Nat := [0, 0, 0, 0]  -- its words that pass, for each codeword position
  grpFails  : List Nat := [0, 0, 0, 0]  -- windows in a row that failed, for each position
  cwFails   : Nat := 0  -- windows without a block boundary since group lock (R118)
  blockAt   : Nat := 0  -- symbol period at which the block or pair that gave codeword lock began
  blockCw   : Nat := 0  -- which codeword of the present block (L453) or pair (L212) is next
  pairBad   : Bool := false  -- the first codeword of the present pair was uncorrectable
  cwNo      : Nat := 0  -- codewords decoded so far: their numbers
  badCw     : List Nat := []  -- the uncorrectable ones among the last 1,024 (R129)
  recent    : List Bool := []  -- uncorrectable flags of the last 64 RS codewords (R122)
  confN     : Nat := 0  -- codewords counted to confirm alignment, and the uncorrectable ones (R119)
  confBad   : Nat := 0
  amAt      : Option Nat := none  -- symbol period of its alignment marker at AM lock (R121)
  predict   : Bool := false  -- the first AM after a warm restart is awaited (R120)
  confirmed : Bool := false  -- confirmation of R119 has passed since codeword lock
  needAm    : Bool := false  -- alignment needs AM lock on the lane's own flow (R123)
  deriving DecidableEq, Repr

def RxLane.init : RxLane := {}

/-! ### Packets before their verdict, classifier and flow state (05, 06) -/

/-- The action record a lookup issues, with what its port gives a miss or an alias at that instant (R143, R156,
R160). -/
structure Lookup where
  hit      : Bool
  flow     : Nat
  ops      : List Word         -- the operations of the profile
  defFlow  : Nat
  defOps   : List Word
  missCfg  : Word
  puntRate : Nat
  host     : Bool              -- misses are host-assisted (R164)
  parseBad : Bool              -- the key carries TRUNC or MALFORMED
  key      : List Byte
  digest   : BitVec 40
  learn    : Bool              -- a learn request was queued for this packet
  overRate : Bool              -- shadow rate exceeded: no learning, no punt (R176)
  order    : Nat               -- its place among the action records, as the flow-state engine gets them (R188)
  deriving DecidableEq, Repr

/-- A packet's decision (R190, R226). -/
structure Decision where
  flow    : Nat
  aliased : Bool
  hitFlow : Nat               -- the flow the table hit named
  mode    : Nat
  takenC  : Nat
  takenE  : Nat
  colour  : Nat
  cls     : Nat
  queue   : Nat
  recNo   : Option Nat        -- number of its buffer record, when written
  drop    : Option Nat        -- drop reason
  countFlow : Bool
  groups  : List Nat
  copy    : Option Nat
  dflt    : Bool              -- classified under the port default
  unread  : Bool              -- ended under R187
  pinned  : Bool
  deriving DecidableEq, Repr

/-- What the verdict join knows once the last byte has left the line PCS (R195). -/
structure LastByte where
  badLanes : List Lane
  pcs      : Bool
  fcs      : Bool
  deriving DecidableEq, Repr

/-- A packet from its header window to its commit or revocation (R193). -/
structure Packet where
  window : List Byte
  len    : Nat
  rxTime : BitVec 80
  slot   : Bool               -- holds a journal slot; otherwise store-and-forward
  rest   : List Byte          -- what follows the header window, once it has arrived
  refused : Option Nat        -- drop reason of a packet that was not admitted
  unread : Bool               -- a record it needs could not be read (R187)
  fetched : List Nat          -- flows whose fill it has waited for (R186, R188)
  lookup : Option Lookup
  decided : Option Decision
  last   : Option LastByte
  timedOut : Bool
  deriving DecidableEq, Repr

/-- A learn request (R162). -/
structure Learn where
  key    : List Byte
  digest : BitVec 40
  port   : Nat
  ready  : Bool               -- its packet has committed
  deriving DecidableEq, Repr

/-- Where an update descriptor comes from (05, Table updates). -/
inductive UpdSource where
  | go
  | stage (slot : Nat) (last : Bool)
  | ring (index : Nat) (last : Bool)
  deriving DecidableEq, Repr

/-- A descriptor waiting in the update engine. -/
structure UpdJob where
  source : UpdSource
  bytes  : List Byte
  after  : List (BitVec 40) := []  -- digests of the learn requests accepted before it, for a fence (R166)
  deriving DecidableEq, Repr

/-- The classifier beside its registers. -/
structure Cls where
  table     : Sparse (BitVec 80) := []  -- SRAM entries by index
  shadow    : Sparse (BitVec 128) := []  -- shadow entries in HBM by index
  profiles  : Sparse Word := []  -- operation by 8 x profile + op
  staged    : Sparse (Option Word) := []  -- staging copies, by 8192 x master + 8 x profile + word (R158)
  slots     : Sparse Byte := []  -- staged descriptors, byte by byte
  fifo      : List Nat := []  -- free flow IDs, oldest first
  cursor    : Nat := 0
  cursorEnd : Nat := 0
  learnBase : Nat := 0  -- learn range applied at INIT
  learnEnd  : Nat := 0
  learns    : List Learn := []  -- learn queue, oldest first
  lastTurn  : Option Bool := none  -- what the engine took last, a learn request or a host update (R170)
  punted    : List (BitVec 40 × Nat) := []  -- the 1,024 most recent punted digests and when
  puntBucket : Sparse (Nat × Nat) := []  -- per port: tokens in 1/1000000 punt used up, and since when
  updates   : List UpdJob := []
  badBuckets : List Nat := []  -- buckets with an uncorrectable error, by index / 4, until their reload (R155)
  restoreAt : Nat := 0  -- bank that a restore has reached (R178)
  aged      : List (BitVec 64) := []  -- aged list (R174)
  ringStatus : List (Nat × Nat) := []  -- completion statuses of the ring-1 buffer in progress
  deriving DecidableEq, Repr

def Cls.init : Cls := {}

/-- A resident state record (R185, R186). -/
structure CacheLine where
  flow   : Nat
  record : BitVec 512
  dirty  : Bool
  finger : Word
  kvalid : Bool
  deriving DecidableEq, Repr

/-- A key record (R181). -/
structure KeyRec where
  key       : List Byte := []
  valid     : Bool := false
  digest    : BitVec 40 := 0
  deriving DecidableEq, Repr

def KeyRec.init : KeyRec := {}

/-- State records initialised alike: a range of flows, or those of it that one stack's channels hold (R184, R238). -/
structure Fill where
  first : Nat
  count : Nat
  stack : Option Nat
  value : BitVec 512
  deriving DecidableEq, Repr

/-- The flow-state engine beside its registers. -/
structure Flow where
  recs      : Sparse (BitVec 512) := []  -- state records in HBM, where they differ from the fills
  fills     : List Fill := []  -- what unlisted state records hold, latest first
  keys      : Sparse KeyRec := []  -- key records in HBM
  cache     : List CacheLine := []  -- resident records, most recently used first
  staged    : Sparse (Option Word) := []  -- staged words by master and word (R182)
  stagedFor : Sparse (Option Nat) := []  -- flow a master's staged words belong to
  ports     : Sparse (List Packet) := []  -- packets of each line port in arrival order
  orders    : Nat := 0  -- action records received so far (R188)
  sweep     : Nat := 0  -- next flow the sweep visits
  sweepStart : Nat := 0  -- when the present sweep started
  refreshDue : Bool := false  -- the refresh pass of a Vigil exit has still to run (R213)
  deriving DecidableEq, Repr

def Flow.init : Flow := {}

/-! ### Packet buffer (07) -/

/-- A packet's record in the buffer (R220). -/
structure BufRec where
  num     : Nat
  port    : Nat
  len     : Nat
  cls     : Nat
  colour  : Nat
  flags   : Nat
  flow    : Nat
  umeta   : Nat
  time    : BitVec 40
  void    : Bool
  gone    : Bool            -- its page can no longer be reached: LOST when the dequeue comes to it (R234)
  mark    : Option (Nat × Bool)  -- DSCP, and whether the `MARK` condition held
  committed : Bool
  toWrite : Nat             -- its writes that have not completed (R218, R223)
  start   : Nat             -- the write pointer before it
  pages   : List Nat        -- the pages it lies in
  added   : Nat             -- how many of them were allocated for it
  bytes   : List Byte       -- the frame, its FCS last, as far as it has arrived
  deriving DecidableEq, Repr

/-- An ingress queue (R220-R227). -/
structure Queue where
  recs      : List BufRec := []
  pages     : List Nat := []  -- its pages from head to tail
  wptr      : Nat := 0  -- next free byte of the tail page
  first     : Sparse Nat := []  -- FIRST_REC of its pages (R220)
  avg       : Nat := 0  -- early-drop average, 1/256 KiB
  deriving DecidableEq, Repr

def Queue.init : Queue := {}

/-- The free pages of a channel, in their order: never-used pages from `next` to `top`, then the pages returned
(R222). -/
structure FreeList where
  next      : Nat := 0
  top       : Nat := 374784
  returned  : List Nat := []
  aban      : Option (Nat × List Nat) := none  -- the rest of an abandoned list, until the relocation scan (R234)
  deriving DecidableEq, Repr

def FreeList.init : FreeList := {}

/-- What a memory operation is for (R217). -/
inductive HbmKind where
  | flowRead (flow : Nat)            -- state record of a fill
  | keyRead (flow : Nat)             -- key record of a fill
  | packetRead (host num : Nat)
  | packetWrite (num : Nat)
  | writeBack (flow : Nat)
  | listRead (page : Nat)            -- link entry of a free page
  | listWrite (page : Nat)
  | linkWrite (page : Nat)           -- link entry of a queue's page, and its header
  | headWrite (page : Nat)
  | linkRead (q page next : Nat)     -- the same, read by the dequeue on its way to the next page
  | headRead (q page next : Nat)
  | shadowWrite (index : Nat)
  | shadowRead (index : Nat)
  | sweepRead (flow : Nat)
  | exportRead (flow : Nat)
  | recRead (flow : Nat)             -- bulk window
  | recWrite (flow : Nat)
  | testPages                        -- the batch of free pages that a self-test withholds (18, R471)
  | testLines                        -- the reserved lines of its channel
  deriving DecidableEq, Repr

/-- A memory operation (R216, R217). -/
structure HbmOp where
  kind   : HbmKind
  prio   : Nat
  ch     : Nat              -- channel 0 to 63
  off    : Nat              -- offset in the region or among the pages of the channel (R215)
  bytes  : Nat              -- 64 to 1,024
  retried : Bool            -- it has failed on a parity error once (R214)
  deriving DecidableEq, Repr

/-- One HBM stack's operations and mode registers. -/
structure Stack4 where
  waiting   : List HbmOp := []
  inflight  : List HbmOp := []
  modeRegs  : Sparse (BitVec 8) := []
  uncTimes  : List (Nat × Nat) := []  -- channel and time of recent uncorrectable reads (R235)
  relocating : List Nat := []  -- channels whose reserved content is being relocated
  deriving DecidableEq, Repr

def Stack4.init : Stack4 := {}

/-- One level of deficit round robin: deficits by member, and the member at which the loop stands, its turn begun or
not (R230). -/
structure Dwrr where
  deficit   : Sparse Nat := []
  pos       : Nat := 0
  turn      : Bool := false
  deriving DecidableEq, Repr

def Dwrr.init : Dwrr := {}

/-- The scheduler of a host port (R229, R230). -/
structure Sched where
  cls       : Dwrr := Dwrr.init  -- class level
  lp        : Sparse Dwrr := []  -- line-port level of each class
  pfc       : List Nat := []  -- priorities paused now
  txq       : List (BufRec × Nat) := []  -- packets selected, in order, and how many reads of their record are to come
  deriving DecidableEq, Repr

def Sched.init : Sched := {}

/-- The buffer manager. -/
structure Buf where
  queues    : Sparse Queue := []
  free      : Sparse FreeList := []
  rota      : Nat := 0  -- next channel in the allocation rotation
  lfsr      : BitVec 31 := 0x7FFFFFFF
  nextRec   : Nat := 0
  scheds    : Sparse Sched := []
  hbm       : Sparse Stack4 := []
  relocPages : Nat := 0  -- pages taken from the free lists for relocation (R237)
  spare     : List Nat := []  -- channels relocated into the spare
  withheld  : List Nat := []  -- pages an HBM test withholds (18, R471)
  deriving DecidableEq, Repr

def Buf.init : Buf := {}

/-! ### Egress and host lanes (08) -/

/-- A frame in an egress FIFO share (R260, R507). -/
structure EgFrame where
  len    : Nat               -- bytes without the tag
  bytes  : List Byte         -- the frame without its tag and FCS
  tag    : BitVec 64
  host   : Nat               -- first lane of the host port that carried it
  bad    : Bool              -- cut through, and failed after it had started
  deriving DecidableEq, Repr

/-- A line port's share of the egress FIFO. -/
structure Share where
  frames    : List EgFrame := []
  xoff      : Bool := false
  deriving DecidableEq, Repr

def Share.init : Share := {}

/-- A FEC flow as it is sent: the scrambler's state and the codeword pairs sent (04, R125). -/
structure PcsFlow where
  scr   : BitVec 58 := 0
  pairs : Nat := 0
  deriving DecidableEq, Repr

def PcsFlow.init : PcsFlow := {}

/-- What a host lane sends toward the NPU (08, R248, R249, R272). -/
inductive HostSend where
  | off
  | idle
  | remoteFault
  | traffic
  | pattern (gen : Nat) (inverted : Bool)
  deriving DecidableEq, Repr

/-- A PRBS checker: its generator, the latest bit in bit 0, the bits it has been seeded with, the error-free symbols in a
row, and the latest symbols since lock, in error or not (R272). -/
structure Prbs where
  reg    : BitVec 31 := 0
  seeded : Nat := 0
  clean  : Nat := 0
  seen   : List Bool := []
  deriving DecidableEq, Repr

def Prbs.init : Prbs := {}

/-- The host side of the slices, the time base and the two-step reports. -/
structure Egress where
  hostSent  : Sparse HostSend := []  -- what each host lane sends
  prbs      : Sparse Prbs := []  -- checkers of the host lanes
  shares    : Sparse Share := []  -- by line port
  announced : Sparse (BitVec 8) := []  -- set last announced, by host port
  reports   : Sparse (List (BitVec 16 × BitVec 80)) := []  -- two-step report FIFO, by line port (R271)
  eqStaged  : Sparse (Option Word) := []  -- EQ_SET staging by register and master (R253)
  rxPause   : Sparse Nat := []  -- pause time of a line port in progress, quanta; 0 none (R29)
  pcs       : Sparse PcsFlow := []  -- flows of the line ports, by the port's first lane + flow (R110, R125)
  onLine    : Sparse (Nat × Nat) := []  -- when a line port's last frame started, and its nanoseconds on the line (R283)
  rfSent    : Sparse Bool := []  -- a line port sends Remote Fault (R128)
  deriving DecidableEq, Repr

def Egress.init : Egress := {}

/-- The time base (R266, R382). -/
structure TimeBase where
  now       : BitVec 80 := 0
  frac      : Int := 0  -- fraction of FREQ_ADJ not yet applied, 1/(1024 x 10^9) ns
  capt      : BitVec 80 := 0  -- time at the last PPS edge
  latch     : Sparse (BitVec 48) := []  -- upper words of TIME_RD latched by master
  captLatch : Sparse (BitVec 48) := []
  deriving DecidableEq, Repr

def TimeBase.init : TimeBase := {}

/-! ### Lantern and line transmit (09, 10) -/

/-- A Lantern key slot (R305, R306). -/
structure KeySlot where
  key       : List Byte := []
  valid     : Bool := false
  exhausted : Bool := false
  ctr       : Nat := 0  -- next transmit counter
  floor     : Nat := 0  -- RX_FLOOR
  deriving DecidableEq, Repr

def KeySlot.init : KeySlot := {}

/-- A waiting Lantern frame: its type, its payload and when it was queued (R312). -/
structure LtFrame where
  type    : Nat
  payload : List Byte
  since   : Nat
  ring    : Bool              -- it came as a record of the Lantern ring
  raw     : Option (List Byte) -- header, payload and tag of a record sent as given (R313)
  deriving DecidableEq, Repr

/-- A received frame in its checks (R303, R305, R309). -/
structure RxFrame where
  bytes : List Byte
  assisted : Bool             -- mode in which its checks began
  slot : Option KeySlot := none -- the contents its slot had, once a key command has changed them
  deriving DecidableEq, Repr

/-- The Lantern side of a line lane, and the tuning memory of its transmitter. -/
structure Lantern where
  slots     : Sparse KeySlot := []
  waiting   : List LtFrame := []  -- in the order queued
  onAir     : Option (List Byte) := none
  airAt     : Nat := 0  -- tick of 64 line symbols at which it started (R293)
  ncoPhase  : BitVec 40 := 0  -- subcarrier accumulator at the tick below (R292)
  ncoAt     : Nat := 0
  checks    : List RxFrame := []  -- frames whose checks have begun
  syncAt    : BitVec 64 := 0  -- time base at the last sync symbol
  used      : Nat := 0  -- tokens taken, 1/10^9 frame (R307)
  tokenAt   : Nat := 0  -- when that was, elapsed nanoseconds
  report    : Word := 0  -- report sequence number of the next FAULT frame
  collided  : Bool := false  -- collision counted in this frame
  tuneReply : Option (BitVec 16 × List Byte) := none  -- last request handled for this lane and its reply (R287)
  deriving DecidableEq, Repr

def Lantern.init : Lantern := {}

/-- A line transmitter between two symbols (09, R276). -/
structure TxLane where
  last : Fin 4 := 0  -- symbol last sent, for the next one's precoding (04, R125)
  syms : Fin 4 × Fin 4 × Fin 4 := (0, 0, 0)  -- the three symbols before the next, the latest first
  ys   : List Int := [0, 0, 0, 0, 0]  -- values of y that samples still to be sent need, oldest first
  deriving DecidableEq, Repr

def TxLane.init : TxLane := {}

/-! ### Outputs, monitors, modules (11) -/

/-- A stretch of a dither generator's life: since when, in elapsed nanoseconds, its phase then, and its frequency. -/
structure GenSpan where
  at_   : Nat
  phase : BitVec 40
  freq  : Nat
  deriving DecidableEq, Repr

/-- The analogue island beside its registers. -/
structure Analogue where
  gens      : Sparse (List GenSpan) := []  -- stretches of the generators, the latest first (R321, R327)
  clamped   : List Nat := []  -- IDACs whose code was clamped in the present microsecond, 8 x slice + k (R321)
  settle    : Sparse Nat := []  -- samples still to carry SETTLE, by 12 x slice + channel
  latch     : Sparse (Word × Word) := []  -- SAMPLE_HI and REF latched, by 256 x channel + master
  rsPos     : Sparse Nat := []  -- position p of a resampler channel, 36 fractional bits
  rsSettle  : Sparse Nat := []
  rsIn      : Sparse (Nat × List (BitVec 40 × Bool)) := []  -- its input samples: how many, and the last 64, latest first
  faultAt   : Sparse Nat := []  -- when an output entered FAULT, by 10 x slice + k
  deriving DecidableEq, Repr

def Analogue.init : Analogue := {}

/-- A module port beside its registers. -/
structure Module where
  resetN    : Bool := false  -- MMn_RESET_N level
  lpMode    : Bool := true  -- MMn_LPMODE level
  nacks     : Nat := 0  -- consecutive address NACKs
  stretches : Nat := 0  -- consecutive STRETCH results
  badStates : Nat := 0  -- consecutive polls with an invalid module state
  badSums   : Nat := 0  -- consecutive checksum failures
  recover   : Bool := false  -- a bus recovery is due before the next transaction (R334)
  dpInit    : Bool := false  -- ModuleReady seen in POWER_UP; DataPathDeinit written 0
  extra     : Bool := false  -- an extra poll is requested (REPOLL)
  deriving DecidableEq, Repr

def Module.init : Module := {}

/-! ### Sequencers (12) -/

/-- A sequencer beside its registers. `SEQ_STATE`, `EVENT_PEND` and the rest of its page are registers. -/
structure Seq where
  xr        : Sparse (BitVec 40) := []
  imem      : Sparse Word := []  -- 0xFFFF_FFFF where unlisted
  dmem      : Sparse (BitVec 40) := []
  data0     : Sparse (BitVec 40) := []  -- initial data of the program
  entry     : Nat := 0
  stack     : List (BitVec 11) := []
  timer     : Option (Nat × Bool) := none  -- period in ns, periodic
  winQ      : List (BitVec 16 × Word × BitVec 11) := []  -- window writes waiting, oldest first
  winRd     : Option (Fin 16 × BitVec 16) := none  -- window read in progress
  winErr    : List (BitVec 11 × Nat) := []  -- errors of window writes still to return: where, and the code (R343)
  waitD     : Fin 16 := 0  -- destination of the WAIT in progress
  xlo       : Sparse (Option Word) := []  -- staged lower words of XREG
  load      : Option (List Byte) := none  -- image being written (LOADING)
  toVendor  : Bool := false  -- the vendor loop program takes over (R354)
  stepping  : Bool := false  -- the WAIT in progress was run by STEP (R349)
  restarts  : List Nat := []  -- when the automatic restarts of the last second came (R350)
  deriving DecidableEq, Repr

def Seq.init : Seq := {}

/-! ### Calibration (13) -/

/-- The calibration records and the run in progress. -/
structure Calib where
  master    : Sparse Word := []  -- by 128 x record + word; word 0 is the header
  applied   : Sparse Word := []  -- the same words as the targets hold them
  outcome   : Sparse (Nat × Nat) := []  -- outcomes of parts A and B by record
  oor       : Sparse Word := []  -- OOR_MAP by slice record
  run       : List Nat := []  -- parts left in the run, 2 x record for part A and 1 more for part B
  slices    : List Nat := []  -- slices that have a record in the run
  refDone   : Bool := false  -- the run has measured its reference
  abort     : Bool := false
  unfit     : Bool := false  -- the part in progress ends SKIPPED: its lane was or came outside the states of R364
  rerun     : List Nat := []  -- slices for which a further run is due
  edited    : List (Nat × Nat) := []  -- words edited during the run
  latch     : Sparse (Option (List Word)) := []  -- LIVE latched by master
  held      : List (Nat × CalPart × CalMeasurement × Bool) := []  -- results held in a supply hold, and whether of a
                                                                  -- measurement outside a run (R369)
  kept      : List Nat := []  -- parts, numbered as in `run`, whose measurement a change to host-assisted mode found begun (R19)
  frozen    : List Nat := []  -- records a soft reset cleared, until their master copy next changes (R370)
  fired     : List Nat := []  -- slices that stand beyond `CAL_DELTA_T` since their trigger (R363)
  deriving DecidableEq, Repr

def Calib.init : Calib := {}

/-! ### Security (15) -/

/-- The path of an image (R396). -/
inductive ImgPath where
  | flash | ring | data
  deriving DecidableEq, Repr

/-- An image waiting for verification (R397). -/
structure Image where
  path  : ImgPath
  owner : BitVec 8                  -- master that streamed it
  bytes : List Byte
  deriving DecidableEq, Repr

/-- An attestation request (R405). -/
structure AttReq where
  nonce  : BitVec 256
  bufLen : Nat
  tag    : Word
  deriving DecidableEq, Repr

/-- What a fuse command is for. -/
inductive FuseJob where
  | command | enrol | revoke
  deriving DecidableEq, Repr

/-- An entry of the boot flash's directory (15, Boot flash). -/
structure DirEntry where
  type   : Nat
  copy   : Nat
  offset : Nat
  length : Nat
  deriving DecidableEq, Repr

/-- The security island beside its registers. A shipped part has `SCAN_LOCK` and `PROVISIONED` blown (15); the other fuses
are log entry 12. -/
structure Security where
  fuses     : Sparse Word := [(24, 0x1100)]
  stream    : Option (Nat × BitVec 8 × List Byte) := none  -- length, owner, bytes so far
  verify    : List Image := []
  pendFw    : Option (Word × Nat × List Byte) := none  -- version, rollback index, measurement
  blow      : List (List Nat × FuseJob) := []  -- fuse commands in order, with the bits each has still to program
  paused    : Bool := false  -- fuse programming waits for the supply hold
  chalValid : Bool := false
  measFw    : List Byte := []  -- measurements (R397), empty where there is none
  measSeq   : Sparse (List Byte) := []
  requests  : List AttReq := []
  reports   : Nat := 0
  biyley    : Option (List Byte) := none  -- the board file as loaded
  dir       : List DirEntry := []  -- the directory in use (R395)
  certs     : List Byte := []  -- the device certificates, as the flash holds them (R405)
  flashDev  : Bool := false  -- the device reads the flash itself
  failed    : Nat := 0  -- start-up event at which RECOVERY was entered
  retries   : Nat := 0  -- copies of the image tried in the present step
  step      : Nat := 0  -- last event of the start-up sequence that is complete
  calSlice  : Nat := 0  -- next slice of the start-up calibration
  loopProg  : Option (List Byte) := none  -- vendor loop program the controller holds (R354)
  erased    : Bool := false  -- the attestation keys were erased since the last reset (R409)
  deriving DecidableEq, Repr

def Security.init : Security := {}

/-! ### Host interfaces (16) -/

/-- A DMA ring beside its registers. -/
structure RingSt where
  fetched   : List DmaDescriptor := []  -- fetched and not yet used, oldest first
  fill      : Nat := 0  -- bytes in the open packed buffer
  records   : Nat := 0  -- records in it
  work      : Option DmaDescriptor := none  -- batch, image or request in progress
  waiting   : Bool := false  -- a message was sent and CQ_HEAD not yet written (R427)
  stopping  : Bool := false
  slots     : Sparse (Option DmaDescriptor) := []  -- ring 4: transmit slot of each lane
  held      : List (List Byte × Word) := []  -- records waiting for the next descriptor to be fetched, and their `AUX`
  deriving DecidableEq, Repr

def RingSt.init : RingSt := {}

/-- A mailbox message (R430). -/
structure Msg where
  sender : BitVec 8
  epoch  : BitVec 16
  seq    : BitVec 15
  time   : BitVec 40
  words  : List Word
  at_    : Nat
  deriving DecidableEq, Repr

/-- The host side: rings, Harvest, MSI-X, SMBus. -/
structure HostIf where
  rings     : Sparse RingSt := []
  masked    : Sparse Bool := []  -- vectors masked (PRESUMED at reset: 1)
  msixOn    : Bool := false  -- MSI-X enabled in the configuration space (PRESUMED at reset: 0)
  funcMask  : Bool := false  -- the function's mask (PRESUMED at reset: 0)
  table     : Sparse Word := []  -- message address and data of the vectors, by dword of the MSI-X table (R412)
  pend      : Sparse Bool := []  -- MSI-X pending bits
  busMaster : Bool := true
  hvRun     : Option Nat := none  -- snapshot being written: cause
  hvStart   : BitVec 80 := 0
  hvNum     : Nat := 0
  hvSkips   : Nat := 0
  smbStatus : Byte := 0
  deriving DecidableEq, Repr

def HostIf.init : HostIf := {}

/-- Mailboxes and doorbells. -/
structure Mailbox where
  inbox     : Sparse (List Msg) := []
  epochs    : Sparse (BitVec 16) := []  -- endpoints 0 to 2
  seqNo     : Sparse (BitVec 15) := []
  txDest    : Sparse Word := []
  txData    : Sparse Word := []  -- by 8 x endpoint + word
  latch     : Sparse (BitVec 80 × List Word) := []
  dbVal     : Sparse Word := []  -- by 32 x sender + receiver
  dbCnt     : Sparse Nat := []
  dbRead    : Sparse Nat := []
  reject    : Sparse (Option Nat) := []  -- last send of an endpoint was rejected by this one
  replies   : List (Nat × List Word) := []
  deriving DecidableEq, Repr

def Mailbox.init : Mailbox := {}

/-! ### Thermal, supply, Vigil (17) and self-test (18) -/

/-- A thermal zone. -/
structure ZoneSt where
  samples   : List (Nat × Int) := []  -- newest first: instant, 1/1024 degree
  grad      : Nat := 0  -- consecutive samples beyond GRAD_MAX
  bad       : Nat := 0  -- consecutive invalid samples
  warnA     : Bool := false
  warnR     : Bool := false
  thrA      : Bool := false
  thrR      : Bool := false
  count     : Nat := 0  -- samples in the present 16-sample window
  windows   : Nat := 0  -- consecutive windows above 30 degrees/s
  deriving DecidableEq, Repr

def ZoneSt.init : ZoneSt := {}

/-- The monitors of the retention island. -/
structure Monitors where
  zones     : Sparse ZoneSt := []
  clock     : Nat := 0  -- sampling time, ns
  fastAt    : Nat := 0  -- last instant a condition of R443 held
  throttled : Nat := 0  -- last instant a zone was in throttle
  stackOver : Sparse Nat := []
  stackThr  : List Nat := []  -- stacks above STACK_THROTTLE
  wakePending : Bool := false  -- a wake arrived during entry
  entryAt   : Nat := 0  -- when the last Vigil entry began (ENTRY_TIME)
  wakeAt    : Nat := 0  -- when the last exit began (EXIT_TIME)
  deep      : Bool := false  -- `VIGIL_CFG.DEPTH` at the command (R458)
  holdAt    : Nat := 0  -- when the supply hold began
  railsDown : List Nat := []  -- rails fallen below their reset level since the last start (R454)
  deriving DecidableEq, Repr

def Monitors.init : Monitors := {}

/-- The test in progress (18). -/
structure SelfTest where
  left      : List Nat := []
  cur       : Option Nat := none
  rotation  : Bool := false
  segment   : Option Nat := none
  failed    : Bool := false  -- a target of the command was not PASS: RES_* keep the first
  started   : Nat := 0  -- when the target in progress began (RES_TIME)
  lost      : Nat := 0  -- the cause that ends the target in progress early, 0 for none (R467)
  hbm       : Option (Nat × Nat) := none  -- channel an HBM test has come to, and its free pages still to be tested (R471)
  deriving DecidableEq, Repr

def SelfTest.init : SelfTest := {}

/-! ### What leaves the device -/

/-- What a command sends out of the device or answers to a reader. -/
inductive Output where
  | msix (vector : Nat)
  | readData (m : Master) (addr : Nat) (v : Word)
  | completerAbort (addr : Nat)
  | busError (m : Master) (addr : Nat)
  | hostFrame (port : Nat) (frame : List Byte)
  | hostSends (lane : Nat) (what : HostSend)
  | flowControl (port : Nat) (frame : List Byte)
  | lineFrame (port len : Nat) (bytes : List Byte) (errored : Bool)
  | lineSamples (lane : Nat) (samples : List Int)
  | linkFault (port : Nat) (remote : Bool)
  | lantern (lane : Nat) (frame : List Byte) (symbols : List Bool)
  | completion (ring : Nat) (tag : Word) (length status records : Nat) (phase : Bool) (aux : Word)
  | dmaWrite (ring : Nat) (addr : BitVec 64) (bytes : List Byte)
  | smbus (bytes : List Byte)
  | moduleXfer (port : Nat) (write : Bool) (dev offset length : Nat) (data : List Byte)
  | busRecovery (port : Nat)
  | flash (bytes : List Byte) (inBytes : Nat)
  | invertBit (lane : Nat)
  | analogue (slice k code : Nat)
  deriving DecidableEq, Repr

/-! ### The whole -/

/-- Everything but the queue of waiting commands. -/
structure Dev where
  regs   : Sparse Word := []  -- the register file
  bus    : Bus := Bus.init
  isl    : Islands := Islands.init
  log    : FaultLog := FaultLog.init
  rx     : Sparse RxLane := []
  cls    : Cls := Cls.init
  flow   : Flow := Flow.init
  buf    : Buf := Buf.init
  eg     : Egress := Egress.init
  time   : TimeBase := TimeBase.init
  lt     : Sparse Lantern := []
  tx     : Sparse TxLane := []
  ana    : Analogue := Analogue.init
  mm     : Sparse Module := []
  seq    : Sparse Seq := []
  cal    : Calib := Calib.init
  sec    : Security := Security.init
  hif    : HostIf := HostIf.init
  mbx    : Mailbox := Mailbox.init
  eyes   : Sparse (Word × Word) := []  -- `EYE_CTRL` and `EYE_GRID` at the start of a scan, by the address of its `EYE_CTRL`
  mon    : Monitors := Monitors.init
  test   : SelfTest := SelfTest.init
  groups : List Nat := []  -- interrupt groups pending: GROUP_STATUS (R72)
  intN   : Bool := false  -- INT_N driven low (R73)
  mono   : Nat := 0  -- elapsed nanoseconds of the model
  fresh  : Nat := 0  -- index of the next free value (the model's own)
  out    : List Output := []  -- what left the device, latest first
  deriving DecidableEq, Repr

/-- The machine: the device and the commands waiting for it, first in, first out. -/
structure State where
  d       : Dev
  pending : List Instr
  deriving DecidableEq, Repr

/-! ### Reset -/

/-- The device right after power-on: registers at their reset values, nothing stored, every island in reset. -/
def Dev.reset : Dev := {}

/-- The machine right after power-on, with no command waiting (R382, R384, R391). -/
def State.reset : State := ⟨Dev.reset, []⟩

end Sys2Proof.Machine
end

