-- ==== Sys2Proof/Machine/LinePcs.lean ====
section
/-! DEFINITION. The transmit PCS of a line port as functions: 66-bit blocks, transcoding to 257 bits, the scrambler, alignment
markers and the codewords of a FEC flow (R125). Their form is that of the IEEE 802.3 clauses R125 names: PRESUMED, log
entry 65. -/

namespace Sys2Proof.Machine

/-- A 66-bit block: control or data, and its 64 bits, the first octet in bits 7 to 0. -/
structure PcsBlock where
  control : Bool
  bits    : BitVec 64
  deriving DecidableEq, Repr

/-- The block of octets, the first lowest. -/
def pcsBlock (control : Bool) (octets : List Byte) : PcsBlock := ⟨control, BitVec.ofNat 64 (natLE (slice octets 0 8))⟩

/-- Idles, and the ordered set of Remote Fault. -/
def pcsIdle : PcsBlock := pcsBlock true [0x1E]
def pcsRemoteFault : PcsBlock := pcsBlock true [0x4B, 0, 0, 2]

/-- Eight error control characters. -/
def pcsError : PcsBlock := ⟨true, BitVec.ofNat 64 (0x1E + ((List.range 8).map (fun i => 0x1E * 2 ^ (8 + 7 * i))).sum)⟩

/-- The type octets of the blocks that end a frame after 0 to 7 octets. -/
def pcsEnds : List Byte := [0x87, 0x99, 0xAA, 0xB4, 0xCC, 0xD2, 0xE1, 0xFF]

/-- The blocks that carry n octets of a frame: whole data blocks and the block that ends it. -/
def pcsData : Nat → List Byte → List PcsBlock
  | 0, _ => []
  | n + 1, l =>
    if l.length < 8 then [pcsBlock true (pcsEnds.getD l.length 0 :: l)] else pcsBlock false (l.take 8) :: pcsData n (l.drop 8)

/-- The FCS of a frame, the CRC-32 of IEEE 802.3, as sent. -/
def fcsBytes (l : List Byte) : List Byte := bytesLE 4 ((l.foldl (crcByteR 0xEDB88320) 0xFFFFFFFF) ^^^ 0xFFFFFFFF)

/-- The FCS that ends a frame is wrong. -/
def fcsBad (frame : List Byte) : Bool := fcsBytes (frame.take (frame.length - 4)) != frame.drop (frame.length - 4)

/-- A frame on the line: start and preamble, its bytes with their FCS, its end, and idles. One that failed after it had
started ends in error. -/
def pcsFrame (bytes : List Byte) (bad : Bool) : List PcsBlock :=
  let body := pcsData (bytes.length / 8 + 2) (bytes ++ fcsBytes bytes)
  let tail := if bad then body.dropLast ++ [pcsError] ++ body.drop (body.length - 1) else body
  pcsBlock true [0x78, 0x55, 0x55, 0x55, 0x55, 0x55, 0x55, 0xD5] :: tail ++ [pcsIdle]

/-- Four blocks as 257 bits: a first bit of 1 before four data blocks; else 0, the four types and the blocks with the second
half of the first control block's type octet left out. -/
def transcode (l : List PcsBlock) : List Bool :=
  let all := (l.map (fun b => b.bits)).foldr (fun x a => a * 2 ^ 64 + x.toNat) 0
  let word (w v : Nat) := (List.range w).map (fun i => v.testBit i)
  match l.findIdx? (fun b => b.control) with
  | none => true :: word 256 all
  | some c => false :: l.map (fun b => !b.control) ++ word (64 * c + 4) all ++ word (248 - 64 * c) (all / 2 ^ (64 * c + 8))

/-- The self-synchronising scrambler 1 + x^39 + x^58: its last 58 output bits, the latest in bit 0. -/
def scramble : BitVec 58 → List Bool → BitVec 58 × List Bool
  | st, [] => (st, [])
  | st, x :: r =>
    let y := xor x (xor (st.getLsbD 38) (st.getLsbD 57))
    let t := scramble ((st <<< 1) ||| (if y then 1 else 0)) r
    (t.1, y :: t.2)

/-- Blocks in runs of four, transcoded. -/
def transcodeAll : Nat → List PcsBlock → List Bool
  | 0, _ => []
  | n + 1, l => transcode (l.take 4) ++ transcodeAll n (l.drop 4)

/-- Codeword pairs from one alignment marker to the next, and the 257-bit blocks a marker takes, at a port's rate. -/
def amPeriod (rate : Nat) : Nat := if rate = 200 then 2048 else 4096
def amBlocks (rate : Nat) : Nat := if rate = 200 then 4 else 8

/-- The next pair of the flow starts with a marker. -/
def PcsFlow.amDue (f : PcsFlow) (rate : Nat) : Bool := decide (f.pairs % amPeriod rate = 0)

/-- 66-bit blocks that the next pair of the flow carries. -/
def PcsFlow.room (f : PcsFlow) (rate : Nat) : Nat := 4 * (40 - (if f.amDue rate then amBlocks rate else 0))

/-- The next pair of a flow: its blocks transcoded and scrambled behind the marker that is due, encoded, and in stream
order over a number of FEC lanes. -/
def PcsFlow.pair (f : PcsFlow) (rate flow lanes : Nat) (degraded : Bool) (blocks : List PcsBlock) : PcsFlow × List Gf :=
  let n := f.room rate
  let t := scramble f.scr (transcodeAll (n / 4) (blocks ++ List.replicate (n - blocks.length) pcsIdle))
  let am := if f.amDue rate then
      (List.range (257 * amBlocks rate)).map (fun i => (Config.amBits rate flow degraded).getLsbD i) else []
  let m := bitSymbols (am ++ t.2)
  let half (k : Nat) := (m.zipIdx.filter (fun q => q.2 % 2 == k)).map Prod.fst
  ({ scr := t.1, pairs := f.pairs + 1 }, pairWeave lanes (rsEncode (half 0)) (rsEncode (half 1)))

/-- Blocks dealt out in turn to a number of flows: those of flow j. -/
def dealTo (flows j : Nat) (l : List PcsBlock) : List PcsBlock := (l.zipIdx.filter (fun q => q.2 % flows == j)).map Prod.fst

/-- The symbols of a lane whose eight FEC lanes are multiplexed bit by bit: FEC lanes `first` to `first` + 7 of a pair spread
over `lanes` (R125, L212). -/
def muxLane (lanes first : Nat) (pair : List Gf) : List (Fin 4) :=
  let flane (f : Nat) := symbolBits ((pair.zipIdx.filter (fun q => q.2 % lanes == first + f)).map Prod.fst)
  let ls := (List.range 8).map flane
  let bits := (List.range (10 * (pair.length / lanes))).flatMap (fun t => ls.map (fun l => l.getD t false))
  grayPairs bits
where
  /-- Bits two by two under the Gray mapping. -/
  grayPairs : List Bool → List (Fin 4)
    | a :: b :: r => gray a b :: grayPairs r
    | _ => []

end Sys2Proof.Machine
end

