-- ==== Sys2Proof/Machine/Waves.lean ====
section
/-! DEFINITION. Waveforms and the arithmetic of a line sample: the sine table and the Lantern envelope (10, R292–R295), and
the transmit chain from symbols to DAC samples (09, R276). -/

namespace Sys2Proof.Machine

/-! ### Sine and cosine in fixed point, 96 fractional bits -/

/-- π × 2^96, rounded. -/
def piFix : Int := 248902613312231085230521944622

/-- A Taylor series from its term t of degree k: n terms, each −x²/((k+1)(k+2)) times the one before. -/
def trigTerms (x2 : Int) : Nat → Nat → Int → Int
  | 0, _, _ => 0
  | n + 1, k, t => t + trigTerms x2 n (k + 2) (-(t * x2 / 2 ^ 96) / (((k + 1) * (k + 2) : Nat) : Int))

def sinFix (x : Int) : Int := trigTerms (x * x / 2 ^ 96) 20 1 x
def cosFix (x : Int) : Int := trigTerms (x * x / 2 ^ 96) 20 0 (2 ^ 96)

/-- Entry i of the sine table: round(131,071 × sin(2πi/4,096)), half to even (R292, R321). -/
def sineEntry (i : Nat) : Int :=
  let r := i % 1024
  let x := piFix * (if i / 1024 % 2 = 0 then r else 1024 - r : Nat) / 2048
  let v := roundHalfEven (131071 * sinFix x) 96
  if i / 2048 % 2 = 0 then v else -v

/-- The sine of a 40-bit phase in 1/32,767, half to even (11, R327); its cosine is that of a quarter turn more. -/
def phaseSine (p : BitVec 40) : Int :=
  let q := p.toNat / 2 ^ 38
  let r := p.toNat % 2 ^ 38
  let x := piFix * (if q % 2 = 0 then r else 2 ^ 38 - r : Nat) / 2 ^ 39
  let v := roundHalfEven (32767 * sinFix x) 96
  if q / 2 = 0 then v else -v

/-! ### Lantern (R292–R295) -/

/-- Phase increment of the subcarrier: round(f × 64 × 2^40 / f_sym), f_sym given as a ratio (R292). -/
def ncoIncrement (f num den : Nat) : Int := divHalfEven ((f * 64 * 2 ^ 40 * den : Nat) : Int) (num : Int)

/-- The convolutional code of R295: the two bits for each input bit, state in the six latest bits. -/
def convStep (state : Nat) (u : Bool) : Nat × Bool × Bool :=
  let r := (if u then 64 else 0) + state
  let par (m : Nat) := (List.range 7).foldl (fun a i => xor a ((r &&& m).testBit i)) false
  (r / 2, par 0o171, par 0o133)

/-- The coded bits of a string of input bits. -/
def convEncode (bits : List Bool) : List Bool :=
  (bits.foldl (fun (a : Nat × List Bool) u =>
    let t := convStep a.1 u
    (t.1, t.2.2 :: t.2.1 :: a.2)) (0, [])).2.reverse

/-- Symbols of a Lantern frame with P payload bytes (R294). -/
def lanternSymbols (p : Nat) : Nat := 556 + 16 * p

/-- The bits of a byte string, each byte from its most significant bit. -/
def bitsBE (l : List Byte) : List Bool := l.flatMap (fun b => (List.range 8).map (fun i => b.getLsbD (7 - i)))

/-- The sync word, bit 31 first. -/
def syncBits : List Bool := bitsBE (bytesBE 4 0x5B3E90C7)

/-- The bits b_k of a frame from its second preamble symbol on: a preamble that alternates, the sync word, and header,
payload, tag and CRC with six tail bits, coded (R293, R294). -/
def lanternBits (frame : List Byte) : List Bool :=
  List.replicate 63 true ++ syncBits ++ convEncode (bitsBE frame ++ List.replicate 6 false)

/-- One step of the Viterbi decoder over its 64 states, each with a metric and its last 64 bits: two soft decisions, the
first output first; a decision below 0 says 1. Of equal metrics the lower state wins (DESIGN CHOICE, log entry 69). -/
def viterbiStep (st : List (Int × BitVec 64)) (a b : Int) : List (Int × BitVec 64) :=
  let gain (d : Int) (bit : Bool) : Int := if bit then -d else d
  (List.range 64).map (fun q =>
    let u := decide (32 ≤ q)
    let from_ (p : Nat) : Int × BitVec 64 :=
      let x := st.getD p (0, 0)
      let c := (convStep p u).2
      (x.1 + gain a c.1 + gain b c.2, (x.2 <<< 1) ||| (if u then 1 else 0))
    let x := from_ (2 * (q % 32))
    let y := from_ (2 * (q % 32) + 1)
    if x.1 < y.1 then y else x)

/-- The best survivor. -/
def viterbiBest (st : List (Int × BitVec 64)) : BitVec 64 := (st.foldl (fun b x => if b.1 < x.1 then x else b) (st.headD (0, 0))).2

/-- Decoded bits, and the survivors behind them: past 64 steps every step decides the bit 64 steps back (R303). -/
def viterbiRun : Nat → List (Int × BitVec 64) → List Int → List Bool × List (Int × BitVec 64)
  | n, st, a :: b :: r =>
    let t := viterbiRun (n + 1) (viterbiStep st a b) r
    (if 64 ≤ n then (viterbiBest st).getLsbD 63 :: t.1 else t.1, t.2)
  | _, st, _ => ([], st)

/-- The decoder at a frame's first coded symbol: state 0. -/
def viterbiStart : List (Int × BitVec 64) := (0, 0) :: List.replicate 63 (-(2 ^ 30), 0)

/-- The bits decided while a frame arrives. -/
def viterbiSoFar (soft : List (BitVec 4)) : List Bool := (viterbiRun 0 viterbiStart (soft.map BitVec.toInt)).1

/-- All bits of a frame, which ends in state 0. -/
def viterbi (soft : List (BitVec 4)) : List Bool :=
  let t := viterbiRun 0 viterbiStart (soft.map BitVec.toInt)
  let n := min 64 (soft.length / 2)
  t.1 ++ (List.range n).map (fun i => (t.2.headD (0, 0)).2.getLsbD (n - 1 - i))

/-- Whole bytes of a string of bits, each from its most significant bit. -/
def bytesOfBits : List Bool → List Byte
  | a :: b :: c :: d :: e :: f :: g :: h :: r =>
    BitVec.ofNat 8 ([a, b, c, d, e, f, g, h].foldl (fun v x => 2 * v + x.toNat) 0) :: bytesOfBits r
  | _ => []

/-- The frame in a frame's coded symbols, its tail left out. -/
def softFrame (soft : List (BitVec 4)) : List Byte := bytesOfBits ((viterbi soft).take (soft.length / 2 - 6))

/-- A header is received as valid: `VERSION` 1 and `LENGTH` at most 240 (R299). -/
def headerGood (f : List Byte) : Bool := decide ((f.getD 0 0).toNat / 16 = 1) && decide ((f.getD 2 0).toNat ≤ 240)

/-- Bits in which the last 32 decisions differ from the sync word (R300). -/
def syncErrors (decisions : List Bool) : Nat :=
  ((List.zipWith (fun x y => x != y) (decisions.drop (decisions.length - 32)) syncBits).filter id).length

/-- The signs s_k of a frame's symbols, the first +1. -/
def lanternSigns (frame : List Byte) : List Int := (lanternBits frame).foldl (fun l b => (if b then -(l.headD 1) else l.headD 1) :: l) [1] |>.reverse

/-- The envelope, 96 fractional bits, in a symbol of sign b after one of sign a, at t/T = f / 2^40; before a frame the sign
counts as 0, so that the envelope rises from 0 (R293; DEDUCED, log entry 66). -/
def envelopeFix (a b : Int) (f : Nat) : Int :=
  if f < 2 ^ 37 then ((a + b) * 2 ^ 96 + (a - b) * cosFix (piFix * (8 * f : Nat) / 2 ^ 40)) / 2 else b * 2 ^ 96

/-! ### The transmit chain (R276) -/

/-- Step 1: a level plus its pre-distortion entry. -/
def txPlace (level : Int) (pd : Bool) (entry : Int) : Int := level + (if pd then entry else 0)

/-- Index of the pre-distortion table from a(n), a(n−1), a(n−2), a(n−3). -/
def pdIndex (a0 a1 a2 a3 : Fin 4) : Nat := 64 * a0.val + 16 * a1.val + 4 * a2.val + a3.val

/-- Step 2: the FIR over nine values of y, y(n+3) first. -/
def txFir (taps ys : List Int) : Int := roundHalfEven ((List.zipWith (· * ·) taps ys).foldl (· + ·) 0) 8

/-- Steps 3 to 5 for a pilot value p / (131,071 × 2^96): the sample and whether it clipped. -/
def txSample (z : Int) (depth : Nat) (p : Int) (inv : Bool) : Int × Bool :=
  let w := divHalfEven (z * (1000 * 131071 * 2 ^ 96 + (depth : Int) * p)) (1000 * 131071 * 2 ^ 96)
  let w := if inv then -w else w
  if w > 127 then (127, true) else if w < -128 then (-128, true) else (w, false)

/-- Step 1 along a run of symbols, after the three symbols before it, the latest first. -/
def txPlaces (level pd : Nat → Int) (on : Bool) : Fin 4 × Fin 4 × Fin 4 → List (Fin 4) → List Int
  | _, [] => []
  | (b, c, d), a :: r => txPlace (level a.val) on (pd (pdIndex a b c d)) :: txPlaces level pd on (a, b, c) r

/-- Step 2 along values of y, oldest first: n outputs, the first from the nine at the front. -/
def txFilter (taps : List Int) : Nat → List Int → List Int
  | 0, _ => []
  | n + 1, ys => txFir taps (ys.take 9).reverse :: txFilter taps n (ys.drop 1)

end Sys2Proof.Machine
end

