-- ==== Sys2Proof/Machine/Flags.lean ====
section
/-! DEFINITION. Interrupt flags: which pages and groups are pending, and what the device does after each command
when a group's status rises or falls (02, R72, R73; 16, R413). -/

namespace Sys2Proof.Machine

/-- The outcome of a command. -/
abbrev Out := Host.Outcome State Fault Refusal

/-- A register as stored. -/
def Dev.rd (s : Dev) (a : Nat) : Word := Sparse.get regReset s.regs a

/-- The interrupt group of a page. -/
def pageGroup (page : Nat) : Option Nat := (pageRow page).map (fun p => p.group)

/-- The pages with a bit of `INT_STATUS` AND `INT_ENABLE` at 1. `INT_STATUS` resets to 0 everywhere, so a pending
page lists its register. -/
def pendingPages (s : Dev) : List Nat :=
  (s.regs.filter (fun p => decide (p.1 % 0x1000 = HDR.INT_STATUS) && (p.2 &&& s.rd (p.1 + 4)) != 0)).map
    (fun p => p.1 / 0x1000)

/-- The groups with a pending page, lowest first (R72). -/
def pendingGroups (s : Dev) : List Nat :=
  let pages := pendingPages s
  (List.range 23).filter (fun g => pages.any (fun p => pageGroup p == some g))

/-- The routing register of a group. -/
def Dev.route (s : Dev) (g : Nat) : Word := s.rd (Pg.INTR + INTR.ROUTE + 4 * g)

/-- INT_N is low while a group with `BMC_EN` is pending (R73). -/
def intNLevel (s : Dev) : Bool := (pendingGroups s).any (fun g => bitOf (s.route g) 9)

/-- No message leaves on a vector: it or the function is masked, or MSI-X is disabled (R413). -/
def Dev.msixMasked (s : Dev) (v : Nat) : Bool :=
  !s.hif.msixOn || s.hif.funcMask || Sparse.get (fun _ => true) s.hif.masked v

/-- A message on a vector, or its pending bit while the vector is masked (R413). The pending bit stays when the source's
status falls before the unmask, and the unmask then still sends its message: DESIGN CHOICE, log entry 58. -/
def Dev.sendMsix (s : Dev) (v : Nat) : Dev :=
  if s.msixMasked v then
    { s with hif := { s.hif with pend := Sparse.put (fun _ => false) s.hif.pend v true } }
  else { s with out := .msix v :: s.out }

/-- The message of a group whose status has risen. -/
def groupMessage (s : Dev) (g : Nat) : Dev :=
  if bitOf (s.route g) 8 then s.sendMsix (fieldOf (s.route g) 0 6) else s

/-- After a command: a message for each group whose status rose, then the new group status and the level of INT_N. -/
def settle (s : Dev) : Dev :=
  let now := pendingGroups s
  let t := (now.filter (fun g => !s.groups.contains g)).foldl groupMessage s
  { t with groups := now, intN := intNLevel s }

/-- A command's effect on the device, its interrupts settled, the queue untouched. -/
def State.after (s : State) (d : Dev) : State := { d := settle d, pending := s.pending }

/-- The outcome of a command whose effect on the device is f. -/
def State.run (s : State) (f : Dev → Dev) : Out := .next (s.after (f s.d))

end Sys2Proof.Machine
end

