-- ==== Sys2Proof/Machine/Ops.lean ====
section
/-! DEFINITION. The named operations over registers: reading and writing them and their fields, counters, interrupt
causes, the error log, the checks every access passes (02), and the shape of the slices' ports (01). -/

namespace Sys2Proof.Machine

/-! ### Masters -/

/-- The ID of a master (02). -/
def masterId : Master → BitVec 8
  | .host => 0x01
  | .bmc => 0x02
  | .mc => 0x03
  | .jtag => 0x04
  | .loopSeq m => BitVec.ofNat 8 (0x10 + m.val)
  | .laneSeq n => BitVec.ofNat 8 (0x20 + n.val)

/-- The master with an ID. -/
def masterOf (id : Nat) : Option Master :=
  if id = 1 then some .host else if id = 2 then some .bmc else if id = 3 then some .mc else if id = 4 then some .jtag
  else if h : 0x10 ≤ id ∧ id < 0x18 then some (.loopSeq ⟨id - 0x10, by omega⟩)
  else if h : 0x20 ≤ id ∧ id < 0x30 then some (.laneSeq ⟨id - 0x20, by omega⟩)
  else none

/-- Masters that receive an interconnect error response (R49). -/
def isInternal : Master → Bool
  | .mc => true
  | .loopSeq _ => true
  | .laneSeq _ => true
  | _ => false

/-! Error codes of `ERR_INFO` (02). -/
namespace Err
@[simp] abbrev narrow : Nat := 0x01
@[simp] abbrev unaligned : Nat := 0x02
@[simp] abbrev overrun : Nat := 0x03
@[simp] abbrev locked : Nat := 0x04
@[simp] abbrev lockRequired : Nat := 0x05
@[simp] abbrev expertDenied : Nat := 0x06
@[simp] abbrev notHolder : Nat := 0x07
@[simp] abbrev aliasDenied : Nat := 0x08
@[simp] abbrev expertSequence : Nat := 0x09
@[simp] abbrev unmapped : Nat := 0x0A
@[simp] abbrev islandOff : Nat := 0x0B
@[simp] abbrev config : Nat := 0x0C
@[simp] abbrev state : Nat := 0x0D
@[simp] abbrev supplyHold : Nat := 0x0E
@[simp] abbrev bulk : Nat := 0x0F
end Err

namespace Dev

/-! ### Registers, fields and counters -/

/-- A register given a value. -/
def wr (s : Dev) (a : Nat) (v : Word) : Dev := { s with regs := Sparse.put regReset s.regs a v }

/-- A field of a register. -/
def fld (s : Dev) (a lo len : Nat) : Nat := fieldOf (s.rd a) lo len

/-- A field given a value. -/
def setF (s : Dev) (a lo len v : Nat) : Dev := s.wr a (withField (s.rd a) lo len v)

/-- A bit of a register. -/
def bit (s : Dev) (a i : Nat) : Bool := bitOf (s.rd a) i

/-- A bit given a value. -/
def setB (s : Dev) (a i : Nat) (b : Bool) : Dev := s.wr a (withBit (s.rd a) i b)

/-- Bits of a register set. -/
def orBits (s : Dev) (a : Nat) (v : Word) : Dev := s.wr a (s.rd a ||| v)

/-- A 32-bit counter raised by k, wrapping (R71). -/
def count (s : Dev) (a : Nat) (k : Nat := 1) : Dev := s.wr a (s.rd a + BitVec.ofNat 32 k)

/-- A counter of two words. -/
def wide (s : Dev) (a : Nat) : Nat := (s.rd a).toNat + 2 ^ 32 * (s.rd (a + 4)).toNat

/-- A counter of two words given a value, w bits wide. -/
def setWide (s : Dev) (w a v : Nat) : Dev :=
  (s.wr a (BitVec.ofNat 32 v)).wr (a + 4) (BitVec.ofNat 32 ((v % 2 ^ w) / 2 ^ 32))

/-- A counter of 48 bits raised by k. -/
def count48 (s : Dev) (a : Nat) (k : Nat := 1) : Dev := s.setWide 48 a (s.wide a + k)

/-- A counter of 64 bits raised by k. -/
def count64 (s : Dev) (a k : Nat) : Dev := s.setWide 64 a (s.wide a + k)

/-- The larger of a peak field and a value. -/
def peakF (s : Dev) (a lo len v : Nat) : Dev := if s.fld a lo len < v then s.setF a lo len v else s

/-- Something leaves the device. -/
def emit (s : Dev) (o : Output) : Dev := { s with out := o :: s.out }

/-- A cause of a page is set (R42). -/
def raise (s : Dev) (page cause : Nat) : Dev := s.setB (page + HDR.INT_STATUS) cause true

/-- Several registers written: word k at a + 4k. -/
def wrWords (s : Dev) (a : Nat) : List Word → Dev
  | [] => s
  | w :: r => (s.wr a w).wrWords (a + 4) r

/-- Registers from an address up to another read as at reset again. -/
def clearRange (s : Dev) (lo hi : Nat) : Dev :=
  { s with regs := Sparse.clear (fun a => decide (lo ≤ a) && decide (a < hi)) s.regs }

/-- Several registers read. -/
def rdWords (s : Dev) (a n : Nat) : List Word := (List.range n).map (fun k => s.rd (a + 4 * k))

/-- A free value of the model: the constant of the present index, and the index stepped. -/
def freeWord (s : Dev) : Word := Config.freeWord s.fresh
def nextFree (s : Dev) : Dev := { s with fresh := s.fresh + 1 }

/-! ### Pages, islands, locks -/

/-- The island of a page. -/
def islandOf (page : Nat) : Nat :=
  match pageRow page with
  | some p => pageIsland p.type (page - p.first)
  | none => 60

/-- An island is powered and out of reset, so its clock runs and its bridges are not isolated (R375). -/
def islandOn (s : Dev) (i : Nat) : Bool :=
  Sparse.get (fun _ => false) s.isl.released i && !Sparse.get (fun _ => false) s.isl.unpowered i
    && !Sparse.get (fun _ => false) s.isl.cmdReset i && !Sparse.get (fun _ => false) s.isl.wdReset i
    && !(s.isl.held && decide (i < 60)) && !(s.isl.privDown && decide (60 ≤ i))

/-- A page's island is on. -/
def pageOn (s : Dev) (page : Nat) : Bool := s.islandOn (islandOf page)

/-- The posted write waiting in a page's buffer (R50). -/
def buffered (s : Dev) (page : Nat) : Option PostedWrite := Sparse.get (fun _ => none) s.bus.buffer page

/-- A page is being re-initialised after a soft reset. -/
def softResetting (s : Dev) (page : Nat) : Bool := Sparse.get (fun _ => false) s.bus.softRst page

/-- `PAGE_STATUS.BUSY`. -/
def busy (s : Dev) (page : Nat) : Bool := (s.buffered page).isSome || s.softResetting page

/-- The holder of a page's lock, 0 when free. -/
def holder (s : Dev) (page : Nat) : BitVec 8 := Sparse.get (fun _ => 0) s.bus.locks page

/-- A page's lock is held by a master. -/
def holds (s : Dev) (m : Master) (page : Nat) : Bool := s.holder page == masterId m

/-- A page's lock given a holder. -/
def setHolder (s : Dev) (page : Nat) (h : BitVec 8) : Dev :=
  { s with bus := { s.bus with locks := Sparse.put (fun _ => 0) s.bus.locks page h } }

/-- The former holders of a page's broken locks whose next write is still to come. -/
def brokenOf (s : Dev) (page : Nat) : List (BitVec 8) := Sparse.get (fun _ => []) s.bus.broken page

def setBroken (s : Dev) (page : Nat) (l : List (BitVec 8)) : Dev :=
  { s with bus := { s.bus with broken := Sparse.put (fun _ => []) s.bus.broken page l } }

/-- A master's expert session is open (R68). -/
def expertOpen (s : Dev) (m : Master) : Bool := s.bus.expert.contains (masterId m)

/-- A master may write expert fields of a page. -/
def expert (s : Dev) (m : Master) (page : Nat) : Bool := s.expertOpen m && s.holds m page

/-- The image stream of a master is discarded (R398). -/
def dropStream (s : Dev) (id : BitVec 8) : Dev :=
  match s.sec.stream with
  | some (_, o, _) =>
    if o = id then { s.setB (Pg.BOOT + BOOT.IMG_STATUS) 29 false with sec := { s.sec with stream := none } } else s
  | none => s

/-- Locks of a master released and its session ended (R64). -/
def releaseMaster (s : Dev) (id : BitVec 8) : Dev :=
  let s := s.dropStream id
  { s with bus := { s.bus with locks := Sparse.clear (fun p => Sparse.get (fun _ => 0) s.bus.locks p == id) s.bus.locks,
                               expert := s.bus.expert.filter (· != id),
                               keySeen := s.bus.keySeen.filter (· != id) } }

/-- `PAGE_STATUS.SAFE_STATE`. -/
def inSafe (s : Dev) (page : Nat) : Bool := s.bit (page * 0x1000 + HDR.PAGE_STATUS) 3

/-- A page in host-assisted mode. -/
def assisted (s : Dev) (base : Nat) : Bool := s.bit (base + HDR.PAGE_CTRL) 1

/-- `PAGE_CTRL.ENABLE` of a page. -/
def enabled (s : Dev) (base : Nat) : Bool := s.bit (base + HDR.PAGE_CTRL) 0

/-- The debug level of JTAG (15, R407). -/
def debugLevel (s : Dev) : Nat := s.fld (Pg.BOOT + BOOT.DEBUG_STATE) 0 2

/-- The hold after a supply event (17, R457). -/
def supplyHold (s : Dev) : Bool := s.bit (Pg.SUPPLY + SUPPLY.SUP_STATUS) 31

/-- The device time base (R266). -/
def timeBase (s : Dev) : BitVec 80 := s.time.now

/-! ### The error log and the checks of an access (R38–R55, R59–R65, R407) -/

/-- One error logged on a page (R47). -/
def logOn (s : Dev) (m : Master) (page off code : Nat) : Dev :=
  let old := s.rd (page * 0x1000 + HDR.ERR_INFO)
  let multi := if bitOf old 31 then 2 ^ 30 else 0
  let v := 2 ^ 31 + multi + code * 2 ^ 22 + (masterId m).toNat * 2 ^ 14 + off / 4 * 4 % 0x1000
  (s.wr (page * 0x1000 + HDR.ERR_INFO) (BitVec.ofNat 32 v)).raise (page * 0x1000) 0

/-- One error of an access at an address: on its page, or on page 0x000 where the page is reserved (R38); internal
masters also receive an error response for accesses dropped under R38 and R43 (R49), and an access offered to an
isolated bridge counts there (R375). -/
def logErr (s : Dev) (m : Master) (a code : Nat) : Dev :=
  let page := a / 0x1000
  let t := if (pageRow page).isSome then s.logOn m page (a % 0x1000) code else s.logOn m 0 (a % 0x1000) code
  let t := if code = Err.islandOff then t.count (Pg.CLKRST + CLKRST.BRIDGE_DROPS) else t
  if isInternal m && ((pageRow page).isNone || code == Err.narrow || code == Err.unaligned) then t.emit (.busError m a)
  else t

/-- Registers of `BOOT` open to JTAG at level 0 (R407). -/
def jtagOpen (a : Nat) : Bool :=
  let off := a % 0x1000
  decide (a / 0x1000 = 0x0F8) &&
    (decide (off < 0x040) || off == BOOT.BOOT_STATUS || off == BOOT.DEBUG_STATE
      || (decide (BOOT.IMG_LEN ≤ off) && decide (off ≤ BOOT.IMG_STATUS)) || off == BOOT.IMG_REJECTS
      || (decide (BOOT.DBG_CHAL ≤ off) && decide (off ≤ BOOT.DBG_CMD)))

/-- JTAG at level 0 outside its registers. -/
def jtagRefused (s : Dev) (m : Master) (a : Nat) : Bool :=
  m == .jtag && decide (s.debugLevel = 0) && !jtagOpen a

/-- An offset of a page is assigned to a register. -/
def assigned (page off : Nat) : Bool :=
  match pageRow page with
  | none => false
  | some p =>
    decide (off < 0x028 ∧ off % 4 = 0) || (regRow p.type off).isSome
      || ((p.type == .lseq || p.type == .seq)
          && ((decide (0x200 ≤ off) && decide (off ≤ 0x268)) || (decide (0x300 ≤ off) && decide (off ≤ 0x368))))

/-- A page has registers at an offset, the pages 1 to 3 of `MBX` having only some of page 0's (16). -/
def mapped (page off : Nat) : Bool :=
  assigned page off
    && !(decide (0x0F1 ≤ page) && decide (page ≤ 0x0F3) && decide (0x040 ≤ off) && decide (off < 0x800) && off != MBX.INBOX_FLUSH)

/-- A page is posted. -/
def posted (page : Nat) : Bool :=
  match pageRow page with
  | some p => p.posted
  | none => false

/-- The first check a write fails, with the order of log entry 5: page, JTAG level, width, alignment, alias,
island, offset, write buffer, safe state, lock. -/
def writeErr (s : Dev) (m : Master) (a : Nat) (be : BitVec 4) (aliased : Bool) : Option Nat :=
  let page := a / 0x1000
  let off := a % 0x1000
  if (pageRow page).isNone then some Err.unmapped
  else if s.jtagRefused m a then some Err.state
  else if be ≠ 0xF then some Err.narrow
  else if a % 4 ≠ 0 then some Err.unaligned
  else if aliased && (off == HDR.LOCK || a == DEVICE.EXPERT_KEY) then some Err.aliasDenied
  else if off = HDR.LOCK then none
  else if !s.pageOn page then some Err.islandOff
  else if !mapped page off then some Err.unmapped
  else if s.busy page then some Err.overrun
  else if s.inSafe page && !s.holds m page then some (if s.holder page = 0 then Err.lockRequired else Err.locked)
  else if (s.brokenOf page).contains (masterId m) && !s.holds m page then some Err.locked
  else if s.holder page ≠ 0 && !s.holds m page then some Err.locked
  else none

/-- The former holder of a broken lock has made its next write, or holds the lock again (R65). -/
def dropBroken (s : Dev) (m : Master) (page : Nat) : Dev :=
  if masterId m ∈ s.brokenOf page then s.setBroken page ((s.brokenOf page).filter (· != masterId m)) else s

/-- A write that passes the checks of R38–R65 acts; one that fails is logged and changes nothing else. -/
def access (s : Dev) (m : Master) (a : Nat) (k : Dev → Dev) : Dev :=
  match s.writeErr m a 0xF false with
  | some c => (s.dropBroken m (a / 0x1000)).logErr m a c
  | none => k (s.dropBroken m (a / 0x1000))

/-- A condition a command must meet, else it is logged with a code. -/
def need (s : Dev) (m : Master) (a : Nat) (ok : Bool) (code : Nat) (k : Dev → Dev) : Dev :=
  if ok then k s else s.logErr m a code

/-- A command that needs the page's lock (LOCK_REQUIRED). -/
def lockedAccess (s : Dev) (m : Master) (a : Nat) (k : Dev → Dev) : Dev :=
  s.access m a (fun t => t.need m a (t.holds m (a / 0x1000)) Err.lockRequired k)

/-- The first check a bulk-window write fails, logged on the owning page: no write buffer stands in its way (R35). -/
def bulkErr (s : Dev) (m : Master) (page : Nat) : Option Nat :=
  if s.jtagRefused m (page * 0x1000 + 0xFFC) then some Err.state
  else if !s.pageOn page then some Err.islandOff
  else if s.inSafe page && !s.holds m page then some (if s.holder page = 0 then Err.lockRequired else Err.locked)
  else if (s.brokenOf page).contains (masterId m) && !s.holds m page then some Err.locked
  else if s.holder page ≠ 0 && !s.holds m page then some Err.locked
  else none

/-- A bulk-window write that passes its checks acts; the offset logged is that of the bulk address. -/
def bulkAccess (s : Dev) (m : Master) (page a : Nat) (k : Dev → Dev) : Dev :=
  match s.bulkErr m page with
  | some c => (s.dropBroken m page).logOn m page (a % 0x1000) c
  | none => k (s.dropBroken m page)

/-- The first check a read fails: reserved page, JTAG level, alignment, island, offset (R38, R39, R43, R55). A read
of the registers of R53 needs no island. -/
def readErr (s : Dev) (m : Master) (a : Nat) : Option Nat :=
  let page := a / 0x1000
  let off := a % 0x1000
  if (pageRow page).isNone then some Err.unmapped
  else if s.jtagRefused m a then some Err.state
  else if a % 4 ≠ 0 then some Err.unaligned
  else if off = HDR.PAGE_ID ∨ off = HDR.PAGE_REV ∨ off = HDR.PAGE_STATUS ∨ off = HDR.LOCK then none
  else if !s.pageOn page then some Err.islandOff
  else none

/-! ### Slices and ports (01, R5) -/

/-- Widths by lane offset of a layout code. -/
def layoutWidth (layout q : Nat) : Nat :=
  match layout, q with
  | 0, _ => 1
  | 1, 0 => 2
  | 1, 1 => 0
  | 1, _ => 1
  | 2, 0 => 1
  | 2, 1 => 1
  | 2, 2 => 2
  | 2, _ => 0
  | 3, 0 => 2
  | 3, 2 => 2
  | 3, _ => 0
  | _, 0 => 4
  | _, _ => 0

/-- Offset of the first lane of the port that holds lane offset q. -/
def layoutFirst (layout q : Nat) : Nat :=
  if layoutWidth layout q ≠ 0 then q
  else if q ≠ 0 ∧ layoutWidth layout (q - 1) ≠ 0 then q - 1 else 0

def lpLayout (s : Dev) (sl : Nat) : Nat := s.fld (Pg.SLICE sl + SLICE.SLICE_CFG) 8 3
def hpLayout (s : Dev) (sl : Nat) : Nat := s.fld (Pg.SLICE sl + SLICE.HOST_CFG) 8 3
def lpEn (s : Dev) (sl q : Nat) : Bool := s.bit (Pg.SLICE sl + SLICE.SLICE_CFG) (4 + q)
def typeE (s : Dev) (sl : Nat) : Bool := s.bit (Pg.SLICE sl + SLICE.SLICE_CFG) 1
/-- The slice is concentrating, its line lanes L453. -/
def l453 (s : Dev) (sl : Nat) : Bool := s.bit (Pg.SLICE sl + SLICE.SLICE_CFG) 0
def hostRate (s : Dev) (sl : Nat) : Nat := s.fld (Pg.SLICE sl + SLICE.HOST_CFG) 0 2

/-- The line port of a line lane. -/
def linePort (s : Dev) (n : Nat) : Nat := n / 4 * 4 + layoutFirst (s.lpLayout (n / 4)) (n % 4)
/-- The host port of a host lane. -/
def hostPort (s : Dev) (n : Nat) : Nat := n / 4 * 4 + layoutFirst (s.hpLayout (n / 4)) (n % 4)
/-- Lanes of a line port, 0 where none starts. -/
def lpWidth (s : Dev) (p : Nat) : Nat := layoutWidth (s.lpLayout (p / 4)) (p % 4)
def hpWidth (s : Dev) (p : Nat) : Nat := layoutWidth (s.hpLayout (p / 4)) (p % 4)
def lpLanes (s : Dev) (p : Nat) : List Nat := (List.range (s.lpWidth p)).map (p + ·)
def hpLanes (s : Dev) (p : Nat) : List Nat := (List.range (s.hpWidth p)).map (p + ·)
/-- A line port is configured. -/
def lpOn (s : Dev) (p : Nat) : Bool := decide (s.lpWidth p ≠ 0) && s.lpEn (p / 4) (p % 4)
/-- The host port a line port delivers to (R246). -/
def mapPort (s : Dev) (p : Nat) : Nat := p / 4 * 4 + s.fld (Pg.SLICE (p / 4) + SLICE.LP_MAP) (2 * (p % 4)) 2
/-- Ethernet rate of a line port and a host port, Gb/s (01 Levels; 08, R245). -/
def lpRate (s : Dev) (p : Nat) : Nat := s.lpWidth p * (if s.l453 (p / 4) then 400 else 200)
def hpRate (s : Dev) (p : Nat) : Nat := s.hpWidth p * (if s.hostRate (p / 4) = 2 then 200 else 100)

/-- The conflict of a slice's configuration, the first row of R28 that applies: 1 HOST_RATE, 2 LAYOUT, 3 MAP under
R247, 4 UNCONFIGURED, 0 none. -/
def conflict (s : Dev) (sl : Nat) : Nat :=
  if !s.l453 sl && decide (s.hostRate sl ≠ 2) then 1
  else if !s.l453 sl && decide (s.hpLayout sl ≠ s.lpLayout sl) then 2
  else if !s.l453 sl && !(List.range 4).all (fun q => !s.lpEn sl q || decide (s.mapPort (4 * sl + q) = 4 * sl + q)) then 3
  else if (List.range 4).any (fun q => !s.lpOn (s.linePort (4 * sl + q))
      && (s.bit (Pg.LRX (4 * sl + q) + LRX.LANE_CTRL) 0 || s.bit (Pg.LTX (4 * sl + q) + LTX.TX_CTRL) 0)) then 4
  else 0

/-- A line lane is held in OFF by a conflict (R28). -/
def lineHeld (s : Dev) (n : Nat) : Bool :=
  (decide (1 ≤ s.conflict (n / 4)) && decide (s.conflict (n / 4) ≤ 3)) || !s.lpOn (s.linePort n)

/-- A host lane is held in OFF by a conflict: codes 1 to 3 only. -/
def hostHeld (s : Dev) (n : Nat) : Bool := decide (1 ≤ s.conflict (n / 4)) && decide (s.conflict (n / 4) ≤ 3)

/-- The check a slice makes when a lane is due to leave OFF (R28). -/
def sliceCheck (s : Dev) (sl : Nat) : Dev :=
  let a := Pg.SLICE sl + SLICE.SLICE_STATUS
  let old := s.fld a 0 3
  let now := s.conflict sl
  let t := s.setF a 0 3 now
  if old = 0 ∧ now ≠ 0 then t.raise (Pg.SLICE sl) 8 else t

/-- A line port is in the safe state of R58: on a page of one of its lanes or on its slice page. -/
def lineSafe (s : Dev) (p : Nat) : Bool :=
  s.inSafe (0x050 + p / 4)
    || (s.lpLanes p).any (fun n => s.inSafe (0x010 + n) || s.inSafe (0x020 + n) || s.inSafe (0x030 + n) || s.inSafe (0x090 + n))

/-- A host port is in the safe state. -/
def hostSafe (s : Dev) (p : Nat) : Bool :=
  s.inSafe (0x050 + p / 4) || (s.hpLanes p).any (fun n => s.inSafe (0x040 + n))

/-- Lane state codes, and the states of the other machines. -/
def rxState (s : Dev) (n : Nat) : Nat := s.fld (Pg.LRX n + LRX.LANE_STATE) 0 4
def txState (s : Dev) (n : Nat) : Nat := s.fld (Pg.LTX n + LTX.TX_STATE) 0 4
def hostState (s : Dev) (n : Nat) : Nat := s.fld (Pg.HOST n + HOST.HOST_STATE) 0 4
def outState (s : Dev) (sl k : Nat) : Nat := s.fld (Pg.ANA sl + ANA.OUT_STATUS + 0x10 * k) 0 3
def mmState (s : Dev) (n : Nat) : Nat := s.fld (Pg.MM n + MM.MM_STATE) 0 4
def seqState (s : Dev) (k : Nat) : Nat := s.fld (Pg.LSEQ k + LSEQ.SEQ_STATE) 0 4
def ltState (s : Dev) (n : Nat) : Nat := s.fld (Pg.LANTERN n + LANTERN.LT_STATUS) 0 3
def bootStage (s : Dev) : Nat := s.fld (Pg.BOOT + BOOT.BOOT_STATUS) 0 4
def vigilState (s : Dev) : Nat := s.fld (Pg.VIGIL + VIGIL.VIGIL_STATUS) 0 3

/-- `PLL_STATUS` locks. -/
def lpllLock (s : Dev) (sl : Nat) : Bool := s.bit (Pg.CLKRST + CLKRST.PLL_STATUS) sl
def hpllLock (s : Dev) (sl : Nat) : Bool := s.bit (Pg.CLKRST + CLKRST.PLL_STATUS) (4 + sl)

/-! ### Drops and losses (07, R242) -/

/-- A packet dropped on a line port for a reason; HBM_LIMIT and LOST raise their causes. -/
def drop (s : Dev) (port reason bytes : Nat) : Dev :=
  let a := Pg.DROP + 0x100 + 0xA0 * (port % 16) + 0x10 * (reason % 10)
  let t := (s.count48 a).count64 (a + 8) bytes
  if reason = 4 then t.raise Pg.BUF 9 else if reason = 8 then t.raise Pg.DROP 8 else t

/-- The packets a line port has revoked or lost so far, as the owning blocks count them (R483 LOST). -/
def losses (s : Dev) (port : Nat) : Nat :=
  let a := Pg.ADMIT (port / 4) + 0x100 + 0x80 * (port % 4)
  let d := Pg.DROP + 0x100 + 0xA0 * port
  ((List.range 7).map (fun i => s.wide (a + 0x20 + 8 * i))).sum + ((List.range 10).map (fun r => s.wide (d + 0x10 * r))).sum

end Dev

end Sys2Proof.Machine
end

