-- ==== Sys2Proof/Machine/Wires.lean ====
section
/-! DEFINITION. What one block does to another: fault records (19), events of the sequencers (12), records and
completions of the DMA rings (16), mailbox messages (16), waiting Lantern frames (10), the egress shares (08) and the
squelch of the line transmitters (09). -/

namespace Sys2Proof.Machine

namespace Dev

/-! ### The fault log (R483, R484) -/

/-- Registers of the fault block. -/
abbrev faultCnt (c : Nat) : Nat := Pg.DEVICE + 0x180 + 4 * c

/-- A fault of class c is detected: its counter counts, and with `LOG_EN` a record is opened unless the log is full. -/
def openFault (s : Dev) (c island : Nat) (port : Option Nat) (hostSide : Bool) (unit : Nat) : Dev :=
  let t := s.count (faultCnt c)
  if !t.bit (Pg.DEVICE + DEVICE.FAULT_CTRL) 0 then t
  else if 32 ≤ t.log.opened.length + t.log.done.length then (t.count (Pg.DEVICE + DEVICE.LOG_LOST)).raise Pg.DEVICE 10
  else
    let r : FaultRec :=
      { cls := c, island := island, port := port, hostSide := hostSide, unit := unit,
        time := BitVec.ofNat 40 t.timeBase.toNat, start := t.mono,
        lost0 := match port with | some p => t.losses p | none => 0, us := 0, outcome := 0, lost := 0 }
    { t with log := { t.log with opened := t.log.opened ++ [r] } }

/-- A record completes. Its outcome is the one given, or RECOVERED or RECOVERED_LOSS by the packets lost. -/
def completeFault (s : Dev) (r : FaultRec) (outcome : Nat) (interrupted : Bool) : Dev :=
  let lost := match r.port with | some p => s.losses p - r.lost0 | none => 0
  let o := if outcome = 0 ∧ lost ≠ 0 then 1 else outcome
  let us := if interrupted then min 0xFFFF ((s.mono - r.start) / 1000) else 0
  let r' : FaultRec := { r with us := us, outcome := o, lost := min 0xFFFFFFFF lost }
  let t := { s with log := { s.log with opened := s.log.opened.erase r, done := s.log.done ++ [r'] } }
  let t := t.raise Pg.DEVICE 8
  if o = 2 then t.raise Pg.DEVICE 9 else t

/-- The oldest open record of a class and unit completes, if there is one. -/
def closeFault (s : Dev) (c unit outcome : Nat) (interrupted : Bool) : Dev :=
  match s.log.opened.find? (fun r => r.cls == c && r.unit == unit) with
  | some r => s.completeFault r outcome interrupted
  | none => s

/-- A fault whose record completes at once. -/
def logFault (s : Dev) (c island : Nat) (port : Option Nat) (hostSide : Bool) (unit outcome : Nat) : Dev :=
  (s.openFault c island port hostSide unit).closeFault c unit outcome false

/-- The four words of a complete record (R484). -/
def faultWords (r : FaultRec) : List Word :=
  let p := match r.port with | some p => 2 ^ 15 + p % 16 * 2 ^ 8 | none => 0
  [BitVec.ofNat 32 (r.cls * 2 ^ 24 + r.island * 2 ^ 16 + p + (if r.hostSide then 2 ^ 14 else 0) + r.unit % 256),
   BitVec.ofNat 32 r.time.toNat,
   BitVec.ofNat 32 (r.us * 2 ^ 16 + r.outcome * 2 ^ 8 + r.time.toNat / 2 ^ 32),
   BitVec.ofNat 32 r.lost]

/-! ### Sequencer events (R346) -/

/-- Event e of sequencer k sets its pending bit. -/
def seqEvent (s : Dev) (k e : Nat) : Dev := s.setB (Pg.LSEQ k + LSEQ.EVENT_PEND) e true

/-- An event of lane n's sequencer. -/
def laneEvent (s : Dev) (n e : Nat) : Dev := s.seqEvent (8 + n) e

/-- An event of both loop sequencers of a slice. -/
def loopEvent (s : Dev) (sl e : Nat) : Dev := (s.seqEvent (2 * sl) e).seqEvent (2 * sl + 1) e

/-! ### DMA rings (R418–R427) -/

def ring (s : Dev) (r : Nat) : RingSt := Sparse.get (fun _ => RingSt.init) s.hif.rings r
def setRing (s : Dev) (r : Nat) (v : RingSt) : Dev :=
  { s with hif := { s.hif with rings := Sparse.put (fun _ => RingSt.init) s.hif.rings r v } }

/-- Difference of two free-running 16-bit indices. -/
def idx16 (a b : Nat) : Nat := (a + 2 ^ 16 - b % 2 ^ 16) % 2 ^ 16

def sqTail (s : Dev) (r : Nat) : Nat := s.fld (Pg.RING r + RING.SQ_TAIL) 0 16
def sqHead (s : Dev) (r : Nat) : Nat := s.fld (Pg.RING r + RING.SQ_HEAD) 0 16
def cqTail (s : Dev) (r : Nat) : Nat := s.fld (Pg.RING r + RING.CQ_TAIL) 0 16
def cqHead (s : Dev) (r : Nat) : Nat := s.fld (Pg.RING r + RING.CQ_HEAD) 0 16
def sqSize (s : Dev) (r : Nat) : Nat := 2 ^ s.fld (Pg.RING r + RING.RING_CFG) 0 4
def cqSize (s : Dev) (r : Nat) : Nat := 2 ^ s.fld (Pg.RING r + RING.RING_CFG) 8 4
/-- Completions the host has not consumed. -/
def unconsumed (s : Dev) (r : Nat) : Nat := idx16 (s.cqTail r) (s.cqHead r)
def cqFree (s : Dev) (r : Nat) : Bool := decide (s.unconsumed r < s.cqSize r)
/-- The SQ holds a descriptor not yet fetched. -/
def sqMore (s : Dev) (r : Nat) : Bool := s.sqTail r != s.sqHead r
/-- A ring runs and is not stopped. -/
def ringRuns (s : Dev) (r : Nat) : Bool :=
  s.bit (Pg.RING r + RING.RING_CTRL) 0 && !s.bit (Pg.RING r + RING.RING_STATUS) 30

/-- The message of a ring that has unconsumed completions (R427). -/
def ringMessage (s : Dev) (r : Nat) : Dev :=
  (s.sendMsix (s.fld (Pg.RING r + RING.IRQ_CFG) 16 6)).setRing r { s.ring r with waiting := true }

/-- After a completion: the message, when it is due at once or `COAL_CNT` completions wait (R427). -/
def ringInterrupt (s : Dev) (r : Nat) : Dev :=
  let a := Pg.RING r + RING.IRQ_CFG
  let cnt := s.fld a 8 8
  if s.bit a 31 && !(s.ring r).waiting
      && ((cnt == 0 && s.fld a 0 8 == 0) || (cnt != 0 && decide (cnt ≤ s.unconsumed r)))
  then s.ringMessage r else s

/-- A completion entry is written (R418, R420). -/
def complete (s : Dev) (r : Nat) (tag : Word) (length status records : Nat) (aux : Word) : Dev :=
  let st := Pg.RING r + RING.RING_STATUS
  let t := s.emit (.completion r tag length status records (s.bit st 28) aux)
  let tail := (s.cqTail r + 1) % 2 ^ 16
  let t := t.setF (Pg.RING r + RING.CQ_TAIL) 0 16 tail
  let t := if tail % s.cqSize r = 0 then t.setB st 28 (!s.bit st 28) else t
  ((t.count48 (Pg.RING r + RING.RECORDS)).raise (Pg.RING r) 8).ringInterrupt r

/-- A record met a full ring (R423). -/
def ringFull (s : Dev) (r : Nat) : Dev :=
  ((s.count (Pg.RING r + RING.FULL_EVENTS)).raise (Pg.RING r) 9).setB (Pg.RING r + RING.RING_STATUS) 29 true

/-- Least `LEN` of a ring's buffers (R421). The attestation ring's adds the certificates, whose length the descriptor
check does not know: a shorter buffer completes TRUNCATED (log entry 28). -/
def ringMin (r : Nat) (d : DmaDescriptor) : Nat :=
  match r with
  | 0 => 256
  | 1 => 64 * d.count.toNat
  | 2 => 64
  | 3 => 128
  | 4 => 288
  | 5 => 1
  | 6 => 17964
  | _ => 48

/-- A descriptor is empty, and completes at once (R419). -/
def descEmpty (r : Nat) (d : DmaDescriptor) : Bool := d.len == 0 || (r == 1 && d.count == 0)

/-- A descriptor breaks R419. -/
def descBroken (r : Nat) (d : DmaDescriptor) : Bool :=
  decide (d.addr.toNat % 64 ≠ 0) || d.reserved || (if r = 4 then decide (2 ≤ d.flags.toNat) else d.flags != 0)
    || decide (256 < d.count.toNat) || decide (d.len.toNat / 64 < d.count.toNat)
    || (d.len != 0 && decide (d.len.toNat < ringMin r d))

/-- A descriptor completes with nothing transferred: BAD_DESC, or OK when it is empty (R419). -/
def descDone (s : Dev) (r : Nat) (d : DmaDescriptor) : Dev :=
  if descBroken r d then ((s.count (Pg.RING r + RING.BAD_DESCS)).raise (Pg.RING r) 10).complete r d.tag 0 2 0 0
  else s.complete r d.tag 0 0 0 0

/-- Descriptors of that kind complete when they come to the head of those fetched, so that completions keep their order
(R420). -/
def ringSkim (s : Dev) (r : Nat) : Nat → Dev
  | 0 => s
  | n + 1 =>
    let g := s.ring r
    match g.fetched with
    | d :: rest => if descBroken r d || descEmpty r d then ((s.setRing r { g with fetched := rest }).descDone r d).ringSkim r n else s
    | [] => s

/-- The head of a ring is looked at, unless a batch, an image or a request of it is in progress. -/
def ringNext (s : Dev) (r : Nat) : Dev :=
  let g := s.ring r
  if g.work.isSome then s else s.ringSkim r g.fetched.length

/-- A buffer is completed and leaves the list of fetched ones. -/
def closeBuffer (s : Dev) (r : Nat) (aux : Word) (status : Nat) : Dev :=
  let g := s.ring r
  match g.fetched with
  | [] => s
  | d :: rest =>
    ((s.setRing r { g with fetched := rest, fill := 0, records := 0 }).complete r d.tag g.fill status g.records aux).ringNext r

/-- A ring stops: `RUNNING` clears, on `DMA` as well. -/
def ringOff (s : Dev) (r : Nat) : Dev := (s.setB (Pg.RING r + RING.RING_STATUS) 31 false).setB (Pg.DMA + DMA.DMA_STATUS) r false

/-- Every fetched descriptor completes with FLUSHED, the transmit records of the Lantern ring among them, and the ring
stops (R425). -/
def ringHalt (s : Dev) (r : Nat) : Dev :=
  let g := s.ring r
  let t := s.setRing r { RingSt.init with waiting := g.waiting }
  let t := (g.fetched.zipIdx).foldl (fun t x =>
    t.complete r x.1.tag (if x.2 = 0 then g.fill else 0) 7 (if x.2 = 0 then g.records else 0) 0) t
  let slots : List DmaDescriptor := (List.range 16).filterMap (fun n => Sparse.get (fun _ => none) g.slots n)
  let t := slots.foldl (fun t d => t.complete r d.tag 0 7 0 0) t
  let drop (l : Lantern) : Lantern := { l with waiting := l.waiting.filter (fun f => !f.ring) }
  let t := if r = 4 then { t with lt := t.lt.map (fun p => (p.1, drop p.2)) } else t
  t.ringOff r

/-- Whether the ring takes one record per buffer: Harvest, Lantern frames, or `FILL_US` at 0 (R421, R422). -/
def oneRecord (s : Dev) (r : Nat) : Bool := r == 2 || r == 4 || s.fld (Pg.RING r + RING.RING_CFG) 24 8 == 0

/-- A record written to the open buffer, which the caller knows to be there. -/
def writeRecord (s : Dev) (r : Nat) (bytes : List Byte) (aux : Word) : Dev :=
  let g := s.ring r
  match g.fetched with
  | [] => s
  | d :: _ =>
    let room := d.len.toNat - g.fill
    let t := s.emit (.dmaWrite r (d.addr + BitVec.ofNat 64 g.fill) (bytes.take room))
    let n := min bytes.length room
    let t := t.setRing r { t.ring r with fill := g.fill + n, records := g.records + 1 }
    if room < bytes.length then t.closeBuffer r aux 1
    else if s.oneRecord r then t.closeBuffer r aux 0 else t

/-- A record for a device-filled ring: it goes to the open buffer, or, when it does not fit behind earlier records,
that buffer completes and the next takes it; it waits while the SQ holds a descriptor not yet fetched. The flag says
whether the ring took it (R422, R423). -/
def place (s : Dev) (r : Nat) (bytes : List Byte) (aux : Word) : Dev × Bool :=
  if !s.ringRuns r || !s.hif.busMaster || !s.cqFree r then (s.ringFull r, false)
  else
    let g := s.ring r
    let t := match g.fetched with
      | d :: _ => if g.fill ≠ 0 ∧ d.len.toNat < g.fill + bytes.length then s.closeBuffer r aux 0 else s
      | [] => s
    if (t.ring r).fetched.isEmpty then
      if t.sqMore r then (t.setRing r { t.ring r with held := (t.ring r).held ++ [(bytes, aux)] }, true) else (t.ringFull r, false)
    else (t.writeRecord r bytes aux, true)

/-- Whether a record would be refused (R423). -/
def ringIsFull (s : Dev) (r : Nat) : Bool :=
  !s.ringRuns r || !s.hif.busMaster || !s.cqFree r || ((s.ring r).fetched.isEmpty && !s.sqMore r)

/-! ### Mailboxes (R430–R439) -/

/-- Endpoint of a master (16). -/
def endpoint : Master → Option Nat
  | .host => some 0
  | .bmc => some 1
  | .mc => some 2
  | .jtag => none
  | .loopSeq m => some (3 + m.val)
  | .laneSeq n => some (11 + n.val)

/-- Master ID of an endpoint. -/
def endpointId (e : Nat) : Nat := if e < 3 then e + 1 else if e < 11 then 0x10 + (e - 3) else 0x20 + (e - 11)

/-- Endpoint of a master ID, JTAG and unassigned IDs having none. -/
def endpointOf (id : Nat) : Option Nat := (masterOf id).bind endpoint

/-- Slots of an inbox. -/
def inboxSize (e : Nat) : Nat := if e = 0 then 32 else 8

/-- The `MBX` page of an endpoint, and its block of registers on it. -/
def mbxPage (e : Nat) : Nat := if e < 3 then 0 else if e < 11 then 1 else if e < 19 then 2 else 3
def mbxIndex (e : Nat) : Nat := if e < 3 then e else if e < 11 then e - 3 else if e < 19 then e - 11 else e - 19
def mbxBlock (e : Nat) : Nat := Pg.MBX (mbxPage e) + 0x20 * mbxIndex e

def inbox (s : Dev) (e : Nat) : List Msg := Sparse.get (fun _ => []) s.mbx.inbox e
def setInbox (s : Dev) (e : Nat) (l : List Msg) : Dev :=
  { s with mbx := { s.mbx with inbox := Sparse.put (fun _ => []) s.mbx.inbox e l } }

/-- `ROLE_EPOCH` of an endpoint. -/
def epoch (s : Dev) (e : Nat) : BitVec 16 :=
  if e < 3 then Sparse.get (fun _ => 0) s.mbx.epochs e else BitVec.ofNat 16 (s.fld (Pg.LSEQ (e - 3) + LSEQ.ROLE_EPOCH) 0 16)

/-- The epoch of the host, BMC or controller steps (R430). -/
def bumpEpoch (s : Dev) (e : Nat) : Dev :=
  { s with mbx := { s.mbx with epochs := Sparse.put (fun _ => 0) s.mbx.epochs e (s.epoch e + 1) } }

def seqNo (s : Dev) (e : Nat) : BitVec 15 := Sparse.get (fun _ => 0) s.mbx.seqNo e

/-- The 80-bit header of a message, with its stale bit (R430, R435). -/
def header (m : Msg) (stale : Bool) : BitVec 80 :=
  BitVec.ofNat 80 (m.sender.toNat * 2 ^ 72 + m.epoch.toNat * 2 ^ 56 + (if stale then 2 ^ 55 else 0)
    + m.seq.toNat * 2 ^ 40 + m.time.toNat)

/-- An overflow record of ring 7 (R433). -/
def overflowRecord (m : Msg) : List Byte :=
  bytesLE 10 (header m false).toNat ++ List.replicate 6 0 ++ m.words.flatMap (fun w => bytesLE 4 w.toNat)

/-- A send is refused: it counts, and records the destination (R432). -/
def rejectSend (s : Dev) (e dest : Nat) : Dev :=
  let t := (s.count (mbxBlock e + MBX.SEND_REJECTS)).wr (mbxBlock e + MBX.LAST_REJECT) (BitVec.ofNat 32 (2 ^ 31 + dest % 256))
  let t := t.raise (Pg.MBX (mbxPage e)) 10
  { t with mbx := { t.mbx with reject := Sparse.put (fun _ => none) t.mbx.reject e (endpointOf dest) } }

/-- A send is accepted: the sender's sequence number steps and its last rejection is followed (R430, R439). -/
def acceptSend (s : Dev) (e : Nat) : Dev :=
  { s with mbx := { s.mbx with seqNo := Sparse.put (fun _ => 0) s.mbx.seqNo e (s.seqNo e + 1),
                               reject := Sparse.put (fun _ => none) s.mbx.reject e none } }

/-- A message or doorbell for a sequencer powers its island up (R437). -/
def powerUp (s : Dev) (e : Nat) : Dev :=
  if 3 ≤ e then { s with isl := { s.isl with unpowered := Sparse.put (fun _ => false) s.isl.unpowered 59 false } } else s

/-- A message arrives in an inbox: the host's, BMC's and controller's set MSG, a sequencer's the MBX event. -/
def deliver (s : Dev) (e : Nat) (m : Msg) : Dev :=
  let t := (s.setInbox e (s.inbox e ++ [m])).powerUp e
  if e < 3 then t.raise (Pg.MBX 0) 8 else t.seqEvent (e - 3) 1

/-- A send by endpoint e: the result is 0 OK, 1 FULL or 2 BAD_DEST, with the number given (R431–R433). -/
def send (s : Dev) (e dest : Nat) (words : List Word) : Dev × Nat × Nat :=
  match endpointOf dest with
  | none => (s.rejectSend e dest, 2, 0)
  | some d =>
    if d = e then (s.rejectSend e dest, 2, 0)
    else
      let m : Msg := { sender := BitVec.ofNat 8 (endpointId e), epoch := s.epoch d, seq := s.seqNo e,
                       time := BitVec.ofNat 40 s.timeBase.toNat, words := words, at_ := s.mono }
      if (s.inbox d).length < inboxSize d then ((s.deliver d m).acceptSend e, 0, m.seq.toNat)
      else if d = 0 ∧ s.bit (Pg.MBX 0 + MBX.OVF_CTRL) 0 = true then
        let t := s.place 7 (overflowRecord m) 0
        if t.2 then (t.1.acceptSend e, 0, m.seq.toNat) else (t.1.rejectSend e dest, 1, 0)
      else (s.rejectSend e dest, 1, 0)

/-- A message at the head of an inbox is delivered: its header with `STALE` (R435). -/
def deliverHead (s : Dev) (e : Nat) : Dev × Option (BitVec 80 × List Word) :=
  match s.inbox e with
  | [] => (s, none)
  | m :: _ =>
    let stale := m.epoch != s.epoch e
    let t := s.count (mbxBlock e + MBX.RX_MSGS)
    ((if stale then t.count (mbxBlock e + MBX.STALE_MSGS) else t), some (header m stale, m.words))

/-- A doorbell written by endpoint e toward endpoint r (R438). -/
def doorbell (s : Dev) (e r : Nat) (v : Word) : Dev :=
  let k := 32 * e + r
  let n := Sparse.get (fun _ => 0) s.mbx.dbCnt k
  let t := { s with mbx := { s.mbx with dbVal := Sparse.put (fun _ => 0) s.mbx.dbVal k v,
                                        dbCnt := Sparse.put (fun _ => 0) s.mbx.dbCnt k (min 0xFFFF (n + 1)) } }
  if r < 3 then t else (t.powerUp r).seqEvent (r - 3) 2

/-- A read of `DB_RX_VAL[e]` by the receiver r: the count is copied and the live count zeroed (R438). -/
def readDoorbell (s : Dev) (e r : Nat) : Dev × Word :=
  let k := 32 * e + r
  let n := Sparse.get (fun _ => 0) s.mbx.dbCnt k
  ({ s with mbx := { s.mbx with dbRead := Sparse.put (fun _ => 0) s.mbx.dbRead k n,
                                dbCnt := Sparse.put (fun _ => 0) s.mbx.dbCnt k 0 } },
   Sparse.get (fun _ => 0) s.mbx.dbVal k)

/-! ### Lantern frames waiting to be sent (R310, R312) -/

def ltn (s : Dev) (n : Nat) : Lantern := Sparse.get (fun _ => Lantern.init) s.lt n
def setLtn (s : Dev) (n : Nat) (v : Lantern) : Dev := { s with lt := Sparse.put (fun _ => Lantern.init) s.lt n v }

/-- Frames a lane holds of a type (R312). -/
def ltCap (type : Nat) : Nat :=
  match type with
  | 0x03 => 4
  | 0x04 => 2
  | 0x05 => 8
  | _ => 1

/-- A waiting frame is discarded (R312). -/
def ltDiscard (s : Dev) (n : Nat) : Dev := (s.count (Pg.LANTERN n + LANTERN.TX_DROPPED)).raise (Pg.LANTERN n) 17

/-- A frame is queued; one whose queue is full is discarded, except that an IDENTITY replaces the waiting one. -/
def ltQueue (s : Dev) (n type : Nat) (payload : List Byte) : Dev :=
  let l := s.ltn n
  let f : LtFrame := { type := type, payload := payload, since := s.mono, ring := false, raw := none }
  if (l.waiting.filter (fun x => x.type == type && !x.ring)).length < ltCap type then s.setLtn n { l with waiting := l.waiting ++ [f] }
  else if type = 0x01 then
    (s.setLtn n { l with waiting := l.waiting.filter (fun x => x.type != type || x.ring) ++ [f] }).ltDiscard n
  else s.ltDiscard n

/-- The transmit record of a lane is done with: its slot is free and its descriptor completes (R424). -/
def ringTxDone (s : Dev) (n status : Nat) : Dev :=
  let g := s.ring 4
  match Sparse.get (fun _ => none) g.slots n with
  | none => s
  | some d =>
    (s.setRing 4 { g with slots := Sparse.put (fun _ => none) g.slots n none }).complete 4 d.tag 288 status 1 (BitVec.ofNat 32 n)

/-- All waiting frames are discarded (R312). -/
def ltFlush (s : Dev) (n : Nat) : Dev :=
  let l := s.ltn n
  let t := l.waiting.foldl (fun t _ => t.ltDiscard n) (s.setLtn n { l with waiting := [] })
  if l.waiting.any (fun f => f.ring) then t.ringTxDone n 8 else t

/-- The IDENTITY payload of a lane (10, Messages). -/
def identityPayload (s : Dev) (n : Nat) : List Byte :=
  let p := s.linePort n
  let uid := if s.bit (Pg.LANTERN n + LANTERN.LT_CTRL) 6 then List.replicate 16 0
    else (s.rdWords (Pg.BOOT + BOOT.ALM_UID) 4).reverse.flatMap wordBytesBE
  [0x68, 0x16] ++ bytesBE 2 (s.fld (Pg.DEVICE + DEVICE.SILICON_REV) 0 16) ++ uid
    ++ [BitVec.ofNat 8 p, BitVec.ofNat 8 ((n - p) * 16 + s.lpWidth p), (if s.l453 (n / 4) then 1 else 2),
        (if s.typeE (n / 4) then 1 else 0)]
    ++ bytesBE 4 (s.rd (Pg.BOOT + BOOT.FW_VERSION)).toNat ++ [0x00, 0x0F, 0, 0]

/-- An IDENTITY frame is queued in hardware mode (R310). -/
def ltIdentity (s : Dev) (n : Nat) : Dev :=
  if s.assisted (Pg.LANTERN n) then s else s.ltQueue n 0x01 (s.identityPayload n)

/-- A FAULT frame for a lane, in hardware mode (R310, Messages). -/
def ltFault (s : Dev) (n code : Nat) (raised : Bool) : Dev :=
  if s.assisted (Pg.LANTERN n) then s
  else
    let l := s.ltn n
    let off := n - s.linePort n
    let body := [BitVec.ofNat 8 (off * 16), BitVec.ofNat 8 code, (if raised then 1 else 0), 0] ++ bytesBE 4 l.report.toNat
    (s.setLtn n { l with report := l.report + 1 }).ltQueue n 0x05 body

/-- A FAULT frame for every lane of a line port. -/
def ltPortFault (s : Dev) (p code : Nat) (raised : Bool) : Dev :=
  (s.lpLanes p).foldl (fun t n => t.ltFault n code raised) s

/-- A WARM frame when the lane leaves WARM_RESTART, in hardware mode (R310, Messages). -/
def ltWarm (s : Dev) (n outcome us : Nat) : Dev :=
  if s.assisted (Pg.LANTERN n) then s
  else s.ltQueue n 0x04 ([BitVec.ofNat 8 ((n - s.linePort n) * 16), BitVec.ofNat 8 outcome] ++ bytesBE 2 (min us 0xFFFF))

/-- A receive record placed on the Lantern ring, or refused by a full one (R314). -/
def ltPlace (s : Dev) (n : Nat) (record : List Byte) : Dev :=
  let t := s.place 4 record (BitVec.ofNat 32 n)
  if t.2 then t.1.raise (Pg.LANTERN n) 8 else t.1.count (Pg.LANTERN n + LANTERN.RX_RING_FULL)

/-! ### Egress shares (R260, R261, R265) -/

def share (s : Dev) (p : Nat) : Share := Sparse.get (fun _ => Share.init) s.eg.shares p
def setShare (s : Dev) (p : Nat) (v : Share) : Dev :=
  { s with eg := { s.eg with shares := Sparse.put (fun _ => Share.init) s.eg.shares p v } }

/-- Cells of 64 bytes a frame occupies, and the fill of a share in cells. -/
def cells (len : Nat) : Nat := (len + 63) / 64
def fillCells (x : Share) : Nat := (x.frames.map (fun f => cells f.len)).sum

/-- Registers of a line port's egress block. -/
abbrev egBase (p : Nat) : Nat := Pg.SLICE (p / 4) + 0x20 * (p % 4)

/-- A share after its fill changed: it enters XOFF above `EG_XOFF` KiB and leaves it below `EG_XON` (R261). -/
def shareUpdate (s : Dev) (p : Nat) : Dev :=
  let x := s.share p
  let fill := fillCells x * 64
  if !x.xoff && decide (s.fld (egBase p + SLICE.EG_XOFF) 0 13 * 1024 < fill) then
    (s.setShare p { x with xoff := true }).count (egBase p + SLICE.EG_XOFF_EVENTS)
  else if x.xoff && decide (fill < s.fld (egBase p + SLICE.EG_XON) 0 13 * 1024) then s.setShare p { x with xoff := false }
  else s

/-- The asserted priority set P of a slice (R261). -/
def asserted (s : Dev) (sl : Nat) : Nat :=
  (List.range 4).foldl (fun a q => if (s.share (4 * sl + q)).xoff then a ||| s.fld (egBase (4 * sl + q) + SLICE.EG_PRI) 0 8 else a) 0

/-- A line port goes down: its frames are discarded as PORT_DOWN, each counted for the slice of the host lane that
carried it, and the share leaves XOFF (R243, R265). -/
def dropShare (s : Dev) (p : Nat) : Dev :=
  let x := s.share p
  x.frames.foldl (fun t f => t.count48 (Pg.DROP + DROP.EG_PORT_DOWN + 0x10 * (f.host / 4 % 4))) (s.setShare p Share.init)

/-! ### Transmitters and their squelch (R282–R285) -/

/-- A line port is in the down state of R136. -/
def portHeld (s : Dev) (p : Nat) : Bool := (s.lpLanes p).any (fun n => s.bit (Pg.LFEC n + LFEC.ALIGN_STATUS) 7)

/-- The squelch causes present on a line port, as `SQ_CAUSE` bits; bit 4 is seen by each lane from the others. -/
def squelchCauses (s : Dev) (p n : Nat) : Nat :=
  let ls := s.lpLanes p
  let b (i : Nat) (c : Bool) := if c then 2 ^ i else 0
  b 0 (ls.any (fun i => s.bit (Pg.LTX i + LTX.TX_CTRL) 2)) + b 1 (s.lineSafe p) + b 2 (!s.lpllLock (p / 4))
    + b 3 (s.portHeld p && ls.any (fun i => s.bit (Pg.LTX i + LTX.TX_CTRL) 3))
    + b 4 (ls.any (fun i => i != n && (s.txState i == 0 || s.txState i == 3)))

/-- A port leaves SEND: a frame that is on the line is cut short, and counts on the port's first lane (R283). -/
def cutFrame (s : Dev) (p : Nat) : Dev :=
  let f := Sparse.get (fun _ => (0, 0)) s.eg.onLine p
  let t := { s with eg := { s.eg with onLine := Sparse.put (fun _ => (0, 0)) s.eg.onLine p (0, 0) } }
  if s.mono < f.1 + f.2 then t.count (Pg.LTX p + LTX.TX_ABORTED) else t

/-- The directory's entry of a type and copy, the first one that names them (15, R395). -/
def dirEntry (s : Dev) (type copy : Nat) : Option DirEntry := s.sec.dir.find? (fun e => e.type == type && e.copy == copy)

/-- Microseconds since an instant. -/
def usSince (s : Dev) (t : Nat) : Word := BitVec.ofNat 32 ((s.mono - t) / 1000)

/-- What ends the target under test early: the first such cause stands until it ends (18, R467). -/
def testLoss (s : Dev) (cause : Nat) : Dev :=
  if s.test.cur.isSome && s.test.lost == 0 then { s with test := { s.test with lost := cause } } else s

/-- A transmitter changes state (R282): the state left is recorded and the change flagged. -/
def setTx (s : Dev) (n st : Nat) : Dev :=
  let a := Pg.LTX n + LTX.TX_STATE
  let s := if s.txState n = 2 ∧ st ≠ 2 then s.cutFrame (s.linePort n) else s
  let t := ((s.setF a 4 4 (s.txState n)).setF a 0 4 st).raise (Pg.LTX n) 8
  let unfit := t.cal.run.head? == some (2 * n + 1) && !(st == 1 || st == 2)
  let t := { t with cal := { t.cal with kept := t.cal.kept.filter (· != 2 * n + 1), unfit := t.cal.unfit || unfit } }
  t.laneEvent n 10

/-- A Lantern frame on the air stops when the transmitter leaves SEND (R311). -/
def ltStop (s : Dev) (n : Nat) : Dev :=
  let l := s.ltn n
  match l.onAir with
  | some _ => (s.setLtn n { l with onAir := none }).count (Pg.LANTERN n + LANTERN.TX_ABORTED)
  | none => s

/-- The port's transmitter sends Remote Fault (R128). -/
def sendsRf (s : Dev) (p : Nat) : Bool :=
  (s.lpLanes p).any (fun n => s.bit (Pg.LFEC n + LFEC.FEC_CTRL) 11
    && (s.portHeld p || !s.bit (Pg.LFEC n + LFEC.ALIGN_STATUS) 2))

/-- Remote Fault begins or ends on a port's line (R128). -/
def rfUpdate (s : Dev) (p : Nat) : Dev :=
  let on := s.sendsRf p && (s.lpLanes p).all (fun n => s.txState n == 2)
  if Sparse.get (fun _ => false) s.eg.rfSent p = on then s
  else { s with eg := { s.eg with rfSent := Sparse.put (fun _ => false) s.eg.rfSent p on } }.emit (.linkFault p on)

/-- A line port is down for egress (R285). -/
def egressDown (s : Dev) (p : Nat) : Bool :=
  (s.lpLanes p).any (fun n => s.txState n != 2) || s.portHeld p || s.sendsRf p

/-- One lane of a port reacts to the squelch causes: SEND goes to SQUELCH (R282). -/
def txLane (s : Dev) (p n : Nat) : Dev :=
  if s.txState n = 2 ∧ s.squelchCauses p n ≠ 0 then
    ((s.setTx n 1).count (Pg.LTX n + LTX.SQUELCH_COUNT)).ltStop n
  else s

/-- After an event that may bear on a port's transmitter: squelch, then the discard of a port that is down (R283,
R285). -/
def txUpdate (s : Dev) (p : Nat) : Dev :=
  let t := ((s.lpLanes p).foldl (fun t n => t.txLane p n) s).rfUpdate p
  if t.egressDown p then t.dropShare p else t

/-- A transmitter goes to OFF: its applied pilot depth falls to 0, its waiting Lantern frames go (R282, R286, R312). -/
def txOff (s : Dev) (n st : Nat) : Dev :=
  let t := if s.txState n = st then s else s.setTx n st
  let t := (t.ltStop n).ltFlush n
  (t.setF (Pg.LTX n + LTX.PILOT_STATUS) 0 6 0).txUpdate (s.linePort n)

end Dev

end Sys2Proof.Machine
end

