-- ==== Sys2Proof/Machine/LineSend.lean ====
section
/-! DEFINITION. What a line port sends: frames and idles as the codewords of its FEC flows (04, R109–R113, R125, R137), and
each lane's symbols as DAC samples with the Lantern pilot (09, R276; 10, R292, R293). -/

namespace Sys2Proof.Machine

/-- Symbols per second of a rate code (10, `RATE`). -/
def ltBaud (rate : Nat) : Nat := match rate with | 0 => 15625 | 1 => 31250 | 2 => 62500 | _ => 20000

namespace Dev

def txl (s : Dev) (n : Nat) : TxLane := Sparse.get (fun _ => TxLane.init) s.tx n
def setTxl (s : Dev) (n : Nat) (v : TxLane) : Dev := { s with tx := Sparse.put (fun _ => TxLane.init) s.tx n v }

/-! ### The pilot (R292, R293) -/

/-- A lane's symbol rate in 10^9 per second, as a ratio: 680/3 on L453, 425/4 on L212. -/
def symRate (s : Dev) (n : Nat) : Nat × Nat := if s.l453 (n / 4) then (680, 3) else (425, 4)

/-- Symbols the lane's clock has counted. -/
def symNow (s : Dev) (n : Nat) : Nat := s.mono * (s.symRate n).1 / (s.symRate n).2

/-- Subcarrier phase at a tick of 64 symbols: the accumulator has run on from where it was settled (R292). -/
def ncoPhase (s : Dev) (n tick : Nat) : Nat :=
  let l := s.ltn n
  let f := ncoIncrement (s.fld (Pg.LANTERN n + LANTERN.SUB_FREQ) 0 20) ((s.symRate n).1 * 10 ^ 9) (s.symRate n).2
  (l.ncoPhase.toNat + (tick - l.ncoAt) * f.toNat) % 2 ^ 40

/-- The accumulator is settled: before `SUB_FREQ` changes it holds its phase, and it starts at 0 as the transmitter leaves
OFF (DESIGN CHOICE, log entry 66). -/
def ncoSettle (s : Dev) (n : Nat) (zero : Bool) : Dev :=
  let tick := s.symNow n / 64
  s.setLtn n { s.ltn n with ncoPhase := if zero then 0 else BitVec.ofNat 40 (s.ncoPhase n tick), ncoAt := tick }

/-- The pilot p(n) at a tick, in units of 1 / (131,071 × 2^96): 0 while no frame is on the air (R276, R292, R293). -/
def pilot (s : Dev) (n : Nat) (tick : Nat) : Int :=
  let l := s.ltn n
  match l.onAir with
  | none => 0
  | some f =>
    let inc := ncoIncrement (ltBaud (s.fld (Pg.LANTERN n + LANTERN.LT_CTRL) 4 2)) ((s.symRate n).1 * 10 ^ 9) (s.symRate n).2
    let acc := (tick - l.airAt) * inc.toNat
    let signs := lanternSigns f
    let k := acc / 2 ^ 40
    let b := signs.getD k 0
    let a := if k = 0 then 0 else signs.getD (k - 1) 0
    sineEntry (s.ncoPhase n tick / 2 ^ 28) * envelopeFix a b (acc % 2 ^ 40)

/-! ### Samples (R276) -/

/-- Levels and pre-distortion entries, signed bytes of registers. -/
def signedBytes (s : Dev) (a words : Nat) : List Int := (s.rdWords a words).flatMap (fun w => (List.range 4).map (fun b => signedOf 8 (fieldOf w (8 * b) 8)))

/-- A run of symbols of a lane: its samples leave at the DAC, and those clipped count. The last three wait for the symbols
that follow. -/
def sendSymbols (s : Dev) (n : Nat) (syms : List (Fin 4)) : Dev :=
  let b := Pg.LTX n
  let x := s.txl n
  let level := (s.signedBytes (b + LTX.LEVEL) 1).toArray
  let pd := (s.signedBytes (b + LTX.PD_TABLE) 64).toArray
  let taps := (List.range 9).map (fun k => signedOf 10 (s.fld (b + LTX.TX_TAP + 4 * k) 0 10))
  let ys := x.ys ++ txPlaces (fun i => level.getD i 0) (fun i => pd.getD i 0) (s.bit (b + LTX.PD_CTRL) 0) x.syms syms
  let n' := ys.length - 8
  let tick := s.symNow n / 64
  let pilots := (List.range (n' / 64 + 1)).flatMap (fun i => List.replicate 64 (s.pilot n (tick + i)))
  let depth := s.fld (b + LTX.PILOT_STATUS) 0 6
  let out := List.zipWith (fun z p => txSample z depth p (s.bit (b + LTX.TX_CTRL) 1)) (txFilter taps n' ys) pilots
  let clips := (out.filter (fun q => q.2)).length
  let last := syms.reverse ++ [x.syms.1, x.syms.2.1, x.syms.2.2]
  let t := s.setTxl n { x with syms := (last.getD 0 0, last.getD 1 0, last.getD 2 0), ys := ys.drop n' }
  let t := t.emit (.lineSamples n (out.map Prod.fst))
  if clips = 0 then t else (t.count48 (b + LTX.CLIPS) clips).raise b 11

/-! ### Flows (R109–R113, R125) -/

/-- Flows of a port: one for each lane of L453, one for every two lanes of L212. -/
def portFlows (s : Dev) (p : Nat) : Nat := if s.l453 (p / 4) then s.lpWidth p else (s.lpWidth p + 1) / 2

/-- Lanes that carry flow j of a port: on L453 its lane j, on L212 up to two lanes. -/
def lanesOf (s : Dev) (p j : Nat) : List Nat :=
  if s.l453 (p / 4) then [p + j] else ((s.lpLanes p).drop (2 * j)).take 2

def pcsFlow (s : Dev) (n : Nat) : PcsFlow := Sparse.get (fun _ => PcsFlow.init) s.eg.pcs n
def setPcsFlow (s : Dev) (n : Nat) (v : PcsFlow) : Dev :=
  { s with eg := { s.eg with pcs := Sparse.put (fun _ => PcsFlow.init) s.eg.pcs n v } }

/-- The next codeword pairs of a flow, for FEC lanes of a number and 66-bit blocks that fill them. -/
def flowPairs (rate j lanes : Nat) (deg : Bool) : Nat → PcsFlow → List PcsBlock → PcsFlow × List (List Gf)
  | 0, f, _ => (f, [])
  | k + 1, f, l =>
    let r := f.room rate
    let q := f.pair rate j lanes deg (l.take r)
    let t := flowPairs rate j lanes deg k q.1 (l.drop r)
    (t.1, q.2 :: t.2)

/-- Room for 66-bit blocks in the next pairs of a flow. -/
def flowRoom (rate : Nat) : Nat → PcsFlow → Nat
  | 0, _ => 0
  | k + 1, f => f.room rate + flowRoom rate k { f with pairs := f.pairs + 1 }

/-- Pairs that a port sends at a time: the three of a block of L453, one of L212 (R113, R284). -/
def unitPairs (s : Dev) (p : Nat) : Nat := if s.l453 (p / 4) then 3 else 1

/-- The local-degraded indication goes out on a flow: a lane of it is degraded and `DEG_AM_TX` is 1 (R137). -/
def sendsDegraded (s : Dev) (p j : Nat) : Bool :=
  (s.lanesOf p j).any (fun n => s.bit (Pg.LFEC n + LFEC.ALIGN_STATUS) 5 && s.bit (Pg.LFEC n + LFEC.FEC_CTRL) 10)

/-- The symbols of a lane on L212, precoded while `PRECODE_TX` is 1 (R125, R126). -/
def sendPrecoded (s : Dev) (n : Nat) (syms : List (Fin 4)) : Dev :=
  let on := s.bit (Pg.LFEC n + LFEC.FEC_CTRL) 9
  let out := if on then precode (s.txl n).last syms else syms
  (s.setTxl n { s.txl n with last := out.getLastD 0 }).sendSymbols n out

/-- Flow j of a port sends pairs of codewords on its lanes: on L453 as interleave groups of the inner code, on L212 eight FEC
lanes multiplexed on a lane. -/
def sendPairs (s : Dev) (p j : Nat) (pairs : List (List Gf)) : Dev :=
  if s.l453 (p / 4) then
    s.sendSymbols (p + j) ((bitGroups 68 (symbolBits pairs.flatten)).flatMap groupSymbols)
  else
    let lanes := s.lanesOf p j
    lanes.zipIdx.foldl (fun t q => t.sendPrecoded q.1 (pairs.flatMap (muxLane (8 * lanes.length) (8 * q.2)))) s

/-- Flow j of a port sends the next unit with its share of some blocks. -/
def sendFlow (s : Dev) (p j : Nat) (blocks : List PcsBlock) : Dev :=
  let rate := s.lpRate p
  let lanes := if s.l453 (p / 4) then 16 else 8 * (s.lanesOf p j).length
  let r := flowPairs rate j lanes (s.sendsDegraded p j) (s.unitPairs p) (s.pcsFlow (p + j)) (dealTo (s.portFlows p) j blocks)
  (s.setPcsFlow (p + j) r.1).sendPairs p j r.2

/-- Units until all of a list of blocks is sent. Idles fill what is left, Remote Fault where the port signals it (R128). -/
def sendUnits (s : Dev) (p : Nat) : Nat → List PcsBlock → Dev
  | 0, _ => s
  | k + 1, blocks =>
    let room := s.portFlows p * flowRoom (s.lpRate p) (s.unitPairs p) (s.pcsFlow p)
    let fill := if s.sendsRf p then pcsRemoteFault else pcsIdle
    let now := blocks.take room ++ List.replicate (room - blocks.length) fill
    let t := (List.range (s.portFlows p)).foldl (fun t j => t.sendFlow p j now) s
    if blocks.length ≤ room then t else t.sendUnits p k (blocks.drop room)

/-- A port sends blocks: as many units as they need, at least one. -/
def lineSend (s : Dev) (p : Nat) (blocks : List PcsBlock) : Dev := s.sendUnits p (blocks.length / 128 + 1) blocks

end Dev

end Sys2Proof.Machine
end

