-- ==== Sys2Proof/Machine/Modules.lean ====
section
/-! DEFINITION. Pluggable module ports: states, polls, isolation and transactions (11, R334–R340). -/

namespace Sys2Proof.Machine

/-! ### What a poll has read, by the locations of R335 -/

namespace Poll

/-- A byte of the lower page, and byte 128 + i of an upper page. -/
def low (p : ModulePoll) (i : Nat) : Byte := p.lower.getD i 0
def up (page : List Byte) (i : Nat) : Byte := page.getD (i - 128) 0

def flat (p : ModulePoll) : Bool := (low p 2).getLsbD 7
def state (p : ModulePoll) : Nat := (low p 3).toNat / 2 % 8
def modFlags (p : ModulePoll) : Word := wordBE (p.lower.drop 8) 0

/-- `MOD_MON`: temperature and supply voltage. -/
def monitor (p : ModulePoll) : Word := wordBE (p.lower.drop 14) 0

/-- Bytes 128 to 221 of page 00h add up to its checksum, byte 222. -/
def checksumOk (p : ModulePoll) : Bool := ((p.page00.take 94).map (fun b => b.toNat)).sum % 256 == (up p.page00 222).toNat

def laneFlags (p : ModulePoll) : List Word := (List.range 5).map (wordBE (p.page11.drop 6))

/-- `LANE_MON[j]`. CMIS has the Tx optical power of lane j + 1 in bytes 154 + 2j of page 11h and its Rx power in bytes
186 + 2j (PRESUMED, log entry 83). -/
def laneMon (p : ModulePoll) : List Word :=
  (List.range 4).map (fun j => BitVec.ofNat 32 (natBE (slice p.page11 (58 + 2 * j) 2) * 2 ^ 16 + natBE (slice p.page11 (26 + 2 * j) 2)))

/-- Module lanes whose data path is Activated, code 4 of CMIS, from lane 1. -/
def activated (p : ModulePoll) : Nat :=
  ((List.range 8).map (fun j => if (up p.page11 (128 + j / 2)).toNat / 16 ^ (j % 2) % 16 = 4 then 2 ^ j else 0)).sum

end Poll

namespace Dev

def mmo (s : Dev) (n : Nat) : Module := Sparse.get (fun _ => Module.init) s.mm n
def setMmo (s : Dev) (n : Nat) (v : Module) : Dev := { s with mm := Sparse.put (fun _ => Module.init) s.mm n v }

/-- A port changes state (R336). -/
def setMm (s : Dev) (n st : Nat) : Dev :=
  let a := Pg.MM n + MM.MM_STATE
  ((s.setF a 4 4 (s.mmState n)).setF a 0 4 st).raise (Pg.MM n) 8

/-- The port is in RAW: host-assisted mode, or a Type E slice (R340). -/
def mmRaw (s : Dev) (n : Nat) : Bool := s.assisted (Pg.MM n) || s.typeE (n / 4)

/-- The pins of a RAW port (R340). -/
def mmRawPins (s : Dev) (n : Nat) : Dev :=
  if s.typeE (n / 4) then s.setMmo n { s.mmo n with resetN := true, lpMode := false }
  else s.setMmo n { s.mmo n with resetN := !s.bit (Pg.MM n + MM.MM_CTRL) 5, lpMode := s.bit (Pg.MM n + MM.MM_CTRL) 4 }

/-- The module is held in reset, in low power. -/
def mmHold (s : Dev) (n : Nat) : Dev := s.setMmo n { Module.init with recover := (s.mmo n).recover }

/-- A host transaction runs on a port. -/
def xferBusy (s : Dev) (n : Nat) : Bool := s.bit (Pg.MM n + MM.XFER_STATUS) 29

/-- The port after a change of its configuration, attach type or mode: IDLE, RAW, or EMPTY to identify afresh (R336,
R340). A transaction in progress completes in the mode it began in, and the change follows its end (R19). -/
def mmConfig (s : Dev) (n : Nat) : Dev :=
  let st := s.mmState n
  if !s.lpOn n then (if st = 0 then s else (s.setMm n 0).mmHold n)
  else if s.xferBusy n && s.mmRaw n != (st == 9) then s
  else if s.mmRaw n then (if st = 9 then s else s.setMm n 9).mmRawPins n
  else if st = 0 ∨ st = 9 then (s.setMm n 1).mmHold n
  else s

/-- A write the device makes to the module on its own (R335): a byte of the lower page or of a page of bank 0. -/
def mmPoke (s : Dev) (n : Nat) (page : Option Byte) (offset : Nat) (v : Byte) : Dev :=
  let t := match page with
    | some p => s.emit (.moduleXfer n true 0x50 126 2 [0, p])
    | none => s
  t.emit (.moduleXfer n true 0x50 offset 1 [v])

/-- A lane of line port n is enabled. -/
def mmWanted (s : Dev) (n : Nat) : Bool :=
  (s.lpLanes n).any (fun i => s.bit (Pg.LRX i + LRX.LANE_CTRL) 0 || s.bit (Pg.LTX i + LTX.TX_CTRL) 0)

/-- Bits of the lanes 1 to w of the module. -/
def mmLaneMask (s : Dev) (n : Nat) : Nat := 2 ^ s.lpWidth n - 1

/-- LOW_POWER and READY follow the enables of the port's lanes (R336). -/
def mmUpdate (s : Dev) (n : Nat) : Dev :=
  let st := s.mmState n
  if st = 4 ∧ s.mmWanted n = true then
    ((s.setMm n 5).setMmo n { s.mmo n with lpMode := false, dpInit := false }).mmPoke n none 26 0
  else if st = 6 ∧ s.mmWanted n = false then
    let t := (s.setMm n 4).setMmo n { s.mmo n with lpMode := true }
    let t := if t.bit (Pg.MM n + MM.MOD_ID) 16 then t else t.mmPoke n (some 0x10) 128 (BitVec.ofNat 8 (t.mmLaneMask n))
    t.mmPoke n none 26 0x10
  else s

/-- MODULE_FAULT (R336; 19, class 0x0E). -/
def mmFault (s : Dev) (n : Nat) : Dev := (s.setMm n 7).logFault 14 60 (some n) false n 2

/-- A port is isolated for a cause (R337). -/
def mmIsolate (s : Dev) (n cause : Nat) : Dev :=
  let st := s.mmState n
  if 2 ≤ st ∧ st ≤ 7 then
    let t := (s.setMm n 8).setF (Pg.MM n + MM.MM_STATE) 16 4 cause
    let t := ((t.count (Pg.MM n + MM.ISOLATIONS)).raise (Pg.MM n) 9).setB (Pg.MM n + MM.XFER_STATUS) 29 false
    t.logFault 14 60 (some n) false n 2
  else s

/-- Isolation needs `ISO_COUNT` results in a row; with 0 none are enough (R70, R337). -/
def isoReached (s : Dev) (n k : Nat) : Bool :=
  let c := s.fld (Pg.MM n + MM.POLL_CFG) 16 8
  decide (0 < c) && decide (c ≤ k)

/-- A bus recovery (R334). -/
def busRecover (s : Dev) (n : Nat) : Dev :=
  ((s.setMmo n { s.mmo n with recover := false }).emit (.busRecovery n)).count (Pg.MM n + MM.BUS_RECOVERIES)

/-- A transaction's outcome counts toward isolation: an address NACK, a STRETCH result, or neither (R337). -/
def mmTally (s : Dev) (n : Nat) (nack stretch : Bool) : Dev :=
  let x := s.mmo n
  let t := s.setMmo n { x with nacks := if nack then x.nacks + 1 else 0, stretches := if stretch then x.stretches + 1 else 0 }
  if nack && s.isoReached n (x.nacks + 1) then t.mmIsolate n 1
  else if stretch && s.isoReached n (x.stretches + 1) then t.mmIsolate n 2
  else t

/-- Flags and monitors of a poll (R335, R336). -/
def mmFlags (s : Dev) (n : Nat) (p : ModulePoll) : Dev :=
  let b := Pg.MM n
  let old := s.rd (b + MM.MOD_FLAGS) :: s.rdWords (b + MM.LANE_FLAGS) 5
  let new_ := Poll.modFlags p :: (if Poll.flat p then List.replicate 5 0 else Poll.laneFlags p)
  let t := (s.orBits (b + MM.MOD_FLAGS) (Poll.modFlags p)).wr (b + MM.MOD_MON) (Poll.monitor p)
  let t := if Poll.flat p then t
    else (t.wrWords (b + MM.LANE_FLAGS) (List.zipWith (· ||| ·) (s.rdWords (b + MM.LANE_FLAGS) 5) (new_.drop 1))).wrWords
      (b + MM.LANE_MON) (Poll.laneMon p)
  if (List.zipWith (fun (o v : Word) => v &&& ~~~o) old new_).any (· != 0) then t.raise b 10 else t

/-- IDENTIFY: the identity is accepted, refused, or read with a wrong checksum (R335, R337). -/
def mmIdentify (s : Dev) (n : Nat) (p : ModulePoll) : Dev :=
  let b := Pg.MM n
  let id := Poll.low p 0
  let rev := (Poll.low p 1).toNat
  let ok := (id == 0x18 || id == 0x19 || id == 0x1E) && decide (4 ≤ rev / 16)
  if !ok then s.mmIsolate n 4
  else if !Poll.checksumOk p then
    let x := s.mmo n
    let t := (s.count (b + MM.CHECKSUM_ERRS)).setMmo n { x with badSums := x.badSums + 1 }
    if 1 ≤ x.badSums then t.mmIsolate n 4 else t
  else
    let v := (if Poll.flat p then 2 ^ 16 else 0) + rev * 256 + id.toNat
    let t := (s.wr (b + MM.MOD_ID) (BitVec.ofNat 32 v)).setB (b + MM.MM_STATE) 20 (Poll.flat p)
    ((t.setMmo n { t.mmo n with badSums := 0 }).setMm n 4).mmUpdate n

/-- A poll that was acknowledged: `INSERTED` to `IDENTIFY`, identity, or the module's state and flags (R336). The codes
of byte 3 are CMIS's: 3 ModuleReady, 5 ModuleFault. -/
def mmPolled (s : Dev) (n : Nat) (p : ModulePoll) : Dev :=
  let a := Pg.MM n + MM.MM_STATE
  let st := s.mmState n
  let code := Poll.state p
  let s := ((s.setF a 12 3 code).setB a 9 p.intLow).mmTally n false false
  let invalid := decide (4 ≤ st) && (code == 0 || code == 6 || code == 7)
  let x := s.mmo n
  let s := s.setMmo n { x with badStates := if invalid then x.badStates + 1 else 0 }
  if invalid && s.isoReached n (x.badStates + 1) then s.mmIsolate n 5
  else if st = 2 then s.setMm n 3
  else if st = 3 then s.mmIdentify n p
  else
    let t := s.mmFlags n p
    if code = 5 ∧ (st = 4 ∨ st = 5 ∨ st = 6) then t.mmFault n
    else if st = 5 then
      if Poll.flat p then (if code = 3 then t.setMm n 6 else t)
      else if code = 3 ∧ (t.mmo n).dpInit = false then
        (t.setMmo n { t.mmo n with dpInit := true }).mmPoke n (some 0x10) 128 0
      else if (t.mmo n).dpInit && decide (Poll.activated p &&& t.mmLaneMask n = t.mmLaneMask n) then (t.setMm n 6).mmUpdate n
      else t
    else t.mmUpdate n

/-- A port polls: in the states that do, with the management controller running and the line port not in its safe state
(R25, R58, R336). -/
def mmPolls (s : Dev) (n : Nat) : Bool :=
  decide (2 ≤ s.mmState n) && decide (s.mmState n ≤ 7) && !s.isl.mcDown && !s.lineSafe n

/-- One poll (R334–R337). -/
def mmPoll (s : Dev) (n : Nat) (p : ModulePoll) : Dev :=
  let b := Pg.MM n
  let st := s.mmState n
  if s.mmPolls n then
    let s := if (s.mmo n).recover || p.sdaLow then s.busRecover n else s
    let s := (s.setMmo n { s.mmo n with extra := false }).count (b + MM.XFERS)
    match p.result with
    | .stuck => (s.busRecover n).mmIsolate n 3
    | .stretch => ((s.count (b + MM.STRETCH_TMOS)).busRecover n).mmTally n false true
    | .timeout => ((s.count (b + MM.TIMEOUTS)).busRecover n).mmTally n false false
    | .nackAddr => if st = 2 then s.count (b + MM.NACKS) else (s.count (b + MM.NACKS)).mmTally n true false
    | .nackData => (s.count (b + MM.NACKS)).mmTally n false false
    | .ok => s.mmPolled n p
  else s

/-! ### Transactions (R338, R339) -/

/-- A host transaction ends with a result and a number of bytes. -/
def xferEnd (s : Dev) (n result bytes : Nat) : Dev :=
  let a := Pg.MM n + MM.XFER_STATUS
  let v := 2 ^ 31 + (if result = 7 then 2 ^ 30 else 0) + result * 2 ^ 16 + bytes % 256
  ((s.wr a (BitVec.ofNat 32 v)).raise (Pg.MM n) 11).count (Pg.MM n + MM.XFERS)

/-- `MM_CMD.XFER_GO` (R338, R339). In the safe state of R58 the port is idle and the command is refused like one given
while a transaction runs: DESIGN CHOICE, log entry 59. -/
def xferGo (s : Dev) (m : Master) (n : Nat) (sdaLow : Bool) : Dev :=
  let b := Pg.MM n
  let a := b + MM.MM_CMD
  let c := s.rd (b + MM.XFER_CTRL)
  let off := fieldOf c 8 8
  let len := fieldOf c 0 8
  let raw := s.mmRaw n
  if s.bit (b + MM.XFER_STATUS) 29 || s.mmState n == 8 || s.lineSafe n || (!raw && bitOf c 31) then s.logErr m a Err.state
  else if 256 < off + len ∨ 128 < len then s.logErr m a Err.config
  else if len = 0 then s.xferEnd n 7 0
  else
    let t := if sdaLow || (s.mmo n).recover then s.busRecover n else s
    let t := if (bitOf c 30 || !raw) && decide (128 < off + len) then
        t.emit (.moduleXfer n true (fieldOf c 16 7) 126 2 [BitVec.ofNat 8 (t.fld (b + MM.XFER_PAGE) 8 8), BitVec.ofNat 8 (t.fld (b + MM.XFER_PAGE) 0 8)])
      else t
    let data := if bitOf c 31 then ((t.rdWords (b + MM.XFER_DATA) 32).flatMap wordBytesBE).take len else []
    (t.emit (.moduleXfer n (bitOf c 31) (fieldOf c 16 7) off len data)).wr (b + MM.XFER_STATUS) 0x20000000

/-- Bytes read into `XFER_DATA`. -/
def xferData (s : Dev) (n : Nat) (bytes : List Byte) : Dev :=
  let a := Pg.MM n + MM.XFER_DATA
  let old := (s.rdWords a 32).flatMap wordBytesBE
  let all := bytes ++ old.drop bytes.length
  s.wrWords a ((List.range 32).map (wordBE all))

/-- A transaction's result from the module (R338). After a NACK of data, the bytes transferred are a value no rule
gives. -/
def xferResult (s : Dev) (n : Nat) (r : XferResult) : Dev :=
  let b := Pg.MM n
  let c := s.rd (b + MM.XFER_CTRL)
  let len := fieldOf c 0 8
  match r with
  | .ok bytes =>
    let t := if bitOf c 31 then s else s.xferData n (slice bytes 0 len)
    (t.xferEnd n 0 len).mmTally n false false
  | .nackAddr => ((s.count (b + MM.NACKS)).xferEnd n 1 0).mmTally n true false
  | .nackData => (((s.count (b + MM.NACKS)).xferEnd n 2 (s.freeWord.toNat % (len + 1))).nextFree).mmTally n false false
  | .busStuck => (s.xferEnd n 5 0).mmIsolate n 3

/-- `RESET_MODULE` and `UNISOLATE`: RESET_N pulsed, the module identified afresh (R336). -/
def mmRestart (s : Dev) (n : Nat) : Dev :=
  if s.mmState n = 7 ∨ s.mmState n = 8 then
    (s.setMm n 2).setMmo n { Module.init with resetN := true, recover := (s.mmo n).recover }
  else s

end Dev

/-- MODULE_REMOVED: MMn_PRS_N high for 1 ms (R336); ignored on a Type E slice (R340). -/
def execModuleRemoved (n : Lane) (s : State) : Out :=
  s.run (fun d =>
    let st := d.mmState n
    if d.typeE (n / 4) then d
    else
      let t := d.setB (Pg.MM n + MM.MM_STATE) 8 false
      if st = 0 ∨ st = 1 ∨ st = 9 then t else ((t.setMm n 1).mmHold n).raise (Pg.MM n) 12)

/-- MODULE_INSERTED: MMn_PRS_N low for 100 ms (R336). -/
def execModuleInserted (n : Lane) (s : State) : Out :=
  s.run (fun d =>
    if d.typeE (n / 4) then d
    else
      let t := d.setB (Pg.MM n + MM.MM_STATE) 8 true
      if d.mmState n = 1 then
        ((t.setMm n 2).setMmo n { t.mmo n with resetN := true }).count (Pg.MM n + MM.INSERTIONS)
      else t)

/-- MODULE_POLL (R335–R337). -/
def execModulePoll (n : Lane) (p : ModulePoll) (s : State) : Out := s.run (fun d => d.mmPoll n p)

/-- MODULE_POWERUP_TIMEOUT (R336). -/
def execModulePowerupTimeout (n : Lane) (s : State) : Out := s.run (fun d => if d.mmState n = 5 then d.mmFault n else d)

/-- INIT_WAIT_TIMEOUT (R337). -/
def execInitWaitTimeout (n : Lane) (s : State) : Out := s.run (fun d => if d.mmState n = 2 then d.mmIsolate n 1 else d)

/-- INT_STORM: MMn_INT_N low for 1 s with no latched flag set (R337). -/
def execIntStorm (n : Lane) (s : State) : Out :=
  s.run (fun d =>
    if (d.rd (Pg.MM n + MM.MOD_FLAGS) :: d.rdWords (Pg.MM n + MM.LANE_FLAGS) 5).all (· == 0) then d.mmIsolate n 6 else d)

/-- XFER_GO (R338, R339). -/
def execXferGo (m : Master) (n : Lane) (sdaLow : Bool) (s : State) : Out :=
  s.run (fun d => d.access m (Pg.MM n + MM.MM_CMD) (fun t => t.xferGo m n sdaLow))

/-- XFER_DONE (R338). -/
def execXferDone (n : Lane) (r : XferResult) (s : State) : Out :=
  s.run (fun d => if d.xferBusy n then (d.xferResult n r).mmConfig n else d)

/-- REPOLL (R336). -/
def execRepoll (m : Master) (n : Lane) (s : State) : Out :=
  s.run (fun d => d.access m (Pg.MM n + MM.MM_CMD) (fun t => t.setMmo n { t.mmo n with extra := true }))

/-- RESET_MODULE (R336). -/
def execResetModule (m : Master) (n : Lane) (s : State) : Out :=
  s.run (fun d => d.access m (Pg.MM n + MM.MM_CMD) (fun t => t.mmRestart n))

/-- UNISOLATE (R336). -/
def execUnisolate (m : Master) (n : Lane) (s : State) : Out :=
  s.run (fun d => d.access m (Pg.MM n + MM.MM_CMD) (fun t => t.mmRestart n))

/-- STRETCH_TIMEOUT: the recovery that follows leaves the bus free, or stuck (R334, R337). -/
def execStretchTimeout (n : Lane) (stuckAfter : Bool) (s : State) : Out :=
  s.run (fun d =>
    if d.xferBusy n then
      let t := (d.count (Pg.MM n + MM.STRETCH_TMOS)).busRecover n
      (if stuckAfter then (t.xferEnd n 5 0).mmIsolate n 3 else (t.xferEnd n 3 0).mmTally n false true).mmConfig n
    else d)

/-- XFER_TIMEOUT (R334). -/
def execXferTimeout (n : Lane) (stuckAfter : Bool) (s : State) : Out :=
  s.run (fun d =>
    if d.xferBusy n then
      let t := (d.count (Pg.MM n + MM.TIMEOUTS)).busRecover n
      (if stuckAfter then (t.xferEnd n 5 0).mmIsolate n 3 else (t.xferEnd n 4 0).mmTally n false false).mmConfig n
    else d)

/-- WRITE_POLL_TIMEOUT: no acknowledge `WR_POLL` ms after a write (R334). -/
def execWritePollTimeout (n : Lane) (stuckAfter : Bool) (s : State) : Out :=
  s.run (fun d =>
    if d.xferBusy n && d.bit (Pg.MM n + MM.XFER_CTRL) 31 then
      let t := d.count (Pg.MM n + MM.TIMEOUTS)
      (if stuckAfter then ((t.busRecover n).xferEnd n 5 0).mmIsolate n 3
      else (t.xferEnd n 6 (d.fld (Pg.MM n + MM.XFER_CTRL) 0 8)).mmTally n false false).mmConfig n
    else d)

end Sys2Proof.Machine
end

