-- ==== Sys2Proof/Machine/LineTx.lean ====
section
/-! DEFINITION. Line transmitters: bring-up, squelch, taps, pilot depth and far-end tuning (09). -/

namespace Sys2Proof.Machine

/-- Correction fields of a record word, each by its lowest bit and its width (13, Targets and correction fields). -/
def calFields (r w : Nat) : List (Nat × Nat) :=
  if r < 16 then
    if w = 0 ∨ 65 < w then [] else if w < 65 then [(20, 10), (10, 10), (0, 8)] else [(0, 8), (8, 8), (16, 8), (24, 8)]
  else if w = 0 ∨ 22 < w then []
  else if w < 9 then [(0, 12)] else if w < 11 then [(16, 12), (0, 12)] else if w < 19 then [(16, 16), (0, 16)] else [(0, 16)]

namespace Dev

/-- A word of the master copy of a calibration record (13). -/
def calWord (s : Dev) (r w : Nat) : Word := Sparse.get (fun _ => 0) s.cal.master (128 * r + w)

/-- Valid bits of a record's header. -/
def calValidA (s : Dev) (r : Nat) : Bool := bitOf (s.calWord r 0) 31
def calValidB (s : Dev) (r : Nat) : Bool := bitOf (s.calWord r 0) 30

/-- A word of a record as its target holds it. -/
def calApplied (s : Dev) (r w : Nat) : Word := Sparse.get (fun _ => 0) s.cal.applied (128 * r + w)
def setCalApplied (s : Dev) (r w : Nat) (v : Word) : Dev :=
  { s with cal := { s.cal with applied := Sparse.put (fun _ => 0) s.cal.applied (128 * r + w) v } }

/-- A record's targets differ from its master copy. -/
def calDiffers (s : Dev) (r : Nat) : Bool :=
  !s.cal.frozen.contains r && (List.range 66).any (fun w => !(calFields r w).isEmpty && s.calApplied r w != s.calWord r w)

/-- `CAL_SETTLING` after a change; SETTLED when its last bit clears. -/
def calSettling (s : Dev) : Dev :=
  let a := Pg.CAL + CAL.CAL_SETTLING
  let v := ((List.range 20).map (fun r => if s.calDiffers r then 2 ^ r else 0)).sum
  let t := s.wr a (BitVec.ofNat 32 v)
  if s.rd a ≠ 0 ∧ v = 0 then t.raise Pg.CAL 13 else t

/-- A lane's ADC corrections are re-applied from their master copy, one that a soft reset of `CAL` cleared apart (03,
R88 and Warm restart, event 3; R370). -/
def adcReapply (s : Dev) (n : Nat) : Dev :=
  if s.cal.frozen.contains n then s
  else ((List.range 64).foldl (fun t w => t.setCalApplied n (w + 1) (t.calWord n (w + 1))) s).calSettling

/-- OFF to SQUELCH when enabled, the configuration accepted and DAC results present (R282). -/
def txTryUp (s : Dev) (n : Nat) : Dev :=
  if s.txState n = 0 ∧ s.bit (Pg.LTX n + LTX.TX_CTRL) 0 = true then
    let t := s.sliceCheck (n / 4)
    if !t.lineHeld n && t.calValidB n then ((t.ncoSettle n true).setTx n 1).txUpdate (t.linePort n) else t
  else s

/-- `TX_EN` written: 1 brings the transmitter up, 0 takes it to OFF; in IN_TEST it waits for the end of the test
(R282). -/
def txEnable (s : Dev) (n : Nat) (on : Bool) : Dev :=
  let t := s.setB (Pg.LTX n + LTX.TX_CTRL) 0 on
  let t := t.mmUpdate (t.linePort n)
  if t.txState n = 3 then t else if on then t.txTryUp n else t.txOff n 0

/-- Live taps c(−3) to c(5), and staged ones. -/
def liveTaps (s : Dev) (n : Nat) : List Int := (List.range 9).map (fun k => signedOf 10 (s.fld (Pg.LTX n + LTX.TX_TAP + 4 * k) 0 10))
def stagedTaps (s : Dev) (n : Nat) : List Int := (List.range 9).map (fun k => signedOf 10 (s.fld (Pg.LTX n + LTX.FIR_STAGE + 4 * k) 0 10))

/-- Σ|c(k)|. -/
def tapSum (c : List Int) : Nat := (c.map Int.natAbs).sum

/-- A tap set is valid: c(0) ≥ 128 and Σ|c(k)| ≤ 256. -/
def tapsValid (c : List Int) : Bool := decide (128 ≤ c.getD 3 0) && decide (tapSum c ≤ 256)

/-- The live taps take new values together, and `FIR_STATUS.SUM` shows them (R280). -/
def setTaps (s : Dev) (n : Nat) (c : List Int) : Dev :=
  (s.wrWords (Pg.LTX n + LTX.TX_TAP) (c.map (fun x => BitVec.ofNat 32 (twosOf 10 x)))).setF (Pg.LTX n + LTX.FIR_STATUS) 0 10 (tapSum c)

/-- `FIR_CMD.APPLY` (R280). -/
def firApply (s : Dev) (m : Master) (n : Nat) : Dev :=
  if tapsValid (s.stagedTaps n) then s.setTaps n (s.stagedTaps n)
  else (s.logErr m (Pg.LTX n + LTX.FIR_CMD) Err.config).raise (Pg.LTX n) 12

/-- A lane enters SEND: nothing was sent before its first symbol (R276), its flow starts afresh, and an IDENTITY frame is queued unless
`IDENT_PERIOD` is 0 (R310). -/
def enterSend (s : Dev) (n : Nat) : Dev :=
  let t := ((s.setTx n 2).setTxl n TxLane.init).setPcsFlow n PcsFlow.init
  if t.fld (Pg.LANTERN n + LANTERN.IDENT_PERIOD) 0 16 = 0 then t else t.ltIdentity n

/-- All lanes of a port are in SQUELCH with no cause: they enter SEND together at the first symbol of a block or codeword
pair, which carries idles or Remote Fault (R113, R284, R310). -/
def txSendEntry (s : Dev) (p : Nat) : Dev :=
  let ls := s.lpLanes p
  if !ls.isEmpty && ls.all (fun n => s.txState n == 1 && s.squelchCauses p n == 0) then
    ((ls.foldl enterSend s).rfUpdate p).lineSend p []
  else s

/-- One step of the pilot depth toward `DEPTH`, outside OFF and IN_TEST (R286). -/
def pilotStep (s : Dev) (n : Nat) : Dev :=
  let a := Pg.LTX n + LTX.PILOT_STATUS
  let now := s.fld a 0 6
  let want := s.fld (Pg.LTX n + LTX.PILOT_CTRL) 0 6
  if s.txState n = 0 ∨ s.txState n = 3 then s
  else if now < want then s.setF a 0 6 (now + 1)
  else if want < now then s.setF a 0 6 (now - 1)
  else s

/-! ### Far-end tuning (R287–R289) -/

/-- What a request does to a set of taps: a status and the taps after it (R287, steps 3 to 5). -/
def tuneTaps (s : Dev) (n op k : Nat) (value : Int) : Nat × List Int :=
  let c := s.liveTaps n
  let track := s.bit (Pg.LTX n + LTX.TUNE_CTRL) 1
  let bound (j : Nat) := s.rd (Pg.LTX n + LTX.TAP_BOUND + 4 * j)
  let inside (j : Nat) (x : Int) :=
    decide (signedOf 10 (fieldOf (bound j) 0 10) ≤ x) && decide (x ≤ signedOf 10 (fieldOf (bound j) 16 10))
  if op = 3 then (0, c)
  else if k = 3 ∧ track = true then (5, c)
  else
    let v := if op = 1 then c.getD k 0 + value else value
    let c1 := c.set k v
    if !inside k v then (1, c)
    else
      let main := 256 - (tapSum (c1.set 3 0) : Int)
      let c2 := if track then c1.set 3 main else c1
      if track && !inside 3 main then (1, c)
      else if tapsValid c2 then (0, c2) else (2, c)

/-- A request is malformed: `VER`, `OP`, `TAP`, `LANE` or reserved bits. -/
def tuneMalformed (b : List Byte) (lane width : Nat) : Bool :=
  let x (i : Nat) := (b.getD i 0).toNat
  x 0 != 1 || x 1 % 16 != 0 || decide (width ≤ lane) || !(x 4 == 1 || x 4 == 2 || x 4 == 3) || decide (8 < x 5)
    || !allZero (b.drop 8)

/-- A request received on lane rx is handled for a lane of its port, or its record placed on the Lantern ring (R287,
R288). -/
def tune (s : Dev) (rx : Nat) (b record : List Byte) : Dev :=
  let p := s.linePort rx
  let off := (b.getD 1 0).toNat / 16
  let n := if off < s.lpWidth p then p + off else rx
  if s.assisted (Pg.LTX n) then
    let t := (s.count (Pg.LTX n + LTX.TUNE_FWD)).raise (Pg.LTX n) 9
    t.ltPlace rx record
  else
    let req := BitVec.ofNat 16 (natBE (slice b 2 2))
    let seen := (s.ltn n).tuneReply
    match seen with
    | some (q, old) => if q = req then (s.count (Pg.LTX n + LTX.TUNE_DUP)).ltQueue rx 0x03 old else fresh n p off req
    | none => fresh n p off req
where
  /-- A request not seen before. -/
  fresh (n p off : Nat) (req : BitVec 16) : Dev :=
    let k := (b.getD 5 0).toNat
    let bad := tuneMalformed b off (s.lpWidth p)
    let off_ := !s.bit (Pg.LTX n + LTX.TUNE_CTRL) 0 || s.txState n == 0 || s.txState n == 3
    let r := if bad then (3, s.liveTaps n) else if off_ then (4, s.liveTaps n)
      else s.tuneTaps n (b.getD 4 0).toNat k (signedOf 16 (natBE (slice b 6 2)))
    let changes := decide (r.1 = 0) && (b.getD 4 0).toNat != 3
    let t := if changes then (s.setTaps n r.2).count (Pg.LTX n + LTX.TUNE_APPLIED) else s
    let t := if r.1 ≠ 0 then (t.count (Pg.LTX n + LTX.TUNE_REFUSED)).raise (Pg.LTX n) 10 else t
    let t := t.wr (Pg.LTX n + LTX.TUNE_STATUS) (BitVec.ofNat 32 (2 ^ 31 + r.1 * 2 ^ 16 + req.toNat))
    let value := if k ≤ 8 then BitVec.ofInt 16 (r.2.getD k 0) else BitVec.ofNat 16 t.freeWord.toNat
    let t := if k ≤ 8 then t else t.nextFree
    let reply := [1, b.getD 1 0 &&& 0xF0] ++ bytesBE 2 req.toNat ++ [BitVec.ofNat 8 r.1, b.getD 5 0] ++ bytesBE 2 value.toNat
      ++ bytesBE 2 (tapSum r.2)
    (t.setLtn n { t.ltn n with tuneReply := some (req, reply) }).ltQueue rx 0x03 reply

end Dev

/-- TX_ENABLE (R282). -/
def execTxEnable (m : Master) (n : Lane) (s : State) : Out :=
  s.run (fun d => d.access m (Pg.LTX n + LTX.TX_CTRL) (fun t => t.txEnable n true))

/-- TX_DISABLE (R282). -/
def execTxDisable (m : Master) (n : Lane) (s : State) : Out :=
  s.run (fun d => d.access m (Pg.LTX n + LTX.TX_CTRL) (fun t => t.txEnable n false))

/-- TX_SEND_ENTRY (R284). -/
def execTxSendEntry (port : Lane) (s : State) : Out := s.run (fun d => d.txSendEntry port)

/-- FIR_APPLY (R280). -/
def execFirApply (m : Master) (n : Lane) (s : State) : Out :=
  s.run (fun d => d.access m (Pg.LTX n + LTX.FIR_CMD) (fun t => t.firApply m n))

/-- PILOT_DEPTH_STEP (R286). -/
def execPilotDepthStep (n : Lane) (s : State) : Out := s.run (fun d => d.pilotStep n)

end Sys2Proof.Machine
end

