-- ==== Sys2Proof/Machine/TimeBase.lean ====
section
/-! DEFINITION. The time base, its commands and PPS (08, R266, R267, R275; 14, R382). -/

namespace Sys2Proof.Machine

namespace Dev

/-- One cycle of the 1 GHz time-base clock: the elapsed time and the time base advance by 1 ns, the latter corrected
by `FREQ_ADJ` in 1/(1,024 × 10^9) ns (R266, R382). -/
def tick (s : Dev) : Dev :=
  let adj := signedOf 32 (s.rd (Pg.CLKRST + CLKRST.FREQ_ADJ)).toNat
  let unit : Int := 1024 * 1000000000
  let f := s.time.frac + adj
  let carry := f / unit
  { s with mono := s.mono + 1,
           time := { s.time with now := s.time.now + BitVec.ofInt 80 (1 + carry), frac := f % unit } }

/-- The time base given a value. -/
def setTime (s : Dev) (v : BitVec 80) : Dev := { s with time := { s.time with now := v } }

/-- `TIME_WR` as one 80-bit number. -/
def timeWr (s : Dev) : BitVec 80 :=
  BitVec.ofNat 80 ((s.rd (Pg.CLKRST + CLKRST.TIME_WR)).toNat + 2 ^ 32 * (s.rd (Pg.CLKRST + CLKRST.TIME_WR + 4)).toNat
    + 2 ^ 64 * s.fld (Pg.CLKRST + CLKRST.TIME_WR + 8) 0 16)

end Dev

/-- The effect of `TIME_CMD` bits: only the lowest of those written 1 acts (R266, R275). -/
def timeCommand (s : Dev) (bits : Nat) : Dev :=
  if bits % 2 = 1 then s.setTime s.timeWr
  else if bits / 2 % 2 = 1 then s.setTime (s.timeBase + s.timeWr)
  else if bits / 4 % 2 = 1 then s.setB (Pg.CLKRST + CLKRST.PPS_STATUS) 1 true
  else s

/-- TIME_CMD_SET: `TIME_WR` is loaded, under the `CLKRST` lock (R266, R275). -/
def execTimeCmdSet (m : Master) (s : State) : Out :=
  s.run (fun d => d.lockedAccess m (Pg.CLKRST + CLKRST.TIME_CMD) (fun t => timeCommand t 1))

/-- TIME_CMD_STEP: `TIME_WR` is added as a signed value (R266). -/
def execTimeCmdStep (m : Master) (s : State) : Out :=
  s.run (fun d => d.lockedAccess m (Pg.CLKRST + CLKRST.TIME_CMD) (fun t => timeCommand t 2))

/-- TIME_CMD_SET_AT_PPS: a load at the next PPS edge is armed (R266). -/
def execTimeCmdSetAtPps (m : Master) (s : State) : Out :=
  s.run (fun d => d.lockedAccess m (Pg.CLKRST + CLKRST.TIME_CMD) (fun t => timeCommand t 4))

namespace Dev

/-- A read of `TIME_RD[0]`: the low word, the rest latched for the master (R266). -/
def readTime (s : Dev) (m : Master) : Dev :=
  let l := Sparse.put (fun _ => 0) s.time.latch (masterId m).toNat (BitVec.ofNat 48 (s.timeBase.toNat / 2 ^ 32))
  ({ s with time := { s.time with latch := l } }).emit
    (.readData m (Pg.CLKRST + CLKRST.TIME_RD) (BitVec.ofNat 32 s.timeBase.toNat))

/-- A read of `PPS_CAPT[0]`, latched in the same way. -/
def readCapt (s : Dev) (m : Master) : Dev :=
  let l := Sparse.put (fun _ => 0) s.time.captLatch (masterId m).toNat (BitVec.ofNat 48 (s.time.capt.toNat / 2 ^ 32))
  ({ s with time := { s.time with captLatch := l } }).emit
    (.readData m (Pg.CLKRST + CLKRST.PPS_CAPT) (BitVec.ofNat 32 s.time.capt.toNat))

/-- A read that fails its checks returns 0 and is logged (R38, R55). -/
def readAccess (s : Dev) (m : Master) (a : Nat) (k : Dev → Dev) : Dev :=
  match s.readErr m a with
  | some c => (s.logErr m a c).emit (.readData m a 0)
  | none => k s

end Dev

/-- TIME_RD_READ (R266). -/
def execTimeRdRead (m : Master) (s : State) : Out :=
  s.run (fun d => d.readAccess m (Pg.CLKRST + CLKRST.TIME_RD) (fun t => t.readTime m))

/-- PPS_CAPT_READ (R266). -/
def execPpsCaptRead (m : Master) (s : State) : Out :=
  s.run (fun d => d.readAccess m (Pg.CLKRST + CLKRST.PPS_CAPT) (fun t => t.readCapt m))

/-- PPS_EDGE: an edge of PPS_IN. While `PPS_EN` is 1 and the edge is the active one, the time base is captured,
`PPS_COUNT` counted, `PRESENT` and the PPS cause set, and an armed load performed (R266, R267, R275). -/
def execPpsEdge (falling : Bool) (s : State) : Out :=
  s.run (fun d =>
    let ctrl := Pg.CLKRST + CLKRST.PPS_CTRL
    let st := Pg.CLKRST + CLKRST.PPS_STATUS
    if d.bit ctrl 0 && d.bit ctrl 1 == falling then
      let t := { d with time := { d.time with capt := d.timeBase } }
      let t := ((t.count (Pg.CLKRST + CLKRST.PPS_COUNT)).setB st 0 true).raise Pg.CLKRST 24
      if t.bit st 1 then (t.setTime t.timeWr).setB st 1 false else t
    else d)

/-- PPS_LOST: no edge for 1.1 s (R267). -/
def execPpsLost (s : State) : Out :=
  s.run (fun d =>
    if d.bit (Pg.CLKRST + CLKRST.PPS_STATUS) 0 then
      (d.setB (Pg.CLKRST + CLKRST.PPS_STATUS) 0 false).raise Pg.CLKRST 25
    else d)

end Sys2Proof.Machine
end

