-- ==== Sys2Proof/Machine/Analogue.lean ====
section
/-! DEFINITION. Analogue outputs, dither, monitor inputs and the fractional resampler (11, R318–R333). Currents are in
0.1 µA and voltages in 0.1 mV; the full scale of an IDAC counts as its nominal 24 mA (DESIGN CHOICE, log entry 79). -/

namespace Sys2Proof.Machine

namespace Dev

/-! ### Outputs (R322–R325) -/

/-- Registers of output k, and of channel i, of slice s. -/
abbrev outBase (sl k : Nat) : Nat := Pg.ANA sl + 0x10 * k
abbrev chBase (sl i : Nat) : Nat := Pg.DECIM sl + 0x20 * i

def outEn (s : Dev) (sl k : Nat) : Bool := s.bit (outBase sl k + ANA.OUT_CFG) 0
def outOwner (s : Dev) (sl k : Nat) : Nat := s.fld (outBase sl k + ANA.OUT_CFG) 4 2
def outRetries (s : Dev) (sl k : Nat) : Nat := s.fld (outBase sl k + ANA.OUT_STATUS) 16 8

/-- An event of the loop sequencer that owns an output (R346). -/
def ownerEvent (s : Dev) (sl k e : Nat) : Dev :=
  match s.outOwner sl k with
  | 1 => s.seqEvent (2 * sl) e
  | 2 => s.seqEvent (2 * sl + 1) e
  | _ => s

/-- The channel a slice's read-back converter is. -/
def rbChannel (s : Dev) (sl : Nat) : Nat := 8 + s.fld (Pg.ANA sl + ANA.ANA_CTRL) 24 2

/-! ### Dither (R321) -/

abbrev genBase (g : Nat) : Nat := Pg.DITHER + 0x10 * g
def genFreq (s : Dev) (g : Nat) : Nat := s.wide (genBase g + DITHER.FREQ_LO)
def genOn (s : Dev) (g : Nat) : Bool := s.bit (genBase g + DITHER.GEN_CTRL) 0

def genSpans (s : Dev) (g : Nat) : List GenSpan := Sparse.get (fun _ => []) s.ana.gens g

/-- The phase of a generator at an instant in half nanoseconds: that of the stretch it lies in, advanced by `FREQ` at every
160 MHz tick since. -/
def phaseAt (s : Dev) (g half : Nat) : BitVec 40 :=
  match (s.genSpans g).find? (fun x => decide (2 * x.at_ ≤ half)) with
  | some x => x.phase + BitVec.ofNat 40 (x.freq * ((half - 2 * x.at_) * 2 / 25))
  | none => 0

/-- The phase of a generator now, 0 while it is off. -/
def ditherPhase (s : Dev) (g : Nat) : BitVec 40 := s.phaseAt g (2 * s.mono)

/-- A stretch begins: its phase, and the frequency the registers now give. What ended longer ago than any reference looks
back, 3 ms, is forgotten. -/
def setPhase (s : Dev) (g : Nat) (p : BitVec 40) : Dev :=
  let x : GenSpan := ⟨s.mono, p, if s.genOn g then s.genFreq g else 0⟩
  let l := s.genSpans g
  let keep := l.takeWhile (fun y => decide (s.mono < y.at_ + 3000000))
  { s with ana := { s.ana with gens := Sparse.put (fun _ => []) s.ana.gens g (x :: l.take (keep.length + 1)) } }

/-! ### What an output drives (R318, R319, R321) -/

/-- `CODE` of an IDAC with its dither. -/
def codeSum (s : Dev) (sl k : Nat) : Int :=
  let cfg := s.rd (outBase sl k + ANA.OUT_CFG)
  let code : Int := s.fld (outBase sl k + ANA.CODE) 0 20
  let g := 4 * sl + fieldOf cfg 8 2
  if bitOf cfg 12 && s.genOn g then
    code + divHalfEven ((s.fld (outBase sl k + ANA.DITHER_AMP) 0 16 : Int) * sineEntry ((s.ditherPhase g).toNat / 2 ^ 28)) 131071
  else code

/-- The applied code of an output in ACTIVE: clamped for an IDAC; a VDAC takes no dither. -/
def appliedCode (s : Dev) (sl k : Nat) : Nat :=
  if k < 8 then (max 0 (min 1048575 (s.codeSum sl k))).toNat else s.fld (outBase sl k + ANA.CODE) 0 16

/-- The code an output drives in its state: I = I_FS × C / 2^20, V = 2.5 V × C / 65,536, 0 where it is off. -/
def outDrive (s : Dev) (sl k : Nat) : Nat :=
  match s.outState sl k with
  | 1 => if k < 8 then s.fld (Pg.ANA_COM + ANA_COM.CHK_CODE) 0 20 else s.appliedCode sl k
  | 2 => s.appliedCode sl k
  | _ => 0

/-- An output whose code has changed drives the new one. -/
def driveShow (old t : Dev) (sl k : Nat) : Dev :=
  let c := t.outDrive sl k
  if old.outDrive sl k = c then t else t.emit (.analogue sl k c)

/-- An IDAC in ACTIVE has its sum clamped now. -/
def clampedNow (s : Dev) (sl k : Nat) : Bool :=
  s.outState sl k == 2 && s.bit (outBase sl k + ANA.OUT_CFG) 12
    && (decide (s.codeSum sl k < 0) || decide (1048575 < s.codeSum sl k))

/-- Each microsecond in which an IDAC's sum is clamped counts once (R321). -/
def clampTick (s : Dev) : Dev :=
  let s : Dev := if s.mono % 1000 = 0 then { s with ana := { s.ana with clamped := [] } } else s
  (List.range 32).foldl (fun t i =>
    let sl := i / 8
    let k := i % 8
    if t.clampedNow sl k && !t.ana.clamped.contains i then
      (({ t with ana := { t.ana with clamped := i :: t.ana.clamped } }).count (Pg.ANA sl + ANA.CLAMP_COUNT + 4 * k)).raise (Pg.ANA sl) 18
    else t) s

/-! ### Supervision and read-back (R324, R325) -/

/-- A condition of R324 on an output that is set to a code: 2 OPEN_LOOP, which goes first, 1 COMPLIANCE, 0 none. -/
def tripOf (s : Dev) (k code : Nat) (x : OutSense) : Nat :=
  if k < 8 then
    let pct : Int := s.fld (Pg.ANA_COM + ANA_COM.SUP_CFG) 8 8
    if code < 4096 then 0
    else if x.current * 100 * 2 ^ 20 < pct * 240000 * code then 2
    else if x.voltage < 2500 ∨ 25000 < x.voltage then 1
    else 0
  else if 500 * 65536 < (x.voltage * 65536 - 25000 * code).natAbs then 2
  else if 100000 < x.current.natAbs then 1
  else 0

/-- The mean of a check lies where it must: of an IDAC at `CHK_CODE` within its tolerance in 0.1 %, of a VDAC within `VTOL`
and 1 % of the value its code sets. -/
def meanFits (s : Dev) (k code mean : Nat) : Bool :=
  let tol := Pg.ANA_COM + ANA_COM.CHK_TOL
  if k < 8 then
    decide (((mean * 2 ^ 20 : Nat) - (240000 * code : Nat) : Int).natAbs * 1000 ≤ s.fld tol 0 8 * 240000 * code)
  else
    decide (((mean * 65536 : Nat) - (25000 * code : Nat) : Int).natAbs * 100 ≤ 10 * s.fld tol 16 8 * 65536 * 100 + 25000 * code)

/-- Number of a monitor. -/
def monNumber (sl i : Nat) : Nat := if i < 8 then 8 * sl + i else 32 + 4 * sl + (i - 8)

/-- A channel's next 24 samples carry `SETTLE` (R329). -/
def settleStart (s : Dev) (sl i : Nat) : Dev :=
  ({ s with ana := { s.ana with settle := Sparse.put (fun _ => 0) s.ana.settle (12 * sl + i) 24 } }).setB
    (Pg.DECIM sl + DECIM.DEC_STATUS) i true

def chkPending (s : Dev) (sl : Nat) : Nat := s.fld (Pg.ANA sl + ANA.CHK_STATUS) 0 10
def chkRuns (s : Dev) (sl : Nat) : Bool := s.bit (Pg.ANA sl + ANA.CHK_STATUS) 31
def chkOutput (s : Dev) (sl : Nat) : Nat := s.fld (Pg.ANA sl + ANA.CHK_STATUS) 16 4

/-- The read-back converter is under self-test: the test of the slice's monitors has taken it (R325; 18, code 8). -/
def rbTested (s : Dev) (sl : Nat) : Bool :=
  s.test.cur == some sl && s.fld (Pg.BIST + BIST.BIST_STATUS) 24 4 == 8 && !s.bit (chBase sl (s.rbChannel sl) + DECIM.CH_CFG) 0

/-- The lowest pending check starts when none runs and the converter is free (R325). -/
def chkNext (s : Dev) (sl : Nat) : Dev :=
  let a := Pg.ANA sl + ANA.CHK_STATUS
  if s.chkRuns sl || s.rbTested sl then s
  else
    match (List.range 10).find? (fun k => (s.chkPending sl).testBit k) with
    | some k => (s.setF a 16 4 k).setB a 31 true
    | none => s

/-- An output's check is over or abandoned: the converter settles, the next pending check starts, and CHECKS_DONE
follows the last (R325, R346). -/
def chkEnd (s : Dev) (sl k : Nat) : Dev :=
  let a := Pg.ANA sl + ANA.CHK_STATUS
  if (s.chkPending sl).testBit k then
    let mine := s.chkRuns sl && s.chkOutput sl == k
    let t := s.setB a k false
    let t := if mine then (t.setB a 31 false).settleStart sl (t.rbChannel sl) else t
    let t := t.chkNext sl
    if t.chkPending sl = 0 then (t.raise (Pg.ANA sl) 19).loopEvent sl 6 else t
  else s

/-- Unit of an output's fault record: its slice above the byte that the record shows (R484). -/
def outUnit (sl k : Nat) : Nat := 256 * (sl + 1) + k

/-- An output changes state: shown in `OUT_STATUS` and `FAULT_MAP`, told to its owner; leaving OFF clears `RETRIES`,
leaving CHECK ends its check (R323, R325, R346). -/
def setOut (s : Dev) (sl k st : Nat) : Dev :=
  let a := outBase sl k + ANA.OUT_STATUS
  let old := s.outState sl k
  let t := ((s.setF a 0 3 st).setB (Pg.ANA sl + ANA.FAULT_MAP) k (st == 3)).ownerEvent sl k 5
  let t := if old = 0 ∧ st ≠ 0 then t.setF a 16 8 0 else t
  let t := if old = 1 ∧ st ≠ 1 then t.chkEnd sl k else t
  let t := s.driveShow t sl k
  if st = 3 then { t with ana := { t.ana with faultAt := Sparse.put (fun _ => 0) t.ana.faultAt (10 * sl + k) t.mono } } else t

/-- CHECK is entered: the check queues (R325). -/
def outCheck (s : Dev) (sl k : Nat) : Dev :=
  ((s.setOut sl k 1).setB (Pg.ANA sl + ANA.CHK_STATUS) k true).chkNext sl

/-- Calibration results of a slice's outputs are present. -/
def outCal (s : Dev) (sl : Nat) : Bool := s.calValidA (16 + sl)

/-- From OFF, or as from OFF: HELD on a Type L slice, CHECK on a Type E slice with calibration results (R323). -/
def outTryUp (s : Dev) (sl k : Nat) : Dev :=
  if s.outState sl k = 0 ∧ s.outEn sl k = true then
    if !s.typeE sl then s.setOut sl k 4 else if s.outCal sl then s.outCheck sl k else s
  else s

/-- OFF (R323). -/
def outOff (s : Dev) (sl k : Nat) : Dev :=
  if s.outState sl k = 0 ∨ s.outState sl k = 5 then s
  else (s.setOut sl k 0).closeFault 15 (outUnit sl k) 3 false

/-- `OUT_EN` written. -/
def outEnable (s : Dev) (sl k : Nat) (on : Bool) : Dev :=
  let t := s.setB (outBase sl k + ANA.OUT_CFG) 0 on
  if on then t.outTryUp sl k else t.outOff sl k

/-- The slice's attach type has changed (R323). -/
def outType (s : Dev) (sl : Nat) : Dev :=
  (List.range 10).foldl (fun t k =>
    let st := t.outState sl k
    if t.outEn sl k && !t.typeE sl && decide (st < 4) then (t.setOut sl k 4).closeFault 15 (outUnit sl k) 3 false
    else if t.typeE sl && st == 4 then t.outCheck sl k
    else t) s

/-- An automatic retry is left (R323). -/
def outRetryLeft (s : Dev) (sl k : Nat) : Bool :=
  !s.assisted (Pg.ANA sl) && decide (s.outRetries sl k < s.fld (Pg.ANA sl + ANA.ANA_CTRL) 16 8)

/-- FAULT is entered with a cause; the fault is recorded, its recovery being the retries (R324; 19, class 0x0F). -/
def outFault (s : Dev) (sl k cause : Nat) : Dev :=
  let t := (s.setOut sl k 3).setF (outBase sl k + ANA.OUT_STATUS) 8 3 cause
  let t := (t.count (Pg.ANA sl + ANA.FAULT_COUNT + 4 * k)).raise (Pg.ANA sl) (8 + k)
  let u := outUnit sl k
  let t := if t.log.opened.any (fun r => r.cls == 15 && r.unit == u) then t else t.openFault 15 58 none false u
  if t.outRetryLeft sl k then t else t.closeFault 15 u 2 false

/-- The master that may write an output's `CODE` (R322). -/
def outWriter (s : Dev) (sl k : Nat) (m : Master) : Bool :=
  let id := (masterId m).toNat
  match s.outOwner sl k with
  | 0 => id == 1 && s.assisted (Pg.ANA sl)
  | 1 => id == 0x10 + 2 * sl
  | 2 => id == 0x11 + 2 * sl
  | _ => false

/-- A write of `CODE`. -/
def codeSet (s : Dev) (m : Master) (sl k : Nat) (v : Word) : Dev :=
  let a := outBase sl k + ANA.CODE
  s.need m a (s.outWriter sl k m) Err.state (fun t => t.driveShow (t.wr a (v &&& (if k < 8 then 0xFFFFF else 0xFFFF))) sl k)

abbrev rsBase (c : Nat) : Nat := Pg.RESAMP + 0x20 * c
def rsClaimed (s : Dev) (c : Nat) : Bool := s.bit (rsBase c + RESAMP.RS_STATUS) 31
def rsOn (s : Dev) (c : Nat) : Bool := s.bit (rsBase c + RESAMP.RS_CFG) 0 || s.rsClaimed c

/-! ### Monitor inputs (R326–R329) -/

/-- The value of a sample outside the linear span (R326). -/
def saturate (x : BitVec 40) : BitVec 40 := if x.toInt < 0 then 0x8000000000 else 0x7FFFFFFFFF

/-- Samples of a channel that still carry `SETTLE`. -/
def settleLeft (s : Dev) (sl i : Nat) : Nat := Sparse.get (fun _ => 0) s.ana.settle (12 * sl + i)

/-- A stage's exact result with fractional bits, rounded half to even to 40 bits (R329, R331). -/
def round40 (v : Int) (frac : Nat) : BitVec 40 := BitVec.ofInt 40 (max (-(2 ^ 39)) (min (2 ^ 39 - 1) (roundHalfEven v frac)))

/-- Group delay of a preset in half nanoseconds: 12 output periods. -/
def groupDelay (preset : Nat) : Nat := 19200 * 4 ^ preset

/-- The reference pair of a sample that a channel puts out now: sine and cosine of the generator's phase at the centre
instant less `DELAY` modulator clocks of 12.5 ns (R327). -/
def refPair (s : Dev) (sl i : Nat) : Word :=
  let cfg := s.rd (chBase sl i + DECIM.CH_CFG)
  let p := s.phaseAt (4 * sl + fieldOf cfg 8 2) (2 * s.mono - groupDelay (fieldOf cfg 4 3) - 25 * fieldOf cfg 16 10)
  BitVec.ofInt 16 (phaseSine p) ++ BitVec.ofInt 16 (phaseSine (p + BitVec.ofNat 40 (2 ^ 38)))

/-- A source's sample reaches a resampler channel. -/
def rsInput (s : Dev) (c : Nat) (x : BitVec 40 × Bool) : Dev :=
  let q := Sparse.get (fun _ => (0, [])) s.ana.rsIn c
  { s with ana := { s.ana with rsIn := Sparse.put (fun _ => (0, [])) s.ana.rsIn c (q.1 + 1, (x :: q.2).take 64) } }

/-- A background measurement of the slice's record may take a running channel, a read-back check on its converter going
first (R365, R371). -/
def mayBorrow (s : Dev) (sl : Nat) : Bool :=
  s.bit (Pg.CAL + CAL.CAL_CTRL) 8 && s.bit (Pg.CAL + CAL.CAL_STATUS) 31 && s.cal.run.head? == some (2 * (16 + sl)) && !s.chkRuns sl

/-- One sample of a running channel, from the last stage's exact result with 24 fractional bits. While a measurement has
taken the channel it carries `RB` and value 0, and `SETTLE` follows (R329, R365). -/
def sample (s : Dev) (sl i : Nat) (sum : Int) (ovr borrowed : Bool) : Dev :=
  let taken := borrowed && s.mayBorrow sl
  let b := chBase sl i
  let x := round40 sum 24
  if !s.bit (b + DECIM.CH_CFG) 0 then s
  else
    let rb := taken || (s.chkRuns sl && s.rbChannel sl == i)
    let ov := ovr && !rb
    let v := if rb then 0 else if ov then saturate x else x
    let left := s.settleLeft sl i
    let hi := ((s.fld (b + DECIM.SAMPLE_HI) 16 16 + 1) % 2 ^ 16) * 2 ^ 16 + (if rb then 2 ^ 10 else 0) + (if ov then 2 ^ 9 else 0)
      + (if left = 0 then 0 else 2 ^ 8) + v.toNat / 2 ^ 32
    let t := (s.wr (b + DECIM.SAMPLE_LO) (BitVec.setWidth 32 v)).wr (b + DECIM.SAMPLE_HI) (BitVec.ofNat 32 hi)
    let t := t.wr (b + DECIM.REF) (if t.bit (b + DECIM.CH_CFG) 12 then s.refPair sl i else 0)
    let t := if taken then t.settleStart sl i
      else
        let u := { t with ana := { t.ana with settle := Sparse.put (fun _ => 0) t.ana.settle (12 * sl + i) (left - 1) } }
        u.setB (Pg.DECIM sl + DECIM.DEC_STATUS) i (decide (1 < left))
    let t := if ov then (t.count (b + DECIM.OVER_COUNT)).raise (Pg.DECIM sl) (8 + i) else t
    let t := (List.range 8).foldl (fun t c =>
      if t.rsOn c && t.fld (rsBase c + RESAMP.RS_CFG) 8 7 == monNumber sl i then t.rsInput c (v, ov) else t) t
    t.loopEvent sl (8 + i)

/-- `SAMPLE_HI` and `REF` latched for a master by its read of `SAMPLE_LO`. -/
def sampleLatch (s : Dev) (m : Master) (sl i : Nat) : Dev :=
  let b := chBase sl i
  let k := 256 * (12 * sl + i) + (masterId m).toNat
  let l := Sparse.put (fun _ => (0, 0)) s.ana.latch k (s.rd (b + DECIM.SAMPLE_HI), s.rd (b + DECIM.REF))
  ({ s with ana := { s.ana with latch := l } }).emit (.readData m (b + DECIM.SAMPLE_LO) (s.rd (b + DECIM.SAMPLE_LO)))

/-! ### Resampler (R331–R333) -/

def rsStep (s : Dev) (c : Nat) : Nat := s.wide (rsBase c + RESAMP.STEP_LO)

/-- A channel starts at position 0 with 16 settling outputs. -/
def rsStart (s : Dev) (c : Nat) : Dev :=
  { s with ana := { s.ana with rsPos := Sparse.put (fun _ => 0) s.ana.rsPos c 0,
                               rsSettle := Sparse.put (fun _ => 0) s.ana.rsSettle c 16,
                               rsIn := Sparse.put (fun _ => (0, [])) s.ana.rsIn c (0, []) } }

/-- The lowest channel with `RS_EN` = 0 and no claim. -/
def rsFree (s : Dev) : Option Nat := (List.range 8).find? (fun c => !s.rsOn c)

/-- A Type E lane's Lantern reception at the forerunner rate claims a channel (R333). -/
def rsClaim (s : Dev) (n : Nat) : Dev :=
  match s.rsFree with
  | none => s
  | some c =>
    let t := (s.wr (rsBase c + RESAMP.RS_STATUS) (BitVec.ofNat 32 (2 ^ 31 + n % 16 * 2 ^ 16))).setF (rsBase c + RESAMP.RS_CFG) 8 7 (64 + n)
    (t.setWide 40 (rsBase c + RESAMP.STEP_LO) 0x0FA0000000).rsStart c

/-- The claim of a lane ends. -/
def rsRelease (s : Dev) (n : Nat) : Dev :=
  (List.range 8).foldl (fun t c =>
    if t.rsClaimed c && t.fld (rsBase c + RESAMP.RS_STATUS) 16 4 == n then t.wr (rsBase c + RESAMP.RS_STATUS) 0 else t) s

/-- A lane's receiver holds a resampler channel. -/
def ltClaims (s : Dev) (n : Nat) : Bool :=
  (List.range 8).any (fun c => s.rsClaimed c && s.fld (rsBase c + RESAMP.RS_STATUS) 16 4 == n)

/-- The claim of a lane follows its attach type, `RX_EN` and rate (R333). -/
def rsFollow (s : Dev) (n : Nat) : Dev :=
  let a := Pg.LANTERN n + LANTERN.LT_CTRL
  let want := s.typeE (n / 4) && s.bit a 0 && s.fld a 4 2 == 3
  if want && !s.ltClaims n then s.rsClaim n else if !want && s.ltClaims n then s.rsRelease n else s

/-- Input samples a channel uses at its position: sixteen from 7 before it, none before the first; nothing while the last
has not come (R331). -/
def rsWindow (s : Dev) (c : Nat) : Option (List (BitVec 40 × Bool)) :=
  let q := Sparse.get (fun _ => (0, [])) s.ana.rsIn c
  let n := Sparse.get (fun _ => 0) s.ana.rsPos c / 2 ^ 36
  if q.1 ≤ n + 8 then none
  else some ((List.range 16).map (fun t => if n + t < 7 then (0, false) else q.2.getD (q.1 - 1 - (n + t - 7)) (0, false)))

/-- The output at a channel's position: the sum over its window, rounded half to even to 40 bits (R331). -/
def rsSum (s : Dev) (c : Nat) (w : List (BitVec 40 × Bool)) : BitVec 40 :=
  let phase := Sparse.get (fun _ => 0) s.ana.rsPos c / 2 ^ 30 % 64
  round40 ((w.zipIdx.map (fun x => Config.rsCoef phase x.2 * x.1.1.toInt)).sum) 30

/-- One output of a channel: its value, the next position, `SETTLE`, `OVER` of any sample used, and the slice's sequencers'
event. Samples of a Lantern decimator come with it. -/
def rsSample (s : Dev) (c : Nat) (lantern : List (BitVec 40 × Bool)) : Dev :=
  let b := rsBase c
  let s := if s.rsOn c && decide (64 ≤ s.fld (b + RESAMP.RS_CFG) 8 7) then lantern.foldl (fun t x => t.rsInput c x) s else s
  match if s.rsOn c then s.rsWindow c else none with
  | none => s
  | some w =>
    let x := s.rsSum c w
    let ovr := w.any Prod.snd
    let left := Sparse.get (fun _ => 0) s.ana.rsSettle c
    let hi := ((s.fld (b + RESAMP.SAMPLE_HI) 16 16 + 1) % 2 ^ 16) * 2 ^ 16 + (if ovr then 2 ^ 9 else 0)
      + (if left = 0 then 0 else 2 ^ 8) + x.toNat / 2 ^ 32
    let t := (s.wr (b + RESAMP.SAMPLE_LO) (BitVec.setWidth 32 x)).wr (b + RESAMP.SAMPLE_HI) (BitVec.ofNat 32 hi)
    let pos := Sparse.get (fun _ => 0) t.ana.rsPos c + t.rsStep c
    let t := { t with ana := { t.ana with rsPos := Sparse.put (fun _ => 0) t.ana.rsPos c pos,
                                          rsSettle := Sparse.put (fun _ => 0) t.ana.rsSettle c (left - 1) } }
    t.loopEvent (c / 2) (20 + c % 2)

end Dev

/-- OUT_ENABLE (R323). -/
def execOutEnable (m : Master) (sl : Slice) (k : Fin 10) (s : State) : Out :=
  s.run (fun d => d.access m (Dev.outBase sl k + ANA.OUT_CFG) (fun t => t.outEnable sl k true))

/-- OUT_DISABLE (R323). -/
def execOutDisable (m : Master) (sl : Slice) (k : Fin 10) (s : State) : Out :=
  s.run (fun d => d.access m (Dev.outBase sl k + ANA.OUT_CFG) (fun t => t.outEnable sl k false))

/-- `OUT_CMD.CLEAR` of an output (R323). -/
def outClear (t : Dev) (m : Master) (sl k : Nat) : Dev :=
  t.need m (Pg.ANA sl + ANA.OUT_CMD) (t.outState sl k == 3) Err.state (fun u =>
    (u.setF (Dev.outBase sl k + ANA.OUT_STATUS) 16 8 0).outCheck sl k)

/-- OUT_CMD_CLEAR (R323). -/
def execOutCmdClear (m : Master) (sl : Slice) (k : Fin 10) (s : State) : Out :=
  s.run (fun d => d.access m (Pg.ANA sl + ANA.OUT_CMD) (fun t => outClear t m sl k))

/-- OUTPUT_RETRY: `RETRY_DELAY` ms in FAULT, in hardware mode (R323). -/
def execOutputRetry (sl : Slice) (k : Fin 10) (s : State) : Out :=
  s.run (fun d =>
    if d.outState sl k = 3 ∧ d.outRetryLeft sl k = true then
      (d.setF (Dev.outBase sl k + ANA.OUT_STATUS) 16 8 (d.outRetries sl k + 1)).outCheck sl k
    else d)

/-- READBACK_CHECK_DONE: the check in progress ends with a mean and what the supervision senses of an IDAC; an output
marked in `OOR_MAP` fails it (R325, R359). -/
def execReadbackCheckDone (sl : Slice) (mean : BitVec 20) (sense : OutSense) (s : State) : Out :=
  s.run (fun d =>
    if d.chkRuns sl then
      let k := d.chkOutput sl
      let oor := bitOf (Sparse.get (fun _ => 0) d.cal.oor (16 + sl)) k
      let trip := if k < 8 then d.tripOf k (d.outDrive sl k) sense else 0
      let pass := trip == 0 && d.meanFits k (d.outDrive sl k) mean.toNat && !oor
      let v := (if pass then 2 ^ 31 else 0) + k * 2 ^ 24 + mean.toNat
      let t := d.wr (Pg.ANA sl + ANA.CHK_VALUE) (BitVec.ofNat 32 v)
      if pass then (t.setOut sl k 2).closeFault 15 (Dev.outUnit sl k) 0 false
      else t.outFault sl k (if trip = 0 then 3 else trip)
    else d)

/-- SUPERVISION_TRIP: what has been sensed for `SUP_FILTER` µs meets a condition, in ACTIVE (R324). -/
def execSupervisionTrip (sl : Slice) (k : Fin 10) (sense : OutSense) (s : State) : Out :=
  s.run (fun d =>
    let trip := d.tripOf k (d.outDrive sl k) sense
    if d.outState sl k = 2 ∧ trip ≠ 0 then (d.outFault sl k trip).ownerEvent sl k 4 else d)

/-- CODE_WRITE (R318, R319, R322). -/
def execCodeWrite (m : Master) (sl : Slice) (k : Fin 10) (v : Word) (s : State) : Out :=
  s.run (fun d => d.access m (Dev.outBase sl k + ANA.CODE) (fun t => t.codeSet m sl k v))

/-- `DITHER_CMD.SYNC` of the generators named. -/
def ditherSyncAll (t : Dev) (gens : Nat) : Dev := (List.range 16).foldl (fun t g => if gens.testBit g then t.setPhase g 0 else t) t

/-- DITHER_SYNC (R321). -/
def execDitherSync (m : Master) (gens : BitVec 16) (s : State) : Out :=
  s.run (fun d => d.access m (Pg.DITHER + DITHER.DITHER_CMD) (fun t => ditherSyncAll t gens.toNat))

/-- MONITOR_SAMPLE (R326–R329). -/
def execMonitorSample (sl : Slice) (i : Fin 12) (sum : Int) (ovr borrowed : Bool) (s : State) : Out :=
  s.run (fun d => d.sample sl i sum ovr borrowed)

/-- RESAMPLER_SAMPLE (R331). -/
def execResamplerSample (c : Fin 8) (lantern : List (BitVec 40 × Bool)) (s : State) : Out := s.run (fun d => d.rsSample c lantern)

end Sys2Proof.Machine
end

