-- ==== Sys2Proof/Machine/FlowRec.lean ====
section
/-! DEFINITION. Flow records: their fields, the flow cache, meters and refunds, initialisation, bulk-window writes, the
sweep and flow export (06, R180–R192, R208–R213). -/

namespace Sys2Proof.Machine

/-! ### State records (R180) -/

/-- A state record. -/
abbrev Rec := BitVec 512

namespace Rec
@[simp] abbrev TC : Nat × Nat := (0, 48)
@[simp] abbrev TE : Nat × Nat := (48, 48)
@[simp] abbrev RATE_C : Nat × Nat := (96, 32)
@[simp] abbrev RATE_E : Nat × Nat := (128, 32)
@[simp] abbrev BURST_C : Nat × Nat := (160, 32)
@[simp] abbrev BURST_E : Nat × Nat := (192, 32)
@[simp] abbrev METER_TIME : Nat × Nat := (224, 40)
@[simp] abbrev FIRST_SEEN : Nat × Nat := (264, 40)
@[simp] abbrev LAST_SEEN : Nat × Nat := (304, 40)
@[simp] abbrev LAST_EXPORT : Nat × Nat := (344, 40)
@[simp] abbrev PKTS : Nat × Nat := (384, 40)
@[simp] abbrev BYTES : Nat × Nat := (424, 56)
@[simp] abbrev STATE : Nat × Nat := (480, 2)
@[simp] abbrev LEARNED : Nat × Nat := (482, 1)
@[simp] abbrev NO_EXPORT : Nat × Nat := (483, 1)
@[simp] abbrev ALIAS_SEEN : Nat × Nat := (484, 1)
@[simp] abbrev RED_SEEN : Nat × Nat := (485, 1)
@[simp] abbrev EXPORT_SEQ : Nat × Nat := (488, 8)
@[simp] abbrev DROPS : Nat × Nat := (496, 16)
end Rec

/-- A field of a record. -/
def Rec.get (r : Rec) (f : Nat × Nat) : Nat := r.toNat / 2 ^ f.1 % 2 ^ f.2

/-- A record with a field replaced. -/
def Rec.set (r : Rec) (f : Nat × Nat) (v : Nat) : Rec :=
  (r &&& ~~~(BitVec.ofNat 512 ((2 ^ f.2 - 1) * 2 ^ f.1))) ||| BitVec.ofNat 512 (v % 2 ^ f.2 * 2 ^ f.1)

/-- Word k of a record, and a record of 16 words. -/
def Rec.word (r : Rec) (k : Nat) : Word := BitVec.ofNat 32 (r.get (32 * k, 32))
def Rec.ofWords (ws : List Word) : Rec := BitVec.ofNat 512 ((List.range 16).map (fun k => (ws.getD k 0).toNat * 2 ^ (32 * k))).sum

/-! ### Meters (R189–R192) -/

/-- Tokens a rate adds in a time, 2^−16 byte (R189). -/
def refillAmount (rate dt : Nat) : Nat := (roundHalfEven ((rate * dt : Nat) : Int) 4).toNat

/-- A record after a refill in a meter mode at an instant, a time having passed (R189). -/
def refillBy (mode now dt : Nat) (r : Rec) : Rec :=
  let capC := r.get Rec.BURST_C * 2 ^ 16
  let capE := r.get Rec.BURST_E * 2 ^ 16
  let tc := r.get Rec.TC + refillAmount (r.get Rec.RATE_C) dt
  let te := r.get Rec.TE
  if mode = 0 then r
  else
    let te' := if mode = 1 then (if capC < tc then min capE (te + (tc - capC)) else te)
      else min capE (te + refillAmount (r.get Rec.RATE_E) dt)
    ((r.set Rec.TC (min capC tc)).set Rec.TE te').set Rec.METER_TIME now

/-- Time since the last refill, modulo 2^40 ns. -/
def sinceRefill (now : Nat) (r : Rec) : Nat := (now + 2 ^ 40 - r.get Rec.METER_TIME) % 2 ^ 40

/-- A refill before a decision. -/
def refill (mode now : Nat) (r : Rec) : Rec := refillBy mode now (sinceRefill now r) r

/-- The decision table of R190: final colour and what is taken from each bucket, for a length in 2^−16 byte. -/
def meter (mode colour tc te l : Nat) : Nat × Nat × Nat :=
  match mode with
  | 1 =>
    if colour = 0 ∧ l ≤ tc then (0, l, 0) else if colour ≤ 1 ∧ l ≤ te then (1, 0, l) else (2, 0, 0)
  | 2 =>
    if colour = 2 ∨ te < l then (2, 0, 0) else if colour = 1 ∨ tc < l then (1, 0, l) else (0, l, l)
  | 3 =>
    if colour = 0 ∧ l ≤ tc then (0, l, 0) else if colour ≤ 1 ∧ l ≤ te then (1, 0, l) else (2, 0, 0)
  | _ => (colour, 0, 0)

/-- A refund of what a packet took, and whether a cap reduced it (R192). -/
def refund (mode takenC takenE : Nat) (r : Rec) : Rec × Bool :=
  let capC := r.get Rec.BURST_C * 2 ^ 16
  let capE := r.get Rec.BURST_E * 2 ^ 16
  let tc := r.get Rec.TC + takenC
  let back := min takenC (tc - capC)
  let te := r.get Rec.TE + takenE + (if mode = 1 then back else 0)
  let lost := (mode != 1 && decide (0 < back)) || (decide (capE < te) && decide (r.get Rec.TE < te))
  ((r.set Rec.TC (tc - back)).set Rec.TE (if capE < te then max (r.get Rec.TE) capE else te), lost)

namespace Dev

/-- Nanosecond time and coarse time of the records. -/
def now40 (s : Dev) : Nat := s.timeBase.toNat % 2 ^ 40
def coarse (s : Dev) : Nat := s.timeBase.toNat / 2 ^ 10 % 2 ^ 40

/-! ### Memory operations wait for their stack (07, R216, R217) -/

def stack4 (s : Dev) (k : Nat) : Stack4 := Sparse.get (fun _ => Stack4.init) s.buf.hbm k
def setStack4 (s : Dev) (k : Nat) (v : Stack4) : Dev :=
  { s with buf := { s.buf with hbm := Sparse.put (fun _ => Stack4.init) s.buf.hbm k v } }

/-- A channel of 0 to 63 is retired. -/
def chRetired (s : Dev) (c : Nat) : Bool := s.bit (Pg.HBM (c / 16) + HBM.CH_RETIRED) (c % 16)

/-- The relocation directory: the channel that serves what a channel held, itself or after its retirement the next in
service (R215, R237; log entry 10). -/
def chServing (s : Dev) (c : Nat) : Nat :=
  ((List.range 64).find? (fun i => !s.chRetired ((c + i) % 64))).elim c (fun i => (c + i) % 64)

/-- An operation on bytes at an offset of a channel waits for its stack. -/
def hbmQueue (s : Dev) (c prio : Nat) (kind : HbmKind) (off : Nat) (bytes : Nat := 64) : Dev :=
  let ch := s.chServing c
  let x := s.stack4 (ch / 16)
  let o : HbmOp := { kind := kind, prio := prio, ch := ch, off := off, bytes := bytes, retried := false }
  s.setStack4 (ch / 16) { x with waiting := x.waiting ++ [o] }

/-- An operation on a flow's state or key record, which lie at the same place of their regions (R215). -/
def recQueue (s : Dev) (f prio : Nat) (kind : HbmKind) : Dev := s.hbmQueue (f % 64) prio kind (64 * (f / 64))

/-- An operation on the line of a shadow entry (R215). -/
def shadowQueue (s : Dev) (i prio : Nat) (kind : HbmKind) : Dev := s.hbmQueue (i % 64) prio kind (64 * (i / 256))

/-- An operation of a kind waits or is in flight in some stack. -/
def hbmAny (s : Dev) (sel : HbmKind → Bool) : Bool :=
  s.buf.hbm.any (fun x => x.2.waiting.any (fun o => sel o.kind) || x.2.inflight.any (fun o => sel o.kind))

/-- A fill of a flow's records is in progress. -/
def filling (s : Dev) (f : Nat) : Bool := s.hbmAny (fun k => k == .flowRead f || k == .keyRead f)

/-- A fill reads the state record and the key record together (R186). -/
def fillBegin (s : Dev) (f : Nat) : Dev :=
  if s.filling f then s else (s.recQueue f 1 (.flowRead f)).recQueue f 1 (.keyRead f)

/-! ### The flow cache (R185, R186) -/

/-- Set of a flow. -/
def cacheSet (f : Nat) : Nat := (f % 2 ^ 14) ^^^ (f / 2 ^ 14 % 2 ^ 11)

def cacheLine (s : Dev) (f : Nat) : Option CacheLine := s.flow.cache.find? (fun l => l.flow == f)
def resident (s : Dev) (f : Nat) : Bool := (s.cacheLine f).isSome

/-- What an unlisted state record holds: the latest fill that covers it (log entry 7: 0 before any). -/
def fillOf (fills : List Fill) (f : Nat) : Rec :=
  (fills.find? (fun x => decide (x.first ≤ f) && decide (f < x.first + x.count)
    && (match x.stack with | some k => f % 64 / 16 == k | none => true))).elim 0 (fun x => x.value)

/-- A record in HBM. -/
def hbmRec (s : Dev) (f : Nat) : Rec := Sparse.get (fillOf s.flow.fills) s.flow.recs f

def setHbmRec (s : Dev) (f : Nat) (r : Rec) : Dev :=
  { s with flow := { s.flow with recs := Sparse.put (fillOf s.flow.fills) s.flow.recs f r } }

/-- The record as it stands, taken from the cache when it is resident (R182). -/
def flowRec (s : Dev) (f : Nat) : Rec := (s.cacheLine f).elim (s.hbmRec f) (fun l => l.record)

/-- The record written where it stands. -/
def setFlowRec (s : Dev) (f : Nat) (r : Rec) : Dev :=
  if s.resident f then
    { s with flow := { s.flow with cache := s.flow.cache.map (fun l => if l.flow == f then { l with record := r, dirty := true } else l) } }
  else s.setHbmRec f r

def keyRec (s : Dev) (f : Nat) : KeyRec := Sparse.get (fun _ => KeyRec.init) s.flow.keys f

/-- Fingerprint of a key. -/
def fingerOf (key : List Byte) : Word := BitVec.ofNat 32 (crc32c key)

/-- A key record written, the resident copies of fingerprint and key-valid bit with it (R168, R186). -/
def setKeyRec (s : Dev) (f : Nat) (k : KeyRec) : Dev :=
  { s with flow := { s.flow with
      keys := Sparse.put (fun _ => KeyRec.init) s.flow.keys f k
      cache := s.flow.cache.map (fun l => if l.flow == f then { l with finger := fingerOf k.key, kvalid := k.valid } else l) } }

/-- Packets of a port. -/
def packets (s : Dev) (p : Nat) : List Packet := Sparse.get (fun _ => []) s.flow.ports p
def setPackets (s : Dev) (p : Nat) (l : List Packet) : Dev :=
  { s with flow := { s.flow with ports := Sparse.put (fun _ => []) s.flow.ports p l } }

/-- A pending journal entry stands on a record, which pins it (R185); one whose decision ended under R187 or R195 stands
on none. -/
def pinned (s : Dev) (f : Nat) : Bool :=
  s.flow.ports.any (fun x => x.2.any (fun k => k.slot && match k.decided with
    | some c => !c.unread && !c.pinned && (c.flow == f || c.hitFlow == f)
    | none => false))

def setLines (s : Dev) (set : Nat) : List CacheLine := s.flow.cache.filter (fun l => cacheSet l.flow == set)

/-- Records held beyond the eight ways of their sets. -/
def cacheOverflow (s : Dev) : Nat :=
  (((s.flow.cache.map (fun l => cacheSet l.flow)).eraseDups).map (fun x => (s.setLines x).length - 8)).sum

/-- `CACHE_STATUS.RESIDENT`. -/
def cacheShow (s : Dev) : Dev := s.setF (Pg.FLOW + FLOW.CACHE_STATUS) 0 18 (min 131072 s.flow.cache.length)

/-- A record is written back when it is dirty. -/
def writeBack (s : Dev) (l : CacheLine) : Dev :=
  if l.dirty then
    ((s.setHbmRec l.flow l.record).count48 (Pg.FLOW + FLOW.WRITEBACKS)).recQueue l.flow 4 (.writeBack l.flow)
  else s

/-- The least recently used unpinned record of a set is evicted, if there is one. -/
def evict (s : Dev) (set : Nat) : Dev × Bool :=
  match (s.setLines set).reverse.find? (fun l => !s.pinned l.flow) with
  | none => (s, false)
  | some l => (({ s with flow := { s.flow with cache := s.flow.cache.filter (fun x => x.flow != l.flow) } }).writeBack l, true)

/-- A record becomes the most recently used, filled from HBM when it is not resident; false when every way of its set
and the 64-entry overflow are pinned (R195). A segment under test holds nothing: its records stay in HBM (18, R470). -/
def cacheUse (s : Dev) (f : Nat) : Dev × Bool :=
  match s.cacheLine f with
  | some l =>
    ({ s with flow := { s.flow with cache := l :: s.flow.cache.filter (fun x => x.flow != f) } }, true)
  | none =>
    let set := cacheSet f
    if s.test.segment = some (set / 2048) then (s, true) else
    let k := s.keyRec f
    let line : CacheLine := { flow := f, record := s.hbmRec f, dirty := false, finger := fingerOf k.key, kvalid := k.valid }
    let add (t : Dev) := ({ t with flow := { t.flow with cache := line :: t.flow.cache } }).cacheShow
    if (s.setLines set).length < 8 then (add s, true)
    else
      let e := s.evict set
      if e.2 then (add e.1, true) else if s.cacheOverflow < 64 then (add s, true) else (s, false)

/-- A set gives up what it holds beyond its ways once that is unpinned. -/
def cacheTrim (s : Dev) (f : Nat) : Dev :=
  if 8 < (s.setLines (cacheSet f)).length then ((s.evict (cacheSet f)).1).cacheShow else s

/-! ### Initialisation (R184) -/

/-- A template record at an instant. -/
def template (s : Dev) : Rec :=
  let v (a : Nat) : Nat := (s.rd (Pg.FLOW + a)).toNat
  let r := ((0 : Rec).set Rec.TC (v FLOW.TPL_BURST_C * 2 ^ 16)).set Rec.TE (v FLOW.TPL_BURST_E * 2 ^ 16)
  let r := (((r.set Rec.RATE_C (v FLOW.TPL_RATE_C)).set Rec.RATE_E (v FLOW.TPL_RATE_E)).set Rec.BURST_C (v FLOW.TPL_BURST_C)).set
    Rec.BURST_E (v FLOW.TPL_BURST_E)
  (r.set Rec.METER_TIME s.now40).set Rec.STATE 1

/-- State records of a range written from the template; resident ones stay resident. -/
def initStates (s : Dev) (first n : Nat) : Dev :=
  let r := s.template
  let inside (f : Nat) := decide (first ≤ f) && decide (f < first + n)
  let fills := (⟨first, n, none, r⟩ : Fill) :: s.flow.fills.filter (fun x => !(decide (first ≤ x.first) && decide (x.first + x.count ≤ first + n)))
  { s with flow := { s.flow with
      recs := Sparse.clear inside s.flow.recs
      fills := fills
      cache := s.flow.cache.map (fun l => if inside l.flow then { l with record := r, dirty := true } else l) } }

/-- Key records of a range written all-zero, the key-valid bits of resident records cleared. -/
def initKeyRecs (s : Dev) (first n : Nat) : Dev :=
  let inside (f : Nat) := decide (first ≤ f) && decide (f < first + n)
  { s with flow := { s.flow with
      keys := Sparse.clear inside s.flow.keys
      cache := s.flow.cache.map (fun l => if inside l.flow then { l with kvalid := false } else l) } }

/-- `INIT_CMD`. -/
def flowInit (s : Dev) (m : Master) (states keys : Bool) : Dev :=
  let a := Pg.FLOW + FLOW.INIT_CMD
  let st := Pg.FLOW + FLOW.INIT_STATUS
  let first := s.fld (Pg.FLOW + FLOW.INIT_FIRST) 0 25
  let n := s.fld (Pg.FLOW + FLOW.INIT_COUNT) 0 26
  if !states && !keys then s
  else if s.bit st 29 then s.logErr m a Err.state
  else if 33554432 < first + n then s.logErr m a Err.config
  else if n = 0 then (s.wr st 0xC0000000).raise Pg.FLOW 8
  else
    let t := if states then s.initStates first n else s
    let t := if keys then t.initKeyRecs first n else t
    t.wr st (BitVec.ofNat 32 (2 ^ 29 + n))

/-! ### Bulk-window writes of state records (R182, R183) -/

/-- Bulk offset of a word of window record i. -/
def recOffset (i w : Nat) : Nat := 0xD00000 + 128 * i + 4 * w

/-- The flow a window record is. -/
def windowFlow (s : Dev) (i : Nat) : Nat := 8192 * s.fld (Pg.FLOW + FLOW.REC_BASE) 0 12 + i

def recStageKey (m : Master) (w : Nat) : Nat := 16 * (masterId m).toNat + w

/-- Staged words of a master are emptied. -/
def recUnstage (s : Dev) (m : Master) : Dev :=
  let id := (masterId m).toNat
  { s with flow := { s.flow with staged := Sparse.clear (fun k => k / 16 == id) s.flow.staged,
                                 stagedFor := Sparse.put (fun _ => none) s.flow.stagedFor id none } }

/-- A write to another record discards them, and counts. -/
def recOther (s : Dev) (m : Master) (f : Nat) : Dev :=
  match Sparse.get (fun _ => none) s.flow.stagedFor (masterId m).toNat with
  | some g => if g = f then s else ((s.recUnstage m).count (Pg.FLOW + FLOW.STAGE_DISCARD)).raise Pg.FLOW 11
  | none => s

/-- `REC_BASE` changes: what any master has staged is discarded. -/
def recBaseChanged (s : Dev) : Dev :=
  s.flow.stagedFor.foldl (fun t x =>
    match masterOf x.1 with
    | some m => ((t.recUnstage m).count (Pg.FLOW + FLOW.STAGE_DISCARD)).raise Pg.FLOW 11
    | none => t) s

def recStage (s : Dev) (m : Master) (i w : Nat) (v : Word) : Dev :=
  let f := s.windowFlow i
  let t := s.recOther m f
  { t with flow := { t.flow with staged := Sparse.put (fun _ => none) t.flow.staged (recStageKey m w) (some v),
                                 stagedFor := Sparse.put (fun _ => none) t.flow.stagedFor (masterId m).toNat (some f) } }

/-- Word 15: all sixteen words take effect; its reserved bits stay 0. -/
def recCommit (s : Dev) (m : Master) (i : Nat) (v : Word) : Dev :=
  let f := s.windowFlow i
  let t := s.recOther m f
  let old := t.flowRec f
  let w (k : Nat) : Word :=
    if k = 15 then v &&& ~~~(0xC0 : Word) else (Sparse.get (fun _ => none) t.flow.staged (recStageKey m k)).getD (old.word k)
  let t := if t.resident f then t else t.recQueue f 5 (.recWrite f)
  (t.setFlowRec f (Rec.ofWords ((List.range 16).map w))).recUnstage m

/-! ### Export and the sweep (R208–R213) -/

/-- An export record (Flow export and aging). -/
def exportBytes (f reason : Nat) (r : Rec) (k : KeyRec) : List Byte :=
  let n := k.key.length
  let bits := r.get Rec.LEARNED + 2 * r.get Rec.NO_EXPORT + 4 * r.get Rec.ALIAS_SEEN + 8 * r.get Rec.RED_SEEN
  bytesLE 4 (reason * 2 ^ 28 + f) ++ bytesLE 4 (n + (k.key.getD 0 0).toNat * 2 ^ 8 + r.get Rec.EXPORT_SEQ * 2 ^ 16 + bits * 2 ^ 24)
    ++ bytesLE 8 (r.get Rec.FIRST_SEEN) ++ bytesLE 8 (r.get Rec.LAST_SEEN) ++ bytesLE 8 (r.get Rec.PKTS) ++ bytesLE 8 (r.get Rec.BYTES)
    ++ bytesLE 2 (r.get Rec.DROPS) ++ List.replicate 6 0 ++ slice k.key 0 48 ++ List.replicate 32 0

/-- An export record of a flow, its key read from HBM; the flag says whether the ring took it (R209, R211). -/
def flowExport (s : Dev) (f reason : Nat) : Dev × Bool :=
  let r := s.flowRec f
  let r' := r.set Rec.EXPORT_SEQ (r.get Rec.EXPORT_SEQ + 1)
  let s := s.recQueue f 5 (.exportRead f)
  let t := s.place 3 (exportBytes f reason r' (s.keyRec f)) 0
  if t.2 then ((t.1.setFlowRec f r').count48 (Pg.FEXP + FEXP.EXPORTS), true)
  else ((t.1.count (Pg.FEXP + FEXP.EXP_RING_FULL)).raise Pg.FEXP 9, false)

/-- Coarse time passed since a field, in nanoseconds. -/
def coarseSince (s : Dev) (v : Nat) : Nat := ((s.coarse + 2 ^ 40 - v) % 2 ^ 40) * 1024

/-- The export checks of a visit (R209). -/
def exportVisit (s : Dev) (f : Nat) : Dev :=
  let r := s.flowRec f
  let idle := s.fld (Pg.FEXP + FEXP.EXP_IDLE) 0 16
  let active := s.fld (Pg.FEXP + FEXP.EXP_ACTIVE) 0 16
  if s.assisted Pg.FEXP || r.get Rec.STATE != 2 || r.get Rec.NO_EXPORT != 0 || s.pinned f then s
  else if idle ≠ 0 ∧ idle * 1000000000 ≤ s.coarseSince (r.get Rec.LAST_SEEN) then
    let t := s.flowExport f 1
    if t.2 then
      let q := t.1.flowRec f
      let q := ((q.set Rec.STATE 1).set Rec.PKTS 0).set Rec.BYTES 0
      t.1.setFlowRec f (((q.set Rec.DROPS 0).set Rec.ALIAS_SEEN 0).set Rec.RED_SEEN 0)
    else t.1
  else if active ≠ 0 ∧ active * 1000000000 ≤ s.coarseSince (r.get Rec.LAST_EXPORT) then
    let t := s.flowExport f 2
    if t.2 then t.1.setFlowRec f ((((t.1.flowRec f).set Rec.LAST_EXPORT t.1.coarse).set Rec.ALIAS_SEEN 0).set Rec.RED_SEEN 0) else t.1
  else s

/-- A refresh: the record holds no meter mode, so how `TE` refills is open between the modes of R189. -/
def refresh (s : Dev) (f dt : Nat) : Dev :=
  let mode := if s.freeWord.getLsbD 0 then 1 else 2
  (s.setFlowRec f (refillBy mode s.now40 dt (s.flowRec f))).nextFree

/-- One visit of the sweep (R208). -/
def sweepOne (s : Dev) : Dev :=
  let f := s.flow.sweep
  let st := Pg.FEXP + FEXP.SWEEP_STATUS
  let t := if f = 0 then { s with flow := { s.flow with sweepStart := s.mono } } else s
  let t := if t.resident f then t else t.recQueue f 5 (.sweepRead f)
  let dt := sinceRefill t.now40 (t.flowRec f)
  let t := if 2 ^ 38 ≤ dt then t.refresh f dt else t
  let t := if t.fld (Pg.FEXP + FEXP.SWEEP_PERIOD) 0 8 = 0 then t else t.exportVisit f
  let next := (f + 1) % 33554432
  let t := { t with flow := { t.flow with sweep := next } }
  if next = 0 then
    ((t.wr st 0).wr (Pg.FEXP + FEXP.SWEEP_TIME) (BitVec.ofNat 32 ((t.mono - t.flow.sweepStart) / 1000000))).raise Pg.FEXP 8
  else t.wr st (BitVec.ofNat 32 (2 ^ 31 + next))

/-- A learned entry's flow is removed: a REMOVED export while it is ACTIVE, unless it is never exported, and the record is
FREE (R180, R210, R211). -/
def exportRemoved (s : Dev) (f : Nat) : Dev :=
  if !s.assisted Pg.FEXP && (s.flowRec f).get Rec.STATE == 2 then
    let t := if (s.flowRec f).get Rec.NO_EXPORT = 0 then (s.flowExport f 3).1 else s
    t.setFlowRec f ((t.flowRec f).set Rec.STATE 0)
  else s

/-- Every dirty record is written back and stays resident (R185). -/
def cacheFlushAll (s : Dev) : Dev :=
  let t := s.flow.cache.foldl (fun t l => t.writeBack l) s
  { t with flow := { t.flow with cache := t.flow.cache.map (fun l => { l with dirty := false }) } }

/-- The refresh pass after Vigil: every record, the time being that spent in Vigil; the cache starts empty (R213). Each
record takes a free choice of its own of how `TE` refills; records that stand as initialised, full or zero, are the same
under both. -/
def refreshAll (s : Dev) (ns : Nat) : Dev :=
  let dt := min ns (2 ^ 38)
  let s := s.cacheFlushAll
  let f (k : Nat) (r : Rec) : Rec := refillBy (if (Config.freeWord (s.fresh + k)).getLsbD 0 then 1 else 2) s.now40 dt r
  let fills := s.flow.fills.map (fun x => { x with value := refillBy 2 s.now40 dt x.value })
    ++ [⟨0, 33554432, none, refillBy 2 s.now40 dt 0⟩]
  let recs := s.flow.recs.foldl (fun a x => Sparse.put (fillOf fills) a x.1 (f x.1 x.2)) []
  { ({ s with flow := { s.flow with recs := recs, fills := fills, cache := [], refreshDue := false } }).cacheShow with
    fresh := s.fresh + 33554432 }

end Dev

/-- RECORD_WORD_STAGE (R182). -/
def execRecordWordStage (m : Master) (i : Fin 8192) (w : Fin 15) (v : Word) (s : State) : Out :=
  s.run (fun d => d.bulkAccess m 0x070 (Dev.recOffset i w) (fun t => t.recStage m i w v))

/-- RECORD_WORD_COMMIT (R182, R183). -/
def execRecordWordCommit (m : Master) (i : Fin 8192) (v : Word) (s : State) : Out :=
  s.run (fun d => d.bulkAccess m 0x070 (Dev.recOffset i 15) (fun t => t.recCommit m i v))

/-- INIT_STATE (R184). -/
def execInitState (m : Master) (s : State) : Out :=
  s.run (fun d => d.access m (Pg.FLOW + FLOW.INIT_CMD) (fun t => t.flowInit m true false))

/-- INIT_KEYS (R184). -/
def execInitKeys (m : Master) (s : State) : Out :=
  s.run (fun d => d.access m (Pg.FLOW + FLOW.INIT_CMD) (fun t => t.flowInit m false true))

/-- INIT_DONE (R184). -/
def execInitDone (s : State) : Out :=
  s.run (fun d =>
    let st := Pg.FLOW + FLOW.INIT_STATUS
    if d.bit st 29 then
      (d.wr st (BitVec.ofNat 32 (2 ^ 31 + d.fld st 0 26))).raise Pg.FLOW 8
    else d)

namespace Dev

/-- `CACHE_CMD.FLUSH` starts. -/
def cacheFlush (s : Dev) : Dev := (s.cacheFlushAll).setB (Pg.FLOW + FLOW.CACHE_STATUS) 31 true

end Dev

/-- CACHE_FLUSH (R185). -/
def execCacheFlush (m : Master) (s : State) : Out :=
  s.run (fun d => d.access m (Pg.FLOW + FLOW.CACHE_CMD) (fun t => t.cacheFlush))

/-- CACHE_FLUSH_DONE (R185). -/
def execCacheFlushDone (s : State) : Out :=
  s.run (fun d =>
    let st := Pg.FLOW + FLOW.CACHE_STATUS
    if d.bit st 31 then (d.setB st 31 false).raise Pg.FLOW 9 else d)

/-- SWEEP_VISIT (R208, R209). -/
def execSweepVisit (s : State) : Out := s.run (fun d => d.sweepOne)

end Sys2Proof.Machine
end

