-- ==== Sys2Proof/Machine/Buffer.lean ====
section
/-! DEFINITION. The packet buffer: pages and free lists, queues, admission, memory operations and channel retirement
(07, R214–R228, R234–R244). -/

namespace Sys2Proof.Machine

/-- Stored size of a frame (Pages and packing). -/
def storedSize (len : Nat) : Nat := 16 + 16 * ((len + 15) / 16)

/-- Registers of a queue. -/
abbrev qBase (q : Nat) : Nat := Pg.QUEUE (q / 32) + 0x40 * (q % 32)

namespace Dev

/-! ### Pages and free lists (R215, R222) -/

def pageChannel (page : Nat) : Nat := page / 374784

/-- An operation on bytes of a page, and one on its link entry, which lies in a channel of another stack (R215). -/
def pageQueue (s : Dev) (page prio : Nat) (kind : HbmKind) (off bytes : Nat) : Dev :=
  s.hbmQueue (pageChannel page) prio kind (4096 * (page % 374784) + off) bytes
def linkQueue (s : Dev) (page prio : Nat) (kind : HbmKind) : Dev :=
  s.hbmQueue ((pageChannel page + 16) % 64) prio kind (64 * (page % 374784 / 8))

def freeList (s : Dev) (c : Nat) : FreeList := Sparse.get (fun _ => FreeList.init) s.buf.free c
def setFreeList (s : Dev) (c : Nat) (v : FreeList) : Dev :=
  { s with buf := { s.buf with free := Sparse.put (fun _ => FreeList.init) s.buf.free c v } }

/-- Free pages of a channel, none when it is retired. -/
def freeIn (s : Dev) (c : Nat) : Nat :=
  if s.chRetired c then 0 else let f := s.freeList c; (f.top - f.next) + f.returned.length

def queue (s : Dev) (q : Nat) : Queue := Sparse.get (fun _ => Queue.init) s.buf.queues q
def setQueue (s : Dev) (q : Nat) (v : Queue) : Dev :=
  { s with buf := { s.buf with queues := Sparse.put (fun _ => Queue.init) s.buf.queues q v } }

/-- B_q: stored sizes of the records that are not void. -/
def occupancy (x : Queue) : Nat := ((x.recs.filter (fun r => !r.void)).map (fun r => storedSize r.len)).sum

/-- Guarantee of a queue not yet used, in pages (R226). -/
def guarantee (s : Dev) (q : Nat) : Nat :=
  (1024 * s.fld (qBase q + QUEUE.Q_MIN) 0 27 - occupancy (s.queue q) + 4079) / 4080

/-- F, G and the pages in all. -/
def freePages (s : Dev) : Nat := ((List.range 64).map s.freeIn).sum
def guaranteePages (s : Dev) : Nat := ((List.range 128).map s.guarantee).sum
def totalPages (s : Dev) : Nat := 374784 * ((List.range 64).filter (fun c => !s.chRetired c)).length - s.buf.relocPages

/-- F − G is below `POOL_HEADROOM`, as the registers have them. -/
def poolLow (s : Dev) : Bool :=
  decide (s.fld (Pg.BUF + BUF.FREE_PAGES) 0 25
    < s.fld (Pg.BUF + BUF.GUARANTEE_PAGES) 0 25 + s.fld (Pg.BUF + BUF.POOL_HEADROOM) 0 25)

/-- POOL_LOW rises where a change has brought it about. -/
def poolAfter (s t : Dev) : Dev := if t.poolLow && !s.poolLow then t.raise Pg.BUF 8 else t

/-- `FREE_PAGES`, `GUARANTEE_PAGES` and `TOTAL_PAGES` after a change, with POOL_LOW when F − G has fallen below
`POOL_HEADROOM` and CAPACITY when the total has changed. -/
def bufShow (s : Dev) : Dev :=
  let t := s.setF (Pg.BUF + BUF.FREE_PAGES) 0 25 s.freePages
  let t := s.poolAfter (t.setF (Pg.BUF + BUF.GUARANTEE_PAGES) 0 25 s.guaranteePages)
  if t.fld (Pg.BUF + BUF.TOTAL_PAGES) 0 25 ≠ s.totalPages then (t.setF (Pg.BUF + BUF.TOTAL_PAGES) 0 25 s.totalPages).raise Pg.BUF 10
  else t

/-- The registers of a queue after a change (R225). -/
def queueShow (s : Dev) (q : Nat) : Dev :=
  let x := s.queue q
  let done := x.recs.filter (fun r => r.committed && !r.void)
  let t := s.setF (qBase q + QUEUE.OCC_KIB) 0 27 (occupancy x / 1024)
  let t := t.setF (qBase q + QUEUE.AVG_KIB) 0 27 (x.avg / 256)
  let t := t.wr (qBase q + QUEUE.Q_PKTS) (BitVec.ofNat 32 done.length)
  let t := t.setF (qBase q + QUEUE.Q_BYTES) 0 27 ((done.map (fun r => r.len)).sum / 1024)
  t.setF (qBase q + QUEUE.HEAD) 0 25 (x.pages.headD 0)

/-- The pages of a channel's free list that the island holds, and the anchor: the page at which the list goes on in the
link entries (R215, R222). -/
def FreeList.onIsland (f : FreeList) (c : Nat) : List Nat :=
  let n := min 64 (f.top - f.next)
  (List.range n).map (fun i => 374784 * c + f.next + i) ++ f.returned.take (64 - n)
def FreeList.anchor (f : FreeList) (c : Nat) : Option Nat :=
  if 64 < f.top - f.next then some (374784 * c + f.next + 64) else (f.returned.drop (64 - (f.top - f.next))).head?

/-- One page is taken, from the channels in rotation, an empty list skipped; the link entry of the page that takes its
place on the island is read (R222). -/
def takePage (s : Dev) : Dev × Option Nat :=
  match ((List.range 64).map (fun i => (s.buf.rota + i) % 64)).find? (fun c => decide (0 < s.freeIn c)) with
  | none => (s, none)
  | some c =>
    let f := s.freeList c
    let page := if f.next < f.top then 374784 * c + f.next else f.returned.headD 0
    let f' := if f.next < f.top then { f with next := f.next + 1 } else { f with returned := f.returned.drop 1 }
    let t := s.setFreeList c f'
    let t := { t with buf := { t.buf with rota := (c + 1) % 64 } }
    match FreeList.anchor f c with
    | some a => (t.linkQueue a 4 (.listRead a), some page)
    | none => (t, some page)

/-- n pages are taken. -/
def takePages (s : Dev) : Nat → Dev × List Nat
  | 0 => (s, [])
  | n + 1 =>
    match s.takePage with
    | (t, none) => (t, [])
    | (t, some p) => let r := t.takePages n; (r.1, p :: r.2)

/-- A page returns to its channel's list, which is linked to it; a page of a retired channel is lost. -/
def givePage (s : Dev) (page : Nat) : Dev :=
  let c := pageChannel page
  if s.chRetired c then s
  else let f := s.freeList c; (s.setFreeList c { f with returned := f.returned ++ [page] }).linkQueue page 4 (.listWrite page)

/-! ### Writing records (R220, R223, R224) -/

/-- Bytes left in the tail page of a queue. -/
def tailRest (x : Queue) : Nat := if x.pages.isEmpty then 0 else 4096 - x.wptr

/-- Pages a record needs beyond them: n_new of R226. -/
def newPages (x : Queue) (size : Nat) : Nat := (size - tailRest x + 4079) / 4080

/-- Where a record starts in its first page. -/
def recStart (r : BufRec) : Nat := if r.start = 0 ∨ r.start = 4096 then 16 else r.start

/-- The pieces of a record: page, offset in the page and length. -/
def recParts (start : Nat) : List Nat → Nat → List (Nat × Nat × Nat)
  | [], _ => []
  | p :: l, size => let n := min size (4096 - start); (p, start, n) :: recParts 16 l (size - n)

/-- The operations a piece takes: whole lines of 64 bytes, at most 1 KiB each (R216). -/
def partOps (x : Nat × Nat × Nat) : List (Nat × Nat × Nat) :=
  let lo := x.2.1 / 64 * 64
  let hi := (x.2.1 + x.2.2 + 63) / 64 * 64
  (List.range 4).filterMap (fun b =>
    let a := max lo (1024 * b)
    let z := min hi (1024 * (b + 1))
    if a < z then some (x.1, a, z - a) else none)

/-- The operations that write or read a record. -/
def recOps (r : BufRec) : List (Nat × Nat × Nat) := (recParts (recStart r) r.pages (storedSize r.len)).flatMap partOps

/-- The header of a record (R220), from which the Ingress Tag is made. -/
def packetHeader (r : BufRec) : Nat :=
  let dscp : Nat × Bool := r.mark.getD (0, false)
  r.len % 2 ^ 14 + r.port % 16 * 2 ^ 14 + r.cls % 8 * 2 ^ 18 + r.colour % 4 * 2 ^ 21 + r.flags % 32 * 2 ^ 23
    + r.flow % 2 ^ 25 * 2 ^ 28 + r.umeta % 2 ^ 24 * 2 ^ 53 + r.time.toNat * 2 ^ 77 + r.void.toNat * 2 ^ 117
    + dscp.2.toNat * 2 ^ 118 + dscp.1 % 64 * 2 ^ 119

/-- The header of a page of a queue (R220); its lower half stands in the page's link entry too (R221). -/
def pageHeader (s : Dev) (q page : Nat) : Nat :=
  let x := s.queue q
  (match (x.pages.dropWhile (fun p => p != page)).drop 1 with
    | n :: _ => n + 2 ^ 25
    | [] => 0)
    + Sparse.get (fun _ => 0) x.first page * 2 ^ 26 + q % 128 * 2 ^ 38
def linkEntry (s : Dev) (q page : Nat) : BitVec 64 := BitVec.ofNat 64 (s.pageHeader q page)

/-- A record is written at the tail of its queue: its number, and the operations that write it. A page whose next page is
allocated has both copies of its link written (R221). -/
def writeRec (s : Dev) (q : Nat) (r : BufRec) : Dev × Nat :=
  let x := s.queue q
  let size := storedSize r.len
  let n := newPages x size
  let t := s.takePages n
  let rest := tailRest x
  let own := (if rest = 0 then [] else [x.pages.getLastD 0]) ++ t.2
  let num := t.1.buf.nextRec
  let wptr := if n = 0 then x.wptr + size else 16 + (size - rest - 4080 * (n - 1))
  let r : BufRec := { r with num := num, start := x.wptr, pages := own, added := t.2.length }
  let ops := recOps r
  let first := match own with
    | p :: _ => if Sparse.get (fun _ => 0) x.first p = 0 then Sparse.put (fun _ => 0) x.first p (recStart r) else x.first
    | [] => x.first
  let d := t.1.setQueue q { x with recs := x.recs ++ [{ r with toWrite := ops.length }], pages := x.pages ++ t.2, wptr := wptr,
                                   first := first }
  let d := { d with buf := { d.buf with nextRec := num + 1 } }
  let tails := (x.pages.drop (x.pages.length - 1) ++ t.2).take t.2.length
  let d := (if x.pages.isEmpty then tails.take (t.2.length - 1) else tails).foldl (fun d p =>
    (d.linkQueue p 4 (.linkWrite p)).pageQueue p 4 (.headWrite p) 0 64) d
  let d := ops.foldl (fun d o => d.pageQueue o.1 3 (.packetWrite num) o.2.1 o.2.2) d
  ((d.queueShow q).bufShow, num)

/-- Pages before the one where the head record starts return, the link entry of each followed; an empty queue keeps its
tail page (R221, R222). -/
def trimPages (s : Dev) (q : Nat) : Dev :=
  let x := s.queue q
  let keep := match x.recs with
    | r :: _ => x.pages.dropWhile (fun p => some p != r.pages.head?)
    | [] => x.pages.drop (x.pages.length - 1)
  let gone := x.pages.take (x.pages.length - keep.length)
  (gone.zip (x.pages.drop 1)).foldl (fun t p => (t.givePage p.1).linkQueue p.1 4 (.linkRead q p.1 p.2))
    (s.setQueue q { x with pages := keep, first := Sparse.clear (fun p => gone.contains p) x.first })

/-- A record leaves a queue. -/
def removeRec (s : Dev) (q num : Nat) : Dev :=
  let x := s.queue q
  (s.setQueue q { x with recs := x.recs.filter (fun r => r.num != num) }).trimPages q

/-- A revoked packet's space: given back with the write pointer when no later record follows, else its record is void
(R224). -/
def freeRec (s : Dev) (q num : Nat) : Dev :=
  let x := s.queue q
  match x.recs.find? (fun r => r.num == num) with
  | none => s
  | some r =>
    let t := if (x.recs.getLast?).map (fun l => l.num) = some num then
        let back := x.pages.drop (x.pages.length - r.added)
        let keep := x.pages.take (x.pages.length - r.added)
        let mine (p : Nat) : Bool :=
          back.contains p || (some p == r.pages.head? && Sparse.get (fun _ => 0) x.first p == recStart r)
        back.foldl (fun t p => t.givePage p)
          (s.setQueue q { x with recs := x.recs.dropLast, pages := keep, wptr := if keep.isEmpty then 0 else r.start,
                                 first := Sparse.clear mine x.first })
      else s.setQueue q { x with recs := x.recs.map (fun l => if l.num == num then { l with void := true } else l) }
    (t.queueShow q).bufShow

/-! ### Admission (R226, R227) -/

/-- One bit of the device generator, x^31 + x^28 + 1. -/
def lfsrBit (v : BitVec 31) : BitVec 31 := (v <<< 1) ||| (if xor (v.getLsbD 30) (v.getLsbD 27) then 1 else 0)

/-- The generator after a draw of 16 bits. -/
def lfsrDraw (v : BitVec 31) : BitVec 31 := (List.range 16).foldl (fun a _ => lfsrBit a) v

/-- The drop level t of a colour for an average A. -/
def dropLevel (min max pmax a : Nat) : Nat :=
  if a < 256 * min then 0 else if 256 * max ≤ a then 65536 else pmax * (a - 256 * min) / (256 * (max - min))

/-- A queue's average after a decision. -/
def nextAverage (a b w : Nat) : Nat := ((a : Int) + (((256 * (b / 1024) : Nat) : Int) - a) / 2 ^ w).toNat

/-- The decision on a record of a size: the drop reason, or none when it is to be written. The queue's average is
updated and a value drawn at every decision. -/
def admission (s : Dev) (q size colour : Nat) (certain : Bool) : Dev × Option Nat :=
  let x := s.queue q
  let b := occupancy x
  let a := nextAverage x.avg b (s.fld (qBase q + QUEUE.Q_CFG) 8 4)
  let prof := Pg.BUF + BUF.DROP_PROF + 0x30 * s.fld (qBase q + QUEUE.Q_CFG) 0 4 + 0x10 * colour
  let level := dropLevel (s.fld prof 0 27) (s.fld (prof + 4) 0 27) (s.fld (prof + 8) 0 16) a
  let gen := lfsrDraw s.buf.lfsr
  let draw := (Config.earlyDraw gen).toNat
  let min := 1024 * s.fld (qBase q + QUEUE.Q_MIN) 0 27
  let max := 1024 * s.fld (qBase q + QUEUE.Q_MAX) 0 27
  let need := newPages x size
  let free := s.freePages
  let t := s.setQueue q { x with avg := a }
  let t := { t with buf := { t.buf with lfsr := gen } }
  let out := if certain then some 0
    else if max < b + size then some 1
    else if b + size ≤ min ∧ free < need then some 3
    else if min < b + size ∧ free < need + s.fld (Pg.BUF + BUF.POOL_HEADROOM) 0 25 + s.guaranteePages then some 3
    else if min ≤ b ∧ draw < level then some 2
    else none
  (t.queueShow q, out)

/-! ### Issue and completion of memory operations (R216–R218, R234) -/

/-- Operations in flight, on the `HBM` page and on `BUF`, with their peaks. -/
def inflightShow (s : Dev) (k : Nat) : Dev :=
  let n := (s.stack4 k).inflight.length
  let all := ((List.range 4).map (fun i => (s.stack4 i).inflight.length)).sum
  let t := ((s.setF (Pg.HBM k + HBM.INFLIGHT) 0 13 n).peakF (Pg.HBM k + HBM.INFLIGHT_PEAK) 0 13 n)
  (t.setF (Pg.BUF + BUF.INFLIGHT) 0 15 all).peakF (Pg.BUF + BUF.INFLIGHT_PEAK) 0 15 all

/-- The first of the highest priority. -/
def nextOp (l : List HbmOp) : Option HbmOp :=
  l.foldl (fun b x => match b with | some y => if x.prio < y.prio then some x else b | none => some x) none

/-- The next operation of a stack is issued when the stack has room (R216, R217). -/
def hbmIssue (s : Dev) (k : Nat) : Dev :=
  let x := s.stack4 k
  match nextOp x.waiting with
  | none => s
  | some o =>
    if 4096 ≤ x.inflight.length then s
    else (s.setStack4 k { x with waiting := x.waiting.erase o, inflight := x.inflight ++ [o] }).inflightShow k

/-- The first operation of priority 4 or 5 in a list goes to priority 3. -/
def raiseFirst : List HbmOp → List HbmOp
  | [] => []
  | o :: r => if 4 ≤ o.prio then { o with prio := 3 } :: r else o :: raiseFirst r

/-- The oldest waiting operation of priority 4 or 5 is raised (R217). -/
def hbmRaise (s : Dev) (k : Nat) : Dev :=
  let x := s.stack4 k
  if x.waiting.any (fun o => decide (4 ≤ o.prio)) then s.setStack4 k { x with waiting := raiseFirst x.waiting } else s

def sched (s : Dev) (h : Nat) : Sched := Sparse.get (fun _ => Sched.init) s.buf.scheds h
def setSched (s : Dev) (h : Nat) (v : Sched) : Dev :=
  { s with buf := { s.buf with scheds := Sparse.put (fun _ => Sched.init) s.buf.scheds h v } }

/-- A record at the head of a queue that the dequeue passes: a void one counts its size, one with a page in a retired
channel or out of reach is LOST once it is committed (R224, R234, R236, R242). -/
def passed (s : Dev) (r : BufRec) : Bool := r.void || (r.committed && (r.gone || r.pages.any (fun p => s.chRetired (pageChannel p))))

/-- The dequeue passes such records. -/
def passHeads (s : Dev) (q : Nat) : Dev :=
  let gone := (s.queue q).recs.takeWhile s.passed
  if gone.isEmpty then s
  else
    let t := gone.foldl (fun t r =>
      let t := t.removeRec q r.num
      if r.void then t.count48 (Pg.BUF + BUF.VOID_BYTES) (storedSize r.len) else t.drop r.port 8 r.len) s
    (t.queueShow q).bufShow

/-- Records of a queue are out of reach. Each is LOST when the dequeue comes to it, a pending one only if it commits. -/
def loseRecs (s : Dev) (q : Nat) (sel : BufRec → Bool) : Dev :=
  let x := s.queue q
  (s.setQueue q { x with recs := x.recs.map (fun r => if sel r then { r with gone := true } else r) }).passHeads q

/-- The rest of a channel's free list beyond the 64 pages held on the island is abandoned (R234). -/
def abandonList (s : Dev) (c : Nat) : Dev :=
  let f := s.freeList c
  let n := min 64 (f.top - f.next)
  match f.aban with
  | some _ => s
  | none =>
    (s.setFreeList c { f with next := f.top, returned := FreeList.onIsland f c,
                              aban := some (f.next + n, f.returned.drop (64 - n)) }).bufShow

/-- The abandoned pages of a channel are recovered by its relocation scan. -/
def recoverList (s : Dev) (c : Nat) : Dev :=
  let f := s.freeList c
  match f.aban with
  | none => s
  | some (n, l) => (s.setFreeList c { f with next := n, returned := f.returned ++ l, aban := none }).bufShow

def bankOf (i : Nat) : Nat := i / 524288
abbrev bankBase (b : Nat) : Nat := Pg.CLS_BANK (b / 2) + 0x40 * (b % 2)

/-- A bank is under test or reloading. -/
def bankOff (s : Dev) (b : Nat) : Bool := s.fld (bankBase b + CLS_BANK.BANK_STATUS) 0 2 != 0

/-- An index is served from the shadow: its bank is off, or its bucket waits for a reload (R155, R176). -/
def indexOff (s : Dev) (i : Nat) : Bool := s.bankOff (bankOf i) || s.cls.badBuckets.contains (i / 4)

/-- A shadow entry of an invalid table entry, with its check. -/
def mkShadow (entry : BitVec 80) (keyType : Nat) : BitVec 128 :=
  let low := entry.toNat + keyType % 256 * 2 ^ 80
  BitVec.ofNat 128 (crc32c (bytesLE 12 low) * 2 ^ 96 + low)

/-- A table shadow entry; never written, it reads as an entry not in use with a good check (log entry 7). -/
def shadowAt (s : Dev) (i : Nat) : BitVec 128 := Sparse.get (fun _ => mkShadow 0 0) s.cls.shadow i

def setShadow (s : Dev) (i : Nat) (v : BitVec 128) : Dev :=
  ({ s with cls := { s.cls with shadow := Sparse.put (fun _ => mkShadow 0 0) s.cls.shadow i v } }).shadowQueue i 5 (.shadowWrite i)

/-- A shadow entry rewritten from its table entry, its key type as it was (R234, R237). -/
def rewriteShadow (s : Dev) (i : Nat) : Dev :=
  s.setShadow i (mkShadow (Sparse.get (fun _ => 0) s.cls.table i) ((s.shadowAt i).toNat / 2 ^ 80 % 256))

/-- Packets that wait for a fill cannot have their records (R187). -/
def fillFails (s : Dev) (f : Nat) : Dev :=
  let hit (x : Packet) : Bool := x.decided.isNone && x.fetched.contains f
  { s with flow := { s.flow with
      ports := s.flow.ports.map (fun p => (p.1, p.2.map (fun x => if hit x then { x with unread := true } else x))) } }

/-! ### The test of a stack (18, R471) -/

/-- The withheld pages return to their lists. -/
def giveWithheld (s : Dev) : Dev :=
  let t := s.buf.withheld.foldl (fun t p => t.givePage p) s
  ({ t with buf := { t.buf with withheld := [] } }).bufShow

/-- The first n pages of a channel's free list are withheld. -/
def withhold (s : Dev) (c n : Nat) : Dev :=
  let f := s.freeList c
  let k := min n (f.top - f.next)
  let pages := (List.range k).map (fun i => 374784 * c + f.next + i) ++ f.returned.take (n - k)
  let t := s.setFreeList c { f with next := f.next + k, returned := f.returned.drop (n - k) }
  ({ t with buf := { t.buf with withheld := pages } }).bufShow

/-- The test of a stack comes to its first channel in service from channel c on: all pages now free there are due. -/
def hbmTestFrom (s : Dev) (c : Nat) : Option (Nat × Nat) :=
  ((List.range 16).map (16 * (c / 16) + ·)).find? (fun i => decide (c ≤ i) && !s.chRetired i) |>.map (fun i => (i, s.freeIn i))

/-- The next batch of up to 4,096 free pages of the channel is withheld and tested, and after the last one the channel's
reserved lines are read, at priority 5; an operation stands for all of its batch. -/
def hbmTestStep (s : Dev) : Dev :=
  match s.test.hbm with
  | none => s
  | some (c, left) =>
    let n := min 4096 (min left (s.freeIn c))
    if 0 < n then
      let t := s.withhold c n
      ({ t with test := { t.test with hbm := some (c, left - n) } }).hbmQueue c 5 .testPages (4096 * (t.buf.withheld.headD 0 % 374784)) 1024
    else
      let next := if c % 16 = 15 then none else s.hbmTestFrom (c + 1)
      ({ s with test := { s.test with hbm := next } }).hbmQueue c 5 .testLines 0 1024

/-- A batch is done: its pages return before the next is taken. -/
def hbmTestNext (s : Dev) : Dev := s.giveWithheld.hbmTestStep

/-- The test of stack k ends: what it withholds returns, and what it still asks for is given up. -/
def hbmTestEnd (s : Dev) (k : Nat) : Dev :=
  let t := s.giveWithheld
  let keep (o : HbmOp) : Bool := o.kind != .testPages && o.kind != .testLines
  let x := t.stack4 k
  let t := t.setStack4 k { x with waiting := x.waiting.filter keep, inflight := x.inflight.filter keep }
  ({ t with test := { t.test with hbm := none } }).inflightShow k

/-- What an unreadable operation's data was for (R234). -/
def hbmUnreadable (s : Dev) (o : HbmOp) : Dev :=
  match o.kind with
  | .flowRead f => s.fillFails f
  | .keyRead f => s.fillFails f
  | .packetRead h num =>
    let x := s.sched h
    match x.txq.find? (fun e => e.1.num == num) with
    | some e => (s.setSched h { x with txq := x.txq.filter (fun e => e.1.num != num) }).drop e.1.port 8 e.1.len
    | none => s
  | .listRead page => s.abandonList (pageChannel page)
  | .linkRead q page next => s.pageQueue page 4 (.headRead q page next) 0 64
  | .headRead q _ next => s.loseRecs q (fun r => ((s.queue q).pages.dropWhile (fun p => p != next)).any (fun p => r.pages.contains p))
  | .shadowRead i => if s.indexOff i then s else s.rewriteShadow i
  | .testPages => s.hbmTestNext
  | .testLines => s.hbmTestNext
  | _ => s

/-- What a completed operation brings its requester. -/
def hbmDeliver (s : Dev) (o : HbmOp) : Dev :=
  match o.kind with
  | .packetWrite num =>
    let mark (x : Queue) : Queue := { x with recs := x.recs.map (fun r => if r.num == num then { r with toWrite := r.toWrite - 1 } else r) }
    { s with buf := { s.buf with queues := s.buf.queues.map (fun p => (p.1, mark p.2)) } }
  | .packetRead h num =>
    let x := s.sched h
    s.setSched h { x with txq := x.txq.map (fun e => if e.1.num == num then (e.1, e.2 - 1) else e) }
  | .testPages => s.hbmTestNext
  | .testLines => s.hbmTestNext
  | _ => s

/-- An operation reads. -/
def HbmKind.reads : HbmKind → Bool
  | .packetWrite _ => false
  | .writeBack _ => false
  | .listWrite _ => false
  | .linkWrite _ => false
  | .headWrite _ => false
  | .shadowWrite _ => false
  | .recWrite _ => false
  | _ => true

/-- The operation first issued to a stack completes with a result: one that fails on a parity error is retried once, in
its place; a write whose error persists is as good as written (R214, R234; log entry 76). -/
def hbmComplete (s : Dev) (k : Nat) (r : HbmResult) : Dev :=
  let x := s.stack4 k
  match x.inflight with
  | [] => s
  | o :: rest =>
    let a := Pg.HBM k
    let t := (s.setStack4 k { x with inflight := rest }).inflightShow k
    if r = .parity ∧ o.retried = false then
      (s.setStack4 k { x with inflight := { o with retried := true } :: rest }).count (a + HBM.PARITY_RETRY)
    else if !HbmKind.reads o.kind then t.hbmDeliver o
    else
      match r with
      | .ok => t.hbmDeliver o
      | .corrected => (t.count48 (a + HBM.ECC_CORR)).hbmDeliver o
      | _ =>
        let t := ((t.count (a + HBM.ECC_UNC)).count (a + HBM.CH_UNC + 4 * (o.ch % 16))).raise a 8
        let y := t.stack4 k
        (t.setStack4 k { y with uncTimes := (o.ch, t.mono) :: y.uncTimes.filter (fun u => decide (t.mono < u.2 + 1000000000)) }).hbmUnreadable o

/-! ### Retirement (R235–R238) -/

/-- `STACK_STATUS.RETIRED`. -/
def stackRetired (s : Dev) (k : Nat) : Bool := s.bit (Pg.HBM k + HBM.STACK_STATUS) 2

/-- Reserved content of channels takes n pages from the free lists of the channels in service, in equal shares. -/
def takeReloc (s : Dev) (n : Nat) : Dev :=
  let live := (List.range 64).filter (fun c => !s.chRetired c)
  let k := live.length
  let t := (live.zipIdx).foldl (fun t x =>
    let f := t.freeList x.1
    let want := n / k + (if x.2 < n % k then 1 else 0)
    let fromTop := min want (f.top - f.next)
    t.setFreeList x.1 { f with top := f.top - fromTop, returned := f.returned.take (f.returned.length - (want - fromTop)) }) s
  { t with buf := { t.buf with relocPages := t.buf.relocPages + n } }

/-- Channels of a stack leave service: removed from allocation, their pages lost, their reserved content on its way. A test
of the stack ends (18, R467). -/
def dropChannels (s : Dev) (chs : List Nat) : Dev :=
  chs.foldl (fun t c =>
    let k := c / 16
    let t := t.setB (Pg.HBM k + HBM.CH_RETIRED) (c % 16) true
    let t := t.setFreeList c FreeList.init
    let tested := t.test.cur == some k && t.fld (Pg.BIST + BIST.BIST_STATUS) 24 4 == 5
    let t := if tested then t.testLoss 5 else t
    let x := t.stack4 k
    t.setStack4 k { x with relocating := x.relocating ++ [c] }) s

/-- `RELOC_STATUS` while relocation runs. -/
def relocRun (s : Dev) (k : Nat) (toPool : Bool) : Dev :=
  s.wr (Pg.HBM k + HBM.RELOC_STATUS) (BitVec.ofNat 32 (2 ^ 30 + (if toPool then 2 ^ 29 else 0)))

/-- Channels of a stack retire alone: into the spare while it has room, else into pages (R236, R237). -/
def retireOnly (s : Dev) (k : Nat) (chs : List Nat) : Dev :=
  let t := (s.dropChannels chs).raise (Pg.HBM k) 9
  let fit := chs.take (2 - t.buf.spare.length)
  let rest := chs.drop (2 - t.buf.spare.length)
  let t := { t with buf := { t.buf with spare := t.buf.spare ++ fit } }
  let t := if rest.isEmpty then t else t.takeReloc (17664 * rest.length)
  (t.relocRun k (!rest.isEmpty)).bufShow

/-- A whole stack retires: its reserved content is replaced and relocated into pages of the others (R238). -/
def retireStack (s : Dev) (k : Nat) : Dev :=
  if s.stackRetired k then s
  else
    let chs := (List.range 16).map (16 * k + ·)
    let mine := s.buf.spare.filter (fun c => c / 16 == k)
    let t := (s.dropChannels (chs.filter (fun c => !s.chRetired c))).raise (Pg.HBM k) 10
    let t := { t with buf := { t.buf with spare := t.buf.spare.filter (fun c => !mine.contains c) } }
    let t := t.takeReloc (17664 * 16)
    let st := Pg.HBM k + HBM.STACK_STATUS
    let x := t.stack4 k
    let t := t.setStack4 k { x with relocating := chs }
    ((((t.setB st 1 false).setB st 2 true).setB st 4 true).relocRun k true).bufShow

/-- Another stack is retired already. -/
def otherRetired (s : Dev) (k : Nat) : Bool := (List.range 4).any (fun i => i != k && s.stackRetired i)

/-- Channels of a stack are to retire: a third of a stack takes the stack with it, unless by itself and another stack
is retired (R235, R238). -/
def retireChannels (s : Dev) (k : Nat) (chs : List Nat) (auto : Bool) : Dev :=
  let new := chs.filter (fun c => !s.chRetired c)
  let now := ((List.range 16).filter (fun i => s.chRetired (16 * k + i))).length
  if new.isEmpty then s
  else if now + new.length < 3 then s.retireOnly k new
  else if auto && s.otherRetired k then s
  else s.retireStack k

/-- A line that could not be read is replaced: a state record from the template and FREE, a key record invalid, a shadow
entry from its table entry, a link entry from its page header. A resident state record is what it was, and is written back
in time (R237; log entry 74). -/
def replaceLine (s : Dev) (x : RelocLine) : Dev :=
  match x with
  | .state f =>
    let t := s.setHbmRec f (s.template.set Rec.STATE 0)
    { t with flow := { t.flow with cache := t.flow.cache.map (fun l => if l.flow == f.val then { l with dirty := true } else l) } }
  | .key f => s.setKeyRec f KeyRec.init
  | .shadow i => s.rewriteShadow i
  | .link page => s.linkQueue page 4 (.linkWrite page)

/-- The channel a line of the reserved regions belongs to (R215). -/
def lineChannel (x : RelocLine) : Nat :=
  match x with
  | .state f => f.val % 64
  | .key f => f.val % 64
  | .shadow i => i.val % 64
  | .link page => (pageChannel page + 16) % 64

/-- The records of a retired stack are replaced in the same way, all of them (R238). -/
def replaceRecords (s : Dev) (k : Nat) : Dev :=
  let mine (f : Nat) := decide (f % 64 / 16 = k)
  let r := s.template.set Rec.STATE 0
  let keep := s.flow.cache.map (fun l => if mine l.flow then { l with kvalid := false, dirty := true } else l)
  let fills := (⟨0, 33554432, some k, r⟩ : Fill) :: s.flow.fills.filter (fun x => x.stack != some k)
  let t := { s with flow := { s.flow with keys := Sparse.clear mine s.flow.keys, cache := keep,
                                          recs := Sparse.clear mine s.flow.recs, fills := fills } }
  (s.cls.shadow.filter (fun x => mine x.1)).foldl (fun t x => t.rewriteShadow x.1) t

end Dev

/-- HBM_OPERATION_ISSUE (R216, R217). -/
def execHbmOperationIssue (k : Stack) (s : State) : Out := s.run (fun d => d.hbmIssue k)

/-- HBM_PRIORITY_RAISE (R217). -/
def execHbmPriorityRaise (k : Stack) (s : State) : Out := s.run (fun d => d.hbmRaise k)

/-- HBM_OPERATION_COMPLETE (R216, R234). -/
def execHbmOperationComplete (k : Stack) (r : HbmResult) (s : State) : Out := s.run (fun d => d.hbmComplete k r)

/-- RELOCATION_SCAN (R234). -/
def execRelocationScan (c : Fin 64) (s : State) : Out := s.run (fun d => d.recoverList c)

namespace Dev

/-- `Q_CMD.FLUSH`: the committed records are discarded at one instant (R244, R242). -/
def flushQueue (s : Dev) (q : Nat) : Dev :=
  let x := s.queue q
  let gone := x.recs.filter (fun r => r.committed && !r.void)
  let t := gone.foldl (fun t r => t.drop r.port 9 r.len) s
  let t := (t.setQueue q { x with recs := x.recs.filter (fun r => !(r.committed && !r.void)) }).trimPages q
  (((t.queueShow q).bufShow).raise (Pg.QUEUE (q / 32)) 8)

/-- A mode register of a channel. -/
def modeKey (s : Dev) (k : Nat) : Nat := 256 * s.fld (Pg.HBM k + HBM.MR_ADDR) 16 4 + s.fld (Pg.HBM k + HBM.MR_ADDR) 0 8

def modeRead (s : Dev) (k : Nat) : Dev :=
  s.setF (Pg.HBM k + HBM.MR_DATA) 0 8 (Sparse.get (fun _ => 0) (s.stack4 k).modeRegs (s.modeKey k)).toNat

def modeWrite (s : Dev) (k : Nat) : Dev :=
  let x := s.stack4 k
  s.setStack4 k { x with modeRegs := Sparse.put (fun _ => 0) x.modeRegs (s.modeKey k) (BitVec.ofNat 8 (s.fld (Pg.HBM k + HBM.MR_DATA) 0 8)) }

/-- A write to `MR_CMD`, refused in the supply hold whichever its bits are; a write goes before a read (R241). -/
def modeCmd (s : Dev) (m : Master) (k : Nat) (wr rd : Bool) : Dev :=
  s.need m (Pg.HBM k + HBM.MR_CMD) (!s.supplyHold) Err.supplyHold (fun t =>
    let t := if wr then t.modeWrite k else t
    if rd then t.modeRead k else t)

/-- Relocation of a stack's channels completes; what could not be read is replaced, and all records of a retired stack are,
with RECORDS_LOST (R237, R238). What of the classifier follows is the caller's. -/
def relocDone (s : Dev) (k : Nat) (unreadable : List RelocLine) : Dev :=
  let a := Pg.HBM k
  let x := s.stack4 k
  let st := a + HBM.RELOC_STATUS
  let kib := 70656 * x.relocating.length
  let t := s.setStack4 k { x with relocating := [] }
  let t := t.wr st (BitVec.ofNat 32 (2 ^ 31 + (if s.bit st 29 then 2 ^ 29 else 0) + kib))
  let t := (t.raise a 11).setB (a + HBM.STACK_STATUS) 4 false
  let t := (unreadable.filter (fun l => x.relocating.contains (lineChannel l))).foldl (fun t l => t.replaceLine l) t
  let t := x.relocating.foldl (fun t c => t.closeFault 11 c 0 false) t
  if s.bit (a + HBM.STACK_STATUS) 4 then (t.replaceRecords k).closeFault 12 k 0 false else t

end Dev

/-- QUEUE_FLUSH (R244). -/
def execQueueFlush (m : Master) (q : QueueId) (s : State) : Out :=
  s.run (fun d => d.lockedAccess m (qBase q + QUEUE.Q_CMD) (fun t => t.flushQueue q))

/-- CHANNEL_RETIREMENT: on the error count of a second, or on a persistent parity error (R235). -/
def execChannelRetirement (c : Fin 64) (cause : RetireCause) (s : State) : Out :=
  s.run (fun d =>
    let k := c.val / 16
    let limit := d.fld (Pg.HBM k + HBM.UNC_LIMIT) 0 8
    let seen := ((d.stack4 k).uncTimes.filter (fun u => u.1 == c.val && decide (d.mono < u.2 + 1000000000))).length
    let due := cause == .parityStop || (decide (limit ≠ 0) && decide (limit ≤ seen))
    if due && !d.chRetired c then
      let stack := d.stackRetired k
      let t := d.retireChannels k [c.val] true
      let island := Dev.islandOf (0x088 + k)
      if t.stackRetired k && !stack then t.openFault 12 island none false k
      else if t.chRetired c then t.openFault 11 island none false c
      else t
    else d)

/-- RETIRE_CMD_CHANNELS (R235). -/
def execRetireCmdChannels (m : Master) (k : Stack) (chs : BitVec 16) (s : State) : Out :=
  s.run (fun d => d.lockedAccess m (Pg.HBM k + HBM.RETIRE_CMD) (fun t =>
    t.retireChannels k (((List.range 16).filter (fun i => chs.getLsbD i)).map (16 * k.val + ·)) false))

/-- RETIRE_CMD_STACK (R238). -/
def execRetireCmdStack (m : Master) (k : Stack) (s : State) : Out :=
  s.run (fun d => d.lockedAccess m (Pg.HBM k + HBM.RETIRE_CMD) (fun t => t.retireStack k))

/-- MR_CMD_READ. -/
def execMrCmdRead (m : Master) (k : Stack) (s : State) : Out :=
  s.run (fun d => d.lockedAccess m (Pg.HBM k + HBM.MR_CMD) (fun t => t.modeCmd m k false true))

/-- MR_CMD_WRITE (R241). -/
def execMrCmdWrite (m : Master) (k : Stack) (s : State) : Out :=
  s.run (fun d => d.lockedAccess m (Pg.HBM k + HBM.MR_CMD) (fun t => t.modeCmd m k true false))

end Sys2Proof.Machine
end

