-- ==== Sys2Proof/Machine/Parser.lean ====
section
/-! DEFINITION. The parser: what it reads of a header window, the keys it builds, the digest of a key and the DSCP
rewrite of `MARK` (05, R140–R150, R157). -/

namespace Sys2Proof.Machine

/-- What the parser found. `ip` is 4 or 6 once an IP header is parsed, and `ipOff` is where the outermost lies. -/
structure Parsed where
  dst     : List Byte
  src     : List Byte
  tags    : List Nat
  etype   : Nat
  labels  : List Nat
  ip      : Nat
  ipOff   : Nat
  proto   : Nat
  saddr   : List Byte
  daddr   : List Byte
  sport   : Nat
  dport   : Nat
  tunnel  : Nat
  extStop : Bool
  vxlan   : Bool
  gre     : Bool
  options : Bool
  frag    : Bool
  trunc   : Bool
  malformed : Bool
  deriving DecidableEq, Repr

def Parsed.init : Parsed :=
  ⟨List.replicate 6 0, List.replicate 6 0, [], 0, [], 0, 0, 0, [], [], 0, 0, 0, false, false, false, false, false, false, false⟩

/-- n bytes at an offset lie in the window. -/
def has (w : List Byte) (off n : Nat) : Bool := decide (off + n ≤ w.length)

/-- A big-endian number of n bytes at an offset. -/
def be (w : List Byte) (off n : Nat) : Nat := natBE (slice w off n)

def Parsed.cut (p : Parsed) : Parsed := { p with trunc := true }

/-- VXLAN after a UDP header that names its port. -/
def parseVxlan (w : List Byte) (off : Nat) (p : Parsed) : Parsed :=
  if has w off 8 then { p with vxlan := true, tunnel := be w (off + 4) 3 } else { p.cut with sport := 0, dport := 0 }

/-- TCP, UDP and GRE (R144, R145). -/
def parseL4 (w : List Byte) (off vxlanPort : Nat) (p : Parsed) : Parsed :=
  if p.proto = 17 then
    if !has w off 8 then p.cut
    else
      let p := { p with sport := be w off 2, dport := be w (off + 2) 2 }
      if p.dport = vxlanPort then parseVxlan w (off + 8) p else p
  else if p.proto = 6 then
    if !has w off 20 || !has w off (4 * (be w (off + 12) 1 / 16)) then p.cut
    else { p with sport := be w off 2, dport := be w (off + 2) 2 }
  else if p.proto = 47 then
    if !has w off 4 then p.cut
    else
      let f := be w off 2
      if f % 8 ≠ 0 then p
      else
        let opt (bit : Nat) := if f / bit % 2 = 1 then 4 else 0
        let key := off + 4 + opt 0x8000
        if !has w off (4 + opt 0x8000 + opt 0x2000 + opt 0x1000) then p.cut
        else { p with gre := true, tunnel := if opt 0x2000 = 0 then 0 else be w key 4 }
  else p

/-- IPv4 (R144–R147). -/
def parseV4 (w : List Byte) (off vxlanPort : Nat) (p : Parsed) : Parsed :=
  if !has w off 1 then p.cut
  else
    let b := be w off 1
    if b / 16 ≠ 4 ∨ b % 16 < 5 then { p with malformed := true }
    else if !has w off (4 * (b % 16)) then p.cut
    else
      let fr := be w (off + 6) 2
      let p := { p with ip := 4, ipOff := off, proto := be w (off + 9) 1, saddr := slice w (off + 12) 4,
                        daddr := slice w (off + 16) 4, options := decide (5 < b % 16) }
      if fr % 0x4000 ≠ 0 then { p with frag := true } else parseL4 w (off + 4 * (b % 16)) vxlanPort p

/-- An IPv6 extension header the parser knows. -/
def isExt (n : Nat) : Bool := n == 0 || n == 43 || n == 44 || n == 60

/-- Extension headers, at most `left` of them. A Fragment header ends the chain, so that all fragments of a datagram share
one key; a third extension header that it names is an `EXT_STOP` like any other (R144, R146; DEDUCED, log entry 34). -/
def parseExt (w : List Byte) (vxlanPort : Nat) : Nat → Nat → Parsed → Parsed
  | left, off, p =>
    if !isExt p.proto then parseL4 w off vxlanPort p
    else
      match left with
      | 0 => { p with extStop := true }
      | left + 1 =>
        let n := if p.proto = 44 then 8 else (be w (off + 1) 1 + 1) * 8
        if !has w off 8 || !has w off n then p.cut
        else
          let q := { p with proto := be w off 1, options := true }
          if p.proto = 44 then { q with frag := true, extStop := decide (left = 0) && isExt q.proto } else parseExt w vxlanPort left (off + n) q

/-- IPv6 (R144–R147). -/
def parseV6 (w : List Byte) (off vxlanPort : Nat) (p : Parsed) : Parsed :=
  if !has w off 1 then p.cut
  else if be w off 1 / 16 ≠ 6 then { p with malformed := true }
  else if !has w off 40 then p.cut
  else
    parseExt w vxlanPort 2 (off + 40)
      { p with ip := 6, ipOff := off, proto := be w (off + 6) 1, saddr := slice w (off + 8) 16, daddr := slice w (off + 24) 16 }

/-- MPLS labels: each is a header of its own. Answers the offset behind the bottom label, if it was reached. -/
def parseLabels (w : List Byte) : Nat → Nat → Parsed → Parsed × Option Nat
  | 0, _, p => (p.cut, none)
  | left + 1, off, p =>
    if !has w off 4 then (p.cut, none)
    else
      let x := be w off 4
      let p := { p with labels := p.labels ++ [x / 2 ^ 12] }
      if x / 2 ^ 8 % 2 = 1 then (p, some (off + 4)) else parseLabels w left (off + 4) p

/-- What follows the tags: MPLS and IP. -/
def parseNet (w : List Byte) (mode vxlanPort off : Nat) (p : Parsed) : Parsed :=
  if p.etype = 0x8847 ∨ p.etype = 0x8848 then
    match parseLabels w 4 off p with
    | (p, none) => p
    | (p, some off) =>
      if mode = 2 then p
      else if !has w off 1 then p.cut
      else if be w off 1 / 16 = 4 then parseV4 w off vxlanPort p
      else if be w off 1 / 16 = 6 then parseV6 w off vxlanPort p
      else p
  else if p.etype = 0x0800 then parseV4 w off vxlanPort p
  else if p.etype = 0x86DD then parseV6 w off vxlanPort p
  else p

/-- A tag at an offset, with the EtherType behind it. -/
def Parsed.tag (p : Parsed) (w : List Byte) (off : Nat) : Parsed :=
  { p with tags := p.tags ++ [0x1000 + be w off 2 % 0x1000], etype := be w (off + 2) 2 }

/-- Ethernet and its tags, then the rest unless the mode stops at L2 (R144, R147, R149). -/
def parse (w : List Byte) (mode vxlanPort : Nat) : Parsed :=
  let p := Parsed.init
  let p := if has w 0 6 then { p with dst := slice w 0 6 } else p
  let p := if has w 0 12 then { p with src := slice w 6 6 } else p
  if !has w 0 14 then p.cut
  else
    let p := { p with etype := be w 12 2 }
    let rest (off : Nat) (p : Parsed) := if mode = 1 then p else parseNet w mode vxlanPort off p
    if p.etype = 0x8100 ∨ p.etype = 0x88A8 then
      if !has w 14 4 then p.cut
      else
        let p := p.tag w 14
        if p.etype = 0x8100 then (if !has w 18 4 then p.cut else rest 22 (p.tag w 18)) else rest 18 p
    else rest 14 p

/-- Key type of what was parsed. -/
def Parsed.type (p : Parsed) : Nat := if p.ip ≠ 0 then p.ip else if p.labels.isEmpty then 1 else 2

/-- Length of a key by its type, 0 for an unknown one. -/
def keyLen (type : Nat) : Nat := match type with | 1 => 20 | 2 => 24 | 4 => 24 | 6 => 48 | _ => 0

/-- The key of a packet under `PORT_KEY` (R148, R149, Key construction). -/
def buildKey (p : Parsed) (port : Nat) (cfg : Word) : List Byte :=
  let mask := fieldOf cfg 4 4
  let b (c : Bool) (v : Nat) := if c then v else 0
  let z (i : Nat) (l : List Byte) : List Byte := if mask.testBit i then List.replicate l.length 0 else l
  let scope := b (bitOf cfg 3) (0x80 + port % 16) + b p.malformed 0x40 + b p.trunc 0x20
  let head := [BitVec.ofNat 8 p.type, BitVec.ofNat 8 scope] ++ z 0 (bytesBE 2 (p.tags.getD 0 0) ++ bytesBE 2 (p.tags.getD 1 0))
  let flags := b p.extStop 16 + b p.vxlan 8 + b p.gre 4 + b p.options 2 + b p.frag 1
  match p.type with
  | 1 => head ++ bytesBE 2 p.etype ++ p.dst ++ z 2 p.src
  | 2 => head ++ [BitVec.ofNat 8 p.labels.length, 0] ++ (List.range 4).flatMap (fun i => bytesBE 4 (p.labels.getD i 0))
  | _ => head ++ [BitVec.ofNat 8 p.proto, BitVec.ofNat 8 flags] ++ z 2 p.saddr ++ p.daddr
      ++ z 1 (bytesBE 2 p.sport ++ bytesBE 2 p.dport) ++ z 3 (bytesBE 4 p.tunnel)

/-- One bit of the digest. -/
def digestBit (c : Nat) (b : Bool) : Nat :=
  let c2 := (2 * c) % 2 ^ 40
  if xor (c.testBit 39) b then c2 ^^^ 0x0004820009 else c2

/-- The digest of a key from a seed (R150). -/
def digest (seed : Nat) (key : List Byte) : BitVec 40 :=
  BitVec.ofNat 40 (key.foldl (fun c b =>
    (List.range 8).foldl (fun c i => digestBit c (b.getLsbD (7 - i))) c) seed)

/-- One's complement sum of two 16-bit numbers. -/
def ones16 (a b : Nat) : Nat := (a + b) % 2 ^ 16 + (a + b) / 2 ^ 16

/-- The header window with the DSCP of its outermost IP header rewritten, and whether there is one (R157). The IPv4
checksum takes the change of its word, one's complement. -/
def markDscp (w : List Byte) (dscp : Nat) : List Byte × Bool :=
  let p := parse w 0 65536
  let off := p.ipOff
  let b1 := be w (off + 1) 1
  match p.ip with
  | 4 =>
    let new := dscp * 4 + b1 % 4
    let sum := ones16 (ones16 (0xFFFF - be w (off + 10) 2) (0xFFFF - be w off 2)) (be w off 1 * 256 + new)
    let w := w.set (off + 1) (BitVec.ofNat 8 new)
    ((w.set (off + 10) (BitVec.ofNat 8 ((0xFFFF - sum) / 256))).set (off + 11) (BitVec.ofNat 8 ((0xFFFF - sum) % 256)), true)
  | 6 =>
    ((w.set off (BitVec.ofNat 8 (be w off 1 / 16 * 16 + dscp / 4))).set (off + 1) (BitVec.ofNat 8 (dscp % 4 * 64 + b1 % 64)), true)
  | _ => (w, false)

end Sys2Proof.Machine
end

