-- ==== Sys2Proof/Machine/Classify.lean ====
section
/-! DEFINITION. The exact-match table, its shadow, action profiles, learning, the update engine, aging and restore (05,
R150–R178). -/

namespace Sys2Proof.Machine

/-! ### Entries (Table organisation) -/

/-- A table entry. -/
abbrev Ent := BitVec 80

def Ent.age (e : Ent) : Nat := e.toNat % 16
def Ent.valid (e : Ent) : Bool := e.getLsbD 4
def Ent.profile (e : Ent) : Nat := e.toNat / 2 ^ 5 % 2 ^ 10
def Ent.flow (e : Ent) : Nat := e.toNat / 2 ^ 15 % 2 ^ 25
def Ent.digest (e : Ent) : BitVec 40 := BitVec.ofNat 40 (e.toNat / 2 ^ 40)
def Ent.setAge (e : Ent) (a : Nat) : Ent := BitVec.ofNat 80 (e.toNat / 16 * 16 + a % 16)

/-- An entry in use. -/
def mkEnt (d : BitVec 40) (flow profile age : Nat) : Ent :=
  BitVec.ofNat 80 (d.toNat * 2 ^ 40 + flow % 2 ^ 25 * 2 ^ 15 + profile % 2 ^ 10 * 2 ^ 5 + 16 + age % 16)

/-- First index of bucket A and of bucket B of a digest (R152). -/
def bucketA (d : BitVec 40) : Nat := d.toNat % 4 * 524288 + d.toNat / 2 ^ 2 % 2 ^ 17 * 4
def bucketB (d : BitVec 40) : Nat := (4 + d.toNat / 2 ^ 19 % 4) * 524288 + d.toNat / 2 ^ 21 % 2 ^ 17 * 4

/-- The other bucket of a digest. -/
def otherBucket (d : BitVec 40) (b : Nat) : Nat := if b = bucketA d then bucketB d else bucketA d

namespace Dev

/-! ### The table and its shadow (R152–R155, R176, R177) -/

/-- The SRAM entry, and the entry that lookups see. -/
def sram (s : Dev) (i : Nat) : Ent := Sparse.get (fun _ => 0) s.cls.table i
def entry (s : Dev) (i : Nat) : Ent := if s.indexOff i then BitVec.setWidth 80 (s.shadowAt i) else s.sram i

def setSram (s : Dev) (i : Nat) (e : Ent) : Dev :=
  { s with cls := { s.cls with table := Sparse.put (fun _ => 0) s.cls.table i e } }

/-- Occupancy counts change by what one index gains or loses. -/
def occupy (s : Dev) (i : Nat) (was is : Bool) : Dev :=
  let f (a n : Nat) (t : Dev) : Dev := t.setF a 0 n (t.fld a 0 n + (if is then 1 else 0) - (if was then 1 else 0))
  f (bankBase (bankOf i) + CLS_BANK.BANK_OCC) 20 (f (Pg.CLS + CLS.OCCUPANCY) 23 s)

/-- An entry written: to the SRAM unless it is served from the shadow, and to the shadow. -/
def writeEnt (s : Dev) (i : Nat) (e : Ent) (keyType : Nat) : Dev :=
  let t := s.occupy i (s.entry i).valid e.valid
  let t := if s.indexOff i then t else t.setSram i e
  t.setShadow i (mkShadow e keyType)

/-- Key type a shadow entry holds. -/
def shadowType (s : Dev) (i : Nat) : Nat := (s.shadowAt i).toNat / 2 ^ 80 % 2 ^ 8

/-- The four indices of a bucket. -/
def ways (b : Nat) : List Nat := [b, b + 1, b + 2, b + 3]

/-- The entry that holds a digest (R153). -/
def findEnt (s : Dev) (d : BitVec 40) : Option Nat :=
  (ways (bucketA d) ++ ways (bucketB d)).find? (fun i => (s.entry i).valid && (s.entry i).digest == d)

/-- The lowest free way of a bucket whose bank takes entries. -/
def freeWay (s : Dev) (b : Nat) : Option Nat :=
  if s.indexOff b then none else (ways b).find? (fun i => !(s.entry i).valid)

/-! ### Placement (R169) -/

/-- A place for a new entry: the free way, and the ways whose entries move up one after another to make room, the last
move first. -/
abbrev Plan := Nat × List Nat

/-- One bucket visited: its entries' other buckets are visited in way order, up to a number of buckets in all. -/
def expand (s : Dev) (max : Nat) (path : List Nat) (b : Nat) (a : List (Nat × List Nat) × List Nat × Option Plan) (i : Nat) :
    List (Nat × List Nat) × List Nat × Option Plan :=
  match a with
  | (q, seen, some r) => (q, seen, some r)
  | (q, seen, none) =>
    let o := otherBucket (s.entry i).digest b
    if seen.contains o || decide (max ≤ seen.length) || s.indexOff o then (q, seen, none)
    else
      match s.freeWay o with
      | some w => (q, o :: seen, some (w, i :: path))
      | none => (q ++ [(o, i :: path)], o :: seen, none)

/-- Breadth-first search for a displacement path. -/
def search (s : Dev) (max : Nat) : Nat → List (Nat × List Nat) → List Nat → Option Plan
  | 0, _, _ => none
  | _ + 1, [], _ => none
  | fuel + 1, (b, path) :: rest, seen =>
    match (ways b).foldl (fun a i => s.expand max path b a i) (rest, seen, none) with
    | (_, _, some r) => some r
    | (q, seen, none) => s.search max fuel q seen

/-- Where a new entry of a digest goes, by the placement asked for. -/
def plan (s : Dev) (d : BitVec 40) (place : Nat) : Option Plan :=
  let a := bucketA d
  let b := bucketB d
  let one (x : Nat) : Option Plan := (s.freeWay x).map (fun i => (i, []))
  match place with
  | 1 => one a
  | 2 => one b
  | _ =>
    match one a with
    | some p => some p
    | none =>
      match one b with
      | some p => some p
      | none =>
        let max := s.fld (Pg.CLS_UPD + CLS_UPD.UPD_CTRL) 8 8
        let start := ([a, b].filter (fun x => !s.indexOff x)).map (fun x => (x, ([] : List Nat)))
        s.search max (max + 1) start [a, b]

/-- A displacement move: the entry is copied before its old way is cleared. -/
def moveEnt (s : Dev) (src dst : Nat) : Dev :=
  let e := s.entry src
  let k := s.shadowType src
  ((s.writeEnt dst e k).writeEnt src 0 k).count (Pg.CLS_UPD + CLS_UPD.MOVES)

/-- The moves of a plan, from the free end back; answers the way left free. -/
def makeRoom (s : Dev) (p : Plan) : Dev × Nat := p.2.foldl (fun a src => (a.1.moveEnt src a.2, src)) (s, p.1)

/-! ### Action profiles (R156–R159) -/

def profileOp (s : Dev) (p i : Nat) : Word := Sparse.get (fun _ => 0) s.cls.profiles (8 * p + i)
def profileOps (s : Dev) (p : Nat) : List Word := (List.range 8).map (s.profileOp p)

/-- An operation breaks R159. -/
def opBad (v : Word) : Bool :=
  let x := fieldOf v 0 28
  match fieldOf v 28 4 with
  | 0 => x != 0
  | 1 => decide (8 ≤ x)
  | 2 => decide (3 ≤ x)
  | 3 => decide (16 ≤ x) || decide (3 < x % 8)
  | 4 => decide (1024 ≤ x) || x / 4 % 4 != 0
  | 5 => decide (256 ≤ x)
  | 6 => decide (256 ≤ x)
  | 7 => decide (4 ≤ x)
  | 8 => decide (2 ^ 24 ≤ x)
  | _ => true

def profOffset (p w : Nat) : Nat := 0xC40000 + 32 * p + 4 * w
def profKey (m : Master) (p w : Nat) : Nat := 8192 * (masterId m).toNat + 8 * p + w

/-- A word of a profile staged for a master. -/
def profStage (s : Dev) (m : Master) (p w : Nat) (v : Word) : Dev :=
  { s with cls := { s.cls with staged := Sparse.put (fun _ => none) s.cls.staged (profKey m p w) (some v) } }

/-- Word 7: the profile takes effect or is rejected, its staging copy emptied either way. -/
def profCommit (s : Dev) (m : Master) (p : Nat) (v : Word) : Dev :=
  let w (i : Nat) : Word :=
    if i = 7 then v else (Sparse.get (fun _ => none) s.cls.staged (profKey m p i)).getD (s.profileOp p i)
  let ops := (List.range 8).map w
  let t := { s with cls := { s.cls with staged := Sparse.clear (fun k => k / 8 == profKey m p 0 / 8) s.cls.staged } }
  if ops.any opBad then
    let t := t.logOn m 0x060 (profOffset p 7 % 0x1000) Err.config
    (t.count (Pg.CLS_PROF + CLS_PROF.PROF_REJECTS)).raise Pg.CLS_PROF 8
  else
    let t := ops.zipIdx.foldl (fun t x =>
      { t with cls := { t.cls with profiles := Sparse.put (fun _ => 0) t.cls.profiles (8 * p + x.2) x.1 } }) t
    t.setF (Pg.CLS_PROF + CLS_PROF.PROF_STATUS) 0 10 p

/-! ### Learning (R160–R163) -/

/-- `LEARN_POOL`, and POOL_LOW when the FIFO has fallen below 256 with the cursor at the end. -/
def poolShow (s : Dev) : Dev :=
  let a := Pg.CLS_MISS + CLS_MISS.LEARN_POOL
  let n := s.cls.fifo.length
  let atEnd := s.cls.cursor == s.cls.cursorEnd
  let low := atEnd && decide (n < 256)
  let was := s.bit a 31 && decide (s.fld a 0 13 < 256)
  let t := s.wr a (BitVec.ofNat 32 ((if atEnd then 2 ^ 31 else 0) + n))
  if low && !was then t.raise Pg.CLS_MISS 8 else t

/-- `LEARN_CMD.INIT` (R161). -/
def learnInit (s : Dev) (m : Master) : Dev :=
  let base := s.fld (Pg.CLS_MISS + CLS_MISS.LEARN_BASE) 0 25
  let n := s.fld (Pg.CLS_MISS + CLS_MISS.LEARN_COUNT) 0 26
  s.need m (Pg.CLS_MISS + CLS_MISS.LEARN_CMD) (decide (base + n ≤ 33554432)) Err.config (fun t =>
    ({ t with cls := { t.cls with fifo := [], cursor := base, cursorEnd := base + n, learnBase := base, learnEnd := base + n } }).poolShow)

/-- One ID pushed from the cursor. -/
def refillIds (s : Dev) : Dev :=
  if s.cls.fifo.length < 2048 ∧ s.cls.cursor < s.cls.cursorEnd then
    ({ s with cls := { s.cls with fifo := s.cls.fifo ++ [s.cls.cursor], cursor := s.cls.cursor + 1 } }).poolShow
  else s

/-- A flow ID lies in the learn range. -/
def learned (s : Dev) (f : Nat) : Bool := decide (s.cls.learnBase ≤ f) && decide (f < s.cls.learnEnd)

/-- The digest of a key under the seed. -/
def digestOf (s : Dev) (key : List Byte) : BitVec 40 :=
  digest ((s.rd (Pg.CLS + CLS.DIGEST_SEED_LO)).toNat + 2 ^ 32 * s.fld (Pg.CLS + CLS.DIGEST_SEED_HI) 0 8) key

/-- A key record of a key (R181). -/
def keyRecOf (s : Dev) (key : List Byte) : KeyRec := { key := key, valid := true, digest := s.digestOf key }

/-! ### The update engine (R165–R171, R506) -/

/-- Bytes of the descriptor in `UPD_DESC`. -/
def descBytes (s : Dev) : List Byte :=
  let w (i : Nat) : Nat := (s.rd (Pg.CLS_UPD + CLS_UPD.UPD_DESC + 4 * i)).toNat
  ((List.range 4).flatMap (fun i => bytesLE 4 (w i))) ++ (List.range 12).flatMap (fun i => bytesBE 4 (w (4 + i)))

/-- Bytes of a staging slot. -/
def slotBytes (s : Dev) (i : Nat) : List Byte := (List.range 64).map (fun k => Sparse.get (fun _ => 0) s.cls.slots (64 * i + k))

/-- Bytes written into the staging slots. -/
def setSlots (s : Dev) (off : Nat) : List Byte → Dev
  | [] => s
  | b :: r => ({ s with cls := { s.cls with slots := Sparse.put (fun _ => 0) s.cls.slots off b } }).setSlots (off + 1) r

/-- A descriptor of the registers or of a staged batch still runs. -/
def updRuns (s : Dev) : Bool := s.cls.updates.any (fun j => match j.source with | .go => true | .stage _ _ => true | _ => false)

/-- Descriptors accepted, behind the learn requests that wait for the engine now (R166). -/
def updAdd (s : Dev) (l : List UpdJob) : Dev :=
  let before := (s.cls.learns.filter (fun x => x.ready)).map Learn.digest
  { s with cls := { s.cls with updates := s.cls.updates ++ l.map (fun j => { j with after := before }) } }

/-- `UPD_CMD`: the descriptor of the registers, the staged batch, or both, the descriptor first (R166). -/
def updCommand (s : Dev) (m : Master) (go stage : Bool) : Dev :=
  let st := Pg.CLS_UPD + CLS_UPD.UPD_STATUS
  if !go && !stage then s
  else
    s.need m (Pg.CLS_UPD + CLS_UPD.UPD_CMD) (!s.updRuns) Err.state (fun t =>
      let t := if go then (t.setF st 30 2 0).updAdd [{ source := .go, bytes := t.descBytes }] else t
      if !stage then t
      else
        let n := t.fld (Pg.CLS_UPD + CLS_UPD.STAGE_RANGE) 16 13
        let first := t.fld (Pg.CLS_UPD + CLS_UPD.STAGE_RANGE) 0 12
        let t := t.setF st 0 13 0
        if n = 0 then (t.setF st 30 2 3).raise Pg.CLS_UPD 10
        else
          (t.setF st 30 2 0).updAdd ((List.range n).map (fun i =>
            { source := .stage ((first + i) % 4096) (i + 1 == n), bytes := [] })))

/-- Operation code of a descriptor. -/
def descOp (b : List Byte) : Nat := natLE (slice b 0 4) / 2 ^ 28

/-- The job at the head of the engine, with its bytes. -/
def headJob (s : Dev) : Option (UpdJob × List Byte) :=
  match s.cls.updates with
  | [] => none
  | j :: _ => some (j, match j.source with | .stage i _ => s.slotBytes i | _ => j.bytes)

/-- The next descriptor is a fence behind learn requests that are not done (R166). -/
def fenced (s : Dev) : Bool :=
  s.headJob.any (fun q => (natLE (slice q.2 0 4)).testBit 27 && q.1.after.any (fun d => s.cls.learns.any (fun l => l.ready && l.digest == d)))

/-- A learned flow's ID returns to the FIFO, if it has room; else it is lost until the next INIT (DESIGN CHOICE, log
entry 72). -/
def returnId (s : Dev) (f : Nat) : Dev :=
  if s.cls.fifo.length < 4096 then ({ s with cls := { s.cls with fifo := s.cls.fifo ++ [f] } }).poolShow else s

/-- The first learn request whose packet has committed is handled (R163). -/
def learnOne (s : Dev) : Dev :=
  match s.cls.learns.find? (fun l => l.ready) with
  | none => s
  | some l =>
    if s.cls.lastTurn = some true ∧ s.cls.updates.isEmpty = false ∧ s.fenced = false then s
    else
      let a := Pg.CLS_MISS
      let t := { s with cls := { s.cls with learns := s.cls.learns.erase l, lastTurn := some true } }
      match t.plan l.digest 0 with
      | none => t.count (a + CLS_MISS.LEARN_FULL)
      | some p =>
        if (t.findEnt l.digest).isSome then t.count (a + CLS_MISS.LEARN_EXISTS)
        else
          match t.cls.fifo with
          | [] => t.count (a + CLS_MISS.LEARN_NOID)
          | f :: rest =>
            let t := ({ t with cls := { t.cls with fifo := rest } }).poolShow
            let t := t.setKeyRec f { key := l.key, valid := true, digest := l.digest }
            let t := t.setFlowRec f (t.template.set Rec.LEARNED 1)
            let r := t.makeRoom p
            let prof := r.1.fld (a + 0x100 + 16 * l.port) 16 10
            (r.1.writeEnt r.2 (mkEnt l.digest f prof 0) (l.key.getD 0 0).toNat).count (a + CLS_MISS.LEARNED)

/-- Checks of R506 before an operation is applied. -/
def descCheck (s : Dev) (b : List Byte) : Option Nat :=
  let w0 := natLE (slice b 0 4)
  let place := w0 / 2 ^ 24 % 4
  let len := w0 / 2 ^ 16 % 2 ^ 8
  let op := descOp b
  if 4 < op ∨ place = 3 ∨ (place ≠ 0 ∧ s.bit (Pg.CLS_UPD + CLS_UPD.UPD_CTRL) 0 = false) then some 5
  else if op = 0 then some 0
  else if len = 0 then some 7
  else if keyLen (b.getD 16 0).toNat ≠ len then some 4
  else if op ≤ 3 ∧ s.learned (natLE (slice b 4 4) % 2 ^ 25) = true then some 6
  else none

/-- What an operation that passed the checks does, and its status (R165–R169). -/
def descApply (s : Dev) (b : List Byte) : Dev × Nat :=
  let w0 := natLE (slice b 0 4)
  let w2 := natLE (slice b 8 4)
  let op := descOp b
  let key := slice b 16 (w0 / 2 ^ 16 % 2 ^ 8)
  let kt := (b.getD 16 0).toNat
  let flow := natLE (slice b 4 4) % 2 ^ 25
  let prof := w2 % 2 ^ 10
  let static := w2.testBit 31
  let age := if static then 15 else 0
  let d := s.digestOf key
  let add : Dev × Nat :=
    match s.plan d (w0 / 2 ^ 24 % 4) with
    | none => (s, 3)
    | some p =>
      let r := (s.setKeyRec flow (s.keyRecOf key)).makeRoom p
      (r.1.writeEnt r.2 (mkEnt d flow prof age) kt, 0)
  let put (i age : Nat) : Dev × Nat := ((s.setKeyRec flow (s.keyRecOf key)).writeEnt i (mkEnt d flow prof age) kt, 0)
  match s.findEnt d, op with
  | some _, 1 => (s, 1)
  | none, 1 => add
  | some i, 2 => put i age
  | none, 2 => add
  | some i, 3 => put i (if static then 15 else if (s.entry i).age = 15 then 0 else (s.entry i).age)
  | some i, 4 =>
    let e := s.entry i
    let t := s.writeEnt i (BitVec.ofNat 80 (e.toNat - 16)) kt
    (if s.learned e.flow then t.returnId e.flow else t, 0)
  | none, _ => (s, 2)
  | some _, _ => (s, 0)

/-- A ring-1 descriptor completes: how many updates were OK, the first that was not (16, R421). -/
def ringUpdated (s : Dev) : Dev :=
  let g := s.ring 1
  match g.work with
  | none => s
  | some x =>
    let l := s.cls.ringStatus
    let good (st : Nat) := st == 0 || st == 7
    let bad := l.find? (fun e => e.2 != 0)
    let aux := match bad with | some e => e.1 * 2 ^ 24 + e.2 * 2 ^ 16 | none => 0
    let ok := (l.filter (fun e => e.2 == 0)).length
    let t := { s with cls := { s.cls with ringStatus := [] } }
    let t := (t.setRing 1 { g with work := none }).complete 1 x.tag (64 * x.count.toNat)
      (if l.all (fun e => good e.2) then 0 else 6) x.count.toNat (BitVec.ofNat 32 (aux + ok))
    if g.stopping then t.ringHalt 1 else t.ringNext 1

/-- The completion of a host update, by its source (R165, R166). -/
def updDone (s : Dev) (j : UpdJob) (b : List Byte) (status : Nat) : Dev :=
  let a := Pg.CLS_UPD
  let w0 := natLE (slice b 0 4)
  let t := (s.count (a + CLS_UPD.UPDATES)).wr (a + CLS_UPD.UPD_TAG) (BitVec.ofNat 32 (w0 % 2 ^ 16))
  let t := if status = 0 ∨ status = 7 then t else (t.count (a + CLS_UPD.UPD_FAILS)).raise a 9
  let t := if w0.testBit 26 then t.raise a 8 else t
  let word3 := bytesLE 4 (2 ^ 31 + status)
  match j.source with
  | .go => (t.setF (a + CLS_UPD.UPD_STATUS) 16 8 status).setB (a + CLS_UPD.UPD_STATUS) 31 true
  | .stage i last =>
    let t := t.setSlots (64 * i + 12) word3
    let t := t.setF (a + CLS_UPD.UPD_STATUS) 0 13 (t.fld (a + CLS_UPD.UPD_STATUS) 0 13 + 1)
    if last then (t.setB (a + CLS_UPD.UPD_STATUS) 31 true).raise a 10 else t
  | .ring i last =>
    let t := match (t.ring 1).work with
      | some x => t.emit (.dmaWrite 1 (x.addr + BitVec.ofNat 64 (64 * i + 12)) word3)
      | none => t
    let t := { t with cls := { t.cls with ringStatus := t.cls.ringStatus ++ [(i, status)] } }
    if last then t.ringUpdated else t

/-- The engine takes its next descriptor, when that has one of the operations given and learning has not the turn. -/
def update (s : Dev) (mine : Nat → Bool) : Dev :=
  match s.headJob with
  | none => s
  | some (j, b) =>
    if !mine (descOp b) || s.fenced || (s.cls.lastTurn == some false && s.cls.learns.any (fun l => l.ready)) then s
    else
      let t := { s with cls := { s.cls with updates := s.cls.updates.drop 1, lastTurn := some false } }
      match t.descCheck b with
      | some st => t.updDone j b st
      | none => let r := t.descApply b; r.1.updDone j b r.2

/-! ### Aging (R172–R174) -/

/-- An entry's age changes: in the SRAM, or in the shadow where that serves it (DEDUCED, log entry 73). -/
def ageSet (s : Dev) (i : Nat) (e : Ent) : Dev :=
  if s.indexOff i then s.setShadow i (mkShadow e (s.shadowType i)) else s.setSram i e

/-- One valid entry in an aging pass. -/
def ageOne (s : Dev) (i : Nat) : Dev :=
  let e := s.entry i
  let limit := s.fld (Pg.CLS + CLS.AGE_CTRL) 16 8
  let a := e.age + 1
  if !e.valid || decide (14 ≤ e.age) then s
  else if limit = 0 ∨ a ≠ limit then s.ageSet i (e.setAge a)
  else if s.assisted Pg.CLS then
    if s.cls.aged.length < 4096 then
      let t := (s.ageSet i (e.setAge a)).count (Pg.CLS + CLS.AGED)
      let r := BitVec.ofNat 64 (e.flow + i * 2 ^ 25)
      ({ t with cls := { t.cls with aged := t.cls.aged ++ [r] } }).raise Pg.CLS 9
    else s.ageSet i (e.setAge (limit - 1))
  else
    let mine := s.learned e.flow
    if mine && decide (4096 ≤ s.cls.fifo.length) then (s.ageSet i (e.setAge (limit - 1))).count (Pg.CLS + CLS.AGE_DEFER)
    else
      let t := (s.writeEnt i (BitVec.ofNat 80 (e.toNat - 16)) (s.shadowType i)).count (Pg.CLS + CLS.AGED)
      if mine then (t.exportRemoved e.flow).returnId e.flow else t

/-! ### Reload and restore (R155, R177, R178) -/

/-- An entry as a reload takes it from the shadow: none when its check fails. -/
def reloadEnt (s : Dev) (i : Nat) : Option Ent :=
  let v := s.shadowAt i
  let e : Ent := BitVec.setWidth 80 v
  if v.toNat / 2 ^ 96 = crc32c (bytesLE 12 (v.toNat % 2 ^ 96)) then some (if e.age = 15 then e else e.setAge 0) else none

/-- Indices of a range that the table or the shadow lists. -/
def listed (s : Dev) (lo n : Nat) : List Nat :=
  ((s.cls.table.map Prod.fst) ++ (s.cls.shadow.map Prod.fst)).filter (fun i => decide (lo ≤ i) && decide (i < lo + n))

/-- An aging pass over every valid entry. -/
def agePass (s : Dev) : Dev :=
  if s.fld (Pg.CLS + CLS.AGE_CTRL) 0 16 = 0 then s
  else (((s.listed 0 4194304).eraseDups).foldl (fun t i => t.ageOne i) s).raise Pg.CLS 8

/-- A range rewritten from the shadow: what fails its check is not loaded, and counts in a restore. -/
def reloadRange (s : Dev) (lo n : Nat) (restore : Bool) : Dev :=
  ((s.listed lo n).eraseDups).foldl (fun t i =>
    match t.reloadEnt i with
    | some e => t.setSram i e
    | none =>
      let t := t.setSram i 0
      if restore then (t.count (Pg.CLS + CLS.RESTORE_BAD)).raise Pg.CLS 11 else t) s

/-- Occupancy counted afresh. -/
def recount (s : Dev) : Dev :=
  let used := (s.cls.table.filter (fun x => Ent.valid x.2)).map (fun x => bankOf x.1)
  let t := (List.range 8).foldl (fun t b => t.setF (bankBase b + CLS_BANK.BANK_OCC) 0 20 (used.filter (· == b)).length) s
  t.setF (Pg.CLS + CLS.OCCUPANCY) 0 23 used.length

/-- A bank returns to service from its shadow (R177). -/
def reloadBank (s : Dev) (b : Nat) (restore : Bool) : Dev :=
  let s : Dev := { s with cls := { s.cls with badBuckets := s.cls.badBuckets.filter (fun i => bankOf (4 * i) != b) } }
  let t := (s.reloadRange (524288 * b) 524288 restore).wr (bankBase b + CLS_BANK.BANK_STATUS) 0
  (t.count (bankBase b + CLS_BANK.RELOADS)).recount

/-- A restore goes on with a bank, which is reloading until it is done (R178). -/
def restoreBank (s : Dev) (b : Nat) : Dev :=
  ({ s with cls := { s.cls with restoreAt := b } }).setB (bankBase b + CLS_BANK.BANK_STATUS) 1 true

/-- `RESTORE_CMD.START`, bank by bank from bank 0. -/
def restoreBegin (s : Dev) : Dev := (s.wr (Pg.CLS + CLS.RESTORE_STATUS) 0x40000000).restoreBank 0

/-- A restore has reloaded the banks up to one, and goes on or completes. -/
def restoreEnd (s : Dev) (bank : Nat) : Dev :=
  let t := ((List.range 8).filter (fun b => decide (s.cls.restoreAt ≤ b) && decide (b ≤ bank))).foldl (fun t b => t.reloadBank b true) s
  if bank < 7 then (if s.cls.restoreAt ≤ bank then t.restoreBank (bank + 1) else t)
  else (t.wr (Pg.CLS + CLS.RESTORE_STATUS) 0x80000000).raise Pg.CLS 10

/-- Learned entries whose flow records a retired stack lost are deleted, and their IDs return (R238). -/
def loseLearned (s : Dev) (k : Nat) : Dev :=
  let gone := (s.cls.table.filter (fun x => Ent.valid x.2 && s.learned (Ent.flow x.2) && decide (Ent.flow x.2 % 64 / 16 = k)))
  (gone.foldl (fun t x => (t.writeEnt x.1 (BitVec.ofNat 80 (x.2.toNat - 16)) (t.shadowType x.1)).returnId (Ent.flow x.2)) s).raise (Pg.HBM k) 12

/-- `RD_CMD`. -/
def readEnt (s : Dev) (shadow : Bool) : Dev :=
  let i := s.fld (Pg.CLS_UPD + CLS_UPD.RD_INDEX) 0 23 % 4194304
  let v : Nat := if shadow then (s.shadowAt i).toNat else (s.sram i).toNat
  let t := (List.range 4).foldl (fun t k => t.wr (Pg.CLS_UPD + CLS_UPD.RD_DATA + 4 * k) (BitVec.ofNat 32 (v / 2 ^ (32 * k)))) s
  let t := t.raise Pg.CLS_UPD 11
  if shadow then t.shadowQueue i 5 (.shadowRead i) else t

end Dev

/-- PROFILE_WORD_WRITE (R158). -/
def execProfileWordWrite (m : Master) (p : Fin 1024) (w : Fin 7) (v : Word) (s : State) : Out :=
  s.run (fun d => d.bulkAccess m 0x060 (Dev.profOffset p w) (fun t => t.profStage m p w v))

/-- PROFILE_COMMIT (R158, R159). -/
def execProfileCommit (m : Master) (p : Fin 1024) (v : Word) (s : State) : Out :=
  s.run (fun d => d.bulkAccess m 0x060 (Dev.profOffset p 7) (fun t => t.profCommit m p v))

/-- LEARN_INIT (R161). -/
def execLearnInit (m : Master) (s : State) : Out :=
  s.run (fun d => d.access m (Pg.CLS_MISS + CLS_MISS.LEARN_CMD) (fun t => t.learnInit m))

/-- FREE_ID_REFILL (R160, Misses). -/
def execFreeIdRefill (s : State) : Out := s.run (fun d => d.refillIds)

/-- LEARN_APPLY (R163). -/
def execLearnApply (s : State) : Out := s.run (fun d => d.learnOne)

/-- UPD_GO (R166). -/
def execUpdGo (m : Master) (s : State) : Out :=
  s.run (fun d => d.access m (Pg.CLS_UPD + CLS_UPD.UPD_CMD) (fun t => t.updCommand m true false))

/-- STAGE_GO (R166). -/
def execStageGo (m : Master) (s : State) : Out :=
  s.run (fun d => d.access m (Pg.CLS_UPD + CLS_UPD.UPD_CMD) (fun t => t.updCommand m false true))

/-- UPDATE_NOP: also a descriptor with a reserved operation (R506). -/
def execUpdateNop (s : State) : Out := s.run (fun d => d.update (fun op => op == 0 || decide (4 < op)))

/-- UPDATE_INSERT (R165–R169, R506). -/
def execUpdateInsert (s : State) : Out := s.run (fun d => d.update (· == 1))

/-- UPDATE_REPLACE. -/
def execUpdateReplace (s : State) : Out := s.run (fun d => d.update (· == 2))

/-- UPDATE_MODIFY. -/
def execUpdateModify (s : State) : Out := s.run (fun d => d.update (· == 3))

/-- UPDATE_DELETE. -/
def execUpdateDelete (s : State) : Out := s.run (fun d => d.update (· == 4))

/-- RD_CMD_READ. -/
def execRdCmdRead (m : Master) (s : State) : Out :=
  s.run (fun d => d.access m (Pg.CLS_UPD + CLS_UPD.RD_CMD) (fun t => t.readEnt false))

/-- RD_CMD_READ_SHADOW. -/
def execRdCmdReadShadow (m : Master) (s : State) : Out :=
  s.run (fun d => d.access m (Pg.CLS_UPD + CLS_UPD.RD_CMD) (fun t => t.readEnt true))

/-- AGING_PASS (R172–R174). -/
def execAgingPass (s : State) : Out := s.run (fun d => d.agePass)

namespace Dev

/-- `RESTORE_CMD.START` (R178). -/
def restoreCmd (s : Dev) (m : Master) : Dev :=
  s.need m (Pg.CLS + CLS.RESTORE_CMD) (!s.bit (Pg.CLS + CLS.RESTORE_STATUS) 30) Err.state (fun t => t.restoreBegin)

end Dev

/-- RESTORE_START (R178). -/
def execRestoreStart (m : Master) (s : State) : Out :=
  s.run (fun d => d.access m (Pg.CLS + CLS.RESTORE_CMD) (fun t => t.restoreCmd m))

/-- RESTORE_DONE: the banks up to one are reloaded; the restore completes with bank 7 (R178). -/
def execRestoreDone (bank : Fin 8) (s : State) : Out :=
  s.run (fun d => if d.bit (Pg.CLS + CLS.RESTORE_STATUS) 30 then d.restoreEnd bank else d)

/-- BUCKET_RELOAD: an uncorrectable bucket has been reloaded from the shadow (R155). -/
def execBucketReload (bank : Fin 8) (bucket : BitVec 17) (s : State) : Out :=
  s.run (fun d =>
    let a := Dev.bankBase bank
    let lo := 524288 * bank.val + 4 * bucket.toNat
    let u : Dev := { d with cls := { d.cls with badBuckets := d.cls.badBuckets.filter (· != lo / 4) } }
    let t := (u.reloadRange lo 4 false).recount
    let t := ((t.count (a + CLS_BANK.ECC_UNC)).count (a + CLS_BANK.RELOADS)).raise (Pg.CLS_BANK (bank.val / 2)) (8 + bank.val % 2)
    t.logFault 10 (Dev.islandOf 0x064) none false bank 0)

/-- RELOCATION_DONE: the lines that could not be read are replaced; of a retired stack none could be (R237, R238). -/
def execRelocationDone (k : Stack) (unreadable : List RelocLine) (s : State) : Out :=
  s.run (fun d =>
    if (d.stack4 k).relocating.isEmpty then d
    else if d.bit (Pg.HBM k + HBM.STACK_STATUS) 4 then (d.relocDone k []).loseLearned k
    else d.relocDone k unreadable)

end Sys2Proof.Machine
end

