-- ==== Sys2Proof/Machine/Eye.lean ====
section
/-! DEFINITION. Eye scans, line (03, R105–R107) and host (08, R273, R274): the registers EYE_CTRL, EYE_GRID, EYE_CMD
and EYE_STATUS stand one after another from `a`, and the points from `data`. -/

namespace Sys2Proof.Machine

namespace Dev

/-- A scan runs. -/
def eyeRuns (s : Dev) (a : Nat) : Bool := s.bit (a + 12) 0

/-- The grid and dwell break R105. -/
def eyeBad (s : Dev) (a : Nat) : Bool :=
  let ctrl := s.rd a
  let grid := s.rd (a + 4)
  let ncol := fieldOf grid 0 6
  let nrow := fieldOf grid 8 6
  let dwell := fieldOf ctrl 8 5
  let ph := fieldOf ctrl 16 6
  let vstep := fieldOf ctrl 24 8
  let v0 := signedOf 8 (fieldOf grid 24 8)
  decide (32 < ncol) || decide (32 < nrow) || decide (dwell < 10) || decide (28 < dwell) || decide (ph = 0)
    || decide (32 < ph) || decide (vstep = 0) || decide (fieldOf ctrl 0 2 = 3)
    || (List.range nrow).any (fun r => decide (v0 + r * vstep < -127) || decide (127 < v0 + r * vstep))

/-- A scan ends: `DONE`, and the block's cause. -/
def eyeDone (s : Dev) (page a cause : Nat) : Dev := ((s.setB (a + 12) 0 false).setB (a + 12) 1 true).raise page cause

/-- `EYE_CTRL` and `EYE_GRID` of the present or last scan. A scan keeps to the values at its start, whatever is written
meanwhile: DESIGN CHOICE, log entry 60. -/
def eyeSet (s : Dev) (a : Nat) : Word × Word := Sparse.get (fun _ => (0, 0)) s.eyes a

/-- `EYE_CMD.START`: checks of R105, the state before the values (log entry 5), then a scan from its first point, or an
empty one. -/
def eyeStart (s : Dev) (m : Master) (page a data words cause : Nat) (inState : Bool) : Dev :=
  if !inState || s.eyeRuns a then s.logErr m (a + 8) Err.state
  else if s.eyeBad a then s.logErr m (a + 8) Err.config
  else
    let t := { s.clearRange data (data + 4 * words) with eyes := Sparse.put (fun _ => (0, 0)) s.eyes a (s.rd a, s.rd (a + 4)) }
    if fieldOf (s.rd (a + 4)) 0 6 = 0 ∨ fieldOf (s.rd (a + 4)) 8 6 = 0 then ((t.wr (a + 12) 0).setB (a + 12) 3 true).eyeDone page a cause
    else t.wr (a + 12) 1

/-- A running scan ends with `ABORTED` (R106). -/
def eyeAbort (s : Dev) (a : Nat) : Dev := if s.eyeRuns a then (s.setB (a + 12) 0 false).setB (a + 12) 2 true else s

/-- The dwell of a point ends: its code is stored and the scan moves on or completes (R107, R274). -/
def eyePoint (s : Dev) (page a data per width cause code : Nat) : Dev :=
  if s.eyeRuns a then
    let j := s.fld (a + 12) 16 11
    let grid := (s.eyeSet a).2
    let total := fieldOf grid 0 6 * fieldOf grid 8 6
    let t := (s.setF (data + 4 * (j / per)) (width * (j % per)) width code).setF (a + 12) 16 11 (j + 1)
    if total ≤ j + 1 then t.eyeDone page a cause else t
  else s

end Dev

/-- The 16-bit count of R107: m × 2^e with the smallest e that fits, 0xFFFF from 4,095 × 2^15. -/
def eyeCount (n : Nat) : Nat :=
  if 4095 * 2 ^ 15 ≤ n then 0xFFFF
  else
    let e := ((List.range 16).find? (fun e => decide (n < 4096 * 2 ^ e))).getD 15
    e * 4096 + n / 2 ^ e

end Sys2Proof.Machine
end

