-- ==== Sys2Proof/Machine/LaneRx.lean ====
section
/-! DEFINITION. Line receive lanes: states, Octave checkpoints, warm restart, loss of signal, quality and the eye
monitor (03). -/

namespace Sys2Proof.Machine

namespace Dev

def rxl (s : Dev) (n : Nat) : RxLane := Sparse.get (fun _ => RxLane.init) s.rx n
def setRxl (s : Dev) (n : Nat) (v : RxLane) : Dev := { s with rx := Sparse.put (fun _ => RxLane.init) s.rx n v }

/-- Lanes with an uncorrectable codeword among those that touch a frame; one that its lane has not decoded was cut
(R122, R129). -/
def badLanes (s : Dev) (spans : List CwSpan) : List Lane :=
  (spans.filter (fun c =>
    decide ((s.rxl c.lane).cwNo ≤ c.last) || (s.rxl c.lane).badCw.any (fun k => decide (c.first ≤ k) && decide (k ≤ c.last)))).map CwSpan.lane

/-! ### What a change of a lane does to its neighbours -/

/-- The receive source of R298: a Type E lane's always, a Type L lane's in TRACK and HOLD. -/
def ltSource (s : Dev) (n : Nat) : Bool := s.typeE (n / 4) || s.rxState n == 3 || s.rxState n == 4

/-- The Lantern receiver follows its source and `RX_EN` (R299), a receiver under Vigil wake apart (R315). -/
def ltRxUpdate (s : Dev) (n : Nat) : Dev :=
  let a := Pg.LANTERN n + LANTERN.LT_STATUS
  if s.bit a 10 then s
  else
    let on := s.bit (Pg.LANTERN n + LANTERN.LT_CTRL) 0 && s.ltSource n
    if on && s.ltState n == 0 then s.setF a 0 3 1 else if !on && s.ltState n != 0 then s.setF a 0 3 0 else s

/-- The port receives: configured, every lane in TRACK, whether or not it waits there, not held down, the device awake
(R87, R91, R136, R213). -/
def receives (s : Dev) (p : Nat) : Bool :=
  s.lpOn p && (s.lpLanes p).all (fun n => s.rxState n == 3) && !s.portHeld p
    && (s.vigilState == 0 || s.vigilState == 4) && !s.flow.refreshDue

/-- Packets of a port whose last byte has not left the line PCS are ended by a lane, whose codeword in progress is
flagged (R91, R122); one that was not admitted is counted now (R242). -/
def cutPackets (s : Dev) (n : Nat) : Dev :=
  let p := s.linePort n
  let l := Sparse.get (fun _ => []) s.flow.ports p
  let l' := (l.filter (fun x => x.last.isSome || x.refused.isNone)).map (fun x =>
    if x.last.isNone then { x with last := some { badLanes := [BitVec.ofNat 4 n |>.toFin], pcs := false, fcs := false } } else x)
  let t := { s with flow := { s.flow with ports := Sparse.put (fun _ => []) s.flow.ports p l' } }
  (l.filter (fun x => x.last.isNone)).foldl (fun t x => match x.refused with | some r => t.drop p r x.len | none => t) t

/-- What a decoder that loses its locks has gathered: codeword lock with all that follows it, or group lock too. -/
def alignForget (x : RxLane) (group : Bool) : RxLane :=
  let x := { x with confirmed := false, confN := 0, confBad := 0, cwFails := 0, groups := [], recent := [], amAt := none,
                    blockCw := 0, pairBad := false }
  if group then
    { x with huntPos := 0, words := [], grpCount := 0, grpPass := RxLane.init.grpPass, grpFails := RxLane.init.grpFails }
  else x

/-- Lock bits of `ALIGN_STATUS` clear, codeword lock among them; AM_LOCK and DESKEW_OK go with it in every case of R122
(DESIGN CHOICE, log entry 64). With `ALIGN_LOCK` the received indications read 0 and the lane's sequencer has its ALIGN
event (R122, R128, R346). -/
def alignClear (s : Dev) (n : Nat) (mask : Word) : Dev :=
  let a := Pg.LFEC n + LFEC.ALIGN_STATUS
  let t := (s.wr a (s.rd a &&& ~~~mask)).setRxl n (alignForget (s.rxl n) (bitOf mask 0))
  if s.bit a 2 && bitOf mask 2 then
    (((t.wr a (t.rd a &&& ~~~(0x340 : Word))).laneEvent n 8).ltFault n 2 true).txUpdate (s.linePort n)
  else t

/-- `DEGRADED` clears (R133). -/
def degClear (s : Dev) (n : Nat) : Dev :=
  let a := Pg.LFEC n + LFEC.ALIGN_STATUS
  if s.bit a 5 then ((s.setB a 5 false).raise (Pg.LFEC n) 11).ltFault n 3 false else s

/-- The degrade window starts afresh. -/
def degRestart (s : Dev) (n : Nat) : Dev :=
  (s.setRxl n { s.rxl n with winCw := 0 }).wr (Pg.LFEC n + LFEC.DEG_ACC) 0

/-- Fault records of a lane's recovery take an outcome (R484). -/
def laneFaultNote (s : Dev) (n outcome : Nat) : Dev :=
  let mine (r : FaultRec) := (r.cls == 1 && r.unit == n) || (r.cls == 7 && r.unit == n) || ((r.cls == 5 || r.cls == 9) && r.unit == 8 + n)
  { s with log := { s.log with opened := s.log.opened.map (fun r => if mine r && r.outcome == 0 then { r with outcome := outcome } else r) } }

/-- They complete when the port resumes, or when the lane gives up. -/
def laneFaultClose (s : Dev) (n : Nat) : Dev :=
  let mine (r : FaultRec) := (r.cls == 1 && r.unit == n) || (r.cls == 7 && r.unit == n) || ((r.cls == 5 || r.cls == 9) && r.unit == 8 + n)
  (s.log.opened.filter mine).foldl (fun t r => t.completeFault r r.outcome true) s

/-! ### States (R87, R88) -/

/-- `LANE_STATE.FORMAT` of a state. -/
def laneFormat (s : Dev) (n st : Nat) : Nat := if st = 0 ∨ st = 7 then 0 else if s.l453 (n / 4) then 1 else 2

/-- Bring-up is host-assisted: `HOST_ASSIST` of the lane's `SEQ` page (R87). -/
def bringUpAssisted (s : Dev) (n : Nat) : Bool := s.assisted (Pg.LSEQ (8 + n))

/-- What leaving TRACK does: the figures of quality read 0, a scan ends, `DEGRADED` clears and packets being received
are cut (R91, R103, R106, R133). -/
def leaveTrack (s : Dev) (n : Nat) : Dev :=
  let t := ((s.wr (Pg.LRX n + LRX.QUALITY) 0).wr (Pg.LRX n + LRX.SNR_EYE_LM) 0).wr (Pg.LRX n + LRX.SNR_EYE_U) 0
  let t := t.setRxl n { t.rxl n with tracked := false, unsettled := true }
  ((t.eyeAbort (Pg.LRX n + LRX.EYE_CTRL)).degClear n).cutPackets n

/-- Coefficients at their reset values for an acquisition (R88, page text). -/
def coefReset (s : Dev) (n : Nat) : Dev :=
  let b := Pg.LRX n
  let main := s.fld (b + LRX.FFE_CTRL) 0 5
  let t := s.wrWords (b + LRX.FFE_TAP) ((List.range 33).map (fun k => if k = main then 0x4000 else 0))
  (t.wrWords (b + LRX.MLSE_LEVEL) ((List.range 16).map mlseResetWord)).wr (b + LRX.DFE_TAP) 0

/-- Decoder and clock locks of a lane that starts from nothing. -/
def locksReset (s : Dev) (n : Nat) : Dev :=
  let a := Pg.LRX n + LRX.CDR_STATUS
  let t := if s.bit a 0 then (s.setB a 0 false).laneEvent n 7 else s
  t.alignClear n 0x1F

/-- A change of state (R88): the state left is recorded, the change flagged and told to the lane's sequencer. -/
def setLane (s : Dev) (n st : Nat) : Dev :=
  let a := Pg.LRX n + LRX.LANE_STATE
  let old := s.rxState n
  let t := ((((s.setF a 4 4 old).setF a 0 4 st).setF a 16 2 (s.laneFormat n st)).setB a 18 (s.typeE (n / 4))).setB a 19 false
  let t := (t.raise (Pg.LRX n) 8).laneEvent n 4
  let t := t.setRxl n { t.rxl n with since := t.mono, seqWait := false, holdOver := false,
                                     bringUp := (t.rxl n).bringUp && (st == 1 || st == 2),
                                     degWarm := (t.rxl n).degWarm && old == 5 && st == 3 }
  let unfit := t.cal.run.head? == some (2 * n) && !(st == 1 || st == 3 || st == 4)
  let t := { t with cal := { t.cal with kept := t.cal.kept.filter (· != 2 * n), unfit := t.cal.unfit || unfit } }
  let t := if old = 3 ∧ st ≠ 3 then t.leaveTrack n else t
  t.ltRxUpdate n

/-- The state just entered waits for `PROCEED` in host-assisted bring-up, or for a sequencer whose restart was refused
(R87, R478). -/
def waitEntry (s : Dev) (n : Nat) (first : Bool) : Dev :=
  let t := if s.bringUpAssisted n then (s.setB (Pg.LRX n + LRX.LANE_STATE) 19 true).raise (Pg.LRX n) 17 else s
  if first && (t.rxl n).refused then t.setRxl n { t.rxl n with seqWait := true } else t

/-- The present state's work has not begun. -/
def laneWaits (s : Dev) (n : Nat) : Bool := s.bit (Pg.LRX n + LRX.LANE_STATE) 19 || (s.rxl n).seqWait

/-- `ACQ_RETRIES` retries. -/
def acqRetries (s : Dev) (n : Nat) : Nat := s.fld (Pg.LRX n + LRX.BRINGUP_TMO) 24 4

/-- CALIBRATE is entered from OFF or FAULT (R87, R88). -/
def toCalibrate (s : Dev) (n : Nat) (warm : Bool) : Dev :=
  let t := s.setLane n 1
  let t := t.setRxl n { t.rxl n with warmCal := warm, warmUp := false, retries := t.acqRetries n, bringUp := true }
  t.waitEntry n true

/-- ACQUIRE is entered; its retries are available afresh from another state. `ACQ_COUNT` counts every entry, a restart
among them, as the register's summary says where a row of R88 leaves its counter empty (log entry 61). -/
def toAcquire (s : Dev) (n : Nat) : Dev :=
  let fresh := s.rxState n ≠ 2
  let t := ((s.setLane n 2).locksReset n).coefReset n
  let t := if fresh then t.setRxl n { t.rxl n with retries := t.acqRetries n } else t
  t.count (Pg.LRX n + LRX.ACQ_COUNT)

/-- On from CALIBRATE to ACQUIRE within the same bring-up (R87). -/
def acquireOn (s : Dev) (n : Nat) : Dev :=
  let up := (s.rxl n).bringUp
  let t := s.toAcquire n
  if up then t.waitEntry n false else t

/-- ACQUIRE is entered by `LANE_CMD.REACQUIRE` (R87). -/
def reacquire (s : Dev) (n : Nat) : Dev :=
  let t := s.toAcquire n
  (t.setRxl n { t.rxl n with bringUp := true }).waitEntry n true

/-- TRACK is entered: the port may resume, the degrade window starts afresh (R87, R91, R133). The run of codewords that R122
looks back on goes on (DESIGN CHOICE, log entry 64). -/
def toTrack (s : Dev) (n : Nat) : Dev :=
  let up := (s.rxl n).bringUp
  let t := (s.setLane n 3).degRestart n
  let t := t.setRxl n { t.rxl n with tracked := false }
  let t := if up then t.waitEntry n false else t
  let t := if (t.rxl n).degWarm then t.setRxl n { t.rxl n with degWarm := false, degBack := some t.mono } else t
  t.laneFaultClose n

/-- FAULT is entered with a cause (R88). -/
def toFault (s : Dev) (n cause : Nat) : Dev :=
  let t := (s.setLane n 6).setF (Pg.LRX n + LRX.LANE_STATE) 8 8 cause
  (((t.raise (Pg.LRX n) 11).count (Pg.LRX n + LRX.FAULT_COUNT)).laneFaultNote n 2).laneFaultClose n

/-- OFF is entered: loss of signal reads 1 and nothing is locked (R88, `LOS_STATUS`). -/
def toOff (s : Dev) (n : Nat) : Dev :=
  if s.rxState n = 0 then s
  else
    let t := ((s.setLane n 0).locksReset n).setB (Pg.LRX n + LRX.LOS_STATUS) 0 true
    (t.laneFaultNote n 3).laneFaultClose n

/-- OFF is left when enabled, configured and with the line PLL locked (R28, R88). -/
def rxTryUp (s : Dev) (n : Nat) : Dev :=
  if s.rxState n = 0 ∧ s.bit (Pg.LRX n + LRX.LANE_CTRL) 0 = true then
    let t := s.sliceCheck (n / 4)
    if !t.lineHeld n && t.lpllLock (n / 4) then t.toCalibrate n (t.rxl n).warmUp else t
  else s

/-- The lane's bring-up at a Vigil exit: after Vigil-1 it restarts warm from its CALIBRATE (R88). -/
def rxWake (s : Dev) (n : Nat) (warm : Bool) : Dev := (s.setRxl n { s.rxl n with warmUp := warm }).rxTryUp n

/-- `LANE_EN` written (R88); in IN_TEST it waits for the end of the test. -/
def laneEnable (s : Dev) (n : Nat) (on : Bool) : Dev :=
  let t := s.setB (Pg.LRX n + LRX.LANE_CTRL) 0 on
  let t := t.mmUpdate (t.linePort n)
  if t.rxState n = 7 then t else if on then t.rxTryUp n else (t.setRxl n { t.rxl n with warmUp := false }).toOff n

/-! ### Octave checkpoints (R93–R97) -/

/-- The temperature of the lane's slice zone in 1/16 degree. -/
def zoneTag (s : Dev) (n : Nat) : Int := signedOf 16 (s.fld (Pg.THERM + THERM.ZONE_TEMP + 4 * (n / 4)) 0 16) / 8

/-- The configuration signature (R96, record text). -/
def ckptSig (s : Dev) (n : Nat) : Word :=
  let w := n % 16 + (if s.l453 (n / 4) then 1 else 2) * 2 ^ 4 + (if s.bit (Pg.LRX n + LRX.LANE_CTRL) 1 then 2 ^ 6 else 0)
    + s.fld (Pg.LRX n + LRX.FFE_CTRL) 0 5 * 2 ^ 8
  BitVec.ofNat 32 (crc32c (bytesLE 4 w))

/-- An invalid slot. -/
def emptyCkpt : Ckpt := {}

/-- The eight slots. -/
def ckpts (s : Dev) (n : Nat) : List Ckpt := (List.range 8).map (fun k => (s.rxl n).ckpts.getD k emptyCkpt)

/-- `CKPT_STATUS.VALID` and `NEWEST` follow the slots. -/
def ckptStatus (s : Dev) (n : Nat) : Dev :=
  let cs := s.ckpts n
  let idx := List.range 8
  let c (k : Nat) := cs.getD k emptyCkpt
  let valid := (idx.map (fun k => if (c k).valid then 2 ^ k else 0)).sum
  let newest := idx.foldl (fun (b : Option Nat) k =>
    if (c k).valid then (match b with | some j => if (c j).seq ≤ (c k).seq then some k else b | none => some k) else b) none
  let a := Pg.LRX n + LRX.CKPT_STATUS
  let t := s.setF a 0 8 valid
  match newest with
  | some k => (t.setF a 8 3 k).setB a 11 true
  | none => (t.setF a 8 3 0).setB a 11 false

/-- The better of two slots by a distance, the higher sequence number winning a tie. -/
def nearer (cs : List Ckpt) (tag : Int) (b : Option Nat) (k : Nat) : Option Nat :=
  let c := cs.getD k emptyCkpt
  match b with
  | none => some k
  | some j =>
    let e := cs.getD j emptyCkpt
    let dk := (c.tag - tag).natAbs
    let dj := (e.tag - tag).natAbs
    if dk < dj ∨ (dk = dj ∧ e.seq < c.seq) then some k else b

/-- The checkpoint a warm restart uses (R97). -/
def eligible (s : Dev) (n : Nat) : Option Nat :=
  let cs := s.ckpts n
  let ok (k : Nat) :=
    let c := cs.getD k emptyCkpt
    c.valid && c.sig == s.ckptSig n && decide ((c.tag - s.zoneTag n).natAbs ≤ 48)
  ((List.range 8).filter ok).foldl (nearer cs (s.zoneTag n)) none

/-- The slot a save goes to (R94). -/
def saveSlot (s : Dev) (n : Nat) : Nat :=
  let cs := s.ckpts n
  let c (k : Nat) := cs.getD k emptyCkpt
  let near := (List.range 8).filter (fun k => (c k).valid && decide (((c k).tag - s.zoneTag n).natAbs ≤ 16))
  match near.foldl (nearer cs (s.zoneTag n)) none with
  | some k => k
  | none =>
    match (List.range 8).find? (fun k => !(c k).valid) with
    | some k => k
    | none => (List.range 8).foldl (fun b k => if (c k).seq < (c b).seq then k else b) 0

/-- The MLSE levels a record stores: the present ones, or in DFE mode those MLSE mode last used (R96, record text). -/
def ckptLevels (s : Dev) (n : Nat) : List Word :=
  let now := s.rdWords (Pg.LRX n + LRX.MLSE_LEVEL) 16
  if s.bit (Pg.LRX n + LRX.LANE_CTRL) 1 && !(s.rxl n).mlseKept.isEmpty then (s.rxl n).mlseKept else now

/-- The adapted state of the lane as a record. Its sequence number is one more than the highest in any slot; slots that
`ckptClear` emptied hold none, so numbers start at 1 again (R95; DESIGN CHOICE, log entry 62). -/
def ckptNow (s : Dev) (n : Nat) : Ckpt :=
  let b := Pg.LRX n
  let half (k : Nat) := s.fld (b + LRX.FFE_TAP + 4 * k) 0 16
  { valid := true, l453 := s.l453 (n / 4), dfe := s.bit (b + LRX.LANE_CTRL) 1, main := s.fld (b + LRX.FFE_CTRL) 0 5,
    tag := s.zoneTag n, sig := s.ckptSig n, seq := ((s.ckpts n).map Ckpt.seq).foldl max 0 + 1,
    taps := (List.range 17).map (fun m => BitVec.ofNat 32 (half (2 * m) + (if m = 16 then 0 else half (2 * m + 1) * 2 ^ 16))),
    levels := s.ckptLevels n, dfeTaps := s.rd (b + LRX.DFE_TAP),
    gain := BitVec.ofNat 16 (s.fld (b + LRX.AGC_STATUS) 0 16), freq := BitVec.ofNat 16 (s.fld (b + LRX.CDR_STATUS) 16 16),
    envelope := (s.rxl n).envelope, snr := BitVec.ofNat 16 (s.fld (b + LRX.QUALITY) 0 16) }

/-- A save that is due: made, or skipped and counted when the lane has not been in TRACK for 1 ms, its SNR is below
`SNR_MIN` or, for a period tick, it has been unsettled since the last one (R93–R95). One that is cut short leaves its slot
invalid and is not counted. While the lane waits nothing is saved, skipped or logged (DESIGN CHOICE, log entry 62). -/
def ckptSave (s : Dev) (n : Nat) (tick cut : Bool) : Dev :=
  let b := Pg.LRX n
  let x := s.rxl n
  if s.laneWaits n then s
  else if (x.tracked || decide (1000000 ≤ s.mono - x.since)) && decide (s.fld (b + LRX.CKPT_CTRL) 16 16 ≤ s.fld (b + LRX.QUALITY) 0 16)
      && !(tick && x.unsettled) then
    let k := s.saveSlot n
    if cut then (s.setRxl n { x with ckpts := (s.ckpts n).set k { (s.ckpts n).getD k emptyCkpt with valid := false } }).ckptStatus n
    else ((s.setRxl n { x with ckpts := (s.ckpts n).set k (s.ckptNow n) }).ckptStatus n).count (b + LRX.CKPT_SAVES)
  else s.count (b + LRX.CKPT_SKIPS)

/-- All eight checkpoints of a lane are invalidated (R96). An emptied slot holds no sequence number (DESIGN CHOICE, log entry 62). -/
def ckptClear (s : Dev) (n : Nat) : Dev := (s.setRxl n { s.rxl n with ckpts := [] }).ckptStatus n

/-- A checkpoint is loaded (Warm restart, event 2). What `AGC_FREEZE` and `CDR_FREEZE` hold, the load leaves as it is
(R79, R84; for the frequency DEDUCED, log entry 63). -/
def ckptLoad (s : Dev) (n k : Nat) : Dev :=
  let b := Pg.LRX n
  let c := (s.ckpts n).getD k emptyCkpt
  let tap (i : Nat) : Word := BitVec.ofNat 32 (fieldOf (c.taps.getD (i / 2) 0) (16 * (i % 2)) 16)
  let t := s.wrWords (b + LRX.FFE_TAP) ((List.range 33).map tap)
  let t := (t.wrWords (b + LRX.MLSE_LEVEL) ((List.range 16).map (fun w => c.levels.getD w 0))).wr (b + LRX.DFE_TAP) c.dfeTaps
  let t := if t.bit (b + LRX.AGC_CTRL) 16 then t else t.setF (b + LRX.AGC_STATUS) 0 16 c.gain.toNat
  let t := if t.bit (b + LRX.CDR_CTRL) 8 then t else t.setF (b + LRX.CDR_STATUS) 16 16 c.freq.toNat
  let t := t.setRxl n { t.rxl n with envelope := c.envelope }
  (t.setF (b + LRX.CKPT_STATUS) 12 3 k).setB (b + LRX.CKPT_STATUS) 15 true

/-! ### Warm restart and HOLD (R88, R97–R99) -/

/-- WARM_RESTART with an eligible checkpoint, whose state is loaded before the ADC corrections are re-applied (Warm
restart, events 1 to 3). -/
def warmWith (s : Dev) (n k : Nat) : Dev :=
  let single := s.lpWidth (s.linePort n) == 1 && s.l453 (n / 4)
  let t := (((s.setLane n 5).locksReset n).ckptLoad n k).adcReapply n
  t.setRxl n { t.rxl n with predict := !single }

/-- A trigger of a warm restart: WARM_RESTART, or ACQUIRE when no checkpoint is eligible (R97). -/
def toWarm (s : Dev) (n : Nat) : Dev :=
  match s.eligible n with
  | some k => s.warmWith n k
  | none => (((s.toAcquire n).count (Pg.LRX n + LRX.WR_NOCKPT)).raise (Pg.LRX n) 14).laneFaultNote n 4

/-- Microseconds in the present state. -/
def stateUs (s : Dev) (n : Nat) : Nat := (s.mono - (s.rxl n).since) / 1000

/-- A WARM frame for a warm restart that ended in neither TRACK nor ACQUIRE: its outcome is a value no rule gives. -/
def warmEnd (s : Dev) (n : Nat) : Dev :=
  if s.rxState n = 5 then (s.ltWarm n (s.freeWord.toNat % 256) (s.stateUs n)).nextFree else s

/-- A HOLD trigger: TRACK, and for the signal or the PLL also WARM_RESTART, goes to HOLD (R88, R99). -/
def holdTrigger (s : Dev) (n : Nat) (input : Bool) : Dev :=
  let st := s.rxState n
  if st = 3 ∨ (input ∧ st = 5) then
    let t := (s.warmEnd n).setLane n 4
    (t.count (Pg.LRX n + LRX.HOLD_COUNT)).laneFaultNote n 3
  else s

/-- The lane is present to its signal. -/
def lossOfSignal (s : Dev) (n : Nat) : Bool := s.bit (Pg.LRX n + LRX.LOS_STATUS) 0

/-- OFF from any state, a warm restart under way ended (R88, `LANE_EN`, soft reset, Vigil entry). -/
def laneOff (s : Dev) (n : Nat) : Dev := (s.warmEnd n).toOff n

/-- The same state starts again, retries unchanged (R88, island watchdog or sequencer trap). -/
def laneRestart (s : Dev) (n : Nat) (wait : Bool) : Dev :=
  let up := (s.rxl n).bringUp
  let t := s.setLane n (s.rxState n)
  let t := if t.rxState n = 2 then (t.locksReset n).coefReset n else t
  t.setRxl n { t.rxl n with bringUp := up, seqWait := wait }

/-- The lane-sequencer trap trigger (R351, R478). -/
def laneTrap (s : Dev) (n : Nat) (refused : Bool) : Dev :=
  let t := s.setRxl n { s.rxl n with refused := refused || (s.rxl n).refused }
  let st := t.rxState n
  if st = 3 then t.toWarm n else if st = 1 ∨ st = 2 then t.laneRestart n refused else t

/-- The lane's sequencer runs again: a bring-up that waits for it begins (R478). -/
def laneSeqRuns (s : Dev) (n : Nat) : Dev := s.setRxl n { s.rxl n with refused := false, seqWait := false }

/-- The equaliser, clock-recovery and pilot state of an island that is reset (R92). -/
def rxClear (s : Dev) (n : Nat) : Dev :=
  let a := Pg.LRX n + LRX.CDR_STATUS
  let t := if s.bit a 0 then s.laneEvent n 7 else s
  let t := ((t.coefReset n).wr a 0).wr (Pg.LRX n + LRX.PILOT_STATUS) 0
  t.setRxl n { t.rxl n with envelope := 0 }

/-- After an RX island watchdog reset: TRACK, HOLD and WARM_RESTART restart warm, CALIBRATE and ACQUIRE start again
(R88, R92). -/
def laneHang (s : Dev) (n : Nat) : Dev :=
  let st := s.rxState n
  if st = 3 ∨ st = 4 ∨ st = 5 then ((s.warmEnd n).rxClear n).toWarm n
  else if st = 1 ∨ st = 2 then (s.rxClear n).laneRestart n false
  else s.rxClear n

/-- Lane LBIST starts and ends (R88, rows IN_TEST). -/
def laneTestStart (s : Dev) (n : Nat) : Dev :=
  let st := s.rxState n
  if st = 7 then s
  else
    let t := (s.warmEnd n).setLane n 7
    t.setRxl n { t.rxl n with preTest := st }

/-- The test ends with the ADC corrections re-applied. A lane whose state before it was OFF is in OFF again, and an
enabled one leaves it by its own row. -/
def laneTestEnd (s : Dev) (n : Nat) : Dev :=
  if s.rxState n = 7 then
    let pre := (s.rxl n).preTest
    let t := s.adcReapply n
    if t.bit (Pg.LRX n + LRX.LANE_CTRL) 0 = false ∨ pre = 0 then (t.toOff n).rxTryUp n
    else if pre = 3 ∨ pre = 4 ∨ pre = 5 then
      match t.eligible n with
      | some k => t.warmWith n k
      | none => t.toAcquire n
    else t.toAcquire n
  else s

/-! ### The line PLL -/

/-- Line PLL lock lost, or back: HOLD, or bring-up of enabled lanes (R88). -/
def linePll (s : Dev) (sl : Nat) (locked : Bool) : Dev :=
  (List.range 4).foldl (fun t q => if locked then t.rxTryUp (4 * sl + q) else t.holdTrigger (4 * sl + q) true) s

/-! ### Commands of `LANE_CMD` (R90) -/

/-- A command that does not apply in the present state clears and is logged. -/
def laneCmd (s : Dev) (m : Master) (n : Nat) (ok : Bool) (k : Dev → Dev) : Dev :=
  s.need m (Pg.LRX n + LRX.LANE_CMD) ok Err.state k

def cmdRetry (s : Dev) (m : Master) (n : Nat) : Dev := s.laneCmd m n (s.rxState n == 6) (fun t => t.toCalibrate n true)
def cmdReacquire (s : Dev) (m : Master) (n : Nat) : Dev :=
  s.laneCmd m n (s.rxState n == 2 || s.rxState n == 3 || s.rxState n == 4) (fun t => t.reacquire n)
def cmdWarm (s : Dev) (m : Master) (n : Nat) : Dev := s.laneCmd m n (s.rxState n == 3) (fun t => t.toWarm n)
def cmdCkptNow (s : Dev) (m : Master) (n : Nat) (cut : Bool) : Dev := s.laneCmd m n (s.rxState n == 3) (fun t => t.ckptSave n false cut)
def cmdCkptClear (s : Dev) (m : Master) (n : Nat) : Dev :=
  s.need m (Pg.LRX n + LRX.LANE_CMD) (s.holds m (0x010 + n)) Err.lockRequired (fun t => t.ckptClear n)

/-- `PROCEED`, while the lane waits (R87, R90, R346). -/
def cmdProceed (s : Dev) (n : Nat) : Dev :=
  let a := Pg.LRX n + LRX.LANE_STATE
  if s.bit a 19 then (s.setB a 19 false).laneEvent n 5 else s

/-- A write of `LANE_CMD`: the first of its commands in the order of R90, and `PROCEED` where it sets no other (log
entry 31). -/
def laneCommands (s : Dev) (m : Master) (n : Nat) (v : Word) : Dev :=
  if bitOf v 3 then s.cmdRetry m n
  else if bitOf v 1 then s.cmdReacquire m n
  else if bitOf v 0 then s.cmdWarm m n
  else if bitOf v 4 then s.cmdCkptNow m n false
  else if bitOf v 5 then s.cmdCkptClear m n
  else if bitOf v 2 then s.cmdProceed n
  else s

/-! ### Reports and signals -/

/-- What one millisecond's report brings to the quality figures (R103, R104). -/
def qualityFigures (s : Dev) (n : Nat) (r : LaneReport) : Dev :=
  let b := Pg.LRX n
  let t := s.wr (b + LRX.QUALITY) (r.ber ++ r.snr)
  let t := (t.wr (b + LRX.SNR_EYE_LM) (r.eyeM ++ r.eyeL)).wr (b + LRX.SNR_EYE_U) (BitVec.setWidth 32 r.eyeU)
  let min := t.fld (b + LRX.SNR_ALARM) 0 16
  let x := t.rxl n
  if r.snr.toNat < min ∧ x.snrArmed = true then (t.setRxl n { x with tracked := true, snrArmed := false }).raise b 16
  else t.setRxl n { x with tracked := true, snrArmed := x.snrArmed || decide (min + 128 ≤ r.snr.toNat) }

/-- Taps after a report: frozen taps and the main tap stay (R81, R85). -/
def adaptTaps (s : Dev) (n : Nat) (ffe : List (BitVec 16)) : Dev :=
  let b := Pg.LRX n
  let main := s.fld (b + LRX.FFE_CTRL) 0 5
  let frozen (k : Nat) := if k = 32 then s.bit (b + LRX.FFE_FREEZE_HI) 0 else s.bit (b + LRX.FFE_FREEZE_LO) k
  (List.range 33).foldl (fun t k =>
    if frozen k || k == main then t else t.wr (b + LRX.FFE_TAP + 4 * k) (BitVec.setWidth 32 (ffe.getD k 0))) s

/-- What adapts in the two modes. HOLD freezes the gain and the equaliser; clock recovery and the pilot canceller run on
(R79, R80, R85). -/
def adapt (s : Dev) (n : Nat) (r : LaneReport) : Dev :=
  let b := Pg.LRX n
  let hold := s.rxState n == 4
  let t := if hold || s.bit (b + LRX.AGC_CTRL) 16 then s else s.setF (b + LRX.AGC_STATUS) 0 16 r.gain.toNat
  let t := if t.bit (b + LRX.CDR_CTRL) 8 then t else t.setF (b + LRX.CDR_STATUS) 16 16 r.freq.toNat
  let t := if t.bit (b + LRX.LANE_CTRL) 2 then t.wr (b + LRX.PILOT_STATUS) (r.suppr ++ r.depth) else t.wr (b + LRX.PILOT_STATUS) 0
  let t := t.setRxl n { t.rxl n with envelope := r.envelope }
  if hold || t.assisted b then t
  else
    let t := t.adaptTaps n r.ffe
    if t.bit (b + LRX.LANE_CTRL) 1 then (if t.bit (b + LRX.DFE_CTRL) 4 then t else t.wr (b + LRX.DFE_TAP) r.dfe)
    else if t.bit (b + LRX.MLSE_CTRL) 20 then t
    else t.wrWords (b + LRX.MLSE_LEVEL) ((List.range 16).map (fun w => r.levels.getD w 0))

/-- A millisecond's report: the figures of quality in TRACK, and what adapts wherever samples are taken and the state's
work has begun: ACQUIRE, TRACK, HOLD and WARM_RESTART (R79, R80, R85, R103). -/
def laneReport (s : Dev) (n : Nat) (r : LaneReport) : Dev :=
  let st := s.rxState n
  let t := if st = 3 then s.qualityFigures n r else s
  if st = 3 ∨ st = 4 ∨ st = 5 ∨ (st = 2 ∧ s.laneWaits n = false) then t.adapt n r else t

/-- TRACK is entered; a cause to leave it that stands already acts in the new state (R88, R89). -/
def enterTrack (s : Dev) (n : Nat) : Dev :=
  let t := s.toTrack n
  if !t.lossOfSignal n && t.bit (Pg.LRX n + LRX.CDR_STATUS) 0 && t.lpllLock (n / 4) then t else t.holdTrigger n false

/-- The eye scan of a lane, and its EYE_DONE event (R105, R346). -/
def rxEyeStart (s : Dev) (m : Master) (n : Nat) : Dev :=
  let a := Pg.LRX n + LRX.EYE_CTRL
  let t := s.eyeStart m (Pg.LRX n) a (Pg.LRX n + LRX.EYE_DATA) 512 15 (s.rxState n == 3)
  if !s.eyeRuns a && !t.eyeRuns a && t.bit (a + 12) 3 && !s.bit (a + 12) 3 then t.laneEvent n 12 else t

end Dev

/-- LANE_ENABLE (R88). -/
def execLaneEnable (m : Master) (n : Lane) (s : State) : Out :=
  s.run (fun d => d.access m (Pg.LRX n + LRX.LANE_CTRL) (fun t => t.laneEnable n true))

/-- LANE_DISABLE (R88). -/
def execLaneDisable (m : Master) (n : Lane) (s : State) : Out :=
  s.run (fun d => d.access m (Pg.LRX n + LRX.LANE_CTRL) (fun t => (if t.rxState n = 7 then t else t.warmEnd n).laneEnable n false))

/-- LANE_CMD_RETRY (R88, R90). -/
def execLaneCmdRetry (m : Master) (n : Lane) (s : State) : Out :=
  s.run (fun d => d.access m (Pg.LRX n + LRX.LANE_CMD) (fun t => t.cmdRetry m n))

/-- LANE_CMD_REACQUIRE (R88, R90). -/
def execLaneCmdReacquire (m : Master) (n : Lane) (s : State) : Out :=
  s.run (fun d => d.access m (Pg.LRX n + LRX.LANE_CMD) (fun t => t.cmdReacquire m n))

/-- LANE_CMD_WARM (R88, R90). -/
def execLaneCmdWarm (m : Master) (n : Lane) (s : State) : Out :=
  s.run (fun d => d.access m (Pg.LRX n + LRX.LANE_CMD) (fun t => t.cmdWarm m n))

/-- LANE_CMD_CKPT_NOW, its save cut short or not (R90, R93, R95). -/
def execLaneCmdCkptNow (m : Master) (n : Lane) (cut : Bool) (s : State) : Out :=
  s.run (fun d => d.access m (Pg.LRX n + LRX.LANE_CMD) (fun t => t.cmdCkptNow m n cut))

/-- LANE_CMD_CKPT_CLEAR (R90, R96). -/
def execLaneCmdCkptClear (m : Master) (n : Lane) (s : State) : Out :=
  s.run (fun d => d.access m (Pg.LRX n + LRX.LANE_CMD) (fun t => t.cmdCkptClear m n))

/-- LANE_CMD_PROCEED (R87, R90). -/
def execLaneCmdProceed (m : Master) (n : Lane) (s : State) : Out :=
  s.run (fun d => d.access m (Pg.LRX n + LRX.LANE_CMD) (fun t => t.cmdProceed n))

/-- CALIBRATE_COMPLETE: the corrections are within their limits or not (R88). In host-assisted calibration a lane without
a valid ADC part waits on (R362). -/
def execCalibrateComplete (n : Lane) (inRange : Bool) (s : State) : Out :=
  s.run (fun d =>
    if d.rxState n = 1 ∧ d.laneWaits n = false ∧ (d.assisted Pg.CAL && !d.calValidA n) = false then
      if !inRange then d.toFault n 1
      else if (d.rxl n).warmCal then
        match d.eligible n with
        | some k => d.warmWith n k
        | none => d.acquireOn n
      else d.acquireOn n
    else d)

/-- CAL_TIMEOUT (R88). -/
def execCalTimeout (n : Lane) (s : State) : Out :=
  s.run (fun d => if d.rxState n = 1 ∧ d.laneWaits n = false then d.toFault n 2 else d)

/-- ACQ_TIMEOUT: a retry, or FAULT; the count pauses during loss of signal (R88). -/
def execAcqTimeout (n : Lane) (s : State) : Out :=
  s.run (fun d =>
    if d.rxState n = 2 ∧ d.laneWaits n = false ∧ d.lossOfSignal n = false then
      let k := (d.rxl n).retries
      if k = 0 then d.toFault n 3
      else
        let up := (d.rxl n).bringUp
        let t := d.toAcquire n
        t.setRxl n { t.rxl n with retries := k - 1, bringUp := up }
    else d)

/-- ACQUIRE_LOCK: clock and decoder alignment locked (R88). -/
def execAcquireLock (n : Lane) (s : State) : Out :=
  s.run (fun d =>
    if d.rxState n = 2 ∧ d.laneWaits n = false ∧ d.bit (Pg.LRX n + LRX.CDR_STATUS) 0 = true
        ∧ d.bit (Pg.LFEC n + LFEC.ALIGN_STATUS) 2 = true then d.enterTrack n else d)

/-- HOLD_LIMIT_EXPIRY: with the signal present a warm restart, else HOLD lasts until it returns (R88). -/
def execHoldLimitExpiry (n : Lane) (s : State) : Out :=
  s.run (fun d =>
    if d.rxState n = 4 ∧ (d.rxl n).holdOver = false then
      if d.lossOfSignal n then d.setRxl n { d.rxl n with holdOver := true } else d.toWarm n
    else d)

/-- HOLD_RECOVER: signal, PLL and alignment are back before the limit (R88). -/
def execHoldRecover (n : Lane) (s : State) : Out :=
  s.run (fun d =>
    if d.rxState n = 4 ∧ (d.rxl n).holdOver = false ∧ d.lossOfSignal n = false ∧ d.lpllLock (n / 4) = true
        ∧ d.bit (Pg.LFEC n + LFEC.ALIGN_STATUS) 2 = true then d.enterTrack n else d)

/-- WARM_RESTART_COMPLETE, `us` microseconds after it began (R98, R310). -/
def execWarmRestartComplete (n : Lane) (s : State) : Out :=
  s.run (fun d =>
    let us := d.stateUs n
    if d.rxState n = 5 ∧ us ≤ 250 ∧ d.bit (Pg.LRX n + LRX.CDR_STATUS) 0 = true
        ∧ d.bit (Pg.LFEC n + LFEC.ALIGN_STATUS) 2 = true then
      (((d.ltWarm n 1 us).toTrack n).count (Pg.LRX n + LRX.WR_COUNT)).raise (Pg.LRX n) 12
    else d)

/-- WARM_RESTART_TIMEOUT: 250 µs without TRACK (R98). -/
def execWarmRestartTimeout (n : Lane) (s : State) : Out :=
  s.run (fun d =>
    if d.rxState n = 5 then
      ((((d.ltWarm n 2 250).toAcquire n).count (Pg.LRX n + LRX.WR_FAIL)).raise (Pg.LRX n) 13).laneFaultNote n 4
    else d)

/-- CKPT_TICK: the checkpoint period ends in TRACK; its save is cut short or not (R93, R95). -/
def execCkptTick (n : Lane) (cut : Bool) (s : State) : Out :=
  s.run (fun d =>
    if d.rxState n = 3 ∧ d.fld (Pg.LRX n + LRX.CKPT_CTRL) 0 16 ≠ 0 then
      let t := (d.laneEvent n 11).ckptSave n true cut
      t.setRxl n { t.rxl n with unsettled := false }
    else d)

/-- QUALITY_UPDATE: the report of a millisecond (R85, R103, R104). -/
def execQualityUpdate (n : Lane) (r : LaneReport) (s : State) : Out := s.run (fun d => d.laneReport n r)

/-- LOS_ASSERT: four windows below `LOS_ON` (R101). -/
def execLosAssert (n : Lane) (amp : BitVec 12) (s : State) : Out :=
  s.run (fun d =>
    let a := Pg.LRX n + LRX.LOS_STATUS
    if d.rxState n ≠ 0 ∧ d.bit a 0 = false ∧ amp.toNat < 2 * d.fld (Pg.LRX n + LRX.LOS_CTRL) 0 8 then
      let t := ((d.setB a 0 true).setF a 16 12 amp.toNat).count (Pg.LRX n + LRX.LOS_COUNT)
      (((t.raise (Pg.LRX n) 9).laneEvent n 6).ltFault n 1 true).holdTrigger n true
    else d)

/-- LOS_DEASSERT: `LOS_OFF_WIN` windows above `LOS_OFF`; a lane whose HOLD limit has expired restarts (R88, R101). -/
def execLosDeassert (n : Lane) (amp : BitVec 12) (s : State) : Out :=
  s.run (fun d =>
    let a := Pg.LRX n + LRX.LOS_STATUS
    if d.rxState n ≠ 0 ∧ d.bit a 0 = true ∧ 2 * d.fld (Pg.LRX n + LRX.LOS_CTRL) 8 8 < amp.toNat then
      let t := ((((d.setB a 0 false).setF a 16 12 amp.toNat).raise (Pg.LRX n) 10).laneEvent n 6).ltFault n 1 false
      if t.rxState n = 4 ∧ (t.rxl n).holdOver = true then t.toWarm n else t
    else d)

/-- CDR_LOCK_CHANGE (R84, R88). -/
def execCdrLockChange (n : Lane) (locked : Bool) (s : State) : Out :=
  s.run (fun d =>
    let a := Pg.LRX n + LRX.CDR_STATUS
    if d.rxState n ≠ 0 ∧ d.bit a 0 ≠ locked then
      let t := (d.setB a 0 locked).laneEvent n 7
      if locked then t else t.holdTrigger n false
    else d)

/-- EYE_START (R105). -/
def execEyeStart (m : Master) (n : Lane) (s : State) : Out :=
  s.run (fun d => d.access m (Pg.LRX n + LRX.EYE_CMD) (fun t => t.rxEyeStart m n))

/-- EYE_ABORT (R106). -/
def execEyeAbort (m : Master) (n : Lane) (s : State) : Out :=
  s.run (fun d => d.access m (Pg.LRX n + LRX.EYE_CMD) (fun t => t.eyeAbort (Pg.LRX n + LRX.EYE_CTRL)))

/-- EYE_POINT_DONE: the errors counted at a point (R107). -/
def execEyePointDone (n : Lane) (errors : Nat) (s : State) : Out :=
  s.run (fun d =>
    let a := Pg.LRX n + LRX.EYE_CTRL
    let t := d.eyePoint (Pg.LRX n) a (Pg.LRX n + LRX.EYE_DATA) 2 16 15 (eyeCount errors)
    if d.eyeRuns a && !t.eyeRuns a then t.laneEvent n 12 else t)

end Sys2Proof.Machine
end

