-- ==== Sys2Proof/Machine/Lantern.lean ====
section
/-! DEFINITION. The Lantern channel: reception, checks, keys, messages and transmission (10). The WAKE row stands with
Vigil. -/

namespace Sys2Proof.Machine

namespace Dev

/-! ### Keys (R305, R306) -/

def keySlot (s : Dev) (n : Nat) (k : Bool) : KeySlot := Sparse.get (fun _ => KeySlot.init) (s.ltn n).slots (if k then 1 else 0)
def setKeySlot (s : Dev) (n : Nat) (k : Bool) (v : KeySlot) : Dev :=
  s.setLtn n { s.ltn n with slots := Sparse.put (fun _ => KeySlot.init) (s.ltn n).slots (if k then 1 else 0) v }

/-- The slot `AUTH_CTRL.TX_SLOT` names. -/
def txSlot (s : Dev) (n : Nat) : Bool := s.bit (Pg.LANTERN n + LANTERN.AUTH_CTRL) 1

/-- A slot can sign. -/
def canSign (k : KeySlot) : Bool := k.valid && !k.exhausted && decide (k.ctr < 2 ^ 40)

/-- Header fields. -/
def hdrKey (f : List Byte) : Bool := (f.getD 0 0).getLsbD 3
def hdrRole (f : List Byte) : Bool := (f.getD 0 0).getLsbD 2
def hdrType (f : List Byte) : Nat := (f.getD 1 0).toNat
def hdrCounter (f : List Byte) : Nat := natBE (slice f 3 5)

/-- Frames in checks keep the contents of a slot that a command is about to change (R305). -/
def keepSlot (s : Dev) (n : Nat) (slot : Bool) : Dev :=
  let k := s.keySlot n slot
  let keep (x : RxFrame) := if hdrKey x.bytes = slot ∧ x.slot = none then { x with slot := some k } else x
  s.setLtn n { s.ltn n with checks := (s.ltn n).checks.map keep }

/-- `KEY_CMD.INSTALL`. -/
def keyInstall (s : Dev) (n : Nat) (slot : Bool) : Dev :=
  let s := s.keepSlot n slot
  let b := Pg.LANTERN n
  let key := (s.rdWords (b + LANTERN.KEY_STAGE) 8).flatMap wordBytesBE
  let tx := s.wide (b + LANTERN.CTR_INIT_TX)
  let t := s.setKeySlot n slot
    { key := key, valid := true, exhausted := false, ctr := if tx = 0 then 1 else tx, floor := s.wide (b + LANTERN.CTR_INIT_RX) }
  t.wrWords (b + LANTERN.KEY_STAGE) (List.replicate 8 0)

/-- `KEY_CMD.ERASE`. -/
def keyErase (s : Dev) (n : Nat) (slot : Bool) : Dev := (s.keepSlot n slot).setKeySlot n slot KeySlot.init

/-! ### Checks of a received frame (R303, R307) -/

/-- The slot a frame in checks is checked with: the one its header names, as it was when the checks began (R303, R305). -/
def checkSlot (s : Dev) (n : Nat) (x : RxFrame) : KeySlot := x.slot.getD (s.keySlot n (hdrKey x.bytes))

/-- Header, payload and tag, without the CRC; and the payload. -/
def frameBody (f : List Byte) : List Byte := f.take (f.length - 4)
def framePayload (f : List Byte) : List Byte := (f.drop 8).take (f.getD 2 0).toNat

/-- Check 1. -/
def crcOk (f : List Byte) : Bool := decide (natLE (f.drop (f.length - 4)) = crc32c (frameBody f))

/-- Check 2. -/
def authOk (s : Dev) (n : Nat) (k : KeySlot) (f : List Byte) : Bool :=
  k.valid && hdrRole f != s.bit (Pg.LANTERN n + LANTERN.AUTH_CTRL) 0
    && decide ((frameBody f).drop (8 + (f.getD 2 0).toNat) = (hmacSha256 k.key (f.take (8 + (f.getD 2 0).toNat))).take 16)

/-- Check 3. -/
def replayOk (k : KeySlot) (f : List Byte) : Bool := decide (hdrCounter f ≠ 0) && decide (k.floor < hdrCounter f)

/-- Tokens in use now, in 10^-9 frame. -/
def tokensUsed (s : Dev) (n : Nat) : Nat :=
  let l := s.ltn n
  l.used - s.fld (Pg.LANTERN n + LANTERN.RATE_LIM) 0 8 * (s.mono - l.tokenAt)

/-- The tokens used are brought up to now, before the refill rate changes. -/
def rateSettle (s : Dev) (n : Nat) : Dev := s.setLtn n { s.ltn n with used := s.tokensUsed n, tokenAt := s.mono }

/-- Check 4. -/
def rateOk (s : Dev) (n : Nat) : Bool :=
  let a := Pg.LANTERN n + LANTERN.RATE_LIM
  decide (s.fld a 0 8 ≠ 0) && decide (s.tokensUsed n + 1000000000 ≤ s.fld a 8 8 * 1000000000)

/-- The first check a frame fails, 0 when it passes all. A WAKE frame under Vigil wake is not rate-limited (R307). -/
def checkFrame (s : Dev) (n : Nat) (x : RxFrame) : Nat :=
  let f := x.bytes
  let k := s.checkSlot n x
  if !crcOk f then 1 else if !s.authOk n k f then 2 else if !replayOk k f then 3
  else if s.bit (Pg.LANTERN n + LANTERN.LT_STATUS) 10 && hdrType f == 6 then 0
  else if !s.rateOk n then 4 else 0

/-- The floor of a frame's slot rises: of the slot itself, or of the contents that it and other frames in checks still
have of it. -/
def raiseFloor (s : Dev) (n : Nat) (x : RxFrame) : Dev :=
  match x.slot with
  | none => s.setKeySlot n (hdrKey x.bytes) { s.keySlot n (hdrKey x.bytes) with floor := hdrCounter x.bytes }
  | some k =>
    let lift (y : RxFrame) :=
      if hdrKey y.bytes = hdrKey x.bytes ∧ y.slot = some k then { y with slot := some { k with floor := hdrCounter x.bytes } } else y
    s.setLtn n { s.ltn n with checks := (s.ltn n).checks.map lift }

/-- What checks change: the floor rises after checks 2 and 3, check 4 takes a token. -/
def checkEffect (s : Dev) (n : Nat) (x : RxFrame) (c : Nat) : Dev :=
  let f := x.bytes
  if c = 0 ∨ c = 4 then
    let t := s.raiseFloor n x
    if c = 0 ∧ ¬(s.bit (Pg.LANTERN n + LANTERN.LT_STATUS) 10 = true ∧ hdrType f = 6) then
      t.setLtn n { t.ltn n with used := s.tokensUsed n + 1000000000, tokenAt := s.mono }
    else t
  else s

/-- A receive record (Frame ring records). -/
def rxRecord (s : Dev) (n : Nat) (f : List Byte) (flags : Nat) : List Byte :=
  let body := frameBody f
  bytesLE 4 (2 ^ 28 + n % 16 * 2 ^ 24 + flags * 2 ^ 16 + body.length) ++ bytesLE 4 (s.rd (Pg.LANTERN n + LANTERN.RSSI)).toNat
    ++ bytesLE 8 (s.ltn n).syncAt.toNat ++ slice body 0 264 ++ List.replicate 8 0

/-- The head of the frames in checks is taken. -/
def takeCheck (s : Dev) (n : Nat) : Dev := s.setLtn n { s.ltn n with checks := (s.ltn n).checks.drop 1 }

/-- A frame in checks that passes all four, of a type the row handles: `RX_OK`, then the action of R308, or in
host-assisted mode its record (R309). Under Vigil wake only WAKE frames are accepted, and others count in `RX_UNKNOWN`
(R315). -/
def acceptFrame (s : Dev) (n : Nat) (type : Nat → Bool) (act : Dev → List Byte → Dev) : Dev :=
  match (s.ltn n).checks with
  | [] => s
  | x :: _ =>
    if type (hdrType x.bytes) && s.checkFrame n x == 0 then
      let u := (s.takeCheck n).checkEffect n x 0
      let t := u.count (Pg.LANTERN n + LANTERN.RX_OK)
      if s.bit (Pg.LANTERN n + LANTERN.LT_STATUS) 10 then
        if hdrType x.bytes = 6 then act t x.bytes else u.count (Pg.LANTERN n + LANTERN.RX_UNKNOWN)
      else if x.assisted then t.ltPlace n (t.rxRecord n x.bytes 0x7)
      else act t x.bytes
    else s

/-- A frame in checks that fails one: counted; in host-assisted mode one that passed check 1 is placed on the ring with
its results (R303, R309). -/
def rejectFrame (s : Dev) (n : Nat) : Dev :=
  match (s.ltn n).checks with
  | [] => s
  | x :: _ =>
    let c := s.checkFrame n x
    let b := Pg.LANTERN n
    if c = 0 then s
    else
      let t := (s.takeCheck n).checkEffect n x c
      let t := if c = 1 then t.count (b + LANTERN.RX_CRC) else if c = 2 then (t.count (b + LANTERN.RX_AUTH)).raise b 12
        else if c = 3 then t.count (b + LANTERN.RX_REPLAY) else t.count (b + LANTERN.RX_RATE)
      if x.assisted && c != 1 && !s.bit (b + LANTERN.LT_STATUS) 10 then
        t.ltPlace n (t.rxRecord n x.bytes (if c = 2 then 0 else if c = 3 then 1 else 3))
      else t

/-- A payload of at least k bytes: bytes a frame did not carry are values no rule gives. -/
def payloadOf (s : Dev) (f : List Byte) (k : Nat) : List Byte :=
  let p := framePayload f
  p ++ (List.range (k - p.length)).map (fun i => BitVec.ofNat 8 (Config.freeWord (s.fresh + i)).toNat)

/-- The index of free values after such a payload. -/
def payloadFresh (s : Dev) (f : List Byte) (k : Nat) : Dev := { s with fresh := s.fresh + (k - (framePayload f).length) }

/-! ### Actions of R308 -/

def actIdentity (s : Dev) (n : Nat) (f : List Byte) : Dev :=
  let b := Pg.LANTERN n
  let p := s.payloadOf f 32
  let ws := (List.range 8).map (wordBE p)
  let t := (s.payloadFresh f 32).wrWords (b + LANTERN.FAR_ID) ws
  let t := t.setB (b + LANTERN.FAR_STATE) 31 true
  if s.rdWords (b + LANTERN.FAR_ID) 8 = ws then t else t.raise b 9

def actTuneReq (s : Dev) (n : Nat) (f : List Byte) : Dev :=
  (s.payloadFresh f 12).tune n (s.payloadOf f 12) (s.rxRecord n f 0xF)

def actTuneReply (s : Dev) (n : Nat) (f : List Byte) : Dev :=
  let p := (s.payloadOf f 10).take 10 ++ [0, 0]
  ((s.payloadFresh f 10).wrWords (Pg.LANTERN n + LANTERN.LAST_REPLY) ((List.range 3).map (wordBE p))).ltPlace n (s.rxRecord n f 0xF)

def actWarm (s : Dev) (n : Nat) (f : List Byte) : Dev :=
  let b := Pg.LANTERN n
  let p := s.payloadOf f 4
  let x (i : Nat) := (p.getD i 0).toNat
  let t := (s.payloadFresh f 4).setF (b + LANTERN.FAR_STATE) 24 4 (x 0 / 16)
  let t := (t.setF (b + LANTERN.FAR_STATE) 16 2 (x 1)).setF (b + LANTERN.FAR_STATE) 0 16 (natBE (slice p 2 2))
  (t.count (b + LANTERN.FAR_RESTARTS)).raise b 11

def actFault (s : Dev) (n : Nat) (f : List Byte) : Dev :=
  let b := Pg.LANTERN n
  let p := s.payloadOf f 8
  let x (i : Nat) := (p.getD i 0).toNat
  ((s.payloadFresh f 8).wr (b + LANTERN.FAR_FAULT) (BitVec.ofNat 32 (x 7 * 2 ^ 24 + x 1 * 2 ^ 16 + x 2 * 2 ^ 8 + x 0 / 16 * 16))).raise b 10

/-- Host-defined frames go to the ring; reserved types count (R308). -/
def actOther (s : Dev) (n : Nat) (f : List Byte) : Dev :=
  if 0x40 ≤ hdrType f ∧ hdrType f ≤ 0x7F then s.ltPlace n (s.rxRecord n f 0xF)
  else s.count (Pg.LANTERN n + LANTERN.RX_UNKNOWN)

/-! ### Receiver states (R299–R302) -/

/-- The receiver moves from one of some states to another. -/
def ltMove (s : Dev) (n : Nat) (src : List Nat) (to_ : Nat) (k : Dev → Dev) : Dev :=
  if src.contains (s.ltState n) then k (s.setF (Pg.LANTERN n + LANTERN.LT_STATUS) 0 3 to_) else s

/-- `RSSI` as latched, and a level. -/
def rssi (s : Dev) (n : Nat) : Int := signedOf 16 (s.fld (Pg.LANTERN n + LANTERN.RSSI) 0 16)
def margin (s : Dev) (n : Nat) : Nat := s.fld (Pg.LANTERN n + LANTERN.CAPTURE_CFG) 0 8
def collStep (s : Dev) (n : Nat) : Nat := s.fld (Pg.LANTERN n + LANTERN.CAPTURE_CFG) 8 8

/-- `ENERGY_THRESH`, and whether k levels of one symbol each lie at or above a level, or below it. -/
def energyThresh (s : Dev) (n : Nat) : Int := -(s.fld (Pg.LANTERN n + LANTERN.DETECT_CFG) 0 8 : Int)
def allAbove (levels : List (BitVec 16)) (k : Nat) (x : Int) : Bool := decide (k ≤ levels.length) && (levels.drop (levels.length - k)).all (fun l => decide (x ≤ l.toInt))
def allBelow (levels : List (BitVec 16)) (k : Nat) (x : Int) : Bool := decide (k ≤ levels.length) && (levels.drop (levels.length - k)).all (fun l => decide (l.toInt < x))

/-- A trigger acts when none of those that arise in the same symbol comes before it (R302). -/
def ltRank (t : LtTrigger) : Nat :=
  match t with
  | .off => 0
  | .capture => 1
  | .clip => 2
  | .lost => 3
  | .header => 4
  | .frameEnd => 5

def ltFirst (t : LtTrigger) (along : List LtTrigger) : Bool := along.all (fun u => decide (ltRank t ≤ ltRank u))

/-- `SYNC_MAXERR`, and a run of decisions whose last 32 are the sync word (R300). -/
def syncFound (s : Dev) (n : Nat) (decisions : List Bool) : Bool :=
  decide (32 ≤ decisions.length) && decide (syncErrors decisions ≤ s.fld (Pg.LANTERN n + LANTERN.DETECT_CFG) 8 8)

/-! ### Transmission (R311–R313) -/

/-- A frame may start, apart from there being one (R311). -/
def txReady (s : Dev) (n : Nat) : Bool :=
  let depth := s.fld (Pg.LTX n + LTX.PILOT_CTRL) 0 6
  s.bit (Pg.LANTERN n + LANTERN.LT_CTRL) 1 && s.islandOn (16 + n) && s.txState n == 2 && decide (depth ≠ 0)
    && s.fld (Pg.LTX n + LTX.PILOT_STATUS) 0 6 == depth && canSign (s.keySlot n (s.txSlot n)) && (s.ltn n).onAir.isNone

/-- Priority of a waiting frame, smaller first (R312). -/
def ltPriority (f : LtFrame) : Nat :=
  if f.ring then 6 else if f.type = 6 then 1 else if f.type = 3 then 2 else if f.type = 4 then 3 else if f.type = 5 then 4 else 5

/-- The waiting frame to be sent next: one that has waited more than 1 s, else the highest priority, oldest first. -/
def ltNext (s : Dev) (n : Nat) : Option LtFrame :=
  let w := (s.ltn n).waiting
  match w.find? (fun f => decide (1000000000 < s.mono - f.since)) with
  | some f => some f
  | none => ((List.range 7).map (fun p => w.find? (fun f => ltPriority f == p))).findSome? id

/-- The bytes of a frame on the air: signed under the transmit slot, or as given, with its CRC (R294, R296, R306). -/
def ltSign (s : Dev) (n : Nat) (f : LtFrame) : List Byte :=
  let body := match f.raw with
    | some b => b
    | none =>
      let k := s.keySlot n (s.txSlot n)
      let b0 := 0x10 + (if s.txSlot n then 8 else 0) + (if s.bit (Pg.LANTERN n + LANTERN.AUTH_CTRL) 0 then 4 else 0)
      let head := [BitVec.ofNat 8 b0, BitVec.ofNat 8 f.type, BitVec.ofNat 8 f.payload.length] ++ bytesBE 5 k.ctr ++ f.payload
      head ++ (hmacSha256 k.key head).take 16
  body ++ bytesLE 4 (crc32c body)

/-- A frame starts: its counter, tag and CRC are fixed and the slot's counter steps. -/
def ltStart (s : Dev) (n : Nat) : Dev :=
  match s.ltNext n with
  | none => s
  | some f =>
    if s.txReady n then
      let bytes := s.ltSign n f
      let t := s.setLtn n { s.ltn n with waiting := (s.ltn n).waiting.erase f, onAir := some bytes, airAt := s.symNow n / 64 }
      let t := if f.ring then t.ringTxDone n 0 else t
      if f.raw.isNone then
        let k := t.keySlot n (t.txSlot n)
        t.setKeySlot n (t.txSlot n) { k with ctr := k.ctr + 1 }
      else t
    else s

/-- A slot whose last counter has been sent is exhausted (R306). -/
def keyExhaust (s : Dev) (n : Nat) (slot : Bool) : Dev :=
  let k := s.keySlot n slot
  if k.valid && !k.exhausted && decide (2 ^ 40 ≤ k.ctr) then
    (s.setKeySlot n slot { k with exhausted := true }).raise (Pg.LANTERN n) 13
  else s

/-- A frame has been sent, as the coded symbols of R293 to R295. -/
def ltEnd (s : Dev) (n : Nat) : Dev :=
  match (s.ltn n).onAir with
  | none => s
  | some b =>
    let t := ((s.setLtn n { s.ltn n with onAir := none }).emit (.lantern n b (lanternBits b))).count (Pg.LANTERN n + LANTERN.TX_FRAMES)
    (t.keyExhaust n false).keyExhaust n true

/-- A transmit record is refused (R313). -/
def txRecordBad (s : Dev) (n : Nat) (r : List Byte) : Bool :=
  let w := natLE (slice r 0 4)
  let f := slice r 16 264
  let type := (f.getD 1 0).toNat
  let len := (f.getD 2 0).toNat
  decide (w % 2 ^ 16 ≠ 24 + len) || decide (240 < len) || decide ((f.getD 0 0).toNat / 16 ≠ 1)
    || decide (w / 2 ^ 24 % 16 ≠ n)
    || (!s.assisted (Pg.LANTERN n) && !(type == 2 || type == 3 || (decide (0x40 ≤ type) && decide (type ≤ 0x7F))))

/-- The frame of a transmit record (R313). -/
def txRecordFrame (s : Dev) (n : Nat) (r : List Byte) : LtFrame :=
  let w := natLE (slice r 0 4)
  let f := slice r 16 264
  let len := (f.getD 2 0).toNat
  let sign := decide (w / 2 ^ 16 % 2 = 1) || !s.assisted (Pg.LANTERN n)
  { type := (f.getD 1 0).toNat, payload := slice f 8 len, since := s.mono, ring := true,
    raw := if sign then none else some (f.take (24 + len)) }

/-- The record of a lane's transmit slot is read when its frame could start: queued to start, or discarded (R312, R313,
R424). -/
def txRecord (s : Dev) (n : Nat) (r : List Byte) : Dev :=
  if (Sparse.get (fun _ => none) (s.ring 4).slots n).isSome && s.txReady n && (s.ltn n).waiting.isEmpty && s.ringRuns 4 then
    if s.txRecordBad n r then (s.count (Pg.LANTERN n + LANTERN.TX_DROPPED)).ringTxDone n 8
    else s.setLtn n { s.ltn n with waiting := (s.ltn n).waiting ++ [s.txRecordFrame n r] }
  else s

end Dev

/-- TUNE_REQ: the request of a received frame (R287, R288, R308). -/
def execTuneReq (n : Lane) (s : State) : Out := s.run (fun d => d.acceptFrame n (· == 2) (fun t f => t.actTuneReq n f))

/-- TUNE_REPLY (R308). -/
def execTuneReply (n : Lane) (s : State) : Out := s.run (fun d => d.acceptFrame n (· == 3) (fun t f => t.actTuneReply n f))

/-- IDENTITY (R308). -/
def execIdentity (n : Lane) (s : State) : Out := s.run (fun d => d.acceptFrame n (· == 1) (fun t f => t.actIdentity n f))

/-- WARM (R308). -/
def execWarm (n : Lane) (s : State) : Out := s.run (fun d => d.acceptFrame n (· == 4) (fun t f => t.actWarm n f))

/-- FAULT (R308). -/
def execFault (n : Lane) (s : State) : Out := s.run (fun d => d.acceptFrame n (· == 5) (fun t f => t.actFault n f))

/-- HOST_DEFINED_FRAME: host-defined and reserved types (R308). -/
def execHostDefinedFrame (n : Lane) (s : State) : Out :=
  s.run (fun d => d.acceptFrame n (fun x => x == 0 || decide (6 < x)) (fun t f => t.actOther n f))

/-- LANTERN_FRAME_REJECT (R303). -/
def execLanternFrameReject (n : Lane) (s : State) : Out := s.run (fun d => d.rejectFrame n)

/-- LANTERN_ENERGY_DETECT: the energy of the last symbols, eight at or above `ENERGY_THRESH` (R299). -/
def execLanternEnergyDetect (n : Lane) (levels : List (BitVec 16)) (s : State) : Out :=
  s.run (fun d => if Dev.allAbove levels 8 (d.energyThresh n) then d.ltMove n [1] 2 id else d)

/-- LANTERN_ACQUIRE_ABANDON: sixteen symbols below `ENERGY_THRESH`, or 256 symbols in ACQUIRE (R299). -/
def execLanternAcquireAbandon (n : Lane) (symbols : Nat) (levels : List (BitVec 16)) (s : State) : Out :=
  s.run (fun d => if 256 ≤ symbols ∨ Dev.allBelow levels 16 (d.energyThresh n) = true then d.ltMove n [2] 1 id else d)

/-- LANTERN_PREAMBLE_DETECT: the decisions since entry to ACQUIRE; the input level is latched (R299). -/
def execLanternPreambleDetect (n : Lane) (level : BitVec 16) (decisions : List Bool) (s : State) : Out :=
  s.run (fun d =>
    let b := Pg.LANTERN n
    if d.fld (b + LANTERN.AGC_CFG) 0 5 ≤ decisions.length
        ∧ d.fld (b + LANTERN.DETECT_CFG) 16 8 ≤ ((decisions.drop (decisions.length - 64)).filter id).length then
      d.ltMove n [2] 3 (fun t => (t.count (b + LANTERN.RX_DETECT)).setF (b + LANTERN.RSSI) 16 16 level.toNat)
    else d)

/-- LANTERN_SYNC_FOUND: the decisions since entry to SYNC_SEARCH, at most 128; the level of the sync word and the time are
latched (R300). -/
def execLanternSyncFound (n : Lane) (level : BitVec 16) (decisions : List Bool) (s : State) : Out :=
  s.run (fun d =>
    if decisions.length ≤ 128 ∧ d.syncFound n decisions = true then
      d.ltMove n [3] 4 (fun t =>
        let u := t.setF (Pg.LANTERN n + LANTERN.RSSI) 0 16 level.toNat
        u.setLtn n { u.ltn n with syncAt := BitVec.setWidth 64 u.timeBase, collided := false })
    else d)

/-- LANTERN_SYNC_WINDOW_EXPIRE: 128 decisions without the sync word (R300). -/
def execLanternSyncWindowExpire (n : Lane) (decisions : List Bool) (s : State) : Out :=
  s.run (fun d =>
    if 128 ≤ decisions.length ∧ (List.range 129).all (fun k => !d.syncFound n (decisions.take k)) = true then
      d.ltMove n [3] 1 (fun t => t.count (Pg.LANTERN n + LANTERN.RX_FALSE))
    else d)

/-- LANTERN_CLIP: more than one sixteenth of a symbol's samples at full scale (R300, R302). -/
def execLanternClip (n : Lane) (full samples : Nat) (along : List LtTrigger) (s : State) : Out :=
  s.run (fun d =>
    if samples < 16 * full ∧ Dev.ltFirst .clip along = true then
      d.ltMove n [3, 4] 1 (fun t => (t.count (Pg.LANTERN n + LANTERN.RX_CLIP)).raise (Pg.LANTERN n) 18)
    else d)

/-- LANTERN_CAPTURE: the level, averaged over four symbols, above `RSSI` + `MARGIN` at the last four symbols. A frame that
has counted a collision is not captured (R301, R302). -/
def execLanternCapture (n : Lane) (levels : List (BitVec 16)) (along : List LtTrigger) (s : State) : Out :=
  s.run (fun d =>
    if Dev.allAbove levels 4 (d.rssi n + d.margin n + 1) = true ∧ (d.ltn n).collided = false ∧ Dev.ltFirst .capture along = true then
      d.ltMove n [4] 2 (fun t => (t.count (Pg.LANTERN n + LANTERN.RX_PREEMPTED)).raise (Pg.LANTERN n) 14)
    else d)

/-- LANTERN_COLLISION: that level above `RSSI` + `COLL_STEP` but not `MARGIN` at the last eight symbols, once a frame and
not in a symbol in which the frame ends (R301, R302). -/
def execLanternCollision (n : Lane) (levels : List (BitVec 16)) (along : List LtTrigger) (s : State) : Out :=
  s.run (fun d =>
    if d.ltState n = 4 ∧ (d.ltn n).collided = false ∧ Dev.allAbove levels 8 (d.rssi n + d.collStep n + 1) = true
        ∧ Dev.allBelow levels 8 (d.rssi n + d.margin n + 1) = true ∧ along = [] then
      ((d.setLtn n { d.ltn n with collided := true }).count (Pg.LANTERN n + LANTERN.RX_COLLISION)).raise (Pg.LANTERN n) 15
    else d)

/-- LANTERN_SIGNAL_LOST: sixteen symbols below `ENERGY_THRESH` (R299, R302). -/
def execLanternSignalLost (n : Lane) (levels : List (BitVec 16)) (along : List LtTrigger) (s : State) : Out :=
  s.run (fun d =>
    if Dev.allBelow levels 16 (d.energyThresh n) = true ∧ Dev.ltFirst .lost along = true then
      d.ltMove n [4] 1 (fun t => t.count (Pg.LANTERN n + LANTERN.RX_LOST_SIG))
    else d)

/-- LANTERN_HEADER_ERROR: the coded symbols so far, when they decide a `VERSION` that is not 1 or a `LENGTH` above 240
(R299, R303). -/
def execLanternHeaderError (n : Lane) (soft : List (BitVec 4)) (along : List LtTrigger) (s : State) : Out :=
  s.run (fun d =>
    let f := bytesOfBits (viterbiSoFar soft)
    if 3 ≤ f.length ∧ headerGood f = false ∧ Dev.ltFirst .header along = true then
      d.ltMove n [4] 1 (fun t => t.count (Pg.LANTERN n + LANTERN.RX_HDR))
    else d)

/-- LANTERN_FRAME_END: the frame of all coded symbols, header to CRC, enters its checks in the present mode (R294, R299,
R303, R309). -/
def execLanternFrameEnd (n : Lane) (soft : List (BitVec 4)) (along : List LtTrigger) (s : State) : Out :=
  s.run (fun d =>
    let f := softFrame soft
    if headerGood f = true ∧ f.length = 28 + (f.getD 2 0).toNat ∧ Dev.ltFirst .frameEnd along = true then
      d.ltMove n [4] 1 (fun t => t.setLtn n { t.ltn n with checks := (t.ltn n).checks ++ [⟨f, t.assisted (Pg.LANTERN n), none⟩] })
    else d)

/-- LANTERN_TX_FRAME_START (R306, R311, R312). -/
def execLanternTxFrameStart (n : Lane) (s : State) : Out := s.run (fun d => d.ltStart n)

/-- LANTERN_TX_FRAME_END (R306, R311). -/
def execLanternTxFrameEnd (n : Lane) (s : State) : Out := s.run (fun d => d.ltEnd n)

/-- IDENTITY_PERIOD: with `IDENT_PERIOD` not 0, in hardware mode (R310). -/
def execIdentityPeriod (n : Lane) (s : State) : Out :=
  s.run (fun d => if d.fld (Pg.LANTERN n + LANTERN.IDENT_PERIOD) 0 16 ≠ 0 then d.ltIdentity n else d)

/-- SEND_IDENT (R310). -/
def execSendIdent (m : Master) (n : Lane) (s : State) : Out :=
  s.run (fun d => d.access m (Pg.LANTERN n + LANTERN.TX_CMD) (fun t => t.ltIdentity n))

/-- SEND_WAKE (R310). -/
def execSendWake (m : Master) (n : Lane) (s : State) : Out :=
  s.run (fun d => d.access m (Pg.LANTERN n + LANTERN.TX_CMD) (fun t => t.ltQueue n 6 []))

/-- TX_FLUSH (R312). -/
def execTxFlush (m : Master) (n : Lane) (s : State) : Out :=
  s.run (fun d => d.access m (Pg.LANTERN n + LANTERN.TX_CMD) (fun t => t.ltFlush n))

/-- KEY_INSTALL, under the page's lock (R305). -/
def execKeyInstall (m : Master) (n : Lane) (slot : Bool) (s : State) : Out :=
  s.run (fun d => d.lockedAccess m (Pg.LANTERN n + LANTERN.KEY_CMD) (fun t => t.keyInstall n slot))

/-- KEY_ERASE, under the page's lock (R305). -/
def execKeyErase (m : Master) (n : Lane) (slot : Bool) (s : State) : Out :=
  s.run (fun d => d.lockedAccess m (Pg.LANTERN n + LANTERN.KEY_CMD) (fun t => t.keyErase n slot))

/-- LANTERN_TX_RECORD: the record as read from host memory (R312, R313). -/
def execLanternTxRecord (n : Lane) (record : List Byte) (s : State) : Out := s.run (fun d => d.txRecord n record)

end Sys2Proof.Machine
end

