-- ==== Sys2Proof/Machine/Calibration.lean ====
section
/-! DEFINITION. Calibration: records, runs, restoring, expert edits and the steps of targets in service (13). -/

namespace Sys2Proof.Machine

/-- Words of a record. -/
def recLen (r : Nat) : Nat := if r < 16 then 67 else 24

/-- The bits of a word that its fields hold. -/
def calMask (r w : Nat) : Word := (calFields r w).foldl (fun a f => a ||| maskOf f.1 f.2) 0

/-- Words that a part of a record measures. -/
def calPartHas (r : Nat) (partB : Bool) (w : Nat) : Bool :=
  if r < 16 then (if partB then w == 65 else decide (1 ≤ w) && decide (w ≤ 64)) else !partB && decide (1 ≤ w) && decide (w ≤ 22)

/-- A word one step nearer another, field by field (R360). -/
def calStepWord (r w : Nat) (now goal : Word) : Word :=
  (calFields r w).foldl (fun a f =>
    let x := signedOf f.2 (fieldOf now f.1 f.2)
    let y := signedOf f.2 (fieldOf goal f.1 f.2)
    withField a f.1 f.2 (twosOf f.2 (if x < y then x + 1 else if y < x then x - 1 else x))) now

/-- The CRC word of a record (13, Saving and restoring). -/
def calCrc (words : List Word) : Word := BitVec.ofNat 32 (crc32c (words.flatMap (fun w => bytesLE 4 w.toNat)))

namespace Dev

abbrev calSel (s : Dev) : Nat := s.fld (Pg.CAL + CAL.CAL_SEL) 0 5
def calRunning (s : Dev) : Bool := s.bit (Pg.CAL + CAL.CAL_STATUS) 31
def calSlice (r : Nat) : Nat := if r < 16 then r / 4 else r - 16

/-- The zone temperature of a slice, 1/16 degree, as a 16-bit field. -/
def sliceTemp (s : Dev) (sl : Nat) : Nat := twosOf 16 (s.zoneTag (4 * sl))

def setCalWord (s : Dev) (r w : Nat) (v : Word) : Dev :=
  { s with cal := { s.cal with master := Sparse.put (fun _ => 0) s.cal.master (128 * r + w) v } }

/-- The words of a record with its CRC. -/
def calRecord (s : Dev) (r : Nat) : List Word :=
  let body := (List.range (recLen r - 1)).map (s.calWord r)
  body ++ [calCrc body]

/-! ### Targets (R360, R77) -/

/-- How a target takes a change: at once, in steps, or not while its lane is in WARM_RESTART. -/
inductive CalService where
  | out | steps | paused
  deriving DecidableEq, Repr

def calService (s : Dev) (r w : Nat) : CalService :=
  if r < 16 then
    if w ≤ 64 then (if s.rxState r = 3 ∨ s.rxState r = 4 then .steps else if s.rxState r = 5 then .paused else .out)
    else if s.txState r = 2 then .steps else .out
  else if w ≤ 10 ∧ s.outState (r - 16) (w - 1) = 2 then .steps else .out

/-- A word reaches its target if that is out of service. -/
def calReach (s : Dev) (r w : Nat) : Dev :=
  if s.calService r w = .out then s.setCalApplied r w (s.calWord r w) else s

/-- The master copy of words has changed: they reach what is out of service. -/
def calChanged (s : Dev) (r : Nat) (ws : List Nat) : Dev :=
  let t := { s with cal := { s.cal with frozen := s.cal.frozen.filter (· != r) } }
  (ws.foldl (fun t w => t.calReach r w) t).calSettling

/-- One step of one word toward the master copy; a target that has left service takes the rest at once. -/
def calStepOne (s : Dev) (r w : Nat) : Dev :=
  match s.calService r w with
  | .out => s.setCalApplied r w (s.calWord r w)
  | .steps => s.setCalApplied r w (calStepWord r w (s.calApplied r w) (s.calWord r w))
  | .paused => s

/-- One step of all targets. A page in the safe state stops it (R370). -/
def calStep (s : Dev) : Dev :=
  if s.inSafe 0x0E0 then s
  else
    ((List.range 20).foldl (fun t r =>
      if t.calDiffers r then
        ((List.range 66).filter (fun w => !(calFields r w).isEmpty && t.calApplied r w != t.calWord r w)).foldl
          (fun t w => t.calStepOne r w) t
      else t) s).calSettling

/-! ### Headers and what a valid part lets start -/

/-- A header after a measurement. -/
def calHeader (s : Dev) (r : Nat) (partB : Bool) : Dev :=
  let v := withBit (s.calWord r 0) (if partB then 30 else 31) true
  let v := withField (withField (withField v 28 2 1) 16 8 r) 0 16 (s.sliceTemp (calSlice r))
  s.setCalWord r 0 v

/-- A transmitter or output that waited for a valid part (R282, R323, R362). -/
def calStarts (s : Dev) (r : Nat) : Dev :=
  if r < 16 then (if s.calValidB r then s.txTryUp r else s)
  else if s.calValidA r then (List.range 10).foldl (fun t k => t.outTryUp (r - 16) k) s else s

/-- The outcome of a part. -/
def setOutcome (s : Dev) (r : Nat) (partB : Bool) (o : Nat) : Dev :=
  let old := Sparse.get (fun _ => (0, 0)) s.cal.outcome r
  { s with cal := { s.cal with outcome := Sparse.put (fun _ => (0, 0)) s.cal.outcome r (if partB then (old.1, o) else (o, old.2)) } }

/-! ### Runs (R361–R365, R371) -/

/-- The parts of a record. -/
def calParts (r : Nat) : List Nat := if r < 16 then [2 * r, 2 * r + 1] else [2 * r]

/-- The part may be measured in the present state of its lane or transmitter (R364). -/
def calMayMeasure (s : Dev) (r : Nat) (partB : Bool) : Bool :=
  if 16 ≤ r then true
  else if partB then s.txState r == 1 || s.txState r == 2
  else s.rxState r == 1 || s.rxState r == 3 || s.rxState r == 4

/-- The next part of a run is in progress, its record shown by `CAL_STATUS`. -/
def calShow (s : Dev) : Dev :=
  let p := s.cal.run.headD 0
  let t := { s with cal := { s.cal with unfit := !s.calMayMeasure (p / 2) (p % 2 == 1) } }
  t.setF (Pg.CAL + CAL.CAL_STATUS) 0 5 (p / 2)

/-- A run of records starts, the flags of the last cleared. -/
def calBegin (s : Dev) (records : List Nat) : Dev :=
  let t := s.wr (Pg.CAL + CAL.CAL_STATUS) 0x80000000
  let slices := (List.range 4).filter (fun sl => records.any (fun r => calSlice r == sl))
  ({ t with cal := { t.cal with run := records.flatMap calParts, slices := slices, refDone := false, abort := false,
                                edited := [] } }).calShow

/-- The records of a slice. -/
def sliceRecords (sl : Nat) : List Nat := [4 * sl, 4 * sl + 1, 4 * sl + 2, 4 * sl + 3, 16 + sl]

/-- A run ends; a further one that is due follows (R371). -/
def calFinish (s : Dev) (temps : Bool) : Dev :=
  let a := Pg.CAL + CAL.CAL_STATUS
  let slices := s.cal.slices
  let t := ((s.setB a 31 false).setB a 29 true).setF a 0 5 0
  let t := { t with cal := { t.cal with run := [], slices := [], refDone := false, abort := false, edited := [] } }
  let t := if temps then slices.foldl (fun t sl => t.wr (Pg.CAL + CAL.RUN_TEMP + 4 * sl) (BitVec.ofNat 32 (t.sliceTemp sl))) t else t
  let t := (t.count (Pg.CAL + CAL.RUNS)).raise Pg.CAL 8
  match t.cal.rerun with
  | [] => t
  | sl :: rest => ({ t with cal := { t.cal with rerun := rest } }).calBegin (sliceRecords sl)

/-- The run moves to its next part, which an abort ends (R364). -/
def calNext (s : Dev) : Dev :=
  let left := s.cal.run.drop 1
  match left with
  | [] => s.calFinish true
  | p :: _ =>
    let t := { s with cal := { s.cal with run := left, edited := [] } }
    if t.cal.abort then (t.setOutcome (p / 2) (p % 2 == 1) 5).calFinish true else t.calShow

/-- A word of a slice record that a background measurement passes over: a running channel without `MON_BORROW`, an IDAC
in ACTIVE below I_FS/16 (R365). -/
def calPassed (s : Dev) (r w : Nat) : Bool :=
  decide (16 ≤ r) &&
    (if w < 9 then s.outState (r - 16) (w - 1) == 2 && decide (s.fld (outBase (r - 16) (w - 1) + ANA.CODE) 0 20 < 2 ^ 16)
     else decide (11 ≤ w) && s.bit (chBase (r - 16) (w - 11) + DECIM.CH_CFG) 0 && !s.bit (Pg.CAL + CAL.CAL_CTRL) 8)

/-- A value brought into the range of a signed field of w bits (R359). -/
def calClamp (w : Nat) (x : Int) : Int := max (-(2 : Int) ^ (w - 1)) (min ((2 : Int) ^ (w - 1) - 1) x)

/-- A record word made of the values its fields need, in the order of the word's fields. -/
def calPack (r w : Nat) (vals : List Int) : Word :=
  ((calFields r w).zip vals).foldl (fun a f => withField a f.1.1 f.1.2 (twosOf f.1.2 (calClamp f.1.2 f.2))) 0

/-- A field of the word needs a value outside its range. -/
def calOut (r w : Nat) (vals : List Int) : Bool := ((calFields r w).zip vals).any (fun f => calClamp f.1.2 f.2 != f.2)

/-- The results of a part are committed with their outcome: a field whose value lies outside its range is set to the limit
(R359). -/
def calCommit (s : Dev) (r : Nat) (partB : Bool) (q : CalMeasurement) : Dev :=
  let keep (w : Nat) := calPartHas r partB w && !s.calPassed r w && !s.cal.edited.contains (r, w)
  let vals := q.values.filter (fun x => keep x.1)
  let t := (vals.foldl (fun t x => t.setCalWord r x.1 (calPack r x.1 x.2)) s).calHeader r partB
  let oor := (vals.filter (fun x => calOut r x.1 x.2)).map Prod.fst
  let t := if 16 ≤ r then
      let m := (List.range 22).foldl (fun a i =>
        if keep (i + 1) then withBit a i (oor.contains (i + 1)) else a) (Sparse.get (fun _ => 0) t.cal.oor r)
      { t with cal := { t.cal with oor := Sparse.put (fun _ => 0) t.cal.oor r m } }
    else t
  let t := t.setOutcome r partB (if oor.isEmpty then 1 else 3)
  let t := if oor.isEmpty then t else t.raise Pg.CAL 10
  let t := (t.calChanged r (vals.map Prod.fst)).calStarts r
  if !oor.isEmpty && decide (r < 16) && !partB && t.rxState r == 1 then t.toFault r 1 else t

/-- The reference check fails: nothing is committed. A lane in CALIBRATE goes on with a valid ADC part only (R358). -/
def calRefFault (s : Dev) (r : Nat) (partB : Bool) : Dev :=
  let t := (s.setB (Pg.CAL + CAL.CAL_STATUS) 30 true).raise Pg.CAL 9
  let t := t.setOutcome r partB 4
  if r < 16 ∧ partB = false ∧ t.rxState r = 1 ∧ t.calValidA r = false then t.toFault r 1 else t

/-- The reference is more than 1.0 % from the bandgap (R358). -/
def refBad (e : BitVec 16) : Bool := decide (1000 < e.toInt.natAbs)

/-- An occasion of hardware mode to measure a part outside a run: a lane in CALIBRATE, a transmitter that waits, a slice
at start-up (R361). -/
def calWanted (s : Dev) (r : Nat) (partB : Bool) : Bool :=
  if 16 ≤ r then !partB && s.sec.step == 8
  else if partB then s.txState r == 0 && s.bit (Pg.LTX r + LTX.TX_CTRL) 0 && !s.calValidB r
  else s.rxState r == 1 && !s.laneWaits r

/-- The number of a part: twice its record, and 1 more for part B. -/
def calPart (r : Nat) (partB : Bool) : Nat := 2 * r + (if partB then 1 else 0)

/-- The part is measured outside a run: in hardware mode, or begun before a change to host-assisted mode (R19, R361). -/
def calOccasion (s : Dev) (r : Nat) (partB : Bool) : Bool :=
  s.calWanted r partB && (!s.assisted Pg.CAL || s.cal.kept.contains (calPart r partB))

/-- The page has come to host-assisted mode: measurements in progress go on in the mode they began in (R19). -/
def calKeep (s : Dev) : Dev :=
  { s with cal := { s.cal with kept := (List.range 40).filter (fun p => s.calWanted (p / 2) (p % 2 == 1)) } }

/-- A part outside a run is done. -/
def calSingle (s : Dev) (r : Nat) (partB : Bool) (q : CalMeasurement) : Dev :=
  let t := s.wr (Pg.CAL + CAL.VREF_MEAS) (BitVec.setWidth 32 q.refError)
  let t := { t with cal := { t.cal with kept := t.cal.kept.filter (· != calPart r partB) } }
  if refBad q.refError then t.calRefFault r partB
  else
    let t := t.calCommit r partB q
    let t := { t with cal := { t.cal with edited := [] } }
    if r < 16 then t else t.wr (Pg.CAL + CAL.RUN_TEMP + 4 * (r - 16)) (BitVec.ofNat 32 (t.sliceTemp (r - 16)))

/-- The part in progress of a run is done; the run's first part brings its reference measurement. -/
def calRunPart (s : Dev) (r : Nat) (partB : Bool) (q : CalMeasurement) : Dev :=
  let t := if s.cal.refDone then s else s.wr (Pg.CAL + CAL.VREF_MEAS) (BitVec.setWidth 32 q.refError)
  if !s.cal.refDone && refBad q.refError then
    (t.cal.run.foldl (fun t p => t.calRefFault (p / 2) (p % 2 == 1)) t).calFinish false
  else
    let t := { t with cal := { t.cal with refDone := true } }
    let t := if t.cal.unfit then t.setOutcome r partB 2 else t.calCommit r partB q
    t.calNext

/-- The results of a part: those of the run's part in progress, or of a measurement of its own. -/
def calTake (s : Dev) (r : Nat) (partB : Bool) (q : CalMeasurement) (own : Bool) : Dev :=
  if s.cal.run.head? = some (calPart r partB) then s.calRunPart r partB q
  else if own then s.calSingle r partB q
  else s

/-- A measurement completes; in a supply hold its results are held, with whether they are of a measurement of its own
(R369). -/
def calDone (s : Dev) (r : Nat) (p : CalPart) (q : CalMeasurement) : Dev :=
  let own := s.calOccasion r (p == .partB)
  if s.supplyHold then { s with cal := { s.cal with held := s.cal.held ++ [(r, p, q, own)] } }
  else s.calTake r (p == .partB) q own

/-- The hold ends: what completed in it is committed, in the order of completion. -/
def calHeldEnd (s : Dev) : Dev :=
  s.cal.held.foldl (fun t x => t.calTake x.1 (x.2.1 == .partB) x.2.2.1 x.2.2.2) { s with cal := { s.cal with held := [] } }

/-- The temperature trigger of a slice (R362, R363): it fires when the zone comes to stand beyond `CAL_DELTA_T`. -/
def calTrigger (s : Dev) (sl : Nat) : Dev :=
  let delta := s.fld (Pg.CAL + CAL.CAL_CTRL) 0 8
  let last := signedOf 16 (s.fld (Pg.CAL + CAL.RUN_TEMP + 4 * sl) 0 16)
  let beyond := delta != 0 && decide (4 * delta < (s.zoneTag (4 * sl) - last).natAbs)
  if !beyond then { s with cal := { s.cal with fired := s.cal.fired.filter (· != sl) } }
  else if s.cal.fired.contains sl then s
  else
    let t := { s with cal := { s.cal with fired := s.cal.fired ++ [sl] } }
    let t := (t.count (Pg.CAL + CAL.RERUNS)).raise Pg.CAL 11
    if t.assisted Pg.CAL then t
    else if t.calRunning then { t with cal := { t.cal with rerun := t.cal.rerun.filter (· != sl) ++ [sl] } }
    else t.calBegin (sliceRecords sl)

/-! ### Commands -/

/-- `CAL_CMD.RUN` (R364). -/
def calRunCmd (s : Dev) (m : Master) : Dev :=
  s.need m (Pg.CAL + CAL.CAL_CMD) (!s.calRunning) Err.state (fun t =>
    let mask := t.fld (Pg.CAL + CAL.CAL_RUN_MASK) 0 20
    if mask = 0 then (t.wr (Pg.CAL + CAL.CAL_STATUS) 0x10000000).calFinish false
    else t.calBegin ((List.range 20).filter (fun r => mask.testBit r)))

/-- `CAL_CMD.ABORT` (R364). -/
def calAbortCmd (s : Dev) : Dev := if s.calRunning then { s with cal := { s.cal with abort := true } } else s

/-- A record's part is being measured. -/
def calMeasuring (s : Dev) (r : Nat) : Bool :=
  s.cal.run.any (fun p => p / 2 == r && s.cal.run.headD 99 / 2 == r) || s.calOccasion r false || s.calOccasion r true

/-- The staged record meets R367. -/
def calStagedOk (_s : Dev) (r : Nat) (ws : List Word) : Bool :=
  let body := ws.take (recLen r - 1)
  let h := ws.headD 0
  let hdr := decide (fieldOf h 16 8 = r) && decide (fieldOf h 24 4 = 0) && (decide (r < 16) || !bitOf h 30)
  hdr && ws.getD (recLen r - 1) 0 == calCrc body
    && (List.range (recLen r - 2)).all (fun i => ws.getD (i + 1) 0 &&& ~~~(calMask r (i + 1)) == 0)

/-- `CAL_CMD.RESTORE` (R367, R369, R371). -/
def calRestoreCmd (s : Dev) (m : Master) : Dev :=
  let a := Pg.CAL + CAL.CAL_CMD
  let r := s.calSel
  s.need m a (s.holds m 0x0E0) Err.lockRequired (fun t =>
    t.need m a (!t.supplyHold) Err.supplyHold (fun t =>
      t.need m a (!t.calMeasuring r) Err.state (fun t =>
        let ws := t.rdWords (Pg.CAL + CAL.STAGE) (recLen r)
        if t.calStagedOk r ws then
          let t := (List.range (recLen r - 1)).foldl (fun t w => t.setCalWord r w (ws.getD w 0)) t
          let t := t.setCalWord r 0 (withField (t.calWord r 0) 28 2 2)
          let t := t.wr (Pg.CAL + CAL.RUN_TEMP + 4 * calSlice r) (BitVec.ofNat 32 (fieldOf (ws.headD 0) 0 16))
          (t.calChanged r ((List.range (recLen r - 2)).map (· + 1))).calStarts r
        else ((t.logErr m a Err.config).count (Pg.CAL + CAL.RESTORE_REJECTS)).raise Pg.CAL 12)))

/-- The latch of the reading master given a record. -/
def setLiveLatch (s : Dev) (m : Master) (l : Option (List Word)) : Dev :=
  { s with cal := { s.cal with latch := Sparse.put (fun _ => none) s.cal.latch (masterId m).toNat l } }

/-- A word of `LIVE` as a master reads it (R366). -/
def liveWord (s : Dev) (m : Master) (w : Nat) : Word :=
  match Sparse.get (fun _ => none) s.cal.latch (masterId m).toNat with
  | some l => l.getD w 0
  | none => (s.calRecord s.calSel).getD w 0

/-- An expert write of a `LIVE` word (R368, R369, R371). -/
def liveEdit (s : Dev) (m : Master) (w : Nat) (v : Word) : Dev :=
  let a := Pg.CAL + CAL.LIVE + 4 * w
  let r := s.calSel
  if (calFields r w).isEmpty then s
  else
    s.need m a (s.expert m 0x0E0) Err.expertDenied (fun t =>
      t.need m a (!t.supplyHold) Err.supplyHold (fun t =>
        let measured := t.calMeasuring r
        let t := (t.setCalWord r w (v &&& calMask r w)).setCalWord r 0 (withField (withField (t.calWord r 0) 28 2 3) 16 8 r)
        let t := if measured then { t with cal := { t.cal with edited := (r, w) :: t.cal.edited } } else t
        t.calChanged r [w]))

/-- A soft reset of the page: every valid bit and master copy is lost, targets in service keep what they have (R370). -/
def calSoftReset (s : Dev) : Dev :=
  let t := { s with cal := { s.cal with master := [], outcome := [], oor := [], run := [], slices := [], refDone := false,
                                        abort := false, rerun := [], edited := [], latch := [], held := [], kept := [],
                                        frozen := List.range 20 } }
  let t := (List.range 20).foldl (fun t r => (List.range 66).foldl (fun t w =>
    if (calFields r w).isEmpty then t else t.calReach r w) t) t
  t.wr (Pg.CAL + CAL.CAL_SETTLING) 0

end Dev

/-- CAL_RUN (R364). -/
def execCalRun (m : Master) (s : State) : Out := s.run (fun d => d.access m (Pg.CAL + CAL.CAL_CMD) (fun t => t.calRunCmd m))

/-- CAL_ABORT (R364). -/
def execCalAbort (m : Master) (s : State) : Out := s.run (fun d => d.access m (Pg.CAL + CAL.CAL_CMD) (fun t => t.calAbortCmd))

/-- CAL_RESTORE (R367). -/
def execCalRestore (m : Master) (s : State) : Out :=
  s.run (fun d => d.access m (Pg.CAL + CAL.CAL_CMD) (fun t => t.calRestoreCmd m))

/-- CAL_PART_DONE (R358, R359, R361, R364, R369). -/
def execCalPartDone (r : Fin 20) (p : CalPart) (q : CalMeasurement) (s : State) : Out := s.run (fun d => d.calDone r p q)

/-- LIVE_EXPERT_WRITE (R368). -/
def execLiveExpertWrite (m : Master) (w : Fin 67) (v : Word) (s : State) : Out :=
  s.run (fun d => d.access m (Pg.CAL + CAL.LIVE + 4 * w) (fun t => t.liveEdit m w v))

/-- IN_SERVICE_CAL_STEP (R360, R77). -/
def execInServiceCalStep (s : State) : Out := s.run (fun d => d.calStep)

end Sys2Proof.Machine
end

