-- ==== Sys2Proof/Machine/HostLanes.lean ====
section
/-! DEFINITION. Host lanes: states, link status, board equalisation, PRBS and eye scan (08, R249–R254, R272–R274). -/

namespace Sys2Proof.Machine

namespace Dev

/-- A host port is up (R250). -/
def hostUp (s : Dev) (p : Nat) : Bool :=
  !(s.hpLanes p).isEmpty && !s.hostSafe p
    && (s.hpLanes p).all (fun n => s.hostState n == 2 && s.bit (Pg.HOST n + HOST.LINK_STATUS) 3 && s.islandOn (32 + n))

/-- What a host lane sends: nothing in OFF and IN_TEST, its pattern in PRBS, and in service Remote Fault while the port is
not up, which `LF_SIGNAL` turns off and the safe state replaces by idles (R248, R249, R272). -/
def hostSendOf (s : Dev) (n : Nat) : HostSend :=
  let c := s.rd (Pg.HOST n + HOST.PRBS_CTRL)
  let p := s.hostPort n
  match s.hostState n with
  | 3 => if fieldOf c 0 2 = 0 then .idle else .pattern (fieldOf c 0 2) (bitOf c 8)
  | 1 => inService p
  | 2 => inService p
  | _ => .off
where
  /-- A lane that is in service, or on its way there. -/
  inService (p : Nat) : HostSend :=
    if s.hostUp p then .traffic
    else if s.hostSafe p || !s.bit (Pg.HOST n + HOST.HOST_CTRL) 2 then .idle
    else .remoteFault

/-- What the lanes of a host port send, after a change that may bear on it. -/
def hostShow (s : Dev) (p : Nat) : Dev :=
  (s.hpLanes p).foldl (fun t n =>
    let x := t.hostSendOf n
    if Sparse.get (fun _ => HostSend.off) t.eg.hostSent n = x then t
    else { t with eg := { t.eg with hostSent := Sparse.put (fun _ => HostSend.off) t.eg.hostSent n x } }.emit (.hostSends n x)) s

/-- A host lane changes state: the state left is recorded and its rate shown (R245, R249); a scan ends outside UP and PRBS,
the checker is idle outside PRBS (R272, R273). -/
def setHost (s : Dev) (n st : Nat) : Dev :=
  let a := Pg.HOST n + HOST.HOST_STATE
  let old := s.hostState n
  let t := (((s.setF a 4 4 old).setF a 0 4 st).setF a 8 2 (if st = 0 ∨ st = 4 then 0 else s.hostRate (n / 4))).raise (Pg.HOST n) 8
  let t := if st = 2 ∨ st = 3 then t else t.eyeAbort (Pg.HOST n + HOST.EYE_CTRL)
  let t := if old = 3 then
      ({ t with eg := { t.eg with prbs := Sparse.put (fun _ => Prbs.init) t.eg.prbs n Prbs.init } }).setB (Pg.HOST n + HOST.PRBS_STATUS) 0 false
    else t
  let t := if old = 2 then
      { t with eg := { t.eg with announced := Sparse.put (fun _ => 0) t.eg.announced (s.hostPort n) 0 } }
    else t
  t.hostShow (s.hostPort n)

/-- `DESKEW_OK` of a port's lanes: every lane has alignment-marker lock. -/
def hostDeskew (s : Dev) (n : Nat) : Dev :=
  let ls := s.hpLanes (s.hostPort n)
  let ok := ls.all (fun i => s.bit (Pg.HOST i + HOST.LINK_STATUS) 2)
  (ls.foldl (fun t i => t.setB (Pg.HOST i + HOST.LINK_STATUS) 3 (ok && t.bit (Pg.HOST i + HOST.LINK_STATUS) 2)) s).hostShow
    (s.hostPort n)

/-- Signal, clock and marker status of a lane; a change of `LOS` is flagged. -/
def hostLink (s : Dev) (n : Nat) (signal cdr am : Bool) : Dev :=
  let a := Pg.HOST n + HOST.LINK_STATUS
  let t := ((s.setB a 0 (!signal)).setB a 1 cdr).setB a 2 am
  let t := if s.bit a 0 == signal then t.raise (Pg.HOST n) 9 else t
  t.hostDeskew n

/-- A lane goes to OFF: loss of signal reads 1 and nothing is locked. -/
def hostOff (s : Dev) (n : Nat) : Dev :=
  let t := if s.hostState n = 0 then s else s.setHost n 0
  let t := (t.wr (Pg.HOST n + HOST.LINK_STATUS) 1).hostDeskew n
  t.setB (Pg.HOST n + HOST.HOST_STATE) 16 false

/-- A lane in OFF leaves it when enabled, unless a conflict, the lack of a table or its PLL holds it (R249, R254). -/
def hostTryUp (s : Dev) (n : Nat) : Dev :=
  if s.hostState n = 0 ∧ s.bit (Pg.HOST n + HOST.HOST_CTRL) 0 = true then
    let t := s.sliceCheck (n / 4)
    let table := t.bit (Pg.HOST n + HOST.EQ_STATUS) (if t.hostRate (n / 4) = 2 then 1 else 0)
    let t := t.setB (Pg.HOST n + HOST.HOST_STATE) 16 (!table)
    if table && !t.hostHeld n && t.hpllLock (n / 4) then
      t.setHost n (if t.bit (Pg.HOST n + HOST.HOST_CTRL) 1 then 3 else 1)
    else t
  else s

/-- `HOST_EN` written (R249). -/
def hostEnable (s : Dev) (n : Nat) (on : Bool) : Dev :=
  let t := s.setB (Pg.HOST n + HOST.HOST_CTRL) 0 on
  if t.hostState n = 4 then t else if on then t.hostTryUp n else t.hostOff n

/-- `PRBS_MODE` written (R249). -/
def hostPrbs (s : Dev) (n : Nat) (on : Bool) : Dev :=
  let t := s.setB (Pg.HOST n + HOST.HOST_CTRL) 1 on
  let st := t.hostState n
  if on ∧ (st = 1 ∨ st = 2) then t.setHost n 3 else if !on ∧ st = 3 then t.setHost n 1 else t

/-- UP is left for ACQUIRE (R249). -/
def hostDrop (s : Dev) (n : Nat) : Dev :=
  if s.hostState n = 2 then (s.setHost n 1).count (Pg.HOST n + HOST.DOWN_COUNT) else s

/-! ### Board equalisation (R251–R254) -/

/-- A signed byte of an entry. -/
def s8 (e : List Byte) (i : Nat) : Int := signedOf 8 (e.getD i 0).toNat

/-- An entry is valid (R251). -/
def eqValid (e : List Byte) : Bool :=
  let x (i : Nat) := (e.getD i 0).toNat
  decide (x 0 < 16) && (x 1 == 1 || x 1 == 2) && decide (x 2 < 4) && x 3 == 0 && decide (64 ≤ s8 e 6)
    && decide ((s8 e 4).natAbs + (s8 e 5).natAbs + (s8 e 6).natAbs + (s8 e 7).natAbs ≤ 128)
    && decide (40 ≤ x 8) && decide (x 8 ≤ 120) && decide (x 9 < 32) && decide (x 10 < 32)
    && allZero (slice e 19 13)

/-- Entries of a file. -/
def biyleyEntries (f : List Byte) (n : Nat) : List (List Byte) := (List.range n).map (fun i => slice f (32 + 32 * i) 32)

/-- A lane and rate appear twice. -/
def biyleyTwice (es : List (List Byte)) : Bool :=
  let keys := es.map (fun e => (e.getD 0 0, e.getD 1 0))
  !decide keys.Nodup

/-- The result of checking a file, in the order of the `FILE_ERR` codes (R252). -/
def biyleyCheck (file : Option (List Byte)) (dirLen : Nat) : Nat :=
  match file with
  | none => 1
  | some f =>
    let n := natLE (slice f 6 2)
    let len := natLE (slice f 24 4)
    if slice f 0 4 ≠ [0x42, 0x59, 0x4C, 0x59] then 2
    else if natLE (slice f 4 2) ≠ 1 then 3
    else if 32 < n ∨ len ≠ 32 + 32 * n ∨ len ≠ dirLen then 4
    else if natLE (slice f 28 4) ≠ crc32c (slice f 0 28 ++ [0, 0, 0, 0] ++ slice f 32 (len - 32)) then 5
    else if !(biyleyEntries f n).all eqValid then 6
    else if biyleyTwice (biyleyEntries f n) then 7
    else 0

/-- One entry goes into its lane's set, with a source (R252, R253). -/
def eqLoad (s : Dev) (e : List Byte) (source : Nat) : Dev :=
  let n := (e.getD 0 0).toNat
  let hi := (e.getD 1 0) == 2
  let t := s.wrWords (Pg.HOST n + (if hi then HOST.EQ_SET1 else HOST.EQ_SET0)) ((List.range 8).map (wordBE e))
  (t.setB (Pg.HOST n + HOST.EQ_STATUS) (if hi then 1 else 0) true).setF (Pg.HOST n + HOST.EQ_STATUS) 2 2 source

/-- The copies of the file that the directory names, A first, each with its result (15, R395). -/
def biyleyCopies (s : Dev) (copyA copyB : List Byte) : List (List Byte × Nat) :=
  [(0, copyA), (1, copyB)].filterMap (fun c => (s.dirEntry 5 c.1).map (fun e => (slice c.2 0 e.length, biyleyCheck (some (slice c.2 0 e.length)) e.length)))

/-- The first good copy is loaded whole, or the error of the last copy tried is reported on every `HOST` page (R252; log
entry 85). A lane that had no table leaves OFF with the one it is given (R249, R254). -/
def biyleyLoad (s : Dev) (copyA copyB : List Byte) : Dev :=
  let tried := s.biyleyCopies copyA copyB
  let x := (tried.find? (fun c => c.2 == 0)).getD (tried.getLastD ([], biyleyCheck none 0))
  let t := (List.range 16).foldl (fun t n => t.setF (Pg.HOST n + HOST.EQ_STATUS) 8 8 x.2) s
  if x.2 = 0 then
    let f := x.1
    let t := (biyleyEntries f (natLE (slice f 6 2))).foldl (fun t e => t.eqLoad e 1) t
    (List.range 16).foldl (fun t n => t.hostTryUp n) { t with sec := { t.sec with biyley := some f } }
  else t

/-- Staging key of a word of an EQ_SET for a master. -/
def eqKey (n : Nat) (hi : Bool) (w : Nat) (m : Master) : Nat :=
  (Pg.HOST n + (if hi then HOST.EQ_SET1 else HOST.EQ_SET0) + 4 * w) * 256 + (masterId m).toNat

def eqStaged (s : Dev) (n : Nat) (hi : Bool) (w : Nat) (m : Master) : Option Word :=
  Sparse.get (fun _ => none) s.eg.eqStaged (eqKey n hi w m)

def setEqStaged (s : Dev) (n : Nat) (hi : Bool) (w : Nat) (m : Master) (v : Option Word) : Dev :=
  { s with eg := { s.eg with eqStaged := Sparse.put (fun _ => none) s.eg.eqStaged (eqKey n hi w m) v } }

/-- A write of word 7: words 0–6 as staged or as the set holds them, checked and committed or rejected; the staging
copy is emptied (R253). -/
def eqCommit (s : Dev) (m : Master) (n : Nat) (hi : Bool) (v : Word) : Dev :=
  let base := Pg.HOST n + (if hi then HOST.EQ_SET1 else HOST.EQ_SET0)
  let ws := (List.range 7).map (fun w => (s.eqStaged n hi w m).getD (s.rd (base + 4 * w))) ++ [v]
  let e := ws.flatMap wordBytesBE
  let t := (List.range 7).foldl (fun t w => t.setEqStaged n hi w m none) s
  if s.hostState n ≠ 0 then t.logErr m (base + 28) Err.state
  else if !eqValid e || (e.getD 0 0).toNat != n || (e.getD 1 0).toNat != (if hi then 2 else 1) then t.logErr m (base + 28) Err.config
  else (t.eqLoad e 2).hostTryUp n

end Dev

/-- HOST_ENABLE (R249). -/
def execHostEnable (m : Master) (n : Lane) (s : State) : Out :=
  s.run (fun d => d.access m (Pg.HOST n + HOST.HOST_CTRL) (fun t => t.hostEnable n true))

/-- HOST_DISABLE (R249). -/
def execHostDisable (m : Master) (n : Lane) (s : State) : Out :=
  s.run (fun d => d.access m (Pg.HOST n + HOST.HOST_CTRL) (fun t => t.hostEnable n false))

/-- PRBS_MODE_SET (R249). -/
def execPrbsModeSet (m : Master) (n : Lane) (s : State) : Out :=
  s.run (fun d => d.access m (Pg.HOST n + HOST.HOST_CTRL) (fun t => t.hostPrbs n true))

/-- PRBS_MODE_CLEAR (R249). -/
def execPrbsModeClear (m : Master) (n : Lane) (s : State) : Out :=
  s.run (fun d => d.access m (Pg.HOST n + HOST.HOST_CTRL) (fun t => t.hostPrbs n false))

/-- HOST_LANE_UP: signal, clock and markers are there, and the PLL is locked (R249). -/
def execHostLaneUp (n : Lane) (s : State) : Out :=
  s.run (fun d => if d.hostState n = 1 ∧ d.hpllLock (n / 4) = true then (d.hostLink n true true true).setHost n 2 else d)

/-- HOST_LANE_DOWN: what is still there of signal, clock and markers (R249). -/
def execHostLaneDown (n : Lane) (signal cdr am : Bool) (s : State) : Out :=
  s.run (fun d =>
    if d.hostState n = 2 ∧ (!signal || !cdr || !am || !d.hpllLock (n / 4)) = true then (d.hostLink n signal cdr am).hostDrop n
    else d)

/-- HOST_LOS_CHANGE: loss of signal is asserted or deasserted; in UP a loss takes the lane to ACQUIRE (R249, and
`LINK_STATUS.LOS`). -/
def execHostLosChange (n : Lane) (asserted : Bool) (s : State) : Out :=
  s.run (fun d =>
    let a := Pg.HOST n + HOST.LINK_STATUS
    if d.hostState n = 0 then d
    else
      let t := d.hostLink n (!asserted) (d.bit a 1) (d.bit a 2)
      if asserted then t.hostDrop n else t)

/-- HOST_LINK_FAULT_RECEIVED: reported in `LINK_STATUS`, flagged when it changed; the lane's state stays (R248). -/
def execHostLinkFaultReceived (n : Lane) (lf rf : Bool) (s : State) : Out :=
  s.run (fun d =>
    let a := Pg.HOST n + HOST.LINK_STATUS
    let t := (d.setB a 4 lf).setB a 5 rf
    if d.bit a 4 != lf || d.bit a 5 != rf then t.raise (Pg.HOST n) 16 else t)

/-- BIYLEY_LOAD: the board file is checked and loaded at start-up, which then goes on to calibration (R252, R391). -/
def execBiyleyLoad (copyA copyB : List Byte) (s : State) : Out :=
  s.run (fun d =>
    if d.sec.step = 7 then
      let t := d.biyleyLoad copyA copyB
      { t with sec := { t.sec with step := 8 } }
    else d)

/-- EQ_SET_STAGE_WRITE (R253). -/
def execEqSetStageWrite (m : Master) (n : Lane) (hi : Bool) (w : Fin 7) (v : Word) (s : State) : Out :=
  s.run (fun d => d.access m (Pg.HOST n + (if hi then HOST.EQ_SET1 else HOST.EQ_SET0) + 4 * w)
    (fun t => t.setEqStaged n hi w m (some v)))

/-- EQ_SET_COMMIT (R253). -/
def execEqSetCommit (m : Master) (n : Lane) (hi : Bool) (v : Word) (s : State) : Out :=
  s.run (fun d => d.access m (Pg.HOST n + (if hi then HOST.EQ_SET1 else HOST.EQ_SET0) + 28) (fun t => t.eqCommit m n hi v))

/-- `PRBS_CMD.INJECT` inverts one bit in PRBS state (R272). -/
def prbsInject (s : Dev) (n : Nat) : Dev := if s.hostState n = 3 then s.emit (.invertBit n) else s

/-- `PRBS_CMD.CLEAR` zeroes the counters and `LOST` (R272). -/
def prbsClear (s : Dev) (n : Nat) : Dev :=
  ((s.setWide 64 (Pg.HOST n + HOST.PRBS_BITS) 0).setWide 48 (Pg.HOST n + HOST.PRBS_ERRS) 0).setB (Pg.HOST n + HOST.PRBS_STATUS) 1 false

/-- PRBS_INJECT (R272). -/
def execPrbsInject (m : Master) (n : Lane) (s : State) : Out :=
  s.run (fun d => d.access m (Pg.HOST n + HOST.PRBS_CMD) (fun t => prbsInject t n))

/-- PRBS_CLEAR (R272). -/
def execPrbsClear (m : Master) (n : Lane) (s : State) : Out :=
  s.run (fun d => d.access m (Pg.HOST n + HOST.PRBS_CMD) (fun t => prbsClear t n))

/-! ### The PRBS checker (R272) -/

/-- Bits that seed a checker: 13 of PRBS13Q, 31 of PRBS31Q. -/
def prbsBits (kind : Nat) : Nat := if kind = 1 then 13 else 31

/-- The bit of a pattern that follows the bits of a register: x^13 + x^12 + x^2 + x + 1, or x^31 + x^28 + 1 inverted, as
Clause 120 has them (PRESUMED, log entry 78). -/
def prbsNext (kind : Nat) (inverted : Bool) (x : BitVec 31) : Bool :=
  if kind = 1 then xor inverted (xor (xor (x.getLsbD 12) (x.getLsbD 11)) (xor (x.getLsbD 1) (x.getLsbD 0)))
  else !(xor inverted (xor (x.getLsbD 30) (x.getLsbD 27)))

def prbsPush (x : BitVec 31) (b : Bool) : BitVec 31 := (x <<< 1) ||| (if b then 1 else 0)

/-- A checker at work: whether it is locked, whether it has lost lock, and what it has counted. -/
structure PrbsRun where
  c    : Prbs
  lock : Bool
  lost : Bool
  bits : Nat
  errs : Nat
  deriving DecidableEq, Repr

/-- One received symbol. Before lock the checker is seeded with received bits, afresh after an error; from lock on its
generator runs free. -/
def prbsSymbol (kind : Nat) (inverted : Bool) (r : PrbsRun) (y : Fin 4) : PrbsRun :=
  let a := grayHigh y
  let b := grayLow y
  let p := prbsNext kind inverted r.c.reg
  let q := prbsNext kind inverted (prbsPush r.c.reg p)
  let own := prbsPush (prbsPush r.c.reg p) q
  let heard := prbsPush (prbsPush r.c.reg a) b
  let e := (xor a p).toNat + (xor b q).toNat
  if r.lock then
    let seen := (decide (e ≠ 0) :: r.c.seen).take 256
    let r : PrbsRun := { r with bits := r.bits + 2, errs := r.errs + e, c := { r.c with reg := own, seen := seen } }
    if 64 ≤ seen.countP id then { r with c := Prbs.init, lock := false, lost := true } else r
  else if r.c.seeded < prbsBits kind then { r with c := { r.c with reg := heard, seeded := r.c.seeded + 2, clean := 0 } }
  else if e ≠ 0 then { r with c := { r.c with reg := heard, seeded := 2, clean := 0 } }
  else
    { r with lock := decide (128 ≤ r.c.clean + 1), c := { r.c with reg := own, clean := r.c.clean + 1 } }

/-- Symbols that a lane in PRBS receives, when a pattern is expected. -/
def prbsCheck (s : Dev) (n : Nat) (symbols : List (Fin 4)) : Dev :=
  let c := s.rd (Pg.HOST n + HOST.PRBS_CTRL)
  let a := Pg.HOST n + HOST.PRBS_STATUS
  if s.hostState n ≠ 3 ∨ fieldOf c 4 2 = 0 then s
  else
    let start : PrbsRun := ⟨Sparse.get (fun _ => Prbs.init) s.eg.prbs n, s.bit a 0, false, 0, 0⟩
    let r := symbols.foldl (prbsSymbol (fieldOf c 4 2) (bitOf c 9)) start
    let t := { s with eg := { s.eg with prbs := Sparse.put (fun _ => Prbs.init) s.eg.prbs n r.c } }
    let t := (t.count64 (Pg.HOST n + HOST.PRBS_BITS) r.bits).count48 (Pg.HOST n + HOST.PRBS_ERRS) r.errs
    let t := t.setB a 0 r.lock
    if r.lost then (t.setB a 1 true).raise (Pg.HOST n) 10 else t

/-- PRBS_LOCK: the symbols up to 128 in a row without an error (R272). -/
def execPrbsLock (n : Lane) (symbols : List (Fin 4)) (s : State) : Out := s.run (fun d => prbsCheck d n symbols)

/-- PRBS_LOSS: the symbols up to 64 in error of 256 (R272). -/
def execPrbsLoss (n : Lane) (symbols : List (Fin 4)) (s : State) : Out := s.run (fun d => prbsCheck d n symbols)

/-- `EYE_CMD.START` of a host lane: in UP or PRBS (R273). -/
def hostEyeStart (s : Dev) (m : Master) (n : Nat) : Dev :=
  s.eyeStart m (Pg.HOST n) (Pg.HOST n + HOST.EYE_CTRL) (Pg.HOST n + HOST.EYE_DATA) 256 11 (s.hostState n == 2 || s.hostState n == 3)

/-- HOST_EYE_START (R273). -/
def execHostEyeStart (m : Master) (n : Lane) (s : State) : Out :=
  s.run (fun d => d.access m (Pg.HOST n + HOST.EYE_CMD) (fun t => hostEyeStart t m n))

/-- HOST_EYE_ABORT (R273, R106). -/
def execHostEyeAbort (m : Master) (n : Lane) (s : State) : Out :=
  s.run (fun d => d.access m (Pg.HOST n + HOST.EYE_CMD) (fun t => t.eyeAbort (Pg.HOST n + HOST.EYE_CTRL)))

/-- HOST_EYE_POINT_DONE: the contour code of e errors in 2^`DWELL` samples (R274). -/
def execHostEyePointDone (n : Lane) (errors : Nat) (s : State) : Out :=
  s.run (fun d =>
    let a := Pg.HOST n + HOST.EYE_CTRL
    d.eyePoint (Pg.HOST n) a (Pg.HOST n + HOST.EYE_DATA) 4 8 11 (contourCode (2 ^ fieldOf (d.eyeSet a).1 8 5) errors))

end Sys2Proof.Machine
end

