-- ==== Sys2Proof/Machine/Packets.lean ====
section
/-! DEFINITION. Packets from header window to verdict: lookup, meter decision, commit, revocation, store-and-forward
admission and its fallback (05, R140–R164; 06, R186–R207; 07, R219, R223, R242). -/

namespace Sys2Proof.Machine

/-! ### The first packet of a kind -/

/-- The first packet a test selects, changed. -/
def modFirst (sel : Packet → Bool) (f : Packet → Packet) : List Packet → List Packet
  | [] => []
  | x :: r => if sel x then f x :: r else x :: modFirst sel f r

/-- The list without the first packet a test selects. -/
def dropFirst (sel : Packet → Bool) : List Packet → List Packet
  | [] => []
  | x :: r => if sel x then r else x :: dropFirst sel r

/-- The bytes of a packet that have arrived. -/
def Packet.bytes (x : Packet) : List Byte := x.window ++ x.rest

/-- The packet was admitted: what was not only waits for its last byte. -/
def Packet.admitted (x : Packet) : Bool := x.refused.isNone

/-- The cause a packet is revoked with, 0 FEC to 6 TIMEOUT, once its last byte has left; none while its verdict is good
(R195, R196). -/
def Packet.cause (x : Packet) : Option Nat :=
  match x.last with
  | none => none
  | some l =>
    if !l.badLanes.isEmpty then some 0
    else if l.pcs then some 1
    else if l.fcs then some 2
    else if x.len < 64 ∨ 16000 < x.len then some 3
    else if x.decided.any (fun c => c.unread) then some 4
    else if x.decided.any (fun c => c.pinned) then some 5
    else if x.timedOut then some 6
    else none

/-- The decision may fall on a flow's record. -/
def Packet.wants (x : Packet) (f : Nat) : Bool := x.fetched.contains f || x.lookup.any (fun l => l.flow == f)

/-! ### What an action profile says (R156) -/

/-- The action record of a profile. -/
structure Action where
  cls    : Nat
  colour : Nat
  mode   : Nat
  aware  : Bool
  flow   : Bool
  groups : List Nat
  mark   : Option (Nat × Nat)   -- DSCP and condition
  copy   : Option Nat
  drops  : List Nat             -- conditions
  umeta  : Nat
  deriving DecidableEq, Repr

def Action.init : Action := ⟨0, 0, 0, false, false, [], none, none, [], 0⟩

/-- The operations in order, to the first `END`. -/
def evalOps : List Word → Action → Action
  | [], a => a
  | v :: r, a =>
    match fieldOf v 28 4 with
    | 1 => evalOps r { a with cls := fieldOf v 0 3 }
    | 2 => evalOps r { a with colour := fieldOf v 0 2 }
    | 3 => evalOps r { a with mode := fieldOf v 0 3, aware := bitOf v 3 }
    | 4 =>
      let g := fieldOf v 4 6
      evalOps r { a with flow := a.flow || bitOf v 0,
                         groups := if bitOf v 1 && !a.groups.contains g then a.groups ++ [g] else a.groups }
    | 5 => evalOps r { a with mark := some (fieldOf v 0 6, fieldOf v 6 2) }
    | 6 => evalOps r { a with copy := some (fieldOf v 0 8) }
    | 7 => evalOps r { a with drops := a.drops ++ [fieldOf v 0 2] }
    | 8 => evalOps r { a with umeta := fieldOf v 0 24 }
    | _ => a

/-- A condition of `MARK` and `DROP` on the final colour. -/
def condHolds (cond colour : Nat) : Bool :=
  match cond with
  | 0 => true
  | 1 => colour == 1
  | 2 => colour == 2
  | _ => colour == 1 || colour == 2

namespace Dev

/-! ### Slots (R193, R194) -/

/-- Block of a line port, or of a line lane, on its `ADMIT` page. -/
abbrev adBase (p : Nat) : Nat := Pg.ADMIT (p / 4) + 0x80 * (p % 4)

def slotsUsed (s : Dev) (p : Nat) : Nat := ((s.packets p).filter (fun x => x.slot)).length
def slotPool (s : Dev) (p : Nat) : Nat := s.fld (Pg.FLOW + FLOW.JOURNAL_CTRL) 0 9 * s.lpWidth p

/-- `PENDING` of a port and the device's, with their peaks. -/
def pendShow (s : Dev) (p : Nat) : Dev :=
  let n := s.slotsUsed p
  let all := ((List.range 16).map s.slotsUsed).sum
  let t := (s.setF (adBase p + ADMIT.PENDING) 0 11 n).peakF (adBase p + ADMIT.PEAK) 0 11 n
  (t.setF (Pg.FLOW + FLOW.JOURNAL_STATUS) 0 13 all).peakF (Pg.FLOW + FLOW.JOURNAL_PEAK) 0 13 all

/-- `FB_STATUS.ACTIVE`, `FORCED` and `REQ` of a lane. -/
def fbBit (s : Dev) (n i : Nat) : Bool := s.bit (Pg.ADMIT (n / 4) + ADMIT.FB_STATUS) (4 * i + n % 4)
def setFb (s : Dev) (n i : Nat) (b : Bool) : Dev := s.setB (Pg.ADMIT (n / 4) + ADMIT.FB_STATUS) (4 * i + n % 4) b

/-- A port is in store-and-forward admission. -/
def fallback (s : Dev) (p : Nat) : Bool := (s.lpLanes p).any (fun n => s.fbBit n 0)

/-- A stack in service holds more operations than `HBM_GUARD` (R219). -/
def guarded (s : Dev) : Bool :=
  let g := s.fld (Pg.BUF + BUF.HBM_GUARD) 0 13
  decide (g ≠ 0) && (List.range 4).any (fun k => !s.stackRetired k && decide (g < (s.stack4 k).inflight.length))

/-- A frame is a MAC control frame: destination 01-80-C2-00-00-01 and EtherType 0x8808 (R508). -/
def macControl (frame : List Byte) : Bool := decide (natBE (frame.take 6) = 0x0180C2000001) && decide (natBE (slice frame 12 2) = 0x8808)

/-- A header window leaves the line PCS; that of a MAC control frame is consumed (R10, R193, R219, R508). -/
def headerWindow (s : Dev) (p : Nat) (window : List Byte) (len : Nat) (rxTime : BitVec 80) : Dev :=
  if !s.receives p || macControl window then s
  else
    let adj := BitVec.ofInt 80 (signedOf 16 (s.fld (Pg.HOST p + HOST.TS_ADJ) 0 16))
    let x : Packet := { window := window.take (min 192 len), len := len, rxTime := rxTime + adj, slot := false, rest := [],
                        refused := none, unread := false, fetched := [], lookup := none, decided := none, last := none,
                        timedOut := false }
    let add (t : Dev) (y : Packet) := t.setPackets p (t.packets p ++ [y])
    if s.lineSafe p then add s { x with refused := some 7 }
    else if s.guarded then add s { x with refused := some 4 }
    else if s.fallback p then add s x
    else if s.slotPool p ≤ s.slotsUsed p then
      ((add s x).count48 (adBase p + ADMIT.SLOT_FULL)).raise (Pg.ADMIT (p / 4)) 20
    else ((add s { x with slot := true }).count48 (adBase p + ADMIT.ENTERED)).pendShow p

/-! ### Lookup (R141–R143, R153, R156, R160–R162, R176) -/

/-- A learn request is queued, unless its digest is queued already or the queue is full; the flag says whether it was. -/
def learnQueue (s : Dev) (p : Nat) (key : List Byte) (d : BitVec 40) : Dev × Bool :=
  if s.cls.learns.any (fun l => l.digest == d) then (s, false)
  else if 256 ≤ s.cls.learns.length then ((s.count (Pg.CLS_MISS + CLS_MISS.LEARN_DROP)).raise Pg.CLS_MISS 10, false)
  else ({ s with cls := { s.cls with learns := s.cls.learns ++ [{ key := key, digest := d, port := p, ready := false }] } }, true)

/-- A bucket that the shadow serves at a rate beyond R176: `busy` names the banks at which that rate is reached. -/
def bucketOver (s : Dev) (busy : List (Fin 8)) (b : Nat) : Bool := s.indexOff b && busy.any (fun k => k.val == bankOf b)

/-- Buckets served from the shadow count and read it, one entry in each of four channels (R176, 07 R215). -/
def shadowServed (s : Dev) (d : BitVec 40) (busy : List (Fin 8)) : Dev :=
  [bucketA d, bucketB d].foldl (fun t b =>
    if t.indexOff b && !t.bucketOver busy b then
      (ways b).foldl (fun t i => t.shadowQueue i 5 (.shadowRead i)) (t.count (bankBase (bankOf b) + CLS_BANK.SHADOW_SERVED))
    else t) s

/-- What the reads of the candidate buckets in SRAM find: a single-bit error is corrected and counted, a double-bit error
leaves the bucket to the shadow until its reload (R155). -/
def bucketErrors (s : Dev) (d : BitVec 40) (ecc : List (Fin 2 × Bool)) : Dev :=
  ecc.foldl (fun t q =>
    let b := if q.1 = 0 then bucketA d else bucketB d
    if t.indexOff b then t
    else if q.2 then { t with cls := { t.cls with badBuckets := b / 4 :: t.cls.badBuckets } }
    else t.count (bankBase (bankOf b) + CLS_BANK.ECC_CORR)) s

/-- The result for a digest: the index of a hit in a bucket that is read, else a bank whose shadow rate was exceeded (R153,
R176). -/
def tableLookup (s : Dev) (d : BitVec 40) (busy : List (Fin 8)) : Option Nat × Option Nat :=
  let read := [bucketA d, bucketB d].filter (fun b => !s.bucketOver busy b)
  match (read.flatMap ways).find? (fun i => (s.entry i).valid && (s.entry i).digest == d) with
  | some i => (some i, none)
  | none => (none, ([bucketA d, bucketB d].find? (s.bucketOver busy)).map bankOf)

/-- The window's lookup (R141). -/
def lookupOf (s : Dev) (p : Nat) (window : List Byte) (busy : List (Fin 8)) (ecc : List (Fin 2 × Bool)) : Dev × Lookup :=
  let cfg := s.rd (Pg.CLS + CLS.PORT_KEY + 4 * p)
  let q := parse window (fieldOf cfg 0 2) (s.fld (Pg.CLS + CLS.CLS_CTRL) 16 16)
  let key := buildKey q p cfg
  let d := s.digestOf key
  let miss := Pg.CLS_MISS + 16 * p
  let missCfg := s.rd (miss + CLS_MISS.MISS_CFG)
  let s := s.bucketErrors d ecc
  let r := s.tableLookup d busy
  let t := (s.count48 (Pg.CLS + CLS.LOOKUPS)).count48 (Pg.CLS + (if r.1.isSome then CLS.HITS else CLS.MISSES))
  let t := if q.trunc then t.count (Pg.CLS + CLS.PARSE_TRUNC) else t
  let t := if q.malformed then t.count (Pg.CLS + CLS.PARSE_MALFORMED) else t
  let t := t.shadowServed d busy
  let t := match r.2 with
    | some b => (t.count (bankBase b + CLS_BANK.SHADOW_OVER)).raise (Pg.CLS_BANK (b / 2)) 10
    | none => t
  let host := s.assisted Pg.CLS_MISS
  let base : Lookup :=
    { hit := false, flow := s.fld (miss + CLS_MISS.DEF_FLOW) 0 25, ops := s.profileOps (fieldOf missCfg 0 10),
      defFlow := s.fld (miss + CLS_MISS.DEF_FLOW) 0 25, defOps := s.profileOps (fieldOf missCfg 0 10), missCfg := missCfg,
      puntRate := s.fld (miss + CLS_MISS.PUNT_RATE) 0 16, host := host, parseBad := q.trunc || q.malformed, key := key, digest := d,
      learn := false, overRate := r.2.isSome, order := s.flow.orders }
  let t : Dev := { t with flow := { t.flow with orders := t.flow.orders + 1 } }
  match r.1 with
  | some i =>
    let e := s.entry i
    let t := if e.age == 15 || (s.indexOff i && e.age == 0) then t else t.ageSet i (e.setAge 0)
    (t, { base with hit := true, flow := e.flow, ops := s.profileOps e.profile })
  | none =>
    if r.2.isNone && bitOf missCfg 30 && !(host && bitOf missCfg 31) then
      let l := t.learnQueue p key d
      (l.1, { base with learn := l.2 })
    else (t, base)

/-- A packet that had taken a slot is not admitted after all: it is neither committed nor revoked, and `ENTERED` no longer
counts it, so that R202 holds. -/
def unenter (s : Dev) (p : Nat) (x : Packet) : Dev :=
  if x.slot then (s.setWide 48 (adBase p + ADMIT.ENTERED) (s.wide (adBase p + ADMIT.ENTERED) + 2 ^ 48 - 1)).pendShow p else s

/-- The classifier takes the port's oldest window (R142), or finds its staging full (R450). -/
def classify (s : Dev) (p : Nat) (full : Bool) (busy : List (Fin 8)) (ecc : List (Fin 2 × Bool)) : Dev :=
  let sel (x : Packet) := x.admitted && x.lookup.isNone
  match (s.packets p).find? sel with
  | none => s
  | some x =>
    if full then
      let l := if x.last.isSome then dropFirst sel (s.packets p)
        else modFirst sel (fun y => { y with refused := some 5, slot := false }) (s.packets p)
      let t := (s.setPackets p l).unenter p x
      if x.last.isSome then t.drop p 5 x.len else t
    else
      let r := s.lookupOf p x.window busy ecc
      let away := if r.1.resident r.2.flow then [] else [r.2.flow]
      away.foldl fillBegin (r.1.setPackets p (modFirst sel (fun y => { y with lookup := some r.2, fetched := away }) (s.packets p)))

/-! ### The decision (R186–R190, R200, R226) -/

/-- A decision that takes nothing and writes nothing. -/
def noDecision : Decision :=
  { flow := 0, aliased := false, hitFlow := 0, mode := 0, takenC := 0, takenE := 0, colour := 0, cls := 0, queue := 0,
    recNo := none, drop := none, countFlow := false, groups := [], copy := none, dflt := false, unread := false, pinned := false }

/-- A record held in a channel whose content is being relocated (R187, R236). -/
def relocating (s : Dev) (f : Nat) : Bool := (s.stack4 (f % 64 / 16)).relocating.contains (f % 64)

/-- The flow cache is asked for a record: a hit or a miss. -/
def fetch (s : Dev) (f : Nat) : Dev × Bool :=
  let t := s.count48 (Pg.FLOW + (if s.resident f then FLOW.CACHE_HITS else FLOW.CACHE_MISSES))
  t.cacheUse f

/-- The key of a flow's record is the packet's (R186). -/
def keyMatches (s : Dev) (f : Nat) (key : List Byte) : Bool :=
  match s.cacheLine f with
  | some l => l.kvalid && l.finger == fingerOf key
  | none => let k := s.keyRec f; k.valid && k.key == key

/-- A packet's decision waits for its record alone: it is no store-and-forward packet whose verdict is awaited. -/
def awaitsRecord (s : Dev) (p : Nat) (x : Packet) : Bool :=
  x.admitted && x.decided.isNone && x.cause.isNone
    && (x.slot || (x.last.isSome && (s.packets p).find? Packet.admitted == some x))

/-- A decision on a record is held back: while a fill of it is in progress, and while a packet whose action record came
earlier, on any port, still awaits its own (R188). A store-and-forward packet takes its place once its verdict is known
(R204; log entry 75). -/
def heldBack (s : Dev) (order f : Nat) : Bool :=
  s.filling f || (List.range 16).any (fun p => (s.packets p).any (fun y =>
    s.awaitsRecord p y && y.wants f && y.lookup.any (fun l => decide (l.order < order))))

/-- Meter, drop policy and record of a packet under a flow and its operations. -/
def decideFlow (s : Dev) (p : Nat) (x : Packet) (l : Lookup) (aliased : Bool) : Dev × Decision :=
  let dflt := !l.hit || aliased
  let f := if dflt then l.defFlow else l.flow
  let a := evalOps (if dflt then l.defOps else l.ops) Action.init
  let r := refill a.mode s.now40 (s.flowRec f)
  let c0 := if a.aware || a.mode == 0 then a.colour else 0
  let m := meter a.mode c0 (r.get Rec.TC) (r.get Rec.TE) (x.len * 2 ^ 16)
  let r := (r.set Rec.TC (r.get Rec.TC - m.2.1)).set Rec.TE (r.get Rec.TE - m.2.2)
  let t := if a.mode = 0 then s else s.setFlowRec f r
  let q := 8 * p + a.cls
  let adm := t.admission q (storedSize x.len) m.1 (a.drops.any (fun c => condHolds c m.1))
  let b (i : Nat) (c : Bool) := if c then 2 ^ i else 0
  let flags := b 0 dflt + b 1 aliased + b 2 (!x.slot) + b 3 l.parseBad
  let mark := a.mark.map (fun k => (k.1, condHolds k.2 m.1))
  let row : BufRec :=
    { num := 0, port := p, len := x.len, cls := a.cls, colour := m.1, flags := flags, flow := f, umeta := a.umeta,
      time := BitVec.ofNat 40 x.rxTime.toNat, void := false, gone := false, mark := mark, committed := false, toWrite := 0,
      start := 0, pages := [], added := 0, bytes := x.bytes }
  let w : Dev × Option Nat := match adm.2 with
    | none => let w := adm.1.writeRec q row; (w.1, some w.2)
    | some _ => (adm.1, none)
  (w.1, { flow := f, aliased := aliased, hitFlow := l.flow, mode := a.mode, takenC := m.2.1, takenE := m.2.2, colour := m.1,
          cls := a.cls, queue := q, recNo := w.2, drop := adm.2, countFlow := a.flow, groups := a.groups, copy := a.copy,
          dflt := dflt, unread := false, pinned := false })

/-- The lookup hit, and the key of the record is another: the packet is an alias (R186). -/
def isAlias (s : Dev) (l : Lookup) : Bool := l.hit && !s.keyMatches l.flow l.key

/-- The flows whose records a decision needs: that of the lookup, and for an alias its port's default. -/
def flowsOf (s : Dev) (l : Lookup) : List Nat := if s.isAlias l then [l.flow, l.defFlow] else [l.flow]

/-- A record the decision needs could not be read, or lies in a channel being relocated (R187). -/
def unreadable (s : Dev) (x : Packet) (l : Lookup) : Bool := x.unread || (s.flowsOf l).any s.relocating

/-- A packet's decision. -/
def decidePacket (s : Dev) (p : Nat) (x : Packet) (l : Lookup) : Dev × Decision :=
  if s.unreadable x l then
    ((s.count (Pg.FLOW + FLOW.KEY_UNREAD)).raise Pg.FLOW 10, { noDecision with unread := true })
  else
    let aliased := s.isAlias l
    let a := s.fetch l.flow
    let b := if a.2 && aliased then a.1.fetch l.defFlow else a
    if b.2 then b.1.decideFlow p x l aliased else (b.1.cacheTrim l.flow, { noDecision with pinned := true })

/-! ### Punts (R164) -/

/-- A punt record (Misses). -/
def puntBytes (type p : Nat) (l : Lookup) (reason : Nat) (x : Packet) : List Byte :=
  let head := bytesLE 4 (type * 2 ^ 28 + p * 2 ^ 24 + l.key.length * 2 ^ 16 + reason * 2 ^ 8) ++ bytesLE 4 l.digest.toNat
    ++ bytesLE 4 (l.digest.toNat / 2 ^ 32) ++ bytesLE 4 (if type = 3 then x.window.length else 0) ++ slice l.key 0 48
  if type = 3 then head ++ slice x.window 0 192 else head

/-- A record goes to the punt ring, or is lost to a full one (R21). -/
def puntPlace (s : Dev) (bytes : List Byte) : Dev :=
  let t := s.place 0 bytes 0
  if t.2 then t.1.count (Pg.CLS_MISS + CLS_MISS.PUNTS) else t.1.count (Pg.CLS_MISS + CLS_MISS.PUNT_RING_FULL)

/-- A punt of a miss or an alias passes its filters. -/
def punt (s : Dev) (p : Nat) (l : Lookup) (aliased : Bool) (x : Packet) : Dev :=
  let a := Pg.CLS_MISS
  let hold := s.fld (a + CLS_MISS.PUNT_HOLD) 0 8
  if s.cls.punted.any (fun e => e.1 == l.digest && decide (s.mono < e.2 + hold * 1000000)) then s.count (a + CLS_MISS.PUNT_DUP)
  else
    let u := Sparse.get (fun _ => (0, 0)) s.cls.puntBucket p
    let used := u.1 - l.puntRate * (s.mono - u.2)
    if l.puntRate = 0 ∨ 63000000 < used then (s.count (a + CLS_MISS.PUNT_LIMITED)).raise a 9
    else
      let t := { s with cls := { s.cls with
          puntBucket := Sparse.put (fun _ => (0, 0)) s.cls.puntBucket p (used + 1000000, s.mono)
          punted := ((l.digest, s.mono) :: s.cls.punted).take 1024 } }
      t.puntPlace (puntBytes (if aliased then 2 else 1) p l 0 x)

/-- What a committed packet releases to the host. -/
def puntCommit (s : Dev) (p : Nat) (x : Packet) (l : Lookup) (c : Decision) : Dev :=
  let t := match c.copy with
    | some reason => s.puntPlace (puntBytes 3 p l reason x)
    | none => s
  if c.dflt && l.host && bitOf l.missCfg 31 && !l.overRate then t.punt p l c.aliased x else t

/-! ### Commit and revocation (R157, R197–R199) -/

/-- A learn request's fate: ready at commit, discarded at revocation (R162). -/
def learnCommit (s : Dev) (l : Lookup) : Dev :=
  if l.learn then
    { s with cls := { s.cls with learns := s.cls.learns.map (fun r => if r.digest == l.digest then { r with ready := true } else r) } }
  else s

def learnRevoke (s : Dev) (l : Lookup) : Dev :=
  if l.learn then
    ({ s with cls := { s.cls with learns := s.cls.learns.filter (fun r => r.digest != l.digest) } }).count
      (Pg.CLS_MISS + CLS_MISS.LEARN_REVOKED)
  else s

/-- A record after the commit of a packet. -/
def recCommitted (now len : Nat) (c : Decision) (r : Rec) : Rec :=
  let r := if r.get Rec.STATE = 2 then r else (r.set Rec.FIRST_SEEN now).set Rec.LAST_EXPORT now
  let r := r.set Rec.STATE 2
  let r := if c.countFlow then
      ((r.set Rec.PKTS (r.get Rec.PKTS + 1)).set Rec.BYTES (r.get Rec.BYTES + len)).set Rec.LAST_SEEN now
    else r
  let r := if c.colour = 2 then r.set Rec.RED_SEEN 1 else r
  if c.drop.isSome then r.set Rec.DROPS (min 0xFFFF (r.get Rec.DROPS + 1)) else r

/-- Group counters of a packet. -/
def groupCount (s : Dev) (len : Nat) (gs : List Nat) : Dev :=
  gs.foldl (fun t g =>
    let a := Pg.CLS_PROF + CLS_PROF.GROUP + 16 * g
    (t.count48 a).count64 (a + 8) len) s

/-- All effects of a packet's commit, apart from the counter of how it was admitted. -/
def commitEffects (s : Dev) (p : Nat) (x : Packet) (l : Lookup) (c : Decision) : Dev :=
  let t := s.setFlowRec c.flow (recCommitted s.coarse x.len c (s.flowRec c.flow))
  let t := t.groupCount x.len c.groups
  let t := if c.aliased then
      (t.setFlowRec c.hitFlow ((t.flowRec c.hitFlow).set Rec.ALIAS_SEEN 1)).count48 (Pg.FLOW + FLOW.ALIASES)
    else t
  let t := match c.recNo with
    | some num =>
      let q : Queue := t.queue c.queue
      let mark (r : BufRec) : BufRec := if r.num == num then { r with committed := true, bytes := x.bytes } else r
      let t := t.setQueue c.queue { q with recs := q.recs.map mark }
      (t.queueShow c.queue).count48 (qBase c.queue + QUEUE.ENQ_PKTS)
    | none => t
  let t := match c.drop with
    | some reason => t.drop p reason x.len
    | none => t
  ((t.learnCommit l).puntCommit p x l c)

/-- Bad packets that the fallback of a lane counts (06, Fallback on a lane). -/
def fbBad (s : Dev) (n : Nat) : Dev :=
  let a := adBase n + ADMIT.FB_WIN
  s.setF a 0 16 (min 0xFFFF (s.fld a 0 16 + 1))

/-- The counts a bad verdict leaves on lanes: `LANE_FEC_BAD` and the windows of the fallback. -/
def badCounts (s : Dev) (p cause : Nat) (x : Packet) : Dev :=
  if cause = 0 then
    (match x.last with | some l => l.badLanes | none => []).foldl (fun t n => (t.count (adBase n + ADMIT.LANE_FEC_BAD)).fbBad n) s
  else if cause ≤ 3 then s.fbBad p else s

/-- What a decided packet had taken goes back: tokens under R192, buffer space under R224. -/
def giveBack (s : Dev) (c : Decision) : Dev :=
  if c.unread || c.pinned then s
  else
    let r := refund c.mode c.takenC c.takenE (s.flowRec c.flow)
    let t := if c.mode = 0 then s else s.setFlowRec c.flow r.1
    let t := if c.mode ≠ 0 ∧ r.2 = true then t.count (Pg.FLOW + FLOW.REFUND_SPILL) else t
    match c.recNo with
    | some num => t.freeRec c.queue num
    | none => t

/-- The cache gives up what only this packet had pinned. -/
def unpin (s : Dev) (x : Packet) : Dev :=
  match x.decided with
  | some c => if c.unread || c.pinned then s else (s.cacheTrim c.flow).cacheTrim c.hitFlow
  | none => s

/-- The oldest admitted packet of a port leaves it. -/
def retireHead (s : Dev) (p : Nat) (x : Packet) : Dev :=
  let t := s.setPackets p (dropFirst Packet.admitted (s.packets p))
  (if x.slot then t.pendShow p else t).unpin x

/-- The oldest admitted packet of a port is revoked, or rejected when it was store-and-forward (R199, R204). -/
def revokeHead (s : Dev) (p : Nat) (x : Packet) (cause : Nat) : Dev :=
  let t := match x.decided with
    | some c => s.giveBack c
    | none => s
  let t := match x.lookup with
    | some l => t.learnRevoke l
    | none => t
  let t := t.badCounts p cause x
  let t := t.count48 (if x.slot then adBase p + ADMIT.REV_FEC + 8 * cause else adBase p + ADMIT.SF_REJECTED)
  t.retireHead p x

/-- The oldest admitted packet is revoked when its verdict is bad and its lookup has run (R141, R197). -/
def tryRevoke (s : Dev) (p : Nat) : Dev :=
  match (s.packets p).find? Packet.admitted with
  | none => s
  | some x =>
    match x.cause, x.lookup with
    | some c, some _ => s.revokeHead p x c
    | _, _ => s

/-- The oldest admitted packet is committed when it is decided and its verdict good (R196, R197). -/
def tryCommit (s : Dev) (p : Nat) : Dev :=
  match (s.packets p).find? Packet.admitted with
  | none => s
  | some x =>
    match x.last, x.cause, x.lookup, x.decided with
    | some _, none, some l, some c =>
      ((s.retireHead p x).commitEffects p x l c).count48 (if x.slot then adBase p + ADMIT.COMMITTED else adBase p + ADMIT.SF_ADMITTED)
    | _, _, _, _ => s

/-- The decision may fall: a store-and-forward packet's only once its verdict is good and it is the port's oldest (R204),
and none while it is held back (R188). -/
def mayDecide (s : Dev) (p : Nat) (x : Packet) : Bool :=
  s.awaitsRecord p x && x.lookup.any (fun l => !(l.flow :: x.fetched).any (s.heldBack l.order))

/-- The next meter decision of a port, or the fill it still needs: its record has left the cache since the lookup, or it
is an alias and its port's default record is not resident. A store-and-forward packet is committed or rejected with its
decision (R204). -/
def meterNext (s : Dev) (p : Nat) : Dev :=
  let sel (x : Packet) := s.mayDecide p x
  match (s.packets p).find? sel with
  | none => s
  | some x =>
    match x.lookup with
    | none => s
    | some l =>
      match (if s.unreadable x l then [] else s.flowsOf l).find? (fun f => !s.resident f && !x.fetched.contains f) with
      | some f => (s.setPackets p (modFirst sel (fun y => { y with fetched := f :: y.fetched }) (s.packets p))).fillBegin f
      | none =>
        let r := s.decidePacket p x l
        let t := r.1.setPackets p (modFirst sel (fun y => { y with decided := some r.2 }) (s.packets p))
        if x.slot then t else if r.2.unread || r.2.pinned then t.tryRevoke p else t.tryCommit p

/-- The last byte of the oldest packet still arriving leaves the line PCS, its FCS being checked over the frame (R195). -/
def lastByte (s : Dev) (p : Nat) (rest : List Byte) (badLanes : List Lane) (pcs : Bool) : Dev :=
  let sel (x : Packet) := x.last.isNone
  match (s.packets p).find? sel with
  | none => s
  | some x =>
    match x.refused with
    | some reason =>
      (s.setPackets p (dropFirst sel (s.packets p))).drop p reason x.len
    | none =>
      let end_ (y : Packet) : Packet :=
        { y with rest := rest, last := some { badLanes := badLanes, pcs := pcs, fcs := fcsBad (y.window ++ rest) } }
      let t := s.setPackets p (modFirst sel end_ (s.packets p))
      if x.slot then t else if ((t.packets p).find? Packet.admitted).any (fun y => !y.slot) then t.tryRevoke p else t

/-- 360 ns after its last byte a packet is still undecided (R196, R204). -/
def timeOut (s : Dev) (p : Nat) : Dev :=
  let sel (x : Packet) := x.admitted && x.last.isSome && x.decided.isNone && x.cause.isNone
  if (s.packets p).any sel then
    (s.setPackets p (modFirst sel (fun y => { y with timedOut := true }) (s.packets p))).tryRevoke p
  else s

/-- Packets of a port still arriving are ended by the test of one of its lanes, each counted as IN_TEST (18, R469). -/
def endInTest (s : Dev) (p : Nat) : Dev :=
  let l := (s.packets p).filter (fun x => x.last.isNone)
  let t := s.setPackets p ((s.packets p).filter (fun x => x.last.isSome))
  l.foldl (fun t x =>
    let t := t.unenter p x
    let t := match x.decided with | some c => t.giveBack c | none => t
    let t := match x.lookup with | some k => t.learnRevoke k | none => t
    (t.unpin x).drop p (x.refused.getD 6) x.len) t

/-! ### Fallback (R205–R207) -/

/-- A lane enters or leaves fallback; a port that does so reports it on its lanes (R205, 10, R310). -/
def fbTurn (s : Dev) (n : Nat) (on : Bool) : Dev :=
  let p := s.linePort n
  let in_ (t : Dev) := (t.lpLanes p).any (fun i => t.fbBit i 0)
  let t := s.setFb n 0 on
  if in_ s = in_ t then t else t.ltPortFault p 6 on

/-- A lane's fallback window ends. -/
def fbWindow (s : Dev) (n : Nat) : Dev :=
  let pg := Pg.ADMIT (n / 4)
  let a := adBase n + ADMIT.FB_WIN
  let enter := s.fld (pg + ADMIT.FB_ENTER) 0 16
  let exit := s.fld (pg + ADMIT.FB_EXIT) 0 16
  let hold := s.fld (pg + ADMIT.FB_HOLD) 0 8
  let bad := s.fld a 0 16
  let q := n % 4
  let host := s.assisted pg
  if s.fld (pg + ADMIT.FB_WINDOW) 0 16 = 0 then s
  else if !s.fbBit n 0 then
    let t := s.wr a 0
    if enter = 0 ∨ bad < enter then t
    else if host then (t.setFb n 2 true).raise pg (16 + q)
    else
      (((t.fbTurn n true).count (adBase n + ADMIT.FB_EVENTS)).raise pg (8 + q)).logFault 16 (islandOf (0x072 + n / 4))
        (some (s.linePort n)) false n 0
  else
    let good := if bad < exit then min 0xFFFF (s.fld a 16 16 + 1) else 0
    let t := s.wr a (BitVec.ofNat 32 (good * 2 ^ 16))
    if exit = 0 ∨ good < hold then t
    else if host then (t.setFb n 2 true).raise pg (16 + q)
    else if t.fbBit n 1 then t
    else ((t.fbTurn n false).wr a 0).raise pg (12 + q)

/-- `FB_CMD.ENTER` and `EXIT` of a lane (R206, R207). -/
def fbEnter (s : Dev) (n : Nat) : Dev :=
  let t := if s.fbBit n 0 then s else (s.count (adBase n + ADMIT.FB_EVENTS)).setF (adBase n + ADMIT.FB_WIN) 16 16 0
  ((t.fbTurn n true).setFb n 1 true).setFb n 2 false

def fbExit (s : Dev) (n : Nat) : Dev :=
  (((s.fbTurn n false).setFb n 1 false).setFb n 2 false).setF (adBase n + ADMIT.FB_WIN) 16 16 0

/-- `SNAP_CMD.SNAP` (R202). -/
def snap (s : Dev) (sl : Nat) : Dev :=
  (List.range 128).foldl (fun t i => t.wr (Pg.ADMIT sl + 0x500 + 4 * i) (s.rd (Pg.ADMIT sl + 0x100 + 4 * i))) s

end Dev

/-- HEADER_WINDOW_COMPLETE (R10, R193, R219, R268). -/
def execHeaderWindowComplete (p : Lane) (window : List Byte) (len : Nat) (rxTime : BitVec 80) (s : State) : Out :=
  s.run (fun d => d.headerWindow p window len rxTime)

/-- CLASSIFIER_LOOKUP (R141). -/
def execClassifierLookup (p : Lane) (full : Bool) (busy : List (Fin 8)) (ecc : List (Fin 2 × Bool)) (s : State) : Out :=
  s.run (fun d => d.classify p full busy ecc)

/-- METER_DECISION (R186–R190, R226). -/
def execMeterDecision (p : Lane) (s : State) : Out := s.run (fun d => d.meterNext p)

/-- PACKET_LAST_BYTE: what follows the header window, the codewords that touch the packet and its invalid 66-bit blocks
beside those of uncorrectable codewords (R127, R129, R130, R195, R204, R242). -/
def execPacketLastByte (p : Lane) (rest : List Byte) (spans : List CwSpan) (invalid : Nat) (s : State) : Out :=
  s.run (fun d =>
    let bad := d.badLanes spans
    (d.count (Pg.LFEC p + LFEC.BLK_ERR) invalid).lastByte p rest bad (decide (invalid ≠ 0) || !bad.isEmpty))

/-- PACKET_COMMIT (R197, R198). -/
def execPacketCommit (p : Lane) (s : State) : Out := s.run (fun d => d.tryCommit p)

/-- PACKET_REVOKE (R196, R197, R199). -/
def execPacketRevoke (p : Lane) (s : State) : Out := s.run (fun d => d.tryRevoke p)

/-- VERDICT_TIMEOUT (R196). -/
def execVerdictTimeout (p : Lane) (s : State) : Out := s.run (fun d => d.timeOut p)

/-- FB_WINDOW_END (R205, R206). -/
def execFbWindowEnd (n : Lane) (s : State) : Out := s.run (fun d => d.fbWindow n)

/-- FB_CMD_ENTER (R207). -/
def execFbCmdEnter (m : Master) (n : Lane) (s : State) : Out :=
  s.run (fun d => d.access m (Pg.ADMIT (n.val / 4) + ADMIT.FB_CMD) (fun t => t.fbEnter n))

/-- FB_CMD_EXIT (R207). -/
def execFbCmdExit (m : Master) (n : Lane) (s : State) : Out :=
  s.run (fun d => d.access m (Pg.ADMIT (n.val / 4) + ADMIT.FB_CMD) (fun t => t.fbExit n))

/-- ADMIT_SNAP (R202). -/
def execAdmitSnap (m : Master) (sl : Slice) (s : State) : Out :=
  s.run (fun d => d.access m (Pg.ADMIT sl + ADMIT.SNAP_CMD) (fun t => t.snap sl))

end Sys2Proof.Machine
end

