-- ==== Sys2Proof/Machine/Scheduler.lean ====
section
/-! DEFINITION. Dequeue: deficit round robin, the selection of the next packet, its way to the host and PFC from the NPU
(07, R229–R233; 08, R255–R257). -/

namespace Sys2Proof.Machine

/-! ### Deficit round robin (R230) -/

/-- The procedure of R230 over members 0 to n − 1 up to its next send: the member served, and the loop after it. `len` is
the length a member would send now, `has` whether it has an eligible packet, paused or not. -/
def Dwrr.run (n : Nat) (len : Nat → Option Nat) (has : Nat → Bool) (quantum : Nat → Nat) : Nat → Dwrr → Option (Nat × Dwrr)
  | 0, _ => none
  | fuel + 1, x =>
    let m := x.pos
    let held := Sparse.get (fun _ => 0) x.deficit m
    let next := (m + 1) % n
    match len m with
    | none =>
      let d := if has m then x.deficit else Sparse.put (fun _ => 0) x.deficit m 0
      Dwrr.run n len has quantum fuel ⟨d, next, false⟩
    | some l =>
      let held := if x.turn then held else held + quantum m
      if l ≤ held then some (m, ⟨Sparse.put (fun _ => 0) x.deficit m (held - l), m, true⟩)
      else Dwrr.run n len has quantum fuel ⟨Sparse.put (fun _ => 0) x.deficit m held, next, false⟩

/-- The member that sends next. The loop does not advance while no member can send; no packet needs more than 63 quanta. -/
def Dwrr.pick (n : Nat) (len : Nat → Option Nat) (has : Nat → Bool) (quantum : Nat → Nat) (x : Dwrr) : Option (Nat × Dwrr) :=
  if (List.range n).all (fun m => (len m).isNone) then none else Dwrr.run n len has quantum (65 * n) x

/-- After a send the member's turn goes on while its next packet fits its deficit; else the loop stands at the next
member. -/
def Dwrr.close (n : Nat) (len : Nat → Option Nat) (x : Dwrr) : Dwrr :=
  match len x.pos with
  | some l => if l ≤ Sparse.get (fun _ => 0) x.deficit x.pos then x else { x with pos := (x.pos + 1) % n, turn := false }
  | none => { x with pos := (x.pos + 1) % n, turn := false }

/-- Block of a host port on `SCHED`. -/
abbrev schBase (h : Nat) : Nat := Pg.SCHED + 0x40 * h

namespace Dev

/-! ### Selection (R229, R230) -/

/-- Line ports whose queues a host port serves. -/
def servedPorts (s : Dev) (h : Nat) : List Nat :=
  ((List.range 4).map (h / 4 * 4 + ·)).filter (fun p => s.lpOn p && s.mapPort p == h)

/-- The packet a queue would send: its head record when committed and written (R223). -/
def headRec (s : Dev) (q : Nat) : Option BufRec :=
  match (s.queue q).recs with
  | r :: _ => if r.committed && r.toWrite == 0 && !s.passed r then some r else none
  | [] => none

/-- Quanta of the two levels. -/
def lpQuantum (s : Dev) (p : Nat) : Nat := 256 * s.fld (Pg.SCHED + SCHED.LP_WEIGHT + 4 * (p / 4)) (8 * (p % 4)) 8
def clsQuantum (s : Dev) (h c : Nat) : Nat := 256 * s.fld (schBase h + SCHED.CLASS_WEIGHT_LO + 4 * (c / 4)) (8 * (c % 4)) 8

/-- Length a line port's queue of a class has to send; a queue of quantum 0 counts as empty. -/
def lpLen (s : Dev) (h c p : Nat) : Option Nat :=
  if !(s.servedPorts h).contains p || s.lpQuantum p == 0 then none else (s.headRec (8 * p + c)).map (fun r => r.len + 16)

/-- The line port a class of a host port would serve next, and the line-port level after it. -/
def lpNext (s : Dev) (h c : Nat) : Option (Nat × Dwrr) :=
  let len := s.lpLen h c
  Dwrr.pick 16 len (fun p => (len p).isSome) s.lpQuantum (Sparse.get (fun _ => Dwrr.init) (s.sched h).lp c)

/-- Length of the packet a class would send next. -/
def clsLen (s : Dev) (h c : Nat) : Option Nat := (s.lpNext h c).bind (fun x => s.lpLen h c x.1)

/-- Classes paused on a host port (R231). -/
def pausedClasses (s : Dev) (h : Nat) : Nat :=
  (s.sched h).pfc.foldl (fun a p => a ||| s.fld (schBase h + SCHED.PFC_MAP_LO + 4 * (p / 4)) (8 * (p % 4)) 8) 0

/-- A class has strict priority. -/
def strict (s : Dev) (h c : Nat) : Bool := s.bit (schBase h + SCHED.SP_CTRL) c

/-- Length a class has for DWRR: strict, paused and unweighted classes do not send. -/
def dwrrLen (s : Dev) (h c : Nat) : Option Nat :=
  if s.strict h c || (s.pausedClasses h).testBit c || s.clsQuantum h c == 0 then none else s.clsLen h c

/-- The class served next, and the class level after it. -/
def clsNext (s : Dev) (h : Nat) : Option (Nat × Dwrr) :=
  let open_ (c : Nat) : Bool := s.strict h c && !(s.pausedClasses h).testBit c && (s.clsLen h c).isSome
  match (List.range 8).reverse.find? open_ with
  | some c => some (c, (s.sched h).cls)
  | none => Dwrr.pick 8 (s.dwrrLen h) (fun c => !s.strict h c && (s.clsLen h c).isSome) (s.clsQuantum h) (s.sched h).cls

/-- The next packet of a host port is selected: it leaves its queue, its record is read, and the loop goes on from it over
the heads that then stand (R217, R225, R230). -/
def select (s : Dev) (h : Nat) : Dev :=
  let heads (t : Dev) : Dev := (t.servedPorts h).foldl (fun t p => (List.range 8).foldl (fun t c => t.passHeads (8 * p + c)) t) t
  if !s.hostUp h then s
  else
    let s := heads s
    match s.clsNext h with
    | none => s
    | some (c, cls) =>
      match s.lpNext h c with
      | none => s
      | some (p, lp) =>
        match s.headRec (8 * p + c) with
        | none => s
        | some r =>
          let t := heads (((s.removeRec (8 * p + c) r.num).queueShow (8 * p + c)).bufShow)
          let ops := recOps r
          let t := ops.foldl (fun t o => t.pageQueue o.1 2 (.packetRead h r.num) o.2.1 o.2.2) t
          let x := t.sched h
          let lp := Dwrr.close 16 (t.lpLen h c) lp
          let t := t.setSched h { x with lp := Sparse.put (fun _ => Dwrr.init) x.lp c lp, txq := x.txq ++ [(r, ops.length)] }
          if s.strict h c then t
          else let x := t.sched h; t.setSched h { x with cls := Dwrr.close 8 (t.dwrrLen h) cls }

/-! ### Transmission (R255, R257) -/

/-- The Ingress Tag that a record's header gives: its fields, then the CRC-16 over them. -/
def ingressTag (header : Nat) (marked : Bool) : List Byte :=
  let f (lo w : Nat) : Nat := header / 2 ^ lo % 2 ^ w
  let flags := f 23 5 + (if marked then 16 else 0)
  let top := 2 ^ 124 + f 14 4 * 2 ^ 120 + f 18 3 * 2 ^ 117 + f 21 2 * 2 ^ 115 + flags % 32 * 2 ^ 110
    + f 28 25 * 2 ^ 85 + f 53 24 * 2 ^ 61 + f 77 40 * 2 ^ 21
  let body := bytesBE 14 (top / 2 ^ 16)
  body ++ bytesBE 2 (crc16 body)

/-- The frame toward the NPU: the tag, the packet without its FCS, `MARK` applied where it holds, and the FCS over both
(R157, R255). -/
def hostFrameOf (r : BufRec) : List Byte :=
  let body := r.bytes.take (r.len - 4)
  let w := match r.mark with
    | some (dscp, true) => markDscp body dscp
    | _ => (body, false)
  let frame := ingressTag (packetHeader r) w.2 ++ w.1
  frame ++ fcsBytes frame

/-- The first packet selected leaves when all of its record has been read. -/
def hostTx (s : Dev) (h : Nat) : Dev :=
  let x := s.sched h
  match x.txq with
  | (r, 0) :: rest =>
    if !s.hostUp h then s
    else
      let q := qBase (8 * r.port + r.cls) + QUEUE.DEQ_PKTS
      let t := (s.setSched h { x with txq := rest }).emit (.hostFrame h (hostFrameOf r))
      let t := (t.count48 q).count64 (q + 8) r.len
      let t := (t.count48 (schBase h + SCHED.TX_PKTS)).count64 (schBase h + SCHED.TX_BYTES) (r.len + 16)
      (t.count48 (Pg.HOST h + HOST.TX_FRAMES)).count64 (Pg.HOST h + HOST.TX_BYTES) (r.len + 16)
  | _ => s

/-! ### MAC control from the NPU (R231, R233) -/

/-- `PFC_STATUS` of a host port. -/
def pfcShow (s : Dev) (h : Nat) : Dev := s.setF (schBase h + SCHED.PFC_STATUS) 0 8 (s.pausedClasses h)

/-- A priority of a host port is paused, or no longer. -/
def pfcSet (s : Dev) (h prio : Nat) (on : Bool) : Dev :=
  let x := s.sched h
  let l := x.pfc.filter (· != prio)
  s.setSched h { x with pfc := if on then l ++ [prio] else l }

/-- A MAC control frame that arrives on a host port (R233, R256, R259). -/
def hostControl (s : Dev) (h : Nat) (f : MacControl) : Dev :=
  let a := schBase h
  if s.hostSafe h then s.count48 (Pg.DROP + DROP.EG_PORT_DOWN + 0x10 * (h / 4))
  else if !f.pcsOk then s
  else if !f.fcsOk then (s.count (Pg.HOST h + HOST.FCS_ERRS)).raise (Pg.HOST h) 13
  else if f.etherType == 0x8808 && f.opcode == 0x0101 then
    let t := s.count (a + SCHED.PFC_RX)
    if t.bit (a + SCHED.SP_CTRL) 16 then
      ((List.range 8).foldl (fun t p => if f.enables.getLsbD p then t.pfcSet h p (f.times.getD p 0 != 0) else t) t).pfcShow h
    else t.count (a + SCHED.PAUSE_IGNORED)
  else s.count (a + SCHED.PAUSE_IGNORED)

/-- Host RS codewords count in the page of the port's first lane (R248). -/
def hostCodewords (s : Dev) (n : Nat) (fec : HostFec) : Dev :=
  let a := Pg.HOST (s.hostPort n)
  (s.count (a + HOST.RS_CORR) fec.corrected).count (a + HOST.RS_UNC) fec.uncorrectable

/-- A MAC control frame on a lane in UP: its destination tells it (R256). -/
def hostMac (s : Dev) (n : Nat) (f : MacControl) : Dev :=
  if s.hostState n = 2 ∧ f.da = 0x0180C2000001 then s.hostControl (s.hostPort n) f else s

/-- The MAC control frame that received bytes are, FCS last. -/
def macFrame (l : List Byte) (pcsOk : Bool) : MacControl :=
  let opcode := BitVec.ofNat 16 (natBE (slice l 14 2))
  let times := if opcode = 0x0101 then (List.range 8).map (fun i => BitVec.ofNat 16 (natBE (slice l (18 + 2 * i) 2)))
    else [BitVec.ofNat 16 (natBE (slice l 16 2))]
  { da := BitVec.ofNat 48 (natBE (l.take 6)), etherType := BitVec.ofNat 16 (natBE (slice l 12 2)), opcode := opcode,
    enables := l.getD 17 0, times := times, fcsOk := !fcsBad l, pcsOk := pcsOk }

end Dev

/-- SCHEDULER_SELECT (R229, R230). -/
def execSchedulerSelect (h : Lane) (s : State) : Out := s.run (fun d => d.select (d.hostPort h))

/-- HOST_FRAME_TX (R255). -/
def execHostFrameTx (h : Lane) (s : State) : Out := s.run (fun d => d.hostTx (d.hostPort h))

/-- HOST_MAC_CONTROL_FRAME, on a lane in UP (R233, R256). -/
def execHostMacControlFrame (h : Lane) (f : MacControl) (fec : HostFec) (s : State) : Out :=
  s.run (fun d => (d.hostCodewords h fec).hostMac h f)

/-- HOST_PFC_EXPIRY (R231). -/
def execHostPfcExpiry (h : Lane) (prio : Fin 8) (s : State) : Out :=
  s.run (fun d => let p := d.hostPort h; if (d.sched p).pfc.contains prio.val then (d.pfcSet p prio false).pfcShow p else d)

end Sys2Proof.Machine
end

