-- ==== Sys2Proof/Machine/Sequencer.lean ====
section
/-! DEFINITION. The sequencers: their instructions, events, traps and restarts (12). An instruction's row is that
instruction executed by a running sequencer. -/

namespace Sys2Proof.Machine

/-- The master a sequencer is. -/
def seqMaster (k : Nat) : Master :=
  if h : k < 8 then .loopSeq ⟨k, h⟩ else .laneSeq ⟨(k - 8) % 16, by omega⟩

namespace Dev

def sq (s : Dev) (k : Nat) : Seq := Sparse.get (fun _ => Seq.init) s.seq k
def setSq (s : Dev) (k : Nat) (v : Seq) : Dev := { s with seq := Sparse.put (fun _ => Seq.init) s.seq k v }

abbrev seqReg (k : Nat) : Nat := Pg.LSEQ k + LSEQ.SEQ_STATE
def seqPc (s : Dev) (k : Nat) : Nat := s.fld (seqReg k) 16 11
def setPc (s : Dev) (k pc : Nat) : Dev := s.setF (seqReg k) 16 11 pc
/-- The next instruction address. -/
def pcNext (s : Dev) (k : Nat) : Dev := s.setPc k (s.seqPc k + 1)

def xreg (s : Dev) (k i : Nat) : BitVec 40 := Sparse.get (fun _ => 0) (s.sq k).xr i
def setX (s : Dev) (k i : Nat) (v : BitVec 40) : Dev :=
  s.setSq k { s.sq k with xr := Sparse.put (fun _ => 0) (s.sq k).xr i v }
def dword (s : Dev) (k i : Nat) : BitVec 40 := Sparse.get (fun _ => 0) (s.sq k).dmem i
def setD (s : Dev) (k i : Nat) (v : BitVec 40) : Dev :=
  s.setSq k { s.sq k with dmem := Sparse.put (fun _ => 0) (s.sq k).dmem i v }

/-- Several data words written from an address. -/
def setDs (s : Dev) (k i : Nat) : List (BitVec 40) → Dev
  | [] => s
  | w :: r => (s.setD k i w).setDs k (i + 1) r

/-- A change of state as `SEQ_STATE` shows it. -/
def markSeq (s : Dev) (k st : Nat) : Dev := (s.setF (seqReg k) 4 4 (s.seqState k)).setF (seqReg k) 0 4 st

/-- An image starts to be written into a sequencer (R349, R353). -/
def loadBegin (s : Dev) (k : Nat) (image : List Byte) : Dev :=
  (s.setSq k { s.sq k with load := some image }).markSeq k 5

/-- The vendor loop program takes over a sequencer that does not run, when the controller holds one (R354). -/
def vendorTakes (s : Dev) (k : Nat) : Dev :=
  match s.sec.loopProg with
  | some p => s.loadBegin k p
  | none => s.setSq k { s.sq k with toVendor := false }

/-- A change of state; entry to HALTED is flagged, and lets a vendor program that waits for it in (R349, R354). -/
def setSeqState (s : Dev) (k st : Nat) : Dev :=
  let t := s.markSeq k st
  let t := if (t.sq k).stepping then t.setSq k { t.sq k with stepping := false } else t
  if st = 1 then
    let t := t.raise (Pg.LSEQ k) 9
    if (t.sq k).toVendor then t.vendorTakes k else t
  else t

/-- `LSEQ.PAGE_CTRL.HOST_ASSIST` falls while an owner program is loaded: it ends at its next WAIT, or at once when it does
not run (R354). -/
def ownerLeaves (s : Dev) (k : Nat) : Dev :=
  let info := Pg.LSEQ k + LSEQ.PROG_INFO
  if s.bit info 31 && s.bit info 30 then
    let t := s.setSq k { s.sq k with toVendor := true }
    let st := s.seqState k
    if st = 1 then t.vendorTakes k
    else if st = 3 ∨ st = 4 then ((t.setSq k { t.sq k with winRd := none }).wr (Pg.LSEQ k + LSEQ.WAIT_MASK) 0).setSeqState k 1
    else t
  else s

/-- `ROLE_EPOCH` steps (R352). -/
def stepEpoch (s : Dev) (k : Nat) : Dev := s.setF (Pg.LSEQ k + LSEQ.ROLE_EPOCH) 0 16 (s.fld (Pg.LSEQ k + LSEQ.ROLE_EPOCH) 0 16 + 1)

/-- The lane a lane sequencer serves sees it run (R478). -/
def seqLaneRuns (s : Dev) (k : Nat) : Dev := if 8 ≤ k then s.laneSeqRuns (k - 8) else s

/-- A start (R348). -/
def seqBegin (s : Dev) (k : Nat) : Dev :=
  let x := s.sq k
  let keep := s.fld (Pg.LSEQ k + LSEQ.PROG_INFO) 16 11
  let below (j : Nat) := decide (j < keep)
  let kept := Sparse.clear below x.dmem
  let fresh := x.data0.filter (fun p => below p.1)
  let d := fresh.foldl (fun m p => Sparse.put (fun _ => 0) m p.1 p.2) kept
  let t := s.setSq k { x with xr := [], stack := [], timer := none, winRd := none, dmem := d }
  let t := (t.wr (Pg.LSEQ k + LSEQ.EVENT_PEND) 0).setB (seqReg k) 27 false
  let t := ((t.stepEpoch k).wr (Pg.LSEQ k + LSEQ.WAIT_MASK) 0).setPc k x.entry
  (t.setSeqState k 2).seqLaneRuns k

/-- A trap: recorded, its locks and session released, the fault logged, the lane given its trigger (R350, R351; 19,
classes 0x05 and 0x06). -/
def seqTrap (s : Dev) (k cause info pc : Nat) (log : Bool := true) : Dev :=
  let b := Pg.LSEQ k
  let t := (s.wr (b + LSEQ.TRAP_REC) (BitVec.ofNat 32 (info % 2 ^ 16 * 2 ^ 16 + cause * 2 ^ 8))).wr (b + LSEQ.TRAP_PC) (BitVec.ofNat 32 pc)
  let t := ((t.count (b + LSEQ.TRAPS)).raise b 8).setSeqState k 4
  let t := (t.setSq k { t.sq k with winRd := none }).wr (b + LSEQ.WAIT_MASK) 0
  let t := t.releaseMaster (masterId (seqMaster k))
  let t := if !log then t else if 8 ≤ k then t.openFault 5 59 (some (t.linePort (k - 8))) false k else t.openFault 6 59 none false k
  if 8 ≤ k then t.laneTrap (k - 8) false else t

/-- When the automatic restarts of the preceding second came. -/
def recentRestarts (s : Dev) (k : Nat) : List Nat := (s.sq k).restarts.filter (fun t => decide (s.mono < t + 1000000000))

/-- The restart due after a trap, allowed or refused (R350, R351, R478). -/
def seqAfterTrap (s : Dev) (k : Nat) : Dev :=
  let b := Pg.LSEQ k
  let recent := s.recentRestarts k
  let ok := s.enabled b && decide (recent.length < s.fld (b + LSEQ.SEQ_CTRL) 8 8)
  let n := k - 8
  let t := if ok then
      let u := (s.seqBegin k).count (b + LSEQ.RESTARTS)
      u.setSq k { u.sq k with restarts := recent ++ [s.mono] }
    else (s.setSeqState k 1).raise b 10
  let t := if !ok && decide (8 ≤ k) then
      let u := t.setRxl n { t.rxl n with refused := true }
      let u := if u.rxState n = 1 ∨ u.rxState n = 2 then u.setRxl n { u.rxl n with seqWait := true } else u
      { u with log := { u.log with opened := u.log.opened.map (fun r => if (r.cls == 5 || r.cls == 9) && r.unit == k then { r with outcome := 2 } else r) } }
    else t
  if k < 8 then t.closeFault 6 k (if ok then 0 else 2) false
  else if t.rxState n = 5 ∨ t.rxState n = 1 ∨ t.rxState n = 2 then t
  else t.closeFault 5 k (if ok then 0 else 2) false

/-- HALT, and what else halts a sequencer: from RUNNING, WAITING or TRAPPED (R349). -/
def seqStop (s : Dev) (k : Nat) : Dev :=
  let st := s.seqState k
  if st = 2 ∨ st = 3 ∨ st = 4 then
    ((s.setSq k { s.sq k with winRd := none }).wr (Pg.LSEQ k + LSEQ.WAIT_MASK) 0).setSeqState k 1
  else s

/-- A running sequencer has come to the instruction at `BREAK` (R356). -/
def seqAtBreak (s : Dev) (k : Nat) : Bool :=
  let brk := Pg.LSEQ k + LSEQ.BREAK
  s.seqState k == 2 && s.bit brk 31 && s.seqPc k == s.fld brk 0 11 && (s.sq k).winRd.isNone

/-- It halts before it executes that instruction (R356). -/
def seqBreaks (s : Dev) (k : Nat) : Dev := (s.seqStop k).raise (Pg.LSEQ k) 13

/-- A running sequencer with no window read in progress executes, unless a breakpoint stops it (R349, R356). -/
def seqRuns (s : Dev) (k : Nat) (f : Dev → Dev) : Dev :=
  if s.seqState k = 2 ∧ (s.sq k).winRd = none then (if s.seqAtBreak k then s.seqBreaks k else f s) else s

/-- A register result and the next instruction. -/
def seqPut (s : Dev) (k d : Nat) (v : BitVec 40) : Dev := (s.setX k d v).pcNext k

/-- A saturating result (R344). -/
def seqSat (s : Dev) (k d : Nat) (x : Int) : Dev :=
  let r := sat40 x
  let t := if r.2 then s.setB (seqReg k) 27 true else s
  t.seqPut k d r.1

/-- An illegal instruction traps with its upper half-word (R345). -/
def seqIllegal (s : Dev) (k word : Nat) : Dev := s.seqTrap k 1 (word / 2 ^ 16) (s.seqPc k)

/-- Words of the instruction formats. -/
def wordR (op d a b sh : Nat) : Nat := op * 2 ^ 26 + d * 2 ^ 22 + a * 2 ^ 18 + b * 2 ^ 14 + sh * 2 ^ 8
def wordI (op d a imm : Nat) : Nat := op * 2 ^ 26 + d * 2 ^ 22 + a * 2 ^ 18 + imm

/-- A data address: inside 0 to 1,023, or a trap DATA_ADDR (R345). -/
def seqAddr (s : Dev) (k : Nat) (x : Int) (words : Nat) (f : Dev → Nat → Dev) : Dev :=
  if 0 ≤ x ∧ x + words ≤ 1024 then f s x.toNat
  else s.seqTrap k 2 (twosOf 16 (if 0 ≤ x ∧ x < 1024 then 1024 else x)) (s.seqPc k)

/-- Event inputs a sequencer has (table of events). -/
def eventMask (k : Nat) : Word := if k < 8 then 0x003FFF7F else 0x00001FFF

/-- The lowest pending event of a mask. -/
def eventOf (s : Dev) (k : Nat) (mask : Word) : Option Nat :=
  (List.range 32).find? (fun e => bitOf (s.rd (Pg.LSEQ k + LSEQ.EVENT_PEND) &&& mask &&& eventMask k) e)

/-- WAIT (R346); a program that the vendor's is to replace ends here (R354). -/
def seqWaitOn (s : Dev) (k d : Nat) (mask : Word) : Dev :=
  if (s.sq k).toVendor then s.setSeqState k 1
  else if mask &&& eventMask k = 0 then s.seqPut k d (BitVec.ofInt 40 (-1))
  else
    match s.eventOf k mask with
    | some e => (s.setB (Pg.LSEQ k + LSEQ.EVENT_PEND) e false).seqPut k d (BitVec.ofNat 40 e)
    | none =>
      let t := s.setSq k { s.sq k with waitD := ⟨d % 16, by omega⟩ }
      (t.wr (Pg.LSEQ k + LSEQ.WAIT_MASK) mask).setSeqState k 3

/-- A waiting sequencer resumes; a WAIT that STEP ran ends in HALTED (R346, R349). -/
def seqResume (s : Dev) (k : Nat) : Dev :=
  match s.eventOf k (s.rd (Pg.LSEQ k + LSEQ.WAIT_MASK)) with
  | some e =>
    let t := (s.setB (Pg.LSEQ k + LSEQ.EVENT_PEND) e false).wr (Pg.LSEQ k + LSEQ.WAIT_MASK) 0
    (t.seqPut k (t.sq k).waitD (BitVec.ofNat 40 e)).setSeqState k (if (t.sq k).stepping then 1 else 2)
  | none => s

/-- SEND (R345, R431–R433). -/
def seqSend (s : Dev) (k d a b : Nat) : Dev :=
  s.seqAddr k (s.xreg k a).toInt 8 (fun t i =>
    let ws := (List.range 8).map (fun j => BitVec.setWidth 32 (t.dword k (i + j)))
    let r := t.send (3 + k) ((t.xreg k b).toNat % 256) ws
    r.1.seqPut k d (BitVec.ofNat 40 r.2.1))

/-- RECV: the oldest message, with its header (R345, R435, R346). -/
def seqRecv (s : Dev) (k d a : Nat) : Dev :=
  if (s.inbox (3 + k)).isEmpty then s.seqPut k d 1
  else
    s.seqAddr k (s.xreg k a).toInt 10 (fun t i =>
      match t.deliverHead (3 + k) with
      | (u, some (h, ws)) =>
        let u := u.setInbox (3 + k) ((u.inbox (3 + k)).drop 1)
        let u := u.setDs k i (((List.range 8).map (fun j => BitVec.setWidth 40 (ws.getD j 0))) ++ [BitVec.setWidth 40 (h >>> 40), BitVec.setWidth 40 h])
        let u := if (u.inbox (3 + k)).isEmpty then u else u.seqEvent k 1
        u.seqPut k d 0
      | (u, none) => u)

/-- DBL: the latch toward a master; toward itself or to no endpoint it is dropped and logged (R438). -/
def seqDbl (s : Dev) (k a b : Nat) : Dev :=
  let v := BitVec.setWidth 32 (s.xreg k a)
  let t := match endpointOf ((s.xreg k b).toNat % 256) with
    | some e => if e = 3 + k then s.logOn (seqMaster k) (Pg.MBX (mbxPage (3 + k)) / 0x1000) MBX.DB_TX Err.unmapped
                else s.doorbell (3 + k) e v
    | none => s.logOn (seqMaster k) (Pg.MBX (mbxPage (3 + k)) / 0x1000) MBX.DB_TX Err.unmapped
  t.pcNext k

/-- Conditions of BR. -/
def brTaken (c : Nat) (a : BitVec 40) : Bool :=
  let x := a.toInt
  match c with
  | 0 => true
  | 1 => x == 0
  | 2 => x != 0
  | 3 => decide (x < 0)
  | 4 => decide (0 ≤ x)
  | 5 => decide (0 < x)
  | _ => decide (x ≤ 0)

/-- BR. -/
def seqBr (s : Dev) (k c a target : Nat) : Dev :=
  if 7 ≤ c then s.seqIllegal k (0x20 * 2 ^ 26 + c * 2 ^ 22 + a * 2 ^ 18 + target)
  else if brTaken c (s.xreg k a) then s.setPc k target else s.pcNext k

/-- CALL. -/
def seqCall (s : Dev) (k target : Nat) : Dev :=
  let x := s.sq k
  if 8 ≤ x.stack.length then s.seqTrap k 4 0 (s.seqPc k)
  else (s.setSq k { x with stack := BitVec.ofNat 11 (s.seqPc k + 1) :: x.stack }).setPc k target

/-- RET. -/
def seqRet (s : Dev) (k : Nat) : Dev :=
  let x := s.sq k
  match x.stack with
  | [] => s.seqTrap k 4 1 (s.seqPc k)
  | r :: rest => (s.setSq k { x with stack := rest }).setPc k r.toNat

/-- A shift. -/
def seqShift (s : Dev) (k op d a : Nat) (imm : BitVec 18) (f : BitVec 40 → Nat → BitVec 40) : Dev :=
  let n := imm.toNat % 64
  if 39 < n then s.seqIllegal k (wordI op d a imm.toNat) else s.seqPut k d (f (s.xreg k a) n)

/-- MUL. -/
def seqMul (s : Dev) (k d a b sh : Nat) : Dev :=
  if 39 < sh then s.seqIllegal k (wordR 7 d a b sh)
  else s.seqSat k d (roundHalfEven ((s.xreg k a).toInt * (s.xreg k b).toInt) sh)

/-- TMR. -/
def seqTmr (s : Dev) (k a : Nat) (imm : BitVec 18) : Dev :=
  let p := (s.xreg k a).toNat % 2 ^ 32
  (s.setSq k { s.sq k with timer := if p = 0 then none else some (p, imm.getLsbD 0) }).pcNext k

/-- The timer expires (R346). -/
def seqTimer (s : Dev) (k : Nat) : Dev :=
  match (s.sq k).timer with
  | some (_, true) => s.seqEvent k 0
  | some (_, false) => (s.setSq k { s.sq k with timer := none }).seqEvent k 0
  | none => s

/-! ### Commands of the page -/

/-- START, CONT and STEP need HALTED and `ENABLE`, and START no owner program while `HOST_ASSIST` is 0 (R349, R354). -/
def seqMayRun (s : Dev) (k : Nat) (start : Bool) : Bool :=
  s.seqState k == 1 && s.enabled (Pg.LSEQ k)
    && !(start && decide (k < 8) && s.bit (Pg.LSEQ k + LSEQ.PROG_INFO) 30 && !s.assisted (Pg.LSEQ k))

def seqStartCmd (s : Dev) (m : Master) (k : Nat) : Dev :=
  s.need m (Pg.LSEQ k + LSEQ.SEQ_CMD) (s.seqMayRun k true) Err.state (fun t => t.seqBegin k)

def seqContCmd (s : Dev) (m : Master) (k : Nat) : Dev :=
  s.need m (Pg.LSEQ k + LSEQ.SEQ_CMD) (s.seqMayRun k false) Err.state (fun t => (t.setSeqState k 2).seqLaneRuns k)

/-- A write of half of an X register: the upper word makes the value (R356). -/
def xregSet (s : Dev) (m : Master) (k x : Nat) (hi : Bool) (v : Word) : Dev :=
  s.need m (Pg.LSEQ k + LSEQ.XREG + 8 * x + (if hi then 4 else 0)) (s.seqState k == 1) Err.state (fun t =>
    let q := t.sq k
    if hi then
      let lo := ((Sparse.get (fun _ => none) q.xlo x).getD (BitVec.setWidth 32 (t.xreg k x))).toNat
      let u := t.setSq k { q with xlo := Sparse.put (fun _ => none) q.xlo x none }
      u.setX k x (BitVec.ofNat 40 (v.toNat % 256 * 2 ^ 32 + lo))
    else t.setSq k { q with xlo := Sparse.put (fun _ => none) q.xlo x (some v) })

/-- A write of `ROLE`: by the sequencer itself, or by the lock holder while HALTED (R352, R356). -/
def roleSet (s : Dev) (m : Master) (k : Nat) (v : Word) : Dev :=
  let a := Pg.LSEQ k + LSEQ.ROLE
  let page := Pg.LSEQ k / 0x1000
  s.need m a (m == seqMaster k || (s.seqState k == 1 && s.holds m page)) Err.state (fun t =>
    let u := t.setF a 0 8 v.toNat
    if t.fld a 0 8 = v.toNat % 256 then u else u.stepEpoch k)

/-- Bulk addresses of a sequencer's memories (02). -/
def seqBulk (k : Nat) : Nat := 0xE00000 + k * 0x4000

/-- A bulk write of half of a data word, while the sequencer is halted (R37). -/
def dataHalf (s : Dev) (m : Master) (k w : Nat) (hi : Bool) (v : Word) : Dev :=
  let a := seqBulk k + 0x2000 + 8 * w + (if hi then 4 else 0)
  let page := Pg.LSEQ k / 0x1000
  s.bulkAccess m page a (fun t =>
    if t.seqState k ≠ 1 then t.logOn m page (a % 0x1000) Err.bulk
    else
      let key := 1024 * k + w
      let set (u : Dev) (x : Option Word) : Dev := { u with bus := { u.bus with seqLo := Sparse.put (fun _ => none) u.bus.seqLo key x } }
      if hi then
        let lo := ((Sparse.get (fun _ => none) t.bus.seqLo key).getD (BitVec.setWidth 32 (t.dword k w))).toNat
        (set t none).setD k w (BitVec.ofNat 40 (v.toNat % 256 * 2 ^ 32 + lo))
      else set t (some v))

/-- A bulk write of instruction memory is dropped (R36). -/
def instrWrite (s : Dev) (m : Master) (k w : Nat) : Dev :=
  let page := Pg.LSEQ k / 0x1000
  s.bulkAccess m page (seqBulk k + 4 * w) (fun t => t.logOn m page ((seqBulk k + 4 * w) % 0x1000) Err.bulk)

end Dev

/-- NOP (R344). -/
def execNop (k : SeqId) (s : State) : Out :=
  s.run (fun v => v.seqRuns k (fun t => t.pcNext k))

/-- LDI (R344). -/
def execLdi (k : SeqId) (d : Fin 16) (imm : BitVec 18) (s : State) : Out :=
  s.run (fun v => v.seqRuns k (fun t => t.seqPut k d (BitVec.signExtend 40 imm)))

/-- LDH (R344). -/
def execLdh (k : SeqId) (d : Fin 16) (imm : BitVec 22) (s : State) : Out :=
  s.run (fun v => v.seqRuns k (fun t => t.seqPut k d (imm ++ BitVec.setWidth 18 (t.xreg k d))))

/-- MOV (R344). -/
def execMov (k : SeqId) (d a : Fin 16) (s : State) : Out :=
  s.run (fun v => v.seqRuns k (fun t => t.seqPut k d (t.xreg k a)))

/-- ADD (R344). -/
def execAdd (k : SeqId) (d a b : Fin 16) (s : State) : Out :=
  s.run (fun v => v.seqRuns k (fun t => t.seqSat k d ((t.xreg k a).toInt + (t.xreg k b).toInt)))

/-- SUB (R344). -/
def execSub (k : SeqId) (d a b : Fin 16) (s : State) : Out :=
  s.run (fun v => v.seqRuns k (fun t => t.seqSat k d ((t.xreg k a).toInt - (t.xreg k b).toInt)))

/-- ADDI (R344). -/
def execAddi (k : SeqId) (d a : Fin 16) (imm : BitVec 18) (s : State) : Out :=
  s.run (fun v => v.seqRuns k (fun t => t.seqSat k d ((t.xreg k a).toInt + imm.toInt)))

/-- MUL (R344, R345). -/
def execMul (k : SeqId) (d a b : Fin 16) (sh : BitVec 6) (s : State) : Out :=
  s.run (fun v => v.seqRuns k (fun t => t.seqMul k d a b sh.toNat))

/-- MIN (R344). -/
def execMin (k : SeqId) (d a b : Fin 16) (s : State) : Out :=
  s.run (fun v => v.seqRuns k (fun t => t.seqPut k d (if (t.xreg k a).toInt ≤ (t.xreg k b).toInt then t.xreg k a else t.xreg k b)))

/-- MAX (R344). -/
def execMax (k : SeqId) (d a b : Fin 16) (s : State) : Out :=
  s.run (fun v => v.seqRuns k (fun t => t.seqPut k d (if (t.xreg k a).toInt ≤ (t.xreg k b).toInt then t.xreg k b else t.xreg k a)))

/-- AND (R344). -/
def execAnd (k : SeqId) (d a b : Fin 16) (s : State) : Out :=
  s.run (fun v => v.seqRuns k (fun t => t.seqPut k d (t.xreg k a &&& t.xreg k b)))

/-- OR (R344). -/
def execOr (k : SeqId) (d a b : Fin 16) (s : State) : Out :=
  s.run (fun v => v.seqRuns k (fun t => t.seqPut k d (t.xreg k a ||| t.xreg k b)))

/-- XOR (R344). -/
def execXor (k : SeqId) (d a b : Fin 16) (s : State) : Out :=
  s.run (fun v => v.seqRuns k (fun t => t.seqPut k d (t.xreg k a ^^^ t.xreg k b)))

/-- ABS (R344). -/
def execAbs (k : SeqId) (d a : Fin 16) (s : State) : Out :=
  s.run (fun v => v.seqRuns k (fun t => t.seqSat k d ((t.xreg k a).toInt.natAbs : Int)))

/-- ANDI (R344). -/
def execAndi (k : SeqId) (d a : Fin 16) (imm : BitVec 18) (s : State) : Out :=
  s.run (fun v => v.seqRuns k (fun t => t.seqPut k d (t.xreg k a &&& BitVec.signExtend 40 imm)))

/-- SHL (R344, R345). -/
def execShl (k : SeqId) (d a : Fin 16) (imm : BitVec 18) (s : State) : Out :=
  s.run (fun v => v.seqRuns k (fun t => t.seqShift k 0x10 d a imm (fun x n => x <<< n)))

/-- SHR (R344, R345). -/
def execShr (k : SeqId) (d a : Fin 16) (imm : BitVec 18) (s : State) : Out :=
  s.run (fun v => v.seqRuns k (fun t => t.seqShift k 0x11 d a imm (fun x n => x >>> n)))

/-- SAR (R344, R345). -/
def execSar (k : SeqId) (d a : Fin 16) (imm : BitVec 18) (s : State) : Out :=
  s.run (fun v => v.seqRuns k (fun t => t.seqShift k 0x12 d a imm (fun x n => x.sshiftRight n)))

/-- LD (R344, R345). -/
def execLd (k : SeqId) (d a : Fin 16) (imm : BitVec 18) (s : State) : Out :=
  s.run (fun v => v.seqRuns k (fun t => t.seqAddr k ((t.xreg k a).toInt + imm.toInt) 1 (fun u i => u.seqPut k d (u.dword k i))))

/-- ST (R344, R345). -/
def execSt (k : SeqId) (d a : Fin 16) (imm : BitVec 18) (s : State) : Out :=
  s.run (fun v => v.seqRuns k (fun t => t.seqAddr k ((t.xreg k a).toInt + imm.toInt) 1 (fun u i => (u.setD k i (u.xreg k d)).pcNext k)))

/-- RDT (R344). -/
def execRdt (k : SeqId) (d : Fin 16) (s : State) : Out :=
  s.run (fun v => v.seqRuns k (fun t => t.seqPut k d (BitVec.setWidth 40 t.timeBase)))

/-- TMR (R344). -/
def execTmr (k : SeqId) (a : Fin 16) (imm : BitVec 18) (s : State) : Out :=
  s.run (fun v => v.seqRuns k (fun t => t.seqTmr k a imm))

/-- WAIT (R346); a program that the vendor's is to replace ends here (R354). -/
def execWait (k : SeqId) (d a : Fin 16) (s : State) : Out :=
  s.run (fun v => v.seqRuns k (fun t => t.seqWaitOn k d (BitVec.setWidth 32 (t.xreg k a))))

/-- DOG: the watchdog count starts again (R347). -/
def execDog (k : SeqId) (s : State) : Out :=
  s.run (fun v => v.seqRuns k (fun t => t.pcNext k))

/-- SEND (R345, R431). -/
def execSend (k : SeqId) (d a b : Fin 16) (s : State) : Out :=
  s.run (fun v => v.seqRuns k (fun t => t.seqSend k d a b))

/-- RECV (R345, R435). -/
def execRecv (k : SeqId) (d a : Fin 16) (s : State) : Out :=
  s.run (fun v => v.seqRuns k (fun t => t.seqRecv k d a))

/-- DBL (R438). -/
def execDbl (k : SeqId) (a b : Fin 16) (s : State) : Out :=
  s.run (fun v => v.seqRuns k (fun t => t.seqDbl k a b))

/-- BR (R344, R345). -/
def execBr (k : SeqId) (c : BitVec 4) (a : Fin 16) (target : BitVec 11) (s : State) : Out :=
  s.run (fun v => v.seqRuns k (fun t => t.seqBr k c.toNat a target.toNat))

/-- CALL (R344). -/
def execCall (k : SeqId) (target : BitVec 11) (s : State) : Out :=
  s.run (fun v => v.seqRuns k (fun t => t.seqCall k target.toNat))

/-- RET (R344). -/
def execRet (k : SeqId) (s : State) : Out :=
  s.run (fun v => v.seqRuns k (fun t => t.seqRet k))

/-- JR (R344). -/
def execJr (k : SeqId) (a : Fin 16) (s : State) : Out :=
  s.run (fun v => v.seqRuns k (fun t => t.setPc k ((t.xreg k a).toNat % 2048)))

/-- HALT (R349). -/
def execHalt (k : SeqId) (s : State) : Out :=
  s.run (fun v => v.seqRuns k (fun t => (t.pcNext k).seqStop k))

/-- TRAP: cause SOFTWARE (R344, R350). -/
def execTrap (k : SeqId) (imm : BitVec 18) (s : State) : Out :=
  s.run (fun v => v.seqRuns k (fun t => t.seqTrap k 6 (imm.toNat % 2 ^ 16) (t.seqPc k)))

/-- WAIT_RESUME (R346). -/
def execWaitResume (k : SeqId) (s : State) : Out :=
  s.run (fun d => if d.seqState k = 3 then d.seqResume k else d)

/-- SEQ_TIMER_EXPIRY (R346). -/
def execSeqTimerExpiry (k : SeqId) (s : State) : Out :=
  s.run (fun d => d.seqTimer k)

/-- SEQ_WATCHDOG: in RUNNING, with a limit set (R347). -/
def execSeqWatchdog (k : SeqId) (s : State) : Out :=
  s.run (fun d => if d.seqState k = 2 ∧ d.fld (Pg.LSEQ k + LSEQ.SEQ_CTRL) 16 16 ≠ 0 then d.seqTrap k 5 0 (d.seqPc k) else d)

/-- SEQ_RESTART (R350). -/
def execSeqRestart (k : SeqId) (s : State) : Out :=
  s.run (fun d => if d.seqState k = 4 then d.seqAfterTrap k else d)

/-- BREAKPOINT_HALT (R356). -/
def execBreakpointHalt (k : SeqId) (s : State) : Out :=
  s.run (fun d => if d.seqAtBreak k then d.seqBreaks k else d)

/-- SEQ_START (R348, R349, R354). -/
def execSeqStart (m : Master) (k : SeqId) (s : State) : Out :=
  s.run (fun d => d.access m (Pg.LSEQ k + LSEQ.SEQ_CMD) (fun t => t.seqStartCmd m k))

/-- SEQ_HALT (R349). -/
def execSeqHalt (m : Master) (k : SeqId) (s : State) : Out :=
  s.run (fun d => d.access m (Pg.LSEQ k + LSEQ.SEQ_CMD) (fun t => t.seqStop k))

/-- SEQ_CONT (R348, R349). -/
def execSeqCont (m : Master) (k : SeqId) (s : State) : Out :=
  s.run (fun d => d.access m (Pg.LSEQ k + LSEQ.SEQ_CMD) (fun t => t.seqContCmd m k))

/-- SEQ_KICK (R346). -/
def execSeqKick (m : Master) (k : SeqId) (s : State) : Out :=
  s.run (fun d => d.access m (Pg.LSEQ k + LSEQ.SEQ_CMD) (fun t => t.seqEvent k 3))

/-- XREG_WRITE (R356). -/
def execXregWrite (m : Master) (k : SeqId) (x : Fin 16) (hi : Bool) (v : Word) (s : State) : Out :=
  s.run (fun d => d.access m (Pg.LSEQ k + LSEQ.XREG + 8 * x + (if hi then 4 else 0)) (fun t => t.xregSet m k x hi v))

/-- ROLE_WRITE (R352, R356). -/
def execRoleWrite (m : Master) (k : SeqId) (v : Word) (s : State) : Out :=
  s.run (fun d => d.access m (Pg.LSEQ k + LSEQ.ROLE) (fun t => t.roleSet m k v))

/-- SEQ_DATA_WORD_WRITE (R35, R37). -/
def execSeqDataWordWrite (m : Master) (k : SeqId) (w : Fin 1024) (hi : Bool) (v : Word) (s : State) : Out :=
  s.run (fun d => d.dataHalf m k w hi v)

/-- SEQ_INSTR_WRITE (R36). -/
def execSeqInstrWrite (m : Master) (k : SeqId) (w : Fin 2048) (_v : Word) (s : State) : Out :=
  s.run (fun d => d.instrWrite m k w)

end Sys2Proof.Machine
end

