-- ==== Sys2Proof/Machine/Reset.lean ====
section
/-! DEFINITION. Resets: of the device, of an island, of the PCIe endpoint and of the management controller; reference
clocks and PLLs (14, R372–R389; 16, R411; 19, R482). -/

namespace Sys2Proof.Machine

namespace Dev

/-! ### What a block loses -/

/-- Every packet of every line port ends: admitted ones are revoked with cause TIMEOUT, others count their drop (R385). -/
def revokeAll (s : Dev) : Dev :=
  (List.range 16).foldl (fun t p => (t.packets p).foldl (fun t x =>
    match x.refused with
    | some r => (t.setPackets p ((t.packets p).erase x)).drop p r x.len
    | none => t.revokeHead p x 6) t) s

/-- Every queued record is discarded, counted DISCARD, and every in-service page is free (R240, R385). -/
def discardQueues (s : Dev) : Dev :=
  let t := (List.range 128).foldl (fun t q =>
    let x := t.queue q
    let t := (x.recs.filter (fun r => !r.void)).foldl (fun t r => t.drop r.port 9 r.len) t
    let t := x.pages.foldl (fun t p => t.givePage p) (t.setQueue q Queue.init)
    t.queueShow q) s
  let t := (List.range 16).foldl (fun t h =>
    let x := t.sched h
    (x.txq.foldl (fun t e => t.drop e.1.port 9 e.1.len) t).setSched h { x with txq := [] }) t
  ((List.range 64).foldl (fun t c => t.recoverList c) t).bufShow

/-- Operations still waiting for a stack are given up with the island that asked for them. -/
def dropWaiting (s : Dev) : Dev := (List.range 4).foldl (fun t k => t.setStack4 k { t.stack4 k with waiting := [] }) s

/-! ### Island resets (R375–R376, R385–R388) -/

/-- Bridges of an island are isolated: posted writes accepted for its pages are discarded and logged (R375). -/
def isolate (s : Dev) (i : Nat) : Dev :=
  s.bus.buffer.foldl (fun t b =>
    match b.2 with
    | some w =>
      if islandOf b.1 = i then
        let t := { t with bus := { t.bus with buffer := Sparse.put (fun _ => none) t.bus.buffer b.1 none } }
        (t.logOn w.master b.1 w.off Err.islandOff).count (Pg.CLKRST + CLKRST.BRIDGE_DROPS)
      else t
    | none => t) s

/-- Islands of a self-test's target (18, Test catalogue). -/
def testIslands (code t : Nat) : List Nat :=
  match code with
  | 1 => [t, 16 + t]
  | 2 => [32 + t]
  | 3 => [52]
  | 4 => [53]
  | 5 => [54 + t]
  | 6 => [59]
  | _ => [58]

/-- The reset of an island ends the self-test of a target on it (18, R467). -/
def testHit (s : Dev) (i : Nat) : Dev :=
  match s.test.cur with
  | some t => if (testIslands (s.fld (Pg.BIST + BIST.BIST_STATUS) 24 4) t).contains i then s.testLoss 6 else s
  | none => s

/-- What the reset of an island does at once: its data-path working state is lost. -/
def islandLoses (d : Dev) (i : Nat) : Dev :=
  let s := d.testHit i
  if i < 16 then s.cutPackets i
  else if i < 32 then (s.ltStop (i - 16)).cutFrame (s.linePort (i - 16))
  else if i < 48 then s
  else if i < 52 then (List.range 4).foldl (fun t q => t.dropShare (4 * (i - 48) + q)) s
  else if i = 52 then
    let t := { s with cls := { s.cls with table := [], staged := [], learns := [], punted := [] } }
    (List.range 8).foldl (fun t b => t.setB (bankBase b + CLS_BANK.BANK_STATUS) 1 true) t
  else if i = 53 then
    let t := (s.revokeAll.discardQueues).dropWaiting
    let dirty := (t.flow.cache.filter (fun l => l.dirty)).length
    let t := { t with flow := { t.flow with cache := [], staged := [], stagedFor := [] }, buf := { t.buf with scheds := [] } }
    (t.count (Pg.FLOW + FLOW.KEY_UNREAD) dirty).cacheShow
  else if i < 58 then (List.range ((s.stack4 (i - 54)).inflight.length)).foldl (fun t _ => t.hbmComplete (i - 54) .uncorrectable) s
  else if i = 58 then
    let t := (List.range 4).foldl (fun t sl => (List.range 10).foldl (fun t k => t.outOff sl k) t) s
    { t with ana := Analogue.init }
  else s

/-- What happens when an island leaves reset. `relocked` says whether a host lane's marker lock was confirmed (R387). -/
def islandResumes (s : Dev) (i : Nat) (relocked : Bool) : Dev :=
  if i < 16 then
    let t := s.laneHang i
    let t := if t.lpllLock (i / 4) then t else t.holdTrigger i true
    if t.rxState i = 0 ∨ t.rxState i = 6 ∨ t.rxState i = 7 then t.closeFault 1 i 0 false else t
  else if i < 32 then s.closeFault 2 (i - 16) 0 true
  else if i < 48 then
    let n := i - 32
    if s.hostState n = 2 ∧ relocked = false then ((s.hostLink n true false false).hostDrop n).closeFault 3 n 3 true
    else s.closeFault 3 n 0 true
  else if i = 52 then s.restoreBegin
  else if i = 58 then (List.range 4).foldl (fun t sl => (List.range 10).foldl (fun t k => t.outTryUp sl k) t) s
  else if i = 59 then
    (List.range 24).foldl (fun t k => if 1 ≤ t.seqState k ∧ t.seqState k ≤ 4 then t.seqBegin k else t) s
  else s

def setWd (s : Dev) (i : Nat) (b : Bool) : Dev :=
  { s with isl := { s.isl with wdReset := Sparse.put (fun _ => false) s.isl.wdReset i b } }
def setCmdReset (s : Dev) (i : Nat) (b : Bool) : Dev :=
  { s with isl := { s.isl with cmdReset := Sparse.put (fun _ => false) s.isl.cmdReset i b } }
def wdResetting (s : Dev) (i : Nat) : Bool := Sparse.get (fun _ => false) s.isl.wdReset i
def cmdResetting (s : Dev) (i : Nat) : Bool := Sparse.get (fun _ => false) s.isl.cmdReset i

/-- The fault record of a hang (19): RX, TX and host hangs open one that the recovery closes; a shared island's waits for
the host. -/
def hangFault (s : Dev) (i : Nat) : Dev :=
  if i < 16 then s.openFault 1 i (some (s.linePort i)) false i
  else if i < 32 then s.openFault 2 i (some (s.linePort (i - 16))) false (i - 16)
  else if i < 48 then s.openFault 3 i (some (s.hostPort (i - 32))) true (i - 32)
  else if i < 60 then s.logFault 4 i none false 0 2
  else s

/-- A watchdog fires (R385): islands 0 to 47 are reset by hardware, unless a commanded reset of the island runs. -/
def hang (s : Dev) (i : Nat) : Dev :=
  let a := Pg.CLKRST
  let t := ((s.raise a 11).wr (a + CLKRST.HANG_ISLAND) (BitVec.ofNat 32 (2 ^ 31 + i))).hangFault i
  if i < 48 ∧ s.cmdResetting i = false then (((t.setWd i true).count (a + CLKRST.WD_RESETS)).isolate i).islandLoses i
  else t

/-- `ISLAND_CMD.RESET` (R388). -/
def islandReset (s : Dev) (m : Master) : Dev :=
  let a := Pg.CLKRST + CLKRST.ISLAND_CMD
  let i := s.fld (Pg.CLKRST + CLKRST.ISLAND_SEL) 0 6
  s.need m a (decide (i < 60)) Err.config (fun t =>
    t.need m a (t.islandOn i) Err.state (fun t => ((t.setCmdReset i true).isolate i).islandLoses i))

/-! ### Management controller and PCIe resets (R384, R389, R411, R426, R482) -/

/-- The controller is reset: its locks are released, its epoch steps, an attestation request in progress ends with RETRY,
each module port makes a bus recovery, and a start-up past event 5 resumes from it. -/
def mcReset (s : Dev) : Dev :=
  let t := (s.releaseMaster (masterId .mc)).bumpEpoch 2
  let t := { t with isl := { t.isl with mcDown := true }, mbx := { t.mbx with replies := [] } }
  let t := match (t.ring 6).work with
    | some d => ((t.setRing 6 { t.ring 6 with work := none }).complete 6 d.tag 0 4 0 0).ringNext 6
    | none => t
  let t : Dev := { t with sec := { t.sec with requests := [], retries := t.sec.retries / 2 * 2 } }
  let t := t.setB (Pg.BOOT + BOOT.ATTEST_STATUS) 30 false
  let t := (List.range 16).foldl (fun (t : Dev) n => t.setMmo n { t.mmo n with recover := true }) t
  if 5 ≤ t.sec.step ∧ t.sec.step < 11 ∧ t.bootStage ≠ 8 then
    let t := t.setF (Pg.BOOT + BOOT.BOOT_STATUS) 0 4 3
    { t with sec := { t.sec with step := 4, retries := 0, calSlice := 0 } }
  else t

/-- A PCIe reset: the host's locks are released and its epoch steps; every ring stops with what it held (R384, R430). -/
def pcieReset (s : Dev) : Dev :=
  let t := (s.releaseMaster (masterId .host)).bumpEpoch 0
  let t := (List.range 8).foldl (fun t r => ((t.setB (Pg.RING r + RING.RING_CTRL) 0 false).setRing r RingSt.init).ringOff r) t
  let mine (j : UpdJob) : Bool := match j.source with | .ring _ _ => true | _ => false
  let drop (l : Lantern) : Lantern := { l with waiting := l.waiting.filter (fun f => !f.ring) }
  let t := t.setB (Pg.DMA + DMA.HV_STATUS) 31 false
  let t := t.setB (Pg.BOOT + BOOT.ATTEST_STATUS) 30 false
  { t with cls := { t.cls with updates := t.cls.updates.filter (fun j => !mine j), ringStatus := [] },
           lt := t.lt.map (fun p => (p.1, drop p.2)),
           sec := { t.sec with requests := [] },
           hif := { t.hif with masked := [], msixOn := false, funcMask := false, pend := [], busMaster := true, hvRun := none } }

/-! ### Device reset (R383, R384) -/

/-- Registers a device reset keeps: the reset causes, the state of the references, retained skews, and what the retention
island shows of its monitors; of the latter the list of broken sensors and the Vigil state start afresh (R384, R445, R463). -/
def keptRegister (a : Nat) : Bool :=
  let page := a / 0x1000
  let off := a % 0x1000
  if a = Pg.CLKRST + CLKRST.RESET_CAUSE ∨ a = Pg.CLKRST + CLKRST.REF_STATUS then true
  else if 0x030 ≤ page ∧ page < 0x040 then off == LFEC.SKEW
  else if 4 ≤ page ∧ page ≤ 7 ∧ 0x040 ≤ off then
    a != Pg.THERM + THERM.BROKEN && a != Pg.VIGIL + VIGIL.VIGIL_STATUS && a != Pg.PWR + PWR.PWR_PEAK
      && (match pageRow page with
          | some p => (match regRow p.type off with
                       | some r => r.kind == .plain && r.rw == 0 && r.ex == 0
                       | none => false)
          | none => false)
  else false

/-- A line lane keeps its checkpoints, a Lantern receiver its key slots and floors. -/
def keptLane (l : RxLane) : RxLane := { RxLane.init with ckpts := l.ckpts }
def keptKeys (l : Lantern) : Lantern := { Lantern.init with slots := l.slots }

/-- A zone keeps its samples, not its count toward a broken sensor. -/
def keptZone (z : ZoneSt) : ZoneSt := { z with grad := 0, bad := 0 }

/-- A device reset with the bit of its cause in `RESET_CAUSE`. The device then waits for its start-up; HBM contents read
as never written (log entry 7). -/
def deviceReset (s : Dev) (cause : Nat) : Dev :=
  let old := s
  let t : Dev :=
    { Dev.reset with
      regs := s.regs.filter (fun p => keptRegister p.1),
      isl := { Islands.init with held := s.isl.held, privDown := s.isl.privDown },
      rx := s.rx.map (fun p => (p.1, keptLane p.2)),
      lt := s.lt.map (fun p => (p.1, keptKeys p.2)),
      time := { s.time with latch := [], captLatch := [] },
      sec := { Security.init with fuses := s.sec.fuses },
      mon := { s.mon with zones := s.mon.zones.map (fun p => (p.1, keptZone p.2)), wakePending := false },
      mono := s.mono, fresh := s.fresh, out := s.out }
  let t := t.setB (Pg.CLKRST + CLKRST.RESET_CAUSE) cause true
  (List.range 16).foldl (fun t n => if (old.rxl n).ckpts.isEmpty then t else t.ckptStatus n) t

/-- A power-on: everything but the fuses is lost (R384, R399). -/
def powerOn (s : Dev) : Dev :=
  { Dev.reset with sec := { Security.init with fuses := s.sec.fuses }, mono := s.mono, fresh := s.fresh, out := s.out }

/-- The master and lock that `DEV_RESET` and `MC_RESET` need (R389). -/
def resetAllowed (s : Dev) (m : Master) : Bool :=
  s.holds m 0x008 && (m == .host || m == .bmc || (m == .jtag && decide (1 ≤ s.debugLevel)))

/-! ### PLLs and references (R379–R381) -/

/-- Lock bit of PLL p in the order of the PLL table: line 0–3, host 4–7, core 8, HBM 9–12, time base 13, PCIe 14. -/
def pllBit (p : Nat) : Nat :=
  if p < 8 then p else if p = 8 then 11 else if p < 13 then 14 + (p - 9) else if p = 13 then 12 else 13

/-- The reference of a PLL: 0 REFCLK_LINE, 1 REFCLK_HOST, 2 PCIe REFCLK. -/
def pllRef (p : Nat) : Nat := if p < 4 ∨ p = 13 then 0 else if p = 14 then 2 else 1

/-- A PLL locks, its reference being present. -/
def pllLocks (s : Dev) (p : Nat) : Dev :=
  let a := Pg.CLKRST + CLKRST.PLL_STATUS
  if s.bit (Pg.CLKRST + CLKRST.REF_STATUS) (pllRef p) || !s.islandOn 62 then s
  else
    let t := s.setB a (pllBit p) true
    let t := if p = 8 then t.setB a 18 false else if p = 13 then t.setB a 19 false else t
    if s.bit a (pllBit p) then t
    else if p < 4 then t.linePll p true
    else if p < 8 then (List.range 4).foldl (fun t q => t.hostTryUp (4 * (p - 4) + q)) t
    else t

/-- A lock bit falls: counted and flagged; lanes of a line PLL whose island is not in reset hold, its ports squelch; lanes
of a host PLL leave UP. -/
def pllUnlocks (s : Dev) (p : Nat) : Dev :=
  let a := Pg.CLKRST + CLKRST.PLL_STATUS
  if !s.bit a (pllBit p) then s
  else
    let t := ((s.setB a (pllBit p) false).count (Pg.CLKRST + CLKRST.PLL_UNLOCKS)).raise Pg.CLKRST 9
    if p < 4 then
      let t := (List.range 4).foldl (fun t q => if t.islandOn (4 * p + q) then t.holdTrigger (4 * p + q) true else t) t
      (List.range 4).foldl (fun t q => t.txUpdate (4 * p + q)) t
    else if p < 8 then (List.range 4).foldl (fun t q => t.hostDrop (4 * (p - 4) + q)) t
    else t

/-- A PLL in lock whose reference is gone enters holdover (R381). -/
def holdover (s : Dev) (lock bit : Nat) : Dev :=
  let a := Pg.CLKRST + CLKRST.PLL_STATUS
  if s.bit a lock then (s.setB a bit true).raise Pg.CLKRST 10 else s

/-- A reference is declared lost (R380). -/
def refLost (s : Dev) (r : Nat) : Dev :=
  let a := Pg.CLKRST
  if s.bit (a + CLKRST.REF_STATUS) r then s
  else
    let t := ((s.setB (a + CLKRST.REF_STATUS) r true).count (a + CLKRST.REF_LOSSES)).raise a 8
    if r = 0 then ((List.range 4).foldl (fun t p => t.pllUnlocks p) t).holdover 12 19
    else if r = 1 then ((List.range 4).foldl (fun t p => t.pllUnlocks (4 + p)) t).holdover 11 18
    else t.pcieReset

end Dev

/-- ISLAND_WATCHDOG (R385). An island without its clock sends no heartbeat and is not watched; one in a commanded reset
still reports. -/
def execIslandWatchdog (i : Island) (s : State) : Out :=
  s.run (fun d => if d.islandOn i || d.cmdResetting i then d.hang i else d)

/-- An island is held for scan (18, R475). -/
def Dev.scanned (s : Dev) (i : Nat) : Bool :=
  s.bit (Pg.BIST + BIST.SCAN_STATUS) 31 && s.fld (Pg.BIST + BIST.SCAN_STATUS) 0 6 == i

/-- ISLAND_RESET_COMPLETE (R375, R385–R388). -/
def execIslandResetComplete (i : Island) (relocked : Bool) (s : State) : Out :=
  s.run (fun d =>
    if (d.wdResetting i || d.cmdResetting i) && !d.scanned i then
      let t := ((d.setWd i false).setCmdReset i false).islandResumes i relocked
      if d.cmdResetting i then t.raise Pg.CLKRST 12 else t
    else d)

/-- ISLAND_CMD_RESET (R388). -/
def execIslandCmdReset (m : Master) (s : State) : Out :=
  s.run (fun d => d.lockedAccess m (Pg.CLKRST + CLKRST.ISLAND_CMD) (fun t => t.islandReset m))

/-- DEV_RESET (R389). -/
def execDevReset (m : Master) (v : Word) (s : State) : Out :=
  let a := Pg.CLKRST + CLKRST.DEV_RESET
  s.run (fun d => d.access m a (fun t => t.need m a (v == 0xA55A && t.resetAllowed m) Err.state (fun t => t.deviceReset 2)))

/-- MC_RESET (R389). -/
def execMcReset (m : Master) (s : State) : Out :=
  let a := Pg.CLKRST + CLKRST.MC_RESET
  s.run (fun d => d.access m a (fun t => t.need m a (t.resetAllowed m) Err.state (fun t => t.mcReset)))

/-- RST_N low for 1 µs or longer (R383). -/
def execRstN (s : State) : Out := s.run (fun d => d.deviceReset 1)

/-- PERST_N (R383, R384). -/
def execPerstN (s : State) : Out := s.run (fun d => d.pcieReset)

/-- TRST_N: the test access port, and with it the locks of JTAG (R64, R383). -/
def execTrstN (s : State) : Out := s.run (fun d => d.releaseMaster (masterId .jtag))

/-- FUNCTION_LEVEL_RESET (R411). -/
def execFunctionLevelReset (s : State) : Out := s.run (fun d => d.pcieReset)

/-- PCIE_LINK_RESET (R64, R384). -/
def execPcieLinkReset (s : State) : Out := s.run (fun d => d.pcieReset)

/-- REF_LOSS (R380, R381). -/
def execRefLoss (r : Fin 3) (s : State) : Out := s.run (fun d => d.refLost r)

/-- REF_PRESENT (R380). -/
def execRefPresent (r : Fin 3) (s : State) : Out :=
  s.run (fun d => d.setB (Pg.CLKRST + CLKRST.REF_STATUS) r false)

/-- PLL_LOCK (R379, R381). -/
def execPllLock (p : Fin 15) (s : State) : Out := s.run (fun d => d.pllLocks p)

/-- PLL_UNLOCK (R379). -/
def execPllUnlock (p : Fin 15) (s : State) : Out := s.run (fun d => d.pllUnlocks p)

end Sys2Proof.Machine
end

