-- ==== Sys2Proof/Machine/Thermal.lean ====
section
/-! DEFINITION. Thermal zones, throttling, shutdown and supplies (17, R442–R457; 07, R239). Temperatures are held in
1/1024 °C and instants in nanoseconds of the monitor's own sampling clock. -/

namespace Sys2Proof.Machine

/-- Neighbours of a zone (Zones and sensors). -/
def neighbours : Nat → List Nat
  | 0 => [1, 4, 7]
  | 1 => [0, 2, 5]
  | 2 => [1, 3, 5]
  | 3 => [2, 4, 10]
  | 4 => [0, 3, 11]
  | 5 => [1, 2, 6]
  | 6 => [5, 8, 9, 11]
  | 7 => [0, 8]
  | 8 => [7, 6]
  | 9 => [6, 10]
  | 10 => [9, 3]
  | _ => [4, 6]

/-- The highest of some readings, if there is one. -/
def highest (l : List Int) : Option Int := l.foldl (fun a v => match a with | some b => some (max b v) | none => some v) none
def lowest (l : List Int) : Option Int := l.foldl (fun a v => match a with | some b => some (min b v) | none => some v) none

/-- Rise over the span of a list of samples, newest first: temperature difference and time (R444). -/
def rise (l : List (Nat × Int)) : Int × Nat :=
  match l, l.getLast? with
  | n :: _, some o => (n.2 - o.2, n.1 - o.1)
  | _, _ => (0, 0)

/-- The rate is above r °C/s, and at or below half of r. -/
def rateAbove (d : Int × Nat) (r : Nat) : Bool := decide ((r : Int) * 1024 * d.2 < d.1 * 1000000000)
def rateHalf (d : Int × Nat) (r : Nat) : Bool := decide (2 * d.1 * 1000000000 ≤ (r : Int) * 1024 * d.2)

/-- The rate as shown: 1/16 °C/s rounded toward zero. -/
def rateShown (d : Int × Nat) : Int := if d.2 = 0 then 0 else Int.tdiv (d.1 * 16000000000) (1024 * d.2)

/-- A latched condition after a sample: set, cleared, or as it was. -/
def latchBy (set clear was : Bool) : Bool := if set then true else if clear then false else was

namespace Dev

def zone (s : Dev) (z : Nat) : ZoneSt := Sparse.get (fun _ => ZoneSt.init) s.mon.zones z
def setZone (s : Dev) (z : Nat) (v : ZoneSt) : Dev :=
  { s with mon := { s.mon with zones := Sparse.put (fun _ => ZoneSt.init) s.mon.zones z v } }

abbrev thReg : Nat := Pg.THERM
def broken (s : Dev) (z : Nat) : Bool := s.bit (thReg + THERM.BROKEN) z
def warnC (s : Dev) : Nat := s.fld (thReg + THERM.LIMIT_ABS) 0 8
def throttleC (s : Dev) : Nat := s.fld (thReg + THERM.LIMIT_ABS) 8 8
def warnRate (s : Dev) : Nat := s.fld (thReg + THERM.LIMIT_RATE) 0 8
def throttleRate (s : Dev) : Nat := s.fld (thReg + THERM.LIMIT_RATE) 8 8
def pauseN (s : Dev) : Nat := s.fld (thReg + THERM.THERM_STATUS) 8 4
def pauseMax (s : Dev) : Nat := s.fld (thReg + THERM.THERM_CFG) 16 4
def stepMs (s : Dev) : Nat := s.fld (thReg + THERM.THERM_CFG) 8 8

/-- A zone is in warning, or in throttle; a hot stack counts for TZ6 (R446, R447). -/
def zoneWarn (s : Dev) (z : Nat) : Bool := (s.zone z).warnA || (s.zone z).warnR
def zoneThr (s : Dev) (z : Nat) : Bool := (s.zone z).thrA || (s.zone z).thrR || (z == 6 && !s.mon.stackThr.isEmpty)
def anyThr (s : Dev) : Bool := (List.range 12).any s.zoneThr

/-! ### Pauses (R452, R453) -/

/-- The pause level changes; while it is not 0, every Lantern transmitter in hardware mode reports fault 0x07. -/
def setPause (s : Dev) (n : Nat) : Dev :=
  let old := s.pauseN
  let t := s.setF (thReg + THERM.THERM_STATUS) 8 4 n
  if decide (old = 0) = decide (n = 0) then t else (List.range 16).foldl (fun t l => t.ltFault l 7 (decide (n ≠ 0))) t

/-- A zone enters throttle. -/
def throttleEnter (s : Dev) : Dev :=
  let t := (s.testLoss 4).raise thReg 9
  if t.assisted thReg then t
  else
    let t := t.count (thReg + THERM.THROTTLE_EVENTS)
    t.setPause (max t.pauseN (if t.stepMs = 0 then t.pauseMax else min 2 t.pauseMax))

/-- A zone leaves throttle: reported in host-assisted mode. -/
def throttleExit (s : Dev) : Dev := if s.assisted thReg then s.raise thReg 10 else s

/-! ### Shutdown (R454, R455) -/

/-- Datapath shutdown: islands 0 to 59 are held in reset until power is cycled, lanes and outputs go off, HBM contents
are lost, Vigil ends. -/
def datapathShutdown (s : Dev) (kind unit temp : Nat) : Dev :=
  if s.isl.held then s
  else
    let t := s.wr (thReg + THERM.SHUT_RECORD) (BitVec.ofNat 32 (2 ^ 31 + kind * 2 ^ 24 + unit * 2 ^ 16 + temp % 2 ^ 16))
    let t := t.raise thReg 13
    let t := (List.range 60).foldl (fun t i => t.isolate i) t
    let t := (List.range 16).foldl (fun t n => ((t.laneOff n).txOff n 0).hostOff n) t
    let t := (List.range 4).foldl (fun t sl => (List.range 10).foldl (fun t k => t.outOff sl k) t) t
    let t := t.setF (Pg.VIGIL + VIGIL.VIGIL_STATUS) 0 3 0
    { t with isl := { t.isl with held := true }, cls := { t.cls with table := [], shadow := [] },
             flow := Flow.init, buf := Buf.init }

/-! ### Samples (R443–R452) -/

/-- The value a zone uses: its own reading, or while its sensor is broken the highest of its unbroken neighbours, else of
the device (R445). With no unbroken sensor left the manual names no reading: its own. -/
def zoneValue (s : Dev) (own : Nat → Int) (z : Nat) : Int :=
  if !s.broken z then own z
  else
    let ok (l : List Nat) := highest ((l.filter (fun i => !s.broken i)).map own)
    match ok (neighbours z) with
    | some v => v
    | none => (ok (List.range 12)).getD (own z)

/-- Counts toward a broken sensor: samples that disagree with every unbroken neighbour by more than `GRAD_MAX`, and
invalid samples. -/
def brokenCounts (s : Dev) (own : Nat → Int) (invalid : Nat → Bool) (z : Nat) : Dev :=
  if s.broken z then s
  else
    let near := ((neighbours z).filter (fun i => !s.broken i)).map own
    let g : Int := 1024 * s.fld (thReg + THERM.THERM_CFG) 0 8
    let off := match lowest near, highest near with
      | some l, some h => decide (own z < l - g) || decide (h + g < own z)
      | _, _ => false
    let bad := invalid z || decide (own z < -40 * 1024) || decide (150 * 1024 < own z)
    let x := s.zone z
    s.setZone z { x with grad := if off then x.grad + 1 else 0, bad := if bad then x.bad + 1 else 0 }

/-- One zone takes its sample: its window, its conditions, what it shows. -/
def zoneSample (s : Dev) (now : Nat) (own : Nat → Int) (z : Nat) : Dev :=
  let x := s.zone z
  let v := s.zoneValue own z
  let w := ((now, v) :: x.samples).take 16
  let d := rise w
  let abs (c : Nat) (was : Bool) := latchBy (decide ((c : Int) * 1024 ≤ v)) (decide (v < ((c : Int) - 3) * 1024)) was
  let rate (r : Nat) (was : Bool) := latchBy (rateAbove d r) (rateHalf d r) was
  let full := decide (x.count + 1 = 16)
  let y : ZoneSt :=
    { x with samples := w, warnA := abs s.warnC x.warnA, warnR := rate s.warnRate x.warnR,
             thrA := abs s.throttleC x.thrA, thrR := rate s.throttleRate x.thrR,
             count := if full then 0 else x.count + 1,
             windows := if full then (if rateAbove d 30 then x.windows + 1 else 0) else x.windows }
  let t := s.setZone z y
  let t := t.wr (thReg + THERM.ZONE_RAW + 4 * z) (BitVec.ofNat 32 (twosOf 16 (own z / 8)))
  let t := t.wr (thReg + THERM.ZONE_TEMP + 4 * z) (BitVec.ofNat 32 (twosOf 16 (rateShown d) * 2 ^ 16 + twosOf 16 (v / 8)))
  let t := if t.zoneWarn z && !s.zoneWarn z then (t.count (thReg + THERM.WARN_EVENTS)).raise thReg 8 else t
  if t.zoneThr z && !s.zoneThr z then t.throttleEnter else if s.zoneThr z && !t.zoneThr z then t.throttleExit else t

/-- Newest value of a zone. -/
def zoneNow (s : Dev) (z : Nat) : Int := match (s.zone z).samples with | x :: _ => x.2 | [] => 0

/-- A fast-rate condition holds: a zone stands at most 10 °C below its warning, throttle or shutdown limit, or rises faster
than the warning rate (R443). -/
def fastHolds (s : Dev) : Bool :=
  (List.range 12).any (fun z =>
    let v := s.zoneNow z
    [s.warnC, s.throttleC, 115].any (fun c => decide (((c : Int) - 10) * 1024 ≤ v) && decide (v ≤ (c : Int) * 1024))
      || rateAbove (rise (s.zone z).samples) s.warnRate)

/-- `ZONE_ALARM` and `THERM_STATUS` but for the pause level. -/
def thermShow (s : Dev) : Dev :=
  let bits (f : Nat → Bool) : Nat := (List.range 12).foldl (fun a z => if f z then a + 2 ^ z else a) 0
  let st := thReg + THERM.THERM_STATUS
  let hot := (List.range 12).foldl (fun a z => if s.zoneNow a < s.zoneNow z then z else a) 0
  let good := ((List.range 12).filter (fun z => !s.broken z)).length
  let t := s.wr (thReg + THERM.ZONE_ALARM) (BitVec.ofNat 32 (bits s.zoneThr * 2 ^ 16 + bits s.zoneWarn))
  let t := (t.setB st 0 ((List.range 12).any s.zoneWarn)).setB st 1 s.anyThr
  (t.setF st 16 4 hot).setB st 30 (decide (good < 6))

/-- A sample of every zone, dt nanoseconds after the last: readings, conditions, the sampling rate, the pause and Vigil
milliseconds, the calibration triggers and the shutdown limits. -/
def thermalSample (s : Dev) (dt : Nat) (l : List ZoneSample) : Dev :=
  let now := s.mon.clock + dt
  let at_ (z : Nat) : ZoneSample := l.getD z ⟨0, true⟩
  let own (z : Nat) : Int := (at_ z).value
  let ms := now / 1000000 - s.mon.clock / 1000000
  let t := if s.pauseN = 0 then s else s.count (thReg + THERM.THROTTLE_MS) ms
  let t := if t.vigilState = 2 ∨ t.vigilState = 3 then t.count (Pg.VIGIL + VIGIL.VIGIL_MS) ms else t
  let t := { t with mon := { t.mon with clock := now } }
  let t := (List.range 12).foldl (fun t z => t.brokenCounts own (fun z => (at_ z).invalid) z) t
  let t := (List.range 12).foldl (fun t z => t.zoneSample now own z) t
  let t := if t.fastHolds then { t.setB (thReg + THERM.THERM_STATUS) 31 true with mon := { t.mon with fastAt := now } } else t
  let t := if t.anyThr then { t with mon := { t.mon with throttled := now } } else t
  let t := t.thermShow
  let t := (List.range 4).foldl (fun t sl => t.calTrigger sl) t
  let shown (z : Nat) : Nat := twosOf 16 (t.zoneNow z / 8)
  match (List.range 12).find? (fun z => decide (115 * 1024 ≤ t.zoneNow z)) with
  | some z => t.datapathShutdown 1 z (shown z)
  | none =>
    match (List.range 12).find? (fun z => decide (4 ≤ (t.zone z).windows)) with
    | some z => t.datapathShutdown 2 z (shown z)
    | none => t

/-- A zone's sensor is declared broken (R445; 19, class 0x12). -/
def declareBroken (s : Dev) (z : Nat) : Dev :=
  let x := s.zone z
  if s.broken z || (decide (x.bad < 4) && decide (x.grad < 64)) then s
  else (((s.setB (thReg + THERM.BROKEN) z true).raise thReg 11).thermShow).logFault 18 62 none false z 0

/-- `THERM_CMD.UNBREAK`. -/
def unbreak (s : Dev) (zs : Nat) : Dev :=
  ((List.range 12).foldl (fun t z =>
    if zs.testBit z then (t.setB (thReg + THERM.BROKEN) z false).setZone z { t.zone z with grad := 0, bad := 0 } else t) s).thermShow

/-- A stack's temperature is read: shown with the refresh rate it asks for, and compared (R239, R446). -/
def stackTemp (s : Dev) (k : Nat) (deg : BitVec 8) (refresh : Nat) : Dev :=
  let v := deg.toInt
  let t := (s.setF (Pg.HBM k + HBM.TEMP) 0 8 deg.toNat).setF (Pg.HBM k + HBM.REFRESH) 0 2 refresh
  let t := t.setF (thReg + THERM.STACK_TEMP) (8 * k) 8 deg.toNat
  let t := if (t.fld (thReg + THERM.STACK_LIMIT) 0 8 : Int) < v then t.raise thReg 12 else t
  let above := decide ((t.fld (thReg + THERM.STACK_LIMIT) 8 8 : Int) < v)
  let was := t.zoneThr 6
  let rest := t.mon.stackThr.filter (· != k)
  let hot := decide (105 ≤ v)
  let n := if hot then Sparse.get (fun _ => 0) t.mon.stackOver k + 1 else 0
  let t := { t with mon := { t.mon with stackThr := if above then rest ++ [k] else rest,
                                        stackOver := Sparse.put (fun _ => 0) t.mon.stackOver k n } }
  let t := if t.zoneThr 6 && !was then t.throttleEnter else if was && !t.zoneThr 6 then t.throttleExit else t
  let t := t.thermShow
  if 2 ≤ n then t.datapathShutdown 3 k (twosOf 16 (v * 128)) else t

/-! ### Supplies (R456, R457) -/

abbrev supReg : Nat := Pg.SUPPLY

/-- A rail falls below its warning level: latched, with the lowest voltage seen. -/
def railDip (s : Dev) (k v : Nat) : Dev :=
  let a := supReg + SUPPLY.RAIL_V + 4 * k
  let low := s.fld a 16 16
  let t := (((s.testLoss 2).setB (supReg + SUPPLY.SUP_STATUS) k true).setB (supReg + SUPPLY.SUP_STATUS) (8 + k) false).setB (supReg + SUPPLY.SUP_EVENT) k true
  (t.setF a 0 16 v).setF a 16 16 (if low = 0 then v else min low v)

/-- A dipped rail recovers without having reached its reset level: a SUPPLY_EVENT, with its hold and its sweep. The
voltage it returns to is a value no rule gives. -/
def railRecover (s : Dev) (k : Nat) : Dev :=
  let t := (s.setB (supReg + SUPPLY.SUP_STATUS) k false).setF (supReg + SUPPLY.RAIL_V + 4 * k) 0 16 s.freeWord.toNat
  let t := t.nextFree
  if s.mon.railsDown.contains k then t
  else
    let t := ((t.count (supReg + SUPPLY.DIP_COUNT + 4 * k)).raise supReg 8).setB (supReg + SUPPLY.SUP_STATUS) 31 true
    let t := t.wr (supReg + SUPPLY.SWEEP_STATUS) 0x80000000
    let t := t.openFault 17 62 none false k
    { t with mon := { t.mon with holdAt := t.mono }, sec := { t.sec with paused := !t.sec.blow.isEmpty } }

/-- A rail is detected below its reset level: a device reset, and with the last rail of all a power cycle (R391, R454). -/
def railReset (s : Dev) (k : Nat) : Dev :=
  let down := s.mon.railsDown.filter (· != k) ++ [k]
  let t := if down.length = 8 then s.powerOn else s.deviceReset 3
  { t with mon := { t.mon with railsDown := down } }

end Dev

/-- THERMAL_SAMPLE (R443–R449, R454). -/
def execThermalSample (dtNs : Nat) (zones : List ZoneSample) (s : State) : Out := s.run (fun d => d.thermalSample dtNs zones)

/-- SAMPLE_RATE_SLOW: neither condition has held for 1 s of the sampling clock (R443). -/
def execSampleRateSlow (s : State) : Out :=
  s.run (fun d =>
    if d.fastHolds || decide (d.mon.clock < d.mon.fastAt + 1000000000) then d
    else d.setB (Pg.THERM + THERM.THERM_STATUS) 31 false)

/-- SENSOR_BROKEN, its samples counted (R445). -/
def execSensorBroken (z : Zone) (s : State) : Out := s.run (fun d => d.declareBroken z)

/-- UNBREAK (R445). -/
def execUnbreak (m : Master) (zones : BitVec 12) (s : State) : Out :=
  s.run (fun d => d.lockedAccess m (Pg.THERM + THERM.THERM_CMD) (fun t => t.unbreak zones.toNat))

/-- PAUSE_STEP (R452). -/
def execPauseStep (s : State) : Out :=
  s.run (fun d =>
    if d.assisted Pg.THERM || !d.anyThr || decide (d.pauseMax ≤ d.pauseN) then d
    else d.setPause (if d.stepMs = 0 then d.pauseMax else d.pauseN + 1))

/-- PAUSE_RELEASE_STEP: no zone has been in throttle for `RELEASE` (R452). -/
def execPauseReleaseStep (s : State) : Out :=
  s.run (fun d =>
    let release := 10000000 * d.fld (Pg.THERM + THERM.THERM_CFG) 24 8
    if d.assisted Pg.THERM || d.anyThr || d.pauseN == 0 || decide (d.mon.clock < d.mon.throttled + release) then d
    else let t := d.setPause (d.pauseN - 1); if t.pauseN = 0 then t.raise Pg.THERM 10 else t)

/-- PAUSE_SET (R453). -/
def execPauseSet (m : Master) (v : Word) (s : State) : Out :=
  let a := Pg.THERM + THERM.PAUSE_SET
  s.run (fun d => d.access m a (fun t => t.need m a (decide (fieldOf v 0 4 ≤ 8)) Err.config (fun t =>
    let t := t.setF a 0 4 (fieldOf v 0 4)
    if t.assisted Pg.THERM then t.setPause (fieldOf v 0 4) else t)))

/-- STACK_TEMP_READ (R239, R446). -/
def execStackTempRead (k : Stack) (degrees : BitVec 8) (refresh : Fin 3) (s : State) : Out :=
  s.run (fun d => d.stackTemp k degrees refresh)

/-- RAIL_DIP (R457). -/
def execRailDip (k : Rail) (quarterMv : BitVec 16) (s : State) : Out := s.run (fun d => d.railDip k quarterMv.toNat)

/-- RAIL_RECOVER (R457). -/
def execRailRecover (k : Rail) (s : State) : Out :=
  s.run (fun d => if d.bit (Pg.SUPPLY + SUPPLY.SUP_STATUS) k then d.railRecover k else d)

/-- SUPPLY_HOLD_END: refused operations may be issued again, held results commit, fuse programming goes on (R369, R403,
R457). -/
def execSupplyHoldEnd (s : State) : Out :=
  s.run (fun d =>
    if d.supplyHold then
      let t := d.setB (Pg.SUPPLY + SUPPLY.SUP_STATUS) 31 false
      ({ t with sec := { t.sec with paused := false } }).calHeldEnd
    else d)

/-- RAIL_RESET (R391, R456). -/
def execRailReset (k : Rail) (s : State) : Out := s.run (fun d => d.railReset k)

/-- OVER_VOLTAGE (R456, R457). -/
def execOverVoltage (k : Rail) (s : State) : Out :=
  s.run (fun d => (((d.testLoss 2).setB (Pg.SUPPLY + SUPPLY.SUP_EVENT) (8 + k.val) true).setB (Pg.SUPPLY + SUPPLY.SUP_STATUS) (8 + k.val) true).raise Pg.SUPPLY 9)

end Sys2Proof.Machine
end

