-- ==== Sys2Proof/Machine/Vigil.lean ====
section
/-! DEFINITION. Vigil: entry, the wake sources, exit and the return to traffic (17, R458–R463; 10, R315). -/

namespace Sys2Proof.Machine

namespace Dev

/-- A lane receives in Vigil: `WAKE_EN` on a Type E slice (R315). -/
def wakeLane (s : Dev) (n : Nat) : Bool := s.typeE (n / 4) && s.bit (Pg.LANTERN n + LANTERN.LT_CTRL) 2

/-- A slice has such a lane. -/
def wakeSlice (s : Dev) (sl : Nat) : Bool := (List.range 4).any (fun q => s.wakeLane (4 * sl + q))

/-- Work that Vigil entry waits for: a self-test, a calibration run, a relocation, an image verification (R458). -/
def vigilBars (s : Dev) : Bool :=
  s.test.cur.isSome || s.test.segment.isSome || !s.test.left.isEmpty || s.calRunning || !s.sec.verify.isEmpty
    || (List.range 4).any (fun k => !(s.stack4 k).relocating.isEmpty)

/-- Vigil entry begins: lanes and transmitters go off, egress shares are discarded (R459, step 1). -/
def vigilEnter (s : Dev) : Dev :=
  let t := s.setF (Pg.VIGIL + VIGIL.VIGIL_STATUS) 0 3 1
  let deep := s.bit (Pg.VIGIL + VIGIL.VIGIL_CFG) 0
  let t : Dev := { t with mon := { t.mon with deep := deep, wakePending := false, entryAt := t.mono } }
  let t := (List.range 16).foldl (fun t n => if t.wakeLane n then t.setB (Pg.LANTERN n + LANTERN.LT_STATUS) 10 true else t) t
  let t := (List.range 16).foldl (fun t n => ((t.laneOff n).txOff n 0).hostOff n) t
  let t := (List.range 16).foldl (fun t n => if t.wakeLane n then t else t.setF (Pg.LANTERN n + LANTERN.LT_STATUS) 0 3 0) t
  (List.range 16).foldl (fun t p => t.dropShare p) t

/-- `VIGIL_CMD.ENTER` (R458). -/
def vigilCmd (s : Dev) (m : Master) : Dev :=
  s.need m (Pg.VIGIL + VIGIL.VIGIL_CMD) (s.bootStage == 7 && s.vigilState == 0 && !s.vigilBars) Err.state (fun t => t.vigilEnter)

/-- Exit begins: islands are powered, lanes and outputs come up, halted sequencers with `AUTO_START` start, and after
Vigil-2 the classifier is restored; the refresh pass is due (R213, R355, R461, R462). -/
def vigilLeave (s : Dev) : Dev :=
  let t := (s.setF (Pg.VIGIL + VIGIL.VIGIL_STATUS) 0 3 4).raise Pg.VIGIL 9
  let t : Dev := { t with isl := { t.isl with unpowered := [] }, flow := { t.flow with refreshDue := true },
                          mon := { t.mon with wakePending := false, wakeAt := t.mono } }
  let t := (List.range 4).foldl (fun t k => t.setB (Pg.HBM k + HBM.STACK_STATUS) 3 false) t
  let t := (List.range 16).foldl (fun t n => (t.setB (Pg.LANTERN n + LANTERN.LT_STATUS) 10 false).ltRxUpdate n) t
  let t := (List.range 16).foldl (fun t n => ((t.rxWake n (!t.mon.deep)).txTryUp n).hostTryUp n) t
  let t := (List.range 4).foldl (fun t sl => (List.range 10).foldl (fun t k => t.outTryUp sl k) t) t
  let t := (List.range 24).foldl (fun t k =>
    if t.seqState k = 1 ∧ t.bit (Pg.LSEQ k + LSEQ.SEQ_CTRL) 0 = true then t.seqBegin k else t) t
  if t.mon.deep then t.restoreBegin else t

/-- A wake source fires (R461): one that arrives during entry lets entry complete. -/
def wakeBy (s : Dev) (bit : Nat) : Dev :=
  let v := s.vigilState
  if v = 1 ∨ v = 2 ∨ v = 3 then
    let t := s.setB (Pg.VIGIL + VIGIL.WAKE_CAUSE) bit true
    if v = 1 then { t with mon := { t.mon with wakePending := true } } else t.vigilLeave
  else s

/-- A source with an enable bit in `VIGIL_CFG`. -/
def wakeIf (s : Dev) (enable bit : Nat) : Dev := if s.bit (Pg.VIGIL + VIGIL.VIGIL_CFG) enable then s.wakeBy bit else s

/-- A write of the host to a mailbox page (R437, R461). -/
def hostWakes (s : Dev) (m : Master) : Dev := if m = .host then s.wakeIf 9 0 else s

/-- An accepted WAKE frame: the wake source under Vigil wake, else counted (R308, R315). -/
def actWake (s : Dev) (n : Nat) (_f : List Byte) : Dev :=
  if s.bit (Pg.LANTERN n + LANTERN.LT_STATUS) 10 then
    let t := s.raise (Pg.LANTERN n) 16
    if t.bit (Pg.VIGIL + VIGIL.VIGIL_CFG) 10 then (t.setF (Pg.VIGIL + VIGIL.WAKE_CAUSE) 8 4 n).wakeBy 1 else t
  else s.count (Pg.LANTERN n + LANTERN.RX_WAKE_IGN)

/-- The packets pending on a port resolve in their order: a decided one with a good verdict commits, one with a bad verdict
is revoked with its cause, and one still undecided has timed out (R195–R199, R213). -/
def settlePort (s : Dev) (p : Nat) : Dev :=
  (s.packets p).foldl (fun t x =>
    match x.refused with
    | some r => (t.setPackets p ((t.packets p).erase x)).drop p r x.len
    | none =>
      match x.cause with
      | some c => t.revokeHead p x c
      | none => if x.last.isSome && x.decided.isSome then t.tryCommit p else t.revokeHead p x 6) s

/-- An island is kept in Vigil (R460). -/
def vigilKeeps (s : Dev) (i : Nat) : Bool :=
  decide (60 ≤ i) || (decide (i < 16) && s.wakeLane i) || ((i == 58 || i == 59) && (List.range 4).any s.wakeSlice)

/-- Vigil entry completes (R459, R460). -/
def vigilEntered (s : Dev) : Dev :=
  let t := (List.range 16).foldl (fun t p => t.settlePort p) s
  let t := (t.cacheFlushAll).discardQueues
  let t := (List.range 4).foldl (fun t k => (t.setStack4 k { t.stack4 k with waiting := [], inflight := [] }).inflightShow k) t
  let t := (List.range 24).foldl (fun t k =>
    if (t.seqState k = 2 ∨ t.seqState k = 3) ∧ ¬(k < 8 ∧ t.wakeSlice (k / 2) = true) then t.seqStop k else t) t
  let t := (List.range 4).foldl (fun t sl =>
    if t.wakeSlice sl then t else (List.range 10).foldl (fun t k => t.outOff sl k) t) t
  let t := (List.range 4).foldl (fun t k => t.setB (Pg.HBM k + HBM.STACK_STATUS) 3 true) t
  let t := if t.mon.deep then
      let u : Dev := { t with cls := { t.cls with table := [] } }
      (List.range 16).foldl (fun t n => t.ckptClear n) u
    else t
  let off := (List.range 60).filter (fun i => !t.vigilKeeps i)
  let t := off.foldl (fun t i => t.isolate i) t
  let t : Dev := { t with isl := { t.isl with unpowered := off.foldl (fun m i => Sparse.put (fun _ => false) m i true) [] } }
  let t := (t.raise Pg.VIGIL 8).wr (Pg.VIGIL + VIGIL.ENTRY_TIME) (t.usSince t.mon.entryAt)
  let t := t.count (Pg.VIGIL + VIGIL.VIGIL_COUNT)
  let t := t.setF (Pg.VIGIL + VIGIL.VIGIL_STATUS) 0 3 (if t.mon.deep then 3 else 2)
  let t := if t.rd (Pg.VIGIL + VIGIL.VIGIL_TIMER) = 0 then t.wakeIf 4 2 else t
  if t.mon.wakePending then t.vigilLeave else t

/-- Exit to traffic: every configured line port receives and every configured host port is up (R462). -/
def vigilTraffic (s : Dev) : Bool :=
  s.vigilState == 4
    && (List.range 16).all (fun p => (!s.lpOn p || s.receives p)
      && (s.hpWidth p == 0 || !(s.hpLanes p).any (fun n => s.bit (Pg.HOST n + HOST.HOST_CTRL) 0) || s.hostUp p))

end Dev

/-- WAKE (R308, R315). -/
def execWake (n : Lane) (s : State) : Out := s.run (fun d => d.acceptFrame n (· == 6) (fun t f => t.actWake n f))

/-- VIGIL_ENTER (R458, R459). -/
def execVigilEnter (m : Master) (s : State) : Out :=
  s.run (fun d => d.lockedAccess m (Pg.VIGIL + VIGIL.VIGIL_CMD) (fun t => t.vigilCmd m))

/-- VIGIL_ENTRY_COMPLETE (R459, R460). -/
def execVigilEntryComplete (s : State) : Out :=
  s.run (fun d => if d.vigilState = 1 then d.vigilEntered else d)

/-- VIGIL_EXIT (R461). -/
def execVigilExit (m : Master) (s : State) : Out :=
  s.run (fun d => d.access m (Pg.VIGIL + VIGIL.VIGIL_CMD) (fun t => t.wakeBy 4))

/-- VIGIL_TIMER_WAKE: the time has run since entry completed (R461). -/
def execVigilTimerWake (s : State) : Out :=
  s.run (fun d => if d.vigilState = 2 ∨ d.vigilState = 3 then d.wakeIf 4 2 else d)

/-- WAKE_N (R461). -/
def execWakeN (s : State) : Out := s.run (fun d => d.wakeIf 8 3)

/-- FLOW_REFRESH_PASS after a time in Vigil (R213). -/
def execFlowRefreshPass (vigilNs : Nat) (s : State) : Out :=
  s.run (fun d => if d.flow.refreshDue then d.refreshAll vigilNs else d)

/-- VIGIL_EXIT_TO_TRAFFIC (R462). -/
def execVigilExitToTraffic (s : State) : Out :=
  s.run (fun d =>
    if d.vigilTraffic then
      ((d.setF (Pg.VIGIL + VIGIL.VIGIL_STATUS) 0 3 0).wr (Pg.VIGIL + VIGIL.EXIT_TIME) (d.usSince d.mon.wakeAt)).raise Pg.VIGIL 10
    else d)

end Sys2Proof.Machine
end

