-- ==== Sys2Proof/Machine/HostIf.lean ====
section
/-! DEFINITION. The host interfaces: PCIe errors, the management controller's messages, the eight DMA rings, the start
of Harvest snapshots, mailboxes and doorbells (16). -/

namespace Sys2Proof.Machine

namespace Dev

/-! ### Rings (R418–R427) -/

/-- `RING_STATUS.FULL` clears once a record could be taken again. -/
def ringRoom (s : Dev) (r : Nat) : Dev :=
  if s.ringIsFull r then s else s.setB (Pg.RING r + RING.RING_STATUS) 29 false

/-- `RUN` changes from 0 to 1: the indices are 0, the next phase 1, and fetching starts (R425). Work that a stop has left
to finish goes on. -/
def ringStart (s : Dev) (r : Nat) : Dev :=
  if s.bit (Pg.RING r + RING.RING_CTRL) 0 then s
  else
    let work := (s.ring r).work
    let t := if (s.ring r).stopping then s.ringHalt r else s
    let t := t.setB (Pg.RING r + RING.RING_CTRL) 0 true
    let t := [RING.SQ_HEAD, RING.SQ_TAIL, RING.CQ_TAIL, RING.CQ_HEAD].foldl (fun t a => t.wr (Pg.RING r + a) 0) t
    let t := (t.wr (Pg.RING r + RING.RING_STATUS) 0x90000000).setB (Pg.DMA + DMA.DMA_STATUS) r true
    t.setRing r { RingSt.init with work := work }

/-- `RUN` written 0: a table-update batch and an image in verification finish first, every other fetched descriptor
completes with FLUSHED; an attestation request ends with its descriptor (R425). -/
def ringStopCmd (s : Dev) (r : Nat) : Dev :=
  if !s.bit (Pg.RING r + RING.RING_CTRL) 0 then s
  else
    let t := s.setB (Pg.RING r + RING.RING_CTRL) 0 false
    let g := t.ring r
    match g.work with
    | some d =>
      if r = 6 then
        let t := (t.setRing r { g with work := none, fetched := d :: g.fetched }).setB (Pg.BOOT + BOOT.ATTEST_STATUS) 30 false
        ({ t with sec := { t.sec with requests := [] } }).ringHalt r
      else t.setRing r { g with stopping := true }
    | none => t.ringHalt r

/-- A write of `SQ_TAIL` (R418). -/
def sqTailSet (s : Dev) (m : Master) (r : Nat) (v : Word) : Dev :=
  let a := Pg.RING r + RING.SQ_TAIL
  s.need m a (decide (idx16 (fieldOf v 0 16) (s.sqHead r) ≤ s.sqSize r)) Err.config
    (fun t => (t.setF a 0 16 (fieldOf v 0 16)).ringRoom r)

/-- A write of `CQ_HEAD`: it re-arms the ring's message, and coalescing restarts on what is left (R418, R427). -/
def cqHeadSet (s : Dev) (m : Master) (r : Nat) (v : Word) : Dev :=
  let a := Pg.RING r + RING.CQ_HEAD
  s.need m a (decide (idx16 (fieldOf v 0 16) (s.cqHead r) ≤ s.unconsumed r)) Err.config (fun t =>
    let t := t.setF a 0 16 (fieldOf v 0 16)
    let t := (t.setRing r { t.ring r with waiting := false }).ringRoom r
    if t.unconsumed r = 0 then t else t.ringInterrupt r)

/-- Records that waited for a buffer are placed, now that one has been fetched. -/
def placeHeld (s : Dev) (r : Nat) : Dev :=
  let l := (s.ring r).held
  l.foldl (fun t x => (t.place r x.1 x.2).1) (s.setRing r { s.ring r with held := [] })

/-- A descriptor of the Lantern ring: to the pool of receive buffers, or to the slot of its lane (R424). `none` while it
cannot be fetched. -/
def fetchLantern (s : Dev) (d : DmaDescriptor) : Option Dev :=
  let g := s.ring 4
  if descBroken 4 d || descEmpty 4 d then some (s.descDone 4 d)
  else if d.flags.getLsbD 0 then
    match Sparse.get (fun _ => none) g.slots d.txLane with
    | some _ => none
    | none => some (s.setRing 4 { g with slots := Sparse.put (fun _ => none) g.slots d.txLane (some d) })
  else if g.fetched.length < 64 then some ((s.setRing 4 { g with fetched := g.fetched ++ [d] }).placeHeld 4)
  else none

/-- A descriptor is fetched, up to 16 ahead of use (R418, R419). -/
def fetchDesc (s : Dev) (r : Nat) (d : DmaDescriptor) : Dev :=
  if !s.ringRuns r || !s.hif.busMaster || !s.sqMore r then s
  else
    let t := s.setF (Pg.RING r + RING.SQ_HEAD) 0 16 (s.sqHead r + 1)
    if r = 4 then match t.fetchLantern d with | some u => u.ringRoom 4 | none => s
    else if 16 ≤ (s.ring r).fetched.length then s
    else
      let g := t.ring r
      (((t.setRing r { g with fetched := g.fetched ++ [d] }).ringNext r).placeHeld r).ringRoom r

/-- The descriptor whose buffer the device was reading: the head of a read ring, or a transmit record of the Lantern ring,
the lowest lane's. -/
def readFailed (s : Dev) (r : Nat) : Option Dev :=
  let g := s.ring r
  if r = 4 then
    match (List.range 16).find? (fun n => (Sparse.get (fun _ => none) g.slots n).isSome) with
    | some n =>
      (Sparse.get (fun _ => none) g.slots n).map (fun d =>
        (s.setRing 4 { g with slots := Sparse.put (fun _ => none) g.slots n none }).complete 4 d.tag 0 3 0 (BitVec.ofNat 32 n))
    | none => none
  else if r = 1 ∨ r = 5 ∨ r = 6 then
    match g.fetched with
    | d :: rest => some ((s.setRing r { g with fetched := rest }).complete r d.tag 0 3 0 0)
    | [] => none
  else none

/-- A device read fails: the descriptor completes with DMA_ERR or the fetch is abandoned, and the ring stops (R426). -/
def ringError (s : Dev) (r : Nat) (ofBuffer : Bool) : Dev :=
  let stop (t : Dev) (code : Nat) : Dev :=
    let st := Pg.RING r + RING.RING_STATUS
    (((t.setB st 30 true).setF st 0 8 code).raise (Pg.RING r) 11).ringOff r
  if !s.ringRuns r then s
  else if ofBuffer then match s.readFailed r with | some t => stop t 2 | none => s
  else if s.sqMore r then stop s 1 else s

/-- The descriptor at the head of a read ring, when its buffer may be taken up. -/
def ringHead (s : Dev) (r : Nat) : Option DmaDescriptor :=
  let g := s.ring r
  if s.ringRuns r && s.hif.busMaster && g.work.isNone then g.fetched.head? else none

/-- A ring-1 buffer of updates is read: its descriptors wait in the update engine, in order (R421). -/
def tableUpdates (s : Dev) (descs : List DescBytes) : Dev :=
  match s.ringHead 1 with
  | none => s
  | some d =>
    let g := s.ring 1
    let n := d.count.toNat
    let zero : DescBytes := List.replicate 64 0
    let job (i : Nat) : UpdJob := { source := .ring i (i + 1 == n), bytes := slice (descs.getD i zero) 0 64 }
    let t : Dev := { s with cls := { s.cls with ringStatus := [] } }
    (t.setRing 1 { g with fetched := g.fetched.drop 1, work := some d }).updAdd ((List.range n).map job)

/-- A ring-5 image of `LEN` bytes is read and waits for verification (R397, R421). -/
def ringImage (s : Dev) (image : List Byte) : Dev :=
  match s.ringHead 5 with
  | none => s
  | some d =>
    let g := s.ring 5
    let img : Image := { path := .ring, owner := masterId .host, bytes := slice image 0 d.len.toNat }
    let t : Dev := { s with sec := { s.sec with verify := s.sec.verify ++ [img] } }
    t.setRing 5 { g with fetched := g.fetched.drop 1, work := some d }

/-! ### Harvest (R428) -/

/-- A start falls due: a snapshot begins, or is skipped. -/
def harvestDue (s : Dev) (cause : Nat) : Dev :=
  let b := Pg.DMA
  if s.hif.hvRun.isSome || s.isl.mcDown || s.ringIsFull 2 then
    let t := (s.count (b + DMA.HV_SKIPPED)).raise b 9
    { t with hif := { t.hif with hvSkips := t.hif.hvSkips + 1 } }
  else
    let t := s.setB (b + DMA.HV_STATUS) 31 true
    { t with hif := { t.hif with hvRun := some cause, hvStart := t.timeBase } }

/-! ### The controller's messages (R417) -/

/-- A reply is sent, or waits for room. -/
def mcReply (s : Dev) (dest : Nat) (words : List Word) : Dev :=
  let t := s.send 2 dest words
  if t.2.1 = 1 then { t.1 with mbx := { t.1.mbx with replies := t.1.mbx.replies ++ [(dest, words)] } } else t.1

/-- The controller takes the head of its inbox and answers the host and the BMC. Bits 23:0 of word 0 of a reply are a
value no rule gives. -/
def mcAnswer (s : Dev) (m : Msg) : Dev :=
  let w (k : Nat) : Word := m.words.getD k 0
  let op := fieldOf (w 0) 24 8
  let t := (s.deliverHead 2).1.setInbox 2 ((s.inbox 2).drop 1)
  if m.sender = 1 ∨ m.sender = 2 then
    let body := if op = 1 then (List.range 6).map (fun k => w (k + 2))
      else if op = 2 then [t.rd (Pg.BOOT + BOOT.FW_VERSION), t.rd (Pg.BOOT + BOOT.BOOT_STATUS), t.rd (Pg.CLKRST + CLKRST.RESET_CAUSE), 0, 0, 0]
      else [0, 0, 0, 0, 0, 0]
    let code := if op = 1 ∨ op = 2 then op + 128 else 255
    let w0 : Word := withField s.freeWord 24 8 code
    t.nextFree.mcReply m.sender.toNat (w0 :: w 1 :: body)
  else t

/-- The message at the head of the controller's inbox, when it is the one given and the controller runs. -/
def mcHead (s : Dev) (sender : Master) (words : List Word) : Option Msg :=
  if s.isl.mcDown then none
  else (s.inbox 2).head?.filter (fun m => m.sender == masterId sender && m.words == words)

/-- A waiting reply is tried again, or after 1 s discarded. -/
def mcRetry (s : Dev) (expired : Bool) : Dev :=
  match s.mbx.replies with
  | [] => s
  | (dest, words) :: rest =>
    let t : Dev := { s with mbx := { s.mbx with replies := rest } }
    if expired then t.count (Pg.DMA + DMA.MC_REPLY_DROPS)
    else
      let u := t.send 2 dest words
      if u.2.1 = 1 then { u.1 with mbx := { u.1.mbx with replies := (dest, words) :: rest } } else u.1

/-! ### Mailbox registers (R431–R438) -/

/-- A read that passes its checks answers; one that fails is logged and reads 0 (R38, R43, R55). -/
def reads (s : Dev) (m : Master) (a : Nat) (f : Dev → Dev × Word) : Dev :=
  match s.readErr m a with
  | some c => (s.logErr m a c).emit (.readData m a 0)
  | none => let t := f s; t.1.emit (.readData m a t.2)

/-- A read of `MBX_SEND` by a master with a staging copy: it sends. A full inbox ends the host's read in Completer Abort
and the controller's in an error response (R431, R432, R437). -/
def mbxSend (s : Dev) (m : Master) : Dev :=
  let a := Pg.MBX 0 + MBX.MBX_SEND
  match s.readErr m a with
  | some c => (s.logErr m a c).emit (.readData m a 0)
  | none =>
    match endpoint m with
    | some e =>
      if 3 ≤ e then s.emit (.readData m a 0)
      else
        let dest := (Sparse.get (fun _ => 0) s.mbx.txDest e).toNat % 256
        let words := (List.range 8).map (fun k => Sparse.get (fun _ => 0) s.mbx.txData (8 * e + k))
        let r := s.send e dest words
        let t := r.1.hostWakes m
        let v := BitVec.ofNat 32 ((if r.2.1 = 0 then 2 ^ 31 else 0) + r.2.1 * 2 ^ 24 + r.2.2)
        if r.2.1 = 1 ∧ m = .host then t.emit (.completerAbort a)
        else if r.2.1 = 1 ∧ m = .mc then t.emit (.busError m a)
        else t.emit (.readData m a v)
    | none => s.emit (.readData m a 0)

/-- The head message is latched for the host or the BMC (R434, R435). -/
def rxLatch (s : Dev) (m : Master) : Dev × Word :=
  match endpoint m with
  | some e =>
    if e < 2 then
      match s.deliverHead e with
      | (t, some (h, ws)) =>
        ({ t with mbx := { t.mbx with latch := Sparse.put (fun _ => (0, [])) t.mbx.latch e (h, ws) } }, BitVec.ofNat 32 h.toNat)
      | (t, none) => (t, 0)
    else (s, 0)
  | none => (s, 0)

/-- The head message of the host's or the BMC's inbox is removed (R434). -/
def rxPop (s : Dev) (m : Master) : Dev :=
  match endpoint m with
  | some e => if e < 2 then s.setInbox e ((s.inbox e).drop 1) else s
  | none => s

/-- The endpoint with an index on a page of `MBX`. -/
def mbxEndpoint (page j : Nat) : Option Nat :=
  if page = 0 then (if j < 3 then some j else none)
  else if j < 8 then some (3 + 8 * (page - 1) + j) else none

/-- An inbox is emptied (R436). -/
def flushInbox (s : Dev) (e : Nat) : Dev :=
  (s.count (mbxBlock e + MBX.FLUSHED) (s.inbox e).length).setInbox e []

/-- A doorbell written on `MBX` page 0 (R437, R438). -/
def dbTx (s : Dev) (m : Master) (e : Nat) (v : Word) : Dev :=
  let a := Pg.MBX 0 + MBX.DB_TX + 4 * e
  match endpoint m with
  | some i => if 3 ≤ i ∨ i = e ∨ 26 < e then s.logErr m a Err.unmapped else (s.doorbell i e v).hostWakes m
  | none => s.logErr m a Err.unmapped

/-- Whether two endpoints stand in stalemate, their inboxes full (R439). -/
def stalled (s : Dev) (a b : Nat) : Bool :=
  Sparse.get (fun _ => none) s.mbx.reject a == some b && Sparse.get (fun _ => none) s.mbx.reject b == some a
    && decide (inboxSize a ≤ (s.inbox a).length) && decide (inboxSize b ≤ (s.inbox b).length)
    && s.fld (Pg.MBX 0 + MBX.STALEMATE_WINDOW) 0 16 != 0

/-- A stalemate is recorded (R439). -/
def stalemate (s : Dev) (a b : Nat) : Dev :=
  if s.stalled a b then
    let x := endpointId a
    let y := endpointId b
    (s.wr (Pg.MBX 0 + MBX.STALEMATE) (BitVec.ofNat 32 (2 ^ 31 + min x y * 2 ^ 8 + max x y))).raise (Pg.MBX 0) 9
  else s

end Dev

/-- POISONED_WRITE (R414). -/
def execPoisonedWrite (s : State) : Out := s.run (fun d => (d.count (Pg.DMA + DMA.POISON_RX)).raise Pg.DMA 10)

/-- BUS_MASTER_DISABLE (R414). -/
def execBusMasterDisable (s : State) : Out := s.run (fun d => { d with hif := { d.hif with busMaster := false } })

/-- SMBUS_STATUS: the status of the last WRITE; a failed PEC discards the transaction (R415). -/
def execSmbusStatus (pecOk : Bool) (s : State) : Out :=
  s.run (fun d => if pecOk then d.emit (.smbus [d.hif.smbStatus]) else d)

/-- SMBUS_TIMEOUT: the interface of the target is reset; it holds no transaction between commands (R416). -/
def execSmbusTimeout (s : State) : Out := s.run (fun d => d)

/-- PING (R417). -/
def execPing (sender : Master) (words : List Word) (s : State) : Out :=
  s.run (fun d => match d.mcHead sender words with
    | some m => if fieldOf (m.words.getD 0 0) 24 8 = 1 then d.mcAnswer m else d
    | none => d)

/-- INFO, and the answer to every other opcode (R417). -/
def execInfo (sender : Master) (words : List Word) (s : State) : Out :=
  s.run (fun d => match d.mcHead sender words with
    | some m => if fieldOf (m.words.getD 0 0) 24 8 = 1 then d else d.mcAnswer m
    | none => d)

/-- MC_REPLY_RETRY (R417). -/
def execMcReplyRetry (expired : Bool) (s : State) : Out := s.run (fun d => if d.isl.mcDown then d else d.mcRetry expired)

/-- RING_RUN_START (R425). -/
def execRingRunStart (m : Master) (r : Ring) (s : State) : Out :=
  s.run (fun d => d.access m (Pg.RING r + RING.RING_CTRL) (fun t => t.ringStart r))

/-- RING_RUN_STOP (R425). -/
def execRingRunStop (m : Master) (r : Ring) (s : State) : Out :=
  s.run (fun d => d.access m (Pg.RING r + RING.RING_CTRL) (fun t => t.ringStopCmd r))

/-- SQ_TAIL_WRITE (R418). -/
def execSqTailWrite (m : Master) (r : Ring) (v : Word) (s : State) : Out :=
  s.run (fun d => d.access m (Pg.RING r + RING.SQ_TAIL) (fun t => t.sqTailSet m r v))

/-- CQ_HEAD_WRITE (R418, R427). -/
def execCqHeadWrite (m : Master) (r : Ring) (v : Word) (s : State) : Out :=
  s.run (fun d => d.access m (Pg.RING r + RING.CQ_HEAD) (fun t => t.cqHeadSet m r v))

/-- DESCRIPTOR_FETCH (R418, R419, R424). -/
def execDescriptorFetch (r : Ring) (x : DmaDescriptor) (s : State) : Out := s.run (fun d => d.fetchDesc r x)

/-- DEVICE_READ_ERROR (R426). -/
def execDeviceReadError (r : Ring) (ofBuffer : Bool) (s : State) : Out := s.run (fun d => d.ringError r ofBuffer)

/-- TABLE_UPDATE_DESCRIPTOR (R421). -/
def execTableUpdateDescriptor (descs : List DescBytes) (s : State) : Out := s.run (fun d => d.tableUpdates descs)

/-- FIRMWARE_UPLOAD (R421). -/
def execFirmwareUpload (image : List Byte) (s : State) : Out := s.run (fun d => d.ringImage image)

/-- BUFFER_FILL_TIMEOUT (R422): on a packed ring with records in its open buffer. -/
def execBufferFillTimeout (r : Ring) (s : State) : Out :=
  s.run (fun d => if (r.val = 0 ∨ r.val = 3 ∨ r.val = 7) ∧ (d.ring r).records ≠ 0 then d.closeBuffer r 0 0 else d)

/-- COALESCE_TIMEOUT (R427). -/
def execCoalesceTimeout (r : Ring) (s : State) : Out :=
  s.run (fun d =>
    let a := Pg.RING r + RING.IRQ_CFG
    if d.bit a 31 ∧ d.fld a 0 8 ≠ 0 ∧ (d.ring r).waiting = false ∧ d.unconsumed r ≠ 0 then d.ringMessage r else d)

/-- HARVEST_PERIOD (R428). -/
def execHarvestPeriod (s : State) : Out :=
  s.run (fun d => if d.assisted Pg.DMA || d.fld (Pg.DMA + DMA.HV_PERIOD) 0 14 == 0 then d else d.harvestDue 1)

/-- HV_SNAP (R428). -/
def execHvSnap (m : Master) (s : State) : Out := s.run (fun d => d.access m (Pg.DMA + DMA.HV_CMD) (fun t => t.harvestDue 2))

/-- MBX_SEND (R431–R433). -/
def execMbxSend (m : Master) (s : State) : Out := s.run (fun d => d.mbxSend m)

/-- RX_HDR_READ (R434, R435). -/
def execRxHdrRead (m : Master) (s : State) : Out := s.run (fun d => d.reads m (Pg.MBX 0 + MBX.RX_HDR) (fun t => t.rxLatch m))

/-- RX_POP (R434). -/
def execRxPop (m : Master) (s : State) : Out := s.run (fun d => d.access m (Pg.MBX 0 + MBX.RX_POP) (fun t => t.rxPop m))

/-- INBOX_FLUSH (R436). -/
def execInboxFlush (m : Master) (page : Fin 4) (j : Fin 16) (s : State) : Out :=
  s.run (fun d => d.lockedAccess m (Pg.MBX page + MBX.INBOX_FLUSH) (fun t =>
    match Dev.mbxEndpoint page j with | some e => t.flushInbox e | none => t))

/-- ROLE_BUMP (R430). -/
def execRoleBump (m : Master) (s : State) : Out :=
  s.run (fun d => d.access m (Pg.MBX 0 + MBX.ROLE_BUMP) (fun t =>
    match Dev.endpoint m with | some e => if e < 2 then t.bumpEpoch e else t | none => t))

/-- DB_TX (R437, R438). -/
def execDbTx (m : Master) (e : Fin 32) (v : Word) (s : State) : Out :=
  s.run (fun d => d.access m (Pg.MBX 0 + MBX.DB_TX + 4 * e) (fun t => t.dbTx m e v))

/-- DB_RX_VAL_READ on `MBX` page 0 (R438). -/
def execDbRxValRead (m : Master) (e : Fin 27) (s : State) : Out :=
  s.run (fun d => d.reads m (Pg.MBX 0 + MBX.DB_RX_VAL + 4 * e) (fun t =>
    match Dev.endpoint m with
    | some r => if r < 3 then t.readDoorbell e r else (t, 0)
    | none => (t, 0)))

/-- STALEMATE (R439). -/
def execStalemate (a b : Master) (s : State) : Out :=
  s.run (fun d => match Dev.endpoint a, Dev.endpoint b with
    | some x, some y => d.stalemate x y
    | _, _ => d)

end Sys2Proof.Machine
end

