-- ==== Sys2Proof/Machine/Boot.lean ====
section
/-! DEFINITION. Start-up, Jogamir images, fuses, debug unlock, the boot flash and attestation (15), and the loading of
sequencer programs (12, R353, R354). -/

namespace Sys2Proof.Machine

/-! ### Fields of a Jogamir image -/

namespace Img
def type (b : List Byte) : Nat := (b.getD 6 0).toNat
def signer (b : List Byte) : Nat := (b.getD 7 0).toNat
def version (b : List Byte) : Word := BitVec.ofNat 32 (natLE (slice b 8 4))
def roll (b : List Byte) : Nat := (b.getD 12 0).toNat
def payLen (b : List Byte) : Nat := natLE (slice b 16 4)
def targets (b : List Byte) : Nat := natLE (slice b 20 4)
def entry (b : List Byte) : Nat := natLE (slice b 24 2)
def codeLen (b : List Byte) : Nat := natLE (slice b 26 2)
def keep (b : List Byte) : Nat := natLE (slice b 28 2)
def role (b : List Byte) : Nat := (b.getD 30 0).toNat
def keyBlock (b : List Byte) : List Byte := (b.drop 128).take 432
def payload (b : List Byte) : List Byte := (b.drop 560).take (payLen b)
/-- The signed message M. -/
def message (b : List Byte) : List Byte := b.take (560 + payLen b)
/-- The slot a signer code names. -/
def slot (b : List Byte) : Nat := signer b - 0x10
def byOwner (b : List Byte) : Bool := decide (0x10 ≤ signer b) && decide (signer b < 0x14)

/-- Check 0x01. -/
def formOk (b : List Byte) : Bool :=
  slice b 0 4 == [0x4A, 0x47, 0x4D, 0x52] && natLE (slice b 4 2) == 1 && allZero (slice b 13 3) && allZero (slice b 31 1)
    && allZero (slice b 80 48) && b.length == 128 + 432 + payLen b + 384 + 16224

/-- The sequencers a program image names, by bulk index. -/
def seqs (b : List Byte) : List Nat :=
  if type b = 2 then ((List.range 16).filter (fun n => (targets b).testBit n)).map (8 + ·)
  else (List.range 8).filter (fun n => (targets b).testBit n)

/-- The fields of a program agree with its payload. -/
def progOk (b : List Byte) : Bool :=
  decide (entry b < 2048) && decide (codeLen b ≤ 2048) && decide (keep b ≤ 1024) && payLen b == 4 * codeLen b + 8192
    && decide (targets b < 2 ^ (if type b = 2 then 16 else 8))
end Img

/-! ### The directory of the boot flash (R395) -/

namespace Directory
/-- Entries that a header counts. -/
def count (b : List Byte) : Nat := natLE (slice b 6 2)

/-- Bytes of entry i. -/
def entryBytes (b : List Byte) (i : Nat) : List Byte := slice b (64 + 64 * i) 64

/-- A copy's magic, version, check and reserved fields are correct; a count above 63 is no count (log entry 85). -/
def valid (b : List Byte) : Bool :=
  let n := count b
  let body := slice b 0 60 ++ [0, 0, 0, 0] ++ slice b 64 (64 * n)
  slice b 0 4 == [0x4A, 0x47, 0x44, 0x52] && natLE (slice b 4 2) == 1 && decide (n ≤ 63) && decide (64 + 64 * n ≤ b.length)
    && allZero (slice b 9 51)
    && (List.range n).all (fun i => allZero (slice (entryBytes b i) 2 2) && allZero (slice (entryBytes b i) 12 52))
    && natLE (slice b 60 4) == crc32c body

/-- The entries of the types that the device knows, in order. -/
def entries (b : List Byte) : List DirEntry :=
  ((List.range (count b)).map (fun i =>
    let e := entryBytes b i
    { type := (e.getD 0 0).toNat, copy := (e.getD 1 0).toNat, offset := natLE (slice e 4 4), length := natLE (slice e 8 4) : DirEntry })).filter
      (fun e => [1, 2, 3, 5, 8].contains e.type)
end Directory

/-- A number from 32-bit words, word 0 lowest. -/
def natOfWords (l : List Word) : Nat := l.foldr (fun w a => w.toNat + 2 ^ 32 * a) 0

/-- The number a digest is, first byte highest. -/
def digestNat (l : List Byte) : Nat := natBE l

namespace Dev

abbrev boot : Nat := Pg.BOOT

/-! ### Fuses (R399–R403) -/

def fuse (s : Dev) (w : Nat) : Word := Sparse.get (fun _ => 0) s.sec.fuses w
def fuseBit (s : Dev) (i : Nat) : Bool := bitOf (s.fuse (i / 32)) (i % 32)
/-- A fused hash: its words, the first lowest (log entry 12). -/
def fuseHash (s : Dev) (w : Nat) : Nat := natOfWords ((List.range 12).map (fun i => s.fuse (w + i)))
def rootHash (s : Dev) (r : Nat) : Nat := s.fuseHash (12 * r)
def slotHash (s : Dev) (k : Nat) : Nat := s.fuseHash (27 + 12 * k)
def rootRevoked (s : Dev) (r : Nat) : Bool := bitOf (s.fuse 24) r
def slotEnrolled (s : Dev) (k : Nat) : Bool := bitOf (s.fuse 75) k
def slotRevoked (s : Dev) (k : Nat) : Bool := bitOf (s.fuse 75) (4 + k)
def debugDisable (s : Dev) : Bool := bitOf (s.fuse 24) 4
def ownerDebugDisable (s : Dev) : Bool := bitOf (s.fuse 24) 5
/-- No slot has ever been enrolled or revoked. -/
def slotsVirgin (s : Dev) : Bool := fieldOf (s.fuse 75) 0 8 == 0
/-- Blown bits of the anti-rollback counter. -/
def rollCtr (s : Dev) : Nat := ((List.range 64).filter (fun i => s.fuseBit (800 + i))).length

/-- The registers that show the fuses: the counter, the key state, the debug flags and the Almanac (words 84 to 91 in the
order of its registers, log entry 12). -/
def fuseShow (s : Dev) : Dev :=
  let f24 := s.fuse 24
  let t := s.wr (boot + BOOT.ROLLBACK_CTR) (BitVec.ofNat 32 s.rollCtr)
  let t := t.wr (boot + BOOT.KEY_STATE) (BitVec.ofNat 32 (fieldOf f24 0 2 * 2 ^ 8 + fieldOf (s.fuse 75) 0 8))
  let t := t.setF (boot + BOOT.DEBUG_STATE) 8 2 (fieldOf f24 4 2)
  let t := (t.wrWords (boot + BOOT.ALM_UID) ((List.range 4).map (fun k => s.fuse (84 + k)))).wr (boot + BOOT.ALM_LOT_LO) (s.fuse 88)
  ((t.wr (boot + BOOT.ALM_LOT_HI) (s.fuse 89)).wr (boot + BOOT.ALM_POS) (s.fuse 90)).wr (boot + BOOT.ALM_INFO) (s.fuse 91)

/-- A fuse command starts, or waits for those before it; with no bit left to blow it is complete. -/
def fuseStart (s : Dev) (bits : List Nat) (job : FuseJob) : Dev :=
  let left := bits.filter (fun i => !s.fuseBit i)
  let st := boot + BOOT.SEC_STATUS
  if left.isEmpty then s.setF st 0 8 0
  else { s.setB st 31 true with sec := { s.sec with blow := s.sec.blow ++ [(left, job)] } }

/-- The first fuse command ends with a result. -/
def fuseEnd (s : Dev) (result : Nat) : Dev :=
  let rest := s.sec.blow.drop 1
  let st := boot + BOOT.SEC_STATUS
  { (s.setF st 0 8 result).setB st 31 (!rest.isEmpty) with sec := { s.sec with blow := rest } }

/-- One bit is programmed and read back: blown at once or on the retry, or not (R399). -/
def fuseProgram (s : Dev) (r : FuseReadback) : Dev :=
  match s.sec.blow with
  | [] => s
  | (bits, job) :: rest =>
    if s.sec.paused || (job == .command && !s.sec.verify.isEmpty) then s
    else if r == .unblown then (s.fuseEnd 0x10).raise boot 10
    else
      match bits with
      | [] => s.fuseEnd 0
      | i :: left =>
        let w := i / 32
        let f := Sparse.put (fun _ => 0) s.sec.fuses w (withBit (s.fuse w) (i % 32) true)
        let t : Dev := { s with sec := { s.sec with fuses := f, blow := (left, job) :: rest } }
        (if left.isEmpty then t.fuseEnd 0 else t).fuseShow

/-- A command of `SEC_CMD` during the hold of R403 is refused. -/
def fuseCmd (s : Dev) (m : Master) (f : Dev → Dev) : Dev :=
  if s.supplyHold then (s.logErr m (boot + BOOT.SEC_CMD) Err.supplyHold).setF (boot + BOOT.SEC_STATUS) 0 8 0x0A else f s

/-- `ADVANCE`: counter bits are blown from the lowest up (R400). -/
def secAdvance (s : Dev) (m : Master) : Dev :=
  let target := s.fld (boot + BOOT.ROLLBACK_TARGET) 0 7
  s.fuseCmd m (fun t =>
    t.need m (boot + BOOT.SEC_CMD) (decide (t.rollCtr < target) && decide (target ≤ t.fld (boot + BOOT.FW_ROLLBACK) 0 7)) Err.config
      (fun t => t.fuseStart ((((List.range 64).map (800 + ·)).filter (fun i => !t.fuseBit i)).take (target - t.rollCtr)) .command))

/-! ### Debug level (R407–R409) and scan (18, R475) -/

/-- A scan ends: the chains are off; the island leaves its reset with its next completion. -/
def scanEnd (s : Dev) : Dev :=
  (s.setB (Pg.BIST + BIST.SCAN_CTRL) 31 false).setF (Pg.BIST + BIST.SCAN_STATUS) 30 2 0

/-- The debug level changes. Before level 2 the attestation keys and every Lantern key slot are erased. -/
def setDebug (s : Dev) (level : Nat) : Dev :=
  let old := s.debugLevel
  let t := if level = 2 then
      let t := s.setB (boot + BOOT.ATTEST_STATUS) 31 false
      let t : Dev := { t with sec := { t.sec with erased := true } }
      (List.range 16).foldl (fun t n => (t.keyErase n false).keyErase n true) t
    else s
  let t := t.setF (boot + BOOT.DEBUG_STATE) 0 2 level
  let t := if level < 2 then t.scanEnd else t
  if level = old then t else t.raise boot 11

/-! ### Checks of an image (R396, R400–R402, R408) -/

def sameKey (b : List Byte) (hash : Nat) : Bool := decide (digestNat (sha384 (Img.keyBlock b)) = hash)

/-- An enrolment that signs itself, no slot having been used (R401). -/
def selfSigned (s : Dev) (b : List Byte) : Bool :=
  Img.type b == 5 && s.slotsVirgin && (Img.payload b).take 432 == Img.keyBlock b

/-- The type of image that the device is about to read. -/
def flashType (s : Dev) : Nat := if s.sec.step = 9 then (if s.sec.retries < 2 then 2 else 3) else 1

/-- The image type its path accepts: from the flash, the type the start-up is due to read. -/
def pathTakes (s : Dev) (img : Image) : Bool :=
  let ty := Img.type img.bytes
  match img.path with
  | .flash => ty == s.flashType
  | .ring => decide (1 ≤ ty) && decide (ty ≤ 6)
  | .data => decide (1 ≤ ty) && decide (ty ≤ 7)

/-- The class of signer a type requires; a revocation takes that of what it revokes. -/
def signerTakes (b : List Byte) : Bool :=
  let vendor := Img.signer b == 0
  match Img.type b with
  | 4 => Img.byOwner b
  | 5 => Img.byOwner b
  | 6 => if (Img.payload b).getD 0 0 < 0x10 then vendor else Img.byOwner b
  | 7 => vendor || Img.byOwner b
  | _ => vendor

/-- Check 0x03: the key block is that of the named signer, which is not revoked. -/
def keyTakes (s : Dev) (b : List Byte) : Bool :=
  if Img.signer b = 0 then (sameKey b (s.rootHash 0) && !s.rootRevoked 0) || (sameKey b (s.rootHash 1) && !s.rootRevoked 1)
  else (sameKey b (s.slotHash (Img.slot b)) && !s.slotRevoked (Img.slot b)) || s.selfSigned b

/-- The load conditions of a program (R353). -/
def loadTakes (s : Dev) (b : List Byte) : Bool :=
  Img.progOk b && (Img.seqs b).all (fun k =>
    (s.seqState k == 0 || s.seqState k == 1)
      && (Img.type b != 4 || (s.assisted (Pg.LSEQ k) && s.slotEnrolled (Img.slot b))))

/-- The conditions of a revocation (R402): a root falls to the other root, a slot to itself or to an enrolled slot. -/
def revokeTakes (s : Dev) (b : List Byte) : Bool :=
  let x := ((Img.payload b).getD 0 0).toNat
  Img.payLen b == 1 &&
    (if x < 2 then sameKey b (s.rootHash (1 - x)) && !s.rootRevoked (1 - x)
     else decide (0x10 ≤ x) && decide (x < 0x14) && s.slotEnrolled (Img.slot b))

/-- The conditions of an enrolment (R401). -/
def enrolTakes (s : Dev) (img : Image) : Bool :=
  let b := img.bytes
  let k := ((Img.payload b).getD 432 0).toNat
  s.holder 0x0F8 == img.owner && Img.payLen b == 433 && decide (k < 4) && !s.slotEnrolled k && !s.slotRevoked k
    && (s.slotEnrolled (Img.slot b) || s.selfSigned b)

/-- The conditions of a debug token (R408). -/
def tokenTakes (s : Dev) (b : List Byte) : Bool :=
  let p := Img.payload b
  let level := (p.getD 48 0).toNat
  let chal := (s.rdWords (boot + BOOT.DBG_CHAL) 8).flatMap wordBytesBE
  let uid := (s.rdWords (boot + BOOT.ALM_UID) 4).reverse.flatMap wordBytesBE
  Img.payLen b == 64 && s.sec.chalValid && slice p 0 32 == chal && slice p 32 16 == uid && allZero (slice p 49 15)
    && (level == 1 || (level == 2 && Img.signer b == 0)) && !s.debugDisable
    && (Img.signer b == 0 || (s.slotEnrolled (Img.slot b) && !s.ownerDebugDisable))

/-- Check 0x09, by type. -/
def targetTakes (s : Dev) (img : Image) : Bool :=
  let b := img.bytes
  match Img.type b with
  | 1 => decide (Img.payLen b ≤ 1572864)
  | 5 => s.enrolTakes img
  | 6 => s.revokeTakes b
  | 7 => s.tokenTakes b
  | _ => s.loadTakes b

/-- The result code of an image: the first check that fails, in the order of R396. -/
def imageCode (s : Dev) (img : Image) (c : ImageCrypto) : Nat :=
  let b := img.bytes
  let ty := Img.type b
  if !Img.formOk b then 1
  else if !s.pathTakes img || !signerTakes b then 2
  else if !s.keyTakes b then 3
  else if decide (sha384 (Img.payload b) ≠ slice b 32 48) then 4
  else if !c.rsaOk && !c.slhOk then 7
  else if !c.rsaOk then 5
  else if !c.slhOk then 6
  else if ty ≤ 3 ∧ Img.roll b < s.rollCtr then 8
  else if !s.targetTakes img then 9
  else if (ty = 5 ∨ ty = 6) ∧ s.supplyHold = true then 10
  else 0

/-! ### Stages of the start-up (R390–R394) -/

def setStage (s : Dev) (step stage : Nat) : Dev :=
  { s.setF (boot + BOOT.BOOT_STATUS) 0 4 stage with sec := { s.sec with step := step } }

/-- Islands 0 to 59 leave reset, or return to it. -/
def datapathOut (s : Dev) (out : Bool) : Dev :=
  let r := (List.range 60).foldl (fun m i => Sparse.put (fun _ => false) m i out) s.isl.released
  { s with isl := { s.isl with released := r } }

/-- RECOVERY at an event of the sequence, with its cause (R393). -/
def recovery (s : Dev) (event cause : Nat) : Dev :=
  let t := (s.setF (boot + BOOT.BOOT_STATUS) 0 4 8).setF (boot + BOOT.BOOT_STATUS) 16 8 cause
  let t : Dev := { t with sec := { t.sec with failed := event, flashDev := false } }
  (t.datapathOut false).raise boot 8

/-- The last events: with the programs verified and every load complete, READY. -/
def bootReady (s : Dev) : Dev :=
  if s.sec.step = 9 ∧ s.bootStage = 6 ∧ (List.range 24).all (fun k => s.seqState k != 5) then (s.setStage 11 7).raise boot 8 else s

/-- The controller runs a firmware. -/
def runFirmware (s : Dev) (version : Word) (roll : Nat) (meas : List Byte) : Dev :=
  let t := (s.wr (boot + BOOT.FW_VERSION) version).setF (boot + BOOT.FW_ROLLBACK) 0 7 roll
  { t with sec := { t.sec with measFw := meas } }

/-- Event 5: the controller is released. -/
def fwRun (s : Dev) : Dev :=
  let t := s.setStage 5 3
  { t with isl := { t.isl with mcDown := false }, sec := { t.sec with flashDev := false, retries := 0, calSlice := 0 } }

/-- The pending firmware is loaded (R404). -/
def loadPending (s : Dev) : Dev :=
  match s.sec.pendFw with
  | some (v, r, m) =>
    let t := (s.runFirmware v r m).setB (boot + BOOT.BOOT_STATUS) 5 false
    { t with sec := { t.sec with pendFw := none } }
  | none => s

/-- Both copies of a start-up program have been tried, or one has been accepted: the next kind is due, or the loads
(R393, step 10). -/
def nextProgram (s : Dev) : Dev :=
  let r := if s.sec.retries < 2 then 2 else 4
  let t : Dev := { s with sec := { s.sec with retries := r } }
  if r = 4 then
    let t : Dev := { t with sec := { t.sec with flashDev := false } }
    (t.setStage 9 6).bootReady
  else t

/-- What a copy that is rejected or absent leads to (R393); a controller that waits for its firmware tries the copies in
turn. -/
def flashPassed (s : Dev) : Dev :=
  let x := s.sec
  if x.retries % 2 = 0 then { s with sec := { x with retries := x.retries + 1 } }
  else if x.step = 3 then s.recovery 5 2
  else if x.step = 9 then (if x.retries < 2 then s.recovery 10 4 else s.nextProgram)
  else { s with sec := { x with retries := x.retries - 1 } }

/-- Start-up reads its images, the firmware or the programs. -/
def flashBoots (s : Dev) : Bool := s.bootStage != 8 && (s.sec.step == 3 || (s.sec.step == 9 && decide (s.sec.retries < 4)))

/-- Copies that the directory does not name are passed over (R395; log entry 85). -/
def flashSeek : Nat → Dev → Dev
  | 0, s => s
  | n + 1, s => if s.flashBoots && (s.dirEntry s.flashType (s.sec.retries % 2)).isNone then flashSeek n s.flashPassed else s

/-- An image from the flash is rejected. -/
def flashRejected (s : Dev) : Dev := flashSeek 6 s.flashPassed

/-! ### What an image does (R397, R400–R404) -/

/-- A firmware image: at start-up, or read again for a controller in reset, it is the one that runs; else it is held. -/
def takeFirmware (s : Dev) (img : Image) : Dev :=
  let b := img.bytes
  let meas := sha384 (Img.message b)
  if img.path = .flash then
    let t := s.runFirmware (Img.version b) (Img.roll b) meas
    if t.sec.step = 3 then t.fwRun else t
  else
    let t := s.setB (boot + BOOT.BOOT_STATUS) 5 true
    { t with sec := { t.sec with pendFw := some (Img.version b, Img.roll b, meas) } }

/-- A program: its targets begin to load. Those of the start-up are enabled (12, R353). -/
def takeProgram (s : Dev) (img : Image) : Dev :=
  let b := img.bytes
  let t : Dev := if Img.type b = 3 then { s with sec := { s.sec with loopProg := some b } } else s
  let flash := img.path == .flash
  let t := (Img.seqs b).foldl (fun t k => (if flash then t.setB (Pg.LSEQ k + HDR.PAGE_CTRL) 0 true else t).loadBegin k b) t
  if flash then flashSeek 6 t.nextProgram else t

/-- The effect of an accepted image. -/
def imageTaken (s : Dev) (img : Image) : Dev :=
  let b := img.bytes
  let p := Img.payload b
  match Img.type b with
  | 1 => s.takeFirmware img
  | 5 =>
    let k := (p.getD 432 0).toNat
    let h := digestNat (sha384 (p.take 432))
    let bits := ((List.range 384).filter (fun i => h.testBit i)).map (32 * (27 + 12 * k) + ·)
    s.fuseStart (bits ++ [32 * 75 + k]) .enrol
  | 6 =>
    let x := (p.getD 0 0).toNat
    s.fuseStart [if x < 2 then 32 * 24 + x else 32 * 75 + 4 + (x - 0x10)] .revoke
  | 7 => s.setDebug (p.getD 48 0).toNat
  | _ => s.takeProgram img

/-- The image at the head has been checked: it acts or is rejected, and its ring descriptor completes (R396, R397). -/
def imageVerified (s : Dev) (c : ImageCrypto) : Dev :=
  match s.sec.verify with
  | [] => s
  | img :: rest =>
    let b := img.bytes
    let code := s.imageCode img c
    let st := boot + BOOT.IMG_STATUS
    let t : Dev := { s with sec := { s.sec with verify := rest } }
    let t := (t.setF st 16 8 (Img.type b)).setF st 0 8 code
    let t := if img.path = .data then t.setB st 31 true else t
    let t := if img.path = .flash ∧ Img.type b = 1 ∧ t.bit (boot + BOOT.BOOT_STATUS) 6 = false then t.setF (boot + BOOT.BOOT_STATUS) 8 8 code else t
    let t : Dev := if Img.type b = 7 ∧ (code = 0 ∨ code = 9) then { t with sec := { t.sec with chalValid := false } } else t
    let t := if code = 0 then t.imageTaken img
      else
        let t := (t.count (boot + BOOT.IMG_REJECTS)).raise boot 9
        let t := if 2 ≤ Img.type b ∧ Img.type b ≤ 4 then (Img.seqs b).foldl (fun t k => t.raise (Pg.LSEQ k) 12) t else t
        if img.path = .flash then t.flashRejected else t
    if img.path = .ring then
      let g := t.ring 5
      match g.work with
      | some d =>
        let t := (t.setRing 5 { g with work := none }).complete 5 d.tag d.len.toNat (if code = 0 then 0 else 5) 0 (BitVec.ofNat 32 code)
        if g.stopping then t.ringHalt 5 else t.ringNext 5
      | none => t
    else t

/-! ### Loading a program (12, R348, R349, R353, R354) -/

/-- A load is complete: memories, `PROG_INFO`, `ROLE` and the measurement are the image's, and the sequencer starts or
halts. -/
def loadEnd (s : Dev) (k : Nat) : Dev :=
  match (s.sq k).load with
  | none => s
  | some b =>
    let p := Img.payload b
    let n := Img.codeLen b
    let code := (List.range n).foldl (fun m i => Sparse.put (fun _ => 0xFFFFFFFF) m i (BitVec.ofNat 32 (natLE (slice p (4 * i) 4)))) []
    let data := (List.range 1024).foldl (fun m i => Sparse.put (fun _ => 0) m i (BitVec.ofNat 40 (natLE (slice p (4 * n + 8 * i) 5)))) []
    let x := s.sq k
    let vendor := x.toVendor
    let t := s.setSq k { x with imem := code, dmem := data, data0 := data, entry := Img.entry b, load := none, toVendor := false }
    let lseq := Pg.LSEQ k
    let owner := if Img.type b = 4 then 2 ^ 30 + Img.slot b * 2 ^ 28 else 0
    let t := t.wr (lseq + LSEQ.PROG_INFO) (BitVec.ofNat 32 (2 ^ 31 + owner + Img.keep b * 2 ^ 16 + n))
    let t := (t.wr (lseq + LSEQ.PROG_VER) (Img.version b)).setF (lseq + LSEQ.ROLE) 0 8 (Img.role b)
    let t := (t.stepEpoch k).raise lseq 11
    let t : Dev := { t with sec := { t.sec with measSeq := Sparse.put (fun _ => []) t.sec.measSeq k (sha384 (Img.message b)) } }
    let t := (t.setPc k (Img.entry b)).setSeqState k 1
    let t := if t.enabled lseq && (vendor || t.bit (lseq + LSEQ.SEQ_CTRL) 0) then t.seqBegin k else t
    t.bootReady

/-! ### Start-up events -/

/-- Events 1 and 2: the privileged islands leave reset, the fuses are sensed (R391, R399). -/
def bootRelease (s : Dev) : Dev :=
  let r := [60, 61, 62].foldl (fun m i => Sparse.put (fun _ => false) m i true) s.isl.released
  let t : Dev := { s with isl := { s.isl with released := r, mcDown := true }, mon := { s.mon with railsDown := [] } }
  (t.setStage 2 1).fuseShow

/-- Event 3: the first valid copy of the directory is used (R395). -/
def bootDirectory (s : Dev) (d : DirectoryFound) : Dev :=
  if Directory.valid d.copyA || Directory.valid d.copyB then
    let a := Directory.valid d.copyA
    let t := (s.setB (boot + BOOT.BOOT_STATUS) 7 (!a)).setStage 3 1
    let dir := Directory.entries (if a then d.copyA else d.copyB)
    flashSeek 6 { t with sec := { t.sec with flashDev := true, retries := 0, dir := dir } }
  else s.recovery 3 1

/-- A copy of an image is to be read from the flash, of the length its directory entry gives: the firmware at start-up and
for a controller in reset, the programs at event 10. Copy B comes second (R393, R395, R404). -/
def flashDue (s : Dev) (copyB : Bool) (length : Nat) : Bool :=
  let x := s.sec
  let copy := if copyB then 1 else 0
  x.retries % 2 == copy && !x.verify.any (fun i => i.path == .flash)
    && (s.dirEntry s.flashType copy).any (fun e => e.length == length)
    && (s.flashBoots || (s.isl.mcDown && x.pendFw.isNone && decide (x.step = 4 ∨ x.step = 11)))

/-- Event 4: the image is read and waits for verification. -/
def flashRead (s : Dev) (copyB : Bool) (image : List Byte) : Dev :=
  let x := s.sec
  let img : Image := { path := .flash, owner := masterId .mc, bytes := image }
  let boots := x.step == 3
  let t : Dev := { s with sec := { x with verify := x.verify ++ [img] } }
  let t := if x.step = 9 then t else t.setB (boot + BOOT.BOOT_STATUS) 6 copyB
  if boots then t.setF (boot + BOOT.BOOT_STATUS) 0 4 2 else t

/-- The PLLs of event 6 are locked. -/
def bootPlls (s : Dev) : Bool :=
  let a := Pg.CLKRST + CLKRST.PLL_STATUS
  s.fld a 0 4 == 15 && s.fld a 14 4 == 15 && s.bit a 12 && !s.bit (Pg.CLKRST + CLKRST.REF_STATUS) 0

/-- Event 7: the stacks are trained (R393). -/
def hbmTrained (s : Dev) (failed : Nat) : Dev :=
  let bad := (List.range 4).filter (fun k => failed.testBit k)
  if 2 ≤ bad.length then s.recovery 7 3
  else
    let t := ((List.range 4).foldl (fun t k => t.setF (Pg.HBM k + HBM.STACK_STATUS) 0 2 (if failed.testBit k then 0 else 3)) s).datapathOut true
    let t := bad.foldl (fun t k => (t.openFault 12 (54 + k) none false k).retireStack k) t
    (t.bufShow).setStage 7 4

/-- Event 9: the measurement of a slice's record at start-up (R361, R393). -/
def bootCalibrated (s : Dev) (sl : Nat) (q : CalMeasurement) : Dev :=
  if s.sec.step = 8 ∧ s.sec.calSlice = sl then
    let t := s.calSingle (16 + sl) false q
    let t : Dev := { t with sec := { t.sec with calSlice := sl + 1 } }
    if sl = 3 then
      let t := t.setStage 9 5
      flashSeek 6 { t with sec := { t.sec with retries := 0, flashDev := true } }
    else t
  else s

/-- `BOOT_CMD.RETRY`: the sequence goes on at the step that failed (R393). -/
def bootRetry (s : Dev) (m : Master) : Dev :=
  s.need m (boot + BOOT.BOOT_CMD) (s.bootStage == 8) Err.state (fun t =>
    let t := t.setF (boot + BOOT.BOOT_STATUS) 16 8 0
    let f := t.sec.failed
    if f = 3 then t.setStage 2 1
    else if f = 5 then
      if t.sec.pendFw.isSome then t.loadPending.fwRun
      else
        let t := t.setStage 3 1
        flashSeek 6 { t with sec := { t.sec with retries := 0, flashDev := true } }
    else if f = 7 then t.setStage 5 3
    else
      let t := (t.datapathOut true).setStage 9 5
      flashSeek 6 { t with sec := { t.sec with retries := 0, flashDev := true } })

/-! ### Shutdown of the privileged set (17, R455; R394) -/

/-- What a shutdown of the privileged set does: the datapath goes off too, a fuse command ends (R403). -/
def privShutdown (s : Dev) (z : Nat) : Dev :=
  let t := s.datapathShutdown 1 z (twosOf 16 (s.zoneNow z / 8))
  let t := t.wr (Pg.THERM + THERM.PRIV_TRIP) (BitVec.ofNat 32 (2 ^ 31 + z))
  let t := if t.sec.blow.isEmpty then t else t.setB (boot + BOOT.SEC_STATUS) 31 false
  { t with isl := { t.isl with privDown := true, mcDown := true }, sec := { t.sec with blow := [] } }

/-- The privileged set restarts: a reset with its cause, and events 1 to 5 with the firmware that ran. -/
def privRestart (s : Dev) : Dev :=
  let x := s.sec
  let v := s.rd (boot + BOOT.FW_VERSION)
  let r := s.fld (boot + BOOT.FW_ROLLBACK) 0 7
  let t := s.deviceReset 4
  let t : Dev := { t with isl := { t.isl with privDown := false } }
  let t := (t.bootRelease.runFirmware v r x.measFw).fwRun
  t.setF (boot + BOOT.BOOT_STATUS) 0 4 9

/-! ### Image stream (R398) and host flash access (R410) -/

/-- IMG_CMD.BEGIN. With `IMG_LEN` 0 it completes with EMPTY and leaves an open stream as it is (R70, R398; log entry 50). -/
def imgBegin (s : Dev) (m : Master) : Dev :=
  let st := boot + BOOT.IMG_STATUS
  let n := s.fld (boot + BOOT.IMG_LEN) 0 21
  if n = 0 then s.setF st 30 2 3
  else { s.setF st 29 3 1 with sec := { s.sec with stream := some (n, masterId m, []) } }

def imgData (s : Dev) (m : Master) (v : Word) : Dev :=
  let a := boot + BOOT.IMG_DATA
  match s.sec.stream with
  | some (n, o, l) =>
    if o = masterId m then
      let l' := (l ++ bytesLE 4 v.toNat).take n
      if l'.length = n then
        let img : Image := { path := .data, owner := o, bytes := l' }
        { s.setB (boot + BOOT.IMG_STATUS) 29 false with sec := { s.sec with stream := none, verify := s.sec.verify ++ [img] } }
      else { s with sec := { s.sec with stream := some (n, o, l') } }
    else s.logErr m a Err.state
  | none => s.logErr m a Err.state

def flashGo (s : Dev) (m : Master) : Dev :=
  let a := boot + BOOT.FLASH_GO
  let st := boot + BOOT.FLASH_STATUS
  let x := boot + BOOT.FLASH_XFER
  let outN := s.fld x 0 9
  let inN := s.fld x 16 9
  s.need m a (decide (7 ≤ s.bootStage) && !s.sec.flashDev && !s.bit st 29) Err.state (fun t =>
    t.need m a (decide (outN ≤ 264) && decide (inN ≤ 256)) Err.config (fun t =>
      if outN = 0 then t.setF st 29 3 6
      else
        let bytes := ((t.rdWords (boot + BOOT.FLASH_DATA) 66).flatMap wordBytesBE).take outN
        (t.setF st 29 3 1).emit (.flash bytes inN)))

/-- The bytes read go into `FLASH_DATA` from byte 0. -/
def flashDone (s : Dev) (bytes : List Byte) : Dev :=
  let st := boot + BOOT.FLASH_STATUS
  if s.bit st 29 then
    let old := (s.rdWords (boot + BOOT.FLASH_DATA) 66).flatMap wordBytesBE
    let got := slice bytes 0 (min 256 (s.fld (boot + BOOT.FLASH_XFER) 16 9))
    let new := got ++ old.drop got.length
    ((s.wrWords (boot + BOOT.FLASH_DATA) ((List.range 66).map (wordBE new))).setF st 29 3 4).raise boot 13
  else s

/-! ### Attestation (R405, R406) -/

/-- The directory's entry of the device certificates. -/
def certEntry (s : Dev) : Option DirEntry := (s.dirEntry 8 0).or (s.dirEntry 8 1)

/-- The configuration measurement. -/
def configMeas (s : Dev) : List Byte :=
  let fuses := (List.range 52).flatMap (fun i => bytesLE 4 (s.fuse (24 + i)).toNat)
  let modes := (List.range 8).foldl (fun a i => if s.assisted (Pg.LSEQ i) then a + 2 ^ i else a) 0
  sha384 (fuses ++ s.sec.biyley.getD [] ++ [BitVec.ofNat 8 modes, BitVec.ofNat 8 s.debugLevel])

/-- 48 bytes of a measurement, zero where there is none. -/
def meas48 (l : List Byte) : List Byte := slice l 0 48

/-- Bytes 0 to 1,351 of a report. -/
def reportBody (s : Dev) (q : AttReq) : List Byte :=
  let b (c : Bool) (i : Nat) := if c then 2 ^ i else 0
  let certs := s.bit (boot + BOOT.ATTEST_STATUS) 29
  let owner := (List.range 8).any (fun k => s.fld (Pg.LSEQ k + LSEQ.PROG_INFO) 30 2 == 3)
  let flags := b (!certs) 0 + b (s.debugLevel != 0) 1 + b (s.bootStage == 8) 2 + b owner 3
  let hi := boot + BOOT.ALM_LOT_HI
  let lot := s.fld hi 0 4 * 2 ^ 32 + (s.rd (boot + BOOT.ALM_LOT_LO)).toNat
  let info := boot + BOOT.ALM_INFO
  let seqMeas (k : Nat) := meas48 (Sparse.get (fun _ => []) s.sec.measSeq k)
  [0x4A, 0x47, 0x41, 0x52] ++ bytesLE 2 1 ++ bytesLE 2 flags ++ bytesLE 4 1352 ++ bytesLE 4 q.tag.toNat ++ bytesLE 8 s.sec.reports
    ++ bytesBE 32 q.nonce.toNat ++ (s.rdWords (boot + BOOT.ALM_UID) 4).reverse.flatMap wordBytesBE ++ bytesBE 5 lot
    ++ [BitVec.ofNat 8 (s.fld hi 8 5), BitVec.ofNat 8 (s.fld (boot + BOOT.ALM_POS) 0 8), BitVec.ofNat 8 (s.fld (boot + BOOT.ALM_POS) 8 8)]
    ++ bytesLE 2 (s.fld info 16 16) ++ [BitVec.ofNat 8 (s.fld info 0 4)] ++ List.replicate 5 0 ++ bytesLE 8 s.timeBase.toNat
    ++ meas48 s.sec.measFw ++ (List.range 24).flatMap seqMeas ++ s.configMeas ++ bytesLE 4 (s.rd (boot + BOOT.FW_VERSION)).toNat
    ++ [BitVec.ofNat 8 s.rollCtr, BitVec.ofNat 8 (s.fld (boot + BOOT.FW_ROLLBACK) 0 7), BitVec.ofNat 8 (fieldOf (s.fuse 75) 0 8), BitVec.ofNat 8 s.debugLevel]

/-- A request is taken from the attestation ring. -/
def attestTake (s : Dev) (nonce : BitVec 256) (bufLen : Nat) (tag : Word) : Dev :=
  match s.ringHead 6 with
  | none => s
  | some d =>
    if d.len.toNat = bufLen ∧ d.tag = tag then
      let g := s.ring 6
      let t := (s.setRing 6 { g with fetched := g.fetched.drop 1, work := some d }).setB (boot + BOOT.ATTEST_STATUS) 30 true
      { t with sec := { t.sec with requests := t.sec.requests ++ [{ nonce := nonce, bufLen := bufLen, tag := tag }] } }
    else s

/-- A report is returned: its body, the two signatures, whose bytes are values no rule gives, and the certificates; or the
buffer is too short and the request ends TRUNCATED. -/
def attestReport (s : Dev) : Dev :=
  match s.sec.requests, (s.ring 6).work with
  | q :: rest, some d =>
    if s.bit (boot + BOOT.ATTEST_STATUS) 31 then
      let c := s.sec.certs.length
      let signed : List Byte := (List.range 16608).map (fun i => BitVec.ofNat 8 (Config.freeWord (s.fresh + i)).toNat)
      let t := (s.setRing 6 { s.ring 6 with work := none }).setB (boot + BOOT.ATTEST_STATUS) 30 false
      let t : Dev := { t with sec := { t.sec with requests := rest } }
      if q.bufLen < 17964 + c then (t.complete 6 d.tag 0 1 0 (BitVec.ofNat 32 (17964 + c))).ringNext 6
      else
        let bytes := s.reportBody q ++ signed ++ bytesLE 4 c ++ s.sec.certs
        let t : Dev := { t with sec := { t.sec with reports := t.sec.reports + 1 }, fresh := t.fresh + 16608 }
        (((t.count (boot + BOOT.ATTESTS)).emit (.dmaWrite 6 d.addr bytes)).complete 6 d.tag (17964 + c) 0 1 0).ringNext 6
    else s
  | _, _ => s

end Dev

/-- POWER_ON_RESET_RELEASE: with REFCLK_HOST present (R391). -/
def execPowerOnResetRelease (s : State) : Out :=
  s.run (fun d => if d.sec.step = 0 ∧ d.isl.privDown = false ∧ d.bit (Pg.CLKRST + CLKRST.REF_STATUS) 1 = false then d.bootRelease else d)

/-- DIRECTORY_READ (R393, R395). -/
def execDirectoryRead (x : DirectoryFound) (s : State) : Out := s.run (fun d => if d.sec.step = 2 ∧ d.bootStage = 1 then d.bootDirectory x else d)

/-- FIRMWARE_READ; the start-up programs are read in the same way (R393, R395). -/
def execFirmwareRead (copyB : Bool) (image : List Byte) (s : State) : Out :=
  s.run (fun d => if d.flashDue copyB image.length then d.flashRead copyB image else d)

/-- HBM_TRAINING_DONE (R393). -/
def execHbmTrainingDone (failed : BitVec 4) (s : State) : Out :=
  s.run (fun d => if d.sec.step = 5 ∧ d.bootStage = 3 ∧ d.isl.held = false ∧ d.bootPlls = true then d.hbmTrained failed.toNat else d)

/-- STARTUP_CALIBRATION_DONE (R361). -/
def execStartupCalibrationDone (sl : Slice) (meas : CalMeasurement) (s : State) : Out := s.run (fun d => d.bootCalibrated sl meas)

/-- BOOT_RETRY (R393). -/
def execBootRetry (m : Master) (s : State) : Out := s.run (fun d => d.lockedAccess m (Pg.BOOT + BOOT.BOOT_CMD) (fun t => t.bootRetry m))

/-- PRIVILEGED_SHUTDOWN (R455). -/
def execPrivilegedShutdown (z : Zone) (s : State) : Out := s.run (fun d => if d.isl.privDown then d else d.privShutdown z)

/-- PRIVILEGED_RESTART (R394, R455). -/
def execPrivilegedRestart (s : State) : Out := s.run (fun d => if d.isl.privDown then d.privRestart else d)

/-- IMG_BEGIN (R398). -/
def execImgBegin (m : Master) (s : State) : Out := s.run (fun d => d.lockedAccess m (Pg.BOOT + BOOT.IMG_CMD) (fun t => t.imgBegin m))

/-- IMG_ABORT (R398). -/
def execImgAbort (m : Master) (s : State) : Out :=
  s.run (fun d => d.lockedAccess m (Pg.BOOT + BOOT.IMG_CMD) (fun t => t.dropStream (masterId m)))

/-- IMG_DATA (R398). -/
def execImgData (m : Master) (v : Word) (s : State) : Out :=
  s.run (fun d => d.access m (Pg.BOOT + BOOT.IMG_DATA) (fun t => t.imgData m v))

/-- IMAGE_VERIFICATION (R396, R397). -/
def execImageVerification (c : ImageCrypto) (s : State) : Out := s.run (fun d => d.imageVerified c)

/-- SEC_ADVANCE (R400, R403). -/
def execSecAdvance (m : Master) (s : State) : Out :=
  s.run (fun d => d.lockedAccess m (Pg.BOOT + BOOT.SEC_CMD) (fun t => t.secAdvance m))

/-- SEC_DEBUG_DISABLE (R399, R403). -/
def execSecDebugDisable (m : Master) (s : State) : Out :=
  s.run (fun d => d.lockedAccess m (Pg.BOOT + BOOT.SEC_CMD) (fun t => t.fuseCmd m (fun t => t.fuseStart [32 * 24 + 4] .command)))

/-- SEC_OWNER_DEBUG_DISABLE (R399, R403). -/
def execSecOwnerDebugDisable (m : Master) (s : State) : Out :=
  s.run (fun d => d.lockedAccess m (Pg.BOOT + BOOT.SEC_CMD) (fun t => t.fuseCmd m (fun t => t.fuseStart [32 * 24 + 5] .command)))

/-- FUSE_BIT_PROGRAM (R399, R403). -/
def execFuseBitProgram (r : FuseReadback) (s : State) : Out := s.run (fun d => d.fuseProgram r)

/-- DBG_CHALLENGE (R408). -/
def execDbgChallenge (m : Master) (random : BitVec 256) (s : State) : Out :=
  s.run (fun d => d.access m (Pg.BOOT + BOOT.DBG_CMD) (fun t =>
    let t := t.wrWords (Pg.BOOT + BOOT.DBG_CHAL) ((List.range 8).map (wordBE (bytesBE 32 random.toNat)))
    { t with sec := { t.sec with chalValid := true } }))

/-- DBG_RELOCK (R409). -/
def execDbgRelock (m : Master) (s : State) : Out :=
  s.run (fun d => d.access m (Pg.BOOT + BOOT.DBG_CMD) (fun t => t.setDebug 0))

/-- FLASH_GO (R410). -/
def execFlashGo (m : Master) (s : State) : Out := s.run (fun d => d.lockedAccess m (Pg.BOOT + BOOT.FLASH_GO) (fun t => t.flashGo m))

/-- FLASH_DONE (R410). -/
def execFlashDone (bytes : List Byte) (s : State) : Out := s.run (fun d => d.flashDone bytes)

/-- ATTEST_KEYS_READY: once after each reset, and not after an erasure; with it the certificates as the flash holds them,
when its directory names them (R405, R409). -/
def execAttestKeysReady (certs : List Byte) (s : State) : Out :=
  s.run (fun d =>
    let st := Pg.BOOT + BOOT.ATTEST_STATUS
    if 2 ≤ d.sec.step ∧ d.sec.erased = false ∧ d.bit st 31 = false then
      let named := d.certEntry
      let t : Dev := { d with sec := { d.sec with certs := slice certs 0 (named.map DirEntry.length |>.getD 0) } }
      ((t.setB st 31 true).setB st 29 named.isSome).raise Pg.BOOT 12
    else d)

/-- ATTESTATION_REQUEST (R405). -/
def execAttestationRequest (nonce : BitVec 256) (bufLen : Nat) (tag : Word) (s : State) : Out :=
  s.run (fun d => d.attestTake nonce bufLen tag)

/-- ATTESTATION_REPORT (R405, R406). -/
def execAttestationReport (s : State) : Out := s.run (fun d => d.attestReport)

/-- LOAD_COMPLETE (R349, R353). -/
def execLoadComplete (k : SeqId) (s : State) : Out := s.run (fun d => if d.seqState k = 5 then d.loadEnd k else d)

/-- LSEQ_HOST_ASSIST_CLEAR (R354). -/
def execLseqHostAssistClear (m : Master) (i : Fin 8) (s : State) : Out :=
  let a := Pg.LSEQ i + HDR.PAGE_CTRL
  s.run (fun d => d.access m a (fun t => if t.bit a 1 then (t.setB a 1 false).ownerLeaves i else t))

end Sys2Proof.Machine
end

