-- ==== Sys2Proof/Machine/Egress.lean ====
section
/-! DEFINITION. Slice configuration and line pause (01, R9, R27–R29, R508; 08, R246, R263), the egress FIFO, flow
control toward the NPU and two-step reports (08, R255–R271, R507). -/

namespace Sys2Proof.Machine

namespace Dev

/-! ### Slice configuration -/

/-- Every line lane and host lane of a slice is OFF (R9). -/
def sliceOff (s : Dev) (sl : Nat) : Bool :=
  (List.range 4).all (fun q => s.rxState (4 * sl + q) == 0 && s.txState (4 * sl + q) == 0 && s.hostState (4 * sl + q) == 0)

/-- Held lanes of a slice leave OFF when a write has removed the cause (R28). -/
def sliceRetry (s : Dev) (sl : Nat) : Dev :=
  (List.range 4).foldl (fun t q => ((t.rxTryUp (4 * sl + q)).txTryUp (4 * sl + q)).hostTryUp (4 * sl + q)) s

/-- A `SLICE_CFG` value is malformed (R27). -/
def sliceCfgBad (s : Dev) (sl : Nat) (v : Word) : Bool :=
  let layout := fieldOf v 8 3
  decide (4 < layout)
    || (List.range 4).any (fun q => bitOf v (4 + q) && layoutWidth layout q == 0)
    || (List.range 4).any (fun q => decide (layoutWidth layout q ≠ 0)
        && decide (layoutWidth layout q * 1024 < s.fld (egBase (4 * sl + q) + SLICE.EG_XOFF) 0 13))

/-- A write of `SLICE_CFG`: CONFIG_REJECT, STATE_REJECT, or taken whole (R9, R27). -/
def sliceCfgSet (s : Dev) (m : Master) (sl : Nat) (v : Word) : Dev :=
  let a := Pg.SLICE sl + SLICE.SLICE_CFG
  if s.sliceCfgBad sl v then s.logErr m a Err.config
  else if (s.rd a ^^^ v) &&& 0x7F3 ≠ 0 ∧ s.sliceOff sl = false then s.logErr m a Err.state
  else
    let t := s.wr a (mergeBits (s.rd a) 0xFF0107F3 v)
    let t := (List.range 4).foldl (fun t q => t.setB (Pg.LRX (4 * sl + q) + LRX.LANE_STATE) 18 (t.typeE sl)) t
    let t := (List.range 4).foldl (fun t q => ((t.mmConfig (4 * sl + q)).rsFollow (4 * sl + q)).ltRxUpdate (4 * sl + q)) t
    (t.outType sl).sliceRetry sl

/-- `LP_MAP` names first lanes of host ports of a layout at every offset (R246). -/
def mapFits (map : Word) (layout : Nat) : Bool :=
  (List.range 4).all (fun q => layoutWidth layout (fieldOf map (2 * q) 2) != 0)

/-- A write of `HOST_CFG` (R9, R246). -/
def hostCfgSet (s : Dev) (m : Master) (sl : Nat) (v : Word) : Dev :=
  let a := Pg.SLICE sl + SLICE.HOST_CFG
  let layout := fieldOf v 8 3
  let rate := fieldOf v 0 2
  if decide (4 < layout) || !(rate == 1 || rate == 2) || !mapFits (s.rd (Pg.SLICE sl + SLICE.LP_MAP)) layout then
    s.logErr m a Err.config
  else if (s.rd a ^^^ v) &&& 0x703 ≠ 0 ∧ s.sliceOff sl = false then s.logErr m a Err.state
  else (s.wr a (mergeBits (s.rd a) 0x703 v)).sliceRetry sl

/-- A write of `LP_MAP` (R9, R246). -/
def lpMapSet (s : Dev) (m : Master) (sl : Nat) (v : Word) : Dev :=
  let a := Pg.SLICE sl + SLICE.LP_MAP
  if !mapFits v (s.hpLayout sl) then s.logErr m a Err.config
  else if (s.rd a ^^^ v) &&& 0xFF ≠ 0 ∧ s.sliceOff sl = false then s.logErr m a Err.state
  else (s.wr a (mergeBits (s.rd a) 0xFF v)).sliceRetry sl

/-! ### Line-side MAC control frames (R29, R508) -/

/-- Pause time a frame gives a port: its time for PAUSE, for PFC the largest among the enabled priorities of the mask;
none when it does not pause (R29). -/
def pauseTime (s : Dev) (port : Nat) (f : MacControl) : Option Nat :=
  let cfg := s.rd (Pg.SLICE (port / 4) + SLICE.SLICE_CFG)
  if !bitOf cfg 16 then none
  else if f.opcode = 0x0001 then some (f.times.getD 0 0).toNat
  else
    let on := (List.range 8).filter (fun i => f.enables.getLsbD i && bitOf cfg (24 + i))
    if on.isEmpty then none else some ((on.map (fun i => (f.times.getD i 0).toNat)).foldl max 0)

def setRxPause (s : Dev) (port quanta : Nat) : Dev :=
  { s with eg := { s.eg with rxPause := Sparse.put (fun _ => 0) s.eg.rxPause port quanta } }

/-- A MAC control frame arrives on a line port, touched by these codewords. -/
def lineControl (s : Dev) (port : Nat) (f : MacControl) (spans : List CwSpan) : Dev :=
  let pg := Pg.SLICE (port / 4)
  if !f.fcsOk || !f.pcsOk || !(s.badLanes spans).isEmpty then s.count (pg + SLICE.LINE_CTL_ERR)
  else if f.opcode = 0x0001 ∨ f.opcode = 0x0101 then
    let t := (s.count (pg + SLICE.LINE_PAUSE_RX)).raise pg 9
    match s.pauseTime port f with
    | some q => t.setRxPause port q
    | none => t
  else s.count (pg + SLICE.LINE_MACCTL_RX)

/-! ### Frames from the NPU (R256–R260, R507) -/

/-- First page of the host port that holds a lane, where its frames count. -/
def hostCount (s : Dev) (n : Nat) : Nat := Pg.HOST (s.hostPort n)

/-- Bytes of an Egress Tag. -/
def egTagOk (tag : BitVec 64) : Bool :=
  let b := bytesBE 8 tag.toNat
  decide (crc8 (b.take 7) = tag.toNat % 256) && decide (tag.toNat / 2 ^ 60 = 1) && decide (tag.toNat / 2 ^ 54 % 4 ≠ 3)

/-- The frame may start on the line before its last byte has arrived (R507). -/
def cutThrough (s : Dev) (h p : Nat) : Bool :=
  (s.share p).frames.isEmpty && decide (s.lpRate p ≤ s.hpRate (s.hostPort h))
    && Sparse.get (fun _ => 0) s.eg.rxPause p == 0

/-- A frame joins its share, or overflows it (R260, R261). -/
def egEnqueue (s : Dev) (p : Nat) (f : EgFrame) : Dev :=
  let x := s.share p
  if s.lpWidth p * 16384 < fillCells x + cells f.len then s.count48 (egBase p + SLICE.EG_OVERFLOW)
  else (s.setShare p { x with frames := x.frames ++ [f] }).shareUpdate p

/-- A tagged frame received on a host lane, its FCS last: the checks of R259 in their order. -/
def egressRx (s : Dev) (n : Nat) (bytes : List Byte) : Dev :=
  let tag := BitVec.ofNat 64 (natBE ((bytes ++ List.replicate 8 0).take 8))
  let len := bytes.length - 8
  let fcsOk := !fcsBad bytes
  let h := s.hostPort n
  let pg := Pg.HOST h
  let p := tag.toNat / 2 ^ 56 % 16
  if s.hostSafe h then s.count48 (Pg.DROP + DROP.EG_PORT_DOWN + 0x10 * (n / 4))
  else if !s.hostUp h then s
  else
    let t := (s.count48 (pg + HOST.RX_FRAMES)).count64 (pg + HOST.RX_BYTES) bytes.length
    if !egTagOk tag then (t.count (pg + HOST.TAG_ERRS)).raise pg 12
    else if p / 4 ≠ n / 4 ∨ t.lpOn p = false then t.count48 (Pg.DROP + DROP.EG_WRONG_SLICE + 0x10 * (n / 4))
    else if t.egressDown p then t.count48 (Pg.DROP + DROP.EG_PORT_DOWN + 0x10 * (n / 4))
    else
      let cut := t.cutThrough n p
      let badLen := decide (len < 64) || decide (16000 < len)
      let t := if badLen then t.count (pg + HOST.LENGTH_ERRS) else t
      let t := if fcsOk then t else (t.count (pg + HOST.FCS_ERRS)).raise pg 13
      if (badLen || !fcsOk) && !cut then t
      else t.egEnqueue p { len := len, bytes := slice bytes 8 (len - 4), tag := tag, host := n, bad := badLen || !fcsOk }

/-- A frame received on a host lane: a MAC control frame by its first six bytes, else a tagged one (R256). -/
def hostRx (s : Dev) (n : Nat) (bytes : List Byte) (pcsOk : Bool) : Dev :=
  if natBE (bytes.take 6) = 0x0180C2000001 then s.hostMac n (macFrame bytes pcsOk) else s.egressRx n bytes

/-! ### Frames to the line (R268–R271) -/

/-- The transmit time of a frame that leaves at an instant (R269). -/
def txTimeOf (s : Dev) (p : Nat) (t : BitVec 80) : BitVec 80 :=
  t + BitVec.ofInt 80 (signedOf 16 (s.fld (Pg.HOST p + HOST.TS_ADJ) 16 16))

/-- Bytes written at an offset. -/
def patch (l : List Byte) (off : Nat) : List Byte → List Byte
  | [] => l
  | b :: r => patch (l.set off b) (off + 1) r

/-- The ten bytes of a one-step timestamp (R270). -/
def stampBytes (t : BitVec 80) : List Byte := bytesBE 6 (t.toNat / 10 ^ 9 % 2 ^ 48) ++ bytesBE 4 (t.toNat % 10 ^ 9)

/-- What bytes at an offset from the PTP header add to the UDP checksum, one's complement. -/
def csumPart (off : Nat) (l : List Byte) : Nat :=
  ((List.range l.length).map (fun i => (l.getD i 0).toNat * (if (off + i) % 2 = 0 then 256 else 1))).sum

/-- The two bytes after the PTP message, adjusted so that the UDP checksum stays correct (R270). -/
def csumFix (l : List Byte) (ptp : Nat) (stamp : List Byte) : Nat × List Byte :=
  let mlen := natBE (slice l (ptp + 2) 2)
  let old := csumPart 34 (slice l (ptp + 34) 10) + csumPart mlen (slice l (ptp + mlen) 2)
  let v := (old + 11 * 65535 - csumPart 34 stamp) % 65535
  (ptp + mlen, if mlen % 2 = 0 then bytesBE 2 v else bytesLE 2 v)

/-- A one-step frame: its bytes with the time in place, or none when they would run past the last byte before the FCS. -/
def oneStep (f : EgFrame) (t : BitVec 80) : Option (List Byte) :=
  let ptp := f.tag.toNat / 2 ^ 44 % 256
  let fix := f.tag.getLsbD 53
  let stamp := stampBytes t
  let c := csumFix f.bytes ptp stamp
  if f.len < ptp + 44 + 4 ∨ (fix = true ∧ f.len < c.1 + 2 + 4) then none
  else
    let l := patch f.bytes (ptp + 34) stamp
    some (if fix then patch l c.1 c.2 else l)

def reports (s : Dev) (p : Nat) : List (BitVec 16 × BitVec 80) := Sparse.get (fun _ => []) s.eg.reports p

/-- The report FIFO of a line port, its count and head shown. -/
def setReports (s : Dev) (p : Nat) (l : List (BitVec 16 × BitVec 80)) : Dev :=
  let t := { s with eg := { s.eg with reports := Sparse.put (fun _ => []) s.eg.reports p l } }
  let head := l.headD (0, 0)
  let b := Pg.HOST p
  ((t.setF (b + HOST.TXTS_STATUS) 0 5 l.length).wr (b + HOST.TXTS_SEQ) (BitVec.setWidth 32 head.1)).wrWords (b + HOST.TXTS_TIME)
    [BitVec.setWidth 32 head.2, BitVec.setWidth 32 (head.2 >>> 32), BitVec.setWidth 32 (head.2 >>> 64)]

/-- A two-step report (R271). -/
def report (s : Dev) (p : Nat) (seq : BitVec 16) (t : BitVec 80) : Dev :=
  let l := s.reports p
  if l.length < 16 then (s.setReports p (l ++ [(seq, t)])).raise (Pg.HOST p) 14
  else (s.count (Pg.HOST p + HOST.TS_DROPPED)).raise (Pg.HOST p) 15

/-- A frame starts on a port's line: it is there for its bytes, preamble and start delimiter at the port's rate (R283). -/
def frameBegins (s : Dev) (p len : Nat) : Dev :=
  { s with eg := { s.eg with onLine := Sparse.put (fun _ => (0, 0)) s.eg.onLine p (s.mono, 8 * (len + 8) / s.lpRate p) } }

/-- The head frame of a line port's share leaves at an instant. -/
def egressTx (s : Dev) (p : Nat) (time : BitVec 80) : Dev :=
  let x := s.share p
  match x.frames with
  | [] => s
  | f :: rest =>
    if s.egressDown p || Sparse.get (fun _ => 0) s.eg.rxPause p != 0 || !(s.lpLanes p).all (fun n => s.islandOn (16 + n)) then s
    else
      let t := (s.setShare p { x with frames := rest }).shareUpdate p
      let when_ := t.txTimeOf p time
      let op := f.tag.toNat / 2 ^ 54 % 4
      let out (t : Dev) (bytes : List Byte) :=
        ((((t.count48 (Pg.LTX p + LTX.TX_FRAMES)).count64 (Pg.LTX p + LTX.TX_BYTES) f.len).emit (.lineFrame p f.len bytes f.bad)).frameBegins
          p f.len).lineSend p (pcsFrame bytes f.bad)
      if op = 1 then
        match oneStep f when_ with
        | some b => out t b
        | none => out (t.count (Pg.HOST p + HOST.TS_RANGE)) f.bytes
      else if op = 2 then (out t f.bytes).report p (BitVec.ofNat 16 (f.tag.toNat / 2 ^ 28)) when_
      else out t f.bytes

/-! ### Flow control (R261, R262) -/

def announced (s : Dev) (h : Nat) : Nat := (Sparse.get (fun _ => 0) s.eg.announced h).toNat
def setAnnounced (s : Dev) (h v : Nat) : Dev :=
  { s with eg := { s.eg with announced := Sparse.put (fun _ => 0) s.eg.announced h (BitVec.ofNat 8 v) } }

/-- A flow-control frame: PFC with its enable bits and the time for each, or PAUSE, padded to 64 bytes with its FCS
(R261). -/
def fcBytes (sa : List Byte) (pfc : Bool) (enables time : Nat) : List Byte :=
  let head := [0x01, 0x80, 0xC2, 0x00, 0x00, 0x01] ++ sa ++ [0x88, 0x08]
  let body := if pfc then
      bytesBE 2 0x0101 ++ bytesBE 2 (enables % 256) ++ (List.range 8).flatMap (fun i => bytesBE 2 (if enables.testBit i then time else 0))
    else bytesBE 2 0x0001 ++ bytesBE 2 time
  let frame := head ++ body ++ List.replicate (60 - (head.length + body.length)) 0
  frame ++ fcsBytes frame

/-- `EG_SA` of a slice, byte 0 first. -/
def egSource (s : Dev) (sl : Nat) : List Byte :=
  bytesBE 2 (s.fld (Pg.SLICE sl + SLICE.EG_SA_HI) 0 16) ++ wordBytesBE (s.rd (Pg.SLICE sl + SLICE.EG_SA_LO))

/-- A flow-control frame leaves a host port. -/
def fcFrame (s : Dev) (h : Nat) (pfc : Bool) (enables time : Nat) : Dev :=
  let t := s.emit (.flowControl h (fcBytes (s.egSource (h / 4)) pfc enables time))
  let t := t.count (Pg.SLICE (h / 4) + SLICE.EG_FC_SENT)
  (t.count48 (Pg.HOST h + HOST.TX_FRAMES)).count64 (Pg.HOST h + HOST.TX_BYTES) 64

/-- Flow control is on for a host port: enabled, with a pause time, the port up. -/
def fcOn (s : Dev) (h : Nat) : Bool :=
  let c := s.rd (Pg.SLICE (h / 4) + SLICE.EG_CTRL)
  bitOf c 1 && decide (fieldOf c 16 16 ≠ 0) && s.hostUp h

/-- The frames due when the asserted set has changed since the last announcement. -/
def fcAnnounce (s : Dev) (h : Nat) : Dev :=
  let p := s.asserted (h / 4)
  let q := s.announced h
  let c := s.rd (Pg.SLICE (h / 4) + SLICE.EG_CTRL)
  let time := fieldOf c 16 16
  if !s.fcOn h ∨ p = q then s
  else
    let gains := p &&& (q ^^^ 0xFF)
    let losses := q &&& (p ^^^ 0xFF)
    let t := s.setAnnounced h p
    if bitOf c 0 then
      if q = 0 then t.fcFrame h false 0 time else if p = 0 then t.fcFrame h false 0 0 else t
    else
      let t := if losses ≠ 0 then t.fcFrame h true losses 0 else t
      if gains ≠ 0 then t.fcFrame h true p time else t

/-- The repetition while the asserted set is not empty. -/
def fcRepeat (s : Dev) (h : Nat) : Dev :=
  let p := s.asserted (h / 4)
  let c := s.rd (Pg.SLICE (h / 4) + SLICE.EG_CTRL)
  if s.fcOn h && decide (p ≠ 0) && decide (s.announced h = p) then s.fcFrame h (!bitOf c 0) (if bitOf c 0 then 0 else p) (fieldOf c 16 16)
  else s

end Dev

/-- SLICE_CFG_WRITE (R9, R27). -/
def execSliceCfgWrite (m : Master) (sl : Slice) (v : Word) (s : State) : Out :=
  s.run (fun d => d.access m (Pg.SLICE sl + SLICE.SLICE_CFG) (fun t => t.sliceCfgSet m sl v))

/-- HOST_CFG_WRITE (R246). -/
def execHostCfgWrite (m : Master) (sl : Slice) (v : Word) (s : State) : Out :=
  s.run (fun d => d.access m (Pg.SLICE sl + SLICE.HOST_CFG) (fun t => t.hostCfgSet m sl v))

/-- LP_MAP_WRITE (R246). -/
def execLpMapWrite (m : Master) (sl : Slice) (v : Word) (s : State) : Out :=
  s.run (fun d => d.access m (Pg.SLICE sl + SLICE.LP_MAP) (fun t => t.lpMapSet m sl v))

/-- LINE_MAC_CONTROL_FRAME: on a line port that receives, a frame with the destination and the EtherType of R508 (R29,
R508). -/
def execLineMacControlFrame (port : Lane) (f : MacControl) (spans : List CwSpan) (s : State) : Out :=
  s.run (fun d =>
    if d.receives port && f.da == 0x0180C2000001 && f.etherType == 0x8808 then d.lineControl port f spans else d)

/-- LINE_PAUSE_EXPIRY: the pause of a line port ends (R29). -/
def execLinePauseExpiry (port : Lane) (s : State) : Out := s.run (fun d => d.setRxPause port 0)

/-- EGRESS_FRAME_RX: a frame from its first byte after the SFD to its FCS (R256, R259, R260). -/
def execEgressFrameRx (lane : Lane) (frame : List Byte) (pcsOk : Bool) (fec : HostFec) (s : State) : Out :=
  s.run (fun d => (d.hostCodewords lane fec).hostRx lane frame pcsOk)

/-- EGRESS_FRAME_TX: the time base as the first bit crosses the line output balls (R269–R271). -/
def execEgressFrameTx (port : Lane) (txTime : BitVec 80) (s : State) : Out := s.run (fun d => d.egressTx port txTime)

/-- FLOW_CONTROL_FRAME_TX (R261). -/
def execFlowControlFrameTx (h : Lane) (s : State) : Out := s.run (fun d => d.fcAnnounce h)

/-- FLOW_CONTROL_REPEAT (R261). -/
def execFlowControlRepeat (h : Lane) (s : State) : Out := s.run (fun d => d.fcRepeat h)

/-- TXTS_POP (R271). -/
def execTxtsPop (m : Master) (port : Lane) (s : State) : Out :=
  s.run (fun d => d.access m (Pg.HOST port + HOST.TXTS_POP) (fun t => t.setReports port ((t.reports port).drop 1)))

end Sys2Proof.Machine
end

