-- ==== Sys2Proof/Machine/FaultLog.lean ====
section
/-! DEFINITION. The management controller's lockstep fault and its restart, and the readers' side of the fault log (19,
R482–R484). -/

namespace Sys2Proof.Machine

namespace Dev

/-- The controller runs again: from the pending firmware when one is held, else from the firmware read from the flash; a
start-up past event 5 resumes from it (R393, R404, R482). -/
def mcRestart (s : Dev) : Dev :=
  let t := s.loadPending
  let t : Dev := { t with isl := { t.isl with mcDown := false } }
  let t := if t.sec.step = 4 then t.fwRun else t
  t.closeFault 13 0 0 false

/-- A read of `FAULT_REC[0]` latches the oldest complete record for the reader; with none it reads 0 (R484). -/
def faultRead (s : Dev) (m : Master) : Dev × Word :=
  match s.log.done with
  | [] => (s, 0)
  | r :: _ =>
    ({ s with log := { s.log with latch := Sparse.put (fun _ => []) s.log.latch (masterId m).toNat (faultWords r) } },
     (faultWords r).headD 0)

end Dev

/-- LOCKSTEP_MISMATCH (R482, R483): of a controller that runs. -/
def execLockstepMismatch (s : State) : Out :=
  s.run (fun d => if d.isl.mcDown then d else (d.openFault 13 60 none false 0).mcReset)

/-- MC_RESTART (R404, R482): of a controller that start-up had released. -/
def execMcRestart (s : State) : Out :=
  s.run (fun d => if d.isl.mcDown && decide (4 ≤ d.sec.step) && !d.isl.privDown then d.mcRestart else d)

/-- FAULT_REC_READ (R484). -/
def execFaultRecRead (m : Master) (s : State) : Out :=
  s.run (fun d => d.reads m (Pg.DEVICE + DEVICE.FAULT_REC) (fun t => t.faultRead m))

/-- FAULT_POP (R484). -/
def execFaultPop (m : Master) (s : State) : Out :=
  s.run (fun d => d.access m (Pg.DEVICE + DEVICE.FAULT_POP) (fun t => { t with log := { t.log with done := t.log.done.drop 1 } }))

end Sys2Proof.Machine
end

