-- ==== Sys2Proof/Machine/LineDecode.lean ====
section
/-! DEFINITION. Line decoding: the inner and RS decoders of a lane, group and codeword lock, alignment of a port's lanes,
statistics, link faults and the degrade monitor (04). -/

namespace Sys2Proof.Machine

namespace Dev

/-- A lane decodes: it is not OFF. -/
def decoding (s : Dev) (n : Nat) : Bool := s.rxState n != 0

/-- A bit of `ALIGN_STATUS`. -/
def alignBit (s : Dev) (n i : Nat) : Bool := s.bit (Pg.LFEC n + LFEC.ALIGN_STATUS) i

/-! ### Alignment (R117–R123) -/

/-- `ALIGN_LOCK` is set; what is received from then on shows afresh (R119, R120, R128). -/
def alignSet (s : Dev) (n : Nat) : Dev :=
  let a := Pg.LFEC n + LFEC.ALIGN_STATUS
  let t := (((s.setB a 2 true).setB a 4 true).raise (Pg.LFEC n) 8).laneEvent n 8
  (t.ltFault n 2 false).txUpdate (t.linePort n)

/-- Another lane of the port holds `ALIGN_LOCK`. -/
def peerLocked (s : Dev) (n : Nat) : Bool := (s.lpLanes (s.linePort n)).any (fun i => i != n && s.alignBit i 2)

/-- The lane's AM phase is known (R120, L212 alignment): none is needed on a one-lane L453 port; AM lock gives it; in a
warm restart a retained skew and, on a wider port, a locked lane do. -/
def amPhase (s : Dev) (n : Nat) : Bool :=
  let single := s.lpWidth (s.linePort n) == 1
  (single && s.l453 (n / 4)) || s.alignBit n 3
    || (s.rxState n == 5 && !(s.rxl n).needAm && s.bit (Pg.LFEC n + LFEC.SKEW) 31 && (single || s.peerLocked n))

/-- `ALIGN_LOCK` when confirmation and AM phase are there. -/
def alignOne (s : Dev) (n : Nat) : Dev :=
  if s.alignBit n 1 && (s.rxl n).confirmed && !s.alignBit n 2 && s.amPhase n then s.alignSet n else s

/-- A lane gains `ALIGN_LOCK` if it can, and with it the other lanes of its port that its AM phase serves (R120). -/
def alignTry (s : Dev) (n : Nat) : Dev :=
  let t := s.alignOne n
  if t.alignBit n 2 then (t.lpLanes (t.linePort n)).foldl alignOne t else t

/-- Alignment is dropped: counted and flagged, the codeword in progress flagged, and a HOLD trigger in TRACK (R122). -/
def alignDrop (s : Dev) (n : Nat) (mask : Word) : Dev :=
  let t := (s.count (Pg.LFEC n + LFEC.ALIGN_LOSS)).raise (Pg.LFEC n) 9
  let t := (t.cutPackets n).alignClear n mask
  t.holdTrigger n false

/-- `ALIGN_LOCK` is withdrawn under R120 or R121: counted as a deskew error, and the retained skew is not used again
(R123). -/
def deskewError (s : Dev) (n : Nat) : Dev :=
  let t := (s.count (Pg.LFEC n + LFEC.DESKEW_ERRS)).raise (Pg.LFEC n) 14
  let t := (t.setRxl n { t.rxl n with needAm := true, predict := false, amAt := none }).setB (Pg.LFEC n + LFEC.SKEW) 31 false
  if s.alignBit n 2 then t.alignDrop n 0x1E else t.setB (Pg.LFEC n + LFEC.ALIGN_STATUS) 3 false

/-! ### The FEC flow of a lane (R109, R110, R125) -/

/-- Lanes that carry the flow of a lane: itself on L453, on L212 the pair of lanes it belongs to on a wider port. -/
def flowLanes (s : Dev) (n : Nat) : List Nat :=
  let p := s.linePort n
  if s.l453 (n / 4) || s.lpWidth p == 1 then [n] else [p + (n - p) / 2 * 2, p + (n - p) / 2 * 2 + 1]

/-- FEC lanes a flow's symbols are distributed to: 16, or the eight of a one-lane L212 port. -/
def flowFecLanes (s : Dev) (n : Nat) : Nat := if s.l453 (n / 4) then 16 else 8 * (s.flowLanes n).length

/-- Symbols of one lane that carry a codeword pair on L212. -/
def pairSymbols (s : Dev) (n : Nat) : Nat := 5440 / (s.flowLanes n).length

/-- A codeword pair from the symbols of its flow's lanes, each behind the last symbol of the pair before it, with the
precoding of each lane undone (R125, R126). -/
def linePair (s : Dev) (n : Nat) (line : List (List (Fin 4))) : Option (List Gf) :=
  let lanes := s.flowLanes n
  if decide (line.length = lanes.length) && line.all (fun l => decide (l.length = s.pairSymbols n + 1)) then
    some (unmux (s.flowFecLanes n) ((lanes.zip line).map (fun q =>
      if s.bit (Pg.LFEC q.1 + LFEC.FEC_CTRL) 8 then unprecode (q.2.headD 0) (q.2.drop 1) else q.2.drop 1)))
  else none

/-- The codeword pair that a lane decodes next: of the block at the front of its decoded groups on L453, where it is there
whole, of the line's symbols on L212 (R113, R118). -/
def nextPair (s : Dev) (n : Nat) (line : List (List (Fin 4))) : Option (List Gf) :=
  let x := s.rxl n
  if s.l453 (n / 4) then
    if 10880 * (x.blockCw / 2 + 1) ≤ 480 * x.groups.length then some (blockPair x.groups (x.blockCw / 2)) else none
  else s.linePair n line

/-- The codeword that a lane decodes next. -/
def nextCodeword (s : Dev) (n : Nat) (line : List (List (Fin 4))) : Option (List Gf) :=
  (s.nextPair n line).map (fun l =>
    let w := pairParts (s.flowFecLanes n) l
    if (s.rxl n).blockCw % 2 = 0 then w.1 else w.2)

/-- A 64-group window after a word at a codeword position (R122). The limit is the one it began with (R138). -/
def grpWord (x : RxLane) (limit : Nat) (pass : Bool) : RxLane :=
  let c := x.grpCount % 4
  let lim := if x.grpCount = 0 then limit else x.grpLimit
  let cnt := if pass then x.grpPass.modify c (· + 1) else x.grpPass
  if x.grpCount + 1 < 256 then { x with grpCount := x.grpCount + 1, grpLimit := lim, grpPass := cnt }
  else { x with grpCount := 0, grpLimit := lim, grpPass := RxLane.init.grpPass,
                grpFails := List.zipWith (fun f k => if k < lim then f + 1 else 0) x.grpFails cnt }

/-- An inner output joins the group in progress; four of them make 480 bits of the FEC stream, of which a lane without
codeword lock keeps the last 135 groups, the reach of a search (R112, R116, R118). -/
def innerKeep (s : Dev) (n : Nat) (u : BitVec 120) : Dev :=
  let x := s.rxl n
  let w := x.words ++ [u]
  if w.length < 4 then s.setRxl n { x with words := w }
  else
    let g := x.groups ++ [groupBits w]
    s.setRxl n { x with words := [], groups := if s.alignBit n 1 then g else g.drop (g.length - 135) }

/-! ### The degrade monitor (R133–R137) -/

/-- `PORT_HELD` is set (R136). -/
def portHold (s : Dev) (n : Nat) : Dev :=
  let a := Pg.LFEC n + LFEC.ALIGN_STATUS
  if s.bit a 7 then s
  else
    let p := s.linePort n
    let t := ((s.setB a 7 true).count (Pg.LFEC n + LFEC.PORT_HOLDS)).raise (Pg.LFEC n) 12
    (if s.portHeld p then t else t.ltPortFault p 4 true).txUpdate p

/-- `PORT_HELD` is cleared (R136). -/
def portRelease (s : Dev) (n : Nat) : Dev :=
  let p := s.linePort n
  let t := s.setB (Pg.LFEC n + LFEC.ALIGN_STATUS) 7 false
  (if s.portHeld p && !t.portHeld p then t.ltPortFault p 4 false else t).txUpdate p

/-- A setting of `DEGRADED` and its action: a report in host-assisted mode, else a warm restart, or the port held down
on a repeat within `DEG_HOLDOFF` ms (R133–R135, R479). -/
def degSet (s : Dev) (n : Nat) : Dev :=
  let a := Pg.LFEC n + LFEC.ALIGN_STATUS
  let p := s.linePort n
  let t := (((s.setB a 5 true).raise (Pg.LFEC n) 10).count (Pg.LFEC n + LFEC.DEG_EVENTS)).laneEvent n 9
  let t := t.ltFault n 3 true
  if t.assisted (Pg.LFEC n) then t.logFault 7 n (some p) false n 2
  else if t.portHeld p then t
  else
    let hold := t.fld (Pg.LFEC n + LFEC.DEG_HOLDOFF) 0 16
    let repeated := match (t.rxl n).degBack with
      | some b => decide (t.mono - b < hold * 1000000)
      | none => false
    if repeated then (t.portHold n).logFault 7 n (some p) false n 2
    else
      let t := (t.openFault 7 n (some p) false n).toWarm n
      if t.rxState n = 5 then t.setRxl n { t.rxl n with degWarm := true } else t

/-- A degrade window begins with its first codeword: length and levels are what they are then (R138). -/
def degBegin (s : Dev) (n : Nat) : Dev :=
  let x := s.rxl n
  let v (o : Nat) := (s.rd (Pg.LFEC n + o)).toNat
  if x.winCw = 0 then s.setRxl n { x with degWin := v LFEC.DEG_WINDOW, degSet := v LFEC.DEG_SET, degClr := v LFEC.DEG_CLR } else s

/-- A codeword adds to the degrade count, in TRACK while the window has room (R133). -/
def degAdd (s : Dev) (n k : Nat) : Dev :=
  if s.rxState n = 3 then
    let t := s.degBegin n
    let x := t.rxl n
    let a := Pg.LFEC n + LFEC.DEG_ACC
    if x.winCw < x.degWin then
      (t.setRxl n { x with winCw := x.winCw + 1 }).wr a (BitVec.ofNat 32 (min 0xFFFFFFFF ((t.rd a).toNat + k)))
    else t
  else s

/-- The histogram bin of k corrected symbols (R132). -/
def histBin (s : Dev) (n k : Nat) : Option Nat :=
  (List.range 16).find? (fun b => decide (k ≤ s.fld (Pg.LFEC n + LFEC.HIST_LIM_LO + 4 * (b / 8)) (4 * (b % 8)) 4))

/-- RS statistics of a codeword by its errors (R131, R132). -/
def rsCount (s : Dev) (n : Nat) (r : Option (List (Nat × Gf))) : Dev :=
  let b := Pg.LFEC n
  let t := s.count48 (b + LFEC.RS_CW)
  match r with
  | none => t.count48 (b + LFEC.RS_UNC)
  | some errs =>
    let k := errs.length
    let t := if k = 0 then t else t.count48 (b + LFEC.RS_CORR)
    let t := (t.count48 (b + LFEC.RS_SYM) k).count48 (b + LFEC.RS_BIT) ((errs.map (fun e => gfOnes e.2)).sum)
    match t.histBin n k with
    | some i => t.count48 (b + LFEC.HIST + 8 * i)
    | none => t

/-- The flag of a codeword: kept by its number for the frames it touches, for the run R122 looks at and for confirmation,
and the stream moves on. An uncorrectable one marks the 160 66-bit blocks of its pair as errored, once (R119, R127, R129). -/
def rsFlag (s : Dev) (n : Nat) (unc : Bool) : Dev :=
  let x := s.rxl n
  let second := x.blockCw % 2 == 1
  let wrap := x.blockCw + 1 == (if s.l453 (n / 4) then 6 else 2)
  let conf := !x.confirmed && decide (x.confN < s.fld (Pg.LFEC n + LFEC.ALIGN_CTRL) 16 16)
  let y := { x with
    blockCw := if wrap then 0 else x.blockCw + 1,
    groups := if wrap && s.l453 (n / 4) then x.groups.drop 68 else x.groups,
    pairBad := !second && unc,
    cwNo := x.cwNo + 1,
    badCw := (if unc then x.badCw ++ [x.cwNo] else x.badCw).filter (fun k => decide (x.cwNo < k + 1024)),
    recent := (unc :: x.recent).take 64,
    confN := if conf then x.confN + 1 else x.confN,
    confBad := if conf && unc then x.confBad + 1 else x.confBad }
  let t := s.setRxl n y
  if unc && !(second && x.pairBad) then t.count (Pg.LFEC n + LFEC.BLK_ERR) 160 else t

end Dev

/-- INNER_WORD_DECODE: a received word and the reliability of each of its bits; the output goes to the RS decoder as hard
symbols (R114–R116, R122, R131). -/
def execInnerWordDecode (n : Lane) (r : BitVec 128) (reliability : List (BitVec 4)) (s : State) : Out :=
  s.run (fun d =>
    let b := Pg.LFEC n
    if d.l453 (n / 4) && d.alignBit n 0 then
      let flips := chase r (fun j => (reliability.getD j 0).toNat) (d.fld (b + LFEC.FEC_CTRL) 0 3)
      let t := d.count48 (b + LFEC.INNER_CW)
      let t := match flips with
        | none => t.count48 (b + LFEC.INNER_FAIL)
        | some [] => t
        | some [_] => t.count48 (b + LFEC.INNER_CORR1)
        | some _ => t.count48 (b + LFEC.INNER_CORRM)
      let t := t.setRxl n (Dev.grpWord (t.rxl n) (t.fld (b + LFEC.ALIGN_CTRL) 8 8) (innerPasses r))
      t.innerKeep n (innerOutput r flips)
    else d)

/-- RS_CODEWORD_DECODE: the next codeword of the lane's flow, from the inner decoder on L453 and from the symbols of the
flow's lanes on L212: its flag, the counters and the degrade count (R109, R127, R129, R131–R133). -/
def execRsCodewordDecode (n : Lane) (line : List (List (Fin 4))) (s : State) : Out :=
  s.run (fun d =>
    if d.decoding n && d.alignBit n 1 then
      match d.nextCodeword n line with
      | none => d
      | some w =>
        let r := rsErrors w
        let k := match r with | none => 16 | some errs => errs.length
        ((d.rsCount n r).rsFlag n r.isNone).degAdd n k
    else d)

/-- GROUP_HUNT_TEST: the symbols from the first of 32 offsets on; the lowest offset that passes gives group lock (R117). -/
def execGroupHuntTest (n : Lane) (symbols : List (Fin 4)) (s : State) : Out :=
  s.run (fun d =>
    let x := d.rxl n
    let thresh := d.fld (Pg.LFEC n + LFEC.ALIGN_CTRL) 0 8
    if d.decoding n && d.l453 (n / 4) && !d.alignBit n 0 then
      match (List.range 32).find? (fun o => (groupPasses (symbols.drop o)).all (fun k => decide (thresh ≤ k))) with
      | some o =>
        (d.setB (Pg.LFEC n + LFEC.ALIGN_STATUS) 0 true).setRxl n { Dev.alignForget x true with grpOffset := 32 * x.huntPos + o }
      | none => d.setRxl n { x with huntPos := (x.huntPos + 1) % 8 }
    else d)

/-- CW_LOCK_SEARCH: on L453 the first boundary of the window of 68 groups whose block decodes; on L212 the pair that the
lane's retained or found order gives from its symbols. `start` is the symbol period at which the window or pair begins on
the line (R118). -/
def execCwLockSearch (n : Lane) (start : Nat) (line : List (List (Fin 4))) (s : State) : Out :=
  s.run (fun d =>
    let a := Pg.LFEC n + LFEC.ALIGN_STATUS
    let x := d.rxl n
    if d.decoding n && !d.alignBit n 1 then
      if d.l453 (n / 4) then
        if d.alignBit n 0 && decide (135 ≤ x.groups.length) then
          match (List.range 68).find? (fun b => boundaryOk (x.groups.drop b)) with
          | some b =>
            (d.setB a 1 true).setRxl n { Dev.alignForget x false with groups := x.groups.drop b, blockAt := start + 256 * b }
          | none =>
            if 3 ≤ x.cwFails then (d.setB a 0 false).setRxl n (Dev.alignForget x true)
            else d.setRxl n { x with cwFails := x.cwFails + 1, groups := x.groups.drop 68 }
        else d
      else if (d.linePair n line).any (pairOk (d.flowFecLanes n)) then
        (d.setB a 1 true).setRxl n { Dev.alignForget x false with blockAt := start }
      else d
    else d)

/-- ALIGN_CONFIRM: `CONFIRM_CW` codewords have been counted since codeword lock (R119, R120). -/
def execAlignConfirm (n : Lane) (s : State) : Out :=
  s.run (fun d =>
    let x := d.rxl n
    let len := d.fld (Pg.LFEC n + LFEC.ALIGN_CTRL) 16 16
    if d.decoding n && d.alignBit n 1 && !x.confirmed && decide (len ≤ x.confN) then
      if 8 * x.confBad < len then (d.setRxl n { x with confirmed := true }).alignTry n
      else (d.setB (Pg.LFEC n + LFEC.ALIGN_STATUS) 1 false).setRxl n (Dev.alignForget x false)
    else d)

namespace Dev

/-- More than 200 ns of delay in symbol periods: of 3/680 µs on L453, of 1/106.25 ns on L212 (R121). -/
def tooLate (s : Dev) (n delay : Nat) : Bool := if s.l453 (n / 4) then decide (136000 < 3 * delay) else decide (21250 < delay)

/-- A lane whose marker arrived after the earliest of its port by a delay: `SKEW`, or a deskew error (R121). -/
def skewLane (s : Dev) (n delay : Nat) : Dev :=
  if s.tooLate n delay then s.deskewError n
  else s.wr (Pg.LFEC n + LFEC.SKEW) (BitVec.ofNat 32 (2 ^ 31 + delay))

/-- Every lane of a port whose markers have been found is held to the earliest of them (R121). -/
def skewPort (s : Dev) (p : Nat) : Dev :=
  let found := (s.lpLanes p).filterMap (fun i => (s.rxl i).amAt.map (fun a => (i, a)))
  match found with
  | [] => s
  | f :: r =>
    let first := r.foldl (fun m q => min m q.2) f.2
    found.foldl (fun t q => t.skewLane q.1 (q.2 - first)) s

/-- Symbol periods from one block of L453, or one codeword pair of L212, to the next. -/
def blockUnit (s : Dev) (n : Nat) : Nat := if s.l453 (n / 4) then 17408 else s.pairSymbols n

/-- The integer nearest to x among those that differ from r by multiples of u. -/
def nearestTo (x r : Int) (u : Nat) : Int := r + u * ((2 * (x - r) + u) / (2 * u))

/-- Where the first marker after a warm restart is expected: as far behind a locked lane's as the retained skews say, to
the whole block or pair; on a port of one lane at a codeword boundary (R120, L212 alignment). -/
def predicted (s : Dev) (n arrival peer : Nat) : Int :=
  let u := s.blockUnit n
  let skew (i : Nat) : Int := s.fld (Pg.LFEC i + LFEC.SKEW) 0 16
  match (s.lpLanes (s.linePort n)).find? (fun i => i != n && s.alignBit i 2) with
  | some i => peer + nearestTo (skew n - skew i) (((s.rxl n).blockAt : Int) - (s.rxl i).blockAt) u
  | none => nearestTo arrival (s.rxl n).blockAt u

end Dev

/-- AM_LOCK: the lane finds the markers of its own flow, `arrival` in symbol periods of a count that its port's lanes share
(R120, R121). -/
def execAmLock (n : Lane) (arrival : Nat) (s : State) : Out :=
  s.run (fun d =>
    if d.decoding n && !d.alignBit n 3 && (d.alignBit n 1 || !d.l453 (n / 4)) then
      let t := (d.setRxl n { d.rxl n with amAt := some arrival }).skewPort (d.linePort n)
      if (t.rxl n).amAt = none then t
      else
        let t := t.setB (Pg.LFEC n + LFEC.ALIGN_STATUS) 3 true
        (t.setRxl n { t.rxl n with needAm := false, predict := false }).alignTry n
    else d)

/-- DESKEW_CHECK: the first AM after a warm restart, where it arrives, where the same one of a locked lane does, and on L212
whether it carries the markers of the retained order (R120, L212 alignment). -/
def execDeskewCheck (n : Lane) (arrival peer : Nat) (ordered : Bool) (s : State) : Out :=
  s.run (fun d =>
    if d.alignBit n 2 && (d.rxl n).predict then
      if 4 < ((arrival : Int) - d.predicted n arrival peer).natAbs || !(ordered || d.l453 (n / 4)) then d.deskewError n
      else d.setRxl n { d.rxl n with predict := false }
    else d)

/-- ALIGN_LOSS: the first two cases of R122. AM_LOCK and DESKEW_OK clear as in every case of it (DESIGN CHOICE, log entry 64). -/
def execAlignLoss (n : Lane) (cause : AlignLossCause) (s : State) : Out :=
  s.run (fun d =>
    match cause with
    | .groupWindow =>
      if d.alignBit n 2 && d.l453 (n / 4) && (d.rxl n).grpFails.any (fun k => decide (8 ≤ k)) then d.alignDrop n 0x1F else d
    | .uncorrectableRun =>
      if d.alignBit n 2 && decide (48 ≤ ((d.rxl n).recent.filter id).length) then d.alignDrop n 0x1E else d)

/-- LINK_FAULT_RECEIVED: shown while `ALIGN_LOCK` is 1 (R128). -/
def execLinkFaultReceived (n : Lane) (lf rf : Bool) (s : State) : Out :=
  s.run (fun d =>
    let a := Pg.LFEC n + LFEC.ALIGN_STATUS
    if d.alignBit n 2 then
      let t := (d.setB a 8 lf).setB a 9 rf
      if d.bit a 8 != lf || d.bit a 9 != rf then t.raise (Pg.LFEC n) 16 else t
    else d)

/-- AM_RECEIVED: a marker with its remote-degraded indication, in its expected place or not (R137, `AM_ERRS`). -/
def execAmReceived (n : Lane) (remoteDegraded inPlace : Bool) (s : State) : Out :=
  s.run (fun d =>
    let b := Pg.LFEC n
    let a := b + LFEC.ALIGN_STATUS
    if d.alignBit n 3 && !inPlace then (d.count (b + LFEC.AM_ERRS)).raise b 15
    else if d.alignBit n 2 && d.bit a 6 != remoteDegraded then (d.setB a 6 remoteDegraded).raise b 13
    else d)

/-- DEG_WINDOW_END: the window has counted all its codewords (R133, R134, R138). -/
def execDegWindowEnd (n : Lane) (s : State) : Out :=
  s.run (fun d =>
    let x := d.rxl n
    if d.rxState n = 3 ∧ 0 < x.degWin ∧ x.winCw = x.degWin then
      let acc := (d.rd (Pg.LFEC n + LFEC.DEG_ACC)).toNat
      let t := d.degRestart n
      if !d.alignBit n 5 && decide (x.degSet ≤ acc) then t.degSet n
      else if d.alignBit n 5 && decide (acc < x.degClr) then t.degClear n
      else t
    else d)

/-- DEG_CMD_PORT_DOWN (R136). -/
def execDegCmdPortDown (m : Master) (n : Lane) (s : State) : Out :=
  s.run (fun d => d.access m (Pg.LFEC n + LFEC.DEG_CMD) (fun t => t.portHold n))

/-- DEG_CMD_PORT_UP (R136). -/
def execDegCmdPortUp (m : Master) (n : Lane) (s : State) : Out :=
  s.run (fun d => d.access m (Pg.LFEC n + LFEC.DEG_CMD) (fun t => t.portRelease n))

end Sys2Proof.Machine
end

