-- ==== Sys2Proof/Machine/Parity.lean ====
section
/-! DEFINITION. Register parity and the safe state (02, R56–R59; 17, R457; 19, R480). The upsets themselves are operands:
which bit of which register fails is no rule's to say. -/

namespace Sys2Proof.Machine

/-- RWH bits of registers that their blocks hold. -/
def heldBits (t : PageType) (off : Nat) : Word :=
  match t with
  | .lseq | .seq =>
    if off = LSEQ.ROLE then 0xFF
    else if LSEQ.XREG ≤ off ∧ off < LSEQ.XREG + 128 then (if off % 8 = 0 then 0xFFFFFFFF else 0xFF) else 0
  | .ana => if ANA.OUT_CFG ≤ off ∧ off < ANA.OUT_CFG + 160 ∧ off % 16 = 4 then 0xFFFFF else 0
  | .cal => if CAL.LIVE < off ∧ off < CAL.LIVE + 264 then 0xFFFFFFFF else 0
  | .mbx => if off = MBX.TX_DEST then 0xFF else if MBX.TX_DATA ≤ off ∧ off < MBX.TX_DATA + 32 then 0xFFFFFFFF else 0
  | .host => if HOST.EQ_SET0 ≤ off ∧ off < HOST.EQ_SET1 + 32 then 0xFFFFFFFF else 0
  | _ => 0

/-- RW and RWH bits of the register at an address: what its parity bit covers (R56). -/
def configBits (a : Nat) : Word :=
  let off := a % 0x1000
  match pageRow (a / 0x1000) with
  | none => 0
  | some p =>
    if off = HDR.PAGE_CTRL then (if p.assist then 3 else 1)
    else if off = HDR.INT_ENABLE then blockCauses p.type ||| 0xF
    else if off < 0x40 then 0
    else
      match regRow p.type off with
      | some r => if r.kind == .plain then r.rw ||| r.ex ||| heldBits p.type off else 0
      | none => 0

/-- Pages whose parity fault stops a port (R58). -/
def portPage : PageType → Bool
  | .lrx => true
  | .ltx => true
  | .lfec => true
  | .lantern => true
  | .host => true
  | .slice => true
  | _ => false

namespace Dev

def setUpset (s : Dev) (a : Nat) (v : Option (Word × Word)) : Dev :=
  { s with bus := { s.bus with upset := Sparse.put (fun _ => none) s.bus.upset a v } }

/-- The upset of a register: its wrong and its right value, as long as its configuration bits are still the wrong ones. A
write by software or by hardware that changes them recomputes the parity bit (R56). -/
def upsetOf (s : Dev) (a : Nat) : Option (Word × Word) :=
  (Sparse.get (fun _ => none) s.bus.upset a).filter (fun w => (s.rd a ^^^ w.1) &&& configBits a == 0)

/-- A register of a page fails parity. -/
def pageUpset (s : Dev) (page : Nat) : Bool :=
  s.bus.upset.any (fun p => decide (p.1 / 0x1000 = page) && (s.upsetOf p.1).isSome)

/-- The marks of a check that finds a mismatch: `PARITY_FAULT`, `PARITY_ADDR` while it was 0, and the cause (R58). -/
def parityMark (s : Dev) (a : Nat) : Dev :=
  let b := a / 0x1000 * 0x1000
  let t := if s.bit (b + HDR.PAGE_STATUS) 4 then s else s.wr (b + HDR.PARITY_ADDR) (BitVec.ofNat 32 (a % 0x1000))
  (t.setB (b + HDR.PAGE_STATUS) 4 true).raise b 1

/-- A check of a register that still fails finds it again (R57). -/
def parityFound (s : Dev) (a : Nat) : Dev := if (s.upsetOf a).isSome then s.parityMark a else s

/-- The port and host side that a port page stops, and the unit its fault names. -/
def portOf (s : Dev) (t : PageType) (i : Nat) : Nat × Bool :=
  match t with
  | .host => (s.hostPort i, true)
  | .slice => (4 * i, false)
  | _ => (s.linePort i, false)

/-- The transmitters of a page's lanes react to the safe state, toward the line and toward the NPU (R58, R250, R282). -/
def safeUpdate (s : Dev) (t : PageType) (i : Nat) : Dev :=
  match t with
  | .slice => (List.range 4).foldl (fun u q => (u.txUpdate (4 * i + q)).hostShow (4 * i + q)) s
  | .host => s.hostShow (s.hostPort i)
  | .lrx => s.txUpdate (s.linePort i)
  | .ltx => s.txUpdate (s.linePort i)
  | .lfec => s.txUpdate (s.linePort i)
  | .lantern => s.txUpdate (s.linePort i)
  | _ => s

/-- Line ports whose safe state is not what it was: a FAULT frame on each of their lanes (10, R310). -/
def safeEdge (old t : Dev) : Dev :=
  (List.range 16).foldl (fun u p => if old.lpOn p && old.lineSafe p != t.lineSafe p then u.ltPortFault p 5 (t.lineSafe p) else u) t

/-- Unit of a port page's fault record: the lane, above it the page, which the record does not show (R484). -/
def parityUnit (t : PageType) (i page : Nat) : Nat := 256 * page + (if t = .slice then 4 * i else i)

/-- `PARITY_FAULT`, `SAFE_STATE` and `PARITY_ADDR` clear, and the block resumes (R59). -/
def parityClear (s : Dev) (page : Nat) : Dev :=
  let b := page * 0x1000
  let t := ((s.setB (b + HDR.PAGE_STATUS) 4 false).setB (b + HDR.PAGE_STATUS) 3 false).wr (b + HDR.PARITY_ADDR) 0
  match pageRow page with
  | some p => safeEdge s (t.safeUpdate p.type (page - p.first))
  | none => t

/-- A check finds a register with bit k wrong (R57, R58): on a port page the port stops; on any other page the register is
restored from its shadow copy at once, a sequencer trapping with it. -/
def parityFault (s : Dev) (a k : Nat) : Dev :=
  let page := a / 0x1000
  let b := page * 0x1000
  match pageRow page with
  | none => s
  | some p =>
    if !bitOf (configBits a) k || !s.pageOn page then s
    else
      let i := page - p.first
      let old := s.rd a
      let t := (s.parityMark a).raise b 3
      if portPage p.type then
        let wrong := withBit old k (!bitOf old k)
        let right := ((s.upsetOf a).map Prod.snd).getD old
        let t := ((t.setUpset a (if wrong = right then none else some (wrong, right))).wr a wrong).setB (b + HDR.PAGE_STATUS) 3 true
        let port := t.portOf p.type i
        let unit := parityUnit p.type i page
        let t := if s.inSafe page then t else t.openFault 8 (islandOf page) (some port.1) port.2 unit
        let t := if t.bit (Pg.DEVICE + DEVICE.FAULT_CTRL) 1 then t else t.closeFault 8 unit 2 false
        safeEdge s (t.safeUpdate p.type i)
      else if p.type == .lseq || p.type == .seq then
        let k := page - 0x0B0
        let lane := decide (8 ≤ k) && s.rxState (k - 8) == 3
        let t := if lane then t.openFault 9 59 (some (t.linePort (k - 8))) false k else t.logFault 9 59 none false k 0
        if 1 ≤ t.seqState k ∧ t.seqState k ≤ 3 then t.seqTrap k 7 (a % 0x1000) (t.seqPc k) false else t
      else t.logFault 9 (islandOf page) none false i 0

/-- The block resumes by an action of the host: a record still open ends with NEEDS_HOST. -/
def parityByHost (s : Dev) (page : Nat) : Dev :=
  match pageRow page with
  | some p => (s.parityClear page).closeFault 8 (parityUnit p.type (page - p.first) page) 2 true
  | none => s

/-- Mismatches found by a check of every page, and those it finds again. -/
def parityFaults (s : Dev) (l : List (BitVec 22 × Fin 32)) : Dev :=
  l.foldl (fun t u => t.parityFault u.1.toNat u.2) (s.bus.upset.foldl (fun t u => t.parityFound u.1) s)

/-- The lock holder asks for a check of the page (R59). -/
def parityCheck (s : Dev) (m : Master) (page : Nat) : Dev :=
  s.need m (page * 0x1000 + HDR.PAGE_STATUS) (!s.pageUpset page) Err.state (fun t => t.parityByHost page)

/-- Restoration of a port page by hardware (R480): the register at `PARITY_ADDR` takes its copy; when the copy is bad or
another register fails, the fault stays for the host. -/
def parityRestore (s : Dev) (page : Nat) (copyGood : Bool) : Dev :=
  match pageRow page with
  | none => s
  | some p =>
    let unit := parityUnit p.type (page - p.first) page
    let a := page * 0x1000 + s.fld (page * 0x1000 + HDR.PARITY_ADDR) 0 12
    if !portPage p.type || !s.inSafe page || !s.bit (Pg.DEVICE + DEVICE.FAULT_CTRL) 1 then s
    else
      match s.upsetOf a with
      | some w =>
        if copyGood then
          let t := (s.wr a w.2).setUpset a none
          if t.pageUpset page then t.closeFault 8 unit 2 true else (t.parityClear page).closeFault 8 unit 0 true
        else s.closeFault 8 unit 2 true
      | none => s

end Dev

/-- PARITY_CHECK_SWEEP: the mismatches one background check finds (R57, R58). -/
def execParityCheckSweep (upsets : List (BitVec 22 × Fin 32)) (s : State) : Out := s.run (fun d => d.parityFaults upsets)

/-- PARITY_FAULT_CLEAR (R59). -/
def execParityFaultClear (m : Master) (page : BitVec 10) (s : State) : Out :=
  s.run (fun d => d.lockedAccess m (page.toNat * 0x1000 + HDR.PAGE_STATUS) (fun t => t.parityCheck m page.toNat))

/-- PARITY_AUTO_RESTORE (R480). -/
def execParityAutoRestore (page : BitVec 10) (copyGood : Bool) (s : State) : Out :=
  s.run (fun d => d.parityRestore page.toNat copyGood)

/-- PARITY_SWEEP_DONE: the sweep that follows a dip ends with these mismatches (R457, R58). -/
def execParitySweepDone (upsets : List (BitVec 22 × Fin 32)) (s : State) : Out :=
  s.run (fun d =>
    let a := Pg.SUPPLY + SUPPLY.SWEEP_STATUS
    if d.bit a 31 then
      let t := ((d.parityFaults upsets).wr a (BitVec.ofNat 32 (min 0xFFFF upsets.length))).raise Pg.SUPPLY 10
      (t.log.opened.filter (fun r => r.cls == 17)).foldl (fun t r => t.completeFault r 0 false) t
    else d)

end Sys2Proof.Machine
end

