-- ==== Sys2Proof/Machine/Peek.lean ====
section
/-! DEFINITION. What every register shows to a reader, without a side effect (02, R33, R39, R44, R53; the register tables
of the chapters). Registers that report a block's working state are computed from it here. -/

namespace Sys2Proof.Machine

namespace Dev

/-! ### Words latched for a master (R71) -/

/-- Where a master's latched high word of a counter at an address lies. -/
def hiKey (m : Master) (a : Nat) : Nat := 256 * a + (masterId m).toNat

/-- The high word latched for a master, or the present one when it has latched none. -/
def hiWord (s : Dev) (m : Master) (a : Nat) (now : Word) : Word := (Sparse.get (fun _ => none) s.bus.hiLatch (hiKey m a)).getD now

def setHi (s : Dev) (m : Master) (a : Nat) (v : Option Word) : Dev :=
  { s with bus := { s.bus with hiLatch := Sparse.put (fun _ => none) s.bus.hiLatch (hiKey m a) v } }

/-- The low word held for a counter at the address of its low word. -/
def heldLow (s : Dev) (a : Nat) : Option Word := Sparse.get (fun _ => none) s.bus.loHeld a

def setHeld (s : Dev) (a : Nat) (v : Option Word) : Dev :=
  { s with bus := { s.bus with loHeld := Sparse.put (fun _ => none) s.bus.loHeld a v } }

/-! ### The page header (02) -/

/-- `PAGE_STATUS`: the bits kept, with `READY` and `BUSY` as they are. -/
def pageStatus (s : Dev) (page : Nat) : Word :=
  let v := s.rd (page * 0x1000 + HDR.PAGE_STATUS)
  withBit (withBit v 0 (s.pageOn page)) 1 (s.busy page)

/-- `LOCK` of a page (R60). -/
def lockWord (s : Dev) (page : Nat) : Word :=
  if s.holder page = 0 then 0 else BitVec.ofNat 32 (2 ^ 31 + (s.holder page).toNat)

/-- A register of the page header. -/
def headerWord (s : Dev) (page first off : Nat) : Word :=
  if off = HDR.PAGE_ID then BitVec.ofNat 32 (first * 2 ^ 16 + (page - first))
  else if off = HDR.PAGE_STATUS then s.pageStatus page
  else if off = HDR.INT_FORCE then 0
  else if off = HDR.LOCK then s.lockWord page
  else s.rd (page * 0x1000 + off)

/-! ### Management pages -/

/-- Bits of a list of conditions, the first in bit 0. -/
def bitsOf (l : List Bool) : Nat := l.foldr (fun b a => 2 * a + (if b then 1 else 0)) 0

/-- The bit of `EXPERT_SESSION` of a master ID. -/
def sessionBit (id : Nat) : Nat :=
  if id < 0x10 then id - 1 else if id < 0x20 then 4 + (id - 0x10) else 12 + (id - 0x20)

def deviceWord (s : Dev) (m : Master) (off : Nat) : Word :=
  let d := s.log.done.length
  if off = DEVICE.FAULT_STATUS then
    BitVec.ofNat 32 ((if d = 0 then 2 ^ 31 else 0) + s.log.opened.length * 2 ^ 8 + d)
  else if off = DEVICE.FAULT_REC then (match s.log.done with | [] => 0 | r :: _ => (faultWords r).getD 0 0)
  else if DEVICE.FAULT_REC < off ∧ off < DEVICE.FAULT_REC + 16 then
    (Sparse.get (fun _ => []) s.log.latch (masterId m).toNat).getD ((off - DEVICE.FAULT_REC) / 4) 0
  else s.rd (Pg.DEVICE + off)

/-- `GROUP_STATUS` and `PAGE_PENDING` (R72). -/
def intrWord (s : Dev) (off : Nat) : Word :=
  if off = INTR.GROUP_STATUS then BitVec.ofNat 32 (bitsOf ((List.range 23).map (fun g => s.groups.contains g)))
  else if INTR.PAGE_PENDING ≤ off then
    let w := (off - INTR.PAGE_PENDING) / 4
    let ps := pendingPages s
    BitVec.ofNat 32 (bitsOf ((List.range 32).map (fun j => ps.contains (32 * w + j))))
  else s.rd (Pg.INTR + off)

def locksWord (s : Dev) (off : Nat) : Word :=
  if off = LOCKS.LOCK_RESULT then s.lockWord (s.fld (Pg.LOCKS + LOCKS.LOCK_QUERY) 0 10)
  else if off = LOCKS.EXPERT_SESSION then
    BitVec.ofNat 32 (bitsOf ((List.range 28).map (fun i => s.bus.expert.any (fun id => sessionBit id.toNat == i))))
  else s.rd (Pg.LOCKS + off)

/-- `HOLD_LEFT`: whole microseconds of the 100 µs hold still to run. -/
def supplyWord (s : Dev) (off : Nat) : Word :=
  if off = SUPPLY.HOLD_LEFT then
    BitVec.ofNat 32 (if s.supplyHold then (100000 - (s.mono - s.mon.holdAt)) / 1000 else 0)
  else s.rd (Pg.SUPPLY + off)

/-- The estimate of the device's power and its peak are measured values that no command brings. -/
def pwrWord (s : Dev) (off : Nat) : Word :=
  if off = PWR.PWR_EST then BitVec.setWidth 32 (Config.powerNow s.mono)
  else if off = PWR.PWR_PEAK then BitVec.setWidth 32 (Config.powerPeak s.mono)
  else s.rd (Pg.PWR + off)

/-- The clock of an island runs: its PLL is locked (14, table of islands). -/
def islandClock (s : Dev) (i : Nat) : Bool :=
  let p := Pg.CLKRST + CLKRST.PLL_STATUS
  if i < 16 then s.bit p (i / 4) else if i < 32 then s.bit p ((i - 16) / 4)
  else if i < 48 then s.bit p (4 + (i - 32) / 4) else if i < 54 then s.bit p 11
  else if i < 58 then s.bit p (14 + (i - 54)) else if i < 60 then s.bit p 11 else true

def inReset (s : Dev) (i : Nat) : Bool :=
  !Sparse.get (fun _ => false) s.isl.released i || s.wdResetting i || s.cmdResetting i || (s.isl.held && decide (i < 60))

def powered (s : Dev) (i : Nat) : Bool :=
  !Sparse.get (fun _ => false) s.isl.unpowered i && !(s.isl.privDown && decide (60 ≤ i))

/-- The ratio of a line PLL in use: as written under `OVERRIDE`, else that of the slice's line format (R378). -/
def lpllWord (s : Dev) (sl k : Nat) : Word :=
  let b := Pg.CLKRST + CLKRST.LPLL_INT + 16 * sl
  if k = 3 ∨ s.bit (b + 12) 0 then s.rd (b + 4 * k)
  else
    match s.l453 sl, k with
    | true, 0 => 181
    | true, 1 => 1
    | true, _ => 3
    | false, 0 => 85
    | false, 1 => 0
    | false, _ => 1

def clkrstWord (s : Dev) (m : Master) (off : Nat) : Word :=
  let id := (masterId m).toNat
  let sel := s.fld (Pg.CLKRST + CLKRST.ISLAND_SEL) 0 6
  if off = CLKRST.ISLAND_STATUS then
    if 62 < sel then 0
    else BitVec.ofNat 32 (bitsOf [s.powered sel, s.inReset sel, s.islandClock sel, !s.islandOn sel])
  else if CLKRST.LPLL_INT ≤ off ∧ off < CLKRST.LPLL_INT + 0x40 then
    s.lpllWord ((off - CLKRST.LPLL_INT) / 16) (off % 16 / 4)
  else if off = CLKRST.TIME_RD then BitVec.ofNat 32 s.timeBase.toNat
  else if off = CLKRST.TIME_RD + 4 then BitVec.ofNat 32 (Sparse.get (fun _ => 0) s.time.latch id).toNat
  else if off = CLKRST.TIME_RD + 8 then BitVec.ofNat 32 ((Sparse.get (fun _ => 0) s.time.latch id).toNat / 2 ^ 32)
  else if off = CLKRST.PPS_CAPT then BitVec.ofNat 32 s.time.capt.toNat
  else if off = CLKRST.PPS_CAPT + 4 then BitVec.ofNat 32 (Sparse.get (fun _ => 0) s.time.captLatch id).toNat
  else if off = CLKRST.PPS_CAPT + 8 then BitVec.ofNat 32 ((Sparse.get (fun _ => 0) s.time.captLatch id).toNat / 2 ^ 32)
  else s.rd (Pg.CLKRST + off)

/-! ### Line lanes -/

/-- The AGC bandwidth code in use in TRACK: on a Type L slice with the Lantern receiver enabled, the largest whose
bandwidth is below one twenty-fifth of the subcarrier (R78). -/
def agcCode (s : Dev) (n : Nat) : Nat :=
  let bw := s.fld (Pg.LRX n + LRX.AGC_CTRL) 0 3
  let f := s.fld (Pg.LANTERN n + LANTERN.SUB_FREQ) 0 20
  if !s.typeE (n / 4) && s.bit (Pg.LANTERN n + LANTERN.LT_CTRL) 0 then
    ((List.range 8).filter (fun c => decide (c ≤ bw) && decide (6250 * 2 ^ c < f))).foldl max 0
  else bw

/-- Word w of a checkpoint record, with its CRC (R96). -/
def ckptWords (c : Ckpt) (slot : Nat) : List Word :=
  if !c.valid then List.replicate 48 0
  else
    let w0 := 2 ^ 31 + slot * 2 ^ 24 + (if c.l453 then 1 else 2) * 2 ^ 22 + (if c.dfe then 2 ^ 21 else 0) + c.main * 2 ^ 16 + twosOf 16 c.tag
    let body : List Word := [BitVec.ofNat 32 w0, c.sig, BitVec.ofNat 32 c.seq, BitVec.ofNat 32 (c.seq / 2 ^ 32 % 256)]
      ++ c.taps ++ c.levels ++ [c.dfeTaps, BitVec.setWidth 32 c.gain, BitVec.setWidth 32 c.freq, c.envelope, BitVec.setWidth 32 c.snr]
      ++ List.replicate 5 0
    body ++ [BitVec.ofNat 32 (crc32c (body.flatMap (fun w => bytesLE 4 w.toNat)))]

def lrxWord (s : Dev) (n off : Nat) : Word :=
  let v := s.rd (Pg.LRX n + off)
  if off = LRX.STATE_TIME then BitVec.ofNat 32 (min 0xFFFFFFFF (s.stateUs n))
  else if off = LRX.LANE_STATE then withBit (withField v 16 2 (s.laneFormat n (s.rxState n))) 18 (s.typeE (n / 4))
  else if off = LRX.AGC_STATUS then
    let track := s.rxState n == 3
    let code := if track then s.agcCode n else 0
    let t := withBit v 20 (s.rxState n == 4 || s.bit (Pg.LRX n + LRX.AGC_CTRL) 16)
    withField (withBit t 19 (track && decide (code < s.fld (Pg.LRX n + LRX.AGC_CTRL) 0 3))) 16 3 code
  else if LRX.CKPT_DATA ≤ off ∧ off < LRX.CKPT_DATA + 192 then
    let slot := s.fld (Pg.LRX n + LRX.CKPT_SEL) 0 3
    (ckptWords ((s.ckpts n).getD slot emptyCkpt) slot).getD ((off - LRX.CKPT_DATA) / 4) 0
  else v

/-- Format of a transmitter, none in OFF and IN_TEST. -/
def txFormat (s : Dev) (n : Nat) : Nat :=
  if s.txState n = 0 ∨ s.txState n = 3 then 0 else if s.l453 (n / 4) then 1 else 2

def ltxWord (s : Dev) (n off : Nat) : Word :=
  let v := s.rd (Pg.LTX n + off)
  if off = LTX.TX_STATE then withField (withField v 8 5 (s.squelchCauses (s.linePort n) n)) 16 2 (s.txFormat n) else v

/-- Frames of a type that wait on a lane, ring records apart. -/
def ltWaiting (s : Dev) (n type : Nat) : Nat := ((s.ltn n).waiting.filter (fun f => f.type == type && !f.ring)).length

/-- A 40-bit value shown in two words (R71). -/
def pairWord (s : Dev) (m : Master) (a v off lo : Nat) : Word :=
  if off = lo then BitVec.ofNat 32 v else s.hiWord m a (BitVec.ofNat 32 (v / 2 ^ 32))

/-- The 40-bit values of a `LANTERN` page by the offset of their low word. -/
def ltPair (s : Dev) (n lo : Nat) : Nat :=
  if lo = LANTERN.TX_CTR then (s.keySlot n (s.txSlot n)).ctr
  else if lo = LANTERN.RX_FLOOR0 then (s.keySlot n false).floor
  else if lo = LANTERN.RX_FLOOR1 then (s.keySlot n true).floor
  else s.wide (Pg.LANTERN n + lo)

/-- Offset of the low word of the 40-bit value that an offset of a `LANTERN` page belongs to. -/
def ltPairOf (off : Nat) : Option Nat :=
  if LANTERN.CTR_INIT_TX ≤ off ∧ off < LANTERN.RATE_LIM then some (off / 8 * 8) else none

def lanternWord (s : Dev) (m : Master) (n off : Nat) : Word :=
  let b := Pg.LANTERN n
  let v := s.rd (b + off)
  if off = LANTERN.LT_STATUS then
    let t := withBit (withBit v 12 (canSign (s.keySlot n (s.txSlot n)))) 11 (s.ltSource n)
    withBit (withBit t 9 (s.ltn n).onAir.isSome) 8 (s.txReady n)
  else if off = LANTERN.KEY_STATUS then
    let k0 := s.keySlot n false
    let k1 := s.keySlot n true
    BitVec.ofNat 32 (bitsOf [k0.valid, k1.valid, k0.exhausted, k1.exhausted])
  else if off = LANTERN.TX_STATUS then
    BitVec.ofNat 32 (s.ltWaiting n 5 * 2 ^ 12 + s.ltWaiting n 3 * 2 ^ 8 + s.ltWaiting n 4 * 2 ^ 4
      + s.ltWaiting n 1 * 2 + s.ltWaiting n 6)
  else
    match ltPairOf off with
    | some lo => s.pairWord m (b + lo + 4) (s.ltPair n lo) off lo
    | none => v

/-! ### Slices -/

def sliceWord (s : Dev) (sl off : Nat) : Word :=
  let v := s.rd (Pg.SLICE sl + off)
  let lanes (f : Nat → Bool) : Nat := bitsOf ((List.range 4).map (fun q => f (4 * sl + q)))
  if off = SLICE.SLICE_STATUS then
    let held := lanes (fun n => ((s.rxState n == 0 && s.bit (Pg.LRX n + LRX.LANE_CTRL) 0 && s.lineHeld n)
      || (s.txState n == 0 && s.bit (Pg.LTX n + LTX.TX_CTRL) 0 && s.lineHeld n)
      || (s.hostState n == 0 && s.bit (Pg.HOST n + HOST.HOST_CTRL) 0 && s.hostHeld n)))
    BitVec.ofNat 32 (lanes (fun n => s.rxState n != 0) * 2 ^ 20 + lanes (fun n => s.txState n != 0) * 2 ^ 16
      + lanes (fun n => s.hostState n != 0) * 2 ^ 12 + held * 2 ^ 8 + fieldOf v 0 3)
  else if off = SLICE.LINE_PAUSED then BitVec.ofNat 32 (lanes (fun p => Sparse.get (fun _ => 0) s.eg.rxPause p != 0))
  else if SLICE.EG_FILL ≤ off ∧ (off - SLICE.EG_FILL) % 0x20 = 0 then
    BitVec.ofNat 32 (fillCells (s.share (4 * sl + (off - SLICE.EG_FILL) / 0x20)) / 16)
  else if off = SLICE.EG_FC_STATUS then BitVec.ofNat 32 (s.asserted sl * 2 ^ 8 + lanes (fun p => (s.share p).xoff))
  else v

/-! ### Classifier -/

/-- A master has staged profile words not yet committed (R158). -/
def profPending (s : Dev) (m : Master) : Bool :=
  s.cls.staged.any (fun p => p.1 / 8192 == (masterId m).toNat && p.2.isSome)

/-! ### Analogue control -/

/-- A slice runs: its analogue settings stand, the analogue island on (11, `SLICE_STATE`). -/
def anaWord (s : Dev) (off : Nat) : Word :=
  if off = ANA_COM.SLICE_STATE then
    let runs (sl : Nat) := s.typeE sl && s.islandOn 58
    let vigil := s.vigilState == 2
    BitVec.ofNat 32 (bitsOf ((List.range 4).map runs) + 2 ^ 4 * bitsOf ((List.range 4).map (fun sl => vigil && runs sl)))
  else s.rd (Pg.ANA_COM + off)

def ditherWord (s : Dev) (off : Nat) : Word :=
  if DITHER.PHASE ≤ off ∧ (off - DITHER.PHASE) % 16 = 0 then
    BitVec.ofNat 32 ((s.ditherPhase ((off - DITHER.PHASE) / 16)).toNat / 2 ^ 8)
  else s.rd (Pg.DITHER + off)

/-- Latched words of a monitor or resampler channel for a master: channels 0 to 47 are monitors, 48 to 55 resamplers. -/
def sampleKey (m : Master) (ch : Nat) : Nat := 256 * ch + (masterId m).toNat

/-- `SAMPLE_HI` and `REF` are those latched by the master's last read of `SAMPLE_LO`, present ones where it made none. -/
def sampleWord (s : Dev) (m : Master) (ch base off lo : Nat) : Word :=
  let l := s.ana.latch.find? (fun p => p.1 == sampleKey m ch)
  if off = lo + 4 then (match l with | some p => p.2.1 | none => s.rd (base + off))
  else (match l with | some p => p.2.2 | none => s.rd (base + off))

def decimWord (s : Dev) (m : Master) (sl off : Nat) : Word :=
  let i := (off - DECIM.CH_CFG) / 0x20
  let lo := DECIM.SAMPLE_LO + 0x20 * i
  if DECIM.CH_CFG ≤ off ∧ (off = lo + 4 ∨ off = lo + 8) then s.sampleWord m (12 * sl + i) (Pg.DECIM sl) off lo
  else s.rd (Pg.DECIM sl + off)

def resampWord (s : Dev) (m : Master) (off : Nat) : Word :=
  let c := (off - RESAMP.RS_CFG) / 0x20
  let lo := RESAMP.SAMPLE_LO + 0x20 * c
  if RESAMP.RS_CFG ≤ off ∧ off = lo + 4 then s.sampleWord m (48 + c) Pg.RESAMP off lo else s.rd (Pg.RESAMP + off)

/-! ### Sequencers and mailboxes -/

/-- A doorbell latch from sender e as the receiver reads it without a side effect, and the count of its last read. -/
def doorbellWord (s : Dev) (r off : Nat) : Word :=
  if off < 0x300 then Sparse.get (fun _ => 0) s.mbx.dbVal (32 * ((off - 0x200) / 4) + r)
  else BitVec.ofNat 32 (Sparse.get (fun _ => 0) s.mbx.dbRead (32 * ((off - 0x300) / 4) + r))

def lseqWord (s : Dev) (k off : Nat) : Word :=
  if LSEQ.XREG ≤ off ∧ off < LSEQ.BREAK then
    let v := (s.xreg k ((off - LSEQ.XREG) / 8)).toNat
    if s.seqState k ≠ 1 then 0 else BitVec.ofNat 32 (if off % 8 = 0 then v else v / 2 ^ 32)
  else if 0x200 ≤ off then s.doorbellWord (3 + k) off
  else s.rd (Pg.LSEQ k + off)

/-- The endpoint whose registers `MBX` page 0 shows a master. -/
def ownEndpoint (m : Master) : Option Nat := (endpoint m).filter (fun e => decide (e < 3))

/-- Registers of `MBX` marked own, for an endpoint. -/
def ownWord (s : Dev) (e off : Nat) : Word :=
  let l := Sparse.get (fun _ => (0, [])) s.mbx.latch e
  if off = MBX.TX_DEST then Sparse.get (fun _ => 0) s.mbx.txDest e
  else if MBX.TX_DATA ≤ off ∧ off < MBX.TX_DATA + 32 then Sparse.get (fun _ => 0) s.mbx.txData (8 * e + (off - MBX.TX_DATA) / 4)
  else if off = MBX.MBX_ROLE then BitVec.setWidth 32 (s.epoch e)
  else if off = MBX.RX_STATUS then
    BitVec.ofNat 32 ((if (s.inbox e).isEmpty then 2 ^ 31 else 0) + (s.inbox e).length)
  else if MBX.RX_HDR ≤ off ∧ off < MBX.RX_HDR + 12 then BitVec.ofNat 32 (l.1.toNat / 2 ^ (32 * ((off - MBX.RX_HDR) / 4)))
  else if MBX.RX_DATA ≤ off ∧ off < MBX.RX_DATA + 32 then l.2.getD ((off - MBX.RX_DATA) / 4) 0
  else if MBX.DB_RX_VAL ≤ off ∧ off < MBX.EP_STATUS then s.doorbellWord e off
  else 0

/-- A register is one that `MBX` page 0 shows each endpoint its own of. -/
def mbxOwn (off : Nat) : Bool :=
  off == MBX.TX_DEST || off == MBX.MBX_SEND || off == MBX.MBX_ROLE || off == MBX.RX_STATUS
    || (decide (MBX.RX_HDR ≤ off) && decide (off < MBX.STALEMATE_WINDOW))
    || (decide (MBX.TX_DATA ≤ off) && decide (off < MBX.DB_TX))
    || (decide (MBX.DB_RX_VAL ≤ off) && decide (off < MBX.EP_STATUS))

/-- An endpoint's block: its epoch and the messages that wait, and the age of the oldest in milliseconds. -/
def endpointWord (s : Dev) (e off : Nat) : Word :=
  let l := s.inbox e
  if off % 0x20 = 0 then BitVec.ofNat 32 ((s.epoch e).toNat * 2 ^ 16 + l.length)
  else match l with
    | [] => 0
    | x :: _ => BitVec.ofNat 32 (min 0xFFFF ((s.mono - x.at_) / 1000000))

def mbxWord (s : Dev) (m : Master) (page off : Nat) : Word :=
  if mbxOwn off then (match ownEndpoint m with | some e => s.ownWord e off | none => 0)
  else if MBX.EP_STATUS ≤ off ∧ (off % 0x20 = 0 ∨ off % 0x20 = 4) then
    match mbxEndpoint page ((off - MBX.EP_STATUS) / 0x20) with
    | some e => s.endpointWord e off
    | none => 0
  else s.rd (Pg.MBX page + off)

/-! ### Calibration, security, Harvest -/

def calShown (s : Dev) (m : Master) (off : Nat) : Word :=
  let r := s.calSel
  if off = CAL.SEL_RESULT then
    let o := Sparse.get (fun _ => (0, 0)) s.cal.outcome r
    BitVec.ofNat 32 (o.2 * 16 + o.1)
  else if off = CAL.OOR_MAP then Sparse.get (fun _ => 0) s.cal.oor r
  else if off = CAL.LIVE then (s.calRecord r).getD 0 0
  else if CAL.LIVE < off ∧ off < CAL.LIVE + 268 then s.liveWord m ((off - CAL.LIVE) / 4)
  else s.rd (Pg.CAL + off)

def bootWord (s : Dev) (off : Nat) : Word :=
  let w := s.fld (Pg.BOOT + BOOT.FUSE_SEL) 0 7
  if off = BOOT.FUSE_DATA then (if (76 ≤ w ∧ w ≤ 83) ∨ 124 ≤ w then 0 else s.fuse w) else s.rd (Pg.BOOT + off)

def dmaWord (s : Dev) (off : Nat) : Word :=
  let v := s.rd (Pg.DMA + off)
  if off = DMA.HV_STATUS then withField v 0 13 s.cls.aged.length else v

/-! ### Every register -/

/-- What a register of a page type shows, header apart. -/
def blockWord (s : Dev) (m : Master) (t : PageType) (i off : Nat) : Word :=
  match t with
  | .device => s.deviceWord m off
  | .intr => s.intrWord off
  | .locks => s.locksWord off
  | .therm => s.rd (Pg.THERM + off)
  | .supply => s.supplyWord off
  | .vigil => s.rd (Pg.VIGIL + off)
  | .pwr => s.pwrWord off
  | .clkrst => s.clkrstWord m off
  | .lrx => s.lrxWord i off
  | .ltx => s.ltxWord i off
  | .lfec => s.rd (Pg.LFEC i + off)
  | .host => s.rd (Pg.HOST i + off)
  | .slice => s.sliceWord i off
  | .cls => s.rd (Pg.CLS + off)
  | .clsprof =>
    let v := s.rd (Pg.CLS_PROF + off)
    if off = CLS_PROF.PROF_STATUS then withBit v 16 (s.profPending m) else v
  | .clsmiss => s.rd (Pg.CLS_MISS + off)
  | .clsupd => s.rd (Pg.CLS_UPD + off)
  | .clsbank => s.rd (Pg.CLS_BANK i + off)
  | .flow => s.rd (Pg.FLOW + off)
  | .fexp => s.rd (Pg.FEXP + off)
  | .admission => s.rd (Pg.ADMIT i + off)
  | .buf => s.rd (Pg.BUF + off)
  | .sched => s.rd (Pg.SCHED + off)
  | .queue => s.rd (Pg.QUEUE i + off)
  | .drop => s.rd (Pg.DROP + off)
  | .hbm => s.rd (Pg.HBM i + off)
  | .lantern => s.lanternWord m i off
  | .ana => s.rd (Pg.ANA i + off)
  | .anacom => s.anaWord off
  | .dither => s.ditherWord off
  | .decim => s.decimWord m i off
  | .resamp => s.resampWord m off
  | .lseq => s.lseqWord i off
  | .seq => s.lseqWord (8 + i) off
  | .mm => s.rd (Pg.MM i + off)
  | .cal => s.calShown m off
  | .bist => s.rd (Pg.BIST + off)
  | .mbx => s.mbxWord m i off
  | .boot => s.bootWord off
  | .dma => s.dmaWord off
  | .ring => s.rd (Pg.RING i + off)

/-- The kind of the register at an offset of a page type. -/
def regKind (t : PageType) (off : Nat) : RegKind :=
  match regRow t off with
  | some r => r.kind
  | none => .plain

/-- What the register at an address shows a master, no check made and nothing changed (R33, R39). -/
def peek (s : Dev) (m : Master) (a : Nat) : Word :=
  let page := a / 0x1000
  let off := a % 0x1000
  match pageRow page with
  | none => 0
  | some p =>
    if !mapped page off then 0
    else if off < 0x40 then s.headerWord page p.first off
    else
      match regKind p.type off with
      | .cmd => 0
      | .cntHi _ => s.hiWord m a (s.rd a)
      | _ => s.blockWord m p.type (page - p.first) off

/-- The same for a Harvest snapshot, a wide counter's two words at one instant (R429): nothing from an island that is
off. -/
def harvestWord (s : Dev) (a : Nat) : Word :=
  let page := a / 0x1000
  let off := a % 0x1000
  match pageRow page with
  | none => 0
  | some p =>
    if !s.pageOn page then 0
    else
      match regKind p.type off with
      | .cntHi _ => s.rd a
      | _ => s.peek .mc a

end Dev

end Sys2Proof.Machine
end

