-- ==== Sys2Proof/Machine/SelfTest.lean ====
section
/-! DEFINITION. Built-in self-test: commands, targets and their preconditions, isolation and results, rotation, and scan
(18, R464–R475). -/

namespace Sys2Proof.Machine

namespace Dev

abbrev bist : Nat := Pg.BIST

/-- Targets of a test code; 0 for a code that names none. -/
def testTargets (code : Nat) : Nat :=
  match code with
  | 1 => 16
  | 2 => 16
  | 3 => 8
  | 4 => 1
  | 5 => 4
  | 6 => 24
  | 7 => 4
  | 8 => 4
  | _ => 0

/-- Stuck-at coverage of a test in 0.01 %; the functional tests have none. -/
def testCover (code : Nat) : Nat := match code with | 1 => 9500 | 2 => 9500 | 7 => 0 | 8 => 0 | _ => 10000

/-- A test of memories, judged by its reads. -/
def testMemory (code : Nat) : Bool := decide (3 ≤ code) && decide (code ≤ 6)

/-- Pages of a target. -/
def testPages (code t : Nat) : List Nat :=
  match code with
  | 1 => [0x010 + t, 0x020 + t, 0x030 + t, 0x090 + t]
  | 2 => [0x040 + t]
  | 3 => [0x064 + t / 2]
  | 4 => [0x070]
  | 5 => [Pg.HBM t / 0x1000]
  | 6 => [Pg.LSEQ t / 0x1000]
  | 7 => [Pg.ANA t / 0x1000]
  | _ => [Pg.DECIM t / 0x1000]

/-- `IN_TEST` of a target's pages. -/
def testMark (s : Dev) (code t : Nat) (on : Bool) : Dev :=
  (testPages code t).foldl (fun d p => d.setB (p * 0x1000 + HDR.PAGE_STATUS) 2 on) s

def testCode (s : Dev) : Nat := s.fld (bist + BIST.BIST_STATUS) 24 4
def testRuns (s : Dev) : Bool := s.bit (bist + BIST.BIST_STATUS) 31

/-! ### Preconditions (R466) -/

/-- A PLL of the list of PLLs clocks: locked, not in holdover, its reference present. -/
def pllGood (s : Dev) (p : Nat) : Bool :=
  let a := Pg.CLKRST + CLKRST.PLL_STATUS
  s.bit a (pllBit p) && !(p == 8 && s.bit a 18) && !(p == 13 && s.bit a 19) && !s.bit (Pg.CLKRST + CLKRST.REF_STATUS) (pllRef p)

/-- The PLL that clocks a target. -/
def testPll (code t : Nat) : Nat :=
  match code with
  | 1 => t / 4
  | 2 => 4 + t / 4
  | 5 => 9 + t
  | 7 => 13
  | 8 => 13
  | _ => 8

/-- Outputs a test may take: OFF, FAULT or HELD. -/
def anaFree (s : Dev) (sl k : Nat) : Bool := let st := s.outState sl k; st == 0 || st == 3 || st == 4

/-- Monitor channels a test may take: not enabled, and no source of Lantern reception or of a resampler channel. -/
def monFree (s : Dev) (sl i : Nat) : Bool :=
  !s.bit (chBase sl i + DECIM.CH_CFG) 0
    && !(List.range 16).any (fun n => s.typeE (n / 4) && s.bit (Pg.LANTERN n + LANTERN.LT_CTRL) 0
      && s.fld (Pg.LANTERN n + LANTERN.LT_CTRL) 8 6 == monNumber sl i)
    && !(List.range 8).any (fun c => s.rsOn c && s.fld (rsBase c + RESAMP.RS_CFG) 8 7 == monNumber sl i)

/-- The target is in a state the target table allows. -/
def testState (s : Dev) (code t : Nat) (rotation : Bool) : Bool :=
  match code with
  | 1 => !rotation || (s.rxState t == 0 && s.txState t == 0)
  | 2 => !rotation || s.hostState t == 0
  | 5 => s.fld (Pg.HBM t + HBM.STACK_STATUS) 1 1 == 1 && !s.bit (Pg.HBM t + HBM.STACK_STATUS) 4
  | 6 => s.seqState t == 1
  | 7 => (List.range 10).any (fun k => s.anaFree t k)
  | 8 => (List.range 12).any (fun i => s.monFree t i)
  | _ => true

/-- A conflicting operation is in progress. -/
def testBusy (s : Dev) (code t : Nat) : Bool :=
  match code with
  | 1 => s.calRunning && s.cal.run.any (fun p => p / 2 == t)
  | 3 => (List.range 8).any (fun b => b != t && s.bit (bankBase b + CLS_BANK.BANK_STATUS) 1) || s.bit (Pg.CLS + CLS.RESTORE_STATUS) 30
  | 4 => s.bit (Pg.FLOW + FLOW.CACHE_STATUS) 31
  | 5 => !(s.stack4 t).relocating.isEmpty
  | 7 => s.chkRuns t
  | 8 => s.calRunning && s.bit (Pg.CAL + CAL.CAL_CTRL) 8 && s.cal.run.any (fun p => p / 2 == 16 + t)
  | _ => false

/-- The first of the causes SUPPLY, CLOCK and THERMAL that holds, 0 for none. -/
def testBarred (s : Dev) (code t : Nat) : Nat :=
  if s.rd (Pg.SUPPLY + SUPPLY.SUP_STATUS) ≠ 0 then 2
  else if !s.pllGood (testPll code t) then 3
  else if s.anyThr then 4
  else 0

/-- The first cause that refuses a target, 0 for none. -/
def testCause (s : Dev) (code t : Nat) (rotation : Bool) : Nat :=
  if s.testBarred code t ≠ 0 then s.testBarred code t
  else if !s.testState code t rotation then 5
  else if s.testBusy code t then 7
  else 0

/-- What ends the target in progress early, 0 for none: the cause that came first, or one that holds now (R467). -/
def testStops (s : Dev) (code t : Nat) : Nat := if s.test.lost ≠ 0 then s.test.lost else s.testBarred code t

/-! ### Isolation and return to service (R468–R471) -/

/-- A target goes under test. -/
def testIsolate (s : Dev) (code t : Nat) : Dev :=
  match code with
  | 1 => ((s.endInTest (s.linePort t)).laneTestStart t).txOff t 3
  | 2 => ((s.setHost t 4).wr (Pg.HOST t + HOST.LINK_STATUS) 1).hostDeskew t
  | 3 => s.setB (bankBase t + CLS_BANK.BANK_STATUS) 0 true
  | 5 => ({ s with test := { s.test with hbm := s.hbmTestFrom (16 * t) } }).hbmTestStep
  | 6 => s.markSeq t 6
  | 7 => (List.range 10).foldl (fun d k => if d.anaFree t k then d.setOut t k 5 else d) s
  | _ => s

/-- A segment of the flow cache is written back and empty (R470). -/
def segmentEmpty (s : Dev) (seg : Nat) : Dev :=
  let mine (l : CacheLine) := decide (cacheSet l.flow / 2048 = seg)
  let t := (s.flow.cache.filter (fun l => mine l && l.dirty)).foldl (fun t l => t.writeBack l) s
  ({ t with flow := { t.flow with cache := t.flow.cache.filter (fun l => !mine l) } }).cacheShow

/-- A target returns to service, its working state initialised. -/
def testReturn (s : Dev) (code t : Nat) : Dev :=
  match code with
  | 1 =>
    let d := s.laneTestEnd t
    if d.bit (Pg.LTX t + LTX.TX_CTRL) 0 then (d.setTx t 1).txUpdate (d.linePort t) else d.txOff t 0
  | 2 => if s.hostState t = 4 then ((s.hostOff t).hostTryUp t).setF (Pg.HOST t + HOST.HOST_STATE) 4 4 4 else s
  | 3 => s.reloadBank t false
  | 4 => { s with test := { s.test with segment := none } }
  | 5 => s.hbmTestEnd t
  | 6 => (s.setSq t { s.sq t with dmem := (s.sq t).data0, xr := [], stack := [], timer := none }).setSeqState t 1
  | 7 => (List.range 10).foldl (fun d k => if d.outState t k = 5 then (d.setOut t k 0).outTryUp t k else d) s
  | _ => ((List.range 12).foldl (fun d i => if d.monFree t i then d.settleStart t i else d) s).chkNext t

/-! ### Results (R472, R473) -/

/-- The result of a target: its map, count and cause; `RES_*` holds the first target that was not PASS, else the last. -/
def testResult (s : Dev) (t outcome cause : Nat) (patterns total sig expd fail us : Word) : Dev :=
  let code := s.testCode
  let rot := s.test.rotation
  let (map, cnt, int) := match outcome with
    | 1 => (BIST.PASS_MAP, BIST.PASSES, 0)
    | 2 => (BIST.FAIL_MAP, BIST.FAILS, 9)
    | 3 => (BIST.INCOMPLETE_MAP, BIST.INCOMPLETES, 10)
    | _ => (BIST.REFUSED_MAP, BIST.REFUSALS, 11)
  let d := (s.setB (bist + map) t true).count (bist + cnt)
  let d := if int = 0 then d else d.raise bist int
  let d := if outcome = 2 ∧ rot = true then d.raise bist 12 else d
  if d.test.failed then d
  else
    let id := outcome * 2 ^ 28 + code * 2 ^ 24 + t * 2 ^ 16 + (if rot then 2 ^ 15 else 0) + cause
    let d := d.wrWords (bist + BIST.RES_ID) [BitVec.ofNat 32 id, patterns, total, sig, expd, fail,
      BitVec.ofNat 32 (if outcome = 1 then testCover code else 0), us]
    { d with test := { d.test with failed := outcome != 1 } }

/-- The command ends when no target is left. -/
def testNext (s : Dev) : Dev :=
  match s.test.left with
  | t :: _ => s.setF (bist + BIST.BIST_STATUS) 16 5 t
  | [] => ((s.setB (bist + BIST.BIST_STATUS) 31 false).setB (bist + BIST.BIST_STATUS) 30 true).raise bist 8

/-- The next target is checked and starts or is refused. A rotation target refused for STATE or BUSY is skipped (R474). -/
def testTarget (s : Dev) : Dev :=
  match s.test.cur, s.test.left with
  | none, t :: rest =>
    let code := s.testCode
    let cause := s.testCause code t s.test.rotation
    let d : Dev := { s with test := { s.test with left := rest } }
    if cause = 0 then
      let d := (d.count (bist + BIST.RUNS)).setF (bist + BIST.BIST_STATUS) 16 5 t
      let d := if d.test.rotation then d.count (bist + BIST.ROT_RUNS) else d
      let d : Dev := { d with test := { d.test with cur := some t, started := d.mono, lost := 0 } }
      (d.testMark code t true).testIsolate code t
    else if s.test.rotation && (cause == 5 || cause == 7) then d.setB (bist + BIST.BIST_STATUS) 31 false
    else (d.testResult t 4 cause 0 0 0 0 0 0).testNext
  | _, _ => s

/-- The running target ends: complete, or stopped by what R467 names. -/
def testEnd (s : Dev) (e : TestEnd) : Dev :=
  match s.test.cur with
  | none => s
  | some t =>
    let code := s.testCode
    let us := s.usSince s.test.started
    let d : Dev := { s with test := { s.test with cur := none, lost := 0 } }
    let d := (d.testReturn code t).testMark code t false
    let d := match e with
      | .complete patterns total sig expd equal failAt =>
        if patterns ≠ total then d.testResult t 3 0 patterns total sig expd 0 us
        else if (if testMemory code then equal else sig == expd) then d.testResult t 1 0 patterns total sig expd 0 us
        else d.testResult t 2 0 patterns total sig expd (BitVec.ofNat 32 (2 ^ 31 + failAt.toNat)) us
      | .stopped patterns total => d.testResult t 3 (s.testStops code t) patterns total 0 0 0 us
    d.testNext

/-! ### Commands (R464, R465, R474) -/

/-- A command begins: results are cleared. -/
def testBegin (s : Dev) (code : Nat) (targets : List Nat) (rotation : Bool) : Dev :=
  let st := 2 ^ 31 + (if rotation then 2 ^ 28 else 0) + code * 2 ^ 24 + targets.headD 0 * 2 ^ 16
  let d := s.wr (bist + BIST.BIST_STATUS) (BitVec.ofNat 32 st)
  let d := d.wrWords (bist + BIST.PASS_MAP) [0, 0, 0, 0]
  let x : SelfTest := { left := targets, cur := none, rotation := rotation, segment := none }
  { d with test := x }

/-- `BIST_CMD.START`. -/
def bistStart (s : Dev) (m : Master) : Dev :=
  let a := bist + BIST.BIST_CMD
  let code := s.fld (bist + BIST.BIST_SEL) 24 4
  let mask := s.fld (bist + BIST.BIST_SEL) 0 24
  s.need m a (!s.testRuns) Err.state (fun t =>
    t.need m a (decide (1 ≤ code) && decide (code ≤ 8) && decide (mask < 2 ^ testTargets code)) Err.config (fun t =>
      if mask = 0 then
        ((t.testBegin code [] false).wr (bist + BIST.BIST_STATUS) (BitVec.ofNat 32 (3 * 2 ^ 29 + code * 2 ^ 24))).raise bist 8
      else t.testBegin code ((List.range 24).filter (fun i => mask.testBit i)) false))

/-- `BIST_CMD.ABORT`: the targets after the running one are cancelled. -/
def bistAbort (s : Dev) : Dev :=
  if s.testRuns then
    let d : Dev := { s.testLoss 1 with test := { (s.testLoss 1).test with left := [] } }
    if d.test.cur.isNone then d.testNext else d
  else s

/-- The target after one in the rotation, over the codes and their targets. -/
def rotAfter (x : Nat × Nat) : Nat × Nat :=
  if x.2 + 1 < testTargets x.1 then (x.1, x.2 + 1) else (if x.1 = 8 then 1 else x.1 + 1, 0)

/-- The first enabled test at or after a place in the rotation. -/
def rotFind (tests : Nat) (x : Nat × Nat) : Option (Nat × Nat) :=
  if tests.testBit x.1 then some x
  else ((List.range 8).map (fun i => (x.1 + i) % 8 + 1)).find? (fun c => tests.testBit c) |>.map (fun c => (c, 0))

/-- A rotation start falls due: skipped while a test runs, in Vigil and while the controller is in reset. -/
def rotation (s : Dev) : Dev :=
  let cfg := bist + BIST.ROT_CFG
  let nxt := bist + BIST.ROT_NEXT
  if s.assisted bist || s.fld cfg 16 16 == 0 || s.testRuns || s.vigilState != 0 || s.isl.mcDown then s
  else
    match rotFind (2 * s.fld cfg 1 8) (s.fld nxt 24 4, s.fld nxt 16 5) with
    | none => s
    | some (c, t) =>
      let a := rotAfter (c, t)
      (s.testBegin c [t] true).wr nxt (BitVec.ofNat 32 (a.1 * 2 ^ 24 + a.2 * 2 ^ 16))

/-- The next segment of the flow cache, its pins clear, is emptied and tested. -/
def segmentStart (s : Dev) : Dev :=
  if s.test.cur.isSome && s.testCode == 4 then
    let seg := match s.test.segment with | none => 0 | some i => i + 1
    if 8 ≤ seg ∨ s.flow.cache.any (fun l => decide (cacheSet l.flow / 2048 = seg) && s.pinned l.flow) then s
    else { s.segmentEmpty seg with test := { s.test with segment := some seg } }
  else s

/-- A write of `SCAN_CTRL` by JTAG at level 2: the island goes into reset, its key material is zeroed, its chains are
enabled; `SCAN_EN` at 0 ends the scan (R475). -/
def scanSet (s : Dev) (m : Master) (v : Word) : Dev :=
  let a := bist + BIST.SCAN_CTRL
  let i := fieldOf v 0 6
  s.need m a (m == .jtag && s.debugLevel == 2) Err.state (fun t =>
    t.need m a (decide (i < 60)) Err.config (fun t =>
      let t := t.scanEnd.wr a (v &&& 0x8000003F)
      if bitOf v 31 then
        let t := ((t.setCmdReset i true).isolate i).islandLoses i
        let t := (List.range 16).foldl (fun t n =>
          if islandOf (0x090 + n) = i then t.wrWords (Pg.LANTERN n + LANTERN.KEY_STAGE) (List.replicate 8 0) else t) t
        t.wr (bist + BIST.SCAN_STATUS) (BitVec.ofNat 32 (3 * 2 ^ 30 + i))
      else t))

end Dev

/-- BIST_START (R464, R465). -/
def execBistStart (m : Master) (s : State) : Out := s.run (fun d => d.access m (Pg.BIST + BIST.BIST_CMD) (fun t => t.bistStart m))

/-- BIST_ABORT (R465). -/
def execBistAbort (m : Master) (s : State) : Out := s.run (fun d => d.access m (Pg.BIST + BIST.BIST_CMD) (fun t => t.bistAbort))

/-- BIST_TARGET_START (R466). -/
def execBistTargetStart (s : State) : Out := s.run (fun d => d.testTarget)

/-- BIST_TARGET_END (R467, R468, R472, R473). -/
def execBistTargetEnd (e : TestEnd) (s : State) : Out :=
  s.run (fun d =>
    match e, d.test.cur with
    | .stopped _ _, some t => if d.testStops d.testCode t = 0 then d else d.testEnd e
    | _, _ => d.testEnd e)

/-- CACHE_SEGMENT_START (R470). -/
def execCacheSegmentStart (s : State) : Out := s.run (fun d => d.segmentStart)

/-- ROTATION_START (R474). -/
def execRotationStart (s : State) : Out := s.run (fun d => d.rotation)

/-- SCAN_CTRL_WRITE (R475). -/
def execScanCtrlWrite (m : Master) (v : Word) (s : State) : Out :=
  s.run (fun d => d.access m (Pg.BIST + BIST.SCAN_CTRL) (fun t => t.scanSet m v))

end Sys2Proof.Machine
end

