-- ==== Sys2Proof/Machine/Effects.lean ====
section
/-! DEFINITION. What an accepted write of a register does in its block: the bits it selects take their values, the
configurations and states that the chapters refuse are refused, and commands act (02, R30–R32, R39–R42; the register
tables of the chapters). Of several commands written together, and where no rule says otherwise, each acts, the lowest
bit first. -/

namespace Sys2Proof.Machine

namespace Dev

/-! ### Storing -/

/-- The row of the register at an address. -/
def rowAt (a : Nat) : Option RegRow := (pageRow (a / 0x1000)).bind (fun p => regRow p.type (a % 0x1000))

/-- Bits of a register that software writes. -/
def fieldsAt (a : Nat) : Word :=
  match rowAt a with
  | some r => r.rw ||| r.ex
  | none => 0

/-- What a register's fields hold after a write of the selected bits. -/
def newVal (s : Dev) (a : Nat) (sel v : Word) : Word := mergeBits (s.rd a) (sel &&& fieldsAt a) v

/-- A counter of two words is loaded when its high word is written, with the low word held for it (R71). -/
def loadWide (s : Dev) (w lo : Nat) (hi : Word) : Dev :=
  let l := (s.heldLow lo).getD (s.rd lo)
  (((s.wr lo l).wr (lo + 4) (BitVec.ofNat 32 (hi.toNat % 2 ^ (w - 32)))).setHeld lo none)

/-- The selected bits of a register are written, each by its access code. -/
def store (s : Dev) (a : Nat) (sel v : Word) : Dev :=
  match rowAt a with
  | none => s
  | some r =>
    match r.kind with
    | .plain =>
      let t := if (r.rw ||| r.ex) &&& sel = 0 then s else s.setUpset a none
      t.wr a (mergeBits (s.rd a) (sel &&& (r.rw ||| r.ex)) v &&& ~~~(sel &&& v &&& r.w1c))
    | .cnt => s.wr a (mergeBits (s.rd a) sel v)
    | .cntLo _ => s.setHeld a (some (mergeBits ((s.heldLow a).getD (s.rd a)) sel v))
    | .cntHi w => s.loadWide w (a - 4) (mergeBits (s.rd a) sel v)
    | .rc => s
    | .cmd => s

/-- A command bit acts when it is written 1. -/
def onBit (s : Dev) (c : Word) (i : Nat) (f : Dev → Dev) : Dev := if bitOf c i then f s else s

/-- A field that a write selects is given a new value. -/
def changes (s : Dev) (a lo len : Nat) (sel v : Word) : Bool := fieldOf (s.newVal a sel v) lo len != s.fld a lo len

/-- A write refused with CONFIG_REJECT, or stored. -/
def storeIf (s : Dev) (m : Master) (a : Nat) (sel v : Word) (ok : Bool) : Dev :=
  s.need m a ok Err.config (fun t => t.store a sel v)

/-! ### The page header (02) -/

/-- `ENABLE` of a page ignores a written 0 (R40). -/
def enableFixed (page : Nat) : Bool := decide (page ≤ 2) || page == 4 || page == 5 || page == 0x0F8

/-- A write of `PAGE_CTRL`, `SOFT_RESET` apart. -/
def ctrlWrite (s : Dev) (page : Nat) (sel v : Word) : Dev :=
  match pageRow page with
  | none => s
  | some p =>
    let a := page * 0x1000 + HDR.PAGE_CTRL
    let i := page - p.first
    let was := s.bit a 1
    let nv := mergeBits (s.rd a) (sel &&& (if p.assist then 3 else 1)) v
    let nv := if enableFixed page then withBit nv 0 true else nv
    let t := (s.setUpset a none).wr a nv
    let k := page - 0x0B0
    match p.type with
    | .lseq =>
      let t := if !bitOf nv 0 && (t.seqState k == 2 || t.seqState k == 3) then t.seqStop k else t
      if was && !bitOf nv 1 then t.ownerLeaves k else t
    | .seq => if !bitOf nv 0 && (t.seqState k == 2 || t.seqState k == 3) then t.seqStop k else t
    | .mm => if was != bitOf nv 1 then t.mmConfig i else t
    | .cal => if !was && bitOf nv 1 then t.calKeep else t
    | .therm => if !was && bitOf nv 1 then t.setPause (t.fld (Pg.THERM + THERM.PAUSE_SET) 0 4) else t
    | _ => t

/-- Causes of a page that `INT_FORCE` can set and `INT_ENABLE` holds (02). -/
def causesOf (page : Nat) : Word :=
  match pageRow page with
  | some p => blockCauses p.type ||| 0xF
  | none => 0

/-- `INT_FORCE`: each cause written 1 is set (R42). -/
def forceCauses (s : Dev) (page : Nat) (c : Word) : Dev := s.orBits (page * 0x1000 + HDR.INT_STATUS) (c &&& causesOf page)

/-- A write of a register of the page header. -/
def headerWrite (s : Dev) (m : Master) (page off : Nat) (sel v : Word) : Dev :=
  let a := page * 0x1000 + off
  let c := sel &&& v
  if off = HDR.PAGE_CTRL then s.ctrlWrite page sel v
  else if off = HDR.PAGE_STATUS then
    let t := if bitOf c 5 then s.setB a 5 false else s
    if bitOf c 4 then t.parityCheck m page else t
  else if off = HDR.INT_STATUS then s.wr a (s.rd a &&& ~~~c)
  else if off = HDR.INT_ENABLE then (s.setUpset a none).wr a (mergeBits (s.rd a) (sel &&& causesOf page) v)
  else if off = HDR.INT_FORCE then s.forceCauses page c
  else if off = HDR.ERR_INFO then (if bitOf c 31 then s.wr a 0 else s)
  else s

/-! ### Line receive, transmit and FEC (03, 04, 09) -/

/-- `LANE_EN` written. -/
def laneEn (s : Dev) (n : Nat) (on : Bool) : Dev :=
  if on then s.laneEnable n true else (if s.rxState n = 7 then s else s.warmEnd n).laneEnable n false

/-- A write of the LRX page (03). An `FFE_MAIN` that is out of range on a lane that is not OFF is refused for the state, which is
looked at first (R82; log entry 5). -/
def lrxWrite (s : Dev) (m : Master) (n off : Nat) (sel v : Word) : Dev :=
  let a := Pg.LRX n + off
  let nv := s.newVal a sel v
  let c := sel &&& v
  let main := s.fld (Pg.LRX n + LRX.FFE_CTRL) 0 5
  if off = LRX.LANE_CTRL then
    s.need m a (!s.changes a 1 1 sel v || s.rxState n == 0) Err.state (fun t =>
      let t := if s.changes a 1 1 sel v && bitOf v 1 then
          t.setRxl n { t.rxl n with mlseKept := t.rdWords (Pg.LRX n + LRX.MLSE_LEVEL) 16 } else t
      let t := t.store a (sel &&& 6) v
      let t := if t.bit a 2 then t else t.wr (Pg.LRX n + LRX.PILOT_STATUS) 0
      if bitOf sel 0 then t.laneEn n (bitOf v 0) else t)
  else if off = LRX.LANE_CMD then s.laneCommands m n c
  else if off = LRX.CDR_CTRL then s.storeIf m a sel v (decide (fieldOf nv 0 3 ≤ 4))
  else if off = LRX.FFE_CTRL then
    let k := fieldOf nv 0 5
    s.need m a (k == main || s.rxState n == 0) Err.state (fun t =>
      t.need m a (decide (2 ≤ k) && decide (k ≤ 16)) Err.config (fun t =>
        let u := t.store a sel v
        if k = main then u
        else (u.wr (Pg.LRX n + LRX.FFE_TAP + 4 * main) 0).wr (Pg.LRX n + LRX.FFE_TAP + 4 * k) 0x4000))
  else if off = LRX.FFE_TAP + 4 * main then s
  else if off = LRX.LOS_CTRL then s.storeIf m a sel v (decide (fieldOf nv 0 8 < fieldOf nv 8 8))
  else if off = LRX.EYE_CMD then
    (s.onBit c 0 (fun t => t.rxEyeStart m n)).onBit c 1 (fun t => t.eyeAbort (Pg.LRX n + LRX.EYE_CTRL))
  else s.store a sel v

def ltxWrite (s : Dev) (m : Master) (n off : Nat) (sel v : Word) : Dev :=
  let a := Pg.LTX n + off
  let nv := s.newVal a sel v
  let lv (i : Nat) : Int := signedOf 8 (fieldOf nv (8 * i) 8)
  if off = LTX.TX_CTRL then
    s.need m a (!s.changes a 1 1 sel v || s.txState n == 0) Err.state (fun t =>
      t.need m a (decide (fieldOf nv 8 8 ≤ 50)) Err.config (fun t =>
        let was := t.bit a 0 || t.txState n != 0
        let t := t.store a (sel &&& 0xFF0E) v
        let t := if bitOf sel 0 && (was || bitOf v 0) then t.txEnable n (bitOf v 0) else t
        t.txUpdate (t.linePort n)))
  else if off = LTX.LEVEL then
    s.storeIf m a sel v (decide (lv 0 < lv 1) && decide (lv 1 < lv 2) && decide (lv 2 < lv 3))
  else if off = LTX.PILOT_CTRL then s.storeIf m a sel v (decide (fieldOf nv 0 6 ≤ 60))
  else if off = LTX.FIR_CMD then s.onBit (sel &&& v) 0 (fun t => t.firApply m n)
  else if LTX.TAP_BOUND ≤ off ∧ off < LTX.TAP_BOUND + 36 then
    s.storeIf m a sel v (decide (signedOf 10 (fieldOf nv 0 10) ≤ signedOf 10 (fieldOf nv 16 10)))
  else s.store a sel v

/-- The sixteen limits of the FEC histogram do not fall (04). -/
def histOk (lo hi : Word) : Bool :=
  let l := (List.range 8).map (fun i => fieldOf lo (4 * i) 4) ++ (List.range 8).map (fun i => fieldOf hi (4 * i) 4)
  (l.zip (l.drop 1)).all (fun p => decide (p.1 ≤ p.2))

def lfecWrite (s : Dev) (m : Master) (n off : Nat) (sel v : Word) : Dev :=
  let b := Pg.LFEC n
  let a := b + off
  let nv := s.newVal a sel v
  let c := sel &&& v
  if off = LFEC.FEC_CTRL then
    s.need m a ((!s.changes a 8 1 sel v || s.rxState n == 0) && (!s.changes a 9 1 sel v || s.txState n == 0)) Err.state (fun t =>
      t.need m a (decide (fieldOf nv 0 3 ≤ 6)) Err.config (fun t => let u := t.store a sel v; u.txUpdate (u.linePort n)))
  else if off = LFEC.ALIGN_CTRL then s.storeIf m a sel v (decide (fieldOf nv 8 8 ≤ fieldOf nv 0 8))
  else if off = LFEC.DEG_SET then s.storeIf m a sel v (decide (s.rd (b + LFEC.DEG_CLR) ≤ nv))
  else if off = LFEC.DEG_CLR then s.storeIf m a sel v (decide (nv ≤ s.rd (b + LFEC.DEG_SET)))
  else if off = LFEC.DEG_CMD then
    if bitOf c 0 then s.portRelease n else if bitOf c 1 then s.portHold n else s
  else if off = LFEC.HIST_LIM_LO then s.storeIf m a sel v (histOk nv (s.rd (b + LFEC.HIST_LIM_HI)))
  else if off = LFEC.HIST_LIM_HI then s.storeIf m a sel v (histOk (s.rd (b + LFEC.HIST_LIM_LO)) nv)
  else s.store a sel v

/-! ### Host lanes and slices (08, 01) -/

/-- A write of a word of `EQ_SET` (R253). -/
def eqWrite (s : Dev) (m : Master) (n : Nat) (hi : Bool) (w : Nat) (sel v : Word) : Dev :=
  let a := Pg.HOST n + (if hi then HOST.EQ_SET1 else HOST.EQ_SET0) + 4 * w
  if w = 7 then s.eqCommit m n hi (mergeBits (s.rd a) sel v)
  else s.setEqStaged n hi w m (some (mergeBits ((s.eqStaged n hi w m).getD (s.rd a)) sel v))

def hostWrite (s : Dev) (m : Master) (n off : Nat) (sel v : Word) : Dev :=
  let a := Pg.HOST n + off
  let nv := s.newVal a sel v
  let c := sel &&& v
  if off = HOST.HOST_CTRL then
    let t := (s.store a (sel &&& 4) v).hostShow (s.hostPort n)
    let t := if bitOf sel 1 then t.hostPrbs n (bitOf v 1) else t
    if bitOf sel 0 then t.hostEnable n (bitOf v 0) else t
  else if off = HOST.PRBS_CTRL then (s.storeIf m a sel v (fieldOf nv 0 2 != 3 && fieldOf nv 4 2 != 3)).hostShow (s.hostPort n)
  else if off = HOST.PRBS_CMD then (s.onBit c 0 (fun t => prbsInject t n)).onBit c 1 (fun t => prbsClear t n)
  else if off = HOST.EYE_CMD then
    (s.onBit c 0 (fun t => hostEyeStart t m n)).onBit c 1 (fun t => t.eyeAbort (Pg.HOST n + HOST.EYE_CTRL))
  else if off = HOST.TXTS_POP then s.onBit c 0 (fun t => t.setReports n ((t.reports n).drop 1))
  else if HOST.EQ_SET0 ≤ off ∧ off < HOST.EQ_SET0 + 32 then s.eqWrite m n false ((off - HOST.EQ_SET0) / 4) sel v
  else if HOST.EQ_SET1 ≤ off ∧ off < HOST.EQ_SET1 + 32 then s.eqWrite m n true ((off - HOST.EQ_SET1) / 4) sel v
  else s.store a sel v

/-- A register whose block decides on the whole value: the upset ends when the value is taken. -/
def whole (s : Dev) (a : Nat) (nv : Word) : Dev := if s.rd a = nv then s.setUpset a none else s

def sliceWrite (s : Dev) (m : Master) (sl off : Nat) (sel v : Word) : Dev :=
  let a := Pg.SLICE sl + off
  let nv := s.newVal a sel v
  let q := (off - SLICE.EG_XOFF) / 0x20
  let p := 4 * sl + q
  if off = SLICE.SLICE_CFG then (s.sliceCfgSet m sl nv).whole a nv
  else if off = SLICE.HOST_CFG then (s.hostCfgSet m sl nv).whole a nv
  else if off = SLICE.LP_MAP then (s.lpMapSet m sl nv).whole a nv
  else if SLICE.EG_XOFF ≤ off then
    if off = SLICE.EG_XOFF + 0x20 * q then
      let width := s.lpWidth p
      let most := if width = 0 then 1024 else 1024 * width
      let x := fieldOf nv 0 13
      s.need m a (decide (s.fld (a + 4) 0 13 < x) && decide (x ≤ most)) Err.config (fun t => (t.store a sel v).shareUpdate p)
    else if off = SLICE.EG_XON + 0x20 * q then
      s.need m a (decide (fieldOf nv 0 13 < s.fld (a - 4) 0 13)) Err.config (fun t => (t.store a sel v).shareUpdate p)
    else s.store a sel v
  else s.store a sel v

/-! ### Classifier and flow state (05, 06) -/

def clsWrite (s : Dev) (m : Master) (off : Nat) (sel v : Word) : Dev :=
  let a := Pg.CLS + off
  let nv := s.newVal a sel v
  if off = CLS.AGE_CTRL then s.storeIf m a sel v (decide (fieldOf nv 16 8 < 15))
  else if off = CLS.DIGEST_SEED_LO ∨ off = CLS.DIGEST_SEED_HI then
    s.need m a (nv == s.rd a || (!s.enabled Pg.CLS && s.rd (Pg.CLS + CLS.OCCUPANCY) == 0)) Err.state (fun t => t.store a sel v)
  else if off = CLS.RESTORE_CMD then s.onBit (sel &&& v) 0 (fun t => t.restoreCmd m)
  else if CLS.PORT_KEY ≤ off then s.storeIf m a sel v (fieldOf nv 0 2 != 3)
  else s.store a sel v

def clsMissWrite (s : Dev) (m : Master) (off : Nat) (sel v : Word) : Dev :=
  if off = CLS_MISS.LEARN_CMD then s.onBit (sel &&& v) 0 (fun t => t.learnInit m) else s.store (Pg.CLS_MISS + off) sel v

def clsUpdWrite (s : Dev) (m : Master) (off : Nat) (sel v : Word) : Dev :=
  let c := sel &&& v
  if off = CLS_UPD.UPD_CMD then s.updCommand m (bitOf c 0) (bitOf c 1)
  else if off = CLS_UPD.RD_CMD then (s.onBit c 0 (fun t => t.readEnt false)).onBit c 1 (fun t => t.readEnt true)
  else s.store (Pg.CLS_UPD + off) sel v

def flowWrite (s : Dev) (m : Master) (off : Nat) (sel v : Word) : Dev :=
  let a := Pg.FLOW + off
  let nv := s.newVal a sel v
  let c := sel &&& v
  if off = FLOW.JOURNAL_CTRL then s.storeIf m a sel v (decide (fieldOf nv 0 9 ≤ 256))
  else if off = FLOW.REC_BASE then
    let t := s.store a sel v
    if nv = s.rd a then t else t.recBaseChanged
  else if off = FLOW.INIT_CMD then s.flowInit m (bitOf c 0) (bitOf c 1)
  else if off = FLOW.CACHE_CMD then s.onBit c 0 (fun t => t.cacheFlush)
  else s.store a sel v

def admitWrite (s : Dev) (m : Master) (sl off : Nat) (sel v : Word) : Dev :=
  let b := Pg.ADMIT sl
  let a := b + off
  let nv := s.newVal a sel v
  let c := sel &&& v
  let ok (enter exit : Nat) : Bool := enter == 0 || exit == 0 || decide (exit ≤ enter)
  if off = ADMIT.FB_ENTER then s.storeIf m a sel v (ok (fieldOf nv 0 16) (s.fld (b + ADMIT.FB_EXIT) 0 16))
  else if off = ADMIT.FB_EXIT then s.storeIf m a sel v (ok (s.fld (b + ADMIT.FB_ENTER) 0 16) (fieldOf nv 0 16))
  else if off = ADMIT.FB_CMD then
    (List.range 4).foldl (fun t q =>
      if bitOf c (4 + q) then t.fbExit (4 * sl + q) else if bitOf c q then t.fbEnter (4 * sl + q) else t) s
  else if off = ADMIT.SNAP_CMD then s.onBit c 0 (fun t => t.snap sl)
  else s.store a sel v

/-! ### Packet buffer (07) -/

def bufWrite (s : Dev) (m : Master) (off : Nat) (sel v : Word) : Dev :=
  let a := Pg.BUF + off
  let nv := s.newVal a sel v
  if off = BUF.HBM_GUARD then s.storeIf m a sel v (decide (fieldOf nv 0 13 ≤ 4096))
  else if off = BUF.POOL_HEADROOM then s.poolAfter (s.store a sel v)
  else if BUF.DROP_PROF ≤ off ∧ off % 16 = 0 then s.storeIf m a sel v (decide (nv ≤ s.rd (a + 4)))
  else if BUF.DROP_PROF ≤ off ∧ off % 16 = 4 then s.storeIf m a sel v (decide (s.rd (a - 4) ≤ nv))
  else s.store a sel v

def schedWrite (s : Dev) (off : Nat) (sel v : Word) : Dev :=
  let t := s.store (Pg.SCHED + off) sel v
  if SCHED.SP_CTRL ≤ off then t.pfcShow ((off - SCHED.SP_CTRL) / 0x40) else t

def queueWrite (s : Dev) (i off : Nat) (sel v : Word) : Dev :=
  let j := (off - QUEUE.Q_CFG) / 0x40
  let r := (off - QUEUE.Q_CFG) % 0x40 + QUEUE.Q_CFG
  if r = QUEUE.Q_CMD then s.onBit (sel &&& v) 0 (fun t => t.flushQueue (32 * i + j))
  else
    let t := s.store (Pg.QUEUE i + off) sel v
    if r = QUEUE.Q_MIN then t.bufShow else t

def hbmWrite (s : Dev) (m : Master) (k off : Nat) (sel v : Word) : Dev :=
  let c := sel &&& v
  if off = HBM.RETIRE_CMD then
    let chs := (List.range 16).filter (fun i => bitOf c i)
    let t := if chs.isEmpty then s else s.retireChannels k (chs.map (16 * k + ·)) false
    t.onBit c 16 (fun t => t.retireStack k)
  else if off = HBM.MR_CMD then s.modeCmd m k (bitOf c 0) (bitOf c 1)
  else s.store (Pg.HBM k + off) sel v

/-! ### Lantern (10) -/

/-- A subcarrier and rate are accepted on a lane (R291). -/
def ltRateOk (s : Dev) (n freq rate : Nat) : Bool :=
  decide (100000 ≤ freq) && decide (freq ≤ 1000000) && decide (4 * ltBaud rate ≤ freq)
    && (!s.typeE (n / 4) || decide (freq + 2 * ltBaud rate ≤ 600000))

/-- A `LT_CTRL` value is accepted on a lane: of the fields written, `RX_MON` and the forerunner rate under R298, `WAKE_EN`
under R315, and the rate with the subcarrier under R291. -/
def ltCtrlOk (s : Dev) (n : Nat) (sel nv : Word) : Bool :=
  let b := Pg.LANTERN n
  let e := s.typeE (n / 4)
  let mon := fieldOf nv 8 6
  let rate := fieldOf nv 4 2
  let others := ((List.range 16).filter (fun i => i != n && s.bit (Pg.LANTERN i + LANTERN.LT_CTRL) 2)).length
  s.ltRateOk n (s.fld (b + LANTERN.SUB_FREQ) 0 20) rate
    && (sel &&& 0x3F00 == 0 || decide (mon / 8 = n / 4))
    && (sel &&& 0x30 == 0 || rate != 3 || !e || s.ltClaims n || s.rsFree.isSome)
    && (!bitOf sel 2 || !bitOf nv 2 || (e && decide (others < 4)))

/-- What follows a write of `LT_CTRL`: the resampler claim of R333, the receiver, the transmitter (R299, R311, R312). -/
def ltFollow (s : Dev) (n : Nat) : Dev :=
  let a := Pg.LANTERN n + LANTERN.LT_CTRL
  let t := (s.rsFollow n).ltRxUpdate n
  if t.bit a 1 then t else t.ltStop n

def lanternWrite (s : Dev) (m : Master) (n off : Nat) (sel v : Word) : Dev :=
  let b := Pg.LANTERN n
  let a := b + off
  let nv := s.newVal a sel v
  let c := sel &&& v
  let live := s.bit (b + LANTERN.LT_CTRL) 0 || s.bit (b + LANTERN.LT_CTRL) 1
  if off = LANTERN.LT_CTRL then
    s.need m a (!s.changes a 4 2 sel v || !live) Err.state (fun t =>
      t.need m a (t.ltCtrlOk n sel nv) Err.config (fun t => (t.store a sel v).ltFollow n))
  else if off = LANTERN.SUB_FREQ then
    s.need m a (nv == s.rd a || !live) Err.state (fun t =>
      t.need m a (t.ltRateOk n (fieldOf nv 0 20) (t.fld (b + LANTERN.LT_CTRL) 4 2)) Err.config (fun t => (t.ncoSettle n false).store a sel v))
  else if off = LANTERN.RATE_LIM then (s.rateSettle n).store a sel v
  else if off = LANTERN.DETECT_CFG then
    s.storeIf m a sel v (decide (32 ≤ fieldOf nv 16 8) && decide (fieldOf nv 16 8 ≤ 64) && decide (fieldOf nv 8 8 ≤ 4))
  else if off = LANTERN.CAPTURE_CFG then s.storeIf m a sel v (decide (fieldOf nv 8 8 ≤ fieldOf nv 0 8))
  else if off = LANTERN.AGC_CFG then s.storeIf m a sel v (decide (4 ≤ fieldOf nv 0 5))
  else if LANTERN.KEY_STAGE ≤ off ∧ off < LANTERN.KEY_CMD then s.wr a (mergeBits (s.rd a) sel v)
  else if off = LANTERN.KEY_CMD then
    if bitOf c 1 then s.keyErase n (bitOf c 8) else if bitOf c 0 then s.keyInstall n (bitOf c 8) else s
  else if off = LANTERN.CTR_INIT_TX ∨ off = LANTERN.CTR_INIT_RX then
    (s.setUpset a none).setHeld a (some (mergeBits ((s.heldLow a).getD (s.rd a)) sel v))
  else if off = LANTERN.CTR_INIT_TX + 4 ∨ off = LANTERN.CTR_INIT_RX + 4 then
    (s.setUpset a none).loadWide 40 (a - 4) (mergeBits (s.rd a) sel v)
  else if off = LANTERN.TX_CMD then
    ((s.onBit c 0 (fun t => t.ltQueue n 6 [])).onBit c 1 (fun t => t.ltIdentity n)).onBit c 2 (fun t => t.ltFlush n)
  else s.store a sel v

/-! ### Analogue attach (11) -/

def anaWrite (s : Dev) (m : Master) (sl off : Nat) (sel v : Word) : Dev :=
  let a := Pg.ANA sl + off
  let nv := s.newVal a sel v
  let c := sel &&& v
  let k := (off - ANA.OUT_CFG) / 16
  if off = ANA.OUT_CMD then (List.range 10).foldl (fun t k => t.onBit c k (fun t => outClear t m sl k)) s
  else if ANA.OUT_CFG ≤ off ∧ off < ANA.OUT_CFG + 160 then
    if off % 16 = 0 then
      let owner := fieldOf nv 4 2
      s.need m a (sel &&& 0x30 == 0 || (owner != 3 && (owner != 0 || s.assisted (Pg.ANA sl)))) Err.config (fun t =>
        let t := t.store a (sel &&& 0x1330) v
        if bitOf sel 0 then t.outEnable sl k (bitOf v 0) else t)
    else if off % 16 = 4 then s.codeSet m sl k (mergeBits (s.rd a) sel v)
    else if off % 16 = 12 ∧ 8 ≤ k then s
    else s.store a sel v
  else s.store a sel v

def ditherWrite (s : Dev) (m : Master) (off : Nat) (sel v : Word) : Dev :=
  let a := Pg.DITHER + off
  let nv := s.newVal a sel v
  let g := (off - DITHER.FREQ_LO) / 16
  if off = DITHER.DITHER_CMD then ditherSyncAll s (sel &&& v).toNat
  else if DITHER.FREQ_LO ≤ off ∧ off % 16 < 12 then
    let freq := if off % 16 = 0 then nv.toNat + 2 ^ 32 * (s.rd (a + 4)).toNat
      else if off % 16 = 4 then (s.rd (a - 4)).toNat + 2 ^ 32 * nv.toNat else s.genFreq g
    s.need m a (off % 16 == 8 || decide (freq ≤ 137438953)) Err.config (fun t =>
      let phase := t.ditherPhase g
      let u := t.store a sel v
      u.setPhase g (if u.genOn g then phase else 0))
  else s.store a sel v

def decimWrite (s : Dev) (m : Master) (sl off : Nat) (sel v : Word) : Dev :=
  let a := Pg.DECIM sl + off
  let nv := s.newVal a sel v
  let i := (off - DECIM.CH_CFG) / 0x20
  if DECIM.CH_CFG ≤ off ∧ off = DECIM.CH_CFG + 0x20 * i then
    s.need m a (decide (fieldOf nv 4 3 ≤ 4)) Err.config (fun t =>
      let restart := (t.rd a ^^^ nv) &&& 0x73 != 0 && bitOf nv 0
      let u := t.store a sel v
      if restart then u.settleStart sl i else u)
  else s.store a sel v

/-- Slice and channel of a monitor input's number. -/
def monOf (n : Nat) : Nat × Nat := if n < 32 then (n / 8, n % 8) else ((n - 32) / 4, 8 + (n - 32) % 4)

/-- The output rate of a resampler channel stays within 2.5 MS/s (R332): its source runs at 1.25 MS/s over 4 per preset. -/
def rsRateOk (s : Dev) (src step : Nat) : Bool :=
  let p := if src < 48 then s.fld (chBase (monOf src).1 (monOf src).2 + DECIM.CH_CFG) 4 3 else 0
  decide (0x0100000000 ≤ step) && decide (step ≤ 0x2000000000) && decide (2 ^ 36 ≤ 2 * 4 ^ p * step)

def resampWrite (s : Dev) (m : Master) (off : Nat) (sel v : Word) : Dev :=
  let a := Pg.RESAMP + off
  let nv := s.newVal a sel v
  let c := (off - RESAMP.RS_CFG) / 0x20
  let r := (off - RESAMP.RS_CFG) % 0x20
  if off < RESAMP.RS_CFG then s.store a sel v
  else if r = 0 then
    let src := fieldOf nv 8 7
    let was := s.bit a 0
    s.need m a (!s.rsClaimed c && (!s.changes a 8 7 sel v || !was)) Err.state (fun t =>
      t.need m a (decide (src < 48) || (decide (64 ≤ src) && decide (src < 80))) Err.config (fun t =>
        t.need m a (!bitOf nv 0 || was || t.rsRateOk src (t.rsStep c)) Err.config (fun t =>
          let u := t.store a sel v
          if bitOf nv 0 && !was then u.rsStart c else u)))
  else if r = 4 ∨ r = 8 then
    s.need m a (!s.rsClaimed c && (nv == s.rd a || !s.bit (rsBase c + RESAMP.RS_CFG) 0)) Err.state (fun t => t.store a sel v)
  else s.store a sel v

/-! ### Sequencers and module ports (12, 11) -/

def lseqWrite (s : Dev) (m : Master) (k off : Nat) (step : Dev → Dev) (sel v : Word) : Dev :=
  let b := Pg.LSEQ k
  let a := b + off
  let c := sel &&& v
  if off = LSEQ.SEQ_CMD then
    let t := (s.onBit c 0 (fun t => t.seqStartCmd m k)).onBit c 1 (fun t => t.seqStop k)
    ((t.onBit c 2 (fun t => t.seqContCmd m k)).onBit c 3 step).onBit c 4 (fun t => t.seqEvent k 3)
  else if off = LSEQ.ROLE then s.roleSet m k (mergeBits (s.rd a) sel v)
  else if off = LSEQ.EVENT_FORCE then s.orBits (b + LSEQ.EVENT_PEND) (c &&& eventMask k)
  else if LSEQ.XREG ≤ off ∧ off < LSEQ.BREAK then
    let x := (off - LSEQ.XREG) / 8
    let hi := decide (off % 8 = 4)
    let now := s.lseqWord k off
    let old := if hi then now else (Sparse.get (fun _ => none) (s.sq k).xlo x).getD now
    s.xregSet m k x hi (mergeBits old sel v)
  else if 0x200 ≤ off then s.logErr m a Err.unmapped
  else s.store a sel v

def mmWrite (s : Dev) (m : Master) (n off : Nat) (sel v : Word) : Dev :=
  let a := Pg.MM n + off
  let nv := s.newVal a sel v
  let c := sel &&& v
  if off = MM.MM_CTRL then
    s.need m a (fieldOf nv 0 2 != 3) Err.config (fun t =>
      let u := t.store a sel v
      if u.mmState n = 9 then u.mmRawPins n else u)
  else if off = MM.MM_CMD then
    let t := s.onBit c 0 (fun t => t.nextFree.xferGo m n (bitOf t.freeWord 0))
    let t := t.onBit c 1 (fun t => t.setMmo n { t.mmo n with extra := true })
    (t.onBit c 2 (fun t => t.mmRestart n)).onBit c 3 (fun t => t.mmRestart n)
  else s.store a sel v

/-! ### Calibration and clocks (13, 14) -/

/-- A write of a `LIVE` word: one that changes nothing is accepted from every master (R48, R368). -/
def liveWrite (s : Dev) (m : Master) (w : Nat) (sel v : Word) : Dev :=
  let old := s.calWord s.calSel w
  let nv := mergeBits old (sel &&& calMask s.calSel w) v
  if nv = old ∧ s.expert m 0x0E0 = false then s else s.liveEdit m w nv

def calWrite (s : Dev) (m : Master) (off : Nat) (sel v : Word) : Dev :=
  let a := Pg.CAL + off
  let nv := s.newVal a sel v
  let c := sel &&& v
  if off = CAL.CAL_SEL then
    s.need m a (decide (fieldOf nv 0 5 < 20)) Err.config (fun t =>
      let u := t.store a sel v
      if nv = t.rd a then u else u.setLiveLatch m none)
  else if off = CAL.CAL_CMD then
    ((s.onBit c 0 (fun t => t.calRunCmd m)).onBit c 1 (fun t => t.calRestoreCmd m)).onBit c 2 (fun t => t.calAbortCmd)
  else if CAL.LIVE ≤ off ∧ off < CAL.LIVE + 268 then s.liveWrite m ((off - CAL.LIVE) / 4) sel v
  else s.store a sel v

/-- A ratio of a line PLL is refused (R378): with `OVERRIDE`, the VCO runs from 12 to 30 GHz. -/
def lpllOk (int num den : Nat) (override : Bool) : Bool :=
  den != 0 && decide (num < den)
    && (!override || (decide (768 * den ≤ 10 * (int * den + num)) && decide (int * den + num ≤ 192 * den)))

def clkrstWrite (s : Dev) (m : Master) (off : Nat) (sel v : Word) : Dev :=
  let a := Pg.CLKRST + off
  let nv := s.newVal a sel v
  let c := sel &&& v
  if off = CLKRST.TIME_CMD then timeCommand s c.toNat
  else if off = CLKRST.FREQ_ADJ then s.storeIf m a sel v (decide (nv.toInt.natAbs ≤ 512000000))
  else if off = CLKRST.DEV_RESET then
    s.need m a (c == 0xA55A && s.resetAllowed m) Err.state (fun t => t.deviceReset 2)
  else if off = CLKRST.MC_RESET then
    s.onBit c 0 (fun t => t.need m a (t.resetAllowed m) Err.state (fun t => t.mcReset))
  else if off = CLKRST.ISLAND_CMD then s.onBit c 0 (fun t => t.islandReset m)
  else if CLKRST.LPLL_INT ≤ off ∧ off < CLKRST.LPLL_INT + 0x40 then
    let sl := (off - CLKRST.LPLL_INT) / 16
    let b := Pg.CLKRST + CLKRST.LPLL_INT + 16 * sl
    let w (i : Nat) : Word := if off % 16 = 4 * i then nv else s.rd (b + 4 * i)
    let lanes := (List.range 4).all (fun q => s.rxState (4 * sl + q) == 0 && s.txState (4 * sl + q) == 0)
    s.need m a lanes Err.state (fun t =>
      t.storeIf m a sel v (lpllOk (w 0).toNat (w 1).toNat (w 2).toNat (bitOf (w 3) 0)))
  else s.store a sel v

/-! ### Security, host interfaces, mailboxes (15, 16) -/

/-- `DBG_CMD.CHALLENGE`: the random number is a value no rule gives (R408). -/
def challenge (s : Dev) : Dev :=
  let t := (List.range 8).foldl (fun t k => (t.wr (Pg.BOOT + BOOT.DBG_CHAL + 4 * k) t.freeWord).nextFree) s
  { t with sec := { t.sec with chalValid := true } }

def bootWrite (s : Dev) (m : Master) (off : Nat) (sel v : Word) : Dev :=
  let c := sel &&& v
  if off = BOOT.BOOT_CMD then s.onBit c 0 (fun t => t.bootRetry m)
  else if off = BOOT.SEC_CMD then
    let t := s.onBit c 0 (fun t => t.secAdvance m)
    let t := t.onBit c 1 (fun t => t.fuseCmd m (fun t => t.fuseStart [32 * 24 + 4] .command))
    t.onBit c 2 (fun t => t.fuseCmd m (fun t => t.fuseStart [32 * 24 + 5] .command))
  else if off = BOOT.IMG_CMD then (s.onBit c 0 (fun t => t.imgBegin m)).onBit c 1 (fun t => t.dropStream (masterId m))
  else if off = BOOT.IMG_DATA then s.imgData m c
  else if off = BOOT.DBG_CMD then (s.onBit c 0 (fun t => t.challenge)).onBit c 1 (fun t => t.setDebug 0)
  else if off = BOOT.FLASH_GO then s.onBit c 0 (fun t => t.flashGo m)
  else s.store (Pg.BOOT + off) sel v

def dmaWrite (s : Dev) (m : Master) (off : Nat) (sel v : Word) : Dev :=
  let a := Pg.DMA + off
  let nv := s.newVal a sel v
  if off = DMA.HV_PERIOD then s.storeIf m a sel v (decide (fieldOf nv 0 14 ≤ 10000))
  else if off = DMA.HV_CMD then s.onBit (sel &&& v) 0 (fun t => t.harvestDue 2)
  else if DMA.HV_LIST ≤ off then s.storeIf m a sel v (decide (fieldOf nv 10 10 + fieldOf nv 0 10 ≤ 1024))
  else s.store a sel v

def ringWrite (s : Dev) (m : Master) (r off : Nat) (sel v : Word) : Dev :=
  let b := Pg.RING r
  let a := b + off
  let nv := s.newVal a sel v
  let run := s.bit (b + RING.RING_CTRL) 0
  let logOk (lo : Nat) : Bool := decide (4 ≤ fieldOf nv lo 4) && decide (fieldOf nv lo 4 ≤ 12)
  if off = RING.RING_CTRL then
    if bitOf sel 0 then (if bitOf v 0 then s.ringStart r else s.ringStopCmd r).setUpset a none else s
  else if off = RING.RING_CFG then
    s.need m a (!run) Err.state (fun t => t.storeIf m a sel v (logOk 0 && logOk 8))
  else if RING.SQ_BASE_LO ≤ off ∧ off < RING.SQ_TAIL then s.need m a (!run) Err.state (fun t => t.store a sel v)
  else if off = RING.SQ_TAIL then s.sqTailSet m r nv
  else if off = RING.CQ_HEAD then s.cqHeadSet m r nv
  else s.store a sel v

/-- A staging register of a mailbox endpoint (R431): the host's, the BMC's and the controller's. -/
def mbxStage (s : Dev) (m : Master) (off : Nat) (sel v : Word) : Dev :=
  match ownEndpoint m with
  | none => s
  | some e =>
    if off = MBX.TX_DEST then
      let old := Sparse.get (fun _ => 0) s.mbx.txDest e
      { s with mbx := { s.mbx with txDest := Sparse.put (fun _ => 0) s.mbx.txDest e (mergeBits old (sel &&& 0xFF) v) } }
    else
      let k := 8 * e + (off - MBX.TX_DATA) / 4
      let old := Sparse.get (fun _ => 0) s.mbx.txData k
      { s with mbx := { s.mbx with txData := Sparse.put (fun _ => 0) s.mbx.txData k (mergeBits old sel v) } }

def mbxWrite (s : Dev) (m : Master) (i off : Nat) (sel v : Word) : Dev :=
  let c := sel &&& v
  if off = MBX.TX_DEST ∨ (MBX.TX_DATA ≤ off ∧ off < MBX.TX_DATA + 32) then s.mbxStage m off sel v
  else if off = MBX.ROLE_BUMP then
    s.onBit c 0 (fun t => match endpoint m with | some e => if e < 2 then t.bumpEpoch e else t | none => t)
  else if off = MBX.RX_POP then s.onBit c 0 (fun t => t.rxPop m)
  else if off = MBX.INBOX_FLUSH then
    match mbxEndpoint i (c.toNat % 16) with
    | some e => s.flushInbox e
    | none => s
  else if MBX.DB_TX ≤ off ∧ off < MBX.DB_RX_VAL then s.dbTx m ((off - MBX.DB_TX) / 4) c
  else s.store (Pg.MBX i + off) sel v

/-! ### Thermal, supply, Vigil, self-test (17, 18) -/

/-- Limits stay at or below their reset values, and warning at or below throttle (R448). -/
def limitsOk (nv : Word) (warn throttle : Nat) : Bool :=
  decide (fieldOf nv 0 8 ≤ warn) && decide (fieldOf nv 8 8 ≤ throttle) && decide (fieldOf nv 0 8 ≤ fieldOf nv 8 8)

def thermWrite (s : Dev) (m : Master) (off : Nat) (sel v : Word) : Dev :=
  let a := Pg.THERM + off
  let nv := s.newVal a sel v
  if off = THERM.LIMIT_ABS then s.storeIf m a sel v (limitsOk nv 100 105)
  else if off = THERM.LIMIT_RATE then s.storeIf m a sel v (limitsOk nv 8 15)
  else if off = THERM.STACK_LIMIT then s.storeIf m a sel v (limitsOk nv 90 95)
  else if off = THERM.THERM_CMD then s.unbreak (sel &&& v).toNat
  else if off = THERM.PAUSE_SET then
    s.need m a (decide (fieldOf nv 0 4 ≤ 8)) Err.config (fun t =>
      let u := t.store a sel v
      if u.assisted Pg.THERM then u.setPause (fieldOf nv 0 4) else u)
  else s.store a sel v

/-- A bit of `SUP_EVENT` cleared: the rail's lowest voltage starts again from the present one (17, `RAIL_V`). -/
def supplyWrite (s : Dev) (off : Nat) (sel v : Word) : Dev :=
  let t := s.store (Pg.SUPPLY + off) sel v
  if off = SUPPLY.SUP_EVENT then
    (List.range 8).foldl (fun t k =>
      let r := Pg.SUPPLY + SUPPLY.RAIL_V + 4 * k
      t.onBit (sel &&& v) k (fun t => t.setF r 16 16 (t.fld r 0 16))) t
  else t

def vigilWrite (s : Dev) (m : Master) (off : Nat) (sel v : Word) : Dev :=
  let c := sel &&& v
  if off = VIGIL.VIGIL_CMD then (s.onBit c 0 (fun t => t.vigilCmd m)).onBit c 1 (fun t => t.wakeBy 4)
  else s.store (Pg.VIGIL + off) sel v

def bistWrite (s : Dev) (m : Master) (off : Nat) (sel v : Word) : Dev :=
  let a := Pg.BIST + off
  let c := sel &&& v
  if off = BIST.BIST_CMD then (s.onBit c 0 (fun t => t.bistStart m)).onBit c 1 (fun t => t.bistAbort)
  else if off = BIST.SCAN_CTRL then s.scanSet m (mergeBits (s.rd a) sel v)
  else s.store a sel v

/-! ### Every register -/

/-- What an accepted write of the selected bits of a register does; `step` runs one instruction of a sequencer. -/
def effect (step : Dev → Master → Nat → Dev) (s : Dev) (m : Master) (a : Nat) (sel v : Word) : Dev :=
  let page := a / 0x1000
  let off := a % 0x1000
  match pageRow page with
  | none => s
  | some p =>
    let i := page - p.first
    if off < 0x40 then s.headerWrite m page off sel v
    else
      match p.type with
      | .lrx => s.lrxWrite m i off sel v
      | .ltx => s.ltxWrite m i off sel v
      | .lfec => s.lfecWrite m i off sel v
      | .host => s.hostWrite m i off sel v
      | .slice => s.sliceWrite m i off sel v
      | .cls => s.clsWrite m off sel v
      | .clsmiss => s.clsMissWrite m off sel v
      | .clsupd => s.clsUpdWrite m off sel v
      | .flow => s.flowWrite m off sel v
      | .admission => s.admitWrite m i off sel v
      | .buf => s.bufWrite m off sel v
      | .sched => s.schedWrite off sel v
      | .queue => s.queueWrite i off sel v
      | .hbm => s.hbmWrite m i off sel v
      | .lantern => s.lanternWrite m i off sel v
      | .ana => s.anaWrite m i off sel v
      | .dither => s.ditherWrite m off sel v
      | .decim => s.decimWrite m i off sel v
      | .resamp => s.resampWrite m off sel v
      | .lseq => s.lseqWrite m i off (fun t => step t m i) sel v
      | .seq => s.lseqWrite m (8 + i) off (fun t => step t m (8 + i)) sel v
      | .mm => s.mmWrite m i off sel v
      | .cal => s.calWrite m off sel v
      | .clkrst => s.clkrstWrite m off sel v
      | .boot => s.bootWrite m off sel v
      | .dma => s.dmaWrite m off sel v
      | .ring => s.ringWrite m i off sel v
      | .mbx => s.mbxWrite m i off sel v
      | .therm => s.thermWrite m off sel v
      | .supply => s.supplyWrite off sel v
      | .vigil => s.vigilWrite m off sel v
      | .bist => s.bistWrite m off sel v
      | .device =>
        if off = DEVICE.FAULT_POP then
          s.onBit (sel &&& v) 0 (fun t => { t with log := { t.log with done := t.log.done.drop 1 } })
        else s.store a sel v
      | .intr => s.store a sel v
      | .locks => s.store a sel v
      | .pwr => s.store a sel v
      | .clsprof => s.store a sel v
      | .clsbank => s.store a sel v
      | .fexp => s.store a sel v
      | .drop => s.store a sel v
      | .anacom => s.store a sel v

end Dev

end Sys2Proof.Machine
end

