-- ==== Sys2Proof/Machine/SoftReset.lean ====
section
/-! DEFINITION. What a soft reset of a page does (02, R41, R59; 01, 03, 04 R505, 05 R504, 07 R244, 08 R254, 09, 11, 12,
13 R370): lanes and outputs that must stop do so first, the registers then read as at reset but for what R41 and the
chapters keep, and the block's own state starts afresh. -/

namespace Sys2Proof.Machine

/-- RO fields of a page that report something kept outside the block's working state, or that the block itself brings to
its new state (R41). -/
def keptStatus (t : PageType) (off : Nat) : Bool :=
  match t with
  | .therm => off == THERM.THERM_STATUS || off == THERM.BROKEN || off == THERM.SHUT_RECORD || off == THERM.PRIV_TRIP
      || off == THERM.STACK_TEMP || decide (THERM.ZONE_TEMP ≤ off)
  | .supply => true
  | .vigil => true
  | .pwr => false
  | .clkrst => off == CLKRST.REF_STATUS || off == CLKRST.PLL_STATUS || off == CLKRST.HANG_ISLAND
  | .lrx => off == LRX.LANE_STATE || off == LRX.CKPT_STATUS
  | .ltx => off == LTX.TX_STATE
  | .lfec => off == LFEC.ALIGN_STATUS || off == LFEC.SKEW
  | .host => off == HOST.HOST_STATE || off == HOST.LINK_STATUS
  | .cls => off == CLS.OCCUPANCY || off == CLS.RESTORE_STATUS
  | .clsupd => off == CLS_UPD.UPD_STATUS || off == CLS_UPD.UPD_TAG
  | .clsbank => true
  | .flow => off == FLOW.JOURNAL_STATUS || off == FLOW.CACHE_STATUS || off == FLOW.INIT_STATUS
  | .admission => decide (0x100 ≤ off) && decide (off < 0x300) && off % 0x80 == 0
  | .buf => true
  | .queue => true
  | .hbm => true
  | .lantern => false
  | .ana => off == ANA.FAULT_MAP || (decide (ANA.OUT_CFG ≤ off) && decide (off < ANA.OUT_CFG + 160) && off % 16 == 8)
  | .resamp => off % 0x20 == RESAMP.RS_STATUS % 0x20
  | .lseq => off == LSEQ.SEQ_STATE || off == LSEQ.ROLE_EPOCH || off == LSEQ.PROG_INFO || off == LSEQ.PROG_VER
  | .seq => off == LSEQ.SEQ_STATE || off == LSEQ.ROLE_EPOCH || off == LSEQ.PROG_INFO || off == LSEQ.PROG_VER
  | .mm => off == MM.MM_STATE
  | .bist => off == BIST.BIST_STATUS || off == BIST.SCAN_STATUS
  | .boot => true
  | .dma => off == DMA.DMA_STATUS
  | .ring => off == RING.RING_STATUS
  | .device => true
  | .intr => false
  | .locks => false
  | .slice => false
  | .clsprof => false
  | .clsmiss => false
  | .fexp => false
  | .sched => false
  | .drop => false
  | .anacom => false
  | .dither => false
  | .decim => false
  | .cal => false
  | .mbx => false

/-- Bits of a block register that a soft reset leaves. -/
def keptBits (t : PageType) (off : Nat) : Word :=
  match regRow t off with
  | none => 0xFFFFFFFF
  | some r =>
    match r.kind with
    | .plain =>
      if keptStatus t off then ~~~(r.rw ||| r.ex ||| heldBits t off)
      else if t = .host ∧ off = HOST.EQ_STATUS then 0xFF00
      else r.w1c
    | _ => 0

namespace Dev

/-- What a register of a page reads after a soft reset. -/
def softValue (t : PageType) (a : Nat) (v : Word) : Word :=
  let off := a % 0x1000
  if off = HDR.PAGE_CTRL then regReset a
  else if off < 0x40 then v
  else mergeBits (regReset a) (keptBits t off) v

/-- Registers, parity marks and held low words of a page after a soft reset. -/
def softClear (s : Dev) (page : Nat) : Dev :=
  match pageRow page with
  | none => s
  | some p =>
    let mine (a : Nat) : Bool := decide (a / 0x1000 = page)
    let t := { s with bus := { s.bus with upset := Sparse.clear mine s.bus.upset, loHeld := Sparse.clear mine s.bus.loHeld } }
    (s.regs.filter (fun r => mine r.1)).foldl (fun t r => t.wr r.1 (softValue p.type r.1 r.2)) t

/-- The lanes of an index list leave service, those in test apart. -/
def rxStop (s : Dev) (n : Nat) : Dev := if s.rxState n = 7 then s else s.laneOff n
def txStop (s : Dev) (n : Nat) : Dev := if s.txState n = 3 then s else s.txOff n 0
def hostStop (s : Dev) (n : Nat) : Dev := if s.hostState n = 4 then s else s.hostOff n

/-- The decoder of a lane starts afresh (R505). -/
def decoderStop (s : Dev) (n : Nat) : Dev :=
  let t := if s.bit (Pg.LFEC n + LFEC.ALIGN_STATUS) 2 then s.alignDrop n 0x1F else s.alignClear n 0x1F
  let t := t.setRxl n { t.rxl n with predict := false, needAm := false }
  (t.degClear n).degRestart n

/-- A sequencer loses its working state; programs and data stay. -/
def seqForget (s : Dev) (k : Nat) : Dev :=
  let x := s.sq k
  let t := s.setSq k { x with xr := [], stack := [], timer := none, winQ := [], winRd := none, winErr := [], waitD := 0,
                              xlo := [], stepping := false }
  t.setB (seqReg k) 27 false

/-- The Lantern side of a lane stops: what waits or is on the air goes, key slots stay. -/
def ltForget (s : Dev) (n : Nat) : Dev :=
  let t := ((s.ltStop n).ltFlush n).rsRelease n
  let l := t.ltn n
  t.setLtn n { Lantern.init with slots := l.slots, tuneReply := l.tuneReply }

/-- What stops before the registers of a page return to reset. -/
def softBefore (s : Dev) (t : PageType) (i : Nat) : Dev :=
  match t with
  | .lrx => s.rxStop i
  | .ltx => s.txStop i
  | .lfec => s.decoderStop i
  | .host => (s.hostStop i).setReports i []
  | .slice =>
    (List.range 4).foldl (fun u q =>
      let n := 4 * i + q
      ((((u.rxStop n).txStop n).hostStop n).dropShare n).setRxPause n 0) s
  | .admission => (List.range 4).foldl (fun u q => u.fbExit (4 * i + q)) s
  | .lantern => s.ltForget i
  | .ana => (List.range 10).foldl (fun u k => u.outOff i k) s
  | .lseq =>
    let u := s.seqStop i
    if u.assisted (Pg.LSEQ i) then u.ownerLeaves i else u
  | .seq => s.seqStop (8 + i)
  | .mm => if s.mmState i = 0 then s else (s.setMm i 0).mmHold i
  | .bist => s.bistAbort
  | .ring => s.ringStopCmd i
  | .therm => s.setPause 0
  | _ => s

/-- A zone starts its conditions afresh from its newest sample. -/
def zoneForget (z : ZoneSt) : ZoneSt := { ZoneSt.init with samples := z.samples.take 1 }

/-- What the block's own state becomes after the registers have returned to reset. -/
def softAfter (s : Dev) (t : PageType) (i : Nat) : Dev :=
  match t with
  | .lrx =>
    let x := s.rxl i
    s.setRxl i { x with retries := 3, warmCal := false, holdOver := false, tracked := false, unsettled := false,
                        snrArmed := true, envelope := 0, bringUp := false, seqWait := false }
  | .ltx =>
    let u := s.setLtn i { s.ltn i with tuneReply := none }
    u.txUpdate (u.linePort i)
  | .lfec => s.txUpdate (s.linePort i)
  | .host =>
    { s with eg := { s.eg with eqStaged := Sparse.clear (fun k => decide (k / 0x100000 = Pg.HOST i / 0x1000)) s.eg.eqStaged } }
  | .slice =>
    let u := (List.range 4).foldl (fun u q =>
      let n := 4 * i + q
      (((u.setB (Pg.LRX n + LRX.LANE_STATE) 18 (u.typeE i)).mmConfig n).rsFollow n).ltRxUpdate n) s
    (u.outType i).sliceRetry i
  | .clsprof => { s with cls := { s.cls with staged := [] } }
  | .clsmiss =>
    { s with cls := { s.cls with fifo := [], cursor := 0, cursorEnd := 0, learnBase := 0, learnEnd := 0, learns := [],
                                 punted := [], puntBucket := [] } }
  | .flow => { s with flow := { s.flow with staged := [], stagedFor := [] } }
  | .fexp => { s with flow := { s.flow with sweep := 0, sweepStart := s.mono } }
  | .buf => s.bufShow
  | .sched =>
    let u := (List.range 16).foldl (fun u h => u.setSched h { Sched.init with txq := (u.sched h).txq }) s
    (List.range 16).foldl (fun u h => u.pfcShow h) u
  | .queue =>
    let u := (List.range 32).foldl (fun u j =>
      let q := 32 * i + j
      (u.setQueue q { u.queue q with avg := 0 }).queueShow q) s
    u.bufShow
  | .hbm => s.setStack4 i { s.stack4 i with uncTimes := [] }
  | .dither => { s with ana := { s.ana with gens := [] } }
  | .decim =>
    { s with ana := { s.ana with settle := Sparse.clear (fun k => decide (k / 12 = i)) s.ana.settle,
                                 latch := Sparse.clear (fun k => decide (k / 256 / 12 = i)) s.ana.latch } }
  | .resamp =>
    let u := { s with ana := { s.ana with latch := Sparse.clear (fun k => decide (48 ≤ k / 256)) s.ana.latch, rsPos := [], rsSettle := [] } }
    (List.range 8).foldl (fun u c =>
      if u.rsClaimed c then
        let n := u.fld (rsBase c + RESAMP.RS_STATUS) 16 4
        let u := u.setF (rsBase c + RESAMP.RS_CFG) 8 7 (64 + n)
        (u.setWide 40 (rsBase c + RESAMP.STEP_LO) 0x0FA0000000).rsStart c
      else u) u
  | .lseq => s.seqForget i
  | .seq => s.seqForget (8 + i)
  | .mm =>
    let a := Pg.MM i + MM.MM_STATE
    (((s.setB a 20 false).setF a 16 4 0).setF a 12 3 0).mmConfig i
  | .cal => s.calSoftReset
  | .boot =>
    match s.sec.stream with
    | some (_, o, _) => s.dropStream o
    | none => s
  | .mbx =>
    let u : Dev := { s with mbx := { s.mbx with reject := Sparse.clear (fun e => decide (mbxPage e = i)) s.mbx.reject } }
    if i = 0 then { u with mbx := { u.mbx with txDest := [], txData := [], latch := [] } } else u
  | .bist => if s.testRuns then s else s.wr (Pg.BIST + BIST.BIST_STATUS) 0
  | .dma => { s with hif := { s.hif with hvRun := none } }
  | .ring => if (s.ring i).stopping then s else s.setRing i RingSt.init
  | .clkrst => { s with time := { s.time with latch := [], captLatch := [] } }
  | .therm =>
    let u : Dev := { s with mon := { s.mon with zones := s.mon.zones.map (fun p => (p.1, zoneForget p.2)), stackOver := [], stackThr := [] } }
    u.thermShow
  | _ => s

/-- The re-initialisation of a soft-reset page is in progress, or ends. -/
def setSoft (s : Dev) (page : Nat) (b : Bool) : Dev :=
  { s with bus := { s.bus with softRst := Sparse.put (fun _ => false) s.bus.softRst page b } }

/-- A soft reset of a page (R41, R59). -/
def softReset (s : Dev) (page : Nat) : Dev :=
  match pageRow page with
  | none => s
  | some p =>
    if page = 0 then s
    else
      let b := page * 0x1000
      let i := page - p.first
      let held := s.rd (b + HDR.PAGE_STATUS) &&& 0x18
      let addr := s.rd (b + HDR.PARITY_ADDR)
      let t := (((s.softBefore p.type i).softClear page).softAfter p.type i)
      let t := if held = 0 then t else (t.parityByHost page).wr (b + HDR.PARITY_ADDR) addr
      t.setSoft page true

end Dev

end Sys2Proof.Machine
end

