-- ==== Sys2Proof/Machine/Access.lean ====
section
/-! DEFINITION. Accesses to the register map (02, R30–R75): windows and aliases, the write buffer of a posted page, the
window units of the sequencers (12, R341–R343), locks and expert sessions, reads with their side effects, and the rows
of chapter 02. -/

namespace Sys2Proof.Machine

/-- The effect of an accepted write: the device, the writer, the address, the bits selected and their values. -/
abbrev Effect : Type := Dev → Master → Nat → Word → Word → Dev

namespace Dev

/-! ### Locks and expert sessions (R60–R68, R75) -/

/-- A lock is freed; the security page drops its holder's image stream with it (15, R398). -/
def freeLock (s : Dev) (page : Nat) : Dev :=
  let t := s.setHolder page 0
  if page = Pg.BOOT / 0x1000 then t.dropStream (s.holder page) else t

/-- A write to `LOCK`: `HOLDER` is its one writable field (R39, R61). -/
def lockWrite (s : Dev) (m : Master) (page : Nat) (v : Word) : Dev :=
  if s.holds m page ∧ v.toNat % 256 = (masterId m).toNat then s.freeLock page
  else s.logErr m (page * 0x1000 + HDR.LOCK) Err.notHolder

/-- A write of the selected bits of `LOCK_BREAK`, which names no page where it selects none of them (R32, R65, R75). -/
def lockBreak (s : Dev) (m : Master) (sel v : Word) : Dev :=
  let page := (sel &&& v).toNat % 1024
  s.need m (Pg.LOCKS + LOCKS.LOCK_BREAK) (m == .host || (m == .jtag && decide (1 ≤ s.debugLevel))) Err.notHolder (fun t =>
    if t.holder page = 0 ∨ sel.toNat % 1024 = 0 then t
    else
      let former := (t.brokenOf page).filter (· != t.holder page) ++ [t.holder page]
      ((t.setBroken page former).freeLock page).count (Pg.LOCKS + LOCKS.BREAK_COUNT))

/-- A master has written the first key, and nothing since. -/
def setKeySeen (s : Dev) (m : Master) (b : Bool) : Dev :=
  let l := s.bus.keySeen.filter (· != masterId m)
  { s with bus := { s.bus with keySeen := if b then l ++ [masterId m] else l } }

/-- A master's expert session opens or ends. -/
def setExpert (s : Dev) (m : Master) (b : Bool) : Dev :=
  let l := s.bus.expert.filter (· != masterId m)
  { s with bus := { s.bus with expert := if b then l ++ [masterId m] else l } }

/-- A write to `EXPERT_KEY` (R66–R68). -/
def expertKey (s : Dev) (m : Master) (v : Word) : Dev :=
  let a := Pg.DEVICE + DEVICE.EXPERT_KEY
  if v = 0x00005EA5 then s.setKeySeen m true
  else if v = 0x0000A5E5 then
    if s.bus.keySeen.contains (masterId m) then (s.setKeySeen m false).setExpert m true
    else s.logErr m a Err.expertSequence
  else if v = 0 then (s.setKeySeen m false).setExpert m false
  else (s.setKeySeen m false).logErr m a Err.expertSequence

/-- What a read of `LOCK` answers; a free lock goes to the reader (R60). -/
def lockRead (s : Dev) (m : Master) (page : Nat) : Dev × Word :=
  let t := if s.holder page = 0 then (s.setHolder page (masterId m)).dropBroken m page else s
  (t, t.lockWord page)

/-! ### Accepting a write (R39–R55, R59–R63) -/

/-- A command of a register that acts only for the holder of the page's lock. Where the manual asks it of the register,
every write of it needs the lock; where it asks it of a bit, a write that sets the bit (R275 and the chapters' pages). -/
def needsLock (a : Nat) (c : Word) : Bool :=
  let page := a / 0x1000
  let off := a % 0x1000
  let queue := decide (0x082 ≤ page) && decide (page < 0x086) && decide (QUEUE.Q_CFG ≤ off)
    && decide ((off - QUEUE.Q_CFG) % 0x40 + QUEUE.Q_CFG = QUEUE.Q_CMD)
  let hbm := decide (0x088 ≤ page) && decide (page < 0x08C) && (off == HBM.RETIRE_CMD || off == HBM.MR_CMD)
  let lt := decide (0x090 ≤ page) && decide (page < 0x0A0) && off == LANTERN.KEY_CMD
  let flush := decide (0x0F0 ≤ page) && decide (page < 0x0F4) && off == MBX.INBOX_FLUSH
  let time := a == Pg.CLKRST + CLKRST.TIME_CMD
  let island := a == Pg.CLKRST + CLKRST.ISLAND_CMD
  let boot := decide (page = 0x0F8) && (off == BOOT.BOOT_CMD || off == BOOT.SEC_CMD || off == BOOT.IMG_CMD)
  let flash := a == Pg.BOOT + BOOT.FLASH_GO
  let vigil := a == Pg.VIGIL + VIGIL.VIGIL_CMD && bitOf c 0
  let therm := a == Pg.THERM + THERM.THERM_CMD
  flush || vigil || hbm || lt || time || boot || therm || ((queue || island || flash) && c != 0)
    || (off == HDR.PAGE_STATUS && bitOf c 4) || (off == HDR.PAGE_CTRL && bitOf c 4)

/-- Expert bits of a register. -/
def expertBits (a : Nat) : Word :=
  match rowAt a with
  | some r => r.ex
  | none => 0

/-- A page's write buffer filled or emptied (R50). -/
def setBuffer (s : Dev) (page : Nat) (w : Option PostedWrite) : Dev :=
  { s with bus := { s.bus with buffer := Sparse.put (fun _ => none) s.bus.buffer page w } }

/-- A write that passed its checks goes into the page's buffer, or acts at once where the page is not posted; expert bits
only with expert rights (R48). -/
def takeWrite (fx : Effect) (s : Dev) (m : Master) (a : Nat) (sel v : Word) (pc : BitVec 11) : Dev :=
  let page := a / 0x1000
  let ex := if s.expert m page then 0 else expertBits a &&& sel
  let t := if (s.peek m a ^^^ v) &&& ex = 0 then s else s.logErr m a Err.expertDenied
  if posted page then t.setBuffer page (some { master := m, off := a % 0x1000, sel := sel &&& ~~~ex, val := v, pc := pc })
  else fx t m a (sel &&& ~~~ex) v

/-- A write of the selected bits of a register by a master: checked, then accepted or logged. -/
def accept (fx : Effect) (s : Dev) (m : Master) (a : Nat) (be : BitVec 4) (sel v : Word) (aliased : Bool)
    (pc : BitVec 11) : Dev :=
  let page := a / 0x1000
  let off := a % 0x1000
  match s.writeErr m a be aliased with
  | some c => (s.dropBroken m page).logErr m a c
  | none =>
    if off = HDR.LOCK then s.lockWrite m page v
    else
      let t := s.dropBroken m page
      if needsLock a (sel &&& v) && !t.holds m page then t.logErr m a Err.lockRequired
      else if off = HDR.PAGE_CTRL ∧ bitOf (sel &&& v) 4 = true then t.softReset page
      else if a = Pg.DEVICE + DEVICE.EXPERT_KEY then t.expertKey m v
      else if a = Pg.LOCKS + LOCKS.LOCK_BREAK then t.lockBreak m sel v
      else t.takeWrite fx m a sel v pc

/-! ### Island windows of the sequencers (12, R341–R343) -/

/-- The page behind a slot of a sequencer's window. -/
def slotPage (k slot : Nat) : Option Nat :=
  if k < 8 then
    match slot with
    | 0 => some (Pg.ANA (k / 2) / 0x1000)
    | 1 => some (Pg.DECIM (k / 2) / 0x1000)
    | 2 => some (Pg.DITHER / 0x1000)
    | 3 => some (Pg.RESAMP / 0x1000)
    | 4 => some (Pg.LSEQ k / 0x1000)
    | 5 => some (Pg.CAL / 0x1000)
    | _ => none
  else
    match slot with
    | 0 => some (Pg.LRX (k - 8) / 0x1000)
    | 1 => some (Pg.LTX (k - 8) / 0x1000)
    | 2 => some (Pg.LFEC (k - 8) / 0x1000)
    | 3 => some (Pg.LANTERN (k - 8) / 0x1000)
    | 4 => some (Pg.LSEQ k / 0x1000)
    | 5 => some (Pg.CAL / 0x1000)
    | _ => none

/-- The register a window address names. -/
def windowAddr (k : Nat) (w : BitVec 16) : Option Nat := (slotPage k (w.toNat / 0x1000)).map (fun p => p * 0x1000 + w.toNat % 0x1000)

/-- A write that the window's slot rules refuse, with the code that no rule names (R341). -/
def slotRefuses (k : Nat) (a : Nat) (v : Word) : Bool :=
  let sl := k / 2
  let page := a / 0x1000
  let off := a % 0x1000
  if page = Pg.CAL / 0x1000 then true
  else if page = Pg.DITHER / 0x1000 then
    if off = DITHER.DITHER_CMD then v &&& 0xFFFF &&& ~~~(BitVec.ofNat 32 (15 * 2 ^ (4 * sl))) != 0
    else decide (DITHER.FREQ_LO ≤ off) && decide ((off - DITHER.FREQ_LO) / 16 / 4 ≠ sl)
  else if page = Pg.RESAMP / 0x1000 then decide (RESAMP.RS_CFG ≤ off) && decide ((off - RESAMP.RS_CFG) / 0x20 / 2 ≠ sl)
  else false

/-- The code a window write is refused with before its page sees it: slot rules, and the sequencer's own page but for
`ROLE` (R343). -/
def windowRefused (k : Nat) (w : BitVec 16) (a : Nat) (v : Word) : Option Nat :=
  if slotRefuses k a v then some (Config.windowCode w).toNat
  else if a / 0x1000 = Pg.LSEQ k / 0x1000 ∧ a % 0x1000 ≠ LSEQ.ROLE then some Err.state
  else none

/-- The error a page logged while a write acted, with the page's record kept as R47 says. -/
def watched (s : Dev) (page : Nat) (f : Dev → Dev) : Dev × Option Nat :=
  let e := page * 0x1000 + HDR.ERR_INFO
  let old := s.rd e
  let t := f (s.wr e 0)
  let new := t.rd e
  if bitOf new 31 then (t.wr e (if bitOf old 31 then withBit new 30 true else new), some (fieldOf new 22 8))
  else (t.wr e old, none)

/-- An error of a window write returns to its sequencer later. -/
def windowErr (s : Dev) (k : Nat) (pc : BitVec 11) (code : Nat) : Dev :=
  s.setSq k { s.sq k with winErr := (s.sq k).winErr ++ [(pc, code)] }

/-- A part of a write by a sequencer runs, and its error is kept for the sequencer. -/
def watchedFor (s : Dev) (k page : Nat) (pc : BitVec 11) (f : Dev → Dev) : Dev :=
  match s.watched page f with
  | (t, some c) => t.windowErr k pc c
  | (t, none) => t

/-- A window write that its page is free to take. -/
def windowWrite (fx : Effect) (s : Dev) (k : Nat) (w : BitVec 16) (v : Word) (pc : BitVec 11) : Dev :=
  match windowAddr k w with
  | none => s.windowErr k pc Err.unmapped
  | some a =>
    match windowRefused k w a v with
    | some c => (s.logErr (seqMaster k) a c).windowErr k pc c
    | none => s.watchedFor k (a / 0x1000) pc (fun t => t.accept fx (seqMaster k) a 0xF 0xFFFFFFFF v false pc)

/-- The waiting writes of a sequencer that may go: their page is free and no earlier one waits for it (R342). -/
def pumpSeq (fx : Effect) (s : Dev) (k : Nat) : Dev :=
  let page (e : BitVec 16 × Word × BitVec 11) : Nat := (windowAddr k e.1).getD 0 / 0x1000
  let r := (s.sq k).winQ.foldl (fun (acc : Dev × List (BitVec 16 × Word × BitVec 11)) e =>
    if acc.1.busy (page e) || acc.2.any (fun x => page x == page e) then (acc.1, acc.2 ++ [e])
    else (windowWrite fx acc.1 k e.1 e.2.1 e.2.2, acc.2)) (s, [])
  if r.2.length = (s.sq k).winQ.length then r.1 else r.1.setSq k { r.1.sq k with winQ := r.2 }

/-- Waiting window writes of every sequencer. -/
def pump (fx : Effect) (s : Dev) : Dev :=
  (List.range 24).foldl (fun t k => if (t.sq k).winQ.isEmpty then t else pumpSeq fx t k) s

/-! ### Posted writes and soft resets take effect (R41, R50, R52) -/

/-- The sequencer a master is. -/
def seqOf (m : Master) : Option Nat :=
  match m with
  | .loopSeq k => some k.val
  | .laneSeq n => some (8 + n.val)
  | _ => none

/-- The write in a page's buffer takes effect; an error it meets there returns to a sequencer that wrote it. -/
def applyPosted (fx : Effect) (s : Dev) (page : Nat) : Dev :=
  match s.buffered page with
  | none => s
  | some w =>
    let run (t : Dev) : Dev := fx t w.master (page * 0x1000 + w.off) w.sel w.val
    let t := s.setBuffer page none
    match seqOf w.master with
    | some k => if w.off = HDR.ERR_INFO then run t else t.watchedFor k page w.pc run
    | none => run t

/-- A page's buffer is emptied, its soft reset ended: what a read waits for. -/
def drain (fx : Effect) (s : Dev) (page : Nat) : Dev :=
  if s.busy page then pump fx ((applyPosted fx s page).setSoft page false) else s

/-! ### Reads (R33, R35, R44, R52, R60, R71) -/

/-- The word of the answer emitted last. -/
def answered (s : Dev) : Dev × Word :=
  match s.out with
  | .readData _ _ v :: r => ({ s with out := r }, v)
  | _ => (s, 0)

/-- The two-word values of a page that are no counters and latch their upper words when the lower is read. -/
def pairRead (s : Dev) (m : Master) (t : PageType) (i off a : Nat) : Option Dev :=
  if t = .lantern then
    match ltPairOf off with
    | some lo => if off = lo then some (s.setHi m (a + 4) (some (BitVec.ofNat 32 (s.ltPair i lo / 2 ^ 32)))) else none
    | none => none
  else none

/-- Registers of other chapters whose read has an effect of its own. -/
def specialRead (s : Dev) (m : Master) (t : PageType) (i off : Nat) : Option (Dev × Word) :=
  match t with
  | .clkrst =>
    if off = CLKRST.TIME_RD then some (s.readTime m).answered
    else if off = CLKRST.PPS_CAPT then some (s.readCapt m).answered else none
  | .decim =>
    let c := (off - DECIM.CH_CFG) / 0x20
    if DECIM.CH_CFG ≤ off ∧ off = DECIM.SAMPLE_LO + 0x20 * c then some (s.sampleLatch m i c).answered else none
  | .resamp =>
    let c := (off - RESAMP.RS_CFG) / 0x20
    if RESAMP.RS_CFG ≤ off ∧ off = RESAMP.SAMPLE_LO + 0x20 * c then
      let b := rsBase c
      let l := Sparse.put (fun _ => (0, 0)) s.ana.latch (sampleKey m (48 + c)) (s.rd (b + RESAMP.SAMPLE_HI), 0)
      some ({ s with ana := { s.ana with latch := l } }, s.rd (b + RESAMP.SAMPLE_LO))
    else none
  | .cal =>
    if off = CAL.LIVE then some (s.setLiveLatch m (some (s.calRecord s.calSel)), (s.calRecord s.calSel).getD 0 0) else none
  | .device => if off = DEVICE.FAULT_REC then some (s.faultRead m) else none
  | .mbx =>
    if i ≠ 0 then none
    else if off = MBX.MBX_SEND then some (s.mbxSend m).answered
    else if off = MBX.RX_HDR then some (s.rxLatch m)
    else if MBX.DB_RX_VAL ≤ off ∧ off < MBX.DB_RX_VAL + 108 then
      (ownEndpoint m).map (fun r => s.readDoorbell ((off - MBX.DB_RX_VAL) / 4) r)
    else none
  | .lseq =>
    if 0x200 ≤ off ∧ off ≤ 0x268 ∧ m = seqMaster i then some (s.readDoorbell ((off - 0x200) / 4) (3 + i)) else none
  | .seq =>
    if 0x200 ≤ off ∧ off ≤ 0x268 ∧ m = seqMaster (8 + i) then some (s.readDoorbell ((off - 0x200) / 4) (11 + i)) else none
  | _ => none

/-- A 32-bit plain read of a register that its page answers. -/
def takeRead (s : Dev) (m : Master) (a : Nat) : Dev × Word :=
  let page := a / 0x1000
  let off := a % 0x1000
  match pageRow page with
  | none => (s, 0)
  | some p =>
    let i := page - p.first
    if !mapped page off then (s, 0)
    else if off = HDR.LOCK then s.lockRead m page
    else if off < 0x40 then (s, s.peek m a)
    else
      match s.specialRead m p.type i off with
      | some r => r
      | none =>
        match regKind p.type off with
        | .rc => (s.wr a 0, s.peek m a)
        | .cntLo _ => (s.setHi m (a + 4) (some (s.rd (a + 4))), s.peek m a)
        | _ => ((s.pairRead m p.type i off a).getD s, s.peek m a)

/-- A register answered from the management island: it never waits (R53). -/
def servedNow (off : Nat) : Bool := off == HDR.PAGE_ID || off == HDR.PAGE_REV || off == HDR.PAGE_STATUS || off == HDR.LOCK

/-- A plain read of a register: checked, held until the page is not busy, answered. The error code comes with it. -/
def plainRead (fx : Effect) (s : Dev) (m : Master) (a : Nat) : Dev × Word × Option Nat :=
  match s.readErr m a with
  | some c => (s.logErr m a c, 0, some c)
  | none =>
    let t := if servedNow (a % 0x1000) then s else s.drain fx (a / 0x1000)
    let r := t.takeRead m a
    (r.1, r.2, none)

/-- A read through an alias window: the same value and no side effect (R33). -/
def aliasRead (fx : Effect) (s : Dev) (m : Master) (a : Nat) : Dev × Word :=
  match s.readErr m a with
  | some c => (s.logErr m a c, 0)
  | none =>
    let t := if servedNow (a % 0x1000) then s else s.drain fx (a / 0x1000)
    (t, t.peek m a)

/-! ### The bulk window (R35–R37; 05, 06) -/

/-- The page that owns a bulk address. -/
def bulkPage (a : Nat) : Option Nat :=
  if a < 0xD00000 then some 0x060 else if a < 0xE00000 then some 0x070
  else if a < 0xE60000 then some (Pg.LSEQ ((a - 0xE00000) / 0x4000) / 0x1000) else none

/-- Word w of a key record (06, R181). -/
def keyWord (k : KeyRec) (w : Nat) : Word :=
  let b := k.key ++ List.replicate (48 - k.key.length) 0
    ++ [BitVec.ofNat 8 k.key.length, if k.valid then 1 else 0] ++ bytesBE 5 k.digest.toNat ++ List.replicate 9 0
  BitVec.ofNat 32 ((slice b (4 * w) 4).foldl (fun x y => 256 * x + y.toNat) 0)

/-- A word of the bulk window. -/
def bulkWord (s : Dev) (a : Nat) : Word :=
  if a < 0xC40000 then
    BitVec.ofNat 32 ((List.range 4).foldr (fun j x => 256 * x + (Sparse.get (fun _ => 0) s.cls.slots (a - 0xC00000 + j)).toNat) 0)
  else if a < 0xC48000 then s.profileOp ((a - 0xC40000) / 32) (a % 32 / 4)
  else if a < 0xD00000 then 0
  else if a < 0xE00000 then
    let f := s.windowFlow ((a - 0xD00000) / 128)
    let w := a % 128 / 4
    if w < 16 then (s.flowRec f).word w else keyWord (s.keyRec f) (w - 16)
  else if a < 0xE60000 then
    let k := (a - 0xE00000) / 0x4000
    let o := a % 0x4000
    if o < 0x2000 then Sparse.get (fun _ => 0xFFFFFFFF) (s.sq k).imem (o / 4)
    else
      let d := (s.dword k ((o - 0x2000) / 8)).toNat
      BitVec.ofNat 32 (if o % 8 < 4 then d else d / 2 ^ 32)
  else 0

/-- The check a read of the bulk window fails, with the page it is logged on. -/
def bulkReadErr (s : Dev) (m : Master) (a : Nat) : Option (Nat × Nat) :=
  match bulkPage a with
  | none => none
  | some page =>
    if s.jtagRefused m (page * 0x1000 + 0xFFC) then some (page, Err.state)
    else if a % 4 ≠ 0 then some (page, Err.unaligned)
    else if !s.pageOn page then some (page, Err.islandOff)
    else none

/-- A read of the bulk window, logged on the owning page. A flow's record that the cache does not hold is an operation of
its stack (07, R217). -/
def bulkRead (s : Dev) (m : Master) (a : Nat) : Dev × Word :=
  match s.bulkReadErr m a with
  | some e => (s.logOn m e.1 (a % 0x1000) e.2, 0)
  | none =>
    let f := s.windowFlow ((a - 0xD00000) / 128)
    let fetched := 0xD00000 ≤ a ∧ a < 0xE00000 ∧ s.resident f = false
    (if fetched then s.recQueue f 5 (.recRead f) else s, s.bulkWord a)

/-- What an accepted write of the bulk window does. -/
def bulkEffect (s : Dev) (m : Master) (a : Nat) (v : Word) : Dev :=
  let refuse (t : Dev) (page code : Nat) : Dev := t.bulkAccess m page a (fun u => u.logOn m page (a % 0x1000) code)
  if a < 0xC40000 then s.bulkAccess m 0x060 a (fun t => t.setSlots (a - 0xC00000) (bytesLE 4 v.toNat))
  else if a < 0xC48000 then
    let p := (a - 0xC40000) / 32
    let w := a % 32 / 4
    s.bulkAccess m 0x060 a (fun t => if w = 7 then t.profCommit m p v else t.profStage m p w v)
  else if a < 0xD00000 then refuse s 0x060 Err.unmapped
  else if a < 0xE00000 then
    let i := (a - 0xD00000) / 128
    let w := a % 128 / 4
    if w = 15 then s.bulkAccess m 0x070 a (fun t => t.recCommit m i v)
    else if w < 15 then s.bulkAccess m 0x070 a (fun t => t.recStage m i w v)
    else refuse s 0x070 Err.bulk
  else
    let k := (a - 0xE00000) / 0x4000
    let o := a % 0x4000
    if o < 0x2000 then s.instrWrite m k (o / 4)
    else s.dataHalf m k ((o - 0x2000) / 8) (decide (o % 8 = 4)) v

/-- A write of the bulk window: width and alignment first. -/
def bulkWrite (s : Dev) (m : Master) (a : Nat) (be : BitVec 4) (v : Word) : Dev :=
  let err (t : Dev) : Dev := if isInternal m then t.emit (.busError m a) else t
  match bulkPage a with
  | none => s.logOn m 0 (a % 0x1000) Err.unmapped
  | some page =>
    if s.jtagRefused m (page * 0x1000 + 0xFFC) then s.logOn m page (a % 0x1000) Err.state
    else if be ≠ 0xF then err (s.logOn m page (a % 0x1000) Err.narrow)
    else if a % 4 ≠ 0 then err (s.logOn m page (a % 0x1000) Err.unaligned)
    else s.bulkEffect m a v

/-! ### A BAR0 offset (02, Address windows) -/

/-- A write at a BAR0 offset. -/
def barWrite (fx : Effect) (s : Dev) (m : Master) (addr : Nat) (be : BitVec 4) (v : Word) : Dev :=
  let a := addr % 0x400000
  match addr / 0x400000 with
  | 0 => s.accept fx m a be 0xFFFFFFFF v false 0
  | 1 => s.accept fx m a be (maskedLowSel v) (maskedLowVal v) true 0
  | 2 => s.accept fx m a be (maskedHighSel v) (maskedHighVal v) true 0
  | _ => s.bulkWrite m addr be v

/-- A read of all four bytes at a BAR0 offset. -/
def barRead (fx : Effect) (s : Dev) (m : Master) (addr : Nat) : Dev × Word :=
  match addr / 0x400000 with
  | 0 => let r := s.plainRead fx m addr; (r.1, r.2.1)
  | 1 => s.aliasRead fx m (addr % 0x400000)
  | 2 => s.aliasRead fx m (addr % 0x400000)
  | _ => s.bulkRead m addr

/-- The bits of the bytes that a read enables. -/
def byteMask (be : BitVec 4) : Word :=
  BitVec.ofNat 32 ((List.range 4).map (fun i => if be.getLsbD i then 0xFF * 256 ^ i else 0)).sum

/-- A read with byte enables: with fewer than four it returns the enabled bytes and has no read side effect (R44). -/
def enabledRead (fx : Effect) (s : Dev) (m : Master) (addr : Nat) (be : BitVec 4) : Dev × Word :=
  if be = 0xF then s.barRead fx m addr
  else
    let r := if addr < 0xC00000 then s.aliasRead fx m (addr % 0x400000) else s.bulkRead m addr
    (r.1, r.2 &&& byteMask be)

/-! ### BAR2 (16, R412, R413) -/

/-- A vector's mask bit. -/
def maskVector (s : Dev) (v : Nat) (b : Bool) : Dev :=
  { s with hif := { s.hif with masked := Sparse.put (fun _ => true) s.hif.masked v b } }

/-- The pending vectors that are no longer masked send their messages (R413). -/
def pendingSent (s : Dev) : Dev :=
  (List.range 64).foldl (fun t v =>
    if Sparse.get (fun _ => false) t.hif.pend v && !t.msixMasked v then
      { t.emit (.msix v) with hif := { t.hif with pend := Sparse.put (fun _ => false) t.hif.pend v false } }
    else t) s

/-- Dword i of the MSI-X table: vector i / 4, whose mask bit is in its last dword. -/
def msixEntry (s : Dev) (i : Nat) : Word :=
  let v := Sparse.get (fun _ => 0) s.hif.table i
  if i % 4 = 3 then withBit v 0 (Sparse.get (fun _ => true) s.hif.masked (i / 4)) else v

/-- The doorbell register at a BAR2 offset: those of the `RING` pages. -/
def doorbellAt (off : Nat) : Option Nat :=
  let r := (off - 0x10000) / 0x100
  if 0x10000 ≤ off ∧ off < 0x10800 then
    if off % 0x100 = 0 then some (Pg.RING r + RING.SQ_TAIL) else if off % 0x100 = 4 then some (Pg.RING r + RING.CQ_HEAD) else none
  else none

/-- What a BAR2 offset reads. -/
def bar2Word (s : Dev) (addr : Nat) : Word :=
  let off := addr % 0x100000 / 4 * 4
  if off < 0x400 then s.msixEntry (off / 4)
  else if off = 0x8000 ∨ off = 0x8004 then
    BitVec.ofNat 32 (bitsOf ((List.range 32).map (fun j => Sparse.get (fun _ => false) s.hif.pend ((off - 0x8000) * 8 + j))))
  else
    match doorbellAt off with
    | some a => s.peek .host a
    | none => 0

/-- A write at a BAR2 offset, which the host alone reaches: a doorbell, or the enabled bytes of a dword of the MSI-X
table; every other write is dropped. -/
def bar2Write (fx : Effect) (s : Dev) (m : Master) (addr : Nat) (be : BitVec 4) (v : Word) : Dev :=
  let off := addr % 0x100000
  let i := off / 4
  if m ≠ .host then s
  else if off < 0x400 then
    let w := mergeBits (s.msixEntry i) (byteMask be) v
    let t : Dev := { s with hif := { s.hif with table := Sparse.put (fun _ => 0) s.hif.table i (withBit w 0 (bitOf w 0 && i % 4 != 3)) } }
    if i % 4 = 3 then (t.maskVector (i / 4) (bitOf w 0)).pendingSent else t
  else
    match doorbellAt off with
    | some a => s.accept fx m a be 0xFFFFFFFF v false 0
    | none => s

end Dev

end Sys2Proof.Machine
end

