-- ==== Sys2Proof/Machine/Window.lean ====
section
/-! DEFINITION. The instructions that reach through the island window, and the single step of a sequencer, which fetches
and decodes from its instruction memory (12, R341–R345, R349); with them the effect of every register write is whole. -/

namespace Sys2Proof.Machine

namespace Dev

/-- The address of LDW and STW. -/
def windowWord (s : Dev) (k a : Nat) (imm : BitVec 18) : BitVec 16 :=
  BitVec.setWidth 16 (s.xreg k a + BitVec.signExtend 40 imm)

/-- LDW issues a read; an unmapped slot traps (R341–R343). -/
def windowLoad (s : Dev) (k : Nat) (d a : Fin 16) (imm : BitVec 18) : Dev :=
  let w := s.windowWord k a imm
  match windowAddr k w with
  | none => s.seqTrap k 3 Err.unmapped (s.seqPc k)
  | some _ => s.setSq k { s.sq k with winRd := some (d, w) }

/-- The pages that a sequencer's earlier writes wait for. -/
def windowPages (s : Dev) (k : Nat) : List Nat :=
  s.bus.buffer.filterMap (fun p => match p.2 with
    | some w => if w.master = seqMaster k then some p.1 else none
    | none => none)
  ++ (s.sq k).winQ.map (fun e => (windowAddr k e.1).getD 0 / 0x1000)

/-- Every earlier window write of a sequencer takes effect (R342): at most four wait, one behind the other. -/
def drainOwn (fx : Effect) (s : Dev) (k : Nat) : Dev :=
  (List.range 5).foldl (fun t _ => (t.windowPages k).foldl (fun t p => t.drain fx p) t) s

/-- The read in progress of a running sequencer returns its data, zero-extended, or its error (R342–R344). -/
def windowReturn (fx : Effect) (s : Dev) (k : Nat) : Dev :=
  match (s.sq k).winRd with
  | none => s
  | some (d, w) =>
    if s.seqState k ≠ 2 then s
    else
      match windowAddr k w with
      | none => s
      | some a =>
        let t := s.drainOwn fx k
        match t.plainRead fx (seqMaster k) a with
        | (t, _, some c) => t.seqTrap k 3 c (t.seqPc k)
        | (t, v, none) => (t.setSq k { t.sq k with winRd := none }).seqPut k d (BitVec.setWidth 40 v)

/-- STW: the write goes to its page, or waits for it; a fifth waiting write stalls (R342). -/
def windowStore (fx : Effect) (s : Dev) (k : Nat) (d a : Fin 16) (imm : BitVec 18) : Dev :=
  let w := s.windowWord k a imm
  let v := BitVec.setWidth 32 (s.xreg k d)
  let pc := BitVec.ofNat 11 (s.seqPc k)
  let q := (s.sq k).winQ
  match windowAddr k w with
  | none => (s.windowErr k pc Err.unmapped).pcNext k
  | some t =>
    let page := t / 0x1000
    if s.busy page || q.any (fun e => (windowAddr k e.1).getD 0 / 0x1000 == page) then
      if 4 ≤ q.length then s else (s.setSq k { s.sq k with winQ := q ++ [(w, v, pc)] }).pcNext k
    else (windowWrite fx s k w v pc).pcNext k

/-- The oldest error of a window write traps, where a trap may be taken (R343, R349). -/
def windowTrap (s : Dev) (k : Nat) : Dev :=
  match (s.sq k).winErr with
  | [] => s
  | (pc, c) :: rest =>
    let t := s.setSq k { s.sq k with winErr := rest }
    if 1 ≤ t.seqState k ∧ t.seqState k ≤ 3 then t.seqTrap k 3 c pc.toNat else t

/-! ### One instruction from memory -/

/-- The instruction word at the PC. -/
def seqWord (s : Dev) (k : Nat) : Nat := (Sparse.get (fun _ => 0xFFFFFFFF) (s.sq k).imem (s.seqPc k)).toNat

/-- A register field. -/
def regField (w lo : Nat) : Fin 16 := ⟨w / 2 ^ lo % 16, by omega⟩

/-- Executes an instruction word; a field that the format fixes at 0 must be 0 (R344, R345). -/
def seqExec (fx : Effect) (s : Dev) (k w : Nat) : Dev :=
  let d := regField w 22
  let a := regField w 18
  let b := regField w 14
  let sh := w / 2 ^ 8 % 64
  let imm := BitVec.ofNat 18 w
  let x := s.xreg k a
  let y := s.xreg k b
  let bad := s.seqIllegal k w
  let fmtR (t : Dev) : Dev := if w % 256 = 0 then t else bad
  let fmtB (t : Dev) : Dev := if w / 2 ^ 11 % 128 = 0 then t else bad
  match w / 2 ^ 26 with
  | 0x00 => s.pcNext k
  | 0x01 => s.seqPut k d (BitVec.signExtend 40 imm)
  | 0x02 => s.seqPut k d (BitVec.ofNat 22 w ++ BitVec.setWidth 18 (s.xreg k d))
  | 0x03 => fmtR (s.seqPut k d x)
  | 0x04 => fmtR (s.seqSat k d (x.toInt + y.toInt))
  | 0x05 => fmtR (s.seqSat k d (x.toInt - y.toInt))
  | 0x06 => s.seqSat k d (x.toInt + imm.toInt)
  | 0x07 => fmtR (s.seqMul k d a b sh)
  | 0x08 => fmtR (s.seqPut k d (if x.toInt ≤ y.toInt then x else y))
  | 0x09 => fmtR (s.seqPut k d (if x.toInt ≤ y.toInt then y else x))
  | 0x0A => fmtR (s.seqPut k d (x &&& y))
  | 0x0B => fmtR (s.seqPut k d (x ||| y))
  | 0x0C => fmtR (s.seqPut k d (x ^^^ y))
  | 0x0D => fmtR (s.seqSat k d (x.toInt.natAbs : Int))
  | 0x0E => s.seqPut k d (x &&& BitVec.signExtend 40 imm)
  | 0x10 => s.seqShift k 0x10 d a imm (fun x n => x <<< n)
  | 0x11 => s.seqShift k 0x11 d a imm (fun x n => x >>> n)
  | 0x12 => s.seqShift k 0x12 d a imm (fun x n => x.sshiftRight n)
  | 0x14 => s.seqAddr k (x.toInt + imm.toInt) 1 (fun u i => u.seqPut k d (u.dword k i))
  | 0x15 => s.seqAddr k (x.toInt + imm.toInt) 1 (fun u i => (u.setD k i (u.xreg k d)).pcNext k)
  | 0x16 => (s.windowLoad k d a imm).windowReturn fx k
  | 0x17 => s.windowStore fx k d a imm
  | 0x18 => fmtR (s.seqPut k d (BitVec.setWidth 40 s.timeBase))
  | 0x19 => s.seqTmr k a imm
  | 0x1A => fmtR (s.seqWaitOn k d (BitVec.setWidth 32 x))
  | 0x1B => s.pcNext k
  | 0x1C => fmtR (s.seqSend k d a b)
  | 0x1D => fmtR (s.seqRecv k d a)
  | 0x1E => fmtR (s.seqDbl k a b)
  | 0x20 => fmtB (s.seqBr k d a (w % 2048))
  | 0x21 => fmtB (s.seqCall k (w % 2048))
  | 0x22 => s.seqRet k
  | 0x23 => fmtR (s.setPc k (x.toNat % 2048))
  | 0x24 => (s.pcNext k).seqStop k
  | 0x3E => s.seqTrap k 6 (imm.toNat % 2 ^ 16) (s.seqPc k)
  | _ => bad

/-- What a stepped instruction leaves: HALTED, or a WAIT that will end there. -/
def stepEnds (s : Dev) (k : Nat) : Dev :=
  if s.seqState k = 2 then s.setSeqState k 1
  else if s.seqState k = 3 then s.setSq k { s.sq k with stepping := true }
  else s

/-- The effect of a write while a sequencer steps: that sequencer runs, so a STEP is refused. -/
def effectInStep : Effect := effect (fun t m k => t.logErr m (Pg.LSEQ k + LSEQ.SEQ_CMD) Err.state)

/-- `SEQ_CMD.STEP` (R349). -/
def seqStep (s : Dev) (m : Master) (k : Nat) : Dev :=
  s.need m (Pg.LSEQ k + LSEQ.SEQ_CMD) (s.seqMayRun k false) Err.state (fun t =>
    let t := (t.setSeqState k 2).seqLaneRuns k
    (t.seqExec effectInStep k (t.seqWord k)).stepEnds k)

/-- The effect of an accepted register write. -/
def writeEffect : Effect := effect seqStep

end Dev

/-! ### Chapter 02 -/

/-- A read of the four bytes at a BAR0 offset, answered to the reader. -/
def Dev.readHalf (s : Dev) (m : Master) (addr : Nat) (be : BitVec 4) (upset : Option (Fin 32)) : Dev :=
  let a := addr % 0x400000
  let r := s.enabledRead Dev.writeEffect m addr be
  if 0xC00000 ≤ addr ∨ (s.readErr m a).isSome = true then r.1.emit (.readData m addr r.2)
  else
    match upset.filter (fun k => bitOf (configBits a) k) with
    | some k => (r.1.parityFault a k).emit (.readData m addr ((r.2 ^^^ maskOf k 1) &&& Dev.byteMask be))
    | none => (r.1.parityFound a).emit (.readData m addr r.2)

/-- REGISTER_WRITE (R35, R38–R55, R59, R63, R68): a write at a BAR0 offset, of 32 bits or of 64 as two halves (R45), or of
32 bits at a BAR2 offset of the host (R412). -/
def execRegisterWrite (m : Master) (addr : BitVec 24) (be : BitVec 4) (v : Word) (upper : Option (BitVec 4 × Word))
    (bar2 : Bool) (s : State) : Out :=
  s.run (fun d =>
    if bar2 then d.bar2Write Dev.writeEffect m addr.toNat be v
    else
      let t := d.barWrite Dev.writeEffect m addr.toNat be v
      match upper with
      | some u => t.barWrite Dev.writeEffect m (addr.toNat + 4) u.1 u.2
      | none => t)

/-- POSTED_WRITE_APPLY (R50, R54). -/
def execPostedWriteApply (page : BitVec 10) (s : State) : Out :=
  s.run (fun d =>
    if (d.buffered page.toNat).isSome then Dev.pump Dev.writeEffect (Dev.applyPosted Dev.writeEffect d page.toNat) else d)

/-- MASKED_LOW_WRITE (R30, R32, R34). -/
def execMaskedLowWrite (m : Master) (addr : BitVec 22) (be : BitVec 4) (v : Word) (s : State) : Out :=
  s.run (fun d => d.accept Dev.writeEffect m addr.toNat be (maskedLowSel v) (maskedLowVal v) true 0)

/-- MASKED_HIGH_WRITE (R31, R32, R34). -/
def execMaskedHighWrite (m : Master) (addr : BitVec 22) (be : BitVec 4) (v : Word) (s : State) : Out :=
  s.run (fun d => d.accept Dev.writeEffect m addr.toNat be (maskedHighSel v) (maskedHighVal v) true 0)

/-- A plain read whose word goes to the reader. -/
def Dev.readOut (s : Dev) (m : Master) (a : Nat) : Dev :=
  let r := s.plainRead Dev.writeEffect m a
  r.1.emit (.readData m a r.2.1)

/-- LOCK_READ (R44, R53, R60, R62). -/
def execLockRead (m : Master) (page : BitVec 10) (be : BitVec 4) (s : State) : Out :=
  s.run (fun d => d.readHalf m (page.toNat * 0x1000 + HDR.LOCK) be none)

/-- LOCK_WRITE (R53, R61). -/
def execLockWrite (m : Master) (page : BitVec 10) (v : Word) (s : State) : Out :=
  s.run (fun d =>
    let a := page.toNat * 0x1000 + HDR.LOCK
    match d.writeErr m a 0xF false with
    | some c => d.logErr m a c
    | none => d.lockWrite m page.toNat v)

/-- LOCK_BREAK (R65, R75). -/
def execLockBreak (m : Master) (v : Word) (s : State) : Out :=
  s.run (fun d => d.access m (Pg.LOCKS + LOCKS.LOCK_BREAK) (fun t => t.lockBreak m 0xFFFFFFFF v))

/-- EXPERT_KEY (R66–R68). -/
def execExpertKey (m : Master) (v : Word) (s : State) : Out :=
  s.run (fun d => d.access m (Pg.DEVICE + DEVICE.EXPERT_KEY) (fun t => t.expertKey m v))

/-- SOFT_RESET (R41, R59). -/
def execSoftReset (m : Master) (page : BitVec 10) (s : State) : Out :=
  s.run (fun d => d.lockedAccess m (page.toNat * 0x1000 + HDR.PAGE_CTRL) (fun t => t.softReset page.toNat))

/-- SOFT_RESET_DONE (R41). -/
def execSoftResetDone (page : BitVec 10) (s : State) : Out :=
  s.run (fun d => if d.softResetting page.toNat then Dev.pump Dev.writeEffect (d.setSoft page.toNat false) else d)

/-- INT_FORCE (R42). -/
def execIntForce (m : Master) (page : BitVec 10) (v : Word) (s : State) : Out :=
  s.run (fun d => d.access m (page.toNat * 0x1000 + HDR.INT_FORCE) (fun t => t.forceCauses page.toNat v))

/-- COUNTER_LOW_READ (R44, R71). -/
def execCounterLowRead (m : Master) (addr : BitVec 22) (be : BitVec 4) (s : State) : Out :=
  s.run (fun d => d.readHalf m addr.toNat be none)

/-- The high word of a counter of two words. -/
def isHighWord (a : Nat) : Bool :=
  match Dev.rowAt a with
  | some r => (match r.kind with | .cntHi _ => true | _ => false)
  | none => false

/-- COUNTER_HIGH_WRITE (R71); at any other address it is a register write like any other. -/
def execCounterHighWrite (m : Master) (addr : BitVec 22) (v : Word) (s : State) : Out :=
  s.run (fun d =>
    if isHighWord addr.toNat then d.access m addr.toNat (fun t => t.writeEffect m addr.toNat 0xFFFFFFFF v)
    else d.accept Dev.writeEffect m addr.toNat 0xF 0xFFFFFFFF v false 0)

/-- RC_READ (R33, R44, R45, R57, R412): a read at a BAR0 offset through any window, of 32 bits or of 64 as two halves, or
at a BAR2 offset of the host. `upset` is a bit that the read's parity check finds wrong. -/
def execRcRead (m : Master) (addr : BitVec 24) (be : BitVec 4) (upper : Option (BitVec 4)) (upset : Option (Fin 32))
    (bar2 : Bool) (s : State) : Out :=
  s.run (fun d =>
    if bar2 then d.emit (.readData m addr.toNat (if m = .host then d.bar2Word addr.toNat &&& Dev.byteMask be else 0))
    else
      let t := d.readHalf m addr.toNat be upset
      match upper with
      | some u => t.readHalf m (addr.toNat + 4) u none
      | none => t)

/-! ### Chapter 12 -/

/-- LDW (R342–R344). -/
def execLdw (k : SeqId) (d a : Fin 16) (imm : BitVec 18) (s : State) : Out :=
  s.run (fun v => v.seqRuns k (fun t => t.windowLoad k d a imm))

/-- WINDOW_READ_RETURN (R342, R343). -/
def execWindowReadReturn (k : SeqId) (s : State) : Out :=
  s.run (fun d => d.windowReturn Dev.writeEffect k)

/-- STW (R342–R344). -/
def execStw (k : SeqId) (d a : Fin 16) (imm : BitVec 18) (s : State) : Out :=
  s.run (fun v => v.seqRuns k (fun t => t.windowStore Dev.writeEffect k d a imm))

/-- WINDOW_WRITE_ERROR (R343). -/
def execWindowWriteError (k : SeqId) (s : State) : Out :=
  s.run (fun d => d.windowTrap k)

/-- SEQ_STEP (R349). -/
def execSeqStep (m : Master) (k : SeqId) (s : State) : Out :=
  s.run (fun d => d.access m (Pg.LSEQ k + LSEQ.SEQ_CMD) (fun t => t.seqStep m k))

/-! ### Reads of other chapters that wait for the page's writes -/

/-- LIVE_READ: `LIVE[0]` latches the selected record for the master (13, R366). -/
def execLiveRead (m : Master) (s : State) : Out := s.run (fun d => d.readOut m (Pg.CAL + CAL.LIVE))

/-- SAMPLE_LO_READ (11, R328). -/
def execSampleLoRead (m : Master) (sl : Slice) (i : Fin 12) (s : State) : Out :=
  s.run (fun d => d.readOut m (Dev.chBase sl i + DECIM.SAMPLE_LO))

end Sys2Proof.Machine
end

