-- ==== Sys2Proof/Machine/HostBus.lean ====
section
/-! DEFINITION. What reaches the registers from beside PCIe: the SMBus target and the Harvest snapshot, and the masks of
the MSI-X vectors (16, R413, R415, R429). -/

namespace Sys2Proof.Machine

namespace Dev

/-! ### The SMBus target (R415) -/

/-- The page on which an access at a BAR0 offset is logged. -/
def barPage (addr : Nat) : Nat :=
  if addr < 0xC00000 then (if (pageRow (addr % 0x400000 / 0x1000)).isSome then addr % 0x400000 / 0x1000 else 0)
  else (bulkPage addr).getD 0

/-- A WRITE of the BMC, and whether it was dropped or rejected. -/
def smbWrite (s : Dev) (addr : Nat) (v : Word) : Dev × Bool :=
  let write (t : Dev) : Dev := t.barWrite writeEffect .bmc addr 0xF v
  if addr < 0xC00000 ∧ addr % 0x1000 = HDR.ERR_INFO then
    (write s, (s.writeErr .bmc (addr % 0x400000) 0xF (decide (0x400000 ≤ addr))).isSome)
  else
    let r := s.watched (barPage addr) write
    (r.1, r.2.isSome)

/-- A READ of the BMC fails its checks. -/
def smbReadErr (s : Dev) (addr : Nat) : Bool :=
  if addr < 0xC00000 then (s.readErr .bmc (addr % 0x400000)).isSome else (s.bulkReadErr .bmc addr).isSome

/-- The status byte of an access. -/
def smbCode (bad : Bool) : Byte := if bad then 1 else 0

/-! ### Harvest (R429) -/

/-- The blocks an `HV_LIST` names: page, first word, count. -/
def harvestBlocks (s : Dev) : List (Nat × Nat × Nat) :=
  ((List.range 32).map (fun i => s.rd (Pg.DMA + DMA.HV_LIST + 4 * i))).filterMap (fun w =>
    if bitOf w 31 && fieldOf w 0 10 != 0 then some (fieldOf w 20 10, fieldOf w 10 10, fieldOf w 0 10) else none)

/-- The bytes of a block. -/
def blockBytes (s : Dev) (b : Nat × Nat × Nat) : List Byte :=
  bytesLE 4 (b.1 + b.2.1 * 2 ^ 10 + b.2.2 * 2 ^ 20) ++ bytesLE 4 0
    ++ (List.range b.2.2).flatMap (fun i => bytesLE 4 (s.harvestWord (b.1 * 0x1000 + 4 * (b.2.1 + i))).toNat)

/-- The blocks that fit a buffer, in list order, the first that does not fit ending them. -/
def blocksThatFit (s : Dev) : Nat → List (Nat × Nat × Nat) → List (List Byte)
  | _, [] => []
  | room, b :: r =>
    let x := s.blockBytes b
    if x.length ≤ room then x :: s.blocksThatFit (room - x.length) r else []

/-- A snapshot's header before its blocks. -/
def harvestHead (s : Dev) (cause blocks total aged : Nat) : List Byte :=
  [0x48, 0x52, 0x56, 0x54] ++ bytesLE 2 1 ++ bytesLE 2 blocks ++ bytesLE 8 (s.hif.hvNum + 1)
    ++ bytesLE 8 s.hif.hvStart.toNat ++ bytesLE 4 total ++ bytesLE 4 s.hif.hvSkips ++ bytesLE 2 aged
    ++ [BitVec.ofNat 8 cause] ++ List.replicate 29 0

/-- The snapshot in progress ends, with nothing written. -/
def harvestEnds (s : Dev) : Dev :=
  let t := s.setB (Pg.DMA + DMA.HV_STATUS) 31 false
  { t with hif := { t.hif with hvRun := none } }

/-- The snapshot is written to the open buffer of ring 2. -/
def harvestWrite (s : Dev) (cause : Nat) (d : DmaDescriptor) : Dev :=
  let blocks := s.harvestBlocks
  let bytes := s.blocksThatFit (d.len.toNat - 64) blocks
  let body := bytes.flatten
  let aged := s.cls.aged
  let whole := decide (bytes.length = blocks.length) && decide (64 + body.length + 8 * aged.length ≤ d.len.toNat)
  let tail := if whole then aged.flatMap (fun a => bytesLE 8 a.toNat) else []
  let total := 64 + body.length + tail.length
  let image := s.harvestHead cause bytes.length total (if whole then aged.length else 0) ++ body ++ tail
  let num := BitVec.ofNat 32 (s.hif.hvNum + 1)
  let t := s.emit (.dmaWrite 2 d.addr image)
  let t := (t.setRing 2 { t.ring 2 with fill := total, records := 1 }).closeBuffer 2 num (if whole then 0 else 1)
  let t : Dev := { t with cls := { t.cls with aged := if whole then t.cls.aged.drop aged.length else t.cls.aged },
                          hif := { t.hif with hvNum := t.hif.hvNum + 1, hvSkips := 0 } }
  ((t.count (Pg.DMA + DMA.HV_SNAPS)).raise Pg.DMA 8).harvestEnds

/-- The snapshot in progress is done: it needs a buffer of ring 2, and waits for one that is still to be fetched. -/
def harvestDone (s : Dev) : Dev :=
  match s.hif.hvRun with
  | none => s
  | some cause =>
    if s.isl.mcDown then s
    else if !s.ringRuns 2 || !s.hif.busMaster || !s.cqFree 2 then (s.ringFull 2).harvestEnds
    else
      match (s.ring 2).fetched with
      | d :: _ => s.harvestWrite cause d
      | [] => if s.sqMore 2 then s else (s.ringFull 2).harvestEnds

end Dev

/-- MSIX_UNMASK: a vector, the function by its mask or by enabling MSI-X; or one of them masked again (R73, R413). -/
def execMsixUnmask (t : MsixTarget) (masked : Bool) (s : State) : Out :=
  s.run (fun d =>
    Dev.pendingSent (match t with
      | .vector v => d.maskVector v masked
      | .function => { d with hif := { d.hif with funcMask := masked } }
      | .enable => { d with hif := { d.hif with msixOn := !masked } }))

/-- SMBUS_WRITE: a failed PEC discards the transaction (R415). -/
def execSmbusWrite (pecOk : Bool) (addr : BitVec 24) (v : Word) (s : State) : Out :=
  s.run (fun d =>
    if pecOk then
      let r := d.smbWrite addr.toNat v
      { r.1 with hif := { r.1.hif with smbStatus := Dev.smbCode r.2 } }
    else d)

/-- SMBUS_READ: data and status (R415). -/
def execSmbusRead (pecOk : Bool) (addr : BitVec 24) (s : State) : Out :=
  s.run (fun d =>
    if pecOk then
      let r := d.barRead Dev.writeEffect .bmc addr.toNat
      r.1.emit (.smbus (bytesBE 4 r.2.toNat ++ [Dev.smbCode (d.smbReadErr addr.toNat)]))
    else d)

/-- HARVEST_DONE (R429). -/
def execHarvestDone (s : State) : Out := s.run (fun d => d.harvestDone)

end Sys2Proof.Machine
end

