-- ==== Sys2Proof/Machine/Dispatch.lean ====
section
/-! DEFINITION. The command a constructor names is run by one meaning: one arm per row of the table. -/

namespace Sys2Proof.Machine

/-- What a command does to everything but the queue. -/
def exec (i : Instr) (s : State) : Host.Outcome State Fault Refusal :=
  match i with
  | .registerWrite m addr be v upper bar2 => Sys2Proof.Machine.execRegisterWrite m addr be v upper bar2 s
  | .postedWriteApply page => Sys2Proof.Machine.execPostedWriteApply page s
  | .maskedLowWrite m addr be v => Sys2Proof.Machine.execMaskedLowWrite m addr be v s
  | .maskedHighWrite m addr be v => Sys2Proof.Machine.execMaskedHighWrite m addr be v s
  | .lockRead m page be => Sys2Proof.Machine.execLockRead m page be s
  | .lockWrite m page v => Sys2Proof.Machine.execLockWrite m page v s
  | .lockBreak m v => Sys2Proof.Machine.execLockBreak m v s
  | .expertKey m v => Sys2Proof.Machine.execExpertKey m v s
  | .softReset m page => Sys2Proof.Machine.execSoftReset m page s
  | .softResetDone page => Sys2Proof.Machine.execSoftResetDone page s
  | .intForce m page v => Sys2Proof.Machine.execIntForce m page v s
  | .msixUnmask t masked => Sys2Proof.Machine.execMsixUnmask t masked s
  | .parityCheckSweep upsets => Sys2Proof.Machine.execParityCheckSweep upsets s
  | .parityFaultClear m page => Sys2Proof.Machine.execParityFaultClear m page s
  | .parityAutoRestore page copyGood => Sys2Proof.Machine.execParityAutoRestore page copyGood s
  | .counterLowRead m addr be => Sys2Proof.Machine.execCounterLowRead m addr be s
  | .counterHighWrite m addr v => Sys2Proof.Machine.execCounterHighWrite m addr v s
  | .rcRead m addr be upper upset bar2 => Sys2Proof.Machine.execRcRead m addr be upper upset bar2 s
  | .sliceCfgWrite m sl v => Sys2Proof.Machine.execSliceCfgWrite m sl v s
  | .hostCfgWrite m sl v => Sys2Proof.Machine.execHostCfgWrite m sl v s
  | .lpMapWrite m sl v => Sys2Proof.Machine.execLpMapWrite m sl v s
  | .lineMacControlFrame port f spans => Sys2Proof.Machine.execLineMacControlFrame port f spans s
  | .linePauseExpiry port => Sys2Proof.Machine.execLinePauseExpiry port s
  | .laneEnable m n => Sys2Proof.Machine.execLaneEnable m n s
  | .laneDisable m n => Sys2Proof.Machine.execLaneDisable m n s
  | .laneCmdRetry m n => Sys2Proof.Machine.execLaneCmdRetry m n s
  | .laneCmdReacquire m n => Sys2Proof.Machine.execLaneCmdReacquire m n s
  | .laneCmdWarm m n => Sys2Proof.Machine.execLaneCmdWarm m n s
  | .laneCmdCkptNow m n cut => Sys2Proof.Machine.execLaneCmdCkptNow m n cut s
  | .laneCmdCkptClear m n => Sys2Proof.Machine.execLaneCmdCkptClear m n s
  | .laneCmdProceed m n => Sys2Proof.Machine.execLaneCmdProceed m n s
  | .calibrateComplete n inRange => Sys2Proof.Machine.execCalibrateComplete n inRange s
  | .calTimeout n => Sys2Proof.Machine.execCalTimeout n s
  | .acqTimeout n => Sys2Proof.Machine.execAcqTimeout n s
  | .acquireLock n => Sys2Proof.Machine.execAcquireLock n s
  | .holdLimitExpiry n => Sys2Proof.Machine.execHoldLimitExpiry n s
  | .holdRecover n => Sys2Proof.Machine.execHoldRecover n s
  | .warmRestartComplete n => Sys2Proof.Machine.execWarmRestartComplete n s
  | .warmRestartTimeout n => Sys2Proof.Machine.execWarmRestartTimeout n s
  | .ckptTick n cut => Sys2Proof.Machine.execCkptTick n cut s
  | .inServiceCalStep => Sys2Proof.Machine.execInServiceCalStep s
  | .qualityUpdate n r => Sys2Proof.Machine.execQualityUpdate n r s
  | .losAssert n amp => Sys2Proof.Machine.execLosAssert n amp s
  | .losDeassert n amp => Sys2Proof.Machine.execLosDeassert n amp s
  | .cdrLockChange n locked => Sys2Proof.Machine.execCdrLockChange n locked s
  | .eyeStart m n => Sys2Proof.Machine.execEyeStart m n s
  | .eyeAbort m n => Sys2Proof.Machine.execEyeAbort m n s
  | .eyePointDone n errors => Sys2Proof.Machine.execEyePointDone n errors s
  | .innerWordDecode n r reliability => Sys2Proof.Machine.execInnerWordDecode n r reliability s
  | .rsCodewordDecode n line => Sys2Proof.Machine.execRsCodewordDecode n line s
  | .groupHuntTest n symbols => Sys2Proof.Machine.execGroupHuntTest n symbols s
  | .cwLockSearch n start line => Sys2Proof.Machine.execCwLockSearch n start line s
  | .alignConfirm n => Sys2Proof.Machine.execAlignConfirm n s
  | .amLock n arrival => Sys2Proof.Machine.execAmLock n arrival s
  | .deskewCheck n arrival peer ordered => Sys2Proof.Machine.execDeskewCheck n arrival peer ordered s
  | .alignLoss n cause => Sys2Proof.Machine.execAlignLoss n cause s
  | .linkFaultReceived n lf rf => Sys2Proof.Machine.execLinkFaultReceived n lf rf s
  | .amReceived n remoteDegraded inPlace => Sys2Proof.Machine.execAmReceived n remoteDegraded inPlace s
  | .degWindowEnd n => Sys2Proof.Machine.execDegWindowEnd n s
  | .degCmdPortDown m n => Sys2Proof.Machine.execDegCmdPortDown m n s
  | .degCmdPortUp m n => Sys2Proof.Machine.execDegCmdPortUp m n s
  | .headerWindowComplete port window len rxTime => Sys2Proof.Machine.execHeaderWindowComplete port window len rxTime s
  | .classifierLookup port stagingFull busy ecc => Sys2Proof.Machine.execClassifierLookup port stagingFull busy ecc s
  | .bucketReload bank bucket => Sys2Proof.Machine.execBucketReload bank bucket s
  | .meterDecision port => Sys2Proof.Machine.execMeterDecision port s
  | .packetLastByte port rest spans invalid => Sys2Proof.Machine.execPacketLastByte port rest spans invalid s
  | .packetCommit port => Sys2Proof.Machine.execPacketCommit port s
  | .packetRevoke port => Sys2Proof.Machine.execPacketRevoke port s
  | .verdictTimeout port => Sys2Proof.Machine.execVerdictTimeout port s
  | .profileWordWrite m profile w v => Sys2Proof.Machine.execProfileWordWrite m profile w v s
  | .profileCommit m profile v => Sys2Proof.Machine.execProfileCommit m profile v s
  | .learnInit m => Sys2Proof.Machine.execLearnInit m s
  | .freeIdRefill => Sys2Proof.Machine.execFreeIdRefill s
  | .learnApply => Sys2Proof.Machine.execLearnApply s
  | .updGo m => Sys2Proof.Machine.execUpdGo m s
  | .stageGo m => Sys2Proof.Machine.execStageGo m s
  | .updateNop => Sys2Proof.Machine.execUpdateNop s
  | .updateInsert => Sys2Proof.Machine.execUpdateInsert s
  | .updateReplace => Sys2Proof.Machine.execUpdateReplace s
  | .updateModify => Sys2Proof.Machine.execUpdateModify s
  | .updateDelete => Sys2Proof.Machine.execUpdateDelete s
  | .rdCmdRead m => Sys2Proof.Machine.execRdCmdRead m s
  | .rdCmdReadShadow m => Sys2Proof.Machine.execRdCmdReadShadow m s
  | .agingPass => Sys2Proof.Machine.execAgingPass s
  | .restoreStart m => Sys2Proof.Machine.execRestoreStart m s
  | .restoreDone bank => Sys2Proof.Machine.execRestoreDone bank s
  | .recordWordStage m idx w v => Sys2Proof.Machine.execRecordWordStage m idx w v s
  | .recordWordCommit m idx v => Sys2Proof.Machine.execRecordWordCommit m idx v s
  | .initState m => Sys2Proof.Machine.execInitState m s
  | .initKeys m => Sys2Proof.Machine.execInitKeys m s
  | .initDone => Sys2Proof.Machine.execInitDone s
  | .cacheFlush m => Sys2Proof.Machine.execCacheFlush m s
  | .cacheFlushDone => Sys2Proof.Machine.execCacheFlushDone s
  | .sweepVisit => Sys2Proof.Machine.execSweepVisit s
  | .fbWindowEnd n => Sys2Proof.Machine.execFbWindowEnd n s
  | .fbCmdEnter m n => Sys2Proof.Machine.execFbCmdEnter m n s
  | .fbCmdExit m n => Sys2Proof.Machine.execFbCmdExit m n s
  | .admitSnap m sl => Sys2Proof.Machine.execAdmitSnap m sl s
  | .hbmOperationIssue k => Sys2Proof.Machine.execHbmOperationIssue k s
  | .hbmPriorityRaise k => Sys2Proof.Machine.execHbmPriorityRaise k s
  | .hbmOperationComplete k r => Sys2Proof.Machine.execHbmOperationComplete k r s
  | .schedulerSelect h => Sys2Proof.Machine.execSchedulerSelect h s
  | .hostFrameTx h => Sys2Proof.Machine.execHostFrameTx h s
  | .hostMacControlFrame h f fec => Sys2Proof.Machine.execHostMacControlFrame h f fec s
  | .hostPfcExpiry h prio => Sys2Proof.Machine.execHostPfcExpiry h prio s
  | .queueFlush m q => Sys2Proof.Machine.execQueueFlush m q s
  | .channelRetirement c cause => Sys2Proof.Machine.execChannelRetirement c cause s
  | .retireCmdChannels m k chs => Sys2Proof.Machine.execRetireCmdChannels m k chs s
  | .retireCmdStack m k => Sys2Proof.Machine.execRetireCmdStack m k s
  | .relocationDone k unreadable => Sys2Proof.Machine.execRelocationDone k unreadable s
  | .mrCmdRead m k => Sys2Proof.Machine.execMrCmdRead m k s
  | .mrCmdWrite m k => Sys2Proof.Machine.execMrCmdWrite m k s
  | .stackTempRead k degrees refresh => Sys2Proof.Machine.execStackTempRead k degrees refresh s
  | .hostEnable m n => Sys2Proof.Machine.execHostEnable m n s
  | .hostDisable m n => Sys2Proof.Machine.execHostDisable m n s
  | .prbsModeSet m n => Sys2Proof.Machine.execPrbsModeSet m n s
  | .prbsModeClear m n => Sys2Proof.Machine.execPrbsModeClear m n s
  | .hostLaneUp n => Sys2Proof.Machine.execHostLaneUp n s
  | .hostLaneDown n signal cdr am => Sys2Proof.Machine.execHostLaneDown n signal cdr am s
  | .biyleyLoad copyA copyB => Sys2Proof.Machine.execBiyleyLoad copyA copyB s
  | .eqSetStageWrite m n hi w v => Sys2Proof.Machine.execEqSetStageWrite m n hi w v s
  | .eqSetCommit m n hi v => Sys2Proof.Machine.execEqSetCommit m n hi v s
  | .egressFrameRx lane frame pcsOk fec => Sys2Proof.Machine.execEgressFrameRx lane frame pcsOk fec s
  | .egressFrameTx port txTime => Sys2Proof.Machine.execEgressFrameTx port txTime s
  | .flowControlFrameTx h => Sys2Proof.Machine.execFlowControlFrameTx h s
  | .flowControlRepeat h => Sys2Proof.Machine.execFlowControlRepeat h s
  | .timeCmdSet m => Sys2Proof.Machine.execTimeCmdSet m s
  | .timeCmdStep m => Sys2Proof.Machine.execTimeCmdStep m s
  | .timeCmdSetAtPps m => Sys2Proof.Machine.execTimeCmdSetAtPps m s
  | .timeRdRead m => Sys2Proof.Machine.execTimeRdRead m s
  | .ppsCaptRead m => Sys2Proof.Machine.execPpsCaptRead m s
  | .ppsEdge falling => Sys2Proof.Machine.execPpsEdge falling s
  | .ppsLost => Sys2Proof.Machine.execPpsLost s
  | .txtsPop m port => Sys2Proof.Machine.execTxtsPop m port s
  | .prbsInject m n => Sys2Proof.Machine.execPrbsInject m n s
  | .prbsClear m n => Sys2Proof.Machine.execPrbsClear m n s
  | .prbsLock n symbols => Sys2Proof.Machine.execPrbsLock n symbols s
  | .prbsLoss n symbols => Sys2Proof.Machine.execPrbsLoss n symbols s
  | .hostEyeStart m n => Sys2Proof.Machine.execHostEyeStart m n s
  | .hostEyeAbort m n => Sys2Proof.Machine.execHostEyeAbort m n s
  | .hostEyePointDone n errors => Sys2Proof.Machine.execHostEyePointDone n errors s
  | .txEnable m n => Sys2Proof.Machine.execTxEnable m n s
  | .txDisable m n => Sys2Proof.Machine.execTxDisable m n s
  | .txSendEntry port => Sys2Proof.Machine.execTxSendEntry port s
  | .firApply m n => Sys2Proof.Machine.execFirApply m n s
  | .pilotDepthStep n => Sys2Proof.Machine.execPilotDepthStep n s
  | .tuneReq n => Sys2Proof.Machine.execTuneReq n s
  | .tuneReply n => Sys2Proof.Machine.execTuneReply n s
  | .identity n => Sys2Proof.Machine.execIdentity n s
  | .warm n => Sys2Proof.Machine.execWarm n s
  | .fault n => Sys2Proof.Machine.execFault n s
  | .wake n => Sys2Proof.Machine.execWake n s
  | .hostDefinedFrame n => Sys2Proof.Machine.execHostDefinedFrame n s
  | .lanternFrameReject n => Sys2Proof.Machine.execLanternFrameReject n s
  | .lanternEnergyDetect n levels => Sys2Proof.Machine.execLanternEnergyDetect n levels s
  | .lanternAcquireAbandon n symbols levels => Sys2Proof.Machine.execLanternAcquireAbandon n symbols levels s
  | .lanternPreambleDetect n level decisions => Sys2Proof.Machine.execLanternPreambleDetect n level decisions s
  | .lanternSyncFound n level decisions => Sys2Proof.Machine.execLanternSyncFound n level decisions s
  | .lanternSyncWindowExpire n decisions => Sys2Proof.Machine.execLanternSyncWindowExpire n decisions s
  | .lanternClip n full samples along => Sys2Proof.Machine.execLanternClip n full samples along s
  | .lanternCapture n levels along => Sys2Proof.Machine.execLanternCapture n levels along s
  | .lanternCollision n levels along => Sys2Proof.Machine.execLanternCollision n levels along s
  | .lanternSignalLost n levels along => Sys2Proof.Machine.execLanternSignalLost n levels along s
  | .lanternHeaderError n soft along => Sys2Proof.Machine.execLanternHeaderError n soft along s
  | .lanternFrameEnd n soft along => Sys2Proof.Machine.execLanternFrameEnd n soft along s
  | .lanternTxFrameStart n => Sys2Proof.Machine.execLanternTxFrameStart n s
  | .lanternTxFrameEnd n => Sys2Proof.Machine.execLanternTxFrameEnd n s
  | .identityPeriod n => Sys2Proof.Machine.execIdentityPeriod n s
  | .sendIdent m n => Sys2Proof.Machine.execSendIdent m n s
  | .sendWake m n => Sys2Proof.Machine.execSendWake m n s
  | .txFlush m n => Sys2Proof.Machine.execTxFlush m n s
  | .keyInstall m n slot => Sys2Proof.Machine.execKeyInstall m n slot s
  | .keyErase m n slot => Sys2Proof.Machine.execKeyErase m n slot s
  | .lanternTxRecord n record => Sys2Proof.Machine.execLanternTxRecord n record s
  | .outEnable m sl k => Sys2Proof.Machine.execOutEnable m sl k s
  | .outDisable m sl k => Sys2Proof.Machine.execOutDisable m sl k s
  | .outCmdClear m sl k => Sys2Proof.Machine.execOutCmdClear m sl k s
  | .outputRetry sl k => Sys2Proof.Machine.execOutputRetry sl k s
  | .readbackCheckDone sl mean sense => Sys2Proof.Machine.execReadbackCheckDone sl mean sense s
  | .supervisionTrip sl k sense => Sys2Proof.Machine.execSupervisionTrip sl k sense s
  | .codeWrite m sl k v => Sys2Proof.Machine.execCodeWrite m sl k v s
  | .ditherSync m gens => Sys2Proof.Machine.execDitherSync m gens s
  | .monitorSample sl idx sum ovr borrowed => Sys2Proof.Machine.execMonitorSample sl idx sum ovr borrowed s
  | .sampleLoRead m sl idx => Sys2Proof.Machine.execSampleLoRead m sl idx s
  | .resamplerSample c lantern => Sys2Proof.Machine.execResamplerSample c lantern s
  | .moduleRemoved n => Sys2Proof.Machine.execModuleRemoved n s
  | .moduleInserted n => Sys2Proof.Machine.execModuleInserted n s
  | .modulePoll n p => Sys2Proof.Machine.execModulePoll n p s
  | .modulePowerupTimeout n => Sys2Proof.Machine.execModulePowerupTimeout n s
  | .initWaitTimeout n => Sys2Proof.Machine.execInitWaitTimeout n s
  | .intStorm n => Sys2Proof.Machine.execIntStorm n s
  | .xferGo m n sdaLow => Sys2Proof.Machine.execXferGo m n sdaLow s
  | .xferDone n r => Sys2Proof.Machine.execXferDone n r s
  | .repoll m n => Sys2Proof.Machine.execRepoll m n s
  | .resetModule m n => Sys2Proof.Machine.execResetModule m n s
  | .unisolate m n => Sys2Proof.Machine.execUnisolate m n s
  | .stretchTimeout n stuckAfter => Sys2Proof.Machine.execStretchTimeout n stuckAfter s
  | .xferTimeout n stuckAfter => Sys2Proof.Machine.execXferTimeout n stuckAfter s
  | .writePollTimeout n stuckAfter => Sys2Proof.Machine.execWritePollTimeout n stuckAfter s
  | .nop k => Sys2Proof.Machine.execNop k s
  | .ldi k d imm => Sys2Proof.Machine.execLdi k d imm s
  | .ldh k d imm => Sys2Proof.Machine.execLdh k d imm s
  | .mov k d a => Sys2Proof.Machine.execMov k d a s
  | .add k d a b => Sys2Proof.Machine.execAdd k d a b s
  | .sub k d a b => Sys2Proof.Machine.execSub k d a b s
  | .addi k d a imm => Sys2Proof.Machine.execAddi k d a imm s
  | .mul k d a b sl => Sys2Proof.Machine.execMul k d a b sl s
  | .min k d a b => Sys2Proof.Machine.execMin k d a b s
  | .max k d a b => Sys2Proof.Machine.execMax k d a b s
  | .and k d a b => Sys2Proof.Machine.execAnd k d a b s
  | .or k d a b => Sys2Proof.Machine.execOr k d a b s
  | .xor k d a b => Sys2Proof.Machine.execXor k d a b s
  | .abs k d a => Sys2Proof.Machine.execAbs k d a s
  | .andi k d a imm => Sys2Proof.Machine.execAndi k d a imm s
  | .shl k d a imm => Sys2Proof.Machine.execShl k d a imm s
  | .shr k d a imm => Sys2Proof.Machine.execShr k d a imm s
  | .sar k d a imm => Sys2Proof.Machine.execSar k d a imm s
  | .ld k d a imm => Sys2Proof.Machine.execLd k d a imm s
  | .st k d a imm => Sys2Proof.Machine.execSt k d a imm s
  | .ldw k d a imm => Sys2Proof.Machine.execLdw k d a imm s
  | .windowReadReturn k => Sys2Proof.Machine.execWindowReadReturn k s
  | .stw k d a imm => Sys2Proof.Machine.execStw k d a imm s
  | .windowWriteError k => Sys2Proof.Machine.execWindowWriteError k s
  | .rdt k d => Sys2Proof.Machine.execRdt k d s
  | .tmr k a imm => Sys2Proof.Machine.execTmr k a imm s
  | .wait k d a => Sys2Proof.Machine.execWait k d a s
  | .waitResume k => Sys2Proof.Machine.execWaitResume k s
  | .seqTimerExpiry k => Sys2Proof.Machine.execSeqTimerExpiry k s
  | .dog k => Sys2Proof.Machine.execDog k s
  | .send k d a b => Sys2Proof.Machine.execSend k d a b s
  | .recv k d a => Sys2Proof.Machine.execRecv k d a s
  | .dbl k a b => Sys2Proof.Machine.execDbl k a b s
  | .br k c a target => Sys2Proof.Machine.execBr k c a target s
  | .call k target => Sys2Proof.Machine.execCall k target s
  | .ret k => Sys2Proof.Machine.execRet k s
  | .jr k a => Sys2Proof.Machine.execJr k a s
  | .halt k => Sys2Proof.Machine.execHalt k s
  | .trap k imm => Sys2Proof.Machine.execTrap k imm s
  | .seqWatchdog k => Sys2Proof.Machine.execSeqWatchdog k s
  | .seqRestart k => Sys2Proof.Machine.execSeqRestart k s
  | .breakpointHalt k => Sys2Proof.Machine.execBreakpointHalt k s
  | .seqStart m k => Sys2Proof.Machine.execSeqStart m k s
  | .seqHalt m k => Sys2Proof.Machine.execSeqHalt m k s
  | .seqCont m k => Sys2Proof.Machine.execSeqCont m k s
  | .seqStep m k => Sys2Proof.Machine.execSeqStep m k s
  | .seqKick m k => Sys2Proof.Machine.execSeqKick m k s
  | .xregWrite m k x hi v => Sys2Proof.Machine.execXregWrite m k x hi v s
  | .roleWrite m k v => Sys2Proof.Machine.execRoleWrite m k v s
  | .seqDataWordWrite m k w hi v => Sys2Proof.Machine.execSeqDataWordWrite m k w hi v s
  | .seqInstrWrite m k w v => Sys2Proof.Machine.execSeqInstrWrite m k w v s
  | .loadComplete k => Sys2Proof.Machine.execLoadComplete k s
  | .lseqHostAssistClear m idx => Sys2Proof.Machine.execLseqHostAssistClear m idx s
  | .calRun m => Sys2Proof.Machine.execCalRun m s
  | .calAbort m => Sys2Proof.Machine.execCalAbort m s
  | .calRestore m => Sys2Proof.Machine.execCalRestore m s
  | .calPartDone r p meas => Sys2Proof.Machine.execCalPartDone r p meas s
  | .liveRead m => Sys2Proof.Machine.execLiveRead m s
  | .liveExpertWrite m w v => Sys2Proof.Machine.execLiveExpertWrite m w v s
  | .islandWatchdog idx => Sys2Proof.Machine.execIslandWatchdog idx s
  | .islandResetComplete idx relocked => Sys2Proof.Machine.execIslandResetComplete idx relocked s
  | .islandCmdReset m => Sys2Proof.Machine.execIslandCmdReset m s
  | .devReset m v => Sys2Proof.Machine.execDevReset m v s
  | .mcReset m => Sys2Proof.Machine.execMcReset m s
  | .rstN => Sys2Proof.Machine.execRstN s
  | .perstN => Sys2Proof.Machine.execPerstN s
  | .trstN => Sys2Proof.Machine.execTrstN s
  | .functionLevelReset => Sys2Proof.Machine.execFunctionLevelReset s
  | .refLoss r => Sys2Proof.Machine.execRefLoss r s
  | .refPresent r => Sys2Proof.Machine.execRefPresent r s
  | .pllLock p => Sys2Proof.Machine.execPllLock p s
  | .pllUnlock p => Sys2Proof.Machine.execPllUnlock p s
  | .powerOnResetRelease => Sys2Proof.Machine.execPowerOnResetRelease s
  | .directoryRead d => Sys2Proof.Machine.execDirectoryRead d s
  | .firmwareRead copyB image => Sys2Proof.Machine.execFirmwareRead copyB image s
  | .hbmTrainingDone failed => Sys2Proof.Machine.execHbmTrainingDone failed s
  | .startupCalibrationDone sl meas => Sys2Proof.Machine.execStartupCalibrationDone sl meas s
  | .bootRetry m => Sys2Proof.Machine.execBootRetry m s
  | .privilegedShutdown z => Sys2Proof.Machine.execPrivilegedShutdown z s
  | .privilegedRestart => Sys2Proof.Machine.execPrivilegedRestart s
  | .imgBegin m => Sys2Proof.Machine.execImgBegin m s
  | .imgAbort m => Sys2Proof.Machine.execImgAbort m s
  | .imgData m v => Sys2Proof.Machine.execImgData m v s
  | .imageVerification c => Sys2Proof.Machine.execImageVerification c s
  | .secAdvance m => Sys2Proof.Machine.execSecAdvance m s
  | .secDebugDisable m => Sys2Proof.Machine.execSecDebugDisable m s
  | .secOwnerDebugDisable m => Sys2Proof.Machine.execSecOwnerDebugDisable m s
  | .fuseBitProgram r => Sys2Proof.Machine.execFuseBitProgram r s
  | .dbgChallenge m random => Sys2Proof.Machine.execDbgChallenge m random s
  | .dbgRelock m => Sys2Proof.Machine.execDbgRelock m s
  | .flashGo m => Sys2Proof.Machine.execFlashGo m s
  | .flashDone bytes => Sys2Proof.Machine.execFlashDone bytes s
  | .attestKeysReady certs => Sys2Proof.Machine.execAttestKeysReady certs s
  | .attestationRequest nonce bufLen tag => Sys2Proof.Machine.execAttestationRequest nonce bufLen tag s
  | .attestationReport => Sys2Proof.Machine.execAttestationReport s
  | .poisonedWrite => Sys2Proof.Machine.execPoisonedWrite s
  | .busMasterDisable => Sys2Proof.Machine.execBusMasterDisable s
  | .smbusWrite pecOk addr v => Sys2Proof.Machine.execSmbusWrite pecOk addr v s
  | .smbusRead pecOk addr => Sys2Proof.Machine.execSmbusRead pecOk addr s
  | .smbusStatus pecOk => Sys2Proof.Machine.execSmbusStatus pecOk s
  | .smbusTimeout => Sys2Proof.Machine.execSmbusTimeout s
  | .ping sender words => Sys2Proof.Machine.execPing sender words s
  | .info sender words => Sys2Proof.Machine.execInfo sender words s
  | .mcReplyRetry expired => Sys2Proof.Machine.execMcReplyRetry expired s
  | .ringRunStart m r => Sys2Proof.Machine.execRingRunStart m r s
  | .ringRunStop m r => Sys2Proof.Machine.execRingRunStop m r s
  | .sqTailWrite m r v => Sys2Proof.Machine.execSqTailWrite m r v s
  | .cqHeadWrite m r v => Sys2Proof.Machine.execCqHeadWrite m r v s
  | .descriptorFetch r d => Sys2Proof.Machine.execDescriptorFetch r d s
  | .deviceReadError r ofBuffer => Sys2Proof.Machine.execDeviceReadError r ofBuffer s
  | .tableUpdateDescriptor descs => Sys2Proof.Machine.execTableUpdateDescriptor descs s
  | .firmwareUpload image => Sys2Proof.Machine.execFirmwareUpload image s
  | .bufferFillTimeout r => Sys2Proof.Machine.execBufferFillTimeout r s
  | .coalesceTimeout r => Sys2Proof.Machine.execCoalesceTimeout r s
  | .harvestPeriod => Sys2Proof.Machine.execHarvestPeriod s
  | .hvSnap m => Sys2Proof.Machine.execHvSnap m s
  | .harvestDone => Sys2Proof.Machine.execHarvestDone s
  | .mbxSend m => Sys2Proof.Machine.execMbxSend m s
  | .rxHdrRead m => Sys2Proof.Machine.execRxHdrRead m s
  | .rxPop m => Sys2Proof.Machine.execRxPop m s
  | .inboxFlush m page j => Sys2Proof.Machine.execInboxFlush m page j s
  | .roleBump m => Sys2Proof.Machine.execRoleBump m s
  | .dbTx m e v => Sys2Proof.Machine.execDbTx m e v s
  | .dbRxValRead m e => Sys2Proof.Machine.execDbRxValRead m e s
  | .stalemate a b => Sys2Proof.Machine.execStalemate a b s
  | .thermalSample dtNs zones => Sys2Proof.Machine.execThermalSample dtNs zones s
  | .sampleRateSlow => Sys2Proof.Machine.execSampleRateSlow s
  | .sensorBroken z => Sys2Proof.Machine.execSensorBroken z s
  | .unbreak m zones => Sys2Proof.Machine.execUnbreak m zones s
  | .pauseStep => Sys2Proof.Machine.execPauseStep s
  | .pauseReleaseStep => Sys2Proof.Machine.execPauseReleaseStep s
  | .pauseSet m v => Sys2Proof.Machine.execPauseSet m v s
  | .railDip k quarterMv => Sys2Proof.Machine.execRailDip k quarterMv s
  | .railRecover k => Sys2Proof.Machine.execRailRecover k s
  | .supplyHoldEnd => Sys2Proof.Machine.execSupplyHoldEnd s
  | .paritySweepDone upsets => Sys2Proof.Machine.execParitySweepDone upsets s
  | .railReset k => Sys2Proof.Machine.execRailReset k s
  | .overVoltage k => Sys2Proof.Machine.execOverVoltage k s
  | .vigilEnter m => Sys2Proof.Machine.execVigilEnter m s
  | .vigilEntryComplete => Sys2Proof.Machine.execVigilEntryComplete s
  | .vigilExit m => Sys2Proof.Machine.execVigilExit m s
  | .vigilTimerWake => Sys2Proof.Machine.execVigilTimerWake s
  | .wakeN => Sys2Proof.Machine.execWakeN s
  | .flowRefreshPass vigilNs => Sys2Proof.Machine.execFlowRefreshPass vigilNs s
  | .vigilExitToTraffic => Sys2Proof.Machine.execVigilExitToTraffic s
  | .bistStart m => Sys2Proof.Machine.execBistStart m s
  | .bistAbort m => Sys2Proof.Machine.execBistAbort m s
  | .bistTargetStart => Sys2Proof.Machine.execBistTargetStart s
  | .bistTargetEnd e => Sys2Proof.Machine.execBistTargetEnd e s
  | .cacheSegmentStart => Sys2Proof.Machine.execCacheSegmentStart s
  | .rotationStart => Sys2Proof.Machine.execRotationStart s
  | .scanCtrlWrite m v => Sys2Proof.Machine.execScanCtrlWrite m v s
  | .lockstepMismatch => Sys2Proof.Machine.execLockstepMismatch s
  | .mcRestart => Sys2Proof.Machine.execMcRestart s
  | .faultRecRead m => Sys2Proof.Machine.execFaultRecRead m s
  | .faultPop m => Sys2Proof.Machine.execFaultPop m s
  | .hostLinkFaultReceived n lf rf => Sys2Proof.Machine.execHostLinkFaultReceived n lf rf s
  | .hostLosChange n asserted => Sys2Proof.Machine.execHostLosChange n asserted s
  | .pcieLinkReset => Sys2Proof.Machine.execPcieLinkReset s
  | .relocationScan c => Sys2Proof.Machine.execRelocationScan c s

end Sys2Proof.Machine
end

