-- ==== Sys2Proof/Machine/Ticks.lean ====
section
/-! DEFINITION. What a nanosecond brings when no command waits (log entry 1): the time base, the clamps of the analogue
outputs, and the counters that count time in a state (06, 11, 12, 17). -/

namespace Sys2Proof.Machine

namespace Dev

/-- A cycle of the sequencers, 2 ns: those in RUNNING count it, those of an intercalary pause apart (12; 17, R450, R451). -/
def busyTick (s : Dev) : Dev :=
  if s.mono % 2 = 1 ∨ s.mono / 2 % 16 < s.pauseN then s
  else (List.range 24).foldl (fun t k => if t.seqState k = 2 then t.count48 (Pg.LSEQ k + LSEQ.BUSY_CYCLES) else t) s

/-- 64 ns are 80 cycles of the classifier, of which n in 16 are pause slots (17, R450): DESIGN CHOICE, log entry 84. -/
def pauseTick (s : Dev) : Dev := if s.mono % 64 = 0 ∧ s.pauseN ≠ 0 then s.count48 (Pg.PWR + PWR.PAUSE_SLOTS) (5 * s.pauseN) else s

/-- A millisecond of the lanes in fallback (06, `FB_TIME`). -/
def fallbackTick (s : Dev) : Dev :=
  if s.mono % 1000000 = 0 then
    (List.range 16).foldl (fun t n => if t.fbBit n 0 then t.count (adBase n + ADMIT.FB_TIME) else t) s
  else s

/-- What a nanosecond brings when no command waits. -/
def idle (s : Dev) : Dev := s.tick.clampTick.busyTick.pauseTick.fallbackTick

end Dev

end Sys2Proof.Machine
end

