-- ==== Sys2Proof/Safety.lean ====
section
/-! DEFINITION. What every reachable state of the block keeps, and the terms in which claims say what a command does and
what it leaves alone. -/

namespace Sys2Proof

open Machine

/-- The interrupt outputs agree with the pages: `GROUP_STATUS` shows the groups with an enabled cause, and INT_N is low
exactly while one of them has `BMC_EN` (02, R72, R73). -/
abbrev Settled (s : State) : Prop := s.d.groups = pendingGroups s.d ∧ s.d.intN = intNLevel s.d

/-- A step completes: it answers a next state. -/
def Completes (r : Out) : Prop := ∃ t, r = .next t

/-- A command answers a next state, the commands that wait stay as they are, and the device it leaves is as P says. -/
def Gives (i : Instr) (s : State) (P : Dev → Prop) : Prop :=
  ∃ t, exec i s = .next t ∧ t.pending = s.pending ∧ P t.d

/-- The parts of the device beside its registers, its interrupt outputs and the MSI-X pending bits. -/
inductive Part where
  | bus | isl | log | rx | cls | flow | buf | eg | time | lt | tx | ana | mm | seq | cal | sec | hif | mbx | eyes | mon
  | test | mono | fresh | sent
  deriving DecidableEq, Repr

/-- What left the device, latest first, but for the interrupt messages that follow every command (16, R413). -/
def Machine.Dev.sent (s : Dev) : List Output := s.out.filter (fun o => match o with | .msix _ => false | _ => true)

/-- The host interfaces but for the MSI-X pending bits. -/
def Machine.Dev.ports (s : Dev) : HostIf := { s.hif with pend := [] }

/-- A part of the device is in t as it is in s. -/
def Part.Kept (s t : Dev) : Part → Prop
  | .bus => t.bus = s.bus
  | .isl => t.isl = s.isl
  | .log => t.log = s.log
  | .rx => t.rx = s.rx
  | .cls => t.cls = s.cls
  | .flow => t.flow = s.flow
  | .buf => t.buf = s.buf
  | .eg => t.eg = s.eg
  | .time => t.time = s.time
  | .lt => t.lt = s.lt
  | .tx => t.tx = s.tx
  | .ana => t.ana = s.ana
  | .mm => t.mm = s.mm
  | .seq => t.seq = s.seq
  | .cal => t.cal = s.cal
  | .sec => t.sec = s.sec
  | .hif => t.ports = s.ports
  | .mbx => t.mbx = s.mbx
  | .eyes => t.eyes = s.eyes
  | .mon => t.mon = s.mon
  | .test => t.test = s.test
  | .mono => t.mono = s.mono
  | .fresh => t.fresh = s.fresh
  | .sent => t.sent = s.sent

/-- What stays: every register but those that A names, and every part of the device but those listed. -/
def Frame (parts : List Part) (A : Nat → Prop) (s t : Dev) : Prop :=
  (∀ a, ¬ A a → t.rd a = s.rd a) ∧ ∀ p, p ∉ parts → p.Kept s t

/-- An address on a page of one of these types (02, page allocation index). -/
def OnTypes (types : List PageType) (a : Nat) : Prop := ∃ r, pageRow (a / 0x1000) = some r ∧ r.type ∈ types

/-- A write of a whole word by m at an address passes the checks of 02 (R38 to R65), and m is not the former holder of
a broken lock of the page. -/
abbrev Admits (s : State) (m : Master) (a : Nat) : Prop :=
  s.d.writeErr m a 0xF false = none ∧ masterId m ∉ s.d.brokenOf (a / 0x1000)

/-- The same with the page's lock held by m. -/
abbrev AdmitsHeld (s : State) (m : Master) (a : Nat) : Prop := Admits s m a ∧ s.d.holder (a / 0x1000) = masterId m

/-- A sequencer executes: RUNNING, with no window read in progress and not at its breakpoint (12, R349, R342, R356). -/
abbrev Runs (s : State) (k : SeqId) : Prop :=
  s.d.seqState k = 2 ∧ (s.d.sq k).winRd = none ∧ s.d.seqAtBreak k = false

/-- An access by m at an address was dropped or rejected with a code: `ERR_INFO` of the page holds it (R47), the error
cause is set, and nothing else of the device changes. -/
def Rejected (m : Master) (a code : Nat) (s t : Dev) : Prop :=
  Frame [] (fun b => b = a / 0x1000 * 0x1000 + HDR.ERR_INFO ∨ b = a / 0x1000 * 0x1000 + HDR.INT_STATUS) s t
  ∧ t.rd (a / 0x1000 * 0x1000 + HDR.ERR_INFO)
      = BitVec.ofNat 32 (2 ^ 31 + (if s.bit (a / 0x1000 * 0x1000 + HDR.ERR_INFO) 31 then 2 ^ 30 else 0) + code * 2 ^ 22
          + (masterId m).toNat * 2 ^ 14 + a % 0x1000 / 4 * 4)
  ∧ t.rd (a / 0x1000 * 0x1000 + HDR.INT_STATUS) = withBit (s.rd (a / 0x1000 * 0x1000 + HDR.INT_STATUS)) 0 true

/-- A write of m through the bulk window passes the checks of a page (R35, R38 to R65). -/
abbrev AdmitsBulk (s : State) (m : Master) (page : Nat) : Prop :=
  s.d.bulkErr m page = none ∧ masterId m ∉ s.d.brokenOf page

/-- x is the first of a list that a test selects, with these before and behind it. -/
abbrev Leads {α : Type} (sel : α → Bool) (pre : List α) (x : α) (post : List α) (l : List α) : Prop :=
  l = pre ++ x :: post ∧ sel x = true ∧ ∀ y ∈ pre, sel y = false

/-- A counter of two words, w bits wide, was raised by k. -/
def Raised (w a k : Nat) (s t : Dev) : Prop := t.wide a = (s.wide a + k) % 2 ^ w

/-- A counter of 32 bits was raised by one. -/
def Counted (a : Nat) (s t : Dev) : Prop := t.rd a = s.rd a + 1

/-! ### Sequencers (12) -/

/-- An instruction of sequencer k leaves v in its register d, sets `SAT` if it saturated and goes on to the next address;
nothing else of the device changes (R344). -/
def Result (k : SeqId) (d : Fin 16) (v : BitVec 40) (sat : Bool) (s t : Dev) : Prop :=
  Frame [.seq] (· = Dev.seqReg k) s t
  ∧ (∀ j, j ≠ k.val → t.sq j = s.sq j) ∧ t.sq k = { s.sq k with xr := (t.sq k).xr }
  ∧ t.xreg k d = v ∧ (∀ i, i ≠ d.val → t.xreg k i = s.xreg k i)
  ∧ t.rd (Dev.seqReg k)
      = withField (if sat then withBit (s.rd (Dev.seqReg k)) 27 true else s.rd (Dev.seqReg k)) 16 11 (s.seqPc k + 1)

/-- An instruction of sequencer k goes to an address, and nothing else of the device changes. -/
def Jumps (k : SeqId) (pc : Nat) (s t : Dev) : Prop :=
  Frame [] (· = Dev.seqReg k) s t ∧ t.rd (Dev.seqReg k) = withField (s.rd (Dev.seqReg k)) 16 11 pc

/-- Sequencer k has trapped: TRAPPED, with the cause, what it says and the address recorded, the trap counted and flagged,
its locks released and its expert session ended (R350, R64). -/
def Trapped (k : SeqId) (cause info pc : Nat) (s t : Dev) : Prop :=
  t.seqState k = 4 ∧ t.rd (Pg.LSEQ k + LSEQ.TRAP_REC) = BitVec.ofNat 32 (info * 2 ^ 16 + cause * 2 ^ 8)
  ∧ t.rd (Pg.LSEQ k + LSEQ.TRAP_PC) = BitVec.ofNat 32 pc
  ∧ t.rd (Pg.LSEQ k + LSEQ.TRAPS) = s.rd (Pg.LSEQ k + LSEQ.TRAPS) + 1
  ∧ t.bit (Pg.LSEQ k + HDR.INT_STATUS) 8 = true
  ∧ (∀ p, p < 1024 → t.holder p = if s.holds (seqMaster k) p then 0 else s.holder p) ∧ t.expertOpen (seqMaster k) = false

/-- A 40-bit sum or product clamped to the range of R344, and whether it was. -/
def Clamped (x : Int) (v : BitVec 40) (sat : Bool) : Prop :=
  v = BitVec.ofInt 40 (max (-(2 ^ 39)) (min (2 ^ 39 - 1) x)) ∧ sat = decide (x < -(2 ^ 39) ∨ 2 ^ 39 - 1 < x)

/-- Sequencer k keeps everything but what its program counter and `SAT` show. -/
def Advanced (k : SeqId) (s t : Dev) : Prop :=
  t.rd (Dev.seqReg k) = withField (s.rd (Dev.seqReg k)) 16 11 (s.seqPc k + 1)

/-- The working state of every sequencer but k is untouched. -/
def OthersKept (k : SeqId) (s t : Dev) : Prop := ∀ j, j ≠ k.val → t.sq j = s.sq j

end Sys2Proof
end

