-- ==== Sys2Proof/WellFormed.lean ====
section
/-! DEFINITION. Well-formed commands: the operands that are lists have the lengths the manual gives them, and what two
operands say of one thing agrees. A row without such operands is well-formed whatever it carries. -/

namespace Sys2Proof

/-- A packet's header window is its first 192 bytes, or all of it when it is shorter (01, R10). -/
def windowFits (window : List Byte) (len : Nat) : Bool := decide (window.length = Nat.min 192 len)

/-- A report brings 33 equaliser taps and 16 level words (03, R85, R86). -/
def LaneReport.wf (r : LaneReport) : Bool := decide (r.ffe.length = 33) && decide (r.levels.length = 16)

/-- A PAUSE frame brings one time, a PFC frame eight (01, R29; 07, R231). -/
def MacControl.wf (f : MacControl) : Bool :=
  (f.opcode != 0x0001 || decide (f.times.length = 1)) && (f.opcode != 0x0101 || decide (f.times.length = 8))

/-- A span runs forward. -/
def CwSpan.wf (c : CwSpan) : Bool := decide (c.first ≤ c.last)

/-- A poll brings pages of 128 bytes (11, R335). -/
def ModulePoll.wf (p : ModulePoll) : Bool :=
  decide (p.lower.length = 128) && decide (p.page00.length = 128) && decide (p.page11.length = 128)

/-- A measurement names words of a record, each once (13, calibration records). -/
def CalMeasurement.wf (q : CalMeasurement) : Bool :=
  q.values.all (fun x => decide (1 ≤ x.1) && decide (x.1 ≤ 65)) && decide (q.values.map Prod.fst).Nodup

/-- A command is well-formed. -/
def Instr.wf (i : Instr) : Bool :=
  match i with
  | .qualityUpdate _ r => r.wf
  | .innerWordDecode _ _ rel => decide (rel.length = 128)
  | .groupHuntTest _ symbols => decide (16415 ≤ symbols.length)
  | .headerWindowComplete _ window len _ => windowFits window len
  | .lineMacControlFrame _ f spans => f.wf && spans.all CwSpan.wf
  | .packetLastByte _ _ spans _ => spans.all CwSpan.wf
  | .hostMacControlFrame _ f _ => f.wf
  | .modulePoll _ p => p.wf
  | .calPartDone _ _ q => q.wf
  | .startupCalibrationDone _ q => q.wf
  | .tableUpdateDescriptor descs => decide (descs.length ≤ 256) && descs.all (fun d => decide (d.length = 64))
  | .ping _ words => decide (words.length = 8)
  | .info _ words => decide (words.length = 8)
  | .inboxFlush _ page j => if page = 0 then decide (j.val < 3) else decide (j.val < 8)
  | .stalemate a b => decide (a ≠ b)
  | .thermalSample _ zones => decide (zones.length = 12)
  | _ => true

end Sys2Proof
end

