-- ==== Sys2Proof/Certificates/Slice0/Obligations.lean ====
section
/-! DEFINITION. The statements for the provers, in the order of the chapters: what each command does, what it leaves alone,
and what every step keeps. -/

section

open Sys2Proof Sys2Proof.Machine

/-! ### The queue of commands and every step -/

/-- A step with a command at the front of the queue is that command's effect on the state with the rest of the queue. -/
def Obligations.StepTakesFront : Prop :=
  ∀ (s : State) (c : Instr) (rest : List Instr), s.pending = c :: rest → step s = exec c { s with pending := rest }

/-- Every step answers a next state, and takes no command but the one at the front.
R382 and log entries 1 and 84: with no command waiting, 1 ns passes: the elapsed time and the time base advance, the
latter corrected by `FREQ_ADJ`; every second one is a cycle of the sequencers, which those in RUNNING count but in a pause
slot; and nothing else changes but the counters of clamped codes, pause slots and milliseconds in fallback.
The model's own choices and readings in it: log entries 1 and 84. -/
def Obligations.EveryStepCompletes : Prop :=
  (∀ s : State, ∃ t, step s = .next t ∧ t.pending = s.pending.tail)
  ∧ (∀ s : State, s.pending = [] → ∃ (t : State) (carry : Int), step s = .next t ∧ t.pending = []
    ∧ t.d.mono = s.d.mono + 1 ∧ t.d.time.now = s.d.time.now + BitVec.ofInt 80 (1 + carry)
    ∧ s.d.time.frac + (s.d.rd (Pg.CLKRST + CLKRST.FREQ_ADJ)).toInt = carry * (1024 * 10 ^ 9) + t.d.time.frac
    ∧ 0 ≤ t.d.time.frac ∧ t.d.time.frac < 1024 * 10 ^ 9 ∧ t.d.time.capt = s.d.time.capt
    ∧ (∀ k : SeqId, if s.d.mono % 2 = 1 ∧ s.d.pauseN ≤ (s.d.mono + 1) / 2 % 16 ∧ s.d.seqState k = 2
        then Raised 48 (Pg.LSEQ k + LSEQ.BUSY_CYCLES) 1 s.d t.d
        else t.d.wide (Pg.LSEQ k + LSEQ.BUSY_CYCLES) = s.d.wide (Pg.LSEQ k + LSEQ.BUSY_CYCLES))
    ∧ Frame [.time, .mono, .ana] (fun a => (∃ k : SeqId, a = Pg.LSEQ k + LSEQ.BUSY_CYCLES ∨ a = Pg.LSEQ k + LSEQ.BUSY_CYCLES + 4)
        ∨ (∃ (sl : Slice) (k : Fin 8), a = Pg.ANA sl + ANA.CLAMP_COUNT + 4 * k ∨ a = Pg.ANA sl + HDR.INT_STATUS)
        ∨ a = Pg.PWR + PWR.PAUSE_SLOTS ∨ a = Pg.PWR + PWR.PAUSE_SLOTS + 4 ∨ ∃ n : Lane, a = Dev.adBase n + ADMIT.FB_TIME) s.d t.d)

/-- R72, R73: after every step the groups shown pending are those with an enabled cause, and INT_N is low exactly while
one of them has `BMC_EN`. -/
def Obligations.EveryStepSettles : Prop :=
  ∀ s t : State, Settled s → step s = .next t → Settled t

/-- R384, R391, R60, R68: after power-on no command waits, every island is in reset, no lock is held, no expert session is
open, the time base stands at 0 and no interrupt is pending. The `LOCK` and session values are those of the tables.
The model's own choices and readings in it: log entry 8. -/
def Obligations.ResetState : Prop :=
  Settled State.reset ∧ State.reset.pending = [] ∧ State.reset.d.time.now = 0 ∧ State.reset.d.groups = []
    ∧ State.reset.d.intN = false ∧ State.reset.d.regs = []
    ∧ (∀ i, State.reset.d.islandOn i = false) ∧ (∀ p, State.reset.d.holder p = 0 ∧ State.reset.d.busy p = false)
    ∧ (∀ m, State.reset.d.expertOpen m = false) ∧ (∀ k, (State.reset.d.sq k).winQ = [])

/-! ### Register access (02) -/

/-- R42, R72, R73, R413: a cause forced on a page whose group was not pending. The group is pending when the cause is
enabled; it sends one message on its vector with `MSIX_EN`, held as a pending bit while the vector or the function is masked
or MSI-X disabled; INT_N goes low with `BMC_EN`. A vector unmasked, or the function, sends the messages it held.
The model's own choices and readings in it: log entry 58. -/
def Obligations.InterruptMessages : Prop :=
  ∀ (s : State) (m : Master) (page : BitVec 10) (v : Word) (g : Nat) (vec : Fin 64),
    let a := page.toNat * 0x1000
    let set := v &&& Dev.causesOf page.toNat
    let live := (s.d.rd (a + HDR.INT_STATUS) ||| set) &&& s.d.rd (a + HDR.INT_ENABLE)
    (Admits s m (a + HDR.INT_FORCE) → Gives (.intForce m page v) s (fun t =>
      Frame [] (· = a + HDR.INT_STATUS) s.d t ∧ t.rd (a + HDR.INT_STATUS) = s.d.rd (a + HDR.INT_STATUS) ||| set))
    ∧ (Admits s m (a + HDR.INT_FORCE) → Settled s → pageGroup page.toNat = some g → g ∉ s.d.groups → live ≠ 0 → g < 23 →
        Gives (.intForce m page v) s (fun t => g ∈ t.groups ∧ (bitOf (s.d.route g) 9 = true → t.intN = true)
          ∧ (bitOf (s.d.route g) 8 = false → t.out = s.d.out ∧ t.hif = s.d.hif)
          ∧ (bitOf (s.d.route g) 8 = true → s.d.msixMasked (fieldOf (s.d.route g) 0 6) = false →
              t.out = .msix (fieldOf (s.d.route g) 0 6) :: s.d.out ∧ t.hif = s.d.hif)
          ∧ (bitOf (s.d.route g) 8 = true → s.d.msixMasked (fieldOf (s.d.route g) 0 6) = true →
              t.out = s.d.out ∧ Sparse.get (fun _ => false) t.hif.pend (fieldOf (s.d.route g) 0 6) = true)))
    ∧ (Settled s → Gives (.msixUnmask (.vector vec) false) s (fun t => Frame [.hif] (fun _ => False) s.d t
        ∧ Sparse.get (fun _ => true) t.hif.masked vec = false
        ∧ (s.d.hif.msixOn = false ∨ s.d.hif.funcMask = true → t.hif.pend = s.d.hif.pend ∧ t.out = s.d.out)
        ∧ (s.d.hif.msixOn = true → s.d.hif.funcMask = false →
            (∀ w : Fin 64, w ≠ vec → Sparse.get (fun _ => true) s.d.hif.masked w = true) →
            Sparse.get (fun _ => false) t.hif.pend vec = false
            ∧ t.out = (if Sparse.get (fun _ => false) s.d.hif.pend vec then .msix vec :: s.d.out else s.d.out))))
    ∧ (Settled s → Gives (.msixUnmask .function false) s (fun t => Frame [.hif] (fun _ => False) s.d t ∧ t.hif.funcMask = false
        ∧ (s.d.hif.msixOn = true → Sparse.get (fun _ => true) s.d.hif.masked vec = false →
            Sparse.get (fun _ => false) t.hif.pend vec = false
            ∧ (Sparse.get (fun _ => false) s.d.hif.pend vec = true → Output.msix vec ∈ t.out))))

/-- R44, R60: a read of `LOCK`. The lock of a page goes to the master that reads it free, and stays with its holder
otherwise; the reader sees `HELD` with the holder's ID. A read of fewer than four bytes returns those and acquires nothing. -/
def Obligations.LockReads : Prop :=
  ∀ (s : State) (m : Master) (page : BitVec 10) (be : BitVec 4),
    let a := page.toNat * 0x1000 + HDR.LOCK
    s.d.readErr m a = none →
      (s.d.holder page.toNat = 0 → Gives (.lockRead m page 0xF) s (fun t => t.holder page.toNat = masterId m
        ∧ (∀ p, p ≠ page.toNat → t.holder p = s.d.holder p)
        ∧ t.sent = .readData m a (BitVec.ofNat 32 (2 ^ 31 + (masterId m).toNat)) :: s.d.sent
        ∧ Frame [.bus, .sent] (fun _ => False) s.d t))
      ∧ (s.d.holder page.toNat ≠ 0 → Gives (.lockRead m page 0xF) s (fun t => Frame [.sent] (fun _ => False) s.d t
        ∧ t.sent = .readData m a (BitVec.ofNat 32 (2 ^ 31 + (s.d.holder page.toNat).toNat)) :: s.d.sent))
      ∧ (be ≠ 0xF → Gives (.lockRead m page be) s (fun t => Frame [.sent] (fun _ => False) s.d t
        ∧ t.sent = .readData m a ((if s.d.holder page.toNat = 0 then 0 else BitVec.ofNat 32 (2 ^ 31 + (s.d.holder page.toNat).toNat))
            &&& Dev.byteMask be) :: s.d.sent))

/-- R61, R65, R75: a write of its own ID by the holder releases a lock, any other write to `LOCK` is logged with code
LOCK_NOT_HOLDER; a lock broken by master 0x01, or by 0x04 at debug level 1 or 2, is free, counted, and its former holder
marked beside those of earlier breaks; a free lock named, or another master, breaks nothing. -/
def Obligations.LockWritesAndBreaks : Prop :=
  ∀ (s : State) (m : Master) (page : BitVec 10) (v : Word),
    let a := page.toNat * 0x1000 + HDR.LOCK
    let p := v.toNat % 1024
    let may : Prop := m = .host ∨ m = .jtag ∧ 1 ≤ s.d.debugLevel
    (s.d.writeErr m a 0xF false = none →
      (s.d.holder page.toNat = masterId m → v.toNat % 256 = (masterId m).toNat → page.toNat ≠ Pg.BOOT / 0x1000 →
        Gives (.lockWrite m page v) s (fun t => t.holder page.toNat = 0 ∧ (∀ q, q ≠ page.toNat → t.holder q = s.d.holder q)
          ∧ Frame [.bus] (fun _ => False) s.d t))
      ∧ (s.d.holder page.toNat ≠ masterId m ∨ v.toNat % 256 ≠ (masterId m).toNat →
        Gives (.lockWrite m page v) s (Rejected m a 0x07 s.d)))
    ∧ (Admits s m (Pg.LOCKS + LOCKS.LOCK_BREAK) →
        (may → s.d.holder p ≠ 0 → p ≠ Pg.BOOT / 0x1000 → Gives (.lockBreak m v) s (fun t => t.holder p = 0
          ∧ s.d.holder p ∈ t.brokenOf p ∧ (∀ x ∈ s.d.brokenOf p, x ∈ t.brokenOf p) ∧ (∀ q, q ≠ p → t.holder q = s.d.holder q)
          ∧ t.rd (Pg.LOCKS + LOCKS.BREAK_COUNT) = s.d.rd (Pg.LOCKS + LOCKS.BREAK_COUNT) + 1
          ∧ Frame [.bus] (· = Pg.LOCKS + LOCKS.BREAK_COUNT) s.d t))
        ∧ (may → s.d.holder p = 0 → Gives (.lockBreak m v) s (Frame [] (fun _ => False) s.d))
        ∧ (¬ may → Gives (.lockBreak m v) s (Rejected m (Pg.LOCKS + LOCKS.LOCK_BREAK) 0x07 s.d)))

/-- R66, R67 (and R68, the end of a session): a master's expert session opens with 0x0000_5EA5 and then 0x0000_A5E5, and ends with 0; the second key alone
or any other value is logged with code EXPERT_SEQUENCE, and the sequence starts again; other masters' sessions stay. -/
def Obligations.ExpertSessions : Prop :=
  ∀ (s : State) (m : Master) (v : Word), Admits s m (Pg.DEVICE + DEVICE.EXPERT_KEY) →
    let key := masterId m
    let others (t : Dev) : Prop := ∀ m', m' ≠ m → t.expertOpen m' = s.d.expertOpen m'
      ∧ t.bus.keySeen.contains (masterId m') = s.d.bus.keySeen.contains (masterId m')
    Gives (.expertKey m 0x00005EA5) s (fun t => t.bus.keySeen.contains key = true ∧ t.expertOpen m = s.d.expertOpen m ∧ others t
        ∧ Frame [.bus] (fun _ => False) s.d t)
    ∧ (s.d.bus.keySeen.contains key = true → Gives (.expertKey m 0x0000A5E5) s (fun t => t.expertOpen m = true
        ∧ t.bus.keySeen.contains key = false ∧ others t ∧ Frame [.bus] (fun _ => False) s.d t))
    ∧ (s.d.bus.keySeen.contains key = false → Gives (.expertKey m 0x0000A5E5) s
        (Rejected m (Pg.DEVICE + DEVICE.EXPERT_KEY) 0x09 s.d))
    ∧ Gives (.expertKey m 0) s (fun t => t.expertOpen m = false ∧ t.bus.keySeen.contains key = false ∧ others t
        ∧ Frame [.bus] (fun _ => False) s.d t)
    ∧ (v ≠ 0x00005EA5 → v ≠ 0x0000A5E5 → v ≠ 0 → Gives (.expertKey m v) s (fun t => t.bus.keySeen.contains key = false
        ∧ t.expertOpen m = s.d.expertOpen m ∧ others t ∧ t.fld (Pg.DEVICE + HDR.ERR_INFO) 22 8 = 0x09
        ∧ t.fld (Pg.DEVICE + HDR.ERR_INFO) 14 8 = (masterId m).toNat ∧ t.bit (Pg.DEVICE + HDR.ERR_INFO) 31 = true
        ∧ Frame [.bus] (fun b => b = Pg.DEVICE + HDR.ERR_INFO ∨ b = Pg.DEVICE + HDR.INT_STATUS) s.d t))

/-- R30 to R32, R39, R50, R54: a write of `INT_ENABLE` sets the causes the page has, through the alias windows those bits
that the written word selects; a page that is posted holds the write in its buffer until it takes effect.
The model's own choices and readings in it: log entry 6. -/
def Obligations.RegisterWrites : Prop :=
  ∀ (s : State) (m : Master) (page : BitVec 10) (addr : BitVec 24) (al : BitVec 22) (v : Word),
    let a := page.toNat * 0x1000 + HDR.INT_ENABLE
    let has (i : Nat) : Bool := (Dev.causesOf page.toNat).getLsbD i
    let only (t : Dev) : Prop := Frame [.bus] (· = a) s.d t
    (Admits s m a → Dev.posted page.toNat = false →
      (addr.toNat = a → Gives (.registerWrite m addr 0xF v none false) s (fun t => only t
        ∧ ∀ i, i < 32 → t.bit a i = if has i then v.getLsbD i else s.d.bit a i))
      ∧ (al.toNat = a → Gives (.maskedLowWrite m al 0xF v) s (fun t => only t
          ∧ ∀ i, i < 32 → t.bit a i = if i < 16 ∧ v.getLsbD (16 + i) = true ∧ has i = true then v.getLsbD i else s.d.bit a i)
        ∧ Gives (.maskedHighWrite m al 0xF v) s (fun t => only t
          ∧ ∀ i, i < 32 → t.bit a i = if 16 ≤ i ∧ v.getLsbD i = true ∧ has i = true then v.getLsbD (i - 16) else s.d.bit a i)))
    ∧ (Admits s m a → Dev.posted page.toNat = true → addr.toNat = a → Gives (.registerWrite m addr 0xF v none false) s (fun t =>
        Frame [.bus] (fun _ => False) s.d t ∧ t.busy page.toNat = true
        ∧ t.buffered page.toNat = some { master := m, off := HDR.INT_ENABLE, sel := 0xFFFFFFFF, val := v, pc := 0 }))
    ∧ (∀ w, s.d.buffered page.toNat = some w → w.off = HDR.INT_ENABLE → w.master = m → isInternal m = false → (pageRow page.toNat).isSome →
        (∀ k, k < 24 → (s.d.sq k).winQ = []) → Gives (.postedWriteApply page) s (fun t => only t
          ∧ t.buffered page.toNat = none
          ∧ ∀ i, i < 32 → t.bit a i = if w.sel.getLsbD i = true ∧ has i = true then w.val.getLsbD i else s.d.bit a i))

/-- R38, R43, R47, R51, R55, R59, R63: writes that are dropped or rejected, with the code each is logged with.
The model's own choices and readings in it: log entry 5. -/
def Obligations.RejectedWrites : Prop :=
  ∀ (s : State) (m : Master) (addr : BitVec 24) (be : BitVec 4) (v : Word),
    let a := addr.toNat
    let page := a / 0x1000
    let no (k : Nat) : Prop := Gives (.registerWrite m addr be v none false) s (Rejected m a k s.d)
    let plain : Prop := be = 0xF ∧ a % 4 = 0 ∧ a % 0x1000 ≠ HDR.LOCK ∧ Dev.mapped page (a % 0x1000) = true ∧ s.d.pageOn page = true
    a < 0x400000 → (m = .host ∨ m = .bmc) → (pageRow page).isSome → masterId m ∉ s.d.brokenOf page →
      (be ≠ 0xF → no 0x01)
      ∧ (be = 0xF → a % 4 ≠ 0 → no 0x02)
      ∧ (plain → s.d.busy page = true → no 0x03)
      ∧ (plain → s.d.busy page = false → s.d.holder page ≠ 0 → s.d.holder page ≠ masterId m → no 0x04)
      ∧ (plain → s.d.busy page = false → s.d.inSafe page = true → s.d.holder page = 0 → no 0x05)
      ∧ (be = 0xF → a % 4 = 0 → a % 0x1000 ≠ HDR.LOCK → s.d.pageOn page = true → Dev.mapped page (a % 0x1000) = false → no 0x0A)

/-- R33, R44, R71: a read of the low word of a counter of two words latches the high word for its reader, and a read of the high
word returns what was latched; the counter is loaded when its high word is written, with the low word held for it; a read of
a clear-on-read register returns it and leaves 0, and one of fewer than four bytes or through an alias window does not.
The model's own choices and readings in it: log entry 52. -/
def Obligations.CounterReadsAndWrites : Prop :=
  ∀ (s : State) (m : Master) (n : Lane) (lo hi : BitVec 22) (rc al : BitVec 24) (be : BitVec 4) (v : Word),
    let a := Pg.LFEC n + LFEC.INNER_CW
    let b := Pg.ADMIT 0 + 0x104
    let idle (x : Nat) : Prop := s.d.readErr m x = none ∧ s.d.busy (x / 0x1000) = false
    (lo.toNat = a → idle a → Gives (.counterLowRead m lo 0xF) s (fun t => Frame [.bus, .sent] (fun _ => False) s.d t
      ∧ t.sent = .readData m a (s.d.rd a) :: s.d.sent ∧ t.hiWord m (a + 4) 0 = s.d.rd (a + 4)))
    ∧ (hi.toNat = a + 4 → idle (a + 4) → Gives (.counterLowRead m hi 0xF) s (fun t => Frame [.sent] (fun _ => False) s.d t
        ∧ t.sent = .readData m (a + 4) (s.d.hiWord m (a + 4) (s.d.rd (a + 4))) :: s.d.sent))
    ∧ (hi.toNat = a + 4 → Admits s m (a + 4) → Gives (.counterHighWrite m hi v) s (fun t =>
        Frame [.bus] (fun x => x = a ∨ x = a + 4) s.d t
        ∧ t.wide a = v.toNat % 2 ^ 16 * 2 ^ 32 + ((s.d.heldLow a).getD (s.d.rd a)).toNat))
    ∧ (rc.toNat = b → idle b → Gives (.rcRead m rc 0xF none none false) s (fun t => Frame [.sent] (· = b) s.d t
        ∧ t.sent = .readData m b (s.d.rd b) :: s.d.sent ∧ t.rd b = 0)
      ∧ (be ≠ 0xF → Gives (.rcRead m rc be none none false) s (fun t => Frame [.sent] (fun _ => False) s.d t
        ∧ t.sent = .readData m b (s.d.rd b &&& Dev.byteMask be) :: s.d.sent)))
    ∧ (al.toNat = 0x400000 + b ∨ al.toNat = 0x800000 + b → idle b → Gives (.rcRead m al 0xF none none false) s (fun t =>
        Frame [.sent] (fun _ => False) s.d t ∧ t.sent = .readData m al.toNat (s.d.rd b) :: s.d.sent))

/-- R41, R59: a soft reset of the page of the interrupt routes, by the holder of its lock: the routes return to their reset
values, the page is busy, and its header keeps its error record, enables, causes and lock; without the lock it is refused;
it ends when the block is re-initialised.
R57 to R59, R480: a register of a host lane's page that fails parity puts the page in the safe state, named by its first
offset; the lock holder resumes it once its registers are good, and hardware does with a good copy of the register.
The model's own choices and readings in it: log entries 23, 46 and 54. -/
def Obligations.SoftResetsAndParityFaults : Prop :=
  (∀ (s : State) (m : Master) (page : BitVec 10),
    let b := Pg.INTR
    (page.toNat * 0x1000 = b → AdmitsHeld s m (b + HDR.PAGE_CTRL) → Sparse.wf regReset s.d.regs = true →
      s.d.rd (b + HDR.PAGE_STATUS) &&& 0x18 = 0 → Gives (.softReset m page) s (fun t =>
        (∀ g, g < 23 → t.rd (b + INTR.ROUTE + 4 * g) = regReset (b + INTR.ROUTE + 4 * g))
        ∧ t.busy page.toNat = true ∧ t.holder page.toNat = s.d.holder page.toNat
        ∧ t.rd (b + HDR.INT_ENABLE) = s.d.rd (b + HDR.INT_ENABLE) ∧ t.rd (b + HDR.ERR_INFO) = s.d.rd (b + HDR.ERR_INFO)
        ∧ t.rd (b + HDR.INT_STATUS) = s.d.rd (b + HDR.INT_STATUS)
        ∧ Frame [.bus] (fun a => a / 0x1000 = page.toNat) s.d t))
    ∧ (Admits s m (page.toNat * 0x1000 + HDR.PAGE_CTRL) → s.d.holder page.toNat = 0 →
        Gives (.softReset m page) s (Rejected m (page.toNat * 0x1000 + HDR.PAGE_CTRL) 0x05 s.d))
    ∧ (s.d.softResetting page.toNat = true → (∀ k, k < 24 → (s.d.sq k).winQ = []) → Gives (.softResetDone page) s (fun t =>
        t.softResetting page.toNat = false ∧ Frame [.bus] (fun _ => False) s.d t)))
  ∧ (∀ (s : State) (m : Master) (n : Lane) (page : BitVec 10) (a : BitVec 22) (k : Fin 32) (x w : Word),
    let p := 0x040 + n.val
    let b := Pg.HOST n
    let st := b + HDR.PAGE_STATUS
    let clear (t : Dev) : Prop := t.inSafe p = false ∧ t.bit st 4 = false ∧ t.rd (b + HDR.PARITY_ADDR) = 0
    (a.toNat / 0x1000 = p → bitOf (configBits a.toNat) k = true → s.d.pageOn p = true → s.d.pageUpset p = false → Gives (.parityCheckSweep [(a, k)]) s (fun t =>
      t.inSafe p = true ∧ t.bit st 4 = true ∧ t.bit (b + HDR.INT_STATUS) 1 = true
      ∧ t.bit a.toNat k = !s.d.bit a.toNat k
      ∧ (s.d.bit st 4 = false → (t.rd (b + HDR.PARITY_ADDR)).toNat = a.toNat % 0x1000)
      ∧ (s.d.bit st 4 = true → t.rd (b + HDR.PARITY_ADDR) = s.d.rd (b + HDR.PARITY_ADDR))))
    ∧ (page.toNat = p → AdmitsHeld s m st → s.d.pageUpset p = false → Gives (.parityFaultClear m page) s clear)
    ∧ (page.toNat = p → AdmitsHeld s m st → s.d.pageUpset p = true → Gives (.parityFaultClear m page) s (Rejected m st 0x0D s.d))
    ∧ (page.toNat = p → s.d.inSafe p = true → s.d.bit (Pg.DEVICE + DEVICE.FAULT_CTRL) 1 = true →
        a.toNat = b + s.d.fld (b + HDR.PARITY_ADDR) 0 12 → s.d.bus.upset = [(a.toNat, some (x, w))] →
        s.d.upsetOf a.toNat = some (x, w) → a.toNat % 0x1000 ≠ HDR.PAGE_STATUS →
        (a.toNat % 0x1000 ≠ HDR.PARITY_ADDR → Gives (.parityAutoRestore page true) s (fun t => clear t ∧ t.rd a.toNat = w ∧ t.bus.upset = []))
        ∧ Gives (.parityAutoRestore page false) s (fun t => t.inSafe p = true ∧ t.rd a.toNat = s.d.rd a.toNat)))

/-! ### Line receive lanes (03) and decoding (04) -/

/-- R88: OFF, CALIBRATE, ACQUIRE, TRACK and FAULT as `LANE_EN`, the end of calibration and of acquisition and their time
limits move a lane between them.
R88, R97 to R101: HOLD and WARM_RESTART. A trigger of a warm restart enters WARM_RESTART when a checkpoint is eligible
and ACQUIRE when none is; loss of signal and of clock lock take TRACK to HOLD.
The model's own choices and readings in it: log entries 3, 31, 61 and 64. -/
def Obligations.LaneStates : Prop :=
  (∀ (s : State) (m : Master) (n : Lane),
    let at_ (k : Nat) : Prop := s.d.rxState n = k
    let ready : Prop := s.d.laneWaits n = false
    let stays : Prop := s.d.lossOfSignal n = false ∧ s.d.lpllLock (n / 4) = true
    (Admits s m (Pg.LRX n + LRX.LANE_CTRL) → at_ 0 → s.d.lineHeld n = false → s.d.lpllLock (n / 4) = true →
      Gives (.laneEnable m n) s (fun t => t.rxState n = 1 ∧ t.bit (Pg.LRX n + LRX.LANE_CTRL) 0 = true
        ∧ t.bit (Pg.LRX n + HDR.INT_STATUS) 8 = true))
    ∧ (Admits s m (Pg.LRX n + LRX.LANE_CTRL) → ¬ at_ 7 → Gives (.laneDisable m n) s (fun t => t.rxState n = 0
        ∧ t.bit (Pg.LRX n + LRX.LANE_CTRL) 0 = false ∧ (¬ at_ 0 → t.lossOfSignal n = true)))
    ∧ (at_ 1 → ready → (s.d.assisted Pg.CAL = true → s.d.calValidA n = true) →
        Gives (.calibrateComplete n false) s (fun t => t.rxState n = 6 ∧ t.fld (Pg.LRX n + LRX.LANE_STATE) 8 8 = 1)
        ∧ ((s.d.rxl n).warmCal = false ∨ s.d.eligible n = none → Gives (.calibrateComplete n true) s (fun t => t.rxState n = 2
            ∧ t.rd (Pg.LRX n + LRX.ACQ_COUNT) = s.d.rd (Pg.LRX n + LRX.ACQ_COUNT) + 1))
        ∧ ((s.d.rxl n).warmCal = true → s.d.eligible n ≠ none → Gives (.calibrateComplete n true) s (fun t => t.rxState n = 5)))
    ∧ (at_ 1 → ready → Gives (.calTimeout n) s (fun t => t.rxState n = 6 ∧ t.fld (Pg.LRX n + LRX.LANE_STATE) 8 8 = 2
        ∧ t.rd (Pg.LRX n + LRX.FAULT_COUNT) = s.d.rd (Pg.LRX n + LRX.FAULT_COUNT) + 1))
    ∧ (at_ 2 → ready → s.d.lossOfSignal n = false → (s.d.rxl n).retries = 0 → Gives (.acqTimeout n) s (fun t => t.rxState n = 6
        ∧ t.fld (Pg.LRX n + LRX.LANE_STATE) 8 8 = 3))
    ∧ (∀ r, at_ 2 → ready → s.d.lossOfSignal n = false → (s.d.rxl n).retries = r + 1 → Gives (.acqTimeout n) s (fun t =>
        t.rxState n = 2 ∧ (t.rxl n).retries = r ∧ t.rd (Pg.LRX n + LRX.ACQ_COUNT) = s.d.rd (Pg.LRX n + LRX.ACQ_COUNT) + 1))
    ∧ (at_ 2 → ready → s.d.bit (Pg.LRX n + LRX.CDR_STATUS) 0 = true → s.d.alignBit n 2 = true →
        Gives (.acquireLock n) s (fun t => (stays → t.rxState n = 3 ∧ t.fld (Pg.LRX n + LRX.LANE_STATE) 4 4 = 2)
          ∧ (¬ stays → t.rxState n = 4 ∧ t.rd (Pg.LRX n + LRX.HOLD_COUNT) = s.d.rd (Pg.LRX n + LRX.HOLD_COUNT) + 1))))
  ∧ (∀ (s : State) (n : Lane),
    let at_ (k : Nat) : Prop := s.d.rxState n = k
    let warm (t : Dev) : Prop := t.rxState n = (if (s.d.eligible n).isSome then 5 else 2)
    let locked : Prop := s.d.bit (Pg.LRX n + LRX.CDR_STATUS) 0 = true ∧ s.d.alignBit n 2 = true
    (at_ 4 → (s.d.rxl n).holdOver = false → s.d.lossOfSignal n = false → Gives (.holdLimitExpiry n) s warm)
    ∧ (at_ 4 → (s.d.rxl n).holdOver = false → s.d.lossOfSignal n = true →
        Gives (.holdLimitExpiry n) s (fun t => t.rxState n = 4 ∧ (t.rxl n).holdOver = true))
    ∧ (at_ 4 → (s.d.rxl n).holdOver = false → s.d.lossOfSignal n = false → s.d.lpllLock (n / 4) = true → s.d.alignBit n 2 = true →
        Gives (.holdRecover n) s (fun t => t.rxState n = if s.d.bit (Pg.LRX n + LRX.CDR_STATUS) 0 then 3 else 4))
    ∧ (at_ 5 → s.d.stateUs n ≤ 250 → locked → Gives (.warmRestartComplete n) s (fun t => t.rxState n = 3
        ∧ t.rd (Pg.LRX n + LRX.WR_COUNT) = s.d.rd (Pg.LRX n + LRX.WR_COUNT) + 1 ∧ t.bit (Pg.LRX n + HDR.INT_STATUS) 12 = true))
    ∧ (at_ 5 → Gives (.warmRestartTimeout n) s (fun t => t.rxState n = 2
        ∧ t.rd (Pg.LRX n + LRX.WR_FAIL) = s.d.rd (Pg.LRX n + LRX.WR_FAIL) + 1 ∧ t.bit (Pg.LRX n + HDR.INT_STATUS) 13 = true))
    ∧ (∀ amp : BitVec 12, ¬ at_ 0 → s.d.lossOfSignal n = false → amp.toNat < 2 * s.d.fld (Pg.LRX n + LRX.LOS_CTRL) 0 8 →
        Gives (.losAssert n amp) s (fun t => t.lossOfSignal n = true
          ∧ t.rd (Pg.LRX n + LRX.LOS_COUNT) = s.d.rd (Pg.LRX n + LRX.LOS_COUNT) + 1
          ∧ t.rxState n = (if s.d.rxState n = 3 ∨ s.d.rxState n = 5 then 4 else s.d.rxState n)))
    ∧ (∀ amp : BitVec 12, ¬ at_ 0 → s.d.lossOfSignal n = true → 2 * s.d.fld (Pg.LRX n + LRX.LOS_CTRL) 8 8 < amp.toNat →
        Gives (.losDeassert n amp) s (fun t => t.lossOfSignal n = false ∧ (at_ 4 → (s.d.rxl n).holdOver = true → warm t)
          ∧ (¬ at_ 4 → t.rxState n = s.d.rxState n)))
    ∧ (¬ at_ 0 → s.d.bit (Pg.LRX n + LRX.CDR_STATUS) 0 = true → Gives (.cdrLockChange n false) s (fun t =>
        t.bit (Pg.LRX n + LRX.CDR_STATUS) 0 = false ∧ t.rxState n = (if s.d.rxState n = 3 then 4 else s.d.rxState n)))
    ∧ (¬ at_ 0 → s.d.bit (Pg.LRX n + LRX.CDR_STATUS) 0 = false → Gives (.cdrLockChange n true) s (fun t =>
        Frame [] (fun a => a = Pg.LRX n + LRX.CDR_STATUS ∨ a = Pg.LSEQ (8 + n) + LSEQ.EVENT_PEND) s.d t
        ∧ t.rd (Pg.LRX n + LRX.CDR_STATUS) = withBit (s.d.rd (Pg.LRX n + LRX.CDR_STATUS)) 0 true
        ∧ t.bit (Pg.LSEQ (8 + n) + LSEQ.EVENT_PEND) 7 = true)))

/-- R87, R88, R90, R96: the commands of `LANE_CMD` in the states they apply in, and STATE_REJECT in the others.
The model's own choices and readings in it: log entries 6 and 31. -/
def Obligations.LaneCommands : Prop :=
  ∀ (s : State) (m : Master) (n : Lane), Admits s m (Pg.LRX n + LRX.LANE_CMD) →
    let st := s.d.rxState n
    (st = 6 → Gives (.laneCmdRetry m n) s (fun t => t.rxState n = 1 ∧ (t.rxl n).warmCal = true))
    ∧ (st ≠ 6 → Gives (.laneCmdRetry m n) s (Rejected m (Pg.LRX n + LRX.LANE_CMD) 0x0D s.d))
    ∧ (2 ≤ st ∧ st ≤ 4 → Gives (.laneCmdReacquire m n) s (fun t => t.rxState n = 2
        ∧ t.rd (Pg.LRX n + LRX.ACQ_COUNT) = s.d.rd (Pg.LRX n + LRX.ACQ_COUNT) + 1))
    ∧ (st < 2 ∨ 4 < st → Gives (.laneCmdReacquire m n) s (Rejected m (Pg.LRX n + LRX.LANE_CMD) 0x0D s.d))
    ∧ (st = 3 → Gives (.laneCmdWarm m n) s (fun t => t.rxState n = if (s.d.eligible n).isSome then 5 else 2))
    ∧ (st ≠ 3 → Gives (.laneCmdWarm m n) s (Rejected m (Pg.LRX n + LRX.LANE_CMD) 0x0D s.d)
        ∧ Gives (.laneCmdCkptNow m n false) s (Rejected m (Pg.LRX n + LRX.LANE_CMD) 0x0D s.d))
    ∧ (s.d.holder (0x010 + n) = masterId m → Gives (.laneCmdCkptClear m n) s (fun t =>
        t.fld (Pg.LRX n + LRX.CKPT_STATUS) 0 8 = 0 ∧ t.bit (Pg.LRX n + LRX.CKPT_STATUS) 11 = false ∧ t.eligible n = none
        ∧ Frame [.rx] (· = Pg.LRX n + LRX.CKPT_STATUS) s.d t))
    ∧ (s.d.holder (0x010 + n) = 0 → Gives (.laneCmdCkptClear m n) s (Rejected m (Pg.LRX n + LRX.LANE_CMD) 0x05 s.d))
    ∧ (s.d.bit (Pg.LRX n + LRX.LANE_STATE) 19 = true → Gives (.laneCmdProceed m n) s (fun t =>
        Frame [] (fun a => a = Pg.LRX n + LRX.LANE_STATE ∨ a = Pg.LSEQ (8 + n) + LSEQ.EVENT_PEND) s.d t
        ∧ t.rd (Pg.LRX n + LRX.LANE_STATE) = withBit (s.d.rd (Pg.LRX n + LRX.LANE_STATE)) 19 false
        ∧ t.bit (Pg.LSEQ (8 + n) + LSEQ.EVENT_PEND) 5 = true))

/-- R93 to R95: a save that is due in TRACK is made when the lane is settled and its SNR is at least `SNR_MIN`, and skipped
and counted otherwise; the save holds the adapted state, and one cut short leaves its slot invalid and is not counted.
R85, R103 to R107: the figures of a millisecond's report, frozen coefficients left alone; an eye scan from its start,
through its points, to its end or its abort.
The model's own choices and readings in it: log entries 16, 31, 60, 62 and 63. -/
def Obligations.LaneCheckpointsAndReports : Prop :=
  (∀ (s : State) (m : Master) (n : Lane), s.d.rxState n = 3 → s.d.laneWaits n = false →
    let b := Pg.LRX n
    let good : Prop := ((s.d.rxl n).tracked = true ∨ (s.d.rxl n).since + 1000000 ≤ s.d.mono) ∧ s.d.fld (b + LRX.CKPT_CTRL) 16 16 ≤ s.d.fld (b + LRX.QUALITY) 0 16
    let saved (t : Dev) : Prop := t.rd (b + LRX.CKPT_SAVES) = s.d.rd (b + LRX.CKPT_SAVES) + 1
      ∧ t.bit (b + LRX.CKPT_STATUS) (s.d.saveSlot n) = true ∧ (t.ckpts n).getD (s.d.saveSlot n) Dev.emptyCkpt = s.d.ckptNow n
    (Admits s m (b + LRX.LANE_CMD) → good → Gives (.laneCmdCkptNow m n false) s saved
      ∧ Gives (.laneCmdCkptNow m n true) s (fun t => t.rd (b + LRX.CKPT_SAVES) = s.d.rd (b + LRX.CKPT_SAVES)
        ∧ t.bit (b + LRX.CKPT_STATUS) (s.d.saveSlot n) = false))
    ∧ (s.d.fld (b + LRX.CKPT_CTRL) 0 16 ≠ 0 → good → (s.d.rxl n).unsettled = false → Gives (.ckptTick n false) s saved)
    ∧ (s.d.fld (b + LRX.CKPT_CTRL) 0 16 ≠ 0 → (s.d.rxl n).unsettled = true → Gives (.ckptTick n false) s (fun t =>
        t.rd (b + LRX.CKPT_SKIPS) = s.d.rd (b + LRX.CKPT_SKIPS) + 1 ∧ t.ckpts n = s.d.ckpts n ∧ (t.rxl n).unsettled = false)))
  ∧ (∀ (s : State) (m : Master) (n : Lane),
    let b := Pg.LRX n
    (∀ r : LaneReport, s.d.rxState n = 3 → Gives (.qualityUpdate n r) s (fun t =>
        t.fld (b + LRX.QUALITY) 0 16 = r.snr.toNat ∧ t.fld (b + LRX.QUALITY) 16 16 = r.ber.toNat
        ∧ (s.d.bit (b + LRX.AGC_CTRL) 16 = false → t.fld (b + LRX.AGC_STATUS) 0 16 = r.gain.toNat)
        ∧ (s.d.bit (b + LRX.AGC_CTRL) 16 = true → t.rd (b + LRX.AGC_STATUS) = s.d.rd (b + LRX.AGC_STATUS))
        ∧ (s.d.assisted b = true → ∀ k, k < 33 → t.rd (b + LRX.FFE_TAP + 4 * k) = s.d.rd (b + LRX.FFE_TAP + 4 * k))
        ∧ t.rxState n = 3))
    ∧ (Admits s m (b + LRX.EYE_CMD) → s.d.rxState n = 3 → s.d.bit (b + LRX.EYE_STATUS) 0 = false → s.d.eyeBad (b + LRX.EYE_CTRL) = true →
        Gives (.eyeStart m n) s (Rejected m (b + LRX.EYE_CMD) 0x0C s.d))
    ∧ (Admits s m (b + LRX.EYE_CMD) → s.d.rxState n ≠ 3 ∨ s.d.bit (b + LRX.EYE_STATUS) 0 = true →
        Gives (.eyeStart m n) s (Rejected m (b + LRX.EYE_CMD) 0x0D s.d))
    ∧ (Admits s m (b + LRX.EYE_CMD) → s.d.eyeBad (b + LRX.EYE_CTRL) = false → s.d.rxState n = 3 → s.d.bit (b + LRX.EYE_STATUS) 0 = false →
        s.d.fld (b + LRX.EYE_GRID) 0 6 ≠ 0 → s.d.fld (b + LRX.EYE_GRID) 8 6 ≠ 0 → Gives (.eyeStart m n) s (fun t =>
          t.rd (b + LRX.EYE_STATUS) = 1 ∧ t.eyeSet (b + LRX.EYE_CTRL) = (s.d.rd (b + LRX.EYE_CTRL), s.d.rd (b + LRX.EYE_GRID))
          ∧ (∀ k, k < 512 → t.rd (b + LRX.EYE_DATA + 4 * k) = 0)))
    ∧ (Admits s m (b + LRX.EYE_CMD) → s.d.bit (b + LRX.EYE_STATUS) 0 = true → Gives (.eyeAbort m n) s (fun t =>
        Frame [] (· = b + LRX.EYE_STATUS) s.d t ∧ t.bit (b + LRX.EYE_STATUS) 0 = false ∧ t.bit (b + LRX.EYE_STATUS) 2 = true))
    ∧ (∀ errors j, s.d.bit (b + LRX.EYE_STATUS) 0 = true → s.d.fld (b + LRX.EYE_STATUS) 16 11 = j → j < 1024 →
        Gives (.eyePointDone n errors) s (fun t => t.fld (b + LRX.EYE_DATA + 4 * (j / 2)) (16 * (j % 2)) 16 = eyeCount errors % 2 ^ 16
          ∧ t.fld (b + LRX.EYE_STATUS) 16 11 = j + 1
          ∧ (t.bit (b + LRX.EYE_STATUS) 0
              = decide (j + 1 < fieldOf (s.d.eyeSet (b + LRX.EYE_CTRL)).2 0 6 * fieldOf (s.d.eyeSet (b + LRX.EYE_CTRL)).2 8 6)))))

/-- R114 to R116, R119, R127, R129, R131, R133: what a decoded inner word and a decoded RS codeword count. A received inner
word that is a codeword is counted as one, and as nothing else. An uncorrectable RS codeword is flagged by its number and
marks the 160 blocks of its pair as errored, once.
R117 to R123, R128, R137: group, codeword and alignment lock gained and lost, markers and link faults received.
R133 to R136: the end of a degrade window, with its action in host-assisted and in hardware mode, and the port held
down and up.
The model's own choices and readings in it: log entries 20, 32, 64, 65, 67, 68 and 70. -/
def Obligations.LineDecoding : Prop :=
  (∀ (s : State) (n : Lane),
    let b := Pg.LFEC n
    let x := s.d.rxl n
    let room : Prop := s.d.rxState n = 3 ∧ x.winCw < (if x.winCw = 0 then (s.d.rd (b + LFEC.DEG_WINDOW)).toNat else x.degWin)
    let adds (k : Nat) (t : Dev) : Prop := room → (t.rd (b + LFEC.DEG_ACC)).toNat = min 0xFFFFFFFF ((s.d.rd (b + LFEC.DEG_ACC)).toNat + k)
    (∀ (r : BitVec 128) (rel : List (BitVec 4)), s.d.l453 (n / 4) = true → s.d.alignBit n 0 = true → innerSyndrome (onesOf r) = (0, 0) →
      Gives (.innerWordDecode n r rel) s (fun t => Frame [.rx] (fun a => a = b + LFEC.INNER_CW ∨ a = b + LFEC.INNER_CW + 4) s.d t
        ∧ t.wide (b + LFEC.INNER_CW) = (s.d.wide (b + LFEC.INNER_CW) + 1) % 2 ^ 48))
    ∧ (∀ line w, s.d.rxState n ≠ 0 → s.d.alignBit n 1 = true → s.d.nextCodeword n line = some w →
        Gives (.rsCodewordDecode n line) s (fun t =>
          let bad := (rsErrors w).isNone
          let found := ((rsErrors w).getD []).length
          t.wide (b + LFEC.RS_CW) = (s.d.wide (b + LFEC.RS_CW) + 1) % 2 ^ 48
          ∧ t.wide (b + LFEC.RS_UNC) = (s.d.wide (b + LFEC.RS_UNC) + bad.toNat) % 2 ^ 48
          ∧ t.wide (b + LFEC.RS_SYM) = (s.d.wide (b + LFEC.RS_SYM) + found) % 2 ^ 48
          ∧ (t.rxl n).recent = (bad :: x.recent).take 64 ∧ (t.rxl n).cwNo = x.cwNo + 1
          ∧ (t.rxl n).badCw = ((if bad then x.badCw ++ [x.cwNo] else x.badCw).filter (fun k => decide (x.cwNo < k + 1024)))
          ∧ t.rd (b + LFEC.BLK_ERR) = s.d.rd (b + LFEC.BLK_ERR)
              + (if bad = false ∨ (x.blockCw % 2 = 1 ∧ x.pairBad = true) then 0 else 160)
          ∧ adds (if bad then 16 else found) t ∧ Frame [.rx] (fun a => a / 0x1000 = 0x030 + n) s.d t))
    ∧ (∀ line, s.d.nextCodeword n line = none → Gives (.rsCodewordDecode n line) s (Frame [] (fun _ => False) s.d)))
  ∧ (∀ (s : State) (n : Lane),
    let b := Pg.LFEC n
    let a := b + LFEC.ALIGN_STATUS
    let x := s.d.rxl n
    let up : Prop := s.d.rxState n ≠ 0
    let thresh := s.d.fld (b + LFEC.ALIGN_CTRL) 0 8
    let len := s.d.fld (b + LFEC.ALIGN_CTRL) 16 16
    let lanes := s.d.lpLanes (s.d.linePort n)
    let marked (i : Nat) (at_ : Nat) : Prop := (s.d.rxl i).amAt = some at_
    (∀ symbols : List (Fin 4), up → s.d.l453 (n / 4) = true → s.d.alignBit n 0 = false →
        let first := (List.range 32).find? (fun o => (groupPasses (symbols.drop o)).all (fun k => decide (thresh ≤ k)))
        Gives (.groupHuntTest n symbols) s (fun t => Frame [.rx] (· = a) s.d t ∧ t.rd a = withBit (s.d.rd a) 0 first.isSome
          ∧ (t.rxl n).grpOffset = (first.map (fun o => 32 * x.huntPos + o)).getD x.grpOffset
          ∧ (t.rxl n).huntPos = (if first.isSome then 0 else (x.huntPos + 1) % 8)))
    ∧ (∀ i line l, up → s.d.l453 (n / 4) = false → s.d.alignBit n 1 = false → s.d.linePair n line = some l →
        Gives (.cwLockSearch n i line) s (fun t => Frame [.rx] (· = a) s.d t
          ∧ t.rd a = withBit (s.d.rd a) 1 (pairOk (s.d.flowFecLanes n) l)))
    ∧ (∀ i line, up → s.d.l453 (n / 4) = true → s.d.alignBit n 0 = true → s.d.alignBit n 1 = false → 135 ≤ x.groups.length →
        let first := (List.range 68).find? (fun g => boundaryOk (x.groups.drop g))
        let gone : Prop := first = none ∧ 3 ≤ x.cwFails
        Gives (.cwLockSearch n i line) s (fun t => Frame [.rx] (· = a) s.d t
          ∧ t.rd a = (if first.isSome then withBit (s.d.rd a) 1 true else if 3 ≤ x.cwFails then withBit (s.d.rd a) 0 false else s.d.rd a)
          ∧ (t.rxl n).groups = (if gone then [] else x.groups.drop (first.getD 68))
          ∧ (t.rxl n).blockAt = (first.map (fun g => i + 256 * g)).getD x.blockAt
          ∧ (t.rxl n).cwFails = (if first.isSome ∨ gone then 0 else x.cwFails + 1)))
    ∧ (up → s.d.alignBit n 1 = true → x.confirmed = false → len ≤ x.confN →
        (8 * x.confBad < len → s.d.alignBit n 2 = false → s.d.lpWidth (s.d.linePort n) = 1 → s.d.l453 (n / 4) = true →
          Gives (.alignConfirm n) s (fun t => t.alignBit n 2 = true ∧ t.alignBit n 4 = true ∧ t.bit (b + HDR.INT_STATUS) 8 = true))
        ∧ (len ≤ 8 * x.confBad → Gives (.alignConfirm n) s (fun t => Frame [.rx] (· = a) s.d t
            ∧ t.rd a = withBit (s.d.rd a) 1 false)))
    ∧ (∀ arrival e : Nat, up → s.d.alignBit n 3 = false → s.d.alignBit n 1 = true → n.val ∈ lanes →
        (∀ i ∈ lanes, i ≠ n → ∀ y, (s.d.rxl i).amAt = some y → min e arrival ≤ y) → (e < arrival → ∃ i ∈ lanes, i ≠ n ∧ marked i e) →
        (s.d.tooLate n (arrival - e) = false → Gives (.amLock n arrival) s (fun t => t.alignBit n 3 = true
          ∧ t.rd (b + LFEC.SKEW) = BitVec.ofNat 32 (2 ^ 31 + (arrival - e))))
        ∧ (s.d.tooLate n (arrival - e) = true → Gives (.amLock n arrival) s (fun t => t.alignBit n 3 = false ∧ t.alignBit n 2 = false
            ∧ t.rd (b + LFEC.DESKEW_ERRS) = s.d.rd (b + LFEC.DESKEW_ERRS) + 1)))
    ∧ (∀ (arrival peer : Nat) (ordered : Bool), s.d.alignBit n 2 = true → x.predict = true →
        let off := ((arrival : Int) - s.d.predicted n arrival peer).natAbs
        Gives (.deskewCheck n arrival peer ordered) s (fun t =>
          (4 < off ∨ ordered = false ∧ s.d.l453 (n / 4) = false → t.alignBit n 2 = false
            ∧ t.rd (b + LFEC.DESKEW_ERRS) = s.d.rd (b + LFEC.DESKEW_ERRS) + 1)
          ∧ (off ≤ 4 → ordered = true ∨ s.d.l453 (n / 4) = true → Frame [.rx] (fun _ => False) s.d t ∧ (t.rxl n).predict = false)))
    ∧ (s.d.alignBit n 2 = true → s.d.l453 (n / 4) = true → (∃ k ∈ x.grpFails, 8 ≤ k) → Gives (.alignLoss n .groupWindow) s (fun t =>
        t.alignBit n 0 = false ∧ t.alignBit n 2 = false ∧ t.rd (b + LFEC.ALIGN_LOSS) = s.d.rd (b + LFEC.ALIGN_LOSS) + 1
        ∧ (s.d.rxState n = 3 → t.rxState n = 4)))
    ∧ (s.d.alignBit n 2 = true → 48 ≤ (x.recent.filter id).length → Gives (.alignLoss n .uncorrectableRun) s (fun t =>
        t.alignBit n 2 = false ∧ t.rd (b + LFEC.ALIGN_LOSS) = s.d.rd (b + LFEC.ALIGN_LOSS) + 1 ∧ (s.d.rxState n = 3 → t.rxState n = 4)))
    ∧ (∀ lf rf, s.d.alignBit n 2 = true → Gives (.linkFaultReceived n lf rf) s (fun t => t.alignBit n 8 = lf ∧ t.alignBit n 9 = rf
        ∧ Frame [.rx] (fun x => x = a ∨ x = b + HDR.INT_STATUS) s.d t
        ∧ (s.d.alignBit n 8 ≠ lf ∨ s.d.alignBit n 9 ≠ rf → t.bit (b + HDR.INT_STATUS) 16 = true)))
    ∧ (∀ rd, s.d.alignBit n 2 = true → Gives (.amReceived n rd true) s (fun t => t.alignBit n 6 = rd
        ∧ Frame [.rx] (fun x => x = a ∨ x = b + HDR.INT_STATUS) s.d t))
    ∧ (∀ rd, s.d.alignBit n 3 = true → Gives (.amReceived n rd false) s (fun t =>
        t.rd (b + LFEC.AM_ERRS) = s.d.rd (b + LFEC.AM_ERRS) + 1
        ∧ Frame [] (fun x => x = b + LFEC.AM_ERRS ∨ x = b + HDR.INT_STATUS) s.d t)))
  ∧ (∀ (s : State) (m : Master) (n : Lane),
    let b := Pg.LFEC n
    let x := s.d.rxl n
    let acc := (s.d.rd (b + LFEC.DEG_ACC)).toNat
    let on : Prop := s.d.rxState n = 3 ∧ 0 < x.degWin ∧ x.winCw = x.degWin
    (on → s.d.alignBit n 5 = false → x.degSet ≤ acc → s.d.assisted b = true →
      Gives (.degWindowEnd n) s (fun t => t.alignBit n 5 = true ∧ t.rxState n = 3 ∧ t.rd (b + LFEC.DEG_ACC) = 0
        ∧ t.rd (b + LFEC.DEG_EVENTS) = s.d.rd (b + LFEC.DEG_EVENTS) + 1 ∧ t.bit (b + HDR.INT_STATUS) 10 = true))
    ∧ (on → s.d.alignBit n 5 = false → x.degSet ≤ acc → s.d.assisted b = false →
        s.d.portHeld (s.d.linePort n) = false → x.degBack = none → Gives (.degWindowEnd n) s (fun t =>
          t.rxState n = (if (s.d.eligible n).isSome then 5 else 2) ∧ t.rd (b + LFEC.DEG_EVENTS) = s.d.rd (b + LFEC.DEG_EVENTS) + 1))
    ∧ (on → s.d.alignBit n 5 = true → acc < x.degClr →
        Gives (.degWindowEnd n) s (fun t => t.alignBit n 5 = false ∧ t.rd (b + LFEC.DEG_ACC) = 0))
    ∧ (Admits s m (b + LFEC.DEG_CMD) → s.d.alignBit n 7 = false → Gives (.degCmdPortDown m n) s (fun t => t.alignBit n 7 = true
        ∧ t.rd (b + LFEC.PORT_HOLDS) = s.d.rd (b + LFEC.PORT_HOLDS) + 1))
    ∧ (Admits s m (b + LFEC.DEG_CMD) → Gives (.degCmdPortUp m n) s (fun t => t.alignBit n 7 = false)))

/-! ### Packets, classifier and flow state (05, 06) -/

/-- R10, R58, R193, R194, R204, R219, R508: a header window on a port that receives: that of a MAC control frame is consumed;
the packet is refused while the port is in the safe state and while the buffer guards, takes a journal slot and is counted
ENTERED while one is free, and waits without a slot in fallback or when the pool is used up.
R141 to R143, R153, R155, R156, R160, R173: the oldest window of a port is looked up: a hit brings the flow and profile
of the entry that holds its digest and makes that entry young, a miss what the port's miss registers name; the fill of a
record that the cache does not hold begins with it (R186); a full staging refuses the packet; a bucket reloaded holds what its
shadow entries give.
The model's own choices and readings in it: log entries 34 to 36, 68 and 73. -/
def Obligations.PacketAdmissionAndLookups : Prop :=
  (∀ (s : State) (p : Lane) (window : List Byte) (len : Nat) (rx : BitVec 80),
    let time := rx + BitVec.ofInt 80 (BitVec.ofNat 16 (s.d.fld (Pg.HOST p + HOST.TS_ADJ) 0 16)).toInt
    let x : Packet := { window := window.take (min 192 len), len := len, rxTime := time, slot := false, rest := [], refused := none,
                        unread := false, fetched := [], lookup := none, decided := none, last := none, timedOut := false }
    let control : Prop := natBE (window.take 6) = 0x0180C2000001 ∧ natBE (slice window 12 2) = 0x8808
    let joins (t : Dev) (y : Packet) : Prop := t.packets p = s.d.packets p ++ [y] ∧ ∀ q, q ≠ p.val → t.packets q = s.d.packets q
    let b := Dev.adBase p
    let come := Instr.headerWindowComplete p window len rx
    (s.d.receives p = false ∨ control → Gives come s (Frame [] (fun _ => False) s.d))
    ∧ (s.d.receives p = true → ¬ control →
      (s.d.lineSafe p = true → Gives come s (fun t => joins t { x with refused := some 7 } ∧ Frame [.flow] (fun _ => False) s.d t))
      ∧ (s.d.lineSafe p = false → s.d.guarded = true → Gives come s (fun t => joins t { x with refused := some 4 }
          ∧ Frame [.flow] (fun _ => False) s.d t))
      ∧ (s.d.lineSafe p = false → s.d.guarded = false → s.d.fallback p = true → Gives come s (fun t => joins t x
          ∧ Frame [.flow] (fun _ => False) s.d t))
      ∧ (s.d.lineSafe p = false → s.d.guarded = false → s.d.fallback p = false → s.d.slotPool p ≤ s.d.slotsUsed p →
          Gives come s (fun t => joins t x ∧ Raised 48 (b + ADMIT.SLOT_FULL) 1 s.d t
            ∧ t.bit (Pg.ADMIT (p.val / 4) + HDR.INT_STATUS) 20 = true))
      ∧ (s.d.lineSafe p = false → s.d.guarded = false → s.d.fallback p = false → s.d.slotsUsed p < s.d.slotPool p →
          Gives come s (fun t => joins t { x with slot := true } ∧ Raised 48 (b + ADMIT.ENTERED) 1 s.d t
            ∧ t.fld (b + ADMIT.PENDING) 0 11 = s.d.slotsUsed p + 1))))
  ∧ (∀ (s : State) (p : Lane) (pre post : List Packet) (x : Packet),
    let cfg := s.d.rd (Pg.CLS + CLS.PORT_KEY + 4 * p.val)
    let parsed := parse x.window (fieldOf cfg 0 2) (s.d.fld (Pg.CLS + CLS.CLS_CTRL) 16 16)
    let key := buildKey parsed p cfg
    let d := s.d.digestOf key
    let miss := Pg.CLS_MISS + 16 * p.val
    let serves : Prop := s.d.indexOff (bucketA d) = false ∧ s.d.indexOff (bucketB d) = false
    let took (l : Lookup) : Packet := { x with lookup := some l, fetched := if s.d.resident l.flow then [] else [l.flow] }
    (Leads (fun y => y.admitted && y.lookup.isNone) pre x post (s.d.packets p) →
      (∀ i, serves → s.d.findEnt d = some i → Gives (.classifierLookup p false [] []) s (fun t => ∃ l : Lookup,
        t.packets p = pre ++ took l :: post ∧ l.hit = true ∧ l.flow = (s.d.entry i).flow
        ∧ l.ops = s.d.profileOps (s.d.entry i).profile ∧ l.key = key ∧ l.digest = d
        ∧ Raised 48 (Pg.CLS + CLS.LOOKUPS) 1 s.d t ∧ Raised 48 (Pg.CLS + CLS.HITS) 1 s.d t
        ∧ t.sram i = if (s.d.entry i).age = 15 then s.d.sram i else (s.d.entry i).setAge 0))
      ∧ (serves → s.d.findEnt d = none → Gives (.classifierLookup p false [] []) s (fun t => ∃ l : Lookup,
        t.packets p = pre ++ took l :: post ∧ l.hit = false ∧ l.key = key ∧ l.digest = d
        ∧ l.flow = s.d.fld (miss + CLS_MISS.DEF_FLOW) 0 25 ∧ l.ops = s.d.profileOps (s.d.fld (miss + CLS_MISS.MISS_CFG) 0 10)
        ∧ Raised 48 (Pg.CLS + CLS.LOOKUPS) 1 s.d t ∧ Raised 48 (Pg.CLS + CLS.MISSES) 1 s.d t))
      ∧ (∀ busy ecc, x.last = none → Gives (.classifierLookup p true busy ecc) s (fun t =>
        t.packets p = pre ++ { x with refused := some 5, slot := false } :: post))
      ∧ (∀ busy ecc, x.last ≠ none → Gives (.classifierLookup p true busy ecc) s (fun t => t.packets p = pre ++ post
        ∧ Raised 48 (Pg.DROP + 0x100 + 0xA0 * p.val + 0x10 * 5) 1 s.d t)))
    ∧ (∀ (bank : Fin 8) (bucket : BitVec 17), Gives (.bucketReload bank bucket) s (fun t =>
        (∀ w, w < 4 → t.sram (524288 * bank.val + 4 * bucket.toNat + w)
          = (s.d.reloadEnt (524288 * bank.val + 4 * bucket.toNat + w)).getD 0)
        ∧ Counted (Dev.bankBase bank + CLS_BANK.ECC_UNC) s.d t ∧ Counted (Dev.bankBase bank + CLS_BANK.RELOADS) s.d t
        ∧ t.bit (Pg.CLS_BANK (bank.val / 2) + HDR.INT_STATUS) (8 + bank.val % 2) = true)))

/-- R186 to R190, R226: the next meter decision of a port for a packet that holds a slot: a record that cannot be read
leaves it unread; one that the cache does not hold is filled first; otherwise colour and tokens follow the meter mode of its profile, from the record refilled at this
instant, and the record loses what was taken.
R127, R129, R141, R195 to R199, R202, R204: the last byte of a packet brings its verdict; the oldest packet of a port is committed
when decided and good, revoked under its cause when bad, and revoked as TIMEOUT when undecided too long.
The model's own choices and readings in it: log entries 36, 75 and 82. -/
def Obligations.MeterDecisionsAndVerdicts : Prop :=
  (∀ (s : State) (p : Lane) (pre post : List Packet) (x : Packet) (l : Lookup),
    Leads (s.d.mayDecide p) pre x post (s.d.packets p) → x.lookup = some l → x.slot = true →
      let aliased : Bool := l.hit && !s.d.keyMatches l.flow l.key
      let needs := if aliased then [l.flow, l.defFlow] else [l.flow]
      let lost : Prop := x.unread = true ∨ ∃ g ∈ needs, s.d.relocating g = true
      let dflt : Bool := !l.hit || aliased
      let f := if dflt then l.defFlow else l.flow
      let a := evalOps (if dflt then l.defOps else l.ops) Action.init
      let r := refill a.mode s.d.now40 (s.d.flowRec f)
      let c0 := if a.aware = true ∨ a.mode = 0 then a.colour else 0
      (lost → Gives (.meterDecision p) s (fun t =>
        t.packets p = pre ++ { x with decided := some { Dev.noDecision with unread := true } } :: post
        ∧ Counted (Pg.FLOW + FLOW.KEY_UNREAD) s.d t ∧ t.bit (Pg.FLOW + HDR.INT_STATUS) 10 = true))
      ∧ (¬ lost → s.d.resident l.flow = false → l.flow ∉ x.fetched → Gives (.meterDecision p) s (fun t =>
        t.packets p = pre ++ { x with fetched := l.flow :: x.fetched } :: post ∧ t.filling l.flow = true
        ∧ Frame [.flow, .buf] (fun _ => False) s.d t))
      ∧ (¬ lost → (∀ g ∈ needs, s.d.resident g = true) →
          Gives (.meterDecision p) s (fun t => ∃ c : Decision,
            t.packets p = pre ++ { x with decided := some c } :: post ∧ c.flow = f ∧ c.aliased = aliased ∧ c.cls = a.cls
            ∧ c.queue = 8 * p.val + a.cls ∧ c.drop.isSome = !c.recNo.isSome
            ∧ (c.colour, c.takenC, c.takenE) = meter a.mode c0 (r.get Rec.TC) (r.get Rec.TE) (x.len * 2 ^ 16)
            ∧ (a.mode = 0 → t.flowRec f = s.d.flowRec f)
            ∧ (a.mode ≠ 0 → (t.flowRec f).get Rec.TC = r.get Rec.TC - c.takenC ∧ (t.flowRec f).get Rec.TE = r.get Rec.TE - c.takenE))))
  ∧ (∀ (s : State) (p : Lane) (pre post : List Packet) (x : Packet),
    let b := Dev.adBase p
    (Leads (fun y => y.last.isNone) pre x post (s.d.packets p) → ∀ rest spans invalid,
      let bad := s.d.badLanes spans
      let v : LastByte := { badLanes := bad, pcs := decide (invalid ≠ 0 ∨ bad ≠ []), fcs := fcsBad (x.window ++ rest) }
      (∀ r, r < 10 → x.refused = some r → Gives (.packetLastByte p rest spans invalid) s (fun t => t.packets p = pre ++ post
        ∧ Raised 48 (Pg.DROP + 0x100 + 0xA0 * p.val + 0x10 * r) 1 s.d t))
      ∧ (x.refused = none → x.slot = true → Gives (.packetLastByte p rest spans invalid) s (fun t =>
          t.packets p = pre ++ { x with rest := rest, last := some v } :: post
          ∧ t.rd (Pg.LFEC p + LFEC.BLK_ERR) = s.d.rd (Pg.LFEC p + LFEC.BLK_ERR) + BitVec.ofNat 32 invalid
          ∧ Frame [.flow] (· = Pg.LFEC p + LFEC.BLK_ERR) s.d t))
      ∧ (x.refused = none → x.slot = false → pre = [] → x.lookup ≠ none → bad ≠ [] → Gives (.packetLastByte p rest spans invalid) s (fun t =>
          t.packets p = post ∧ Raised 48 (b + ADMIT.SF_REJECTED) 1 s.d t)))
    ∧ (Leads Packet.admitted pre x post (s.d.packets p) →
      (∀ l c v, x.last = some v → x.cause = none → x.lookup = some l → x.decided = some c → Gives (.packetCommit p) s (fun t =>
        t.packets p = pre ++ post
        ∧ Raised 48 (if x.slot then b + ADMIT.COMMITTED else b + ADMIT.SF_ADMITTED) 1 s.d t
        ∧ (∀ n, c.recNo = some n → ∀ r ∈ (t.queue c.queue).recs, r.num = n → r.committed = true)
        ∧ ((s.d.setLines (Dev.cacheSet c.flow)).length ≤ 8 → (s.d.setLines (Dev.cacheSet c.hitFlow)).length ≤ 8 →
            c.unread = false → c.aliased = false →
            (t.flowRec c.flow).get Rec.STATE = 2
            ∧ (c.countFlow = true → (t.flowRec c.flow).get Rec.PKTS = ((s.d.flowRec c.flow).get Rec.PKTS + 1) % 2 ^ 40
              ∧ (t.flowRec c.flow).get Rec.BYTES = ((s.d.flowRec c.flow).get Rec.BYTES + x.len) % 2 ^ 56
              ∧ (t.flowRec c.flow).get Rec.LAST_SEEN = s.d.coarse))))
      ∧ (∀ l k, x.cause = some k → x.lookup = some l → Gives (.packetRevoke p) s (fun t => t.packets p = pre ++ post
        ∧ Raised 48 (if x.slot then b + ADMIT.REV_FEC + 8 * k else b + ADMIT.SF_REJECTED) 1 s.d t
        ∧ (l.learn = true → ∀ r ∈ t.cls.learns, r.digest ≠ l.digest)))
      ∧ (∀ l, x.last ≠ none → x.decided = none → x.cause = none → x.lookup = some l → Gives (.verdictTimeout p) s (fun t =>
          t.packets p = pre ++ post ∧ Raised 48 (if x.slot then b + ADMIT.REV_TIMEOUT else b + ADMIT.SF_REJECTED) 1 s.d t))))

/-- R202, R205 to R207: a fallback window of a lane in hardware mode enters fallback on its bad packets and leaves it after
enough good windows; the commands of the host; a snapshot of the counters. A port that enters or leaves fallback sends FAULT
frames on its lanes (10, R310), so that the Lantern queues and pages may change.
The model's own choices and readings in it: log entry 36. -/
def Obligations.FallbackAndSnapshots : Prop :=
  ∀ (s : State) (m : Master) (n : Lane) (i : Slice),
    let pg := Pg.ADMIT (n.val / 4)
    let bad := s.d.fld (Dev.adBase n + ADMIT.FB_WIN) 0 16
    let good := s.d.fld (Dev.adBase n + ADMIT.FB_WIN) 16 16
    let enter := s.d.fld (pg + ADMIT.FB_ENTER) 0 16
    let exit := s.d.fld (pg + ADMIT.FB_EXIT) 0 16
    let there (a : Nat) : Prop := a / 0x1000 = pg / 0x1000 ∨ ∃ k : Lane, a / 0x1000 = Pg.LANTERN k / 0x1000
    (s.d.fld (pg + ADMIT.FB_WINDOW) 0 16 ≠ 0 →
      (s.d.fbBit n 0 = false → enter ≠ 0 → enter ≤ bad → s.d.assisted pg = false → Gives (.fbWindowEnd n) s (fun t =>
        t.fbBit n 0 = true ∧ Counted (Dev.adBase n + ADMIT.FB_EVENTS) s.d t ∧ t.bit (pg + HDR.INT_STATUS) (8 + n.val % 4) = true
        ∧ t.rd (Dev.adBase n + ADMIT.FB_WIN) = 0))
      ∧ (s.d.fbBit n 0 = false → enter ≠ 0 → enter ≤ bad → s.d.assisted pg = true → Gives (.fbWindowEnd n) s (fun t =>
        t.fbBit n 0 = false ∧ t.fbBit n 2 = true ∧ t.bit (pg + HDR.INT_STATUS) (16 + n.val % 4) = true))
      ∧ (s.d.fbBit n 0 = false → enter = 0 ∨ bad < enter → Gives (.fbWindowEnd n) s (fun t => t.fbBit n 0 = false
        ∧ t.rd (Dev.adBase n + ADMIT.FB_WIN) = 0 ∧ Frame [] (· = Dev.adBase n + ADMIT.FB_WIN) s.d t))
      ∧ (s.d.fbBit n 0 = true → s.d.fbBit n 1 = false → bad < exit → s.d.fld (pg + ADMIT.FB_HOLD) 0 8 ≤ good + 1 →
          good + 1 ≤ 0xFFFF → s.d.assisted pg = false → Gives (.fbWindowEnd n) s (fun t => t.fbBit n 0 = false
        ∧ t.bit (pg + HDR.INT_STATUS) (12 + n.val % 4) = true))
      ∧ (s.d.fbBit n 0 = true → exit ≤ bad → s.d.fld (pg + ADMIT.FB_HOLD) 0 8 ≠ 0 → Gives (.fbWindowEnd n) s (fun t =>
        t.fbBit n 0 = true ∧ t.rd (Dev.adBase n + ADMIT.FB_WIN) = 0)))
    ∧ (Admits s m (pg + ADMIT.FB_CMD) →
        Gives (.fbCmdEnter m n) s (fun t => t.fbBit n 0 = true ∧ t.fbBit n 1 = true ∧ t.fbBit n 2 = false
          ∧ t.rd (Dev.adBase n + ADMIT.FB_EVENTS) = s.d.rd (Dev.adBase n + ADMIT.FB_EVENTS) + (if s.d.fbBit n 0 then 0 else 1)
          ∧ Frame [.lt] there s.d t)
        ∧ Gives (.fbCmdExit m n) s (fun t => t.fbBit n 0 = false ∧ t.fbBit n 1 = false ∧ t.fbBit n 2 = false
          ∧ Frame [.lt] there s.d t))
    ∧ (Admits s m (Pg.ADMIT i + ADMIT.SNAP_CMD) → Gives (.admitSnap m i) s (fun t =>
        (∀ j, j < 128 → t.rd (Pg.ADMIT i + 0x500 + 4 * j) = s.d.rd (Pg.ADMIT i + 0x100 + 4 * j))
        ∧ Frame [] (fun a => Pg.ADMIT i + 0x500 ≤ a ∧ a < Pg.ADMIT i + 0x700) s.d t))

/-- R158 to R163: profile words staged and committed together, or rejected; the learn range applied, IDs pushed one by one, a
learn request of a committed packet handled: learned into the free way of its bucket, found already there, or without an
ID.
The model's own choices and readings in it: log entry 35. -/
def Obligations.ProfilesAndLearning : Prop :=
  ∀ (s : State) (m : Master) (p : Fin 1024) (w : Fin 7) (v : Word) (l : Learn),
    let word (j : Nat) : Word :=
      if j = 7 then v else (Sparse.get (fun _ => none) s.d.cls.staged (Dev.profKey m p j)).getD (s.d.profileOp p j)
    let mine := Pg.CLS_MISS
    let base := s.d.fld (mine + CLS_MISS.LEARN_BASE) 0 25
    let n := s.d.fld (mine + CLS_MISS.LEARN_COUNT) 0 26
    let taken (t : Dev) : Prop := t.cls.learns = s.d.cls.learns.erase l
    (AdmitsBulk s m 0x060 →
      Gives (.profileWordWrite m p w v) s (fun t => Sparse.get (fun _ => none) t.cls.staged (Dev.profKey m p w) = some v
        ∧ (∀ i, t.profileOps i = s.d.profileOps i) ∧ Frame [.cls] (fun _ => False) s.d t)
      ∧ ((∀ j, j < 8 → Dev.opBad (word j) = false) → Gives (.profileCommit m p v) s (fun t =>
          (∀ j, j < 8 → t.profileOp p j = word j) ∧ (∀ i, i ≠ p.val → t.profileOps i = s.d.profileOps i)
          ∧ t.fld (Pg.CLS_PROF + CLS_PROF.PROF_STATUS) 0 10 = p
          ∧ ∀ j, j < 7 → Sparse.get (fun _ => none) t.cls.staged (Dev.profKey m p j) = none))
      ∧ ((∃ j, j < 8 ∧ Dev.opBad (word j) = true) → Gives (.profileCommit m p v) s (fun t =>
          (∀ i, t.profileOps i = s.d.profileOps i) ∧ Counted (Pg.CLS_PROF + CLS_PROF.PROF_REJECTS) s.d t
          ∧ t.fld (0x060 * 0x1000 + HDR.ERR_INFO) 22 8 = 0x0C
          ∧ ∀ j, j < 7 → Sparse.get (fun _ => none) t.cls.staged (Dev.profKey m p j) = none)))
    ∧ (Admits s m (mine + CLS_MISS.LEARN_CMD) → base + n ≤ 2 ^ 25 → Gives (.learnInit m) s (fun t => t.cls.fifo = []
        ∧ t.cls.cursor = base ∧ t.cls.cursorEnd = base + n ∧ ∀ f, t.learned f = decide (base ≤ f ∧ f < base + n)))
    ∧ (Admits s m (mine + CLS_MISS.LEARN_CMD) → 2 ^ 25 < base + n →
        Gives (.learnInit m) s (Rejected m (mine + CLS_MISS.LEARN_CMD) 0x0C s.d))
    ∧ (s.d.cls.fifo.length < 2048 → s.d.cls.cursor < s.d.cls.cursorEnd → Gives .freeIdRefill s (fun t =>
        t.cls.fifo = s.d.cls.fifo ++ [s.d.cls.cursor] ∧ t.cls.cursor = s.d.cls.cursor + 1
        ∧ t.fld (mine + CLS_MISS.LEARN_POOL) 0 13 = s.d.cls.fifo.length + 1))
    ∧ (∀ i, s.d.cls.learns.find? (fun r => r.ready) = some l → (s.d.cls.lastTurn = some true → s.d.cls.updates = []) →
        s.d.freeWay (bucketA l.digest) = some i →
        (∀ f rest, s.d.findEnt l.digest = none → s.d.cls.fifo = f :: rest → Gives .learnApply s (fun t => taken t
          ∧ t.cls.fifo = rest ∧ Counted (mine + CLS_MISS.LEARNED) s.d t
          ∧ t.entry i = mkEnt l.digest f (s.d.fld (mine + 0x100 + 16 * l.port) 16 10) 0
          ∧ t.keyRec f = { key := l.key, valid := true, digest := l.digest }
          ∧ t.flowRec f = s.d.template.set Rec.LEARNED 1))
        ∧ (s.d.findEnt l.digest = none → s.d.cls.fifo = [] → Gives .learnApply s (fun t => taken t
          ∧ Counted (mine + CLS_MISS.LEARN_NOID) s.d t ∧ t.cls.table = s.d.cls.table))
        ∧ (s.d.findEnt l.digest ≠ none → Gives .learnApply s (fun t => taken t
          ∧ Counted (mine + CLS_MISS.LEARN_EXISTS) s.d t ∧ t.cls.table = s.d.cls.table)))

/-- R165 to R169, R506: descriptors taken into the update engine, refused while one runs; what each operation of the
descriptor at its head does when its checks pass and no learn request fences it off: NOP nothing, INSERT an absent key into the free way of its bucket, INSERT of
a present one status 1, REPLACE and MODIFY the entry of the key, DELETE its valid bit.
R172 to R174, R177, R178 and the registers of `RD_CMD`: an entry read into the data registers; an aging pass without a
limit makes every aging entry that the SRAM serves one older; a restore takes every entry from its shadow, bank by bank.
The model's own choices and readings in it: log entries 21, 35 and 72. -/
def Obligations.TableUpdatesAndMaintenance : Prop :=
  (∀ (s : State) (m : Master) (b : List Byte) (after : List (BitVec 40)) (rest : List UpdJob),
    let u := Pg.CLS_UPD
    let st := u + CLS_UPD.UPD_STATUS
    let w0 := natLE (slice b 0 4)
    let key := slice b 16 (w0 / 2 ^ 16 % 2 ^ 8)
    let d := s.d.digestOf key
    let flow := natLE (slice b 4 4) % 2 ^ 25
    let prof := natLE (slice b 8 4) % 2 ^ 10
    let static : Bool := (natLE (slice b 8 4)).testBit 31
    let ready := (s.d.cls.learns.filter (fun l => l.ready)).map Learn.digest
    let done (t : Dev) (k : Nat) : Prop := t.cls.updates = rest ∧ t.fld st 16 8 = k ∧ t.bit st 31 = true
      ∧ Counted (u + CLS_UPD.UPDATES) s.d t ∧ (t.rd (u + CLS_UPD.UPD_TAG)).toNat = w0 % 2 ^ 16
    let count := s.d.fld (u + CLS_UPD.STAGE_RANGE) 16 13
    (Admits s m (u + CLS_UPD.UPD_CMD) →
      (s.d.updRuns = false → Gives (.updGo m) s (fun t => t.bit st 31 = false
        ∧ t.cls.updates = s.d.cls.updates ++ [{ source := .go, bytes := s.d.descBytes, after := ready }]))
      ∧ (s.d.updRuns = false → count ≠ 0 → Gives (.stageGo m) s (fun t => t.bit st 31 = false
        ∧ t.cls.updates.length = s.d.cls.updates.length + count))
      ∧ (s.d.updRuns = false → count = 0 → Gives (.stageGo m) s (fun t => t.bit st 30 = true ∧ t.bit st 31 = true
        ∧ t.cls.updates = s.d.cls.updates))
      ∧ (s.d.updRuns = true → Gives (.updGo m) s (Rejected m (u + CLS_UPD.UPD_CMD) 0x0D s.d)
        ∧ Gives (.stageGo m) s (Rejected m (u + CLS_UPD.UPD_CMD) 0x0D s.d)))
    ∧ (s.d.cls.updates = { source := .go, bytes := b, after := after } :: rest →
        ((natLE (slice b 0 4)).testBit 27 = true → ∀ l ∈ s.d.cls.learns, l.ready = true → l.digest ∉ after) →
        (s.d.cls.lastTurn = some false → ∀ l ∈ s.d.cls.learns, l.ready = false) →
      (Dev.descOp b = 0 → s.d.descCheck b = some 0 → Gives .updateNop s (fun t => done t 0 ∧ t.cls.table = s.d.cls.table))
      ∧ (∀ k, 4 < Dev.descOp b → s.d.descCheck b = some k → Gives .updateNop s (fun t => done t k ∧ t.cls.table = s.d.cls.table))
      ∧ (s.d.descCheck b = none →
        (∀ i, Dev.descOp b = 1 → s.d.findEnt d = none → w0 / 2 ^ 24 % 4 = 0 → s.d.freeWay (bucketA d) = some i →
          Gives .updateInsert s (fun t => done t 0 ∧ t.entry i = mkEnt d flow prof (if static then 15 else 0)
            ∧ t.keyRec flow = { key := key, valid := true, digest := d }))
        ∧ (∀ i, Dev.descOp b = 1 → s.d.findEnt d = some i → Gives .updateInsert s (fun t => done t 1 ∧ t.cls.table = s.d.cls.table))
        ∧ (∀ i, Dev.descOp b = 2 → s.d.findEnt d = some i → Gives .updateReplace s (fun t => done t 0
          ∧ t.entry i = mkEnt d flow prof (if static then 15 else 0)))
        ∧ (∀ i, Dev.descOp b = 3 → s.d.findEnt d = some i → Gives .updateModify s (fun t => done t 0
          ∧ (t.entry i).flow = flow ∧ (t.entry i).profile = prof ∧ (t.entry i).valid = true))
        ∧ (Dev.descOp b = 3 → s.d.findEnt d = none → Gives .updateModify s (fun t => done t 2 ∧ t.cls.table = s.d.cls.table))
        ∧ (∀ i, Dev.descOp b = 4 → s.d.findEnt d = some i → Gives .updateDelete s (fun t => done t 0
          ∧ (t.entry i).valid = false ∧ ∀ j, j ≠ i → t.entry j = s.d.entry j)))))
  ∧ (∀ (s : State) (m : Master),
    let i := s.d.fld (Pg.CLS_UPD + CLS_UPD.RD_INDEX) 0 23 % 4194304
    let st := Pg.CLS + CLS.RESTORE_STATUS
    (Admits s m (Pg.CLS_UPD + CLS_UPD.RD_CMD) →
      Gives (.rdCmdRead m) s (fun t => t.bit (Pg.CLS_UPD + HDR.INT_STATUS) 11 = true
        ∧ ∀ k, k < 4 → (t.rd (Pg.CLS_UPD + CLS_UPD.RD_DATA + 4 * k)).toNat = (s.d.sram i).toNat / 2 ^ (32 * k) % 2 ^ 32)
      ∧ Gives (.rdCmdReadShadow m) s (fun t => t.bit (Pg.CLS_UPD + HDR.INT_STATUS) 11 = true
        ∧ ∀ k, k < 4 → (t.rd (Pg.CLS_UPD + CLS_UPD.RD_DATA + 4 * k)).toNat = (s.d.shadowAt i).toNat / 2 ^ (32 * k) % 2 ^ 32))
    ∧ (s.d.fld (Pg.CLS + CLS.AGE_CTRL) 0 16 ≠ 0 → s.d.fld (Pg.CLS + CLS.AGE_CTRL) 16 8 = 0 → Sparse.wf (fun _ => 0) s.d.cls.table = true →
        Gives .agingPass s (fun t => t.bit (Pg.CLS + HDR.INT_STATUS) 8 = true
          ∧ ∀ j, t.sram j = if (s.d.sram j).valid = true ∧ (s.d.sram j).age < 14 ∧ s.d.indexOff j = false
              then (s.d.sram j).setAge ((s.d.sram j).age + 1) else s.d.sram j))
    ∧ (Admits s m (Pg.CLS + CLS.RESTORE_CMD) →
        (s.d.bit st 30 = false → Gives (.restoreStart m) s (fun t => t.rd st = 0x40000000
          ∧ t.bit (Dev.bankBase 0 + CLS_BANK.BANK_STATUS) 1 = true))
        ∧ (s.d.bit st 30 = true → Gives (.restoreStart m) s (Rejected m (Pg.CLS + CLS.RESTORE_CMD) 0x0D s.d)))
    ∧ (∀ bank : Fin 8, s.d.bit st 30 = true → s.d.cls.restoreAt ≤ bank →
        let done (b : Nat) : Prop := s.d.cls.restoreAt ≤ b ∧ b ≤ bank
        Gives (.restoreDone bank) s (fun t => (∀ b, done b → t.bankOff b = false)
          ∧ (∀ j, done (j / 524288) → t.sram j = (s.d.reloadEnt j).getD 0)
          ∧ (bank = 7 → t.rd st = 0x80000000 ∧ t.bit (Pg.CLS + HDR.INT_STATUS) 10 = true)
          ∧ (bank < 7 → t.rd st = s.d.rd st ∧ t.bit (Dev.bankBase (bank + 1) + CLS_BANK.BANK_STATUS) 1 = true))))

/-- R182 to R185, R208: words of a flow record staged and committed together; records of a range written from the template or
their keys invalidated; the cache flushed; a visit of the sweep that neither exports nor refreshes.
The model's own choices and readings in it: log entries 7 and 36. -/
def Obligations.FlowRecords : Prop :=
  ∀ (s : State) (m : Master) (i : Fin 8192) (w : Fin 15) (v : Word),
    let f := s.d.windowFlow i
    let id := (masterId m).toNat
    let staged (t : Dev) (j : Nat) : Option Word := Sparse.get (fun _ => none) t.flow.staged (Dev.recStageKey m j)
    let first := s.d.fld (Pg.FLOW + FLOW.INIT_FIRST) 0 25
    let n := s.d.fld (Pg.FLOW + FLOW.INIT_COUNT) 0 26
    let st := Pg.FLOW + FLOW.INIT_STATUS
    let inside (g : Nat) : Prop := first ≤ g ∧ g < first + n
    (AdmitsBulk s m 0x070 →
      (Sparse.get (fun _ => none) s.d.flow.stagedFor id = none ∨ Sparse.get (fun _ => none) s.d.flow.stagedFor id = some f →
        Gives (.recordWordStage m i w v) s (fun t => staged t w = some v ∧ (∀ j, j < 16 → j ≠ w.val → staged t j = staged s.d j)
          ∧ Sparse.get (fun _ => none) t.flow.stagedFor id = some f ∧ (∀ g, t.flowRec g = s.d.flowRec g)
          ∧ Frame [.flow] (fun _ => False) s.d t)
        ∧ Gives (.recordWordCommit m i v) s (fun t => (∀ j, j < 15 → (t.flowRec f).word j = (staged s.d j).getD ((s.d.flowRec f).word j))
          ∧ (t.flowRec f).word 15 = v &&& 0xFFFFFF3F ∧ (∀ g, g ≠ f → t.flowRec g = s.d.flowRec g) ∧ ∀ j, j < 16 → staged t j = none))
      ∧ (∀ g, g ≠ f → Sparse.get (fun _ => none) s.d.flow.stagedFor id = some g → Gives (.recordWordStage m i w v) s (fun t =>
          staged t w = some v ∧ (∀ j, j < 16 → j ≠ w.val → staged t j = none) ∧ Counted (Pg.FLOW + FLOW.STAGE_DISCARD) s.d t)))
    ∧ (Admits s m (Pg.FLOW + FLOW.INIT_CMD) →
        (first + n ≤ 2 ^ 25 → s.d.bit st 29 = false → n ≠ 0 →
          Gives (.initState m) s (fun t => (t.rd st).toNat = 2 ^ 29 + n ∧ (∀ g, inside g → t.flowRec g = s.d.template)
            ∧ ∀ g, ¬ inside g → t.flowRec g = s.d.flowRec g)
          ∧ Gives (.initKeys m) s (fun t => (t.rd st).toNat = 2 ^ 29 + n ∧ (∀ g, inside g → t.keyRec g = KeyRec.init)
            ∧ (∀ g, ¬ inside g → t.keyRec g = s.d.keyRec g) ∧ ∀ g, t.flowRec g = s.d.flowRec g))
        ∧ (2 ^ 25 < first + n → s.d.bit st 29 = false → Gives (.initState m) s (Rejected m (Pg.FLOW + FLOW.INIT_CMD) 0x0C s.d)
          ∧ Gives (.initKeys m) s (Rejected m (Pg.FLOW + FLOW.INIT_CMD) 0x0C s.d))
        ∧ (s.d.bit st 29 = true → Gives (.initState m) s (Rejected m (Pg.FLOW + FLOW.INIT_CMD) 0x0D s.d)))
    ∧ (s.d.bit st 29 = true → Gives .initDone s (fun t => t.bit st 31 = true ∧ t.bit st 29 = false
        ∧ t.bit (Pg.FLOW + HDR.INT_STATUS) 8 = true))
    ∧ (Admits s m (Pg.FLOW + FLOW.CACHE_CMD) → Gives (.cacheFlush m) s (fun t => t.bit (Pg.FLOW + FLOW.CACHE_STATUS) 31 = true
        ∧ (∀ l ∈ t.flow.cache, l.dirty = false) ∧ ∀ g, t.flowRec g = s.d.flowRec g))
    ∧ (s.d.bit (Pg.FLOW + FLOW.CACHE_STATUS) 31 = true → Gives .cacheFlushDone s (fun t =>
        t.bit (Pg.FLOW + FLOW.CACHE_STATUS) 31 = false ∧ t.bit (Pg.FLOW + HDR.INT_STATUS) 9 = true))
    ∧ (s.d.fld (Pg.FEXP + FEXP.SWEEP_PERIOD) 0 8 = 0 → sinceRefill s.d.now40 (s.d.flowRec s.d.flow.sweep) < 2 ^ 38 →
        s.d.flow.sweep < 2 ^ 25 → Gives .sweepVisit s (fun t => t.flow.sweep = (s.d.flow.sweep + 1) % 2 ^ 25
          ∧ (∀ g, t.flowRec g = s.d.flowRec g)
          ∧ (s.d.flow.sweep + 1 < 2 ^ 25 → (t.rd (Pg.FEXP + FEXP.SWEEP_STATUS)).toNat = 2 ^ 31 + (s.d.flow.sweep + 1))
          ∧ (s.d.flow.sweep + 1 = 2 ^ 25 → t.bit (Pg.FEXP + HDR.INT_STATUS) 8 = true)))

/-! ### Packet buffer and queues (07) -/

/-- R225, R229 to R233, R255, R257: the packet that the class and line-port levels name leaves its queue for its host port;
the heads behind it that are void or out of reach are passed; a selected packet whose record has been read leaves with its tag,
without its FCS and with the FCS over both; MAC control frames are told by their destination (R256), their codewords counted; PFC frames pause and release priorities, other control
frames are counted; a pause ends.
The model's own choices and readings in it: log entries 37, 38 and 77. -/
def Obligations.Dequeue : Prop :=
  ∀ (s : State) (lane : Lane) (f : MacControl) (fec : HostFec) (r : BufRec),
    let h := s.d.hostPort lane
    let b := schBase h
    let rs := Pg.HOST h + HOST.RS_CORR
    let un := Pg.HOST h + HOST.RS_UNC
    let codewords (t : Dev) : Prop := t.rd rs = s.d.rd rs + BitVec.ofNat 32 fec.corrected
      ∧ t.rd un = s.d.rd un + BitVec.ofNat 32 fec.uncorrectable
    (∀ c cls p lp, s.d.hostUp h = true →
      (∀ p' ∈ s.d.servedPorts h, ∀ c', c' < 8 → (s.d.queue (8 * p' + c')).recs.takeWhile s.d.passed = []) →
      s.d.clsNext h = some (c, cls) → s.d.lpNext h c = some (p, lp) → s.d.headRec (8 * p + c) = some r →
      ((s.d.queue (8 * p + c)).recs.map (fun y => y.num)).Nodup →
      Gives (.schedulerSelect lane) s (fun t => (t.sched h).txq = (s.d.sched h).txq ++ [(r, (Dev.recOps r).length)]
        ∧ (t.queue (8 * p + c)).recs = ((s.d.queue (8 * p + c)).recs.drop 1).dropWhile s.d.passed
        ∧ ∀ q, q ≠ 8 * p + c → (t.queue q).recs = (s.d.queue q).recs))
    ∧ (∀ rest, (s.d.sched h).txq = (r, 0) :: rest → r.port < 16 → r.cls < 8 → s.d.hostUp h = true → r.mark = none →
      let body := Dev.ingressTag (Dev.packetHeader r) false ++ r.bytes.take (r.len - 4)
      Gives (.hostFrameTx lane) s (fun t =>
        (t.sched h).txq = rest ∧ t.sent = .hostFrame h (body ++ fcsBytes body) :: s.d.sent
        ∧ Raised 48 (b + SCHED.TX_PKTS) 1 s.d t ∧ Raised 64 (b + SCHED.TX_BYTES) (r.len + 16) s.d t))
    ∧ (f.da ≠ 0x0180C2000001 ∨ s.d.hostState lane ≠ 2 → Gives (.hostMacControlFrame lane f fec) s (fun t => codewords t
        ∧ Frame [] (fun a => a = rs ∨ a = un) s.d t))
    ∧ (s.d.hostState lane = 2 → s.d.hostSafe h = false → f.da = 0x0180C2000001 → f.pcsOk = true → f.fcsOk = true →
        f.etherType = 0x8808 →
        (f.opcode = 0x0101 → s.d.bit (b + SCHED.SP_CTRL) 16 = true → Gives (.hostMacControlFrame lane f fec) s (fun t => codewords t ∧
          Counted (b + SCHED.PFC_RX) s.d t ∧ ∀ p, p < 8 → (p ∈ (t.sched h).pfc
            ↔ if f.enables.getLsbD p = true then f.times.getD p 0 ≠ 0 else p ∈ (s.d.sched h).pfc)))
        ∧ (f.opcode = 0x0101 → s.d.bit (b + SCHED.SP_CTRL) 16 = false → Gives (.hostMacControlFrame lane f fec) s (fun t => codewords t ∧
          Counted (b + SCHED.PFC_RX) s.d t ∧ Counted (b + SCHED.PAUSE_IGNORED) s.d t
          ∧ Frame [] (fun a => a = b + SCHED.PFC_RX ∨ a = b + SCHED.PAUSE_IGNORED ∨ a = rs ∨ a = un) s.d t))
        ∧ (f.opcode ≠ 0x0101 → Gives (.hostMacControlFrame lane f fec) s (fun t => codewords t
          ∧ Counted (b + SCHED.PAUSE_IGNORED) s.d t ∧ Frame [] (fun a => a = b + SCHED.PAUSE_IGNORED ∨ a = rs ∨ a = un) s.d t)))
    ∧ (∀ p : Fin 8, p.val ∈ (s.d.sched h).pfc → Gives (.hostPfcExpiry lane p) s (fun t => p.val ∉ (t.sched h).pfc
        ∧ ∀ j, j ≠ p.val → (j ∈ (t.sched h).pfc ↔ j ∈ (s.d.sched h).pfc)))

/-- R216, R217, R234: a waiting operation of the highest priority is issued while its stack has room, one of low priority is
raised, and the operation issued first completes: what it read or wrote reaches its requester, a parity failure is retried once
(R214), and a read that cannot be corrected is counted against its channel and leaves the packets that waited for it without
their record (R187).
R234 to R238, R241, R244: a queue flushed by the holder of its page; a channel or a stack out of service, its content
relocated and its abandoned pages recovered; mode registers read and written.
The model's own choices and readings in it: log entries 10, 13, 37, 74 and 76. -/
def Obligations.BufferMemory : Prop :=
  (∀ (s : State) (k : Stack) (o : HbmOp) (rest : List HbmOp),
    let x := s.d.stack4 k
    let a := Pg.HBM k
    (x.waiting ≠ [] → x.inflight.length < 4096 → Gives (.hbmOperationIssue k) s (fun t => ∃ y ∈ x.waiting,
      (∀ z ∈ x.waiting, y.prio ≤ z.prio) ∧ (t.stack4 k).waiting = x.waiting.erase y ∧ (t.stack4 k).inflight = x.inflight ++ [y]
      ∧ t.fld (a + HBM.INFLIGHT) 0 13 = x.inflight.length + 1))
    ∧ (4096 ≤ x.inflight.length → Gives (.hbmOperationIssue k) s (Frame [] (fun _ => False) s.d))
    ∧ (∀ pre post, Leads (fun y => decide (4 ≤ y.prio)) pre o post x.waiting → Gives (.hbmPriorityRaise k) s (fun t =>
        (t.stack4 k).waiting = pre ++ { o with prio := 3 } :: post ∧ Frame [.buf] (fun _ => False) s.d t))
    ∧ (x.inflight = o :: rest → x.inflight.length ≤ 4096 →
        (∀ num r, o.kind = .packetWrite num → r ≠ .parity ∨ o.retried = true → Gives (.hbmOperationComplete k r) s (fun t =>
          (t.stack4 k).inflight = rest ∧ ∀ q, (t.queue q).recs
            = (s.d.queue q).recs.map (fun y => if y.num = num then { y with toWrite := y.toWrite - 1 } else y)))
        ∧ (o.retried = false → Gives (.hbmOperationComplete k .parity) s (fun t =>
          (t.stack4 k).inflight = { o with retried := true } :: rest ∧ Counted (a + HBM.PARITY_RETRY) s.d t
          ∧ Frame [.buf] (· = a + HBM.PARITY_RETRY) s.d t))
        ∧ (∀ h y, o.kind = .packetRead h y → Gives (.hbmOperationComplete k .ok) s (fun t => (t.stack4 k).inflight = rest
          ∧ (t.sched h).txq = (s.d.sched h).txq.map (fun e => if e.1.num = y then (e.1, e.2 - 1) else e)))
        ∧ (∀ h y, o.kind = .packetRead h y → Gives (.hbmOperationComplete k .corrected) s (fun t => (t.stack4 k).inflight = rest
          ∧ Raised 48 (a + HBM.ECC_CORR) 1 s.d t))
        ∧ (∀ f, o.kind = .flowRead f → Gives (.hbmOperationComplete k .uncorrectable) s (fun t => (t.stack4 k).inflight = rest
          ∧ Counted (a + HBM.ECC_UNC) s.d t ∧ Counted (a + HBM.CH_UNC + 4 * (o.ch % 16)) s.d t ∧ t.bit (a + HDR.INT_STATUS) 8 = true
          ∧ ∀ p : Lane, ∀ y ∈ t.packets p, y.decided = none → f ∈ y.fetched → y.unread = true))))
  ∧ (∀ (s : State) (m : Master) (k : Stack) (c : Fin 64) (q : QueueId),
    let a := Pg.HBM k
    let retired (t : Dev) (i : Nat) : Prop := t.chRetired i = true ∧ i ∈ (t.stack4 (i / 16)).relocating
    let free (i : Nat) : Prop := ((List.range 16).filter (fun j => s.d.chRetired (16 * i + j))).length < 2
    (AdmitsHeld s m (qBase q + QUEUE.Q_CMD) → Gives (.queueFlush m q) s (fun t =>
      (t.queue q).recs = (s.d.queue q).recs.filter (fun r => !(r.committed && !r.void))
      ∧ t.bit (Pg.QUEUE (q.val / 32) + HDR.INT_STATUS) 8 = true))
    ∧ (Admits s m (qBase q + QUEUE.Q_CMD) → s.d.holder (0x082 + q.val / 32) = 0 →
        Gives (.queueFlush m q) s (Rejected m (qBase q + QUEUE.Q_CMD) 0x05 s.d))
    ∧ (s.d.chRetired c = false → free (c.val / 16) → Gives (.channelRetirement c .parityStop) s (fun t => retired t c
        ∧ (∀ i, i < 64 → i ≠ c.val → t.chRetired i = s.d.chRetired i) ∧ t.bit (Pg.HBM (c.val / 16) + HDR.INT_STATUS) 9 = true))
    ∧ (∀ chs : BitVec 16, AdmitsHeld s m (a + HBM.RETIRE_CMD) → c.val / 16 = k → chs = BitVec.twoPow 16 (c.val % 16) →
        s.d.chRetired c = false → free k → Gives (.retireCmdChannels m k chs) s (fun t => retired t c
          ∧ ∀ i, i < 64 → i ≠ c.val → t.chRetired i = s.d.chRetired i))
    ∧ (AdmitsHeld s m (a + HBM.RETIRE_CMD) → s.d.stackRetired k = false → Gives (.retireCmdStack m k) s (fun t =>
        t.stackRetired k = true ∧ (∀ i, i < 16 → retired t (16 * k.val + i)) ∧ t.bit (a + HDR.INT_STATUS) 10 = true
        ∧ t.bit (a + HBM.RELOC_STATUS) 30 = true))
    ∧ ((s.d.stack4 k).relocating ≠ [] → (s.d.stack4 k).relocating.length ≤ 16 → s.d.bit (a + HBM.STACK_STATUS) 4 = false →
        ∀ lines : List RelocLine, Gives (.relocationDone k lines) s (fun t => (∀ f : Fin 33554432, RelocLine.state f ∈ lines →
          f.val % 64 ∈ (s.d.stack4 k).relocating → t.hbmRec f = s.d.template.set Rec.STATE 0)
        ∧ (t.stack4 k).relocating = [] ∧ t.bit (a + HBM.RELOC_STATUS) 31 = true ∧ t.bit (a + HDR.INT_STATUS) 11 = true))
    ∧ (∀ n l, (s.d.freeList c).aban = some (n, l) → Gives (.relocationScan c) s (fun t => t.freeList c
        = { s.d.freeList c with next := n, returned := (s.d.freeList c).returned ++ l, aban := none }))
    ∧ (AdmitsHeld s m (a + HBM.MR_CMD) →
        (s.d.supplyHold = false → Gives (.mrCmdRead m k) s (fun t => t.fld (a + HBM.MR_DATA) 0 8
            = (Sparse.get (fun _ => 0) (s.d.stack4 k).modeRegs (s.d.modeKey k)).toNat ∧ Frame [] (· = a + HBM.MR_DATA) s.d t))
        ∧ (s.d.supplyHold = false → Gives (.mrCmdWrite m k) s (fun t => Frame [.buf] (fun _ => False) s.d t
            ∧ (Sparse.get (fun _ => 0) (t.stack4 k).modeRegs (s.d.modeKey k)).toNat = s.d.fld (a + HBM.MR_DATA) 0 8))
        ∧ (s.d.supplyHold = true → Gives (.mrCmdWrite m k) s (Rejected m (a + HBM.MR_CMD) 0x0E s.d)
            ∧ Gives (.mrCmdRead m k) s (Rejected m (a + HBM.MR_CMD) 0x0E s.d)))
    ∧ (∀ (deg : BitVec 8) (refresh : Fin 3), deg.toInt < 105 → Gives (.stackTempRead k deg refresh) s (fun t =>
        t.fld (Pg.THERM + THERM.STACK_TEMP) (8 * k.val) 8 = deg.toNat ∧ t.fld (a + HBM.TEMP) 0 8 = deg.toNat
        ∧ t.fld (a + HBM.REFRESH) 0 2 = refresh.val)))

/-! ### Slices, line pause (01), host lanes and egress (08), line transmitters (09) -/

/-- R9, R27, R246: `SLICE_CFG`, `HOST_CFG` and `LP_MAP` are taken whole; a malformed value (a layout, an enabled port that the
layout lacks, a width that holds less than an `EG_XOFF`, a map to no port) is CONFIG_REJECT, and a change of rate, type, layout,
enables or map while a lane of the slice is not OFF is STATE_REJECT.
R29, R508: MAC control frames received on a line port, told by their destination and EtherType: PAUSE and PFC frames are
counted and set the port's pause time, errored frames (by FCS, PCS or an uncorrectable codeword that touches them) and other
opcodes are counted and do nothing else; another destination or EtherType, or a port that does not receive, is left alone; a
pause ends.
The model's own choices and readings in it: log entry 6. -/
def Obligations.SlicesAndLinePause : Prop :=
  (∀ (s : State) (m : Master) (i : Slice) (v : Word),
    let b := Pg.SLICE i
    let fits (map : Word) (layout : Nat) : Prop := ∀ q, q < 4 → Dev.layoutWidth layout (fieldOf map (2 * q) 2) ≠ 0
    let layout := fieldOf v 8 3
    let rate := fieldOf v 0 2
    let lacks (q : Nat) : Prop := bitOf v (4 + q) = true ∧ Dev.layoutWidth layout q = 0
    let tight (q : Nat) : Prop := Dev.layoutWidth layout q ≠ 0
      ∧ Dev.layoutWidth layout q * 1024 < s.d.fld (Dev.egBase (4 * i.val + q) + SLICE.EG_XOFF) 0 13
    let good : Prop := layout ≤ 4 ∧ ∀ q, q < 4 → ¬ lacks q ∧ ¬ tight q
    (Admits s m (b + SLICE.SLICE_CFG) →
      (4 < layout ∨ (∃ q, q < 4 ∧ (lacks q ∨ tight q)) →
        Gives (.sliceCfgWrite m i v) s (Rejected m (b + SLICE.SLICE_CFG) 0x0C s.d))
      ∧ (good → (s.d.rd (b + SLICE.SLICE_CFG) ^^^ v) &&& 0x7F3 ≠ 0 → s.d.sliceOff i = false →
          Gives (.sliceCfgWrite m i v) s (Rejected m (b + SLICE.SLICE_CFG) 0x0D s.d))
      ∧ (good → s.d.sliceOff i = true → Gives (.sliceCfgWrite m i v) s (fun t =>
          t.rd (b + SLICE.SLICE_CFG) = mergeBits (s.d.rd (b + SLICE.SLICE_CFG)) 0xFF0107F3 v)))
    ∧ (Admits s m (b + SLICE.HOST_CFG) →
        (4 < layout ∨ rate = 0 ∨ rate = 3 ∨ ¬ fits (s.d.rd (b + SLICE.LP_MAP)) layout →
          Gives (.hostCfgWrite m i v) s (Rejected m (b + SLICE.HOST_CFG) 0x0C s.d))
        ∧ (layout ≤ 4 → rate = 1 ∨ rate = 2 → fits (s.d.rd (b + SLICE.LP_MAP)) layout →
          (s.d.rd (b + SLICE.HOST_CFG) ^^^ v) &&& 0x703 ≠ 0 → s.d.sliceOff i = false →
          Gives (.hostCfgWrite m i v) s (Rejected m (b + SLICE.HOST_CFG) 0x0D s.d))
        ∧ (layout ≤ 4 → rate = 1 ∨ rate = 2 → fits (s.d.rd (b + SLICE.LP_MAP)) layout → s.d.sliceOff i = true →
          Gives (.hostCfgWrite m i v) s (fun t => t.rd (b + SLICE.HOST_CFG) = mergeBits (s.d.rd (b + SLICE.HOST_CFG)) 0x703 v)))
    ∧ (Admits s m (b + SLICE.LP_MAP) →
        (¬ fits v (s.d.hpLayout i) → Gives (.lpMapWrite m i v) s (Rejected m (b + SLICE.LP_MAP) 0x0C s.d))
        ∧ (fits v (s.d.hpLayout i) → (s.d.rd (b + SLICE.LP_MAP) ^^^ v) &&& 0xFF ≠ 0 → s.d.sliceOff i = false →
          Gives (.lpMapWrite m i v) s (Rejected m (b + SLICE.LP_MAP) 0x0D s.d))
        ∧ (fits v (s.d.hpLayout i) → s.d.sliceOff i = true → Gives (.lpMapWrite m i v) s (fun t =>
          t.rd (b + SLICE.LP_MAP) = mergeBits (s.d.rd (b + SLICE.LP_MAP)) 0xFF v))))
  ∧ (∀ (s : State) (p : Lane) (f : MacControl) (spans : List CwSpan),
    let b := Pg.SLICE (p.val / 4)
    let cfg := s.d.rd (b + SLICE.SLICE_CFG)
    let good : Prop := f.fcsOk = true ∧ f.pcsOk = true ∧ s.d.badLanes spans = []
    let pause (t : Dev) : Nat := Sparse.get (fun _ => 0) t.eg.rxPause p
    let counted (t : Dev) : Prop := t.rd (b + SLICE.LINE_PAUSE_RX) = s.d.rd (b + SLICE.LINE_PAUSE_RX) + 1
      ∧ t.bit (b + HDR.INT_STATUS) 9 = true
      ∧ Frame [.eg] (fun a => a = b + SLICE.LINE_PAUSE_RX ∨ a = b + HDR.INT_STATUS) s.d t
    (s.d.receives p = true → f.da = 0x0180C2000001 → f.etherType = 0x8808 →
      (good → f.opcode = 0x0001 → Gives (.lineMacControlFrame p f spans) s (fun t => counted t
        ∧ pause t = if bitOf cfg 16 then (f.times.getD 0 0).toNat else pause s.d))
      ∧ (good → f.opcode = 0x0101 → bitOf cfg 16 = true → (∃ i, i < 8 ∧ f.enables.getLsbD i = true ∧ bitOf cfg (24 + i) = true) →
          Gives (.lineMacControlFrame p f spans) s (fun t => counted t
            ∧ (∀ i, i < 8 → f.enables.getLsbD i = true → bitOf cfg (24 + i) = true → (f.times.getD i 0).toNat ≤ pause t)
            ∧ ∃ i, i < 8 ∧ f.enables.getLsbD i = true ∧ bitOf cfg (24 + i) = true ∧ (f.times.getD i 0).toNat = pause t))
      ∧ (good → f.opcode ≠ 0x0001 → f.opcode ≠ 0x0101 → Gives (.lineMacControlFrame p f spans) s (fun t =>
          Frame [] (· = b + SLICE.LINE_MACCTL_RX) s.d t
          ∧ t.rd (b + SLICE.LINE_MACCTL_RX) = s.d.rd (b + SLICE.LINE_MACCTL_RX) + 1))
      ∧ (¬ good → Gives (.lineMacControlFrame p f spans) s (fun t => Frame [] (· = b + SLICE.LINE_CTL_ERR) s.d t
          ∧ t.rd (b + SLICE.LINE_CTL_ERR) = s.d.rd (b + SLICE.LINE_CTL_ERR) + 1)))
    ∧ (s.d.receives p = false ∨ f.da ≠ 0x0180C2000001 ∨ f.etherType ≠ 0x8808 →
        Gives (.lineMacControlFrame p f spans) s (Frame [] (fun _ => False) s.d))
    ∧ Gives (.linePauseExpiry p) s (fun t => pause t = 0 ∧ Frame [.eg] (fun _ => False) s.d t))

/-- R27, R246, R29, R508: `SLICE_CFG_WRITE`, `HOST_CFG_WRITE` and `LP_MAP_WRITE` of a well-formed value while every lane and
transmitter of the slice is OFF complete with the register taken; `LINE_MAC_CONTROL_FRAME` of an intact PAUSE frame on a line
port that receives completes, counted, with the pause time it carries where the port obeys; `LINE_PAUSE_EXPIRY` completes in
every state with the pause at its end. -/
def Obligations.SliceAndPauseCompletion : Prop :=
  ∀ (s : State) (m : Master) (i : Slice) (v : Word) (p : Lane) (f : MacControl) (spans : List CwSpan),
    let b := Pg.SLICE i
    let c := Pg.SLICE (p.val / 4)
    let off : Prop := ∀ q, q < 4 → s.d.rxState (4 * i.val + q) = 0 ∧ s.d.txState (4 * i.val + q) = 0 ∧ s.d.hostState (4 * i.val + q) = 0
    let width (layout q : Nat) : Nat := Dev.layoutWidth layout q
    (Admits s m (b + SLICE.SLICE_CFG) → off → fieldOf v 8 3 ≤ 4 →
      (∀ q, q < 4 → (bitOf v (4 + q) = true → width (fieldOf v 8 3) q ≠ 0)
        ∧ (width (fieldOf v 8 3) q ≠ 0 →
            s.d.fld (Dev.egBase (4 * i.val + q) + SLICE.EG_XOFF) 0 13 ≤ width (fieldOf v 8 3) q * 1024)) →
      Gives (.sliceCfgWrite m i v) s (fun t =>
        t.rd (b + SLICE.SLICE_CFG) = mergeBits (s.d.rd (b + SLICE.SLICE_CFG)) 0xFF0107F3 v))
    ∧ (Admits s m (b + SLICE.HOST_CFG) → off → fieldOf v 8 3 ≤ 4 → (fieldOf v 0 2 = 1 ∨ fieldOf v 0 2 = 2) →
        (∀ q, q < 4 → width (fieldOf v 8 3) (fieldOf (s.d.rd (b + SLICE.LP_MAP)) (2 * q) 2) ≠ 0) →
        Gives (.hostCfgWrite m i v) s (fun t =>
          t.rd (b + SLICE.HOST_CFG) = mergeBits (s.d.rd (b + SLICE.HOST_CFG)) 0x703 v))
    ∧ (Admits s m (b + SLICE.LP_MAP) → off →
        (∀ q, q < 4 → width (s.d.fld (b + SLICE.HOST_CFG) 8 3) (fieldOf v (2 * q) 2) ≠ 0) →
        Gives (.lpMapWrite m i v) s (fun t => t.rd (b + SLICE.LP_MAP) = mergeBits (s.d.rd (b + SLICE.LP_MAP)) 0xFF v))
    ∧ (s.d.lpOn p = true → (∀ n ∈ s.d.lpLanes p, s.d.rxState n = 3) → s.d.portHeld p = false → s.d.vigilState = 0 →
        s.d.flow.refreshDue = false → f.da = 0x0180C2000001 → f.etherType = 0x8808 → f.opcode = 0x0001 → f.fcsOk = true →
        f.pcsOk = true → s.d.badLanes spans = [] →
        Gives (.lineMacControlFrame p f spans) s (fun t =>
          t.rd (c + SLICE.LINE_PAUSE_RX) = s.d.rd (c + SLICE.LINE_PAUSE_RX) + 1 ∧ t.bit (c + HDR.INT_STATUS) 9 = true
          ∧ (s.d.bit (c + SLICE.SLICE_CFG) 16 = true →
              Sparse.get (fun _ => 0) t.eg.rxPause p = (f.times.getD 0 0).toNat)))
    ∧ Gives (.linePauseExpiry p) s (fun t => Sparse.get (fun _ => 0) t.eg.rxPause p = 0
        ∧ (∀ q, q ≠ p.val → Sparse.get (fun _ => 0) t.eg.rxPause q = Sparse.get (fun _ => 0) s.d.eg.rxPause q)
        ∧ Frame [.eg] (fun _ => False) s.d t)

/-- R248, R249, R254: a host lane enabled with its table loaded and its PLL locked leaves OFF, goes up and comes down, and
enters and leaves PRBS.
R272 to R274, R105, R106: the PRBS commands, and the checker over the symbols that arrive: it counts bits and errors while
locked, locks and loses lock; a host eye scan started, its points, its abort. The order of its refusals and the values a scan keeps
to are the model's choice (log entries 5, 60).
The model's own choices and readings in it: log entries 5, 38, 60 and 78. -/
def Obligations.HostLanes : Prop :=
  (∀ (s : State) (m : Master) (n : Lane),
    let b := Pg.HOST n
    let st := s.d.hostState n
    let at_ (t : Dev) (k : Nat) : Prop := t.hostState n = k ∧ t.bit (b + HDR.INT_STATUS) 8 = true
    (Admits s m (b + HOST.HOST_CTRL) → st = 0 → s.d.bit (b + HOST.EQ_STATUS) (if s.d.hostRate (n / 4) = 2 then 1 else 0) = true →
      s.d.hostHeld n = false → s.d.hpllLock (n / 4) = true → Gives (.hostEnable m n) s (fun t =>
        at_ t (if s.d.bit (b + HOST.HOST_CTRL) 1 then 3 else 1) ∧ t.bit (b + HOST.HOST_CTRL) 0 = true))
    ∧ (Admits s m (b + HOST.HOST_CTRL) → st ≠ 4 → Gives (.hostDisable m n) s (fun t => t.hostState n = 0
        ∧ t.bit (b + HOST.HOST_CTRL) 0 = false ∧ t.rd (b + HOST.LINK_STATUS) = 1))
    ∧ (Admits s m (b + HOST.HOST_CTRL) → st = 1 ∨ st = 2 → Gives (.prbsModeSet m n) s (fun t => at_ t 3
        ∧ t.bit (b + HOST.HOST_CTRL) 1 = true))
    ∧ (Admits s m (b + HOST.HOST_CTRL) → st = 3 → Gives (.prbsModeClear m n) s (fun t => at_ t 1
        ∧ t.bit (b + HOST.HOST_CTRL) 1 = false ∧ t.bit (b + HOST.PRBS_STATUS) 0 = false))
    ∧ (st = 1 → s.d.hpllLock (n / 4) = true → Gives (.hostLaneUp n) s (fun t => at_ t 2
        ∧ t.bit (b + HOST.LINK_STATUS) 0 = false ∧ t.bit (b + HOST.LINK_STATUS) 1 = true ∧ t.bit (b + HOST.LINK_STATUS) 2 = true))
    ∧ (∀ signal cdr am : Bool, st = 2 → (signal && cdr && am) = false → Gives (.hostLaneDown n signal cdr am) s (fun t => at_ t 1
        ∧ t.rd (b + HOST.DOWN_COUNT) = s.d.rd (b + HOST.DOWN_COUNT) + 1 ∧ t.bit (b + HOST.LINK_STATUS) 0 = !signal))
    ∧ (∀ los : Bool, st ≠ 0 → Gives (.hostLosChange n los) s (fun t => t.bit (b + HOST.LINK_STATUS) 0 = los
        ∧ t.hostState n = (if los ∧ st = 2 then 1 else st)
        ∧ (s.d.bit (b + HOST.LINK_STATUS) 0 ≠ los → t.bit (b + HDR.INT_STATUS) 9 = true)))
    ∧ (∀ lf rf : Bool, Gives (.hostLinkFaultReceived n lf rf) s (fun t => t.bit (b + HOST.LINK_STATUS) 4 = lf
        ∧ t.bit (b + HOST.LINK_STATUS) 5 = rf
        ∧ (s.d.bit (b + HOST.LINK_STATUS) 4 ≠ lf ∨ s.d.bit (b + HOST.LINK_STATUS) 5 ≠ rf → t.bit (b + HDR.INT_STATUS) 16 = true)
        ∧ Frame [] (fun a => a = b + HOST.LINK_STATUS ∨ a = b + HDR.INT_STATUS) s.d t)))
  ∧ (∀ (s : State) (m : Master) (n : Lane),
    let b := Pg.HOST n
    let es := b + HOST.EYE_STATUS
    let ctl := s.d.rd (b + HOST.PRBS_CTRL)
    let eye := s.d.eyeSet (b + HOST.EYE_CTRL)
    let runs (symbols : List (Fin 4)) : PrbsRun := symbols.foldl (prbsSymbol (fieldOf ctl 4 2) (bitOf ctl 9))
      ⟨Sparse.get (fun _ => Prbs.init) s.d.eg.prbs n, s.d.bit (b + HOST.PRBS_STATUS) 0, false, 0, 0⟩
    let heard (r : PrbsRun) (t : Dev) : Prop := Sparse.get (fun _ => Prbs.init) t.eg.prbs n = r.c
      ∧ Raised 64 (b + HOST.PRBS_BITS) r.bits s.d t ∧ Raised 48 (b + HOST.PRBS_ERRS) r.errs s.d t
      ∧ t.bit (b + HOST.PRBS_STATUS) 0 = r.lock
      ∧ (r.lost = true → t.bit (b + HOST.PRBS_STATUS) 1 = true ∧ t.bit (b + HDR.INT_STATUS) 10 = true)
      ∧ Frame [.eg] (fun a => a = b + HDR.INT_STATUS ∨ b + HOST.PRBS_STATUS ≤ a ∧ a ≤ b + HOST.PRBS_ERRS + 4) s.d t
    (Admits s m (b + HOST.PRBS_CMD) → s.d.hostState n = 3 → Gives (.prbsInject m n) s (fun t => t.sent = .invertBit n :: s.d.sent
      ∧ Frame [.sent] (fun _ => False) s.d t))
    ∧ (Admits s m (b + HOST.PRBS_CMD) → Gives (.prbsClear m n) s (fun t => t.wide (b + HOST.PRBS_BITS) = 0
        ∧ t.wide (b + HOST.PRBS_ERRS) = 0 ∧ t.bit (b + HOST.PRBS_STATUS) 1 = false
        ∧ Frame [] (fun a => b + HOST.PRBS_STATUS ≤ a ∧ a ≤ b + HOST.PRBS_ERRS + 4) s.d t))
    ∧ (∀ symbols : List (Fin 4), s.d.hostState n = 3 → fieldOf ctl 4 2 ≠ 0 →
        Gives (.prbsLock n symbols) s (heard (runs symbols)) ∧ Gives (.prbsLoss n symbols) s (heard (runs symbols)))
    ∧ (∀ symbols : List (Fin 4), s.d.hostState n ≠ 3 ∨ fieldOf ctl 4 2 = 0 →
        Gives (.prbsLock n symbols) s (Frame [] (fun _ => False) s.d) ∧ Gives (.prbsLoss n symbols) s (Frame [] (fun _ => False) s.d))
    ∧ (Admits s m (b + HOST.EYE_CMD) → s.d.eyeBad (b + HOST.EYE_CTRL) = false → s.d.hostState n = 2 ∨ s.d.hostState n = 3 →
        s.d.bit es 0 = false → s.d.fld (b + HOST.EYE_GRID) 0 6 ≠ 0 → s.d.fld (b + HOST.EYE_GRID) 8 6 ≠ 0 →
        Gives (.hostEyeStart m n) s (fun t => t.rd es = 1
          ∧ t.eyeSet (b + HOST.EYE_CTRL) = (s.d.rd (b + HOST.EYE_CTRL), s.d.rd (b + HOST.EYE_GRID)) ∧ ∀ k, k < 256 → t.rd (b + HOST.EYE_DATA + 4 * k) = 0))
    ∧ (Admits s m (b + HOST.EYE_CMD) → s.d.hostState n ≠ 2 ∧ s.d.hostState n ≠ 3 ∨ s.d.bit es 0 = true →
        Gives (.hostEyeStart m n) s (Rejected m (b + HOST.EYE_CMD) 0x0D s.d))
    ∧ (Admits s m (b + HOST.EYE_CMD) → s.d.eyeBad (b + HOST.EYE_CTRL) = true → s.d.hostState n = 2 ∨ s.d.hostState n = 3 →
        s.d.bit es 0 = false → Gives (.hostEyeStart m n) s (Rejected m (b + HOST.EYE_CMD) 0x0C s.d))
    ∧ (Admits s m (b + HOST.EYE_CMD) → s.d.bit es 0 = true → Gives (.hostEyeAbort m n) s (fun t =>
        t.bit es 0 = false ∧ t.bit es 2 = true ∧ Frame [] (· = es) s.d t))
    ∧ (∀ errors j, s.d.bit es 0 = true → s.d.fld es 16 11 = j → j < 1024 → Gives (.hostEyePointDone n errors) s (fun t =>
        t.fld es 16 11 = j + 1 ∧ t.fld (b + HOST.EYE_DATA + 4 * (j / 4)) (8 * (j % 4)) 8
          = contourCode (2 ^ fieldOf eye.1 8 5) errors % 2 ^ 8
        ∧ t.bit es 0 = decide (j + 1 < fieldOf eye.2 0 6 * fieldOf eye.2 8 6))))

/-- R251 to R253: the first good copy of the board file is loaded at its start-up event, or the error of the last one reported on
every host page (log entry 85); a staged set
commits when its word 7 is written: a valid entry of the lane and rate goes into the set, any other is CONFIG_REJECT.
The model's own choices and readings in it: log entries 6 and 85. -/
def Obligations.BoardEqualisation : Prop :=
  ∀ (s : State) (m : Master) (n : Lane) (hi : Bool) (w : Fin 7) (v : Word) (copyA copyB : List Byte),
    let set := Pg.HOST n + (if hi then HOST.EQ_SET1 else HOST.EQ_SET0)
    let words := (List.range 7).map (fun w => (s.d.eqStaged n hi w m).getD (s.d.rd (set + 4 * w))) ++ [v]
    let e := words.flatMap wordBytesBE
    let mine : Prop := Dev.eqValid e = true ∧ (e.getD 0 0).toNat = n ∧ (e.getD 1 0).toNat = (if hi then 2 else 1)
    let copies := s.d.biyleyCopies copyA copyB
    (s.d.sec.step = 7 → (∀ c ∈ copies, c.2 ≠ 0) → Gives (.biyleyLoad copyA copyB) s (fun t => t.sec.step = 8
      ∧ (∀ i : Lane, t.fld (Pg.HOST i + HOST.EQ_STATUS) 8 8 = (copies.getLastD ([], 1)).2)
      ∧ Frame [.sec] (fun a => ∃ i : Lane, a = Pg.HOST i + HOST.EQ_STATUS) s.d t))
    ∧ (∀ c, s.d.sec.step = 7 → copies.find? (fun c => c.2 == 0) = some c → natLE (slice c.1 6 2) = 1 →
        (c.1.getD 32 0).toNat = n → c.1.getD 33 0 = (if hi then 2 else 1) → Gives (.biyleyLoad copyA copyB) s (fun t => t.sec.step = 8
          ∧ t.sec.biyley = some c.1 ∧ t.bit (Pg.HOST n + HOST.EQ_STATUS) (if hi then 1 else 0) = true
          ∧ ∀ j, j < 8 → t.rd (set + 4 * j) = wordBE (slice c.1 32 32) j))
    ∧ (Admits s m (set + 4 * w) → Gives (.eqSetStageWrite m n hi w v) s (fun t => t.eqStaged n hi w m = some v
        ∧ (∀ i hi' w' m', Dev.eqKey i hi' w' m' ≠ Dev.eqKey n hi w m → t.eqStaged i hi' w' m' = s.d.eqStaged i hi' w' m')
        ∧ Frame [.eg] (fun _ => False) s.d t))
    ∧ (Admits s m (set + 28) → mine → s.d.hostState n = 0 → s.d.bit (Pg.HOST n + HOST.HOST_CTRL) 0 = false →
        Gives (.eqSetCommit m n hi v) s (fun t => (∀ j, j < 8 → t.rd (set + 4 * j) = words.getD j 0)
          ∧ t.bit (Pg.HOST n + HOST.EQ_STATUS) (if hi then 1 else 0) = true ∧ t.fld (Pg.HOST n + HOST.EQ_STATUS) 2 2 = 2
          ∧ ∀ w, w < 7 → t.eqStaged n hi w m = none))
    ∧ (Admits s m (set + 28) → ¬ mine → Gives (.eqSetCommit m n hi v) s (fun t =>
        (∀ j, j < 8 → t.rd (set + 4 * j) = s.d.rd (set + 4 * j)) ∧ t.fld (Pg.HOST n + HDR.ERR_INFO) 22 8 = 0x0C
        ∧ ∀ w, w < 7 → t.eqStaged n hi w m = none))

/-- R256 to R260, R507: a frame received with an Egress Tag, its FCS last: it joins its line port's share, whole, when every check
passes; a bad tag, a wrong slice and a full share are each counted, and the share stays; one with a wrong FCS counts and joins only
as a bad frame that had already started on the line. Its host codewords are counted.
R268 to R271: the head of a share leaves on its line port, and its lanes' samples after it, unchanged without a timestamp operation, with the corrected
time at the offset the tag names for a one-step one; a two-step one reports its sequence number and time; reports are
popped one by one.
R261, R262: a change of the asserted priority set is announced, with PAUSE or with PFC frames as the slice says, from the slice's
source address, and the
announcement is repeated while the set is not empty.
The model's own choices and readings in it: log entries 38 and 81. -/
def Obligations.Egress : Prop :=
  (∀ (s : State) (n : Lane) (tag : BitVec 64) (body : List Byte) (fcs : BitVec 32) (pcsOk : Bool) (fec : HostFec),
    let h := s.d.hostPort n
    let p : Nat := tag.toNat / 2 ^ 56 % 16
    let len := body.length + 4
    let frame := bytesBE 8 tag.toNat ++ body ++ bytesBE 4 fcs.toNat
    let fcsOk : Prop := bytesBE 4 fcs.toNat = fcsBytes (bytesBE 8 tag.toNat ++ body)
    let tagOk : Prop := crc8 ((bytesBE 8 tag.toNat).take 7) = tag.toNat % 256 ∧ tag.toNat / 2 ^ 60 = 1 ∧ tag.toNat / 2 ^ 54 % 4 ≠ 3
    let room : Prop := Dev.fillCells (s.d.share p) + Dev.cells len ≤ s.d.lpWidth p * 16384
    let counted (t : Dev) : Prop := t.wide (Pg.HOST h + HOST.RX_FRAMES) = (s.d.wide (Pg.HOST h + HOST.RX_FRAMES) + 1) % 2 ^ 48
      ∧ t.wide (Pg.HOST h + HOST.RX_BYTES) = (s.d.wide (Pg.HOST h + HOST.RX_BYTES) + (8 + len)) % 2 ^ 64
      ∧ t.rd (Pg.HOST h + HOST.RS_CORR) = s.d.rd (Pg.HOST h + HOST.RS_CORR) + BitVec.ofNat 32 fec.corrected
      ∧ t.rd (Pg.HOST h + HOST.RS_UNC) = s.d.rd (Pg.HOST h + HOST.RS_UNC) + BitVec.ofNat 32 fec.uncorrectable
    let joins (bad : Bool) (t : Dev) : Prop :=
      (t.share p).frames = (s.d.share p).frames ++ [{ len := len, bytes := body, tag := tag, host := n, bad := bad }]
      ∧ ∀ q, q ≠ p → t.share q = s.d.share q
    s.d.hostUp h = true →
      (¬ tagOk → tag.toNat / 2 ^ 16 ≠ 0x0180C2000001 → Gives (.egressFrameRx n frame pcsOk fec) s (fun t => counted t ∧ t.eg = s.d.eg
        ∧ t.rd (Pg.HOST h + HOST.TAG_ERRS) = s.d.rd (Pg.HOST h + HOST.TAG_ERRS) + 1))
      ∧ (tagOk → p / 4 ≠ n / 4 ∨ s.d.lpOn p = false → Gives (.egressFrameRx n frame pcsOk fec) s (fun t => counted t ∧ t.eg = s.d.eg
        ∧ t.wide (Pg.DROP + DROP.EG_WRONG_SLICE + 0x10 * (n / 4)) = (s.d.wide (Pg.DROP + DROP.EG_WRONG_SLICE + 0x10 * (n / 4)) + 1) % 2 ^ 48))
      ∧ (tagOk → p / 4 = n / 4 → s.d.lpOn p = true → s.d.egressDown p = false → 64 ≤ len → len ≤ 16000 →
          (fcsOk → room → Gives (.egressFrameRx n frame pcsOk fec) s (fun t => counted t ∧ joins false t))
          ∧ (¬ fcsOk → Gives (.egressFrameRx n frame pcsOk fec) s (fun t => counted t
            ∧ t.rd (Pg.HOST h + HOST.FCS_ERRS) = s.d.rd (Pg.HOST h + HOST.FCS_ERRS) + 1 ∧ t.bit (Pg.HOST h + HDR.INT_STATUS) 13 = true
            ∧ (s.d.cutThrough n p = false → t.eg = s.d.eg) ∧ (s.d.cutThrough n p = true → room → joins true t)))
          ∧ (fcsOk → ¬ room → Gives (.egressFrameRx n frame pcsOk fec) s (fun t => counted t ∧ t.eg = s.d.eg
            ∧ t.wide (Dev.egBase p + SLICE.EG_OVERFLOW) = (s.d.wide (Dev.egBase p + SLICE.EG_OVERFLOW) + 1) % 2 ^ 48))))
  ∧ (∀ (s : State) (m : Master) (p : Lane) (time : BitVec 80) (f : EgFrame) (rest : List EgFrame),
    let op := f.tag.toNat / 2 ^ 54 % 4
    let ptp := f.tag.toNat / 2 ^ 44 % 256
    let stamp : BitVec 80 := time + BitVec.ofInt 80 (BitVec.ofNat 16 (s.d.fld (Pg.HOST p + HOST.TS_ADJ) 16 16)).toInt
    let samples (o : Output) : Bool := match o with | .lineSamples _ _ => true | _ => false
    let gone (t : Dev) (bytes : List Byte) : Prop := (t.share p).frames = rest
      ∧ t.sent.dropWhile samples = .lineFrame p f.len bytes f.bad :: s.d.sent
      ∧ t.wide (Pg.LTX p + LTX.TX_FRAMES) = (s.d.wide (Pg.LTX p + LTX.TX_FRAMES) + 1) % 2 ^ 48
    ((s.d.share p).frames = f :: rest → s.d.egressDown p = false → Sparse.get (fun _ => 0) s.d.eg.rxPause p = 0 →
      (∀ i ∈ s.d.lpLanes p, s.d.islandOn (16 + i) = true) →
      (op = 0 ∨ op = 3 → Gives (.egressFrameTx p time) s (fun t => gone t f.bytes ∧ t.reports p = s.d.reports p))
      ∧ (op = 1 → f.tag.getLsbD 53 = false → ptp + 48 ≤ f.len → ptp + 44 ≤ f.bytes.length → Gives (.egressFrameTx p time) s (fun t =>
          gone t (f.bytes.take (ptp + 34) ++ bytesBE 6 (stamp.toNat / 10 ^ 9 % 2 ^ 48) ++ bytesBE 4 (stamp.toNat % 10 ^ 9)
            ++ f.bytes.drop (ptp + 44))))
      ∧ (op = 1 → f.len < ptp + 48 → Gives (.egressFrameTx p time) s (fun t => gone t f.bytes
          ∧ t.rd (Pg.HOST p + HOST.TS_RANGE) = s.d.rd (Pg.HOST p + HOST.TS_RANGE) + 1))
      ∧ (op = 2 → (s.d.reports p).length < 16 → Gives (.egressFrameTx p time) s (fun t => gone t f.bytes
          ∧ t.reports p = s.d.reports p ++ [(BitVec.ofNat 16 (f.tag.toNat / 2 ^ 28), stamp)] ∧ t.bit (Pg.HOST p + HDR.INT_STATUS) 14 = true))
      ∧ (op = 2 → 16 ≤ (s.d.reports p).length → Gives (.egressFrameTx p time) s (fun t => gone t f.bytes ∧ t.reports p = s.d.reports p
          ∧ t.rd (Pg.HOST p + HOST.TS_DROPPED) = s.d.rd (Pg.HOST p + HOST.TS_DROPPED) + 1)))
    ∧ (Admits s m (Pg.HOST p + HOST.TXTS_POP) → (s.d.reports p).length ≤ 16 → Gives (.txtsPop m p) s (fun t =>
        t.reports p = (s.d.reports p).drop 1 ∧ t.fld (Pg.HOST p + HOST.TXTS_STATUS) 0 5 = (s.d.reports p).length - 1)))
  ∧ (∀ (s : State) (h : Lane),
    let ctrl := s.d.rd (Pg.SLICE (h.val / 4) + SLICE.EG_CTRL)
    let time := fieldOf ctrl 16 16
    let p := s.d.asserted (h / 4)
    let q := s.d.announced h
    let frame (payload : List Byte) : List Byte :=
      let head := [0x01, 0x80, 0xC2, 0x00, 0x00, 0x01] ++ s.d.egSource (h / 4) ++ [0x88, 0x08] ++ payload
      let padded := head ++ List.replicate (60 - head.length) 0
      padded ++ fcsBytes padded
    let pause (quanta : Nat) : Output := .flowControl h (frame ([0x00, 0x01] ++ bytesBE 2 quanta))
    let pfc (set quanta : Nat) : Output := .flowControl h (frame ([0x01, 0x01, 0x00, BitVec.ofNat 8 set]
      ++ (List.range 8).flatMap (fun i => bytesBE 2 (if set.testBit i then quanta else 0))))
    let sentOne (t : Dev) (o : Output) : Prop := t.sent = o :: s.d.sent
      ∧ t.rd (Pg.SLICE (h.val / 4) + SLICE.EG_FC_SENT) = s.d.rd (Pg.SLICE (h.val / 4) + SLICE.EG_FC_SENT) + 1
    (bitOf ctrl 1 = true → time ≠ 0 → s.d.hostUp h = true → p < 256 →
      (bitOf ctrl 0 = true → q = 0 → p ≠ 0 → Gives (.flowControlFrameTx h) s (fun t => sentOne t (pause time) ∧ t.announced h = p))
      ∧ (bitOf ctrl 0 = true → q ≠ 0 → p = 0 → Gives (.flowControlFrameTx h) s (fun t => sentOne t (pause 0) ∧ t.announced h = 0))
      ∧ (bitOf ctrl 0 = false → q = 0 → p ≠ 0 → Gives (.flowControlFrameTx h) s (fun t =>
          sentOne t (pfc p time) ∧ t.announced h = p))
      ∧ (bitOf ctrl 0 = false → q ≠ 0 → p = 0 → Gives (.flowControlFrameTx h) s (fun t =>
          sentOne t (pfc q 0) ∧ t.announced h = 0))
      ∧ (p = q → Gives (.flowControlFrameTx h) s (Frame [] (fun _ => False) s.d))
      ∧ (p = q → p ≠ 0 → Gives (.flowControlRepeat h) s (fun t => t.announced h = q
          ∧ sentOne t (if bitOf ctrl 0 then pause time else pfc p time)))))

/-- R266, R267, R275: the commands of the time base under the lock of its page, its reads with the words latched for the
reader, a PPS edge with the load armed for it, and the loss of PPS.
The model's own choices and readings in it: log entry 52. -/
def Obligations.TimeBase : Prop :=
  ∀ (s : State) (m : Master),
    let b := Pg.CLKRST
    let cmd := b + CLKRST.TIME_CMD
    let given : BitVec 80 := BitVec.ofNat 80 ((s.d.rd (b + CLKRST.TIME_WR)).toNat + 2 ^ 32 * (s.d.rd (b + CLKRST.TIME_WR + 4)).toNat
      + 2 ^ 64 * s.d.fld (b + CLKRST.TIME_WR + 8) 0 16)
    let only (t : Dev) : Prop := Frame [.time] (fun _ => False) s.d t
    (AdmitsHeld s m cmd → Gives (.timeCmdSet m) s (fun t => t.time = { s.d.time with now := given } ∧ only t)
      ∧ Gives (.timeCmdStep m) s (fun t => t.time = { s.d.time with now := s.d.time.now + given } ∧ only t)
      ∧ Gives (.timeCmdSetAtPps m) s (fun t => t.bit (b + CLKRST.PPS_STATUS) 1 = true ∧ Frame [] (· = b + CLKRST.PPS_STATUS) s.d t))
    ∧ (Admits s m cmd → s.d.holder (b / 0x1000) = 0 → Gives (.timeCmdSet m) s (Rejected m cmd 0x05 s.d)
        ∧ Gives (.timeCmdStep m) s (Rejected m cmd 0x05 s.d) ∧ Gives (.timeCmdSetAtPps m) s (Rejected m cmd 0x05 s.d))
    ∧ (s.d.readErr m (b + CLKRST.TIME_RD) = none → s.d.busy (b / 0x1000) = false → Gives (.timeRdRead m) s (fun t =>
        t.sent = .readData m (b + CLKRST.TIME_RD) (BitVec.setWidth 32 s.d.time.now) :: s.d.sent
        ∧ Sparse.get (fun _ => 0) t.time.latch (masterId m).toNat = BitVec.setWidth 48 (s.d.time.now >>> 32)
        ∧ t.time.now = s.d.time.now ∧ Frame [.time, .sent] (fun _ => False) s.d t))
    ∧ (s.d.readErr m (b + CLKRST.PPS_CAPT) = none → s.d.busy (b / 0x1000) = false → Gives (.ppsCaptRead m) s (fun t =>
        t.sent = .readData m (b + CLKRST.PPS_CAPT) (BitVec.setWidth 32 s.d.time.capt) :: s.d.sent
        ∧ Sparse.get (fun _ => 0) t.time.captLatch (masterId m).toNat = BitVec.setWidth 48 (s.d.time.capt >>> 32)
        ∧ t.time.now = s.d.time.now ∧ Frame [.time, .sent] (fun _ => False) s.d t))
    ∧ (∀ falling : Bool, s.d.bit (b + CLKRST.PPS_CTRL) 0 = true →
        (s.d.bit (b + CLKRST.PPS_CTRL) 1 = falling → Gives (.ppsEdge falling) s (fun t => t.time.capt = s.d.time.now
          ∧ t.rd (b + CLKRST.PPS_COUNT) = s.d.rd (b + CLKRST.PPS_COUNT) + 1 ∧ t.bit (b + CLKRST.PPS_STATUS) 0 = true
          ∧ t.bit (b + CLKRST.PPS_STATUS) 1 = false ∧ t.bit (b + HDR.INT_STATUS) 24 = true
          ∧ t.time.now = if s.d.bit (b + CLKRST.PPS_STATUS) 1 then given else s.d.time.now))
        ∧ (s.d.bit (b + CLKRST.PPS_CTRL) 1 ≠ falling → Gives (.ppsEdge falling) s (Frame [] (fun _ => False) s.d)))
    ∧ (s.d.bit (b + CLKRST.PPS_STATUS) 0 = true → Gives .ppsLost s (fun t => t.bit (b + CLKRST.PPS_STATUS) 0 = false
        ∧ t.bit (b + HDR.INT_STATUS) 25 = true ∧ Frame [] (fun a => a = b + CLKRST.PPS_STATUS ∨ a = b + HDR.INT_STATUS) s.d t))

/-- R280, R282, R284, R286: a transmitter enabled into SQUELCH, its port's lanes entering SEND together, disabled into OFF;
staged taps applied together or refused; one step of the pilot depth.
The model's own choices and readings in it: log entries 40, 65 and 66. -/
def Obligations.LineTransmitters : Prop :=
  ∀ (s : State) (m : Master) (n : Lane),
    let b := Pg.LTX n
    let valid : Prop := 128 ≤ (s.d.stagedTaps n).getD 3 0 ∧ ((s.d.stagedTaps n).map Int.natAbs).sum ≤ 256
    (Admits s m (b + LTX.TX_CTRL) → s.d.txState n = 0 → s.d.lineHeld n = false → s.d.calValidB n = true →
      Gives (.txEnable m n) s (fun t => t.txState n = 1 ∧ t.bit (b + LTX.TX_CTRL) 0 = true))
    ∧ (Admits s m (b + LTX.TX_CTRL) → s.d.txState n ≠ 3 → Gives (.txDisable m n) s (fun t => t.txState n = 0
        ∧ t.bit (b + LTX.TX_CTRL) 0 = false ∧ t.fld (b + LTX.PILOT_STATUS) 0 6 = 0 ∧ (t.ltn n).waiting = [] ∧ (t.ltn n).onAir = none))
    ∧ (s.d.lpLanes n ≠ [] → (∀ i ∈ s.d.lpLanes n, s.d.txState i = 1 ∧ s.d.squelchCauses n i = 0) →
        Gives (.txSendEntry n) s (fun t => (∀ i ∈ s.d.lpLanes n, t.txState i = 2 ∧ t.bit (Pg.LTX i + HDR.INT_STATUS) 8 = true)
          ∧ ∀ i, i < 16 → i ∉ s.d.lpLanes n → t.txState i = s.d.txState i))
    ∧ (s.d.lpLanes n ≠ [] → (∃ i ∈ s.d.lpLanes n, s.d.squelchCauses n i ≠ 0) →
        Gives (.txSendEntry n) s (Frame [] (fun _ => False) s.d))
    ∧ (Admits s m (b + LTX.FIR_CMD) → valid → Gives (.firApply m n) s (fun t =>
        t.liveTaps n = s.d.stagedTaps n ∧ t.fld (b + LTX.FIR_STATUS) 0 10 = ((s.d.stagedTaps n).map Int.natAbs).sum
        ∧ Frame [] (fun a => a = b + LTX.FIR_STATUS ∨ b + LTX.TX_TAP ≤ a ∧ a < b + LTX.TX_TAP + 36) s.d t))
    ∧ (Admits s m (b + LTX.FIR_CMD) → ¬ valid → Gives (.firApply m n) s (fun t =>
        t.liveTaps n = s.d.liveTaps n ∧ t.bit (b + HDR.INT_STATUS) 12 = true ∧ t.fld (b + HDR.ERR_INFO) 22 8 = 0x0C))
    ∧ (s.d.txState n = 1 ∨ s.d.txState n = 2 → Gives (.pilotDepthStep n) s (fun t =>
        Frame [] (· = b + LTX.PILOT_STATUS) s.d t
        ∧ (t.fld (b + LTX.PILOT_STATUS) 0 6 : Int) = s.d.fld (b + LTX.PILOT_STATUS) 0 6
            + (if s.d.fld (b + LTX.PILOT_STATUS) 0 6 < s.d.fld (b + LTX.PILOT_CTRL) 0 6 then 1
               else if s.d.fld (b + LTX.PILOT_CTRL) 0 6 < s.d.fld (b + LTX.PILOT_STATUS) 0 6 then -1 else 0)))

/-! ### The Lantern channel (10) -/

/-- R305: a key installed under the page's lock starts at the staged counters, the first transmit counter at least 1, and
its staging registers read zero after; an erased slot holds no key; without the lock both are rejected.
R306, R310 to R313, R424: a frame starts when the lane may send, signed under the transmit slot whose counter steps,
and ends, sent as the coded bits of R293 to R295; IDENTITY and WAKE frames queued; all waiting frames flushed; a record of the ring queued or refused.
The model's own choices and readings in it: log entries 40 and 66. -/
def Obligations.LanternKeysAndTransmission : Prop :=
  (∀ (s : State) (m : Master) (n : Lane) (slot : Bool),
    let b := Pg.LANTERN n
    let a := b + LANTERN.KEY_CMD
    let first := s.d.wide (b + LANTERN.CTR_INIT_TX)
    (AdmitsHeld s m a → Gives (.keyInstall m n slot) s (fun t =>
      t.keySlot n slot = ⟨(s.d.rdWords (b + LANTERN.KEY_STAGE) 8).flatMap wordBytesBE, true, false,
        if first = 0 then 1 else first, s.d.wide (b + LANTERN.CTR_INIT_RX)⟩
      ∧ t.keySlot n (!slot) = s.d.keySlot n (!slot) ∧ (∀ i, i < 8 → t.rd (b + LANTERN.KEY_STAGE + 4 * i) = 0)
      ∧ Frame [.lt] (fun x => b + LANTERN.KEY_STAGE ≤ x ∧ x < b + LANTERN.KEY_STAGE + 32) s.d t))
    ∧ (AdmitsHeld s m a → Gives (.keyErase m n slot) s (fun t => t.keySlot n slot = KeySlot.init
        ∧ t.keySlot n (!slot) = s.d.keySlot n (!slot) ∧ Frame [.lt] (fun _ => False) s.d t))
    ∧ (Admits s m a → s.d.holder (a / 0x1000) = 0 → Gives (.keyInstall m n slot) s (Rejected m a 0x05 s.d)
        ∧ Gives (.keyErase m n slot) s (Rejected m a 0x05 s.d)))
  ∧ (∀ (s : State) (m : Master) (n : Lane) (record : List Byte),
    let b := Pg.LANTERN n
    let a := b + LANTERN.TX_CMD
    let l := s.d.ltn n
    let queued (type : Nat) (p : List Byte) (t : Dev) : Prop :=
      t.ltn n = { l with waiting := l.waiting ++ [⟨type, p, s.d.mono, false, none⟩] } ∧ Frame [.lt] (fun _ => False) s.d t
    let room (type : Nat) : Prop := ∀ f ∈ l.waiting, f.type = type → f.ring = true
    (∀ f, s.d.ltNext n = some f → s.d.txReady n = true → Gives (.lanternTxFrameStart n) s (fun t =>
      (t.ltn n).waiting = l.waiting.erase f ∧ (t.ltn n).onAir = some (s.d.ltSign n f) ∧ (t.ltn n).airAt = s.d.symNow n / 64
      ∧ (f.raw = none → (t.keySlot n (s.d.txSlot n)).ctr = (s.d.keySlot n (s.d.txSlot n)).ctr + 1)))
    ∧ (s.d.txReady n = false → Gives (.lanternTxFrameStart n) s (Frame [] (fun _ => False) s.d))
    ∧ (∀ bytes, l.onAir = some bytes → Gives (.lanternTxFrameEnd n) s (fun t => (t.ltn n).onAir = none
        ∧ t.sent = .lantern n bytes (lanternBits bytes) :: s.d.sent ∧ Counted (b + LANTERN.TX_FRAMES) s.d t))
    ∧ (s.d.assisted b = false → room 1 → s.d.fld (b + LANTERN.IDENT_PERIOD) 0 16 ≠ 0 →
        Gives (.identityPeriod n) s (queued 1 (s.d.identityPayload n)))
    ∧ (s.d.assisted b = false → room 1 → Admits s m a → Gives (.sendIdent m n) s (queued 1 (s.d.identityPayload n)))
    ∧ (room 6 → Admits s m a → Gives (.sendWake m n) s (queued 6 []))
    ∧ (∀ f ∈ l.waiting, f.type = 6 → f.ring = false → Admits s m a → Gives (.sendWake m n) s (fun t =>
        Counted (b + LANTERN.TX_DROPPED) s.d t ∧ t.bit (b + HDR.INT_STATUS) 17 = true))
    ∧ (Admits s m a → Gives (.txFlush m n) s (fun t => (t.ltn n).waiting = []
        ∧ t.rd (b + LANTERN.TX_DROPPED) = s.d.rd (b + LANTERN.TX_DROPPED) + BitVec.ofNat 32 l.waiting.length))
    ∧ (∀ d, Sparse.get (fun _ => none) (s.d.ring 4).slots n = some d → s.d.txReady n = true → l.waiting = [] → s.d.ringRuns 4 = true →
        (s.d.txRecordBad n record = false → Gives (.lanternTxRecord n record) s (fun t =>
          (t.ltn n).waiting = [s.d.txRecordFrame n record] ∧ Frame [.lt] (fun _ => False) s.d t))
        ∧ (s.d.txRecordBad n record = true → Gives (.lanternTxRecord n record) s (fun t =>
          Counted (b + LANTERN.TX_DROPPED) s.d t ∧ Sparse.get (fun _ => none) (t.ring 4).slots n = none))))

/-- R299 to R303: the receiver's states from IDLE through ACQUIRE and SYNC to RECEIVE and back: the levels, decisions and samples
that each move needs, what it latches and counts, capture by a stronger frame, a collision counted once a frame, the trigger that
acts when several arise in one symbol, and the frame that its coded symbols decode to.
The model's own choices and readings in it: log entries 16, 69 and 71. -/
def Obligations.LanternReception : Prop :=
  ∀ (s : State) (n : Lane) (level : BitVec 16) (levels : List (BitVec 16)) (decisions : List Bool) (soft : List (BitVec 4))
      (along : List LtTrigger),
    let b := Pg.LANTERN n
    let seen := signedOf 16 (s.d.fld (b + LANTERN.RSSI) 0 16)
    let margin := s.d.fld (b + LANTERN.CAPTURE_CFG) 0 8
    let step := s.d.fld (b + LANTERN.CAPTURE_CFG) 8 8
    let thresh : Int := -(s.d.fld (b + LANTERN.DETECT_CFG) 0 8 : Int)
    let above (k : Nat) (x : Int) : Prop := k ≤ levels.length ∧ (levels.drop (levels.length - k)).all (fun y => decide (x < y.toInt)) = true
    let below (k : Nat) (x : Int) : Prop := k ≤ levels.length ∧ (levels.drop (levels.length - k)).all (fun y => decide (y.toInt < x)) = true
    let wrong (l : List Bool) : Nat :=
      (List.range 32).countP (fun i => l.getD (l.length - 32 + i) false != (0x5B3E90C7 : BitVec 32).getLsbD (31 - i))
    let found (l : List Bool) : Prop := 32 ≤ l.length ∧ wrong l ≤ s.d.fld (b + LANTERN.DETECT_CFG) 8 8
    let head := bytesOfBits (viterbiSoFar soft)
    let frame := softFrame soft
    let valid (f : List Byte) : Prop := (f.getD 0 0).toNat / 16 = 1 ∧ (f.getD 2 0).toNat ≤ 240
    let first (t : LtTrigger) : Prop := Dev.ltFirst t along = true
    let kept (t : Dev) : Prop := Frame [] (fun _ => False) s.d t
    let plain (k : Nat) (t : Dev) : Prop := t.ltState n = k ∧ Frame [] (· = b + LANTERN.LT_STATUS) s.d t
    let counted (k c : Nat) (t : Dev) : Prop := t.ltState n = k ∧ Counted c s.d t
      ∧ Frame [] (fun x => x = b + LANTERN.LT_STATUS ∨ x = c ∨ x = b + LANTERN.RSSI ∨ x = b + HDR.INT_STATUS) s.d t
    (s.d.ltState n = 1 → above 8 (thresh - 1) → Gives (.lanternEnergyDetect n levels) s (plain 2))
    ∧ (¬ above 8 (thresh - 1) → Gives (.lanternEnergyDetect n levels) s kept)
    ∧ (∀ symbols : Nat, s.d.ltState n = 2 → 256 ≤ symbols ∨ below 16 thresh → Gives (.lanternAcquireAbandon n symbols levels) s (plain 1))
    ∧ (s.d.ltState n = 2 → s.d.fld (b + LANTERN.AGC_CFG) 0 5 ≤ decisions.length →
        s.d.fld (b + LANTERN.DETECT_CFG) 16 8 ≤ (decisions.drop (decisions.length - 64)).countP id →
        Gives (.lanternPreambleDetect n level decisions) s (fun t => counted 3 (b + LANTERN.RX_DETECT) t
        ∧ t.fld (b + LANTERN.RSSI) 16 16 = level.toNat))
    ∧ (s.d.ltState n = 3 → decisions.length ≤ 128 → found decisions → Gives (.lanternSyncFound n level decisions) s (fun t => t.ltState n = 4
        ∧ t.fld (b + LANTERN.RSSI) 0 16 = level.toNat ∧ (t.ltn n).syncAt = s.d.time.now.setWidth 64 ∧ (t.ltn n).collided = false))
    ∧ (¬ found decisions → Gives (.lanternSyncFound n level decisions) s kept)
    ∧ (s.d.ltState n = 3 → 128 ≤ decisions.length → (∀ k, k ≤ 128 → ¬ found (decisions.take k)) →
        Gives (.lanternSyncWindowExpire n decisions) s (counted 1 (b + LANTERN.RX_FALSE)))
    ∧ (∀ full samples : Nat, s.d.ltState n = 3 ∨ s.d.ltState n = 4 → samples < 16 * full → first .clip →
        Gives (.lanternClip n full samples along) s (fun t => counted 1 (b + LANTERN.RX_CLIP) t ∧ t.bit (b + HDR.INT_STATUS) 18 = true))
    ∧ (s.d.ltState n = 4 → above 4 (seen + margin) → (s.d.ltn n).collided = false → first .capture → Gives (.lanternCapture n levels along) s (fun t =>
        counted 2 (b + LANTERN.RX_PREEMPTED) t ∧ t.bit (b + HDR.INT_STATUS) 14 = true))
    ∧ (¬ above 4 (seen + margin) ∨ (s.d.ltn n).collided = true → Gives (.lanternCapture n levels along) s kept)
    ∧ (s.d.ltState n = 4 → above 8 (seen + step) → below 8 (seen + margin + 1) →
        ((s.d.ltn n).collided = false → Gives (.lanternCollision n levels []) s (fun t => (t.ltn n).collided = true ∧ t.ltState n = 4
          ∧ Counted (b + LANTERN.RX_COLLISION) s.d t ∧ t.bit (b + HDR.INT_STATUS) 15 = true))
        ∧ ((s.d.ltn n).collided = true → Gives (.lanternCollision n levels []) s kept))
    ∧ (s.d.ltState n = 4 → below 16 thresh → first .lost → Gives (.lanternSignalLost n levels along) s (counted 1 (b + LANTERN.RX_LOST_SIG)))
    ∧ (s.d.ltState n = 4 → first .header → Gives (.lanternHeaderError n soft along) s (fun t =>
        if 3 ≤ head.length ∧ ¬ valid head then counted 1 (b + LANTERN.RX_HDR) t else kept t))
    ∧ (s.d.ltState n = 4 → first .frameEnd → Gives (.lanternFrameEnd n soft along) s (fun t =>
        if valid frame ∧ frame.length = 28 + (frame.getD 2 0).toNat then
          t.ltState n = 1 ∧ (t.ltn n).checks = (s.d.ltn n).checks ++ [⟨frame, s.d.assisted b, none⟩]
          ∧ Frame [.lt] (· = b + LANTERN.LT_STATUS) s.d t
        else kept t))

/-- R303, R307 to R309: a frame that fails a check is counted under the first it fails; one that passes all raises the
floor of its key slot, is counted and acts by its type: the far identity, its restart, its fault and its reply are kept,
a host-defined frame goes to the ring, a reserved type is counted. Under Vigil wake a passing IDENTITY frame is only counted in
`RX_UNKNOWN` (R315).
R287, R288: a tuning request of a lane of the port, new and well formed, on a transmitter that allows it, is applied or
refused with its status, counted, and answered; a request repeated is answered as before.
The model's own choices and readings in it: log entries 11, 26 and 40. -/
def Obligations.LanternMessages : Prop :=
  (∀ (s : State) (n : Lane) (f : List Byte) (rest : List RxFrame),
    let b := Pg.LANTERN n
    let p := Dev.framePayload f
    let type := Dev.hdrType f
    let key := s.d.keySlot n (Dev.hdrKey f)
    let good := Dev.crcOk f = true ∧ s.d.authOk n key f = true ∧ Dev.replayOk key f = true ∧ s.d.rateOk n = true
    let taken (t : Dev) : Prop := (t.ltn n).checks = rest ∧ Counted (b + LANTERN.RX_OK) s.d t
      ∧ (t.keySlot n (Dev.hdrKey f)).floor = Dev.hdrCounter f
    let failed (c : Nat) (t : Dev) : Prop := (t.ltn n).checks = rest ∧ Counted c s.d t ∧ t.rd (b + LANTERN.RX_OK) = s.d.rd (b + LANTERN.RX_OK)
    ((s.d.ltn n).checks = ⟨f, false, none⟩ :: rest → s.d.bit (b + LANTERN.LT_STATUS) 10 = true → good → type = 1 →
      Gives (.identity n) s (fun t => (t.ltn n).checks = rest ∧ Counted (b + LANTERN.RX_UNKNOWN) s.d t
        ∧ t.rd (b + LANTERN.RX_OK) = s.d.rd (b + LANTERN.RX_OK)))
    ∧ ((s.d.ltn n).checks = ⟨f, false, none⟩ :: rest → s.d.bit (b + LANTERN.LT_STATUS) 10 = false →
      (Dev.crcOk f = false → Gives (.lanternFrameReject n) s (failed (b + LANTERN.RX_CRC)))
      ∧ (Dev.crcOk f = true → s.d.authOk n key f = false → Gives (.lanternFrameReject n) s (fun t => failed (b + LANTERN.RX_AUTH) t
          ∧ t.bit (b + HDR.INT_STATUS) 12 = true ∧ t.keySlot n (Dev.hdrKey f) = s.d.keySlot n (Dev.hdrKey f)))
      ∧ (Dev.crcOk f = true → s.d.authOk n key f = true → Dev.replayOk key f = false →
          Gives (.lanternFrameReject n) s (failed (b + LANTERN.RX_REPLAY)))
      ∧ (Dev.crcOk f = true → s.d.authOk n key f = true → Dev.replayOk key f = true → s.d.rateOk n = false →
          Gives (.lanternFrameReject n) s (fun t => failed (b + LANTERN.RX_RATE) t
            ∧ (t.keySlot n (Dev.hdrKey f)).floor = Dev.hdrCounter f))
      ∧ (good → type = 1 → 32 ≤ p.length → Gives (.identity n) s (fun t => taken t
          ∧ t.rdWords (b + LANTERN.FAR_ID) 8 = (List.range 8).map (wordBE p) ∧ t.bit (b + LANTERN.FAR_STATE) 31 = true))
      ∧ (good → type = 3 → 10 ≤ p.length → Gives (.tuneReply n) s (fun t => taken t
          ∧ t.rdWords (b + LANTERN.LAST_REPLY) 3 = (List.range 3).map (wordBE (p.take 10 ++ [0, 0]))))
      ∧ (good → type = 4 → 4 ≤ p.length → Gives (.warm n) s (fun t => taken t ∧ Counted (b + LANTERN.FAR_RESTARTS) s.d t
          ∧ t.bit (b + HDR.INT_STATUS) 11 = true ∧ t.fld (b + LANTERN.FAR_STATE) 0 16 = natBE (slice p 2 2)))
      ∧ (good → type = 5 → 8 ≤ p.length → Gives (.fault n) s (fun t => taken t ∧ t.bit (b + HDR.INT_STATUS) 10 = true
          ∧ t.fld (b + LANTERN.FAR_FAULT) 16 8 = (p.getD 1 0).toNat ∧ t.fld (b + LANTERN.FAR_FAULT) 8 8 = (p.getD 2 0).toNat))
      ∧ (good → 0x40 ≤ type → type ≤ 0x7F → Gives (.hostDefinedFrame n) s (fun t => taken t
          ∧ (s.d.ringRuns 4 = false → Counted (b + LANTERN.RX_RING_FULL) s.d t)))
      ∧ (good → type = 0 ∨ 6 < type → type < 0x40 ∨ 0x7F < type → Gives (.hostDefinedFrame n) s (fun t => taken t
          ∧ Counted (b + LANTERN.RX_UNKNOWN) s.d t))))
  ∧ (∀ (s : State) (n : Lane) (f : List Byte) (rest : List RxFrame),
    let b := Dev.framePayload f
    let x (i : Nat) := (b.getD i 0).toNat
    let lane := s.d.linePort n + x 1 / 16
    let a := Pg.LTX lane
    let req := BitVec.ofNat 16 (natBE (slice b 2 2))
    let r := s.d.tuneTaps lane (x 4) (x 5) (signedOf 16 (natBE (slice b 6 2)))
    let good := Dev.crcOk f = true ∧ s.d.authOk n (s.d.keySlot n (Dev.hdrKey f)) f = true
      ∧ Dev.replayOk (s.d.keySlot n (Dev.hdrKey f)) f = true ∧ s.d.rateOk n = true ∧ Dev.hdrType f = 2
    (s.d.ltn n).checks = ⟨f, false, none⟩ :: rest → s.d.bit (Pg.LANTERN n + LANTERN.LT_STATUS) 10 = false → good → b.length = 12 →
      x 1 / 16 < s.d.lpWidth (s.d.linePort n) → s.d.assisted a = false →
      (∀ old, (s.d.ltn lane).tuneReply = some (req, old) → Gives (.tuneReq n) s (fun t => Counted (a + LTX.TUNE_DUP) s.d t
        ∧ (t.ltn lane).tuneReply = some (req, old)))
      ∧ ((s.d.ltn lane).tuneReply.map (·.1) ≠ some req → x 0 = 1 → x 1 % 16 = 0 → x 4 = 1 ∨ x 4 = 2 ∨ x 4 = 3 → x 5 ≤ 8 →
          (∀ i, 8 ≤ i → i < 12 → x i = 0) → s.d.bit (a + LTX.TUNE_CTRL) 0 = true → s.d.txState lane ≠ 0 → s.d.txState lane ≠ 3 →
        Gives (.tuneReq n) s (fun t => t.rd (a + LTX.TUNE_STATUS) = BitVec.ofNat 32 (2 ^ 31 + r.1 * 2 ^ 16 + req.toNat)
          ∧ (∃ reply, (t.ltn lane).tuneReply = some (req, reply) ∧ reply.getD 4 0 = BitVec.ofNat 8 r.1)
          ∧ (r.1 = 0 → x 4 ≠ 3 → Counted (a + LTX.TUNE_APPLIED) s.d t)
          ∧ (r.1 ≠ 0 → Counted (a + LTX.TUNE_REFUSED) s.d t ∧ t.bit (a + HDR.INT_STATUS) 10 = true))))

/-! ### Optical attach, analogue control and modules (11) -/

/-- R318, R322 to R325: an output enabled into CHECK on a Type E slice and HELD on a Type L slice, its check passed or
failed by the mean and by what the supervision senses, a trip in ACTIVE and no trip, a retry, CLEAR in FAULT, OFF; a code written by
its owner only. Currents are in 0.1 µA and voltages in 0.1 mV (log entry 79).
R321, R326 to R329, R331: generators synchronised; a sample of a monitor, rounded half to even, with its number, its flags and
its reference, its value 0 while a check has its converter; its upper words latched for the reader of `SAMPLE_LO`; an input of the
resampler, and its output from sixteen input samples.
The model's own choices and readings in it: log entries 16, 18, 41, 79 and 80. -/
def Obligations.AnalogueOutputsAndMonitors : Prop :=
  (∀ (s : State) (m : Master) (i : Slice) (k : Fin 10),
    let b := Dev.outBase i k
    let idac : Prop := k.val < 8
    let opens (code : Nat) (x : OutSense) : Prop :=
      if k.val < 8 then 4096 ≤ code ∧ x.current * 100 * 2 ^ 20 < (s.d.fld (Pg.ANA_COM + ANA_COM.SUP_CFG) 8 8 : Int) * 240000 * code
      else 500 * 65536 < (x.voltage * 65536 - 25000 * (code : Int)).natAbs
    let exceeds (code : Nat) (x : OutSense) : Prop :=
      if k.val < 8 then 4096 ≤ code ∧ (x.voltage < 2500 ∨ 25000 < x.voltage) else 100000 < x.current.natAbs
    let checked : Nat := if k.val < 8 then s.d.fld (Pg.ANA_COM + ANA_COM.CHK_CODE) 0 20 else s.d.fld (b + ANA.CODE) 0 16
    let fits (mean : Nat) : Prop :=
      if k.val < 8 then ((mean : Int) * 2 ^ 20 - 240000 * checked).natAbs * 1000
          ≤ s.d.fld (Pg.ANA_COM + ANA_COM.CHK_TOL) 0 8 * (240000 * checked)
      else ((mean : Int) * 65536 - 25000 * checked).natAbs * 100
          ≤ s.d.fld (Pg.ANA_COM + ANA_COM.CHK_TOL) 16 8 * 65536000 + 25000 * checked
    let faulted (cause : Nat) (t : Dev) : Prop := t.outState i k = 3 ∧ t.fld (b + ANA.OUT_STATUS) 8 3 = cause
      ∧ t.bit (Pg.ANA i + HDR.INT_STATUS) (8 + k) = true
      ∧ t.rd (Pg.ANA i + ANA.FAULT_COUNT + 4 * k) = s.d.rd (Pg.ANA i + ANA.FAULT_COUNT + 4 * k) + 1
    let queued (t : Dev) : Prop := t.outState i k = 1 ∧ t.bit (Pg.ANA i + ANA.CHK_STATUS) k = true
    (Admits s m (b + ANA.OUT_CFG) → s.d.outState i k = 0 → s.d.typeE i = true → s.d.calValidA (16 + i) = true →
      Gives (.outEnable m i k) s (fun t => queued t ∧ t.outEn i k = true))
    ∧ (Admits s m (b + ANA.OUT_CFG) → s.d.outState i k = 0 → s.d.typeE i = false →
        Gives (.outEnable m i k) s (fun t => t.outState i k = 4 ∧ t.outEn i k = true))
    ∧ (Admits s m (b + ANA.OUT_CFG) → s.d.outState i k ≠ 5 → Gives (.outDisable m i k) s (fun t => t.outState i k = 0
        ∧ t.outEn i k = false))
    ∧ (Admits s m (Pg.ANA i + ANA.OUT_CMD) → s.d.outState i k = 3 → Gives (.outCmdClear m i k) s (fun t => queued t
        ∧ t.outRetries i k = 0))
    ∧ (Admits s m (Pg.ANA i + ANA.OUT_CMD) → s.d.outState i k ≠ 3 →
        Gives (.outCmdClear m i k) s (Rejected m (Pg.ANA i + ANA.OUT_CMD) 0x0D s.d))
    ∧ (s.d.outState i k = 3 → s.d.assisted (Pg.ANA i) = false → s.d.outRetries i k < s.d.fld (Pg.ANA i + ANA.ANA_CTRL) 16 8 →
        Gives (.outputRetry i k) s (fun t => queued t ∧ t.outRetries i k = s.d.outRetries i k + 1))
    ∧ (∀ (mean : BitVec 20) (x : OutSense), s.d.chkRuns i = true → s.d.chkOutput i = k → s.d.outState i k = 1 → s.d.bit (Pg.ANA i + ANA.CHK_STATUS) k = true →
        (fits mean.toNat → (idac → ¬ opens checked x ∧ ¬ exceeds checked x) →
          bitOf (Sparse.get (fun _ => 0) s.d.cal.oor (16 + i)) k = false → Gives (.readbackCheckDone i mean x) s (fun t =>
          t.outState i k = 2 ∧ t.rd (Pg.ANA i + ANA.CHK_VALUE) = BitVec.ofNat 32 (2 ^ 31 + k.val * 2 ^ 24 + mean.toNat)
          ∧ t.bit (Pg.ANA i + ANA.CHK_STATUS) k = false))
        ∧ (idac → opens checked x → Gives (.readbackCheckDone i mean x) s (faulted 2))
        ∧ (idac → ¬ opens checked x → exceeds checked x → Gives (.readbackCheckDone i mean x) s (faulted 1))
        ∧ (¬ fits mean.toNat → (idac → ¬ opens checked x ∧ ¬ exceeds checked x) →
            Gives (.readbackCheckDone i mean x) s (faulted 3)))
    ∧ (∀ x : OutSense, s.d.outState i k = 2 →
        (opens (s.d.appliedCode i k) x → Gives (.supervisionTrip i k x) s (fun t => faulted 2 t
          ∧ t.rd (b + ANA.CODE) = s.d.rd (b + ANA.CODE)))
        ∧ (¬ opens (s.d.appliedCode i k) x → exceeds (s.d.appliedCode i k) x → Gives (.supervisionTrip i k x) s (faulted 1))
        ∧ (¬ opens (s.d.appliedCode i k) x → ¬ exceeds (s.d.appliedCode i k) x →
            Gives (.supervisionTrip i k x) s (Frame [] (fun _ => False) s.d)))
    ∧ (∀ v : Word, Admits s m (b + ANA.CODE) → s.d.outWriter i k m = true → Gives (.codeWrite m i k v) s (fun t =>
        Frame [.sent] (· = b + ANA.CODE) s.d t ∧ (t.rd (b + ANA.CODE)).toNat = v.toNat % 2 ^ (if k.val < 8 then 20 else 16)))
    ∧ (∀ v : Word, Admits s m (b + ANA.CODE) → s.d.outWriter i k m = false →
        Gives (.codeWrite m i k v) s (Rejected m (b + ANA.CODE) 0x0D s.d)))
  ∧ (∀ (s : State) (m : Master) (i : Slice) (c : Fin 12),
    let b := Dev.chBase i c
    let rounded (sum : Int) (frac : Nat) : Int := max (-(2 ^ 39)) (min (2 ^ 39 - 1) (roundHalfEven sum frac))
    let heard (j : Fin 8) : Nat × List (BitVec 40 × Bool) := Sparse.get (fun _ => (0, [])) s.d.ana.rsIn j
    let at_ (j : Fin 8) : Nat := Sparse.get (fun _ => 0) s.d.ana.rsPos j
    let value (t : Dev) (a : Nat) : Nat := t.fld (a + DECIM.SAMPLE_HI) 0 8 * 2 ^ 32 + (t.rd (a + DECIM.SAMPLE_LO)).toNat
    (∀ gens : BitVec 16, Admits s m (Pg.DITHER + DITHER.DITHER_CMD) → Gives (.ditherSync m gens) s (fun t =>
      Frame [.ana] (fun _ => False) s.d t ∧ (∀ g : Fin 16, gens.getLsbD g = true → t.ditherPhase g = 0)
      ∧ ∀ g : Fin 16, gens.getLsbD g = false → t.ditherPhase g = s.d.ditherPhase g))
    ∧ (∀ (sum : Int) (ovr : Bool), s.d.bit (b + DECIM.CH_CFG) 0 = true →
        (s.d.chkRuns i = false ∨ s.d.rbChannel i ≠ c → Gives (.monitorSample i c sum ovr false) s (fun t =>
          value t b = (if ovr then (if rounded sum 24 < 0 then BitVec.intMin 40 else BitVec.intMax 40)
            else BitVec.ofInt 40 (rounded sum 24)).toNat
          ∧ t.fld (b + DECIM.SAMPLE_HI) 16 16 = (s.d.fld (b + DECIM.SAMPLE_HI) 16 16 + 1) % 2 ^ 16
          ∧ t.bit (b + DECIM.SAMPLE_HI) 10 = false ∧ t.bit (b + DECIM.SAMPLE_HI) 9 = ovr
          ∧ t.bit (b + DECIM.SAMPLE_HI) 8 = decide (s.d.settleLeft i c ≠ 0)
          ∧ (ovr = true → Counted (b + DECIM.OVER_COUNT) s.d t ∧ t.bit (Pg.DECIM i + HDR.INT_STATUS) (8 + c) = true)
          ∧ t.rd (b + DECIM.REF) = (if s.d.bit (b + DECIM.CH_CFG) 12 then s.d.refPair i c else 0)
          ∧ t.bit (Pg.LSEQ (2 * i) + LSEQ.EVENT_PEND) (8 + c) = true
          ∧ t.bit (Pg.LSEQ (2 * i + 1) + LSEQ.EVENT_PEND) (8 + c) = true))
        ∧ (s.d.chkRuns i = true → s.d.rbChannel i = c → Gives (.monitorSample i c sum ovr false) s (fun t => value t b = 0
          ∧ t.bit (b + DECIM.SAMPLE_HI) 10 = true ∧ t.bit (b + DECIM.SAMPLE_HI) 9 = false)))
    ∧ (s.d.readErr m (b + DECIM.SAMPLE_LO) = none → s.d.busy (0x0A8 + i) = false → Gives (.sampleLoRead m i c) s (fun t =>
        t.sent = .readData m (b + DECIM.SAMPLE_LO) (s.d.rd (b + DECIM.SAMPLE_LO)) :: s.d.sent
        ∧ Sparse.get (fun _ => (0, 0)) t.ana.latch (256 * (12 * i.val + c) + (masterId m).toNat)
            = (s.d.rd (b + DECIM.SAMPLE_HI), s.d.rd (b + DECIM.REF))
        ∧ Frame [.ana, .sent] (fun _ => False) s.d t))
    ∧ (∀ (j : Fin 8) (x : BitVec 40 × Bool), s.d.rsOn j = true → 64 ≤ s.d.fld (Dev.rsBase j + RESAMP.RS_CFG) 8 7 →
        (heard j).1 + 1 ≤ at_ j / 2 ^ 36 + 8 → Gives (.resamplerSample j [x]) s (fun t => Frame [.ana] (fun _ => False) s.d t
          ∧ Sparse.get (fun _ => (0, [])) t.ana.rsIn j = ((heard j).1 + 1, (x :: (heard j).2).take 64)))
    ∧ (∀ j : Fin 8, s.d.rsOn j = false ∨ s.d.rsWindow j = none → Gives (.resamplerSample j []) s (Frame [] (fun _ => False) s.d))
    ∧ (∀ (j : Fin 8) (w : List (BitVec 40 × Bool)), s.d.rsOn j = true → s.d.rsWindow j = some w → Gives (.resamplerSample j []) s (fun t =>
        t.fld (Dev.rsBase j + RESAMP.SAMPLE_HI) 0 8 * 2 ^ 32 + (t.rd (Dev.rsBase j + RESAMP.SAMPLE_LO)).toNat
          = (BitVec.ofInt 40 (rounded ((w.zipIdx.map (fun x => Config.rsCoef (at_ j / 2 ^ 30 % 64) x.2 * x.1.1.toInt)).sum) 30)).toNat
        ∧ t.fld (Dev.rsBase j + RESAMP.SAMPLE_HI) 16 16 = (s.d.fld (Dev.rsBase j + RESAMP.SAMPLE_HI) 16 16 + 1) % 2 ^ 16
        ∧ t.bit (Dev.rsBase j + RESAMP.SAMPLE_HI) 9 = w.any Prod.snd
        ∧ Sparse.get (fun _ => 0) t.ana.rsPos j = at_ j + s.d.rsStep j)))

/-- R25, R58, R70, R334 to R337: a module removed and inserted; a poll runs only in the states of R336, with the management
controller running and the port not in its safe state; it takes INSERTED to IDENTIFY, counts address NACKs toward isolation, which
`ISO_COUNT` 0 never brings, and isolates on a stuck bus; the time limits and commands of the port.
R334, R338, R339: a host transaction refused for its size or in the wrong state, started, and ended by the module's
answer or by a time limit, after which the bus may be stuck. The state is checked before the size (log entry 5).
The model's own choices and readings in it: log entries 5, 41 and 83. -/
def Obligations.Modules : Prop :=
  (∀ (s : State) (m : Master) (n : Lane),
    let b := Pg.MM n
    let st := s.d.mmState n
    let polls : Prop := 2 ≤ st ∧ st ≤ 7 ∧ s.d.isl.mcDown = false ∧ s.d.lineSafe n = false
    let bus (p : ModulePoll) : Prop := (s.d.mmo n).recover = false ∧ p.sdaLow = false
    let enough := s.d.fld (b + MM.POLL_CFG) 16 8
    (s.d.typeE (n / 4) = false → 2 ≤ st → st ≤ 8 → Gives (.moduleRemoved n) s (fun t => t.mmState n = 1
      ∧ t.bit (b + MM.MM_STATE) 8 = false ∧ (t.mmo n).resetN = false ∧ (t.mmo n).lpMode = true ∧ t.bit (b + HDR.INT_STATUS) 12 = true))
    ∧ (s.d.typeE (n / 4) = false → st = 1 → Gives (.moduleInserted n) s (fun t => t.mmState n = 2
        ∧ t.bit (b + MM.MM_STATE) 8 = true ∧ (t.mmo n).resetN = true
        ∧ t.rd (b + MM.INSERTIONS) = s.d.rd (b + MM.INSERTIONS) + 1))
    ∧ (∀ p : ModulePoll, ¬ polls → Gives (.modulePoll n p) s (Frame [] (fun _ => False) s.d))
    ∧ (∀ p : ModulePoll, polls → st = 2 → bus p → p.result = .ok →
        Gives (.modulePoll n p) s (fun t => t.mmState n = 3 ∧ t.fld (b + MM.MM_STATE) 12 3 = (p.lower.getD 3 0).toNat / 2 % 8
          ∧ t.rd (b + MM.XFERS) = s.d.rd (b + MM.XFERS) + 1))
    ∧ (∀ p : ModulePoll, polls → 3 ≤ st → bus p → p.result = .nackAddr → Gives (.modulePoll n p) s (fun t =>
        t.rd (b + MM.NACKS) = s.d.rd (b + MM.NACKS) + 1 ∧ (t.mmo n).nacks = (s.d.mmo n).nacks + 1
        ∧ (if 0 < enough ∧ enough ≤ (s.d.mmo n).nacks + 1 then t.mmState n = 8 ∧ t.fld (b + MM.MM_STATE) 16 4 = 1
           else t.mmState n = st)))
    ∧ (∀ p : ModulePoll, polls → bus p → p.result = .stuck → Gives (.modulePoll n p) s (fun t => t.mmState n = 8
        ∧ t.fld (b + MM.MM_STATE) 16 4 = 3 ∧ t.rd (b + MM.ISOLATIONS) = s.d.rd (b + MM.ISOLATIONS) + 1
        ∧ t.rd (b + MM.BUS_RECOVERIES) = s.d.rd (b + MM.BUS_RECOVERIES) + 1))
    ∧ (st = 5 → Gives (.modulePowerupTimeout n) s (fun t => t.mmState n = 7 ∧ t.bit (b + HDR.INT_STATUS) 8 = true))
    ∧ (st = 2 → Gives (.initWaitTimeout n) s (fun t => t.mmState n = 8 ∧ t.fld (b + MM.MM_STATE) 16 4 = 1))
    ∧ (2 ≤ st → st ≤ 7 → s.d.rd (b + MM.MOD_FLAGS) = 0 → (∀ j, j < 5 → s.d.rd (b + MM.LANE_FLAGS + 4 * j) = 0) →
        Gives (.intStorm n) s (fun t => t.mmState n = 8 ∧ t.fld (b + MM.MM_STATE) 16 4 = 6))
    ∧ (Admits s m (b + MM.MM_CMD) → Gives (.repoll m n) s (fun t => (t.mmo n).extra = true ∧ Frame [.mm] (fun _ => False) s.d t))
    ∧ (Admits s m (b + MM.MM_CMD) → st = 7 ∨ st = 8 → Gives (.resetModule m n) s (fun t => t.mmState n = 2 ∧ (t.mmo n).resetN = true)
        ∧ Gives (.unisolate m n) s (fun t => t.mmState n = 2 ∧ (t.mmo n).resetN = true)))
  ∧ (∀ (s : State) (m : Master) (n : Lane) (low : Bool),
    let b := Pg.MM n
    let c := s.d.rd (b + MM.XFER_CTRL)
    let len := fieldOf c 0 8
    let blocked : Prop := s.d.xferBusy n = true ∨ s.d.mmState n = 8 ∨ s.d.lineSafe n = true
      ∨ s.d.assisted b = false ∧ s.d.typeE (n / 4) = false ∧ bitOf c 31 = true
    let ended (t : Dev) (r k : Nat) : Prop := t.rd (b + MM.XFER_STATUS) = BitVec.ofNat 32 (2 ^ 31 + r * 2 ^ 16 + k)
      ∧ t.bit (b + HDR.INT_STATUS) 11 = true
    (Admits s m (b + MM.MM_CMD) → ¬ blocked → 256 < fieldOf c 8 8 + len ∨ 128 < len →
      Gives (.xferGo m n low) s (Rejected m (b + MM.MM_CMD) 0x0C s.d))
    ∧ (Admits s m (b + MM.MM_CMD) → blocked →
        Gives (.xferGo m n low) s (Rejected m (b + MM.MM_CMD) 0x0D s.d))
    ∧ (Admits s m (b + MM.MM_CMD) → fieldOf c 8 8 + len ≤ 128 → 0 < len → ¬ blocked →
        bitOf c 31 = false → (s.d.mmo n).recover = false → Gives (.xferGo m n false) s (fun t => t.xferBusy n = true
          ∧ t.sent = .moduleXfer n false (fieldOf c 16 7) (fieldOf c 8 8) len [] :: s.d.sent
          ∧ Frame [.sent] (· = b + MM.XFER_STATUS) s.d t))
    ∧ (∀ bytes : List Byte, s.d.xferBusy n = true → bitOf c 31 = false → len ≤ 128 → Gives (.xferDone n (.ok bytes)) s (fun t =>
        ended t 0 len ∧ ∀ j, j < len → ((t.rdWords (b + MM.XFER_DATA) 32).flatMap wordBytesBE).getD j 0 = bytes.getD j 0))
    ∧ (s.d.xferBusy n = true → s.d.fld (b + MM.POLL_CFG) 16 8 = 0 ∨ (s.d.mmo n).stretches + 1 < s.d.fld (b + MM.POLL_CFG) 16 8 →
        Gives (.stretchTimeout n false) s (fun t =>
        ended t 3 0 ∧ t.rd (b + MM.STRETCH_TMOS) = s.d.rd (b + MM.STRETCH_TMOS) + 1 ∧ (s.d.lpOn n = true → s.d.mmState n ≠ 0 →
            (s.d.mmRaw n = true ↔ s.d.mmState n = 9) → (t.mmo n).stretches = (s.d.mmo n).stretches + 1)))
    ∧ (s.d.xferBusy n = true → Gives (.xferTimeout n false) s (fun t => ended t 4 0
        ∧ t.rd (b + MM.TIMEOUTS) = s.d.rd (b + MM.TIMEOUTS) + 1))
    ∧ (s.d.xferBusy n = true → bitOf c 31 = true → Gives (.writePollTimeout n false) s (fun t => ended t 6 len
        ∧ t.rd (b + MM.TIMEOUTS) = s.d.rd (b + MM.TIMEOUTS) + 1))
    ∧ (s.d.xferBusy n = true → Gives (.stretchTimeout n true) s (fun t => ended t 5 0)
        ∧ Gives (.xferTimeout n true) s (fun t => ended t 5 0)
        ∧ (bitOf c 31 = true → Gives (.writePollTimeout n true) s (fun t => ended t 5 0))))

/-! ### Sequencers (12) -/

/-- R344, the table's rows NOP, LDI, LDH, MOV, RDT and DOG: what a running sequencer's register holds after each, the next
address, and nothing else.
R344, rows ADD, SUB, ADDI, ABS: the exact result clamped to 40 bits, `SAT` set when it was clamped.
R344, row MUL: the integer nearest to the exact product over 2^s, the even one of two, clamped; R345: a scale above 39
is ILLEGAL, and the trap names the upper half of the instruction word.
R344, rows MIN, MAX, AND, OR, XOR, ANDI, SHL, SHR and SAR; R345: a shift above 39 is ILLEGAL.
The model's own choices and readings in it: log entry 22. -/
def Obligations.SequencerArithmetic : Prop :=
  (∀ (s : State) (k : SeqId) (d a : Fin 16), Runs s k →
    Gives (.nop k) s (Jumps k (s.d.seqPc k + 1) s.d)
    ∧ Gives (.dog k) s (Jumps k (s.d.seqPc k + 1) s.d)
    ∧ (∀ imm : BitVec 18, Gives (.ldi k d imm) s (Result k d (BitVec.ofInt 40 imm.toInt) false s.d))
    ∧ (∀ imm : BitVec 22, ∃ v : BitVec 40, Gives (.ldh k d imm) s (Result k d v false s.d)
        ∧ v.toNat = imm.toNat * 2 ^ 18 + (s.d.xreg k d).toNat % 2 ^ 18)
    ∧ Gives (.mov k d a) s (Result k d (s.d.xreg k a) false s.d)
    ∧ Gives (.rdt k d) s (Result k d (BitVec.ofNat 40 s.d.time.now.toNat) false s.d))
  ∧ (∀ (s : State) (k : SeqId) (d a b : Fin 16) (imm : BitVec 18), Runs s k →
    (∃ v sat, Gives (.add k d a b) s (Result k d v sat s.d) ∧ Clamped ((s.d.xreg k a).toInt + (s.d.xreg k b).toInt) v sat)
    ∧ (∃ v sat, Gives (.sub k d a b) s (Result k d v sat s.d) ∧ Clamped ((s.d.xreg k a).toInt - (s.d.xreg k b).toInt) v sat)
    ∧ (∃ v sat, Gives (.addi k d a imm) s (Result k d v sat s.d) ∧ Clamped ((s.d.xreg k a).toInt + imm.toInt) v sat)
    ∧ (∃ v sat, Gives (.abs k d a) s (Result k d v sat s.d) ∧ Clamped |(s.d.xreg k a).toInt| v sat))
  ∧ (∀ (s : State) (k : SeqId) (d a b : Fin 16) (n : BitVec 6), Runs s k →
    (n.toNat ≤ 39 → ∃ (r : Int) (v : BitVec 40) (sat : Bool), Gives (.mul k d a b n) s (Result k d v sat s.d) ∧ Clamped r v sat
      ∧ 2 * |r * 2 ^ n.toNat - (s.d.xreg k a).toInt * (s.d.xreg k b).toInt| ≤ 2 ^ n.toNat
      ∧ (2 * |r * 2 ^ n.toNat - (s.d.xreg k a).toInt * (s.d.xreg k b).toInt| = 2 ^ n.toNat → r % 2 = 0))
    ∧ (39 < n.toNat → Gives (.mul k d a b n) s (Trapped k 1 (0x1C00 + 64 * d.val + 4 * a.val + b.val / 4) (s.d.seqPc k) s.d)))
  ∧ (∀ (s : State) (k : SeqId) (d a b : Fin 16) (imm : BitVec 18), Runs s k →
    (∃ v, Gives (.min k d a b) s (Result k d v false s.d) ∧ v.toInt = min (s.d.xreg k a).toInt (s.d.xreg k b).toInt)
    ∧ (∃ v, Gives (.max k d a b) s (Result k d v false s.d) ∧ v.toInt = max (s.d.xreg k a).toInt (s.d.xreg k b).toInt)
    ∧ Gives (.and k d a b) s (Result k d (s.d.xreg k a &&& s.d.xreg k b) false s.d)
    ∧ Gives (.or k d a b) s (Result k d (s.d.xreg k a ||| s.d.xreg k b) false s.d)
    ∧ Gives (.xor k d a b) s (Result k d (s.d.xreg k a ^^^ s.d.xreg k b) false s.d)
    ∧ Gives (.andi k d a imm) s (Result k d (s.d.xreg k a &&& BitVec.ofInt 40 imm.toInt) false s.d)
    ∧ (imm.toNat % 64 ≤ 39 →
        Gives (.shl k d a imm) s (Result k d (BitVec.ofNat 40 ((s.d.xreg k a).toNat * 2 ^ (imm.toNat % 64))) false s.d)
        ∧ Gives (.shr k d a imm) s (Result k d (BitVec.ofNat 40 ((s.d.xreg k a).toNat / 2 ^ (imm.toNat % 64))) false s.d)
        ∧ ∃ v, Gives (.sar k d a imm) s (Result k d v false s.d) ∧ v.toInt = (s.d.xreg k a).toInt / 2 ^ (imm.toNat % 64))
    ∧ (39 < imm.toNat % 64 →
        Gives (.shl k d a imm) s (Trapped k 1 (0x4000 + 64 * d.val + 4 * a.val + imm.toNat / 2 ^ 16) (s.d.seqPc k) s.d)
        ∧ Gives (.shr k d a imm) s (Trapped k 1 (0x4400 + 64 * d.val + 4 * a.val + imm.toNat / 2 ^ 16) (s.d.seqPc k) s.d)
        ∧ Gives (.sar k d a imm) s (Trapped k 1 (0x4800 + 64 * d.val + 4 * a.val + imm.toNat / 2 ^ 16) (s.d.seqPc k) s.d)))

/-- R344, R345, rows LD and ST: a data word at X[a] + imm read or written; outside 0 to 1,023 the trap DATA_ADDR.
R344, R345, rows BR, CALL, RET and JR: the conditions of BR, the eight return addresses, and the traps ILLEGAL of a
condition code above 6 and STACK of a full or empty stack.
The model's own choices and readings in it: log entries 14 and 22. -/
def Obligations.SequencerDataAndBranches : Prop :=
  (∀ (s : State) (k : SeqId) (d a : Fin 16) (imm : BitVec 18), Runs s k →
    let x : Int := (s.d.xreg k a).toInt + imm.toInt
    (0 ≤ x ∧ x ≤ 1023 →
      Gives (.ld k d a imm) s (Result k d (s.d.dword k x.toNat) false s.d)
      ∧ Gives (.st k d a imm) s (fun t => Frame [.seq] (· = Dev.seqReg k) s.d t ∧ OthersKept k s.d t ∧ Advanced k s.d t
          ∧ t.sq k = { s.d.sq k with dmem := (t.sq k).dmem } ∧ t.dword k x.toNat = s.d.xreg k d
          ∧ ∀ i, i ≠ x.toNat → t.dword k i = s.d.dword k i))
    ∧ (x < 0 ∨ 1023 < x →
      Gives (.ld k d a imm) s (Trapped k 2 (x % 2 ^ 16).toNat (s.d.seqPc k) s.d)
      ∧ Gives (.st k d a imm) s (Trapped k 2 (x % 2 ^ 16).toNat (s.d.seqPc k) s.d)))
  ∧ (∀ (s : State) (k : SeqId) (c : BitVec 4) (a : Fin 16) (pc : BitVec 11), Runs s k →
    (c.toNat ≤ 6 → Gives (.br k c a pc) s (Jumps k
      (if (c = 0 ∨ c = 1 ∧ (s.d.xreg k a).toInt = 0 ∨ c = 2 ∧ (s.d.xreg k a).toInt ≠ 0 ∨ c = 3 ∧ (s.d.xreg k a).toInt < 0
            ∨ c = 4 ∧ 0 ≤ (s.d.xreg k a).toInt ∨ c = 5 ∧ 0 < (s.d.xreg k a).toInt ∨ c = 6 ∧ (s.d.xreg k a).toInt ≤ 0)
        then pc.toNat else s.d.seqPc k + 1) s.d))
    ∧ (6 < c.toNat → Gives (.br k c a pc) s (Trapped k 1 (0x8000 + 64 * c.toNat + 4 * a.val) (s.d.seqPc k) s.d))
    ∧ Gives (.jr k a) s (Jumps k ((s.d.xreg k a).toNat % 2048) s.d)
    ∧ ((s.d.sq k).stack.length < 8 → Gives (.call k pc) s (fun t => Frame [.seq] (· = Dev.seqReg k) s.d t ∧ OthersKept k s.d t
        ∧ t.sq k = { s.d.sq k with stack := BitVec.ofNat 11 (s.d.seqPc k + 1) :: (s.d.sq k).stack }
        ∧ t.rd (Dev.seqReg k) = withField (s.d.rd (Dev.seqReg k)) 16 11 pc.toNat))
    ∧ (8 ≤ (s.d.sq k).stack.length → Gives (.call k pc) s (Trapped k 4 0 (s.d.seqPc k) s.d))
    ∧ (∀ r rest, (s.d.sq k).stack = r :: rest → Gives (.ret k) s (fun t => Frame [.seq] (· = Dev.seqReg k) s.d t
        ∧ OthersKept k s.d t ∧ t.sq k = { s.d.sq k with stack := rest }
        ∧ t.rd (Dev.seqReg k) = withField (s.d.rd (Dev.seqReg k)) 16 11 r.toNat))
    ∧ ((s.d.sq k).stack = [] → Gives (.ret k) s (Trapped k 4 1 (s.d.seqPc k) s.d)))

/-- R349, R350, R347, R356: HALT and the breakpoint halt, which comes before the instruction, TRAP and the watchdog trap; a
restart after a trap, allowed or refused by the restarts of the last second.
R346: WAIT, the resumption of a waiting sequencer, TMR and the expiry of the timer, and `SEQ_CMD.KICK`. The events a
sequencer has are those of the table of events.
The model's own choices and readings in it: log entries 22, 42 and 86. -/
def Obligations.SequencerStopsAndEvents : Prop :=
  (∀ (s : State) (k : SeqId) (imm : BitVec 18) (d a : Fin 16),
    let recent := (s.d.sq k).restarts.filter (fun t => decide (s.d.mono < t + 1000000000))
    let halts := fun t : Dev => t.seqState k = 1 ∧ t.seqPc k = s.d.seqPc k ∧ t.bit (Pg.LSEQ k + HDR.INT_STATUS) 13 = true
      ∧ ∀ i, t.dword k i = s.d.dword k i
    (Runs s k → (s.d.sq k).toVendor = false → Gives (.halt k) s (fun t =>
      Frame [.seq] (fun a => a = Dev.seqReg k ∨ a = Pg.LSEQ k + LSEQ.WAIT_MASK ∨ a = Pg.LSEQ k + HDR.INT_STATUS) s.d t
      ∧ OthersKept k s.d t ∧ t.seqState k = 1 ∧ t.seqPc k = (s.d.seqPc k + 1) % 2048
      ∧ t.bit (Pg.LSEQ k + HDR.INT_STATUS) 9 = true))
    ∧ (Runs s k → Gives (.trap k imm) s (Trapped k 6 (imm.toNat % 2 ^ 16) (s.d.seqPc k) s.d))
    ∧ (s.d.seqState k = 2 → s.d.fld (Pg.LSEQ k + LSEQ.SEQ_CTRL) 16 16 ≠ 0 →
        Gives (.seqWatchdog k) s (Trapped k 5 0 (s.d.seqPc k) s.d))
    ∧ (s.d.seqState k = 2 → (s.d.sq k).winRd = none → s.d.bit (Pg.LSEQ k + LSEQ.BREAK) 31 = true →
        s.d.seqPc k = s.d.fld (Pg.LSEQ k + LSEQ.BREAK) 0 11 → (s.d.sq k).toVendor = false →
        Gives (.breakpointHalt k) s halts ∧ Gives (.nop k) s halts ∧ Gives (.st k d a imm) s halts)
    ∧ (s.d.seqState k = 4 → s.d.enabled (Pg.LSEQ k) = true → recent.length < s.d.fld (Pg.LSEQ k + LSEQ.SEQ_CTRL) 8 8 →
        Gives (.seqRestart k) s (fun t => t.seqState k = 2 ∧ t.seqPc k = (s.d.sq k).entry % 2048
          ∧ (t.sq k).restarts = recent ++ [s.d.mono] ∧ t.rd (Pg.LSEQ k + LSEQ.RESTARTS) = s.d.rd (Pg.LSEQ k + LSEQ.RESTARTS) + 1))
    ∧ (s.d.seqState k = 4 → (s.d.enabled (Pg.LSEQ k) = false ∨ s.d.fld (Pg.LSEQ k + LSEQ.SEQ_CTRL) 8 8 ≤ recent.length) →
        (s.d.sq k).toVendor = false → Gives (.seqRestart k) s (fun t => t.seqState k = 1
          ∧ t.bit (Pg.LSEQ k + HDR.INT_STATUS) 10 = true)))
  ∧ (∀ (s : State) (k : SeqId) (d a : Fin 16) (m : Master),
    let pend := s.d.rd (Pg.LSEQ k + LSEQ.EVENT_PEND)
    let inputs : Word := if k.val < 8 then 0x003FFF7F else 0x00001FFF
    let lowest (e : Fin 32) (mask : Word) : Prop :=
      (pend &&& mask &&& inputs).getLsbD e = true ∧ ∀ j : Fin 32, j < e → (pend &&& mask &&& inputs).getLsbD j = false
    let mask : Word := BitVec.ofNat 32 (s.d.xreg k a).toNat
    (Runs s k → (s.d.sq k).toVendor = false → mask &&& inputs = 0 →
      Gives (.wait k d a) s (Result k d (BitVec.ofInt 40 (-1)) false s.d))
    ∧ (∀ e : Fin 32, Runs s k → (s.d.sq k).toVendor = false → lowest e mask → Gives (.wait k d a) s (fun t =>
        t.xreg k d = BitVec.ofNat 40 e.val ∧ t.seqState k = 2 ∧ t.seqPc k = (s.d.seqPc k + 1) % 2048
        ∧ t.rd (Pg.LSEQ k + LSEQ.EVENT_PEND) = withBit pend e false))
    ∧ (Runs s k → (s.d.sq k).toVendor = false → mask &&& inputs ≠ 0 → pend &&& mask &&& inputs = 0 →
        Gives (.wait k d a) s (fun t => t.seqState k = 3 ∧ t.rd (Pg.LSEQ k + LSEQ.WAIT_MASK) = mask
          ∧ t.seqPc k = s.d.seqPc k ∧ ∀ i, t.xreg k i = s.d.xreg k i))
    ∧ (∀ e : Fin 32, s.d.seqState k = 3 → (s.d.sq k).stepping = false → lowest e (s.d.rd (Pg.LSEQ k + LSEQ.WAIT_MASK)) →
        Gives (.waitResume k) s (fun t => t.xreg k (s.d.sq k).waitD = BitVec.ofNat 40 e.val ∧ t.seqState k = 2
          ∧ t.seqPc k = (s.d.seqPc k + 1) % 2048 ∧ t.rd (Pg.LSEQ k + LSEQ.EVENT_PEND) = withBit pend e false))
    ∧ (∀ imm : BitVec 18, Runs s k → Gives (.tmr k a imm) s (fun t => Frame [.seq] (· = Dev.seqReg k) s.d t
        ∧ OthersKept k s.d t ∧ Advanced k s.d t
        ∧ t.sq k = { s.d.sq k with timer := if mask = 0 then none else some (mask.toNat, imm.getLsbD 0) }))
    ∧ (∀ p per, (s.d.sq k).timer = some (p, per) → Gives (.seqTimerExpiry k) s (fun t =>
        Frame [.seq] (· = Pg.LSEQ k + LSEQ.EVENT_PEND) s.d t ∧ OthersKept k s.d t
        ∧ t.rd (Pg.LSEQ k + LSEQ.EVENT_PEND) = withBit pend 0 true
        ∧ t.sq k = { s.d.sq k with timer := if per then some (p, per) else none }))
    ∧ (Admits s m (Pg.LSEQ k + LSEQ.SEQ_CMD) → Gives (.seqKick m k) s (fun t =>
        Frame [] (· = Pg.LSEQ k + LSEQ.EVENT_PEND) s.d t ∧ t.rd (Pg.LSEQ k + LSEQ.EVENT_PEND) = withBit pend 3 true)))

/-- R345, R346, R431 to R435, R438, rows SEND, RECV and DBL: eight data words to an inbox that has room, FULL and BAD_DEST
otherwise; the oldest message with its header, or EMPTY; a doorbell's value and count.
R341 to R344, rows LDW, STW and the returns of the window: a read in progress, its data or the trap of an unmapped slot;
a write into the buffer of a page that takes it, or waiting for a busy one, a fifth stalling; an error returned traps.
The model's own choices and readings in it: log entries 22, 26 and 42. -/
def Obligations.SequencerMessagesAndWindow : Prop :=
  (∀ (s : State) (k : SeqId) (d a b : Fin 16), Runs s k →
    let i := (s.d.xreg k a).toNat
    (i ≤ 1016 → ∀ e, Dev.endpointOf ((s.d.xreg k b).toNat % 256) = some e → e ≠ 3 + k.val →
      ((s.d.inbox e).length < Dev.inboxSize e → Gives (.send k d a b) s (fun t => t.xreg k d = 0 ∧ ∃ msg, t.inbox e = s.d.inbox e ++ [msg]
        ∧ msg.words = (List.range 8).map (fun j => BitVec.ofNat 32 (s.d.dword k (i + j)).toNat)
        ∧ msg.sender = masterId (seqMaster k) ∧ msg.epoch = s.d.epoch e ∧ msg.seq = s.d.seqNo (3 + k)))
      ∧ (Dev.inboxSize e ≤ (s.d.inbox e).length → (e = 0 → s.d.bit (Pg.MBX 0 + MBX.OVF_CTRL) 0 = false) →
          Gives (.send k d a b) s (fun t => t.xreg k d = 1 ∧ t.mbx.inbox = s.d.mbx.inbox)))
    ∧ (i ≤ 1016 → Dev.endpointOf ((s.d.xreg k b).toNat % 256) = none →
        Gives (.send k d a b) s (fun t => t.xreg k d = 2 ∧ t.mbx.inbox = s.d.mbx.inbox))
    ∧ (s.d.inbox (3 + k) = [] → Gives (.recv k d a) s (Result k d 1 false s.d))
    ∧ (∀ msg rest, s.d.inbox (3 + k) = msg :: rest → i ≤ 1014 → Gives (.recv k d a) s (fun t => t.xreg k d = 0
        ∧ t.inbox (3 + k) = rest ∧ (∀ j, j < 8 → t.dword k (i + j) = BitVec.setWidth 40 (msg.words.getD j 0))
        ∧ (t.dword k (i + 8) ++ t.dword k (i + 9) : BitVec 80) = Dev.header msg (msg.epoch != s.d.epoch (3 + k))
        ∧ (rest ≠ [] → t.bit (Pg.LSEQ k + LSEQ.EVENT_PEND) 1 = true)))
    ∧ (∀ e, Dev.endpointOf ((s.d.xreg k b).toNat % 256) = some e → e ≠ 3 + k.val → Gives (.dbl k a b) s (fun t =>
        Sparse.get (fun _ => 0) t.mbx.dbVal (32 * (3 + k) + e) = BitVec.ofNat 32 (s.d.xreg k a).toNat
        ∧ Sparse.get (fun _ => 0) t.mbx.dbCnt (32 * (3 + k) + e) = min 0xFFFF (Sparse.get (fun _ => 0) s.d.mbx.dbCnt (32 * (3 + k) + e) + 1)
        ∧ t.seqPc k = (s.d.seqPc k + 1) % 2048)))
  ∧ (∀ (s : State) (k : SeqId) (d a : Fin 16) (imm : BitVec 18),
    let w : BitVec 16 := BitVec.ofInt 16 ((s.d.xreg k a).toInt + imm.toInt)
    let pc := s.d.seqPc k
    (Runs s k → w.toNat < 0x6000 → Gives (.ldw k d a imm) s (fun t => Frame [.seq] (fun _ => False) s.d t
      ∧ OthersKept k s.d t ∧ t.sq k = { s.d.sq k with winRd := some (d, w) }))
    ∧ (Runs s k → 0x6000 ≤ w.toNat → Gives (.ldw k d a imm) s (Trapped k 3 0x0A pc s.d))
    ∧ (∀ r u x, s.d.seqState k = 2 → (s.d.sq k).winRd = some (r, u) → Dev.windowAddr k u = some x → s.d.windowPages k = [] →
        s.d.readErr (seqMaster k) x = none → s.d.busy (x / 0x1000) = false →
        Gives (.windowReadReturn k) s (fun t => t.xreg k r = BitVec.ofNat 40 (s.d.takeRead (seqMaster k) x).2.toNat
          ∧ (t.sq k).winRd = none))
    ∧ (Runs s k → w = 0x4000 + LSEQ.ROLE → (s.d.sq k).winQ = [] → Admits s (seqMaster k) (Pg.LSEQ k + LSEQ.ROLE) →
        Gives (.stw k d a imm) s (fun t => Advanced k s.d t ∧ t.buffered (0x0B0 + k) = some
          { master := seqMaster k, off := LSEQ.ROLE, sel := 0xFFFFFFFF, val := BitVec.ofNat 32 (s.d.xreg k d).toNat,
            pc := BitVec.ofNat 11 pc }))
    ∧ (∀ x, Runs s k → Dev.windowAddr k w = some x → s.d.busy (x / 0x1000) = true → Gives (.stw k d a imm) s (fun t =>
        if (s.d.sq k).winQ.length < 4 then Frame [.seq] (· = Dev.seqReg k) s.d t ∧ Advanced k s.d t
          ∧ t.sq k = { s.d.sq k with winQ := (s.d.sq k).winQ ++ [(w, BitVec.ofNat 32 (s.d.xreg k d).toNat, BitVec.ofNat 11 pc)] }
        else Frame [] (fun _ => False) s.d t))
    ∧ (∀ p c rest, (s.d.sq k).winErr = (p, c) :: rest → 1 ≤ s.d.seqState k → s.d.seqState k ≤ 3 → c < 2 ^ 8 →
        Gives (.windowWriteError k) s (Trapped k 3 c p.toNat s.d)))

/-- R348, R349, R352, R354: the commands START, CONT, HALT and STEP, and what START clears, reloads and keeps; START, CONT
and STEP elsewhere than in HALTED, or with `ENABLE` 0, are rejected.
R36, R37, R352 to R354, R356: writes of the X registers in HALTED, of `ROLE`, of data memory and of instruction memory
(dropped), a completed load, and an owner program replaced by the vendor's.
The model's own choices and readings in it: log entry 42. -/
def Obligations.SequencerCommandsAndWrites : Prop :=
  (∀ (s : State) (k : SeqId) (m : Master), Admits s m (Pg.LSEQ k + LSEQ.SEQ_CMD) →
    let can := s.d.seqState k = 1 ∧ s.d.enabled (Pg.LSEQ k) = true
    (can → (k.val < 8 → s.d.bit (Pg.LSEQ k + LSEQ.PROG_INFO) 30 = true → s.d.assisted (Pg.LSEQ k) = true) →
      Sparse.wf (fun _ => 0) (s.d.sq k).data0 = true → Sparse.wf (fun _ => 0) (s.d.sq k).dmem = true →
      Gives (.seqStart m k) s (fun t => t.seqState k = 2 ∧ t.seqPc k = (s.d.sq k).entry % 2048
        ∧ (∀ i, t.xreg k i = 0) ∧ (t.sq k).stack = [] ∧ (t.sq k).timer = none ∧ t.rd (Pg.LSEQ k + LSEQ.EVENT_PEND) = 0
        ∧ t.bit (Dev.seqReg k) 27 = false
        ∧ t.fld (Pg.LSEQ k + LSEQ.ROLE_EPOCH) 0 16 = (s.d.fld (Pg.LSEQ k + LSEQ.ROLE_EPOCH) 0 16 + 1) % 2 ^ 16
        ∧ ∀ i, t.dword k i = if i < s.d.fld (Pg.LSEQ k + LSEQ.PROG_INFO) 16 11
            then Sparse.get (fun _ => 0) (s.d.sq k).data0 i else s.d.dword k i))
    ∧ (can → Gives (.seqCont m k) s (fun t => t.seqState k = 2 ∧ t.seqPc k = s.d.seqPc k
        ∧ (∀ i, t.xreg k i = s.d.xreg k i) ∧ ∀ i, t.dword k i = s.d.dword k i))
    ∧ (2 ≤ s.d.seqState k → s.d.seqState k ≤ 4 → (s.d.sq k).toVendor = false → Gives (.seqHalt m k) s (fun t =>
        t.seqState k = 1 ∧ t.seqPc k = s.d.seqPc k ∧ t.bit (Pg.LSEQ k + HDR.INT_STATUS) 9 = true
        ∧ ∀ i, t.xreg k i = s.d.xreg k i))
    ∧ (∀ (d : Fin 16) (imm : BitVec 18), can → (s.d.sq k).toVendor = false →
        s.d.seqWord k = 2 ^ 26 + d.val * 2 ^ 22 + imm.toNat → Gives (.seqStep m k) s (fun t =>
          t.seqState k = 1 ∧ t.seqPc k = (s.d.seqPc k + 1) % 2048 ∧ t.xreg k d = BitVec.ofInt 40 imm.toInt))
    ∧ (s.d.seqState k ≠ 1 ∨ s.d.enabled (Pg.LSEQ k) = false →
        Gives (.seqStart m k) s (Rejected m (Pg.LSEQ k + LSEQ.SEQ_CMD) 0x0D s.d)
        ∧ Gives (.seqCont m k) s (Rejected m (Pg.LSEQ k + LSEQ.SEQ_CMD) 0x0D s.d)
        ∧ Gives (.seqStep m k) s (Rejected m (Pg.LSEQ k + LSEQ.SEQ_CMD) 0x0D s.d)))
  ∧ (∀ (s : State) (k : SeqId) (m : Master) (x : Fin 16) (v : Word),
    (∀ hi : Bool, Admits s m (Pg.LSEQ k + LSEQ.XREG + 8 * x + (if hi then 4 else 0)) → s.d.seqState k = 1 →
      Gives (.xregWrite m k x hi v) s (fun t => Frame [.seq] (fun _ => False) s.d t ∧ OthersKept k s.d t
        ∧ (∀ i, i ≠ x.val → t.xreg k i = s.d.xreg k i)
        ∧ t.xreg k x = (if hi then BitVec.ofNat 40 (v.toNat % 256 * 2 ^ 32
              + ((Sparse.get (fun _ => none) (s.d.sq k).xlo x).getD (BitVec.ofNat 32 (s.d.xreg k x).toNat)).toNat)
            else s.d.xreg k x)
        ∧ (hi = false → Sparse.get (fun _ => none) (t.sq k).xlo x = some v)))
    ∧ (∀ hi : Bool, Admits s m (Pg.LSEQ k + LSEQ.XREG + 8 * x + (if hi then 4 else 0)) → s.d.seqState k ≠ 1 →
      Gives (.xregWrite m k x hi v) s (Rejected m (Pg.LSEQ k + LSEQ.XREG + 8 * x + (if hi then 4 else 0)) 0x0D s.d))
    ∧ (Admits s m (Pg.LSEQ k + LSEQ.ROLE) → (m = seqMaster k ∨ s.d.seqState k = 1 ∧ s.d.holder (0x0B0 + k) = masterId m) →
        Gives (.roleWrite m k v) s (fun t => t.fld (Pg.LSEQ k + LSEQ.ROLE) 0 8 = v.toNat % 256
          ∧ t.fld (Pg.LSEQ k + LSEQ.ROLE_EPOCH) 0 16
            = (s.d.fld (Pg.LSEQ k + LSEQ.ROLE_EPOCH) 0 16 + (if s.d.fld (Pg.LSEQ k + LSEQ.ROLE) 0 8 = v.toNat % 256 then 0 else 1)) % 2 ^ 16
          ∧ Frame [] (fun a => a = Pg.LSEQ k + LSEQ.ROLE ∨ a = Pg.LSEQ k + LSEQ.ROLE_EPOCH) s.d t))
    ∧ (∀ (w : Fin 1024) (lo : Word), AdmitsBulk s m (0x0B0 + k) → s.d.seqState k = 1 →
        Gives (.seqDataWordWrite m k w false lo) s (fun t => Frame [.bus] (fun _ => False) s.d t
          ∧ Sparse.get (fun _ => none) t.bus.seqLo (1024 * k + w) = some lo)
        ∧ (Sparse.get (fun _ => none) s.d.bus.seqLo (1024 * k + w) = some lo →
            Gives (.seqDataWordWrite m k w true v) s (fun t => Frame [.bus, .seq] (fun _ => False) s.d t
              ∧ t.dword k w = BitVec.ofNat 40 (v.toNat % 256 * 2 ^ 32 + lo.toNat)
              ∧ ∀ i, i ≠ w.val → t.dword k i = s.d.dword k i)))
    ∧ (∀ w : Fin 2048, AdmitsBulk s m (0x0B0 + k) →
        Gives (.seqInstrWrite m k w v) s (fun t => (t.sq k).imem = (s.d.sq k).imem
          ∧ t.fld (Pg.LSEQ k + HDR.ERR_INFO) 22 8 = 0x0F ∧ t.bit (Pg.LSEQ k + HDR.INT_STATUS) 0 = true))
    ∧ (∀ image, s.d.seqState k = 5 → (s.d.sq k).load = some image → Gives (.loadComplete k) s (fun t =>
        (t.sq k).load = none ∧ t.bit (Pg.LSEQ k + LSEQ.PROG_INFO) 31 = true ∧ t.bit (Pg.LSEQ k + HDR.INT_STATUS) 11 = true
        ∧ t.seqState k = (if s.d.enabled (Pg.LSEQ k) && ((s.d.sq k).toVendor || s.d.bit (Pg.LSEQ k + LSEQ.SEQ_CTRL) 0) then 2 else 1)))
    ∧ (∀ i : Fin 8, k.val = i.val → Admits s m (Pg.LSEQ i + HDR.PAGE_CTRL) → s.d.assisted (Pg.LSEQ i) = true →
        s.d.bit (Pg.LSEQ i + LSEQ.PROG_INFO) 31 = true → s.d.bit (Pg.LSEQ i + LSEQ.PROG_INFO) 30 = true →
        Gives (.lseqHostAssistClear m i) s (fun t => t.assisted (Pg.LSEQ i) = false
          ∧ (s.d.seqState i = 2 → t.seqState i = 2 ∧ (t.sq i).toVendor = true)
          ∧ (3 ≤ s.d.seqState i → s.d.seqState i ≤ 4 → t.seqState i = if s.d.sec.loopProg.isSome then 5 else 1))))

/-! ### Calibration (13) -/

/-- R358, R359, R361, R364, R369, R371: a run started on the masked records, an empty mask ending at once, an abort; the part
in progress committed with its header, its temperature and its outcome, a value outside its field's range at the limit, the
run going on to its next part or ending with its flags; a bad reference commits nothing; a lane in CALIBRATE measured in
hardware mode outside a run; a result in a supply hold waits.
The model's own choices and readings in it: log entries 16, 43 and 87. -/
def Obligations.CalibrationRuns : Prop :=
  ∀ (s : State) (m : Master) (r : Fin 20) (p : CalPart) (q : CalMeasurement) (w : Nat) (vals : List Int) (rest : List Nat),
    let st := Pg.CAL + CAL.CAL_STATUS
    let a := Pg.CAL + CAL.CAL_CMD
    let b := p == .partB
    let this := 2 * r.val + (if b then 1 else 0)
    let outcome (t : Dev) (k : Nat) := let o := Sparse.get (fun _ => (0, 0)) t.cal.outcome (k / 2); if k % 2 = 1 then o.2 else o.1
    let mask := s.d.fld (Pg.CAL + CAL.CAL_RUN_MASK) 0 20
    let inRange (f : (Nat × Nat) × Int) := -(2 : Int) ^ (f.1.2 - 1) ≤ f.2 ∧ f.2 ≤ (2 : Int) ^ (f.1.2 - 1) - 1
    let committed (t : Dev) :=
      (∀ f ∈ (calFields r w).zip vals, signedOf f.1.2 (fieldOf (t.calWord r w) f.1.1 f.1.2)
        = max (-(2 : Int) ^ (f.1.2 - 1)) (min ((2 : Int) ^ (f.1.2 - 1) - 1) f.2))
      ∧ bitOf (t.calWord r 0) (if b then 30 else 31) = true ∧ fieldOf (t.calWord r 0) 0 16 = s.d.sliceTemp (Dev.calSlice r)
      ∧ fieldOf (t.calWord r 0) 28 2 = 1 ∧ fieldOf (t.calWord r 0) 16 8 = r.val
      ∧ ((∀ f ∈ (calFields r w).zip vals, inRange f) → outcome t this = 1)
      ∧ ((∃ f ∈ (calFields r w).zip vals, ¬ inRange f) → outcome t this = 3 ∧ t.bit (Pg.CAL + HDR.INT_STATUS) 10 = true
          ∧ (16 ≤ r.val → bitOf (Sparse.get (fun _ => 0) t.cal.oor r) (w - 1) = true))
      ∧ (∀ i j, i < 20 → j < 67 → (i ≠ r.val ∨ (j ≠ w ∧ j ≠ 0)) → t.calWord i j = s.d.calWord i j)
    let one := q.values = [(w, vals)] ∧ vals.length = (calFields r w).length ∧ calPartHas r b w = true ∧ s.d.cal.edited = []
    (Admits s m a → s.d.calRunning = false →
      (mask ≠ 0 → Gives (.calRun m) s (fun t => t.calRunning = true ∧ t.cal.abort = false
        ∧ t.cal.run = ((List.range 20).filter (fun i => mask.testBit i)).flatMap Dev.calParts))
      ∧ (mask = 0 → s.d.cal.rerun = [] → Gives (.calRun m) s (fun t => t.rd st = 0x30000000 ∧ t.cal.run = []
        ∧ t.bit (Pg.CAL + HDR.INT_STATUS) 8 = true)))
    ∧ (Admits s m a → s.d.calRunning = true → Gives (.calRun m) s (Rejected m a 0x0D s.d)
        ∧ Gives (.calAbort m) s (fun t => t.cal = { s.d.cal with abort := true } ∧ Frame [.cal] (fun _ => False) s.d t))
    ∧ (Admits s m a → s.d.calRunning = false → Gives (.calAbort m) s (Frame [] (fun _ => False) s.d))
    ∧ (s.d.supplyHold = true → Gives (.calPartDone r p q) s (fun t => t.cal = { s.d.cal with held := s.d.cal.held ++ [(r.val, p, q, s.d.calOccasion r b)] }
        ∧ Frame [.cal] (fun _ => False) s.d t))
    ∧ (s.d.supplyHold = false → s.d.cal.run = this :: rest → this ∉ rest → s.d.cal.rerun = [] →
        (s.d.cal.refDone = false → 1000 < q.refError.toInt.natAbs → rest = [] → Gives (.calPartDone r p q) s (fun t =>
          t.cal.master = s.d.cal.master ∧ t.cal.run = [] ∧ outcome t this = 4 ∧ t.bit st 30 = true ∧ t.bit st 31 = false
          ∧ t.bit (Pg.CAL + HDR.INT_STATUS) 9 = true))
        ∧ (s.d.cal.refDone = true → s.d.cal.unfit = true → Gives (.calPartDone r p q) s (fun t => t.cal.master = s.d.cal.master
            ∧ outcome t this = 2))
        ∧ (s.d.cal.refDone = true → s.d.cal.unfit = false → one → s.d.calPassed r w = false →
          Gives (.calPartDone r p q) s (fun t => committed t
            ∧ (∀ next more, rest = next :: more → if s.d.cal.abort then t.cal.run = [] ∧ outcome t next = 5 else t.cal.run = rest)
            ∧ (rest = [] → t.cal.run = [] ∧ t.bit st 29 = true ∧ t.bit st 31 = false ∧ t.bit (Pg.CAL + HDR.INT_STATUS) 8 = true))))
    ∧ (s.d.supplyHold = false → s.d.cal.run = [] → s.d.assisted Pg.CAL = false → r.val < 16 → b = false → s.d.rxState r = 1 →
        s.d.laneWaits r = false → one → q.refError.toInt.natAbs ≤ 1000 → Gives (.calPartDone r p q) s committed)

/-- R360, R366 to R369: a record restored from the staging registers by the holder of the page's lock, out of a supply hold
and when it is not being measured; one that does not meet its checks rejected; the record latched for the reader of
`LIVE[0]`; a correction field edited in an expert session; targets in service one step nearer, those out of service there at
once, none while the page is in the safe state.
The model's own choices and readings in it: log entries 43 and 52. -/
def Obligations.CalibrationRecords : Prop :=
  ∀ (s : State) (m : Master) (w : Fin 67) (v : Word) (i j : Nat),
    let a := Pg.CAL + CAL.CAL_CMD
    let e := Pg.CAL + CAL.LIVE + 4 * w.val
    let r := s.d.calSel
    let stage := s.d.rdWords (Pg.CAL + CAL.STAGE) (recLen r)
    (AdmitsHeld s m a → r < 20 →
      (s.d.supplyHold = true → Gives (.calRestore m) s (Rejected m a 0x0E s.d))
      ∧ (s.d.supplyHold = false → s.d.calMeasuring r = true → Gives (.calRestore m) s (Rejected m a 0x0D s.d))
      ∧ (s.d.supplyHold = false → s.d.calMeasuring r = false → s.d.calStagedOk r stage = true → Gives (.calRestore m) s (fun t =>
          (∀ k, 1 ≤ k → k + 1 < recLen r → t.calWord r k = stage.getD k 0)
          ∧ t.calWord r 0 = withField (stage.getD 0 0) 28 2 2
          ∧ (t.rd (Pg.CAL + CAL.RUN_TEMP + 4 * Dev.calSlice r)).toNat = fieldOf (stage.getD 0 0) 0 16))
      ∧ (s.d.supplyHold = false → s.d.calMeasuring r = false → s.d.calStagedOk r stage = false → Gives (.calRestore m) s (fun t =>
          t.cal = s.d.cal ∧ Counted (Pg.CAL + CAL.RESTORE_REJECTS) s.d t ∧ t.bit (Pg.CAL + HDR.INT_STATUS) 12 = true
          ∧ t.fld (Pg.CAL + HDR.ERR_INFO) 22 8 = 0x0C)))
    ∧ (Admits s m a → s.d.holder (a / 0x1000) = 0 → Gives (.calRestore m) s (Rejected m a 0x05 s.d))
    ∧ (s.d.readErr m (Pg.CAL + CAL.LIVE) = none → s.d.busy (Pg.CAL / 0x1000) = false → Gives (.liveRead m) s (fun t =>
        t.sent = .readData m (Pg.CAL + CAL.LIVE) ((s.d.calRecord r).getD 0 0) :: s.d.sent
        ∧ Sparse.get (fun _ => none) t.cal.latch (masterId m).toNat = some (s.d.calRecord r)
        ∧ Frame [.cal, .sent] (fun _ => False) s.d t))
    ∧ (Admits s m e → calFields r w ≠ [] → s.d.expert m 0x0E0 = true → s.d.supplyHold = false → Gives (.liveExpertWrite m w v) s (fun t =>
        t.calWord r w = v &&& calMask r w ∧ fieldOf (t.calWord r 0) 28 2 = 3
        ∧ ∀ k, k ≠ w.val → k ≠ 0 → k < 67 → t.calWord r k = s.d.calWord r k))
    ∧ (Admits s m e → calFields r w ≠ [] → s.d.expert m 0x0E0 = false → Gives (.liveExpertWrite m w v) s (Rejected m e 0x06 s.d))
    ∧ (Admits s m e → calFields r w = [] → Gives (.liveExpertWrite m w v) s (Frame [] (fun _ => False) s.d))
    ∧ (i < 20 → j < 66 → calFields i j ≠ [] → i ∉ s.d.cal.frozen → s.d.inSafe 0x0E0 = false → s.d.calApplied i j ≠ s.d.calWord i j →
        Gives .inServiceCalStep s (fun t => (∀ k, t.cal.master = s.d.cal.master ∧ t.rxState k = s.d.rxState k)
          ∧ (s.d.calService i j = .out → t.calApplied i j = s.d.calWord i j)
          ∧ (s.d.calService i j = .steps → t.calApplied i j = calStepWord i j (s.d.calApplied i j) (s.d.calWord i j))
          ∧ (s.d.calService i j = .paused → t.calApplied i j = s.d.calApplied i j)))
    ∧ (s.d.inSafe 0x0E0 = true → Gives .inServiceCalStep s (Frame [] (fun _ => False) s.d))

/-! ### Clocks, islands and resets (14) -/

/-- R385 to R388: a watchdog flags a hang and resets an island of 0 to 47, counted, and only flags a shared one; a reset
under the lock of the page, of an island below 60 that is on; a reset completes.
The model's own choices and readings in it: log entry 44. -/
def Obligations.IslandResets : Prop :=
  ∀ (s : State) (m : Master) (i : Island) (relocked : Bool),
    let b := Pg.CLKRST
    let a := b + CLKRST.ISLAND_CMD
    let sel := s.d.fld (b + CLKRST.ISLAND_SEL) 0 6
    let flagged (t : Dev) : Prop := t.bit (b + HDR.INT_STATUS) 11 = true ∧ t.rd (b + CLKRST.HANG_ISLAND) = BitVec.ofNat 32 (2 ^ 31 + i.val)
    (s.d.islandOn i = true → i.val < 48 → Gives (.islandWatchdog i) s (fun t => flagged t ∧ t.islandOn i = false
      ∧ t.wdResetting i = true ∧ Counted (b + CLKRST.WD_RESETS) s.d t ∧ ∀ j, j ≠ i.val → t.islandOn j = s.d.islandOn j))
    ∧ (s.d.islandOn i = true → 48 ≤ i.val → Gives (.islandWatchdog i) s (fun t => flagged t ∧ t.isl = s.d.isl
        ∧ t.rd (b + CLKRST.WD_RESETS) = s.d.rd (b + CLKRST.WD_RESETS)))
    ∧ (s.d.islandOn i = false → s.d.cmdResetting i = false → Gives (.islandWatchdog i) s (Frame [] (fun _ => False) s.d))
    ∧ (s.d.wdResetting i = true ∨ s.d.cmdResetting i = true → s.d.scanned i = false → Gives (.islandResetComplete i relocked) s (fun t =>
        t.wdResetting i = false ∧ t.cmdResetting i = false ∧ (s.d.cmdResetting i = true → t.bit (b + HDR.INT_STATUS) 12 = true)
        ∧ ∀ j, j ≠ i.val → t.islandOn j = s.d.islandOn j))
    ∧ (s.d.wdResetting i = false → s.d.cmdResetting i = false →
        Gives (.islandResetComplete i relocked) s (Frame [] (fun _ => False) s.d))
    ∧ (AdmitsHeld s m a → sel < 60 → s.d.islandOn sel = true → Gives (.islandCmdReset m) s (fun t => t.cmdResetting sel = true
        ∧ t.islandOn sel = false ∧ ∀ j, j ≠ sel → t.islandOn j = s.d.islandOn j))
    ∧ (AdmitsHeld s m a → 60 ≤ sel → Gives (.islandCmdReset m) s (Rejected m a 0x0C s.d))
    ∧ (AdmitsHeld s m a → sel < 60 → s.d.islandOn sel = false → Gives (.islandCmdReset m) s (Rejected m a 0x0D s.d))
    ∧ (Admits s m a → s.d.holder (a / 0x1000) = 0 → Gives (.islandCmdReset m) s (Rejected m a 0x05 s.d))

/-- R64, R383, R384, R389, R411: what a device reset loses and keeps, from RST_N or from `DEV_RESET` with its word by the
holder of the lock; a PCIe reset, by its three causes, stops the rings and ends what the host held; a reset of the management
controller and TRST_N release the locks of masters 3 and 4. Log entries 7 and 8: HBM contents read as never written, hidden
state as at reset.
The model's own choices and readings in it: log entries 7, 8, 25 and 45. -/
def Obligations.DeviceResets : Prop :=
  ∀ (s : State) (m : Master) (v : Word),
    let b := Pg.CLKRST
    let fresh (cause : Nat) (t : Dev) : Prop := t.bit (b + CLKRST.RESET_CAUSE) cause = true ∧ t.bus = Dev.reset.bus
      ∧ t.flow = Dev.reset.flow ∧ t.buf = Dev.reset.buf ∧ t.cls = Dev.reset.cls ∧ t.seq = Dev.reset.seq ∧ t.cal = Dev.reset.cal
      ∧ t.hif = { Dev.reset.hif with pend := t.hif.pend } ∧ t.mbx = Dev.reset.mbx ∧ t.sec = { Dev.reset.sec with fuses := s.d.sec.fuses }
      ∧ t.time.now = s.d.time.now ∧ (∀ n : Lane, (t.rxl n).ckpts = (s.d.rxl n).ckpts ∧ (t.ltn n).slots = (s.d.ltn n).slots)
      ∧ (∀ x, Dev.keptRegister x = true → x ≠ b + CLKRST.RESET_CAUSE → t.rd x = s.d.rd x)
      ∧ (∀ x, Dev.keptRegister x = false → x < 0x010000 ∨ 0x020000 ≤ x → t.rd x = regReset x)
    let released (m : Master) (t : Dev) : Prop := (∀ p, t.holder p = if s.d.holds m p then 0 else s.d.holder p) ∧ t.expertOpen m = false
    let pcie (t : Dev) : Prop := released .host t ∧ (∀ r, r < 8 → t.bit (Pg.RING r + RING.RING_CTRL) 0 = false ∧ t.ring r = RingSt.init)
      ∧ t.hif.masked = [] ∧ t.hif.hvRun = none ∧ t.isl = s.d.isl ∧ t.buf = s.d.buf ∧ t.flow = s.d.flow
    Gives .rstN s (fresh 1)
    ∧ (Admits s m (b + CLKRST.DEV_RESET) → s.d.resetAllowed m = true →
        Gives (.devReset m 0xA55A) s (fresh 2)
        ∧ (v ≠ 0xA55A → Gives (.devReset m v) s (Rejected m (b + CLKRST.DEV_RESET) 0x0D s.d)))
    ∧ (Admits s m (b + CLKRST.DEV_RESET) → s.d.resetAllowed m = false → Gives (.devReset m v) s (Rejected m (b + CLKRST.DEV_RESET) 0x0D s.d))
    ∧ (Admits s m (b + CLKRST.MC_RESET) → s.d.resetAllowed m = true → Gives (.mcReset m) s (fun t => released .mc t
        ∧ t.isl = { s.d.isl with mcDown := true } ∧ t.epoch 2 = s.d.epoch 2 + 1 ∧ t.sec.requests = []))
    ∧ (Admits s m (b + CLKRST.MC_RESET) → s.d.resetAllowed m = false → Gives (.mcReset m) s (Rejected m (b + CLKRST.MC_RESET) 0x0D s.d))
    ∧ Gives .perstN s pcie ∧ Gives .functionLevelReset s pcie ∧ Gives .pcieLinkReset s pcie
    ∧ Gives .trstN s (fun t => released .jtag t ∧ Frame [.bus, .sec] (· = Pg.BOOT + BOOT.IMG_STATUS) s.d t)

/-- R379 to R381: a reference declared lost, counted, taking its line or host locks with it and the time base or the core
into holdover; its return; a lock bit rising while its reference is there and falling, counted.
The model's own choices and readings in it: log entry 44. -/
def Obligations.ClockEvents : Prop :=
  ∀ (s : State) (r : Fin 3) (p : Fin 15),
    let b := Pg.CLKRST
    let pll := b + CLKRST.PLL_STATUS
    let ref := b + CLKRST.REF_STATUS
    let lock := Dev.pllBit p
    let gone := s.d.bit ref (Dev.pllRef p)
    (s.d.bit ref r = false → Gives (.refLoss r) s (fun t => t.bit ref r = true ∧ Counted (b + CLKRST.REF_LOSSES) s.d t
      ∧ t.bit (b + HDR.INT_STATUS) 8 = true
      ∧ (r = 0 → (∀ i, i < 4 → t.bit pll i = false) ∧ (s.d.bit pll 12 = true → t.bit pll 19 = true ∧ t.bit (b + HDR.INT_STATUS) 10 = true))
      ∧ (r = 1 → (∀ i, i < 4 → t.bit pll (4 + i) = false)
        ∧ (s.d.bit pll 11 = true → t.bit pll 18 = true ∧ t.bit (b + HDR.INT_STATUS) 10 = true))
      ∧ (r = 2 → t.rd pll = s.d.rd pll ∧ ∀ k, k < 8 → t.bit (Pg.RING k + RING.RING_CTRL) 0 = false)))
    ∧ (s.d.bit ref r = true → Gives (.refLoss r) s (Frame [] (fun _ => False) s.d))
    ∧ Gives (.refPresent r) s (fun t => t.bit ref r = false ∧ (∀ i, i ≠ r.val → t.bit ref i = s.d.bit ref i) ∧ Frame [] (· = ref) s.d t)
    ∧ (gone = false → s.d.islandOn 62 = true → Gives (.pllLock p) s (fun t => t.bit pll lock = true
        ∧ ∀ i, i ≠ lock → i < 18 → t.bit pll i = s.d.bit pll i))
    ∧ (gone = true → Gives (.pllLock p) s (Frame [] (fun _ => False) s.d))
    ∧ (s.d.bit pll lock = true → Gives (.pllUnlock p) s (fun t => t.bit pll lock = false ∧ Counted (b + CLKRST.PLL_UNLOCKS) s.d t
        ∧ t.bit (b + HDR.INT_STATUS) 9 = true ∧ ∀ i, i ≠ lock → t.bit pll i = s.d.bit pll i))
    ∧ (s.d.bit pll lock = false → Gives (.pllUnlock p) s (Frame [] (fun _ => False) s.d))

/-! ### Start-up, security and identity (15) -/

/-- R391, R393, R395: the start-up from the release of the power-on reset to the directory, the firmware and the training of
the stacks, each event in its turn; RECOVERY with its cause where neither directory, or two stacks, are usable.
R393, R394, R404, R455: the sequence goes on at the step that failed, at the command of the holder of the page's lock in
RECOVERY; a shutdown of the privileged set with its record, and its restart with the firmware that ran.
The model's own choices and readings in it: log entries 19, 50 and 85. -/
def Obligations.StartUp : Prop :=
  (∀ (s : State) (found : DirectoryFound) (copyB : Bool) (image : List Byte) (failed : BitVec 4) (i : Slice) (q : CalMeasurement),
    let b := Pg.BOOT
    let st := b + BOOT.BOOT_STATUS
    let out (t : Dev) (k : Nat) : Bool := Sparse.get (fun _ => false) t.isl.released k
    let bad := (List.range 4).filter (fun k => failed.toNat.testBit k)
    let at_ (step stage : Nat) (t : Dev) : Prop := t.sec.step = step ∧ t.bootStage = stage
    let recovers (event cause : Nat) (t : Dev) : Prop := t.bootStage = 8 ∧ t.fld st 16 8 = cause ∧ t.sec.failed = event
      ∧ t.bit (b + HDR.INT_STATUS) 8 = true ∧ ∀ k, k < 60 → out t k = false
    let use := if Directory.valid found.copyA then found.copyA else found.copyB
    let good := Directory.valid found.copyA = true ∨ Directory.valid found.copyB = true
    let firmware := (Directory.entries use).filter (fun e => e.type == 1)
    (s.d.sec.step = 0 → s.d.isl.privDown = false → s.d.bit (Pg.CLKRST + CLKRST.REF_STATUS) 1 = false →
      Gives .powerOnResetRelease s (fun t => at_ 2 1 t ∧ out t 60 = true ∧ out t 61 = true ∧ out t 62 = true ∧ t.isl.mcDown = true
        ∧ t.rd (b + BOOT.ROLLBACK_CTR) = BitVec.ofNat 32 s.d.rollCtr))
    ∧ (s.d.sec.step ≠ 0 → Gives .powerOnResetRelease s (Frame [] (fun _ => False) s.d))
    ∧ (s.d.sec.step = 2 → s.d.bootStage = 1 →
        (good → (∃ e ∈ firmware, e.copy = 0) → Gives (.directoryRead found) s (fun t => at_ 3 1 t
          ∧ t.sec.dir = Directory.entries use ∧ t.bit st 7 = !Directory.valid found.copyA ∧ Frame [.sec] (· = st) s.d t))
        ∧ (good → (∀ e ∈ firmware, 1 < e.copy) → Gives (.directoryRead found) s (recovers 5 2))
        ∧ (¬ good → Gives (.directoryRead found) s (recovers 3 1)))
    ∧ (s.d.sec.step = 3 → s.d.bootStage ≠ 8 → s.d.sec.retries % 2 = (if copyB then 1 else 0) →
        (∀ x ∈ s.d.sec.verify, x.path ≠ .flash) →
        ((s.d.dirEntry 1 (if copyB then 1 else 0)).map DirEntry.length = some image.length) →
        Gives (.firmwareRead copyB image) s (fun t => at_ 3 2 t ∧ t.sec.verify = s.d.sec.verify ++ [⟨.flash, 3, image⟩] ∧ t.bit st 6 = copyB ∧ Frame [.sec] (· = st) s.d t))
    ∧ (s.d.flashDue copyB image.length = false → Gives (.firmwareRead copyB image) s (Frame [] (fun _ => False) s.d))
    ∧ (s.d.sec.step = 5 → s.d.bootStage = 3 → s.d.isl.held = false → s.d.bootPlls = true →
        (failed = 0 → Gives (.hbmTrainingDone failed) s (fun t => at_ 7 4 t ∧ (∀ k, k < 60 → out t k = true)
          ∧ ∀ k : Stack, t.fld (Pg.HBM k + HBM.STACK_STATUS) 0 2 = 3))
        ∧ (2 ≤ bad.length → Gives (.hbmTrainingDone failed) s (recovers 7 3)))
    ∧ (s.d.sec.step = 8 → s.d.sec.calSlice = i.val → q.refError.toInt.natAbs ≤ 1000 →
        Gives (.startupCalibrationDone i q) s (fun t => t.sec.calSlice = i.val + 1 ∧ t.calValidA (16 + i) = true
          ∧ (i = 3 → (s.d.dirEntry 2 0).isSome = true → at_ 9 5 t ∧ t.sec.retries = 0))))
  ∧ (∀ (s : State) (m : Master) (z : Zone),
    let b := Pg.BOOT
    let st := b + BOOT.BOOT_STATUS
    let a := b + BOOT.BOOT_CMD
    let at_ (step stage : Nat) (t : Dev) : Prop := t.sec.step = step ∧ t.bootStage = stage ∧ t.fld st 16 8 = 0
    (AdmitsHeld s m a → s.d.bootStage = 8 →
      (s.d.sec.failed = 3 → Gives (.bootRetry m) s (fun t => at_ 2 1 t ∧ Frame [.sec] (· = st) s.d t))
      ∧ (s.d.sec.failed = 5 → s.d.sec.pendFw = none → (s.d.dirEntry 1 0).isSome = true → Gives (.bootRetry m) s (fun t => at_ 3 1 t ∧ Frame [.sec] (· = st) s.d t))
      ∧ (∀ v r l, s.d.sec.failed = 5 → s.d.sec.pendFw = some (v, r, l) → Gives (.bootRetry m) s (fun t => at_ 5 3 t
          ∧ t.rd (b + BOOT.FW_VERSION) = v ∧ t.sec.measFw = l ∧ t.sec.pendFw = none ∧ t.isl.mcDown = false))
      ∧ (s.d.sec.failed = 7 → Gives (.bootRetry m) s (fun t => at_ 5 3 t ∧ Frame [.sec] (· = st) s.d t))
      ∧ (s.d.sec.failed = 10 → (s.d.dirEntry 2 0).isSome = true → Gives (.bootRetry m) s (fun t => at_ 9 5 t
          ∧ (∀ k, k < 60 → Sparse.get (fun _ => false) t.isl.released k = true) ∧ Frame [.sec, .isl] (· = st) s.d t)))
    ∧ (AdmitsHeld s m a → s.d.bootStage ≠ 8 → Gives (.bootRetry m) s (Rejected m a 0x0D s.d))
    ∧ (Admits s m a → s.d.holder (a / 0x1000) = 0 → Gives (.bootRetry m) s (Rejected m a 0x05 s.d))
    ∧ (s.d.isl.privDown = false → Gives (.privilegedShutdown z) s (fun t => t.isl.privDown = true ∧ t.isl.mcDown = true
        ∧ t.isl.held = true ∧ t.sec.blow = [] ∧ t.rd (Pg.THERM + THERM.PRIV_TRIP) = BitVec.ofNat 32 (2 ^ 31 + z.val)))
    ∧ (s.d.isl.privDown = true → Gives (.privilegedShutdown z) s (Frame [] (fun _ => False) s.d)
        ∧ Gives .privilegedRestart s (fun t => t.isl.privDown = false ∧ t.isl.mcDown = false ∧ t.bootStage = 9 ∧ t.sec.step = 5
          ∧ t.bit (Pg.CLKRST + CLKRST.RESET_CAUSE) 4 = true ∧ t.rd (b + BOOT.FW_VERSION) = s.d.rd (b + BOOT.FW_VERSION)
          ∧ t.sec.measFw = s.d.sec.measFw))
    ∧ (s.d.isl.privDown = false → Gives .privilegedRestart s (Frame [] (fun _ => False) s.d)))

/-- R396 to R398, R400 to R402, R408: an image streamed by the master that holds the page's lock, its bytes in order; the
image at the head verified, its result shown, and rejected, or taken by its type.
R399 to R403, R407 to R409: fuse commands accepted under the lock and out of a supply hold, bit by bit with their
readback; a challenge kept; debug locked again.
The model's own choices and readings in it: log entries 12, 17 and 50. -/
def Obligations.ImagesFusesAndDebug : Prop :=
  (∀ (s : State) (m : Master) (v : Word) (n : Nat) (l : List Byte) (img : Image) (rest : List Image) (c : ImageCrypto),
    let b := Pg.BOOT
    let st := b + BOOT.IMG_STATUS
    let cmd := b + BOOT.IMG_CMD
    let data := b + BOOT.IMG_DATA
    let len := s.d.fld (b + BOOT.IMG_LEN) 0 21
    let all := (l ++ bytesLE 4 v.toNat).take n
    let code := s.d.imageCode img c
    let type := Img.type img.bytes
    let p := Img.payload img.bytes
    let shown (t : Dev) : Prop := t.fld st 0 8 = code ∧ t.fld st 16 8 = type ∧ t.bit st 31 = true ∧ t.sec.verify = rest
    (AdmitsHeld s m cmd → len ≠ 0 → Gives (.imgBegin m) s (fun t => t.sec = { s.d.sec with stream := some (len, masterId m, []) }
      ∧ t.fld st 29 3 = 1 ∧ Frame [.sec] (· = st) s.d t))
    ∧ (AdmitsHeld s m cmd → len = 0 → Gives (.imgBegin m) s (fun t => t.fld st 30 2 = 3 ∧ Frame [] (· = st) s.d t))
    ∧ (AdmitsHeld s m cmd → s.d.sec.stream = some (n, masterId m, l) → Gives (.imgAbort m) s (fun t =>
        t.sec = { s.d.sec with stream := none } ∧ t.bit st 29 = false ∧ Frame [.sec] (· = st) s.d t))
    ∧ (Admits s m cmd → s.d.holder (cmd / 0x1000) = 0 → Gives (.imgBegin m) s (Rejected m cmd 0x05 s.d)
        ∧ Gives (.imgAbort m) s (Rejected m cmd 0x05 s.d))
    ∧ (Admits s m data → s.d.sec.stream = some (n, masterId m, l) →
        (all.length ≠ n → Gives (.imgData m v) s (fun t => t.sec = { s.d.sec with stream := some (n, masterId m, all) }
          ∧ Frame [.sec] (fun _ => False) s.d t))
        ∧ (all.length = n → Gives (.imgData m v) s (fun t => t.bit st 29 = false ∧ Frame [.sec] (· = st) s.d t
          ∧ t.sec = { s.d.sec with stream := none, verify := s.d.sec.verify ++ [⟨.data, masterId m, all⟩] })))
    ∧ (Admits s m data → s.d.sec.stream = none → Gives (.imgData m v) s (Rejected m data 0x0D s.d))
    ∧ (s.d.sec.verify = img :: rest → img.path = .data →
        (code ≠ 0 → Gives (.imageVerification c) s (fun t => shown t ∧ Counted (b + BOOT.IMG_REJECTS) s.d t
          ∧ t.bit (b + HDR.INT_STATUS) 9 = true ∧ t.sec.fuses = s.d.sec.fuses ∧ t.sec.blow = s.d.sec.blow
          ∧ t.sec.pendFw = s.d.sec.pendFw ∧ t.debugLevel = s.d.debugLevel))
        ∧ (code = 0 → type = 1 → Gives (.imageVerification c) s (fun t => shown t ∧ t.bit (b + BOOT.BOOT_STATUS) 5 = true
          ∧ t.sec.pendFw = some (Img.version img.bytes, Img.roll img.bytes, sha384 (Img.message img.bytes))))
        ∧ (code = 0 → 2 ≤ type → type ≤ 4 → Gives (.imageVerification c) s (fun t => shown t
          ∧ ∀ k ∈ Img.seqs img.bytes, t.seqState k = 5 ∧ (t.sq k).load = some img.bytes))
        ∧ (code = 0 → type = 6 → (p.getD 0 0).toNat < 2 → s.d.fuseBit (32 * 24 + (p.getD 0 0).toNat) = false → Gives (.imageVerification c) s (fun t => shown t
          ∧ t.sec.blow = s.d.sec.blow ++ [([32 * 24 + (p.getD 0 0).toNat], .revoke)]))
        ∧ (code = 0 → type = 7 → Gives (.imageVerification c) s (fun t => shown t ∧ t.debugLevel = (p.getD 48 0).toNat
          ∧ t.sec.chalValid = false))))
  ∧ (∀ (s : State) (m : Master) (random : BitVec 256) (f : FuseReadback) (i : Nat) (left : List Nat) (job : FuseJob)
    (rest : List (List Nat × FuseJob)),
    let b := Pg.BOOT
    let a := b + BOOT.SEC_CMD
    let st := b + BOOT.SEC_STATUS
    let goal := s.d.fld (b + BOOT.ROLLBACK_TARGET) 0 7
    let unblown := ((List.range 64).map (800 + ·)).filter (fun k => !s.d.fuseBit k)
    let queued (bits : List Nat) (t : Dev) : Prop := t.sec = { s.d.sec with blow := s.d.sec.blow ++ [(bits, .command)] }
      ∧ t.bit st 31 = true ∧ Frame [.sec] (· = st) s.d t
    let held (t : Dev) : Prop := t.fld st 0 8 = 0x0A ∧ t.sec = s.d.sec ∧ t.fld (b + HDR.ERR_INFO) 22 8 = 0x0E
    (AdmitsHeld s m a → s.d.supplyHold = false →
      (s.d.rollCtr < goal → goal ≤ s.d.fld (b + BOOT.FW_ROLLBACK) 0 7 → goal ≤ 64 →
        Gives (.secAdvance m) s (queued (unblown.take (goal - s.d.rollCtr))))
      ∧ (goal ≤ s.d.rollCtr ∨ s.d.fld (b + BOOT.FW_ROLLBACK) 0 7 < goal → Gives (.secAdvance m) s (Rejected m a 0x0C s.d))
      ∧ (s.d.fuseBit 772 = false → Gives (.secDebugDisable m) s (queued [772]))
      ∧ (s.d.fuseBit 773 = false → Gives (.secOwnerDebugDisable m) s (queued [773])))
    ∧ (AdmitsHeld s m a → s.d.supplyHold = true → Gives (.secAdvance m) s held ∧ Gives (.secDebugDisable m) s held
        ∧ Gives (.secOwnerDebugDisable m) s held)
    ∧ (s.d.sec.blow = (i :: left, job) :: rest → s.d.sec.paused = false → job ≠ .command ∨ s.d.sec.verify = [] →
        (f ≠ .unblown → Gives (.fuseBitProgram f) s (fun t => t.fuseBit i = true
          ∧ (∀ k, k ≠ i → t.fuseBit k = s.d.fuseBit k) ∧ t.sec.blow = (if left = [] then rest else (left, job) :: rest)
          ∧ (left = [] → t.fld st 0 8 = 0) ∧ t.rd (b + BOOT.ROLLBACK_CTR) = BitVec.ofNat 32 t.rollCtr))
        ∧ (f = .unblown → Gives (.fuseBitProgram f) s (fun t => t.sec = { s.d.sec with blow := rest } ∧ t.fld st 0 8 = 0x10
          ∧ t.bit (b + HDR.INT_STATUS) 10 = true)))
    ∧ (s.d.sec.paused = true → Gives (.fuseBitProgram f) s (Frame [] (fun _ => False) s.d))
    ∧ (Admits s m (b + BOOT.DBG_CMD) → Gives (.dbgChallenge m random) s (fun t => t.sec = { s.d.sec with chalValid := true }
        ∧ t.rdWords (b + BOOT.DBG_CHAL) 8 = (List.range 8).map (wordBE (bytesBE 32 random.toNat))
        ∧ Frame [.sec] (fun x => b + BOOT.DBG_CHAL ≤ x ∧ x < b + BOOT.DBG_CHAL + 32) s.d t))
    ∧ (Admits s m (b + BOOT.DBG_CMD) → Gives (.dbgRelock m) s (fun t => t.debugLevel = 0
        ∧ t.fld (Pg.BIST + BIST.SCAN_STATUS) 30 2 = 0 ∧ (s.d.debugLevel ≠ 0 → t.bit (b + HDR.INT_STATUS) 11 = true))))

/-- R405, R406, R410: an access of the host to the flash, and its end; the attestation keys ready once; a request taken from
its ring and answered with its report, or TRUNCATED where the buffer is too short. Log entry 17: signatures and certificates
are values no rule gives.
The model's own choices and readings in it: log entries 17, 28 and 50. -/
def Obligations.FlashAndAttestation : Prop :=
  ∀ (s : State) (m : Master) (bytes : List Byte) (certs : List Byte) (nonce : BitVec 256) (len : Nat) (tag : Word)
    (d : DmaDescriptor) (q : AttReq) (rest : List AttReq),
    let b := Pg.BOOT
    let go := b + BOOT.FLASH_GO
    let fs := b + BOOT.FLASH_STATUS
    let st := b + BOOT.ATTEST_STATUS
    let outN := s.d.fld (b + BOOT.FLASH_XFER) 0 9
    let inN := s.d.fld (b + BOOT.FLASH_XFER) 16 9
    let buffer := (s.d.rdWords (b + BOOT.FLASH_DATA) 66).flatMap wordBytesBE
    let got := slice bytes 0 (min 256 inN)
    let free := 7 ≤ s.d.bootStage ∧ s.d.sec.flashDev = false ∧ s.d.bit fs 29 = false
    let n := s.d.sec.certs.length
    (AdmitsHeld s m go → free → 1 ≤ outN → outN ≤ 264 → inN ≤ 256 → Gives (.flashGo m) s (fun t => t.fld fs 29 3 = 1
      ∧ t.sent = .flash (buffer.take outN) inN :: s.d.sent ∧ Frame [.sent] (· = fs) s.d t))
    ∧ (AdmitsHeld s m go → free → outN = 0 → inN ≤ 256 → Gives (.flashGo m) s (fun t => t.fld fs 29 3 = 6
        ∧ Frame [] (· = fs) s.d t))
    ∧ (AdmitsHeld s m go → free → 264 < outN ∨ 256 < inN → Gives (.flashGo m) s (Rejected m go 0x0C s.d))
    ∧ (AdmitsHeld s m go → ¬ free → Gives (.flashGo m) s (Rejected m go 0x0D s.d))
    ∧ (s.d.bit fs 29 = true → Gives (.flashDone bytes) s (fun t => t.fld fs 29 3 = 4 ∧ t.bit (b + HDR.INT_STATUS) 13 = true
        ∧ t.rdWords (b + BOOT.FLASH_DATA) 66 = (List.range 66).map (wordBE (got ++ buffer.drop got.length))))
    ∧ (s.d.bit fs 29 = false → Gives (.flashDone bytes) s (Frame [] (fun _ => False) s.d))
    ∧ (2 ≤ s.d.sec.step → s.d.sec.erased = false → s.d.bit st 31 = false → Gives (.attestKeysReady certs) s (fun t =>
        t.bit st 31 = true ∧ t.bit st 29 = s.d.certEntry.isSome
        ∧ t.sec.certs = slice certs 0 ((s.d.certEntry.map DirEntry.length).getD 0) ∧ t.bit (b + HDR.INT_STATUS) 12 = true))
    ∧ (s.d.sec.erased = true ∨ s.d.bit st 31 = true → Gives (.attestKeysReady certs) s (Frame [] (fun _ => False) s.d))
    ∧ (s.d.ringHead 6 = some d → d.len.toNat = len → d.tag = tag → Gives (.attestationRequest nonce len tag) s (fun t =>
        t.sec = { s.d.sec with requests := s.d.sec.requests ++ [⟨nonce, len, tag⟩] } ∧ t.bit st 30 = true ∧ (t.ring 6).work = some d))
    ∧ (s.d.sec.requests = q :: rest → (s.d.ring 6).work = some d → s.d.bit st 31 = true →
        (17964 + n ≤ q.bufLen → Gives .attestationReport s (fun t => t.sec.reports = s.d.sec.reports + 1
          ∧ Counted (b + BOOT.ATTESTS) s.d t ∧ t.sec.requests = rest
          ∧ ∃ free : List Byte, free.length = 16612 + n ∧ Output.dmaWrite 6 d.addr (s.d.reportBody q ++ free) ∈ t.sent))
        ∧ (q.bufLen < 17964 + n → Gives .attestationReport s (fun t => t.sec.reports = s.d.sec.reports
          ∧ t.sec.requests = rest ∧ .completion 6 d.tag 0 1 0 (s.d.bit (Pg.RING 6 + RING.RING_STATUS) 28)
              (BitVec.ofNat 32 (17964 + n)) ∈ t.sent)))

/-! ### Host interfaces, rings and mailboxes (16) -/

/-- R414 to R416: a poisoned write counted; bus mastering disabled; a write and a read of the BMC at the enables of a page
that is not posted, with their status; an access that fails its checks answers status 1; a failed PEC discards the
transaction.
R417: the controller answers PING with the words it brought, INFO with the firmware, the start-up and the reset cause,
and any other opcode with 0xFF; a reply that waits is tried again or, after its second, dropped and counted. The low 24 bits of
word 0 of a reply are a free value (log entry 26).
The model's own choices and readings in it: log entries 26, 49 and 56. -/
def Obligations.BusSmbusAndController : Prop :=
  (∀ (s : State) (page : BitVec 10) (addr : BitVec 24) (v : Word),
    let a := page.toNat * 0x1000 + HDR.INT_ENABLE
    let err := page.toNat * 0x1000 + HDR.ERR_INFO
    let has (i : Nat) : Bool := (Dev.causesOf page.toNat).getLsbD i
    let status (b : Byte) (t : Dev) : Prop := t.ports = { s.d.ports with smbStatus := b }
    Gives .poisonedWrite s (fun t => Counted (Pg.DMA + DMA.POISON_RX) s.d t ∧ t.bit (Pg.DMA + HDR.INT_STATUS) 10 = true
      ∧ Frame [] (fun x => x = Pg.DMA + DMA.POISON_RX ∨ x = Pg.DMA + HDR.INT_STATUS) s.d t)
    ∧ Gives .busMasterDisable s (fun t => t.ports = { s.d.ports with busMaster := false } ∧ Frame [.hif] (fun _ => False) s.d t)
    ∧ Gives (.smbusStatus true) s (fun t => t.sent = .smbus [s.d.hif.smbStatus] :: s.d.sent ∧ Frame [.sent] (fun _ => False) s.d t)
    ∧ Gives (.smbusStatus false) s (Frame [] (fun _ => False) s.d)
    ∧ Gives .smbusTimeout s (Frame [] (fun _ => False) s.d)
    ∧ (addr.toNat = a → Admits s .bmc a → Dev.posted page.toNat = false → Gives (.smbusWrite true addr v) s (fun t => status 0 t
        ∧ Frame [.bus, .hif] (· = a) s.d t ∧ ∀ i, i < 32 → t.bit a i = if has i then v.getLsbD i else s.d.bit a i))
    ∧ (∀ c, addr.toNat = a → s.d.writeErr .bmc a 0xF false = some c → (pageRow page.toNat).isSome →
        Gives (.smbusWrite true addr v) s (fun t => t.hif.smbStatus = 1 ∧ t.rd a = s.d.rd a ∧ t.fld err 22 8 = c))
    ∧ (addr.toNat = a → s.d.readErr .bmc a = none → s.d.busy page.toNat = false → Gives (.smbusRead true addr) s (fun t =>
        t.sent = .smbus (bytesBE 4 (s.d.peek .bmc a).toNat ++ [0]) :: s.d.sent ∧ Frame [.sent] (fun _ => False) s.d t))
    ∧ (∀ c, addr.toNat = a → s.d.readErr .bmc a = some c → Gives (.smbusRead true addr) s (fun t =>
        t.sent = .smbus [0, 0, 0, 0, 1] :: s.d.sent))
    ∧ Gives (.smbusWrite false addr v) s (Frame [] (fun _ => False) s.d) ∧ Gives (.smbusRead false addr) s (Frame [] (fun _ => False) s.d))
  ∧ (∀ (s : State) (sender : Master) (e dest : Nat) (x : Msg) (rest : List Msg) (words : List Word) (more : List (Nat × List Word)),
    let op := fieldOf (words.getD 0 0) 24 8
    let answers (code : Nat) (body : List Word) (t : Dev) : Prop := t.inbox 2 = rest ∧ ∃ y, t.inbox e = s.d.inbox e ++ [y]
      ∧ y.sender = 3 ∧ y.epoch = s.d.epoch e ∧ fieldOf (y.words.getD 0 0) 24 8 = code ∧ y.words.drop 1 = words.getD 1 0 :: body
    (s.d.isl.mcDown = false → sender = .host ∧ e = 0 ∨ sender = .bmc ∧ e = 1 → s.d.inbox 2 = x :: rest → x.sender = masterId sender →
      x.words = words → words.length = 8 → (s.d.inbox e).length < 8 →
      (op = 1 → Gives (.ping sender words) s (answers 129 (words.drop 2)) ∧ Gives (.info sender words) s (Frame [] (fun _ => False) s.d))
      ∧ (op = 2 → Gives (.info sender words) s (answers 130 [s.d.rd (Pg.BOOT + BOOT.FW_VERSION), s.d.rd (Pg.BOOT + BOOT.BOOT_STATUS),
          s.d.rd (Pg.CLKRST + CLKRST.RESET_CAUSE), 0, 0, 0]))
      ∧ (op ≠ 1 → op ≠ 2 → Gives (.info sender words) s (answers 255 [0, 0, 0, 0, 0, 0]))
      ∧ (op ≠ 1 → Gives (.ping sender words) s (Frame [] (fun _ => False) s.d)))
    ∧ (s.d.isl.mcDown = true → Gives (.ping sender words) s (Frame [] (fun _ => False) s.d)
        ∧ Gives (.info sender words) s (Frame [] (fun _ => False) s.d) ∧ Gives (.mcReplyRetry true) s (Frame [] (fun _ => False) s.d))
    ∧ (s.d.isl.mcDown = false → s.d.mbx.replies = (dest, words) :: more →
        Gives (.mcReplyRetry true) s (fun t => t.mbx = { s.d.mbx with replies := more } ∧ Counted (Pg.DMA + DMA.MC_REPLY_DROPS) s.d t)
        ∧ (dest = e + 1 → e < 2 → (s.d.inbox e).length < 8 → Gives (.mcReplyRetry false) s (fun t => t.mbx.replies = more
          ∧ ∃ y, t.inbox e = s.d.inbox e ++ [y] ∧ y.words = words))))

/-- R418, R425: a ring started with its indices at 0, stopped with every fetched descriptor FLUSHED, a batch or an image in
progress finishing first; its tail and head indices written within its size and what is unconsumed.
R419 to R422, R424, R426, R427: a descriptor fetched, an empty or broken one completed at once; a failed read stops the
ring with its code; a batch of updates and an image taken from their rings; a buffer closed when its time has passed; a
message sent when its delay has passed.
The model's own choices and readings in it: log entry 49. -/
def Obligations.Rings : Prop :=
  (∀ (s : State) (m : Master) (r : Ring) (v : Word) (d : DmaDescriptor),
    let b := Pg.RING r
    let ctrl := b + RING.RING_CTRL
    let st := b + RING.RING_STATUS
    let g := s.d.ring r
    let x := fieldOf v 0 16
    (Admits s m ctrl → s.d.bit ctrl 0 = false → g.stopping = false → Gives (.ringRunStart m r) s (fun t => t.bit ctrl 0 = true
      ∧ t.rd st = 0x90000000 ∧ t.bit (Pg.DMA + DMA.DMA_STATUS) r = true ∧ t.ring r = { RingSt.init with work := g.work }
      ∧ t.rd (b + RING.SQ_HEAD) = 0 ∧ t.rd (b + RING.SQ_TAIL) = 0 ∧ t.rd (b + RING.CQ_HEAD) = 0 ∧ t.rd (b + RING.CQ_TAIL) = 0))
    ∧ (Admits s m ctrl → s.d.bit ctrl 0 = true → Gives (.ringRunStart m r) s (Frame [] (fun _ => False) s.d))
    ∧ (Admits s m ctrl → s.d.bit ctrl 0 = false → Gives (.ringRunStop m r) s (Frame [] (fun _ => False) s.d))
    ∧ (Admits s m ctrl → s.d.bit ctrl 0 = true → g.work = none → Gives (.ringRunStop m r) s (fun t => t.bit ctrl 0 = false
        ∧ t.bit st 31 = false ∧ t.bit (Pg.DMA + DMA.DMA_STATUS) r = false ∧ (t.ring r).fetched = []
        ∧ (g.fetched = [d] → g.slots = [] → t.sent = .completion r d.tag g.fill 7 g.records (s.d.bit st 28) 0 :: s.d.sent)))
    ∧ (Admits s m ctrl → s.d.bit ctrl 0 = true → g.work = some d → r.val ≠ 6 → Gives (.ringRunStop m r) s (fun t =>
        t.bit ctrl 0 = false ∧ t.ring r = { g with stopping := true } ∧ Frame [.hif] (· = ctrl) s.d t))
    ∧ (Admits s m (b + RING.SQ_TAIL) →
        (Dev.idx16 x (s.d.sqHead r) ≤ s.d.sqSize r → Gives (.sqTailWrite m r v) s (fun t => t.sqTail r = x
          ∧ Frame [] (fun y => y = b + RING.SQ_TAIL ∨ y = st) s.d t))
        ∧ (s.d.sqSize r < Dev.idx16 x (s.d.sqHead r) → Gives (.sqTailWrite m r v) s (Rejected m (b + RING.SQ_TAIL) 0x0C s.d)))
    ∧ (Admits s m (b + RING.CQ_HEAD) →
        (Dev.idx16 x (s.d.cqHead r) ≤ s.d.unconsumed r → Gives (.cqHeadWrite m r v) s (fun t => t.cqHead r = x
          ∧ (x = s.d.cqTail r → (t.ring r).waiting = false) ∧ Frame [.hif] (fun y => y = b + RING.CQ_HEAD ∨ y = st) s.d t))
        ∧ (s.d.unconsumed r < Dev.idx16 x (s.d.cqHead r) → Gives (.cqHeadWrite m r v) s (Rejected m (b + RING.CQ_HEAD) 0x0C s.d))))
  ∧ (∀ (s : State) (r : Ring) (d x : DmaDescriptor) (rest : List DmaDescriptor) (descs : List DescBytes) (image : List Byte),
    let b := Pg.RING r
    let st := b + RING.RING_STATUS
    let g := s.d.ring r
    let ready := s.d.ringRuns r = true ∧ s.d.hif.busMaster = true ∧ s.d.sqMore r = true
    let clear := g.fetched = [] ∧ g.work = none ∧ g.held = []
    let completes (tag : Word) (len status records : Nat) (t : Dev) : Prop :=
      t.sent = .completion r tag len status records (s.d.bit st 28) 0 :: s.d.sent ∧ t.cqTail r = (s.d.cqTail r + 1) % 2 ^ 16
      ∧ Raised 48 (b + RING.RECORDS) 1 s.d t ∧ t.bit (b + HDR.INT_STATUS) 8 = true
    let stops (code : Nat) (t : Dev) : Prop := t.bit st 30 = true ∧ t.bit st 31 = false ∧ t.fld st 0 8 = code
      ∧ t.bit (b + HDR.INT_STATUS) 11 = true
    (ready → clear → r.val ≠ 4 →
      (Dev.descBroken r x = false → Dev.descEmpty r x = false → Gives (.descriptorFetch r x) s (fun t => (t.ring r).fetched = [x]
        ∧ t.sqHead r = (s.d.sqHead r + 1) % 2 ^ 16))
      ∧ (Dev.descBroken r x = false → Dev.descEmpty r x = true → Gives (.descriptorFetch r x) s (fun t => completes x.tag 0 0 0 t
        ∧ (t.ring r).fetched = []))
      ∧ (Dev.descBroken r x = true → Gives (.descriptorFetch r x) s (fun t => completes x.tag 0 2 0 t ∧ (t.ring r).fetched = []
        ∧ Counted (b + RING.BAD_DESCS) s.d t)))
    ∧ (ready → r.val = 4 → Dev.descBroken 4 x = false → Dev.descEmpty 4 x = false → x.flags.getLsbD 0 = true →
        Sparse.get (fun _ => none) g.slots x.txLane = none → Gives (.descriptorFetch r x) s (fun t =>
          Sparse.get (fun _ => none) (t.ring r).slots x.txLane = some x ∧ t.sqHead r = (s.d.sqHead r + 1) % 2 ^ 16))
    ∧ (s.d.ringRuns r = false ∨ s.d.sqMore r = false → Gives (.descriptorFetch r x) s (Frame [] (fun _ => False) s.d))
    ∧ (s.d.ringRuns r = true → s.d.sqMore r = true → Gives (.deviceReadError r false) s (stops 1))
    ∧ (s.d.ringRuns r = true → g.fetched = d :: rest → r.val = 1 ∨ r.val = 5 ∨ r.val = 6 → Gives (.deviceReadError r true) s (fun t =>
        stops 2 t ∧ (t.ring r).fetched = rest ∧ t.sent = .completion r d.tag 0 3 0 (s.d.bit st 28) 0 :: s.d.sent))
    ∧ (s.d.ringHead 1 = some d → Gives (.tableUpdateDescriptor descs) s (fun t => (t.ring 1).work = some d
        ∧ (t.cls.updates.drop s.d.cls.updates.length).length = d.count.toNat))
    ∧ (s.d.ringHead 5 = some d → Gives (.firmwareUpload image) s (fun t => (t.ring 5).work = some d
        ∧ t.sec.verify = s.d.sec.verify ++ [⟨.ring, masterId .host, slice image 0 d.len.toNat⟩]))
    ∧ (r.val = 0 ∨ r.val = 3 ∨ r.val = 7 → g.records ≠ 0 → g.fetched = [d] → Gives (.bufferFillTimeout r) s (fun t =>
        completes d.tag g.fill 0 g.records t ∧ (t.ring r).fetched = [] ∧ (t.ring r).fill = 0))
    ∧ (g.records = 0 → Gives (.bufferFillTimeout r) s (Frame [] (fun _ => False) s.d))
    ∧ (s.d.bit (b + RING.IRQ_CFG) 31 = true → s.d.fld (b + RING.IRQ_CFG) 0 8 ≠ 0 → g.waiting = false → s.d.unconsumed r ≠ 0 →
        Gives (.coalesceTimeout r) s (fun t => (t.ring r).waiting = true ∧ Frame [.hif] (fun _ => False) s.d t))
    ∧ (s.d.unconsumed r = 0 → Gives (.coalesceTimeout r) s (Frame [] (fun _ => False) s.d)))

/-- R428, R429: a snapshot begins on its period or on command, or is skipped and counted while one is in progress or ring 2 is
full; one that is done is written with its header to the open buffer, its number the next.
The model's own choices and readings in it: log entry 56. -/
def Obligations.Harvest : Prop :=
  ∀ (s : State) (m : Master) (cause : Nat) (d : DmaDescriptor) (rest : List DmaDescriptor),
    let b := Pg.DMA
    let cmd := b + DMA.HV_CMD
    let may := s.d.hif.hvRun = none ∧ s.d.isl.mcDown = false ∧ s.d.ringIsFull 2 = false
    let begins (c : Nat) (t : Dev) : Prop := t.hif.hvRun = some c ∧ t.hif.hvStart = s.d.timeBase ∧ t.bit (b + DMA.HV_STATUS) 31 = true
    let skips (t : Dev) : Prop := t.hif.hvRun = s.d.hif.hvRun ∧ t.hif.hvSkips = s.d.hif.hvSkips + 1
      ∧ Counted (b + DMA.HV_SKIPPED) s.d t ∧ t.bit (b + HDR.INT_STATUS) 9 = true
    let periodic := s.d.assisted b = false ∧ s.d.fld (b + DMA.HV_PERIOD) 0 14 ≠ 0
    (may → (periodic → Gives .harvestPeriod s (begins 1)) ∧ (Admits s m cmd → Gives (.hvSnap m) s (begins 2)))
    ∧ (¬ may → (periodic → Gives .harvestPeriod s skips) ∧ (Admits s m cmd → Gives (.hvSnap m) s skips))
    ∧ (¬ periodic → Gives .harvestPeriod s (Frame [] (fun _ => False) s.d))
    ∧ (s.d.hif.hvRun = none → Gives .harvestDone s (Frame [] (fun _ => False) s.d))
    ∧ (s.d.hif.hvRun = some cause → s.d.isl.mcDown = false →
        (s.d.ringRuns 2 = true → s.d.hif.busMaster = true → s.d.cqFree 2 = true → (s.d.ring 2).fetched = d :: rest →
          Gives .harvestDone s (fun t => t.hif.hvRun = none ∧ t.hif.hvNum = s.d.hif.hvNum + 1 ∧ t.hif.hvSkips = 0
            ∧ t.bit (b + DMA.HV_STATUS) 31 = false ∧ Counted (b + DMA.HV_SNAPS) s.d t ∧ t.bit (b + HDR.INT_STATUS) 8 = true
            ∧ ∃ n body, .dmaWrite 2 d.addr ([0x48, 0x52, 0x56, 0x54] ++ bytesLE 2 1 ++ bytesLE 2 n ++ bytesLE 8 (s.d.hif.hvNum + 1)
              ++ bytesLE 8 s.d.hif.hvStart.toNat ++ body) ∈ t.sent))
        ∧ (s.d.ringRuns 2 = false → Gives .harvestDone s (fun t => t.hif.hvRun = none ∧ t.hif.hvNum = s.d.hif.hvNum
            ∧ Counted (Pg.RING 2 + RING.FULL_EVENTS) s.d t)))

/-- R430 to R439: a message sent is delivered in order to the inbox it names or refused with its code; the head message
latched with its header and removed; an inbox flushed; an epoch stepped; doorbells written and read; a stalemate recorded.
The model's own choices and readings in it: log entry 49. -/
def Obligations.Mailboxes : Prop :=
  ∀ (s : State) (m : Master) (e d dest : Nat) (x : Msg) (rest : List Msg) (page : Fin 4) (j : Fin 16) (v : Word) (p q : Master),
    let mb := Pg.MBX 0
    let send := mb + MBX.MBX_SEND
    let hdr := mb + MBX.RX_HDR
    let words := (List.range 8).map (fun k => Sparse.get (fun _ => 0) s.d.mbx.txData (8 * e + k))
    let flush := Pg.MBX page + MBX.INBOX_FLUSH
    let db (k : Nat) := Sparse.get (fun _ => 0) s.d.mbx.dbCnt k
    (m = .host ∧ e = 0 ∨ m = .bmc ∧ e = 1) → s.d.vigilState = 0 →
      (s.d.readErr m send = none → (Sparse.get (fun _ => 0) s.d.mbx.txDest e).toNat % 256 = dest →
        (Dev.endpointOf dest = some d → d ≠ e → (s.d.inbox d).length < Dev.inboxSize d → Gives (.mbxSend m) s (fun t =>
          t.inbox d = s.d.inbox d ++ [⟨masterId m, s.d.epoch d, s.d.seqNo e, s.d.timeBase.setWidth 40, words, s.d.mono⟩]
          ∧ t.seqNo e = s.d.seqNo e + 1 ∧ t.sent = .readData m send (BitVec.ofNat 32 (2 ^ 31 + (s.d.seqNo e).toNat)) :: s.d.sent))
        ∧ (Dev.endpointOf dest = some d → d ≠ e → d ≠ 0 → Dev.inboxSize d ≤ (s.d.inbox d).length → Gives (.mbxSend m) s (fun t =>
            t.mbx.inbox = s.d.mbx.inbox ∧ Counted (Dev.mbxBlock e + MBX.SEND_REJECTS) s.d t
            ∧ t.sent = (if m = .host then .completerAbort send else .readData m send 0x01000000) :: s.d.sent))
        ∧ (Dev.endpointOf dest = none ∨ Dev.endpointOf dest = some e → Gives (.mbxSend m) s (fun t => t.mbx.inbox = s.d.mbx.inbox
            ∧ Counted (Dev.mbxBlock e + MBX.SEND_REJECTS) s.d t ∧ t.sent = .readData m send 0x02000000 :: s.d.sent)))
      ∧ (s.d.readErr m hdr = none → s.d.inbox e = x :: rest → Gives (.rxHdrRead m) s (fun t => t.inbox e = x :: rest
          ∧ t.sent = .readData m hdr (BitVec.setWidth 32 (Dev.header x (x.epoch != s.d.epoch e))) :: s.d.sent
          ∧ Counted (Dev.mbxBlock e + MBX.RX_MSGS) s.d t ∧ (x.epoch ≠ s.d.epoch e → Counted (Dev.mbxBlock e + MBX.STALE_MSGS) s.d t)))
      ∧ (s.d.readErr m hdr = none → s.d.inbox e = [] → Gives (.rxHdrRead m) s (fun t => t.sent = .readData m hdr 0 :: s.d.sent
          ∧ Frame [.sent] (fun _ => False) s.d t))
      ∧ (Admits s m (mb + MBX.RX_POP) → Gives (.rxPop m) s (fun t => t.inbox e = (s.d.inbox e).drop 1
          ∧ (∀ i, i ≠ e → t.inbox i = s.d.inbox i) ∧ Frame [.mbx] (fun _ => False) s.d t))
      ∧ (AdmitsHeld s m flush → Dev.mbxEndpoint page j = some d → Gives (.inboxFlush m page j) s (fun t => t.inbox d = []
          ∧ (∀ i, i ≠ d → t.inbox i = s.d.inbox i)
          ∧ t.rd (Dev.mbxBlock d + MBX.FLUSHED) = s.d.rd (Dev.mbxBlock d + MBX.FLUSHED) + BitVec.ofNat 32 (s.d.inbox d).length))
      ∧ (Admits s m flush → s.d.holder (flush / 0x1000) = 0 → Gives (.inboxFlush m page j) s (Rejected m flush 0x05 s.d))
      ∧ (Admits s m (mb + MBX.ROLE_BUMP) → Gives (.roleBump m) s (fun t => t.epoch e = s.d.epoch e + 1
          ∧ (∀ i, i ≠ e → t.epoch i = s.d.epoch i) ∧ Frame [.mbx] (fun _ => False) s.d t))
      ∧ (∀ k : Fin 32, k.val < 27 → k.val ≠ e → Admits s m (mb + MBX.DB_TX + 4 * k) → Gives (.dbTx m k v) s (fun t =>
          Sparse.get (fun _ => 0) t.mbx.dbVal (32 * e + k) = v ∧ Sparse.get (fun _ => 0) t.mbx.dbCnt (32 * e + k) = min 0xFFFF (db (32 * e + k) + 1)
          ∧ (3 ≤ k.val → t.bit (Pg.LSEQ (k.val - 3) + LSEQ.EVENT_PEND) 2 = true)))
      ∧ (∀ k : Fin 32, k.val = e → Admits s m (mb + MBX.DB_TX + 4 * k) →
          Gives (.dbTx m k v) s (Rejected m (mb + MBX.DB_TX + 4 * k) 0x0A s.d))
      ∧ (∀ k : Fin 27, s.d.readErr m (mb + MBX.DB_RX_VAL + 4 * k) = none → Gives (.dbRxValRead m k) s (fun t =>
          t.sent = .readData m (mb + MBX.DB_RX_VAL + 4 * k) (Sparse.get (fun _ => 0) s.d.mbx.dbVal (32 * k + e)) :: s.d.sent
          ∧ Sparse.get (fun _ => 0) t.mbx.dbRead (32 * k + e) = db (32 * k + e) ∧ Sparse.get (fun _ => 0) t.mbx.dbCnt (32 * k + e) = 0
          ∧ Frame [.mbx, .sent] (fun _ => False) s.d t))
      ∧ (∀ i k, Dev.endpoint p = some i → Dev.endpoint q = some k →
          (s.d.stalled i k = true → Gives (.stalemate p q) s (fun t => t.bit (mb + HDR.INT_STATUS) 9 = true
            ∧ t.rd (mb + MBX.STALEMATE) = BitVec.ofNat 32 (2 ^ 31 + min (Dev.endpointId i) (Dev.endpointId k) * 2 ^ 8
              + max (Dev.endpointId i) (Dev.endpointId k))
            ∧ Frame [] (fun y => y = mb + MBX.STALEMATE ∨ y = mb + HDR.INT_STATUS) s.d t))
          ∧ (s.d.stalled i k = false → Gives (.stalemate p q) s (Frame [] (fun _ => False) s.d)))

/-! ### Thermal zones, supplies and Vigil (17) -/

/-- R443 to R448, R454: a sample of the zones, its readings shown and kept, warning and throttle latched at their limits and
left 3 degrees below them; at 115 degrees the datapath is shut down; a slow sampling rate after 1 s without cause, a broken sensor, and its return.
R452, R453: in hardware mode the pause level rises a step while a zone is in throttle, at once to its limit with
`STEP_MS` 0, and falls a step when none has been for `RELEASE`; the host sets it in host-assisted mode, at most 8.
The model's own choices and readings in it: log entry 47. -/
def Obligations.ThermalZonesAndPauses : Prop :=
  (∀ (s : State) (m : Master) (dt : Nat) (l : List ZoneSample) (z : Zone) (x : ZoneSample) (zones : BitVec 12),
    let b := Pg.THERM
    let cmd := b + THERM.THERM_CMD
    let warn : Int := s.d.fld (b + THERM.LIMIT_ABS) 0 8
    let thr : Int := s.d.fld (b + THERM.LIMIT_ABS) 8 8
    let latched (c : Int) (was now : Bool) : Prop := now = (if c * 1024 ≤ x.value then true else if x.value < (c - 3) * 1024 then false else was)
    (l.length = 12 → l[z.val]? = some x → s.d.bit (b + THERM.BROKEN) z = false →
      Gives (.thermalSample dt l) s (fun t => t.mon.clock = s.d.mon.clock + dt
        ∧ (t.zone z).samples = ((s.d.mon.clock + dt, x.value) :: (s.d.zone z).samples).take 16
        ∧ t.rd (b + THERM.ZONE_RAW + 4 * z) = BitVec.ofNat 32 (twosOf 16 (x.value / 8))
        ∧ t.fld (b + THERM.ZONE_TEMP + 4 * z) 0 16 = twosOf 16 (x.value / 8)
        ∧ latched warn (s.d.zone z).warnA (t.zone z).warnA ∧ latched thr (s.d.zone z).thrA (t.zone z).thrA
        ∧ (s.d.isl.held = false → 115 * 1024 ≤ x.value → t.isl.held = true ∧ t.bit (b + HDR.INT_STATUS) 13 = true
            ∧ t.fld (b + THERM.SHUT_RECORD) 24 7 = 1 ∧ t.cls.table = [] ∧ t.flow = Flow.init ∧ t.buf = Buf.init)))
    ∧ (s.d.fastHolds = false → s.d.mon.fastAt + 1000000000 ≤ s.d.mon.clock → Gives .sampleRateSlow s (fun t => t.bit (b + THERM.THERM_STATUS) 31 = false
        ∧ Frame [] (· = b + THERM.THERM_STATUS) s.d t))
    ∧ (s.d.fastHolds = true ∨ s.d.mon.clock < s.d.mon.fastAt + 1000000000 → Gives .sampleRateSlow s (Frame [] (fun _ => False) s.d))
    ∧ (s.d.bit (b + THERM.BROKEN) z = false → 4 ≤ (s.d.zone z).bad ∨ 64 ≤ (s.d.zone z).grad → Gives (.sensorBroken z) s (fun t =>
        t.bit (b + THERM.BROKEN) z = true ∧ t.bit (b + HDR.INT_STATUS) 11 = true ∧ t.mon = s.d.mon))
    ∧ (s.d.bit (b + THERM.BROKEN) z = true ∨ ((s.d.zone z).bad < 4 ∧ (s.d.zone z).grad < 64) →
        Gives (.sensorBroken z) s (Frame [] (fun _ => False) s.d))
    ∧ (AdmitsHeld s m cmd → Gives (.unbreak m zones) s (fun t =>
        t.bit (b + THERM.BROKEN) z = (s.d.bit (b + THERM.BROKEN) z && !zones.getLsbD z)
        ∧ (zones.getLsbD z = true → (t.zone z).bad = 0 ∧ (t.zone z).grad = 0) ∧ (zones.getLsbD z = false → t.zone z = s.d.zone z)))
    ∧ (Admits s m cmd → s.d.holder (cmd / 0x1000) = 0 → Gives (.unbreak m zones) s (Rejected m cmd 0x05 s.d)))
  ∧ (∀ (s : State) (m : Master) (v : Word),
    let b := Pg.THERM
    let a := b + THERM.PAUSE_SET
    let n := s.d.fld (b + THERM.THERM_STATUS) 8 4
    let top := s.d.fld (b + THERM.THERM_CFG) 16 4
    let due := s.d.mon.throttled + 10000000 * s.d.fld (b + THERM.THERM_CFG) 24 8 ≤ s.d.mon.clock
    (s.d.assisted b = false → s.d.anyThr = true → n < top → Gives .pauseStep s (fun t =>
      t.fld (b + THERM.THERM_STATUS) 8 4 = if s.d.fld (b + THERM.THERM_CFG) 8 8 = 0 then top else n + 1))
    ∧ (s.d.assisted b = true ∨ s.d.anyThr = false ∨ top ≤ n → Gives .pauseStep s (Frame [] (fun _ => False) s.d))
    ∧ (s.d.assisted b = false → s.d.anyThr = false → n ≠ 0 → due → Gives .pauseReleaseStep s (fun t =>
        t.fld (b + THERM.THERM_STATUS) 8 4 = n - 1 ∧ (n = 1 → t.bit (b + HDR.INT_STATUS) 10 = true)))
    ∧ (s.d.assisted b = true ∨ s.d.anyThr = true ∨ n = 0 ∨ ¬ due → Gives .pauseReleaseStep s (Frame [] (fun _ => False) s.d))
    ∧ (Admits s m a → fieldOf v 0 4 ≤ 8 → Gives (.pauseSet m v) s (fun t => t.fld a 0 4 = fieldOf v 0 4
        ∧ t.fld (b + THERM.THERM_STATUS) 8 4 = (if s.d.assisted b then fieldOf v 0 4 else n)))
    ∧ (Admits s m a → 8 < fieldOf v 0 4 → Gives (.pauseSet m v) s (Rejected m a 0x0C s.d)))

/-- R391, R403, R454, R456, R457: a dip latched with the lowest voltage, its recovery with the hold and the sweep, the end of
both; a rail below its reset level resets the device, the last of all as a power-on; an over-voltage.
The model's own choices and readings in it: log entries 26 and 47. -/
def Obligations.Supplies : Prop :=
  ∀ (s : State) (k : Rail) (mv : BitVec 16) (upsets : List (BitVec 22 × Fin 32)),
    let b := Pg.SUPPLY
    let st := b + SUPPLY.SUP_STATUS
    let ev := b + SUPPLY.SUP_EVENT
    let rail := b + SUPPLY.RAIL_V + 4 * k
    let low := s.d.fld rail 16 16
    let down := s.d.mon.railsDown.filter (· != k.val) ++ [k.val]
    Gives (.railDip k mv) s (fun t => t.bit st k = true ∧ t.bit st (8 + k) = false ∧ t.bit ev k = true ∧ t.fld rail 0 16 = mv.toNat
        ∧ t.fld rail 16 16 = (if low = 0 then mv.toNat else min low mv.toNat)
        ∧ (s.d.test.cur = none → t.test = s.d.test) ∧ Frame [.test] (fun a => a = st ∨ a = ev ∨ a = rail) s.d t)
    ∧ (s.d.bit st k = true → k.val ∉ s.d.mon.railsDown → Gives (.railRecover k) s (fun t => t.bit st k = false ∧ t.supplyHold = true
        ∧ Counted (b + SUPPLY.DIP_COUNT + 4 * k) s.d t ∧ t.bit (b + HDR.INT_STATUS) 8 = true
        ∧ t.rd (b + SUPPLY.SWEEP_STATUS) = 0x80000000 ∧ t.sec.paused = !s.d.sec.blow.isEmpty ∧ t.mon.holdAt = s.d.mono))
    ∧ (s.d.bit st k = true → k.val ∈ s.d.mon.railsDown → Gives (.railRecover k) s (fun t => t.bit st k = false
        ∧ Frame [.fresh] (fun a => a = st ∨ a = rail) s.d t))
    ∧ (s.d.bit st k = false → Gives (.railRecover k) s (Frame [] (fun _ => False) s.d))
    ∧ (s.d.supplyHold = true → Gives .supplyHoldEnd s (fun t => t.supplyHold = false ∧ t.sec.paused = false ∧ t.cal.held = []
        ∧ (s.d.cal.held = [] → Frame [.sec] (· = st) s.d t)))
    ∧ (s.d.supplyHold = false → Gives .supplyHoldEnd s (Frame [] (fun _ => False) s.d))
    ∧ (s.d.bit (b + SUPPLY.SWEEP_STATUS) 31 = true → Gives (.paritySweepDone upsets) s (fun t =>
        t.rd (b + SUPPLY.SWEEP_STATUS) = BitVec.ofNat 32 (min 0xFFFF upsets.length) ∧ t.bit (b + HDR.INT_STATUS) 10 = true
        ∧ ∀ r ∈ t.log.opened, r.cls ≠ 17))
    ∧ (s.d.bit (b + SUPPLY.SWEEP_STATUS) 31 = false → Gives (.paritySweepDone upsets) s (Frame [] (fun _ => False) s.d))
    ∧ Gives (.railReset k) s (fun t => t.mon.railsDown = down ∧ t.bus = Dev.reset.bus ∧ t.sec.fuses = s.d.sec.fuses ∧ t.sec.step = 0
        ∧ (down.length ≠ 8 → t.bit (Pg.CLKRST + CLKRST.RESET_CAUSE) 3 = true) ∧ (down.length = 8 → ∀ a, t.rd a = regReset a))
    ∧ Gives (.overVoltage k) s (fun t => t.bit ev (8 + k) = true ∧ t.bit st (8 + k) = true ∧ t.bit (b + HDR.INT_STATUS) 9 = true
        ∧ Frame [.test] (fun a => a = st ∨ a = ev ∨ a = b + HDR.INT_STATUS) s.d t)

/-- R213, R308, R315, R458 to R462: Vigil entered by the holder of its page's lock with the device in service and nothing that
bars it, its entry completed with the islands it does not keep off, left by command, timer, pin or WAKE frame, and ended when
traffic flows again.
The model's own choices and readings in it: log entry 48. -/
def Obligations.Vigil : Prop :=
  ∀ (s : State) (m : Master) (n : Lane) (f : List Byte) (assist : Bool) (rest : List RxFrame) (ns : Nat),
    let b := Pg.VIGIL
    let cmd := b + VIGIL.VIGIL_CMD
    let cfg := b + VIGIL.VIGIL_CFG
    let lt := Pg.LANTERN n
    let none_ : Dev → Prop := Frame [] (fun _ => False) s.d
    let low := s.d.vigilState = 2 ∨ s.d.vigilState = 3
    let us (since : Nat) : Word := BitVec.ofNat 32 ((s.d.mono - since) / 1000)
    let slot := s.d.keySlot n (Dev.hdrKey f)
    let leaves (bit : Nat) (t : Dev) : Prop := t.vigilState = 4 ∧ t.mon.wakeAt = s.d.mono ∧ t.bit (b + VIGIL.WAKE_CAUSE) bit = true ∧ t.isl.unpowered = []
      ∧ t.bit (b + HDR.INT_STATUS) 9 = true
    let may := s.d.bootStage = 7 ∧ s.d.vigilState = 0 ∧ s.d.vigilBars = false
    (AdmitsHeld s m cmd → may → Gives (.vigilEnter m) s (fun t => t.vigilState = 1 ∧ t.mon.deep = s.d.bit cfg 0
      ∧ t.mon.entryAt = s.d.mono
      ∧ (s.d.wakeLane n = true → t.bit (lt + LANTERN.LT_STATUS) 10 = true)))
    ∧ (AdmitsHeld s m cmd → ¬ may → Gives (.vigilEnter m) s (Rejected m cmd 0x0D s.d))
    ∧ (Admits s m cmd → s.d.holder (cmd / 0x1000) = 0 → Gives (.vigilEnter m) s (Rejected m cmd 0x05 s.d))
    ∧ (s.d.vigilState = 1 → Gives .vigilEntryComplete s (fun t => t.rd (b + VIGIL.ENTRY_TIME) = us s.d.mon.entryAt
        ∧ Counted (b + VIGIL.VIGIL_COUNT) s.d t ∧ t.bit (b + HDR.INT_STATUS) 8 = true
        ∧ (s.d.mon.wakePending = false → s.d.rd (b + VIGIL.VIGIL_TIMER) ≠ 0 ∨ s.d.bit cfg 4 = false → t.vigilState = (if s.d.mon.deep then 3 else 2)
          ∧ ∀ i, i < 60 → Sparse.get (fun _ => false) t.isl.unpowered i = !s.d.vigilKeeps i)
        ∧ (s.d.mon.wakePending = true → t.vigilState = 4 ∧ t.isl.unpowered = [])))
    ∧ (s.d.vigilState ≠ 1 → Gives .vigilEntryComplete s none_)
    ∧ (Admits s m cmd → low → Gives (.vigilExit m) s (leaves 4))
    ∧ (Admits s m cmd → s.d.vigilState = 1 → Gives (.vigilExit m) s (fun t => t.vigilState = 1 ∧ t.mon.wakePending = true))
    ∧ (Admits s m cmd → s.d.vigilState = 0 ∨ s.d.vigilState = 4 → Gives (.vigilExit m) s none_)
    ∧ (low → s.d.bit cfg 4 = true → Gives .vigilTimerWake s (leaves 2))
    ∧ (s.d.bit cfg 4 = false → Gives .vigilTimerWake s none_)
    ∧ (low → s.d.bit cfg 8 = true → Gives .wakeN s (leaves 3))
    ∧ (s.d.bit cfg 8 = false ∨ s.d.vigilState = 0 → Gives .wakeN s none_)
    ∧ ((s.d.ltn n).checks = ⟨f, assist, none⟩ :: rest → Dev.crcOk f = true → s.d.authOk n slot f = true →
        Dev.replayOk slot f = true → Dev.hdrType f = 6 →
        (s.d.bit (lt + LANTERN.LT_STATUS) 10 = true → low → s.d.bit cfg 10 = true → Gives (.wake n) s (fun t => leaves 1 t
          ∧ t.fld (b + VIGIL.WAKE_CAUSE) 8 4 = n.val ∧ (t.ltn n).checks = rest))
        ∧ (s.d.bit (lt + LANTERN.LT_STATUS) 10 = false → s.d.rateOk n = true → assist = false → Gives (.wake n) s (fun t =>
            Counted (lt + LANTERN.RX_WAKE_IGN) s.d t ∧ Counted (lt + LANTERN.RX_OK) s.d t ∧ (t.ltn n).checks = rest)))
    ∧ (s.d.flow.refreshDue = true → Gives (.flowRefreshPass ns) s (fun t => t.flow.refreshDue = false ∧ t.flow.cache = []))
    ∧ (s.d.flow.refreshDue = false → Gives (.flowRefreshPass ns) s none_)
    ∧ (s.d.vigilTraffic = true → Gives .vigilExitToTraffic s (fun t => t.vigilState = 0 ∧ t.rd (b + VIGIL.EXIT_TIME) = us s.d.mon.wakeAt
        ∧ t.bit (b + HDR.INT_STATUS) 10 = true))
    ∧ (s.d.vigilTraffic = false → Gives .vigilExitToTraffic s none_)

/-! ### Self-test and faults (18, 19) -/

/-- R464 to R475: a test command with its targets, its abort; a target started under test or refused with its cause; its end
with its result, or stopped by what R467 names; a segment of the flow cache; the rotation; a scan by JTAG at debug level 2.
The model's own choices and readings in it: log entries 51 and 88. -/
def Obligations.SelfTests : Prop :=
  ∀ (s : State) (m : Master) (v : Word) (tgt : Nat) (rest : List Nat) (patterns total sig expd : Word) (equal : Bool) (at_ : BitVec 24),
    let b := Pg.BIST
    let st := b + BIST.BIST_STATUS
    let a := b + BIST.BIST_CMD
    let scan := b + BIST.SCAN_CTRL
    let none_ : Dev → Prop := Frame [] (fun _ => False) s.d
    let sel := s.d.fld (b + BIST.BIST_SEL) 24 4
    let mask := s.d.fld (b + BIST.BIST_SEL) 0 24
    let valid := 1 ≤ sel ∧ sel ≤ 8 ∧ mask < 2 ^ Dev.testTargets sel
    let code := s.d.testCode
    let why := s.d.testCause code tgt false
    let shown (outcome cause cover : Nat) (t : Dev) : Prop := t.test.cur = none ∧ t.fld (b + BIST.RES_ID) 28 4 = outcome
      ∧ t.fld (b + BIST.RES_ID) 24 4 = code ∧ t.fld (b + BIST.RES_ID) 16 5 = tgt ∧ t.fld (b + BIST.RES_ID) 0 8 = cause
      ∧ (t.rd (b + BIST.RES_ID + 24)).toNat = cover
    let ended (t : Dev) : Prop := rest = [] → t.bit st 31 = false ∧ t.bit st 30 = true ∧ t.bit (b + HDR.INT_STATUS) 8 = true
    let lasted (t : Dev) : Prop := t.rd (b + BIST.RES_ID + 28) = BitVec.ofNat 32 ((s.d.mono - s.d.test.started) / 1000)
    let stops := s.d.testStops code tgt
    let i := fieldOf v 0 6
    (Admits s m a → s.d.testRuns = true → Gives (.bistStart m) s (Rejected m a 0x0D s.d))
    ∧ (Admits s m a → s.d.testRuns = false → ¬ valid → Gives (.bistStart m) s (Rejected m a 0x0C s.d))
    ∧ (Admits s m a → s.d.testRuns = false → valid →
        (mask ≠ 0 → Gives (.bistStart m) s (fun t => t.testRuns = true ∧ t.testCode = sel ∧ t.test.cur = none
          ∧ t.test.left = (List.range 24).filter (fun k => mask.testBit k) ∧ t.rd (b + BIST.PASS_MAP) = 0 ∧ t.rd (b + BIST.FAIL_MAP) = 0))
        ∧ (mask = 0 → Gives (.bistStart m) s (fun t => t.testRuns = false ∧ t.fld st 29 2 = 3 ∧ t.bit (b + HDR.INT_STATUS) 8 = true)))
    ∧ (Admits s m a → s.d.testRuns = true → Gives (.bistAbort m) s (fun t => t.test.left = []
        ∧ (s.d.test.cur = none → t.testRuns = false ∧ t.bit st 30 = true) ∧ (s.d.test.cur ≠ none → t.test.cur = s.d.test.cur ∧ t.testRuns = true
          ∧ t.test.lost = if s.d.test.lost = 0 then 1 else s.d.test.lost)))
    ∧ (Admits s m a → s.d.testRuns = false → Gives (.bistAbort m) s none_)
    ∧ (s.d.test.cur = none → s.d.test.left = tgt :: rest → s.d.test.rotation = false → tgt < Dev.testTargets code → 1 ≤ code → code ≤ 8 →
        (why = 0 → Gives .bistTargetStart s (fun t => t.test.cur = some tgt ∧ t.test.left = rest ∧ t.test.started = s.d.mono ∧ Counted (b + BIST.RUNS) s.d t
          ∧ t.fld st 16 5 = tgt ∧ ∀ p ∈ Dev.testPages code tgt, t.bit (p * 0x1000 + HDR.PAGE_STATUS) 2 = true))
        ∧ (why ≠ 0 → s.d.test.failed = false → Gives .bistTargetStart s (fun t => shown 4 why 0 t ∧ t.test.left = rest ∧ ended t
          ∧ Counted (b + BIST.REFUSALS) s.d t ∧ t.bit (b + BIST.REFUSED_MAP) tgt = true ∧ t.bit (b + HDR.INT_STATUS) 11 = true)))
    ∧ (s.d.test.cur ≠ none ∨ s.d.test.left = [] → Gives .bistTargetStart s none_)
    ∧ (s.d.test.cur = some tgt → s.d.test.left = rest → s.d.test.failed = false → tgt < Dev.testTargets code → 1 ≤ code → code ≤ 8 → s.d.test.rotation = false →
        (patterns = total → (if Dev.testMemory code then equal else sig == expd) = true →
          Gives (.bistTargetEnd (.complete patterns total sig expd equal at_)) s (fun t => shown 1 0 (Dev.testCover code) t ∧ ended t ∧ lasted t
            ∧ Counted (b + BIST.PASSES) s.d t ∧ t.bit (b + BIST.PASS_MAP) tgt = true ∧ t.test.failed = false))
        ∧ (patterns = total → (if Dev.testMemory code then equal else sig == expd) = false →
          Gives (.bistTargetEnd (.complete patterns total sig expd equal at_)) s (fun t => shown 2 0 0 t ∧ ended t ∧ lasted t
            ∧ Counted (b + BIST.FAILS) s.d t ∧ t.bit (b + BIST.FAIL_MAP) tgt = true ∧ t.bit (b + HDR.INT_STATUS) 9 = true
            ∧ t.test.failed = true))
        ∧ (patterns ≠ total → Gives (.bistTargetEnd (.complete patterns total sig expd equal at_)) s (fun t => shown 3 0 0 t ∧ ended t ∧ lasted t
            ∧ Counted (b + BIST.INCOMPLETES) s.d t ∧ t.bit (b + BIST.INCOMPLETE_MAP) tgt = true))
        ∧ (stops ≠ 0 → Gives (.bistTargetEnd (.stopped patterns total)) s (fun t => shown 3 stops 0 t ∧ ended t ∧ lasted t
            ∧ Counted (b + BIST.INCOMPLETES) s.d t ∧ t.bit (b + BIST.INCOMPLETE_MAP) tgt = true ∧ t.bit (b + HDR.INT_STATUS) 10 = true))
        ∧ (stops = 0 → Gives (.bistTargetEnd (.stopped patterns total)) s none_))
    ∧ (s.d.test.cur = none → Gives (.bistTargetEnd (.stopped patterns total)) s none_)
    ∧ (s.d.test.cur = some tgt → code = 4 → s.d.test.segment = none → (∀ x ∈ s.d.flow.cache, s.d.pinned x.flow = false) →
        Gives .cacheSegmentStart s (fun t => t.test.segment = some 0
          ∧ t.flow.cache = s.d.flow.cache.filter (fun x => !decide (Dev.cacheSet x.flow / 2048 = 0))))
    ∧ (s.d.test.cur = none ∨ code ≠ 4 → Gives .cacheSegmentStart s none_)
    ∧ (s.d.assisted b = false → s.d.fld (b + BIST.ROT_CFG) 16 16 ≠ 0 → s.d.testRuns = false → s.d.vigilState = 0 → s.d.isl.mcDown = false →
        (∀ c t, Dev.rotFind (2 * s.d.fld (b + BIST.ROT_CFG) 1 8) (s.d.fld (b + BIST.ROT_NEXT) 24 4, s.d.fld (b + BIST.ROT_NEXT) 16 5) = some (c, t) →
          c < 16 → Gives .rotationStart s (fun u => u.test.left = [t] ∧ u.test.rotation = true ∧ u.testRuns = true ∧ u.testCode = c
            ∧ u.rd (b + BIST.ROT_NEXT) = BitVec.ofNat 32 ((Dev.rotAfter (c, t)).1 * 2 ^ 24 + (Dev.rotAfter (c, t)).2 * 2 ^ 16))))
    ∧ (s.d.fld (b + BIST.ROT_CFG) 16 16 = 0 ∨ s.d.testRuns = true ∨ s.d.isl.mcDown = true → Gives .rotationStart s none_)
    ∧ (Admits s .jtag scan → s.d.debugLevel = 2 →
        (i < 60 → v.getLsbD 31 = true → Gives (.scanCtrlWrite .jtag v) s (fun t => t.cmdResetting i = true ∧ t.islandOn i = false
          ∧ t.rd (b + BIST.SCAN_STATUS) = BitVec.ofNat 32 (3 * 2 ^ 30 + i) ∧ t.rd scan = v &&& 0x8000003F))
        ∧ (i < 60 → v.getLsbD 31 = false → Gives (.scanCtrlWrite .jtag v) s (fun t => t.fld (b + BIST.SCAN_STATUS) 30 2 = 0
          ∧ Frame [] (fun x => x = scan ∨ x = b + BIST.SCAN_STATUS) s.d t))
        ∧ (60 ≤ i → Gives (.scanCtrlWrite .jtag v) s (Rejected .jtag scan 0x0C s.d)))
    ∧ (m ≠ .jtag ∨ s.d.debugLevel ≠ 2 → Admits s m scan → Gives (.scanCtrlWrite m v) s (Rejected m scan 0x0D s.d))

/-- R404, R482 to R484: a lockstep mismatch resets a controller that runs, and its restart takes the pending firmware up; the
oldest complete fault record latched for its reader, and removed.
The model's own choices and readings in it: log entry 46. -/
def Obligations.FaultRecovery : Prop :=
  ∀ (s : State) (m : Master) (r : FaultRec) (rest : List FaultRec) (v : Word) (n : Nat) (l : List Byte),
    let b := Pg.DEVICE
    let none_ : Dev → Prop := Frame [] (fun _ => False) s.d
    let may := s.d.isl.mcDown = true ∧ 4 ≤ s.d.sec.step ∧ s.d.isl.privDown = false
    (s.d.isl.mcDown = false → Gives .lockstepMismatch s (fun t => t.isl = { s.d.isl with mcDown := true }
      ∧ (∀ p, t.holder p = if s.d.holds .mc p then 0 else s.d.holder p) ∧ t.epoch 2 = s.d.epoch 2 + 1
      ∧ Counted (Dev.faultCnt 13) s.d t))
    ∧ (s.d.isl.mcDown = true → Gives .lockstepMismatch s none_)
    ∧ (may → (s.d.sec.pendFw = none → Gives .mcRestart s (fun t => t.isl = { s.d.isl with mcDown := false } ∧ t.sec.pendFw = none
          ∧ t.rd (Pg.BOOT + BOOT.FW_VERSION) = s.d.rd (Pg.BOOT + BOOT.FW_VERSION)))
        ∧ (s.d.sec.pendFw = some (v, n, l) → Gives .mcRestart s (fun t => t.isl = { s.d.isl with mcDown := false } ∧ t.sec.pendFw = none
          ∧ t.rd (Pg.BOOT + BOOT.FW_VERSION) = v ∧ t.sec.measFw = l)))
    ∧ (¬ may → Gives .mcRestart s none_)
    ∧ (s.d.readErr m (b + DEVICE.FAULT_REC) = none → s.d.log.done = r :: rest → Gives (.faultRecRead m) s (fun t =>
        t.sent = .readData m (b + DEVICE.FAULT_REC) ((Dev.faultWords r).headD 0) :: s.d.sent
        ∧ Sparse.get (fun _ => []) t.log.latch (masterId m).toNat = Dev.faultWords r ∧ t.log.done = r :: rest
        ∧ Frame [.log, .sent] (fun _ => False) s.d t))
    ∧ (s.d.readErr m (b + DEVICE.FAULT_REC) = none → s.d.log.done = [] → Gives (.faultRecRead m) s (fun t =>
        t.sent = .readData m (b + DEVICE.FAULT_REC) 0 :: s.d.sent ∧ Frame [.sent] (fun _ => False) s.d t))
    ∧ (Admits s m (b + DEVICE.FAULT_POP) → Gives (.faultPop m) s (fun t => t.log = { s.d.log with done := s.d.log.done.drop 1 }
        ∧ Frame [.log] (fun _ => False) s.d t))

/-! ### What commands leave alone -/

/-- What the commands of the lane checkpoints and reports, the tables, the flow state, the memory stacks, the host lanes, the
Lantern receiver and the analogue outputs leave alone, in every state and whether they act or not: every register on a page of
another kind than those named, and every part of the device but those named (R79, R95, R106, R174, R185, R237, R249, R299,
R310, R324). -/
def Obligations.PortAndTableFrames : Prop :=
  ∀ (s : State) (n port h : Lane) (cut signal cdr am hi ovr borrowed : Bool) (r : LaneReport) (errors len symbols full
    samples : Nat) (window : List Byte) (rxTime : BitVec 80) (bank prio : Fin 8) (bucket : BitVec 17) (m : Master)
    (profile : Fin 1024) (v : Word) (i : Fin 8192) (c : Fin 64) (cause : RetireCause) (k : Stack) (levels : List
    (BitVec 16)) (level : BitVec 16) (decisions : List Bool) (along : List LtTrigger) (sl : Slice) (k2 : Fin 10) (mean
    : BitVec 20) (sense : OutSense) (i2 : Fin 12) (sum : Int),
    Gives (.ckptTick n cut) s (Frame [.rx] (OnTypes [.lrx, .lseq, .seq]) s.d)
    ∧ Gives .inServiceCalStep s (Frame [.cal] (OnTypes [.cal]) s.d)
    ∧ Gives (.qualityUpdate n r) s (Frame [.rx] (OnTypes [.lrx]) s.d)
    ∧ Gives (.eyePointDone n errors) s (Frame [] (OnTypes [.lrx, .lseq, .seq]) s.d)
    ∧ Gives (.headerWindowComplete port window len rxTime) s (Frame [.flow] (OnTypes [.flow, .admission]) s.d)
    ∧ Gives (.bucketReload bank bucket) s (Frame [.log, .cls] (OnTypes [.device, .cls, .clsbank]) s.d)
    ∧ Gives (.profileCommit m profile v) s (Frame [.bus, .cls] (OnTypes [.cls, .clsprof]) s.d)
    ∧ Gives .freeIdRefill s (Frame [.cls] (OnTypes [.clsmiss]) s.d)
    ∧ Gives (.rdCmdRead m) s (Frame [.bus, .buf, .sent] (OnTypes [.clkrst, .clsupd]) s.d)
    ∧ Gives (.rdCmdReadShadow m) s (Frame [.bus, .buf, .sent] (OnTypes [.clkrst, .clsupd]) s.d)
    ∧ Gives (.restoreDone bank) s (Frame [.cls] (OnTypes [.cls, .clsbank]) s.d)
    ∧ Gives (.recordWordCommit m i v) s (Frame [.bus, .flow, .buf] (OnTypes [.flow]) s.d)
    ∧ Gives .initDone s (Frame [] (OnTypes [.flow]) s.d)
    ∧ Gives (.cacheFlush m) s (Frame [.bus, .flow, .buf, .sent] (OnTypes [.clkrst, .flow]) s.d)
    ∧ Gives .cacheFlushDone s (Frame [] (OnTypes [.flow]) s.d)
    ∧ Gives (.hostPfcExpiry h prio) s (Frame [.buf] (OnTypes [.sched]) s.d)
    ∧ Gives (.channelRetirement c cause) s (Frame [.log, .buf, .test] (OnTypes [.device, .buf, .hbm]) s.d)
    ∧ Gives (.retireCmdStack m k) s (Frame [.bus, .buf, .test, .sent] (OnTypes [.clkrst, .buf, .hbm]) s.d)
    ∧ Gives (.hostEnable m n) s (Frame [.bus, .eg, .sent] (OnTypes [.clkrst, .host, .slice]) s.d)
    ∧ Gives (.hostDisable m n) s (Frame [.bus, .eg, .sent] (OnTypes [.clkrst, .host, .slice]) s.d)
    ∧ Gives (.prbsModeSet m n) s (Frame [.bus, .eg, .sent] (OnTypes [.clkrst, .host]) s.d)
    ∧ Gives (.prbsModeClear m n) s (Frame [.bus, .eg, .sent] (OnTypes [.clkrst, .host]) s.d)
    ∧ Gives (.hostLaneUp n) s (Frame [.eg, .sent] (OnTypes [.host]) s.d)
    ∧ Gives (.hostLaneDown n signal cdr am) s (Frame [.eg, .sent] (OnTypes [.host]) s.d)
    ∧ Gives (.eqSetCommit m n hi v) s (Frame [.bus, .eg, .sent] (OnTypes [.clkrst, .host, .slice]) s.d)
    ∧ Gives (.flowControlRepeat h) s (Frame [.sent] (OnTypes [.host, .slice]) s.d)
    ∧ Gives .ppsLost s (Frame [] (OnTypes [.clkrst]) s.d)
    ∧ Gives (.hostEyePointDone n errors) s (Frame [] (OnTypes [.host]) s.d)
    ∧ Gives (.lanternAcquireAbandon n symbols levels) s (Frame [] (OnTypes [.lantern]) s.d)
    ∧ Gives (.lanternPreambleDetect n level decisions) s (Frame [] (OnTypes [.lantern]) s.d)
    ∧ Gives (.lanternSyncWindowExpire n decisions) s (Frame [] (OnTypes [.lantern]) s.d)
    ∧ Gives (.lanternClip n full samples along) s (Frame [] (OnTypes [.lantern]) s.d)
    ∧ Gives (.lanternSignalLost n levels along) s (Frame [] (OnTypes [.lantern]) s.d)
    ∧ Gives (.lanternTxFrameEnd n) s (Frame [.lt, .sent] (OnTypes [.lantern]) s.d)
    ∧ Gives (.identityPeriod n) s (Frame [.lt] (OnTypes [.lantern]) s.d)
    ∧ Gives (.sendIdent m n) s (Frame [.bus, .lt, .sent] (OnTypes [.clkrst, .lantern]) s.d)
    ∧ Gives (.sendWake m n) s (Frame [.bus, .lt, .sent] (OnTypes [.clkrst, .lantern]) s.d)
    ∧ Gives (.txFlush m n) s (Frame [.bus, .lt, .hif, .sent] (OnTypes [.clkrst, .lantern, .ring]) s.d)
    ∧ Gives (.outputRetry sl k2) s (Frame [.ana, .sent] (OnTypes [.ana, .decim, .lseq, .seq]) s.d)
    ∧ Gives (.readbackCheckDone sl mean sense) s (Frame [.log, .ana, .sent] (OnTypes [.device, .ana, .decim, .lseq,
        .seq]) s.d)
    ∧ Gives (.monitorSample sl i2 sum ovr borrowed) s (Frame [.ana] (OnTypes [.decim, .lseq, .seq]) s.d)
    ∧ Gives (.moduleRemoved n) s (Frame [.mm] (OnTypes [.mm]) s.d)

/-- What the commands of the modules, the sequencers, the debug and start-up logic, the host interface, the thermal zones and
the self-tests leave alone, in every state and whether they act or not: every register on a page of another kind than those
named, and every part of the device but those named (R334 to R342, R352, R358, R405, R416, R423, R450, R477). -/
def Obligations.ControlFrames : Prop :=
  ∀ (s : State) (n : Lane) (r : XferResult) (m : Master) (stuckAfter ofBuffer asserted : Bool) (k : SeqId) (a b : Fin
    16) (w : Fin 2048) (v tag : Word) (i : Fin 8) (nonce : BitVec 256) (bufLen vigilNs : Nat) (r2 : Ring) (descs :
    List DescBytes) (image : List Byte) (c : Fin 64),
    Gives (.moduleInserted n) s (Frame [.mm] (OnTypes [.mm]) s.d)
    ∧ Gives (.modulePowerupTimeout n) s (Frame [.log] (OnTypes [.device, .mm]) s.d)
    ∧ Gives (.initWaitTimeout n) s (Frame [.log] (OnTypes [.device, .mm]) s.d)
    ∧ Gives (.intStorm n) s (Frame [.log] (OnTypes [.device, .mm]) s.d)
    ∧ Gives (.xferDone n r) s (Frame [.log, .mm, .fresh] (OnTypes [.device, .mm]) s.d)
    ∧ Gives (.resetModule m n) s (Frame [.bus, .mm, .sent] (OnTypes [.clkrst, .mm]) s.d)
    ∧ Gives (.unisolate m n) s (Frame [.bus, .mm, .sent] (OnTypes [.clkrst, .mm]) s.d)
    ∧ Gives (.stretchTimeout n stuckAfter) s (Frame [.log, .mm, .sent] (OnTypes [.device, .mm]) s.d)
    ∧ Gives (.xferTimeout n stuckAfter) s (Frame [.log, .mm, .sent] (OnTypes [.device, .mm]) s.d)
    ∧ Gives (.writePollTimeout n stuckAfter) s (Frame [.log, .mm, .sent] (OnTypes [.device, .mm]) s.d)
    ∧ Gives (.waitResume k) s (Frame [.seq] (OnTypes [.lseq, .seq]) s.d)
    ∧ Gives (.dbl k a b) s (Frame [.isl, .seq, .mbx] (OnTypes [.lseq, .seq, .mbx]) s.d)
    ∧ Gives (.breakpointHalt k) s (Frame [.seq] (OnTypes [.lseq, .seq]) s.d)
    ∧ Gives (.seqHalt m k) s (Frame [.bus, .seq, .sent] (OnTypes [.clkrst, .lseq, .seq]) s.d)
    ∧ Gives (.seqInstrWrite m k w v) s (Frame [.bus] (OnTypes [.lseq, .seq]) s.d)
    ∧ Gives (.lseqHostAssistClear m i) s (Frame [.bus, .seq, .sent] (OnTypes [.clkrst, .lseq, .seq]) s.d)
    ∧ Gives .trstN s (Frame [.bus, .sec] (OnTypes [.boot]) s.d)
    ∧ Gives (.secDebugDisable m) s (Frame [.bus, .sec, .sent] (OnTypes [.clkrst, .boot]) s.d)
    ∧ Gives (.secOwnerDebugDisable m) s (Frame [.bus, .sec, .sent] (OnTypes [.clkrst, .boot]) s.d)
    ∧ Gives (.dbgRelock m) s (Frame [.bus, .sent] (OnTypes [.clkrst, .bist, .boot]) s.d)
    ∧ Gives (.attestationRequest nonce bufLen tag) s (Frame [.sec, .hif] (OnTypes [.boot]) s.d)
    ∧ Gives .poisonedWrite s (Frame [] (OnTypes [.dma]) s.d)
    ∧ Gives .busMasterDisable s (Frame [.hif] (OnTypes []) s.d)
    ∧ Gives .smbusTimeout s (Frame [] (OnTypes []) s.d)
    ∧ Gives (.deviceReadError r2 ofBuffer) s (Frame [.hif, .sent] (OnTypes [.dma, .ring]) s.d)
    ∧ Gives (.tableUpdateDescriptor descs) s (Frame [.cls, .hif] (OnTypes []) s.d)
    ∧ Gives (.firmwareUpload image) s (Frame [.sec, .hif] (OnTypes []) s.d)
    ∧ Gives .harvestPeriod s (Frame [.hif] (OnTypes [.dma]) s.d)
    ∧ Gives .sampleRateSlow s (Frame [] (OnTypes [.therm]) s.d)
    ∧ Gives .pauseStep s (Frame [.lt] (OnTypes [.therm, .lantern]) s.d)
    ∧ Gives .pauseReleaseStep s (Frame [.lt] (OnTypes [.therm, .lantern]) s.d)
    ∧ Gives (.flowRefreshPass vigilNs) s (Frame [.flow, .buf, .fresh] (OnTypes [.flow]) s.d)
    ∧ Gives .vigilExitToTraffic s (Frame [] (OnTypes [.vigil]) s.d)
    ∧ Gives (.bistAbort m) s (Frame [.bus, .test, .sent] (OnTypes [.clkrst, .bist]) s.d)
    ∧ Gives .cacheSegmentStart s (Frame [.flow, .buf, .test] (OnTypes [.flow]) s.d)
    ∧ Gives .rotationStart s (Frame [.test] (OnTypes [.bist]) s.d)
    ∧ Gives (.hostLosChange n asserted) s (Frame [.eg, .sent] (OnTypes [.host]) s.d)
    ∧ Gives (.relocationScan c) s (Frame [.buf] (OnTypes [.buf]) s.d)

end
end

