-- ==== Sys2Proof/Laws/Bytes.lean ====
section
/-! SUPPORT. Byte strings: lengths, parts of a joined string, and the length of each digest. -/

namespace Sys2Proof.Machine

@[simp] theorem bytesLE_length (n v : Nat) : (bytesLE n v).length = n := by
  induction n generalizing v with
  | zero => rfl
  | succ n ih => simp [bytesLE, ih]

@[simp] theorem bytesBE_length (n v : Nat) : (bytesBE n v).length = n := by simp [bytesBE]

@[simp] theorem slice_length (l : List Byte) (off n : Nat) : (slice l off n).length = n := by simp [slice]

/-- A part that lies in the first of two joined strings. -/
theorem slice_append_left (a b : List Byte) (off n : Nat) (h : off + n ≤ a.length) : slice (a ++ b) off n = slice a off n := by
  unfold slice
  refine List.map_congr_left fun i hi => ?_
  have : i < n := List.mem_range.mp hi
  rw [List.getD_append _ _ _ _ (by omega)]

/-- The part that is the second of three joined strings. -/
theorem slice_middle (a d r : List Byte) : slice (a ++ (d ++ r)) a.length d.length = d := by
  refine List.ext_getElem (by simp) fun i h _ => ?_
  have hi : i < d.length := by simpa using h
  simp [slice, List.getD_eq_getElem?_getD, List.getElem?_append, hi]

theorem shaRound_length (v : List Nat) (kw : Nat × Nat) : (shaRound v kw).length = v.length := by
  unfold shaRound; split <;> rfl

theorem sha5Round_length (v : List Nat) (kw : Nat × Nat) : (sha5Round v kw).length = v.length := by
  unfold sha5Round; split <;> rfl

theorem shaBlock_length (h : List Nat) (b : List Byte) : (shaBlock h b).length = h.length := by
  have fold (l : List (Nat × Nat)) (v : List Nat) : (l.foldl shaRound v).length = v.length := by
    induction l generalizing v with
    | nil => rfl
    | cons x l ih => simp [ih, shaRound_length]
  simp [shaBlock, fold]

theorem sha5Block_length (h : List Nat) (b : List Byte) : (sha5Block h b).length = h.length := by
  have fold (l : List (Nat × Nat)) (v : List Nat) : (l.foldl sha5Round v).length = v.length := by
    induction l generalizing v with
    | nil => rfl
    | cons x l ih => simp [ih, sha5Round_length]
  simp [sha5Block, fold]

theorem shaBlocks_length (n : Nat) (h : List Nat) (m : List Byte) : (shaBlocks n h m).length = h.length := by
  induction n generalizing h m with
  | zero => rfl
  | succ n ih => unfold shaBlocks; split <;> simp [ih, shaBlock_length]

theorem sha5Blocks_length (n : Nat) (h : List Nat) (m : List Byte) : (sha5Blocks n h m).length = h.length := by
  induction n generalizing h m with
  | zero => rfl
  | succ n ih => unfold sha5Blocks; split <;> simp [ih, sha5Block_length]

@[simp] theorem sha256_length (m : List Byte) : (sha256 m).length = 32 := by
  simp [sha256, List.length_flatMap, shaBlocks_length, shaH]

@[simp] theorem sha384_length (m : List Byte) : (sha384 m).length = 48 := by
  simp [sha384, List.length_flatMap, sha5Blocks_length, sha384H]

@[simp] theorem hmacSha256_length (key m : List Byte) : (hmacSha256 key m).length = 32 := by simp [hmacSha256]

end Sys2Proof.Machine
end

