-- ==== Sys2Proof/Laws/Fields.lean ====
section
/-! SUPPORT. Bit fields: a field written is the field read, every other field stays; merging keeps the bits it does not
select. -/

namespace Sys2Proof.Machine

theorem fieldOf_eq (w : Word) (lo len : Nat) : fieldOf w lo len = (w.extractLsb' lo len).toNat := by
  simp [fieldOf, Nat.shiftRight_eq_div_pow]

theorem maskOf_bit (lo len j : Nat) :
    (maskOf lo len).getLsbD j = (decide (j < 32) && decide (lo ≤ j) && decide (j < lo + len)) := by
  simp only [maskOf, BitVec.getLsbD_ofNat, Nat.testBit_mul_two_pow, Nat.testBit_two_pow_sub_one]
  by_cases h : lo ≤ j
  · have : (j - lo < len) ↔ (j < lo + len) := by omega
    simp [h, this]
  · simp [h]

theorem withField_bit (w : Word) (lo len v j : Nat) :
    (withField w lo len v).getLsbD j =
      if lo ≤ j ∧ j < lo + len then decide (j < 32) && v.testBit (j - lo) else w.getLsbD j := by
  simp only [withField, BitVec.getLsbD_or, BitVec.getLsbD_and, BitVec.getLsbD_not, maskOf_bit, BitVec.getLsbD_ofNat,
    Nat.testBit_mul_two_pow, Nat.testBit_mod_two_pow]
  by_cases h32 : j < 32
  · by_cases h1 : lo ≤ j
    · by_cases h2 : j < lo + len
      · have : j - lo < len := by omega
        simp [h32, h1, h2, this]
      · have : ¬ j - lo < len := by omega
        simp [h32, h1, h2, this]
    · simp [h32, h1]
  · simp [h32, BitVec.getLsbD_of_ge w j (by omega)]

/-- A field written is the field read. -/
@[simp] theorem fieldOf_withField (w : Word) (lo len v : Nat) (h : lo + len ≤ 32) :
    fieldOf (withField w lo len v) lo len = v % 2 ^ len := by
  rw [fieldOf_eq, ← BitVec.toNat_ofNat v len]
  congr 1
  apply BitVec.eq_of_getLsbD_eq
  intro i hi
  have : lo + i < 32 := by omega
  simp only [BitVec.getLsbD_extractLsb', withField_bit, BitVec.getLsbD_ofNat, hi, this]
  simp [hi]

/-- A field of other bits stays. -/
theorem fieldOf_withField_ne (w : Word) (lo len v l n : Nat) (h : l + n ≤ lo ∨ lo + len ≤ l) :
    fieldOf (withField w lo len v) l n = fieldOf w l n := by
  rw [fieldOf_eq, fieldOf_eq]
  congr 1
  apply BitVec.eq_of_getLsbD_eq
  intro i hi
  have : ¬ (lo ≤ l + i ∧ l + i < lo + len) := by omega
  simp only [BitVec.getLsbD_extractLsb', withField_bit, hi, this, if_false]

theorem bitOf_withField_ne (w : Word) (lo len v i : Nat) (h : i < lo ∨ lo + len ≤ i) :
    bitOf (withField w lo len v) i = bitOf w i := by
  have : ¬ (lo ≤ i ∧ i < lo + len) := by omega
  simp [bitOf, withField_bit, this]

/-- A bit written is the bit read. -/
@[simp] theorem bitOf_withBit (w : Word) (i : Nat) (b : Bool) (h : i < 32) : bitOf (withBit w i b) i = b := by
  have : ¬ (32 ≤ i) := by omega
  cases b <;> simp only [bitOf, withBit, withField_bit] <;> simp [h]

theorem bitOf_withBit_ne (w : Word) (i j : Nat) (b : Bool) (h : j ≠ i) : bitOf (withBit w i b) j = bitOf w j := by
  simp only [withBit]; exact bitOf_withField_ne _ _ _ _ _ (by omega)

theorem fieldOf_withBit_ne (w : Word) (i : Nat) (b : Bool) (l n : Nat) (h : l + n ≤ i ∨ i < l) :
    fieldOf (withBit w i b) l n = fieldOf w l n := by
  simp only [withBit]; exact fieldOf_withField_ne _ _ _ _ _ _ (by omega)

/-- A merge takes the selected bits and keeps the others. -/
theorem mergeBits_bit (old sel v : Word) (j : Nat) :
    bitOf (mergeBits old sel v) j = if bitOf sel j then bitOf v j else bitOf old j := by
  have e : (mergeBits old sel v).getLsbD j
      = ((old.getLsbD j && (decide (j < 32) && !sel.getLsbD j)) || (v.getLsbD j && sel.getLsbD j)) := by
    simp only [mergeBits, BitVec.getLsbD_or, BitVec.getLsbD_and, BitVec.getLsbD_not]
  by_cases h : bitOf sel j = true
  · rw [if_pos h]
    have h' : sel.getLsbD j = true := h
    show (mergeBits old sel v).getLsbD j = v.getLsbD j
    rw [e, h']; simp
  · rw [if_neg h]
    have h' : sel.getLsbD j = false := by simpa [bitOf] using h
    show (mergeBits old sel v).getLsbD j = old.getLsbD j
    rw [e, h']
    by_cases hj : j < 32
    · simp [hj]
    · simp [hj, BitVec.getLsbD_of_ge old j (by omega)]

@[simp] theorem fieldOf_zero (lo len : Nat) : fieldOf 0 lo len = 0 := by simp [fieldOf]

end Sys2Proof.Machine
end

