-- ==== Sys2Proof/Laws/Sparse.lean ====
section
/-! SUPPORT. The laws of sparse tables: a read after a write, and that every operation keeps the canonical form. -/

namespace Sys2Proof.Machine.Sparse

variable {α : Type}

theorem get_drop_same (d : Nat → α) (m : Sparse α) (k : Nat) : get d (drop k m) k = d k := by
  induction m with
  | nil => rfl
  | cons p r ih => by_cases h : p.1 = k <;> simp [drop, get, h, ih]

theorem get_drop_ne (d : Nat → α) (m : Sparse α) {k j : Nat} (h : j ≠ k) :
    get d (drop k m) j = get d m j := by
  induction m with
  | nil => rfl
  | cons p r ih =>
    by_cases hp : p.1 = k
    · have : p.1 ≠ j := fun e => h (e.symm.trans hp)
      simp [drop, get, hp, ih]; intro e; exact absurd e.symm h
    · simp [drop, get, hp, ih]

theorem get_place_same (d : Nat → α) (k : Nat) (v : α) (m : Sparse α) (h : ∀ p ∈ m, p.1 ≠ k) :
    get d (place k v m) k = v := by
  induction m with
  | nil => simp [place, get]
  | cons p r ih =>
    have hp := h p (by simp)
    have hr : ∀ q ∈ r, q.1 ≠ k := fun q hq => h q (by simp [hq])
    by_cases hk : k < p.1 <;> simp [place, get, hk, hp, ih hr]

theorem get_place_ne (d : Nat → α) (m : Sparse α) {k j : Nat} (v : α) (h : j ≠ k) :
    get d (place k v m) j = get d m j := by
  induction m with
  | nil => simp [place, get, Ne.symm h]
  | cons p r ih => by_cases hk : k < p.1 <;> simp [place, get, hk, ih, Ne.symm h]

theorem mem_drop {m : Sparse α} {k : Nat} {p : Nat × α} (h : p ∈ drop k m) : p ∈ m ∧ p.1 ≠ k := by
  induction m with
  | nil => simp [drop] at h
  | cons q r ih =>
    by_cases hq : q.1 = k
    · simp only [drop, hq, if_true] at h
      exact ⟨List.mem_cons_of_mem _ (ih h).1, (ih h).2⟩
    · simp only [drop, hq, if_false, List.mem_cons] at h
      rcases h with rfl | h
      · exact ⟨by simp, hq⟩
      · exact ⟨List.mem_cons_of_mem _ (ih h).1, (ih h).2⟩

/-- A read of the key just written gives the value written. -/
@[simp] theorem get_put_same [DecidableEq α] (d : Nat → α) (m : Sparse α) (k : Nat) (v : α) :
    get d (put d m k v) k = v := by
  unfold put
  split
  · next h => rw [get_drop_same, h]
  · exact get_place_same d k v _ (fun p hp => (mem_drop hp).2)

/-- A write leaves every other key alone. -/
theorem get_put_ne [DecidableEq α] (d : Nat → α) (m : Sparse α) {k j : Nat} (v : α) (h : j ≠ k) :
    get d (put d m k v) j = get d m j := by
  unfold put
  split
  · exact get_drop_ne d m h
  · rw [get_place_ne d _ v h, get_drop_ne d m h]

theorem sortedFrom_drop (m : Sparse α) (k : Nat) :
    ∀ b, sortedFrom b m = true → sortedFrom b (drop k m) = true := by
  have weaken : ∀ (m : Sparse α) (a b : Nat), a < b → sortedFrom (some b) m = true →
      sortedFrom (some a) m = true := by
    intro m a b hab h
    cases m with
    | nil => rfl
    | cons p r =>
      simp only [sortedFrom, Bool.and_eq_true, decide_eq_true_eq] at h ⊢
      exact ⟨by omega, h.2⟩
  have none_of : ∀ (m : Sparse α) (b : Nat), sortedFrom (some b) m = true → sortedFrom none m = true := by
    intro m b h
    cases m with
    | nil => rfl
    | cons p r =>
      simp only [sortedFrom, Bool.and_eq_true, decide_eq_true_eq] at h ⊢
      exact h.2
  induction m with
  | nil => intro b h; exact h
  | cons p r ih =>
    intro b h
    have hr : sortedFrom (some p.1) r = true := by
      cases b <;> simp only [sortedFrom, Bool.and_eq_true] at h
      · exact h
      · exact h.2
    by_cases hp : p.1 = k
    · simp only [drop, hp, if_true]
      cases b with
      | none => exact none_of _ _ (ih _ hr)
      | some b =>
        simp only [sortedFrom, Bool.and_eq_true, decide_eq_true_eq] at h
        exact weaken _ _ _ h.1 (ih _ hr)
    · simp only [drop, hp, if_false]
      cases b with
      | none => exact ih _ hr
      | some b =>
        simp only [sortedFrom, Bool.and_eq_true, decide_eq_true_eq] at h ⊢
        exact ⟨h.1, ih _ hr⟩

theorem sortedFrom_place (k : Nat) (v : α) (m : Sparse α) (hk : ∀ p ∈ m, p.1 ≠ k) :
    ∀ b, sortedFrom b m = true → (∀ c, b = some c → c < k) → sortedFrom b (place k v m) = true := by
  induction m with
  | nil => intro b _ hb; cases b <;> simp [place, sortedFrom]; exact hb _ rfl
  | cons p r ih =>
    intro b h hb
    have hp : p.1 ≠ k := hk p (by simp)
    have hr : sortedFrom (some p.1) r = true := by
      cases b <;> simp only [sortedFrom, Bool.and_eq_true] at h
      · exact h
      · exact h.2
    by_cases hlt : k < p.1
    · simp only [place, hlt, if_true]
      cases b with
      | none => simp [sortedFrom, hlt, hr]
      | some b => simp [sortedFrom, hlt, hr, hb b rfl]
    · simp only [place, hlt, if_false]
      have hrest := ih (fun q hq => hk q (by simp [hq])) (some p.1) hr
        (fun c hc => by cases hc; omega)
      cases b with
      | none => exact hrest
      | some b =>
        simp only [sortedFrom, Bool.and_eq_true, decide_eq_true_eq] at h ⊢
        exact ⟨h.1, hrest⟩

theorem mem_place {k : Nat} {v : α} {m : Sparse α} {p : Nat × α} (h : p ∈ place k v m) :
    p = (k, v) ∨ p ∈ m := by
  induction m with
  | nil => simpa [place] using h
  | cons q r ih =>
    by_cases hk : k < q.1
    · simpa [place, hk] using h
    · simp only [place, hk, if_false, List.mem_cons] at h
      rcases h with h | h
      · exact .inr (by simp [h])
      · rcases ih h with h | h
        · exact .inl h
        · exact .inr (by simp [h])

/-- A write keeps the canonical form. -/
theorem wf_put [DecidableEq α] {d : Nat → α} {m : Sparse α} (h : wf d m = true) (k : Nat) (v : α) :
    wf d (put d m k v) = true := by
  simp only [wf, Bool.and_eq_true, List.all_eq_true, decide_eq_true_eq] at h ⊢
  unfold put
  split
  · exact ⟨sortedFrom_drop m k _ h.1, fun p hp => h.2 p (mem_drop hp).1⟩
  · next hv =>
    refine ⟨sortedFrom_place k v _ (fun p hp => (mem_drop hp).2) _ (sortedFrom_drop m k _ h.1)
      (fun c hc => by cases hc), fun p hp => ?_⟩
    rcases mem_place hp with rfl | hp
    · exact hv
    · exact h.2 p (mem_drop hp).1

theorem sortedFrom_filter (f : Nat × α → Bool) (m : Sparse α) :
    ∀ b, sortedFrom b m = true → sortedFrom b (m.filter f) = true := by
  have weaken : ∀ (m : Sparse α) (a b : Nat), a < b → sortedFrom (some b) m = true →
      sortedFrom (some a) m = true := by
    intro m a b hab h
    cases m with
    | nil => rfl
    | cons p r =>
      simp only [sortedFrom, Bool.and_eq_true, decide_eq_true_eq] at h ⊢
      exact ⟨by omega, h.2⟩
  have none_of : ∀ (m : Sparse α) (b : Nat), sortedFrom (some b) m = true → sortedFrom none m = true := by
    intro m b h
    cases m with
    | nil => rfl
    | cons p r =>
      simp only [sortedFrom, Bool.and_eq_true, decide_eq_true_eq] at h ⊢
      exact h.2
  induction m with
  | nil => intro b h; exact h
  | cons p r ih =>
    intro b h
    have hr : sortedFrom (some p.1) r = true := by
      cases b <;> simp only [sortedFrom, Bool.and_eq_true] at h
      · exact h
      · exact h.2
    by_cases hf : f p = true
    · rw [List.filter_cons_of_pos hf]
      cases b with
      | none => exact ih _ hr
      | some b =>
        simp only [sortedFrom, Bool.and_eq_true, decide_eq_true_eq] at h ⊢
        exact ⟨h.1, ih _ hr⟩
    · rw [List.filter_cons_of_neg hf]
      cases b with
      | none => exact none_of _ _ (ih _ hr)
      | some b =>
        simp only [sortedFrom, Bool.and_eq_true, decide_eq_true_eq] at h
        exact weaken _ _ _ h.1 (ih _ hr)

/-- Clearing entries keeps the canonical form. -/
theorem wf_clear [DecidableEq α] {d : Nat → α} {m : Sparse α} (h : wf d m = true) (sel : Nat → Bool) :
    wf d (clear sel m) = true := by
  simp only [wf, Bool.and_eq_true, List.all_eq_true, decide_eq_true_eq] at h ⊢
  exact ⟨sortedFrom_filter _ m _ h.1, fun p hp => h.2 p (List.mem_of_mem_filter hp)⟩

/-- A cleared key reads as its default, every other key as before. -/
theorem get_clear (d : Nat → α) (sel : Nat → Bool) (m : Sparse α) (k : Nat) :
    get d (clear sel m) k = if sel k then d k else get d m k := by
  induction m with
  | nil => simp [clear, get]
  | cons p r ih =>
    simp only [clear] at ih ⊢
    by_cases hs : sel p.1 = true
    · rw [List.filter_cons_of_neg (by simp [hs])]
      rw [ih]
      by_cases hk : p.1 = k
      · subst hk; simp [hs]
      · simp [get, hk]
    · rw [List.filter_cons_of_pos (by simp [hs])]
      by_cases hk : p.1 = k
      · subst hk; simp [get, hs]
      · simp [get, hk, ih]

end Sys2Proof.Machine.Sparse
end

