-- ==== Sys2Proof/Laws/State.lean ====
section
/-! SUPPORT. The updates of the device: what each leaves alone, one theorem per update, and what a register reads after
it. No later proof unfolds a record update. -/

namespace Sys2Proof.Machine

namespace Dev

variable (s : Dev)

@[simp] theorem wr_frame (a : Nat) (v : Word) :
    (s.wr a v).bus = s.bus ∧ (s.wr a v).isl = s.isl ∧ (s.wr a v).log = s.log ∧ (s.wr a v).rx = s.rx ∧
    (s.wr a v).cls = s.cls ∧ (s.wr a v).flow = s.flow ∧ (s.wr a v).buf = s.buf ∧ (s.wr a v).eg = s.eg ∧
    (s.wr a v).time = s.time ∧ (s.wr a v).lt = s.lt ∧ (s.wr a v).tx = s.tx ∧ (s.wr a v).ana = s.ana ∧
    (s.wr a v).mm = s.mm ∧ (s.wr a v).seq = s.seq ∧ (s.wr a v).cal = s.cal ∧ (s.wr a v).sec = s.sec ∧
    (s.wr a v).hif = s.hif ∧ (s.wr a v).mbx = s.mbx ∧ (s.wr a v).eyes = s.eyes ∧ (s.wr a v).mon = s.mon ∧
    (s.wr a v).test = s.test ∧ (s.wr a v).groups = s.groups ∧ (s.wr a v).intN = s.intN ∧ (s.wr a v).mono = s.mono ∧
    (s.wr a v).fresh = s.fresh ∧ (s.wr a v).out = s.out := by
  repeat' constructor

@[simp] theorem setF_frame (a lo len v : Nat) :
    (s.setF a lo len v).bus = s.bus ∧ (s.setF a lo len v).isl = s.isl ∧ (s.setF a lo len v).log = s.log ∧
    (s.setF a lo len v).rx = s.rx ∧ (s.setF a lo len v).cls = s.cls ∧ (s.setF a lo len v).flow = s.flow ∧
    (s.setF a lo len v).buf = s.buf ∧ (s.setF a lo len v).eg = s.eg ∧ (s.setF a lo len v).time = s.time ∧
    (s.setF a lo len v).lt = s.lt ∧ (s.setF a lo len v).tx = s.tx ∧ (s.setF a lo len v).ana = s.ana ∧
    (s.setF a lo len v).mm = s.mm ∧ (s.setF a lo len v).seq = s.seq ∧ (s.setF a lo len v).cal = s.cal ∧
    (s.setF a lo len v).sec = s.sec ∧ (s.setF a lo len v).hif = s.hif ∧ (s.setF a lo len v).mbx = s.mbx ∧
    (s.setF a lo len v).eyes = s.eyes ∧ (s.setF a lo len v).mon = s.mon ∧ (s.setF a lo len v).test = s.test ∧
    (s.setF a lo len v).groups = s.groups ∧ (s.setF a lo len v).intN = s.intN ∧ (s.setF a lo len v).mono = s.mono ∧
    (s.setF a lo len v).fresh = s.fresh ∧ (s.setF a lo len v).out = s.out := by
  repeat' constructor

@[simp] theorem setB_frame (a i : Nat) (b : Bool) :
    (s.setB a i b).bus = s.bus ∧ (s.setB a i b).isl = s.isl ∧ (s.setB a i b).log = s.log ∧ (s.setB a i b).rx = s.rx ∧
    (s.setB a i b).cls = s.cls ∧ (s.setB a i b).flow = s.flow ∧ (s.setB a i b).buf = s.buf ∧
    (s.setB a i b).eg = s.eg ∧ (s.setB a i b).time = s.time ∧ (s.setB a i b).lt = s.lt ∧ (s.setB a i b).tx = s.tx ∧
    (s.setB a i b).ana = s.ana ∧ (s.setB a i b).mm = s.mm ∧ (s.setB a i b).seq = s.seq ∧ (s.setB a i b).cal = s.cal ∧
    (s.setB a i b).sec = s.sec ∧ (s.setB a i b).hif = s.hif ∧ (s.setB a i b).mbx = s.mbx ∧
    (s.setB a i b).eyes = s.eyes ∧ (s.setB a i b).mon = s.mon ∧ (s.setB a i b).test = s.test ∧
    (s.setB a i b).groups = s.groups ∧ (s.setB a i b).intN = s.intN ∧ (s.setB a i b).mono = s.mono ∧
    (s.setB a i b).fresh = s.fresh ∧ (s.setB a i b).out = s.out := by
  repeat' constructor

@[simp] theorem orBits_frame (a : Nat) (v : Word) :
    (s.orBits a v).bus = s.bus ∧ (s.orBits a v).isl = s.isl ∧ (s.orBits a v).log = s.log ∧ (s.orBits a v).rx = s.rx ∧
    (s.orBits a v).cls = s.cls ∧ (s.orBits a v).flow = s.flow ∧ (s.orBits a v).buf = s.buf ∧
    (s.orBits a v).eg = s.eg ∧ (s.orBits a v).time = s.time ∧ (s.orBits a v).lt = s.lt ∧ (s.orBits a v).tx = s.tx ∧
    (s.orBits a v).ana = s.ana ∧ (s.orBits a v).mm = s.mm ∧ (s.orBits a v).seq = s.seq ∧ (s.orBits a v).cal = s.cal ∧
    (s.orBits a v).sec = s.sec ∧ (s.orBits a v).hif = s.hif ∧ (s.orBits a v).mbx = s.mbx ∧
    (s.orBits a v).eyes = s.eyes ∧ (s.orBits a v).mon = s.mon ∧ (s.orBits a v).test = s.test ∧
    (s.orBits a v).groups = s.groups ∧ (s.orBits a v).intN = s.intN ∧ (s.orBits a v).mono = s.mono ∧
    (s.orBits a v).fresh = s.fresh ∧ (s.orBits a v).out = s.out := by
  repeat' constructor

@[simp] theorem count_frame (a k : Nat) :
    (s.count a k).bus = s.bus ∧ (s.count a k).isl = s.isl ∧ (s.count a k).log = s.log ∧ (s.count a k).rx = s.rx ∧
    (s.count a k).cls = s.cls ∧ (s.count a k).flow = s.flow ∧ (s.count a k).buf = s.buf ∧ (s.count a k).eg = s.eg ∧
    (s.count a k).time = s.time ∧ (s.count a k).lt = s.lt ∧ (s.count a k).tx = s.tx ∧ (s.count a k).ana = s.ana ∧
    (s.count a k).mm = s.mm ∧ (s.count a k).seq = s.seq ∧ (s.count a k).cal = s.cal ∧ (s.count a k).sec = s.sec ∧
    (s.count a k).hif = s.hif ∧ (s.count a k).mbx = s.mbx ∧ (s.count a k).eyes = s.eyes ∧ (s.count a k).mon = s.mon ∧
    (s.count a k).test = s.test ∧ (s.count a k).groups = s.groups ∧ (s.count a k).intN = s.intN ∧
    (s.count a k).mono = s.mono ∧ (s.count a k).fresh = s.fresh ∧ (s.count a k).out = s.out := by
  repeat' constructor

@[simp] theorem setWide_frame (w a v : Nat) :
    (s.setWide w a v).bus = s.bus ∧ (s.setWide w a v).isl = s.isl ∧ (s.setWide w a v).log = s.log ∧
    (s.setWide w a v).rx = s.rx ∧ (s.setWide w a v).cls = s.cls ∧ (s.setWide w a v).flow = s.flow ∧
    (s.setWide w a v).buf = s.buf ∧ (s.setWide w a v).eg = s.eg ∧ (s.setWide w a v).time = s.time ∧
    (s.setWide w a v).lt = s.lt ∧ (s.setWide w a v).tx = s.tx ∧ (s.setWide w a v).ana = s.ana ∧
    (s.setWide w a v).mm = s.mm ∧ (s.setWide w a v).seq = s.seq ∧ (s.setWide w a v).cal = s.cal ∧
    (s.setWide w a v).sec = s.sec ∧ (s.setWide w a v).hif = s.hif ∧ (s.setWide w a v).mbx = s.mbx ∧
    (s.setWide w a v).eyes = s.eyes ∧ (s.setWide w a v).mon = s.mon ∧ (s.setWide w a v).test = s.test ∧
    (s.setWide w a v).groups = s.groups ∧ (s.setWide w a v).intN = s.intN ∧ (s.setWide w a v).mono = s.mono ∧
    (s.setWide w a v).fresh = s.fresh ∧ (s.setWide w a v).out = s.out := by
  repeat' constructor

@[simp] theorem count48_frame (a k : Nat) :
    (s.count48 a k).bus = s.bus ∧ (s.count48 a k).isl = s.isl ∧ (s.count48 a k).log = s.log ∧
    (s.count48 a k).rx = s.rx ∧ (s.count48 a k).cls = s.cls ∧ (s.count48 a k).flow = s.flow ∧
    (s.count48 a k).buf = s.buf ∧ (s.count48 a k).eg = s.eg ∧ (s.count48 a k).time = s.time ∧
    (s.count48 a k).lt = s.lt ∧ (s.count48 a k).tx = s.tx ∧ (s.count48 a k).ana = s.ana ∧ (s.count48 a k).mm = s.mm ∧
    (s.count48 a k).seq = s.seq ∧ (s.count48 a k).cal = s.cal ∧ (s.count48 a k).sec = s.sec ∧
    (s.count48 a k).hif = s.hif ∧ (s.count48 a k).mbx = s.mbx ∧ (s.count48 a k).eyes = s.eyes ∧
    (s.count48 a k).mon = s.mon ∧ (s.count48 a k).test = s.test ∧ (s.count48 a k).groups = s.groups ∧
    (s.count48 a k).intN = s.intN ∧ (s.count48 a k).mono = s.mono ∧ (s.count48 a k).fresh = s.fresh ∧
    (s.count48 a k).out = s.out := by
  repeat' constructor

@[simp] theorem count64_frame (a k : Nat) :
    (s.count64 a k).bus = s.bus ∧ (s.count64 a k).isl = s.isl ∧ (s.count64 a k).log = s.log ∧
    (s.count64 a k).rx = s.rx ∧ (s.count64 a k).cls = s.cls ∧ (s.count64 a k).flow = s.flow ∧
    (s.count64 a k).buf = s.buf ∧ (s.count64 a k).eg = s.eg ∧ (s.count64 a k).time = s.time ∧
    (s.count64 a k).lt = s.lt ∧ (s.count64 a k).tx = s.tx ∧ (s.count64 a k).ana = s.ana ∧ (s.count64 a k).mm = s.mm ∧
    (s.count64 a k).seq = s.seq ∧ (s.count64 a k).cal = s.cal ∧ (s.count64 a k).sec = s.sec ∧
    (s.count64 a k).hif = s.hif ∧ (s.count64 a k).mbx = s.mbx ∧ (s.count64 a k).eyes = s.eyes ∧
    (s.count64 a k).mon = s.mon ∧ (s.count64 a k).test = s.test ∧ (s.count64 a k).groups = s.groups ∧
    (s.count64 a k).intN = s.intN ∧ (s.count64 a k).mono = s.mono ∧ (s.count64 a k).fresh = s.fresh ∧
    (s.count64 a k).out = s.out := by
  repeat' constructor

@[simp] theorem raise_frame (p c : Nat) :
    (s.raise p c).bus = s.bus ∧ (s.raise p c).isl = s.isl ∧ (s.raise p c).log = s.log ∧ (s.raise p c).rx = s.rx ∧
    (s.raise p c).cls = s.cls ∧ (s.raise p c).flow = s.flow ∧ (s.raise p c).buf = s.buf ∧ (s.raise p c).eg = s.eg ∧
    (s.raise p c).time = s.time ∧ (s.raise p c).lt = s.lt ∧ (s.raise p c).tx = s.tx ∧ (s.raise p c).ana = s.ana ∧
    (s.raise p c).mm = s.mm ∧ (s.raise p c).seq = s.seq ∧ (s.raise p c).cal = s.cal ∧ (s.raise p c).sec = s.sec ∧
    (s.raise p c).hif = s.hif ∧ (s.raise p c).mbx = s.mbx ∧ (s.raise p c).eyes = s.eyes ∧ (s.raise p c).mon = s.mon ∧
    (s.raise p c).test = s.test ∧ (s.raise p c).groups = s.groups ∧ (s.raise p c).intN = s.intN ∧
    (s.raise p c).mono = s.mono ∧ (s.raise p c).fresh = s.fresh ∧ (s.raise p c).out = s.out := by
  repeat' constructor

@[simp] theorem clearRange_frame (lo hi : Nat) :
    (s.clearRange lo hi).bus = s.bus ∧ (s.clearRange lo hi).isl = s.isl ∧ (s.clearRange lo hi).log = s.log ∧
    (s.clearRange lo hi).rx = s.rx ∧ (s.clearRange lo hi).cls = s.cls ∧ (s.clearRange lo hi).flow = s.flow ∧
    (s.clearRange lo hi).buf = s.buf ∧ (s.clearRange lo hi).eg = s.eg ∧ (s.clearRange lo hi).time = s.time ∧
    (s.clearRange lo hi).lt = s.lt ∧ (s.clearRange lo hi).tx = s.tx ∧ (s.clearRange lo hi).ana = s.ana ∧
    (s.clearRange lo hi).mm = s.mm ∧ (s.clearRange lo hi).seq = s.seq ∧ (s.clearRange lo hi).cal = s.cal ∧
    (s.clearRange lo hi).sec = s.sec ∧ (s.clearRange lo hi).hif = s.hif ∧ (s.clearRange lo hi).mbx = s.mbx ∧
    (s.clearRange lo hi).eyes = s.eyes ∧ (s.clearRange lo hi).mon = s.mon ∧ (s.clearRange lo hi).test = s.test ∧
    (s.clearRange lo hi).groups = s.groups ∧ (s.clearRange lo hi).intN = s.intN ∧
    (s.clearRange lo hi).mono = s.mono ∧ (s.clearRange lo hi).fresh = s.fresh ∧ (s.clearRange lo hi).out = s.out := by
  repeat' constructor

@[simp] theorem logOn_frame (m : Master) (p o c : Nat) :
    (s.logOn m p o c).bus = s.bus ∧ (s.logOn m p o c).isl = s.isl ∧ (s.logOn m p o c).log = s.log ∧
    (s.logOn m p o c).rx = s.rx ∧ (s.logOn m p o c).cls = s.cls ∧ (s.logOn m p o c).flow = s.flow ∧
    (s.logOn m p o c).buf = s.buf ∧ (s.logOn m p o c).eg = s.eg ∧ (s.logOn m p o c).time = s.time ∧
    (s.logOn m p o c).lt = s.lt ∧ (s.logOn m p o c).tx = s.tx ∧ (s.logOn m p o c).ana = s.ana ∧
    (s.logOn m p o c).mm = s.mm ∧ (s.logOn m p o c).seq = s.seq ∧ (s.logOn m p o c).cal = s.cal ∧
    (s.logOn m p o c).sec = s.sec ∧ (s.logOn m p o c).hif = s.hif ∧ (s.logOn m p o c).mbx = s.mbx ∧
    (s.logOn m p o c).eyes = s.eyes ∧ (s.logOn m p o c).mon = s.mon ∧ (s.logOn m p o c).test = s.test ∧
    (s.logOn m p o c).groups = s.groups ∧ (s.logOn m p o c).intN = s.intN ∧ (s.logOn m p o c).mono = s.mono ∧
    (s.logOn m p o c).fresh = s.fresh ∧ (s.logOn m p o c).out = s.out := by
  simp [logOn]

@[simp] theorem emit_frame (o : Output) :
    (s.emit o).regs = s.regs ∧ (s.emit o).bus = s.bus ∧ (s.emit o).isl = s.isl ∧ (s.emit o).log = s.log ∧
    (s.emit o).rx = s.rx ∧ (s.emit o).cls = s.cls ∧ (s.emit o).flow = s.flow ∧ (s.emit o).buf = s.buf ∧
    (s.emit o).eg = s.eg ∧ (s.emit o).time = s.time ∧ (s.emit o).lt = s.lt ∧ (s.emit o).tx = s.tx ∧
    (s.emit o).ana = s.ana ∧ (s.emit o).mm = s.mm ∧ (s.emit o).seq = s.seq ∧ (s.emit o).cal = s.cal ∧
    (s.emit o).sec = s.sec ∧ (s.emit o).hif = s.hif ∧ (s.emit o).mbx = s.mbx ∧ (s.emit o).eyes = s.eyes ∧
    (s.emit o).mon = s.mon ∧ (s.emit o).test = s.test ∧ (s.emit o).groups = s.groups ∧ (s.emit o).intN = s.intN ∧
    (s.emit o).mono = s.mono ∧ (s.emit o).fresh = s.fresh := by
  repeat' constructor

@[simp] theorem rd_emit (o : Output) (a' : Nat) : (s.emit o).rd a' = s.rd a' := rfl

@[simp] theorem nextFree_frame  :
    (s.nextFree).regs = s.regs ∧ (s.nextFree).bus = s.bus ∧ (s.nextFree).isl = s.isl ∧ (s.nextFree).log = s.log ∧
    (s.nextFree).rx = s.rx ∧ (s.nextFree).cls = s.cls ∧ (s.nextFree).flow = s.flow ∧ (s.nextFree).buf = s.buf ∧
    (s.nextFree).eg = s.eg ∧ (s.nextFree).time = s.time ∧ (s.nextFree).lt = s.lt ∧ (s.nextFree).tx = s.tx ∧
    (s.nextFree).ana = s.ana ∧ (s.nextFree).mm = s.mm ∧ (s.nextFree).seq = s.seq ∧ (s.nextFree).cal = s.cal ∧
    (s.nextFree).sec = s.sec ∧ (s.nextFree).hif = s.hif ∧ (s.nextFree).mbx = s.mbx ∧ (s.nextFree).eyes = s.eyes ∧
    (s.nextFree).mon = s.mon ∧ (s.nextFree).test = s.test ∧ (s.nextFree).groups = s.groups ∧
    (s.nextFree).intN = s.intN ∧ (s.nextFree).mono = s.mono ∧ (s.nextFree).out = s.out := by
  repeat' constructor

@[simp] theorem rd_nextFree  (a' : Nat) : (s.nextFree).rd a' = s.rd a' := rfl

@[simp] theorem setHolder_frame (p : Nat) (h : BitVec 8) :
    (s.setHolder p h).regs = s.regs ∧ (s.setHolder p h).isl = s.isl ∧ (s.setHolder p h).log = s.log ∧
    (s.setHolder p h).rx = s.rx ∧ (s.setHolder p h).cls = s.cls ∧ (s.setHolder p h).flow = s.flow ∧
    (s.setHolder p h).buf = s.buf ∧ (s.setHolder p h).eg = s.eg ∧ (s.setHolder p h).time = s.time ∧
    (s.setHolder p h).lt = s.lt ∧ (s.setHolder p h).tx = s.tx ∧ (s.setHolder p h).ana = s.ana ∧
    (s.setHolder p h).mm = s.mm ∧ (s.setHolder p h).seq = s.seq ∧ (s.setHolder p h).cal = s.cal ∧
    (s.setHolder p h).sec = s.sec ∧ (s.setHolder p h).hif = s.hif ∧ (s.setHolder p h).mbx = s.mbx ∧
    (s.setHolder p h).eyes = s.eyes ∧ (s.setHolder p h).mon = s.mon ∧ (s.setHolder p h).test = s.test ∧
    (s.setHolder p h).groups = s.groups ∧ (s.setHolder p h).intN = s.intN ∧ (s.setHolder p h).mono = s.mono ∧
    (s.setHolder p h).fresh = s.fresh ∧ (s.setHolder p h).out = s.out := by
  repeat' constructor

@[simp] theorem rd_setHolder (p : Nat) (h : BitVec 8) (a' : Nat) : (s.setHolder p h).rd a' = s.rd a' := rfl

@[simp] theorem setBroken_frame (p : Nat) (h : List (BitVec 8)) :
    (s.setBroken p h).regs = s.regs ∧ (s.setBroken p h).isl = s.isl ∧ (s.setBroken p h).log = s.log ∧
    (s.setBroken p h).rx = s.rx ∧ (s.setBroken p h).cls = s.cls ∧ (s.setBroken p h).flow = s.flow ∧
    (s.setBroken p h).buf = s.buf ∧ (s.setBroken p h).eg = s.eg ∧ (s.setBroken p h).time = s.time ∧
    (s.setBroken p h).lt = s.lt ∧ (s.setBroken p h).tx = s.tx ∧ (s.setBroken p h).ana = s.ana ∧
    (s.setBroken p h).mm = s.mm ∧ (s.setBroken p h).seq = s.seq ∧ (s.setBroken p h).cal = s.cal ∧
    (s.setBroken p h).sec = s.sec ∧ (s.setBroken p h).hif = s.hif ∧ (s.setBroken p h).mbx = s.mbx ∧
    (s.setBroken p h).eyes = s.eyes ∧ (s.setBroken p h).mon = s.mon ∧ (s.setBroken p h).test = s.test ∧
    (s.setBroken p h).groups = s.groups ∧ (s.setBroken p h).intN = s.intN ∧ (s.setBroken p h).mono = s.mono ∧
    (s.setBroken p h).fresh = s.fresh ∧ (s.setBroken p h).out = s.out := by
  repeat' constructor

@[simp] theorem rd_setBroken (p : Nat) (h : List (BitVec 8)) (a' : Nat) : (s.setBroken p h).rd a' = s.rd a' := rfl

@[simp] theorem setSq_frame (k : Nat) (v : Seq) :
    (s.setSq k v).regs = s.regs ∧ (s.setSq k v).bus = s.bus ∧ (s.setSq k v).isl = s.isl ∧ (s.setSq k v).log = s.log ∧
    (s.setSq k v).rx = s.rx ∧ (s.setSq k v).cls = s.cls ∧ (s.setSq k v).flow = s.flow ∧ (s.setSq k v).buf = s.buf ∧
    (s.setSq k v).eg = s.eg ∧ (s.setSq k v).time = s.time ∧ (s.setSq k v).lt = s.lt ∧ (s.setSq k v).tx = s.tx ∧
    (s.setSq k v).ana = s.ana ∧ (s.setSq k v).mm = s.mm ∧ (s.setSq k v).cal = s.cal ∧ (s.setSq k v).sec = s.sec ∧
    (s.setSq k v).hif = s.hif ∧ (s.setSq k v).mbx = s.mbx ∧ (s.setSq k v).eyes = s.eyes ∧ (s.setSq k v).mon = s.mon ∧
    (s.setSq k v).test = s.test ∧ (s.setSq k v).groups = s.groups ∧ (s.setSq k v).intN = s.intN ∧
    (s.setSq k v).mono = s.mono ∧ (s.setSq k v).fresh = s.fresh ∧ (s.setSq k v).out = s.out := by
  repeat' constructor

@[simp] theorem rd_setSq (k : Nat) (v : Seq) (a' : Nat) : (s.setSq k v).rd a' = s.rd a' := rfl

@[simp] theorem setX_frame (k i : Nat) (v : BitVec 40) :
    (s.setX k i v).regs = s.regs ∧ (s.setX k i v).bus = s.bus ∧ (s.setX k i v).isl = s.isl ∧
    (s.setX k i v).log = s.log ∧ (s.setX k i v).rx = s.rx ∧ (s.setX k i v).cls = s.cls ∧
    (s.setX k i v).flow = s.flow ∧ (s.setX k i v).buf = s.buf ∧ (s.setX k i v).eg = s.eg ∧
    (s.setX k i v).time = s.time ∧ (s.setX k i v).lt = s.lt ∧ (s.setX k i v).tx = s.tx ∧ (s.setX k i v).ana = s.ana ∧
    (s.setX k i v).mm = s.mm ∧ (s.setX k i v).cal = s.cal ∧ (s.setX k i v).sec = s.sec ∧ (s.setX k i v).hif = s.hif ∧
    (s.setX k i v).mbx = s.mbx ∧ (s.setX k i v).eyes = s.eyes ∧ (s.setX k i v).mon = s.mon ∧
    (s.setX k i v).test = s.test ∧ (s.setX k i v).groups = s.groups ∧ (s.setX k i v).intN = s.intN ∧
    (s.setX k i v).mono = s.mono ∧ (s.setX k i v).fresh = s.fresh ∧ (s.setX k i v).out = s.out := by
  repeat' constructor

@[simp] theorem rd_setX (k i : Nat) (v : BitVec 40) (a' : Nat) : (s.setX k i v).rd a' = s.rd a' := rfl

@[simp] theorem setD_frame (k i : Nat) (v : BitVec 40) :
    (s.setD k i v).regs = s.regs ∧ (s.setD k i v).bus = s.bus ∧ (s.setD k i v).isl = s.isl ∧
    (s.setD k i v).log = s.log ∧ (s.setD k i v).rx = s.rx ∧ (s.setD k i v).cls = s.cls ∧
    (s.setD k i v).flow = s.flow ∧ (s.setD k i v).buf = s.buf ∧ (s.setD k i v).eg = s.eg ∧
    (s.setD k i v).time = s.time ∧ (s.setD k i v).lt = s.lt ∧ (s.setD k i v).tx = s.tx ∧ (s.setD k i v).ana = s.ana ∧
    (s.setD k i v).mm = s.mm ∧ (s.setD k i v).cal = s.cal ∧ (s.setD k i v).sec = s.sec ∧ (s.setD k i v).hif = s.hif ∧
    (s.setD k i v).mbx = s.mbx ∧ (s.setD k i v).eyes = s.eyes ∧ (s.setD k i v).mon = s.mon ∧
    (s.setD k i v).test = s.test ∧ (s.setD k i v).groups = s.groups ∧ (s.setD k i v).intN = s.intN ∧
    (s.setD k i v).mono = s.mono ∧ (s.setD k i v).fresh = s.fresh ∧ (s.setD k i v).out = s.out := by
  repeat' constructor

@[simp] theorem rd_setD (k i : Nat) (v : BitVec 40) (a' : Nat) : (s.setD k i v).rd a' = s.rd a' := rfl

@[simp] theorem setPc_frame (k p : Nat) :
    (s.setPc k p).bus = s.bus ∧ (s.setPc k p).isl = s.isl ∧ (s.setPc k p).log = s.log ∧ (s.setPc k p).rx = s.rx ∧
    (s.setPc k p).cls = s.cls ∧ (s.setPc k p).flow = s.flow ∧ (s.setPc k p).buf = s.buf ∧ (s.setPc k p).eg = s.eg ∧
    (s.setPc k p).time = s.time ∧ (s.setPc k p).lt = s.lt ∧ (s.setPc k p).tx = s.tx ∧ (s.setPc k p).ana = s.ana ∧
    (s.setPc k p).mm = s.mm ∧ (s.setPc k p).seq = s.seq ∧ (s.setPc k p).cal = s.cal ∧ (s.setPc k p).sec = s.sec ∧
    (s.setPc k p).hif = s.hif ∧ (s.setPc k p).mbx = s.mbx ∧ (s.setPc k p).eyes = s.eyes ∧ (s.setPc k p).mon = s.mon ∧
    (s.setPc k p).test = s.test ∧ (s.setPc k p).groups = s.groups ∧ (s.setPc k p).intN = s.intN ∧
    (s.setPc k p).mono = s.mono ∧ (s.setPc k p).fresh = s.fresh ∧ (s.setPc k p).out = s.out := by
  repeat' constructor

@[simp] theorem pcNext_frame (k : Nat) :
    (s.pcNext k).bus = s.bus ∧ (s.pcNext k).isl = s.isl ∧ (s.pcNext k).log = s.log ∧ (s.pcNext k).rx = s.rx ∧
    (s.pcNext k).cls = s.cls ∧ (s.pcNext k).flow = s.flow ∧ (s.pcNext k).buf = s.buf ∧ (s.pcNext k).eg = s.eg ∧
    (s.pcNext k).time = s.time ∧ (s.pcNext k).lt = s.lt ∧ (s.pcNext k).tx = s.tx ∧ (s.pcNext k).ana = s.ana ∧
    (s.pcNext k).mm = s.mm ∧ (s.pcNext k).seq = s.seq ∧ (s.pcNext k).cal = s.cal ∧ (s.pcNext k).sec = s.sec ∧
    (s.pcNext k).hif = s.hif ∧ (s.pcNext k).mbx = s.mbx ∧ (s.pcNext k).eyes = s.eyes ∧ (s.pcNext k).mon = s.mon ∧
    (s.pcNext k).test = s.test ∧ (s.pcNext k).groups = s.groups ∧ (s.pcNext k).intN = s.intN ∧
    (s.pcNext k).mono = s.mono ∧ (s.pcNext k).fresh = s.fresh ∧ (s.pcNext k).out = s.out := by
  repeat' constructor

@[simp] theorem markSeq_frame (k st : Nat) :
    (s.markSeq k st).bus = s.bus ∧ (s.markSeq k st).isl = s.isl ∧ (s.markSeq k st).log = s.log ∧
    (s.markSeq k st).rx = s.rx ∧ (s.markSeq k st).cls = s.cls ∧ (s.markSeq k st).flow = s.flow ∧
    (s.markSeq k st).buf = s.buf ∧ (s.markSeq k st).eg = s.eg ∧ (s.markSeq k st).time = s.time ∧
    (s.markSeq k st).lt = s.lt ∧ (s.markSeq k st).tx = s.tx ∧ (s.markSeq k st).ana = s.ana ∧
    (s.markSeq k st).mm = s.mm ∧ (s.markSeq k st).seq = s.seq ∧ (s.markSeq k st).cal = s.cal ∧
    (s.markSeq k st).sec = s.sec ∧ (s.markSeq k st).hif = s.hif ∧ (s.markSeq k st).mbx = s.mbx ∧
    (s.markSeq k st).eyes = s.eyes ∧ (s.markSeq k st).mon = s.mon ∧ (s.markSeq k st).test = s.test ∧
    (s.markSeq k st).groups = s.groups ∧ (s.markSeq k st).intN = s.intN ∧ (s.markSeq k st).mono = s.mono ∧
    (s.markSeq k st).fresh = s.fresh ∧ (s.markSeq k st).out = s.out := by
  repeat' constructor

@[simp] theorem setRxl_frame (n : Nat) (v : RxLane) :
    (s.setRxl n v).regs = s.regs ∧ (s.setRxl n v).bus = s.bus ∧ (s.setRxl n v).isl = s.isl ∧
    (s.setRxl n v).log = s.log ∧ (s.setRxl n v).cls = s.cls ∧ (s.setRxl n v).flow = s.flow ∧
    (s.setRxl n v).buf = s.buf ∧ (s.setRxl n v).eg = s.eg ∧ (s.setRxl n v).time = s.time ∧ (s.setRxl n v).lt = s.lt ∧
    (s.setRxl n v).tx = s.tx ∧ (s.setRxl n v).ana = s.ana ∧ (s.setRxl n v).mm = s.mm ∧ (s.setRxl n v).seq = s.seq ∧
    (s.setRxl n v).cal = s.cal ∧ (s.setRxl n v).sec = s.sec ∧ (s.setRxl n v).hif = s.hif ∧
    (s.setRxl n v).mbx = s.mbx ∧ (s.setRxl n v).eyes = s.eyes ∧ (s.setRxl n v).mon = s.mon ∧
    (s.setRxl n v).test = s.test ∧ (s.setRxl n v).groups = s.groups ∧ (s.setRxl n v).intN = s.intN ∧
    (s.setRxl n v).mono = s.mono ∧ (s.setRxl n v).fresh = s.fresh ∧ (s.setRxl n v).out = s.out := by
  repeat' constructor

@[simp] theorem rd_setRxl (n : Nat) (v : RxLane) (a' : Nat) : (s.setRxl n v).rd a' = s.rd a' := rfl

@[simp] theorem setLtn_frame (n : Nat) (v : Lantern) :
    (s.setLtn n v).regs = s.regs ∧ (s.setLtn n v).bus = s.bus ∧ (s.setLtn n v).isl = s.isl ∧
    (s.setLtn n v).log = s.log ∧ (s.setLtn n v).rx = s.rx ∧ (s.setLtn n v).cls = s.cls ∧
    (s.setLtn n v).flow = s.flow ∧ (s.setLtn n v).buf = s.buf ∧ (s.setLtn n v).eg = s.eg ∧
    (s.setLtn n v).time = s.time ∧ (s.setLtn n v).tx = s.tx ∧ (s.setLtn n v).ana = s.ana ∧ (s.setLtn n v).mm = s.mm ∧
    (s.setLtn n v).seq = s.seq ∧ (s.setLtn n v).cal = s.cal ∧ (s.setLtn n v).sec = s.sec ∧
    (s.setLtn n v).hif = s.hif ∧ (s.setLtn n v).mbx = s.mbx ∧ (s.setLtn n v).eyes = s.eyes ∧
    (s.setLtn n v).mon = s.mon ∧ (s.setLtn n v).test = s.test ∧ (s.setLtn n v).groups = s.groups ∧
    (s.setLtn n v).intN = s.intN ∧ (s.setLtn n v).mono = s.mono ∧ (s.setLtn n v).fresh = s.fresh ∧
    (s.setLtn n v).out = s.out := by
  repeat' constructor

@[simp] theorem rd_setLtn (n : Nat) (v : Lantern) (a' : Nat) : (s.setLtn n v).rd a' = s.rd a' := rfl

@[simp] theorem setTxl_frame (n : Nat) (v : TxLane) :
    (s.setTxl n v).regs = s.regs ∧ (s.setTxl n v).bus = s.bus ∧ (s.setTxl n v).isl = s.isl ∧
    (s.setTxl n v).log = s.log ∧ (s.setTxl n v).rx = s.rx ∧ (s.setTxl n v).cls = s.cls ∧
    (s.setTxl n v).flow = s.flow ∧ (s.setTxl n v).buf = s.buf ∧ (s.setTxl n v).eg = s.eg ∧
    (s.setTxl n v).time = s.time ∧ (s.setTxl n v).lt = s.lt ∧ (s.setTxl n v).ana = s.ana ∧ (s.setTxl n v).mm = s.mm ∧
    (s.setTxl n v).seq = s.seq ∧ (s.setTxl n v).cal = s.cal ∧ (s.setTxl n v).sec = s.sec ∧
    (s.setTxl n v).hif = s.hif ∧ (s.setTxl n v).mbx = s.mbx ∧ (s.setTxl n v).eyes = s.eyes ∧
    (s.setTxl n v).mon = s.mon ∧ (s.setTxl n v).test = s.test ∧ (s.setTxl n v).groups = s.groups ∧
    (s.setTxl n v).intN = s.intN ∧ (s.setTxl n v).mono = s.mono ∧ (s.setTxl n v).fresh = s.fresh ∧
    (s.setTxl n v).out = s.out := by
  repeat' constructor

@[simp] theorem rd_setTxl (n : Nat) (v : TxLane) (a' : Nat) : (s.setTxl n v).rd a' = s.rd a' := rfl

@[simp] theorem setMmo_frame (n : Nat) (v : Module) :
    (s.setMmo n v).regs = s.regs ∧ (s.setMmo n v).bus = s.bus ∧ (s.setMmo n v).isl = s.isl ∧
    (s.setMmo n v).log = s.log ∧ (s.setMmo n v).rx = s.rx ∧ (s.setMmo n v).cls = s.cls ∧
    (s.setMmo n v).flow = s.flow ∧ (s.setMmo n v).buf = s.buf ∧ (s.setMmo n v).eg = s.eg ∧
    (s.setMmo n v).time = s.time ∧ (s.setMmo n v).lt = s.lt ∧ (s.setMmo n v).tx = s.tx ∧ (s.setMmo n v).ana = s.ana ∧
    (s.setMmo n v).seq = s.seq ∧ (s.setMmo n v).cal = s.cal ∧ (s.setMmo n v).sec = s.sec ∧
    (s.setMmo n v).hif = s.hif ∧ (s.setMmo n v).mbx = s.mbx ∧ (s.setMmo n v).eyes = s.eyes ∧
    (s.setMmo n v).mon = s.mon ∧ (s.setMmo n v).test = s.test ∧ (s.setMmo n v).groups = s.groups ∧
    (s.setMmo n v).intN = s.intN ∧ (s.setMmo n v).mono = s.mono ∧ (s.setMmo n v).fresh = s.fresh ∧
    (s.setMmo n v).out = s.out := by
  repeat' constructor

@[simp] theorem rd_setMmo (n : Nat) (v : Module) (a' : Nat) : (s.setMmo n v).rd a' = s.rd a' := rfl

@[simp] theorem setRing_frame (r : Nat) (v : RingSt) :
    (s.setRing r v).regs = s.regs ∧ (s.setRing r v).bus = s.bus ∧ (s.setRing r v).isl = s.isl ∧
    (s.setRing r v).log = s.log ∧ (s.setRing r v).rx = s.rx ∧ (s.setRing r v).cls = s.cls ∧
    (s.setRing r v).flow = s.flow ∧ (s.setRing r v).buf = s.buf ∧ (s.setRing r v).eg = s.eg ∧
    (s.setRing r v).time = s.time ∧ (s.setRing r v).lt = s.lt ∧ (s.setRing r v).tx = s.tx ∧
    (s.setRing r v).ana = s.ana ∧ (s.setRing r v).mm = s.mm ∧ (s.setRing r v).seq = s.seq ∧
    (s.setRing r v).cal = s.cal ∧ (s.setRing r v).sec = s.sec ∧ (s.setRing r v).mbx = s.mbx ∧
    (s.setRing r v).eyes = s.eyes ∧ (s.setRing r v).mon = s.mon ∧ (s.setRing r v).test = s.test ∧
    (s.setRing r v).groups = s.groups ∧ (s.setRing r v).intN = s.intN ∧ (s.setRing r v).mono = s.mono ∧
    (s.setRing r v).fresh = s.fresh ∧ (s.setRing r v).out = s.out := by
  repeat' constructor

@[simp] theorem rd_setRing (r : Nat) (v : RingSt) (a' : Nat) : (s.setRing r v).rd a' = s.rd a' := rfl

@[simp] theorem setInbox_frame (e : Nat) (l : List Msg) :
    (s.setInbox e l).regs = s.regs ∧ (s.setInbox e l).bus = s.bus ∧ (s.setInbox e l).isl = s.isl ∧
    (s.setInbox e l).log = s.log ∧ (s.setInbox e l).rx = s.rx ∧ (s.setInbox e l).cls = s.cls ∧
    (s.setInbox e l).flow = s.flow ∧ (s.setInbox e l).buf = s.buf ∧ (s.setInbox e l).eg = s.eg ∧
    (s.setInbox e l).time = s.time ∧ (s.setInbox e l).lt = s.lt ∧ (s.setInbox e l).tx = s.tx ∧
    (s.setInbox e l).ana = s.ana ∧ (s.setInbox e l).mm = s.mm ∧ (s.setInbox e l).seq = s.seq ∧
    (s.setInbox e l).cal = s.cal ∧ (s.setInbox e l).sec = s.sec ∧ (s.setInbox e l).hif = s.hif ∧
    (s.setInbox e l).eyes = s.eyes ∧ (s.setInbox e l).mon = s.mon ∧ (s.setInbox e l).test = s.test ∧
    (s.setInbox e l).groups = s.groups ∧ (s.setInbox e l).intN = s.intN ∧ (s.setInbox e l).mono = s.mono ∧
    (s.setInbox e l).fresh = s.fresh ∧ (s.setInbox e l).out = s.out := by
  repeat' constructor

@[simp] theorem rd_setInbox (e : Nat) (l : List Msg) (a' : Nat) : (s.setInbox e l).rd a' = s.rd a' := rfl

@[simp] theorem setQueue_frame (q : Nat) (v : Queue) :
    (s.setQueue q v).regs = s.regs ∧ (s.setQueue q v).bus = s.bus ∧ (s.setQueue q v).isl = s.isl ∧
    (s.setQueue q v).log = s.log ∧ (s.setQueue q v).rx = s.rx ∧ (s.setQueue q v).cls = s.cls ∧
    (s.setQueue q v).flow = s.flow ∧ (s.setQueue q v).eg = s.eg ∧ (s.setQueue q v).time = s.time ∧
    (s.setQueue q v).lt = s.lt ∧ (s.setQueue q v).tx = s.tx ∧ (s.setQueue q v).ana = s.ana ∧
    (s.setQueue q v).mm = s.mm ∧ (s.setQueue q v).seq = s.seq ∧ (s.setQueue q v).cal = s.cal ∧
    (s.setQueue q v).sec = s.sec ∧ (s.setQueue q v).hif = s.hif ∧ (s.setQueue q v).mbx = s.mbx ∧
    (s.setQueue q v).eyes = s.eyes ∧ (s.setQueue q v).mon = s.mon ∧ (s.setQueue q v).test = s.test ∧
    (s.setQueue q v).groups = s.groups ∧ (s.setQueue q v).intN = s.intN ∧ (s.setQueue q v).mono = s.mono ∧
    (s.setQueue q v).fresh = s.fresh ∧ (s.setQueue q v).out = s.out := by
  repeat' constructor

@[simp] theorem rd_setQueue (q : Nat) (v : Queue) (a' : Nat) : (s.setQueue q v).rd a' = s.rd a' := rfl

@[simp] theorem setShare_frame (p : Nat) (v : Share) :
    (s.setShare p v).regs = s.regs ∧ (s.setShare p v).bus = s.bus ∧ (s.setShare p v).isl = s.isl ∧
    (s.setShare p v).log = s.log ∧ (s.setShare p v).rx = s.rx ∧ (s.setShare p v).cls = s.cls ∧
    (s.setShare p v).flow = s.flow ∧ (s.setShare p v).buf = s.buf ∧ (s.setShare p v).time = s.time ∧
    (s.setShare p v).lt = s.lt ∧ (s.setShare p v).tx = s.tx ∧ (s.setShare p v).ana = s.ana ∧
    (s.setShare p v).mm = s.mm ∧ (s.setShare p v).seq = s.seq ∧ (s.setShare p v).cal = s.cal ∧
    (s.setShare p v).sec = s.sec ∧ (s.setShare p v).hif = s.hif ∧ (s.setShare p v).mbx = s.mbx ∧
    (s.setShare p v).eyes = s.eyes ∧ (s.setShare p v).mon = s.mon ∧ (s.setShare p v).test = s.test ∧
    (s.setShare p v).groups = s.groups ∧ (s.setShare p v).intN = s.intN ∧ (s.setShare p v).mono = s.mono ∧
    (s.setShare p v).fresh = s.fresh ∧ (s.setShare p v).out = s.out := by
  repeat' constructor

@[simp] theorem rd_setShare (p : Nat) (v : Share) (a' : Nat) : (s.setShare p v).rd a' = s.rd a' := rfl

@[simp] theorem setUpset_frame (a : Nat) (v : Option (Word × Word)) :
    (s.setUpset a v).regs = s.regs ∧ (s.setUpset a v).isl = s.isl ∧ (s.setUpset a v).log = s.log ∧
    (s.setUpset a v).rx = s.rx ∧ (s.setUpset a v).cls = s.cls ∧ (s.setUpset a v).flow = s.flow ∧
    (s.setUpset a v).buf = s.buf ∧ (s.setUpset a v).eg = s.eg ∧ (s.setUpset a v).time = s.time ∧
    (s.setUpset a v).lt = s.lt ∧ (s.setUpset a v).tx = s.tx ∧ (s.setUpset a v).ana = s.ana ∧
    (s.setUpset a v).mm = s.mm ∧ (s.setUpset a v).seq = s.seq ∧ (s.setUpset a v).cal = s.cal ∧
    (s.setUpset a v).sec = s.sec ∧ (s.setUpset a v).hif = s.hif ∧ (s.setUpset a v).mbx = s.mbx ∧
    (s.setUpset a v).eyes = s.eyes ∧ (s.setUpset a v).mon = s.mon ∧ (s.setUpset a v).test = s.test ∧
    (s.setUpset a v).groups = s.groups ∧ (s.setUpset a v).intN = s.intN ∧ (s.setUpset a v).mono = s.mono ∧
    (s.setUpset a v).fresh = s.fresh ∧ (s.setUpset a v).out = s.out := by
  repeat' constructor

@[simp] theorem rd_setUpset (a : Nat) (v : Option (Word × Word)) (a' : Nat) : (s.setUpset a v).rd a' = s.rd a' := rfl

@[simp] theorem setHi_frame (m : Master) (a : Nat) (v : Option Word) :
    (s.setHi m a v).regs = s.regs ∧ (s.setHi m a v).isl = s.isl ∧ (s.setHi m a v).log = s.log ∧
    (s.setHi m a v).rx = s.rx ∧ (s.setHi m a v).cls = s.cls ∧ (s.setHi m a v).flow = s.flow ∧
    (s.setHi m a v).buf = s.buf ∧ (s.setHi m a v).eg = s.eg ∧ (s.setHi m a v).time = s.time ∧
    (s.setHi m a v).lt = s.lt ∧ (s.setHi m a v).tx = s.tx ∧ (s.setHi m a v).ana = s.ana ∧ (s.setHi m a v).mm = s.mm ∧
    (s.setHi m a v).seq = s.seq ∧ (s.setHi m a v).cal = s.cal ∧ (s.setHi m a v).sec = s.sec ∧
    (s.setHi m a v).hif = s.hif ∧ (s.setHi m a v).mbx = s.mbx ∧ (s.setHi m a v).eyes = s.eyes ∧
    (s.setHi m a v).mon = s.mon ∧ (s.setHi m a v).test = s.test ∧ (s.setHi m a v).groups = s.groups ∧
    (s.setHi m a v).intN = s.intN ∧ (s.setHi m a v).mono = s.mono ∧ (s.setHi m a v).fresh = s.fresh ∧
    (s.setHi m a v).out = s.out := by
  repeat' constructor

@[simp] theorem rd_setHi (m : Master) (a : Nat) (v : Option Word) (a' : Nat) : (s.setHi m a v).rd a' = s.rd a' := rfl

@[simp] theorem setHeld_frame (a : Nat) (v : Option Word) :
    (s.setHeld a v).regs = s.regs ∧ (s.setHeld a v).isl = s.isl ∧ (s.setHeld a v).log = s.log ∧
    (s.setHeld a v).rx = s.rx ∧ (s.setHeld a v).cls = s.cls ∧ (s.setHeld a v).flow = s.flow ∧
    (s.setHeld a v).buf = s.buf ∧ (s.setHeld a v).eg = s.eg ∧ (s.setHeld a v).time = s.time ∧
    (s.setHeld a v).lt = s.lt ∧ (s.setHeld a v).tx = s.tx ∧ (s.setHeld a v).ana = s.ana ∧ (s.setHeld a v).mm = s.mm ∧
    (s.setHeld a v).seq = s.seq ∧ (s.setHeld a v).cal = s.cal ∧ (s.setHeld a v).sec = s.sec ∧
    (s.setHeld a v).hif = s.hif ∧ (s.setHeld a v).mbx = s.mbx ∧ (s.setHeld a v).eyes = s.eyes ∧
    (s.setHeld a v).mon = s.mon ∧ (s.setHeld a v).test = s.test ∧ (s.setHeld a v).groups = s.groups ∧
    (s.setHeld a v).intN = s.intN ∧ (s.setHeld a v).mono = s.mono ∧ (s.setHeld a v).fresh = s.fresh ∧
    (s.setHeld a v).out = s.out := by
  repeat' constructor

@[simp] theorem rd_setHeld (a : Nat) (v : Option Word) (a' : Nat) : (s.setHeld a v).rd a' = s.rd a' := rfl

@[simp] theorem setBuffer_frame (p : Nat) (w : Option PostedWrite) :
    (s.setBuffer p w).regs = s.regs ∧ (s.setBuffer p w).isl = s.isl ∧ (s.setBuffer p w).log = s.log ∧
    (s.setBuffer p w).rx = s.rx ∧ (s.setBuffer p w).cls = s.cls ∧ (s.setBuffer p w).flow = s.flow ∧
    (s.setBuffer p w).buf = s.buf ∧ (s.setBuffer p w).eg = s.eg ∧ (s.setBuffer p w).time = s.time ∧
    (s.setBuffer p w).lt = s.lt ∧ (s.setBuffer p w).tx = s.tx ∧ (s.setBuffer p w).ana = s.ana ∧
    (s.setBuffer p w).mm = s.mm ∧ (s.setBuffer p w).seq = s.seq ∧ (s.setBuffer p w).cal = s.cal ∧
    (s.setBuffer p w).sec = s.sec ∧ (s.setBuffer p w).hif = s.hif ∧ (s.setBuffer p w).mbx = s.mbx ∧
    (s.setBuffer p w).eyes = s.eyes ∧ (s.setBuffer p w).mon = s.mon ∧ (s.setBuffer p w).test = s.test ∧
    (s.setBuffer p w).groups = s.groups ∧ (s.setBuffer p w).intN = s.intN ∧ (s.setBuffer p w).mono = s.mono ∧
    (s.setBuffer p w).fresh = s.fresh ∧ (s.setBuffer p w).out = s.out := by
  repeat' constructor

@[simp] theorem rd_setBuffer (p : Nat) (w : Option PostedWrite) (a' : Nat) : (s.setBuffer p w).rd a' = s.rd a' := rfl

@[simp] theorem setSoft_frame (p : Nat) (b : Bool) :
    (s.setSoft p b).regs = s.regs ∧ (s.setSoft p b).isl = s.isl ∧ (s.setSoft p b).log = s.log ∧
    (s.setSoft p b).rx = s.rx ∧ (s.setSoft p b).cls = s.cls ∧ (s.setSoft p b).flow = s.flow ∧
    (s.setSoft p b).buf = s.buf ∧ (s.setSoft p b).eg = s.eg ∧ (s.setSoft p b).time = s.time ∧
    (s.setSoft p b).lt = s.lt ∧ (s.setSoft p b).tx = s.tx ∧ (s.setSoft p b).ana = s.ana ∧ (s.setSoft p b).mm = s.mm ∧
    (s.setSoft p b).seq = s.seq ∧ (s.setSoft p b).cal = s.cal ∧ (s.setSoft p b).sec = s.sec ∧
    (s.setSoft p b).hif = s.hif ∧ (s.setSoft p b).mbx = s.mbx ∧ (s.setSoft p b).eyes = s.eyes ∧
    (s.setSoft p b).mon = s.mon ∧ (s.setSoft p b).test = s.test ∧ (s.setSoft p b).groups = s.groups ∧
    (s.setSoft p b).intN = s.intN ∧ (s.setSoft p b).mono = s.mono ∧ (s.setSoft p b).fresh = s.fresh ∧
    (s.setSoft p b).out = s.out := by
  repeat' constructor

@[simp] theorem rd_setSoft (p : Nat) (b : Bool) (a' : Nat) : (s.setSoft p b).rd a' = s.rd a' := rfl

@[simp] theorem setKeySeen_frame (m : Master) (b : Bool) :
    (s.setKeySeen m b).regs = s.regs ∧ (s.setKeySeen m b).isl = s.isl ∧ (s.setKeySeen m b).log = s.log ∧
    (s.setKeySeen m b).rx = s.rx ∧ (s.setKeySeen m b).cls = s.cls ∧ (s.setKeySeen m b).flow = s.flow ∧
    (s.setKeySeen m b).buf = s.buf ∧ (s.setKeySeen m b).eg = s.eg ∧ (s.setKeySeen m b).time = s.time ∧
    (s.setKeySeen m b).lt = s.lt ∧ (s.setKeySeen m b).tx = s.tx ∧ (s.setKeySeen m b).ana = s.ana ∧
    (s.setKeySeen m b).mm = s.mm ∧ (s.setKeySeen m b).seq = s.seq ∧ (s.setKeySeen m b).cal = s.cal ∧
    (s.setKeySeen m b).sec = s.sec ∧ (s.setKeySeen m b).hif = s.hif ∧ (s.setKeySeen m b).mbx = s.mbx ∧
    (s.setKeySeen m b).eyes = s.eyes ∧ (s.setKeySeen m b).mon = s.mon ∧ (s.setKeySeen m b).test = s.test ∧
    (s.setKeySeen m b).groups = s.groups ∧ (s.setKeySeen m b).intN = s.intN ∧ (s.setKeySeen m b).mono = s.mono ∧
    (s.setKeySeen m b).fresh = s.fresh ∧ (s.setKeySeen m b).out = s.out := by
  repeat' constructor

@[simp] theorem rd_setKeySeen (m : Master) (b : Bool) (a' : Nat) : (s.setKeySeen m b).rd a' = s.rd a' := rfl

@[simp] theorem setExpert_frame (m : Master) (b : Bool) :
    (s.setExpert m b).regs = s.regs ∧ (s.setExpert m b).isl = s.isl ∧ (s.setExpert m b).log = s.log ∧
    (s.setExpert m b).rx = s.rx ∧ (s.setExpert m b).cls = s.cls ∧ (s.setExpert m b).flow = s.flow ∧
    (s.setExpert m b).buf = s.buf ∧ (s.setExpert m b).eg = s.eg ∧ (s.setExpert m b).time = s.time ∧
    (s.setExpert m b).lt = s.lt ∧ (s.setExpert m b).tx = s.tx ∧ (s.setExpert m b).ana = s.ana ∧
    (s.setExpert m b).mm = s.mm ∧ (s.setExpert m b).seq = s.seq ∧ (s.setExpert m b).cal = s.cal ∧
    (s.setExpert m b).sec = s.sec ∧ (s.setExpert m b).hif = s.hif ∧ (s.setExpert m b).mbx = s.mbx ∧
    (s.setExpert m b).eyes = s.eyes ∧ (s.setExpert m b).mon = s.mon ∧ (s.setExpert m b).test = s.test ∧
    (s.setExpert m b).groups = s.groups ∧ (s.setExpert m b).intN = s.intN ∧ (s.setExpert m b).mono = s.mono ∧
    (s.setExpert m b).fresh = s.fresh ∧ (s.setExpert m b).out = s.out := by
  repeat' constructor

@[simp] theorem rd_setExpert (m : Master) (b : Bool) (a' : Nat) : (s.setExpert m b).rd a' = s.rd a' := rfl

/-! ### What a register reads -/

theorem rd_of_regs {s t : Dev} (h : t.regs = s.regs) (a : Nat) : t.rd a = s.rd a := by simp [rd, h]

@[simp] theorem rd_wr_same (a : Nat) (v : Word) : (s.wr a v).rd a = v := by simp [rd, wr]

theorem rd_wr_ne (a : Nat) (v : Word) {b : Nat} (h : b ≠ a) : (s.wr a v).rd b = s.rd b := by
  simp [rd, wr, Sparse.get_put_ne _ _ _ h]

@[simp] theorem rd_setF_same (a lo len v : Nat) : (s.setF a lo len v).rd a = withField (s.rd a) lo len v := by simp [setF]

theorem rd_setF_ne (a lo len v : Nat) {b : Nat} (h : b ≠ a) : (s.setF a lo len v).rd b = s.rd b := by
  simp [setF, rd_wr_ne _ _ _ h]

@[simp] theorem rd_setB_same (a i : Nat) (x : Bool) : (s.setB a i x).rd a = withBit (s.rd a) i x := by simp [setB]

theorem rd_setB_ne (a i : Nat) (x : Bool) {b : Nat} (h : b ≠ a) : (s.setB a i x).rd b = s.rd b := by
  simp [setB, rd_wr_ne _ _ _ h]

@[simp] theorem rd_orBits_same (a : Nat) (v : Word) : (s.orBits a v).rd a = s.rd a ||| v := by simp [orBits]

theorem rd_orBits_ne (a : Nat) (v : Word) {b : Nat} (h : b ≠ a) : (s.orBits a v).rd b = s.rd b := by
  simp [orBits, rd_wr_ne _ _ _ h]

@[simp] theorem rd_count_same (a k : Nat) : (s.count a k).rd a = s.rd a + BitVec.ofNat 32 k := by simp [count]

theorem rd_count_ne (a k : Nat) {b : Nat} (h : b ≠ a) : (s.count a k).rd b = s.rd b := by
  simp [count, rd_wr_ne _ _ _ h]

theorem rd_raise_ne (p c : Nat) {b : Nat} (h : b ≠ p + 0x10) : (s.raise p c).rd b = s.rd b := by
  simp only [raise]; exact rd_setB_ne _ _ _ _ h

@[simp] theorem rd_raise_same (p c : Nat) : (s.raise p c).rd (p + 0x10) = withBit (s.rd (p + 0x10)) c true := by
  simp [raise]

theorem rd_setWide_ne (w a v : Nat) {b : Nat} (h : b ≠ a) (h' : b ≠ a + 4) : (s.setWide w a v).rd b = s.rd b := by
  simp [setWide, rd_wr_ne _ _ _ h, rd_wr_ne _ _ _ h']

theorem rd_count48_ne (a k : Nat) {b : Nat} (h : b ≠ a) (h' : b ≠ a + 4) : (s.count48 a k).rd b = s.rd b :=
  rd_setWide_ne _ _ _ _ h h'

/-! ### Fields and bits of a register -/

theorem fld_def (a lo len : Nat) : s.fld a lo len = fieldOf (s.rd a) lo len := rfl
theorem bit_def (a i : Nat) : s.bit a i = bitOf (s.rd a) i := rfl

/-! ### Tables of the units -/

@[simp] theorem sq_setSq_same (k : Nat) (v : Seq) : (s.setSq k v).sq k = v := by simp [sq, setSq]

theorem sq_setSq_ne (k : Nat) (v : Seq) {j : Nat} (h : j ≠ k) : (s.setSq k v).sq j = s.sq j := by
  simp [sq, setSq, Sparse.get_put_ne _ _ _ h]

@[simp] theorem rxl_setRxl_same (n : Nat) (v : RxLane) : (s.setRxl n v).rxl n = v := by simp [rxl, setRxl]
@[simp] theorem ltn_setLtn_same (n : Nat) (v : Lantern) : (s.setLtn n v).ltn n = v := by simp [ltn, setLtn]
@[simp] theorem txl_setTxl_same (n : Nat) (v : TxLane) : (s.setTxl n v).txl n = v := by simp [txl, setTxl]
@[simp] theorem mmo_setMmo_same (n : Nat) (v : Module) : (s.setMmo n v).mmo n = v := by simp [mmo, setMmo]
@[simp] theorem ring_setRing_same (r : Nat) (v : RingSt) : (s.setRing r v).ring r = v := by simp [ring, setRing]
@[simp] theorem inbox_setInbox_same (e : Nat) (l : List Msg) : (s.setInbox e l).inbox e = l := by simp [inbox, setInbox]
@[simp] theorem queue_setQueue_same (q : Nat) (v : Queue) : (s.setQueue q v).queue q = v := by simp [queue, setQueue]
@[simp] theorem share_setShare_same (p : Nat) (v : Share) : (s.setShare p v).share p = v := by simp [share, setShare]
@[simp] theorem holder_setHolder_same (p : Nat) (h : BitVec 8) : (s.setHolder p h).holder p = h := by simp [holder, setHolder]

theorem holder_setHolder_ne (p : Nat) (h : BitVec 8) {q : Nat} (e : q ≠ p) : (s.setHolder p h).holder q = s.holder q := by
  simp [holder, setHolder, Sparse.get_put_ne _ _ _ e]

@[simp] theorem brokenOf_setBroken_same (p : Nat) (h : List (BitVec 8)) : (s.setBroken p h).brokenOf p = h := by
  simp [brokenOf, setBroken]

@[simp] theorem buffered_setBuffer_same (p : Nat) (w : Option PostedWrite) : (s.setBuffer p w).buffered p = w := by
  simp [buffered, setBuffer]

theorem buffered_setBuffer_ne (p : Nat) (w : Option PostedWrite) {q : Nat} (e : q ≠ p) :
    (s.setBuffer p w).buffered q = s.buffered q := by
  simp [buffered, setBuffer, Sparse.get_put_ne _ _ _ e]

@[simp] theorem xreg_setX_same (k i : Nat) (v : BitVec 40) : (s.setX k i v).xreg k i = v := by simp [xreg, setX]

theorem xreg_setX_ne (k i : Nat) (v : BitVec 40) {j : Nat} (h : j ≠ i) : (s.setX k i v).xreg k j = s.xreg k j := by
  simp [xreg, setX, Sparse.get_put_ne _ _ _ h]

@[simp] theorem dword_setD_same (k i : Nat) (v : BitVec 40) : (s.setD k i v).dword k i = v := by simp [dword, setD]

end Dev

end Sys2Proof.Machine
end

