-- ==== Sys2Proof/Laws/Step.lean ====
section
/-! SUPPORT. What the settling of the interrupts after a command leaves alone, and what a command's outcome is. -/

namespace Sys2Proof.Machine

/-- What one message changes. -/
theorem groupMessage_frame (s : Dev) (g : Nat) :
    (groupMessage s g).regs = s.regs ∧ (groupMessage s g).bus = s.bus ∧ (groupMessage s g).isl = s.isl ∧
    (groupMessage s g).log = s.log ∧ (groupMessage s g).rx = s.rx ∧ (groupMessage s g).cls = s.cls ∧
    (groupMessage s g).flow = s.flow ∧ (groupMessage s g).buf = s.buf ∧ (groupMessage s g).eg = s.eg ∧
    (groupMessage s g).time = s.time ∧ (groupMessage s g).lt = s.lt ∧ (groupMessage s g).tx = s.tx ∧ (groupMessage s g).ana = s.ana ∧
    (groupMessage s g).mm = s.mm ∧ (groupMessage s g).seq = s.seq ∧ (groupMessage s g).cal = s.cal ∧
    (groupMessage s g).sec = s.sec ∧ (groupMessage s g).mbx = s.mbx ∧ (groupMessage s g).eyes = s.eyes ∧ (groupMessage s g).mon = s.mon ∧
    (groupMessage s g).test = s.test ∧ (groupMessage s g).mono = s.mono ∧ (groupMessage s g).fresh = s.fresh := by
  unfold groupMessage Dev.sendMsix
  split
  · split <;> repeat' constructor
  · repeat' constructor

theorem groupMessages_frame (l : List Nat) (s : Dev) :
    (l.foldl groupMessage s).regs = s.regs ∧ (l.foldl groupMessage s).bus = s.bus ∧
    (l.foldl groupMessage s).isl = s.isl ∧ (l.foldl groupMessage s).log = s.log ∧
    (l.foldl groupMessage s).rx = s.rx ∧ (l.foldl groupMessage s).cls = s.cls ∧
    (l.foldl groupMessage s).flow = s.flow ∧ (l.foldl groupMessage s).buf = s.buf ∧
    (l.foldl groupMessage s).eg = s.eg ∧ (l.foldl groupMessage s).time = s.time ∧
    (l.foldl groupMessage s).lt = s.lt ∧ (l.foldl groupMessage s).tx = s.tx ∧ (l.foldl groupMessage s).ana = s.ana ∧
    (l.foldl groupMessage s).mm = s.mm ∧ (l.foldl groupMessage s).seq = s.seq ∧
    (l.foldl groupMessage s).cal = s.cal ∧ (l.foldl groupMessage s).sec = s.sec ∧
    (l.foldl groupMessage s).mbx = s.mbx ∧ (l.foldl groupMessage s).eyes = s.eyes ∧ (l.foldl groupMessage s).mon = s.mon ∧
    (l.foldl groupMessage s).test = s.test ∧ (l.foldl groupMessage s).mono = s.mono ∧
    (l.foldl groupMessage s).fresh = s.fresh := by
  induction l generalizing s with
  | nil => repeat' constructor
  | cons g l ih =>
    have h := ih (groupMessage s g)
    have k := groupMessage_frame s g
    simp only [k] at h
    exact h

/-- Settling changes `out`, the MSI-X pending bits, `groups` and `intN` only. -/
@[simp] theorem settle_frame (s : Dev) :
    (settle s).regs = s.regs ∧ (settle s).bus = s.bus ∧ (settle s).isl = s.isl ∧ (settle s).log = s.log ∧
    (settle s).rx = s.rx ∧ (settle s).cls = s.cls ∧ (settle s).flow = s.flow ∧ (settle s).buf = s.buf ∧
    (settle s).eg = s.eg ∧ (settle s).time = s.time ∧ (settle s).lt = s.lt ∧ (settle s).tx = s.tx ∧ (settle s).ana = s.ana ∧
    (settle s).mm = s.mm ∧ (settle s).seq = s.seq ∧ (settle s).cal = s.cal ∧ (settle s).sec = s.sec ∧
    (settle s).mbx = s.mbx ∧ (settle s).eyes = s.eyes ∧ (settle s).mon = s.mon ∧ (settle s).test = s.test ∧ (settle s).mono = s.mono ∧
    (settle s).fresh = s.fresh := groupMessages_frame _ s

@[simp] theorem settle_rd (s : Dev) (a : Nat) : (settle s).rd a = s.rd a := by simp [Dev.rd]

@[simp] theorem pendingGroups_settle (s : Dev) : pendingGroups (settle s) = pendingGroups s := by
  simp [pendingGroups, pendingPages, Dev.rd]

@[simp] theorem intNLevel_settle (s : Dev) : intNLevel (settle s) = intNLevel s := by
  simp [intNLevel, Dev.route]

@[simp] theorem settle_groups (s : Dev) : (settle s).groups = pendingGroups s := rfl
@[simp] theorem settle_intN (s : Dev) : (settle s).intN = intNLevel s := rfl

@[simp] theorem State.after_pending (s : State) (d : Dev) : (s.after d).pending = s.pending := rfl
@[simp] theorem State.after_d (s : State) (d : Dev) : (s.after d).d = settle d := rfl

/-- A command's outcome is settled. -/
theorem State.after_settled (s : State) (d : Dev) :
    (s.after d).d.groups = pendingGroups (s.after d).d ∧ (s.after d).d.intN = intNLevel (s.after d).d := by
  simp

theorem Dev.fld_settle (s : Dev) (a lo len : Nat) : (settle s).fld a lo len = s.fld a lo len := by simp [Dev.fld]
theorem Dev.bit_settle (s : Dev) (a i : Nat) : (settle s).bit a i = s.bit a i := by simp [Dev.bit]

end Sys2Proof.Machine
end

