-- ==== Sys2Proof/Laws/Frame.lean ====
section
/-! SUPPORT. Frames compose: the frame of a sequence of updates is that of each of them; and what a command that is a
function of the device gives. -/

namespace Sys2Proof

open Machine

@[simp] theorem Machine.groupMessage_sent (s : Dev) (g : Nat) : (groupMessage s g).sent = s.sent := by
  unfold groupMessage Dev.sendMsix
  split
  · split <;> simp [Dev.sent]
  · rfl

@[simp] theorem Machine.groupMessage_ports (s : Dev) (g : Nat) : (groupMessage s g).ports = s.ports := by
  unfold groupMessage Dev.sendMsix
  split
  · split <;> simp [Dev.ports]
  · rfl

theorem Machine.groupMessages_sent (l : List Nat) (s : Dev) : (l.foldl groupMessage s).sent = s.sent := by
  induction l generalizing s with
  | nil => rfl
  | cons g l ih => simp [ih]

theorem Machine.groupMessages_ports (l : List Nat) (s : Dev) : (l.foldl groupMessage s).ports = s.ports := by
  induction l generalizing s with
  | nil => rfl
  | cons g l ih => simp [ih]

@[simp] theorem Machine.settle_sent (s : Dev) : (settle s).sent = s.sent := by
  have h := Machine.groupMessages_sent ((pendingGroups s).filter (fun g => !s.groups.contains g)) s
  simpa [settle, Dev.sent] using h

@[simp] theorem Machine.settle_ports (s : Dev) : (settle s).ports = s.ports := by
  have h := Machine.groupMessages_ports ((pendingGroups s).filter (fun g => !s.groups.contains g)) s
  simpa [settle, Dev.ports] using h

/-- A command whose meaning is a function of the device gives what that function leaves. -/
theorem gives_run {i : Instr} {s : State} {f : Dev → Dev} {P : Dev → Prop} (h : exec i s = s.run f)
    (p : P (settle (f s.d))) : Gives i s P := ⟨_, h, rfl, p⟩

namespace Part

variable {s t u : Dev}

theorem kept_refl (s : Dev) (p : Part) : p.Kept s s := by cases p <;> rfl

theorem Kept.trans {p : Part} (h : p.Kept s t) (k : p.Kept t u) : p.Kept s u := by
  cases p <;> exact Eq.trans k h

/-- A change of registers alone keeps every part. -/
theorem kept_regs {r : Sparse Word} (p : Part) : p.Kept s { s with regs := r } := by cases p <;> rfl

end Part

namespace Frame

variable {ps : List Part} {A : Nat → Prop} {s t u : Dev}

theorem refl (s : Dev) : Frame ps A s s := ⟨fun _ _ => rfl, fun p _ => p.kept_refl s⟩

theorem trans (h : Frame ps A s t) (k : Frame ps A t u) : Frame ps A s u :=
  ⟨fun a ha => (k.1 a ha).trans (h.1 a ha), fun p hp => (h.2 p hp).trans (k.2 p hp)⟩

/-- A frame holds with more parts and registers named. -/
theorem mono {qs : List Part} {B : Nat → Prop} (h : Frame ps A s t) (hp : ∀ p ∈ ps, p ∈ qs) (hA : ∀ a, A a → B a) :
    Frame qs B s t :=
  ⟨fun a ha => h.1 a (fun x => ha (hA a x)), fun p hq => h.2 p (fun x => hq (hp p x))⟩

/-- A change of one part stands in a frame that lists it. -/
theorem ofPart {q : Part} (hq : q ∈ ps) (hr : ∀ a, t.rd a = s.rd a) (hk : ∀ p, p ≠ q → p.Kept s t) : Frame ps A s t :=
  ⟨fun a _ => hr a, fun p hp => hk p (fun e => hp (e ▸ hq))⟩

/-- Settling stands in every frame. -/
theorem settle (h : Frame ps A s t) : Frame ps A s (settle t) :=
  h.trans ⟨fun a _ => settle_rd t a, fun p _ => by cases p <;> simp [Part.Kept]⟩

/-- An update of registers that A names. -/
theorem ofRegs (hr : ∀ a, ¬ A a → t.rd a = s.rd a) (e : t = { s with regs := t.regs }) : Frame ps A s t :=
  ⟨hr, fun p _ => e ▸ p.kept_regs⟩

theorem wr {a : Nat} (v : Word) (h : A a) : Frame ps A s (s.wr a v) :=
  ofRegs (fun _ hb => Dev.rd_wr_ne _ _ _ (fun e => hb (e ▸ h))) rfl

theorem setF {a : Nat} (lo len v : Nat) (h : A a) : Frame ps A s (s.setF a lo len v) := wr _ h
theorem setB {a : Nat} (i : Nat) (b : Bool) (h : A a) : Frame ps A s (s.setB a i b) := wr _ h
theorem orBits {a : Nat} (v : Word) (h : A a) : Frame ps A s (s.orBits a v) := wr _ h
theorem count {a : Nat} (k : Nat) (h : A a) : Frame ps A s (s.count a k) := wr _ h
theorem raise {p : Nat} (c : Nat) (h : A (p + HDR.INT_STATUS)) : Frame ps A s (s.raise p c) := wr _ h
theorem setWide {a : Nat} (w v : Nat) (h : A a) (k : A (a + 4)) : Frame ps A s (s.setWide w a v) := (wr _ h).trans (wr _ k)
theorem count48 {a : Nat} (n : Nat) (h : A a) (k : A (a + 4)) : Frame ps A s (s.count48 a n) := setWide _ _ h k
theorem count64 {a : Nat} (n : Nat) (h : A a) (k : A (a + 4)) : Frame ps A s (s.count64 a n) := setWide _ _ h k

/-- A branch keeps the frame that both of its sides keep. -/
theorem ite {c : Prop} [Decidable c] (h : Frame ps A s t) (k : Frame ps A s u) : Frame ps A s (if c then t else u) := by
  split <;> assumption

theorem setSq (k : Nat) (v : Seq) (h : .seq ∈ ps) : Frame ps A s (s.setSq k v) :=
  ofPart h (fun _ => rfl) (fun p hp => by cases p <;> first | rfl | exact absurd rfl hp)

theorem setRxl (n : Nat) (v : RxLane) (h : .rx ∈ ps) : Frame ps A s (s.setRxl n v) :=
  ofPart h (fun _ => rfl) (fun p hp => by cases p <;> first | rfl | exact absurd rfl hp)

theorem setLtn (n : Nat) (v : Lantern) (h : .lt ∈ ps) : Frame ps A s (s.setLtn n v) :=
  ofPart h (fun _ => rfl) (fun p hp => by cases p <;> first | rfl | exact absurd rfl hp)

theorem setTxl (n : Nat) (v : TxLane) (h : .tx ∈ ps) : Frame ps A s (s.setTxl n v) :=
  ofPart h (fun _ => rfl) (fun p hp => by cases p <;> first | rfl | exact absurd rfl hp)

theorem setMmo (n : Nat) (v : Module) (h : .mm ∈ ps) : Frame ps A s (s.setMmo n v) :=
  ofPart h (fun _ => rfl) (fun p hp => by cases p <;> first | rfl | exact absurd rfl hp)

theorem emit (o : Output) (h : .sent ∈ ps) : Frame ps A s (s.emit o) :=
  ofPart h (fun _ => rfl) (fun p hp => by cases p <;> first | rfl | exact absurd rfl hp)

end Frame

/-- An access that passes its checks acts on the device as it stands. -/
theorem Admits.access {s : State} {m : Master} {a : Nat} (h : Admits s m a) (k : Dev → Dev) : s.d.access m a k = k s.d := by
  simp only [Dev.access, h.1, Dev.dropBroken, if_neg h.2]

/-- So does a command that needs the page's lock. -/
theorem AdmitsHeld.lockedAccess {s : State} {m : Master} {a : Nat} (h : AdmitsHeld s m a) (k : Dev → Dev) :
    s.d.lockedAccess m a k = k s.d := by
  simp [Dev.lockedAccess, h.1.access, Dev.need, Dev.holds, h.2]

end Sys2Proof
end

