-- ==== Sys2Proof/Laws/Lines.lean ====
section
/-! SUPPORT. What a line port that sends changes: its lanes' sender and flow states, what left the device, and the clip
counters of its lanes (04, R109–R113; 09, R276). -/

namespace Sys2Proof

open Machine

/-- The registers a lane that sends may write: its clip counter and its causes. -/
def SendRegs (a : Nat) : Prop := ∃ n, a = Pg.LTX n + LTX.CLIPS ∨ a = Pg.LTX n + LTX.CLIPS + 4 ∨ a = Pg.LTX n + HDR.INT_STATUS

@[simp] theorem Machine.Dev.pcsFlow_setPcsFlow_same (s : Dev) (n : Nat) (v : PcsFlow) : (s.setPcsFlow n v).pcsFlow n = v := by
  simp [Dev.pcsFlow, Dev.setPcsFlow]

namespace Frame

variable {ps : List Part} {A : Nat → Prop} {s : Dev}

/-- A sequence of updates stands in the frame that each of them stands in. -/
theorem foldl {β : Type} {f : Dev → β → Dev} (h : ∀ (t : Dev) b, Frame ps A t (f t b)) (l : List β) :
    Frame ps A s (l.foldl f s) := by
  induction l generalizing s with
  | nil => exact refl s
  | cons b l ih => exact (h s b).trans ih

theorem setPcsFlow (n : Nat) (v : PcsFlow) (h : .eg ∈ ps) : Frame ps A s (s.setPcsFlow n v) :=
  ofPart h (fun _ => rfl) (fun p hp => by cases p <;> first | rfl | exact absurd rfl hp)

/-- A run of symbols changes the lane's sender, what left the device and, when samples clip, their counter and cause. -/
theorem sendSymbols (n : Nat) (l : List (Fin 4)) (ht : .tx ∈ ps) (ho : .sent ∈ ps) (hA : ∀ a, SendRegs a → A a) :
    Frame ps A s (s.sendSymbols n l) := by
  unfold Dev.sendSymbols
  extract_lets
  split
  · exact (setTxl _ _ ht).trans (emit _ ho)
  · exact ((setTxl _ _ ht).trans (emit _ ho)).trans
      ((count48 _ (hA _ ⟨n, .inl rfl⟩) (hA _ ⟨n, .inr (.inl rfl)⟩)).trans (raise _ (hA _ ⟨n, .inr (.inr rfl)⟩)))

theorem sendPrecoded (n : Nat) (l : List (Fin 4)) (ht : .tx ∈ ps) (ho : .sent ∈ ps) (hA : ∀ a, SendRegs a → A a) :
    Frame ps A s (s.sendPrecoded n l) :=
  (setTxl _ _ ht).trans (sendSymbols _ _ ht ho hA)

theorem sendPairs (p j : Nat) (l : List (List Gf)) (ht : .tx ∈ ps) (ho : .sent ∈ ps) (hA : ∀ a, SendRegs a → A a) :
    Frame ps A s (s.sendPairs p j l) :=
  ite (sendSymbols _ _ ht ho hA) (foldl (fun _ _ => sendPrecoded _ _ ht ho hA) _)

theorem sendFlow (p j : Nat) (l : List PcsBlock) (ht : .tx ∈ ps) (ho : .sent ∈ ps) (he : .eg ∈ ps)
    (hA : ∀ a, SendRegs a → A a) : Frame ps A s (s.sendFlow p j l) := by
  unfold Dev.sendFlow
  extract_lets
  exact (setPcsFlow _ _ he).trans (sendPairs _ _ _ ht ho hA)

theorem sendUnits (p k : Nat) (l : List PcsBlock) (ht : .tx ∈ ps) (ho : .sent ∈ ps) (he : .eg ∈ ps)
    (hA : ∀ a, SendRegs a → A a) : Frame ps A s (s.sendUnits p k l) := by
  induction k generalizing s l with
  | zero => exact refl s
  | succ k ih =>
    have h : ∀ u : List PcsBlock,
        Frame ps A s ((List.range (s.portFlows p)).foldl (fun t j => t.sendFlow p j u) s) :=
      fun u => foldl (fun _ _ => sendFlow _ _ _ ht ho he hA) _
    exact ite (h _) ((h _).trans (ih _))

/-- A port that sends blocks changes the flows and senders of its lanes, what left the device, and `SendRegs`. -/
theorem lineSend (p : Nat) (l : List PcsBlock) (ht : .tx ∈ ps) (ho : .sent ∈ ps) (he : .eg ∈ ps)
    (hA : ∀ a, SendRegs a → A a) : Frame ps A s (s.lineSend p l) := sendUnits _ _ _ ht ho he hA

end Frame

end Sys2Proof
end

