-- ==== Sys2Proof/Laws/PerInstr.lean ====
section
/-! SUPPORT. What holds of each command as syntax: no word of the table of operations spells it (log entry 2). -/

namespace Sys2Proof.Laws.Unspelled

/-- No word, read by the table's bits, is this command. -/
def Statement (i : Instr) : Prop := ∀ nbits w : Nat, decodeTableWord nbits w ≠ some i

/-- The table gives no row any bits, so nothing is spelled. -/
theorem none_spelled (i : Instr) : Statement i := fun _ _ h => nomatch h

theorem registerWrite (m : Master) (addr : BitVec 24) (be : BitVec 4) (v : Word) (upper : Option (BitVec 4 × Word)) (bar2 : Bool) : Statement (.registerWrite m addr be v upper bar2) := none_spelled _
theorem postedWriteApply (page : BitVec 10) : Statement (.postedWriteApply page) := none_spelled _
theorem maskedLowWrite (m : Master) (addr : BitVec 22) (be : BitVec 4) (v : Word) : Statement (.maskedLowWrite m addr be v) := none_spelled _
theorem maskedHighWrite (m : Master) (addr : BitVec 22) (be : BitVec 4) (v : Word) : Statement (.maskedHighWrite m addr be v) := none_spelled _
theorem lockRead (m : Master) (page : BitVec 10) (be : BitVec 4) : Statement (.lockRead m page be) := none_spelled _
theorem lockWrite (m : Master) (page : BitVec 10) (v : Word) : Statement (.lockWrite m page v) := none_spelled _
theorem lockBreak (m : Master) (v : Word) : Statement (.lockBreak m v) := none_spelled _
theorem expertKey (m : Master) (v : Word) : Statement (.expertKey m v) := none_spelled _
theorem softReset (m : Master) (page : BitVec 10) : Statement (.softReset m page) := none_spelled _
theorem softResetDone (page : BitVec 10) : Statement (.softResetDone page) := none_spelled _
theorem intForce (m : Master) (page : BitVec 10) (v : Word) : Statement (.intForce m page v) := none_spelled _
theorem msixUnmask (t : MsixTarget) (masked : Bool) : Statement (.msixUnmask t masked) := none_spelled _
theorem parityCheckSweep (upsets : List (BitVec 22 × Fin 32)) : Statement (.parityCheckSweep upsets) := none_spelled _
theorem parityFaultClear (m : Master) (page : BitVec 10) : Statement (.parityFaultClear m page) := none_spelled _
theorem parityAutoRestore (page : BitVec 10) (copyGood : Bool) : Statement (.parityAutoRestore page copyGood) := none_spelled _
theorem counterLowRead (m : Master) (addr : BitVec 22) (be : BitVec 4) : Statement (.counterLowRead m addr be) := none_spelled _
theorem counterHighWrite (m : Master) (addr : BitVec 22) (v : Word) : Statement (.counterHighWrite m addr v) := none_spelled _
theorem rcRead (m : Master) (addr : BitVec 24) (be : BitVec 4) (upper : Option (BitVec 4)) (upset : Option (Fin 32)) (bar2 : Bool) : Statement (.rcRead m addr be upper upset bar2) := none_spelled _
theorem sliceCfgWrite (m : Master) (s : Slice) (v : Word) : Statement (.sliceCfgWrite m s v) := none_spelled _
theorem hostCfgWrite (m : Master) (s : Slice) (v : Word) : Statement (.hostCfgWrite m s v) := none_spelled _
theorem lpMapWrite (m : Master) (s : Slice) (v : Word) : Statement (.lpMapWrite m s v) := none_spelled _
theorem lineMacControlFrame (port : Lane) (f : MacControl) (spans : List CwSpan) : Statement (.lineMacControlFrame port f spans) := none_spelled _
theorem linePauseExpiry (port : Lane) : Statement (.linePauseExpiry port) := none_spelled _
theorem laneEnable (m : Master) (n : Lane) : Statement (.laneEnable m n) := none_spelled _
theorem laneDisable (m : Master) (n : Lane) : Statement (.laneDisable m n) := none_spelled _
theorem laneCmdRetry (m : Master) (n : Lane) : Statement (.laneCmdRetry m n) := none_spelled _
theorem laneCmdReacquire (m : Master) (n : Lane) : Statement (.laneCmdReacquire m n) := none_spelled _
theorem laneCmdWarm (m : Master) (n : Lane) : Statement (.laneCmdWarm m n) := none_spelled _
theorem laneCmdCkptNow (m : Master) (n : Lane) (cut : Bool) : Statement (.laneCmdCkptNow m n cut) := none_spelled _
theorem laneCmdCkptClear (m : Master) (n : Lane) : Statement (.laneCmdCkptClear m n) := none_spelled _
theorem laneCmdProceed (m : Master) (n : Lane) : Statement (.laneCmdProceed m n) := none_spelled _
theorem calibrateComplete (n : Lane) (inRange : Bool) : Statement (.calibrateComplete n inRange) := none_spelled _
theorem calTimeout (n : Lane) : Statement (.calTimeout n) := none_spelled _
theorem acqTimeout (n : Lane) : Statement (.acqTimeout n) := none_spelled _
theorem acquireLock (n : Lane) : Statement (.acquireLock n) := none_spelled _
theorem holdLimitExpiry (n : Lane) : Statement (.holdLimitExpiry n) := none_spelled _
theorem holdRecover (n : Lane) : Statement (.holdRecover n) := none_spelled _
theorem warmRestartComplete (n : Lane) : Statement (.warmRestartComplete n) := none_spelled _
theorem warmRestartTimeout (n : Lane) : Statement (.warmRestartTimeout n) := none_spelled _
theorem ckptTick (n : Lane) (cut : Bool) : Statement (.ckptTick n cut) := none_spelled _
theorem inServiceCalStep : Statement .inServiceCalStep := none_spelled _
theorem qualityUpdate (n : Lane) (r : LaneReport) : Statement (.qualityUpdate n r) := none_spelled _
theorem losAssert (n : Lane) (amp : BitVec 12) : Statement (.losAssert n amp) := none_spelled _
theorem losDeassert (n : Lane) (amp : BitVec 12) : Statement (.losDeassert n amp) := none_spelled _
theorem cdrLockChange (n : Lane) (locked : Bool) : Statement (.cdrLockChange n locked) := none_spelled _
theorem eyeStart (m : Master) (n : Lane) : Statement (.eyeStart m n) := none_spelled _
theorem eyeAbort (m : Master) (n : Lane) : Statement (.eyeAbort m n) := none_spelled _
theorem eyePointDone (n : Lane) (errors : Nat) : Statement (.eyePointDone n errors) := none_spelled _
theorem innerWordDecode (n : Lane) (r : BitVec 128) (reliability : List (BitVec 4)) : Statement (.innerWordDecode n r reliability) := none_spelled _
theorem rsCodewordDecode (n : Lane) (line : List (List (Fin 4))) : Statement (.rsCodewordDecode n line) := none_spelled _
theorem groupHuntTest (n : Lane) (symbols : List (Fin 4)) : Statement (.groupHuntTest n symbols) := none_spelled _
theorem cwLockSearch (n : Lane) (start : Nat) (line : List (List (Fin 4))) : Statement (.cwLockSearch n start line) := none_spelled _
theorem alignConfirm (n : Lane) : Statement (.alignConfirm n) := none_spelled _
theorem amLock (n : Lane) (arrival : Nat) : Statement (.amLock n arrival) := none_spelled _
theorem deskewCheck (n : Lane) (arrival peer : Nat) (ordered : Bool) : Statement (.deskewCheck n arrival peer ordered) := none_spelled _
theorem alignLoss (n : Lane) (cause : AlignLossCause) : Statement (.alignLoss n cause) := none_spelled _
theorem linkFaultReceived (n : Lane) (lf rf : Bool) : Statement (.linkFaultReceived n lf rf) := none_spelled _
theorem amReceived (n : Lane) (remoteDegraded inPlace : Bool) : Statement (.amReceived n remoteDegraded inPlace) := none_spelled _
theorem degWindowEnd (n : Lane) : Statement (.degWindowEnd n) := none_spelled _
theorem degCmdPortDown (m : Master) (n : Lane) : Statement (.degCmdPortDown m n) := none_spelled _
theorem degCmdPortUp (m : Master) (n : Lane) : Statement (.degCmdPortUp m n) := none_spelled _
theorem headerWindowComplete (port : Lane) (window : List Byte) (len : Nat) (rxTime : BitVec 80) : Statement (.headerWindowComplete port window len rxTime) := none_spelled _
theorem classifierLookup (port : Lane) (stagingFull : Bool) (busy : List (Fin 8)) (ecc : List (Fin 2 × Bool)) : Statement (.classifierLookup port stagingFull busy ecc) := none_spelled _
theorem bucketReload (bank : Fin 8) (bucket : BitVec 17) : Statement (.bucketReload bank bucket) := none_spelled _
theorem meterDecision (port : Lane) : Statement (.meterDecision port) := none_spelled _
theorem packetLastByte (port : Lane) (rest : List Byte) (spans : List CwSpan) (invalid : Nat) : Statement (.packetLastByte port rest spans invalid) := none_spelled _
theorem packetCommit (port : Lane) : Statement (.packetCommit port) := none_spelled _
theorem packetRevoke (port : Lane) : Statement (.packetRevoke port) := none_spelled _
theorem verdictTimeout (port : Lane) : Statement (.verdictTimeout port) := none_spelled _
theorem profileWordWrite (m : Master) (profile : Fin 1024) (w : Fin 7) (v : Word) : Statement (.profileWordWrite m profile w v) := none_spelled _
theorem profileCommit (m : Master) (profile : Fin 1024) (v : Word) : Statement (.profileCommit m profile v) := none_spelled _
theorem learnInit (m : Master) : Statement (.learnInit m) := none_spelled _
theorem freeIdRefill : Statement .freeIdRefill := none_spelled _
theorem learnApply : Statement .learnApply := none_spelled _
theorem updGo (m : Master) : Statement (.updGo m) := none_spelled _
theorem stageGo (m : Master) : Statement (.stageGo m) := none_spelled _
theorem updateNop : Statement .updateNop := none_spelled _
theorem updateInsert : Statement .updateInsert := none_spelled _
theorem updateReplace : Statement .updateReplace := none_spelled _
theorem updateModify : Statement .updateModify := none_spelled _
theorem updateDelete : Statement .updateDelete := none_spelled _
theorem rdCmdRead (m : Master) : Statement (.rdCmdRead m) := none_spelled _
theorem rdCmdReadShadow (m : Master) : Statement (.rdCmdReadShadow m) := none_spelled _
theorem agingPass : Statement .agingPass := none_spelled _
theorem restoreStart (m : Master) : Statement (.restoreStart m) := none_spelled _
theorem restoreDone (bank : Fin 8) : Statement (.restoreDone bank) := none_spelled _
theorem recordWordStage (m : Master) (i : Fin 8192) (w : Fin 15) (v : Word) : Statement (.recordWordStage m i w v) := none_spelled _
theorem recordWordCommit (m : Master) (i : Fin 8192) (v : Word) : Statement (.recordWordCommit m i v) := none_spelled _
theorem initState (m : Master) : Statement (.initState m) := none_spelled _
theorem initKeys (m : Master) : Statement (.initKeys m) := none_spelled _
theorem initDone : Statement .initDone := none_spelled _
theorem cacheFlush (m : Master) : Statement (.cacheFlush m) := none_spelled _
theorem cacheFlushDone : Statement .cacheFlushDone := none_spelled _
theorem sweepVisit : Statement .sweepVisit := none_spelled _
theorem fbWindowEnd (n : Lane) : Statement (.fbWindowEnd n) := none_spelled _
theorem fbCmdEnter (m : Master) (n : Lane) : Statement (.fbCmdEnter m n) := none_spelled _
theorem fbCmdExit (m : Master) (n : Lane) : Statement (.fbCmdExit m n) := none_spelled _
theorem admitSnap (m : Master) (s : Slice) : Statement (.admitSnap m s) := none_spelled _
theorem hbmOperationIssue (k : Stack) : Statement (.hbmOperationIssue k) := none_spelled _
theorem hbmPriorityRaise (k : Stack) : Statement (.hbmPriorityRaise k) := none_spelled _
theorem hbmOperationComplete (k : Stack) (r : HbmResult) : Statement (.hbmOperationComplete k r) := none_spelled _
theorem schedulerSelect (h : Lane) : Statement (.schedulerSelect h) := none_spelled _
theorem hostFrameTx (h : Lane) : Statement (.hostFrameTx h) := none_spelled _
theorem hostMacControlFrame (h : Lane) (f : MacControl) (fec : HostFec) : Statement (.hostMacControlFrame h f fec) := none_spelled _
theorem hostPfcExpiry (h : Lane) (prio : Fin 8) : Statement (.hostPfcExpiry h prio) := none_spelled _
theorem queueFlush (m : Master) (q : QueueId) : Statement (.queueFlush m q) := none_spelled _
theorem channelRetirement (c : Fin 64) (cause : RetireCause) : Statement (.channelRetirement c cause) := none_spelled _
theorem retireCmdChannels (m : Master) (k : Stack) (chs : BitVec 16) : Statement (.retireCmdChannels m k chs) := none_spelled _
theorem retireCmdStack (m : Master) (k : Stack) : Statement (.retireCmdStack m k) := none_spelled _
theorem relocationDone (k : Stack) (unreadable : List RelocLine) : Statement (.relocationDone k unreadable) := none_spelled _
theorem mrCmdRead (m : Master) (k : Stack) : Statement (.mrCmdRead m k) := none_spelled _
theorem mrCmdWrite (m : Master) (k : Stack) : Statement (.mrCmdWrite m k) := none_spelled _
theorem stackTempRead (k : Stack) (degrees : BitVec 8) (refresh : Fin 3) : Statement (.stackTempRead k degrees refresh) := none_spelled _
theorem hostEnable (m : Master) (n : Lane) : Statement (.hostEnable m n) := none_spelled _
theorem hostDisable (m : Master) (n : Lane) : Statement (.hostDisable m n) := none_spelled _
theorem prbsModeSet (m : Master) (n : Lane) : Statement (.prbsModeSet m n) := none_spelled _
theorem prbsModeClear (m : Master) (n : Lane) : Statement (.prbsModeClear m n) := none_spelled _
theorem hostLaneUp (n : Lane) : Statement (.hostLaneUp n) := none_spelled _
theorem hostLaneDown (n : Lane) (signal cdr am : Bool) : Statement (.hostLaneDown n signal cdr am) := none_spelled _
theorem biyleyLoad (copyA copyB : List Byte) : Statement (.biyleyLoad copyA copyB) := none_spelled _
theorem eqSetStageWrite (m : Master) (n : Lane) (hi : Bool) (w : Fin 7) (v : Word) : Statement (.eqSetStageWrite m n hi w v) := none_spelled _
theorem eqSetCommit (m : Master) (n : Lane) (hi : Bool) (v : Word) : Statement (.eqSetCommit m n hi v) := none_spelled _
theorem egressFrameRx (lane : Lane) (frame : List Byte) (pcsOk : Bool) (fec : HostFec) : Statement (.egressFrameRx lane frame pcsOk fec) := none_spelled _
theorem egressFrameTx (port : Lane) (txTime : BitVec 80) : Statement (.egressFrameTx port txTime) := none_spelled _
theorem flowControlFrameTx (h : Lane) : Statement (.flowControlFrameTx h) := none_spelled _
theorem flowControlRepeat (h : Lane) : Statement (.flowControlRepeat h) := none_spelled _
theorem timeCmdSet (m : Master) : Statement (.timeCmdSet m) := none_spelled _
theorem timeCmdStep (m : Master) : Statement (.timeCmdStep m) := none_spelled _
theorem timeCmdSetAtPps (m : Master) : Statement (.timeCmdSetAtPps m) := none_spelled _
theorem timeRdRead (m : Master) : Statement (.timeRdRead m) := none_spelled _
theorem ppsCaptRead (m : Master) : Statement (.ppsCaptRead m) := none_spelled _
theorem ppsEdge (falling : Bool) : Statement (.ppsEdge falling) := none_spelled _
theorem ppsLost : Statement .ppsLost := none_spelled _
theorem txtsPop (m : Master) (port : Lane) : Statement (.txtsPop m port) := none_spelled _
theorem prbsInject (m : Master) (n : Lane) : Statement (.prbsInject m n) := none_spelled _
theorem prbsClear (m : Master) (n : Lane) : Statement (.prbsClear m n) := none_spelled _
theorem prbsLock (n : Lane) (symbols : List (Fin 4)) : Statement (.prbsLock n symbols) := none_spelled _
theorem prbsLoss (n : Lane) (symbols : List (Fin 4)) : Statement (.prbsLoss n symbols) := none_spelled _
theorem hostEyeStart (m : Master) (n : Lane) : Statement (.hostEyeStart m n) := none_spelled _
theorem hostEyeAbort (m : Master) (n : Lane) : Statement (.hostEyeAbort m n) := none_spelled _
theorem hostEyePointDone (n : Lane) (errors : Nat) : Statement (.hostEyePointDone n errors) := none_spelled _
theorem txEnable (m : Master) (n : Lane) : Statement (.txEnable m n) := none_spelled _
theorem txDisable (m : Master) (n : Lane) : Statement (.txDisable m n) := none_spelled _
theorem txSendEntry (port : Lane) : Statement (.txSendEntry port) := none_spelled _
theorem firApply (m : Master) (n : Lane) : Statement (.firApply m n) := none_spelled _
theorem pilotDepthStep (n : Lane) : Statement (.pilotDepthStep n) := none_spelled _
theorem tuneReq (n : Lane) : Statement (.tuneReq n) := none_spelled _
theorem tuneReply (n : Lane) : Statement (.tuneReply n) := none_spelled _
theorem identity (n : Lane) : Statement (.identity n) := none_spelled _
theorem warm (n : Lane) : Statement (.warm n) := none_spelled _
theorem fault (n : Lane) : Statement (.fault n) := none_spelled _
theorem wake (n : Lane) : Statement (.wake n) := none_spelled _
theorem hostDefinedFrame (n : Lane) : Statement (.hostDefinedFrame n) := none_spelled _
theorem lanternFrameReject (n : Lane) : Statement (.lanternFrameReject n) := none_spelled _
theorem lanternEnergyDetect (n : Lane) (levels : List (BitVec 16)) : Statement (.lanternEnergyDetect n levels) := none_spelled _
theorem lanternAcquireAbandon (n : Lane) (symbols : Nat) (levels : List (BitVec 16)) : Statement (.lanternAcquireAbandon n symbols levels) := none_spelled _
theorem lanternPreambleDetect (n : Lane) (level : BitVec 16) (decisions : List Bool) : Statement (.lanternPreambleDetect n level decisions) := none_spelled _
theorem lanternSyncFound (n : Lane) (level : BitVec 16) (decisions : List Bool) : Statement (.lanternSyncFound n level decisions) := none_spelled _
theorem lanternSyncWindowExpire (n : Lane) (decisions : List Bool) : Statement (.lanternSyncWindowExpire n decisions) := none_spelled _
theorem lanternClip (n : Lane) (full samples : Nat) (along : List LtTrigger) : Statement (.lanternClip n full samples along) := none_spelled _
theorem lanternCapture (n : Lane) (levels : List (BitVec 16)) (along : List LtTrigger) : Statement (.lanternCapture n levels along) := none_spelled _
theorem lanternCollision (n : Lane) (levels : List (BitVec 16)) (along : List LtTrigger) : Statement (.lanternCollision n levels along) := none_spelled _
theorem lanternSignalLost (n : Lane) (levels : List (BitVec 16)) (along : List LtTrigger) : Statement (.lanternSignalLost n levels along) := none_spelled _
theorem lanternHeaderError (n : Lane) (soft : List (BitVec 4)) (along : List LtTrigger) : Statement (.lanternHeaderError n soft along) := none_spelled _
theorem lanternFrameEnd (n : Lane) (soft : List (BitVec 4)) (along : List LtTrigger) : Statement (.lanternFrameEnd n soft along) := none_spelled _
theorem lanternTxFrameStart (n : Lane) : Statement (.lanternTxFrameStart n) := none_spelled _
theorem lanternTxFrameEnd (n : Lane) : Statement (.lanternTxFrameEnd n) := none_spelled _
theorem identityPeriod (n : Lane) : Statement (.identityPeriod n) := none_spelled _
theorem sendIdent (m : Master) (n : Lane) : Statement (.sendIdent m n) := none_spelled _
theorem sendWake (m : Master) (n : Lane) : Statement (.sendWake m n) := none_spelled _
theorem txFlush (m : Master) (n : Lane) : Statement (.txFlush m n) := none_spelled _
theorem keyInstall (m : Master) (n : Lane) (slot : Bool) : Statement (.keyInstall m n slot) := none_spelled _
theorem keyErase (m : Master) (n : Lane) (slot : Bool) : Statement (.keyErase m n slot) := none_spelled _
theorem lanternTxRecord (n : Lane) (record : List Byte) : Statement (.lanternTxRecord n record) := none_spelled _
theorem outEnable (m : Master) (s : Slice) (k : Fin 10) : Statement (.outEnable m s k) := none_spelled _
theorem outDisable (m : Master) (s : Slice) (k : Fin 10) : Statement (.outDisable m s k) := none_spelled _
theorem outCmdClear (m : Master) (s : Slice) (k : Fin 10) : Statement (.outCmdClear m s k) := none_spelled _
theorem outputRetry (s : Slice) (k : Fin 10) : Statement (.outputRetry s k) := none_spelled _
theorem readbackCheckDone (s : Slice) (mean : BitVec 20) (sense : OutSense) : Statement (.readbackCheckDone s mean sense) := none_spelled _
theorem supervisionTrip (s : Slice) (k : Fin 10) (sense : OutSense) : Statement (.supervisionTrip s k sense) := none_spelled _
theorem codeWrite (m : Master) (s : Slice) (k : Fin 10) (v : Word) : Statement (.codeWrite m s k v) := none_spelled _
theorem ditherSync (m : Master) (gens : BitVec 16) : Statement (.ditherSync m gens) := none_spelled _
theorem monitorSample (s : Slice) (i : Fin 12) (sum : Int) (ovr borrowed : Bool) : Statement (.monitorSample s i sum ovr borrowed) := none_spelled _
theorem sampleLoRead (m : Master) (s : Slice) (i : Fin 12) : Statement (.sampleLoRead m s i) := none_spelled _
theorem resamplerSample (c : Fin 8) (lantern : List (BitVec 40 × Bool)) : Statement (.resamplerSample c lantern) := none_spelled _
theorem moduleRemoved (n : Lane) : Statement (.moduleRemoved n) := none_spelled _
theorem moduleInserted (n : Lane) : Statement (.moduleInserted n) := none_spelled _
theorem modulePoll (n : Lane) (p : ModulePoll) : Statement (.modulePoll n p) := none_spelled _
theorem modulePowerupTimeout (n : Lane) : Statement (.modulePowerupTimeout n) := none_spelled _
theorem initWaitTimeout (n : Lane) : Statement (.initWaitTimeout n) := none_spelled _
theorem intStorm (n : Lane) : Statement (.intStorm n) := none_spelled _
theorem xferGo (m : Master) (n : Lane) (sdaLow : Bool) : Statement (.xferGo m n sdaLow) := none_spelled _
theorem xferDone (n : Lane) (r : XferResult) : Statement (.xferDone n r) := none_spelled _
theorem repoll (m : Master) (n : Lane) : Statement (.repoll m n) := none_spelled _
theorem resetModule (m : Master) (n : Lane) : Statement (.resetModule m n) := none_spelled _
theorem unisolate (m : Master) (n : Lane) : Statement (.unisolate m n) := none_spelled _
theorem stretchTimeout (n : Lane) (stuckAfter : Bool) : Statement (.stretchTimeout n stuckAfter) := none_spelled _
theorem xferTimeout (n : Lane) (stuckAfter : Bool) : Statement (.xferTimeout n stuckAfter) := none_spelled _
theorem writePollTimeout (n : Lane) (stuckAfter : Bool) : Statement (.writePollTimeout n stuckAfter) := none_spelled _
theorem nop (k : SeqId) : Statement (.nop k) := none_spelled _
theorem ldi (k : SeqId) (d : Fin 16) (imm : BitVec 18) : Statement (.ldi k d imm) := none_spelled _
theorem ldh (k : SeqId) (d : Fin 16) (imm : BitVec 22) : Statement (.ldh k d imm) := none_spelled _
theorem mov (k : SeqId) (d a : Fin 16) : Statement (.mov k d a) := none_spelled _
theorem add (k : SeqId) (d a b : Fin 16) : Statement (.add k d a b) := none_spelled _
theorem sub (k : SeqId) (d a b : Fin 16) : Statement (.sub k d a b) := none_spelled _
theorem addi (k : SeqId) (d a : Fin 16) (imm : BitVec 18) : Statement (.addi k d a imm) := none_spelled _
theorem mul (k : SeqId) (d a b : Fin 16) (s : BitVec 6) : Statement (.mul k d a b s) := none_spelled _
theorem min (k : SeqId) (d a b : Fin 16) : Statement (.min k d a b) := none_spelled _
theorem max (k : SeqId) (d a b : Fin 16) : Statement (.max k d a b) := none_spelled _
theorem and (k : SeqId) (d a b : Fin 16) : Statement (.and k d a b) := none_spelled _
theorem or (k : SeqId) (d a b : Fin 16) : Statement (.or k d a b) := none_spelled _
theorem xor (k : SeqId) (d a b : Fin 16) : Statement (.xor k d a b) := none_spelled _
theorem abs (k : SeqId) (d a : Fin 16) : Statement (.abs k d a) := none_spelled _
theorem andi (k : SeqId) (d a : Fin 16) (imm : BitVec 18) : Statement (.andi k d a imm) := none_spelled _
theorem shl (k : SeqId) (d a : Fin 16) (imm : BitVec 18) : Statement (.shl k d a imm) := none_spelled _
theorem shr (k : SeqId) (d a : Fin 16) (imm : BitVec 18) : Statement (.shr k d a imm) := none_spelled _
theorem sar (k : SeqId) (d a : Fin 16) (imm : BitVec 18) : Statement (.sar k d a imm) := none_spelled _
theorem ld (k : SeqId) (d a : Fin 16) (imm : BitVec 18) : Statement (.ld k d a imm) := none_spelled _
theorem st (k : SeqId) (d a : Fin 16) (imm : BitVec 18) : Statement (.st k d a imm) := none_spelled _
theorem ldw (k : SeqId) (d a : Fin 16) (imm : BitVec 18) : Statement (.ldw k d a imm) := none_spelled _
theorem windowReadReturn (k : SeqId) : Statement (.windowReadReturn k) := none_spelled _
theorem stw (k : SeqId) (d a : Fin 16) (imm : BitVec 18) : Statement (.stw k d a imm) := none_spelled _
theorem windowWriteError (k : SeqId) : Statement (.windowWriteError k) := none_spelled _
theorem rdt (k : SeqId) (d : Fin 16) : Statement (.rdt k d) := none_spelled _
theorem tmr (k : SeqId) (a : Fin 16) (imm : BitVec 18) : Statement (.tmr k a imm) := none_spelled _
theorem wait (k : SeqId) (d a : Fin 16) : Statement (.wait k d a) := none_spelled _
theorem waitResume (k : SeqId) : Statement (.waitResume k) := none_spelled _
theorem seqTimerExpiry (k : SeqId) : Statement (.seqTimerExpiry k) := none_spelled _
theorem dog (k : SeqId) : Statement (.dog k) := none_spelled _
theorem send (k : SeqId) (d a b : Fin 16) : Statement (.send k d a b) := none_spelled _
theorem recv (k : SeqId) (d a : Fin 16) : Statement (.recv k d a) := none_spelled _
theorem dbl (k : SeqId) (a b : Fin 16) : Statement (.dbl k a b) := none_spelled _
theorem br (k : SeqId) (c : BitVec 4) (a : Fin 16) (target : BitVec 11) : Statement (.br k c a target) := none_spelled _
theorem call (k : SeqId) (target : BitVec 11) : Statement (.call k target) := none_spelled _
theorem ret (k : SeqId) : Statement (.ret k) := none_spelled _
theorem jr (k : SeqId) (a : Fin 16) : Statement (.jr k a) := none_spelled _
theorem halt (k : SeqId) : Statement (.halt k) := none_spelled _
theorem trap (k : SeqId) (imm : BitVec 18) : Statement (.trap k imm) := none_spelled _
theorem seqWatchdog (k : SeqId) : Statement (.seqWatchdog k) := none_spelled _
theorem seqRestart (k : SeqId) : Statement (.seqRestart k) := none_spelled _
theorem breakpointHalt (k : SeqId) : Statement (.breakpointHalt k) := none_spelled _
theorem seqStart (m : Master) (k : SeqId) : Statement (.seqStart m k) := none_spelled _
theorem seqHalt (m : Master) (k : SeqId) : Statement (.seqHalt m k) := none_spelled _
theorem seqCont (m : Master) (k : SeqId) : Statement (.seqCont m k) := none_spelled _
theorem seqStep (m : Master) (k : SeqId) : Statement (.seqStep m k) := none_spelled _
theorem seqKick (m : Master) (k : SeqId) : Statement (.seqKick m k) := none_spelled _
theorem xregWrite (m : Master) (k : SeqId) (x : Fin 16) (hi : Bool) (v : Word) : Statement (.xregWrite m k x hi v) := none_spelled _
theorem roleWrite (m : Master) (k : SeqId) (v : Word) : Statement (.roleWrite m k v) := none_spelled _
theorem seqDataWordWrite (m : Master) (k : SeqId) (w : Fin 1024) (hi : Bool) (v : Word) : Statement (.seqDataWordWrite m k w hi v) := none_spelled _
theorem seqInstrWrite (m : Master) (k : SeqId) (w : Fin 2048) (v : Word) : Statement (.seqInstrWrite m k w v) := none_spelled _
theorem loadComplete (k : SeqId) : Statement (.loadComplete k) := none_spelled _
theorem lseqHostAssistClear (m : Master) (i : Fin 8) : Statement (.lseqHostAssistClear m i) := none_spelled _
theorem calRun (m : Master) : Statement (.calRun m) := none_spelled _
theorem calAbort (m : Master) : Statement (.calAbort m) := none_spelled _
theorem calRestore (m : Master) : Statement (.calRestore m) := none_spelled _
theorem calPartDone (r : Fin 20) (p : CalPart) (meas : CalMeasurement) : Statement (.calPartDone r p meas) := none_spelled _
theorem liveRead (m : Master) : Statement (.liveRead m) := none_spelled _
theorem liveExpertWrite (m : Master) (w : Fin 67) (v : Word) : Statement (.liveExpertWrite m w v) := none_spelled _
theorem islandWatchdog (i : Island) : Statement (.islandWatchdog i) := none_spelled _
theorem islandResetComplete (i : Island) (relocked : Bool) : Statement (.islandResetComplete i relocked) := none_spelled _
theorem islandCmdReset (m : Master) : Statement (.islandCmdReset m) := none_spelled _
theorem devReset (m : Master) (v : Word) : Statement (.devReset m v) := none_spelled _
theorem mcReset (m : Master) : Statement (.mcReset m) := none_spelled _
theorem rstN : Statement .rstN := none_spelled _
theorem perstN : Statement .perstN := none_spelled _
theorem trstN : Statement .trstN := none_spelled _
theorem functionLevelReset : Statement .functionLevelReset := none_spelled _
theorem refLoss (r : Fin 3) : Statement (.refLoss r) := none_spelled _
theorem refPresent (r : Fin 3) : Statement (.refPresent r) := none_spelled _
theorem pllLock (p : Fin 15) : Statement (.pllLock p) := none_spelled _
theorem pllUnlock (p : Fin 15) : Statement (.pllUnlock p) := none_spelled _
theorem powerOnResetRelease : Statement .powerOnResetRelease := none_spelled _
theorem directoryRead (d : DirectoryFound) : Statement (.directoryRead d) := none_spelled _
theorem firmwareRead (copyB : Bool) (image : List Byte) : Statement (.firmwareRead copyB image) := none_spelled _
theorem hbmTrainingDone (failed : BitVec 4) : Statement (.hbmTrainingDone failed) := none_spelled _
theorem startupCalibrationDone (s : Slice) (meas : CalMeasurement) : Statement (.startupCalibrationDone s meas) := none_spelled _
theorem bootRetry (m : Master) : Statement (.bootRetry m) := none_spelled _
theorem privilegedShutdown (z : Zone) : Statement (.privilegedShutdown z) := none_spelled _
theorem privilegedRestart : Statement .privilegedRestart := none_spelled _
theorem imgBegin (m : Master) : Statement (.imgBegin m) := none_spelled _
theorem imgAbort (m : Master) : Statement (.imgAbort m) := none_spelled _
theorem imgData (m : Master) (v : Word) : Statement (.imgData m v) := none_spelled _
theorem imageVerification (c : ImageCrypto) : Statement (.imageVerification c) := none_spelled _
theorem secAdvance (m : Master) : Statement (.secAdvance m) := none_spelled _
theorem secDebugDisable (m : Master) : Statement (.secDebugDisable m) := none_spelled _
theorem secOwnerDebugDisable (m : Master) : Statement (.secOwnerDebugDisable m) := none_spelled _
theorem fuseBitProgram (r : FuseReadback) : Statement (.fuseBitProgram r) := none_spelled _
theorem dbgChallenge (m : Master) (random : BitVec 256) : Statement (.dbgChallenge m random) := none_spelled _
theorem dbgRelock (m : Master) : Statement (.dbgRelock m) := none_spelled _
theorem flashGo (m : Master) : Statement (.flashGo m) := none_spelled _
theorem flashDone (bytes : List Byte) : Statement (.flashDone bytes) := none_spelled _
theorem attestKeysReady (certs : List Byte) : Statement (.attestKeysReady certs) := none_spelled _
theorem attestationRequest (nonce : BitVec 256) (bufLen : Nat) (tag : Word) : Statement (.attestationRequest nonce bufLen tag) := none_spelled _
theorem attestationReport : Statement .attestationReport := none_spelled _
theorem poisonedWrite : Statement .poisonedWrite := none_spelled _
theorem busMasterDisable : Statement .busMasterDisable := none_spelled _
theorem smbusWrite (pecOk : Bool) (addr : BitVec 24) (v : Word) : Statement (.smbusWrite pecOk addr v) := none_spelled _
theorem smbusRead (pecOk : Bool) (addr : BitVec 24) : Statement (.smbusRead pecOk addr) := none_spelled _
theorem smbusStatus (pecOk : Bool) : Statement (.smbusStatus pecOk) := none_spelled _
theorem smbusTimeout : Statement .smbusTimeout := none_spelled _
theorem ping (sender : Master) (words : List Word) : Statement (.ping sender words) := none_spelled _
theorem info (sender : Master) (words : List Word) : Statement (.info sender words) := none_spelled _
theorem mcReplyRetry (expired : Bool) : Statement (.mcReplyRetry expired) := none_spelled _
theorem ringRunStart (m : Master) (r : Ring) : Statement (.ringRunStart m r) := none_spelled _
theorem ringRunStop (m : Master) (r : Ring) : Statement (.ringRunStop m r) := none_spelled _
theorem sqTailWrite (m : Master) (r : Ring) (v : Word) : Statement (.sqTailWrite m r v) := none_spelled _
theorem cqHeadWrite (m : Master) (r : Ring) (v : Word) : Statement (.cqHeadWrite m r v) := none_spelled _
theorem descriptorFetch (r : Ring) (d : DmaDescriptor) : Statement (.descriptorFetch r d) := none_spelled _
theorem deviceReadError (r : Ring) (ofBuffer : Bool) : Statement (.deviceReadError r ofBuffer) := none_spelled _
theorem tableUpdateDescriptor (descs : List DescBytes) : Statement (.tableUpdateDescriptor descs) := none_spelled _
theorem firmwareUpload (image : List Byte) : Statement (.firmwareUpload image) := none_spelled _
theorem bufferFillTimeout (r : Ring) : Statement (.bufferFillTimeout r) := none_spelled _
theorem coalesceTimeout (r : Ring) : Statement (.coalesceTimeout r) := none_spelled _
theorem harvestPeriod : Statement .harvestPeriod := none_spelled _
theorem hvSnap (m : Master) : Statement (.hvSnap m) := none_spelled _
theorem harvestDone : Statement .harvestDone := none_spelled _
theorem mbxSend (m : Master) : Statement (.mbxSend m) := none_spelled _
theorem rxHdrRead (m : Master) : Statement (.rxHdrRead m) := none_spelled _
theorem rxPop (m : Master) : Statement (.rxPop m) := none_spelled _
theorem inboxFlush (m : Master) (page : Fin 4) (j : Fin 16) : Statement (.inboxFlush m page j) := none_spelled _
theorem roleBump (m : Master) : Statement (.roleBump m) := none_spelled _
theorem dbTx (m : Master) (e : Fin 32) (v : Word) : Statement (.dbTx m e v) := none_spelled _
theorem dbRxValRead (m : Master) (e : Fin 27) : Statement (.dbRxValRead m e) := none_spelled _
theorem stalemate (a b : Master) : Statement (.stalemate a b) := none_spelled _
theorem thermalSample (dtNs : Nat) (zones : List ZoneSample) : Statement (.thermalSample dtNs zones) := none_spelled _
theorem sampleRateSlow : Statement .sampleRateSlow := none_spelled _
theorem sensorBroken (z : Zone) : Statement (.sensorBroken z) := none_spelled _
theorem unbreak (m : Master) (zones : BitVec 12) : Statement (.unbreak m zones) := none_spelled _
theorem pauseStep : Statement .pauseStep := none_spelled _
theorem pauseReleaseStep : Statement .pauseReleaseStep := none_spelled _
theorem pauseSet (m : Master) (v : Word) : Statement (.pauseSet m v) := none_spelled _
theorem railDip (k : Rail) (quarterMv : BitVec 16) : Statement (.railDip k quarterMv) := none_spelled _
theorem railRecover (k : Rail) : Statement (.railRecover k) := none_spelled _
theorem supplyHoldEnd : Statement .supplyHoldEnd := none_spelled _
theorem paritySweepDone (upsets : List (BitVec 22 × Fin 32)) : Statement (.paritySweepDone upsets) := none_spelled _
theorem railReset (k : Rail) : Statement (.railReset k) := none_spelled _
theorem overVoltage (k : Rail) : Statement (.overVoltage k) := none_spelled _
theorem vigilEnter (m : Master) : Statement (.vigilEnter m) := none_spelled _
theorem vigilEntryComplete : Statement .vigilEntryComplete := none_spelled _
theorem vigilExit (m : Master) : Statement (.vigilExit m) := none_spelled _
theorem vigilTimerWake : Statement .vigilTimerWake := none_spelled _
theorem wakeN : Statement .wakeN := none_spelled _
theorem flowRefreshPass (vigilNs : Nat) : Statement (.flowRefreshPass vigilNs) := none_spelled _
theorem vigilExitToTraffic : Statement .vigilExitToTraffic := none_spelled _
theorem bistStart (m : Master) : Statement (.bistStart m) := none_spelled _
theorem bistAbort (m : Master) : Statement (.bistAbort m) := none_spelled _
theorem bistTargetStart : Statement .bistTargetStart := none_spelled _
theorem bistTargetEnd (e : TestEnd) : Statement (.bistTargetEnd e) := none_spelled _
theorem cacheSegmentStart : Statement .cacheSegmentStart := none_spelled _
theorem rotationStart : Statement .rotationStart := none_spelled _
theorem scanCtrlWrite (m : Master) (v : Word) : Statement (.scanCtrlWrite m v) := none_spelled _
theorem lockstepMismatch : Statement .lockstepMismatch := none_spelled _
theorem mcRestart : Statement .mcRestart := none_spelled _
theorem faultRecRead (m : Master) : Statement (.faultRecRead m) := none_spelled _
theorem faultPop (m : Master) : Statement (.faultPop m) := none_spelled _
theorem hostLinkFaultReceived (n : Lane) (lf rf : Bool) : Statement (.hostLinkFaultReceived n lf rf) := none_spelled _
theorem hostLosChange (n : Lane) (asserted : Bool) : Statement (.hostLosChange n asserted) := none_spelled _
theorem pcieLinkReset : Statement .pcieLinkReset := none_spelled _
theorem relocationScan (c : Fin 64) : Statement (.relocationScan c) := none_spelled _

end Sys2Proof.Laws.Unspelled
end

