-- ==== Sys2Proof/Tests/Slice0.lean ====
section
/-! SUPPORT. Tests whose expected results are the specification's own worked examples and tables, ill-formed commands that
the checks refuse, and a witness for the hypotheses of every statement. -/

namespace Sys2Proof.Tests

open Sys2Proof Sys2Proof.Machine

set_option Elab.async false

/-- A device with every island on, and these registers set. -/
def upD (l : List (Nat × Nat)) : Dev :=
  l.foldl (fun s x => s.wr x.1 (BitVec.ofNat 32 x.2))
    { Dev.reset with isl := { Islands.init with released := (List.range 63).map (fun i => (i, true)) } }
def up (l : List (Nat × Nat)) : State := ⟨upD l, []⟩
def onD (f : Dev → Dev) (s : State) : State := { s with d := f s.d }
/-- The lock of a page held by a master. -/
def withLock (m : Master) (page : Nat) : State → State := onD (fun d => d.setHolder page (masterId m))
/-- The state after a command, and after several. -/
def run1 (i : Instr) (s : State) : State := match exec i s with | .next t => t | _ => s
def runs (l : List Instr) (s : State) : State := l.foldl (fun s i => run1 i s) s
def lk0 : Lookup := ⟨true, 77, [], 5, [], 0, 0, false, false, [1,2,3], 9, true, false, 0⟩
def dec0 : Decision := ⟨77, false, 77, 0, 0, 0, 0, 1, 25, some 4, none, true, [], none, false, false, false⟩
def pk0 : Packet := { window := [], len := 0, rxTime := 0, slot := false, rest := [], refused := none, unread := false, fetched := [], lookup := none, decided := none, last := none, timedOut := false }
def br (num port cls : Nat) : BufRec := ⟨num, port, 100, cls, 0, 0, 7, 0x1234, 55, false, false, none, true, 0, 0, [3], 1, List.replicate 100 5⟩
def lb0 : LastByte := ⟨[], false, false⟩
def mac0 (et op : BitVec 16) (en : BitVec 8) (tm : List (BitVec 16)) (fcs : Bool := true) : MacControl :=
  ⟨0x0180C2000001, et, op, en, tm, fcs, true⟩
def dma0 : DmaDescriptor := ⟨0x1000, 4096, 0xABCD, 3, 1, false, 3⟩
def poll0 : ModulePoll := ⟨false, .ok, [0x18,0x50,0,6] ++ List.replicate 124 0, List.replicate 128 0, List.replicate 128 0, false⟩
def msg0 : Msg := ⟨1, 0, 5, 77, [1,2,3,4,5,6,7,8], 0⟩

/-! ### Ill-formed commands, one for each check -/

def shortReport : LaneReport :=
  { snr := 0, ber := 0, eyeL := 0, eyeM := 0, eyeU := 0, ffe := [], levels := List.replicate 16 0, dfe := 0, gain := 0, freq := 0, depth := 0, suppr := 0, envelope := 0 }

theorem test_wf_quality : (Instr.qualityUpdate 0 shortReport).wf = false := by decide
theorem test_wf_inner_word : (Instr.innerWordDecode 0 0 []).wf = false := by decide
theorem test_wf_group_hunt : (Instr.groupHuntTest 0 []).wf = false := by decide
theorem test_wf_header_window : (Instr.headerWindowComplete 0 [1] 64 0).wf = false := by decide
theorem test_wf_line_pause : (Instr.lineMacControlFrame 0 (mac0 0x8808 1 0 []) []).wf = false := by decide
theorem test_wf_span : (Instr.packetLastByte 0 [] [⟨0, 5, 3⟩] 0).wf = false := by decide
theorem test_wf_host_pfc : (Instr.hostMacControlFrame 0 (mac0 0x8808 0x0101 0 [1]) ⟨0, 0⟩).wf = false := by decide
theorem test_wf_module_poll : (Instr.modulePoll 0 { poll0 with lower := [] }).wf = false := by decide
theorem test_wf_cal_part : (Instr.calPartDone 0 .partA ⟨0, [(66, [])]⟩).wf = false := by decide
theorem test_wf_update_descriptor : (Instr.tableUpdateDescriptor [[]]).wf = false := by decide
theorem test_wf_ping : (Instr.ping .host []).wf = false := by decide
theorem test_wf_info : (Instr.info .host []).wf = false := by decide
theorem test_wf_inbox_flush : (Instr.inboxFlush .host 0 3).wf = false := by decide
theorem test_wf_stalemate : (Instr.stalemate .host .host).wf = false := by decide
theorem test_wf_startup_calibration : (Instr.startupCalibrationDone 0 ⟨0, [(5, []), (5, [])]⟩).wf = false := by decide
theorem test_wf_thermal_sample : (Instr.thermalSample 1 []).wf = false := by decide

/-! ### Worked examples -/

/-- 02, masked writes: 0x0002_0002 at the masked-low alias of 0x06_2008 sets `HOST_ASSIST` and leaves `ENABLE`. -/
theorem test_masked_write :
    (runs [.maskedLowWrite .host 0x062008 0xF 0x00020002, .postedWriteApply 0x062]
      (withLock .host 0x062 (up [(0x062008, 1)]))).d.rd 0x062008 = 3 := by decide +kernel

/-- 02, PAGE_ID: page 0x013 is the LRX page of lane L3. -/
theorem test_page_id : (upD []).peek .host 0x013000 = 0x00100003 := by decide +kernel

/-- 02, R60: the host takes the free lock of page 0x013. -/
theorem test_lock_read : (run1 (.lockRead .host 0x013) (up [])).d.sent
    = [.readData .host 0x01301C 0x80000001] := by decide +kernel

/-- 03, island hang on L9: the checkpoint nearest to 61.5 °C. -/
theorem test_checkpoint_choice :
    let s := upD [(Pg.THERM + THERM.ZONE_TEMP + 8, 984 * 8)]
    let slot (k : Nat) : Ckpt := { Dev.emptyCkpt with valid := true, sig := s.ckptSig 9, seq := k,
                                                      tag := [0x370, 0x392, 0x3B0, 0x3C4, 0x3EE, 0x40A, 0x3A4, 0x420].getD k 0 }
    (s.setRxl 9 { s.rxl 9 with ckpts := (List.range 8).map slot }).eligible 9 = some 3 := by decide +kernel

/-- 03, R107: 34,288 errors read 0x485F, 4,095 read 0x0FFF, and 4,095 × 2^15 read 0xFFFF. -/
theorem test_eye_count : eyeCount 2143 = 0x085F ∧ eyeCount 34288 = 0x485F ∧ eyeCount (4095 * 2 ^ 15) = 0xFFFF := by decide

/-- 04, the columns and the codeword of the worked example. -/
theorem test_inner_columns : [0, 4, 9, 57, 62, 100, 119].map innerColumn = [3, 9, 14, 65, 70, 108, 127]
    ∧ innerSyndrome [0, 4, 119, 120, 122, 124, 125, 126] = (0, 0) := by decide

/-- 04, R111: the codeword with information bits 0, 4 and 119. -/
theorem test_inner_encode : innerEncode (BitVec.ofNat 120 (1 + 2 ^ 4 + 2 ^ 119))
    = BitVec.ofNat 128 ([0, 4, 119, 120, 122, 124, 125, 126].map (2 ^ ·)).sum := by decide +kernel

def rel04 (j : Nat) : Nat := match j with | 9 => 1 | 57 => 2 | 4 => 3 | 100 => 5 | _ => 6

/-- 04, Chase decoding: the word with errors at 9 and 4 decodes to the codeword. -/
theorem test_chase :
    (chase (BitVec.ofNat 128 ([0, 9, 119, 120, 122, 124, 125, 126].map (2 ^ ·)).sum) rel04 4).map (fun l => l.contains 9 && l.contains 4 && l.length == 2)
      = some true := by decide +kernel

/-- 05, an IPv4 VXLAN key. -/
theorem test_vxlan_key :
    let frame : List Byte := List.replicate 12 7 ++ [0x81, 0x00, 0x00, 0x64, 0x08, 0x00]
      ++ [0x45, 0, 0, 100, 0, 0, 0, 0, 64, 17, 0, 0, 192, 0, 2, 10, 198, 51, 100, 7]
      ++ [0xC0, 0x00, 0x12, 0xB5, 0, 80, 0, 0] ++ [8, 0, 0, 0, 0x00, 0x2A, 0x1F, 0] ++ List.replicate 60 0
    buildKey (parse frame 0 4789) 5 0x8 = [0x04, 0x85, 0x10, 0x64, 0x00, 0x00, 0x11, 0x08, 0xC0, 0x00, 0x02, 0x0A,
      0xC6, 0x33, 0x64, 0x07, 0xC0, 0x00, 0x12, 0xB5, 0x00, 0x00, 0x2A, 0x1F] := by decide +kernel

/-- 05, placement of the digest 0x3A_5C91_27E4. -/
theorem test_placement : bucketA 0x3A5C9127E4 + 2 = 75750 ∧ bucketB 0x3A5C9127E4 = 6 * 524288 + 119524 * 4 := by decide

/-- 07, early drop of a yellow packet: the average, and the level; the same average drops no green packet. -/
theorem test_early_drop : Dev.nextAverage 52428800 245760000 4 = 52992000 ∧ Dev.dropLevel 163840 327680 16384 52992000 = 4316
    ∧ Dev.dropLevel 262144 524288 16384 52992000 = 0 := by decide

/-- 08, an Ingress Tag. -/
theorem test_ingress_tag :
    ((Dev.ingressTag (Dev.packetHeader { br 1 9 5 with colour := 1, flags := 4, flow := 0x012345, umeta := 0xA1B2C3, time := 0x123456789A }) false).take 14)
      = [0x19, 0xA9, 0x00, 0x24, 0x68, 0xB4, 0x36, 0x58, 0x62, 0x46, 0x8A, 0xCF, 0x13, 0x40] := by decide +kernel

/-- 08, R274: the contour code of 9, 10 and 11 errors in 2^20 samples. -/
theorem test_contour_code : [9, 10, 11, 0].map (contourCode (2 ^ 20)) = [81, 80, 79, 255] := by decide +kernel

/-- 09, three requests: STEP of tap 2 by −8 is applied, and by −24 more is out of bounds. -/
theorem test_tuning :
    let s := upD [(Pg.LTX 8 + LTX.TUNE_CTRL, 3), (Pg.LTX 8 + LTX.TAP_BOUND + 8, 0x3D0), (Pg.LTX 8 + LTX.TAP_BOUND + 12, 0x010000A0)]
    let t := s.setTaps 8 [0, 0, -20, 216, -20, 0, 0, 0, 0]
    t.tuneTaps 8 1 2 (-8) = (0, [0, 0, -28, 208, -20, 0, 0, 0, 0]) ∧ (t.tuneTaps 8 1 2 (-48)).1 = 1 := by decide +kernel

/-- 10, R292: the increment at 250 kHz on an L453 lane. -/
theorem test_nco_increment : ncoIncrement 250000 (680 * 10 ^ 9) 3 = 77612585 := by decide

/-- 12, ring lock on L0: LDH X1, 0x20, and ADDI X4, X1, −3 at 0x00C. -/
theorem test_seq_ldh : (run1 (.ldh 0 1 0x20) (up [(Pg.LSEQ 0 + LSEQ.SEQ_STATE, 2)])).d.xreg 0 1 = 2 ^ 23 := by decide +kernel
theorem test_seq_step_word : (run1 (.seqStep .host 0) (onD (fun d => d.setSq 0 { d.sq 0 with imem := [(0x00C, 0x1907FFFD)], xr := [(1, 10)] })
    (withLock .host (Pg.LSEQ 0 / 0x1000) (up [(Pg.LSEQ 0 + HDR.PAGE_CTRL, 1), (Pg.LSEQ 0 + LSEQ.SEQ_STATE, 0x000C0001)])))).d.xreg 0 4 = 7 := by decide +kernel

/-- 14, line PLL ratios of an L453 and an L212 slice. -/
theorem test_line_pll : (List.range 3).map ((upD [(Pg.SLICE 1 + SLICE.SLICE_CFG, 1)]).lpllWord 1) = [181, 1, 3]
    ∧ (List.range 3).map ((upD []).lpllWord 0) = [85, 0, 1] := by decide +kernel

/-- 16, the header of a stale message. -/
theorem test_stale_header : Dev.header ⟨0x25, 0x0012, 0x0203, 0x1234567890, [], 0⟩ true = 0x25001282031234567890 := by decide

/-- 17, a burst heats the buffer manager, event 5: `ZONE_TEMP[6]` reads 0x00FA_2810 and the zone is in throttle. -/
def burst : List (Nat × Int) :=
  (List.range 6).map (fun k => ((8375000 - 62500 * k : Nat), 82054 - (k : Int)))
    ++ (List.range 9).map (fun k => ((8000000 - 1000000 * k : Nat), 82048 - 16 * (k : Int)))
theorem test_thermal_rate :
    let s := upD []
    let t := (s.setZone 6 { s.zone 6 with samples := burst }).zoneSample 8437500 (fun _ => 82055) 6
    t.rd (Pg.THERM + THERM.ZONE_TEMP + 24) = 0x00FA2810 ∧ t.zoneThr 6 = true := by decide +kernel

/-- 19, a lane-sequencer trap on L6: the words of the record. -/
theorem test_fault_words :
    Dev.faultWords ⟨5, 59, some 6, false, 14, 500000000, 0, 0, 123, 1, 1⟩ = [0x053B860E, 0x1DCD6500, 0x007B0100, 0x00000001] := by decide

/-- 08, an Egress Tag: bytes 0 to 6 with their CRC-8 pass the check. -/
theorem test_egress_crc : crc8 [0x15, 0x82, 0xA0, 0x30, 0x10, 0x00, 0x00, BitVec.ofNat 8 (crc8 [0x15, 0x82, 0xA0, 0x30, 0x10, 0x00, 0x00])] = 0 := by decide +kernel

/-! ### Witnesses for the hypotheses of the statements -/

/-- States that meet the hypotheses of `Obligations.StepTakesFront` and of the idle step of `EveryStepCompletes`. -/
theorem witness_StepTakesFront : (State.mk (upD []) [.pcieLinkReset]).pending = [.pcieLinkReset] := rfl
theorem witness_EveryStepCompletes : (up []).pending = [] := rfl

/-- A state that meets the hypotheses of `Obligations.EveryStepSettles`, and the step it takes. -/
theorem witness_EveryStepSettles : Settled State.reset ∧ (match step State.reset with | .next t => t.d.mono == 1 | _ => false) = true := by
  decide +kernel


end Sys2Proof.Tests

/-! ### Chapter 00 to 02 -/

namespace Sys2Proof.Tests.C00

open Sys2Proof Sys2Proof.Machine Sys2Proof.Tests

set_option Elab.async false

def pen (p : Nat) := p * 0x1000 + HDR.INT_ENABLE
def up1 (w : Option (Word × Word)) (st : Nat) : State := onD (fun d => { d with bus := { d.bus with upset := [(Pg.HOST 3 + HOST.HOST_CTRL, w)] } }) (up [(Pg.HOST 3 + HDR.PAGE_STATUS, st), (Pg.HOST 3 + HOST.HOST_CTRL, 1), (Pg.HOST 3 + HDR.PARITY_ADDR, HOST.HOST_CTRL), (Pg.DEVICE + DEVICE.FAULT_CTRL, 2)])

/-- States and operands that meet the hypotheses of the clauses of `Obligations.InterruptMessages`. -/
theorem witness_InterruptMessages :
  (
    let s : State := onD (fun d => { d with hif := { d.hif with masked := [(5, false)] } }) { { (up [(pen 0x010, 0xFFFFFFFF), (Pg.INTR + INTR.ROUTE + 4 * ((pageGroup 0x010).getD 0), 0x305)]) with d := settle (up [(pen 0x010, 0xFFFFFFFF), (Pg.INTR + INTR.ROUTE + 4 * ((pageGroup 0x010).getD 0), 0x305)]).d } with d := { { (up [(pen 0x010, 0xFFFFFFFF), (Pg.INTR + INTR.ROUTE + 4 * ((pageGroup 0x010).getD 0), 0x305)]) with d := settle (up [(pen 0x010, 0xFFFFFFFF), (Pg.INTR + INTR.ROUTE + 4 * ((pageGroup 0x010).getD 0), 0x305)]).d }.d with hif := { { (up [(pen 0x010, 0xFFFFFFFF), (Pg.INTR + INTR.ROUTE + 4 * ((pageGroup 0x010).getD 0), 0x305)]) with d := settle (up [(pen 0x010, 0xFFFFFFFF), (Pg.INTR + INTR.ROUTE + 4 * ((pageGroup 0x010).getD 0), 0x305)]).d }.d.hif with pend := [(5, true)], msixOn := true, funcMask := true } } }
    let m : Master := .bmc
    let page : BitVec 10 := 0x010
    let v : Word := 0x100
    let g : Nat := (pageGroup 0x010).getD 0
    let vec : Fin 64 := 5
    let a := page.toNat * 0x1000
    let set := v &&& Dev.causesOf page.toNat
    let live := (s.d.rd (a + HDR.INT_STATUS) ||| set) &&& s.d.rd (a + HDR.INT_ENABLE);
    Admits s m (a + HDR.INT_FORCE) ∧ Settled s ∧ pageGroup page.toNat = some g ∧ g ∉ s.d.groups ∧ live ≠ 0 ∧ g < 23 ∧ bitOf (s.d.route g) 9 = true ∧ bitOf (s.d.route g) 8 = true ∧ s.d.msixMasked (fieldOf (s.d.route g) 0 6) = true ∧ (s.d.hif.msixOn = false ∨ s.d.hif.funcMask = true) ∧ s.d.hif.msixOn = true ∧ Sparse.get (fun _ => true) s.d.hif.masked vec = false ∧ Sparse.get (fun _ => false) s.d.hif.pend vec = true)
  ∧ (
    let s : State := { { (up [(pen 0x010, 0xFFFFFFFF), (Pg.INTR + INTR.ROUTE + 4 * ((pageGroup 0x010).getD 0), 0x305)]) with d := settle (up [(pen 0x010, 0xFFFFFFFF), (Pg.INTR + INTR.ROUTE + 4 * ((pageGroup 0x010).getD 0), 0x305)]).d } with d := { { (up [(pen 0x010, 0xFFFFFFFF), (Pg.INTR + INTR.ROUTE + 4 * ((pageGroup 0x010).getD 0), 0x305)]) with d := settle (up [(pen 0x010, 0xFFFFFFFF), (Pg.INTR + INTR.ROUTE + 4 * ((pageGroup 0x010).getD 0), 0x305)]).d }.d with hif := { { (up [(pen 0x010, 0xFFFFFFFF), (Pg.INTR + INTR.ROUTE + 4 * ((pageGroup 0x010).getD 0), 0x305)]) with d := settle (up [(pen 0x010, 0xFFFFFFFF), (Pg.INTR + INTR.ROUTE + 4 * ((pageGroup 0x010).getD 0), 0x305)]).d }.d.hif with masked := [(5, false)], msixOn := true } } }
    let m : Master := .host
    let page : BitVec 10 := 0x010
    let v : Word := 0x100
    let g : Nat := (pageGroup 0x010).getD 0
    let vec : Fin 64 := 5
    let a := page.toNat * 0x1000
    let set := v &&& Dev.causesOf page.toNat
    let live := (s.d.rd (a + HDR.INT_STATUS) ||| set) &&& s.d.rd (a + HDR.INT_ENABLE);
    Admits s m (a + HDR.INT_FORCE) ∧ Settled s ∧ pageGroup page.toNat = some g ∧ g ∉ s.d.groups ∧ live ≠ 0 ∧ g < 23 ∧ bitOf (s.d.route g) 8 = true ∧ s.d.msixMasked (fieldOf (s.d.route g) 0 6) = false ∧ s.d.hif.msixOn = true ∧ s.d.hif.funcMask = false ∧ (∀ w : Fin 64, w ≠ vec → Sparse.get (fun _ => true) s.d.hif.masked w = true))
  ∧ (
    let s : State := up [(pen 0x010, 0xFFFFFFFF), (Pg.INTR + INTR.ROUTE + 4 * ((pageGroup 0x010).getD 0), 0x005)]
    let m : Master := .bmc
    let page : BitVec 10 := 0x010
    let v : Word := 0x1FF
    let g : Nat := (pageGroup 0x010).getD 0
    let a := page.toNat * 0x1000
    let set := v &&& Dev.causesOf page.toNat
    let live := (s.d.rd (a + HDR.INT_STATUS) ||| set) &&& s.d.rd (a + HDR.INT_ENABLE);
    Admits s m (a + HDR.INT_FORCE) ∧ Settled s ∧ pageGroup page.toNat = some g ∧ g ∉ s.d.groups ∧ live ≠ 0 ∧ g < 23 ∧ bitOf (s.d.route g) 8 = false) :=
  by refine ⟨?_, ?_, ?_⟩ <;> decide +kernel

/-- States and operands that meet the hypotheses of the clauses of `Obligations.LockReads`. -/
theorem witness_LockReads :
  (
    let s : State := up []
    let m : Master := .host
    let page : BitVec 10 := 0x010
    let be : BitVec 4 := 1
    let a := page.toNat * 0x1000 + HDR.LOCK;
    s.d.readErr m a = none ∧ s.d.holder page.toNat = 0 ∧ be ≠ 0xF)
  ∧ (
    let s : State := withLock .bmc 0x010 (up [])
    let m : Master := .host
    let page : BitVec 10 := 0x010
    let a := page.toNat * 0x1000 + HDR.LOCK;
    s.d.readErr m a = none ∧ s.d.holder page.toNat ≠ 0) :=
  by refine ⟨?_, ?_⟩ <;> decide +kernel

/-- States and operands that meet the hypotheses of the clauses of `Obligations.LockWritesAndBreaks`. -/
theorem witness_LockWritesAndBreaks :
  (
    let s : State := withLock .bmc 0x010 (up [])
    let m : Master := .bmc
    let page : BitVec 10 := 0x010
    let v : Word := 2
    let may : Prop := m = .host ∨ m = .jtag ∧ 1 ≤ s.d.debugLevel
    let a := page.toNat * 0x1000 + HDR.LOCK;
    s.d.writeErr m a 0xF false = none ∧ s.d.holder page.toNat = masterId m ∧ v.toNat % 256 = (masterId m).toNat ∧ page.toNat ≠ Pg.BOOT / 0x1000 ∧ Admits s m (Pg.LOCKS + LOCKS.LOCK_BREAK) ∧ ¬ may)
  ∧ (
    let s : State := withLock .bmc 0x010 (up [])
    let m : Master := .host
    let page : BitVec 10 := 0x010
    let v : Word := 0x110
    let p := v.toNat % 1024
    let may : Prop := m = .host ∨ m = .jtag ∧ 1 ≤ s.d.debugLevel
    let a := page.toNat * 0x1000 + HDR.LOCK;
    s.d.writeErr m a 0xF false = none ∧ (s.d.holder page.toNat ≠ masterId m ∨ v.toNat % 256 ≠ (masterId m).toNat) ∧ Admits s m (Pg.LOCKS + LOCKS.LOCK_BREAK) ∧ may ∧ s.d.holder p = 0)
  ∧ (
    let s : State := withLock .bmc 0x010 (up [])
    let m : Master := .host
    let v : Word := 0x410
    let p := v.toNat % 1024
    let may : Prop := m = .host ∨ m = .jtag ∧ 1 ≤ s.d.debugLevel;
    Admits s m (Pg.LOCKS + LOCKS.LOCK_BREAK) ∧ may ∧ s.d.holder p ≠ 0 ∧ p ≠ Pg.BOOT / 0x1000) :=
  by refine ⟨?_, ?_, ?_⟩ <;> decide +kernel

/-- States and operands that meet the hypotheses of the clauses of `Obligations.ExpertSessions`. -/
theorem witness_ExpertSessions :
  (
    let s : State := up []
    let m : Master := .host
    let v : Word := 5
    let key := masterId m;
    Admits s m (Pg.DEVICE + DEVICE.EXPERT_KEY) ∧ s.d.bus.keySeen.contains key = false ∧ v ≠ 0x00005EA5 ∧ v ≠ 0x0000A5E5 ∧ v ≠ 0)
  ∧ (
    let s : State := {(up []) with d := (up []).d.setKeySeen .host true}
    let m : Master := .host
    let key := masterId m;
    Admits s m (Pg.DEVICE + DEVICE.EXPERT_KEY) ∧ s.d.bus.keySeen.contains key = true) :=
  by refine ⟨?_, ?_⟩ <;> decide +kernel

/-- States and operands that meet the hypotheses of the clauses of `Obligations.RegisterWrites`. -/
theorem witness_RegisterWrites :
  (
    let s : State := up []
    let m : Master := .bmc
    let page : BitVec 10 := BitVec.ofNat 10 0x001
    let addr : BitVec 24 := BitVec.ofNat 24 (pen 0x001)
    let al : BitVec 22 := BitVec.ofNat 22 (pen 0x001)
    let a := page.toNat * 0x1000 + HDR.INT_ENABLE;
    Admits s m a ∧ Dev.posted page.toNat = false ∧ addr.toNat = a ∧ al.toNat = a)
  ∧ (
    let s : State := up []
    let m : Master := .host
    let page : BitVec 10 := 0x010
    let addr : BitVec 24 := BitVec.ofNat 24 (pen 0x010)
    let a := page.toNat * 0x1000 + HDR.INT_ENABLE;
    Admits s m a ∧ Dev.posted page.toNat = true ∧ addr.toNat = a)
  ∧ (
    let s : State := { (up []) with d := (up []).d.setBuffer 0x010 (some { master := .host, off := HDR.INT_ENABLE, sel := 0xFF00FF00, val := 0x12345678, pc := 0 }) }
    let m : Master := .host
    let page : BitVec 10 := 0x010
    let w := (s.d.buffered page.toNat).getD ⟨.host, 0, 0, 0, 0⟩;
    s.d.buffered page.toNat = some w ∧ w.off = HDR.INT_ENABLE ∧ w.master = m ∧ isInternal m = false ∧ (pageRow page.toNat).isSome ∧ (∀ k, k < 24 → (s.d.sq k).winQ = [])) :=
  by refine ⟨?_, ?_, ?_⟩ <;> decide +kernel

/-- States and operands that meet the hypotheses of the clauses of `Obligations.RejectedWrites`. -/
theorem witness_RejectedWrites :
  (
    let s : State := up []
    let m : Master := .host
    let addr : BitVec 24 := BitVec.ofNat 24 (Pg.INTR + 0xF00)
    let be : BitVec 4 := 0xF
    let a := addr.toNat
    let page := a / 0x1000;
    a < 0x400000 ∧ (m = .host ∨ m = .bmc) ∧ (pageRow page).isSome ∧ masterId m ∉ s.d.brokenOf page ∧ be = 0xF ∧ a % 4 = 0 ∧ a % 0x1000 ≠ HDR.LOCK ∧ s.d.pageOn page = true ∧ Dev.mapped page (a % 0x1000) = false)
  ∧ (
    let s : State := up []
    let m : Master := .host
    let addr : BitVec 24 := 0x10000 + BitVec.ofNat 24 HDR.INT_ENABLE
    let be : BitVec 4 := 3
    let a := addr.toNat
    let page := a / 0x1000;
    a < 0x400000 ∧ (m = .host ∨ m = .bmc) ∧ (pageRow page).isSome ∧ masterId m ∉ s.d.brokenOf page ∧ be ≠ 0xF)
  ∧ (
    let s : State := up []
    let m : Master := .host
    let addr : BitVec 24 := (0x10000 + BitVec.ofNat 24 HDR.INT_ENABLE)+1
    let be : BitVec 4 := 0xF
    let a := addr.toNat
    let page := a / 0x1000;
    a < 0x400000 ∧ (m = .host ∨ m = .bmc) ∧ (pageRow page).isSome ∧ masterId m ∉ s.d.brokenOf page ∧ be = 0xF ∧ a % 4 ≠ 0)
  ∧ (
    let s : State := withLock .bmc 0x010 (up [])
    let m : Master := .host
    let addr : BitVec 24 := 0x10000 + BitVec.ofNat 24 HDR.INT_ENABLE
    let be : BitVec 4 := 0xF
    let a := addr.toNat
    let page := a / 0x1000
    let plain : Prop := be = 0xF ∧ a % 4 = 0 ∧ a % 0x1000 ≠ HDR.LOCK ∧ Dev.mapped page (a % 0x1000) = true ∧ s.d.pageOn page = true;
    a < 0x400000 ∧ (m = .host ∨ m = .bmc) ∧ (pageRow page).isSome ∧ masterId m ∉ s.d.brokenOf page ∧ plain ∧ s.d.busy page = false ∧ s.d.holder page ≠ 0 ∧ s.d.holder page ≠ masterId m)
  ∧ (
    let s : State := up [(0x10000 + HDR.PAGE_STATUS, 0x18)]
    let m : Master := .host
    let addr : BitVec 24 := 0x10000 + BitVec.ofNat 24 HDR.INT_ENABLE
    let be : BitVec 4 := 0xF
    let a := addr.toNat
    let page := a / 0x1000
    let plain : Prop := be = 0xF ∧ a % 4 = 0 ∧ a % 0x1000 ≠ HDR.LOCK ∧ Dev.mapped page (a % 0x1000) = true ∧ s.d.pageOn page = true;
    a < 0x400000 ∧ (m = .host ∨ m = .bmc) ∧ (pageRow page).isSome ∧ masterId m ∉ s.d.brokenOf page ∧ plain ∧ s.d.busy page = false ∧ s.d.inSafe page = true ∧ s.d.holder page = 0)
  ∧ (
    let s : State := { (up []) with d := (up []).d.setBuffer 0x010 (some { master := .host, off := HDR.INT_ENABLE, sel := 0xFF00FF00, val := 0x12345678, pc := 0 }) }
    let m : Master := .host
    let addr : BitVec 24 := 0x10000 + BitVec.ofNat 24 HDR.INT_ENABLE
    let be : BitVec 4 := 0xF
    let a := addr.toNat
    let page := a / 0x1000
    let plain : Prop := be = 0xF ∧ a % 4 = 0 ∧ a % 0x1000 ≠ HDR.LOCK ∧ Dev.mapped page (a % 0x1000) = true ∧ s.d.pageOn page = true;
    a < 0x400000 ∧ (m = .host ∨ m = .bmc) ∧ (pageRow page).isSome ∧ masterId m ∉ s.d.brokenOf page ∧ plain ∧ s.d.busy page = true) :=
  by refine ⟨?_, ?_, ?_, ?_, ?_, ?_⟩ <;> decide +kernel

/-- States and operands that meet the hypotheses of the clauses of `Obligations.CounterReadsAndWrites`. -/
theorem witness_CounterReadsAndWrites :
  (
    let s : State := up [((Pg.LFEC 3 + LFEC.INNER_CW), 0xFFFFFFFF), ((Pg.LFEC 3 + LFEC.INNER_CW)+4, 0x1234), (Pg.ADMIT 0 + 0x104, 77)]
    let m : Master := .host
    let n : Lane := 3
    let lo : BitVec 22 := BitVec.ofNat 22 (Pg.LFEC 3 + LFEC.INNER_CW)
    let hi : BitVec 22 := BitVec.ofNat 22 ((Pg.LFEC 3 + LFEC.INNER_CW)+4)
    let rc : BitVec 24 := BitVec.ofNat 24 (Pg.ADMIT 0 + 0x104)
    let al : BitVec 24 := BitVec.ofNat 24 (0x400000 + Pg.ADMIT 0 + 0x104)
    let be : BitVec 4 := 1
    let b := Pg.ADMIT 0 + 0x104
    let a := Pg.LFEC n + LFEC.INNER_CW
    let idle (x : Nat) : Prop := s.d.readErr m x = none ∧ s.d.busy (x / 0x1000) = false;
    lo.toNat = a ∧ idle a ∧ hi.toNat = a + 4 ∧ idle (a + 4) ∧ Admits s m (a + 4) ∧ rc.toNat = b ∧ idle b ∧ be ≠ 0xF ∧ (al.toNat = 0x400000 + b ∨ al.toNat = 0x800000 + b)) :=
  by decide +kernel

/-- States and operands that meet the hypotheses of the clauses of `Obligations.SoftResetsAndParityFaults` (SoftResets). -/
theorem witness_SoftResetsAndParityFaults_SoftResets :
  (
    let s : State := up [(Pg.INTR + INTR.ROUTE, 0x305), (Pg.INTR + HDR.INT_ENABLE, 1)]
    let m : Master := .host
    let page : BitVec 10 := 0x010;
    Admits s m (page.toNat * 0x1000 + HDR.PAGE_CTRL) ∧ s.d.holder page.toNat = 0)
  ∧ (
    let s : State := withLock .host (Pg.INTR / 0x1000) (up [(Pg.INTR + INTR.ROUTE, 0x305), (Pg.INTR + HDR.INT_ENABLE, 1)])
    let m : Master := .host
    let page : BitVec 10 := BitVec.ofNat 10 (Pg.INTR / 0x1000)
    let b := Pg.INTR;
    page.toNat * 0x1000 = b ∧ AdmitsHeld s m (b + HDR.PAGE_CTRL) ∧ Sparse.wf regReset s.d.regs = true ∧ s.d.rd (b + HDR.PAGE_STATUS) &&& 0x18 = 0)
  ∧ (
    let s : State := { (up [(Pg.INTR + INTR.ROUTE, 0x305), (Pg.INTR + HDR.INT_ENABLE, 1)]) with d := (up [(Pg.INTR + INTR.ROUTE, 0x305), (Pg.INTR + HDR.INT_ENABLE, 1)]).d.setSoft (Pg.INTR / 0x1000) true }
    let page : BitVec 10 := BitVec.ofNat 10 (Pg.INTR / 0x1000);
    s.d.softResetting page.toNat = true ∧ (∀ k, k < 24 → (s.d.sq k).winQ = [])) :=
  by refine ⟨?_, ?_, ?_⟩ <;> decide +kernel

/-- States and operands that meet the hypotheses of the clauses of `Obligations.SoftResetsAndParityFaults` (ParityFaults). -/
theorem witness_SoftResetsAndParityFaults_ParityFaults :
  (
    let s : State := withLock .host 0x043 (up [])
    let m : Master := .host
    let n : Lane := 3
    let page : BitVec 10 := 0x043
    let a : BitVec 22 := BitVec.ofNat 22 ((Pg.HOST 3) + HOST.HOST_CTRL)
    let k : Fin 32 := 0
    let p := 0x040 + n.val
    let b := Pg.HOST n
    let st := b + HDR.PAGE_STATUS;
    a.toNat / 0x1000 = p ∧ bitOf (configBits a.toNat) k = true ∧ s.d.pageOn p = true ∧ s.d.pageUpset p = false ∧ s.d.bit st 4 = false ∧ page.toNat = p ∧ AdmitsHeld s m st)
  ∧ (
    let s : State := withLock .host 0x043 (up1 (some (1, 3)) 0x18)
    let m : Master := .host
    let n : Lane := 3
    let page : BitVec 10 := 0x043
    let a : BitVec 22 := BitVec.ofNat 22 ((Pg.HOST 3) + HOST.HOST_CTRL)
    let x : Word := 1
    let w : Word := 3
    let p := 0x040 + n.val
    let b := Pg.HOST n
    let st := b + HDR.PAGE_STATUS;
    page.toNat = p ∧ AdmitsHeld s m st ∧ s.d.pageUpset p = true ∧ s.d.inSafe p = true ∧ s.d.bit (Pg.DEVICE + DEVICE.FAULT_CTRL) 1 = true ∧ a.toNat = b + s.d.fld (b + HDR.PARITY_ADDR) 0 12 ∧ s.d.bus.upset = [(a.toNat, some (x, w))] ∧ s.d.upsetOf a.toNat = some (x, w) ∧ a.toNat % 0x1000 ≠ HDR.PAGE_STATUS ∧ a.toNat % 0x1000 ≠ HDR.PARITY_ADDR)
  ∧ (
    let s : State := up [((Pg.HOST 3) + HDR.PAGE_STATUS,0x10)]
    let n : Lane := 3
    let a : BitVec 22 := BitVec.ofNat 22 ((Pg.HOST 3) + HOST.HOST_CTRL)
    let k : Fin 32 := 0
    let p := 0x040 + n.val
    let b := Pg.HOST n
    let st := b + HDR.PAGE_STATUS;
    a.toNat / 0x1000 = p ∧ bitOf (configBits a.toNat) k = true ∧ s.d.pageOn p = true ∧ s.d.pageUpset p = false ∧ s.d.bit st 4 = true) :=
  by refine ⟨?_, ?_, ?_⟩ <;> decide +kernel

end Sys2Proof.Tests.C00

/-! ### Chapter 03 -/

namespace Sys2Proof.Tests.C03

open Sys2Proof Sys2Proof.Machine Sys2Proof.Tests

set_option Elab.async false

def X (n : Nat) (l : List (Nat × Nat)) : State := up ([(Pg.SLICE (n/4) + SLICE.SLICE_CFG, 0xF1), (Pg.CLKRST + CLKRST.PLL_STATUS, 0x3FFFF)] ++ l)
def ls (n v : Nat) := (Pg.LRX n + LRX.LANE_STATE, v)
def rxl (n : Nat) (f : RxLane → RxLane) (s : State) : State := { s with d := s.d.setRxl n (f (s.d.rxl n)) }
def cdr (n v : Nat) := (Pg.LRX n + LRX.CDR_STATUS, v)
def al (n v : Nat) := (Pg.LFEC n + LFEC.ALIGN_STATUS, v)
def los (n v : Nat) := (Pg.LRX n + LRX.LOS_STATUS, v)
def ck (s : State) : State := rxl 3 (fun r => { r with ckpts := [s.d.ckptNow 3] }) s
def base (l : List (Nat × Nat)) := X 3 ([(Pg.LRX 3 + LRX.QUALITY, 0x20003000), (Pg.LRX 3 + LRX.LOS_CTRL, 0x2010)] ++ l)
def eye (ctrl grid st : Nat) := [(Pg.LRX 3 + LRX.EYE_CTRL, ctrl), (Pg.LRX 3 + LRX.EYE_GRID, grid), (Pg.LRX 3 + LRX.EYE_STATUS, st)]

/-- States and operands that meet the hypotheses of the clauses of `Obligations.LaneStates` (LaneBringUp). -/
theorem witness_LaneStates_LaneBringUp :
  (
    let s : State := X 3 [ls 3 1]
    let m : Master := .host
    let n : Lane := 3
    let at_ (k : Nat) : Prop := s.d.rxState n = k
    let ready : Prop := s.d.laneWaits n = false;
    Admits s m (Pg.LRX n + LRX.LANE_CTRL) ∧ ¬ at_ 7 ∧ ¬ at_ 0 ∧ at_ 1 ∧ ready ∧ (s.d.assisted Pg.CAL = true → s.d.calValidA n = true) ∧ ((s.d.rxl n).warmCal = false ∨ s.d.eligible n = none))
  ∧ (
    let s : State := X 3 [ls 3 2, cdr 3 1, al 3 4,los 3 0]
    let n : Lane := 3
    let at_ (k : Nat) : Prop := s.d.rxState n = k
    let ready : Prop := s.d.laneWaits n = false
    let stays : Prop := s.d.lossOfSignal n = false ∧ s.d.lpllLock (n / 4) = true
    let r := (s.d.rxl n).retries - 1;
    at_ 2 ∧ ready ∧ s.d.lossOfSignal n = false ∧ (s.d.rxl n).retries = r + 1 ∧ s.d.bit (Pg.LRX n + LRX.CDR_STATUS) 0 = true ∧ s.d.alignBit n 2 = true ∧ stays)
  ∧ (
    let s : State := X 3 []
    let m : Master := .host
    let n : Lane := 3
    let at_ (k : Nat) : Prop := s.d.rxState n = k;
    Admits s m (Pg.LRX n + LRX.LANE_CTRL) ∧ at_ 0 ∧ s.d.lineHeld n = false ∧ s.d.lpllLock (n / 4) = true)
  ∧ (
    let s : State := X 3 [ls 3 2, cdr 3 1, al 3 4,los 3 1]
    let n : Lane := 3
    let at_ (k : Nat) : Prop := s.d.rxState n = k
    let ready : Prop := s.d.laneWaits n = false
    let stays : Prop := s.d.lossOfSignal n = false ∧ s.d.lpllLock (n / 4) = true;
    at_ 2 ∧ ready ∧ s.d.bit (Pg.LRX n + LRX.CDR_STATUS) 0 = true ∧ s.d.alignBit n 2 = true ∧ ¬ stays)
  ∧ (
    let s : State := ck (rxl 3 (fun r => { r with warmCal := true }) (X 3 [ls 3 1]))
    let n : Lane := 3
    let at_ (k : Nat) : Prop := s.d.rxState n = k
    let ready : Prop := s.d.laneWaits n = false;
    at_ 1 ∧ ready ∧ (s.d.assisted Pg.CAL = true → s.d.calValidA n = true) ∧ (s.d.rxl n).warmCal = true ∧ s.d.eligible n ≠ none)
  ∧ (
    let s : State := rxl 3 (fun r => { r with retries := 0 }) (X 3 [ls 3 2,los 3 0])
    let n : Lane := 3
    let at_ (k : Nat) : Prop := s.d.rxState n = k
    let ready : Prop := s.d.laneWaits n = false;
    at_ 2 ∧ ready ∧ s.d.lossOfSignal n = false ∧ (s.d.rxl n).retries = 0) :=
  by refine ⟨?_, ?_, ?_, ?_, ?_, ?_⟩ <;> decide +kernel

/-- States and operands that meet the hypotheses of the clauses of `Obligations.LaneStates` (LaneHoldAndWarmRestart). -/
theorem witness_LaneStates_LaneHoldAndWarmRestart :
  (
    let s : State := ck (base [ls 3 5])
    let n : Lane := 3
    let at_ (k : Nat) : Prop := s.d.rxState n = k
    let amp : BitVec 12 := if s.d.lossOfSignal n then 0x061 else 0x01F;
    at_ 5 ∧ ¬ at_ 0 ∧ s.d.lossOfSignal n = true ∧ 2 * s.d.fld (Pg.LRX n + LRX.LOS_CTRL) 8 8 < amp.toNat ∧ ¬ at_ 4 ∧ s.d.bit (Pg.LRX n + LRX.CDR_STATUS) 0 = false)
  ∧ (
    let s : State := base [ls 3 4, los 3 0, al 3 4]
    let n : Lane := 3
    let at_ (k : Nat) : Prop := s.d.rxState n = k
    let amp : BitVec 12 := if s.d.lossOfSignal n then 0x061 else 0x01F;
    at_ 4 ∧ (s.d.rxl n).holdOver = false ∧ s.d.lossOfSignal n = false ∧ s.d.lpllLock (n / 4) = true ∧ s.d.alignBit n 2 = true ∧ ¬ at_ 0 ∧ amp.toNat < 2 * s.d.fld (Pg.LRX n + LRX.LOS_CTRL) 0 8)
  ∧ (
    let s : State := base [ls 3 5, los 3 0, cdr 3 1, al 3 4]
    let n : Lane := 3
    let at_ (k : Nat) : Prop := s.d.rxState n = k
    let locked : Prop := s.d.bit (Pg.LRX n + LRX.CDR_STATUS) 0 = true ∧ s.d.alignBit n 2 = true;
    at_ 5 ∧ s.d.stateUs n ≤ 250 ∧ locked ∧ ¬ at_ 0 ∧ s.d.bit (Pg.LRX n + LRX.CDR_STATUS) 0 = true)
  ∧ (
    let s : State := base [ls 3 4, los 3 1]
    let n : Lane := 3
    let at_ (k : Nat) : Prop := s.d.rxState n = k;
    at_ 4 ∧ (s.d.rxl n).holdOver = false ∧ s.d.lossOfSignal n = true)
  ∧ (
    let s : State := rxl 3 (fun r => { r with holdOver := true}) (base [ls 3 4, los 3 1, cdr 3 0])
    let n : Lane := 3
    let at_ (k : Nat) : Prop := s.d.rxState n = k
    let amp : BitVec 12 := if s.d.lossOfSignal n then 0x061 else 0x01F;
    ¬ at_ 0 ∧ s.d.lossOfSignal n = true ∧ 2 * s.d.fld (Pg.LRX n + LRX.LOS_CTRL) 8 8 < amp.toNat ∧ at_ 4 ∧ (s.d.rxl n).holdOver = true) :=
  by refine ⟨?_, ?_, ?_, ?_, ?_⟩ <;> decide +kernel

/-- States and operands that meet the hypotheses of the clauses of `Obligations.LaneCommands`. -/
theorem witness_LaneCommands :
  (
    let s : State := ck (base [ls 3 (0 + 0x80000), los 3 0])
    let m : Master := .laneSeq 3
    let n : Lane := 3
    let st := s.d.rxState n;
    Admits s m (Pg.LRX n + LRX.LANE_CMD) ∧ st ≠ 6 ∧ (st < 2 ∨ 4 < st) ∧ st ≠ 3 ∧ s.d.holder (0x010 + n) = 0 ∧ s.d.bit (Pg.LRX n + LRX.LANE_STATE) 19 = true)
  ∧ (
    let s : State := withLock .host 0x013 (ck (base [ls 3 (3 + 0x80000), los 3 0]))
    let m : Master := .host
    let n : Lane := 3
    let st := s.d.rxState n;
    Admits s m (Pg.LRX n + LRX.LANE_CMD) ∧ 2 ≤ st ∧ st ≤ 4 ∧ st = 3 ∧ s.d.holder (0x010 + n) = masterId m)
  ∧ (
    let s : State := base [ls 3 6]
    let m : Master := .host
    let n : Lane := 3
    let st := s.d.rxState n;
    Admits s m (Pg.LRX n + LRX.LANE_CMD) ∧ st = 6) :=
  by refine ⟨?_, ?_, ?_⟩ <;> decide +kernel

/-- States and operands that meet the hypotheses of the clauses of `Obligations.LaneCheckpointsAndReports` (LaneCheckpoints). -/
theorem witness_LaneCheckpointsAndReports_LaneCheckpoints :
  (
    let s : State := rxl 3 (fun r => {r with tracked := true}) (base [ls 3 3,(Pg.LRX 3 + LRX.CKPT_CTRL, 0x10000010)])
    let m : Master := .host
    let n : Lane := 3
    let b := Pg.LRX n
    let good : Prop := ((s.d.rxl n).tracked = true ∨ (s.d.rxl n).since + 1000000 ≤ s.d.mono) ∧ s.d.fld (b + LRX.CKPT_CTRL) 16 16 ≤ s.d.fld (b + LRX.QUALITY) 0 16;
    s.d.rxState n = 3 ∧ s.d.laneWaits n = false ∧ Admits s m (b + LRX.LANE_CMD) ∧ good ∧ s.d.fld (b + LRX.CKPT_CTRL) 0 16 ≠ 0 ∧ (s.d.rxl n).unsettled = false)
  ∧ (
    let s : State := rxl 3 (fun r => {r with tracked := true, unsettled := true}) (base [ls 3 3,(Pg.LRX 3 + LRX.CKPT_CTRL, 0x10000010)])
    let n : Lane := 3
    let b := Pg.LRX n;
    s.d.rxState n = 3 ∧ s.d.laneWaits n = false ∧ s.d.fld (b + LRX.CKPT_CTRL) 0 16 ≠ 0 ∧ (s.d.rxl n).unsettled = true) :=
  by refine ⟨?_, ?_⟩ <;> decide +kernel

/-- States and operands that meet the hypotheses of the clauses of `Obligations.LaneCheckpointsAndReports` (LaneReports). -/
theorem witness_LaneCheckpointsAndReports_LaneReports :
  (
    let s : State := base ([ls 3 3] ++ eye 0x01010A00 0x0203 1)
    let m : Master := .host
    let n : Lane := 3
    let b := Pg.LRX n
    let j := s.d.fld (b + LRX.EYE_STATUS) 16 11;
    s.d.rxState n = 3 ∧ s.d.bit (b + LRX.AGC_CTRL) 16 = false ∧ Admits s m (b + LRX.EYE_CMD) ∧ (s.d.rxState n ≠ 3 ∨ s.d.bit (b + LRX.EYE_STATUS) 0 = true) ∧ s.d.bit (b + LRX.EYE_STATUS) 0 = true ∧ s.d.fld (b + LRX.EYE_STATUS) 16 11 = j ∧ j < 1024)
  ∧ (
    let s : State := base ([ls 3 3] ++ eye 0x01010A00 0x0203 0)
    let m : Master := .host
    let n : Lane := 3
    let b := Pg.LRX n;
    Admits s m (b + LRX.EYE_CMD) ∧ s.d.eyeBad (b + LRX.EYE_CTRL) = false ∧ s.d.rxState n = 3 ∧ s.d.bit (b + LRX.EYE_STATUS) 0 = false ∧ s.d.fld (b + LRX.EYE_GRID) 0 6 ≠ 0 ∧ s.d.fld (b + LRX.EYE_GRID) 8 6 ≠ 0)
  ∧ (
    let s : State := base ([ls 3 3] ++ eye 0xFFFFFFFF 0x0203 0)
    let m : Master := .host
    let n : Lane := 3
    let b := Pg.LRX n;
    Admits s m (b + LRX.EYE_CMD) ∧ s.d.rxState n = 3 ∧ s.d.bit (b + LRX.EYE_STATUS) 0 = false ∧ s.d.eyeBad (b + LRX.EYE_CTRL) = true)
  ∧ (
    let s : State := base ([ls 3 3,(Pg.LRX 3 + LRX.AGC_CTRL, 0x10000), (Pg.LRX 3 + HDR.PAGE_CTRL, 3)] ++ eye 0x01010A00 0x0203 0x40001)
    let n : Lane := 3
    let b := Pg.LRX n;
    s.d.rxState n = 3 ∧ s.d.bit (b + LRX.AGC_CTRL) 16 = true) :=
  by refine ⟨?_, ?_, ?_, ?_⟩ <;> decide +kernel

end Sys2Proof.Tests.C03

/-! ### Chapter 04 -/

namespace Sys2Proof.Tests.C04

open Sys2Proof Sys2Proof.Machine Sys2Proof.Tests

set_option Elab.async false

def X (n : Nat) (l : List (Nat × Nat)) : State := up ([(Pg.SLICE (n/4) + SLICE.SLICE_CFG, 0xF1), (Pg.CLKRST + CLKRST.PLL_STATUS, 0x3FFFF)] ++ l)
def ls (n v : Nat) := (Pg.LRX n + LRX.LANE_STATE, v)
def rxl (n : Nat) (f : RxLane → RxLane) (s : State) : State := { s with d := s.d.setRxl n (f (s.d.rxl n)) }
def al (n v : Nat) := (Pg.LFEC n + LFEC.ALIGN_STATUS, v)
def L200 (l : List (Nat × Nat)) : State := up ([(Pg.SLICE 0 + SLICE.SLICE_CFG, 0xF0),(Pg.CLKRST + CLKRST.PLL_STATUS, 0x3FFFF)] ++ l)
def dg (st clr acc win : Nat) (s : State) : State := rxl 3 (fun r => { r with degSet := st, degClr := clr, winCw := win, degWin := win }) (onD (fun d => d.wr (Pg.LFEC 3 + LFEC.DEG_ACC) (BitVec.ofNat 32 acc)) s)
def bad (w : Nat) : List (BitVec 480) := (List.range w).map (fun i => BitVec.ofNat 480 ((i * 7919 + 13) ^ 37))
def gs (l : List (BitVec 480)) (s : State) : State := rxl 3 (fun r => { r with groups := l, cwNo := 7, degWin := 100 }) s
def cf (n b : Nat) := rxl 3 (fun r => { r with confN := n, confBad := b })
def P2 (l : List (Nat × Nat)) : State := up ([(Pg.SLICE 0 + SLICE.SLICE_CFG, 0x3F1),(Pg.CLKRST + CLKRST.PLL_STATUS, 0x3FFFF)] ++ l)
def amx (i v : Nat) (s : State) : State := rxl i (fun r => { r with amAt := some v }) s

/-- States and operands that meet the hypotheses of the clauses of `Obligations.LineDecoding` (DecoderCounts). -/
theorem witness_LineDecoding_DecoderCounts :
  (
    let s : State := gs (bad 68) (X 3 [ls 3 3, al 3 3])
    let n : Lane := 3
    let line := []
    let r : BitVec 128 := 0;
    s.d.l453 (n / 4) = true ∧ s.d.alignBit n 0 = true ∧ innerSyndrome (onesOf r) = (0, 0) ∧ s.d.rxState n ≠ 0 ∧ s.d.alignBit n 1 = true ∧ (s.d.nextCodeword n line).isSome = true)
  ∧ (
    let s : State := L200 [ls 3 4, al 3 3]
    let n : Lane := 3
    let line := [];
    s.d.nextCodeword n line = none) :=
  by refine ⟨?_, ?_⟩ <;> decide +kernel

/-- States and operands that meet the hypotheses of the clauses of `Obligations.LineDecoding` (LaneAlignment). -/
theorem witness_LineDecoding_LaneAlignment :
  (
    let s : State := rxl 3 (fun r => {r with predict := true, recent := List.replicate 64 true, grpFails := [0,8,0,0]}) (X 3 [ls 3 3, al 3 0x1F,(Pg.LFEC 3 + LFEC.ALIGN_CTRL, 0x00100003)])
    let n : Lane := 3
    let lf := true
    let rf := false
    let x := s.d.rxl n
    let peer : Nat := 100;
    s.d.alignBit n 2 = true ∧ x.predict = true ∧ s.d.l453 (n / 4) = true ∧ (∃ k ∈ x.grpFails, 8 ≤ k) ∧ s.d.rxState n = 3 ∧ 48 ≤ (x.recent.filter id).length ∧ (s.d.alignBit n 8 ≠ lf ∨ s.d.alignBit n 9 ≠ rf) ∧ s.d.alignBit n 3 = true
      ∧ (let arrival : Nat := 100;
       let ordered : Bool := false;
       let off := ((arrival : Int) - s.d.predicted n arrival peer).natAbs;
       s.d.alignBit n 2 = true ∧ x.predict = true ∧ (4 < off ∨ ordered = false ∧ s.d.l453 (n / 4) = false))
      ∧ (let arrival : Nat := (s.d.predicted n 100 100).toNat;
       let ordered : Bool := true;
       let off := ((arrival : Int) - s.d.predicted n arrival peer).natAbs;
       s.d.alignBit n 2 = true ∧ x.predict = true ∧ off ≤ 4 ∧ (ordered = true ∨ s.d.l453 (n / 4) = true)))
  ∧ (
    let s : State := amx 2 5 (P2 [ls 3 2, al 3 2])
    let n : Lane := 3
    let up : Prop := s.d.rxState n ≠ 0
    let lanes := s.d.lpLanes (s.d.linePort n)
    let marked (i : Nat) (at_ : Nat) : Prop := (s.d.rxl i).amAt = some at_;
    up ∧ s.d.l453 (n / 4) = true ∧ s.d.alignBit n 0 = false
      ∧ (let arrival : Nat := 100;
       let e : Nat := (lanes.filterMap (fun i => (s.d.rxl i).amAt)).foldl min arrival;
       up ∧ s.d.alignBit n 3 = false ∧ s.d.alignBit n 1 = true ∧ n.val ∈ lanes ∧ (∀ i ∈ lanes, i ≠ n → ∀ y, (s.d.rxl i).amAt = some y → min e arrival ≤ y) ∧ (e < arrival → ∃ i ∈ lanes, i ≠ n ∧ marked i e) ∧ s.d.tooLate n (arrival - e) = false)
      ∧ (let arrival : Nat := 50000;
       let e : Nat := (lanes.filterMap (fun i => (s.d.rxl i).amAt)).foldl min arrival;
       up ∧ s.d.alignBit n 3 = false ∧ s.d.alignBit n 1 = true ∧ n.val ∈ lanes ∧ (∀ i ∈ lanes, i ≠ n → ∀ y, (s.d.rxl i).amAt = some y → min e arrival ≤ y) ∧ (e < arrival → ∃ i ∈ lanes, i ≠ n ∧ marked i e) ∧ s.d.tooLate n (arrival - e) = true))
  ∧ (
    let s : State := gs (List.replicate 135 0) (X 3 [ls 3 2, al 3 1])
    let n : Lane := 3
    let x := s.d.rxl n
    let up : Prop := s.d.rxState n ≠ 0;
    up ∧ s.d.l453 (n / 4) = true ∧ s.d.alignBit n 0 = true ∧ s.d.alignBit n 1 = false ∧ 135 ≤ x.groups.length)
  ∧ (
    let s : State := L200 [ls 3 2, al 3 0,(Pg.LFEC 3 + LFEC.ALIGN_CTRL, 0x00100003)]
    let n : Lane := 3
    let up : Prop := s.d.rxState n ≠ 0
    let line := [List.replicate 5441 0];
    up ∧ s.d.l453 (n / 4) = false ∧ s.d.alignBit n 1 = false ∧ (s.d.linePair n line).isSome = true)
  ∧ (
    let s : State := cf 16 1 (X 3 [ls 3 2, al 3 3,(Pg.LFEC 3 + LFEC.ALIGN_CTRL, 0x00100003)])
    let n : Lane := 3
    let b := Pg.LFEC n
    let x := s.d.rxl n
    let up : Prop := s.d.rxState n ≠ 0
    let len := s.d.fld (b + LFEC.ALIGN_CTRL) 16 16;
    up ∧ s.d.alignBit n 1 = true ∧ x.confirmed = false ∧ len ≤ x.confN ∧ 8 * x.confBad < len ∧ s.d.alignBit n 2 = false ∧ s.d.lpWidth (s.d.linePort n) = 1 ∧ s.d.l453 (n / 4) = true)
  ∧ (
    let s : State := cf 16 2 (X 3 [ls 3 2, al 3 3,(Pg.LFEC 3 + LFEC.ALIGN_CTRL, 0x00100003)])
    let n : Lane := 3
    let b := Pg.LFEC n
    let x := s.d.rxl n
    let up : Prop := s.d.rxState n ≠ 0
    let len := s.d.fld (b + LFEC.ALIGN_CTRL) 16 16;
    up ∧ s.d.alignBit n 1 = true ∧ x.confirmed = false ∧ len ≤ x.confN ∧ len ≤ 8 * x.confBad) :=
  by refine ⟨?_, ?_, ?_, ?_, ?_, ?_⟩ <;> decide +kernel

/-- States and operands that meet the hypotheses of the clauses of `Obligations.LineDecoding` (LaneDegrade). -/
theorem witness_LineDecoding_LaneDegrade :
  (
    let s : State := dg 5 3 5 100 (X 3 [ls 3 3, al 3 0x1F])
    let m : Master := .host
    let n : Lane := 3
    let b := Pg.LFEC n
    let x := s.d.rxl n
    let acc := (s.d.rd (b + LFEC.DEG_ACC)).toNat
    let on : Prop := s.d.rxState n = 3 ∧ 0 < x.degWin ∧ x.winCw = x.degWin;
    on ∧ s.d.alignBit n 5 = false ∧ x.degSet ≤ acc ∧ s.d.assisted b = false ∧ s.d.portHeld (s.d.linePort n) = false ∧ x.degBack = none ∧ Admits s m (b + LFEC.DEG_CMD) ∧ s.d.alignBit n 7 = false)
  ∧ (
    let s : State := dg 5 3 2 100 (X 3 [ls 3 3, al 3 0x3F])
    let n : Lane := 3
    let b := Pg.LFEC n
    let x := s.d.rxl n
    let acc := (s.d.rd (b + LFEC.DEG_ACC)).toNat
    let on : Prop := s.d.rxState n = 3 ∧ 0 < x.degWin ∧ x.winCw = x.degWin;
    on ∧ s.d.alignBit n 5 = true ∧ acc < x.degClr)
  ∧ (
    let s : State := dg 5 3 5 100 (X 3 [ls 3 3, al 3 0x1F, (Pg.LFEC 3 + HDR.PAGE_CTRL, 3)])
    let n : Lane := 3
    let b := Pg.LFEC n
    let x := s.d.rxl n
    let acc := (s.d.rd (b + LFEC.DEG_ACC)).toNat
    let on : Prop := s.d.rxState n = 3 ∧ 0 < x.degWin ∧ x.winCw = x.degWin;
    on ∧ s.d.alignBit n 5 = false ∧ x.degSet ≤ acc ∧ s.d.assisted b = true) :=
  by refine ⟨?_, ?_, ?_⟩ <;> decide +kernel

end Sys2Proof.Tests.C04

/-! ### Chapter 05 -/

namespace Sys2Proof.Tests.C05

open Sys2Proof Sys2Proof.Machine Sys2Proof.Tests

set_option Elab.async false

def X (n : Nat) (l : List (Nat × Nat)) : State := up ([(Pg.SLICE (n/4) + SLICE.SLICE_CFG, 0xF1), (Pg.CLKRST + CLKRST.PLL_STATUS, 0x3FFFF), (Pg.LRX n + LRX.LANE_STATE, 3)] ++ l)
def win : List Byte := [0,1,2,3,4,5, 6,7,8,9,10,11, 8,0, 0x45,0,0,84, 0,1,0,0, 64,17,0,0, 10,0,0,1, 10,0,0,2, 0x12,0x34,0x56,0x78, 0,64,0,0] ++ List.replicate 60 7
def s1 := runs [.headerWindowComplete 3 win 100 5] (X 3 [(Pg.CLS + CLS.PORT_KEY + 12, 0)])
def d1 : BitVec 40 := s1.d.digestOf (buildKey (parse win 0 (s1.d.fld (Pg.CLS + CLS.CLS_CTRL) 16 16)) 3 0)
def withE (d : BitVec 40) (fl pr age : Nat) (s : State) := onD (fun t => {t with cls := {t.cls with table := Sparse.put (fun _ => 0) t.cls.table (bucketA d + 2) (mkEnt d fl pr age)}}) s
def sHit := runs [.classifierLookup 3 false [] []] (withE d1 77 3 4 s1)
def res (f : Nat) (s : State) := onD (fun t => (t.cacheUse f).1) s
def tok (f : Nat) (tc te : Nat) (s : State) := onD (fun t => t.setFlowRec f (((((t.flowRec f).set Rec.TC tc).set Rec.TE te).set Rec.BURST_C 0x400).set Rec.BURST_E 0x800)) s
def prof (n : Nat) (l : List Nat) (s : State) := onD (fun t => {t with cls := {t.cls with profiles := l.zipIdx.foldl (fun q (v, i) => Sparse.put (fun _ => 0) q (8*n+i) (BitVec.ofNat 32 v)) t.cls.profiles}}) s
def keyOK (f : Nat) (s : State) := onD (fun t => match t.packets 3 with | x :: _ => (match x.lookup with | some l => ({t with flow := {t.flow with keys := Sparse.put (fun _ => KeyRec.init) t.flow.keys f { key := l.key, valid := true, digest := l.digest }}}) | none => t) | [] => t) s
def metered (mode : Nat) : State := runs [.headerWindowComplete 3 win 100 5, .classifierLookup 3 false [] []] (withE d1 77 3 4 (prof 3 [0x10000003, 0x20000001, 0x30000000 + mode, 0x40000013] (X 3 [])))
def met2 (mode tc te : Nat) := res 77 (tok 77 tc te (keyOK 77 (metered mode)))
def quiet (s : State) : State := onD (fun d => {d with buf := {d.buf with hbm := []}}) s
def upk (f : Packet → Packet) (s : State) : State := onD (fun t => t.setPackets 3 ((t.packets 3).map f)) s
def sRef := runs [.headerWindowComplete 3 win 100 12345] (X 3 [(Pg.SLICE 0 + HDR.PAGE_STATUS, 8)])
def sSF := runs [.headerWindowComplete 3 win 100 5, .classifierLookup 3 false [] []] (X 3 [(Pg.FLOW + FLOW.JOURNAL_CTRL, 0)])
def swapL (l : Lookup) (c : Decision) (s : State) := onD (fun t => t.setPackets 3 ((t.packets 3).map (fun x => {x with lookup := some l, decided := some c}))) s
def onlyL (l : Lookup) (s : State) := onD (fun t => t.setPackets 3 ((t.packets 3).map (fun x => {x with lookup := some l}))) s
def good (s : State) := onD (fun t => t.setPackets 3 ((t.packets 3).map (fun x => {x with last := some lb0}))) s
def fbs (ent ex hold wn fbw st pc : Nat) : State := up [(Pg.ADMIT 0 + ADMIT.FB_ENTER, ent), (Pg.ADMIT 0 + ADMIT.FB_EXIT, ex), (Pg.ADMIT 0 + ADMIT.FB_HOLD, hold), (Pg.ADMIT 0 + ADMIT.FB_WINDOW, wn), (Dev.adBase 3 + ADMIT.FB_WIN, fbw), (Pg.ADMIT 0 + ADMIT.FB_STATUS, st), (Pg.ADMIT 0 + HDR.PAGE_CTRL, pc), (Pg.ADMIT 0 + 0x104, 99)]
def lrn : Learn := ⟨[1,2,3,4], 0x123456789, 3, true⟩
def lr (s : State) (fifo : List Nat) (l : Learn) := onD (fun t => {t with cls := {t.cls with learns := [{l with ready := false, digest := 5}, l], fifo := fifo, cursor := 10, cursorEnd := 20}}) s
def keyb : List Byte := [1] ++ List.replicate 19 9
def dsc (op place len flow prof : Nat) (stat : Bool) : List Byte := bytesLE 4 (0x1234 + len * 2^16 + place * 2^24 + op * 2^28) ++ bytesLE 4 flow ++ bytesLE 4 (prof + if stat then 2^31 else 0) ++ bytesLE 4 0 ++ keyb ++ List.replicate 28 0
def kd : BitVec 40 := (X 3 []).d.digestOf keyb
def job (b : List Byte) (s : State) := onD (fun t => {t with cls := {t.cls with updates := [⟨.go, b, []⟩, ⟨.stage 3 true, b, []⟩]}}) s
def stg (f : Nat) (l : List (Nat × Word)) (s : State) := onD (fun t => {t with flow := {t.flow with staged := l.foldl (fun q (w,v) => Sparse.put (fun _ => none) q (Dev.recStageKey .host w) (some v)) [], stagedFor := [((masterId .host).toNat, some f)]}}) s

/-- States and operands that meet the hypotheses of the clauses of `Obligations.PacketAdmissionAndLookups` (PacketAdmission). -/
theorem witness_PacketAdmissionAndLookups_PacketAdmission :
  (
    let s : State := up []
    let p : Lane := 3
    let window : List Byte := win
    let control : Prop := natBE (window.take 6) = 0x0180C2000001 ∧ natBE (slice window 12 2) = 0x8808;
    (s.d.receives p = false ∨ control))
  ∧ (
    let s : State := X 3 []
    let p : Lane := 3
    let window : List Byte := win
    let control : Prop := natBE (window.take 6) = 0x0180C2000001 ∧ natBE (slice window 12 2) = 0x8808;
    s.d.receives p = true ∧ ¬ control ∧ s.d.lineSafe p = false ∧ s.d.guarded = false ∧ s.d.fallback p = false ∧ s.d.slotsUsed p < s.d.slotPool p)
  ∧ (
    let s : State := X 3 [(Pg.FLOW + FLOW.JOURNAL_CTRL, 0)]
    let p : Lane := 3
    let window : List Byte := win
    let control : Prop := natBE (window.take 6) = 0x0180C2000001 ∧ natBE (slice window 12 2) = 0x8808;
    s.d.receives p = true ∧ ¬ control ∧ s.d.lineSafe p = false ∧ s.d.guarded = false ∧ s.d.fallback p = false ∧ s.d.slotPool p ≤ s.d.slotsUsed p)
  ∧ (
    let s : State := onD (fun d => (d.setFb 3 0 true)) (X 3 [])
    let p : Lane := 3
    let window : List Byte := win
    let control : Prop := natBE (window.take 6) = 0x0180C2000001 ∧ natBE (slice window 12 2) = 0x8808;
    s.d.receives p = true ∧ ¬ control ∧ s.d.lineSafe p = false ∧ s.d.guarded = false ∧ s.d.fallback p = true)
  ∧ (
    let s : State := X 3 [(Pg.HOST 3 + HOST.TS_ADJ, 0xFFF0), (Pg.SLICE 0 + HDR.PAGE_STATUS, 8)]
    let p : Lane := 3
    let window : List Byte := win
    let control : Prop := natBE (window.take 6) = 0x0180C2000001 ∧ natBE (slice window 12 2) = 0x8808;
    s.d.receives p = true ∧ ¬ control ∧ s.d.lineSafe p = true)
  ∧ (
    let s : State := onD (fun d => {d with buf := {d.buf with hbm := [(0, { Stack4.init with inflight := List.replicate 20 ⟨.testPages,0,0,0,64,false⟩})]}}) (X 3 [(Pg.BUF + BUF.HBM_GUARD, 10)])
    let p : Lane := 3
    let window : List Byte := win
    let control : Prop := natBE (window.take 6) = 0x0180C2000001 ∧ natBE (slice window 12 2) = 0x8808;
    s.d.receives p = true ∧ ¬ control ∧ s.d.lineSafe p = false ∧ s.d.guarded = true) :=
  by refine ⟨?_, ?_, ?_, ?_, ?_, ?_⟩ <;> decide +kernel

/-- States and operands that meet the hypotheses of the clauses of `Obligations.PacketAdmissionAndLookups` (PacketLookups). -/
theorem witness_PacketAdmissionAndLookups_PacketLookups :
  (
    let s : State := s1
    let p : Lane := 3
    let pre : List Packet := []
    let post : List Packet := (s.d.packets 3).tail
    let x : Packet := (s.d.packets 3).headD pk0
    let cfg := s.d.rd (Pg.CLS + CLS.PORT_KEY + 4 * p.val)
    let parsed := parse x.window (fieldOf cfg 0 2) (s.d.fld (Pg.CLS + CLS.CLS_CTRL) 16 16)
    let key := buildKey parsed p cfg
    let d := s.d.digestOf key
    let serves : Prop := s.d.indexOff (bucketA d) = false ∧ s.d.indexOff (bucketB d) = false;
    Leads (fun y => y.admitted && y.lookup.isNone) pre x post (s.d.packets p) ∧ serves ∧ s.d.findEnt d = none ∧ x.last = none)
  ∧ (
    let s : State := withE d1 77 3 4 s1
    let p : Lane := 3
    let pre : List Packet := []
    let post : List Packet := (s.d.packets 3).tail
    let x : Packet := (s.d.packets 3).headD pk0
    let cfg := s.d.rd (Pg.CLS + CLS.PORT_KEY + 4 * p.val)
    let parsed := parse x.window (fieldOf cfg 0 2) (s.d.fld (Pg.CLS + CLS.CLS_CTRL) 16 16)
    let key := buildKey parsed p cfg
    let d := s.d.digestOf key
    let serves : Prop := s.d.indexOff (bucketA d) = false ∧ s.d.indexOff (bucketB d) = false;
    Leads (fun y => y.admitted && y.lookup.isNone) pre x post (s.d.packets p) ∧ serves ∧ (s.d.findEnt d).isSome = true)
  ∧ (
    let s : State := runs [.packetLastByte 3 [] [] 0] s1
    let p : Lane := 3
    let pre : List Packet := []
    let post : List Packet := (s.d.packets 3).tail
    let x : Packet := (s.d.packets 3).headD pk0;
    Leads (fun y => y.admitted && y.lookup.isNone) pre x post (s.d.packets p) ∧ x.last ≠ none) :=
  by refine ⟨?_, ?_, ?_⟩ <;> decide +kernel

/-- States and operands that meet the hypotheses of the clauses of `Obligations.MeterDecisionsAndVerdicts` (MeterDecisions). -/
theorem witness_MeterDecisionsAndVerdicts_MeterDecisions :
  (
    let s : State := quiet (met2 0 0 0)
    let p : Lane := 3
    let pre : List Packet := []
    let post : List Packet := (s.d.packets 3).tail
    let x : Packet := (s.d.packets 3).headD pk0
    let l : Lookup := (((s.d.packets 3).headD pk0).lookup).getD lk0
    let aliased : Bool := l.hit && !s.d.keyMatches l.flow l.key
    let needs := if aliased then [l.flow, l.defFlow] else [l.flow]
    let lost : Prop := x.unread = true ∨ ∃ g ∈ needs, s.d.relocating g = true;
    Leads (s.d.mayDecide p) pre x post (s.d.packets p) ∧ x.lookup = some l ∧ x.slot = true ∧ ¬ lost ∧ (∀ g ∈ needs, s.d.resident g = true))
  ∧ (
    let s : State := quiet (upk (fun x => {x with fetched := []}) sHit)
    let p : Lane := 3
    let pre : List Packet := []
    let post : List Packet := (s.d.packets 3).tail
    let x : Packet := (s.d.packets 3).headD pk0
    let l : Lookup := (((s.d.packets 3).headD pk0).lookup).getD lk0
    let aliased : Bool := l.hit && !s.d.keyMatches l.flow l.key
    let needs := if aliased then [l.flow, l.defFlow] else [l.flow]
    let lost : Prop := x.unread = true ∨ ∃ g ∈ needs, s.d.relocating g = true;
    Leads (s.d.mayDecide p) pre x post (s.d.packets p) ∧ x.lookup = some l ∧ x.slot = true ∧ ¬ lost ∧ s.d.resident l.flow = false ∧ l.flow ∉ x.fetched)
  ∧ (
    let s : State := quiet (upk (fun x => {x with unread := true}) sHit)
    let p : Lane := 3
    let pre : List Packet := []
    let post : List Packet := (s.d.packets 3).tail
    let x : Packet := (s.d.packets 3).headD pk0
    let l : Lookup := (((s.d.packets 3).headD pk0).lookup).getD lk0
    let aliased : Bool := l.hit && !s.d.keyMatches l.flow l.key
    let needs := if aliased then [l.flow, l.defFlow] else [l.flow]
    let lost : Prop := x.unread = true ∨ ∃ g ∈ needs, s.d.relocating g = true;
    Leads (s.d.mayDecide p) pre x post (s.d.packets p) ∧ x.lookup = some l ∧ x.slot = true ∧ lost) :=
  by refine ⟨?_, ?_, ?_⟩ <;> decide +kernel

/-- States and operands that meet the hypotheses of the clauses of `Obligations.MeterDecisionsAndVerdicts` (PacketVerdicts). -/
theorem witness_MeterDecisionsAndVerdicts_PacketVerdicts :
  (
    let s : State := good (swapL lk0 dec0 sHit)
    let p : Lane := 3
    let pre : List Packet := []
    let post : List Packet := (s.d.packets 3).tail
    let x : Packet := (s.d.packets 3).headD pk0
    let c := x.decided.getD dec0;
    Leads Packet.admitted pre x post (s.d.packets p) ∧ (x.last).isSome = true ∧ x.cause = none ∧ (x.lookup).isSome = true ∧ x.decided = some c ∧ (s.d.setLines (Dev.cacheSet c.flow)).length ≤ 8 ∧ (s.d.setLines (Dev.cacheSet c.hitFlow)).length ≤ 8 ∧ c.unread = false ∧ c.aliased = false ∧ c.countFlow = true)
  ∧ (
    let s : State := s1
    let p : Lane := 3
    let pre : List Packet := []
    let post : List Packet := (s.d.packets 3).tail
    let x : Packet := (s.d.packets 3).headD pk0;
    Leads (fun y => y.last.isNone) pre x post (s.d.packets p) ∧ x.refused = none ∧ x.slot = true)
  ∧ (
    let s : State := sSF
    let p : Lane := 3
    let pre : List Packet := []
    let post : List Packet := (s.d.packets 3).tail
    let x : Packet := (s.d.packets 3).headD pk0
    let spans := [⟨3, 0, 0⟩]
    let bad := s.d.badLanes spans;
    Leads (fun y => y.last.isNone) pre x post (s.d.packets p) ∧ x.refused = none ∧ x.slot = false ∧ pre = [] ∧ x.lookup ≠ none ∧ bad ≠ [])
  ∧ (
    let s : State := sRef
    let p : Lane := 3
    let pre : List Packet := []
    let post : List Packet := (s.d.packets 3).tail
    let x : Packet := (s.d.packets 3).headD pk0
    let r := x.refused.getD 0;
    Leads (fun y => y.last.isNone) pre x post (s.d.packets p) ∧ r < 10 ∧ x.refused = some r)
  ∧ (
    let s : State := good (onlyL lk0 sHit)
    let p : Lane := 3
    let pre : List Packet := []
    let post : List Packet := (s.d.packets 3).tail
    let x : Packet := (s.d.packets 3).headD pk0;
    Leads Packet.admitted pre x post (s.d.packets p) ∧ x.last ≠ none ∧ x.decided = none ∧ x.cause = none ∧ (x.lookup).isSome = true)
  ∧ (
    let s : State := onD (fun t => t.setPackets 3 ((t.packets 3).map (fun x => {x with last := some ⟨[],true,false⟩}))) (onlyL lk0 sHit)
    let p : Lane := 3
    let pre : List Packet := []
    let post : List Packet := (s.d.packets 3).tail
    let x : Packet := (s.d.packets 3).headD pk0;
    Leads Packet.admitted pre x post (s.d.packets p) ∧ (x.cause).isSome = true ∧ (x.lookup).isSome = true) :=
  by refine ⟨?_, ?_, ?_, ?_, ?_, ?_⟩ <;> decide +kernel

/-- States and operands that meet the hypotheses of the clauses of `Obligations.FallbackAndSnapshots`. -/
theorem witness_FallbackAndSnapshots :
  (
    let s : State := fbs 5 2 1 100 7 0 1
    let m : Master := .host
    let n : Lane := 3
    let i : Slice := 0
    let pg := Pg.ADMIT (n.val / 4)
    let bad := s.d.fld (Dev.adBase n + ADMIT.FB_WIN) 0 16
    let enter := s.d.fld (pg + ADMIT.FB_ENTER) 0 16;
    s.d.fld (pg + ADMIT.FB_WINDOW) 0 16 ≠ 0 ∧ s.d.fbBit n 0 = false ∧ enter ≠ 0 ∧ enter ≤ bad ∧ s.d.assisted pg = false ∧ Admits s m (pg + ADMIT.FB_CMD) ∧ Admits s m (Pg.ADMIT i + ADMIT.SNAP_CMD))
  ∧ (
    let s : State := fbs 5 2 1 100 7 0 3
    let n : Lane := 3
    let pg := Pg.ADMIT (n.val / 4)
    let bad := s.d.fld (Dev.adBase n + ADMIT.FB_WIN) 0 16
    let enter := s.d.fld (pg + ADMIT.FB_ENTER) 0 16;
    s.d.fld (pg + ADMIT.FB_WINDOW) 0 16 ≠ 0 ∧ s.d.fbBit n 0 = false ∧ enter ≠ 0 ∧ enter ≤ bad ∧ s.d.assisted pg = true)
  ∧ (
    let s : State := fbs 5 2 1 100 4 0 1
    let n : Lane := 3
    let pg := Pg.ADMIT (n.val / 4)
    let bad := s.d.fld (Dev.adBase n + ADMIT.FB_WIN) 0 16
    let enter := s.d.fld (pg + ADMIT.FB_ENTER) 0 16;
    s.d.fld (pg + ADMIT.FB_WINDOW) 0 16 ≠ 0 ∧ s.d.fbBit n 0 = false ∧ (enter = 0 ∨ bad < enter))
  ∧ (
    let s : State := fbs 5 2 1 100 1 8 1
    let n : Lane := 3
    let pg := Pg.ADMIT (n.val / 4)
    let bad := s.d.fld (Dev.adBase n + ADMIT.FB_WIN) 0 16
    let good := s.d.fld (Dev.adBase n + ADMIT.FB_WIN) 16 16
    let exit := s.d.fld (pg + ADMIT.FB_EXIT) 0 16;
    s.d.fld (pg + ADMIT.FB_WINDOW) 0 16 ≠ 0 ∧ s.d.fbBit n 0 = true ∧ s.d.fbBit n 1 = false ∧ bad < exit ∧ s.d.fld (pg + ADMIT.FB_HOLD) 0 8 ≤ good + 1 ∧ good + 1 ≤ 0xFFFF ∧ s.d.assisted pg = false)
  ∧ (
    let s : State := fbs 5 2 2 100 5 8 1
    let n : Lane := 3
    let pg := Pg.ADMIT (n.val / 4)
    let bad := s.d.fld (Dev.adBase n + ADMIT.FB_WIN) 0 16
    let exit := s.d.fld (pg + ADMIT.FB_EXIT) 0 16;
    s.d.fld (pg + ADMIT.FB_WINDOW) 0 16 ≠ 0 ∧ s.d.fbBit n 0 = true ∧ exit ≤ bad ∧ s.d.fld (pg + ADMIT.FB_HOLD) 0 8 ≠ 0) :=
  by refine ⟨?_, ?_, ?_, ?_, ?_⟩ <;> decide +kernel

/-- States and operands that meet the hypotheses of the clauses of `Obligations.ProfilesAndLearning`. -/
theorem witness_ProfilesAndLearning :
  (
    let s : State := lr (X 3 []) [] lrn
    let m : Master := .host
    let p : Fin 1024 := 3
    let v : Word := 0xF0000000
    let l : Learn := lrn
    let mine := Pg.CLS_MISS
    let base := s.d.fld (mine + CLS_MISS.LEARN_BASE) 0 25
    let n := s.d.fld (mine + CLS_MISS.LEARN_COUNT) 0 26
    let word (j : Nat) : Word :=
      if j = 7 then v else (Sparse.get (fun _ => none) s.d.cls.staged (Dev.profKey m p j)).getD (s.d.profileOp p j);
    AdmitsBulk s m 0x060 ∧ (∃ j, j < 8 ∧ Dev.opBad (word j) = true) ∧ Admits s m (mine + CLS_MISS.LEARN_CMD) ∧ base + n ≤ 2 ^ 25 ∧ s.d.cls.fifo.length < 2048 ∧ s.d.cls.cursor < s.d.cls.cursorEnd ∧ s.d.cls.learns.find? (fun r => r.ready) = some l ∧ (s.d.cls.lastTurn = some true → s.d.cls.updates = []) ∧ (s.d.freeWay (bucketA l.digest)).isSome = true ∧ s.d.findEnt l.digest = none ∧ s.d.cls.fifo = [])
  ∧ (
    let s : State := lr (X 3 []) [55, 56] lrn
    let m : Master := .host
    let p : Fin 1024 := 3
    let v : Word := 0x10000003
    let l : Learn := lrn
    let word (j : Nat) : Word :=
      if j = 7 then v else (Sparse.get (fun _ => none) s.d.cls.staged (Dev.profKey m p j)).getD (s.d.profileOp p j);
    AdmitsBulk s m 0x060 ∧ (∀ j, j < 8 → Dev.opBad (word j) = false) ∧ s.d.cls.learns.find? (fun r => r.ready) = some l ∧ (s.d.cls.lastTurn = some true → s.d.cls.updates = []) ∧ (s.d.freeWay (bucketA l.digest)).isSome = true ∧ s.d.findEnt l.digest = none ∧ s.d.cls.fifo ≠ [])
  ∧ (
    let s : State := withE lrn.digest 77 3 4 (lr (X 3 []) [] lrn)
    let l : Learn := lrn;
    s.d.cls.learns.find? (fun r => r.ready) = some l ∧ (s.d.cls.lastTurn = some true → s.d.cls.updates = []) ∧ (s.d.freeWay (bucketA l.digest)).isSome = true ∧ s.d.findEnt l.digest ≠ none)
  ∧ (
    let s : State := X 3 [(Pg.CLS_MISS + CLS_MISS.LEARN_BASE, 0x1FFFFFF), (Pg.CLS_MISS + CLS_MISS.LEARN_COUNT, 2)]
    let m : Master := .host
    let mine := Pg.CLS_MISS
    let base := s.d.fld (mine + CLS_MISS.LEARN_BASE) 0 25
    let n := s.d.fld (mine + CLS_MISS.LEARN_COUNT) 0 26;
    Admits s m (mine + CLS_MISS.LEARN_CMD) ∧ 2 ^ 25 < base + n) :=
  by refine ⟨?_, ?_, ?_, ?_⟩ <;> decide +kernel

/-- States and operands that meet the hypotheses of the clauses of `Obligations.TableUpdatesAndMaintenance` (TableUpdates). -/
theorem witness_TableUpdatesAndMaintenance_TableUpdates :
  (
    let s : State := X 3 []
    let m : Master := .host
    let u := Pg.CLS_UPD
    let count := s.d.fld (u + CLS_UPD.STAGE_RANGE) 16 13;
    Admits s m (u + CLS_UPD.UPD_CMD) ∧ s.d.updRuns = false ∧ count = 0)
  ∧ (
    let s : State := job (dsc 0 0 20 500 3 true) (X 3 [])
    let m : Master := .host
    let b : List Byte := dsc 0 0 20 500 3 true
    let after : List (BitVec 40) := []
    let rest : List UpdJob := [⟨.stage 3 true, (dsc 0 0 20 500 3 true), []⟩]
    let u := Pg.CLS_UPD;
    Admits s m (u + CLS_UPD.UPD_CMD) ∧ s.d.updRuns = true ∧ s.d.cls.updates = { source := .go, bytes := b, after := after } :: rest ∧ ((natLE (slice b 0 4)).testBit 27 = true → ∀ l ∈ s.d.cls.learns, l.ready = true → l.digest ∉ after) ∧ (s.d.cls.lastTurn = some false → ∀ l ∈ s.d.cls.learns, l.ready = false) ∧ Dev.descOp b = 0 ∧ s.d.descCheck b = some 0)
  ∧ (
    let s : State := X 3 [(Pg.CLS_UPD + CLS_UPD.STAGE_RANGE, 0x30001)]
    let m : Master := .bmc
    let u := Pg.CLS_UPD
    let count := s.d.fld (u + CLS_UPD.STAGE_RANGE) 16 13;
    Admits s m (u + CLS_UPD.UPD_CMD) ∧ s.d.updRuns = false ∧ count ≠ 0)
  ∧ (
    let s : State := job (dsc 1 0 20 500 3 true) (X 3 [])
    let b : List Byte := dsc 1 0 20 500 3 true
    let after : List (BitVec 40) := []
    let rest : List UpdJob := [⟨.stage 3 true, (dsc 1 0 20 500 3 true), []⟩]
    let w0 := natLE (slice b 0 4)
    let key := slice b 16 (w0 / 2 ^ 16 % 2 ^ 8)
    let d := s.d.digestOf key;
    s.d.cls.updates = { source := .go, bytes := b, after := after } :: rest ∧ ((natLE (slice b 0 4)).testBit 27 = true → ∀ l ∈ s.d.cls.learns, l.ready = true → l.digest ∉ after) ∧ (s.d.cls.lastTurn = some false → ∀ l ∈ s.d.cls.learns, l.ready = false) ∧ s.d.descCheck b = none ∧ Dev.descOp b = 1 ∧ s.d.findEnt d = none ∧ w0 / 2 ^ 24 % 4 = 0 ∧ (s.d.freeWay (bucketA d)).isSome = true)
  ∧ (
    let s : State := job (dsc 3 0 20 500 3 true) (X 3 [])
    let b : List Byte := dsc 3 0 20 500 3 true
    let after : List (BitVec 40) := []
    let rest : List UpdJob := [⟨.stage 3 true, (dsc 3 0 20 500 3 true), []⟩]
    let w0 := natLE (slice b 0 4)
    let key := slice b 16 (w0 / 2 ^ 16 % 2 ^ 8)
    let d := s.d.digestOf key;
    s.d.cls.updates = { source := .go, bytes := b, after := after } :: rest ∧ ((natLE (slice b 0 4)).testBit 27 = true → ∀ l ∈ s.d.cls.learns, l.ready = true → l.digest ∉ after) ∧ (s.d.cls.lastTurn = some false → ∀ l ∈ s.d.cls.learns, l.ready = false) ∧ s.d.descCheck b = none ∧ Dev.descOp b = 3 ∧ s.d.findEnt d = none)
  ∧ (
    let s : State := job (dsc 5 0 20 500 3 true) (X 3 [])
    let b : List Byte := dsc 5 0 20 500 3 true
    let after : List (BitVec 40) := []
    let rest : List UpdJob := [⟨.stage 3 true, (dsc 5 0 20 500 3 true), []⟩]
    let k := (s.d.descCheck b).getD 0;
    s.d.cls.updates = { source := .go, bytes := b, after := after } :: rest ∧ ((natLE (slice b 0 4)).testBit 27 = true → ∀ l ∈ s.d.cls.learns, l.ready = true → l.digest ∉ after) ∧ (s.d.cls.lastTurn = some false → ∀ l ∈ s.d.cls.learns, l.ready = false) ∧ 4 < Dev.descOp b ∧ s.d.descCheck b = some k)
  ∧ (
    let s : State := job (dsc 1 0 20 500 3 false) (withE kd 77 3 4 (X 3 []))
    let b : List Byte := dsc 1 0 20 500 3 false
    let after : List (BitVec 40) := []
    let rest : List UpdJob := [⟨.stage 3 true, (dsc 1 0 20 500 3 false), []⟩]
    let w0 := natLE (slice b 0 4)
    let key := slice b 16 (w0 / 2 ^ 16 % 2 ^ 8)
    let d := s.d.digestOf key;
    s.d.cls.updates = { source := .go, bytes := b, after := after } :: rest ∧ ((natLE (slice b 0 4)).testBit 27 = true → ∀ l ∈ s.d.cls.learns, l.ready = true → l.digest ∉ after) ∧ (s.d.cls.lastTurn = some false → ∀ l ∈ s.d.cls.learns, l.ready = false) ∧ s.d.descCheck b = none ∧ Dev.descOp b = 1 ∧ (s.d.findEnt d).isSome = true)
  ∧ (
    let s : State := job (dsc 2 0 20 500 3 false) (withE kd 77 3 4 (X 3 []))
    let b : List Byte := dsc 2 0 20 500 3 false
    let after : List (BitVec 40) := []
    let rest : List UpdJob := [⟨.stage 3 true, (dsc 2 0 20 500 3 false), []⟩]
    let w0 := natLE (slice b 0 4)
    let key := slice b 16 (w0 / 2 ^ 16 % 2 ^ 8)
    let d := s.d.digestOf key;
    s.d.cls.updates = { source := .go, bytes := b, after := after } :: rest ∧ ((natLE (slice b 0 4)).testBit 27 = true → ∀ l ∈ s.d.cls.learns, l.ready = true → l.digest ∉ after) ∧ (s.d.cls.lastTurn = some false → ∀ l ∈ s.d.cls.learns, l.ready = false) ∧ s.d.descCheck b = none ∧ Dev.descOp b = 2 ∧ (s.d.findEnt d).isSome = true)
  ∧ (
    let s : State := job (dsc 3 0 20 500 3 false) (withE kd 77 3 4 (X 3 []))
    let b : List Byte := dsc 3 0 20 500 3 false
    let after : List (BitVec 40) := []
    let rest : List UpdJob := [⟨.stage 3 true, (dsc 3 0 20 500 3 false), []⟩]
    let w0 := natLE (slice b 0 4)
    let key := slice b 16 (w0 / 2 ^ 16 % 2 ^ 8)
    let d := s.d.digestOf key;
    s.d.cls.updates = { source := .go, bytes := b, after := after } :: rest ∧ ((natLE (slice b 0 4)).testBit 27 = true → ∀ l ∈ s.d.cls.learns, l.ready = true → l.digest ∉ after) ∧ (s.d.cls.lastTurn = some false → ∀ l ∈ s.d.cls.learns, l.ready = false) ∧ s.d.descCheck b = none ∧ Dev.descOp b = 3 ∧ (s.d.findEnt d).isSome = true)
  ∧ (
    let s : State := job (dsc 4 0 20 500 3 false) (withE kd 77 3 4 (X 3 []))
    let b : List Byte := dsc 4 0 20 500 3 false
    let after : List (BitVec 40) := []
    let rest : List UpdJob := [⟨.stage 3 true, (dsc 4 0 20 500 3 false), []⟩]
    let w0 := natLE (slice b 0 4)
    let key := slice b 16 (w0 / 2 ^ 16 % 2 ^ 8)
    let d := s.d.digestOf key;
    s.d.cls.updates = { source := .go, bytes := b, after := after } :: rest ∧ ((natLE (slice b 0 4)).testBit 27 = true → ∀ l ∈ s.d.cls.learns, l.ready = true → l.digest ∉ after) ∧ (s.d.cls.lastTurn = some false → ∀ l ∈ s.d.cls.learns, l.ready = false) ∧ s.d.descCheck b = none ∧ Dev.descOp b = 4 ∧ (s.d.findEnt d).isSome = true) :=
  by refine ⟨?_, ?_, ?_, ?_, ?_, ?_, ?_, ?_, ?_, ?_⟩ <;> decide +kernel

/-- States and operands that meet the hypotheses of the clauses of `Obligations.TableUpdatesAndMaintenance` (TableMaintenance). -/
theorem witness_TableUpdatesAndMaintenance_TableMaintenance :
  (
    let s : State := withE kd 77 3 15 (X 3 [(Pg.CLS + CLS.RESTORE_STATUS, 0x40000000),(Pg.CLS_UPD + CLS_UPD.RD_INDEX, bucketA kd + 2)])
    let m : Master := .host
    let st := Pg.CLS + CLS.RESTORE_STATUS;
    Admits s m (Pg.CLS_UPD + CLS_UPD.RD_CMD) ∧ Admits s m (Pg.CLS + CLS.RESTORE_CMD) ∧ s.d.bit st 30 = true
      ∧ (let bank : Fin 8 := 7;
       s.d.bit st 30 = true ∧ s.d.cls.restoreAt ≤ bank ∧ bank = 7)
      ∧ (let bank : Fin 8 := 3;
       s.d.bit st 30 = true ∧ s.d.cls.restoreAt ≤ bank ∧ bank < 7))
  ∧ (
    let s : State := X 3 [(Pg.CLS + CLS.AGE_CTRL, 0x0000100)]
    let m : Master := .host
    let st := Pg.CLS + CLS.RESTORE_STATUS;
    s.d.fld (Pg.CLS + CLS.AGE_CTRL) 0 16 ≠ 0 ∧ s.d.fld (Pg.CLS + CLS.AGE_CTRL) 16 8 = 0 ∧ Sparse.wf (fun _ => 0) s.d.cls.table = true ∧ Admits s m (Pg.CLS + CLS.RESTORE_CMD) ∧ s.d.bit st 30 = false) :=
  by refine ⟨?_, ?_⟩ <;> decide +kernel

/-- States and operands that meet the hypotheses of the clauses of `Obligations.FlowRecords`. -/
theorem witness_FlowRecords :
  (
    let s : State := X 3 [(Pg.FEXP + FEXP.SWEEP_PERIOD, 0)]
    let m : Master := .host
    let i : Fin 8192 := 4
    let f := s.d.windowFlow i
    let id := (masterId m).toNat;
    AdmitsBulk s m 0x070 ∧ (Sparse.get (fun _ => none) s.d.flow.stagedFor id = none ∨ Sparse.get (fun _ => none) s.d.flow.stagedFor id = some f) ∧ Admits s m (Pg.FLOW + FLOW.CACHE_CMD) ∧ s.d.fld (Pg.FEXP + FEXP.SWEEP_PERIOD) 0 8 = 0 ∧ sinceRefill s.d.now40 (s.d.flowRec s.d.flow.sweep) < 2 ^ 38 ∧ s.d.flow.sweep < 2 ^ 25 ∧ s.d.flow.sweep + 1 < 2 ^ 25)
  ∧ (
    let s : State := X 3 [(Pg.FLOW + FLOW.INIT_FIRST, 5), (Pg.FLOW + FLOW.INIT_COUNT, 10), (Pg.FLOW + FLOW.INIT_STATUS, 0x20000005)]
    let m : Master := .host
    let st := Pg.FLOW + FLOW.INIT_STATUS;
    Admits s m (Pg.FLOW + FLOW.INIT_CMD) ∧ s.d.bit st 29 = true)
  ∧ (
    let s : State := stg 9 [(1, 5), (2, 6), (14, 7)] (X 3 [])
    let m : Master := .host
    let i : Fin 8192 := 4
    let f := s.d.windowFlow i
    let id := (masterId m).toNat
    let g := (Sparse.get (fun _ => none) s.d.flow.stagedFor id).getD 0;
    AdmitsBulk s m 0x070 ∧ g ≠ f ∧ Sparse.get (fun _ => none) s.d.flow.stagedFor id = some g)
  ∧ (
    let s : State := X 3 [(Pg.FLOW + FLOW.INIT_FIRST, 5), (Pg.FLOW + FLOW.INIT_COUNT, 10)]
    let m : Master := .host
    let first := s.d.fld (Pg.FLOW + FLOW.INIT_FIRST) 0 25
    let n := s.d.fld (Pg.FLOW + FLOW.INIT_COUNT) 0 26
    let st := Pg.FLOW + FLOW.INIT_STATUS;
    Admits s m (Pg.FLOW + FLOW.INIT_CMD) ∧ first + n ≤ 2 ^ 25 ∧ s.d.bit st 29 = false ∧ n ≠ 0)
  ∧ (
    let s : State := X 3 [(Pg.FLOW + FLOW.INIT_FIRST, 0x1FFFFFF), (Pg.FLOW + FLOW.INIT_COUNT, 2)]
    let m : Master := .host
    let first := s.d.fld (Pg.FLOW + FLOW.INIT_FIRST) 0 25
    let n := s.d.fld (Pg.FLOW + FLOW.INIT_COUNT) 0 26
    let st := Pg.FLOW + FLOW.INIT_STATUS;
    Admits s m (Pg.FLOW + FLOW.INIT_CMD) ∧ 2 ^ 25 < first + n ∧ s.d.bit st 29 = false)
  ∧ (
    let s : State := stg 4 [(1, 5), (2, 6), (14, 7)] (X 3 [(Pg.FLOW + FLOW.CACHE_STATUS, 0x80000000)]);
    s.d.bit (Pg.FLOW + FLOW.CACHE_STATUS) 31 = true)
  ∧ (
    let s : State := onD (fun t => {t with flow := {t.flow with sweep := 2^25-1}}) (X 3 [(Pg.FEXP + FEXP.SWEEP_PERIOD, 0)]);
    s.d.fld (Pg.FEXP + FEXP.SWEEP_PERIOD) 0 8 = 0 ∧ sinceRefill s.d.now40 (s.d.flowRec s.d.flow.sweep) < 2 ^ 38 ∧ s.d.flow.sweep < 2 ^ 25 ∧ s.d.flow.sweep + 1 = 2 ^ 25) :=
  by refine ⟨?_, ?_, ?_, ?_, ?_, ?_, ?_⟩ <;> decide +kernel

end Sys2Proof.Tests.C05

/-! ### Chapter 07 -/

namespace Sys2Proof.Tests.C07

open Sys2Proof Sys2Proof.Machine Sys2Proof.Tests

set_option Elab.async false

def opk (k : HbmKind) (pr ch : Nat) : HbmOp := ⟨k, pr, ch, 0, 64, false⟩
def stk (k : Nat) (x : Stack4) (s : State) := onD (fun t => {t with buf := {t.buf with hbm := [(k, x)]}}) s
def que (l : List (Nat × Queue)) (s : State) := onD (fun t => {t with buf := {t.buf with queues := l}}) s
def sch (l : List (Nat × Sched)) (s : State) := onD (fun t => {t with buf := {t.buf with scheds := l}}) s
def hup (l : List (Nat × Nat)) : State := up ([(Pg.SLICE 0 + SLICE.SLICE_CFG, 0xF1), (Pg.SLICE 0 + SLICE.HOST_CFG, 0x2), (Pg.SLICE 0 + SLICE.LP_MAP, 0xE4),(Pg.HOST 3 + HOST.HOST_STATE, 2), (Pg.HOST 3 + HOST.LINK_STATUS, 8)] ++ l)
def qs (l : List BufRec) : List (Nat × Queue) := [(25, {Queue.init with recs := l, pages := [3], wptr := 100})]

/-- States and operands that meet the hypotheses of the clauses of `Obligations.BufferMemory` (MemoryOperations). -/
theorem witness_BufferMemory_MemoryOperations :
  (
    let s : State := onD (fun t => (t.setPackets 3 [{pk0 with fetched := [33]}, {pk0 with fetched := [34]}])) (stk 2 { Stack4.init with inflight := [opk (.flowRead 33) 1 33, opk .testLines 1 33] } (up []))
    let k : Stack := 2
    let o : HbmOp := opk (.flowRead 33) 1 33
    let rest : List HbmOp := [opk .testLines 1 33]
    let x := s.d.stack4 k
    let f := 33;
    x.inflight = o :: rest ∧ x.inflight.length ≤ 4096 ∧ o.retried = false ∧ o.kind = .flowRead f)
  ∧ (
    let s : State := que [(17, {Queue.init with recs := [br 9 3 1, br 4 3 1], pages := [3], wptr := 100})] (sch [(3, {Sched.init with txq := [(br 4 3 1, 2), (br 5 3 1, 2)]})] (stk 2 { Stack4.init with waiting := [opk .testLines 1 33, opk (.flowRead 5) 4 33, opk (.flowRead 99) 2 33] } (up [])))
    let k : Stack := 2
    let o : HbmOp := opk (.flowRead 5) 4 33
    let x := s.d.stack4 k
    let pre := x.waiting.takeWhile (fun y => !decide (4 ≤ y.prio))
    let post := (x.waiting.dropWhile (fun y => !decide (4 ≤ y.prio))).tail;
    x.waiting ≠ [] ∧ x.inflight.length < 4096 ∧ Leads (fun y => decide (4 ≤ y.prio)) pre o post x.waiting)
  ∧ (
    let s : State := que [(17, {Queue.init with recs := [br 9 3 1, br 4 3 1], pages := [3], wptr := 100})] (sch [(3, {Sched.init with txq := [(br 4 3 1, 2), (br 5 3 1, 2)]})] (stk 2 { Stack4.init with inflight := [opk (.packetWrite 4) 1 33, opk .testLines 1 33] } (up [])))
    let k : Stack := 2
    let o : HbmOp := opk (.packetWrite 4) 1 33
    let rest : List HbmOp := [opk .testLines 1 33]
    let x := s.d.stack4 k
    let num := 4
    let r := HbmResult.ok;
    x.inflight = o :: rest ∧ x.inflight.length ≤ 4096 ∧ o.kind = .packetWrite num ∧ (r ≠ .parity ∨ o.retried = true))
  ∧ (
    let s : State := que [(17, {Queue.init with recs := [br 9 3 1, br 4 3 1], pages := [3], wptr := 100})] (sch [(3, {Sched.init with txq := [(br 4 3 1, 2), (br 5 3 1, 2)]})] (stk 2 { Stack4.init with inflight := [opk (.packetRead 3 4) 1 33, opk .testLines 1 33] } (up [])))
    let k : Stack := 2
    let o : HbmOp := opk (.packetRead 3 4) 1 33
    let rest : List HbmOp := [opk .testLines 1 33]
    let x := s.d.stack4 k
    let h := match o.kind with | .packetRead h _ => h | _ => 0
    let y := match o.kind with | .packetRead _ y => y | _ => 0;
    x.inflight = o :: rest ∧ x.inflight.length ≤ 4096 ∧ o.kind = .packetRead h y)
  ∧ (
    let s : State := que [(17, {Queue.init with recs := [br 9 3 1, br 4 3 1], pages := [3], wptr := 100})] (sch [(3, {Sched.init with txq := [(br 4 3 1, 2), (br 5 3 1, 2)]})] (stk 2 { Stack4.init with waiting := [opk .testLines 1 33], inflight := List.replicate 4096 (opk .testLines 1 33)} (up [])))
    let k : Stack := 2
    let x := s.d.stack4 k;
    4096 ≤ x.inflight.length) :=
  by refine ⟨?_, ?_, ?_, ?_, ?_⟩ <;> decide +kernel

/-- States and operands that meet the hypotheses of the clauses of `Obligations.Dequeue`. -/
theorem witness_Dequeue :
  (
    let s : State := sch [(3, {Sched.init with txq := [(br 4 3 1, 0), (br 5 3 1, 2)], pfc := [1, 3, 5]})] (hup [(schBase 3 + SCHED.SP_CTRL, 0)])
    let lane : Lane := 3
    let f : MacControl := mac0 0x8808 7 0 []
    let r : BufRec := br 4 3 1
    let h := s.d.hostPort lane
    let p : Fin 8 := 5
    let rest := (s.d.sched h).txq.tail;
    (s.d.sched h).txq = (r, 0) :: rest ∧ r.port < 16 ∧ r.cls < 8 ∧ s.d.hostUp h = true ∧ r.mark = none ∧ s.d.hostState lane = 2 ∧ s.d.hostSafe h = false ∧ f.da = 0x0180C2000001 ∧ f.pcsOk = true ∧ f.fcsOk = true ∧ f.etherType = 0x8808 ∧ f.opcode ≠ 0x0101 ∧ p.val ∈ (s.d.sched h).pfc)
  ∧ (
    let s : State := que (qs [br 9 3 1, br 4 3 1]) (hup [(schBase 3 + SCHED.SP_CTRL, 0x10000)])
    let lane : Lane := 3
    let f : MacControl := { mac0 0x8808 1 0 [0x1234] with da := 5 }
    let r : BufRec := br 9 3 1
    let h := s.d.hostPort lane
    let c := ((s.d.clsNext h).getD (0, Dwrr.init)).1
    let cls := ((s.d.clsNext h).getD (0, Dwrr.init)).2
    let p := ((s.d.lpNext h c).getD (0, Dwrr.init)).1
    let lp := ((s.d.lpNext h c).getD (0, Dwrr.init)).2;
    s.d.hostUp h = true ∧ (∀ p' ∈ s.d.servedPorts h, ∀ c', c' < 8 → (s.d.queue (8 * p' + c')).recs.takeWhile s.d.passed = []) ∧ s.d.clsNext h = some (c, cls) ∧ s.d.lpNext h c = some (p, lp) ∧ s.d.headRec (8 * p + c) = some r ∧ ((s.d.queue (8 * p + c)).recs.map (fun y => y.num)).Nodup ∧ (f.da ≠ 0x0180C2000001 ∨ s.d.hostState lane ≠ 2))
  ∧ (
    let s : State := hup []
    let lane : Lane := 3
    let f : MacControl := mac0 0x8808 0x0101 0x0F [1,2,0,4,5,6,7,8]
    let h := s.d.hostPort lane
    let b := schBase h;
    s.d.hostState lane = 2 ∧ s.d.hostSafe h = false ∧ f.da = 0x0180C2000001 ∧ f.pcsOk = true ∧ f.fcsOk = true ∧ f.etherType = 0x8808 ∧ f.opcode = 0x0101 ∧ s.d.bit (b + SCHED.SP_CTRL) 16 = true)
  ∧ (
    let s : State := sch [(3, {Sched.init with txq := [(br 4 3 1, 0), (br 5 3 1, 2)], pfc := [1, 3, 5]})] (hup [(schBase 3 + SCHED.SP_CTRL, 0)])
    let lane : Lane := 3
    let f : MacControl := mac0 0x8808 0x0101 0x0F [1,2,0,4,5,6,7,8]
    let h := s.d.hostPort lane
    let b := schBase h;
    s.d.hostState lane = 2 ∧ s.d.hostSafe h = false ∧ f.da = 0x0180C2000001 ∧ f.pcsOk = true ∧ f.fcsOk = true ∧ f.etherType = 0x8808 ∧ f.opcode = 0x0101 ∧ s.d.bit (b + SCHED.SP_CTRL) 16 = false) :=
  by refine ⟨?_, ?_, ?_, ?_⟩ <;> decide +kernel

/-- States and operands that meet the hypotheses of the clauses of `Obligations.BufferMemory` (ChannelRetirement). -/
theorem witness_BufferMemory_ChannelRetirement :
  (
    let s : State := stk 2 {Stack4.init with relocating := [35, 33], modeRegs := [(0, 5)]} (withLock .host 0x08A (up [(Pg.HBM 2 + HBM.MR_DATA, 5)]))
    let m : Master := .host
    let k : Stack := 2
    let c : Fin 64 := 35
    let q : QueueId := 25
    let deg : BitVec 8 := 104
    let a := Pg.HBM k
    let free (i : Nat) : Prop := ((List.range 16).filter (fun j => s.d.chRetired (16 * i + j))).length < 2
    let chs : BitVec 16 := 8;
    Admits s m (qBase q + QUEUE.Q_CMD) ∧ s.d.holder (0x082 + q.val / 32) = 0 ∧ s.d.chRetired c = false ∧ free (c.val / 16) ∧ AdmitsHeld s m (a + HBM.RETIRE_CMD) ∧ c.val / 16 = k ∧ chs = BitVec.twoPow 16 (c.val % 16) ∧ free k ∧ s.d.stackRetired k = false ∧ (s.d.stack4 k).relocating ≠ [] ∧ (s.d.stack4 k).relocating.length ≤ 16 ∧ s.d.bit (a + HBM.STACK_STATUS) 4 = false ∧ AdmitsHeld s m (a + HBM.MR_CMD) ∧ s.d.supplyHold = false ∧ deg.toInt < 105)
  ∧ (
    let s : State := withLock .host 0x08A (up [(Pg.SUPPLY + SUPPLY.SUP_STATUS, 0x80000000)])
    let m : Master := .host
    let k : Stack := 2
    let a := Pg.HBM k;
    AdmitsHeld s m (a + HBM.MR_CMD) ∧ s.d.supplyHold = true)
  ∧ (
    let s : State := onD (fun t => {t with buf := {t.buf with free := [(35, ⟨5, 100, [1,2], some (3, [0])⟩)]}}) (up [])
    let c : Fin 64 := 35
    let n := ((s.d.freeList c).aban.getD (0, [])).1
    let l := ((s.d.freeList c).aban.getD (0, [])).2;
    (s.d.freeList c).aban = some (n, l))
  ∧ (
    let s : State := withLock .host 0x082 (withLock .host 0x08A (que (qs [br 9 3 1, {br 4 3 1 with committed := false}]) (up [])))
    let m : Master := .host
    let q : QueueId := 25;
    AdmitsHeld s m (qBase q + QUEUE.Q_CMD)) :=
  by refine ⟨?_, ?_, ?_, ?_⟩ <;> decide +kernel

end Sys2Proof.Tests.C07

/-! ### Chapter 08 -/

namespace Sys2Proof.Tests.C08

open Sys2Proof Sys2Proof.Machine Sys2Proof.Tests

set_option Elab.async false

def X (n : Nat) (l : List (Nat × Nat)) : State := up ([(Pg.SLICE (n/4) + SLICE.SLICE_CFG, 0xF1), (Pg.SLICE (n/4) + SLICE.LP_MAP, 0xE4), (Pg.SLICE 0 + SLICE.HOST_CFG, 0x2), (Pg.CLKRST + CLKRST.PLL_STATUS, 0x3FFFF)] ++ l)
def rx3 := (Pg.LRX 3 + LRX.LANE_STATE, 3)
def hst (v : Nat) := (Pg.HOST 3 + HOST.HOST_STATE, v)
def ent (lane rate : Nat) : List Byte := [BitVec.ofNat 8 lane, BitVec.ofNat 8 rate, 1, 0, 5, 6, 70, 7, 60, 3, 4] ++ List.replicate 8 9 ++ List.replicate 13 0
def bfile (es : List (List Byte)) : List Byte :=
  let n := es.length
  let h : List Byte := [0x42, 0x59, 0x4C, 0x59] ++ bytesLE 2 1 ++ bytesLE 2 n ++ List.replicate 16 0 ++ bytesLE 4 (32 + 32 * n)
  h ++ bytesLE 4 (crc32c (h ++ [0,0,0,0] ++ es.flatten)) ++ es.flatten
def stgd (e : List Byte) (hi : Bool) (s : State) := (List.range 7).foldl (fun s w => onD (fun d => d.setEqStaged 3 hi w .host (some (wordBE e w))) s) s
def st7 (s : State) := onD (fun d => {d with sec := {d.sec with step := 7, dir := [⟨5, 0, 0, 64⟩]}}) s
def eye (ctrl grid st : Nat) := [(Pg.HOST 3 + HOST.EYE_CTRL, ctrl), (Pg.HOST 3 + HOST.EYE_GRID, grid), (Pg.HOST 3 + HOST.EYE_STATUS, st)]
def tagw (port op ptp opt seq : Nat) : BitVec 64 :=
  let x := 2^60 + port * 2^56 + op * 2^54 + opt * 2^53 + ptp * 2^44 + seq * 2^28
  BitVec.ofNat 64 (x + crc8 ((bytesBE 8 x).take 7))
def hup (l : List (Nat × Nat)) : State := X 3 ([hst 2, (Pg.HOST 3 + HOST.LINK_STATUS, 8)] ++ l)
def fr (n : Nat) : List Byte := (List.range n).map (BitVec.ofNat 8)
def shr (f : List EgFrame) (s : State) := onD (fun t => {t with eg := {t.eg with shares := [(3, ⟨f, false⟩)]}}) s
def ef (len : Nat) (t : BitVec 64) : EgFrame := ⟨len, fr len, t, 3, false⟩
def su := [(Pg.LTX 3 + LTX.TX_STATE, 2), (Pg.LFEC 3 + LFEC.ALIGN_STATUS, 4)]
def sup (l : List (Nat × Nat)) := hup ([(Pg.LTX 3 + LTX.TX_STATE, 2), (Pg.LFEC 3 + LFEC.ALIGN_STATUS, 4), (Pg.HOST 3 + HOST.TS_ADJ, 0xFFF00000)] ++ l)
def rps (n : Nat) (s : State) := onD (fun t => {t with eg := {t.eg with reports := [(3, List.replicate n (3, 4))]}}) s
def xo (x : Bool) (s : State) := onD (fun t => {t with eg := {t.eg with shares := [(3, ⟨[], x⟩)]}}) s
def an (v : Nat) (s : State) := onD (fun t => t.setAnnounced 3 v) s
def ec (v : Nat) := hup [(Pg.SLICE 0 + SLICE.EG_CTRL, v), (Dev.egBase 3 + SLICE.EG_PRI, 0x81)]
def tim (s : State) := onD (fun t => {t with time := {t.time with now := 0x123456789ABCDEF01234, capt := 0x9999888877776666}}) s

/-- States and operands that meet the hypotheses of the clauses of `Obligations.SlicesAndLinePause` (SliceConfiguration). -/
theorem witness_SlicesAndLinePause_SliceConfiguration :
  (
    let s : State := X 0 []
    let m : Master := .host
    let i : Slice := 0
    let v : Word := 2
    let b := Pg.SLICE i
    let fits (map : Word) (layout : Nat) : Prop := ∀ q, q < 4 → Dev.layoutWidth layout (fieldOf map (2 * q) 2) ≠ 0
    let layout := fieldOf v 8 3
    let rate := fieldOf v 0 2
    let lacks (q : Nat) : Prop := bitOf v (4 + q) = true ∧ Dev.layoutWidth layout q = 0
    let tight (q : Nat) : Prop := Dev.layoutWidth layout q ≠ 0
      ∧ Dev.layoutWidth layout q * 1024 < s.d.fld (Dev.egBase (4 * i.val + q) + SLICE.EG_XOFF) 0 13
    let good : Prop := layout ≤ 4 ∧ ∀ q, q < 4 → ¬ lacks q ∧ ¬ tight q;
    Admits s m (b + SLICE.SLICE_CFG) ∧ good ∧ s.d.sliceOff i = true ∧ Admits s m (b + SLICE.HOST_CFG) ∧ layout ≤ 4 ∧ (rate = 1 ∨ rate = 2) ∧ fits (s.d.rd (b + SLICE.LP_MAP)) layout ∧ Admits s m (b + SLICE.LP_MAP) ∧ fits v (s.d.hpLayout i))
  ∧ (
    let s : State := X 0 [(Pg.LRX 2 + LRX.LANE_STATE, 3)]
    let m : Master := .host
    let i : Slice := 0
    let v : Word := 3
    let b := Pg.SLICE i
    let fits (map : Word) (layout : Nat) : Prop := ∀ q, q < 4 → Dev.layoutWidth layout (fieldOf map (2 * q) 2) ≠ 0
    let layout := fieldOf v 8 3
    let rate := fieldOf v 0 2
    let lacks (q : Nat) : Prop := bitOf v (4 + q) = true ∧ Dev.layoutWidth layout q = 0
    let tight (q : Nat) : Prop := Dev.layoutWidth layout q ≠ 0
      ∧ Dev.layoutWidth layout q * 1024 < s.d.fld (Dev.egBase (4 * i.val + q) + SLICE.EG_XOFF) 0 13
    let good : Prop := layout ≤ 4 ∧ ∀ q, q < 4 → ¬ lacks q ∧ ¬ tight q;
    Admits s m (b + SLICE.SLICE_CFG) ∧ good ∧ (s.d.rd (b + SLICE.SLICE_CFG) ^^^ v) &&& 0x7F3 ≠ 0 ∧ s.d.sliceOff i = false ∧ Admits s m (b + SLICE.HOST_CFG) ∧ (4 < layout ∨ rate = 0 ∨ rate = 3 ∨ ¬ fits (s.d.rd (b + SLICE.LP_MAP)) layout) ∧ Admits s m (b + SLICE.LP_MAP) ∧ fits v (s.d.hpLayout i) ∧ (s.d.rd (b + SLICE.LP_MAP) ^^^ v) &&& 0xFF ≠ 0)
  ∧ (
    let s : State := X 0 [(Pg.SLICE 0 + SLICE.HOST_CFG, 0x402)]
    let m : Master := .host
    let i : Slice := 0
    let v : Word := 0x5F1
    let b := Pg.SLICE i
    let fits (map : Word) (layout : Nat) : Prop := ∀ q, q < 4 → Dev.layoutWidth layout (fieldOf map (2 * q) 2) ≠ 0
    let layout := fieldOf v 8 3
    let lacks (q : Nat) : Prop := bitOf v (4 + q) = true ∧ Dev.layoutWidth layout q = 0
    let tight (q : Nat) : Prop := Dev.layoutWidth layout q ≠ 0
      ∧ Dev.layoutWidth layout q * 1024 < s.d.fld (Dev.egBase (4 * i.val + q) + SLICE.EG_XOFF) 0 13;
    Admits s m (b + SLICE.SLICE_CFG) ∧ (4 < layout ∨ (∃ q, q < 4 ∧ (lacks q ∨ tight q))) ∧ Admits s m (b + SLICE.LP_MAP) ∧ ¬ fits v (s.d.hpLayout i))
  ∧ (
    let s : State := X 0 [(Pg.LRX 2 + LRX.LANE_STATE, 3)]
    let m : Master := .host
    let i : Slice := 0
    let v : Word := 0x1
    let b := Pg.SLICE i
    let fits (map : Word) (layout : Nat) : Prop := ∀ q, q < 4 → Dev.layoutWidth layout (fieldOf map (2 * q) 2) ≠ 0
    let layout := fieldOf v 8 3
    let rate := fieldOf v 0 2;
    Admits s m (b + SLICE.HOST_CFG) ∧ layout ≤ 4 ∧ (rate = 1 ∨ rate = 2) ∧ fits (s.d.rd (b + SLICE.LP_MAP)) layout ∧ (s.d.rd (b + SLICE.HOST_CFG) ^^^ v) &&& 0x703 ≠ 0 ∧ s.d.sliceOff i = false) :=
  by refine ⟨?_, ?_, ?_, ?_⟩ <;> decide +kernel

/-- States and operands that meet the hypotheses of the clauses of `Obligations.SlicesAndLinePause` (LinePause). -/
theorem witness_SlicesAndLinePause_LinePause :
  (
    let s : State := X 3 []
    let p : Lane := 3
    let f : MacControl := mac0 0x8808 7 0 [];
    (s.d.receives p = false ∨ f.da ≠ 0x0180C2000001 ∨ f.etherType ≠ 0x8808))
  ∧ (
    let s : State := X 3 [rx3]
    let p : Lane := 3
    let f : MacControl := mac0 0x8808 7 0 []
    let spans : List CwSpan := []
    let good : Prop := f.fcsOk = true ∧ f.pcsOk = true ∧ s.d.badLanes spans = [];
    s.d.receives p = true ∧ f.da = 0x0180C2000001 ∧ f.etherType = 0x8808 ∧ good ∧ f.opcode ≠ 0x0001 ∧ f.opcode ≠ 0x0101)
  ∧ (
    let s : State := X 3 [rx3]
    let p : Lane := 3
    let f : MacControl := mac0 0x8808 1 0 [0x1234]
    let spans : List CwSpan := []
    let good : Prop := f.fcsOk = true ∧ f.pcsOk = true ∧ s.d.badLanes spans = [];
    s.d.receives p = true ∧ f.da = 0x0180C2000001 ∧ f.etherType = 0x8808 ∧ good ∧ f.opcode = 0x0001)
  ∧ (
    let s : State := X 3 [rx3]
    let p : Lane := 3
    let f : MacControl := mac0 0x8808 7 0 []
    let spans : List CwSpan := [⟨3,0,0⟩]
    let good : Prop := f.fcsOk = true ∧ f.pcsOk = true ∧ s.d.badLanes spans = [];
    s.d.receives p = true ∧ f.da = 0x0180C2000001 ∧ f.etherType = 0x8808 ∧ ¬ good)
  ∧ (
    let s : State := X 3 [rx3, (Pg.SLICE 0 + SLICE.SLICE_CFG, 0xFF0100F1)]
    let p : Lane := 3
    let f : MacControl := mac0 0x8808 0x0101 0x0F [1,2,0,4,5,6,7,8]
    let spans : List CwSpan := []
    let b := Pg.SLICE (p.val / 4)
    let cfg := s.d.rd (b + SLICE.SLICE_CFG)
    let good : Prop := f.fcsOk = true ∧ f.pcsOk = true ∧ s.d.badLanes spans = [];
    s.d.receives p = true ∧ f.da = 0x0180C2000001 ∧ f.etherType = 0x8808 ∧ good ∧ f.opcode = 0x0101 ∧ bitOf cfg 16 = true ∧ (∃ i, i < 8 ∧ f.enables.getLsbD i = true ∧ bitOf cfg (24 + i) = true)) :=
  by refine ⟨?_, ?_, ?_, ?_, ?_⟩ <;> decide +kernel

/-- States and operands that meet the hypotheses of the clauses of `Obligations.SliceAndPauseCompletion`. -/
theorem witness_SliceAndPauseCompletion :
  (
    let s : State := X 3 [rx3, (Pg.SLICE 0 + SLICE.SLICE_CFG, 0xFF0100F1), (Dev.egBase 2 + SLICE.EG_XOFF, 0x1800)]
    let m : Master := .host
    let i : Slice := 1
    let v : Word := 2
    let p : Lane := 3
    let f : MacControl := mac0 0x8808 1 0 [0x1234]
    let spans : List CwSpan := []
    let c := Pg.SLICE (p.val / 4)
    let b := Pg.SLICE i
    let off : Prop := ∀ q, q < 4 → s.d.rxState (4 * i.val + q) = 0 ∧ s.d.txState (4 * i.val + q) = 0 ∧ s.d.hostState (4 * i.val + q) = 0
    let width (layout q : Nat) : Nat := Dev.layoutWidth layout q;
    Admits s m (b + SLICE.SLICE_CFG) ∧ off ∧ fieldOf v 8 3 ≤ 4 ∧ (∀ q, q < 4 → (bitOf v (4 + q) = true → width (fieldOf v 8 3) q ≠ 0)
        ∧ (width (fieldOf v 8 3) q ≠ 0 →
            s.d.fld (Dev.egBase (4 * i.val + q) + SLICE.EG_XOFF) 0 13 ≤ width (fieldOf v 8 3) q * 1024)) ∧ Admits s m (b + SLICE.HOST_CFG) ∧ (fieldOf v 0 2 = 1 ∨ fieldOf v 0 2 = 2) ∧ (∀ q, q < 4 → width (fieldOf v 8 3) (fieldOf (s.d.rd (b + SLICE.LP_MAP)) (2 * q) 2) ≠ 0) ∧ Admits s m (b + SLICE.LP_MAP) ∧ (∀ q, q < 4 → width (s.d.fld (b + SLICE.HOST_CFG) 8 3) (fieldOf v (2 * q) 2) ≠ 0) ∧ s.d.lpOn p = true ∧ (∀ n ∈ s.d.lpLanes p, s.d.rxState n = 3) ∧ s.d.portHeld p = false ∧ s.d.vigilState = 0 ∧ s.d.flow.refreshDue = false ∧ f.da = 0x0180C2000001 ∧ f.etherType = 0x8808 ∧ f.opcode = 0x0001 ∧ f.fcsOk = true ∧ f.pcsOk = true ∧ s.d.badLanes spans = [] ∧ s.d.bit (c + SLICE.SLICE_CFG) 16 = true) :=
  by decide +kernel

/-- States and operands that meet the hypotheses of the clauses of `Obligations.HostLanes` (HostLaneStates). -/
theorem witness_HostLanes_HostLaneStates :
  (
    let s : State := X 3 [hst 1]
    let m : Master := .host
    let n : Lane := 3
    let b := Pg.HOST n
    let lf : Bool := true
    let rf : Bool := true
    let st := s.d.hostState n
    let los : Bool := !s.d.bit (b + HOST.LINK_STATUS) 0;
    Admits s m (b + HOST.HOST_CTRL) ∧ st ≠ 4 ∧ (st = 1 ∨ st = 2) ∧ st = 1 ∧ s.d.hpllLock (n / 4) = true ∧ st ≠ 0 ∧ s.d.bit (b + HOST.LINK_STATUS) 0 ≠ los ∧ (s.d.bit (b + HOST.LINK_STATUS) 4 ≠ lf ∨ s.d.bit (b + HOST.LINK_STATUS) 5 ≠ rf))
  ∧ (
    let s : State := X 3 [hst 2]
    let n : Lane := 3
    let st := s.d.hostState n
    let signal : Bool := false
    let cdr : Bool := true
    let am : Bool := true;
    st = 2 ∧ (signal && cdr && am) = false)
  ∧ (
    let s : State := X 3 [(Pg.HOST 3 + HOST.EQ_STATUS, 3)]
    let m : Master := .host
    let n : Lane := 3
    let b := Pg.HOST n
    let st := s.d.hostState n;
    Admits s m (b + HOST.HOST_CTRL) ∧ st = 0 ∧ s.d.bit (b + HOST.EQ_STATUS) (if s.d.hostRate (n / 4) = 2 then 1 else 0) = true ∧ s.d.hostHeld n = false ∧ s.d.hpllLock (n / 4) = true)
  ∧ (
    let s : State := X 3 [hst 3, (Pg.HOST 3 + HOST.HOST_CTRL, 2)]
    let m : Master := .host
    let n : Lane := 3
    let b := Pg.HOST n
    let st := s.d.hostState n;
    Admits s m (b + HOST.HOST_CTRL) ∧ st = 3) :=
  by refine ⟨?_, ?_, ?_, ?_⟩ <;> decide +kernel

/-- States and operands that meet the hypotheses of the clauses of `Obligations.BoardEqualisation`. -/
theorem witness_BoardEqualisation :
  (
    let s : State := st7 (X 3 [])
    let m : Master := .host
    let n : Lane := 3
    let hi : Bool := false
    let w : Fin 7 := 2
    let v : Word := 5
    let copyA : List Byte := none.getD []
    let copyB : List Byte := bfile [ent 2 1]
    let set := Pg.HOST n + (if hi then HOST.EQ_SET1 else HOST.EQ_SET0)
    let words := (List.range 7).map (fun w => (s.d.eqStaged n hi w m).getD (s.d.rd (set + 4 * w))) ++ [v]
    let e := words.flatMap wordBytesBE
    let mine : Prop := Dev.eqValid e = true ∧ (e.getD 0 0).toNat = n ∧ (e.getD 1 0).toNat = (if hi then 2 else 1)
    let copies := s.d.biyleyCopies copyA copyB;
    s.d.sec.step = 7 ∧ (∀ c ∈ copies, c.2 ≠ 0) ∧ Admits s m (set + 4 * w) ∧ Admits s m (set + 28) ∧ ¬ mine)
  ∧ (
    let s : State := stgd (ent 3 2) true (X 3 [])
    let m : Master := .host
    let n : Lane := 3
    let hi : Bool := true
    let w : Fin 7 := 2
    let v : Word := 0
    let set := Pg.HOST n + (if hi then HOST.EQ_SET1 else HOST.EQ_SET0)
    let words := (List.range 7).map (fun w => (s.d.eqStaged n hi w m).getD (s.d.rd (set + 4 * w))) ++ [v]
    let e := words.flatMap wordBytesBE
    let mine : Prop := Dev.eqValid e = true ∧ (e.getD 0 0).toNat = n ∧ (e.getD 1 0).toNat = (if hi then 2 else 1);
    Admits s m (set + 28) ∧ mine ∧ s.d.hostState n = 0 ∧ s.d.bit (Pg.HOST n + HOST.HOST_CTRL) 0 = false)
  ∧ (
    let s : State := st7 (X 3 [])
    let n : Lane := 3
    let hi : Bool := true
    let copyA : List Byte := (some (bfile [ent 3 2])).getD []
    let copyB : List Byte := bfile [ent 2 1]
    let copies := s.d.biyleyCopies copyA copyB
    let c := (copies.find? (fun c => c.2 == 0)).getD ([], 0);
    s.d.sec.step = 7 ∧ copies.find? (fun c => c.2 == 0) = some c ∧ natLE (slice c.1 6 2) = 1 ∧ (c.1.getD 32 0).toNat = n ∧ c.1.getD 33 0 = (if hi then 2 else 1)) :=
  by refine ⟨?_, ?_, ?_⟩ <;> decide +kernel

/-- States and operands that meet the hypotheses of the clauses of `Obligations.HostLanes` (HostLaneTests). -/
theorem witness_HostLanes_HostLaneTests :
  (
    let s : State := X 3 ([hst 2] ++ eye 0x01010A00 0x0203 1)
    let m : Master := .host
    let n : Lane := 3
    let b := Pg.HOST n
    let es := b + HOST.EYE_STATUS
    let j := s.d.fld es 16 11
    let ctl := s.d.rd (b + HOST.PRBS_CTRL);
    Admits s m (b + HOST.PRBS_CMD) ∧ (s.d.hostState n ≠ 3 ∨ fieldOf ctl 4 2 = 0) ∧ Admits s m (b + HOST.EYE_CMD) ∧ (s.d.hostState n ≠ 2 ∧ s.d.hostState n ≠ 3 ∨ s.d.bit es 0 = true) ∧ s.d.bit es 0 = true ∧ s.d.fld es 16 11 = j ∧ j < 1024)
  ∧ (
    let s : State := X 3 [hst 3, (Pg.HOST 3 + HOST.PRBS_CTRL, 0x10)]
    let m : Master := .host
    let n : Lane := 3
    let b := Pg.HOST n
    let es := b + HOST.EYE_STATUS
    let ctl := s.d.rd (b + HOST.PRBS_CTRL);
    Admits s m (b + HOST.PRBS_CMD) ∧ s.d.hostState n = 3 ∧ fieldOf ctl 4 2 ≠ 0 ∧ Admits s m (b + HOST.EYE_CMD) ∧ s.d.eyeBad (b + HOST.EYE_CTRL) = false ∧ (s.d.hostState n = 2 ∨ s.d.hostState n = 3) ∧ s.d.bit es 0 = false ∧ s.d.fld (b + HOST.EYE_GRID) 0 6 ≠ 0 ∧ s.d.fld (b + HOST.EYE_GRID) 8 6 ≠ 0)
  ∧ (
    let s : State := X 3 ([hst 2] ++ eye 0x01010900 0x0203 0)
    let m : Master := .host
    let n : Lane := 3
    let b := Pg.HOST n
    let es := b + HOST.EYE_STATUS;
    Admits s m (b + HOST.EYE_CMD) ∧ s.d.eyeBad (b + HOST.EYE_CTRL) = true ∧ (s.d.hostState n = 2 ∨ s.d.hostState n = 3) ∧ s.d.bit es 0 = false) :=
  by refine ⟨?_, ?_, ?_⟩ <;> decide +kernel

/-- States and operands that meet the hypotheses of the clauses of `Obligations.Egress` (EgressFrames). -/
theorem witness_Egress_EgressFrames :
  (
    let s : State := hup su
    let n : Lane := 3
    let tag : BitVec 64 := tagw 3 0 0 0 0
    let body : List Byte := fr 96
    let fcs : BitVec 32 := (BitVec.ofNat 32 (natBE (fcsBytes (bytesBE 8 (tagw 3 0 0 0 0).toNat ++ (fr 96)))))+1
    let h := s.d.hostPort n
    let p : Nat := tag.toNat / 2 ^ 56 % 16
    let len := body.length + 4
    let fcsOk : Prop := bytesBE 4 fcs.toNat = fcsBytes (bytesBE 8 tag.toNat ++ body)
    let tagOk : Prop := crc8 ((bytesBE 8 tag.toNat).take 7) = tag.toNat % 256 ∧ tag.toNat / 2 ^ 60 = 1 ∧ tag.toNat / 2 ^ 54 % 4 ≠ 3;
    s.d.hostUp h = true ∧ tagOk ∧ p / 4 = n / 4 ∧ s.d.lpOn p = true ∧ s.d.egressDown p = false ∧ 64 ≤ len ∧ len ≤ 16000 ∧ ¬ fcsOk ∧ s.d.cutThrough n p = false)
  ∧ (
    let s : State := hup []
    let n : Lane := 3
    let tag : BitVec 64 := 5
    let h := s.d.hostPort n
    let tagOk : Prop := crc8 ((bytesBE 8 tag.toNat).take 7) = tag.toNat % 256 ∧ tag.toNat / 2 ^ 60 = 1 ∧ tag.toNat / 2 ^ 54 % 4 ≠ 3;
    s.d.hostUp h = true ∧ ¬ tagOk ∧ tag.toNat / 2 ^ 16 ≠ 0x0180C2000001)
  ∧ (
    let s : State := hup []
    let n : Lane := 3
    let tag : BitVec 64 := tagw 7 0 0 0 0
    let h := s.d.hostPort n
    let p : Nat := tag.toNat / 2 ^ 56 % 16
    let tagOk : Prop := crc8 ((bytesBE 8 tag.toNat).take 7) = tag.toNat % 256 ∧ tag.toNat / 2 ^ 60 = 1 ∧ tag.toNat / 2 ^ 54 % 4 ≠ 3;
    s.d.hostUp h = true ∧ tagOk ∧ (p / 4 ≠ n / 4 ∨ s.d.lpOn p = false))
  ∧ (
    let s : State := hup su
    let n : Lane := 3
    let tag : BitVec 64 := tagw 3 0 0 0 0
    let body : List Byte := fr 96
    let fcs : BitVec 32 := BitVec.ofNat 32 (natBE (fcsBytes (bytesBE 8 (tagw 3 0 0 0 0).toNat ++ (fr 96))))
    let h := s.d.hostPort n
    let p : Nat := tag.toNat / 2 ^ 56 % 16
    let len := body.length + 4
    let fcsOk : Prop := bytesBE 4 fcs.toNat = fcsBytes (bytesBE 8 tag.toNat ++ body)
    let tagOk : Prop := crc8 ((bytesBE 8 tag.toNat).take 7) = tag.toNat % 256 ∧ tag.toNat / 2 ^ 60 = 1 ∧ tag.toNat / 2 ^ 54 % 4 ≠ 3
    let room : Prop := Dev.fillCells (s.d.share p) + Dev.cells len ≤ s.d.lpWidth p * 16384;
    s.d.hostUp h = true ∧ tagOk ∧ p / 4 = n / 4 ∧ s.d.lpOn p = true ∧ s.d.egressDown p = false ∧ 64 ≤ len ∧ len ≤ 16000 ∧ fcsOk ∧ room)
  ∧ (
    let s : State := hup ((Pg.SLICE 0 + SLICE.SLICE_CFG, 0xF0) :: su)
    let n : Lane := 3
    let tag : BitVec 64 := tagw 3 0 0 0 0
    let body : List Byte := fr 96
    let fcs : BitVec 32 := (BitVec.ofNat 32 (natBE (fcsBytes (bytesBE 8 (tagw 3 0 0 0 0).toNat ++ (fr 96)))))+1
    let h := s.d.hostPort n
    let p : Nat := tag.toNat / 2 ^ 56 % 16
    let len := body.length + 4
    let fcsOk : Prop := bytesBE 4 fcs.toNat = fcsBytes (bytesBE 8 tag.toNat ++ body)
    let tagOk : Prop := crc8 ((bytesBE 8 tag.toNat).take 7) = tag.toNat % 256 ∧ tag.toNat / 2 ^ 60 = 1 ∧ tag.toNat / 2 ^ 54 % 4 ≠ 3
    let room : Prop := Dev.fillCells (s.d.share p) + Dev.cells len ≤ s.d.lpWidth p * 16384;
    s.d.hostUp h = true ∧ tagOk ∧ p / 4 = n / 4 ∧ s.d.lpOn p = true ∧ s.d.egressDown p = false ∧ 64 ≤ len ∧ len ≤ 16000 ∧ ¬ fcsOk ∧ s.d.cutThrough n p = true ∧ room)
  ∧ (
    let s : State := shr (List.replicate 80 ⟨15000, [], 0, 3, false⟩) (hup su)
    let n : Lane := 3
    let tag : BitVec 64 := tagw 3 0 0 0 0
    let body : List Byte := fr 96
    let fcs : BitVec 32 := BitVec.ofNat 32 (natBE (fcsBytes (bytesBE 8 (tagw 3 0 0 0 0).toNat ++ (fr 96))))
    let h := s.d.hostPort n
    let p : Nat := tag.toNat / 2 ^ 56 % 16
    let len := body.length + 4
    let fcsOk : Prop := bytesBE 4 fcs.toNat = fcsBytes (bytesBE 8 tag.toNat ++ body)
    let tagOk : Prop := crc8 ((bytesBE 8 tag.toNat).take 7) = tag.toNat % 256 ∧ tag.toNat / 2 ^ 60 = 1 ∧ tag.toNat / 2 ^ 54 % 4 ≠ 3
    let room : Prop := Dev.fillCells (s.d.share p) + Dev.cells len ≤ s.d.lpWidth p * 16384;
    s.d.hostUp h = true ∧ tagOk ∧ p / 4 = n / 4 ∧ s.d.lpOn p = true ∧ s.d.egressDown p = false ∧ 64 ≤ len ∧ len ≤ 16000 ∧ fcsOk ∧ ¬ room) :=
  by refine ⟨?_, ?_, ?_, ?_, ?_, ?_⟩ <;> decide +kernel

/-- States and operands that meet the hypotheses of the clauses of `Obligations.Egress` (EgressTransmission). -/
theorem witness_Egress_EgressTransmission :
  (
    let s : State := shr [(ef 100 (tagw 3 0 0 0 0)), ef 64 0] (sup [])
    let m : Master := .host
    let p : Lane := 3
    let f : EgFrame := ef 100 (tagw 3 0 0 0 0)
    let rest : List EgFrame := [ef 64 0]
    let op := f.tag.toNat / 2 ^ 54 % 4;
    (s.d.share p).frames = f :: rest ∧ s.d.egressDown p = false ∧ Sparse.get (fun _ => 0) s.d.eg.rxPause p = 0 ∧ (∀ i ∈ s.d.lpLanes p, s.d.islandOn (16 + i) = true) ∧ (op = 0 ∨ op = 3) ∧ Admits s m (Pg.HOST p + HOST.TXTS_POP) ∧ (s.d.reports p).length ≤ 16)
  ∧ (
    let s : State := shr [(ef 62 (tagw 3 1 14 0 0)), ef 64 0] (sup [])
    let p : Lane := 3
    let f : EgFrame := ef 62 (tagw 3 1 14 0 0)
    let rest : List EgFrame := [ef 64 0]
    let op := f.tag.toNat / 2 ^ 54 % 4
    let ptp := f.tag.toNat / 2 ^ 44 % 256;
    (s.d.share p).frames = f :: rest ∧ s.d.egressDown p = false ∧ Sparse.get (fun _ => 0) s.d.eg.rxPause p = 0 ∧ (∀ i ∈ s.d.lpLanes p, s.d.islandOn (16 + i) = true) ∧ op = 1 ∧ f.tag.getLsbD 53 = false ∧ ptp + 48 ≤ f.len ∧ ptp + 44 ≤ f.bytes.length)
  ∧ (
    let s : State := shr [(ef 61 (tagw 3 1 14 0 0)), ef 64 0] (sup [])
    let p : Lane := 3
    let f : EgFrame := ef 61 (tagw 3 1 14 0 0)
    let rest : List EgFrame := [ef 64 0]
    let op := f.tag.toNat / 2 ^ 54 % 4
    let ptp := f.tag.toNat / 2 ^ 44 % 256;
    (s.d.share p).frames = f :: rest ∧ s.d.egressDown p = false ∧ Sparse.get (fun _ => 0) s.d.eg.rxPause p = 0 ∧ (∀ i ∈ s.d.lpLanes p, s.d.islandOn (16 + i) = true) ∧ op = 1 ∧ f.len < ptp + 48)
  ∧ (
    let s : State := shr [(ef 100 (tagw 3 2 14 0 0x1234)), ef 64 0] (sup [])
    let p : Lane := 3
    let f : EgFrame := ef 100 (tagw 3 2 14 0 0x1234)
    let rest : List EgFrame := [ef 64 0]
    let op := f.tag.toNat / 2 ^ 54 % 4;
    (s.d.share p).frames = f :: rest ∧ s.d.egressDown p = false ∧ Sparse.get (fun _ => 0) s.d.eg.rxPause p = 0 ∧ (∀ i ∈ s.d.lpLanes p, s.d.islandOn (16 + i) = true) ∧ op = 2 ∧ (s.d.reports p).length < 16)
  ∧ (
    let s : State := shr [(ef 100 (tagw 3 2 14 0 0x1234)), ef 64 0] (rps 16 (sup []))
    let p : Lane := 3
    let f : EgFrame := ef 100 (tagw 3 2 14 0 0x1234)
    let rest : List EgFrame := [ef 64 0]
    let op := f.tag.toNat / 2 ^ 54 % 4;
    (s.d.share p).frames = f :: rest ∧ s.d.egressDown p = false ∧ Sparse.get (fun _ => 0) s.d.eg.rxPause p = 0 ∧ (∀ i ∈ s.d.lpLanes p, s.d.islandOn (16 + i) = true) ∧ op = 2 ∧ 16 ≤ (s.d.reports p).length) :=
  by refine ⟨?_, ?_, ?_, ?_, ?_⟩ <;> decide +kernel

/-- States and operands that meet the hypotheses of the clauses of `Obligations.Egress` (FlowControlFrames). -/
theorem witness_Egress_FlowControlFrames :
  (
    let s : State := an 0x81 (xo true (ec 0x00100002))
    let h : Lane := 3
    let ctrl := s.d.rd (Pg.SLICE (h.val / 4) + SLICE.EG_CTRL)
    let time := fieldOf ctrl 16 16
    let p := s.d.asserted (h / 4)
    let q := s.d.announced h;
    bitOf ctrl 1 = true ∧ time ≠ 0 ∧ s.d.hostUp h = true ∧ p < 256 ∧ p = q ∧ p ≠ 0)
  ∧ (
    let s : State := xo true (ec 0x00100003)
    let h : Lane := 3
    let ctrl := s.d.rd (Pg.SLICE (h.val / 4) + SLICE.EG_CTRL)
    let time := fieldOf ctrl 16 16
    let p := s.d.asserted (h / 4)
    let q := s.d.announced h;
    bitOf ctrl 1 = true ∧ time ≠ 0 ∧ s.d.hostUp h = true ∧ p < 256 ∧ bitOf ctrl 0 = true ∧ q = 0 ∧ p ≠ 0)
  ∧ (
    let s : State := an 0x81 (ec 0x00100003)
    let h : Lane := 3
    let ctrl := s.d.rd (Pg.SLICE (h.val / 4) + SLICE.EG_CTRL)
    let time := fieldOf ctrl 16 16
    let p := s.d.asserted (h / 4)
    let q := s.d.announced h;
    bitOf ctrl 1 = true ∧ time ≠ 0 ∧ s.d.hostUp h = true ∧ p < 256 ∧ bitOf ctrl 0 = true ∧ q ≠ 0 ∧ p = 0)
  ∧ (
    let s : State := xo true (ec 0x00100002)
    let h : Lane := 3
    let ctrl := s.d.rd (Pg.SLICE (h.val / 4) + SLICE.EG_CTRL)
    let time := fieldOf ctrl 16 16
    let p := s.d.asserted (h / 4)
    let q := s.d.announced h;
    bitOf ctrl 1 = true ∧ time ≠ 0 ∧ s.d.hostUp h = true ∧ p < 256 ∧ bitOf ctrl 0 = false ∧ q = 0 ∧ p ≠ 0)
  ∧ (
    let s : State := an 0x81 (ec 0x00100002)
    let h : Lane := 3
    let ctrl := s.d.rd (Pg.SLICE (h.val / 4) + SLICE.EG_CTRL)
    let time := fieldOf ctrl 16 16
    let p := s.d.asserted (h / 4)
    let q := s.d.announced h;
    bitOf ctrl 1 = true ∧ time ≠ 0 ∧ s.d.hostUp h = true ∧ p < 256 ∧ bitOf ctrl 0 = false ∧ q ≠ 0 ∧ p = 0) :=
  by refine ⟨?_, ?_, ?_, ?_, ?_⟩ <;> decide +kernel

/-- States and operands that meet the hypotheses of the clauses of `Obligations.TimeBase`. -/
theorem witness_TimeBase :
  (
    let s : State := tim (up [(Pg.CLKRST + CLKRST.PPS_CTRL, 1), (Pg.CLKRST + CLKRST.PPS_STATUS, 3),(Pg.CLKRST + CLKRST.TIME_WR, 0xFFFFFFFF)])
    let m : Master := .host
    let b := Pg.CLKRST
    let falling : Bool := true
    let cmd := b + CLKRST.TIME_CMD;
    Admits s m cmd ∧ s.d.holder (b / 0x1000) = 0 ∧ s.d.readErr m (b + CLKRST.TIME_RD) = none ∧ s.d.busy (b / 0x1000) = false ∧ s.d.readErr m (b + CLKRST.PPS_CAPT) = none ∧ s.d.bit (b + CLKRST.PPS_CTRL) 0 = true ∧ s.d.bit (b + CLKRST.PPS_CTRL) 1 ≠ falling ∧ s.d.bit (b + CLKRST.PPS_STATUS) 0 = true)
  ∧ (
    let s : State := tim (withLock .host 8 (up [(Pg.CLKRST + CLKRST.TIME_WR, 0xFFFFFFFF), (Pg.CLKRST + CLKRST.TIME_WR + 8, 5)]))
    let m : Master := .host
    let b := Pg.CLKRST
    let cmd := b + CLKRST.TIME_CMD;
    AdmitsHeld s m cmd)
  ∧ (
    let s : State := tim (up [(Pg.CLKRST + CLKRST.PPS_CTRL, 3), (Pg.CLKRST + CLKRST.PPS_STATUS, 0),(Pg.CLKRST + CLKRST.TIME_WR, 0xFFFFFFFF)])
    let b := Pg.CLKRST
    let falling : Bool := true;
    s.d.bit (b + CLKRST.PPS_CTRL) 0 = true ∧ s.d.bit (b + CLKRST.PPS_CTRL) 1 = falling) :=
  by refine ⟨?_, ?_, ?_⟩ <;> decide +kernel

end Sys2Proof.Tests.C08

/-! ### Chapter 09 -/

namespace Sys2Proof.Tests.C09

open Sys2Proof Sys2Proof.Machine Sys2Proof.Tests

set_option Elab.async false

def X (n : Nat) (l : List (Nat × Nat)) : State := up ([(Pg.SLICE (n/4) + SLICE.SLICE_CFG, 0xF1), (Pg.SLICE (n/4) + SLICE.LP_MAP, 0xE4), (Pg.SLICE 0 + SLICE.HOST_CFG, 0x2), (Pg.CLKRST + CLKRST.PLL_STATUS, 0x3FFFF)] ++ l)
def calOk (s : State) := onD (fun t => {t with cal := {t.cal with master := [(128*3, 0xC0000000)]}}) s
def txs (v : Nat) := (Pg.LTX 3 + LTX.TX_STATE, v)

/-- States and operands that meet the hypotheses of the clauses of `Obligations.LineTransmitters`. -/
theorem witness_LineTransmitters :
  (
    let s : State := up [txs 1]
    let m : Master := .host
    let n : Lane := 3
    let b := Pg.LTX n
    let valid : Prop := 128 ≤ (s.d.stagedTaps n).getD 3 0 ∧ ((s.d.stagedTaps n).map Int.natAbs).sum ≤ 256;
    Admits s m (b + LTX.TX_CTRL) ∧ s.d.txState n ≠ 3 ∧ s.d.lpLanes n ≠ [] ∧ (∃ i ∈ s.d.lpLanes n, s.d.squelchCauses n i ≠ 0) ∧ Admits s m (b + LTX.FIR_CMD) ∧ valid ∧ (s.d.txState n = 1 ∨ s.d.txState n = 2))
  ∧ (
    let s : State := calOk (X 3 [])
    let m : Master := .host
    let n : Lane := 3
    let b := Pg.LTX n;
    Admits s m (b + LTX.TX_CTRL) ∧ s.d.txState n = 0 ∧ s.d.lineHeld n = false ∧ s.d.calValidB n = true)
  ∧ (
    let s : State := X 3 [(Pg.LTX 3 + LTX.FIR_STAGE + 12, 127)]
    let m : Master := .host
    let n : Lane := 3
    let b := Pg.LTX n
    let valid : Prop := 128 ≤ (s.d.stagedTaps n).getD 3 0 ∧ ((s.d.stagedTaps n).map Int.natAbs).sum ≤ 256;
    Admits s m (b + LTX.FIR_CMD) ∧ ¬ valid)
  ∧ (
    let s : State := X 3 [txs 1, (Pg.LTX 3 + LTX.PILOT_CTRL, 5)]
    let n : Lane := 3;
    s.d.lpLanes n ≠ [] ∧ (∀ i ∈ s.d.lpLanes n, s.d.txState i = 1 ∧ s.d.squelchCauses n i = 0)) :=
  by refine ⟨?_, ?_, ?_, ?_⟩ <;> decide +kernel

end Sys2Proof.Tests.C09

/-! ### Chapter 10 -/

namespace Sys2Proof.Tests.C10

open Sys2Proof Sys2Proof.Machine Sys2Proof.Tests

set_option Elab.async false

def X (n : Nat) (l : List (Nat × Nat)) : State := up ([(Pg.SLICE (n/4) + SLICE.SLICE_CFG, 0xF1), (Pg.SLICE (n/4) + SLICE.LP_MAP, 0xE4), (Pg.SLICE 0 + SLICE.HOST_CFG, 0x2), (Pg.CLKRST + CLKRST.PLL_STATUS, 0x3FFFF)] ++ l)
def lpg := 0x093
def lts (v : Nat) := (Pg.LANTERN 3 + LANTERN.LT_STATUS, v)
def ltf (f : Lantern → Lantern) (s : State) := onD (fun t => t.setLtn 3 (f (t.ltn 3))) s
def lcfg (k : Nat) := X 3 [lts k, (Pg.LANTERN 3 + LANTERN.RSSI, 0x50), (Pg.LANTERN 3 + LANTERN.CAPTURE_CFG, 0x0410), (Pg.LANTERN 3 + LANTERN.DETECT_CFG, 0x300205)]
def mkF (key : List Byte) (role slot : Bool) (type ctr : Nat) (p : List Byte) : List Byte :=
  let head := [BitVec.ofNat 8 (0x10 + (if slot then 8 else 0) + (if role then 4 else 0)), BitVec.ofNat 8 type, BitVec.ofNat 8 p.length] ++ bytesBE 5 ctr ++ p
  let body := head ++ (hmacSha256 key head).take 16
  body ++ bytesLE 4 (crc32c body)
def key : List Byte := (List.range 32).map (BitVec.ofNat 8)
def Y (l : List (Nat × Nat)) (fl : Nat) (f : List Byte) (a : Bool) : State := onD (fun t => (t.setKeySlot 3 false ⟨key, true, false, 9, fl⟩)) (ltf (fun x => {x with checks := [⟨f, a, none⟩, ⟨[1], true, none⟩]}) (X 3 ([(Pg.LANTERN 3 + LANTERN.RATE_LIM, 0x0FFF)] ++ l)))
def pl (n : Nat) : List Byte := (List.range n).map (BitVec.ofNat 8)
def fr (type : Nat) (p : List Byte) := mkF key true false type 100 p
def tq (lane op tap : Nat) (delta : Nat) (req : Nat) : List Byte := [1, BitVec.ofNat 8 (lane * 16)] ++ bytesBE 2 req ++ [BitVec.ofNat 8 op, BitVec.ofNat 8 tap] ++ bytesBE 2 delta ++ [0,0,0,0]
def ltw (l : List LtFrame) (air : Option (List Byte)) (r : List (Nat × Nat)) := onD (fun t => (t.setKeySlot 3 false ⟨key, true, false, 9, 0⟩)) (ltf (fun x => {x with waiting := l, onAir := air}) (X 3 ([(Pg.LTX 3 + LTX.TX_STATE, 2), (Pg.LANTERN 3 + LANTERN.IDENT_PERIOD, 5), (Pg.LANTERN 3 + LANTERN.LT_CTRL, 3), (Pg.LTX 3 + LTX.PILOT_CTRL, 5), (Pg.LTX 3 + LTX.PILOT_STATUS, 5)] ++ r)))
def r4 (s : State) := onD (fun t => (t.setRing 4 {RingSt.init with slots := [(3, some dma0)]}).wr (Pg.RING 4 + RING.RING_CTRL) 1) s
def wf (type : Nat) (ring : Bool) : LtFrame := ⟨type, [1,2], 0, ring, none⟩

/-- States and operands that meet the hypotheses of the clauses of `Obligations.LanternKeysAndTransmission` (LanternKeys). -/
theorem witness_LanternKeysAndTransmission_LanternKeys :
  (
    let s : State := X 3 [(Pg.LANTERN 3 + LANTERN.KEY_STAGE, 0x12345678)]
    let m : Master := .host
    let n : Lane := 3
    let b := Pg.LANTERN n
    let a := b + LANTERN.KEY_CMD;
    Admits s m a ∧ s.d.holder (a / 0x1000) = 0)
  ∧ (
    let s : State := withLock .host lpg (X 3 [(Pg.LANTERN 3 + LANTERN.CTR_INIT_RX, 5)])
    let m : Master := .host
    let n : Lane := 3
    let b := Pg.LANTERN n
    let a := b + LANTERN.KEY_CMD;
    AdmitsHeld s m a) :=
  by refine ⟨?_, ?_⟩ <;> decide +kernel

/-- States and operands that meet the hypotheses of the clauses of `Obligations.LanternReception`. -/
theorem witness_LanternReception :
  (
    let s : State := lcfg 4
    let n : Lane := 3
    let levels : List (BitVec 16) := List.replicate 20 0xFFF0
    let decisions : List Bool := []
    let along : List LtTrigger := []
    let first (t : LtTrigger) : Prop := Dev.ltFirst t along = true
    let full : Nat := 1000
    let samples : Nat := 5
    let b := Pg.LANTERN n
    let seen := signedOf 16 (s.d.fld (b + LANTERN.RSSI) 0 16)
    let margin := s.d.fld (b + LANTERN.CAPTURE_CFG) 0 8
    let wrong (l : List Bool) : Nat :=
      (List.range 32).countP (fun i => l.getD (l.length - 32 + i) false != (0x5B3E90C7 : BitVec 32).getLsbD (31 - i))
    let found (l : List Bool) : Prop := 32 ≤ l.length ∧ wrong l ≤ s.d.fld (b + LANTERN.DETECT_CFG) 8 8
    let thresh : Int := -(s.d.fld (b + LANTERN.DETECT_CFG) 0 8 : Int)
    let below (k : Nat) (x : Int) : Prop := k ≤ levels.length ∧ (levels.drop (levels.length - k)).all (fun y => decide (y.toInt < x)) = true
    let above (k : Nat) (x : Int) : Prop := k ≤ levels.length ∧ (levels.drop (levels.length - k)).all (fun y => decide (x < y.toInt)) = true;
    ¬ above 8 (thresh - 1) ∧ ¬ found decisions ∧ (s.d.ltState n = 3 ∨ s.d.ltState n = 4) ∧ samples < 16 * full ∧ first .clip ∧ (¬ above 4 (seen + margin) ∨ (s.d.ltn n).collided = true) ∧ s.d.ltState n = 4 ∧ below 16 thresh ∧ first .lost ∧ first .header ∧ first .frameEnd)
  ∧ (
    let s : State := lcfg 2
    let n : Lane := 3
    let levels : List (BitVec 16) := List.replicate 20 0x50
    let decisions : List Bool := List.replicate 140 true
    let b := Pg.LANTERN n
    let thresh : Int := -(s.d.fld (b + LANTERN.DETECT_CFG) 0 8 : Int)
    let below (k : Nat) (x : Int) : Prop := k ≤ levels.length ∧ (levels.drop (levels.length - k)).all (fun y => decide (y.toInt < x)) = true
    let symbols : Nat := 256;
    s.d.ltState n = 2 ∧ (256 ≤ symbols ∨ below 16 thresh) ∧ s.d.fld (b + LANTERN.AGC_CFG) 0 5 ≤ decisions.length ∧ s.d.fld (b + LANTERN.DETECT_CFG) 16 8 ≤ (decisions.drop (decisions.length - 64)).countP id)
  ∧ (
    let s : State := lcfg 1
    let n : Lane := 3
    let levels : List (BitVec 16) := List.replicate 20 0x50
    let b := Pg.LANTERN n
    let thresh : Int := -(s.d.fld (b + LANTERN.DETECT_CFG) 0 8 : Int)
    let above (k : Nat) (x : Int) : Prop := k ≤ levels.length ∧ (levels.drop (levels.length - k)).all (fun y => decide (x < y.toInt)) = true;
    s.d.ltState n = 1 ∧ above 8 (thresh - 1))
  ∧ (
    let s : State := lcfg 4
    let n : Lane := 3
    let levels : List (BitVec 16) := List.replicate 20 0x57
    let b := Pg.LANTERN n
    let seen := signedOf 16 (s.d.fld (b + LANTERN.RSSI) 0 16)
    let margin := s.d.fld (b + LANTERN.CAPTURE_CFG) 0 8
    let step := s.d.fld (b + LANTERN.CAPTURE_CFG) 8 8
    let above (k : Nat) (x : Int) : Prop := k ≤ levels.length ∧ (levels.drop (levels.length - k)).all (fun y => decide (x < y.toInt)) = true
    let below (k : Nat) (x : Int) : Prop := k ≤ levels.length ∧ (levels.drop (levels.length - k)).all (fun y => decide (y.toInt < x)) = true;
    s.d.ltState n = 4 ∧ above 8 (seen + step) ∧ below 8 (seen + margin + 1) ∧ (s.d.ltn n).collided = false)
  ∧ (
    let s : State := lcfg 4
    let n : Lane := 3
    let levels : List (BitVec 16) := List.replicate 20 0x70
    let along : List LtTrigger := []
    let b := Pg.LANTERN n
    let seen := signedOf 16 (s.d.fld (b + LANTERN.RSSI) 0 16)
    let margin := s.d.fld (b + LANTERN.CAPTURE_CFG) 0 8
    let above (k : Nat) (x : Int) : Prop := k ≤ levels.length ∧ (levels.drop (levels.length - k)).all (fun y => decide (x < y.toInt)) = true
    let first (t : LtTrigger) : Prop := Dev.ltFirst t along = true;
    s.d.ltState n = 4 ∧ above 4 (seen + margin) ∧ (s.d.ltn n).collided = false ∧ first .capture)
  ∧ (
    let s : State := lcfg 3
    let n : Lane := 3
    let decisions : List Bool := syncBits
    let b := Pg.LANTERN n
    let wrong (l : List Bool) : Nat :=
      (List.range 32).countP (fun i => l.getD (l.length - 32 + i) false != (0x5B3E90C7 : BitVec 32).getLsbD (31 - i))
    let found (l : List Bool) : Prop := 32 ≤ l.length ∧ wrong l ≤ s.d.fld (b + LANTERN.DETECT_CFG) 8 8;
    s.d.ltState n = 3 ∧ decisions.length ≤ 128 ∧ found decisions)
  ∧ (
    let s : State := lcfg 3
    let n : Lane := 3
    let decisions : List Bool := List.replicate 140 true
    let b := Pg.LANTERN n
    let wrong (l : List Bool) : Nat :=
      (List.range 32).countP (fun i => l.getD (l.length - 32 + i) false != (0x5B3E90C7 : BitVec 32).getLsbD (31 - i))
    let found (l : List Bool) : Prop := 32 ≤ l.length ∧ wrong l ≤ s.d.fld (b + LANTERN.DETECT_CFG) 8 8;
    s.d.ltState n = 3 ∧ 128 ≤ decisions.length ∧ (∀ k, k ≤ 128 → ¬ found (decisions.take k)))
  ∧ (
    let s : State := ltf (fun y => {y with collided := true}) (lcfg 4)
    let n : Lane := 3
    let levels : List (BitVec 16) := List.replicate 20 0x57
    let b := Pg.LANTERN n
    let seen := signedOf 16 (s.d.fld (b + LANTERN.RSSI) 0 16)
    let margin := s.d.fld (b + LANTERN.CAPTURE_CFG) 0 8
    let step := s.d.fld (b + LANTERN.CAPTURE_CFG) 8 8
    let above (k : Nat) (x : Int) : Prop := k ≤ levels.length ∧ (levels.drop (levels.length - k)).all (fun y => decide (x < y.toInt)) = true
    let below (k : Nat) (x : Int) : Prop := k ≤ levels.length ∧ (levels.drop (levels.length - k)).all (fun y => decide (y.toInt < x)) = true;
    s.d.ltState n = 4 ∧ above 8 (seen + step) ∧ below 8 (seen + margin + 1) ∧ (s.d.ltn n).collided = true) :=
  by refine ⟨?_, ?_, ?_, ?_, ?_, ?_, ?_, ?_⟩ <;> decide +kernel

/-- States and operands that meet the hypotheses of the clauses of `Obligations.LanternMessages` (LanternMessages). -/
theorem witness_LanternMessages_LanternMessages :
  (
    let s : State := Y [] 5 (fr 0x7F (pl 0)) false
    let n : Lane := 3
    let f : List Byte := fr 0x7F (pl 0)
    let rest : List RxFrame := [⟨[1], true, none⟩]
    let b := Pg.LANTERN n
    let type := Dev.hdrType f
    let key := s.d.keySlot n (Dev.hdrKey f)
    let good := Dev.crcOk f = true ∧ s.d.authOk n key f = true ∧ Dev.replayOk key f = true ∧ s.d.rateOk n = true;
    (s.d.ltn n).checks = ⟨f, false, none⟩ :: rest ∧ s.d.bit (b + LANTERN.LT_STATUS) 10 = false ∧ good ∧ 0x40 ≤ type ∧ type ≤ 0x7F ∧ s.d.ringRuns 4 = false)
  ∧ (
    let s : State := Y [] 5 (fr 4 (pl 4)) false
    let n : Lane := 3
    let f : List Byte := fr 4 (pl 4)
    let rest : List RxFrame := [⟨[1], true, none⟩]
    let b := Pg.LANTERN n
    let p := Dev.framePayload f
    let type := Dev.hdrType f
    let key := s.d.keySlot n (Dev.hdrKey f)
    let good := Dev.crcOk f = true ∧ s.d.authOk n key f = true ∧ Dev.replayOk key f = true ∧ s.d.rateOk n = true;
    (s.d.ltn n).checks = ⟨f, false, none⟩ :: rest ∧ s.d.bit (b + LANTERN.LT_STATUS) 10 = false ∧ good ∧ type = 4 ∧ 4 ≤ p.length)
  ∧ (
    let s : State := Y [] 5 (fr 5 (pl 8)) false
    let n : Lane := 3
    let f : List Byte := fr 5 (pl 8)
    let rest : List RxFrame := [⟨[1], true, none⟩]
    let b := Pg.LANTERN n
    let p := Dev.framePayload f
    let type := Dev.hdrType f
    let key := s.d.keySlot n (Dev.hdrKey f)
    let good := Dev.crcOk f = true ∧ s.d.authOk n key f = true ∧ Dev.replayOk key f = true ∧ s.d.rateOk n = true;
    (s.d.ltn n).checks = ⟨f, false, none⟩ :: rest ∧ s.d.bit (b + LANTERN.LT_STATUS) 10 = false ∧ good ∧ type = 5 ∧ 8 ≤ p.length)
  ∧ (
    let s : State := Y [] 5 (fr 0 (pl 4)) false
    let n : Lane := 3
    let f : List Byte := fr 0 (pl 4)
    let rest : List RxFrame := [⟨[1], true, none⟩]
    let b := Pg.LANTERN n
    let type := Dev.hdrType f
    let key := s.d.keySlot n (Dev.hdrKey f)
    let good := Dev.crcOk f = true ∧ s.d.authOk n key f = true ∧ Dev.replayOk key f = true ∧ s.d.rateOk n = true;
    (s.d.ltn n).checks = ⟨f, false, none⟩ :: rest ∧ s.d.bit (b + LANTERN.LT_STATUS) 10 = false ∧ good ∧ (type = 0 ∨ 6 < type) ∧ (type < 0x40 ∨ 0x7F < type))
  ∧ (
    let s : State := Y [] 5 (fr 1 (pl 32)) false
    let n : Lane := 3
    let f : List Byte := fr 1 (pl 32)
    let rest : List RxFrame := [⟨[1], true, none⟩]
    let b := Pg.LANTERN n
    let p := Dev.framePayload f
    let type := Dev.hdrType f
    let key := s.d.keySlot n (Dev.hdrKey f)
    let good := Dev.crcOk f = true ∧ s.d.authOk n key f = true ∧ Dev.replayOk key f = true ∧ s.d.rateOk n = true;
    (s.d.ltn n).checks = ⟨f, false, none⟩ :: rest ∧ s.d.bit (b + LANTERN.LT_STATUS) 10 = false ∧ good ∧ type = 1 ∧ 32 ≤ p.length)
  ∧ (
    let s : State := Y [] 5 (fr 3 (pl 10)) false
    let n : Lane := 3
    let f : List Byte := fr 3 (pl 10)
    let rest : List RxFrame := [⟨[1], true, none⟩]
    let b := Pg.LANTERN n
    let p := Dev.framePayload f
    let type := Dev.hdrType f
    let key := s.d.keySlot n (Dev.hdrKey f)
    let good := Dev.crcOk f = true ∧ s.d.authOk n key f = true ∧ Dev.replayOk key f = true ∧ s.d.rateOk n = true;
    (s.d.ltn n).checks = ⟨f, false, none⟩ :: rest ∧ s.d.bit (b + LANTERN.LT_STATUS) 10 = false ∧ good ∧ type = 3 ∧ 10 ≤ p.length)
  ∧ (
    let s : State := Y [] 100 (fr 1 (pl 32)) false
    let n : Lane := 3
    let f : List Byte := fr 1 (pl 32)
    let rest : List RxFrame := [⟨[1], true, none⟩]
    let b := Pg.LANTERN n
    let key := s.d.keySlot n (Dev.hdrKey f);
    (s.d.ltn n).checks = ⟨f, false, none⟩ :: rest ∧ s.d.bit (b + LANTERN.LT_STATUS) 10 = false ∧ Dev.crcOk f = true ∧ s.d.authOk n key f = true ∧ Dev.replayOk key f = false)
  ∧ (
    let s : State := Y [] 5 ((fr 1 (pl 32)).set 9 77) false
    let n : Lane := 3
    let f : List Byte := (fr 1 (pl 32)).set 9 77
    let rest : List RxFrame := [⟨[1], true, none⟩]
    let b := Pg.LANTERN n;
    (s.d.ltn n).checks = ⟨f, false, none⟩ :: rest ∧ s.d.bit (b + LANTERN.LT_STATUS) 10 = false ∧ Dev.crcOk f = false)
  ∧ (
    let s : State := Y [(Pg.LANTERN 3 + LANTERN.LT_STATUS, 0x400)] 5 (fr 1 (pl 32)) false
    let n : Lane := 3
    let f : List Byte := fr 1 (pl 32)
    let rest : List RxFrame := [⟨[1], true, none⟩]
    let b := Pg.LANTERN n
    let type := Dev.hdrType f
    let key := s.d.keySlot n (Dev.hdrKey f)
    let good := Dev.crcOk f = true ∧ s.d.authOk n key f = true ∧ Dev.replayOk key f = true ∧ s.d.rateOk n = true;
    (s.d.ltn n).checks = ⟨f, false, none⟩ :: rest ∧ s.d.bit (b + LANTERN.LT_STATUS) 10 = true ∧ good ∧ type = 1)
  ∧ (
    let s : State := Y [(Pg.LANTERN 3 + LANTERN.RATE_LIM, 0x00FF)] 99 (fr 1 (pl 32)) false
    let n : Lane := 3
    let f : List Byte := fr 1 (pl 32)
    let rest : List RxFrame := [⟨[1], true, none⟩]
    let b := Pg.LANTERN n
    let key := s.d.keySlot n (Dev.hdrKey f);
    (s.d.ltn n).checks = ⟨f, false, none⟩ :: rest ∧ s.d.bit (b + LANTERN.LT_STATUS) 10 = false ∧ Dev.crcOk f = true ∧ s.d.authOk n key f = true ∧ Dev.replayOk key f = true ∧ s.d.rateOk n = false)
  ∧ (
    let s : State := Y [] 5 (mkF (key.set 0 5) true false 1 100 (pl 32)) false
    let n : Lane := 3
    let f : List Byte := mkF (key.set 0 5) true false 1 100 (pl 32)
    let rest : List RxFrame := [⟨[1], true, none⟩]
    let b := Pg.LANTERN n
    let key := s.d.keySlot n (Dev.hdrKey f);
    (s.d.ltn n).checks = ⟨f, false, none⟩ :: rest ∧ s.d.bit (b + LANTERN.LT_STATUS) 10 = false ∧ Dev.crcOk f = true ∧ s.d.authOk n key f = false) :=
  by refine ⟨?_, ?_, ?_, ?_, ?_, ?_, ?_, ?_, ?_, ?_, ?_⟩ <;> decide +kernel

/-- States and operands that meet the hypotheses of the clauses of `Obligations.LanternMessages` (FarEndTuning). -/
theorem witness_LanternMessages_FarEndTuning :
  (
    let s : State := ltf (fun x => {x with tuneReply := none}) (Y ([(Pg.LTX 3 + LTX.TUNE_CTRL, 1), (Pg.LTX 3 + LTX.TX_STATE, 2)] ++ []) 5 (fr 2 (tq 0 1 3 5 0x55)) false)
    let n : Lane := 3
    let f : List Byte := fr 2 (tq 0 1 3 5 0x55)
    let rest : List RxFrame := [⟨[1], true, none⟩]
    let b := Dev.framePayload f
    let x (i : Nat) := (b.getD i 0).toNat
    let lane := s.d.linePort n + x 1 / 16
    let a := Pg.LTX lane
    let req := BitVec.ofNat 16 (natBE (slice b 2 2))
    let r := s.d.tuneTaps lane (x 4) (x 5) (signedOf 16 (natBE (slice b 6 2)))
    let good := Dev.crcOk f = true ∧ s.d.authOk n (s.d.keySlot n (Dev.hdrKey f)) f = true
      ∧ Dev.replayOk (s.d.keySlot n (Dev.hdrKey f)) f = true ∧ s.d.rateOk n = true ∧ Dev.hdrType f = 2;
    (s.d.ltn n).checks = ⟨f, false, none⟩ :: rest ∧ s.d.bit (Pg.LANTERN n + LANTERN.LT_STATUS) 10 = false ∧ good ∧ b.length = 12 ∧ x 1 / 16 < s.d.lpWidth (s.d.linePort n) ∧ s.d.assisted a = false ∧ (s.d.ltn lane).tuneReply.map (·.1) ≠ some req ∧ x 0 = 1 ∧ x 1 % 16 = 0 ∧ (x 4 = 1 ∨ x 4 = 2 ∨ x 4 = 3) ∧ x 5 ≤ 8 ∧ (∀ i, 8 ≤ i → i < 12 → x i = 0) ∧ s.d.bit (a + LTX.TUNE_CTRL) 0 = true ∧ s.d.txState lane ≠ 0 ∧ s.d.txState lane ≠ 3 ∧ r.1 ≠ 0)
  ∧ (
    let s : State := ltf (fun x => {x with tuneReply := none}) (Y ([(Pg.LTX 3 + LTX.TUNE_CTRL, 1), (Pg.LTX 3 + LTX.TX_STATE, 2)] ++ []) 5 (fr 2 (tq 0 2 4 0 0x55)) false)
    let n : Lane := 3
    let f : List Byte := fr 2 (tq 0 2 4 0 0x55)
    let rest : List RxFrame := [⟨[1], true, none⟩]
    let b := Dev.framePayload f
    let x (i : Nat) := (b.getD i 0).toNat
    let lane := s.d.linePort n + x 1 / 16
    let a := Pg.LTX lane
    let req := BitVec.ofNat 16 (natBE (slice b 2 2))
    let r := s.d.tuneTaps lane (x 4) (x 5) (signedOf 16 (natBE (slice b 6 2)))
    let good := Dev.crcOk f = true ∧ s.d.authOk n (s.d.keySlot n (Dev.hdrKey f)) f = true
      ∧ Dev.replayOk (s.d.keySlot n (Dev.hdrKey f)) f = true ∧ s.d.rateOk n = true ∧ Dev.hdrType f = 2;
    (s.d.ltn n).checks = ⟨f, false, none⟩ :: rest ∧ s.d.bit (Pg.LANTERN n + LANTERN.LT_STATUS) 10 = false ∧ good ∧ b.length = 12 ∧ x 1 / 16 < s.d.lpWidth (s.d.linePort n) ∧ s.d.assisted a = false ∧ (s.d.ltn lane).tuneReply.map (·.1) ≠ some req ∧ x 0 = 1 ∧ x 1 % 16 = 0 ∧ (x 4 = 1 ∨ x 4 = 2 ∨ x 4 = 3) ∧ x 5 ≤ 8 ∧ (∀ i, 8 ≤ i → i < 12 → x i = 0) ∧ s.d.bit (a + LTX.TUNE_CTRL) 0 = true ∧ s.d.txState lane ≠ 0 ∧ s.d.txState lane ≠ 3 ∧ r.1 = 0 ∧ x 4 ≠ 3)
  ∧ (
    let s : State := ltf (fun x => {x with tuneReply := (some (0x55, [1]))}) (Y ([(Pg.LTX 3 + LTX.TUNE_CTRL, 1), (Pg.LTX 3 + LTX.TX_STATE, 2)] ++ []) 5 (fr 2 (tq 0 3 4 0 0x55)) false)
    let n : Lane := 3
    let f : List Byte := fr 2 (tq 0 3 4 0 0x55)
    let rest : List RxFrame := [⟨[1], true, none⟩]
    let b := Dev.framePayload f
    let x (i : Nat) := (b.getD i 0).toNat
    let lane := s.d.linePort n + x 1 / 16
    let a := Pg.LTX lane
    let req := BitVec.ofNat 16 (natBE (slice b 2 2))
    let good := Dev.crcOk f = true ∧ s.d.authOk n (s.d.keySlot n (Dev.hdrKey f)) f = true
      ∧ Dev.replayOk (s.d.keySlot n (Dev.hdrKey f)) f = true ∧ s.d.rateOk n = true ∧ Dev.hdrType f = 2
    let old := [1];
    (s.d.ltn n).checks = ⟨f, false, none⟩ :: rest ∧ s.d.bit (Pg.LANTERN n + LANTERN.LT_STATUS) 10 = false ∧ good ∧ b.length = 12 ∧ x 1 / 16 < s.d.lpWidth (s.d.linePort n) ∧ s.d.assisted a = false ∧ (s.d.ltn lane).tuneReply = some (req, old)) :=
  by refine ⟨?_, ?_, ?_⟩ <;> decide +kernel

/-- States and operands that meet the hypotheses of the clauses of `Obligations.LanternKeysAndTransmission` (LanternTransmission). -/
theorem witness_LanternKeysAndTransmission_LanternTransmission :
  (
    let s : State := ltw [] (some [0,1,2,3,4]) []
    let m : Master := .host
    let n : Lane := 3
    let b := Pg.LANTERN n
    let a := b + LANTERN.TX_CMD
    let l := s.d.ltn n
    let room (type : Nat) : Prop := ∀ f ∈ l.waiting, f.type = type → f.ring = true;
    s.d.txReady n = false ∧ (l.onAir).isSome = true ∧ s.d.assisted b = false ∧ room 1 ∧ s.d.fld (b + LANTERN.IDENT_PERIOD) 0 16 ≠ 0 ∧ Admits s m a ∧ room 6)
  ∧ (
    let s : State := ltw [wf 6 false, wf 1 true] none []
    let m : Master := .host
    let n : Lane := 3
    let b := Pg.LANTERN n
    let a := b + LANTERN.TX_CMD
    let l := s.d.ltn n
    let f := (l.waiting.headD ⟨5, [1, 2, 3], 7, false, none⟩);
    s.d.ltNext n = some f ∧ s.d.txReady n = true ∧ f.raw = none ∧ f.type = 6 ∧ f.ring = false ∧ Admits s m a)
  ∧ (
    let s : State := r4 (ltw [] none [])
    let n : Lane := 3
    let record : List Byte := []
    let l := s.d.ltn n;
    (Sparse.get (fun _ => none) (s.d.ring 4).slots n).isSome = true ∧ s.d.txReady n = true ∧ l.waiting = [] ∧ s.d.ringRuns 4 = true ∧ s.d.txRecordBad n record = true)
  ∧ (
    let s : State := r4 (ltw [] none [])
    let n : Lane := 3
    let record : List Byte := bytesLE 4 (3 * 2^24 + 24 + 10) ++ pl 12 ++ [0x10, 0x40, 10] ++ pl 40
    let l := s.d.ltn n;
    (Sparse.get (fun _ => none) (s.d.ring 4).slots n).isSome = true ∧ s.d.txReady n = true ∧ l.waiting = [] ∧ s.d.ringRuns 4 = true ∧ s.d.txRecordBad n record = false) :=
  by refine ⟨?_, ?_, ?_, ?_⟩ <;> decide +kernel

end Sys2Proof.Tests.C10

/-! ### Chapter 11 -/

namespace Sys2Proof.Tests.C11

open Sys2Proof Sys2Proof.Machine Sys2Proof.Tests

set_option Elab.async false

def E0 (l : List (Nat × Nat)) : State := onD (fun t => {t with cal := {t.cal with master := [(128*16, 0xC0000000)]}}) (up ([(Pg.SLICE 0 + SLICE.SLICE_CFG, 0xF3)] ++ l))
def o (k v : Nat) := (Pg.ANA 0 + ANA.OUT_STATUS + 0x10 * k, v)
def ms (v : Nat) := (Pg.MM 3 + MM.MM_STATE, v)
def mmo (f : Module → Module) (s : State) := onD (fun t => t.setMmo 3 (f (t.mmo 3))) s
def xf (ctrl st mmst : Nat) := up [(Pg.SLICE 0 + SLICE.SLICE_CFG, 0xF1), (Pg.SLICE 0 + SLICE.LP_MAP, 0xE4), (Pg.SLICE 0 + SLICE.HOST_CFG, 0x2), (Pg.MM 3 + MM.POLL_CFG, if ctrl % 2 = 0 then 0 else 0x50000), ms mmst, (Pg.MM 3 + MM.XFER_CTRL, ctrl), (Pg.MM 3 + MM.XFER_STATUS, st)]

set_option synthInstance.maxHeartbeats 400000 in
set_option synthInstance.maxSize 4096 in
/-- States and operands that meet the hypotheses of the clauses of `Obligations.AnalogueOutputsAndMonitors` (AnalogueOutputs). -/
theorem witness_AnalogueOutputsAndMonitors_AnalogueOutputs :
  (
    let s : State := E0 [o 0 1, (Pg.ANA 0 + ANA.CHK_STATUS, 2^0 + (2^31 + 0 * 2^16))]
    let m : Master := .host
    let i : Slice := 0
    let k : Fin 10 := Fin.ofNat 10 0
    let b := Dev.outBase i k
    let idac : Prop := k.val < 8
    let checked : Nat := if k.val < 8 then s.d.fld (Pg.ANA_COM + ANA_COM.CHK_CODE) 0 20 else s.d.fld (b + ANA.CODE) 0 16;
    Admits s m (b + ANA.OUT_CFG) ∧ s.d.outState i k ≠ 5 ∧ Admits s m (Pg.ANA i + ANA.OUT_CMD) ∧ s.d.outState i k ≠ 3 ∧ Admits s m (b + ANA.CODE) ∧ s.d.outWriter i k m = false
      ∧ (let opens (code : Nat) (x : OutSense) : Prop :=
         if k.val < 8 then 4096 ≤ code ∧ x.current * 100 * 2 ^ 20 < (s.d.fld (Pg.ANA_COM + ANA_COM.SUP_CFG) 8 8 : Int) * 240000 * code
         else 500 * 65536 < (x.voltage * 65536 - 25000 * (code : Int)).natAbs;
       let exceeds (code : Nat) (x : OutSense) : Prop :=
         if k.val < 8 then 4096 ≤ code ∧ (x.voltage < 2500 ∨ 25000 < x.voltage) else 100000 < x.current.natAbs;
       let fits (mean : Nat) : Prop :=
         if k.val < 8 then ((mean : Int) * 2 ^ 20 - 240000 * checked).natAbs * 1000
         ≤ s.d.fld (Pg.ANA_COM + ANA_COM.CHK_TOL) 0 8 * (240000 * checked)
         else ((mean : Int) * 65536 - 25000 * checked).natAbs * 100
         ≤ s.d.fld (Pg.ANA_COM + ANA_COM.CHK_TOL) 16 8 * 65536000 + 25000 * checked;
       let mean : BitVec 20 := BitVec.ofNat 20 (if k.val < 8 then 240000 * checked / 2 ^ 20 else 25000 * checked / 65536);
       let x : OutSense := if k.val < 8 then ⟨240000, 10000⟩ else ⟨0, 25000 * (s.d.fld (b + ANA.CODE) 0 16) / 65536⟩;
       s.d.chkRuns i = true ∧ s.d.chkOutput i = k ∧ s.d.outState i k = 1 ∧ s.d.bit (Pg.ANA i + ANA.CHK_STATUS) k = true ∧ fits mean.toNat ∧ (idac → ¬ opens checked x ∧ ¬ exceeds checked x) ∧ bitOf (Sparse.get (fun _ => 0) s.d.cal.oor (16 + i)) k = false)
      ∧ (let opens (code : Nat) (x : OutSense) : Prop :=
         if k.val < 8 then 4096 ≤ code ∧ x.current * 100 * 2 ^ 20 < (s.d.fld (Pg.ANA_COM + ANA_COM.SUP_CFG) 8 8 : Int) * 240000 * code
         else 500 * 65536 < (x.voltage * 65536 - 25000 * (code : Int)).natAbs;
       let x : OutSense := ⟨0, 10000⟩;
       s.d.chkRuns i = true ∧ s.d.chkOutput i = k ∧ s.d.outState i k = 1 ∧ s.d.bit (Pg.ANA i + ANA.CHK_STATUS) k = true ∧ idac ∧ opens checked x)
      ∧ (let opens (code : Nat) (x : OutSense) : Prop :=
         if k.val < 8 then 4096 ≤ code ∧ x.current * 100 * 2 ^ 20 < (s.d.fld (Pg.ANA_COM + ANA_COM.SUP_CFG) 8 8 : Int) * 240000 * code
         else 500 * 65536 < (x.voltage * 65536 - 25000 * (code : Int)).natAbs;
       let exceeds (code : Nat) (x : OutSense) : Prop :=
         if k.val < 8 then 4096 ≤ code ∧ (x.voltage < 2500 ∨ 25000 < x.voltage) else 100000 < x.current.natAbs;
       let x : OutSense := ⟨240000, 30000⟩;
       s.d.chkRuns i = true ∧ s.d.chkOutput i = k ∧ s.d.outState i k = 1 ∧ s.d.bit (Pg.ANA i + ANA.CHK_STATUS) k = true ∧ idac ∧ ¬ opens checked x ∧ exceeds checked x)
      ∧ (let opens (code : Nat) (x : OutSense) : Prop :=
         if k.val < 8 then 4096 ≤ code ∧ x.current * 100 * 2 ^ 20 < (s.d.fld (Pg.ANA_COM + ANA_COM.SUP_CFG) 8 8 : Int) * 240000 * code
         else 500 * 65536 < (x.voltage * 65536 - 25000 * (code : Int)).natAbs;
       let exceeds (code : Nat) (x : OutSense) : Prop :=
         if k.val < 8 then 4096 ≤ code ∧ (x.voltage < 2500 ∨ 25000 < x.voltage) else 100000 < x.current.natAbs;
       let fits (mean : Nat) : Prop :=
         if k.val < 8 then ((mean : Int) * 2 ^ 20 - 240000 * checked).natAbs * 1000
         ≤ s.d.fld (Pg.ANA_COM + ANA_COM.CHK_TOL) 0 8 * (240000 * checked)
         else ((mean : Int) * 65536 - 25000 * checked).natAbs * 100
         ≤ s.d.fld (Pg.ANA_COM + ANA_COM.CHK_TOL) 16 8 * 65536000 + 25000 * checked;
       let mean : BitVec 20 := 0xFFFFF;
       let x : OutSense := if k.val < 8 then ⟨240000, 10000⟩ else ⟨0, 25000 * (s.d.fld (b + ANA.CODE) 0 16) / 65536⟩;
       s.d.chkRuns i = true ∧ s.d.chkOutput i = k ∧ s.d.outState i k = 1 ∧ s.d.bit (Pg.ANA i + ANA.CHK_STATUS) k = true ∧ ¬ fits mean.toNat ∧ (idac → ¬ opens checked x ∧ ¬ exceeds checked x)))
  ∧ (
    let s : State := E0 [o 0 2, (Dev.outBase 0 0 + ANA.CODE, 0x8000), (Dev.outBase 0 0 + ANA.OUT_CFG, 1)]
    let i : Slice := 0
    let k : Fin 10 := Fin.ofNat 10 0
    let b := Dev.outBase i k;
    (let opens (code : Nat) (x : OutSense) : Prop :=
         if k.val < 8 then 4096 ≤ code ∧ x.current * 100 * 2 ^ 20 < (s.d.fld (Pg.ANA_COM + ANA_COM.SUP_CFG) 8 8 : Int) * 240000 * code
         else 500 * 65536 < (x.voltage * 65536 - 25000 * (code : Int)).natAbs;
       let x : OutSense := ⟨0, 10000⟩;
       s.d.outState i k = 2 ∧ opens (s.d.appliedCode i k) x)
      ∧ (let opens (code : Nat) (x : OutSense) : Prop :=
         if k.val < 8 then 4096 ≤ code ∧ x.current * 100 * 2 ^ 20 < (s.d.fld (Pg.ANA_COM + ANA_COM.SUP_CFG) 8 8 : Int) * 240000 * code
         else 500 * 65536 < (x.voltage * 65536 - 25000 * (code : Int)).natAbs;
       let exceeds (code : Nat) (x : OutSense) : Prop :=
         if k.val < 8 then 4096 ≤ code ∧ (x.voltage < 2500 ∨ 25000 < x.voltage) else 100000 < x.current.natAbs;
       let x : OutSense := ⟨240000, 30000⟩;
       s.d.outState i k = 2 ∧ ¬ opens (s.d.appliedCode i k) x ∧ exceeds (s.d.appliedCode i k) x)
      ∧ (let opens (code : Nat) (x : OutSense) : Prop :=
         if k.val < 8 then 4096 ≤ code ∧ x.current * 100 * 2 ^ 20 < (s.d.fld (Pg.ANA_COM + ANA_COM.SUP_CFG) 8 8 : Int) * 240000 * code
         else 500 * 65536 < (x.voltage * 65536 - 25000 * (code : Int)).natAbs;
       let exceeds (code : Nat) (x : OutSense) : Prop :=
         if k.val < 8 then 4096 ≤ code ∧ (x.voltage < 2500 ∨ 25000 < x.voltage) else 100000 < x.current.natAbs;
       let x : OutSense := if k.val < 8 then ⟨240000, 10000⟩ else ⟨0, 25000 * (s.d.fld (b + ANA.CODE) 0 16) / 65536⟩;
       s.d.outState i k = 2 ∧ ¬ opens (s.d.appliedCode i k) x ∧ ¬ exceeds (s.d.appliedCode i k) x))
  ∧ (
    let s : State := E0 [o 0 3]
    let m : Master := .host
    let i : Slice := 0
    let k : Fin 10 := Fin.ofNat 10 0;
    Admits s m (Pg.ANA i + ANA.OUT_CMD) ∧ s.d.outState i k = 3 ∧ s.d.assisted (Pg.ANA i) = false ∧ s.d.outRetries i k < s.d.fld (Pg.ANA i + ANA.ANA_CTRL) 16 8)
  ∧ (
    let s : State := E0 [(Pg.ANA 0 + HDR.PAGE_CTRL, 3), (Dev.outBase 0 0 + ANA.OUT_CFG, 0)]
    let m : Master := .host
    let i : Slice := 0
    let k : Fin 10 := Fin.ofNat 10 0
    let b := Dev.outBase i k;
    Admits s m (b + ANA.OUT_CFG) ∧ s.d.outState i k = 0 ∧ s.d.typeE i = true ∧ s.d.calValidA (16 + i) = true ∧ Admits s m (b + ANA.CODE) ∧ s.d.outWriter i k m = true)
  ∧ (
    let s : State := up []
    let m : Master := .host
    let i : Slice := 0
    let k : Fin 10 := Fin.ofNat 10 0
    let b := Dev.outBase i k;
    Admits s m (b + ANA.OUT_CFG) ∧ s.d.outState i k = 0 ∧ s.d.typeE i = false) :=
  by refine ⟨?_, ?_, ?_, ?_, ?_⟩ <;> decide +kernel

/-- States and operands that meet the hypotheses of the clauses of `Obligations.AnalogueOutputsAndMonitors` (MonitorsAndDither). -/
theorem witness_AnalogueOutputsAndMonitors_MonitorsAndDither :
  (
    let s : State := up [(Dev.chBase 0 3 + DECIM.CH_CFG, 0x0001), (Dev.rsBase 3 + RESAMP.RS_CFG, 0x4001)]
    let m : Master := .host
    let i : Slice := 0
    let c : Fin 12 := 3
    let heard (j : Fin 8) : Nat × List (BitVec 40 × Bool) := Sparse.get (fun _ => (0, [])) s.d.ana.rsIn j
    let at_ (j : Fin 8) : Nat := Sparse.get (fun _ => 0) s.d.ana.rsPos j
    let j : Fin 8 := 3
    let b := Dev.chBase i c
    let ovr : Bool := true;
    Admits s m (Pg.DITHER + DITHER.DITHER_CMD) ∧ s.d.bit (b + DECIM.CH_CFG) 0 = true ∧ (s.d.chkRuns i = false ∨ s.d.rbChannel i ≠ c) ∧ ovr = true ∧ s.d.readErr m (b + DECIM.SAMPLE_LO) = none ∧ s.d.busy (0x0A8 + i) = false ∧ s.d.rsOn j = true ∧ 64 ≤ s.d.fld (Dev.rsBase j + RESAMP.RS_CFG) 8 7 ∧ (heard j).1 + 1 ≤ at_ j / 2 ^ 36 + 8 ∧ (s.d.rsOn j = false ∨ s.d.rsWindow j = none))
  ∧ (
    let s : State := onD (fun d => {d with ana := {d.ana with rsPos := [(3, 2 ^ 36 * 8)], rsIn := [(3, (16, List.replicate 16 (5, true))), (4, (17, List.replicate 17 (-1, false)))]}}) (up [(Dev.chBase 0 11 + DECIM.CH_CFG, 0x0001), (Pg.ANA 0 + ANA.CHK_STATUS, 0x80000000), (Dev.rsBase 3 + RESAMP.RS_CFG, 0x4001), (Dev.rsBase 4 + RESAMP.RS_CFG, 0x1)])
    let i : Slice := 0
    let c : Fin 12 := 11
    let j : Fin 8 := 4
    let b := Dev.chBase i c;
    s.d.bit (b + DECIM.CH_CFG) 0 = true ∧ s.d.chkRuns i = true ∧ s.d.rbChannel i = c ∧ s.d.rsOn j = true ∧ (s.d.rsWindow j).isSome = true) :=
  by refine ⟨?_, ?_⟩ <;> decide +kernel

/-- States and operands that meet the hypotheses of the clauses of `Obligations.Modules` (ModulePorts). -/
theorem witness_Modules_ModulePorts :
  (
    let s : State := up [ms (2 + 0x100)]
    let m : Master := .host
    let n : Lane := 3
    let b := Pg.MM n
    let st := s.d.mmState n
    let polls : Prop := 2 ≤ st ∧ st ≤ 7 ∧ s.d.isl.mcDown = false ∧ s.d.lineSafe n = false;
    s.d.typeE (n / 4) = false ∧ 2 ≤ st ∧ st ≤ 8 ∧ st = 2 ∧ st ≤ 7 ∧ s.d.rd (b + MM.MOD_FLAGS) = 0 ∧ (∀ j, j < 5 → s.d.rd (b + MM.LANE_FLAGS + 4 * j) = 0) ∧ Admits s m (b + MM.MM_CMD)
      ∧ (let bus (p : ModulePoll) : Prop := (s.d.mmo n).recover = false ∧ p.sdaLow = false;
       let p : ModulePoll := poll0;
       polls ∧ st = 2 ∧ bus p ∧ p.result = .ok)
      ∧ (let bus (p : ModulePoll) : Prop := (s.d.mmo n).recover = false ∧ p.sdaLow = false;
       let p : ModulePoll := { poll0 with result := .stuck };
       polls ∧ bus p ∧ p.result = .stuck))
  ∧ (
    let s : State := up [ms (1 + 0x100)]
    let n : Lane := 3
    let st := s.d.mmState n
    let polls : Prop := 2 ≤ st ∧ st ≤ 7 ∧ s.d.isl.mcDown = false ∧ s.d.lineSafe n = false;
    s.d.typeE (n / 4) = false ∧ st = 1 ∧ ¬ polls)
  ∧ (
    let s : State := up [ms (5 + 0x100)]
    let n : Lane := 3
    let st := s.d.mmState n
    let polls : Prop := 2 ≤ st ∧ st ≤ 7 ∧ s.d.isl.mcDown = false ∧ s.d.lineSafe n = false
    let bus (p : ModulePoll) : Prop := (s.d.mmo n).recover = false ∧ p.sdaLow = false
    let p : ModulePoll := { poll0 with result := .nackAddr };
    polls ∧ 3 ≤ st ∧ bus p ∧ p.result = .nackAddr ∧ st = 5)
  ∧ (
    let s : State := up [ms (7 + 0x100)]
    let m : Master := .host
    let n : Lane := 3
    let b := Pg.MM n
    let st := s.d.mmState n;
    Admits s m (b + MM.MM_CMD) ∧ (st = 7 ∨ st = 8)) :=
  by refine ⟨?_, ?_, ?_, ?_⟩ <;> decide +kernel

/-- States and operands that meet the hypotheses of the clauses of `Obligations.Modules` (ModuleTransactions). -/
theorem witness_Modules_ModuleTransactions :
  (
    let s : State := xf 0x00508080 0x20000000 4
    let m : Master := .host
    let n : Lane := 3
    let b := Pg.MM n
    let c := s.d.rd (b + MM.XFER_CTRL)
    let len := fieldOf c 0 8
    let blocked : Prop := s.d.xferBusy n = true ∨ s.d.mmState n = 8 ∨ s.d.lineSafe n = true
      ∨ s.d.assisted b = false ∧ s.d.typeE (n / 4) = false ∧ bitOf c 31 = true;
    Admits s m (b + MM.MM_CMD) ∧ blocked ∧ s.d.xferBusy n = true ∧ bitOf c 31 = false ∧ len ≤ 128 ∧ (s.d.fld (b + MM.POLL_CFG) 16 8 = 0 ∨ (s.d.mmo n).stretches + 1 < s.d.fld (b + MM.POLL_CFG) 16 8) ∧ s.d.lpOn n = true ∧ s.d.mmState n ≠ 0 ∧ (s.d.mmRaw n = true ↔ s.d.mmState n = 9))
  ∧ (
    let s : State := xf 0x00508081 0 4
    let m : Master := .host
    let n : Lane := 3
    let b := Pg.MM n
    let c := s.d.rd (b + MM.XFER_CTRL)
    let len := fieldOf c 0 8
    let blocked : Prop := s.d.xferBusy n = true ∨ s.d.mmState n = 8 ∨ s.d.lineSafe n = true
      ∨ s.d.assisted b = false ∧ s.d.typeE (n / 4) = false ∧ bitOf c 31 = true;
    Admits s m (b + MM.MM_CMD) ∧ ¬ blocked ∧ (256 < fieldOf c 8 8 + len ∨ 128 < len))
  ∧ (
    let s : State := xf 0x00500010 0 5
    let m : Master := .host
    let n : Lane := 3
    let b := Pg.MM n
    let c := s.d.rd (b + MM.XFER_CTRL)
    let len := fieldOf c 0 8
    let blocked : Prop := s.d.xferBusy n = true ∨ s.d.mmState n = 8 ∨ s.d.lineSafe n = true
      ∨ s.d.assisted b = false ∧ s.d.typeE (n / 4) = false ∧ bitOf c 31 = true;
    Admits s m (b + MM.MM_CMD) ∧ fieldOf c 8 8 + len ≤ 128 ∧ 0 < len ∧ ¬ blocked ∧ bitOf c 31 = false ∧ (s.d.mmo n).recover = false)
  ∧ (
    let s : State := xf 0x80500010 0x20000000 5
    let n : Lane := 3
    let b := Pg.MM n
    let c := s.d.rd (b + MM.XFER_CTRL);
    s.d.xferBusy n = true ∧ bitOf c 31 = true) :=
  by refine ⟨?_, ?_, ?_, ?_⟩ <;> decide +kernel

end Sys2Proof.Tests.C11

/-! ### Chapter 12 -/

namespace Sys2Proof.Tests.C12a

open Sys2Proof Sys2Proof.Machine Sys2Proof.Tests

set_option Elab.async false

def sqq (f : Seq → Seq) (l : List (Nat × Nat)) : State := onD (fun t => t.setSq 5 (f (t.sq 5))) (up ([(Pg.LSEQ 5 + LSEQ.SEQ_STATE, 0x07FF0002)] ++ l))
def regs (a b : Int) := sqq (fun x => {x with xr := [(1, BitVec.ofInt 40 a), (2, BitVec.ofInt 40 b)]}) []

/-- States and operands that meet the hypotheses of the clauses of `Obligations.SequencerArithmetic` (SequencerMoves). -/
theorem witness_SequencerArithmetic_SequencerMoves :
  (
    let s : State := regs 0 0
    let k : SeqId := 5;
    Runs s k) :=
  by decide +kernel

/-- States and operands that meet the hypotheses of the clauses of `Obligations.SequencerArithmetic` (SequencerSums). -/
theorem witness_SequencerArithmetic_SequencerSums :
  (
    let s : State := regs 0 0
    let k : SeqId := 5;
    Runs s k) :=
  by decide +kernel

/-- States and operands that meet the hypotheses of the clauses of `Obligations.SequencerArithmetic` (SequencerProduct). -/
theorem witness_SequencerArithmetic_SequencerProduct :
  (
    let s : State := regs 3 4
    let k : SeqId := 5
    let n : BitVec 6 := 0;
    Runs s k ∧ n.toNat ≤ 39)
  ∧ (
    let s : State := regs 3 4
    let k : SeqId := 5
    let n : BitVec 6 := 40;
    Runs s k ∧ 39 < n.toNat) :=
  by refine ⟨?_, ?_⟩ <;> decide +kernel

/-- States and operands that meet the hypotheses of the clauses of `Obligations.SequencerArithmetic` (SequencerLogic). -/
theorem witness_SequencerArithmetic_SequencerLogic :
  (
    let s : State := regs 0 0
    let k : SeqId := 5
    let imm : BitVec 18 := 0;
    Runs s k ∧ imm.toNat % 64 ≤ 39)
  ∧ (
    let s : State := regs 0 0
    let k : SeqId := 5
    let imm : BitVec 18 := 40;
    Runs s k ∧ 39 < imm.toNat % 64) :=
  by refine ⟨?_, ?_⟩ <;> decide +kernel

end Sys2Proof.Tests.C12a

/-! ### Chapter 12 -/

namespace Sys2Proof.Tests.C12b

open Sys2Proof Sys2Proof.Machine Sys2Proof.Tests

set_option Elab.async false

def sqq (k : Nat) (f : Seq → Seq) (l : List (Nat × Nat)) : State := onD (fun t => t.setSq k (f (t.sq k))) (up ([(Pg.LSEQ k + LSEQ.SEQ_STATE, 0x07FF0002)] ++ l))
def st (k v : Nat) := (Pg.LSEQ k + LSEQ.SEQ_STATE, v)
def xr (l : List (Nat × Int)) (x : Seq) : Seq := {x with xr := l.map (fun (a,b) => (a, BitVec.ofInt 40 b))}
def ibx (l : List (Nat × List Msg)) (s : State) : State := onD (fun t => {t with mbx := {t.mbx with inbox := l}}) s

/-- States and operands that meet the hypotheses of the clauses of `Obligations.SequencerDataAndBranches` (SequencerData). -/
theorem witness_SequencerDataAndBranches_SequencerData :
  (
    let s : State := sqq 5 (xr [(2, (0 : Int)), (1, 77)]) []
    let k : SeqId := 5
    let a : Fin 16 := 2
    let imm : BitVec 18 := 0
    let x : Int := (s.d.xreg k a).toInt + imm.toInt;
    Runs s k ∧ 0 ≤ x ∧ x ≤ 1023)
  ∧ (
    let s : State := sqq 5 (xr [(2, (-1 : Int)), (1, 77)]) []
    let k : SeqId := 5
    let a : Fin 16 := 2
    let imm : BitVec 18 := 0
    let x : Int := (s.d.xreg k a).toInt + imm.toInt;
    Runs s k ∧ (x < 0 ∨ 1023 < x)) :=
  by refine ⟨?_, ?_⟩ <;> decide +kernel

/-- States and operands that meet the hypotheses of the clauses of `Obligations.SequencerDataAndBranches` (SequencerBranches). -/
theorem witness_SequencerDataAndBranches_SequencerBranches :
  (
    let s : State := sqq 5 (xr [(2, (0 : Int))]) []
    let k : SeqId := 5
    let c : BitVec 4 := BitVec.ofNat 4 0;
    Runs s k ∧ c.toNat ≤ 6 ∧ (s.d.sq k).stack.length < 8 ∧ (s.d.sq k).stack = [])
  ∧ (
    let s : State := sqq 5 (fun x => {xr [(2,(0 : Int))] x with stack := List.replicate 8 0}) []
    let k : SeqId := 5
    let c : BitVec 4 := BitVec.ofNat 4 7;
    Runs s k ∧ 6 < c.toNat ∧ 8 ≤ (s.d.sq k).stack.length ∧ (s.d.sq k).stack ≠ []) :=
  by refine ⟨?_, ?_⟩ <;> decide +kernel

/-- States and operands that meet the hypotheses of the clauses of `Obligations.SequencerStopsAndEvents` (SequencerStops). -/
theorem witness_SequencerStopsAndEvents_SequencerStops :
  (
    let s : State := sqq (5 : SeqId) (fun x => {x with restarts := []}) [(Pg.LSEQ (5 : SeqId) + HDR.PAGE_CTRL, 1)]
    let k : SeqId := (5 : SeqId);
    Runs s k ∧ (s.d.sq k).toVendor = false ∧ s.d.seqState k = 2 ∧ s.d.fld (Pg.LSEQ k + LSEQ.SEQ_CTRL) 16 16 ≠ 0)
  ∧ (
    let s : State := sqq (5 : SeqId) (fun x => {x with restarts := []}) [st (5 : SeqId) 4, (Pg.LSEQ (5 : SeqId) + HDR.PAGE_CTRL, 0)]
    let k : SeqId := (5 : SeqId)
    let recent := (s.d.sq k).restarts.filter (fun t => decide (s.d.mono < t + 1000000000));
    s.d.seqState k = 4 ∧ (s.d.enabled (Pg.LSEQ k) = false ∨ s.d.fld (Pg.LSEQ k + LSEQ.SEQ_CTRL) 8 8 ≤ recent.length) ∧ (s.d.sq k).toVendor = false)
  ∧ (
    let s : State := sqq (5 : SeqId) (fun x => {x with restarts := []}) [(Pg.LSEQ (5 : SeqId) + LSEQ.SEQ_CTRL, 0x00640300), (Pg.LSEQ (5 : SeqId) + LSEQ.BREAK, 0x800007FF)]
    let k : SeqId := (5 : SeqId);
    s.d.seqState k = 2 ∧ (s.d.sq k).winRd = none ∧ s.d.bit (Pg.LSEQ k + LSEQ.BREAK) 31 = true ∧ s.d.seqPc k = s.d.fld (Pg.LSEQ k + LSEQ.BREAK) 0 11 ∧ (s.d.sq k).toVendor = false)
  ∧ (
    let s : State := sqq (5 : SeqId) (fun x => {x with restarts := []}) [st (5 : SeqId) 4, (Pg.LSEQ (5 : SeqId) + LSEQ.SEQ_CTRL, 0x00640300), (Pg.LSEQ (5 : SeqId) + HDR.PAGE_CTRL, 1)]
    let k : SeqId := (5 : SeqId)
    let recent := (s.d.sq k).restarts.filter (fun t => decide (s.d.mono < t + 1000000000));
    s.d.seqState k = 4 ∧ s.d.enabled (Pg.LSEQ k) = true ∧ recent.length < s.d.fld (Pg.LSEQ k + LSEQ.SEQ_CTRL) 8 8) :=
  by refine ⟨?_, ?_, ?_, ?_⟩ <;> decide +kernel

/-- States and operands that meet the hypotheses of the clauses of `Obligations.SequencerStopsAndEvents` (SequencerEvents). -/
theorem witness_SequencerStopsAndEvents_SequencerEvents :
  (
    let s : State := sqq (5 : SeqId) (fun x => {xr [(2, (0 : Int))] x with waitD := 3, timer := (some (100, true))}) [st (5 : SeqId) 0x07FF0002, (Pg.LSEQ (5 : SeqId) + LSEQ.EVENT_PEND, 0), (Pg.LSEQ (5 : SeqId) + LSEQ.WAIT_MASK, (0 : Int).toNat)]
    let k : SeqId := (5 : SeqId)
    let a : Fin 16 := 2
    let m : Master := .host
    let inputs : Word := if k.val < 8 then 0x003FFF7F else 0x00001FFF
    let mask : Word := BitVec.ofNat 32 (s.d.xreg k a).toNat;
    Runs s k ∧ (s.d.sq k).toVendor = false ∧ mask &&& inputs = 0 ∧ ((s.d.sq k).timer).isSome = true ∧ Admits s m (Pg.LSEQ k + LSEQ.SEQ_CMD))
  ∧ (
    let s : State := sqq (5 : SeqId) (fun x => {xr [(2, (0x7 : Int))] x with waitD := 3, timer := none}) [st (5 : SeqId) 3, (Pg.LSEQ (5 : SeqId) + LSEQ.EVENT_PEND, 4), (Pg.LSEQ (5 : SeqId) + LSEQ.WAIT_MASK, (0x7 : Int).toNat)]
    let k : SeqId := (5 : SeqId)
    let pend := s.d.rd (Pg.LSEQ k + LSEQ.EVENT_PEND)
    let inputs : Word := if k.val < 8 then 0x003FFF7F else 0x00001FFF
    let lowest (e : Fin 32) (mask : Word) : Prop :=
      (pend &&& mask &&& inputs).getLsbD e = true ∧ ∀ j : Fin 32, j < e → (pend &&& mask &&& inputs).getLsbD j = false
    let e : Fin 32 := 2;
    s.d.seqState k = 3 ∧ (s.d.sq k).stepping = false ∧ lowest e (s.d.rd (Pg.LSEQ k + LSEQ.WAIT_MASK)))
  ∧ (
    let s : State := sqq (5 : SeqId) (fun x => {xr [(2, (0x7 : Int))] x with waitD := 3, timer := none}) [st (5 : SeqId) 0x07FF0002, (Pg.LSEQ (5 : SeqId) + LSEQ.EVENT_PEND, 0), (Pg.LSEQ (5 : SeqId) + LSEQ.WAIT_MASK, (0x7 : Int).toNat)]
    let k : SeqId := (5 : SeqId)
    let a : Fin 16 := 2
    let pend := s.d.rd (Pg.LSEQ k + LSEQ.EVENT_PEND)
    let inputs : Word := if k.val < 8 then 0x003FFF7F else 0x00001FFF
    let mask : Word := BitVec.ofNat 32 (s.d.xreg k a).toNat;
    Runs s k ∧ (s.d.sq k).toVendor = false ∧ mask &&& inputs ≠ 0 ∧ pend &&& mask &&& inputs = 0)
  ∧ (
    let s : State := sqq (5 : SeqId) (fun x => {xr [(2, (0x7 : Int))] x with waitD := 3, timer := none}) [st (5 : SeqId) 0x07FF0002, (Pg.LSEQ (5 : SeqId) + LSEQ.EVENT_PEND, 4), (Pg.LSEQ (5 : SeqId) + LSEQ.WAIT_MASK, (0x7 : Int).toNat)]
    let k : SeqId := (5 : SeqId)
    let a : Fin 16 := 2
    let pend := s.d.rd (Pg.LSEQ k + LSEQ.EVENT_PEND)
    let inputs : Word := if k.val < 8 then 0x003FFF7F else 0x00001FFF
    let lowest (e : Fin 32) (mask : Word) : Prop :=
      (pend &&& mask &&& inputs).getLsbD e = true ∧ ∀ j : Fin 32, j < e → (pend &&& mask &&& inputs).getLsbD j = false
    let mask : Word := BitVec.ofNat 32 (s.d.xreg k a).toNat
    let e : Fin 32 := 2;
    Runs s k ∧ (s.d.sq k).toVendor = false ∧ lowest e mask) :=
  by refine ⟨?_, ?_, ?_, ?_⟩ <;> decide +kernel

/-- States and operands that meet the hypotheses of the clauses of `Obligations.SequencerCommandsAndWrites` (SequencerCommands). -/
theorem witness_SequencerCommandsAndWrites_SequencerCommands :
  (
    let s : State := sqq (5 : SeqId) (fun x => {xr [(2, 99)] x with entry := 0x7FF, stack := [5], data0 := [(1, 5), (3, 9)], dmem := [(2, 7)], imem := [(0, 2^26 + 3 * 2^22 + 0x3FFFF)]}) [st (5 : SeqId) (1 + 0x08000000), (Pg.LSEQ (5 : SeqId) + HDR.PAGE_CTRL, 1), (Pg.LSEQ (5 : SeqId) + LSEQ.PROG_INFO, 0x80020000)]
    let k : SeqId := (5 : SeqId)
    let m : Master := .host
    let can := s.d.seqState k = 1 ∧ s.d.enabled (Pg.LSEQ k) = true
    let d : Fin 16 := 3
    let imm : BitVec 18 := 0x3FFFF;
    Admits s m (Pg.LSEQ k + LSEQ.SEQ_CMD) ∧ can ∧ (k.val < 8 → s.d.bit (Pg.LSEQ k + LSEQ.PROG_INFO) 30 = true → s.d.assisted (Pg.LSEQ k) = true) ∧ Sparse.wf (fun _ => 0) (s.d.sq k).data0 = true ∧ Sparse.wf (fun _ => 0) (s.d.sq k).dmem = true ∧ (s.d.sq k).toVendor = false ∧ s.d.seqWord k = 2 ^ 26 + d.val * 2 ^ 22 + imm.toNat)
  ∧ (
    let s : State := sqq (5 : SeqId) (fun x => {xr [(2, 99)] x with entry := 0x7FF, imem := [(0, 2^26 + 0x20000)]}) [st (5 : SeqId) (2 + 0x08000000), (Pg.LSEQ (5 : SeqId) + HDR.PAGE_CTRL, 0), (Pg.LSEQ (5 : SeqId) + LSEQ.ROLE_EPOCH, 0xFFFF), (Pg.LSEQ (5 : SeqId) + LSEQ.PROG_INFO, 0xC0020000)]
    let k : SeqId := (5 : SeqId)
    let m : Master := .bmc;
    Admits s m (Pg.LSEQ k + LSEQ.SEQ_CMD) ∧ 2 ≤ s.d.seqState k ∧ s.d.seqState k ≤ 4 ∧ (s.d.sq k).toVendor = false ∧ (s.d.seqState k ≠ 1 ∨ s.d.enabled (Pg.LSEQ k) = false)) :=
  by refine ⟨?_, ?_⟩ <;> decide +kernel

/-- States and operands that meet the hypotheses of the clauses of `Obligations.SequencerMessagesAndWindow` (SequencerMessages). -/
theorem witness_SequencerMessagesAndWindow_SequencerMessages :
  (
    let s : State := ibx [(3 + (5 : SeqId).val, [msg0, {msg0 with epoch := 3}])] (sqq (5 : SeqId) (fun x => {xr [(2, (0 : Int)), (4, (1 : Int))] x with dmem := [(0, 5), (3, 0xFFFFFFFFFF), (1015, 7)]}) [])
    let k : SeqId := (5 : SeqId)
    let a : Fin 16 := 2
    let b : Fin 16 := 4
    let i := (s.d.xreg k a).toNat
    let msg := (s.d.inbox (3 + k)).headD msg0
    let rest := (s.d.inbox (3 + k)).tail
    let e := (Dev.endpointOf ((s.d.xreg k b).toNat % 256)).getD 99;
    Runs s k ∧ i ≤ 1016 ∧ Dev.endpointOf ((s.d.xreg k b).toNat % 256) = some e ∧ e ≠ 3 + k.val ∧ (s.d.inbox e).length < Dev.inboxSize e ∧ s.d.inbox (3 + k) = msg :: rest ∧ i ≤ 1014 ∧ rest ≠ [])
  ∧ (
    let s : State := sqq (5 : SeqId) (fun x => {xr [(2, (0 : Int)), (4, (4 : Int))] x with dmem := [(0, 5), (3, 0xFFFFFFFFFF), (1015, 7)]}) []
    let k : SeqId := (5 : SeqId)
    let a : Fin 16 := 2
    let b : Fin 16 := 4
    let i := (s.d.xreg k a).toNat;
    Runs s k ∧ i ≤ 1016 ∧ Dev.endpointOf ((s.d.xreg k b).toNat % 256) = none ∧ s.d.inbox (3 + k) = [])
  ∧ (
    let s : State := ibx ((List.range 27).map (fun i => (i, List.replicate 16 msg0))) (sqq (5 : SeqId) (fun x => {xr [(2, (0 : Int)), (4, (2 : Int))] x with dmem := [(0, 5), (3, 0xFFFFFFFFFF), (1015, 7)]}) [])
    let k : SeqId := (5 : SeqId)
    let a : Fin 16 := 2
    let b : Fin 16 := 4
    let i := (s.d.xreg k a).toNat
    let e := (Dev.endpointOf ((s.d.xreg k b).toNat % 256)).getD 99;
    Runs s k ∧ i ≤ 1016 ∧ Dev.endpointOf ((s.d.xreg k b).toNat % 256) = some e ∧ e ≠ 3 + k.val ∧ Dev.inboxSize e ≤ (s.d.inbox e).length ∧ (e = 0 → s.d.bit (Pg.MBX 0 + MBX.OVF_CTRL) 0 = false)) :=
  by refine ⟨?_, ?_, ?_⟩ <;> decide +kernel

/-- States and operands that meet the hypotheses of the clauses of `Obligations.SequencerMessagesAndWindow` (SequencerWindow). -/
theorem witness_SequencerMessagesAndWindow_SequencerWindow :
  (
    let s : State := sqq (5 : SeqId) (fun x => {xr [(2, (0x4000 + LSEQ.ROLE : Int)), (1, 0x12345)] x with winRd := none, winQ := [], winErr := [((0x55 : BitVec 11), 0x0A)]}) []
    let k : SeqId := (5 : SeqId)
    let a : Fin 16 := 2
    let imm : BitVec 18 := 0
    let p := ((s.d.sq k).winErr.headD (0, 0)).1
    let c := ((s.d.sq k).winErr.headD (0, 0)).2
    let rest := (s.d.sq k).winErr.tail
    let w : BitVec 16 := BitVec.ofInt 16 ((s.d.xreg k a).toInt + imm.toInt);
    Runs s k ∧ w.toNat < 0x6000 ∧ w = 0x4000 + LSEQ.ROLE ∧ (s.d.sq k).winQ = [] ∧ Admits s (seqMaster k) (Pg.LSEQ k + LSEQ.ROLE) ∧ (s.d.sq k).winErr = (p, c) :: rest ∧ 1 ≤ s.d.seqState k ∧ s.d.seqState k ≤ 3 ∧ c < 2 ^ 8)
  ∧ (
    let s : State := sqq (5 : SeqId) (fun x => {xr [(2, (0x6000 : Int)), (1, 0x12345)] x with winRd := none, winQ := [], winErr := []}) []
    let k : SeqId := (5 : SeqId)
    let a : Fin 16 := 2
    let imm : BitVec 18 := 0
    let w : BitVec 16 := BitVec.ofInt 16 ((s.d.xreg k a).toInt + imm.toInt);
    Runs s k ∧ 0x6000 ≤ w.toNat)
  ∧ (
    let s : State := sqq (5 : SeqId) (fun x => {xr [(2, (0 : Int)), (1, 0x12345)] x with winRd := (some (7, 0x0040)), winQ := [], winErr := []}) []
    let k : SeqId := (5 : SeqId)
    let a : Fin 16 := 2
    let imm : BitVec 18 := 0
    let w : BitVec 16 := BitVec.ofInt 16 ((s.d.xreg k a).toInt + imm.toInt)
    let r := ((s.d.sq k).winRd.getD (0, 0)).1
    let u := ((s.d.sq k).winRd.getD (0, 0)).2
    let x := (Dev.windowAddr k (((s.d.sq k).winRd.map (fun y => y.2)).getD w)).getD 0;
    s.d.seqState k = 2 ∧ (s.d.sq k).winRd = some (r, u) ∧ Dev.windowAddr k u = some x ∧ s.d.windowPages k = [] ∧ s.d.readErr (seqMaster k) x = none ∧ s.d.busy (x / 0x1000) = false)
  ∧ (
    let s : State := onD (fun t => (List.range 0xFF).foldl (fun t p => t.setSoft p true) t) (sqq (5 : SeqId) (fun x => {xr [(2, (0 : Int)), (1, 0x12345)] x with winRd := none, winQ := [], winErr := []}) [])
    let k : SeqId := (5 : SeqId)
    let a : Fin 16 := 2
    let imm : BitVec 18 := 0
    let w : BitVec 16 := BitVec.ofInt 16 ((s.d.xreg k a).toInt + imm.toInt)
    let x := (Dev.windowAddr k (((s.d.sq k).winRd.map (fun y => y.2)).getD w)).getD 0;
    Runs s k ∧ Dev.windowAddr k w = some x ∧ s.d.busy (x / 0x1000) = true) :=
  by refine ⟨?_, ?_, ?_, ?_⟩ <;> decide +kernel

/-- States and operands that meet the hypotheses of the clauses of `Obligations.SequencerCommandsAndWrites` (SequencerHostWrites). -/
theorem witness_SequencerCommandsAndWrites_SequencerHostWrites :
  (
    let s : State := onD (fun t => {t with bus := {t.bus with seqLo := (List.range 16).map (fun w => (1024 * (5 : SeqId) + w, some 0x55))}, sec := {t.sec with loopProg := some [1]}}) (sqq (5 : SeqId) (fun x => {x with load := some [1,2,3]}) [st (5 : SeqId) 1, (Pg.LSEQ (5 : SeqId) + HDR.PAGE_CTRL, 3), (Pg.LSEQ (5 : SeqId) + LSEQ.PROG_INFO, 0xC0000000)])
    let k : SeqId := (5 : SeqId)
    let m : Master := seqMaster (5 : SeqId)
    let x : Fin 16 := 3
    let i : Fin 8 := 5
    let w : Fin 1024 := 3
    let hi : Bool := false;
    Admits s m (Pg.LSEQ k + LSEQ.XREG + 8 * x + (if hi then 4 else 0)) ∧ s.d.seqState k = 1 ∧ hi = false ∧ Admits s m (Pg.LSEQ k + LSEQ.ROLE) ∧ (m = seqMaster k ∨ s.d.seqState k = 1 ∧ s.d.holder (0x0B0 + k) = masterId m) ∧ AdmitsBulk s m (0x0B0 + k) ∧ (Sparse.get (fun _ => none) s.d.bus.seqLo (1024 * k + w)).isSome = true ∧ k.val = i.val ∧ Admits s m (Pg.LSEQ i + HDR.PAGE_CTRL) ∧ s.d.assisted (Pg.LSEQ i) = true ∧ s.d.bit (Pg.LSEQ i + LSEQ.PROG_INFO) 31 = true ∧ s.d.bit (Pg.LSEQ i + LSEQ.PROG_INFO) 30 = true)
  ∧ (
    let s : State := sqq (5 : SeqId) (fun x => {x with load := some [1,2,3]}) [st (5 : SeqId) 2, (Pg.LSEQ (5 : SeqId) + HDR.PAGE_CTRL, 3), (Pg.LSEQ (5 : SeqId) + LSEQ.ROLE, 5), (Pg.LSEQ (5 : SeqId) + LSEQ.PROG_INFO, 0xC0000000)]
    let k : SeqId := (5 : SeqId)
    let m : Master := .host
    let x : Fin 16 := 3
    let i : Fin 8 := 5
    let hi : Bool := false;
    Admits s m (Pg.LSEQ k + LSEQ.XREG + 8 * x + (if hi then 4 else 0)) ∧ s.d.seqState k ≠ 1 ∧ k.val = i.val ∧ Admits s m (Pg.LSEQ i + HDR.PAGE_CTRL) ∧ s.d.assisted (Pg.LSEQ i) = true ∧ s.d.bit (Pg.LSEQ i + LSEQ.PROG_INFO) 31 = true ∧ s.d.bit (Pg.LSEQ i + LSEQ.PROG_INFO) 30 = true ∧ s.d.seqState i = 2)
  ∧ (
    let s : State := sqq (5 : SeqId) (fun x => {x with load := some [1,2,3]}) [st (5 : SeqId) 3, (Pg.LSEQ (5 : SeqId) + HDR.PAGE_CTRL, 3), (Pg.LSEQ (5 : SeqId) + LSEQ.ROLE, 5), (Pg.LSEQ (5 : SeqId) + LSEQ.PROG_INFO, 0xC0000000)]
    let k : SeqId := (5 : SeqId)
    let m : Master := .host
    let i : Fin 8 := 5;
    k.val = i.val ∧ Admits s m (Pg.LSEQ i + HDR.PAGE_CTRL) ∧ s.d.assisted (Pg.LSEQ i) = true ∧ s.d.bit (Pg.LSEQ i + LSEQ.PROG_INFO) 31 = true ∧ s.d.bit (Pg.LSEQ i + LSEQ.PROG_INFO) 30 = true ∧ 3 ≤ s.d.seqState i ∧ s.d.seqState i ≤ 4)
  ∧ (
    let s : State := sqq (5 : SeqId) (fun x => {x with load := some [1,2,3]}) [st (5 : SeqId) 5, (Pg.LSEQ (5 : SeqId) + HDR.PAGE_CTRL, 0), (Pg.LSEQ (5 : SeqId) + LSEQ.ROLE, 5), (Pg.LSEQ (5 : SeqId) + LSEQ.PROG_INFO, 0xC0000000)]
    let k : SeqId := (5 : SeqId);
    s.d.seqState k = 5 ∧ ((s.d.sq k).load).isSome = true) :=
  by refine ⟨?_, ?_, ?_, ?_⟩ <;> decide +kernel

end Sys2Proof.Tests.C12b

/-! ### Chapter 13 -/

namespace Sys2Proof.Tests.C13

open Sys2Proof Sys2Proof.Machine Sys2Proof.Tests

set_option Elab.async false

def cal (f : Calib → Calib) (l : List (Nat × Nat)) : State := onD (fun t => {t with cal := f t.cal}) (up l)
def cs (v : Nat) := (Pg.CAL + CAL.CAL_STATUS, v)
def rec0 (r : Nat) : List Word := let h : Word := BitVec.ofNat 32 (0x1234 + r * 2^16); let b := [h] ++ (List.range (recLen r - 2)).map (fun i => 0x5A5A5A5A &&& calMask r (i+1)); b ++ [calCrc b]
def stage (r : Nat) (l : List Word) : List (Nat × Nat) := (Pg.CAL + CAL.CAL_SEL, r) :: l.zipIdx.map (fun (v, i) => (Pg.CAL + CAL.STAGE + 4 * i, v.toNat))

/-- States and operands that meet the hypotheses of the clauses of `Obligations.CalibrationRuns`. -/
theorem witness_CalibrationRuns :
  (
    let s : State := cal id [(Pg.SUPPLY + SUPPLY.SUP_STATUS, 0x80000000)]
    let m : Master := .host
    let a := Pg.CAL + CAL.CAL_CMD
    let mask := s.d.fld (Pg.CAL + CAL.CAL_RUN_MASK) 0 20;
    Admits s m a ∧ s.d.calRunning = false ∧ mask ≠ 0 ∧ s.d.supplyHold = true)
  ∧ (
    let s : State := cal (fun c => {c with run := [2*(3 : Fin 20).val], refDone := true, abort := 0 == 1, unfit := false}) [cs 0x80000000, (Pg.LRX 3 + LRX.LANE_STATE, 1), (Pg.LTX 3 + LTX.TX_STATE, 2)]
    let m : Master := .host
    let r : Fin 20 := (3 : Fin 20)
    let p : CalPart := CalPart.partA
    let q : CalMeasurement := ⟨BitVec.ofNat 16 5, [((5), (([1, 2, 3, 4] : List Int).take (calFields (3 : Fin 20) (5)).length))]⟩
    let w : Nat := 5
    let vals : List Int := ([1, 2, 3, 4] : List Int).take (calFields (3 : Fin 20) (5)).length
    let rest : List Nat := [2*(3 : Fin 20).val].tail
    let b := p == .partB
    let this := 2 * r.val + (if b then 1 else 0)
    let one := q.values = [(w, vals)] ∧ vals.length = (calFields r w).length ∧ calPartHas r b w = true ∧ s.d.cal.edited = []
    let a := Pg.CAL + CAL.CAL_CMD;
    Admits s m a ∧ s.d.calRunning = true ∧ s.d.supplyHold = false ∧ s.d.cal.run = this :: rest ∧ this ∉ rest ∧ s.d.cal.rerun = [] ∧ s.d.cal.refDone = true ∧ s.d.cal.unfit = false ∧ one ∧ s.d.calPassed r w = false ∧ rest = [])
  ∧ (
    let s : State := cal id [(Pg.CAL + CAL.CAL_RUN_MASK, 0)]
    let m : Master := .host
    let a := Pg.CAL + CAL.CAL_CMD
    let mask := s.d.fld (Pg.CAL + CAL.CAL_RUN_MASK) 0 20;
    Admits s m a ∧ s.d.calRunning = false ∧ mask = 0 ∧ s.d.cal.rerun = [])
  ∧ (
    let s : State := cal (fun c => {c with run := [], refDone := true, abort := 0 == 1, unfit := true}) [cs 0x80000000, (Pg.LRX 3 + LRX.LANE_STATE, 1), (Pg.LTX 3 + LTX.TX_STATE, 2)]
    let r : Fin 20 := (3 : Fin 20)
    let p : CalPart := CalPart.partA
    let q : CalMeasurement := ⟨BitVec.ofNat 16 5, [((5), (([1, 2, 3, 4] : List Int).take (calFields (3 : Fin 20) (5)).length))]⟩
    let w : Nat := 5
    let vals : List Int := ([1, 2, 3, 4] : List Int).take (calFields (3 : Fin 20) (5)).length
    let b := p == .partB
    let one := q.values = [(w, vals)] ∧ vals.length = (calFields r w).length ∧ calPartHas r b w = true ∧ s.d.cal.edited = [];
    s.d.supplyHold = false ∧ s.d.cal.run = [] ∧ s.d.assisted Pg.CAL = false ∧ r.val < 16 ∧ b = false ∧ s.d.rxState r = 1 ∧ s.d.laneWaits r = false ∧ one ∧ q.refError.toInt.natAbs ≤ 1000)
  ∧ (
    let s : State := cal (fun c => {c with run := [2*(3 : Fin 20).val], refDone := true, abort := 0 == 1, unfit := true}) [cs 0x80000000, (Pg.LRX 3 + LRX.LANE_STATE, 1), (Pg.LTX 3 + LTX.TX_STATE, 2)]
    let r : Fin 20 := (3 : Fin 20)
    let p : CalPart := CalPart.partA
    let rest : List Nat := [2*(3 : Fin 20).val].tail
    let b := p == .partB
    let this := 2 * r.val + (if b then 1 else 0);
    s.d.supplyHold = false ∧ s.d.cal.run = this :: rest ∧ this ∉ rest ∧ s.d.cal.rerun = [] ∧ s.d.cal.refDone = true ∧ s.d.cal.unfit = true)
  ∧ (
    let s : State := cal (fun c => {c with run := [2*(3 : Fin 20).val], refDone := false, abort := 0 == 1, unfit := true}) [cs 0x80000000, (Pg.LRX 3 + LRX.LANE_STATE, 1), (Pg.LTX 3 + LTX.TX_STATE, 2)]
    let r : Fin 20 := (3 : Fin 20)
    let p : CalPart := CalPart.partA
    let q : CalMeasurement := ⟨BitVec.ofNat 16 0x1000, [((5), (([1, 2, 3, 4] : List Int).take (calFields (3 : Fin 20) (5)).length))]⟩
    let rest : List Nat := [2*(3 : Fin 20).val].tail
    let b := p == .partB
    let this := 2 * r.val + (if b then 1 else 0);
    s.d.supplyHold = false ∧ s.d.cal.run = this :: rest ∧ this ∉ rest ∧ s.d.cal.rerun = [] ∧ s.d.cal.refDone = false ∧ 1000 < q.refError.toInt.natAbs ∧ rest = []) :=
  by refine ⟨?_, ?_, ?_, ?_, ?_, ?_⟩ <;> decide +kernel

set_option maxRecDepth 100000 in
/-- States and operands that meet the hypotheses of the clauses of `Obligations.CalibrationRecords`. -/
theorem witness_CalibrationRecords :
  (
    let s : State := cal (fun c => {c with run := [], master := [(128 * 3, 0x80000000), (128*3+5, 0x1234)]}) (stage 3 (rec0 3))
    let m : Master := .host
    let w : Fin 67 := Fin.ofNat 67 (0 : Nat)
    let i : Nat := 3
    let j : Nat := 5
    let e := Pg.CAL + CAL.LIVE + 4 * w.val
    let r := s.d.calSel
    let a := Pg.CAL + CAL.CAL_CMD;
    Admits s m a ∧ s.d.holder (a / 0x1000) = 0 ∧ s.d.readErr m (Pg.CAL + CAL.LIVE) = none ∧ s.d.busy (Pg.CAL / 0x1000) = false ∧ Admits s m e ∧ calFields r w = [] ∧ i < 20 ∧ j < 66 ∧ calFields i j ≠ [] ∧ i ∉ s.d.cal.frozen ∧ s.d.inSafe 0x0E0 = false ∧ s.d.calApplied i j ≠ s.d.calWord i j ∧ s.d.calService i j = .out)
  ∧ (
    let s : State := (withLock .host 0x0E0) (cal (fun c => {c with run := [], master := [(128 * 3, 0x80000000), (128*3+5, 0x1234)]}) (stage 3 (rec0 3) ++ [(Pg.LRX 3 + LRX.LANE_STATE, 3)]))
    let m : Master := .host
    let w : Fin 67 := Fin.ofNat 67 (1 : Nat)
    let i : Nat := 3
    let j : Nat := 5
    let e := Pg.CAL + CAL.LIVE + 4 * w.val
    let a := Pg.CAL + CAL.CAL_CMD
    let r := s.d.calSel
    let stage := s.d.rdWords (Pg.CAL + CAL.STAGE) (recLen r);
    AdmitsHeld s m a ∧ r < 20 ∧ s.d.supplyHold = false ∧ s.d.calMeasuring r = false ∧ s.d.calStagedOk r stage = true ∧ Admits s m e ∧ calFields r w ≠ [] ∧ s.d.expert m 0x0E0 = false ∧ i < 20 ∧ j < 66 ∧ calFields i j ≠ [] ∧ i ∉ s.d.cal.frozen ∧ s.d.inSafe 0x0E0 = false ∧ s.d.calApplied i j ≠ s.d.calWord i j ∧ s.d.calService i j = .steps)
  ∧ (
    let s : State := onD (fun t => t.setExpert .host true) ((withLock .host 0x0E0) (cal (fun c => {c with run := [2*3], master := [(128 * 3, 0x80000000), (128*3+5, 0x1234)]}) (stage 3 (rec0 3) ++ [(Pg.LRX 3 + LRX.LANE_STATE, 5)])))
    let m : Master := .host
    let w : Fin 67 := Fin.ofNat 67 (1 : Nat)
    let i : Nat := 3
    let j : Nat := 5
    let e := Pg.CAL + CAL.LIVE + 4 * w.val
    let a := Pg.CAL + CAL.CAL_CMD
    let r := s.d.calSel;
    AdmitsHeld s m a ∧ r < 20 ∧ s.d.supplyHold = false ∧ s.d.calMeasuring r = true ∧ Admits s m e ∧ calFields r w ≠ [] ∧ s.d.expert m 0x0E0 = true ∧ i < 20 ∧ j < 66 ∧ calFields i j ≠ [] ∧ i ∉ s.d.cal.frozen ∧ s.d.inSafe 0x0E0 = false ∧ s.d.calApplied i j ≠ s.d.calWord i j ∧ s.d.calService i j = .paused)
  ∧ (
    let s : State := (withLock .host 0x0E0) (cal (fun c => {c with run := [], master := [(128 * 3, 0x80000000), (128*3+5, 0x1234)]}) (stage 3 ((rec0 3).set 2 5)))
    let m : Master := .host
    let a := Pg.CAL + CAL.CAL_CMD
    let r := s.d.calSel
    let stage := s.d.rdWords (Pg.CAL + CAL.STAGE) (recLen r);
    AdmitsHeld s m a ∧ r < 20 ∧ s.d.supplyHold = false ∧ s.d.calMeasuring r = false ∧ s.d.calStagedOk r stage = false)
  ∧ (
    let s : State := cal (fun c => {c with run := [], master := [(128 * 3, 0x80000000), (128*3+5, 0x1234)]}) (stage 3 (rec0 3) ++ [(0x0E0000 + HDR.PAGE_STATUS, 8)]);
    s.d.inSafe 0x0E0 = true)
  ∧ (
    let s : State := (withLock .host 0x0E0) (cal (fun c => {c with run := [], master := [(128 * 3, 0x80000000), (128*3+5, 0x1234)]}) (stage 3 (rec0 3) ++ [(Pg.SUPPLY + SUPPLY.SUP_STATUS, 0x80000000)]))
    let m : Master := .host
    let a := Pg.CAL + CAL.CAL_CMD
    let r := s.d.calSel;
    AdmitsHeld s m a ∧ r < 20 ∧ s.d.supplyHold = true) :=
  by refine ⟨?_, ?_, ?_, ?_, ?_, ?_⟩ <;> decide +kernel

end Sys2Proof.Tests.C13

/-! ### Chapter 14 -/

namespace Sys2Proof.Tests.C14

open Sys2Proof Sys2Proof.Machine Sys2Proof.Tests

set_option Elab.async false

def isl (f : Islands → Islands) (l : List (Nat × Nat)) : State := onD (fun t => {t with isl := f t.isl}) (up l)

/-- States and operands that meet the hypotheses of the clauses of `Obligations.IslandResets`. -/
theorem witness_IslandResets :
  (
    let s : State := isl (fun x => {x with wdReset := [], cmdReset := []}) [(Pg.CLKRST + CLKRST.ISLAND_SEL, (0 : Island).val), (Pg.LRX 0 + LRX.LANE_STATE, 3), (Pg.LTX 0 + LTX.TX_STATE, 2)]
    let m : Master := .host
    let i : Island := (0 : Island)
    let b := Pg.CLKRST
    let a := b + CLKRST.ISLAND_CMD;
    s.d.islandOn i = true ∧ i.val < 48 ∧ s.d.wdResetting i = false ∧ s.d.cmdResetting i = false ∧ Admits s m a ∧ s.d.holder (a / 0x1000) = 0)
  ∧ (
    let s : State := (withLock .host 8) (isl (fun x => {x with wdReset := [((0 : Island).val, true)], cmdReset := []}) [(Pg.CLKRST + CLKRST.ISLAND_SEL, (0 : Island).val), (Pg.LRX 0 + LRX.LANE_STATE, 3), (Pg.LTX 0 + LTX.TX_STATE, 2)])
    let m : Master := .host
    let i : Island := (0 : Island)
    let b := Pg.CLKRST
    let a := b + CLKRST.ISLAND_CMD
    let sel := s.d.fld (b + CLKRST.ISLAND_SEL) 0 6;
    s.d.islandOn i = false ∧ s.d.cmdResetting i = false ∧ (s.d.wdResetting i = true ∨ s.d.cmdResetting i = true) ∧ s.d.scanned i = false ∧ AdmitsHeld s m a ∧ sel < 60 ∧ s.d.islandOn sel = false)
  ∧ (
    let s : State := (withLock .host 8) (isl (fun x => {x with wdReset := [], cmdReset := []}) [(Pg.CLKRST + CLKRST.ISLAND_SEL, (48 : Island).val), (Pg.LRX 0 + LRX.LANE_STATE, 3), (Pg.LTX 0 + LTX.TX_STATE, 2)])
    let m : Master := .host
    let i : Island := (48 : Island)
    let b := Pg.CLKRST
    let a := b + CLKRST.ISLAND_CMD
    let sel := s.d.fld (b + CLKRST.ISLAND_SEL) 0 6;
    s.d.islandOn i = true ∧ 48 ≤ i.val ∧ AdmitsHeld s m a ∧ sel < 60 ∧ s.d.islandOn sel = true)
  ∧ (
    let s : State := (withLock .host 8) (isl (fun x => {x with wdReset := [], cmdReset := []}) [(Pg.CLKRST + CLKRST.ISLAND_SEL, (60 : Island).val), (Pg.LRX 0 + LRX.LANE_STATE, 3), (Pg.LTX 0 + LTX.TX_STATE, 2)])
    let m : Master := .host
    let b := Pg.CLKRST
    let a := b + CLKRST.ISLAND_CMD
    let sel := s.d.fld (b + CLKRST.ISLAND_SEL) 0 6;
    AdmitsHeld s m a ∧ 60 ≤ sel) :=
  by refine ⟨?_, ?_, ?_, ?_⟩ <;> decide +kernel

/-- States and operands that meet the hypotheses of the clauses of `Obligations.DeviceResets`. -/
theorem witness_DeviceResets :
  (
    let s : State := withLock .host 8 (up [(Pg.LRX 0 + LRX.LANE_STATE, 3), (Pg.RING 3 + RING.RING_CTRL, 1)])
    let m : Master := .host
    let v : Word := 0xFFFF
    let b := Pg.CLKRST;
    Admits s m (b + CLKRST.DEV_RESET) ∧ s.d.resetAllowed m = true ∧ v ≠ 0xA55A ∧ Admits s m (b + CLKRST.MC_RESET))
  ∧ (
    let s : State := withLock .host 0x0F8 (up [])
    let m : Master := .bmc
    let b := Pg.CLKRST;
    Admits s m (b + CLKRST.DEV_RESET) ∧ s.d.resetAllowed m = false ∧ Admits s m (b + CLKRST.MC_RESET)) :=
  by refine ⟨?_, ?_⟩ <;> decide +kernel

/-- States and operands that meet the hypotheses of the clauses of `Obligations.ClockEvents`. -/
theorem witness_ClockEvents :
  (
    let s : State := up [(Pg.CLKRST + CLKRST.PLL_STATUS, 0x1800), (Pg.CLKRST + CLKRST.REF_STATUS, 0), (Pg.RING 3 + RING.RING_CTRL, 1)]
    let r : Fin 3 := 0
    let p : Fin 15 := 0
    let b := Pg.CLKRST
    let pll := b + CLKRST.PLL_STATUS
    let lock := Dev.pllBit p
    let ref := b + CLKRST.REF_STATUS
    let gone := s.d.bit ref (Dev.pllRef p);
    s.d.bit ref r = false ∧ r = 0 ∧ s.d.bit pll 12 = true ∧ gone = false ∧ s.d.islandOn 62 = true ∧ s.d.bit pll lock = false)
  ∧ (
    let s : State := up [(Pg.CLKRST + CLKRST.PLL_STATUS, 0x1800), (Pg.CLKRST + CLKRST.REF_STATUS, 7), (Pg.RING 3 + RING.RING_CTRL, 1)]
    let r : Fin 3 := 0
    let p : Fin 15 := 8
    let b := Pg.CLKRST
    let pll := b + CLKRST.PLL_STATUS
    let lock := Dev.pllBit p
    let ref := b + CLKRST.REF_STATUS
    let gone := s.d.bit ref (Dev.pllRef p);
    s.d.bit ref r = true ∧ gone = true ∧ s.d.bit pll lock = true)
  ∧ (
    let s : State := up [(Pg.CLKRST + CLKRST.PLL_STATUS, 0x1800), (Pg.CLKRST + CLKRST.REF_STATUS, 0), (Pg.RING 3 + RING.RING_CTRL, 1)]
    let r : Fin 3 := 1
    let b := Pg.CLKRST
    let pll := b + CLKRST.PLL_STATUS
    let ref := b + CLKRST.REF_STATUS;
    s.d.bit ref r = false ∧ r = 1 ∧ s.d.bit pll 11 = true) :=
  by refine ⟨?_, ?_, ?_⟩ <;> decide +kernel

end Sys2Proof.Tests.C14

/-! ### Chapter 15 -/

namespace Sys2Proof.Tests.C15

open Sys2Proof Sys2Proof.Machine Sys2Proof.Tests

set_option Elab.async false

def sec (f : Security → Security) (l : List (Nat × Nat)) : State := onD (fun t => {t with sec := f t.sec}) (up l)
def bs (v : Nat) := (Pg.BOOT + BOOT.BOOT_STATUS, v)
def cm (e : Nat) : CalMeasurement := ⟨BitVec.ofNat 16 e, [(3, [5])]⟩
def dirB (es : List (Nat × Nat × Nat)) : List Byte :=
  let e (x : Nat × Nat × Nat) : List Byte := [BitVec.ofNat 8 x.1, BitVec.ofNat 8 x.2.1, 0, 0] ++ bytesLE 4 0x1000 ++ bytesLE 4 x.2.2 ++ List.replicate 52 0
  let h := [0x4A, 0x47, 0x44, 0x52] ++ bytesLE 2 1 ++ bytesLE 2 es.length ++ [3] ++ List.replicate 51 0
  let body := es.flatMap e
  h ++ bytesLE 4 (crc32c (h ++ [0,0,0,0] ++ body)) ++ body
def d1 := dirB [(1,0,3), (1,1,4), (2,0,9), (8,0,5)]
def d2 := dirB [(2,0,9)]
def ents := Directory.entries d1
def rr (d : DmaDescriptor) (work : Bool) (s : State) := onD (fun t => ((t.setRing 6 (if work then {RingSt.init with work := some d} else {RingSt.init with fetched := [d]})).wr (Pg.RING 6 + RING.RING_CTRL) 1)) s

set_option maxRecDepth 100000 in
/-- States and operands that meet the hypotheses of the clauses of `Obligations.StartUp` (StartUp). -/
theorem witness_StartUp_StartUp :
  (
    let s : State := sec (fun x => {x with step := 8, calSlice := 3, retries := 0, dir := ents}) [bs 1, (Pg.CLKRST + CLKRST.PLL_STATUS, 0x3FFFF)]
    let copyB : Bool := (0 : BitVec 4) = 3
    let image : List Byte := [1,2,3]
    let i : Slice := (3 : Slice)
    let q : CalMeasurement := cm 0;
    s.d.sec.step ≠ 0 ∧ s.d.flashDue copyB image.length = false ∧ s.d.sec.step = 8 ∧ s.d.sec.calSlice = i.val ∧ q.refError.toInt.natAbs ≤ 1000 ∧ i = 3 ∧ (s.d.dirEntry 2 0).isSome = true)
  ∧ (
    let s : State := State.reset;
    s.d.sec.step = 0 ∧ s.d.isl.privDown = false ∧ s.d.bit (Pg.CLKRST + CLKRST.REF_STATUS) 1 = false)
  ∧ (
    let s : State := sec (fun x => {x with step := 2, calSlice := 0, retries := 0, dir := []}) [bs 1, (Pg.CLKRST + CLKRST.PLL_STATUS, 0x3FFFF)]
    let found : DirectoryFound := ⟨d1, d2⟩
    let use := if Directory.valid found.copyA then found.copyA else found.copyB
    let good := Directory.valid found.copyA = true ∨ Directory.valid found.copyB = true
    let firmware := (Directory.entries use).filter (fun e => e.type == 1);
    s.d.sec.step = 2 ∧ s.d.bootStage = 1 ∧ good ∧ (∃ e ∈ firmware, e.copy = 0))
  ∧ (
    let s : State := sec (fun x => {x with step := 2, calSlice := 0, retries := 0, dir := []}) [bs 1, (Pg.CLKRST + CLKRST.PLL_STATUS, 0x3FFFF)]
    let found : DirectoryFound := ⟨d2, d1⟩
    let use := if Directory.valid found.copyA then found.copyA else found.copyB
    let good := Directory.valid found.copyA = true ∨ Directory.valid found.copyB = true
    let firmware := (Directory.entries use).filter (fun e => e.type == 1);
    s.d.sec.step = 2 ∧ s.d.bootStage = 1 ∧ good ∧ (∀ e ∈ firmware, 1 < e.copy))
  ∧ (
    let s : State := sec (fun x => {x with step := 2, calSlice := 0, retries := 0, dir := []}) [bs 1, (Pg.CLKRST + CLKRST.PLL_STATUS, 0x3FFFF)]
    let found : DirectoryFound := ⟨[], []⟩
    let good := Directory.valid found.copyA = true ∨ Directory.valid found.copyB = true;
    s.d.sec.step = 2 ∧ s.d.bootStage = 1 ∧ ¬ good)
  ∧ (
    let s : State := sec (fun x => {x with step := 5, calSlice := 0, retries := 0, dir := []}) [bs 3, (Pg.CLKRST + CLKRST.PLL_STATUS, 0x3FFFF)]
    let failed : BitVec 4 := (0 : BitVec 4);
    s.d.sec.step = 5 ∧ s.d.bootStage = 3 ∧ s.d.isl.held = false ∧ s.d.bootPlls = true ∧ failed = 0)
  ∧ (
    let s : State := sec (fun x => {x with step := 3, calSlice := 0, retries := 0, dir := ents}) [bs 1, (Pg.CLKRST + CLKRST.PLL_STATUS, 0x3FFFF)]
    let copyB : Bool := (0 : BitVec 4) = 3
    let image : List Byte := [1,2,3];
    s.d.sec.step = 3 ∧ s.d.bootStage ≠ 8 ∧ s.d.sec.retries % 2 = (if copyB then 1 else 0) ∧ (∀ x ∈ s.d.sec.verify, x.path ≠ .flash) ∧ ((s.d.dirEntry 1 (if copyB then 1 else 0)).map DirEntry.length = some image.length))
  ∧ (
    let s : State := sec (fun x => {x with step := 5, calSlice := 0, retries := 1, dir := []}) [bs 3, (Pg.CLKRST + CLKRST.PLL_STATUS, 0x3FFFF)]
    let failed : BitVec 4 := (3 : BitVec 4)
    let bad := (List.range 4).filter (fun k => failed.toNat.testBit k);
    s.d.sec.step = 5 ∧ s.d.bootStage = 3 ∧ s.d.isl.held = false ∧ s.d.bootPlls = true ∧ 2 ≤ bad.length) :=
  by refine ⟨?_, ?_, ?_, ?_, ?_, ?_, ?_, ?_⟩ <;> decide +kernel

/-- States and operands that meet the hypotheses of the clauses of `Obligations.StartUp` (StartUpAgain). -/
theorem witness_StartUp_StartUpAgain :
  (
    let s : State := onD (fun t => {t with isl := {t.isl with privDown := false, mcDown := true}}) (sec (fun x => {x with failed := 1, step := 1 - 1, pendFw := none, dir := ents}) [bs (7 + 0x30000), (Pg.CLKRST + CLKRST.PLL_STATUS, 0x3FFFF)])
    let m : Master := .host
    let b := Pg.BOOT
    let a := b + BOOT.BOOT_CMD;
    Admits s m a ∧ s.d.holder (a / 0x1000) = 0 ∧ s.d.isl.privDown = false)
  ∧ (
    let s : State := onD (fun t => {t with isl := {t.isl with privDown := true, mcDown := true}}) (sec (fun x => {x with failed := 1, step := 1 - 1, pendFw := none, dir := ents}) [bs (7 + 0x30000), (Pg.CLKRST + CLKRST.PLL_STATUS, 0x3FFFF)]);
    s.d.isl.privDown = true)
  ∧ (
    let s : State := (withLock .host 0x0F8) (onD (fun t => {t with isl := {t.isl with privDown := false, mcDown := true}}) (sec (fun x => {x with failed := 1, step := 1 - 1, pendFw := none, dir := ents}) [bs (7 + 0x30000), (Pg.CLKRST + CLKRST.PLL_STATUS, 0x3FFFF)]))
    let m : Master := .host
    let b := Pg.BOOT
    let a := b + BOOT.BOOT_CMD;
    AdmitsHeld s m a ∧ s.d.bootStage ≠ 8)
  ∧ (
    let s : State := (withLock .host 0x0F8) (onD (fun t => {t with isl := {t.isl with privDown := false, mcDown := true}}) (sec (fun x => {x with failed := 3, step := 3 - 1, pendFw := none, dir := ents}) [bs (8 + 0x30000), (Pg.CLKRST + CLKRST.PLL_STATUS, 0x3FFFF)]))
    let m : Master := .host
    let b := Pg.BOOT
    let a := b + BOOT.BOOT_CMD;
    AdmitsHeld s m a ∧ s.d.bootStage = 8 ∧ s.d.sec.failed = 3)
  ∧ (
    let s : State := (withLock .host 0x0F8) (onD (fun t => {t with isl := {t.isl with privDown := false, mcDown := true}}) (sec (fun x => {x with failed := 5, step := 5 - 1, pendFw := none, dir := ents}) [bs (8 + 0x30000), (Pg.CLKRST + CLKRST.PLL_STATUS, 0x3FFFF)]))
    let m : Master := .host
    let b := Pg.BOOT
    let a := b + BOOT.BOOT_CMD;
    AdmitsHeld s m a ∧ s.d.bootStage = 8 ∧ s.d.sec.failed = 5 ∧ s.d.sec.pendFw = none ∧ (s.d.dirEntry 1 0).isSome = true)
  ∧ (
    let s : State := (withLock .host 0x0F8) (onD (fun t => {t with isl := {t.isl with privDown := false, mcDown := true}}) (sec (fun x => {x with failed := 7, step := 7 - 1, pendFw := none, dir := ents}) [bs (8 + 0x30000), (Pg.CLKRST + CLKRST.PLL_STATUS, 0x3FFFF)]))
    let m : Master := .host
    let b := Pg.BOOT
    let a := b + BOOT.BOOT_CMD;
    AdmitsHeld s m a ∧ s.d.bootStage = 8 ∧ s.d.sec.failed = 7)
  ∧ (
    let s : State := (withLock .host 0x0F8) (onD (fun t => {t with isl := {t.isl with privDown := false, mcDown := true}}) (sec (fun x => {x with failed := 10, step := 10 - 1, pendFw := none, dir := ents}) [bs (8 + 0x30000), (Pg.CLKRST + CLKRST.PLL_STATUS, 0x3FFFF)]))
    let m : Master := .host
    let b := Pg.BOOT
    let a := b + BOOT.BOOT_CMD;
    AdmitsHeld s m a ∧ s.d.bootStage = 8 ∧ s.d.sec.failed = 10 ∧ (s.d.dirEntry 2 0).isSome = true)
  ∧ (
    let s : State := (withLock .host 0x0F8) (onD (fun t => {t with isl := {t.isl with privDown := false, mcDown := true}}) (sec (fun x => {x with failed := 5, step := 5 - 1, pendFw := (some ((5 : Word), 6, ([7] : List Byte))), dir := ents}) [bs (8 + 0x30000), (Pg.CLKRST + CLKRST.PLL_STATUS, 0x3FFFF)]))
    let m : Master := .host
    let b := Pg.BOOT
    let a := b + BOOT.BOOT_CMD;
    AdmitsHeld s m a ∧ s.d.bootStage = 8 ∧ s.d.sec.failed = 5 ∧ (s.d.sec.pendFw).isSome = true) :=
  by refine ⟨?_, ?_, ?_, ?_, ?_, ?_, ?_, ?_⟩ <;> decide +kernel

/-- States and operands that meet the hypotheses of the clauses of `Obligations.ImagesFusesAndDebug` (FusesAndDebug). -/
theorem witness_ImagesFusesAndDebug_FusesAndDebug :
  (
    let s : State := (withLock .host 0x0F8) (sec (fun x => {x with blow := [([801], .revoke)], paused := false}) [(Pg.SUPPLY + SUPPLY.SUP_STATUS, 0), (Pg.BOOT + BOOT.ROLLBACK_TARGET, 3), (Pg.BOOT + BOOT.FW_ROLLBACK, 5), (Pg.BOOT + BOOT.DEBUG_STATE, 2)])
    let m : Master := .host
    let f : FuseReadback := .blownOnRetry
    let i : Nat := 801
    let left : List Nat := match s.d.sec.blow with | (_ :: l, _) :: _ => l | _ => []
    let job : FuseJob := match s.d.sec.blow with | (_, j) :: _ => j | _ => .command
    let rest : List (List Nat × FuseJob) := s.d.sec.blow.tail
    let b := Pg.BOOT
    let a := b + BOOT.SEC_CMD
    let goal := s.d.fld (b + BOOT.ROLLBACK_TARGET) 0 7;
    AdmitsHeld s m a ∧ s.d.supplyHold = false ∧ s.d.rollCtr < goal ∧ goal ≤ s.d.fld (b + BOOT.FW_ROLLBACK) 0 7 ∧ goal ≤ 64 ∧ s.d.fuseBit 772 = false ∧ s.d.fuseBit 773 = false ∧ s.d.sec.blow = (i :: left, job) :: rest ∧ s.d.sec.paused = false ∧ (job ≠ .command ∨ s.d.sec.verify = []) ∧ f ≠ .unblown ∧ left = [] ∧ Admits s m (b + BOOT.DBG_CMD) ∧ s.d.debugLevel ≠ 0)
  ∧ (
    let s : State := (withLock .host 0x0F8) (sec (fun x => {x with blow := [], paused := true}) [(Pg.SUPPLY + SUPPLY.SUP_STATUS, 0), (Pg.BOOT + BOOT.ROLLBACK_TARGET, 0), (Pg.BOOT + BOOT.FW_ROLLBACK, 0), (Pg.BOOT + BOOT.DEBUG_STATE, 2)])
    let m : Master := .host
    let b := Pg.BOOT
    let a := b + BOOT.SEC_CMD
    let goal := s.d.fld (b + BOOT.ROLLBACK_TARGET) 0 7;
    AdmitsHeld s m a ∧ s.d.supplyHold = false ∧ (goal ≤ s.d.rollCtr ∨ s.d.fld (b + BOOT.FW_ROLLBACK) 0 7 < goal) ∧ s.d.sec.paused = true)
  ∧ (
    let s : State := (withLock .host 0x0F8) (sec (fun x => {x with blow := [([801], .revoke)], paused := false}) [(Pg.SUPPLY + SUPPLY.SUP_STATUS, 0x80000000), (Pg.BOOT + BOOT.ROLLBACK_TARGET, 3), (Pg.BOOT + BOOT.FW_ROLLBACK, 5), (Pg.BOOT + BOOT.DEBUG_STATE, 2)])
    let m : Master := .host
    let f : FuseReadback := .unblown
    let i : Nat := 801
    let left : List Nat := match s.d.sec.blow with | (_ :: l, _) :: _ => l | _ => []
    let job : FuseJob := match s.d.sec.blow with | (_, j) :: _ => j | _ => .command
    let rest : List (List Nat × FuseJob) := s.d.sec.blow.tail
    let b := Pg.BOOT
    let a := b + BOOT.SEC_CMD;
    AdmitsHeld s m a ∧ s.d.supplyHold = true ∧ s.d.sec.blow = (i :: left, job) :: rest ∧ s.d.sec.paused = false ∧ (job ≠ .command ∨ s.d.sec.verify = []) ∧ f = .unblown) :=
  by refine ⟨?_, ?_, ?_⟩ <;> decide +kernel

/-- States and operands that meet the hypotheses of the clauses of `Obligations.FlashAndAttestation`. -/
theorem witness_FlashAndAttestation :
  (
    let s : State := onD (fun d => {d with sec := {d.sec with certs := List.replicate 0 3, dir := []}}) (rr dma0 false (sec (fun x => {x with step := 9}) [bs 7]))
    let len : Nat := 4096
    let tag : Word := 0xABCD
    let d : DmaDescriptor := dma0
    let b := Pg.BOOT
    let st := b + BOOT.ATTEST_STATUS
    let fs := b + BOOT.FLASH_STATUS;
    s.d.bit fs 29 = false ∧ 2 ≤ s.d.sec.step ∧ s.d.sec.erased = false ∧ s.d.bit st 31 = false ∧ s.d.ringHead 6 = some d ∧ d.len.toNat = len ∧ d.tag = tag)
  ∧ (
    let s : State := onD (fun d => {d with sec := {d.sec with certs := List.replicate 0 3, dir := []}}) (rr dma0 true (sec (fun x => {x with requests := [⟨7, 18000, 5⟩, ⟨9, 5, 5⟩]}) [bs 7, (Pg.BOOT + BOOT.ATTEST_STATUS, 0x80000000)]))
    let d : DmaDescriptor := dma0
    let q : AttReq := (rr dma0 true (sec (fun x => {x with requests := [⟨7, 18000, 5⟩, ⟨9, 5, 5⟩]}) [bs 7, (Pg.BOOT + BOOT.ATTEST_STATUS, 0x80000000)])).d.sec.requests.headD ⟨7, 20000, 5⟩
    let rest : List AttReq := (rr dma0 true (sec (fun x => {x with requests := [⟨7, 18000, 5⟩, ⟨9, 5, 5⟩]}) [bs 7, (Pg.BOOT + BOOT.ATTEST_STATUS, 0x80000000)])).d.sec.requests.tail
    let b := Pg.BOOT
    let st := b + BOOT.ATTEST_STATUS
    let n := s.d.sec.certs.length;
    (s.d.sec.erased = true ∨ s.d.bit st 31 = true) ∧ s.d.sec.requests = q :: rest ∧ (s.d.ring 6).work = some d ∧ s.d.bit st 31 = true ∧ 17964 + n ≤ q.bufLen)
  ∧ (
    let s : State := onD (fun d => {d with sec := {d.sec with certs := List.replicate 0 3, dir := ents}}) ((withLock .host 0x0F8) (sec (fun x => {x with step := 9}) [bs 7, (Pg.BOOT + BOOT.FLASH_STATUS, 0x20000000), (Pg.BOOT + BOOT.FLASH_XFER, 0x01000108)]))
    let m : Master := .host
    let b := Pg.BOOT
    let go := b + BOOT.FLASH_GO
    let fs := b + BOOT.FLASH_STATUS
    let free := 7 ≤ s.d.bootStage ∧ s.d.sec.flashDev = false ∧ s.d.bit fs 29 = false;
    AdmitsHeld s m go ∧ ¬ free ∧ s.d.bit fs 29 = true)
  ∧ (
    let s : State := onD (fun d => {d with sec := {d.sec with certs := List.replicate 37 3, dir := []}}) (rr dma0 true (sec (fun x => {x with requests := [⟨7, 18000, 5⟩, ⟨9, 5, 5⟩]}) [bs 7, (Pg.BOOT + BOOT.ATTEST_STATUS, 0xA0000000)]))
    let d : DmaDescriptor := dma0
    let q : AttReq := (rr dma0 true (sec (fun x => {x with requests := [⟨7, 18000, 5⟩, ⟨9, 5, 5⟩]}) [bs 7, (Pg.BOOT + BOOT.ATTEST_STATUS, 0xA0000000)])).d.sec.requests.headD ⟨7, 20000, 5⟩
    let rest : List AttReq := (rr dma0 true (sec (fun x => {x with requests := [⟨7, 18000, 5⟩, ⟨9, 5, 5⟩]}) [bs 7, (Pg.BOOT + BOOT.ATTEST_STATUS, 0xA0000000)])).d.sec.requests.tail
    let b := Pg.BOOT
    let st := b + BOOT.ATTEST_STATUS
    let n := s.d.sec.certs.length;
    s.d.sec.requests = q :: rest ∧ (s.d.ring 6).work = some d ∧ s.d.bit st 31 = true ∧ q.bufLen < 17964 + n)
  ∧ (
    let s : State := onD (fun d => {d with sec := {d.sec with certs := List.replicate 0 3, dir := ents}}) ((withLock .host 0x0F8) (sec (fun x => {x with step := 9}) [bs 7, (Pg.BOOT + BOOT.FLASH_STATUS, 0), (Pg.BOOT + BOOT.FLASH_XFER, 0x01000108)]))
    let m : Master := .host
    let b := Pg.BOOT
    let go := b + BOOT.FLASH_GO
    let fs := b + BOOT.FLASH_STATUS
    let outN := s.d.fld (b + BOOT.FLASH_XFER) 0 9
    let inN := s.d.fld (b + BOOT.FLASH_XFER) 16 9
    let free := 7 ≤ s.d.bootStage ∧ s.d.sec.flashDev = false ∧ s.d.bit fs 29 = false;
    AdmitsHeld s m go ∧ free ∧ 1 ≤ outN ∧ outN ≤ 264 ∧ inN ≤ 256)
  ∧ (
    let s : State := onD (fun d => {d with sec := {d.sec with certs := List.replicate 0 3, dir := ents}}) ((withLock .host 0x0F8) (sec (fun x => {x with step := 9}) [bs 7, (Pg.BOOT + BOOT.FLASH_STATUS, 0), (Pg.BOOT + BOOT.FLASH_XFER, 0x01010108)]))
    let m : Master := .host
    let b := Pg.BOOT
    let go := b + BOOT.FLASH_GO
    let fs := b + BOOT.FLASH_STATUS
    let outN := s.d.fld (b + BOOT.FLASH_XFER) 0 9
    let inN := s.d.fld (b + BOOT.FLASH_XFER) 16 9
    let free := 7 ≤ s.d.bootStage ∧ s.d.sec.flashDev = false ∧ s.d.bit fs 29 = false;
    AdmitsHeld s m go ∧ free ∧ (264 < outN ∨ 256 < inN))
  ∧ (
    let s : State := onD (fun d => {d with sec := {d.sec with certs := List.replicate 0 3, dir := ents}}) ((withLock .host 0x0F8) (sec (fun x => {x with step := 9}) [bs 7, (Pg.BOOT + BOOT.FLASH_STATUS, 0), (Pg.BOOT + BOOT.FLASH_XFER, 0x00000000)]))
    let m : Master := .host
    let b := Pg.BOOT
    let go := b + BOOT.FLASH_GO
    let fs := b + BOOT.FLASH_STATUS
    let outN := s.d.fld (b + BOOT.FLASH_XFER) 0 9
    let inN := s.d.fld (b + BOOT.FLASH_XFER) 16 9
    let free := 7 ≤ s.d.bootStage ∧ s.d.sec.flashDev = false ∧ s.d.bit fs 29 = false;
    AdmitsHeld s m go ∧ free ∧ outN = 0 ∧ inN ≤ 256) :=
  by refine ⟨?_, ?_, ?_, ?_, ?_, ?_, ?_⟩ <;> decide +kernel



/-- A key block, and fuses that hold its digest as root 0 and root 1. -/
def keys : List Byte := List.replicate 432 5
def rootWords : List Word :=
  [0xcf1ec26d, 0x8ed023b4, 0x67bfa71c, 0x549cbd72, 0xc9b35219, 0x27644f49, 0x7580a0c6, 0x75657176, 0x66707671, 0x76d25027,
   0xd07cfbe7, 0xf35dcd01]
def roots : Sparse Word := (List.range 12).zip rootWords ++ ((List.range 12).map (12 + ·)).zip rootWords
/-- The first 32 bytes of an image, and an image with its digest and key block. -/
def front (type targets entry code keep len : Nat) : List Byte :=
  [0x4A, 0x47, 0x4D, 0x52, 1, 0, BitVec.ofNat 8 type, 0, 4, 3, 2, 1, 5, 0, 0, 0] ++ bytesLE 4 len ++ bytesLE 4 targets
    ++ bytesLE 2 entry ++ bytesLE 2 code ++ bytesLE 2 keep ++ [5, 0]
def image (type targets entry code keep : Nat) (p : List Byte) : List Byte :=
  front type targets entry code keep p.length ++ (sha384 p ++ (List.replicate 48 0 ++ (keys ++ (p ++ List.replicate 16608 0))))

theorem front_length (t g e c k n : Nat) : (front t g e c k n).length = 32 := by simp [front]

theorem getD_front (h r : List Byte) (i : Nat) (n : i < h.length) : (h ++ r).getD i 0 = h.getD i 0 := by
  rw [List.getD_append _ _ _ _ n]

theorem digest_key : digestNat (sha384 keys) = natOfWords rootWords := by decide +kernel

section
variable (t g e c k : Nat) (p : List Byte)

theorem image_field (off n : Nat) (h : off + n ≤ 32) : slice (image t g e c k p) off n = slice (front t g e c k p.length) off n :=
  slice_append_left _ _ _ _ (by rw [front_length]; exact h)
theorem image_byte (i : Nat) (h : i < 32) : (image t g e c k p).getD i 0 = (front t g e c k p.length).getD i 0 :=
  getD_front _ _ _ (by rw [front_length]; exact h)
theorem image_digest : slice (image t g e c k p) 32 48 = sha384 p := by
  have := slice_middle (front t g e c k p.length) (sha384 p) (List.replicate 48 0 ++ (keys ++ (p ++ List.replicate 16608 0)))
  rwa [front_length, sha384_length] at this
theorem image_zeros : slice (image t g e c k p) 80 48 = List.replicate 48 0 := by
  have := slice_middle (front t g e c k p.length ++ sha384 p) (List.replicate 48 0) (keys ++ (p ++ List.replicate 16608 0))
  simpa [-List.reduceReplicate, front_length, image] using this
theorem image_keys : Img.keyBlock (image t g e c k p) = keys := by
  have h1 : (front t g e c k p.length).drop 128 = [] := List.drop_eq_nil_of_le (by simp [front_length])
  have h2 : (sha384 p).drop 96 = [] := List.drop_eq_nil_of_le (by simp)
  simp [-List.reduceReplicate, Img.keyBlock, image, List.drop_append, front_length, keys, h1, h2]
theorem image_length : (image t g e c k p).length = 128 + 432 + p.length + 384 + 16224 := by
  simp [-List.reduceReplicate, image, front_length, keys]; omega

theorem image_payload (h : Img.payLen (image t g e c k p) = p.length) : Img.payload (image t g e c k p) = p := by
  rw [Img.payload, h]
  have h1 : (front t g e c k p.length).drop 560 = [] := List.drop_eq_nil_of_le (by simp [front_length])
  have h2 : (sha384 p).drop 528 = [] := List.drop_eq_nil_of_le (by simp)
  simp [-List.reduceReplicate, image, List.drop_append, front_length, keys, h1, h2]

/-- An image from IMG_DATA passes every check when its front, its signer and its target conditions hold. -/
theorem image_passes (s : Dev) (owner : BitVec 8)
    (hlen : natLE (slice (front t g e c k p.length) 16 4) = p.length)
    (hform : slice (front t g e c k p.length) 0 4 = [0x4A, 0x47, 0x4D, 0x52] ∧ natLE (slice (front t g e c k p.length) 4 2) = 1
      ∧ allZero (slice (front t g e c k p.length) 13 3) = true ∧ allZero (slice (front t g e c k p.length) 31 1) = true)
    (htype : ((front t g e c k p.length).getD 6 0).toNat = t ∧ t ≠ 4 ∧ t ≠ 5 ∧ 1 ≤ t ∧ t ≤ 7) (hp : t = 6 → p.getD 0 0 < 0x10)
    (hs : ((front t g e c k p.length).getD 7 0).toNat = 0) (hr : ((front t g e c k p.length).getD 12 0).toNat = 5)
    (hroot : s.rootHash 0 = natOfWords rootWords ∧ s.rootRevoked 0 = false) (hroll : s.rollCtr = 0)
    (hhold : s.supplyHold = false) (htgt : s.targetTakes ⟨.data, owner, image t g e c k p⟩ = true) :
    s.imageCode ⟨.data, owner, image t g e c k p⟩ ⟨true, true⟩ = 0 := by
  have hl : Img.payLen (image t g e c k p) = p.length := by
    rw [Img.payLen, image_field _ _ _ _ _ _ _ _ (by omega), hlen]
  have ht : Img.type (image t g e c k p) = t := by rw [Img.type, image_byte _ _ _ _ _ _ _ (by omega), htype.1]
  have hsg : Img.signer (image t g e c k p) = 0 := by rw [Img.signer, image_byte _ _ _ _ _ _ _ (by omega), hs]
  have f1 : Img.formOk (image t g e c k p) = true := by
    rw [Img.formOk, image_field _ _ _ _ _ _ 0 4 (by omega), image_field _ _ _ _ _ _ 4 2 (by omega), image_field _ _ _ _ _ _ 13 3 (by omega),
      image_field _ _ _ _ _ _ 31 1 (by omega), image_zeros, image_length, hl, hform.1, hform.2.1, hform.2.2.1, hform.2.2.2]
    have : allZero (List.replicate 48 0) = true := by decide
    simp only [this, beq_self_eq_true, Bool.and_self]
  have f2 : s.pathTakes ⟨.data, owner, image t g e c k p⟩ = true := by
    simp only [Dev.pathTakes, ht]; simp [htype.2.2.2.1, htype.2.2.2.2]
  have f3 : Dev.signerTakes (image t g e c k p) = true := by
    simp only [Dev.signerTakes, hsg, ht, image_payload t g e c k p hl]
    have := htype.2; split <;> simp_all
  have f4 : s.keyTakes (image t g e c k p) = true := by
    simp [Dev.keyTakes, hsg, Dev.sameKey, image_keys, digest_key, hroot.1, hroot.2]
  have f6 : Img.roll (image t g e c k p) = 5 := by rw [Img.roll, image_byte _ _ _ _ _ _ _ (by omega), hr]
  simp only [Dev.imageCode, f1, f2, f3, f4, ht, image_payload t g e c k p hl, image_digest, f6, hroll, hhold, htgt]
  simp
end


def other : Image := ⟨.data, 1, List.replicate 100 5⟩
/-- A device that verifies an image, its fuses holding the roots. -/
def verifies (b : List Byte) (l : List (Nat × Nat)) : State :=
  onD (fun t => { t with sec := { t.sec with verify := [⟨.data, 1, b⟩, other], fuses := roots, chalValid := true } }) (up l)
def token : List Byte := List.replicate 48 0 ++ [2] ++ List.replicate 15 0
def program : List Byte := List.replicate (4 * 3 + 8192) 7

/-- States and operands that meet the hypotheses of the clauses of `Obligations.ImagesFusesAndDebug` (Images). -/
theorem witness_ImagesFusesAndDebug_Images :
  (
    let s : State := withLock .host 0x0F8 (onD (fun t => { t with sec := { t.sec with stream := some (6, 1, [1, 2, 3, 4]), verify := [other] } })
      (up [(Pg.BOOT + BOOT.IMG_LEN, 500)]))
    let m : Master := .host
    let v : Word := 0x12345678
    let n : Nat := 6
    let l : List Byte := [1, 2, 3, 4]
    let img : Image := other
    let rest : List Image := []
    let c : ImageCrypto := ⟨true, true⟩
    let code := s.d.imageCode img c
    let b := Pg.BOOT
    let data := b + BOOT.IMG_DATA
    let all := (l ++ bytesLE 4 v.toNat).take n
    let cmd := b + BOOT.IMG_CMD
    let len := s.d.fld (b + BOOT.IMG_LEN) 0 21;
    AdmitsHeld s m cmd ∧ len ≠ 0 ∧ s.d.sec.stream = some (n, masterId m, l) ∧ Admits s m data ∧ all.length = n ∧ s.d.sec.verify = img :: rest ∧ img.path = .data ∧ code ≠ 0)
  ∧ (
    let s : State := onD (fun t => { t with sec := { t.sec with stream := some (10, 1, [1, 2, 3, 4]) } }) (up [])
    let m : Master := .host
    let v : Word := 0x12345678
    let n : Nat := 10
    let l : List Byte := [1, 2, 3, 4]
    let b := Pg.BOOT
    let data := b + BOOT.IMG_DATA
    let all := (l ++ bytesLE 4 v.toNat).take n;
    Admits s m data ∧ s.d.sec.stream = some (n, masterId m, l) ∧ all.length ≠ n)
  ∧ (
    let s : State := up []
    let m : Master := .host
    let b := Pg.BOOT
    let cmd := b + BOOT.IMG_CMD;
    Admits s m cmd ∧ s.d.holder (cmd / 0x1000) = 0 ∧ s.d.sec.stream = none ∧ Admits s m (b + BOOT.IMG_DATA))
  ∧ (
    let s : State := verifies (image 1 0 0 0 0 [1, 2, 3]) []
    let img : Image := ⟨.data, 1, image 1 0 0 0 0 [1, 2, 3]⟩;
    s.d.sec.verify = img :: [other] ∧ img.path = .data ∧ s.d.imageCode img ⟨true, true⟩ = 0 ∧ Img.type img.bytes = 1)
  ∧ (
    let s : State := verifies (image 3 0x81 1 3 10 program) []
    let img : Image := ⟨.data, 1, image 3 0x81 1 3 10 program⟩
    let type := Img.type img.bytes;
    s.d.sec.verify = img :: [other] ∧ img.path = .data ∧ s.d.imageCode img ⟨true, true⟩ = 0 ∧ 2 ≤ type ∧ type ≤ 4)
  ∧ (
    let s : State := verifies (image 6 0 0 0 0 [1]) []
    let img : Image := ⟨.data, 1, image 6 0 0 0 0 [1]⟩
    let p := Img.payload img.bytes;
    s.d.sec.verify = img :: [other] ∧ img.path = .data ∧ s.d.imageCode img ⟨true, true⟩ = 0 ∧ Img.type img.bytes = 6
      ∧ (p.getD 0 0).toNat < 2 ∧ s.d.fuseBit (32 * 24 + (p.getD 0 0).toNat) = false)
  ∧ (
    let s : State := verifies (image 7 0 0 0 0 token) []
    let img : Image := ⟨.data, 1, image 7 0 0 0 0 token⟩;
    s.d.sec.verify = img :: [other] ∧ img.path = .data ∧ s.d.imageCode img ⟨true, true⟩ = 0 ∧ Img.type img.bytes = 7) := by
  refine ⟨by decide +kernel, by decide +kernel, by decide +kernel, ?_, ?_, ?_, ?_⟩
  · refine ⟨rfl, rfl, ?_, by decide +kernel⟩
    refine image_passes _ _ _ _ _ _ _ _ ?_ ?_ ?_ ?_ ?_ ?_ ?_ ?_ ?_ ?_
    all_goals exact (by decide +kernel)
  · have hp : program.length = 8204 := by simp [-List.reduceReplicate, program]
    refine ⟨rfl, rfl, ?_, ?_⟩
    · refine image_passes _ _ _ _ _ _ _ _ ?_ ?_ ?_ ?_ ?_ ?_ ?_ ?_ ?_ ?_
      all_goals first | (rw [hp]; decide +kernel) | exact (by decide +kernel)
    · decide +kernel
  · refine ⟨rfl, rfl, ?_, by decide +kernel, ?_⟩
    · refine image_passes _ _ _ _ _ _ _ _ ?_ ?_ ?_ ?_ ?_ ?_ ?_ ?_ ?_ ?_
      all_goals exact (by decide +kernel)
    · rw [image_payload _ _ _ _ _ _ (by decide +kernel)]; decide +kernel
  · refine ⟨rfl, rfl, ?_, by decide +kernel⟩
    refine image_passes _ _ _ _ _ _ _ _ ?_ ?_ ?_ ?_ ?_ ?_ ?_ ?_ ?_ ?_
    all_goals exact (by decide +kernel)


end Sys2Proof.Tests.C15

/-! ### Chapter 16 -/

namespace Sys2Proof.Tests.C16

open Sys2Proof Sys2Proof.Machine Sys2Proof.Tests

set_option Elab.async false

def pen (p : Nat) := p * 0x1000 + HDR.INT_ENABLE
def ibx (l : List (Nat × List Msg)) (s : State) : State := onD (fun t => {t with mbx := {t.mbx with inbox := l}}) s
def mw (op : Nat) : List Word := [BitVec.ofNat 32 (op * 2^24 + 0x1234), 2, 3, 4, 5, 6, 7, 8]
def mm (op : Nat) (m : Master) : Msg := ⟨masterId m, 0, 5, 77, mw op, 0⟩
def rg (r : Nat) (f : RingSt → RingSt) (l : List (Nat × Nat)) : State := onD (fun t => t.setRing r (f RingSt.init)) (up l)
def b (r : Nat) := Pg.RING r
def dma1 : DmaDescriptor := ⟨0x1000, 65536, 0xABCD, 3, 0, false, 3⟩
def mb0 := Pg.MBX 0
def mbs (l : List (Nat × List Msg)) (f : Mailbox → Mailbox) (r : List (Nat × Nat)) (dest : Nat) (e : Nat) : State :=
  onD (fun t => {t with mbx := f {t.mbx with inbox := l, txDest := [(e, BitVec.ofNat 32 dest)]}}) (up r)
def circ : State := onD (fun t => {t with mbx := {t.mbx with inbox := [(0, List.replicate 64 msg0), (1, List.replicate 64 msg0)], reject := [(0, some 1), (1, some 0)]}}) (up [(mb0 + MBX.STALEMATE_WINDOW, 5)])

/-- States and operands that meet the hypotheses of the clauses of `Obligations.BusSmbusAndController` (BusAndSmbus). -/
theorem witness_BusSmbusAndController_BusAndSmbus :
  (
    let s : State := up []
    let page : BitVec 10 := 0
    let addr : BitVec 24 := BitVec.ofNat 24 (pen 0)
    let a := page.toNat * 0x1000 + HDR.INT_ENABLE;
    addr.toNat = a ∧ Admits s .bmc a ∧ Dev.posted page.toNat = false ∧ s.d.readErr .bmc a = none ∧ s.d.busy page.toNat = false)
  ∧ (
    let s : State := State.reset
    let page : BitVec 10 := 0x10
    let addr : BitVec 24 := BitVec.ofNat 24 (pen 0x10)
    let a := page.toNat * 0x1000 + HDR.INT_ENABLE;
    addr.toNat = a ∧ (s.d.writeErr .bmc a 0xF false).isSome = true ∧ (pageRow page.toNat).isSome ∧ (s.d.readErr .bmc a).isSome = true) :=
  by refine ⟨?_, ?_⟩ <;> decide +kernel

/-- States and operands that meet the hypotheses of the clauses of `Obligations.BusSmbusAndController` (ControllerMessages). -/
theorem witness_BusSmbusAndController_ControllerMessages :
  (
    let s : State := ibx [(2, [mm 2 .bmc, msg0])] (up [])
    let sender : Master := .bmc
    let e : Nat := 1
    let x : Msg := mm 2 .bmc
    let rest : List Msg := (s.d.inbox 2).tail
    let words : List Word := mw 2
    let op := fieldOf (words.getD 0 0) 24 8;
    s.d.isl.mcDown = false ∧ (sender = .host ∧ e = 0 ∨ sender = .bmc ∧ e = 1) ∧ s.d.inbox 2 = x :: rest ∧ x.sender = masterId sender ∧ x.words = words ∧ words.length = 8 ∧ (s.d.inbox e).length < 8 ∧ op = 2 ∧ op ≠ 1)
  ∧ (
    let s : State := onD (fun t => {t with mbx := {t.mbx with replies := [((2), mw 1), (1, [])]}}) (up [])
    let e : Nat := 1
    let dest : Nat := 2
    let words : List Word := mw 1
    let more : List (Nat × List Word) := s.d.mbx.replies.tail;
    s.d.isl.mcDown = false ∧ s.d.mbx.replies = (dest, words) :: more ∧ dest = e + 1 ∧ e < 2 ∧ (s.d.inbox e).length < 8)
  ∧ (
    let s : State := ibx [(2, [mm 1 .bmc, msg0])] (up [])
    let sender : Master := .bmc
    let e : Nat := 1
    let x : Msg := mm 1 .bmc
    let rest : List Msg := (s.d.inbox 2).tail
    let words : List Word := mw 1
    let op := fieldOf (words.getD 0 0) 24 8;
    s.d.isl.mcDown = false ∧ (sender = .host ∧ e = 0 ∨ sender = .bmc ∧ e = 1) ∧ s.d.inbox 2 = x :: rest ∧ x.sender = masterId sender ∧ x.words = words ∧ words.length = 8 ∧ (s.d.inbox e).length < 8 ∧ op = 1)
  ∧ (
    let s : State := ibx [(2, [mm 3 .bmc, msg0])] (up [])
    let sender : Master := .bmc
    let e : Nat := 1
    let x : Msg := mm 3 .bmc
    let rest : List Msg := (s.d.inbox 2).tail
    let words : List Word := mw 3
    let op := fieldOf (words.getD 0 0) 24 8;
    s.d.isl.mcDown = false ∧ (sender = .host ∧ e = 0 ∨ sender = .bmc ∧ e = 1) ∧ s.d.inbox 2 = x :: rest ∧ x.sender = masterId sender ∧ x.words = words ∧ words.length = 8 ∧ (s.d.inbox e).length < 8 ∧ op ≠ 1 ∧ op ≠ 2)
  ∧ (
    let s : State := onD (fun t => {t with isl := {t.isl with mcDown := true}}) (ibx [(2, [mm 1 .bmc, msg0])] (up []));
    s.d.isl.mcDown = true) :=
  by refine ⟨?_, ?_, ?_, ?_, ?_⟩ <;> decide +kernel

/-- States and operands that meet the hypotheses of the clauses of `Obligations.Rings` (RingControl). -/
theorem witness_Rings_RingControl :
  (
    let s : State := rg (0 : Ring) (fun g => {g with work := none, fetched := [dma1], waiting := true, records := 2, fill := 100}) [(b (0 : Ring) + RING.RING_CTRL, 1), (b (0 : Ring) + RING.RING_CFG, 4), (b (0 : Ring) + RING.SQ_HEAD, 0), (b (0 : Ring) + RING.CQ_TAIL, 5)]
    let m : Master := .host
    let r : Ring := (0 : Ring)
    let v : Word := 5
    let d : DmaDescriptor := dma1
    let b := Pg.RING r
    let x := fieldOf v 0 16
    let ctrl := b + RING.RING_CTRL
    let g := s.d.ring r;
    Admits s m ctrl ∧ s.d.bit ctrl 0 = true ∧ g.work = none ∧ g.fetched = [d] ∧ g.slots = [] ∧ Admits s m (b + RING.SQ_TAIL) ∧ Dev.idx16 x (s.d.sqHead r) ≤ s.d.sqSize r ∧ Admits s m (b + RING.CQ_HEAD) ∧ Dev.idx16 x (s.d.cqHead r) ≤ s.d.unconsumed r ∧ x = s.d.cqTail r)
  ∧ (
    let s : State := rg (0 : Ring) (fun g => {g with work := none, fetched := [], waiting := true, records := 2, fill := 100}) [(b (0 : Ring) + RING.RING_CTRL, 0), (b (0 : Ring) + RING.RING_CFG, 4), (b (0 : Ring) + RING.SQ_HEAD, 0), (b (0 : Ring) + RING.CQ_TAIL, 5)]
    let m : Master := .host
    let r : Ring := (0 : Ring)
    let v : Word := 17
    let b := Pg.RING r
    let x := fieldOf v 0 16
    let ctrl := b + RING.RING_CTRL
    let g := s.d.ring r;
    Admits s m ctrl ∧ s.d.bit ctrl 0 = false ∧ g.stopping = false ∧ Admits s m (b + RING.SQ_TAIL) ∧ s.d.sqSize r < Dev.idx16 x (s.d.sqHead r) ∧ Admits s m (b + RING.CQ_HEAD) ∧ s.d.unconsumed r < Dev.idx16 x (s.d.cqHead r))
  ∧ (
    let s : State := rg (0 : Ring) (fun g => {g with work := (some dma1), fetched := [], waiting := true, records := 2, fill := 100}) [(b (0 : Ring) + RING.RING_CTRL, 1), (b (0 : Ring) + RING.RING_CFG, 4), (b (0 : Ring) + RING.SQ_HEAD, 0), (b (0 : Ring) + RING.CQ_TAIL, 5)]
    let m : Master := .host
    let r : Ring := (0 : Ring)
    let d : DmaDescriptor := dma1
    let b := Pg.RING r
    let ctrl := b + RING.RING_CTRL
    let g := s.d.ring r;
    Admits s m ctrl ∧ s.d.bit ctrl 0 = true ∧ g.work = some d ∧ r.val ≠ 6) :=
  by refine ⟨?_, ?_, ?_⟩ <;> decide +kernel

/-- States and operands that meet the hypotheses of the clauses of `Obligations.Rings` (RingService). -/
theorem witness_Rings_RingService :
  (
    let s : State := rg (1 : Ring) (fun g => {g with fetched := [dma1]}) ([(b (1 : Ring) + RING.RING_CTRL, 1), (b (1 : Ring) + RING.RING_STATUS, 0x90000000), (b (1 : Ring) + RING.RING_CFG, 4), (b (1 : Ring) + RING.SQ_TAIL, 5), (b (1 : Ring) + RING.IRQ_CFG, 0x80000105)] ++ [])
    let r : Ring := (1 : Ring)
    let d : DmaDescriptor := (s.d.ring (1 : Ring)).fetched.headD dma1
    let rest : List DmaDescriptor := (s.d.ring (1 : Ring)).fetched.tail
    let g := s.d.ring r;
    s.d.ringRuns r = true ∧ s.d.sqMore r = true ∧ g.fetched = d :: rest ∧ (r.val = 1 ∨ r.val = 5 ∨ r.val = 6) ∧ s.d.ringHead 1 = some d ∧ g.records = 0 ∧ s.d.unconsumed r = 0)
  ∧ (
    let s : State := rg (0 : Ring) id ([(b (0 : Ring) + RING.RING_CTRL, 1), (b (0 : Ring) + RING.RING_STATUS, 0x90000000), (b (0 : Ring) + RING.RING_CFG, 4), (b (0 : Ring) + RING.SQ_TAIL, 5), (b (0 : Ring) + RING.IRQ_CFG, 0x80000105)] ++ [(b (0 : Ring) + RING.CQ_TAIL, 3)])
    let r : Ring := (0 : Ring)
    let x : DmaDescriptor := dma1
    let b := Pg.RING r
    let g := s.d.ring r
    let ready := s.d.ringRuns r = true ∧ s.d.hif.busMaster = true ∧ s.d.sqMore r = true
    let clear := g.fetched = [] ∧ g.work = none ∧ g.held = [];
    ready ∧ clear ∧ r.val ≠ 4 ∧ Dev.descBroken r x = false ∧ Dev.descEmpty r x = false ∧ s.d.bit (b + RING.IRQ_CFG) 31 = true ∧ s.d.fld (b + RING.IRQ_CFG) 0 8 ≠ 0 ∧ g.waiting = false ∧ s.d.unconsumed r ≠ 0)
  ∧ (
    let s : State := rg (5 : Ring) (fun g => {g with fetched := [dma1]}) ([(b (5 : Ring) + RING.RING_CTRL, 1), (b (5 : Ring) + RING.RING_STATUS, 0x90000000), (b (5 : Ring) + RING.RING_CFG, 4), (b (5 : Ring) + RING.SQ_TAIL, 5), (b (5 : Ring) + RING.IRQ_CFG, 0x80000105)] ++ [(b (5 : Ring) + RING.SQ_TAIL, 0)])
    let r : Ring := (5 : Ring)
    let d : DmaDescriptor := (s.d.ring (5 : Ring)).fetched.headD dma1;
    (s.d.ringRuns r = false ∨ s.d.sqMore r = false) ∧ s.d.ringHead 5 = some d)
  ∧ (
    let s : State := rg (1 : Ring) id ([(b (1 : Ring) + RING.RING_CTRL, 1), (b (1 : Ring) + RING.RING_STATUS, 0x90000000), (b (1 : Ring) + RING.RING_CFG, 4), (b (1 : Ring) + RING.SQ_TAIL, 5), (b (1 : Ring) + RING.IRQ_CFG, 0x80000105)] ++ [])
    let r : Ring := (1 : Ring)
    let x : DmaDescriptor := {dma1 with count := 0}
    let g := s.d.ring r
    let ready := s.d.ringRuns r = true ∧ s.d.hif.busMaster = true ∧ s.d.sqMore r = true
    let clear := g.fetched = [] ∧ g.work = none ∧ g.held = [];
    ready ∧ clear ∧ r.val ≠ 4 ∧ Dev.descBroken r x = false ∧ Dev.descEmpty r x = true)
  ∧ (
    let s : State := rg (0 : Ring) id ([(b (0 : Ring) + RING.RING_CTRL, 1), (b (0 : Ring) + RING.RING_STATUS, 0x90000000), (b (0 : Ring) + RING.RING_CFG, 4), (b (0 : Ring) + RING.SQ_TAIL, 5), (b (0 : Ring) + RING.IRQ_CFG, 0x80000105)] ++ [])
    let r : Ring := (0 : Ring)
    let x : DmaDescriptor := {dma1 with count := 300}
    let g := s.d.ring r
    let ready := s.d.ringRuns r = true ∧ s.d.hif.busMaster = true ∧ s.d.sqMore r = true
    let clear := g.fetched = [] ∧ g.work = none ∧ g.held = [];
    ready ∧ clear ∧ r.val ≠ 4 ∧ Dev.descBroken r x = true)
  ∧ (
    let s : State := rg (4 : Ring) id ([(b (4 : Ring) + RING.RING_CTRL, 1), (b (4 : Ring) + RING.RING_STATUS, 0x90000000), (b (4 : Ring) + RING.RING_CFG, 4), (b (4 : Ring) + RING.SQ_TAIL, 5), (b (4 : Ring) + RING.IRQ_CFG, 0x80000105)] ++ [])
    let r : Ring := (4 : Ring)
    let x : DmaDescriptor := {dma1 with flags := 1, count := 0}
    let g := s.d.ring r
    let ready := s.d.ringRuns r = true ∧ s.d.hif.busMaster = true ∧ s.d.sqMore r = true;
    ready ∧ r.val = 4 ∧ Dev.descBroken 4 x = false ∧ Dev.descEmpty 4 x = false ∧ x.flags.getLsbD 0 = true ∧ Sparse.get (fun _ => none) g.slots x.txLane = none)
  ∧ (
    let s : State := rg (0 : Ring) (fun g => {g with fetched := [dma1], records := 2, fill := 5}) ([(b (0 : Ring) + RING.RING_CTRL, 1), (b (0 : Ring) + RING.RING_STATUS, 0x90000000), (b (0 : Ring) + RING.RING_CFG, 4), (b (0 : Ring) + RING.SQ_TAIL, 5), (b (0 : Ring) + RING.IRQ_CFG, 0x80000105)] ++ [])
    let r : Ring := (0 : Ring)
    let d : DmaDescriptor := (s.d.ring (0 : Ring)).fetched.headD dma1
    let g := s.d.ring r;
    (r.val = 0 ∨ r.val = 3 ∨ r.val = 7) ∧ g.records ≠ 0 ∧ g.fetched = [d]) :=
  by refine ⟨?_, ?_, ?_, ?_, ?_, ?_, ?_⟩ <;> decide +kernel

/-- States and operands that meet the hypotheses of the clauses of `Obligations.Harvest`. -/
theorem witness_Harvest :
  (
    let s : State := onD (fun t => {t with hif := (fun h => {h with hvRun := none, hvNum := 5}) t.hif}) (up ([(Pg.DMA + DMA.HV_PERIOD, 5)] ++ []))
    let m : Master := .host
    let b := Pg.DMA
    let cmd := b + DMA.HV_CMD
    let may := s.d.hif.hvRun = none ∧ s.d.isl.mcDown = false ∧ s.d.ringIsFull 2 = false
    let periodic := s.d.assisted b = false ∧ s.d.fld (b + DMA.HV_PERIOD) 0 14 ≠ 0;
    ¬ may ∧ periodic ∧ Admits s m cmd ∧ s.d.hif.hvRun = none)
  ∧ (
    let s : State := onD (fun t => {t with hif := (fun h => {h with hvRun := (some 1), hvNum := 5}) t.hif}) (up ([(Pg.DMA + DMA.HV_PERIOD, 5)] ++ [(Pg.DMA + DMA.HV_PERIOD, 0)]))
    let cause : Nat := 1
    let b := Pg.DMA
    let periodic := s.d.assisted b = false ∧ s.d.fld (b + DMA.HV_PERIOD) 0 14 ≠ 0;
    ¬ periodic ∧ s.d.hif.hvRun = some cause ∧ s.d.isl.mcDown = false ∧ s.d.ringRuns 2 = false)
  ∧ (
    let s : State := onD (fun t => t.setRing 2 {RingSt.init with fetched := [dma1]}) (onD (fun t => {t with hif := (fun h => {h with hvRun := none, hvNum := 5}) t.hif}) (up ([(Pg.DMA + DMA.HV_PERIOD, 5)] ++ [(b 2 + RING.RING_CTRL, 1), (b 2 + RING.RING_CFG, 4)])))
    let m : Master := .host
    let b := Pg.DMA
    let cmd := b + DMA.HV_CMD
    let may := s.d.hif.hvRun = none ∧ s.d.isl.mcDown = false ∧ s.d.ringIsFull 2 = false
    let periodic := s.d.assisted b = false ∧ s.d.fld (b + DMA.HV_PERIOD) 0 14 ≠ 0;
    may ∧ periodic ∧ Admits s m cmd)
  ∧ (
    let s : State := onD (fun t => t.setRing 2 {RingSt.init with fetched := [dma1]}) (onD (fun t => {t with hif := (fun h => {h with hvRun := (some 1), hvNum := 5}) t.hif}) (up ([(Pg.DMA + DMA.HV_PERIOD, 5)] ++ [(b 2 + RING.RING_CTRL, 1), (b 2 + RING.RING_CFG, 4)])))
    let cause : Nat := 1
    let d : DmaDescriptor := dma1
    let rest : List DmaDescriptor := [];
    s.d.hif.hvRun = some cause ∧ s.d.isl.mcDown = false ∧ s.d.ringRuns 2 = true ∧ s.d.hif.busMaster = true ∧ s.d.cqFree 2 = true ∧ (s.d.ring 2).fetched = d :: rest) :=
  by refine ⟨?_, ?_, ?_, ?_⟩ <;> decide +kernel

set_option synthInstance.maxHeartbeats 400000 in
set_option synthInstance.maxSize 4096 in
/-- States and operands that meet the hypotheses of the clauses of `Obligations.Mailboxes`. -/
theorem witness_Mailboxes :
  (
    let s : State := mbs [(0, [{msg0 with epoch := 0}]), (1, [{msg0 with epoch := 5}])] id [] 1 (1)
    let m : Master := Master.bmc
    let e : Nat := 1
    let d : Nat := (Dev.endpointOf 1).getD 9
    let dest : Nat := 1
    let x : Msg := (s.d.inbox (1)).headD msg0
    let rest : List Msg := (s.d.inbox (1)).tail
    let page : Fin 4 := 0
    let p : Master := .host
    let q : Master := .bmc
    let i := (Dev.endpoint p).getD 99
    let flush := Pg.MBX page + MBX.INBOX_FLUSH
    let mb := Pg.MBX 0
    let hdr := mb + MBX.RX_HDR
    let send := mb + MBX.MBX_SEND;
    (m = .host ∧ e = 0 ∨ m = .bmc ∧ e = 1) ∧ s.d.vigilState = 0 ∧ s.d.readErr m send = none ∧ (Sparse.get (fun _ => 0) s.d.mbx.txDest e).toNat % 256 = dest ∧ Dev.endpointOf dest = some d ∧ d ≠ e ∧ (s.d.inbox d).length < Dev.inboxSize d ∧ s.d.readErr m hdr = none ∧ s.d.inbox e = x :: rest ∧ x.epoch ≠ s.d.epoch e ∧ Admits s m (mb + MBX.RX_POP) ∧ Admits s m flush ∧ s.d.holder (flush / 0x1000) = 0 ∧ Admits s m (mb + MBX.ROLE_BUMP)
      ∧ (let k : Fin 32 := 26;
       (m = .host ∧ e = 0 ∨ m = .bmc ∧ e = 1) ∧ s.d.vigilState = 0 ∧ k.val < 27 ∧ k.val ≠ e ∧ Admits s m (mb + MBX.DB_TX + 4 * k) ∧ 3 ≤ k.val)
      ∧ (let k : Fin 32 := Fin.ofNat 32 e;
       (m = .host ∧ e = 0 ∨ m = .bmc ∧ e = 1) ∧ s.d.vigilState = 0 ∧ k.val = e ∧ Admits s m (mb + MBX.DB_TX + 4 * k))
      ∧ (let k : Fin 27 := 26;
       (m = .host ∧ e = 0 ∨ m = .bmc ∧ e = 1) ∧ s.d.vigilState = 0 ∧ s.d.readErr m (mb + MBX.DB_RX_VAL + 4 * k) = none)
      ∧ (let k := (Dev.endpoint q).getD 99;
       (m = .host ∧ e = 0 ∨ m = .bmc ∧ e = 1) ∧ s.d.vigilState = 0 ∧ Dev.endpoint p = some i ∧ Dev.endpoint q = some k ∧ s.d.stalled i k = false))
  ∧ (
    let s : State := mbs [] id [] 2 (1)
    let m : Master := Master.bmc
    let e : Nat := 1
    let dest : Nat := 2
    let mb := Pg.MBX 0
    let hdr := mb + MBX.RX_HDR
    let send := mb + MBX.MBX_SEND;
    (m = .host ∧ e = 0 ∨ m = .bmc ∧ e = 1) ∧ s.d.vigilState = 0 ∧ s.d.readErr m send = none ∧ (Sparse.get (fun _ => 0) s.d.mbx.txDest e).toNat % 256 = dest ∧ (Dev.endpointOf dest = none ∨ Dev.endpointOf dest = some e) ∧ s.d.readErr m hdr = none ∧ s.d.inbox e = [])
  ∧ (
    let s : State := withLock Master.bmc (mb0 / 4096) (mbs [(0, [msg0]), (1, [msg0, msg0]), (2, List.replicate 8 msg0)] id [] 3 (1))
    let m : Master := Master.bmc
    let e : Nat := 1
    let d : Nat := (Dev.endpointOf 3).getD 9
    let dest : Nat := 3
    let page : Fin 4 := 0
    let j : Fin 16 := 2
    let flush := Pg.MBX page + MBX.INBOX_FLUSH
    let mb := Pg.MBX 0
    let send := mb + MBX.MBX_SEND;
    (m = .host ∧ e = 0 ∨ m = .bmc ∧ e = 1) ∧ s.d.vigilState = 0 ∧ s.d.readErr m send = none ∧ (Sparse.get (fun _ => 0) s.d.mbx.txDest e).toNat % 256 = dest ∧ Dev.endpointOf dest = some d ∧ d ≠ e ∧ d ≠ 0 ∧ Dev.inboxSize d ≤ (s.d.inbox d).length ∧ AdmitsHeld s m flush ∧ Dev.mbxEndpoint page j = some d)
  ∧ (
    let s : State := circ
    let m : Master := .host
    let e : Nat := 0
    let p : Master := .host
    let q : Master := .bmc
    let i := (Dev.endpoint p).getD 99
    let k := (Dev.endpoint q).getD 99;
    (m = .host ∧ e = 0 ∨ m = .bmc ∧ e = 1) ∧ s.d.vigilState = 0 ∧ Dev.endpoint p = some i ∧ Dev.endpoint q = some k ∧ s.d.stalled i k = true) :=
  by refine ⟨?_, ?_, ?_, ?_⟩ <;> decide +kernel

end Sys2Proof.Tests.C16

/-! ### Chapter 17 -/

namespace Sys2Proof.Tests.C17

open Sys2Proof Sys2Proof.Machine Sys2Proof.Tests

set_option Elab.async false

def mon (f : Monitors → Monitors) (l : List (Nat × Nat)) : State := onD (fun t => {t with mon := f t.mon}) (up l)
def T0 := Pg.THERM
def lim (l : List (Nat × Nat)) := [(T0 + THERM.LIMIT_ABS, 95 + 105 * 256)] ++ l
def zset (f : ZoneSt → ZoneSt) : Monitors → Monitors := fun m => {m with zones := (List.range 12).map (fun z => (z, f (Sparse.get (fun _ => ⟨[], 0,0,false,false,false,false,0,0⟩) m.zones z)))}
def mk (x : ZoneSample) (z : Nat) : List ZoneSample := (List.range 12).map (fun i => if i = z then x else ⟨50*1024, false⟩)
def clk (c : Nat) (s : State) := onD (fun t => {t with mon := {t.mon with clock := c, throttled := 100, fastAt := 100}, mono := 123456}) s
def S0 := Pg.SUPPLY
def V0 := Pg.VIGIL
def X (n : Nat) (l : List (Nat × Nat)) : State := up ([(Pg.SLICE (n/4) + SLICE.SLICE_CFG, 0xF1), (Pg.SLICE (n/4) + SLICE.LP_MAP, 0xE4), (Pg.SLICE 0 + SLICE.HOST_CFG, 0x2), (Pg.CLKRST + CLKRST.PLL_STATUS, 0x3FFFF)] ++ l)
def ltf (f : Lantern → Lantern) (s : State) := onD (fun t => t.setLtn 3 (f (t.ltn 3))) s
def mkF (key : List Byte) (role slot : Bool) (type ctr : Nat) (p : List Byte) : List Byte :=
  let head := [BitVec.ofNat 8 (0x10 + (if slot then 8 else 0) + (if role then 4 else 0)), BitVec.ofNat 8 type, BitVec.ofNat 8 p.length] ++ bytesBE 5 ctr ++ p
  let body := head ++ (hmacSha256 key head).take 16
  body ++ bytesLE 4 (crc32c body)
def key : List Byte := (List.range 32).map (BitVec.ofNat 8)
def Y (l : List (Nat × Nat)) (fl : Nat) (f : List Byte) (a : Bool) : State := onD (fun t => (t.setKeySlot 3 false ⟨key, true, false, 9, fl⟩)) (ltf (fun x => {x with checks := [⟨f, a, none⟩, ⟨[1], true, none⟩]}) (X 3 ([(Pg.LANTERN 3 + LANTERN.RATE_LIM, 0x0FFF)] ++ l)))
def pl (n : Nat) : List Byte := (List.range n).map (BitVec.ofNat 8)
def fr (type : Nat) (p : List Byte) := mkF key true false type 100 p

/-- States and operands that meet the hypotheses of the clauses of `Obligations.ThermalZonesAndPauses` (ThermalZones). -/
theorem witness_ThermalZonesAndPauses_ThermalZones :
  (
    let s : State := (withLock .host (T0/4096)) (mon id (lim []))
    let m : Master := .host
    let l : List ZoneSample := mk ⟨120*1024, false⟩ (0 : Zone)
    let z : Zone := (0 : Zone)
    let x : ZoneSample := ⟨120*1024, false⟩
    let zones : BitVec 12 := 0x801
    let b := Pg.THERM
    let cmd := b + THERM.THERM_CMD;
    l.length = 12 ∧ l[z.val]? = some x ∧ s.d.bit (b + THERM.BROKEN) z = false ∧ s.d.isl.held = false ∧ 115 * 1024 ≤ x.value ∧ (s.d.fastHolds = true ∨ s.d.mon.clock < s.d.mon.fastAt + 1000000000) ∧ (s.d.bit (b + THERM.BROKEN) z = true ∨ ((s.d.zone z).bad < 4 ∧ (s.d.zone z).grad < 64)) ∧ AdmitsHeld s m cmd ∧ zones.getLsbD z = true)
  ∧ (
    let s : State := clk 2000000000 (mon id (lim []))
    let m : Master := .host
    let b := Pg.THERM
    let cmd := b + THERM.THERM_CMD;
    s.d.fastHolds = false ∧ s.d.mon.fastAt + 1000000000 ≤ s.d.mon.clock ∧ Admits s m cmd ∧ s.d.holder (cmd / 0x1000) = 0)
  ∧ (
    let s : State := (withLock .host (T0/4096)) (onD (fun t => {t with isl := {t.isl with held := true}}) (mon (zset (fun q => {q with bad := 4, warnA := true, thrA := true})) (lim [])))
    let m : Master := .host
    let z : Zone := (0 : Zone)
    let zones : BitVec 12 := 0
    let b := Pg.THERM
    let cmd := b + THERM.THERM_CMD;
    s.d.bit (b + THERM.BROKEN) z = false ∧ (4 ≤ (s.d.zone z).bad ∨ 64 ≤ (s.d.zone z).grad) ∧ AdmitsHeld s m cmd ∧ zones.getLsbD z = false) :=
  by refine ⟨?_, ?_, ?_⟩ <;> decide +kernel

/-- States and operands that meet the hypotheses of the clauses of `Obligations.ThermalZonesAndPauses` (ThermalPauses). -/
theorem witness_ThermalZonesAndPauses_ThermalPauses :
  (
    let s : State := clk (1000) <| mon id [(T0 + HDR.PAGE_CTRL, 0), (T0 + THERM.THERM_CFG, 0), (T0 + THERM.THERM_STATUS, 0x100)]
    let m : Master := .host
    let v : Word := 5
    let b := Pg.THERM
    let a := b + THERM.PAUSE_SET
    let n := s.d.fld (b + THERM.THERM_STATUS) 8 4
    let due := s.d.mon.throttled + 10000000 * s.d.fld (b + THERM.THERM_CFG) 24 8 ≤ s.d.mon.clock
    let top := s.d.fld (b + THERM.THERM_CFG) 16 4;
    (s.d.assisted b = true ∨ s.d.anyThr = false ∨ top ≤ n) ∧ s.d.assisted b = false ∧ s.d.anyThr = false ∧ n ≠ 0 ∧ due ∧ n = 1 ∧ Admits s m a ∧ fieldOf v 0 4 ≤ 8)
  ∧ (
    let s : State := clk (5000000000) <| mon (zset (fun q => {q with thrA := true})) [(T0 + HDR.PAGE_CTRL, 0), (T0 + THERM.THERM_CFG, (4*65536)), (T0 + THERM.THERM_STATUS, 0)]
    let m : Master := .host
    let v : Word := 9
    let b := Pg.THERM
    let a := b + THERM.PAUSE_SET
    let n := s.d.fld (b + THERM.THERM_STATUS) 8 4
    let due := s.d.mon.throttled + 10000000 * s.d.fld (b + THERM.THERM_CFG) 24 8 ≤ s.d.mon.clock
    let top := s.d.fld (b + THERM.THERM_CFG) 16 4;
    s.d.assisted b = false ∧ s.d.anyThr = true ∧ n < top ∧ (s.d.assisted b = true ∨ s.d.anyThr = true ∨ n = 0 ∨ ¬ due) ∧ Admits s m a ∧ 8 < fieldOf v 0 4) :=
  by refine ⟨?_, ?_⟩ <;> decide +kernel

/-- States and operands that meet the hypotheses of the clauses of `Obligations.Supplies`. -/
theorem witness_Supplies :
  (
    let s : State := mon (fun m => {m with railsDown := []}) [(S0 + SUPPLY.SUP_STATUS, 0x80000000), (S0 + SUPPLY.SWEEP_STATUS, 0), (S0 + SUPPLY.RAIL_V + 4 * (0 : Rail), 0 * 65536)]
    let k : Rail := (0 : Rail)
    let down := s.d.mon.railsDown.filter (· != k.val) ++ [k.val]
    let b := Pg.SUPPLY
    let st := b + SUPPLY.SUP_STATUS;
    s.d.test.cur = none ∧ s.d.bit st k = false ∧ s.d.supplyHold = true ∧ s.d.cal.held = [] ∧ s.d.bit (b + SUPPLY.SWEEP_STATUS) 31 = false ∧ down.length ≠ 8)
  ∧ (
    let s : State := mon (fun m => {m with railsDown := []}) [(S0 + SUPPLY.SUP_STATUS, (2 ^ (0 : Rail).val)), (S0 + SUPPLY.SWEEP_STATUS, 0x80000000), (S0 + SUPPLY.RAIL_V + 4 * (0 : Rail), 0 * 65536)]
    let k : Rail := (0 : Rail)
    let b := Pg.SUPPLY
    let st := b + SUPPLY.SUP_STATUS;
    s.d.bit st k = true ∧ k.val ∉ s.d.mon.railsDown ∧ s.d.supplyHold = false ∧ s.d.bit (b + SUPPLY.SWEEP_STATUS) 31 = true)
  ∧ (
    let s : State := mon (fun m => {m with railsDown := [(0 : Rail).val]}) [(S0 + SUPPLY.SUP_STATUS, (2 ^ (0 : Rail).val)), (S0 + SUPPLY.SWEEP_STATUS, 0), (S0 + SUPPLY.RAIL_V + 4 * (0 : Rail), 0 * 65536)]
    let k : Rail := (0 : Rail)
    let b := Pg.SUPPLY
    let st := b + SUPPLY.SUP_STATUS;
    s.d.bit st k = true ∧ k.val ∈ s.d.mon.railsDown) :=
  by refine ⟨?_, ?_, ?_⟩ <;> decide +kernel

/-- States and operands that meet the hypotheses of the clauses of `Obligations.Vigil`. -/
theorem witness_Vigil :
  (
    let s : State := clk 5 <| id (onD (fun t => {t with flow := {t.flow with refreshDue := true}}) (mon (fun m => {m with wakePending := true, deep := true}) [(V0 + VIGIL.VIGIL_STATUS, 1), (V0 + VIGIL.VIGIL_CFG, 0), (Pg.BOOT + BOOT.BOOT_STATUS, 5), (V0 + VIGIL.VIGIL_TIMER, 0), (Pg.LANTERN 3 + LANTERN.LT_CTRL, 4+0)]))
    let m : Master := .host
    let b := Pg.VIGIL
    let cfg := b + VIGIL.VIGIL_CFG
    let cmd := b + VIGIL.VIGIL_CMD;
    Admits s m cmd ∧ s.d.holder (cmd / 0x1000) = 0 ∧ s.d.vigilState = 1 ∧ s.d.mon.wakePending = true ∧ s.d.bit cfg 4 = false ∧ (s.d.bit cfg 8 = false ∨ s.d.vigilState = 0) ∧ s.d.flow.refreshDue = true ∧ s.d.vigilTraffic = false)
  ∧ (
    let s : State := withLock .host (V0/4096) (Y [(Pg.SLICE 0 + SLICE.SLICE_CFG, 0xF2), (Pg.LANTERN 3 + LANTERN.LT_STATUS, 1 * 1024), (V0 + VIGIL.VIGIL_STATUS, 2), (V0 + VIGIL.VIGIL_CFG, 0x511), (V0 + VIGIL.VIGIL_CFG, 0x511), (Pg.BOOT + BOOT.BOOT_STATUS, 7), (Pg.LANTERN 3 + LANTERN.LT_CTRL, 4)] 5 (fr 6 (pl 1)) false)
    let m : Master := .host
    let n : Lane := 3
    let f : List Byte := fr 6 (pl 1)
    let assist : Bool := false
    let rest : List RxFrame := [⟨[1], true, none⟩]
    let b := Pg.VIGIL
    let cfg := b + VIGIL.VIGIL_CFG
    let lt := Pg.LANTERN n
    let cmd := b + VIGIL.VIGIL_CMD
    let low := s.d.vigilState = 2 ∨ s.d.vigilState = 3
    let slot := s.d.keySlot n (Dev.hdrKey f)
    let may := s.d.bootStage = 7 ∧ s.d.vigilState = 0 ∧ s.d.vigilBars = false;
    AdmitsHeld s m cmd ∧ ¬ may ∧ s.d.vigilState ≠ 1 ∧ Admits s m cmd ∧ low ∧ s.d.bit cfg 4 = true ∧ s.d.bit cfg 8 = true ∧ (s.d.ltn n).checks = ⟨f, assist, none⟩ :: rest ∧ Dev.crcOk f = true ∧ s.d.authOk n slot f = true ∧ Dev.replayOk slot f = true ∧ Dev.hdrType f = 6 ∧ s.d.bit (lt + LANTERN.LT_STATUS) 10 = true ∧ s.d.bit cfg 10 = true ∧ s.d.flow.refreshDue = false)
  ∧ (
    let s : State := withLock .host (V0/4096) (Y [(Pg.SLICE 0 + SLICE.SLICE_CFG, 0xF2), (Pg.LANTERN 3 + LANTERN.LT_STATUS, 0 * 1024), (V0 + VIGIL.VIGIL_STATUS, 0), (V0 + VIGIL.VIGIL_CFG, 0x511), (V0 + VIGIL.VIGIL_CFG, 0x511), (Pg.BOOT + BOOT.BOOT_STATUS, 7), (Pg.LANTERN 3 + LANTERN.LT_CTRL, 4)] 5 (fr 6 (pl 1)) false)
    let m : Master := .host
    let n : Lane := 3
    let f : List Byte := fr 6 (pl 1)
    let assist : Bool := false
    let rest : List RxFrame := [⟨[1], true, none⟩]
    let lt := Pg.LANTERN n
    let slot := s.d.keySlot n (Dev.hdrKey f)
    let b := Pg.VIGIL
    let cmd := b + VIGIL.VIGIL_CMD
    let may := s.d.bootStage = 7 ∧ s.d.vigilState = 0 ∧ s.d.vigilBars = false;
    AdmitsHeld s m cmd ∧ may ∧ s.d.wakeLane n = true ∧ Admits s m cmd ∧ (s.d.vigilState = 0 ∨ s.d.vigilState = 4) ∧ (s.d.ltn n).checks = ⟨f, assist, none⟩ :: rest ∧ Dev.crcOk f = true ∧ s.d.authOk n slot f = true ∧ Dev.replayOk slot f = true ∧ Dev.hdrType f = 6 ∧ s.d.bit (lt + LANTERN.LT_STATUS) 10 = false ∧ s.d.rateOk n = true ∧ assist = false)
  ∧ (
    let s : State := clk 5 <| id (onD (fun t => {t with flow := {t.flow with refreshDue := true}}) (mon (fun m => {m with wakePending := true, deep := true}) [(V0 + VIGIL.VIGIL_STATUS, 4), (V0 + VIGIL.VIGIL_CFG, 0x511), (Pg.BOOT + BOOT.BOOT_STATUS, 7), (V0 + VIGIL.VIGIL_TIMER, 5)]));
    s.d.vigilTraffic = true) :=
  by refine ⟨?_, ?_, ?_, ?_⟩ <;> decide +kernel

end Sys2Proof.Tests.C17

/-! ### Chapter 18 -/

namespace Sys2Proof.Tests.C18

open Sys2Proof Sys2Proof.Machine Sys2Proof.Tests

set_option Elab.async false

def B0 := Pg.BIST
def tst (f : SelfTest → SelfTest) (l : List (Nat × Nat)) : State := onD (fun t => {t with test := f t.test}) (up l)
def r0 : FaultRec := ⟨13, 62, none, false, 0, 5, 5, 0, 7, 1, 0⟩

/-- States and operands that meet the hypotheses of the clauses of `Obligations.SelfTests`. -/
theorem witness_SelfTests :
  (
    let s : State := up [(Pg.BOOT + BOOT.DEBUG_STATE, 2)]
    let m : Master := Master.host
    let v : Word := 0
    let code := s.d.testCode
    let b := Pg.BIST
    let scan := b + BIST.SCAN_CTRL
    let i := fieldOf v 0 6
    let c := ((Dev.rotFind (2 * s.d.fld (b + BIST.ROT_CFG) 1 8) (s.d.fld (b + BIST.ROT_NEXT) 24 4, s.d.fld (b + BIST.ROT_NEXT) 16 5)).getD (0, 0)).1
    let t := ((Dev.rotFind (2 * s.d.fld (b + BIST.ROT_CFG) 1 8) (s.d.fld (b + BIST.ROT_NEXT) 24 4, s.d.fld (b + BIST.ROT_NEXT) 16 5)).getD (0, 0)).2
    let a := b + BIST.BIST_CMD
    let sel := s.d.fld (b + BIST.BIST_SEL) 24 4
    let mask := s.d.fld (b + BIST.BIST_SEL) 0 24
    let valid := 1 ≤ sel ∧ sel ≤ 8 ∧ mask < 2 ^ Dev.testTargets sel;
    Admits s m a ∧ s.d.testRuns = false ∧ ¬ valid ∧ (s.d.test.cur ≠ none ∨ s.d.test.left = []) ∧ s.d.test.cur = none ∧ (s.d.test.cur = none ∨ code ≠ 4) ∧ s.d.assisted b = false ∧ s.d.fld (b + BIST.ROT_CFG) 16 16 ≠ 0 ∧ s.d.vigilState = 0 ∧ s.d.isl.mcDown = false ∧ Dev.rotFind (2 * s.d.fld (b + BIST.ROT_CFG) 1 8) (s.d.fld (b + BIST.ROT_NEXT) 24 4, s.d.fld (b + BIST.ROT_NEXT) 16 5) = some (c, t) ∧ c < 16 ∧ Admits s .jtag scan ∧ s.d.debugLevel = 2 ∧ i < 60 ∧ v.getLsbD 31 = false ∧ (m ≠ .jtag ∨ s.d.debugLevel ≠ 2) ∧ Admits s m scan)
  ∧ (
    let s : State := tst (fun x => {x with cur := (some 0), left := []}) [(B0 + BIST.BIST_STATUS, 0x84000000), (Pg.SUPPLY + SUPPLY.SUP_STATUS, 0), (Pg.CLKRST + CLKRST.PLL_STATUS, 0x3FFFF), (Pg.BOOT + BOOT.DEBUG_STATE, 2)]
    let m : Master := .jtag
    let v : Word := 0x80000003
    let tgt : Nat := 0
    let rest : List Nat := []
    let patterns : Word := 5
    let total : Word := 5
    let sig : Word := 7
    let expd : Word := 7
    let equal : Bool := true
    let code := s.d.testCode
    let stops := s.d.testStops code tgt
    let b := Pg.BIST
    let scan := b + BIST.SCAN_CTRL
    let i := fieldOf v 0 6
    let a := b + BIST.BIST_CMD;
    Admits s m a ∧ s.d.testRuns = true ∧ s.d.test.cur ≠ none ∧ s.d.test.cur = some tgt ∧ s.d.test.left = rest ∧ s.d.test.failed = false ∧ tgt < Dev.testTargets code ∧ 1 ≤ code ∧ code ≤ 8 ∧ s.d.test.rotation = false ∧ patterns = total ∧ (if Dev.testMemory code then equal else sig == expd) = true ∧ stops = 0 ∧ code = 4 ∧ s.d.test.segment = none ∧ (∀ x ∈ s.d.flow.cache, s.d.pinned x.flow = false) ∧ (s.d.fld (b + BIST.ROT_CFG) 16 16 = 0 ∨ s.d.testRuns = true ∨ s.d.isl.mcDown = true) ∧ Admits s .jtag scan ∧ s.d.debugLevel = 2 ∧ i < 60 ∧ v.getLsbD 31 = true)
  ∧ (
    let s : State := tst (fun x => {x with cur := some 0}) [(B0 + BIST.BIST_STATUS, 0x84000000)]
    let tgt : Nat := 0
    let rest : List Nat := []
    let patterns : Word := 0
    let total : Word := 0
    let sig : Word := 0
    let expd : Word := 0
    let equal : Bool := false
    let code := s.d.testCode
    let stops := s.d.testStops code tgt;
    s.d.test.cur = some tgt ∧ s.d.test.left = rest ∧ s.d.test.failed = false ∧ tgt < Dev.testTargets code ∧ 1 ≤ code ∧ code ≤ 8 ∧ s.d.test.rotation = false ∧ patterns = total ∧ (if Dev.testMemory code then equal else sig == expd) = false ∧ stops ≠ 0)
  ∧ (
    let s : State := tst (fun x => {x with cur := none, left := [0]}) [(B0 + BIST.BIST_SEL, 0), (B0 + BIST.BIST_STATUS, 0x81000000), (B0 + BIST.ROT_CFG, 0x50FFF * (0 % 2) + 0x50FFE), (Pg.CLKRST + CLKRST.PLL_STATUS, 0x3FFFF)]
    let m : Master := .host
    let tgt : Nat := [0].headD 0
    let rest : List Nat := [0].tail
    let code := s.d.testCode
    let why := s.d.testCause code tgt false
    let b := Pg.BIST
    let a := b + BIST.BIST_CMD;
    Admits s m a ∧ s.d.testRuns = true ∧ s.d.test.cur = none ∧ s.d.test.left = tgt :: rest ∧ s.d.test.rotation = false ∧ tgt < Dev.testTargets code ∧ 1 ≤ code ∧ code ≤ 8 ∧ why = 0)
  ∧ (
    let s : State := up [(Pg.BOOT + BOOT.DEBUG_STATE, 2)]
    let v : Word := 60
    let b := Pg.BIST
    let scan := b + BIST.SCAN_CTRL
    let i := fieldOf v 0 6;
    Admits s .jtag scan ∧ s.d.debugLevel = 2 ∧ 60 ≤ i)
  ∧ (
    let s : State := onD (fun d => {d with mono := 1234567}) (tst (fun x => {x with cur := some 0, left := [], lost := 0, started := 4567}) [(B0 + BIST.BIST_STATUS, 0x81000000), (Pg.CLKRST + CLKRST.PLL_STATUS, 0x3FFFF)])
    let tgt : Nat := 0
    let rest : List Nat := []
    let patterns : Word := 3
    let total : Word := 5
    let code := s.d.testCode;
    s.d.test.cur = some tgt ∧ s.d.test.left = rest ∧ s.d.test.failed = false ∧ tgt < Dev.testTargets code ∧ 1 ≤ code ∧ code ≤ 8 ∧ s.d.test.rotation = false ∧ patterns ≠ total)
  ∧ (
    let s : State := tst (fun x => {x with cur := (some 0), left := []}) [(B0 + BIST.BIST_SEL, 0x01000000), (B0 + BIST.BIST_STATUS, 0), (B0 + BIST.ROT_CFG, 0x50FFF * (0x01000000 % 2) + 0x50FFE), (Pg.CLKRST + CLKRST.PLL_STATUS, 0x3FFFF)]
    let m : Master := .host
    let b := Pg.BIST
    let a := b + BIST.BIST_CMD
    let sel := s.d.fld (b + BIST.BIST_SEL) 24 4
    let mask := s.d.fld (b + BIST.BIST_SEL) 0 24
    let valid := 1 ≤ sel ∧ sel ≤ 8 ∧ mask < 2 ^ Dev.testTargets sel;
    Admits s m a ∧ s.d.testRuns = false ∧ valid ∧ mask = 0)
  ∧ (
    let s : State := tst (fun x => {x with cur := (some 0), left := []}) [(B0 + BIST.BIST_SEL, 0x01000005), (B0 + BIST.BIST_STATUS, 0), (B0 + BIST.ROT_CFG, 0x50FFF * (0x01000005 % 2) + 0x50FFE), (Pg.CLKRST + CLKRST.PLL_STATUS, 0x3FFFF)]
    let m : Master := .host
    let b := Pg.BIST
    let a := b + BIST.BIST_CMD
    let sel := s.d.fld (b + BIST.BIST_SEL) 24 4
    let mask := s.d.fld (b + BIST.BIST_SEL) 0 24
    let valid := 1 ≤ sel ∧ sel ≤ 8 ∧ mask < 2 ^ Dev.testTargets sel;
    Admits s m a ∧ s.d.testRuns = false ∧ valid ∧ mask ≠ 0)
  ∧ (
    let s : State := tst (fun x => {x with cur := none, left := [0]}) [(B0 + BIST.BIST_STATUS, 0x81000000), (Pg.SUPPLY + SUPPLY.SUP_STATUS, 1), (Pg.CLKRST + CLKRST.PLL_STATUS, 0x3FFFF), (Pg.BOOT + BOOT.DEBUG_STATE, 2)]
    let tgt : Nat := [0].headD 0
    let rest : List Nat := [0].tail
    let code := s.d.testCode
    let why := s.d.testCause code tgt false;
    s.d.test.cur = none ∧ s.d.test.left = tgt :: rest ∧ s.d.test.rotation = false ∧ tgt < Dev.testTargets code ∧ 1 ≤ code ∧ code ≤ 8 ∧ why ≠ 0 ∧ s.d.test.failed = false) :=
  by refine ⟨?_, ?_, ?_, ?_, ?_, ?_, ?_, ?_, ?_⟩ <;> decide +kernel

/-- States and operands that meet the hypotheses of the clauses of `Obligations.FaultRecovery`. -/
theorem witness_FaultRecovery :
  (
    let s : State := onD (fun t => {t with isl := {t.isl with mcDown := true, privDown := false}, sec := {t.sec with step := 0, pendFw := none}, log := {t.log with done := []}}) (up [])
    let m : Master := .host
    let b := Pg.DEVICE
    let may := s.d.isl.mcDown = true ∧ 4 ≤ s.d.sec.step ∧ s.d.isl.privDown = false;
    s.d.isl.mcDown = true ∧ ¬ may ∧ s.d.readErr m (b + DEVICE.FAULT_REC) = none ∧ s.d.log.done = [] ∧ Admits s m (b + DEVICE.FAULT_POP))
  ∧ (
    let s : State := onD (fun t => {t with isl := {t.isl with mcDown := true, privDown := false}, sec := {t.sec with step := 4, pendFw := none}, log := {t.log with done := [r0]}}) (up [])
    let m : Master := .host
    let r : FaultRec := [r0].headD r0
    let rest : List FaultRec := [r0].tail
    let b := Pg.DEVICE
    let may := s.d.isl.mcDown = true ∧ 4 ≤ s.d.sec.step ∧ s.d.isl.privDown = false;
    may ∧ s.d.sec.pendFw = none ∧ s.d.readErr m (b + DEVICE.FAULT_REC) = none ∧ s.d.log.done = r :: rest)
  ∧ (
    let s : State := onD (fun t => {t with isl := {t.isl with mcDown := false, privDown := true}, sec := {t.sec with step := 0, pendFw := none}, log := {t.log with done := []}}) (up []);
    s.d.isl.mcDown = false)
  ∧ (
    let s : State := onD (fun t => {t with isl := {t.isl with mcDown := true, privDown := false}, sec := {t.sec with step := 4, pendFw := (some ((5:Word),6,([7]:List Byte)))}, log := {t.log with done := []}}) (up [])
    let v : Word := 5
    let n : Nat := 6
    let l : List Byte := [7]
    let may := s.d.isl.mcDown = true ∧ 4 ≤ s.d.sec.step ∧ s.d.isl.privDown = false;
    may ∧ s.d.sec.pendFw = some (v, n, l)) :=
  by refine ⟨?_, ?_, ?_, ?_⟩ <;> decide +kernel

end Sys2Proof.Tests.C18
end

