-- ==== Sys2Proof/Proofs/Frames.lean ====
section
/-! Frames of the shared operations: the kind of page each of them writes on and the parts of the device it may change.
Frames compose by `Frame.trans`, so a command's frame is read off its meaning. -/

namespace Sys2Proof

open Machine

/-! ### Addresses by the type of their page -/

theorem OnTypes.mono {T U : List PageType} {a : Nat} (h : OnTypes T a) (hs : ∀ t ∈ T, t ∈ U) : OnTypes U a := by
  obtain ⟨r, hr, ht⟩ := h
  exact ⟨r, hr, hs _ ht⟩

/-- The registers of each page of a type lie on a page of that type. -/
theorem OnTypes.page {T : List PageType} {t : PageType} (first count : Nat)
    (hr : ∀ i : Fin count, (pageRow (first + i)).map PageRow.type = some t) {i off : Nat} (hi : i < count)
    (ho : off < 0x1000) (ht : t ∈ T) : OnTypes T ((first + i) * 0x1000 + off) := by
  obtain ⟨r, h, rfl⟩ := Option.map_eq_some_iff.mp (hr ⟨i, hi⟩)
  have e : ((first + i) * 0x1000 + off) / 0x1000 = first + i := by omega
  exact ⟨r, (congrArg pageRow e).trans h, ht⟩

section
variable {T : List PageType} {i off : Nat}

theorem OnTypes.device (ho : off < 0x1000) (ht : .device ∈ T) : OnTypes T (Pg.DEVICE + off) :=
  OnTypes.page 0x000 1 (by decide) (i := 0) (by decide) ho ht
theorem OnTypes.lrx (hi : i < 16) (ho : off < 0x1000) (ht : .lrx ∈ T) : OnTypes T (Pg.LRX i + off) :=
  OnTypes.page 0x010 16 (by decide) hi ho ht
theorem OnTypes.ltx (hi : i < 16) (ho : off < 0x1000) (ht : .ltx ∈ T) : OnTypes T (Pg.LTX i + off) :=
  OnTypes.page 0x020 16 (by decide) hi ho ht
theorem OnTypes.lfec (hi : i < 16) (ho : off < 0x1000) (ht : .lfec ∈ T) : OnTypes T (Pg.LFEC i + off) :=
  OnTypes.page 0x030 16 (by decide) hi ho ht
theorem OnTypes.host (hi : i < 16) (ho : off < 0x1000) (ht : .host ∈ T) : OnTypes T (Pg.HOST i + off) :=
  OnTypes.page 0x040 16 (by decide) hi ho ht
theorem OnTypes.slice (hi : i < 4) (ho : off < 0x1000) (ht : .slice ∈ T) : OnTypes T (Pg.SLICE i + off) :=
  OnTypes.page 0x050 4 (by decide) hi ho ht
theorem OnTypes.buf (ho : off < 0x1000) (ht : .buf ∈ T) : OnTypes T (Pg.BUF + off) :=
  OnTypes.page 0x080 1 (by decide) (i := 0) (by decide) ho ht
theorem OnTypes.drop (ho : off < 0x1000) (ht : .drop ∈ T) : OnTypes T (Pg.DROP + off) :=
  OnTypes.page 0x086 1 (by decide) (i := 0) (by decide) ho ht
theorem OnTypes.lantern (hi : i < 16) (ho : off < 0x1000) (ht : .lantern ∈ T) : OnTypes T (Pg.LANTERN i + off) :=
  OnTypes.page 0x090 16 (by decide) hi ho ht
theorem OnTypes.ana (hi : i < 4) (ho : off < 0x1000) (ht : .ana ∈ T) : OnTypes T (Pg.ANA i + off) :=
  OnTypes.page 0x0A0 4 (by decide) hi ho ht
theorem OnTypes.decim (hi : i < 4) (ho : off < 0x1000) (ht : .decim ∈ T) : OnTypes T (Pg.DECIM i + off) :=
  OnTypes.page 0x0A8 4 (by decide) hi ho ht
theorem OnTypes.resamp (ho : off < 0x1000) (ht : .resamp ∈ T) : OnTypes T (Pg.RESAMP + off) :=
  OnTypes.page 0x0AC 1 (by decide) (i := 0) (by decide) ho ht
theorem OnTypes.mm (hi : i < 16) (ho : off < 0x1000) (ht : .mm ∈ T) : OnTypes T (Pg.MM i + off) :=
  OnTypes.page 0x0D0 16 (by decide) hi ho ht

/-- A sequencer's page is of type LSEQ for a loop sequencer and SEQ for a lane's. -/
theorem OnTypes.seq (hi : i < 24) (ho : off < 0x1000) (ht : .lseq ∈ T) (ht' : .seq ∈ T) : OnTypes T (Pg.LSEQ i + off) := by
  rcases Nat.lt_or_ge i 8 with h | h
  · exact OnTypes.page 0x0B0 8 (by decide) h ho ht
  · obtain ⟨j, rfl⟩ := Nat.exists_eq_add_of_le h
    have e : Pg.LSEQ (8 + j) = (0x0B8 + j) * 0x1000 := by simp only [Pg.LSEQ]; omega
    exact e ▸ OnTypes.page 0x0B8 16 (by decide) (by omega : j < 16) ho ht'

end

/-! ### Lanes of a port -/

theorem Machine.layoutWidth_le (l q : Nat) (h : q < 4) : Dev.layoutWidth l q + q ≤ 4 := by
  unfold Dev.layoutWidth
  split <;> omega

theorem Machine.layoutFirst_le (l q : Nat) : Dev.layoutFirst l q ≤ q := by
  unfold Dev.layoutFirst
  split
  · exact Nat.le_refl q
  · split <;> omega

theorem Machine.Dev.linePort_lt (s : Dev) {n : Nat} (h : n < 16) : s.linePort n < 16 := by
  have := layoutFirst_le (s.lpLayout (n / 4)) (n % 4)
  simp only [Dev.linePort]
  omega

theorem Machine.Dev.lpLanes_lt {s : Dev} {p n : Nat} (hp : p < 16) (h : n ∈ s.lpLanes p) : n < 16 := by
  obtain ⟨i, hi, rfl⟩ := List.mem_map.mp h
  have := layoutWidth_le (s.lpLayout (p / 4)) (p % 4) (by omega)
  have : i < Dev.layoutWidth (s.lpLayout (p / 4)) (p % 4) := List.mem_range.mp hi
  omega

theorem Machine.Dev.lpWidth_le (s : Dev) (p : Nat) : s.lpWidth p ≤ 4 := by
  have := layoutWidth_le (s.lpLayout (p / 4)) (p % 4) (by omega)
  exact Nat.le_trans (Nat.le_add_right _ _) this

namespace Frame

variable {ps : List Part} {A : Nat → Prop} {s t : Dev}

/-! ### One part changed -/

/-- A sequence of updates stands in the frame that each of them stands in, for the members of the list. -/
theorem foldl_mem {β : Type} {f : Dev → β → Dev} {l : List β} (h : ∀ (t : Dev), ∀ b ∈ l, Frame ps A t (f t b)) :
    Frame ps A s (l.foldl f s) := by
  induction l generalizing s with
  | nil => exact refl s
  | cons b l ih => exact (h s b (by simp)).trans (ih fun t c hc => h t c (by simp [hc]))

theorem setLog (v : FaultLog) (h : .log ∈ ps) : Frame ps A s { s with log := v } :=
  ofPart h (fun _ => rfl) fun p hp => by
    cases p with
    | log => exact absurd rfl hp
    | _ => rfl

theorem setFlow (v : Flow) (h : .flow ∈ ps) : Frame ps A s { s with flow := v } :=
  ofPart h (fun _ => rfl) fun p hp => by
    cases p with
    | flow => exact absurd rfl hp
    | _ => rfl

theorem setEg (v : Egress) (h : .eg ∈ ps) : Frame ps A s { s with eg := v } :=
  ofPart h (fun _ => rfl) fun p hp => by
    cases p with
    | eg => exact absurd rfl hp
    | _ => rfl

theorem setCal (v : Calib) (h : .cal ∈ ps) : Frame ps A s { s with cal := v } :=
  ofPart h (fun _ => rfl) fun p hp => by
    cases p with
    | cal => exact absurd rfl hp
    | _ => rfl

theorem setAna (v : Analogue) (h : .ana ∈ ps) : Frame ps A s { s with ana := v } :=
  ofPart h (fun _ => rfl) fun p hp => by
    cases p with
    | ana => exact absurd rfl hp
    | _ => rfl

/-! ### The fault log (R483, R484) -/

theorem completeFault (r : FaultRec) (o : Nat) (b : Bool) (hl : .log ∈ ps) (hA : ∀ a, OnTypes [.device] a → A a) :
    Frame ps A s (s.completeFault r o b) := by
  have hint : A (Pg.DEVICE + HDR.INT_STATUS) := hA _ (.device (by decide) (by simp))
  unfold Dev.completeFault
  extract_lets
  exact ite (((setLog _ hl).trans (raise _ hint)).trans (raise _ hint)) ((setLog _ hl).trans (raise _ hint))

theorem closeFault (c u o : Nat) (b : Bool) (hl : .log ∈ ps) (hA : ∀ a, OnTypes [.device] a → A a) :
    Frame ps A s (s.closeFault c u o b) := by
  unfold Dev.closeFault
  split
  · exact completeFault _ _ _ hl hA
  · exact refl s

theorem openFault {c : Nat} (hc : c < 16) (i : Nat) (p : Option Nat) (b : Bool) (u : Nat) (hl : .log ∈ ps)
    (hA : ∀ a, OnTypes [.device] a → A a) : Frame ps A s (s.openFault c i p b u) := by
  have hA' : A (Dev.faultCnt c) := hA _ (by
    rw [Dev.faultCnt, Nat.add_assoc]
    exact .device (by omega) (by simp))
  have hcnt : Frame ps A s (s.count (Dev.faultCnt c)) := count _ hA'
  unfold Dev.openFault
  extract_lets
  split
  · exact hcnt
  · split
    · exact (hcnt.trans (count _ (hA _ (.device (by decide) (by simp))))).trans (raise _ (hA _ (.device (by decide) (by simp))))
    · exact hcnt.trans (setLog _ hl)

/-- A fault whose record completes at once changes the log and the fault block's page. -/
theorem logFault {c : Nat} (hc : c < 16) (i : Nat) (p : Option Nat) (b : Bool) (u o : Nat) (hl : .log ∈ ps)
    (hA : ∀ a, OnTypes [.device] a → A a) : Frame ps A s (s.logFault c i p b u o) :=
  (openFault hc _ _ _ _ hl hA).trans (closeFault _ _ _ _ hl hA)

/-! ### Events, drops and Lantern frames -/

theorem seqEvent {k : Nat} (hk : k < 24) (e : Nat) (hA : ∀ a, OnTypes [.lseq, .seq] a → A a) :
    Frame ps A s (s.seqEvent k e) :=
  setB _ _ (hA _ (.seq hk (by decide) (by simp) (by simp)))

theorem laneEvent {n : Nat} (hn : n < 16) (e : Nat) (hA : ∀ a, OnTypes [.lseq, .seq] a → A a) :
    Frame ps A s (s.laneEvent n e) := seqEvent (by omega) e hA

theorem loopEvent {sl : Nat} (h : sl < 4) (e : Nat) (hA : ∀ a, OnTypes [.lseq, .seq] a → A a) :
    Frame ps A s (s.loopEvent sl e) := (seqEvent (by omega) e hA).trans (seqEvent (by omega) e hA)

/-- A dropped packet counts on the page of drops, and may raise a cause there or on the buffer's page. -/
theorem drop (p r n : Nat) (hA : ∀ a, OnTypes [.buf, .drop] a → A a) : Frame ps A s (s.drop p r n) := by
  have hd : ∀ off, off < 0x1000 → A (Pg.DROP + off) := fun off ho => hA _ (.drop ho (by simp))
  have hcnt : ∀ off, off < 0xA00 → A (Pg.DROP + 0x100 + off) := fun off ho => by
    have := hd (0x100 + off) (by omega)
    rwa [← Nat.add_assoc] at this
  have hc : ∀ k, k < 16 → A (Pg.DROP + 0x100 + 0xA0 * (p % 16) + 0x10 * (r % 10) + k) := fun k hk => by
    have := hcnt (0xA0 * (p % 16) + 0x10 * (r % 10) + k) (by omega)
    rwa [← Nat.add_assoc, ← Nat.add_assoc] at this
  unfold Dev.drop
  extract_lets a u
  have hu : Frame ps A s u :=
    (count48 _ (hc 0 (by decide)) (hc 4 (by decide))).trans (count64 _ (hc 8 (by decide)) (hc 12 (by decide)))
  exact ite (hu.trans (raise _ (hA _ (.buf (by decide) (by simp))))) (ite (hu.trans (raise _ (hd _ (by decide)))) hu)

theorem ltDiscard {n : Nat} (hn : n < 16) (hA : ∀ a, OnTypes [.lantern] a → A a) : Frame ps A s (s.ltDiscard n) :=
  (count _ (hA _ (.lantern hn (by decide) (by simp)))).trans (raise _ (hA _ (.lantern hn (by decide) (by simp))))

theorem ltQueue {n : Nat} (hn : n < 16) (ty : Nat) (l : List Byte) (hl : .lt ∈ ps)
    (hA : ∀ a, OnTypes [.lantern] a → A a) : Frame ps A s (s.ltQueue n ty l) := by
  unfold Dev.ltQueue
  extract_lets
  exact ite (setLtn _ _ hl) (ite ((setLtn _ _ hl).trans (ltDiscard hn hA)) (ltDiscard hn hA))

theorem ltFault {n : Nat} (hn : n < 16) (c : Nat) (b : Bool) (hl : .lt ∈ ps) (hA : ∀ a, OnTypes [.lantern] a → A a) :
    Frame ps A s (s.ltFault n c b) := by
  unfold Dev.ltFault
  extract_lets
  exact ite (refl s) ((setLtn _ _ hl).trans (ltQueue hn _ _ hl hA))

theorem ltStop {n : Nat} (hn : n < 16) (hl : .lt ∈ ps) (hA : ∀ a, OnTypes [.lantern] a → A a) :
    Frame ps A s (s.ltStop n) := by
  unfold Dev.ltStop
  extract_lets
  split
  · exact (setLtn _ _ hl).trans (count _ (hA _ (.lantern hn (by decide) (by simp))))
  · exact refl s

theorem ltRxUpdate {n : Nat} (hn : n < 16) (hA : ∀ a, OnTypes [.lantern] a → A a) : Frame ps A s (s.ltRxUpdate n) := by
  have h : A (Pg.LANTERN n + LANTERN.LT_STATUS) := hA _ (.lantern hn (by decide) (by simp))
  unfold Dev.ltRxUpdate
  extract_lets
  exact ite (refl s) (ite (setF _ _ _ h) (ite (setF _ _ _ h) (refl s)))

theorem eyeAbort {a : Nat} (h : A (a + 12)) : Frame ps A s (s.eyeAbort a) :=
  ite ((setB _ _ h).trans (setB _ _ h)) (refl s)

/-! ### A slice's check, and its line lanes leaving OFF (R28, R87, R88) -/

/-- The check of a slice writes its status and its causes. -/
theorem sliceCheck (sl : Nat) (hs : A (Pg.SLICE sl + SLICE.SLICE_STATUS)) (hi : A (Pg.SLICE sl + HDR.INT_STATUS)) :
    Frame ps A s (s.sliceCheck sl) := by
  unfold Dev.sliceCheck
  extract_lets
  exact ite ((setF _ _ _ hs).trans (raise _ hi)) (setF _ _ _ hs)

theorem cutPackets {n : Nat} (hf : .flow ∈ ps) (hA : ∀ a, OnTypes [.buf, .drop] a → A a) :
    Frame ps A s (s.cutPackets n) := by
  unfold Dev.cutPackets
  extract_lets
  refine (setFlow _ hf).trans (foldl (fun u x => ?_) _)
  split
  · exact drop _ _ _ hA
  · exact refl u

theorem degClear {n : Nat} (hn : n < 16) (hl : .lt ∈ ps) (hA : ∀ a, OnTypes [.lfec, .lantern] a → A a) :
    Frame ps A s (s.degClear n) := by
  have hf : ∀ off, off < 0x1000 → A (Pg.LFEC n + off) := fun off ho => hA _ (.lfec hn ho (by simp))
  unfold Dev.degClear
  extract_lets
  exact ite (((setB _ _ (hf _ (by decide))).trans (raise _ (hf _ (by decide)))).trans
    (ltFault hn _ _ hl fun a h => hA a (h.mono (by simp)))) (refl s)

theorem leaveTrack {n : Nat} (hn : n < 16) (hr : .rx ∈ ps) (hl : .lt ∈ ps) (hf : .flow ∈ ps)
    (hA : ∀ a, OnTypes [.lrx, .lfec, .lantern, .buf, .drop] a → A a) : Frame ps A s (s.leaveTrack n) := by
  have hx : ∀ off, off < 0x1000 → A (Pg.LRX n + off) := fun off ho => hA _ (.lrx hn ho (by simp))
  unfold Dev.leaveTrack
  extract_lets t x u
  have ht : Frame ps A s t := ((wr _ (hx _ (by decide))).trans (wr _ (hx _ (by decide)))).trans (wr _ (hx _ (by decide)))
  have hu : Frame ps A s u := ht.trans (setRxl _ _ hr)
  have heye : A (Pg.LRX n + LRX.EYE_CTRL + 12) := by
    rw [Nat.add_assoc]
    exact hx _ (by decide)
  exact ((hu.trans (eyeAbort heye)).trans (degClear hn hl fun a h => hA a (h.mono (by simp)))).trans
    (cutPackets hf fun a h => hA a (h.mono (by simp)))

/-- A line lane's change of state: its page, its sequencer's and its Lantern receiver's, and what leaving TRACK does. -/
theorem setLane {n : Nat} (hn : n < 16) (st : Nat) (hr : .rx ∈ ps) (hc : .cal ∈ ps) (hl : .lt ∈ ps) (hf : .flow ∈ ps)
    (hA : ∀ a, OnTypes [.lrx, .lfec, .lantern, .buf, .drop, .lseq, .seq] a → A a) : Frame ps A s (s.setLane n st) := by
  have hx : ∀ off, off < 0x1000 → A (Pg.LRX n + off) := fun off ho => hA _ (.lrx hn ho (by simp))
  have hst := hx LRX.LANE_STATE (by decide)
  unfold Dev.setLane
  extract_lets a old t u x v unfit c w y
  have ht : Frame ps A s t := ((((setF _ _ _ hst).trans (setF _ _ _ hst)).trans (setF _ _ _ hst)).trans (setB _ _ hst)).trans
    (setB _ _ hst)
  have hu : Frame ps A s u := (ht.trans (raise _ (hx _ (by decide)))).trans (laneEvent hn _ fun a h => hA a (h.mono (by simp)))
  have hw : Frame ps A s w := (hu.trans (setRxl _ _ hr)).trans (setCal _ hc)
  have hy : Frame ps A s y := ite (hw.trans (leaveTrack hn hr hl hf fun a h => hA a (h.mono (by simp)))) hw
  exact hy.trans (ltRxUpdate hn fun a h => hA a (h.mono (by simp)))

theorem waitEntry {n : Nat} (hn : n < 16) (b : Bool) (hr : .rx ∈ ps) (hA : ∀ a, OnTypes [.lrx] a → A a) :
    Frame ps A s (s.waitEntry n b) := by
  have hx : ∀ off, off < 0x1000 → A (Pg.LRX n + off) := fun off ho => hA _ (.lrx hn ho (by simp))
  unfold Dev.waitEntry
  extract_lets t
  have ht : Frame ps A s t := ite ((setB _ _ (hx _ (by decide))).trans (raise _ (hx _ (by decide)))) (refl s)
  exact ite (ht.trans (setRxl _ _ hr)) ht

theorem toCalibrate {n : Nat} (hn : n < 16) (b : Bool) (hr : .rx ∈ ps) (hc : .cal ∈ ps) (hl : .lt ∈ ps) (hf : .flow ∈ ps)
    (hA : ∀ a, OnTypes [.lrx, .lfec, .lantern, .buf, .drop, .lseq, .seq] a → A a) : Frame ps A s (s.toCalibrate n b) :=
  ((setLane hn _ hr hc hl hf hA).trans (setRxl _ _ hr)).trans (waitEntry hn _ hr fun a h => hA a (h.mono (by simp)))

theorem rxTryUp {n : Nat} (hn : n < 16) (hr : .rx ∈ ps) (hc : .cal ∈ ps) (hl : .lt ∈ ps) (hf : .flow ∈ ps)
    (hs : A (Pg.SLICE (n / 4) + SLICE.SLICE_STATUS)) (hi : A (Pg.SLICE (n / 4) + HDR.INT_STATUS))
    (hA : ∀ a, OnTypes [.lrx, .lfec, .lantern, .buf, .drop, .lseq, .seq] a → A a) : Frame ps A s (s.rxTryUp n) :=
  ite (ite ((sliceCheck _ hs hi).trans (toCalibrate hn _ hr hc hl hf hA)) (sliceCheck _ hs hi)) (refl s)

/-! ### Line transmitters leaving OFF (R282 to R285) -/

theorem cutFrame {p : Nat} (hp : p < 16) (he : .eg ∈ ps) (hA : ∀ a, OnTypes [.ltx] a → A a) : Frame ps A s (s.cutFrame p) :=
  ite ((setEg _ he).trans (count _ (hA _ (.ltx hp (by decide) (by simp))))) (setEg _ he)

theorem setTx {n : Nat} (hn : n < 16) (st : Nat) (he : .eg ∈ ps) (hc : .cal ∈ ps)
    (hA : ∀ a, OnTypes [.ltx, .lseq, .seq] a → A a) : Frame ps A s (s.setTx n st) := by
  have hx : ∀ off, off < 0x1000 → A (Pg.LTX n + off) := fun off ho => hA _ (.ltx hn ho (by simp))
  unfold Dev.setTx
  extract_lets a u t unfit w
  have hu : Frame ps A s u := ite (cutFrame (s.linePort_lt hn) he fun a h => hA a (h.mono (by simp))) (refl s)
  have ht : Frame ps A s t := ((hu.trans (setF _ _ _ (hx _ (by decide)))).trans (setF _ _ _ (hx _ (by decide)))).trans
    (raise _ (hx _ (by decide)))
  exact (ht.trans (setCal _ hc)).trans (laneEvent hn _ fun a h => hA a (h.mono (by simp)))

theorem dropShare (p : Nat) (he : .eg ∈ ps) (hA : ∀ a, OnTypes [.drop] a → A a) : Frame ps A s (s.dropShare p) := by
  have hd : ∀ off, off < 0x1000 → A (Pg.DROP + off) := fun off ho => hA _ (.drop ho (by simp))
  have hc : ∀ i, i < 4 → ∀ k, k < 8 → A (Pg.DROP + DROP.EG_PORT_DOWN + 0x10 * i + k) := fun i hi k hk => by
    have := hd (DROP.EG_PORT_DOWN + 0x10 * i + k) (by simp only [DROP.EG_PORT_DOWN]; omega)
    rwa [← Nat.add_assoc, ← Nat.add_assoc] at this
  exact (setEg _ he).trans (foldl (fun u f => count48 _ (hc _ (by omega) 0 (by decide)) (hc _ (by omega) 4 (by decide))) _)

theorem rfUpdate (p : Nat) (he : .eg ∈ ps) (ho : .sent ∈ ps) : Frame ps A s (s.rfUpdate p) :=
  ite (refl s) ((setEg _ he).trans (emit _ ho))

theorem txLane {n : Nat} (hn : n < 16) (p : Nat) (he : .eg ∈ ps) (hc : .cal ∈ ps) (hl : .lt ∈ ps)
    (hA : ∀ a, OnTypes [.ltx, .lantern, .lseq, .seq] a → A a) : Frame ps A s (s.txLane p n) :=
  ite (((setTx hn _ he hc fun a h => hA a (h.mono (by simp))).trans (count _ (hA _ (.ltx hn (by decide) (by simp))))).trans
    (ltStop hn hl fun a h => hA a (h.mono (by simp)))) (refl s)

theorem txUpdate {p : Nat} (hp : p < 16) (he : .eg ∈ ps) (hc : .cal ∈ ps) (hl : .lt ∈ ps) (ho : .sent ∈ ps)
    (hA : ∀ a, OnTypes [.ltx, .lantern, .drop, .lseq, .seq] a → A a) : Frame ps A s (s.txUpdate p) := by
  unfold Dev.txUpdate
  extract_lets t
  have ht : Frame ps A s t :=
    (foldl_mem fun u n h => txLane (Dev.lpLanes_lt hp h) p he hc hl fun a h => hA a (h.mono (by simp))).trans (rfUpdate p he ho)
  exact ite (ht.trans (dropShare p he fun a h => hA a (h.mono (by simp)))) ht

theorem txTryUp {n : Nat} (hn : n < 16) (he : .eg ∈ ps) (hc : .cal ∈ ps) (hl : .lt ∈ ps) (ho : .sent ∈ ps)
    (hs : A (Pg.SLICE (n / 4) + SLICE.SLICE_STATUS)) (hi : A (Pg.SLICE (n / 4) + HDR.INT_STATUS))
    (hA : ∀ a, OnTypes [.ltx, .lantern, .drop, .lseq, .seq] a → A a) : Frame ps A s (s.txTryUp n) := by
  unfold Dev.txTryUp
  extract_lets t
  have ht : Frame ps A s t := sliceCheck _ hs hi
  exact ite (ite ((ht.trans ((setLtn _ _ hl).trans (setTx hn _ he hc fun a h => hA a (h.mono (by simp))))).trans
    (txUpdate (t.linePort_lt hn) he hc hl ho hA)) ht) (refl s)

/-! ### Host lanes leaving OFF (R249, R254) -/

theorem hostShow (p : Nat) (he : .eg ∈ ps) (ho : .sent ∈ ps) : Frame ps A s (s.hostShow p) :=
  foldl (fun u _ => ite (refl u) ((setEg _ he).trans (emit _ ho))) _

theorem setHost {n : Nat} (hn : n < 16) (st : Nat) (he : .eg ∈ ps) (ho : .sent ∈ ps) (hA : ∀ a, OnTypes [.host] a → A a) :
    Frame ps A s (s.setHost n st) := by
  have hx : ∀ off, off < 0x1000 → A (Pg.HOST n + off) := fun off ho => hA _ (.host hn ho (by simp))
  have hst := hx HOST.HOST_STATE (by decide)
  unfold Dev.setHost
  extract_lets a old t u e v e' w
  have ht : Frame ps A s t := (((setF _ _ _ hst).trans (setF _ _ _ hst)).trans (setF _ _ _ hst)).trans (raise _ (hx _ (by decide)))
  have heye : A (Pg.HOST n + HOST.EYE_CTRL + 12) := by
    rw [Nat.add_assoc]
    exact hx _ (by decide)
  have hu : Frame ps A s u := ite ht (ht.trans (eyeAbort heye))
  have hv : Frame ps A s v := ite ((hu.trans (setEg _ he)).trans (setB _ _ (hx _ (by decide)))) hu
  have hw : Frame ps A s w := ite (hv.trans (setEg _ he)) hv
  exact hw.trans (hostShow _ he ho)

theorem hostTryUp {n : Nat} (hn : n < 16) (he : .eg ∈ ps) (ho : .sent ∈ ps) (hs : A (Pg.SLICE (n / 4) + SLICE.SLICE_STATUS))
    (hi : A (Pg.SLICE (n / 4) + HDR.INT_STATUS)) (hA : ∀ a, OnTypes [.host] a → A a) : Frame ps A s (s.hostTryUp n) := by
  unfold Dev.hostTryUp
  extract_lets t table u
  have hu : Frame ps A s u := (sliceCheck _ hs hi).trans (setB _ _ (hA _ (.host hn (by decide) (by simp))))
  exact ite (ite (hu.trans (setHost hn _ he ho hA)) hu) (refl s)

/-! ### Analogue outputs and resamplers of a slice (R323, R325, R333) -/

theorem settleStart {sl i : Nat} (h : sl < 4) (ha : .ana ∈ ps) (hA : ∀ a, OnTypes [.decim] a → A a) :
    Frame ps A s (s.settleStart sl i) :=
  (setAna _ ha).trans (setB _ _ (hA _ (.decim h (by decide) (by simp))))

theorem chkNext {sl : Nat} (h : sl < 4) (hA : ∀ a, OnTypes [.ana] a → A a) : Frame ps A s (s.chkNext sl) := by
  have hx : A (Pg.ANA sl + ANA.CHK_STATUS) := hA _ (.ana h (by decide) (by simp))
  unfold Dev.chkNext
  extract_lets
  refine ite (refl s) ?_
  split
  · exact (setF _ _ _ hx).trans (setB _ _ hx)
  · exact refl s

theorem chkEnd {sl : Nat} (h : sl < 4) (k : Nat) (ha : .ana ∈ ps) (hA : ∀ a, OnTypes [.ana, .decim, .lseq, .seq] a → A a) :
    Frame ps A s (s.chkEnd sl k) := by
  have hx : ∀ off, off < 0x1000 → A (Pg.ANA sl + off) := fun off ho => hA _ (.ana h ho (by simp))
  unfold Dev.chkEnd
  extract_lets a mine t u v
  have ht : Frame ps A s t := setB _ _ (hx _ (by decide))
  have hu : Frame ps A s u :=
    ite ((ht.trans (setB _ _ (hx _ (by decide)))).trans (settleStart h ha fun a h => hA a (h.mono (by simp)))) ht
  have hv : Frame ps A s v := hu.trans (chkNext h fun a h => hA a (h.mono (by simp)))
  exact ite (ite ((hv.trans (raise _ (hx _ (by decide)))).trans (loopEvent h _ fun a h => hA a (h.mono (by simp)))) hv) (refl s)

theorem ownerEvent {sl : Nat} (h : sl < 4) (k e : Nat) (hA : ∀ a, OnTypes [.lseq, .seq] a → A a) :
    Frame ps A s (s.ownerEvent sl k e) := by
  unfold Dev.ownerEvent
  split
  · exact seqEvent (by omega) _ hA
  · exact seqEvent (by omega) _ hA
  · exact refl s

theorem driveShow (old : Dev) (sl k : Nat) (ho : .sent ∈ ps) : Frame ps A t (Dev.driveShow old t sl k) :=
  ite (refl t) (emit _ ho)

theorem setOut {sl k : Nat} (h : sl < 4) (hk : k < 10) (st : Nat) (ha : .ana ∈ ps) (ho : .sent ∈ ps)
    (hA : ∀ a, OnTypes [.ana, .decim, .lseq, .seq] a → A a) : Frame ps A s (s.setOut sl k st) := by
  have hx : ∀ off, off < 0x1000 → A (Pg.ANA sl + off) := fun off ho => hA _ (.ana h ho (by simp))
  have hst : A (Dev.outBase sl k + ANA.OUT_STATUS) := by
    have := hx (0x10 * k + ANA.OUT_STATUS) (by simp only [ANA.OUT_STATUS]; omega)
    rwa [← Nat.add_assoc] at this
  unfold Dev.setOut
  extract_lets a old t u v w
  have ht : Frame ps A s t := ((setF _ _ _ hst).trans (setB _ _ (hx _ (by decide)))).trans
    (ownerEvent h _ _ fun a h => hA a (h.mono (by simp)))
  have hu : Frame ps A s u := ite (ht.trans (setF _ _ _ hst)) ht
  have hv : Frame ps A s v := ite (hu.trans (chkEnd h _ ha hA)) hu
  have hw : Frame ps A s w := hv.trans (driveShow _ _ _ ho)
  exact ite (hw.trans (setAna _ ha)) hw

theorem outCheck {sl k : Nat} (h : sl < 4) (hk : k < 10) (ha : .ana ∈ ps) (ho : .sent ∈ ps)
    (hA : ∀ a, OnTypes [.ana, .decim, .lseq, .seq] a → A a) : Frame ps A s (s.outCheck sl k) :=
  ((setOut h hk _ ha ho hA).trans (setB _ _ (hA _ (.ana h (by decide) (by simp))))).trans
    (chkNext h fun a h => hA a (h.mono (by simp)))

theorem outType {sl : Nat} (h : sl < 4) (ha : .ana ∈ ps) (ho : .sent ∈ ps) (hl : .log ∈ ps)
    (hA : ∀ a, OnTypes [.ana, .decim, .lseq, .seq, .device] a → A a) : Frame ps A s (s.outType sl) := by
  refine foldl_mem fun u k hk => ?_
  have hk : k < 10 := List.mem_range.mp hk
  exact ite ((setOut h hk _ ha ho fun a h => hA a (h.mono (by simp))).trans (closeFault _ _ _ _ hl fun a h => hA a (h.mono (by simp))))
    (ite (outCheck h hk ha ho fun a h => hA a (h.mono (by simp))) (refl u))

theorem rsFollow (n : Nat) (ha : .ana ∈ ps) (hA : ∀ a, OnTypes [.resamp] a → A a) : Frame ps A s (s.rsFollow n) := by
  have hx : ∀ c off, c < 8 → off < 0x200 → A (Dev.rsBase c + off) := fun c off hc ho => by
    have := hA _ (OnTypes.resamp (T := [.resamp]) (off := 0x20 * c + off) (by omega) (by simp))
    rwa [← Nat.add_assoc] at this
  have hclaim : Frame ps A s (s.rsClaim n) := by
    unfold Dev.rsClaim
    split
    · exact refl s
    · next c hc =>
      have hc : c < 8 := List.mem_range.mp (List.mem_of_find?_eq_some hc)
      exact (((wr _ (hx c _ hc (by decide))).trans (setF _ _ _ (hx c _ hc (by decide)))).trans
        (setWide _ _ (hx c _ hc (by decide)) (hx c (RESAMP.STEP_LO + 4) hc (by decide)))).trans (setAna _ ha)
  have hfree : Frame ps A s (s.rsRelease n) :=
    foldl_mem fun u c hc => ite (wr _ (hx c _ (List.mem_range.mp hc) (by decide))) (refl u)
  exact ite hclaim (ite hfree (refl s))

/-! ### Modules (R336, R337, R340) -/

theorem setMm {n : Nat} (hn : n < 16) (st : Nat) (hA : ∀ a, OnTypes [.mm] a → A a) : Frame ps A s (s.setMm n st) := by
  have hx : ∀ off, off < 0x1000 → A (Pg.MM n + off) := fun off ho => hA _ (.mm hn ho (by simp))
  exact ((setF _ _ _ (hx _ (by decide))).trans (setF _ _ _ (hx _ (by decide)))).trans (raise _ (hx _ (by decide)))

theorem mmRawPins (n : Nat) (hm : .mm ∈ ps) : Frame ps A s (s.mmRawPins n) := ite (setMmo _ _ hm) (setMmo _ _ hm)

theorem mmConfig {n : Nat} (hn : n < 16) (hm : .mm ∈ ps) (hA : ∀ a, OnTypes [.mm] a → A a) : Frame ps A s (s.mmConfig n) := by
  have hset : ∀ st, Frame ps A s (s.setMm n st) := fun st => setMm hn st hA
  unfold Dev.mmConfig
  extract_lets
  exact ite (ite (refl s) ((hset 0).trans (setMmo _ _ hm)))
    (ite (refl s) (ite ((ite (refl s) (hset 9)).trans (mmRawPins n hm)) (ite ((hset 1).trans (setMmo _ _ hm)) (refl s))))

end Frame

end Sys2Proof
end

