-- ==== Sys2Proof/Proofs/Access.lean ====
section
/-! Accesses that pass their checks: what they give, and what the rejection of one leaves behind (R38 to R65). -/

namespace Sys2Proof

open Machine

/-- An access that passes its checks concerns a page of the map. -/
theorem Admits.pageRow_isSome {s : State} {m : Master} {a : Nat} (h : Admits s m a) : (pageRow (a / 0x1000)).isSome = true := by
  by_contra hp
  have hnone : (pageRow (a / 0x1000)).isNone = true := by simpa using hp
  have hun : s.d.writeErr m a 0xF false = some Err.unmapped := if_pos hnone
  exact absurd (hun.symm.trans h.1) (by simp)

/-- A command that is an access passing its checks gives what its action leaves. -/
theorem gives_access {i : Instr} {s : State} {m : Master} {a : Nat} {f : Dev → Dev} {P : Dev → Prop}
    (h : exec i s = s.run (fun d => d.access m a f)) (ha : Admits s m a) (p : P (settle (f s.d))) : Gives i s P :=
  gives_run h (by rwa [ha.access])

/-- An error logged on a page: its `ERR_INFO` and its error cause, and nothing else (R47). -/
theorem rejected_logOn (s : Dev) (m : Master) (a code : Nat) :
    Rejected m a code s (s.logOn m (a / 0x1000) (a % 0x1000) code) := by
  have hne : a / 0x1000 * 0x1000 + HDR.ERR_INFO ≠ a / 0x1000 * 0x1000 + 0x10 := by simp
  have hoff : a % 0x1000 / 4 * 4 % 0x1000 = a % 0x1000 / 4 * 4 := by omega
  refine ⟨(Frame.wr _ (Or.inl rfl)).trans (Frame.raise _ (Or.inr rfl)), ?_, ?_⟩
  · rw [Dev.logOn, Dev.rd_raise_ne _ _ _ hne, Dev.rd_wr_same, hoff]
    rfl
  · rw [Dev.logOn, Dev.rd_raise_same, Dev.rd_wr_ne _ _ _ hne.symm]

theorem Rejected.settle {m : Master} {a code : Nat} {s t : Dev} (h : Rejected m a code s t) :
    Rejected m a code s (settle t) := by
  obtain ⟨hf, herr, hint⟩ := h
  exact ⟨hf.settle, (settle_rd _ _).trans herr, (settle_rd _ _).trans hint⟩

/-- On a page of the map an error that is none of the interconnect's own is logged on the page alone (R38, R49, R375). -/
theorem logErr_eq_logOn {s : Dev} {m : Master} {a code : Nat} (hp : (pageRow (a / 0x1000)).isSome = true)
    (hc : code ≠ Err.islandOff ∧ code ≠ Err.narrow ∧ code ≠ Err.unaligned) :
    s.logErr m a code = s.logOn m (a / 0x1000) (a % 0x1000) code := by
  obtain ⟨hoff, hnarrow, hunal⟩ := hc
  have hnone : (pageRow (a / 0x1000)).isNone = false := by rw [← Option.not_isSome, hp]; rfl
  simp [Dev.logErr, hp, hnone, hoff, hnarrow, hunal]

/-- A command whose access passes its checks but whose action logs an error is rejected with its code. -/
theorem gives_rejected {i : Instr} {s : State} {m : Master} {a code : Nat} {f : Dev → Dev}
    (h : exec i s = s.run (fun d => d.access m a f)) (ha : Admits s m a)
    (hc : code ≠ Err.islandOff ∧ code ≠ Err.narrow ∧ code ≠ Err.unaligned) (hf : f s.d = s.d.logErr m a code) :
    Gives i s (Rejected m a code s.d) :=
  gives_access h ha (by
    rw [hf, logErr_eq_logOn ha.pageRow_isSome hc]
    exact (rejected_logOn s.d m a code).settle)

end Sys2Proof
end

