-- ==== Sys2Proof/Proofs/Slices.lean ====
section
/-! Slice configuration and the pause of the line ports (01, R9, R27, R29, R508; 08, R246). -/

namespace Sys2Proof

open Machine

/-! ### What a configured slice sets going -/

/-- Two kinds of page that share no type share no register. -/
theorem OnTypes.disjoint {T U : List PageType} {a : Nat} (h : OnTypes T a) (k : OnTypes U a) (d : ∀ t ∈ T, t ∉ U) : False := by
  obtain ⟨r, hr, ht⟩ := h
  obtain ⟨r', hr', hu⟩ := k
  obtain rfl : r = r' := Option.some.inj (hr.symm.trans hr')
  exact d _ ht hu

/-- The types of the pages that a slice's lanes, outputs, modules and resamplers write as they follow its configuration. -/
def followTypes : List PageType :=
  [.device, .lrx, .ltx, .lfec, .host, .buf, .drop, .lantern, .ana, .decim, .resamp, .lseq, .seq, .mm]

/-- The registers that may change when a slice's configuration has been written: those, and the slice's own status. -/
def FollowRegs (sl a : Nat) : Prop :=
  OnTypes followTypes a ∨ a = Pg.SLICE sl + SLICE.SLICE_STATUS ∨ a = Pg.SLICE sl + HDR.INT_STATUS

/-- The parts of the device that may change then. -/
def followParts : List Part := [.log, .rx, .flow, .eg, .lt, .ana, .mm, .cal, .sent]

/-- The slice's configuration itself is none of them. -/
theorem not_followRegs {sl off : Nat} (h : sl < 4) (ho : off < 0x1000) (hs : off ≠ SLICE.SLICE_STATUS) (hi : off ≠ HDR.INT_STATUS) :
    ¬ FollowRegs sl (Pg.SLICE sl + off) := by
  rintro (k | k | k)
  · exact k.disjoint (.slice (T := [.slice]) h ho (by simp)) (by decide)
  · exact hs (Nat.add_left_cancel k)
  · exact hi (Nat.add_left_cancel k)

theorem FollowRegs.of_types {sl : Nat} (T : List PageType) (hT : ∀ t ∈ T, t ∈ followTypes) :
    ∀ a, OnTypes T a → FollowRegs sl a := fun _ h => .inl (h.mono hT)

/-- Held lanes that leave OFF write no configuration. -/
theorem Frame.sliceRetry {s : Dev} {sl : Nat} (h : sl < 4) : Frame followParts (FollowRegs sl) s (s.sliceRetry sl) := by
  refine Frame.foldl_mem fun t q hq => ?_
  have hq : q < 4 := List.mem_range.mp hq
  have hn : 4 * sl + q < 16 := by omega
  have e : (4 * sl + q) / 4 = sl := by omega
  have hs : FollowRegs sl (Pg.SLICE ((4 * sl + q) / 4) + SLICE.SLICE_STATUS) := .inr (.inl (by rw [e]))
  have hi : FollowRegs sl (Pg.SLICE ((4 * sl + q) / 4) + HDR.INT_STATUS) := .inr (.inr (by rw [e]))
  exact ((Frame.rxTryUp hn (by decide) (by decide) (by decide) (by decide) hs hi (FollowRegs.of_types _ (by decide))).trans
    (Frame.txTryUp hn (by decide) (by decide) (by decide) (by decide) hs hi (FollowRegs.of_types _ (by decide)))).trans
    (Frame.hostTryUp hn (by decide) (by decide) hs hi (FollowRegs.of_types _ (by decide)))

/-! ### The three writes: rejected for the value, rejected for the lanes' state, or taken whole -/

theorem sliceCfgBad_iff (s : Dev) (sl : Nat) (v : Word) : s.sliceCfgBad sl v = true ↔
    4 < fieldOf v 8 3 ∨ ∃ q, q < 4 ∧ ((bitOf v (4 + q) = true ∧ Dev.layoutWidth (fieldOf v 8 3) q = 0)
      ∨ (Dev.layoutWidth (fieldOf v 8 3) q ≠ 0
        ∧ Dev.layoutWidth (fieldOf v 8 3) q * 1024 < s.fld (Dev.egBase (4 * sl + q) + SLICE.EG_XOFF) 0 13)) := by
  simp only [Dev.sliceCfgBad, Bool.or_eq_true, decide_eq_true_eq, List.any_eq_true, List.mem_range, Bool.and_eq_true,
    beq_iff_eq, or_assoc, and_or_left, exists_or]

theorem sliceCfgSet_malformed {s : Dev} {sl : Nat} {v : Word} (m : Master) (h : s.sliceCfgBad sl v = true) :
    s.sliceCfgSet m sl v = s.logErr m (Pg.SLICE sl + SLICE.SLICE_CFG) Err.config := by
  simp only [Dev.sliceCfgSet, h, if_true]

theorem sliceCfgSet_busy {s : Dev} {sl : Nat} {v : Word} (m : Master) (h : s.sliceCfgBad sl v = false)
    (hx : (s.rd (Pg.SLICE sl + SLICE.SLICE_CFG) ^^^ v) &&& 0x7F3 ≠ 0) (ho : s.sliceOff sl = false) :
    s.sliceCfgSet m sl v = s.logErr m (Pg.SLICE sl + SLICE.SLICE_CFG) Err.state := by
  simp only [Dev.sliceCfgSet, h, Bool.false_eq_true, if_false, if_pos (And.intro hx ho)]

theorem rd_sliceCfgSet {s : Dev} {sl : Nat} {v : Word} (m : Master) (hsl : sl < 4) (h : s.sliceCfgBad sl v = false)
    (ho : s.sliceOff sl = true) : (s.sliceCfgSet m sl v).rd (Pg.SLICE sl + SLICE.SLICE_CFG)
      = mergeBits (s.rd (Pg.SLICE sl + SLICE.SLICE_CFG)) 0xFF0107F3 v := by
  have hn : ∀ q ∈ List.range 4, 4 * sl + q < 16 := fun q hq => by have := List.mem_range.mp hq; omega
  simp only [Dev.sliceCfgSet, h, ho, Bool.false_eq_true, Bool.true_eq_false, and_false, if_false]
  set w := s.wr (Pg.SLICE sl + SLICE.SLICE_CFG) (mergeBits (s.rd (Pg.SLICE sl + SLICE.SLICE_CFG)) 0xFF0107F3 v) with hw
  have hshow : ∀ {x : Dev}, Frame followParts (FollowRegs sl) x ((List.range 4).foldl (fun t q =>
      t.setB (Pg.LRX (4 * sl + q) + LRX.LANE_STATE) 18 (t.typeE sl)) x) :=
    Frame.foldl_mem fun t q hq => Frame.setB _ _ (FollowRegs.of_types [.lrx] (by decide) _ (.lrx (hn q hq) (by decide) (by simp)))
  have hunits : ∀ {x : Dev}, Frame followParts (FollowRegs sl) x ((List.range 4).foldl (fun t q =>
      ((t.mmConfig (4 * sl + q)).rsFollow (4 * sl + q)).ltRxUpdate (4 * sl + q)) x) :=
    Frame.foldl_mem fun t q hq => ((Frame.mmConfig (hn q hq) (by decide) (FollowRegs.of_types _ (by decide))).trans
      (Frame.rsFollow _ (by decide) (FollowRegs.of_types _ (by decide)))).trans
      (Frame.ltRxUpdate (hn q hq) (FollowRegs.of_types _ (by decide)))
  have hout : ∀ {x : Dev}, Frame followParts (FollowRegs sl) x (x.outType sl) :=
    Frame.outType hsl (by decide) (by decide) (by decide) (FollowRegs.of_types _ (by decide))
  have hall := ((hshow (x := w)).trans (hunits.trans hout)).trans (Frame.sliceRetry hsl)
  rw [hall.1 _ (not_followRegs hsl (by decide) (by decide) (by decide)), hw, Dev.rd_wr_same]

theorem mapFits_iff (map : Word) (layout : Nat) :
    Dev.mapFits map layout = true ↔ ∀ q, q < 4 → Dev.layoutWidth layout (fieldOf map (2 * q) 2) ≠ 0 := by
  simp [Dev.mapFits]

theorem mapFits_eq_false_iff (map : Word) (layout : Nat) :
    Dev.mapFits map layout = false ↔ ¬ ∀ q, q < 4 → Dev.layoutWidth layout (fieldOf map (2 * q) 2) ≠ 0 := by
  rw [← mapFits_iff, Bool.not_eq_true]

/-- A `HOST_CFG` value is malformed: its layout, its rate, or a map that no longer fits. -/
def hostCfgBad (s : Dev) (sl : Nat) (v : Word) : Prop :=
  4 < fieldOf v 8 3 ∨ ¬ (fieldOf v 0 2 = 1 ∨ fieldOf v 0 2 = 2)
    ∨ Dev.mapFits (s.rd (Pg.SLICE sl + SLICE.LP_MAP)) (fieldOf v 8 3) = false

theorem hostCfgBad_iff (s : Dev) (sl : Nat) (v : Word) : (decide (4 < fieldOf v 8 3)
    || !(fieldOf v 0 2 == 1 || fieldOf v 0 2 == 2)
    || !Dev.mapFits (s.rd (Pg.SLICE sl + SLICE.LP_MAP)) (fieldOf v 8 3)) = true ↔ hostCfgBad s sl v := by
  simp [hostCfgBad, or_assoc]

theorem hostCfgSet_malformed {s : Dev} {sl : Nat} {v : Word} (m : Master) (h : hostCfgBad s sl v) :
    s.hostCfgSet m sl v = s.logErr m (Pg.SLICE sl + SLICE.HOST_CFG) Err.config := by
  simp only [Dev.hostCfgSet]
  rw [if_pos ((hostCfgBad_iff s sl v).mpr h)]

theorem hostCfgSet_busy {s : Dev} {sl : Nat} {v : Word} (m : Master) (h : ¬ hostCfgBad s sl v)
    (hx : (s.rd (Pg.SLICE sl + SLICE.HOST_CFG) ^^^ v) &&& 0x703 ≠ 0) (ho : s.sliceOff sl = false) :
    s.hostCfgSet m sl v = s.logErr m (Pg.SLICE sl + SLICE.HOST_CFG) Err.state := by
  simp only [Dev.hostCfgSet]
  rw [if_neg (mt (hostCfgBad_iff s sl v).mp h), if_pos ⟨hx, ho⟩]

theorem rd_hostCfgSet {s : Dev} {sl : Nat} {v : Word} (m : Master) (hsl : sl < 4) (h : ¬ hostCfgBad s sl v)
    (ho : s.sliceOff sl = true) : (s.hostCfgSet m sl v).rd (Pg.SLICE sl + SLICE.HOST_CFG)
      = mergeBits (s.rd (Pg.SLICE sl + SLICE.HOST_CFG)) 0x703 v := by
  simp only [Dev.hostCfgSet]
  rw [if_neg (mt (hostCfgBad_iff s sl v).mp h), if_neg (by simp [ho]),
    (Frame.sliceRetry hsl).1 _ (not_followRegs hsl (by decide) (by decide) (by decide)), Dev.rd_wr_same]

theorem lpMapSet_malformed {s : Dev} {sl : Nat} {v : Word} (m : Master) (h : Dev.mapFits v (s.hpLayout sl) = false) :
    s.lpMapSet m sl v = s.logErr m (Pg.SLICE sl + SLICE.LP_MAP) Err.config := by
  simp only [Dev.lpMapSet, h, Bool.not_false, if_true]

theorem lpMapSet_busy {s : Dev} {sl : Nat} {v : Word} (m : Master) (h : Dev.mapFits v (s.hpLayout sl) = true)
    (hx : (s.rd (Pg.SLICE sl + SLICE.LP_MAP) ^^^ v) &&& 0xFF ≠ 0) (ho : s.sliceOff sl = false) :
    s.lpMapSet m sl v = s.logErr m (Pg.SLICE sl + SLICE.LP_MAP) Err.state := by
  simp only [Dev.lpMapSet, h, Bool.not_true, Bool.false_eq_true, if_false, if_pos (And.intro hx ho)]

theorem rd_lpMapSet {s : Dev} {sl : Nat} {v : Word} (m : Master) (hsl : sl < 4) (h : Dev.mapFits v (s.hpLayout sl) = true)
    (ho : s.sliceOff sl = true) : (s.lpMapSet m sl v).rd (Pg.SLICE sl + SLICE.LP_MAP)
      = mergeBits (s.rd (Pg.SLICE sl + SLICE.LP_MAP)) 0xFF v := by
  simp only [Dev.lpMapSet, h, ho, Bool.not_true, Bool.false_eq_true, Bool.true_eq_false, and_false, if_false]
  rw [(Frame.sliceRetry hsl).1 _ (not_followRegs hsl (by decide) (by decide) (by decide)), Dev.rd_wr_same]

/-! ### The same of the commands -/

section
variable {s : State} {m : Master} {i : Slice} {v : Word}

theorem gives_sliceCfg_malformed (ha : Admits s m (Pg.SLICE i + SLICE.SLICE_CFG)) (h : s.d.sliceCfgBad i v = true) :
    Gives (.sliceCfgWrite m i v) s (Rejected m (Pg.SLICE i + SLICE.SLICE_CFG) 0x0C s.d) :=
  gives_rejected rfl ha (by decide) (sliceCfgSet_malformed m h)

theorem gives_sliceCfg_busy (ha : Admits s m (Pg.SLICE i + SLICE.SLICE_CFG)) (h : s.d.sliceCfgBad i v = false)
    (hx : (s.d.rd (Pg.SLICE i + SLICE.SLICE_CFG) ^^^ v) &&& 0x7F3 ≠ 0) (ho : s.d.sliceOff i = false) :
    Gives (.sliceCfgWrite m i v) s (Rejected m (Pg.SLICE i + SLICE.SLICE_CFG) 0x0D s.d) :=
  gives_rejected rfl ha (by decide) (sliceCfgSet_busy m h hx ho)

theorem gives_sliceCfg_taken (ha : Admits s m (Pg.SLICE i + SLICE.SLICE_CFG)) (h : s.d.sliceCfgBad i v = false)
    (ho : s.d.sliceOff i = true) : Gives (.sliceCfgWrite m i v) s (fun t => t.rd (Pg.SLICE i + SLICE.SLICE_CFG)
      = mergeBits (s.d.rd (Pg.SLICE i + SLICE.SLICE_CFG)) 0xFF0107F3 v) :=
  gives_access rfl ha ((settle_rd _ _).trans (rd_sliceCfgSet m i.isLt h ho))

theorem gives_hostCfg_malformed (ha : Admits s m (Pg.SLICE i + SLICE.HOST_CFG)) (h : hostCfgBad s.d i v) :
    Gives (.hostCfgWrite m i v) s (Rejected m (Pg.SLICE i + SLICE.HOST_CFG) 0x0C s.d) :=
  gives_rejected rfl ha (by decide) (hostCfgSet_malformed m h)

theorem gives_hostCfg_busy (ha : Admits s m (Pg.SLICE i + SLICE.HOST_CFG)) (h : ¬ hostCfgBad s.d i v)
    (hx : (s.d.rd (Pg.SLICE i + SLICE.HOST_CFG) ^^^ v) &&& 0x703 ≠ 0) (ho : s.d.sliceOff i = false) :
    Gives (.hostCfgWrite m i v) s (Rejected m (Pg.SLICE i + SLICE.HOST_CFG) 0x0D s.d) :=
  gives_rejected rfl ha (by decide) (hostCfgSet_busy m h hx ho)

theorem gives_hostCfg_taken (ha : Admits s m (Pg.SLICE i + SLICE.HOST_CFG)) (h : ¬ hostCfgBad s.d i v)
    (ho : s.d.sliceOff i = true) : Gives (.hostCfgWrite m i v) s (fun t => t.rd (Pg.SLICE i + SLICE.HOST_CFG)
      = mergeBits (s.d.rd (Pg.SLICE i + SLICE.HOST_CFG)) 0x703 v) :=
  gives_access rfl ha ((settle_rd _ _).trans (rd_hostCfgSet m i.isLt h ho))

theorem gives_lpMap_malformed (ha : Admits s m (Pg.SLICE i + SLICE.LP_MAP)) (h : Dev.mapFits v (s.d.hpLayout i) = false) :
    Gives (.lpMapWrite m i v) s (Rejected m (Pg.SLICE i + SLICE.LP_MAP) 0x0C s.d) :=
  gives_rejected rfl ha (by decide) (lpMapSet_malformed m h)

theorem gives_lpMap_busy (ha : Admits s m (Pg.SLICE i + SLICE.LP_MAP)) (h : Dev.mapFits v (s.d.hpLayout i) = true)
    (hx : (s.d.rd (Pg.SLICE i + SLICE.LP_MAP) ^^^ v) &&& 0xFF ≠ 0) (ho : s.d.sliceOff i = false) :
    Gives (.lpMapWrite m i v) s (Rejected m (Pg.SLICE i + SLICE.LP_MAP) 0x0D s.d) :=
  gives_rejected rfl ha (by decide) (lpMapSet_busy m h hx ho)

theorem gives_lpMap_taken (ha : Admits s m (Pg.SLICE i + SLICE.LP_MAP)) (h : Dev.mapFits v (s.d.hpLayout i) = true)
    (ho : s.d.sliceOff i = true) : Gives (.lpMapWrite m i v) s (fun t => t.rd (Pg.SLICE i + SLICE.LP_MAP)
      = mergeBits (s.d.rd (Pg.SLICE i + SLICE.LP_MAP)) 0xFF v) :=
  gives_access rfl ha ((settle_rd _ _).trans (rd_lpMapSet m i.isLt h ho))

end

/-! ### MAC control frames of the line (R29, R508) -/

theorem Frame.setRxPause {ps : List Part} {A : Nat → Prop} {s : Dev} (p q : Nat) (h : .eg ∈ ps) :
    Frame ps A s (s.setRxPause p q) := Frame.setEg _ h

/-- The pause time of a line port. -/
def rxPause (s : Dev) (p : Nat) : Nat := Sparse.get (fun _ => 0) s.eg.rxPause p

@[simp] theorem rxPause_setRxPause_same (s : Dev) (p q : Nat) : rxPause (s.setRxPause p q) p = q := Sparse.get_put_same _ _ _ _

theorem rxPause_setRxPause_ne (s : Dev) {p r : Nat} (q : Nat) (h : r ≠ p) : rxPause (s.setRxPause p q) r = rxPause s r :=
  Sparse.get_put_ne _ _ _ h

@[simp] theorem rxPause_settle (s : Dev) (p : Nat) : rxPause (settle s) p = rxPause s p := by simp [rxPause]

/-- A frame is intact: its FCS, its PCS blocks and every codeword that touches it. -/
def intact (s : Dev) (f : MacControl) (spans : List CwSpan) : Prop := f.fcsOk = true ∧ f.pcsOk = true ∧ s.badLanes spans = []

theorem lineControl_errored {s : Dev} (p : Nat) {f : MacControl} {spans : List CwSpan} (h : ¬ intact s f spans) :
    s.lineControl p f spans = s.count (Pg.SLICE (p / 4) + SLICE.LINE_CTL_ERR) := by
  have : (!f.fcsOk || !f.pcsOk || !(s.badLanes spans).isEmpty) = true := by
    by_contra k
    simp only [Bool.not_eq_true, Bool.or_eq_false_iff, Bool.not_eq_false', List.isEmpty_iff] at k
    exact h ⟨k.1.1, k.1.2, k.2⟩
  simp only [Dev.lineControl, this, if_true]

theorem lineControl_intact {s : Dev} (p : Nat) {f : MacControl} {spans : List CwSpan} (h : intact s f spans) :
    s.lineControl p f spans = if f.opcode = 0x0001 ∨ f.opcode = 0x0101 then
        (s.pauseTime p f).elim ((s.count (Pg.SLICE (p / 4) + SLICE.LINE_PAUSE_RX)).raise (Pg.SLICE (p / 4)) 9)
          (((s.count (Pg.SLICE (p / 4) + SLICE.LINE_PAUSE_RX)).raise (Pg.SLICE (p / 4)) 9).setRxPause p)
      else s.count (Pg.SLICE (p / 4) + SLICE.LINE_MACCTL_RX) := by
  obtain ⟨hfcs, hpcs, hbad⟩ := h
  simp only [Dev.lineControl, hfcs, hpcs, hbad, List.isEmpty_nil, Bool.not_true, Bool.or_false, Bool.false_eq_true, if_false]
  cases s.pauseTime p f <;> rfl

/-- What a counted PAUSE or PFC frame leaves: the counter, its cause, and the flow control of the ports alone. -/
def PauseCounted (b : Nat) (s t : Dev) : Prop := t.rd (b + SLICE.LINE_PAUSE_RX) = s.rd (b + SLICE.LINE_PAUSE_RX) + 1
  ∧ t.bit (b + HDR.INT_STATUS) 9 = true ∧ Frame [.eg] (fun a => a = b + SLICE.LINE_PAUSE_RX ∨ a = b + HDR.INT_STATUS) s t

/-- The port's pause time after a PAUSE or PFC frame: the frame's where it gives one. -/
theorem lineControl_pause {s : Dev} {p : Nat} {f : MacControl} {spans : List CwSpan} (h : intact s f spans)
    (ho : f.opcode = 0x0001 ∨ f.opcode = 0x0101) : PauseCounted (Pg.SLICE (p / 4)) s (settle (s.lineControl p f spans))
      ∧ rxPause (settle (s.lineControl p f spans)) p = (s.pauseTime p f).getD (rxPause s p) := by
  set b := Pg.SLICE (p / 4) with hb
  set t := (s.count (b + SLICE.LINE_PAUSE_RX)).raise b 9 with ht
  have hcnt : t.rd (b + SLICE.LINE_PAUSE_RX) = s.rd (b + SLICE.LINE_PAUSE_RX) + 1 := by
    rw [ht, Dev.rd_raise_ne _ _ _ (by simp), Dev.rd_count_same]
    rfl
  have hint : t.bit (b + HDR.INT_STATUS) 9 = true := by
    rw [Dev.bit_def, ht, Dev.rd_raise_same]
    exact bitOf_withBit _ _ _ (by decide)
  have hframe : Frame [.eg] (fun a => a = b + SLICE.LINE_PAUSE_RX ∨ a = b + HDR.INT_STATUS) s t :=
    (Frame.count _ (.inl rfl)).trans (Frame.raise _ (.inr rfl))
  rw [lineControl_intact p h, if_pos ho]
  cases hq : s.pauseTime p f with
  | none => exact ⟨⟨(settle_rd _ _).trans hcnt, (Dev.bit_settle _ _ _).trans hint, hframe.settle⟩, by simp [rxPause]⟩
  | some q =>
    exact ⟨⟨(settle_rd _ _).trans hcnt, (Dev.bit_settle _ _ _).trans hint,
      (hframe.trans (Frame.setRxPause _ _ (by simp))).settle⟩, by simp⟩

theorem pauseTime_pause {s : Dev} {p : Nat} {f : MacControl} (h : f.opcode = 0x0001) : s.pauseTime p f =
    if bitOf (s.rd (Pg.SLICE (p / 4) + SLICE.SLICE_CFG)) 16 then some (f.times.getD 0 0).toNat else none := by
  unfold Dev.pauseTime
  extract_lets cfg
  cases bitOf cfg 16 <;> simp [h]

/-- A PFC frame pauses for the largest of the times of its enabled priorities that the port's mask holds. -/
theorem pauseTime_pfc {s : Dev} {p : Nat} {f : MacControl} (h : f.opcode = 0x0101)
    (hon : bitOf (s.rd (Pg.SLICE (p / 4) + SLICE.SLICE_CFG)) 16 = true)
    (hany : ∃ i, i < 8 ∧ f.enables.getLsbD i = true ∧ bitOf (s.rd (Pg.SLICE (p / 4) + SLICE.SLICE_CFG)) (24 + i) = true) :
    ∃ q, s.pauseTime p f = some q
      ∧ (∀ i, i < 8 → f.enables.getLsbD i = true → bitOf (s.rd (Pg.SLICE (p / 4) + SLICE.SLICE_CFG)) (24 + i) = true →
          (f.times.getD i 0).toNat ≤ q)
      ∧ ∃ i, i < 8 ∧ f.enables.getLsbD i = true ∧ bitOf (s.rd (Pg.SLICE (p / 4) + SLICE.SLICE_CFG)) (24 + i) = true
          ∧ (f.times.getD i 0).toNat = q := by
  set cfg := s.rd (Pg.SLICE (p / 4) + SLICE.SLICE_CFG) with hcfg
  set on := (List.range 8).filter (fun i => f.enables.getLsbD i && bitOf cfg (24 + i)) with hdef
  set times := on.map (fun i => (f.times.getD i 0).toNat) with htimes
  have hmem : ∀ i, i ∈ on ↔ i < 8 ∧ f.enables.getLsbD i = true ∧ bitOf cfg (24 + i) = true := by simp [hdef]
  obtain ⟨j, hj⟩ := hany
  have hne : times ≠ [] := by
    simpa [htimes] using List.ne_nil_of_mem ((hmem j).mpr hj)
  have hq : s.pauseTime p f = some (times.foldl max 0) := by
    have he : on.isEmpty = false := by simpa [htimes] using hne
    unfold Dev.pauseTime
    simp only [← hcfg, ← hdef, ← htimes, hon, h, he, Bool.not_true, Bool.false_eq_true, if_false]
    simp
  obtain ⟨top, htop⟩ := Option.ne_none_iff_exists'.mp (mt List.max?_eq_none_iff.mp hne)
  obtain ⟨hin, hle⟩ := List.max?_eq_some_iff.mp htop
  rw [List.foldl_max, htop, Option.getD_some, Nat.zero_max] at hq
  obtain ⟨i, hi, hti⟩ := List.mem_map.mp hin
  obtain ⟨hi8, hen, hmask⟩ := (hmem i).mp hi
  exact ⟨top, hq, fun k hk he hm => hle _ (List.mem_map_of_mem ((hmem k).mpr ⟨hk, he, hm⟩)), i, hi8, hen, hmask, hti⟩

theorem gives_lineControl {s : State} {p : Lane} {f : MacControl} {spans : List CwSpan} {P : Dev → Prop}
    (hr : s.d.receives p = true) (hda : f.da = 0x0180C2000001) (het : f.etherType = 0x8808)
    (h : P (settle (s.d.lineControl p f spans))) : Gives (.lineMacControlFrame p f spans) s P := by
  refine gives_run rfl ?_
  simpa only [hr, hda, het, beq_self_eq_true, Bool.and_self, if_true] using h

theorem gives_lineControl_ignored {s : State} {p : Lane} {f : MacControl} {spans : List CwSpan}
    (h : s.d.receives p = false ∨ f.da ≠ 0x0180C2000001 ∨ f.etherType ≠ 0x8808) :
    Gives (.lineMacControlFrame p f spans) s (Frame [] (fun _ => False) s.d) := by
  have hno : (s.d.receives p && f.da == 0x0180C2000001 && f.etherType == 0x8808) = false := by
    rcases h with h | h | h
    · rw [h, Bool.false_and, Bool.false_and]
    · rw [beq_false_of_ne h, Bool.and_false, Bool.false_and]
    · rw [beq_false_of_ne h, Bool.and_false]
  refine gives_run rfl ?_
  simp only [hno, Bool.false_eq_true, if_false]
  exact (Frame.refl s.d).settle

/-- A single counter of a slice counts. -/
theorem counted_settle (s : Dev) (a : Nat) :
    Frame [] (· = a) s (settle (s.count a)) ∧ (settle (s.count a)).rd a = s.rd a + 1 :=
  ⟨(Frame.count (A := (· = a)) 1 rfl).settle, (settle_rd _ _).trans (Dev.rd_count_same s a 1)⟩

theorem gives_linePauseExpiry (s : State) (p : Lane) : Gives (.linePauseExpiry p) s (fun t => rxPause t p = 0
    ∧ (∀ q, q ≠ p.val → rxPause t q = rxPause s.d q) ∧ Frame [.eg] (fun _ => False) s.d t) :=
  gives_run (f := fun d => d.setRxPause p 0) rfl ⟨by simp, fun q hq => by rw [rxPause_settle, rxPause_setRxPause_ne _ _ hq],
    (Frame.setRxPause _ _ (by simp)).settle⟩

/-! ### The obligations -/

/-- Settles O25: each write by the branch that its value and the lanes' state select, each frame by what it is. -/
theorem slicesAndLinePause : Obligations.SlicesAndLinePause := by
  unfold Obligations.SlicesAndLinePause
  refine ⟨fun s m i v => ?_, fun s p f spans => ?_⟩
  · intro b fits layout rate lacks tight good
    have hbad : s.d.sliceCfgBad i v = true ↔ 4 < layout ∨ ∃ q, q < 4 ∧ (lacks q ∨ tight q) := sliceCfgBad_iff s.d i v
    have hgood : good → s.d.sliceCfgBad i v = false := fun ⟨hl, hq⟩ => by
      rw [← Bool.not_eq_true, hbad]
      rintro (h | ⟨q, h4, h | h⟩)
      · omega
      · exact (hq q h4).1 h
      · exact (hq q h4).2 h
    have hrate : rate = 0 ∨ rate = 3 → ¬ (rate = 1 ∨ rate = 2) := by omega
    have hhost : layout ≤ 4 → (rate = 1 ∨ rate = 2) → fits (s.d.rd (b + SLICE.LP_MAP)) layout → ¬ hostCfgBad s.d i v := by
      rintro hl hr hf (h | h | h)
      · exact absurd h (Nat.not_lt.mpr hl)
      · exact h hr
      · exact (mapFits_eq_false_iff _ _).mp h hf
    refine ⟨fun ha => ⟨fun h => gives_sliceCfg_malformed ha (hbad.mpr h), fun h => gives_sliceCfg_busy ha (hgood h),
      fun h => gives_sliceCfg_taken ha (hgood h)⟩, fun ha => ⟨?_, fun hl hr hf => gives_hostCfg_busy ha (hhost hl hr hf),
      fun hl hr hf => gives_hostCfg_taken ha (hhost hl hr hf)⟩, fun ha => ⟨fun h => ?_, fun h => ?_, fun h => ?_⟩⟩
    · rintro (h | h | h | h)
      · exact gives_hostCfg_malformed ha (.inl h)
      · exact gives_hostCfg_malformed ha (.inr (.inl (hrate (.inl h))))
      · exact gives_hostCfg_malformed ha (.inr (.inl (hrate (.inr h))))
      · exact gives_hostCfg_malformed ha (.inr (.inr ((mapFits_eq_false_iff _ _).mpr h)))
    · exact gives_lpMap_malformed ha ((mapFits_eq_false_iff _ _).mpr h)
    · exact gives_lpMap_busy ha ((mapFits_iff _ _).mpr h)
    · exact gives_lpMap_taken ha ((mapFits_iff _ _).mpr h)
  · intro b cfg good pause counted
    refine ⟨fun hr hda het => ⟨fun hg ho => ?_, fun hg ho hon hany => ?_, fun hg h1 h2 => ?_, fun hg => ?_⟩,
      gives_lineControl_ignored, ?_⟩
    · obtain ⟨hcnt, hp⟩ := lineControl_pause (p := p) hg (.inl ho)
      refine gives_lineControl hr hda het ⟨hcnt, hp.trans ?_⟩
      rw [pauseTime_pause ho]
      exact (apply_ite (Option.getD · _) _ _ _).trans rfl
    · obtain ⟨hcnt, hp⟩ := lineControl_pause (p := p) hg (.inr ho)
      obtain ⟨q, hq, hle, hin⟩ := pauseTime_pfc ho hon hany
      rw [hq, Option.getD_some] at hp
      subst hp
      exact gives_lineControl hr hda het ⟨hcnt, hle, hin⟩
    · refine gives_lineControl hr hda het ?_
      rw [lineControl_intact p hg, if_neg (not_or.mpr ⟨h1, h2⟩)]
      exact counted_settle _ _
    · refine gives_lineControl hr hda het ?_
      rw [lineControl_errored p hg]
      exact counted_settle _ _
    · obtain ⟨t, ht, hpend, hzero, -, hframe⟩ := gives_linePauseExpiry s p
      exact ⟨t, ht, hpend, hzero, hframe⟩

theorem sliceOff_of_lanes_off {s : Dev} {sl : Nat}
    (h : ∀ q, q < 4 → s.rxState (4 * sl + q) = 0 ∧ s.txState (4 * sl + q) = 0 ∧ s.hostState (4 * sl + q) = 0) :
    s.sliceOff sl = true :=
  List.all_eq_true.mpr fun q hq => by
    obtain ⟨hrx, htx, hhost⟩ := h q (List.mem_range.mp hq)
    rw [hrx, htx, hhost]
    rfl

/-- Settles O26: the writes that O25's branches take, and the frame that its first branch counts. -/
theorem sliceAndPauseCompletion : Obligations.SliceAndPauseCompletion := by
  unfold Obligations.SliceAndPauseCompletion
  intro s m i v p f spans b c off width
  refine ⟨fun ha ho hl hq => ?_, fun ha ho hl hr hf => ?_, fun ha ho hf => ?_, ?_, gives_linePauseExpiry s p⟩
  · refine gives_sliceCfg_taken ha ?_ (sliceOff_of_lanes_off ho)
    rw [← Bool.not_eq_true, sliceCfgBad_iff]
    rintro (h | ⟨q, h4, ⟨hon, hw⟩ | ⟨hw, hx⟩⟩)
    · omega
    · exact (hq q h4).1 hon hw
    · exact absurd ((hq q h4).2 hw) (Nat.not_le.mpr hx)
  · refine gives_hostCfg_taken ha ?_ (sliceOff_of_lanes_off ho)
    rintro (h | h | h)
    · omega
    · exact h hr
    · exact (mapFits_eq_false_iff _ _).mp h hf
  · exact gives_lpMap_taken ha ((mapFits_iff _ _).mpr hf) (sliceOff_of_lanes_off ho)
  · intro hon hlanes hheld hvigil hdue hda het hop hfcs hpcs hbad
    have hall : (s.d.lpLanes p).all (fun n => s.d.rxState n == 3) = true :=
      List.all_eq_true.mpr fun n hn => beq_iff_eq.mpr (hlanes n hn)
    have hr : s.d.receives p = true := by
      simp [Dev.receives, hon, hall, hheld, hvigil, hdue]
    obtain ⟨⟨hcnt, hint, -⟩, hpause⟩ := lineControl_pause (p := p) (spans := spans) ⟨hfcs, hpcs, hbad⟩ (.inl hop)
    refine gives_lineControl hr hda het ⟨hcnt, hint, fun h16 => hpause.trans ?_⟩
    have h16 : bitOf (s.d.rd (Pg.SLICE (p / 4) + SLICE.SLICE_CFG)) 16 = true := h16
    rw [pauseTime_pause hop, if_pos h16, Option.getD_some]

end Sys2Proof
end

