-- ==== Sys2Proof/Proofs/Modules.lean ====
section
/-! Pluggable modules: their states, polls and isolation, and the host's transactions with them (11, R334 to R340). -/

namespace Sys2Proof

open Machine

/-! ### Runs of registers, and words as bytes -/

namespace Machine.Dev

theorem rd_wrWords_ne (s : Dev) (a : Nat) (l : List Word) {b : Nat} (h : ∀ k, k < l.length → b ≠ a + 4 * k) :
    (s.wrWords a l).rd b = s.rd b := by
  induction l generalizing s a with
  | nil => rfl
  | cons w r ih =>
    have hr : ∀ k, k < r.length → b ≠ a + 4 + 4 * k := fun k hk => by
      have := h (k + 1) (by simpa using hk)
      omega
    rw [wrWords, ih _ _ hr, rd_wr_ne _ _ _ (by simpa using h 0 (by simp))]

/-- Registers written word by word read as the words. -/
theorem rdWords_wrWords (s : Dev) (a : Nat) (l : List Word) : (s.wrWords a l).rdWords a l.length = l := by
  induction l generalizing s a with
  | nil => rfl
  | cons w r ih =>
    have hfirst : (s.wrWords a (w :: r)).rd (a + 4 * 0) = w := by
      rw [wrWords, rd_wrWords_ne _ _ _ (fun k _ => by omega)]
      exact rd_wr_same _ _ _
    have hrest : ∀ k, (s.wrWords a (w :: r)).rd (a + 4 * (k + 1)) = ((s.wr a w).wrWords (a + 4) r).rd (a + 4 + 4 * k) :=
      fun k => by rw [wrWords]; congr 1; omega
    rw [List.length_cons, rdWords, List.range_succ_eq_map, List.map_cons, hfirst, List.map_map]
    exact congrArg (w :: ·) ((List.map_congr_left fun k _ => hrest k).trans (ih (s.wr a w) (a + 4)))

/-- Registers that read alike one by one read alike in a row. -/
theorem rdWords_congr {s t : Dev} {a n : Nat} (h : ∀ k, k < n → t.rd (a + 4 * k) = s.rd (a + 4 * k)) :
    t.rdWords a n = s.rdWords a n :=
  List.map_congr_left fun k hk => h k (List.mem_range.mp hk)

end Machine.Dev

theorem natBE_append_singleton (l : List Byte) (b : Byte) : natBE (l ++ [b]) = natBE l * 256 + b.toNat := by
  simp [natBE]

theorem natBE_lt (l : List Byte) : natBE l < 256 ^ l.length := by
  induction l using List.reverseRecOn with
  | nil => simp [natBE]
  | append_singleton l b ih =>
    have := b.isLt
    rw [natBE_append_singleton, List.length_append, List.length_singleton, pow_succ]
    omega

/-- A number's bytes are those it was made of. -/
theorem bytesBE_natBE (l : List Byte) : bytesBE l.length (natBE l) = l := by
  induction l using List.reverseRecOn with
  | nil => rfl
  | append_singleton l b ih =>
    have hb := b.isLt
    have hlow : BitVec.ofNat 8 (natBE l * 256 + b.toNat) = b := by
      apply BitVec.eq_of_toNat_eq
      rw [BitVec.toNat_ofNat]
      omega
    have hhigh : (natBE l * 256 + b.toNat) / 256 = natBE l := by omega
    rw [bytesBE] at ih
    rw [natBE_append_singleton, List.length_append, List.length_singleton, bytesBE, bytesLE, hlow, hhigh, List.reverse_cons, ih]

theorem wordBytesBE_wordBE (l : List Byte) (k : Nat) : wordBytesBE (wordBE l k) = slice l (4 * k) 4 := by
  have hlen : (slice l (4 * k) 4).length = 4 := slice_length _ _ _
  have hlt := natBE_lt (slice l (4 * k) 4)
  rw [hlen] at hlt
  rw [wordBytesBE, wordBE, BitVec.toNat_ofNat, Nat.mod_eq_of_lt (by simpa using hlt)]
  exact hlen ▸ bytesBE_natBE (slice l (4 * k) 4)

theorem slice_append_slice (l : List Byte) (off n k : Nat) : slice l off n ++ slice l (off + n) k = slice l off (n + k) := by
  simp [slice, List.range_add, Nat.add_assoc]

/-- The bytes of a string's words, one after another, are the string's. -/
theorem flatMap_wordBytesBE (l : List Byte) (n : Nat) :
    ((List.range n).map (wordBE l)).flatMap wordBytesBE = slice l 0 (4 * n) := by
  induction n with
  | zero => rfl
  | succ n ih =>
    rw [List.range_succ, List.map_append, List.flatMap_append, ih, List.map_singleton, List.flatMap_singleton,
      wordBytesBE_wordBE, Nat.mul_succ, ← slice_append_slice, Nat.zero_add]

theorem slice_getD (l : List Byte) (off n : Nat) {j : Nat} (h : j < n) : (slice l off n).getD j 0 = l.getD (off + j) 0 := by
  simp [slice, List.getD_eq_getElem?_getD, h]

/-- The fault block has the first page of the map. -/
theorem OnTypes.lt_of_device {a : Nat} (h : OnTypes [.device] a) : a < 0x1000 := by
  obtain ⟨r, hr, ht⟩ := h
  have hrow : ∀ r ∈ pageIndex, r.type ∈ [PageType.device] → r.first + r.count = 1 := by decide
  have hone := hrow r (List.mem_of_find?_eq_some hr) ht
  have hin := List.find?_some hr
  simp only [Bool.and_eq_true, decide_eq_true_eq] at hin
  omega

/-! ### Causes of a page stay set -/

/-- No cause of a page has been cleared. -/
def FlagsKept (b : Nat) (s t : Dev) : Prop :=
  ∀ i, s.bit (b + HDR.INT_STATUS) i = true → t.bit (b + HDR.INT_STATUS) i = true

namespace FlagsKept

variable {b : Nat} {s t u : Dev}

theorem trans (h : FlagsKept b s t) (k : FlagsKept b t u) : FlagsKept b s u := fun i hi => k i (h i hi)

theorem of_rd (h : t.rd (b + HDR.INT_STATUS) = s.rd (b + HDR.INT_STATUS)) : FlagsKept b s t := fun i hi => by
  rwa [Dev.bit_def, h]

theorem raise (s : Dev) (b c : Nat) : FlagsKept b s (s.raise b c) := fun i hi => by
  rw [Dev.bit_def, Dev.rd_raise_same]
  by_cases h : i = c
  · subst h
    refine bitOf_withBit _ _ _ ?_
    by_contra hlt
    have : s.bit (b + HDR.INT_STATUS) i = false := BitVec.getLsbD_of_ge _ _ (by omega)
    exact absurd hi (by simp [this])
  · rwa [bitOf_withBit_ne _ _ _ _ h]

end FlagsKept

theorem Machine.Dev.bit_raise_same (s : Dev) (b : Nat) {c : Nat} (h : c < 32) : (s.raise b c).bit (b + HDR.INT_STATUS) c = true := by
  rw [Dev.bit_def, Dev.rd_raise_same, bitOf_withBit _ _ _ h]

/-! ### Updates of a module port -/

namespace Machine.Dev

variable (s : Dev) (n : Nat)

@[simp] theorem mmState_setMmo (v : Module) : (s.setMmo n v).mmState n = s.mmState n := rfl
@[simp] theorem fld_setMmo (v : Module) (a lo len : Nat) : (s.setMmo n v).fld a lo len = s.fld a lo len := rfl
@[simp] theorem mmState_settle : (settle s).mmState n = s.mmState n := fld_settle _ _ _ _
@[simp] theorem mmo_settle : (settle s).mmo n = s.mmo n := by simp [mmo]

theorem mmo_of_mm {s t : Dev} (h : t.mm = s.mm) : t.mmo n = s.mmo n := by rw [mmo, h, mmo]
theorem mmState_of_rd {s t : Dev} (h : t.rd (Pg.MM n + MM.MM_STATE) = s.rd (Pg.MM n + MM.MM_STATE)) : t.mmState n = s.mmState n :=
  congrArg (fieldOf · 0 4) h

@[simp] theorem mmo_raise (b c k : Nat) : (s.raise b c).mmo k = s.mmo k := mmo_of_mm k (by simp)
@[simp] theorem mmo_count (a i k : Nat) : (s.count a i).mmo k = s.mmo k := mmo_of_mm k (by simp)

theorem rd_setMm_ne (st : Nat) {a : Nat} (h : a ≠ Pg.MM n + MM.MM_STATE) (h' : a ≠ Pg.MM n + HDR.INT_STATUS) :
    (s.setMm n st).rd a = s.rd a := by
  rw [setMm, rd_raise_ne _ _ _ h', rd_setF_ne _ _ _ _ _ h, rd_setF_ne _ _ _ _ _ h]

theorem rd_setMm_state (st : Nat) : (s.setMm n st).rd (Pg.MM n + MM.MM_STATE)
    = withField (withField (s.rd (Pg.MM n + MM.MM_STATE)) 4 4 (s.mmState n)) 0 4 st := by
  rw [setMm, rd_raise_ne _ _ _ (by simp), rd_setF_same, rd_setF_same]

@[simp] theorem mmState_setMm {st : Nat} (h : st < 16) : (s.setMm n st).mmState n = st := by
  rw [mmState, fld, rd_setMm_state, fieldOf_withField _ _ _ _ (by decide)]
  exact Nat.mod_eq_of_lt h

/-- What `MM_STATE` shows beside the state stays. -/
theorem fld_setMm (st : Nat) {lo : Nat} (len : Nat) (h : 8 ≤ lo) :
    (s.setMm n st).fld (Pg.MM n + MM.MM_STATE) lo len = s.fld (Pg.MM n + MM.MM_STATE) lo len := by
  rw [fld, rd_setMm_state, fieldOf_withField_ne _ _ _ _ _ _ (by omega), fieldOf_withField_ne _ _ _ _ _ _ (by omega)]
  rfl

theorem bit_setMm (st : Nat) {i : Nat} (h : 8 ≤ i) :
    (s.setMm n st).bit (Pg.MM n + MM.MM_STATE) i = s.bit (Pg.MM n + MM.MM_STATE) i := by
  rw [bit, rd_setMm_state, bitOf_withField_ne _ _ _ _ _ (by omega), bitOf_withField_ne _ _ _ _ _ (by omega)]
  rfl

/-- A change of state is flagged. -/
theorem bit_setMm_flag (st : Nat) : (s.setMm n st).bit (Pg.MM n + HDR.INT_STATUS) 8 = true := bit_raise_same _ _ (by decide)

theorem flagsKept_setMm (st : Nat) : FlagsKept (Pg.MM n) s (s.setMm n st) :=
  (FlagsKept.of_rd ((rd_setF_ne _ _ _ _ _ (by simp)).trans (rd_setF_ne _ _ _ _ _ (by simp)))).trans (.raise _ _ _)

/-- A fault record leaves every page but the fault block's alone. -/
theorem rd_logFault {c : Nat} (hc : c < 16) (i : Nat) (p : Option Nat) (b : Bool) (u o : Nat) {a : Nat} (ha : 0x1000 ≤ a) :
    (s.logFault c i p b u o).rd a = s.rd a :=
  (Frame.logFault (ps := [.log]) (A := (· < 0x1000)) hc _ _ _ _ _ (by simp) fun _ h => h.lt_of_device).1 a (Nat.not_lt.mpr ha)

/-! ### Isolation (R337) -/

/-- The registers of a port that its isolation writes beside the fault block's. -/
def IsolateRegs (n a : Nat) : Prop := a < 0x1000 ∨ a = Pg.MM n + MM.MM_STATE ∨ a = Pg.MM n + HDR.INT_STATUS
  ∨ a = Pg.MM n + MM.ISOLATIONS ∨ a = Pg.MM n + MM.XFER_STATUS

theorem not_isolateRegs {off : Nat}
    (h : off ≠ MM.MM_STATE ∧ off ≠ HDR.INT_STATUS ∧ off ≠ MM.ISOLATIONS ∧ off ≠ MM.XFER_STATUS) :
    ¬ IsolateRegs n (Pg.MM n + off) := by
  obtain ⟨hst, hint, hiso, hx⟩ := h
  rintro (k | k | k | k | k)
  · simp only [Pg.MM] at k; omega
  · exact hst (Nat.add_left_cancel k)
  · exact hint (Nat.add_left_cancel k)
  · exact hiso (Nat.add_left_cancel k)
  · exact hx (Nat.add_left_cancel k)

/-- The registers as an isolation leaves them, before its fault record. -/
def isolated (s : Dev) (n cause : Nat) : Dev :=
  ((((s.setMm n 8).setF (Pg.MM n + MM.MM_STATE) 16 4 cause).count (Pg.MM n + MM.ISOLATIONS)).raise (Pg.MM n) 9).setB
    (Pg.MM n + MM.XFER_STATUS) 29 false

theorem mmIsolate_eq (cause : Nat) : s.mmIsolate n cause =
    if 2 ≤ s.mmState n ∧ s.mmState n ≤ 7 then (s.isolated n cause).logFault 14 60 (some n) false n 2 else s := rfl

theorem mmIsolate_frame (cause : Nat) : Frame [.log] (IsolateRegs n) s (s.mmIsolate n cause) := by
  have hst : IsolateRegs n (Pg.MM n + MM.MM_STATE) := .inr (.inl rfl)
  have hint : IsolateRegs n (Pg.MM n + HDR.INT_STATUS) := .inr (.inr (.inl rfl))
  have hset : Frame [.log] (IsolateRegs n) s (s.setMm n 8) :=
    ((Frame.setF _ _ _ hst).trans (Frame.setF _ _ _ hst)).trans (Frame.raise _ hint)
  exact Frame.ite (((((hset.trans (Frame.setF _ _ _ hst)).trans (Frame.count _ (.inr (.inr (.inr (.inl rfl)))))).trans
    (Frame.raise _ hint)).trans (Frame.setB _ _ (.inr (.inr (.inr (.inr rfl)))))).trans
    (Frame.logFault (by decide) _ _ _ _ _ (by simp) fun _ h => .inl h.lt_of_device)) (Frame.refl s)

@[simp] theorem mmo_mmIsolate (cause k : Nat) : (s.mmIsolate n cause).mmo k = s.mmo k :=
  mmo_of_mm k ((s.mmIsolate_frame n cause).2 .mm (by decide))

theorem rd_isolated (cause : Nat) {off : Nat} (h : off ≠ HDR.INT_STATUS) (h' : off ≠ MM.XFER_STATUS) :
    (s.isolated n cause).rd (Pg.MM n + off)
      = (((s.setMm n 8).setF (Pg.MM n + MM.MM_STATE) 16 4 cause).count (Pg.MM n + MM.ISOLATIONS)).rd (Pg.MM n + off) := by
  rw [isolated, rd_setB_ne _ _ _ _ (by simpa using h'), rd_raise_ne _ _ _ (by simpa using h)]

/-- A port that can be isolated is, under its cause, and counted. -/
theorem mmIsolate_spec {cause : Nat} (hc : cause < 16) (h : 2 ≤ s.mmState n) (h' : s.mmState n ≤ 7) :
    (s.mmIsolate n cause).mmState n = 8 ∧ (s.mmIsolate n cause).fld (Pg.MM n + MM.MM_STATE) 16 4 = cause
      ∧ (s.mmIsolate n cause).rd (Pg.MM n + MM.ISOLATIONS) = s.rd (Pg.MM n + MM.ISOLATIONS) + 1 := by
  have hlog : ∀ off, (s.mmIsolate n cause).rd (Pg.MM n + off) = (s.isolated n cause).rd (Pg.MM n + off) := fun off => by
    rw [mmIsolate_eq, if_pos ⟨h, h'⟩, rd_logFault _ (by decide) _ _ _ _ _ (by simp only [Pg.MM]; omega)]
  have hst : (s.mmIsolate n cause).rd (Pg.MM n + MM.MM_STATE)
      = withField ((s.setMm n 8).rd (Pg.MM n + MM.MM_STATE)) 16 4 cause := by
    rw [hlog, rd_isolated _ _ _ (by decide) (by decide), rd_count_ne _ _ _ (by simp), rd_setF_same]
  refine ⟨?_, ?_, ?_⟩
  · rw [mmState, fld, hst, fieldOf_withField_ne _ _ _ _ _ _ (by decide)]
    exact mmState_setMm s n (by decide)
  · rw [fld, hst, fieldOf_withField _ _ _ _ (by decide)]
    exact Nat.mod_eq_of_lt hc
  · rw [hlog, rd_isolated _ _ _ (by decide) (by decide), rd_count_same, rd_setF_ne _ _ _ _ _ (by simp),
      rd_setMm_ne _ _ _ (by simp) (by simp)]
    rfl

/-- The transaction register after an isolation: unchanged when no transaction runs. -/
theorem rd_mmIsolate_xfer {cause : Nat} (h : s.xferBusy n = false) :
    (s.mmIsolate n cause).rd (Pg.MM n + MM.XFER_STATUS) = s.rd (Pg.MM n + MM.XFER_STATUS) := by
  rw [mmIsolate_eq]
  split
  · rw [rd_logFault _ (by decide) _ _ _ _ _ (by simp only [Pg.MM]; omega), isolated, rd_setB_same, rd_raise_ne _ _ _ (by simp),
      rd_count_ne _ _ _ (by simp), rd_setF_ne _ _ _ _ _ (by simp), rd_setMm_ne _ _ _ (by simp) (by simp)]
    refine BitVec.eq_of_getLsbD_eq fun i _ => ?_
    by_cases hi : i = 29
    · subst hi
      exact (bitOf_withBit _ _ _ (by decide)).trans h.symm
    · exact bitOf_withBit_ne _ _ _ _ hi
  · rfl

theorem flagsKept_mmIsolate (cause : Nat) : FlagsKept (Pg.MM n) s (s.mmIsolate n cause) := by
  rw [mmIsolate_eq]
  split
  · have hcnt : FlagsKept (Pg.MM n) (s.setMm n 8) (((s.setMm n 8).setF (Pg.MM n + MM.MM_STATE) 16 4 cause).count
        (Pg.MM n + MM.ISOLATIONS)) := .of_rd ((rd_count_ne _ _ _ (by simp)).trans (rd_setF_ne _ _ _ _ _ (by simp)))
    have hset : FlagsKept (Pg.MM n) s (s.isolated n cause) :=
      (((s.flagsKept_setMm n 8).trans hcnt).trans (.raise _ _ 9)).trans (.of_rd (rd_setB_ne _ _ _ _ (by simp)))
    exact hset.trans (.of_rd (rd_logFault _ (by decide) _ _ _ _ _ (by simp only [Pg.MM]; omega)))
  · exact .of_rd rfl

/-- Isolation needs the count of `POLL_CFG`, which 0 never reaches (R70). -/
theorem isoReached_iff (k : Nat) : s.isoReached n k = true ↔
    0 < s.fld (Pg.MM n + MM.POLL_CFG) 16 8 ∧ s.fld (Pg.MM n + MM.POLL_CFG) 16 8 ≤ k := by
  simp [isoReached]

theorem isoReached_of_rd {s t : Dev} (h : t.rd (Pg.MM n + MM.POLL_CFG) = s.rd (Pg.MM n + MM.POLL_CFG)) (k : Nat) :
    t.isoReached n k = s.isoReached n k := by
  rw [Bool.eq_iff_iff, isoReached_iff, isoReached_iff, fld, h]
  rfl

/-! ### Polls (R334 to R337) -/

theorem mmPolls_iff : s.mmPolls n = true ↔
    2 ≤ s.mmState n ∧ s.mmState n ≤ 7 ∧ s.isl.mcDown = false ∧ s.lineSafe n = false := by
  simp [mmPolls, and_assoc]

/-- A poll begins: the extra one requested is this, and it is counted. -/
def pollBegun (s : Dev) (n : Nat) : Dev := (s.setMmo n { s.mmo n with extra := false }).count (Pg.MM n + MM.XFERS)

theorem rd_pollBegun_ne {a : Nat} (h : a ≠ Pg.MM n + MM.XFERS) : (s.pollBegun n).rd a = s.rd a := rd_count_ne _ _ _ h

theorem rd_pollBegun_xfers : (s.pollBegun n).rd (Pg.MM n + MM.XFERS) = s.rd (Pg.MM n + MM.XFERS) + 1 := rd_count_same _ _ _

@[simp] theorem mmState_pollBegun : (s.pollBegun n).mmState n = s.mmState n :=
  mmState_of_rd n (rd_pollBegun_ne s n (by simp))

@[simp] theorem mmo_pollBegun : (s.pollBegun n).mmo n = { s.mmo n with extra := false } := mmo_setMmo_same _ _ _

section
variable {s n} {p : ModulePoll} (h : s.mmPolls n = true) (hr : (s.mmo n).recover = false) (hs : p.sdaLow = false)
include h hr hs

theorem mmPoll_ok (hp : p.result = .ok) : s.mmPoll n p = (s.pollBegun n).mmPolled n p := by
  simp only [mmPoll, h, hr, hs, hp, if_true, Bool.or_self, Bool.false_eq_true, if_false, pollBegun]

theorem mmPoll_stuck (hp : p.result = .stuck) : s.mmPoll n p = ((s.pollBegun n).busRecover n).mmIsolate n 3 := by
  simp only [mmPoll, h, hr, hs, hp, if_true, Bool.or_self, Bool.false_eq_true, if_false, pollBegun]

theorem mmPoll_nackAddr (hp : p.result = .nackAddr) (hst : s.mmState n ≠ 2) :
    s.mmPoll n p = ((s.pollBegun n).count (Pg.MM n + MM.NACKS)).mmTally n true false := by
  simp only [mmPoll, h, hr, hs, hp, hst, if_true, Bool.or_self, Bool.false_eq_true, if_false, pollBegun]

end

theorem mmPoll_idle {p : ModulePoll} (h : s.mmPolls n = false) : s.mmPoll n p = s := by
  simp only [mmPoll, h, Bool.false_eq_true, if_false]

/-- A module's counts after a transaction that ended neither with an address NACK nor with STRETCH. -/
theorem mmTally_plain : s.mmTally n false false = s.setMmo n { s.mmo n with nacks := 0, stretches := 0 } := rfl

theorem mmTally_nack : s.mmTally n true false =
    if s.isoReached n ((s.mmo n).nacks + 1) then
      (s.setMmo n { s.mmo n with nacks := (s.mmo n).nacks + 1, stretches := 0 }).mmIsolate n 1
    else s.setMmo n { s.mmo n with nacks := (s.mmo n).nacks + 1, stretches := 0 } := by
  simp [mmTally]

theorem mmTally_stretch : s.mmTally n false true =
    if s.isoReached n ((s.mmo n).stretches + 1) then
      (s.setMmo n { s.mmo n with nacks := 0, stretches := (s.mmo n).stretches + 1 }).mmIsolate n 2
    else s.setMmo n { s.mmo n with nacks := 0, stretches := (s.mmo n).stretches + 1 } := by
  simp [mmTally]

/-- The first acknowledged poll of an inserted module. -/
theorem mmPolled_inserted {p : ModulePoll} (h : s.mmState n = 2) :
    (s.mmPolled n p).mmState n = 3 ∧ (s.mmPolled n p).fld (Pg.MM n + MM.MM_STATE) 12 3 = Poll.state p
      ∧ ∀ off, off ≠ MM.MM_STATE → off ≠ HDR.INT_STATUS → (s.mmPolled n p).rd (Pg.MM n + off) = s.rd (Pg.MM n + off) := by
  set t := (s.setF (Pg.MM n + MM.MM_STATE) 12 3 (Poll.state p)).setB (Pg.MM n + MM.MM_STATE) 9 p.intLow with ht
  obtain ⟨v, w, hv⟩ : ∃ v w, s.mmPolled n p = ((t.setMmo n v).setMmo n w).setMm n 3 := by
    simp only [mmPolled, mmTally_plain, h, Nat.reduceLeDiff, decide_false, Bool.false_and, Bool.false_eq_true, if_false, if_true]
    exact ⟨_, _, rfl⟩
  have hcode : Poll.state p < 2 ^ 3 := Nat.mod_lt _ (by decide)
  rw [hv]
  refine ⟨mmState_setMm _ _ (by decide), ?_, fun off h1 h2 => ?_⟩
  · rw [fld_setMm _ _ _ _ (by decide), fld_setMmo, fld_setMmo, fld, ht, rd_setB_same, fieldOf_withBit_ne _ _ _ _ _ (by decide),
      rd_setF_same, fieldOf_withField _ _ _ _ (by decide), Nat.mod_eq_of_lt hcode]
  · rw [rd_setMm_ne _ _ _ (by simpa using h1) (by simpa using h2), rd_setMmo, rd_setMmo, ht, rd_setB_ne _ _ _ _ (by simpa using h1),
      rd_setF_ne _ _ _ _ _ (by simpa using h1)]

/-- An address NACK counts, and isolates the port once enough have come in a row (R70, R337). -/
theorem mmTally_nack_spec (h : 2 ≤ s.mmState n) (h' : s.mmState n ≤ 7) :
    ((s.mmTally n true false).mmo n).nacks = (s.mmo n).nacks + 1
      ∧ (∀ off, off ≠ MM.MM_STATE → off ≠ HDR.INT_STATUS → off ≠ MM.ISOLATIONS → off ≠ MM.XFER_STATUS →
          (s.mmTally n true false).rd (Pg.MM n + off) = s.rd (Pg.MM n + off))
      ∧ (if s.isoReached n ((s.mmo n).nacks + 1) then
          (s.mmTally n true false).mmState n = 8 ∧ (s.mmTally n true false).fld (Pg.MM n + MM.MM_STATE) 16 4 = 1
        else (s.mmTally n true false).mmState n = s.mmState n) := by
  rw [mmTally_nack]
  set u := s.setMmo n { s.mmo n with nacks := (s.mmo n).nacks + 1, stretches := 0 } with hu
  have hn : (u.mmo n).nacks = (s.mmo n).nacks + 1 := by rw [hu, mmo_setMmo_same]
  split
  · obtain ⟨hst, hcause, -⟩ := u.mmIsolate_spec n (cause := 1) (by decide) h h'
    exact ⟨by rw [mmo_mmIsolate, hn], fun off h1 h2 h3 h4 => (u.mmIsolate_frame n 1).1 _ (not_isolateRegs n ⟨h1, h2, h3, h4⟩),
      hst, hcause⟩
  · exact ⟨hn, fun _ _ _ _ _ => rfl, rfl⟩

/-! ### A port that follows its configuration (R336, R340) -/

/-- A port's configuration changes its module, its state with it, or nothing. -/
theorem mmConfig_cases : s.mmConfig n = s ∨ (∃ v, s.mmConfig n = s.setMmo n v)
    ∨ ∃ st v, s.mmConfig n = (s.setMm n st).setMmo n v := by
  have hpins : ∀ u : Dev, ∃ v, u.mmRawPins n = u.setMmo n v := fun u => by
    unfold mmRawPins
    split <;> exact ⟨_, rfl⟩
  unfold mmConfig
  extract_lets st
  split
  · split
    · exact .inl rfl
    · exact .inr (.inr ⟨0, _, rfl⟩)
  · split
    · exact .inl rfl
    · split
      · split
        · exact .inr (.inl (hpins s))
        · exact .inr (.inr ⟨9, hpins (s.setMm n 9)⟩)
      · split
        · exact .inr (.inr ⟨1, _, rfl⟩)
        · exact .inl rfl

/-- It leaves the other registers of the port alone, and every cause set. -/
theorem mmConfig_keeps : FlagsKept (Pg.MM n) s (s.mmConfig n)
    ∧ ∀ off, off ≠ MM.MM_STATE → off ≠ HDR.INT_STATUS → (s.mmConfig n).rd (Pg.MM n + off) = s.rd (Pg.MM n + off) := by
  rcases s.mmConfig_cases n with h | ⟨v, h⟩ | ⟨st, v, h⟩ <;> rw [h]
  · exact ⟨.of_rd rfl, fun _ _ _ => rfl⟩
  · exact ⟨.of_rd rfl, fun _ _ _ => rfl⟩
  · exact ⟨(s.flagsKept_setMm n st).trans (.of_rd rfl), fun off h1 h2 =>
      (rd_setMmo _ _ _ _).trans (rd_setMm_ne _ _ _ (by simpa using h1) (by simpa using h2))⟩

/-- A port whose state fits its configuration keeps its module's counts. -/
theorem stretches_mmConfig (hon : s.lpOn n = true) (h0 : s.mmState n ≠ 0) (hraw : s.mmRaw n = true ↔ s.mmState n = 9) :
    ((s.mmConfig n).mmo n).stretches = (s.mmo n).stretches := by
  have hpins : ((s.mmRawPins n).mmo n).stretches = (s.mmo n).stretches := by
    unfold mmRawPins
    split <;> rw [mmo_setMmo_same]
  unfold mmConfig
  extract_lets st
  rw [if_neg (by simp [hon])]
  split
  · rfl
  · split
    · next hr => rwa [if_pos (hraw.mp hr)]
    · next hr => rw [if_neg (not_or.mpr ⟨h0, fun h9 => hr (hraw.mpr h9)⟩)]

/-! ### Transactions (R338, R339) -/

/-- A transaction has ended with a result and a number of bytes, and is flagged. -/
def XferEnded (t : Dev) (n r k : Nat) : Prop :=
  t.rd (Pg.MM n + MM.XFER_STATUS) = BitVec.ofNat 32 (2 ^ 31 + r * 2 ^ 16 + k) ∧ t.bit (Pg.MM n + HDR.INT_STATUS) 11 = true

theorem rd_xferEnd_ne (r k : Nat) {off : Nat} (h : off ≠ MM.XFER_STATUS) (h' : off ≠ HDR.INT_STATUS) (h'' : off ≠ MM.XFERS) :
    (s.xferEnd n r k).rd (Pg.MM n + off) = s.rd (Pg.MM n + off) := by
  rw [xferEnd, rd_count_ne _ _ _ (by simpa using h''), rd_raise_ne _ _ _ (by simpa using h'), rd_wr_ne _ _ _ (by simpa using h)]

@[simp] theorem mmo_xferEnd (r k j : Nat) : (s.xferEnd n r k).mmo j = s.mmo j :=
  mmo_of_mm j (by simp [xferEnd])

theorem xferEnded_xferEnd {r k : Nat} (hr : r ≠ 7) (hk : k < 256) : (s.xferEnd n r k).XferEnded n r k := by
  constructor
  · rw [xferEnd, rd_count_ne _ _ _ (by simp), rd_raise_ne _ _ _ (by simp), rd_wr_same, if_neg hr, Nat.mod_eq_of_lt hk, Nat.add_zero]
  · rw [bit, xferEnd, rd_count_ne _ _ _ (by simp), rd_raise_same, bitOf_withBit _ _ _ (by decide)]

variable {s n}

theorem XferEnded.of_kept {t : Dev} {r k : Nat} (h : s.XferEnded n r k)
    (hx : t.rd (Pg.MM n + MM.XFER_STATUS) = s.rd (Pg.MM n + MM.XFER_STATUS)) (hf : FlagsKept (Pg.MM n) s t) :
    t.XferEnded n r k := ⟨hx.trans h.1, hf _ h.2⟩

/-- No transaction runs on a port on which one has ended. -/
theorem XferEnded.xferBusy {r k : Nat} (h : s.XferEnded n r k) (hr : r < 8) (hk : k < 256) : s.xferBusy n = false := by
  rw [Dev.xferBusy, bit, h.1, bitOf, BitVec.getLsbD_ofNat, Nat.testBit_eq_decide_div_mod_eq]
  have : (2 ^ 31 + r * 2 ^ 16 + k) / 2 ^ 29 = 4 := by omega
  rw [this]
  rfl

/-- What follows the end of a transaction leaves its result: the tally of its outcome, and the port's configuration. -/
theorem XferEnded.mmConfig {r k : Nat} (h : s.XferEnded n r k) : (s.mmConfig n).XferEnded n r k :=
  have ⟨hf, hr⟩ := s.mmConfig_keeps n
  h.of_kept (hr _ (by decide) (by decide)) hf

theorem XferEnded.mmIsolate {r k : Nat} (h : s.XferEnded n r k) (hr : r < 8) (hk : k < 256) (cause : Nat) :
    (s.mmIsolate n cause).XferEnded n r k :=
  h.of_kept (s.rd_mmIsolate_xfer n (h.xferBusy hr hk)) (s.flagsKept_mmIsolate n cause)

theorem XferEnded.settle {r k : Nat} (h : s.XferEnded n r k) : (settle s).XferEnded n r k :=
  ⟨(settle_rd _ _).trans h.1, (bit_settle _ _ _).trans h.2⟩

section
variable (s : Dev) (n : Nat)

theorem rd_busRecover_ne {a : Nat} (h : a ≠ Pg.MM n + MM.BUS_RECOVERIES) : (s.busRecover n).rd a = s.rd a := rd_count_ne _ _ _ h

theorem rd_busRecover_recoveries :
    (s.busRecover n).rd (Pg.MM n + MM.BUS_RECOVERIES) = s.rd (Pg.MM n + MM.BUS_RECOVERIES) + 1 := rd_count_same _ _ _

@[simp] theorem mmo_busRecover : (s.busRecover n).mmo n = { s.mmo n with recover := false } := mmo_setMmo_same _ _ _

@[simp] theorem mmState_busRecover : (s.busRecover n).mmState n = s.mmState n :=
  mmState_of_rd n (rd_busRecover_ne s n (by simp))

/-- A fault of the module is its state and its record. -/
theorem mmFault_spec : (s.mmFault n).mmState n = 7 ∧ (s.mmFault n).bit (Pg.MM n + HDR.INT_STATUS) 8 = true := by
  have h : ∀ off, (s.mmFault n).rd (Pg.MM n + off) = (s.setMm n 7).rd (Pg.MM n + off) := fun off =>
    rd_logFault _ (by decide) _ _ _ _ _ (by simp only [Pg.MM]; omega)
  exact ⟨(mmState_of_rd n (h _)).trans (mmState_setMm s n (by decide)), by rw [bit, h]; exact s.bit_setMm_flag n 7⟩

/-- A module in fault or isolated is reset and identified afresh. -/
theorem mmRestart_spec (h : s.mmState n = 7 ∨ s.mmState n = 8) :
    (s.mmRestart n).mmState n = 2 ∧ ((s.mmRestart n).mmo n).resetN = true := by
  rw [mmRestart, if_pos h]
  exact ⟨(mmState_setMmo _ _ _).trans (mmState_setMm s n (by decide)), by rw [mmo_setMmo_same]⟩

end

end Machine.Dev

/-! ### What a port's events give -/

section
variable {s : State} {n : Lane}

theorem gives_moduleRemoved (he : s.d.typeE (n / 4) = false) (h : 2 ≤ s.d.mmState n) (h' : s.d.mmState n ≤ 8) :
    Gives (.moduleRemoved n) s (fun t => t.mmState n = 1 ∧ t.bit (Pg.MM n + MM.MM_STATE) 8 = false
      ∧ (t.mmo n).resetN = false ∧ (t.mmo n).lpMode = true ∧ t.bit (Pg.MM n + HDR.INT_STATUS) 12 = true) := by
  have hst : ¬ (s.d.mmState n = 0 ∨ s.d.mmState n = 1 ∨ s.d.mmState n = 9) := by omega
  refine gives_run (Eq.refl (execModuleRemoved n s)) ?_
  simp only [he, Bool.false_eq_true, if_false, if_neg hst]
  set t := s.d.setB (Pg.MM n + MM.MM_STATE) 8 false with ht
  set u := (t.setMm n 1).mmHold n with hu
  have hrd : ∀ off, off ≠ HDR.INT_STATUS → (settle (u.raise (Pg.MM n) 12)).rd (Pg.MM n + off) = (t.setMm n 1).rd (Pg.MM n + off) :=
    fun off h => (settle_rd _ _).trans (Dev.rd_raise_ne _ _ _ (by simpa using h))
  have hmmo : (settle (u.raise (Pg.MM n) 12)).mmo n = { Module.init with recover := ((t.setMm n 1).mmo n).recover } := by
    rw [Dev.mmo_settle, Dev.mmo_raise, hu, Dev.mmHold, Dev.mmo_setMmo_same]
  refine ⟨(Dev.mmState_of_rd n (hrd _ (by decide))).trans (Dev.mmState_setMm t n (by decide)), ?_, by rw [hmmo]; rfl, by rw [hmmo]; rfl,
    (Dev.bit_settle _ _ _).trans (Dev.bit_raise_same _ _ (by decide))⟩
  have hbit := t.bit_setMm n 1 (i := 8) (by decide)
  rw [Dev.bit, hrd _ (by decide)]
  refine hbit.trans ?_
  rw [ht, Dev.bit, Dev.rd_setB_same, bitOf_withBit _ _ _ (by decide)]

theorem gives_moduleInserted (he : s.d.typeE (n / 4) = false) (h : s.d.mmState n = 1) :
    Gives (.moduleInserted n) s (fun t => t.mmState n = 2 ∧ t.bit (Pg.MM n + MM.MM_STATE) 8 = true ∧ (t.mmo n).resetN = true
      ∧ t.rd (Pg.MM n + MM.INSERTIONS) = s.d.rd (Pg.MM n + MM.INSERTIONS) + 1) := by
  refine gives_run (Eq.refl (execModuleInserted n s)) ?_
  simp only [he, h, Bool.false_eq_true, if_false, if_true]
  set t := s.d.setB (Pg.MM n + MM.MM_STATE) 8 true with ht
  set u := (t.setMm n 2).setMmo n { t.mmo n with resetN := true } with hu
  have hrd : ∀ off, off ≠ MM.INSERTIONS →
      (settle (u.count (Pg.MM n + MM.INSERTIONS))).rd (Pg.MM n + off) = (t.setMm n 2).rd (Pg.MM n + off) :=
    fun off h => (settle_rd _ _).trans (Dev.rd_count_ne _ _ _ (by simpa using h))
  have hmmo : (settle (u.count (Pg.MM n + MM.INSERTIONS))).mmo n = { t.mmo n with resetN := true } := by
    rw [Dev.mmo_settle, Dev.mmo_count, hu, Dev.mmo_setMmo_same]
  refine ⟨(Dev.mmState_of_rd n (hrd _ (by decide))).trans (Dev.mmState_setMm t n (by decide)), ?_, by rw [hmmo], ?_⟩
  · have hbit := t.bit_setMm n 2 (i := 8) (by decide)
    rw [Dev.bit, hrd _ (by decide)]
    refine hbit.trans ?_
    rw [ht, Dev.bit, Dev.rd_setB_same, bitOf_withBit _ _ _ (by decide)]
  · rw [settle_rd, Dev.rd_count_same]
    refine congrArg (· + 1) ?_
    exact (Dev.rd_setMm_ne t n 2 (by simp) (by simp)).trans (Dev.rd_setB_ne _ _ _ _ (by simp))

theorem gives_modulePoll_idle (p : ModulePoll) (h : ¬ s.d.mmPolls n = true) :
    Gives (.modulePoll n p) s (Frame [] (fun _ => False) s.d) :=
  gives_run (Eq.refl (execModulePoll n p s)) (by
    rw [Dev.mmPoll_idle _ _ (by simpa using h)]
    exact (Frame.refl s.d).settle)

section
variable {p : ModulePoll} (h : s.d.mmPolls n = true) (hr : (s.d.mmo n).recover = false) (hs : p.sdaLow = false)
include h hr hs

theorem gives_modulePoll_inserted (hst : s.d.mmState n = 2) (hp : p.result = .ok) :
    Gives (.modulePoll n p) s (fun t => t.mmState n = 3 ∧ t.fld (Pg.MM n + MM.MM_STATE) 12 3 = Poll.state p
      ∧ t.rd (Pg.MM n + MM.XFERS) = s.d.rd (Pg.MM n + MM.XFERS) + 1) := by
  obtain ⟨hnew, hcode, hrest⟩ := (s.d.pollBegun n).mmPolled_inserted n (p := p) ((s.d.mmState_pollBegun n).trans hst)
  refine gives_run (Eq.refl (execModulePoll n p s)) ?_
  rw [Dev.mmPoll_ok h hr hs hp]
  exact ⟨(Dev.mmState_settle _ _).trans hnew, (Dev.fld_settle _ _ _ _).trans hcode,
    (settle_rd _ _).trans ((hrest _ (by decide) (by decide)).trans (s.d.rd_pollBegun_xfers n))⟩

theorem gives_modulePoll_nackAddr (hst : 3 ≤ s.d.mmState n) (hp : p.result = .nackAddr) :
    Gives (.modulePoll n p) s (fun t => t.rd (Pg.MM n + MM.NACKS) = s.d.rd (Pg.MM n + MM.NACKS) + 1
      ∧ (t.mmo n).nacks = (s.d.mmo n).nacks + 1
      ∧ (if s.d.isoReached n ((s.d.mmo n).nacks + 1) then t.mmState n = 8 ∧ t.fld (Pg.MM n + MM.MM_STATE) 16 4 = 1
         else t.mmState n = s.d.mmState n)) := by
  obtain ⟨-, h7, -, -⟩ := (s.d.mmPolls_iff n).mp h
  set u := (s.d.pollBegun n).count (Pg.MM n + MM.NACKS) with hu
  have hrd : ∀ off, off ≠ MM.NACKS → off ≠ MM.XFERS → u.rd (Pg.MM n + off) = s.d.rd (Pg.MM n + off) := fun off h1 h2 =>
    (Dev.rd_count_ne _ _ _ (by simpa using h1)).trans (Dev.rd_pollBegun_ne _ _ (by simpa using h2))
  have hust : u.mmState n = s.d.mmState n := Dev.mmState_of_rd n (hrd _ (by decide) (by decide))
  have humo : u.mmo n = { s.d.mmo n with extra := false } := (Dev.mmo_count _ _ _ _).trans (s.d.mmo_pollBegun n)
  have hiso := Dev.isoReached_of_rd n (hrd MM.POLL_CFG (by decide) (by decide)) ((s.d.mmo n).nacks + 1)
  obtain ⟨hn, hrest, hstate⟩ := u.mmTally_nack_spec n (by omega) (by omega)
  refine gives_run (Eq.refl (execModulePoll n p s)) ?_
  rw [Dev.mmPoll_nackAddr h hr hs hp (by omega)]
  rw [humo, hiso, hust] at hstate
  refine ⟨(settle_rd _ _).trans ((hrest _ (by decide) (by decide) (by decide) (by decide)).trans ((Dev.rd_count_same _ _ _).trans ?_)),
    (congrArg Module.nacks (Dev.mmo_settle _ _)).trans (hn.trans (by rw [humo])), ?_⟩
  · exact congrArg (· + 1) (Dev.rd_pollBegun_ne _ _ (by simp))
  · simpa only [Dev.mmState_settle, Dev.fld_settle] using hstate

theorem gives_modulePoll_stuck (hp : p.result = .stuck) : Gives (.modulePoll n p) s (fun t => t.mmState n = 8
    ∧ t.fld (Pg.MM n + MM.MM_STATE) 16 4 = 3 ∧ t.rd (Pg.MM n + MM.ISOLATIONS) = s.d.rd (Pg.MM n + MM.ISOLATIONS) + 1
    ∧ t.rd (Pg.MM n + MM.BUS_RECOVERIES) = s.d.rd (Pg.MM n + MM.BUS_RECOVERIES) + 1) := by
  obtain ⟨h2, h7, -, -⟩ := (s.d.mmPolls_iff n).mp h
  have hst : ((s.d.pollBegun n).busRecover n).mmState n = s.d.mmState n := by simp
  obtain ⟨hnew, hcause, hiso⟩ := ((s.d.pollBegun n).busRecover n).mmIsolate_spec n (cause := 3) (by decide) (by omega) (by omega)
  have hrec := (((s.d.pollBegun n).busRecover n).mmIsolate_frame n 3).1 (Pg.MM n + MM.BUS_RECOVERIES) (Dev.not_isolateRegs _ (by decide))
  refine gives_run (Eq.refl (execModulePoll n p s)) ?_
  rw [Dev.mmPoll_stuck h hr hs hp]
  refine ⟨(Dev.mmState_settle _ _).trans hnew, (Dev.fld_settle _ _ _ _).trans hcause, (settle_rd _ _).trans (hiso.trans ?_),
    (settle_rd _ _).trans (hrec.trans ((Dev.rd_busRecover_recoveries _ _).trans ?_))⟩
  · exact congrArg (· + 1) ((Dev.rd_busRecover_ne _ _ (by simp)).trans (Dev.rd_pollBegun_ne _ _ (by simp)))
  · exact congrArg (· + 1) (Dev.rd_pollBegun_ne _ _ (by simp))

end

theorem gives_modulePowerupTimeout (h : s.d.mmState n = 5) : Gives (.modulePowerupTimeout n) s (fun t =>
    t.mmState n = 7 ∧ t.bit (Pg.MM n + HDR.INT_STATUS) 8 = true) := by
  obtain ⟨hst, hflag⟩ := s.d.mmFault_spec n
  refine gives_run (Eq.refl (execModulePowerupTimeout n s)) ?_
  rw [if_pos h]
  exact ⟨(Dev.mmState_settle _ _).trans hst, (Dev.bit_settle _ _ _).trans hflag⟩

theorem gives_initWaitTimeout (h : s.d.mmState n = 2) : Gives (.initWaitTimeout n) s (fun t =>
    t.mmState n = 8 ∧ t.fld (Pg.MM n + MM.MM_STATE) 16 4 = 1) := by
  obtain ⟨hst, hcause, -⟩ := s.d.mmIsolate_spec n (cause := 1) (by decide) (by omega) (by omega)
  refine gives_run (Eq.refl (execInitWaitTimeout n s)) ?_
  rw [if_pos h]
  exact ⟨(Dev.mmState_settle _ _).trans hst, (Dev.fld_settle _ _ _ _).trans hcause⟩

theorem gives_intStorm (h : 2 ≤ s.d.mmState n) (h' : s.d.mmState n ≤ 7) (hf : s.d.rd (Pg.MM n + MM.MOD_FLAGS) = 0)
    (hl : ∀ j, j < 5 → s.d.rd (Pg.MM n + MM.LANE_FLAGS + 4 * j) = 0) :
    Gives (.intStorm n) s (fun t => t.mmState n = 8 ∧ t.fld (Pg.MM n + MM.MM_STATE) 16 4 = 6) := by
  obtain ⟨hst, hcause, -⟩ := s.d.mmIsolate_spec n (cause := 6) (by decide) h h'
  have hclear : (s.d.rd (Pg.MM n + MM.MOD_FLAGS) :: s.d.rdWords (Pg.MM n + MM.LANE_FLAGS) 5).all (· == 0) = true := by
    simp only [List.all_cons, hf, beq_self_eq_true, Bool.true_and, List.all_eq_true, Dev.rdWords, List.mem_map, List.mem_range]
    rintro _ ⟨j, hj, rfl⟩
    simp [hl j hj]
  refine gives_run (Eq.refl (execIntStorm n s)) ?_
  rw [if_pos hclear]
  exact ⟨(Dev.mmState_settle _ _).trans hst, (Dev.fld_settle _ _ _ _).trans hcause⟩

variable {m : Master} (ha : Admits s m (Pg.MM n + MM.MM_CMD))
include ha

theorem gives_repoll : Gives (.repoll m n) s (fun t => (t.mmo n).extra = true ∧ Frame [.mm] (fun _ => False) s.d t) :=
  gives_access (f := fun t => t.setMmo n { t.mmo n with extra := true }) rfl ha
    ⟨by rw [Dev.mmo_settle, Dev.mmo_setMmo_same], (Frame.setMmo _ _ (by decide)).settle⟩

theorem gives_moduleRestart {i : Instr} (hi : exec i s = s.run (fun d => d.access m (Pg.MM n + MM.MM_CMD) (fun t => t.mmRestart n)))
    (h : s.d.mmState n = 7 ∨ s.d.mmState n = 8) : Gives i s (fun t => t.mmState n = 2 ∧ (t.mmo n).resetN = true) := by
  obtain ⟨hst, hreset⟩ := s.d.mmRestart_spec n h
  exact gives_access hi ha ⟨(Dev.mmState_settle _ _).trans hst, (congrArg Module.resetN (Dev.mmo_settle _ _)).trans hreset⟩

end

/-! ### Transactions of a port (R338, R339) -/

namespace Machine.Dev

theorem fieldOf_lt (w : Word) (lo len : Nat) : fieldOf w lo len < 2 ^ len := Nat.mod_lt _ (Nat.two_pow_pos len)

/-- A command to start a transaction is refused: one runs, or the port's state, mode or line port bars it (R58, R338). -/
def XferBlocked (s : Dev) (n : Nat) : Prop :=
  s.xferBusy n = true ∨ s.mmState n = 8 ∨ s.lineSafe n = true
    ∨ s.assisted (Pg.MM n) = false ∧ s.typeE (n / 4) = false ∧ bitOf (s.rd (Pg.MM n + MM.XFER_CTRL)) 31 = true

section
variable (s : Dev) (n : Nat)

theorem xferBlocked_iff : (s.bit (Pg.MM n + MM.XFER_STATUS) 29 || s.mmState n == 8 || s.lineSafe n
    || (!s.mmRaw n && bitOf (s.rd (Pg.MM n + MM.XFER_CTRL)) 31)) = true ↔ s.XferBlocked n := by
  simp [XferBlocked, xferBusy, mmRaw, or_assoc, and_assoc]

variable {s n} (m : Master) (low : Bool)

theorem xferGo_blocked (h : s.XferBlocked n) : s.xferGo m n low = s.logErr m (Pg.MM n + MM.MM_CMD) Err.state := by
  unfold xferGo
  extract_lets
  exact if_pos ((xferBlocked_iff s n).mpr h)

theorem xferGo_malformed (h : ¬ s.XferBlocked n) (hs : 256 < fieldOf (s.rd (Pg.MM n + MM.XFER_CTRL)) 8 8
      + fieldOf (s.rd (Pg.MM n + MM.XFER_CTRL)) 0 8 ∨ 128 < fieldOf (s.rd (Pg.MM n + MM.XFER_CTRL)) 0 8) :
    s.xferGo m n low = s.logErr m (Pg.MM n + MM.MM_CMD) Err.config := by
  unfold xferGo
  extract_lets
  exact (if_neg (mt (xferBlocked_iff s n).mp h)).trans (if_pos hs)

/-- A read that stays in the lower page starts at once. -/
theorem xferGo_read (h : ¬ s.XferBlocked n)
    (hs : fieldOf (s.rd (Pg.MM n + MM.XFER_CTRL)) 8 8 + fieldOf (s.rd (Pg.MM n + MM.XFER_CTRL)) 0 8 ≤ 128)
    (hl : 0 < fieldOf (s.rd (Pg.MM n + MM.XFER_CTRL)) 0 8) (hw : bitOf (s.rd (Pg.MM n + MM.XFER_CTRL)) 31 = false)
    (hr : (s.mmo n).recover = false) : s.xferGo m n false
      = (s.emit (.moduleXfer n false (fieldOf (s.rd (Pg.MM n + MM.XFER_CTRL)) 16 7) (fieldOf (s.rd (Pg.MM n + MM.XFER_CTRL)) 8 8)
          (fieldOf (s.rd (Pg.MM n + MM.XFER_CTRL)) 0 8) [])).wr (Pg.MM n + MM.XFER_STATUS) 0x20000000 := by
  unfold xferGo
  extract_lets b a c off len raw t u data
  have hlow : ¬ 128 < off + len := Nat.not_lt.mpr hs
  have hsize : ¬ (256 < off + len ∨ 128 < len) := fun k => hlow (k.elim (by omega) (by omega))
  have ht : t = s := by simp [t, hr]
  have hu : u = t := by simp [u, hlow]
  have hdata : data = [] := if_neg (Bool.eq_false_iff.mp hw)
  rw [if_neg (mt (xferBlocked_iff s n).mp h), if_neg hsize, if_neg (Nat.pos_iff_ne_zero.mp hl), hdata, hu, ht, hw]

end

section
variable (s : Dev) (n : Nat)

/-- After the end of a transaction, the module's counts and the port's configuration: the result stays, and with it what
the other registers of the port hold. -/
theorem xferEnd_followed {r k : Nat} (hr : r ≠ 7) (hk : k < 256) (v : Module) :
    (settle (((s.xferEnd n r k).setMmo n v).mmConfig n)).XferEnded n r k
      ∧ ∀ off, off ≠ MM.XFER_STATUS → off ≠ HDR.INT_STATUS → off ≠ MM.XFERS → off ≠ MM.MM_STATE →
          (settle (((s.xferEnd n r k).setMmo n v).mmConfig n)).rd (Pg.MM n + off) = s.rd (Pg.MM n + off) := by
  have hset : ((s.xferEnd n r k).setMmo n v).XferEnded n r k := s.xferEnded_xferEnd n hr hk
  obtain ⟨-, hkeep⟩ := ((s.xferEnd n r k).setMmo n v).mmConfig_keeps n
  exact ⟨hset.mmConfig.settle, fun off h1 h2 h3 h4 =>
    (settle_rd _ _).trans ((hkeep off h4 h2).trans (s.rd_xferEnd_ne n r k h1 h2 h3))⟩

/-- The bus stuck after a time limit is the result, and isolates the port. -/
theorem xferEnd_stuck : (settle (((s.xferEnd n 5 0).mmIsolate n 3).mmConfig n)).XferEnded n 5 0 :=
  ((s.xferEnded_xferEnd n (by decide) (by decide)).mmIsolate (by decide) (by decide) 3).mmConfig.settle

/-- The bytes a module has sent, as the port shows them. -/
theorem rdWords_xferData (bytes : List Byte) : ((s.xferData n bytes).rdWords (Pg.MM n + MM.XFER_DATA) 32).flatMap wordBytesBE
    = slice (bytes ++ ((s.rdWords (Pg.MM n + MM.XFER_DATA) 32).flatMap wordBytesBE).drop bytes.length) 0 (4 * 32) := by
  set all := bytes ++ ((s.rdWords (Pg.MM n + MM.XFER_DATA) 32).flatMap wordBytesBE).drop bytes.length with hall
  have hrd := s.rdWords_wrWords (Pg.MM n + MM.XFER_DATA) ((List.range 32).map (wordBE all))
  rw [List.length_map, List.length_range] at hrd
  rw [xferData, hrd, flatMap_wordBytesBE]

theorem xferData_getD (bytes : List Byte) (len : Nat) {j : Nat} (hj : j < len) (hl : len ≤ 128) :
    (((s.xferData n (slice bytes 0 len)).rdWords (Pg.MM n + MM.XFER_DATA) 32).flatMap wordBytesBE).getD j 0 = bytes.getD j 0 := by
  rw [rdWords_xferData, slice_getD _ _ _ (by omega), Nat.zero_add, List.getD_append _ _ _ _ (by simpa using hj), slice_getD _ _ _ hj,
    Nat.zero_add]

/-- A time limit ends a transaction: it is counted, the bus recovered, and its result shown. -/
def xferTimedOut (s : Dev) (n cnt r : Nat) : Dev := ((s.count (Pg.MM n + cnt)).busRecover n).xferEnd n r 0

@[simp] theorem mmo_xferTimedOut (cnt r : Nat) : (s.xferTimedOut n cnt r).mmo n = { s.mmo n with recover := false } :=
  (mmo_xferEnd _ _ _ _ _).trans ((mmo_busRecover _ _).trans (by rw [mmo_count]))

theorem rd_xferTimedOut_ne (cnt r : Nat) {a : Nat} (h : ∀ off ∈ [cnt, MM.BUS_RECOVERIES, MM.XFER_STATUS, HDR.INT_STATUS, MM.XFERS],
    a ≠ Pg.MM n + off) : (s.xferTimedOut n cnt r).rd a = s.rd a := by
  simp only [List.forall_mem_cons] at h
  obtain ⟨hcnt, hrec, hst, hint, hx, -⟩ := h
  rw [xferTimedOut, xferEnd, rd_count_ne _ _ _ hx, rd_raise_ne _ _ _ hint, rd_wr_ne _ _ _ hst, rd_busRecover_ne _ _ hrec,
    rd_count_ne _ _ _ hcnt]

/-- The slice's configuration is not on the page of a module. -/
theorem slice_ne_mm {sl n off off' : Nat} (h : sl < 4) (ho : off < 0x1000) : Pg.SLICE sl + off ≠ Pg.MM n + off' := by
  simp only [Pg.SLICE, Pg.MM]
  omega

/-- A STRETCH result that does not isolate counts, on a port whose state fits its configuration. -/
theorem stretches_timedOut (hn : n < 16) (hon : s.lpOn n = true) (h0 : s.mmState n ≠ 0) (hraw : s.mmRaw n = true ↔ s.mmState n = 9)
    (v : Module) : ((((s.xferTimedOut n MM.STRETCH_TMOS 3).setMmo n v).mmConfig n).mmo n).stretches = v.stretches := by
  set u := (s.xferTimedOut n MM.STRETCH_TMOS 3).setMmo n v with hu
  have hmm : ∀ off, (∀ o ∈ [MM.STRETCH_TMOS, MM.BUS_RECOVERIES, MM.XFER_STATUS, HDR.INT_STATUS, MM.XFERS], off ≠ o) →
      u.rd (Pg.MM n + off) = s.rd (Pg.MM n + off) := fun off h =>
    (rd_setMmo _ _ _ _).trans (s.rd_xferTimedOut_ne n _ 3 fun o ho => by simpa using h o ho)
  have hsl : u.rd (Pg.SLICE (n / 4) + SLICE.SLICE_CFG) = s.rd (Pg.SLICE (n / 4) + SLICE.SLICE_CFG) :=
    (rd_setMmo _ _ _ _).trans (s.rd_xferTimedOut_ne n _ 3 fun o _ => slice_ne_mm (by omega) (by decide))
  have hst : u.mmState n = s.mmState n := mmState_of_rd n (hmm _ (by decide))
  have hw : u.lpWidth n = s.lpWidth n := by simp only [lpWidth, lpLayout, fld, hsl]
  have hlp : u.lpOn n = s.lpOn n := by rw [lpOn, lpOn, hw, lpEn, bit, hsl]; rfl
  have hr : u.mmRaw n = s.mmRaw n := by simp only [mmRaw, assisted, typeE, bit, hsl, hmm HDR.PAGE_CTRL (by decide)]
  rw [u.stretches_mmConfig n (hlp.trans hon) (by rwa [hst]) (by rwa [hst, hr]), hu, mmo_setMmo_same]

end

end Machine.Dev

/-! ### What the transactions' commands and events give -/

section
variable {s : State} {n : Lane}

section
variable {m : Master} (ha : Admits s m (Pg.MM n + MM.MM_CMD))
include ha

theorem gives_xferGo_malformed (low : Bool) (h : ¬ s.d.XferBlocked n) (hs : 256 < fieldOf (s.d.rd (Pg.MM n + MM.XFER_CTRL)) 8 8
      + fieldOf (s.d.rd (Pg.MM n + MM.XFER_CTRL)) 0 8 ∨ 128 < fieldOf (s.d.rd (Pg.MM n + MM.XFER_CTRL)) 0 8) :
    Gives (.xferGo m n low) s (Rejected m (Pg.MM n + MM.MM_CMD) 0x0C s.d) :=
  gives_rejected rfl ha (by decide) (Dev.xferGo_malformed m low h hs)

theorem gives_xferGo_blocked (low : Bool) (h : s.d.XferBlocked n) :
    Gives (.xferGo m n low) s (Rejected m (Pg.MM n + MM.MM_CMD) 0x0D s.d) :=
  gives_rejected rfl ha (by decide) (Dev.xferGo_blocked m low h)

theorem gives_xferGo_read
    (hs : fieldOf (s.d.rd (Pg.MM n + MM.XFER_CTRL)) 8 8 + fieldOf (s.d.rd (Pg.MM n + MM.XFER_CTRL)) 0 8 ≤ 128)
    (hl : 0 < fieldOf (s.d.rd (Pg.MM n + MM.XFER_CTRL)) 0 8) (h : ¬ s.d.XferBlocked n)
    (hw : bitOf (s.d.rd (Pg.MM n + MM.XFER_CTRL)) 31 = false) (hr : (s.d.mmo n).recover = false) :
    Gives (.xferGo m n false) s (fun t => t.xferBusy n = true
      ∧ t.sent = .moduleXfer n false (fieldOf (s.d.rd (Pg.MM n + MM.XFER_CTRL)) 16 7) (fieldOf (s.d.rd (Pg.MM n + MM.XFER_CTRL)) 8 8)
          (fieldOf (s.d.rd (Pg.MM n + MM.XFER_CTRL)) 0 8) [] :: s.d.sent
      ∧ Frame [.sent] (· = Pg.MM n + MM.XFER_STATUS) s.d t) := by
  refine gives_access (f := fun t => t.xferGo m n false) rfl ha ?_
  rw [Dev.xferGo_read m h hs hl hw hr]
  refine ⟨?_, (settle_sent _).trans rfl,
    ((Frame.emit (ps := [.sent]) (A := (· = Pg.MM n + MM.XFER_STATUS)) _ (by decide)).trans (Frame.wr _ rfl)).settle⟩
  rw [Dev.xferBusy, Dev.bit_settle, Dev.bit, Dev.rd_wr_same]
  rfl

end

variable (hb : s.d.xferBusy n = true)
include hb

theorem gives_xferDone_ok (bytes : List Byte) (hw : bitOf (s.d.rd (Pg.MM n + MM.XFER_CTRL)) 31 = false)
    (hl : fieldOf (s.d.rd (Pg.MM n + MM.XFER_CTRL)) 0 8 ≤ 128) : Gives (.xferDone n (.ok bytes)) s (fun t =>
      t.XferEnded n 0 (fieldOf (s.d.rd (Pg.MM n + MM.XFER_CTRL)) 0 8)
        ∧ ∀ j, j < fieldOf (s.d.rd (Pg.MM n + MM.XFER_CTRL)) 0 8 →
          ((t.rdWords (Pg.MM n + MM.XFER_DATA) 32).flatMap wordBytesBE).getD j 0 = bytes.getD j 0) := by
  set len := fieldOf (s.d.rd (Pg.MM n + MM.XFER_CTRL)) 0 8 with hlen
  set v : Module := { (((s.d.xferData n (slice bytes 0 len)).xferEnd n 0 len).mmo n) with nacks := 0, stretches := 0 } with hv
  have hres : s.d.xferResult n (.ok bytes) = ((s.d.xferData n (slice bytes 0 len)).xferEnd n 0 len).setMmo n v := by
    simp only [Dev.xferResult, hw, Bool.false_eq_true, if_false, Dev.mmTally_plain, ← hlen, hv]
  obtain ⟨hend, hkeep⟩ := (s.d.xferData n (slice bytes 0 len)).xferEnd_followed n (r := 0) (k := len) (by decide) (by omega) v
  refine gives_run (Eq.refl (execXferDone n (.ok bytes) s)) ?_
  rw [if_pos hb, hres]
  refine ⟨hend, fun j hj => ?_⟩
  rw [Dev.rdWords_congr (s := s.d.xferData n (slice bytes 0 len)) fun k hk => ?_, s.d.xferData_getD n bytes len hj hl]
  have hoff : ∀ o ∈ [MM.XFER_STATUS, HDR.INT_STATUS, MM.XFERS, MM.MM_STATE], MM.XFER_DATA + 4 * k ≠ o := by
    simp only [MM.XFER_DATA, MM.XFER_STATUS, HDR.INT_STATUS, MM.XFERS, MM.MM_STATE, List.forall_mem_cons]
    refine ⟨?_, ?_, ?_, ?_, by simp⟩ <;> omega
  simp only [List.forall_mem_cons] at hoff
  obtain ⟨h1, h2, h3, h4, -⟩ := hoff
  rw [Nat.add_assoc]
  exact hkeep _ h1 h2 h3 h4

theorem gives_stretchTimeout (h : s.d.fld (Pg.MM n + MM.POLL_CFG) 16 8 = 0
      ∨ (s.d.mmo n).stretches + 1 < s.d.fld (Pg.MM n + MM.POLL_CFG) 16 8) : Gives (.stretchTimeout n false) s (fun t =>
    t.XferEnded n 3 0 ∧ t.rd (Pg.MM n + MM.STRETCH_TMOS) = s.d.rd (Pg.MM n + MM.STRETCH_TMOS) + 1
      ∧ (s.d.lpOn n = true → s.d.mmState n ≠ 0 → (s.d.mmRaw n = true ↔ s.d.mmState n = 9) →
          (t.mmo n).stretches = (s.d.mmo n).stretches + 1)) := by
  set u := s.d.xferTimedOut n MM.STRETCH_TMOS 3 with hu
  have hiso : u.isoReached n ((u.mmo n).stretches + 1) ≠ true := by
    rw [Dev.isoReached_of_rd n (s.d.rd_xferTimedOut_ne n _ 3 fun o ho => by
      fin_cases ho <;> simp), hu, Dev.mmo_xferTimedOut, Ne, Dev.isoReached_iff]
    change ¬ (0 < _ ∧ _ ≤ (s.d.mmo n).stretches + 1)
    omega
  obtain ⟨hend, hkeep⟩ := ((s.d.count (Pg.MM n + MM.STRETCH_TMOS)).busRecover n).xferEnd_followed n (r := 3) (k := 0) (by decide)
    (by decide) { u.mmo n with nacks := 0, stretches := (u.mmo n).stretches + 1 }
  refine gives_run (Eq.refl (execStretchTimeout n false s)) ?_
  rw [if_pos hb]
  simp only [Bool.false_eq_true, if_false]
  rw [show ((s.d.count (Pg.MM n + MM.STRETCH_TMOS)).busRecover n).xferEnd n 3 0 = u from rfl, Dev.mmTally_stretch, if_neg hiso]
  refine ⟨hend, (hkeep _ (by decide) (by decide) (by decide) (by decide)).trans ?_, fun hon h0 hraw => ?_⟩
  · rw [Dev.rd_busRecover_ne _ _ (by simp), Dev.rd_count_same]
    rfl
  · rw [Dev.mmo_settle, hu, s.d.stretches_timedOut n n.isLt hon h0 hraw, Dev.mmo_xferTimedOut]

theorem gives_xferTimeout : Gives (.xferTimeout n false) s (fun t =>
    t.XferEnded n 4 0 ∧ t.rd (Pg.MM n + MM.TIMEOUTS) = s.d.rd (Pg.MM n + MM.TIMEOUTS) + 1) := by
  set u := (s.d.count (Pg.MM n + MM.TIMEOUTS)).busRecover n with hu
  obtain ⟨hend, hkeep⟩ := u.xferEnd_followed n (r := 4) (k := 0) (by decide) (by decide)
    { (u.xferEnd n 4 0).mmo n with nacks := 0, stretches := 0 }
  refine gives_run (Eq.refl (execXferTimeout n false s)) ?_
  rw [if_pos hb]
  refine ⟨hend, (hkeep _ (by decide) (by decide) (by decide) (by decide)).trans ?_⟩
  rw [hu, Dev.rd_busRecover_ne _ _ (by simp), Dev.rd_count_same]
  rfl

theorem gives_writePollTimeout (hw : s.d.bit (Pg.MM n + MM.XFER_CTRL) 31 = true) : Gives (.writePollTimeout n false) s (fun t =>
    t.XferEnded n 6 (fieldOf (s.d.rd (Pg.MM n + MM.XFER_CTRL)) 0 8)
      ∧ t.rd (Pg.MM n + MM.TIMEOUTS) = s.d.rd (Pg.MM n + MM.TIMEOUTS) + 1) := by
  set len := fieldOf (s.d.rd (Pg.MM n + MM.XFER_CTRL)) 0 8 with hlen
  set u := s.d.count (Pg.MM n + MM.TIMEOUTS) with hu
  obtain ⟨hend, hkeep⟩ := u.xferEnd_followed n (r := 6) (k := len) (by decide) (Dev.fieldOf_lt _ _ _)
    { (u.xferEnd n 6 len).mmo n with nacks := 0, stretches := 0 }
  refine gives_run (Eq.refl (execWritePollTimeout n false s)) ?_
  rw [if_pos (Bool.and_eq_true_iff.mpr ⟨hb, hw⟩)]
  exact ⟨hend, (hkeep _ (by decide) (by decide) (by decide) (by decide)).trans (Dev.rd_count_same _ _ _)⟩

theorem gives_stretchTimeout_stuck : Gives (.stretchTimeout n true) s (fun t => t.XferEnded n 5 0) :=
  gives_run (Eq.refl (execStretchTimeout n true s)) (by rw [if_pos hb]; exact Dev.xferEnd_stuck _ n)

theorem gives_xferTimeout_stuck : Gives (.xferTimeout n true) s (fun t => t.XferEnded n 5 0) :=
  gives_run (Eq.refl (execXferTimeout n true s)) (by rw [if_pos hb]; exact Dev.xferEnd_stuck _ n)

theorem gives_writePollTimeout_stuck (hw : s.d.bit (Pg.MM n + MM.XFER_CTRL) 31 = true) :
    Gives (.writePollTimeout n true) s (fun t => t.XferEnded n 5 0) :=
  gives_run (Eq.refl (execWritePollTimeout n true s))
    (by rw [if_pos (Bool.and_eq_true_iff.mpr ⟨hb, hw⟩)]; exact Dev.xferEnd_stuck _ n)

end

/-- Settles O36: the events of a port, and the transactions on it. -/
theorem modules : Obligations.Modules := by
  unfold Obligations.Modules
  refine ⟨fun s m n => ?_, fun s m n low => ?_⟩
  · intro b st polls bus enough
    have hpolls : s.d.mmPolls n = true ↔ polls := s.d.mmPolls_iff n
    refine ⟨gives_moduleRemoved, gives_moduleInserted, fun p h => gives_modulePoll_idle p (mt hpolls.mp h), ?_, ?_, ?_,
      gives_modulePowerupTimeout, gives_initWaitTimeout, gives_intStorm, gives_repoll,
      fun ha h => ⟨gives_moduleRestart ha rfl h, gives_moduleRestart ha rfl h⟩⟩
    · rintro p h hst ⟨hr, hs⟩ hp
      exact gives_modulePoll_inserted (hpolls.mpr h) hr hs hst hp
    · rintro p h hst ⟨hr, hs⟩ hp
      obtain ⟨t, ht, hpend, hcnt, hn, hstate⟩ := gives_modulePoll_nackAddr (hpolls.mpr h) hr hs hst hp
      simp only [Dev.isoReached_iff] at hstate
      exact ⟨t, ht, hpend, hcnt, hn, hstate⟩
    · rintro p h ⟨hr, hs⟩ hp
      exact gives_modulePoll_stuck (hpolls.mpr h) hr hs hp
  · intro b c len blocked ended
    exact ⟨fun ha h hs => gives_xferGo_malformed ha low h hs, fun ha h => gives_xferGo_blocked ha low h,
      fun ha hs hl h hw hr => gives_xferGo_read ha hs hl h hw hr, fun bytes hb hw hl => gives_xferDone_ok hb bytes hw hl,
      gives_stretchTimeout, gives_xferTimeout, gives_writePollTimeout,
      fun hb => ⟨gives_stretchTimeout_stuck hb, gives_xferTimeout_stuck hb, gives_writePollTimeout_stuck hb⟩⟩

end Sys2Proof
end

