-- ==== Sys2Proof/Proofs/Admission.lean ====
section
/-! Packet admission: wide counters, the packets of a port, and what a header window does (01, R10; 06, R193, R194, R204;
07, R219). -/

namespace Sys2Proof

open Machine

/-! ### Counters of two words -/

namespace Machine.Dev

theorem wide_congr {s t : Dev} {a : Nat} (h : t.rd a = s.rd a) (h' : t.rd (a + 4) = s.rd (a + 4)) : t.wide a = s.wide a := by
  rw [wide, h, h', wide]

theorem wide_setWide48 (s : Dev) (a v : Nat) : (s.setWide 48 a v).wide a = v % 2 ^ 48 := by
  have hlow : (s.setWide 48 a v).rd a = BitVec.ofNat 32 v := by
    rw [setWide, rd_wr_ne _ _ _ (by omega), rd_wr_same]
  have hhigh : (s.setWide 48 a v).rd (a + 4) = BitVec.ofNat 32 ((v % 2 ^ 48) / 2 ^ 32) := by
    rw [setWide, rd_wr_same]
  rw [wide, hlow, hhigh, BitVec.toNat_ofNat, BitVec.toNat_ofNat]
  omega

end Machine.Dev

theorem raised_count48 (s : Dev) (a : Nat) : Raised 48 a 1 s (s.count48 a) := s.wide_setWide48 a _

/-- A wide counter's two words. -/
abbrev WideRegs (a x : Nat) : Prop := x = a ∨ x = a + 4

theorem Frame.count48_wide {ps : List Part} (s : Dev) (a : Nat) : Frame ps (WideRegs a) s (s.count48 a) :=
  Frame.count48 _ (.inl rfl) (.inr rfl)

section
variable {w a k : Nat} {ps : List Part} {A : Nat → Prop} {s t u : Dev}

/-- What happened before a counter was raised did not concern it. -/
theorem Raised.after (h : Raised w a k t u) (f : Frame ps A s t) (d : ∀ x, WideRegs a x → ¬ A x) : Raised w a k s u := by
  rw [Raised, ← Dev.wide_congr (f.1 a (d _ (.inl rfl))) (f.1 (a + 4) (d _ (.inr rfl)))]
  exact h

/-- A counter raised stays so while its two words stay. -/
theorem Raised.trans (h : Raised w a k s t) (f : Frame ps A t u) (d : ∀ x, WideRegs a x → ¬ A x) : Raised w a k s u := by
  rw [Raised, Dev.wide_congr (f.1 a (d _ (.inl rfl))) (f.1 (a + 4) (d _ (.inr rfl)))]
  exact h

theorem Raised.settle (h : Raised w a k s t) : Raised w a k s (settle t) :=
  h.trans (ps := []) (A := fun _ => False) (Frame.refl t).settle fun _ _ => id

end

/-! ### Packets of a port -/

namespace Machine.Dev

theorem packets_of_flow {s t : Dev} (h : t.flow = s.flow) (p : Nat) : t.packets p = s.packets p := by rw [packets, h, packets]

@[simp] theorem packets_settle (s : Dev) (p : Nat) : (settle s).packets p = s.packets p := packets_of_flow (by simp) p

@[simp] theorem packets_setPackets_same (s : Dev) (p : Nat) (l : List Packet) : (s.setPackets p l).packets p = l :=
  Sparse.get_put_same _ _ _ _

theorem packets_setPackets_ne (s : Dev) {p q : Nat} (l : List Packet) (h : q ≠ p) : (s.setPackets p l).packets q = s.packets q :=
  Sparse.get_put_ne _ _ _ h

/-- A packet joins those of a port. -/
def enqueue (s : Dev) (p : Nat) (y : Packet) : Dev := s.setPackets p (s.packets p ++ [y])

/-- The packet joined those of a port, and no other port's packets changed. -/
def Joined (s t : Dev) (p : Nat) (y : Packet) : Prop :=
  t.packets p = s.packets p ++ [y] ∧ ∀ q, q ≠ p → t.packets q = s.packets q

theorem joined_enqueue (s : Dev) (p : Nat) (y : Packet) : s.Joined (s.enqueue p y) p y :=
  ⟨packets_setPackets_same _ _ _, fun _ hq => packets_setPackets_ne _ _ hq⟩

theorem Joined.of_flow {s t u : Dev} {p : Nat} {y : Packet} (h : s.Joined t p y) (e : u.flow = t.flow) : s.Joined u p y :=
  ⟨(packets_of_flow e p).trans h.1, fun q hq => (packets_of_flow e q).trans (h.2 q hq)⟩

theorem Joined.settle {s t : Dev} {p : Nat} {y : Packet} (h : s.Joined t p y) : s.Joined (settle t) p y := h.of_flow (by simp)

end Machine.Dev

theorem Frame.setPackets {ps : List Part} {A : Nat → Prop} {s : Dev} (p : Nat) (l : List Packet) (h : .flow ∈ ps) :
    Frame ps A s (s.setPackets p l) := Frame.setFlow _ h

/-! ### Slots (R193, R194) -/

namespace Machine.Dev

variable (s : Dev) (p : Nat)

/-- The pool is never larger than the field that shows the slots in use. -/
theorem slotPool_lt : s.slotPool p < 2 ^ 11 := by
  have hw := s.lpWidth_le p
  have hc : s.fld (Pg.FLOW + FLOW.JOURNAL_CTRL) 0 9 < 2 ^ 9 := Nat.mod_lt _ (by decide)
  have : s.slotPool p ≤ 511 * 4 := Nat.mul_le_mul (by omega) hw
  omega

theorem slotsUsed_of_flow {s t : Dev} (h : t.flow = s.flow) : t.slotsUsed p = s.slotsUsed p := by
  rw [slotsUsed, packets_of_flow h, slotsUsed]

theorem slotsUsed_enqueue {y : Packet} (h : y.slot = true) : (s.enqueue p y).slotsUsed p = s.slotsUsed p + 1 := by
  rw [slotsUsed, enqueue, packets_setPackets_same, List.filter_append, List.length_append, List.filter_singleton, h]
  rfl

/-- The registers that show the slots in use. -/
def PendRegs (p a : Nat) : Prop := a = adBase p + ADMIT.PENDING ∨ a = adBase p + ADMIT.PEAK
  ∨ a = Pg.FLOW + FLOW.JOURNAL_STATUS ∨ a = Pg.FLOW + FLOW.JOURNAL_PEAK

theorem pendShow_frame {ps : List Part} : Frame ps (PendRegs p) s (s.pendShow p) := by
  have hpeak : ∀ {t : Dev} {a len v : Nat}, PendRegs p a → Frame ps (PendRegs p) t (t.peakF a 0 len v) := fun h =>
    Frame.ite (Frame.setF _ _ _ h) (Frame.refl _)
  exact (((Frame.setF _ _ _ (.inl rfl)).trans (hpeak (.inr (.inl rfl)))).trans (Frame.setF _ _ _ (.inr (.inr (.inl rfl))))).trans
    (hpeak (.inr (.inr (.inr rfl))))

@[simp] theorem flow_pendShow : (s.pendShow p).flow = s.flow := (s.pendShow_frame p (ps := [])).2 .flow (by decide)

theorem not_pendRegs_entered {x : Nat} (h : WideRegs (adBase p + ADMIT.ENTERED) x) : ¬ PendRegs p x := by
  have : x = Pg.ADMIT (p / 4) + 0x80 * (p % 4) + 0x110 ∨ x = Pg.ADMIT (p / 4) + 0x80 * (p % 4) + 0x110 + 4 := h
  simp only [PendRegs, adBase, Pg.ADMIT, Pg.FLOW, ADMIT.PENDING, ADMIT.PEAK, FLOW.JOURNAL_STATUS, FLOW.JOURNAL_PEAK] at this ⊢
  omega

theorem rd_peakF_ne (a lo len v : Nat) {b : Nat} (h : b ≠ a) : (s.peakF a lo len v).rd b = s.rd b := by
  unfold peakF
  split
  · exact rd_setF_ne _ _ _ _ _ h
  · rfl

/-- `PENDING` shows the slots in use. -/
theorem fld_pendShow (h : s.slotsUsed p < 2 ^ 11) : (s.pendShow p).fld (adBase p + ADMIT.PENDING) 0 11 = s.slotsUsed p := by
  have hflow : ∀ off, Pg.FLOW + off < Pg.FLOW + 0x1000 → adBase p + ADMIT.PENDING ≠ Pg.FLOW + off := by
    simp only [adBase, Pg.ADMIT, Pg.FLOW]
    omega
  have hrd : (s.pendShow p).rd (adBase p + ADMIT.PENDING) = withField (s.rd (adBase p + ADMIT.PENDING)) 0 11 (s.slotsUsed p) := by
    rw [pendShow, rd_peakF_ne _ _ _ _ _ (hflow _ (by decide)), rd_setF_ne _ _ _ _ _ (hflow _ (by decide)),
      rd_peakF_ne _ _ _ _ _ (by simp), rd_setF_same]
  rw [fld, hrd, fieldOf_withField _ _ _ _ (by decide), Nat.mod_eq_of_lt h]

end Machine.Dev

/-! ### A header window (R10, R193, R204, R219, R508) -/

theorem signedOf_eq_toInt (v : Nat) : signedOf 16 v = (BitVec.ofNat 16 v).toInt := by
  rw [BitVec.toInt_eq_toNat_cond, BitVec.toNat_ofNat, signedOf]
  split <;> split <;> omega

theorem macControl_iff (w : List Byte) :
    Dev.macControl w = true ↔ natBE (w.take 6) = 0x0180C2000001 ∧ natBE (slice w 12 2) = 0x8808 := by
  simp [Dev.macControl]

namespace Machine.Dev

/-- The packet that a header window begins. -/
def arrived (s : Dev) (p : Nat) (window : List Byte) (len : Nat) (rx : BitVec 80) : Packet :=
  { window := window.take (min 192 len), len := len,
    rxTime := rx + BitVec.ofInt 80 (BitVec.ofNat 16 (s.fld (Pg.HOST p + HOST.TS_ADJ) 0 16)).toInt, slot := false, rest := [],
    refused := none, unread := false, fetched := [], lookup := none, decided := none, last := none, timedOut := false }

section
variable {s : Dev} {p : Nat} {window : List Byte} {len : Nat} {rx : BitVec 80}

theorem headerWindow_ignored (h : s.receives p = false ∨ macControl window = true) : s.headerWindow p window len rx = s :=
  if_pos (by simpa using h)

theorem headerWindow_taken (hr : s.receives p = true) (hc : macControl window = false) : s.headerWindow p window len rx =
    if s.lineSafe p then s.enqueue p { s.arrived p window len rx with refused := some 7 }
    else if s.guarded then s.enqueue p { s.arrived p window len rx with refused := some 4 }
    else if s.fallback p then s.enqueue p (s.arrived p window len rx)
    else if s.slotPool p ≤ s.slotsUsed p then
      ((s.enqueue p (s.arrived p window len rx)).count48 (adBase p + ADMIT.SLOT_FULL)).raise (Pg.ADMIT (p / 4)) 20
    else ((s.enqueue p { s.arrived p window len rx with slot := true }).count48 (adBase p + ADMIT.ENTERED)).pendShow p := by
  unfold headerWindow
  rw [if_neg (by simp [hr, hc])]
  simp only [signedOf_eq_toInt]
  rfl

end

end Machine.Dev

section
variable {s : State} {p : Lane} {window : List Byte} {len : Nat} {rx : BitVec 80}

theorem gives_headerWindow_ignored (h : s.d.receives p = false ∨ Dev.macControl window = true) :
    Gives (.headerWindowComplete p window len rx) s (Frame [] (fun _ => False) s.d) :=
  gives_run (Eq.refl (execHeaderWindowComplete p window len rx s)) (by
    rw [Dev.headerWindow_ignored h]
    exact (Frame.refl _).settle)

/-- A packet that joins without a slot is all that changes. -/
theorem joined_enqueue_frame (s : Dev) (p : Nat) (y : Packet) :
    s.Joined (settle (s.enqueue p y)) p y ∧ Frame [.flow] (fun _ => False) s (settle (s.enqueue p y)) :=
  ⟨(s.joined_enqueue p y).settle, (Frame.setPackets p _ (by decide)).settle⟩

variable (hr : s.d.receives p = true) (hc : Dev.macControl window = false)
include hr hc

theorem gives_headerWindow_safe (h : s.d.lineSafe p = true) : Gives (.headerWindowComplete p window len rx) s (fun t =>
    s.d.Joined t p { s.d.arrived p window len rx with refused := some 7 } ∧ Frame [.flow] (fun _ => False) s.d t) :=
  gives_run (Eq.refl (execHeaderWindowComplete p window len rx s)) (by
    rw [Dev.headerWindow_taken hr hc, if_pos h]
    exact joined_enqueue_frame _ _ _)

variable (hsafe : s.d.lineSafe p = false)
include hsafe

theorem gives_headerWindow_guarded (h : s.d.guarded = true) : Gives (.headerWindowComplete p window len rx) s (fun t =>
    s.d.Joined t p { s.d.arrived p window len rx with refused := some 4 } ∧ Frame [.flow] (fun _ => False) s.d t) :=
  gives_run (Eq.refl (execHeaderWindowComplete p window len rx s)) (by
    rw [Dev.headerWindow_taken hr hc, if_neg (Bool.eq_false_iff.mp hsafe), if_pos h]
    exact joined_enqueue_frame _ _ _)

variable (hguard : s.d.guarded = false)
include hguard

theorem gives_headerWindow_fallback (h : s.d.fallback p = true) : Gives (.headerWindowComplete p window len rx) s (fun t =>
    s.d.Joined t p (s.d.arrived p window len rx) ∧ Frame [.flow] (fun _ => False) s.d t) :=
  gives_run (Eq.refl (execHeaderWindowComplete p window len rx s)) (by
    rw [Dev.headerWindow_taken hr hc, if_neg (Bool.eq_false_iff.mp hsafe), if_neg (Bool.eq_false_iff.mp hguard), if_pos h]
    exact joined_enqueue_frame _ _ _)

variable (hfb : s.d.fallback p = false)
include hfb

theorem gives_headerWindow_full (h : s.d.slotPool p ≤ s.d.slotsUsed p) : Gives (.headerWindowComplete p window len rx) s (fun t =>
    s.d.Joined t p (s.d.arrived p window len rx) ∧ Raised 48 (Dev.adBase p + ADMIT.SLOT_FULL) 1 s.d t
      ∧ t.bit (Pg.ADMIT (p.val / 4) + HDR.INT_STATUS) 20 = true) := by
  set u := s.d.enqueue p (s.d.arrived p window len rx) with hu
  have hne : ∀ x, WideRegs (Dev.adBase p + ADMIT.SLOT_FULL) x → x ≠ Pg.ADMIT (p.val / 4) + HDR.INT_STATUS := by
    rintro _ (rfl | rfl) <;> simp only [Dev.adBase, ADMIT.SLOT_FULL, HDR.INT_STATUS] <;> omega
  have hraised : Raised 48 (Dev.adBase p + ADMIT.SLOT_FULL) 1 s.d (u.count48 (Dev.adBase p + ADMIT.SLOT_FULL)) :=
    (raised_count48 u _).after (A := fun _ => False) (Frame.setPackets (ps := [.flow]) p _ (by decide)) fun _ _ => id
  refine gives_run (Eq.refl (execHeaderWindowComplete p window len rx s)) ?_
  rw [Dev.headerWindow_taken hr hc, if_neg (Bool.eq_false_iff.mp hsafe), if_neg (Bool.eq_false_iff.mp hguard),
    if_neg (Bool.eq_false_iff.mp hfb), if_pos h]
  refine ⟨((s.d.joined_enqueue p _).of_flow (by simp)).settle,
    (hraised.trans (ps := []) (A := (· = Pg.ADMIT (p.val / 4) + HDR.INT_STATUS)) (Frame.raise _ rfl) hne).settle, ?_⟩
  rw [Dev.bit_settle, Dev.bit, Dev.rd_raise_same]
  exact bitOf_withBit _ _ _ (by decide)

theorem gives_headerWindow_entered (h : s.d.slotsUsed p < s.d.slotPool p) : Gives (.headerWindowComplete p window len rx) s (fun t =>
    s.d.Joined t p { s.d.arrived p window len rx with slot := true } ∧ Raised 48 (Dev.adBase p + ADMIT.ENTERED) 1 s.d t
      ∧ t.fld (Dev.adBase p + ADMIT.PENDING) 0 11 = s.d.slotsUsed p + 1) := by
  set y : Packet := { s.d.arrived p window len rx with slot := true } with hy
  set u := (s.d.enqueue p y).count48 (Dev.adBase p + ADMIT.ENTERED) with hu
  have hflow : u.flow = (s.d.enqueue p y).flow := by simp [hu]
  have hraised : Raised 48 (Dev.adBase p + ADMIT.ENTERED) 1 s.d u :=
    (raised_count48 (s.d.enqueue p y) _).after (A := fun _ => False) (Frame.setPackets (ps := [.flow]) p _ (by decide)) fun _ _ => id
  have hused : u.slotsUsed p = s.d.slotsUsed p + 1 := (Dev.slotsUsed_of_flow p hflow).trans (s.d.slotsUsed_enqueue p rfl)
  refine gives_run (Eq.refl (execHeaderWindowComplete p window len rx s)) ?_
  rw [Dev.headerWindow_taken hr hc, if_neg (Bool.eq_false_iff.mp hsafe), if_neg (Bool.eq_false_iff.mp hguard),
    if_neg (Bool.eq_false_iff.mp hfb), if_neg (Nat.not_le.mpr h)]
  refine ⟨((s.d.joined_enqueue p y).of_flow ((u.flow_pendShow p).trans hflow)).settle,
    (hraised.trans (ps := []) (u.pendShow_frame p) fun _ => Dev.not_pendRegs_entered p).settle, ?_⟩
  have := s.d.slotPool_lt p
  rw [Dev.fld_settle, u.fld_pendShow p (by omega), hused]

end

end Sys2Proof
end

