-- ==== Sys2Proof/Proofs/Lookups.lean ====
section
/-! The lookup of a port's oldest window, and the reload of a bucket (05, R141 to R143, R153 to R156, R160, R173; 06, R186;
07, R242). -/

namespace Sys2Proof

open Machine

/-! ### The first packet of a kind -/

section
variable {α : Type} {sel : α → Bool} {pre post l : List α} {x : α}

theorem find?_of_leads (h : Leads sel pre x post l) : l.find? sel = some x := by
  obtain ⟨rfl, hx, hpre⟩ := h
  induction pre with
  | nil => simp [hx]
  | cons y r ih =>
    rw [List.cons_append, List.find?_cons_of_neg (by simp [hpre y])]
    exact ih fun z hz => hpre z (List.mem_cons_of_mem _ hz)

end

section
variable {sel : Packet → Bool} {pre post l : List Packet} {x : Packet}

theorem modFirst_of_leads (h : Leads sel pre x post l) (f : Packet → Packet) : modFirst sel f l = pre ++ f x :: post := by
  obtain ⟨rfl, hx, hpre⟩ := h
  induction pre with
  | nil => exact if_pos hx
  | cons y r ih =>
    rw [List.cons_append, modFirst, if_neg (by simp [hpre y]), ih fun z hz => hpre z (List.mem_cons_of_mem _ hz)]
    rfl

theorem dropFirst_of_leads (h : Leads sel pre x post l) : dropFirst sel l = pre ++ post := by
  obtain ⟨rfl, hx, hpre⟩ := h
  induction pre with
  | nil => exact if_pos hx
  | cons y r ih =>
    rw [List.cons_append, dropFirst, if_neg (by simp [hpre y]), ih fun z hz => hpre z (List.mem_cons_of_mem _ hz)]
    rfl

end

theorem Frame.setCls {ps : List Part} {A : Nat → Prop} {s : Dev} (v : Cls) (h : .cls ∈ ps) : Frame ps A s { s with cls := v } :=
  ofPart h (fun _ => rfl) fun p hp => by
    cases p with
    | cls => exact absurd rfl hp
    | _ => rfl

theorem Frame.setBuf {ps : List Part} {A : Nat → Prop} {s : Dev} (v : Buf) (h : .buf ∈ ps) : Frame ps A s { s with buf := v } :=
  ofPart h (fun _ => rfl) fun p hp => by
    cases p with
    | buf => exact absurd rfl hp
    | _ => rfl

/-! ### The table -/

namespace Machine.Dev

theorem sram_of_cls {s t : Dev} (h : t.cls = s.cls) (i : Nat) : t.sram i = s.sram i := by rw [sram, h, sram]

@[simp] theorem sram_settle (s : Dev) (i : Nat) : (settle s).sram i = s.sram i := sram_of_cls (by simp) i

@[simp] theorem sram_setSram_same (s : Dev) (i : Nat) (e : Ent) : (s.setSram i e).sram i = e := Sparse.get_put_same _ _ _ _

theorem sram_setSram_ne (s : Dev) {i j : Nat} (e : Ent) (h : j ≠ i) : (s.setSram i e).sram j = s.sram j :=
  Sparse.get_put_ne _ _ _ h

theorem indexOff_congr {s t : Dev} (i : Nat) (hc : t.cls = s.cls)
    (hr : t.rd (bankBase (bankOf i) + CLS_BANK.BANK_STATUS) = s.rd (bankBase (bankOf i) + CLS_BANK.BANK_STATUS)) :
    t.indexOff i = s.indexOff i := by
  rw [indexOff, bankOff, fld, hr, hc]
  rfl

/-- The ways of a bucket are served alike. -/
theorem indexOff_way (s : Dev) {b i : Nat} (hb : 4 ∣ b) (h : i ∈ ways b) : s.indexOff i = s.indexOff b := by
  obtain ⟨k, rfl⟩ := hb
  have hi : i / 4 = 4 * k / 4 := by
    simp only [ways, List.mem_cons, List.not_mem_nil, or_false] at h
    omega
  have hbank : bankOf i = bankOf (4 * k) := by
    simp only [bankOf]
    omega
  rw [indexOff, hbank, hi, indexOff]

theorem four_dvd_bucketA (d : BitVec 40) : 4 ∣ bucketA d := by simp only [bucketA]; omega
theorem four_dvd_bucketB (d : BitVec 40) : 4 ∣ bucketB d := by simp only [bucketB]; omega

/-- Both candidate buckets of a digest are read from SRAM. -/
def Serves (s : Dev) (d : BitVec 40) : Prop := s.indexOff (bucketA d) = false ∧ s.indexOff (bucketB d) = false

section
variable {s : Dev} {d : BitVec 40}

theorem Serves.way_on (h : s.Serves d) {i : Nat} (hi : s.findEnt d = some i) : s.indexOff i = false := by
  rcases List.mem_append.mp (List.mem_of_find?_eq_some hi) with hm | hm
  · exact (s.indexOff_way (four_dvd_bucketA d) hm).trans h.1
  · exact (s.indexOff_way (four_dvd_bucketB d) hm).trans h.2

/-- With no bank over its rate, a lookup reads both buckets. -/
theorem tableLookup_idle (s : Dev) (d : BitVec 40) : s.tableLookup d [] = (s.findEnt d, none) := by
  have hover : ∀ b, s.bucketOver [] b = false := fun b => by simp [bucketOver]
  have hfind : (([bucketA d, bucketB d].filter (fun b => !s.bucketOver [] b)).flatMap ways).find?
      (fun i => (s.entry i).valid && (s.entry i).digest == d) = s.findEnt d := by
    simp [hover, findEnt]
  have hnone : [bucketA d, bucketB d].find? (s.bucketOver []) = none := by simp [hover]
  simp only [tableLookup, hfind, hnone]
  cases s.findEnt d <;> rfl

theorem Serves.shadowServed (h : s.Serves d) : s.shadowServed d [] = s := by
  obtain ⟨ha, hb⟩ := h
  simp only [Dev.shadowServed, List.foldl_cons, List.foldl_nil, ha, hb, Bool.false_and, Bool.false_eq_true, if_false]

end

/-! ### What a lookup counts -/

/-- The counters of a lookup. -/
def lookupCounted (s : Dev) (hit trunc malformed : Bool) : Dev :=
  let t := (s.count48 (Pg.CLS + CLS.LOOKUPS)).count48 (Pg.CLS + (if hit then CLS.HITS else CLS.MISSES))
  let t := if trunc then t.count (Pg.CLS + CLS.PARSE_TRUNC) else t
  if malformed then t.count (Pg.CLS + CLS.PARSE_MALFORMED) else t

/-- The registers that hold them. -/
abbrev LookupRegs (a : Nat) : Prop := Pg.CLS + CLS.LOOKUPS ≤ a ∧ a ≤ Pg.CLS + CLS.PARSE_MALFORMED

section
variable (s : Dev) (hit trunc malformed : Bool)

theorem parseCounted_frame {ps : List Part} (t : Dev) :
    Frame ps (fun a => a = Pg.CLS + CLS.PARSE_TRUNC ∨ a = Pg.CLS + CLS.PARSE_MALFORMED) t
      (let u := if trunc then t.count (Pg.CLS + CLS.PARSE_TRUNC) else t
       if malformed then u.count (Pg.CLS + CLS.PARSE_MALFORMED) else u) :=
  have hu := Frame.ite (c := trunc = true) (Frame.count 1 (.inl rfl)) (Frame.refl t)
  Frame.ite (hu.trans (Frame.count 1 (.inr rfl))) hu

theorem lookupCounted_frame {ps : List Part} : Frame ps LookupRegs s (s.lookupCounted hit trunc malformed) := by
  have hwide : ∀ a x, Pg.CLS + CLS.LOOKUPS ≤ a → a ≤ Pg.CLS + CLS.MISSES → WideRegs a x → LookupRegs x := by
    rintro a x h h' (rfl | rfl) <;> simp only [LookupRegs, Pg.CLS, CLS.LOOKUPS, CLS.MISSES, CLS.PARSE_MALFORMED] at h h' ⊢ <;> omega
  have hhit : Pg.CLS + CLS.LOOKUPS ≤ Pg.CLS + (if hit then CLS.HITS else CLS.MISSES)
      ∧ Pg.CLS + (if hit then CLS.HITS else CLS.MISSES) ≤ Pg.CLS + CLS.MISSES := by
    cases hit <;> decide
  have hparse : ∀ a, a = Pg.CLS + CLS.PARSE_TRUNC ∨ a = Pg.CLS + CLS.PARSE_MALFORMED → LookupRegs a := by
    rintro a (rfl | rfl) <;> decide
  exact (((Frame.count48_wide s _).mono (fun _ => id) fun x => hwide _ x (by decide) (by decide)).trans
    ((Frame.count48_wide _ _).mono (fun _ => id) fun x => hwide _ x hhit.1 hhit.2)).trans
    ((parseCounted_frame trunc malformed _).mono (fun _ => id) hparse)

theorem raised_lookups : Raised 48 (Pg.CLS + CLS.LOOKUPS) 1 s (s.lookupCounted hit trunc malformed) := by
  have hnext : ∀ x, WideRegs (Pg.CLS + CLS.LOOKUPS) x → ¬ WideRegs (Pg.CLS + (if hit then CLS.HITS else CLS.MISSES)) x := by
    rintro x (rfl | rfl) <;> cases hit <;> decide
  have hparse : ∀ x, WideRegs (Pg.CLS + CLS.LOOKUPS) x → ¬ (x = Pg.CLS + CLS.PARSE_TRUNC ∨ x = Pg.CLS + CLS.PARSE_MALFORMED) := by
    rintro x (rfl | rfl) <;> decide
  exact ((raised_count48 s _).trans (ps := []) (Frame.count48_wide _ _) hnext).trans (ps := [])
    (parseCounted_frame trunc malformed _) hparse

theorem raised_result : Raised 48 (Pg.CLS + (if hit then CLS.HITS else CLS.MISSES)) 1 s (s.lookupCounted hit trunc malformed) := by
  have hprev : ∀ x, WideRegs (Pg.CLS + (if hit then CLS.HITS else CLS.MISSES)) x → ¬ WideRegs (Pg.CLS + CLS.LOOKUPS) x := by
    rintro x (rfl | rfl) <;> cases hit <;> decide
  have hparse : ∀ x, WideRegs (Pg.CLS + (if hit then CLS.HITS else CLS.MISSES)) x →
      ¬ (x = Pg.CLS + CLS.PARSE_TRUNC ∨ x = Pg.CLS + CLS.PARSE_MALFORMED) := by
    rintro x (rfl | rfl) <;> cases hit <;> decide
  exact ((raised_count48 (s.count48 (Pg.CLS + CLS.LOOKUPS)) _).after (ps := []) (Frame.count48_wide _ _) hprev).trans (ps := [])
    (parseCounted_frame trunc malformed _) hparse

/-- Counting a lookup takes no bank out of service. -/
theorem indexOff_lookupCounted (i : Nat) : (s.lookupCounted hit trunc malformed).indexOff i = s.indexOff i := by
  obtain ⟨hrd, hkept⟩ := s.lookupCounted_frame hit trunc malformed (ps := [])
  refine indexOff_congr i (hkept .cls (by decide)) (hrd _ ?_)
  simp only [LookupRegs, bankBase, Pg.CLS, Pg.CLS_BANK, CLS.LOOKUPS, CLS.PARSE_MALFORMED, CLS_BANK.BANK_STATUS]
  omega

end

/-! ### What a lookup finds (R141, R153, R160) -/

/-- A window as the parser reads it for a port. -/
def parsedOf (s : Dev) (p : Nat) (window : List Byte) :=
  parse window (fieldOf (s.rd (Pg.CLS + CLS.PORT_KEY + 4 * p)) 0 2) (s.fld (Pg.CLS + CLS.CLS_CTRL) 16 16)

/-- The key of a window on a port. -/
def keyOf (s : Dev) (p : Nat) (window : List Byte) : List Byte :=
  buildKey (s.parsedOf p window) p (s.rd (Pg.CLS + CLS.PORT_KEY + 4 * p))

/-- A lookup that finds no entry: what the miss registers of the port name. -/
def missLookup (s : Dev) (p : Nat) (window : List Byte) : Lookup :=
  let miss := Pg.CLS_MISS + 16 * p
  let missCfg := s.rd (miss + CLS_MISS.MISS_CFG)
  { hit := false, flow := s.fld (miss + CLS_MISS.DEF_FLOW) 0 25, ops := s.profileOps (fieldOf missCfg 0 10),
    defFlow := s.fld (miss + CLS_MISS.DEF_FLOW) 0 25, defOps := s.profileOps (fieldOf missCfg 0 10), missCfg := missCfg,
    puntRate := s.fld (miss + CLS_MISS.PUNT_RATE) 0 16, host := s.assisted Pg.CLS_MISS,
    parseBad := (s.parsedOf p window).trunc || (s.parsedOf p window).malformed, key := s.keyOf p window,
    digest := s.digestOf (s.keyOf p window), learn := false, overRate := false, order := s.flow.orders }

/-- The device after a lookup that both buckets serve, but for what a hit or a miss does then: the counters and the order
of the packet's action record. -/
def lookupDone (s : Dev) (p : Nat) (window : List Byte) (hit : Bool) : Dev :=
  let t := s.lookupCounted hit (s.parsedOf p window).trunc (s.parsedOf p window).malformed
  { t with flow := { t.flow with orders := t.flow.orders + 1 } }

section
variable {s : Dev} {p : Nat} {window : List Byte} (h : s.Serves (s.digestOf (s.keyOf p window)))
include h

theorem Serves.counted (hit trunc malformed : Bool) :
    (s.lookupCounted hit trunc malformed).Serves (s.digestOf (s.keyOf p window)) :=
  ⟨(s.indexOff_lookupCounted _ _ _ _).trans h.1, (s.indexOff_lookupCounted _ _ _ _).trans h.2⟩

theorem lookupOf_hit {i : Nat} (hi : s.findEnt (s.digestOf (s.keyOf p window)) = some i) : s.lookupOf p window [] [] =
    (if (s.entry i).age = 15 then s.lookupDone p window true else (s.lookupDone p window true).setSram i ((s.entry i).setAge 0),
      { s.missLookup p window with hit := true, flow := (s.entry i).flow, ops := s.profileOps (s.entry i).profile }) := by
  have hr : s.tableLookup (s.digestOf (s.keyOf p window)) [] = (some i, none) := by rw [tableLookup_idle, hi]
  have hserved := (h.counted true (s.parsedOf p window).trunc (s.parsedOf p window).malformed).shadowServed
  have hoff : s.indexOff i = false := h.way_on hi
  have hoff' : (s.lookupDone p window true).indexOff i = false := (s.indexOff_lookupCounted _ _ _ _).trans hoff
  have hage : ∀ e, (s.lookupDone p window true).ageSet i e = (s.lookupDone p window true).setSram i e := fun e => by
    simp only [ageSet, hoff', Bool.false_eq_true, if_false]
  unfold lookupOf
  extract_lets cfg q key d miss missCfg u r t1 t2 t3 t4 t5 host base src t6 learnt
  have hr' : r = (some i, none) := hr
  clear_value r
  subst hr'
  have ht5 : t5 = s.lookupCounted true (s.parsedOf p window).trunc (s.parsedOf p window).malformed := hserved
  have ht6 : t6 = s.lookupDone p window true :=
    congrArg (fun t : Dev => ({ t with flow := { t.flow with orders := t.flow.orders + 1 } } : Dev)) ht5
  refine Prod.ext ?_ rfl
  change (if ((s.entry i).age == 15 || s.indexOff i && (s.entry i).age == 0) = true then t6 else t6.ageSet i ((s.entry i).setAge 0)) = _
  rw [hoff, ht6, hage]
  simp only [Bool.false_and, Bool.or_false, beq_iff_eq]

theorem lookupOf_miss (hi : s.findEnt (s.digestOf (s.keyOf p window)) = none) :
    ∃ (b : Bool) (t : Dev), s.lookupOf p window [] [] = (t, { s.missLookup p window with learn := b })
      ∧ (t = s.lookupDone p window false
        ∨ t = ((s.lookupDone p window false).learnQueue p (s.keyOf p window) (s.digestOf (s.keyOf p window))).1) := by
  have hr : s.tableLookup (s.digestOf (s.keyOf p window)) [] = (none, none) := by rw [tableLookup_idle, hi]
  have hserved := (h.counted false (s.parsedOf p window).trunc (s.parsedOf p window).malformed).shadowServed
  unfold lookupOf
  extract_lets cfg q key d miss missCfg u r t1 t2 t3 t4 t5 host base src t6 learnt
  have hr' : r = (none, none) := hr
  clear_value r
  subst hr'
  have ht5 : t5 = s.lookupCounted false (s.parsedOf p window).trunc (s.parsedOf p window).malformed := hserved
  have ht6 : t6 = s.lookupDone p window false :=
    congrArg (fun t : Dev => ({ t with flow := { t.flow with orders := t.flow.orders + 1 } } : Dev)) ht5
  by_cases hl : (bitOf missCfg 30 && !(host && bitOf missCfg 31)) = true
  · exact ⟨learnt.2, learnt.1, if_pos hl, .inr (congrArg (fun t => (learnQueue t p key d).1) ht6)⟩
  · exact ⟨false, t6, if_neg hl, .inl ht6⟩

end

section
variable (s : Dev) (p : Nat) (window : List Byte) (hit : Bool)

/-- What a miss or an entry made young may change. -/
abbrev LearnRegs (a : Nat) : Prop := a = Pg.CLS_MISS + CLS_MISS.LEARN_DROP ∨ a = Pg.CLS_MISS + HDR.INT_STATUS

theorem learnQueue_frame (key : List Byte) (d : BitVec 40) : Frame [.cls] LearnRegs s (s.learnQueue p key d).1 := by
  unfold learnQueue
  split
  · exact Frame.refl s
  · split
    · exact (Frame.count 1 (.inl rfl)).trans (Frame.raise 10 (.inr rfl))
    · exact Frame.setCls (ps := [.cls]) _ (by decide)

theorem raised_lookupDone : Raised 48 (Pg.CLS + CLS.LOOKUPS) 1 s (s.lookupDone p window hit)
    ∧ Raised 48 (Pg.CLS + (if hit then CLS.HITS else CLS.MISSES)) 1 s (s.lookupDone p window hit) :=
  ⟨s.raised_lookups hit _ _, s.raised_result hit _ _⟩

theorem cache_lookupDone : (s.lookupDone p window hit).flow.cache = s.flow.cache := by
  have h : (s.lookupCounted hit (s.parsedOf p window).trunc (s.parsedOf p window).malformed).flow = s.flow :=
    (s.lookupCounted_frame hit _ _ (ps := [])).2 .flow (by decide)
  rw [lookupDone, h]

theorem cls_lookupDone : (s.lookupDone p window hit).cls = s.cls := (s.lookupCounted_frame hit _ _ (ps := [])).2 .cls (by decide)

end

/-! ### Fills begun (R186) -/

theorem fillBegin_frame (s : Dev) (f : Nat) : Frame [.buf] (fun _ => False) s (s.fillBegin f) :=
  Frame.ite (Frame.refl s) ((Frame.setBuf (ps := [.buf]) _ (by decide)).trans (Frame.setBuf _ (by decide)))

theorem fills_frame (s : Dev) (l : List Nat) : Frame [.buf] (fun _ => False) s (l.foldl fillBegin s) :=
  Frame.foldl_mem fun t f _ => t.fillBegin_frame f

theorem resident_of_cache {s t : Dev} (h : t.flow.cache = s.flow.cache) (f : Nat) : t.resident f = s.resident f := by
  rw [resident, cacheLine, h, resident, cacheLine]

/-! ### The classifier takes a window (R142, R450) -/

/-- The packets that the classifier has yet to take. -/
abbrev awaitsLookup (y : Packet) : Bool := y.admitted && y.lookup.isNone

section
variable {s : Dev} {p : Nat} {pre post : List Packet} {x : Packet} (hl : Leads awaitsLookup pre x post (s.packets p))
include hl

theorem classify_taken (busy : List (Fin 8)) (ecc : List (Fin 2 × Bool)) {t : Dev} {l : Lookup}
    (hr : s.lookupOf p x.window busy ecc = (t, l)) : s.classify p false busy ecc
      = (if t.resident l.flow then [] else [l.flow]).foldl fillBegin
          (t.setPackets p (pre ++ { x with lookup := some l, fetched := if t.resident l.flow then [] else [l.flow] } :: post)) := by
  have hfind : (s.packets p).find? (fun y => y.admitted && y.lookup.isNone) = some x := find?_of_leads hl
  have hmod := modFirst_of_leads hl fun y => { y with lookup := some l, fetched := if t.resident l.flow then [] else [l.flow] }
  unfold classify
  simp only [hfind, hr, Bool.false_eq_true, if_false]
  exact congrArg (fun q => List.foldl fillBegin (t.setPackets p q) _) hmod

theorem classify_full_waiting (busy : List (Fin 8)) (ecc : List (Fin 2 × Bool)) (h : x.last = none) : s.classify p true busy ecc
    = (s.setPackets p (pre ++ { x with refused := some 5, slot := false } :: post)).unenter p x := by
  have hfind : (s.packets p).find? (fun y => y.admitted && y.lookup.isNone) = some x := find?_of_leads hl
  have hmod := modFirst_of_leads hl fun y => { y with refused := some 5, slot := false }
  have hlast : x.last.isSome = false := by rw [h]; rfl
  unfold classify
  simp only [hfind, hlast, Bool.false_eq_true, if_false, if_true]
  exact congrArg (fun q => (s.setPackets p q).unenter p x) hmod

theorem classify_full_ended (busy : List (Fin 8)) (ecc : List (Fin 2 × Bool)) (h : x.last ≠ none) : s.classify p true busy ecc
    = ((s.setPackets p (pre ++ post)).unenter p x).drop p 5 x.len := by
  have hfind : (s.packets p).find? (fun y => y.admitted && y.lookup.isNone) = some x := find?_of_leads hl
  have hlast : x.last.isSome = true := Option.isSome_iff_ne_none.mpr h
  unfold classify
  simp only [hfind, hlast, if_true]
  exact congrArg (fun q => ((s.setPackets p q).unenter p x).drop p 5 x.len) (dropFirst_of_leads hl)

end

/-- A packet not admitted after all: its slot alone is given back. -/
theorem unenter_frame (s : Dev) (p : Nat) (x : Packet) :
    Frame [] (fun a => WideRegs (adBase p + ADMIT.ENTERED) a ∨ PendRegs p a) s (s.unenter p x) :=
  Frame.ite ((Frame.setWide _ _ (.inl (.inl rfl)) (.inl (.inr rfl))).trans
    ((Dev.pendShow_frame _ p).mono (fun _ => id) fun _ => .inr)) (Frame.refl s)

/-- A drop for a reason that raises no cause of its own is counted. -/
theorem raised_drop (s : Dev) {p r : Nat} (hp : p < 16) (hr : r < 10) (h4 : r ≠ 4) (h8 : r ≠ 8) (bytes : Nat) :
    Raised 48 (Pg.DROP + 0x100 + 0xA0 * p + 0x10 * r) 1 s (s.drop p r bytes) := by
  have hdrop : s.drop p r bytes = (s.count48 (Pg.DROP + 0x100 + 0xA0 * p + 0x10 * r)).count64
      (Pg.DROP + 0x100 + 0xA0 * p + 0x10 * r + 8) bytes := by
    unfold drop
    extract_lets a t
    have ha : a = Pg.DROP + 0x100 + 0xA0 * p + 0x10 * r := by simp only [a, Nat.mod_eq_of_lt hp, Nat.mod_eq_of_lt hr]
    rw [if_neg h4, if_neg h8, ← ha]
  rw [hdrop]
  refine (raised_count48 s _).trans (ps := []) (A := WideRegs (Pg.DROP + 0x100 + 0xA0 * p + 0x10 * r + 8))
    (Frame.count64 _ (.inl rfl) (.inr rfl)) ?_
  rintro x (rfl | rfl) <;> simp only [WideRegs] <;> omega

end Machine.Dev

/-! ### What the classifier gives -/

/-- The counters of a lookup stay through what follows it. -/
theorem raised_after_lookup {s : Dev} {p : Nat} {window : List Byte} {hit : Bool} {t u : Dev}
    (ht : Frame [.cls] Dev.LearnRegs (s.lookupDone p window hit) t)
    (hu : Frame [.flow, .buf] (fun _ => False) t u) : Raised 48 (Pg.CLS + CLS.LOOKUPS) 1 s u
      ∧ Raised 48 (Pg.CLS + (if hit then CLS.HITS else CLS.MISSES)) 1 s u := by
  obtain ⟨hlook, hres⟩ := s.raised_lookupDone p window hit
  have hl : ∀ a, WideRegs (Pg.CLS + CLS.LOOKUPS) a → ¬ Dev.LearnRegs a := by
    rintro a (rfl | rfl) <;> decide
  have hh : ∀ a, WideRegs (Pg.CLS + (if hit then CLS.HITS else CLS.MISSES)) a → ¬ Dev.LearnRegs a := by
    rintro a (rfl | rfl) <;> cases hit <;> decide
  exact ⟨(hlook.trans ht hl).trans hu fun _ _ => id, (hres.trans ht hh).trans hu fun _ _ => id⟩

section
variable {s : State} {p : Lane} {pre post : List Packet} {x : Packet} (hl : Leads Dev.awaitsLookup pre x post (s.d.packets p))
include hl

/-- A window looked up: the packet with its result, its fill begun where the cache does not hold the record. -/
theorem gives_lookup {t : Dev} {l : Lookup} (hr : s.d.lookupOf p x.window [] [] = (t, l)) (hc : t.flow.cache = s.d.flow.cache)
    {P : Dev → Prop} (hP : ∀ u : Dev, Frame [.flow, .buf] (fun _ => False) t u → P u) :
    Gives (.classifierLookup p false [] []) s (fun u => u.packets p
      = pre ++ { x with lookup := some l, fetched := if s.d.resident l.flow then [] else [l.flow] } :: post ∧ P u) := by
  have hres : t.resident l.flow = s.d.resident l.flow := Dev.resident_of_cache hc _
  refine gives_run (Eq.refl (execClassifierLookup p false [] [] s)) ?_
  rw [Dev.classify_taken hl [] [] hr, hres]
  set fl := if s.d.resident l.flow then [] else [l.flow]
  set u := t.setPackets p (pre ++ { x with lookup := some l, fetched := fl } :: post) with hu
  have hfill := u.fills_frame fl
  refine ⟨?_, hP _ (((Frame.setPackets p _ (by decide)).trans (hfill.mono (by decide) fun _ => id)).settle)⟩
  rw [Dev.packets_settle, Dev.packets_of_flow (hfill.2 .flow (by decide)), hu, Dev.packets_setPackets_same]

theorem gives_lookup_hit {i : Nat} (hs : s.d.Serves (s.d.digestOf (s.d.keyOf p x.window)))
    (hi : s.d.findEnt (s.d.digestOf (s.d.keyOf p x.window)) = some i) :
    Gives (.classifierLookup p false [] []) s (fun t => ∃ l : Lookup,
      t.packets p = pre ++ { x with lookup := some l, fetched := if s.d.resident l.flow then [] else [l.flow] } :: post
        ∧ l.hit = true ∧ l.flow = (s.d.entry i).flow ∧ l.ops = s.d.profileOps (s.d.entry i).profile ∧ l.key = s.d.keyOf p x.window
        ∧ l.digest = s.d.digestOf (s.d.keyOf p x.window)
        ∧ Raised 48 (Pg.CLS + CLS.LOOKUPS) 1 s.d t ∧ Raised 48 (Pg.CLS + CLS.HITS) 1 s.d t
        ∧ t.sram i = if (s.d.entry i).age = 15 then s.d.sram i else (s.d.entry i).setAge 0) := by
  set u := s.d.lookupDone p x.window true with hu
  set v := if (s.d.entry i).age = 15 then u else u.setSram i ((s.d.entry i).setAge 0) with hv
  have hframe : Frame [.cls] Dev.LearnRegs u v := Frame.ite (Frame.refl u) (Frame.setCls (ps := [.cls]) _ (by decide))
  have hflow : v.flow = u.flow := hframe.2 .flow (by decide)
  have hcache : v.flow.cache = s.d.flow.cache := by rw [hflow, hu, Dev.cache_lookupDone]
  have hsram : v.sram i = if (s.d.entry i).age = 15 then s.d.sram i else (s.d.entry i).setAge 0 := by
    rw [hv]
    split
    · exact Dev.sram_of_cls (s.d.cls_lookupDone p x.window true) i
    · exact Dev.sram_setSram_same _ _ _
  obtain ⟨t, ht, hpend, hpk, hraised, hsr⟩ := gives_lookup hl (Dev.lookupOf_hit hs hi) hcache
    (P := fun t => (Raised 48 (Pg.CLS + CLS.LOOKUPS) 1 s.d t ∧ Raised 48 (Pg.CLS + CLS.HITS) 1 s.d t) ∧ t.sram i = v.sram i)
    fun t h => ⟨raised_after_lookup (hit := true) hframe h, Dev.sram_of_cls (h.2 .cls (by decide)) i⟩
  exact ⟨t, ht, hpend, _, hpk, rfl, rfl, rfl, rfl, rfl, hraised.1, hraised.2, hsr.trans hsram⟩

theorem gives_lookup_miss (hs : s.d.Serves (s.d.digestOf (s.d.keyOf p x.window)))
    (hi : s.d.findEnt (s.d.digestOf (s.d.keyOf p x.window)) = none) :
    Gives (.classifierLookup p false [] []) s (fun t => ∃ l : Lookup,
      t.packets p = pre ++ { x with lookup := some l, fetched := if s.d.resident l.flow then [] else [l.flow] } :: post
        ∧ l.hit = false ∧ l.key = s.d.keyOf p x.window ∧ l.digest = s.d.digestOf (s.d.keyOf p x.window)
        ∧ l.flow = s.d.fld (Pg.CLS_MISS + 16 * p + CLS_MISS.DEF_FLOW) 0 25
        ∧ l.ops = s.d.profileOps (s.d.fld (Pg.CLS_MISS + 16 * p + CLS_MISS.MISS_CFG) 0 10)
        ∧ Raised 48 (Pg.CLS + CLS.LOOKUPS) 1 s.d t ∧ Raised 48 (Pg.CLS + CLS.MISSES) 1 s.d t) := by
  set u := s.d.lookupDone p x.window false with hu
  obtain ⟨b, v, hr, hv⟩ := Dev.lookupOf_miss hs hi
  have hframe : Frame [.cls] Dev.LearnRegs u v := by
    rcases hv with rfl | rfl
    · exact Frame.refl u
    · exact Dev.learnQueue_frame _ _ _ _
  have hflow : v.flow = u.flow := hframe.2 .flow (by decide)
  have hcache : v.flow.cache = s.d.flow.cache := by rw [hflow, hu, Dev.cache_lookupDone]
  obtain ⟨t, ht, hpend, hpk, hraised⟩ := gives_lookup hl hr hcache
    (P := fun t => Raised 48 (Pg.CLS + CLS.LOOKUPS) 1 s.d t ∧ Raised 48 (Pg.CLS + CLS.MISSES) 1 s.d t)
    fun t h => raised_after_lookup (hit := false) hframe h
  exact ⟨t, ht, hpend, _, hpk, rfl, rfl, rfl, rfl, rfl, hraised.1, hraised.2⟩

theorem gives_staging_full_waiting (busy : List (Fin 8)) (ecc : List (Fin 2 × Bool)) (h : x.last = none) :
    Gives (.classifierLookup p true busy ecc) s (fun t => t.packets p = pre ++ { x with refused := some 5, slot := false } :: post) := by
  refine gives_run (Eq.refl (execClassifierLookup p true busy ecc s)) ?_
  rw [Dev.classify_full_waiting hl busy ecc h, Dev.packets_settle, Dev.packets_of_flow ((Dev.unenter_frame _ p x).2 .flow (by decide)),
    Dev.packets_setPackets_same]

theorem gives_staging_full_ended (busy : List (Fin 8)) (ecc : List (Fin 2 × Bool)) (h : x.last ≠ none) :
    Gives (.classifierLookup p true busy ecc) s (fun t => t.packets p = pre ++ post
      ∧ Raised 48 (Pg.DROP + 0x100 + 0xA0 * p.val + 0x10 * 5) 1 s.d t) := by
  set u := (s.d.setPackets p (pre ++ post)).unenter p x with hu
  have hunenter := (s.d.setPackets p (pre ++ post)).unenter_frame p x
  have hflow : (u.drop p 5 x.len).flow = u.flow :=
    (Frame.drop (ps := []) (A := fun _ => True) p 5 x.len fun _ _ => trivial).2 .flow (by decide)
  have hfar : ∀ a, WideRegs (Pg.DROP + 0x100 + 0xA0 * p.val + 0x10 * 5) a →
      ¬ (WideRegs (Dev.adBase p + ADMIT.ENTERED) a ∨ Dev.PendRegs p a) := by
    have := p.isLt
    rintro a (rfl | rfl) <;> simp only [WideRegs, Dev.PendRegs, Dev.adBase, Pg.DROP, Pg.ADMIT, Pg.FLOW, ADMIT.ENTERED, ADMIT.PENDING,
      ADMIT.PEAK, FLOW.JOURNAL_STATUS, FLOW.JOURNAL_PEAK] <;> omega
  refine gives_run (Eq.refl (execClassifierLookup p true busy ecc s)) ?_
  rw [Dev.classify_full_ended hl busy ecc h]
  refine ⟨?_, (((u.raised_drop p.isLt (by decide) (by decide) (by decide) x.len).after hunenter hfar).after
    (Frame.setPackets (ps := [.flow]) (A := fun _ => False) p _ (by decide)) fun _ _ => id).settle⟩
  rw [Dev.packets_settle, Dev.packets_of_flow hflow, hu, Dev.packets_of_flow (hunenter.2 .flow (by decide)), Dev.packets_setPackets_same]

end

end Sys2Proof
end

