-- ==== Sys2Proof/Proofs/Reload.lean ====
section
/-! A bucket reloaded from the shadow (05, R155), and with it the obligation on admission and lookups. -/

namespace Sys2Proof

open Machine

/-- A key that a table does not list reads as its default. -/
theorem Machine.Sparse.get_of_not_mem {α : Type} (d : Nat → α) (m : Sparse α) {k : Nat} (h : k ∉ m.map Prod.fst) :
    Sparse.get d m k = d k := by
  induction m with
  | nil => rfl
  | cons q r ih =>
    rw [List.map_cons, List.mem_cons, not_or] at h
    obtain ⟨hq, hr⟩ := h
    rw [Sparse.get, if_neg (Ne.symm hq), ih hr]

namespace Machine.Dev

/-! ### The entries of a range -/

/-- The step of a reload that is no restore. -/
def reloadOne (t : Dev) (i : Nat) : Dev := t.setSram i ((t.reloadEnt i).getD 0)

theorem reloadRange_eq (s : Dev) (lo n : Nat) : s.reloadRange lo n false = (s.listed lo n).eraseDups.foldl reloadOne s := by
  unfold reloadRange
  congr 1
  funext t i
  rw [reloadOne]
  cases t.reloadEnt i <;> rfl

@[simp] theorem reloadEnt_reloadOne (s : Dev) (i j : Nat) : (s.reloadOne i).reloadEnt j = s.reloadEnt j := rfl

/-- Entries taken from the shadow one after another. -/
theorem sram_foldl_reloadOne (l : List Nat) (s : Dev) (i : Nat) :
    (l.foldl reloadOne s).sram i = if i ∈ l then (s.reloadEnt i).getD 0 else s.sram i := by
  induction l generalizing s with
  | nil => rfl
  | cons j l ih =>
    rw [List.foldl_cons, ih, reloadEnt_reloadOne]
    by_cases hl : i ∈ l
    · rw [if_pos hl, if_pos (List.mem_cons_of_mem _ hl)]
    · by_cases hj : i = j
      · subst hj
        rw [if_neg hl, if_pos List.mem_cons_self, reloadOne, sram_setSram_same]
      · rw [if_neg hl, if_neg (by simp [hl, hj]), reloadOne, sram_setSram_ne _ _ hj]

/-- A shadow entry never written is of an entry not in use. -/
theorem reloadEnt_unlisted {s : Dev} {i : Nat} (h : i ∉ s.cls.shadow.map Prod.fst) : (s.reloadEnt i).getD 0 = 0 := by
  have hv : s.shadowAt i = mkShadow 0 0 := Sparse.get_of_not_mem _ _ h
  have he : (BitVec.setWidth 80 (mkShadow 0 0) : Ent) = 0 := by
    apply BitVec.eq_of_toNat_eq
    rw [BitVec.toNat_setWidth, mkShadow, BitVec.toNat_ofNat]
    simp only [Nat.zero_mod, Nat.zero_mul, Nat.add_zero]
    omega
  simp only [reloadEnt, hv, he]
  split <;> rfl

/-- Every entry of a range reloaded holds what its shadow entry gives. -/
theorem sram_reloadRange (s : Dev) {lo n i : Nat} (h : lo ≤ i) (h' : i < lo + n) :
    (s.reloadRange lo n false).sram i = (s.reloadEnt i).getD 0 := by
  rw [reloadRange_eq, sram_foldl_reloadOne]
  split
  · rfl
  · next hl =>
    have hkeys : i ∉ s.cls.table.map Prod.fst ++ s.cls.shadow.map Prod.fst := fun hm =>
      hl (List.mem_eraseDups.mpr (List.mem_filter.mpr ⟨hm, by simp [h, h']⟩))
    obtain ⟨htable, hshadow⟩ := not_or.mp (mt List.mem_append.mpr hkeys)
    rw [reloadEnt_unlisted hshadow]
    exact Sparse.get_of_not_mem _ _ htable

/-- A reload writes no register. -/
theorem reloadRange_frame (s : Dev) (lo n : Nat) : Frame [.cls] (fun _ => False) s (s.reloadRange lo n false) := by
  rw [reloadRange_eq]
  exact Frame.foldl_mem fun _ _ _ => Frame.setCls _ (by decide)

/-! ### The occupancy counted afresh -/

/-- The registers that show it. -/
def OccRegs (a : Nat) : Prop := (∃ b, b < 8 ∧ a = bankBase b + CLS_BANK.BANK_OCC) ∨ a = Pg.CLS + CLS.OCCUPANCY

theorem recount_frame (s : Dev) : Frame [] OccRegs s s.recount :=
  (Frame.foldl_mem fun _ b hb => Frame.setF 0 20 _ (.inl ⟨b, List.mem_range.mp hb, rfl⟩)).trans (Frame.setF _ _ _ (.inr rfl))

theorem not_occRegs {b off : Nat} (hb : b < 8) (h : off = CLS_BANK.ECC_UNC ∨ off = CLS_BANK.RELOADS) : ¬ OccRegs (bankBase b + off) := by
  rintro (⟨c, hc, e⟩ | e) <;>
    simp only [bankBase, Pg.CLS_BANK, Pg.CLS, CLS.OCCUPANCY, CLS_BANK.BANK_OCC, CLS_BANK.ECC_UNC, CLS_BANK.RELOADS] at e h <;> omega

end Machine.Dev

theorem gives_bucketReload (s : State) (bank : Fin 8) (bucket : BitVec 17) : Gives (.bucketReload bank bucket) s (fun t =>
    (∀ w, w < 4 → t.sram (524288 * bank.val + 4 * bucket.toNat + w)
      = (s.d.reloadEnt (524288 * bank.val + 4 * bucket.toNat + w)).getD 0)
    ∧ Counted (Dev.bankBase bank + CLS_BANK.ECC_UNC) s.d t ∧ Counted (Dev.bankBase bank + CLS_BANK.RELOADS) s.d t
    ∧ t.bit (Pg.CLS_BANK (bank.val / 2) + HDR.INT_STATUS) (8 + bank.val % 2) = true) := by
  set a := Dev.bankBase bank with ha
  set lo := 524288 * bank.val + 4 * bucket.toNat with hlo
  set u : Dev := { s.d with cls := { s.d.cls with badBuckets := s.d.cls.badBuckets.filter (· != lo / 4) } } with hu
  set v := (u.reloadRange lo 4 false).recount with hv
  set x := (v.count (a + CLS_BANK.ECC_UNC)).count (a + CLS_BANK.RELOADS) with hx
  set y := x.raise (Pg.CLS_BANK (bank.val / 2)) (8 + bank.val % 2) with hy
  have hvregs : Frame [.cls] Dev.OccRegs s.d v := ((Frame.setCls _ (by decide)).trans
    ((u.reloadRange_frame lo 4).mono (fun _ => id) fun _ => False.elim)).trans ((Dev.recount_frame _).mono (by simp) fun _ => id)
  have hcls : y.cls = (u.reloadRange lo 4 false).cls := by
    rw [hy, hx]
    simp only [Dev.raise_frame, Dev.count_frame]
    exact (Dev.recount_frame _).2 .cls (by decide)
  have hlog : ∀ b, 0x1000 ≤ b → (settle (y.logFault 10 (Dev.islandOf 0x064) none false bank 0)).rd b = y.rd b := fun b hb =>
    (settle_rd _ _).trans (Dev.rd_logFault _ (by decide) _ _ _ _ _ hb)
  have hpage : ∀ off, off = CLS_BANK.ECC_UNC ∨ off = CLS_BANK.RELOADS →
      0x1000 ≤ a + off ∧ a + off ≠ Pg.CLS_BANK (bank.val / 2) + HDR.INT_STATUS := by
    intro off h
    simp only [ha, Dev.bankBase, Pg.CLS_BANK, HDR.INT_STATUS, CLS_BANK.ECC_UNC, CLS_BANK.RELOADS] at h ⊢
    omega
  refine gives_run (Eq.refl (execBucketReload bank bucket s)) ⟨fun w hw => ?_, ?_, ?_, ?_⟩
  · have hlogcls : (y.logFault 10 (Dev.islandOf 0x064) none false bank 0).cls = y.cls :=
      (Frame.logFault (ps := [.log]) (A := fun _ => True) (by decide) _ _ _ _ _ (by simp) fun _ _ => trivial).2 .cls (by decide)
    have hs : (u.reloadRange lo 4 false).sram (lo + w) = (u.reloadEnt (lo + w)).getD 0 :=
      u.sram_reloadRange (Nat.le_add_right _ _) (by omega)
    exact (Dev.sram_settle _ _).trans ((Dev.sram_of_cls (hlogcls.trans hcls) _).trans hs)
  · rw [Counted, hlog _ (hpage _ (.inl rfl)).1, hy, Dev.rd_raise_ne _ _ _ (hpage _ (.inl rfl)).2, hx, Dev.rd_count_ne _ _ _ (by simp),
      Dev.rd_count_same, hvregs.1 _ (Dev.not_occRegs bank.isLt (.inl rfl))]
    rfl
  · rw [Counted, hlog _ (hpage _ (.inr rfl)).1, hy, Dev.rd_raise_ne _ _ _ (hpage _ (.inr rfl)).2, hx, Dev.rd_count_same,
      Dev.rd_count_ne _ _ _ (by simp), hvregs.1 _ (Dev.not_occRegs bank.isLt (.inr rfl))]
    rfl
  · rw [Dev.bit, hlog _ (by simp only [Pg.CLS_BANK]; omega), hy, Dev.rd_raise_same]
    exact bitOf_withBit _ _ _ (by omega)

/-- Settles O17: what a header window does, what the classifier gives, and the reload of a bucket. -/
theorem packetAdmissionAndLookups : Obligations.PacketAdmissionAndLookups := by
  unfold Obligations.PacketAdmissionAndLookups
  refine ⟨fun s p window len rx => ?_, fun s p pre post x => ?_⟩
  · intro time y control joins b come
    have hcontrol : Dev.macControl window = true ↔ control := macControl_iff window
    refine ⟨fun h => gives_headerWindow_ignored (h.imp_right hcontrol.mpr), fun hr hnot => ?_⟩
    have hc : Dev.macControl window = false := Bool.eq_false_iff.mpr (mt hcontrol.mp hnot)
    exact ⟨gives_headerWindow_safe hr hc, gives_headerWindow_guarded hr hc, gives_headerWindow_fallback hr hc,
      gives_headerWindow_full hr hc, gives_headerWindow_entered hr hc⟩
  · intro cfg parsed key d miss serves took
    exact ⟨fun hl => ⟨fun i hs hi => gives_lookup_hit hl hs hi, fun hs hi => gives_lookup_miss hl hs hi,
      gives_staging_full_waiting hl, gives_staging_full_ended hl⟩, gives_bucketReload s⟩

end Sys2Proof
end

