-- ==== Sys2Proof/Proofs/Settling.lean ====
section
/-! Every command ends by settling its interrupts, and what a settled device does when a cause of one more group is set: the
groups that rise, their messages and INT_N (02, R42, R72, R73; 16, R413). -/

namespace Sys2Proof

open Machine

/-! ### Every step settles -/

/-- Every command's meaning ends by settling the interrupts of the device it leaves. -/
theorem exec_eq_after (i : Instr) (s : State) : ∃ d : Dev, exec i s = .next (s.after d) := by
  cases i <;> exact ⟨_, rfl⟩

theorem settled_of_after {s t : State} {d : Dev} {r : Out} (h : r = .next (s.after d)) (ht : r = .next t) : Settled t :=
  Host.Outcome.next.inj (h.symm.trans ht) ▸ s.after_settled d

/-- Settles O3: a command and an idle nanosecond both end by settling. -/
theorem everyStepSettles : Obligations.EveryStepSettles := by
  unfold Obligations.EveryStepSettles
  intro s t _ h
  cases hp : s.pending with
  | nil => exact settled_of_after (s := s) (d := s.d.idle) (by simp only [step, hp]) h
  | cons c rest =>
    obtain ⟨d, hd⟩ := exec_eq_after c { s with pending := rest }
    exact settled_of_after (by simpa only [step, hp] using hd) h

/-! ### The registers of a page -/

theorem pageOf_add (p : Nat) {off : Nat} (h : off < 0x1000) : (p * 0x1000 + off) / 0x1000 = p := by omega

theorem offsetOf_add (p : Nat) {off : Nat} (h : off < 0x1000) : (p * 0x1000 + off) % 0x1000 = off := by omega

/-- An address on another page is none of the page's registers. -/
theorem ne_add_of_page {a p off : Nat} (h : a / 0x1000 ≠ p) (ho : off < 0x1000) : p * 0x1000 + off ≠ a := by omega

/-! ### Pending pages and groups -/

namespace Machine

theorem Sparse.mem_of_get_ne {α : Type} {d : Nat → α} {m : Sparse α} {k : Nat} (h : get d m k ≠ d k) : (k, get d m k) ∈ m := by
  induction m with
  | nil => exact absurd rfl h
  | cons p r ih =>
    by_cases hp : p.1 = k
    · simp [get, ← hp]
    · simp only [get, hp, if_false] at h ⊢
      exact List.mem_cons_of_mem _ (ih h)

theorem Sparse.mem_put_ne {α : Type} [DecidableEq α] {d : Nat → α} {m : Sparse α} {k : Nat} {v : α} {p : Nat × α} (h : p.1 ≠ k) :
    p ∈ put d m k v ↔ p ∈ m := by
  have hdrop : p ∈ drop k m ↔ p ∈ m := by
    induction m with
    | nil => rfl
    | cons q r ih =>
      by_cases hq : q.1 = k
      · have : p ≠ q := fun e => h (e ▸ hq)
        simp [drop, hq, ih, this]
      · simp [drop, hq, ih]
  have hplace : ∀ r : Sparse α, p ∈ place k v r ↔ p ∈ r := by
    intro r
    have hne : p ≠ (k, v) := fun e => h (congrArg Prod.fst e)
    induction r with
    | nil => simp [place, hne]
    | cons q r ih => by_cases hk : k < q.1 <;> simp [place, hk, ih, hne]
  unfold put
  split
  · exact hdrop
  · exact (hplace _).trans hdrop

theorem mem_pendingPages {s : Dev} {p : Nat} : p ∈ pendingPages s ↔
    ∃ v, (p * 0x1000 + HDR.INT_STATUS, v) ∈ s.regs ∧ v &&& s.rd (p * 0x1000 + HDR.INT_ENABLE) ≠ 0 := by
  simp only [pendingPages, List.mem_map, List.mem_filter, Bool.and_eq_true, decide_eq_true_eq, bne_iff_ne]
  constructor
  · rintro ⟨⟨a, v⟩, ⟨hm, ho, hv⟩, rfl⟩
    have hst : a / 0x1000 * 0x1000 + HDR.INT_STATUS = a := ho ▸ Nat.div_add_mod' a 0x1000
    refine ⟨v, ?_, ?_⟩
    · rwa [hst]
    · rwa [show HDR.INT_ENABLE = HDR.INT_STATUS + 4 from rfl, ← Nat.add_assoc, hst]
  · rintro ⟨v, hm, hv⟩
    refine ⟨(p * 0x1000 + HDR.INT_STATUS, v), ⟨hm, ?_, ?_⟩, ?_⟩
    · exact offsetOf_add p (by decide)
    · rwa [Nat.add_assoc]
    · exact pageOf_add p (by decide)

theorem mem_pendingGroups {s : Dev} {g : Nat} : g ∈ pendingGroups s ↔ g < 23 ∧ ∃ p ∈ pendingPages s, pageGroup p = some g := by
  simp [pendingGroups]

/-- A page with an enabled cause is pending: `INT_STATUS` resets to 0, so it is listed. -/
theorem pendingPages_of_live {s : Dev} {p : Nat}
    (h : s.rd (p * 0x1000 + HDR.INT_STATUS) &&& s.rd (p * 0x1000 + HDR.INT_ENABLE) ≠ 0) : p ∈ pendingPages s := by
  have hreset : regReset (p * 0x1000 + HDR.INT_STATUS) = 0 := by
    have e : (p * 0x1000 + HDR.INT_STATUS) % 0x1000 = 0x10 := offsetOf_add p (by decide)
    unfold regReset
    split
    · rfl
    · simp [e]
  refine mem_pendingPages.mpr ⟨_, Sparse.mem_of_get_ne (d := regReset) fun e => h ?_, h⟩
  rw [Dev.rd, e, hreset]
  exact BitVec.zero_and

/-- A write of a register bears on the pending state of its own page alone. -/
theorem mem_pendingPages_wr {s : Dev} {a p : Nat} (v : Word) (h : a / 0x1000 ≠ p) :
    p ∈ pendingPages (s.wr a v) ↔ p ∈ pendingPages s := by
  have hst : p * 0x1000 + HDR.INT_STATUS ≠ a := ne_add_of_page h (by decide)
  have hen : p * 0x1000 + HDR.INT_ENABLE ≠ a := ne_add_of_page h (by decide)
  have hrd : (s.wr a v).rd (p * 0x1000 + HDR.INT_ENABLE) = s.rd (p * 0x1000 + HDR.INT_ENABLE) := s.rd_wr_ne _ _ hen
  have hmem : ∀ w, (p * 0x1000 + HDR.INT_STATUS, w) ∈ (s.wr a v).regs ↔ (p * 0x1000 + HDR.INT_STATUS, w) ∈ s.regs := fun w =>
    Sparse.mem_put_ne hst
  simp only [mem_pendingPages, hmem, hrd]

/-- A write on a page of group g bears on no other group. -/
theorem mem_pendingGroups_wr {s : Dev} {a g g' : Nat} (v : Word) (hg : pageGroup (a / 0x1000) = some g) (h : g' ≠ g) :
    g' ∈ pendingGroups (s.wr a v) ↔ g' ∈ pendingGroups s := by
  have hpage : ∀ p, pageGroup p = some g' → (p ∈ pendingPages (s.wr a v) ↔ p ∈ pendingPages s) := fun p hp =>
    mem_pendingPages_wr v fun e => h (Option.some.inj (hp.symm.trans (e ▸ hg)))
  simp only [mem_pendingGroups]
  exact and_congr_right fun _ => exists_congr fun p => and_congr_left (hpage p)

/-! ### What settling does -/

/-- A device whose interrupt outputs agree with its pages stays as it is. -/
theorem settle_of_agrees {s : Dev} (hg : s.groups = pendingGroups s) (hn : s.intN = intNLevel s) : settle s = s := by
  have hnone : (pendingGroups s).filter (fun g => !s.groups.contains g) = [] := by
    simp [hg]
  simp only [settle, hnone, List.foldl_nil]
  rw [← hg, ← hn]

/-- One group's status has risen: its message is sent. -/
theorem settle_of_risen {s : Dev} {g : Nat} (h : (pendingGroups s).filter (fun x => !s.groups.contains x) = [g]) :
    settle s = { groupMessage s g with groups := pendingGroups s, intN := intNLevel s } := by
  simp only [settle, h, List.foldl_cons, List.foldl_nil]

/-- A group that becomes pending with no other is the one whose status rises. -/
theorem risen_eq_singleton {s : Dev} {g : Nat} (hg : g ∈ pendingGroups s) (hnot : g ∉ s.groups)
    (hother : ∀ x, x ≠ g → (x ∈ pendingGroups s → x ∈ s.groups)) :
    (pendingGroups s).filter (fun x => !s.groups.contains x) = [g] := by
  have hnodup : (pendingGroups s).Nodup := List.nodup_range.filter _
  have hsel : ∀ x ∈ pendingGroups s, (!s.groups.contains x) = (x == g) := by
    intro x hx
    by_cases e : x = g
    · simp [e, hnot]
    · simp [e, hother x e hx]
  rw [List.filter_congr hsel, List.filter_beq, List.count_eq_one_of_mem hnodup hg]
  rfl

theorem groupMessage_silent {s : Dev} {g : Nat} (h : bitOf (s.route g) 8 = false) : groupMessage s g = s := by
  simp [groupMessage, h]

theorem groupMessage_sends {s : Dev} {g : Nat} (h : bitOf (s.route g) 8 = true)
    (hm : s.msixMasked (fieldOf (s.route g) 0 6) = false) :
    groupMessage s g = { s with out := .msix (fieldOf (s.route g) 0 6) :: s.out } := by
  simp [groupMessage, h, Dev.sendMsix, hm]

theorem groupMessage_holds {s : Dev} {g : Nat} (h : bitOf (s.route g) 8 = true)
    (hm : s.msixMasked (fieldOf (s.route g) 0 6) = true) : groupMessage s g
      = { s with hif := { s.hif with pend := Sparse.put (fun _ => false) s.hif.pend (fieldOf (s.route g) 0 6) true } } := by
  simp [groupMessage, h, Dev.sendMsix, hm]

end Machine

/-! ### A cause is forced (R42) -/

/-- Causes set on a page whose group was not pending raise that group alone. -/
theorem risen_of_orBits {s : Dev} {page g : Nat} {v : Word} (hs : s.groups = pendingGroups s) (hg : pageGroup page = some g)
    (hlt : g < 23) (hnot : g ∉ s.groups)
    (hlive : (s.rd (page * 0x1000 + HDR.INT_STATUS) ||| v) &&& s.rd (page * 0x1000 + HDR.INT_ENABLE) ≠ 0) :
    let t := s.orBits (page * 0x1000 + HDR.INT_STATUS) v
    g ∈ pendingGroups t ∧ (pendingGroups t).filter (fun x => !t.groups.contains x) = [g] := by
  intro t
  have hpage : (page * 0x1000 + HDR.INT_STATUS) / 0x1000 = page := pageOf_add page (by decide)
  have hen : page * 0x1000 + HDR.INT_ENABLE ≠ page * 0x1000 + HDR.INT_STATUS := by simp
  have hpend : page ∈ pendingPages t := pendingPages_of_live (by
    rwa [Dev.rd_orBits_same, Dev.rd_orBits_ne _ _ _ hen])
  have hmem : g ∈ pendingGroups t := mem_pendingGroups.mpr ⟨hlt, page, hpend, hg⟩
  have hgroups : t.groups = s.groups := by simp [t]
  refine ⟨hmem, risen_eq_singleton hmem (hgroups ▸ hnot) fun x hx hin => ?_⟩
  rw [hgroups, hs]
  exact (mem_pendingGroups_wr _ (hpage.symm ▸ hg) hx).mp hin

end Sys2Proof
end

