-- ==== Sys2Proof/Proofs/Messages.lean ====
section
/-! The pending interrupt messages that leave when a vector or the function is unmasked (16, R413), and the interrupt of a
forced cause (02, R42, R72, R73). -/

namespace Sys2Proof

open Machine

theorem Frame.setHif {ps : List Part} {A : Nat → Prop} {s : Dev} (v : HostIf) (h : .hif ∈ ps) : Frame ps A s { s with hif := v } :=
  ofPart h (fun _ => rfl) fun p hp => by
    cases p with
    | hif => exact absurd rfl hp
    | _ => rfl

namespace Machine

theorem pendingGroups_of_regs {s t : Dev} (h : t.regs = s.regs) : pendingGroups t = pendingGroups s := by
  simp only [pendingGroups, pendingPages, Dev.rd, h]

theorem intNLevel_of_regs {s t : Dev} (h : t.regs = s.regs) : intNLevel t = intNLevel s := by
  simp only [intNLevel, pendingGroups_of_regs h, Dev.route, Dev.rd, h]

namespace Dev

/-- The message held for a vector. -/
def held (s : Dev) (v : Nat) : Bool := Sparse.get (fun _ => false) s.hif.pend v

/-- One vector of `pendingSent`: its held message leaves unless it is masked. -/
def sendHeld (s : Dev) (v : Nat) : Dev :=
  if s.held v && !s.msixMasked v then
    { s.emit (.msix v) with hif := { s.hif with pend := Sparse.put (fun _ => false) s.hif.pend v false } }
  else s

theorem pendingSent_eq (s : Dev) : s.pendingSent = (List.range 64).foldl sendHeld s := rfl

variable {s : Dev} {v : Nat}

theorem sendHeld_idle (h : (s.held v && !s.msixMasked v) = false) : s.sendHeld v = s := by
  simp [sendHeld, h]

theorem sendHeld_sends (h : (s.held v && !s.msixMasked v) = true) : s.sendHeld v =
    { s.emit (.msix v) with hif := { s.hif with pend := Sparse.put (fun _ => false) s.hif.pend v false } } := by
  simp only [sendHeld, h, if_true]

@[simp] theorem msixMasked_sendHeld (w : Nat) : (s.sendHeld v).msixMasked w = s.msixMasked w := by
  unfold sendHeld
  split <;> rfl

theorem held_sendHeld (w : Nat) : (s.sendHeld v).held w = (s.held w && (w != v || s.msixMasked w)) := by
  cases h : s.held v && !s.msixMasked v with
  | true =>
    rw [sendHeld_sends h]
    by_cases e : w = v
    · subst e
      simp_all [held]
    · simp [held, Sparse.get_put_ne _ _ _ e, e]
  | false =>
    rw [sendHeld_idle h]
    by_cases e : w = v
    · subst e
      cases hw : s.held w <;> simp_all
    · simp [e]

theorem out_sendHeld : (s.sendHeld v).out = (if s.held v && !s.msixMasked v then [.msix v] else []) ++ s.out := by
  unfold sendHeld
  split <;> rfl

theorem sendHeld_frame : Frame [.hif] (fun _ => False) s (s.sendHeld v) := by
  cases h : s.held v && !s.msixMasked v with
  | true =>
    rw [sendHeld_sends h]
    refine ⟨fun _ _ => rfl, fun p hp => ?_⟩
    cases p with
    | hif => exact absurd (List.mem_singleton.mpr rfl) hp
    | _ => rfl
  | false =>
    rw [sendHeld_idle h]
    exact Frame.refl s

theorem sendHeld_keeps : (s.sendHeld v).regs = s.regs ∧ (s.sendHeld v).groups = s.groups ∧ (s.sendHeld v).intN = s.intN
    ∧ (s.sendHeld v).hif.masked = s.hif.masked ∧ (s.sendHeld v).hif.funcMask = s.hif.funcMask := by
  unfold sendHeld
  split <;> exact ⟨rfl, rfl, rfl, rfl, rfl⟩

theorem foldl_sendHeld_keeps (l : List Nat) (s : Dev) : (l.foldl sendHeld s).regs = s.regs
    ∧ (l.foldl sendHeld s).groups = s.groups ∧ (l.foldl sendHeld s).intN = s.intN
    ∧ (l.foldl sendHeld s).hif.masked = s.hif.masked ∧ (l.foldl sendHeld s).hif.funcMask = s.hif.funcMask := by
  induction l generalizing s with
  | nil => exact ⟨rfl, rfl, rfl, rfl, rfl⟩
  | cons v l ih => simpa only [List.foldl_cons, sendHeld_keeps] using ih (s.sendHeld v)

/-- A held message of an unmasked vector leaves, every other one stays held. -/
theorem held_foldl_sendHeld (l : List Nat) (s : Dev) (w : Nat) :
    (l.foldl sendHeld s).held w = (s.held w && (!l.contains w || s.msixMasked w)) := by
  induction l generalizing s with
  | nil => simp
  | cons v l ih =>
    rw [List.foldl_cons, ih, held_sendHeld, msixMasked_sendHeld]
    by_cases e : w = v <;> cases s.held w <;> cases s.msixMasked w <;> simp [e]

/-- The messages that leave, in the order of their vectors, the last in front. -/
theorem out_foldl_sendHeld {l : List Nat} (hl : l.Nodup) (s : Dev) :
    (l.foldl sendHeld s).out = ((l.filter (fun v => s.held v && !s.msixMasked v)).map Output.msix).reverse ++ s.out := by
  induction l generalizing s with
  | nil => rfl
  | cons v l ih =>
    obtain ⟨hv, hl⟩ := List.nodup_cons.mp hl
    have hrest : ∀ w ∈ l, ((s.sendHeld v).held w && !(s.sendHeld v).msixMasked w) = (s.held w && !s.msixMasked w) := fun w hw => by
      have hne : (w != v) = true := bne_iff_ne.mpr fun e => hv (e ▸ hw)
      rw [held_sendHeld, msixMasked_sendHeld, hne, Bool.true_or, Bool.and_true]
    rw [List.foldl_cons, ih hl, List.filter_congr hrest, out_sendHeld]
    cases h : s.held v && !s.msixMasked v <;> simp [h]

theorem pendingSent_frame (s : Dev) : Frame [.hif] (fun _ => False) s s.pendingSent :=
  Frame.foldl (fun _ _ => sendHeld_frame) _

theorem held_pendingSent (s : Dev) {w : Nat} (hw : w < 64) : s.pendingSent.held w = (s.held w && s.msixMasked w) := by
  rw [pendingSent_eq, held_foldl_sendHeld]
  simp [hw]

theorem out_pendingSent (s : Dev) : s.pendingSent.out
    = (((List.range 64).filter (fun v => s.held v && !s.msixMasked v)).map Output.msix).reverse ++ s.out :=
  out_foldl_sendHeld List.nodup_range s

/-- With every vector masked nothing is sent. -/
theorem pendingSent_masked (h : ∀ v, s.msixMasked v = true) : s.pendingSent = s := by
  rw [pendingSent_eq]
  exact List.foldl_fixed' (fun v => sendHeld_idle (by simp [h])) _

/-- With one vector unmasked its message alone is sent. -/
theorem out_pendingSent_one {v : Nat} (hv : v < 64) (hon : s.msixMasked v = false)
    (hoff : ∀ w, w < 64 → w ≠ v → s.msixMasked w = true) :
    s.pendingSent.out = if s.held v then .msix v :: s.out else s.out := by
  have hsel : ∀ w ∈ List.range 64, (s.held w && !s.msixMasked w) = (s.held v && w == v) := fun w hw => by
    by_cases e : w = v
    · simp [e, hon]
    · simp [e, hoff w (List.mem_range.mp hw) e]
  rw [out_pendingSent, List.filter_congr hsel]
  cases s.held v with
  | true =>
    simp only [Bool.true_and, List.filter_beq, List.count_eq_one_of_mem List.nodup_range (List.mem_range.mpr hv)]
    rfl
  | false => simp

/-- A device that agrees with its pages still does when its held messages have left. -/
theorem settle_pendingSent (hg : s.groups = pendingGroups s) (hn : s.intN = intNLevel s) : settle s.pendingSent = s.pendingSent := by
  obtain ⟨hregs, hgroups, hint, -⟩ := foldl_sendHeld_keeps (List.range 64) s
  rw [← pendingSent_eq] at hregs hgroups hint
  exact settle_of_agrees (by rw [hgroups, pendingGroups_of_regs hregs, hg]) (by rw [hint, intNLevel_of_regs hregs, hn])

theorem pendingSent_hif (s : Dev) : s.pendingSent.hif.masked = s.hif.masked ∧ s.pendingSent.hif.funcMask = s.hif.funcMask := by
  obtain ⟨-, -, -, hmask, hfunc⟩ := foldl_sendHeld_keeps (List.range 64) s
  rw [pendingSent_eq]
  exact ⟨hmask, hfunc⟩

end Dev

end Machine

/-! ### What the commands give -/

section

variable {s : State} {m : Master} {page : BitVec 10} {v : Word} {g : Nat}

theorem gives_intForce (ha : Admits s m (page.toNat * 0x1000 + HDR.INT_FORCE)) :
    Gives (.intForce m page v) s (fun t => Frame [] (· = page.toNat * 0x1000 + HDR.INT_STATUS) s.d t
      ∧ t.rd (page.toNat * 0x1000 + HDR.INT_STATUS)
        = s.d.rd (page.toNat * 0x1000 + HDR.INT_STATUS) ||| v &&& Dev.causesOf page.toNat) :=
  gives_access (f := fun t => t.forceCauses page.toNat v) (Eq.refl (execIntForce m page v s)) ha
    ⟨(Frame.orBits (A := (· = _)) _ rfl).settle, (settle_rd _ _).trans (Dev.rd_orBits_same _ _ _)⟩

/-- A forced cause of a group that was not pending: the group is pending, and its message and INT_N follow its route. -/
theorem gives_intForce_risen (ha : Admits s m (page.toNat * 0x1000 + HDR.INT_FORCE)) (hs : Settled s)
    (hg : pageGroup page.toNat = some g) (hnot : g ∉ s.d.groups)
    (hlive : (s.d.rd (page.toNat * 0x1000 + HDR.INT_STATUS) ||| v &&& Dev.causesOf page.toNat)
      &&& s.d.rd (page.toNat * 0x1000 + HDR.INT_ENABLE) ≠ 0) (hlt : g < 23) :
    Gives (.intForce m page v) s (fun t => g ∈ t.groups ∧ (bitOf (s.d.route g) 9 = true → t.intN = true)
      ∧ (bitOf (s.d.route g) 8 = false → t.out = s.d.out ∧ t.hif = s.d.hif)
      ∧ (bitOf (s.d.route g) 8 = true → s.d.msixMasked (fieldOf (s.d.route g) 0 6) = false →
          t.out = .msix (fieldOf (s.d.route g) 0 6) :: s.d.out ∧ t.hif = s.d.hif)
      ∧ (bitOf (s.d.route g) 8 = true → s.d.msixMasked (fieldOf (s.d.route g) 0 6) = true →
          t.out = s.d.out ∧ Sparse.get (fun _ => false) t.hif.pend (fieldOf (s.d.route g) 0 6) = true)) := by
  refine gives_access (f := fun t => t.forceCauses page.toNat v) (Eq.refl (execIntForce m page v s)) ha ?_
  obtain ⟨hmem, hrisen⟩ := risen_of_orBits hs.1 hg hlt hnot hlive
  set u := s.d.orBits (page.toNat * 0x1000 + HDR.INT_STATUS) (v &&& Dev.causesOf page.toNat) with hu
  have hroute : u.route g = s.d.route g := Dev.rd_orBits_ne _ _ _ (by
    simp only [Pg.INTR, INTR.ROUTE, HDR.INT_STATUS]
    omega)
  have hmasked : u.msixMasked (fieldOf (s.d.route g) 0 6) = s.d.msixMasked (fieldOf (s.d.route g) 0 6) := rfl
  show _ ∧ _
  simp only [Dev.forceCauses, ← hu, settle_of_risen hrisen]
  refine ⟨hmem, fun h9 => ?_, fun h8 => ?_, fun h8 hm => ?_, fun h8 hm => ?_⟩
  · exact List.any_eq_true.mpr ⟨g, hmem, by rwa [hroute]⟩
  · rw [groupMessage_silent (by rwa [hroute])]
    exact ⟨rfl, rfl⟩
  · rw [groupMessage_sends (by rwa [hroute]) (by rwa [hroute, hmasked]), hroute]
    exact ⟨rfl, rfl⟩
  · rw [groupMessage_holds (by rwa [hroute]) (by rwa [hroute, hmasked]), hroute]
    exact ⟨rfl, Sparse.get_put_same (fun _ => false) u.hif.pend _ true⟩

variable {vec : Fin 64}

theorem gives_unmaskVector (hs : Settled s) : Gives (.msixUnmask (.vector vec) false) s (fun t =>
    Frame [.hif] (fun _ => False) s.d t ∧ Sparse.get (fun _ => true) t.hif.masked vec = false
    ∧ (s.d.hif.msixOn = false ∨ s.d.hif.funcMask = true → t.hif.pend = s.d.hif.pend ∧ t.out = s.d.out)
    ∧ (s.d.hif.msixOn = true → s.d.hif.funcMask = false →
        (∀ w : Fin 64, w ≠ vec → Sparse.get (fun _ => true) s.d.hif.masked w = true) →
        Sparse.get (fun _ => false) t.hif.pend vec = false
        ∧ t.out = (if Sparse.get (fun _ => false) s.d.hif.pend vec then .msix vec :: s.d.out else s.d.out))) := by
  refine gives_run (f := fun d => (d.maskVector vec false).pendingSent) (Eq.refl (execMsixUnmask (.vector vec) false s)) ?_
  set u := s.d.maskVector vec false with hu
  rw [show settle u.pendingSent = u.pendingSent from u.settle_pendingSent hs.1 hs.2]
  have hsame : Sparse.get (fun _ => true) u.hif.masked vec = false :=
    Sparse.get_put_same (fun _ => true) s.d.hif.masked _ false
  refine ⟨(Frame.setHif _ (List.mem_singleton.mpr rfl)).trans u.pendingSent_frame, ?_, fun h => ?_, fun hon hfunc hrest => ?_⟩
  · rwa [u.pendingSent_hif.1]
  · have hall : ∀ w, u.msixMasked w = true := fun w => by
      show (!s.d.hif.msixOn || s.d.hif.funcMask || _) = true
      rcases h with h | h <;> simp [h]
    rw [Dev.pendingSent_masked hall]
    exact ⟨rfl, rfl⟩
  · have hmask : ∀ w, u.msixMasked w = Sparse.get (fun _ => true) u.hif.masked w := fun w => by
      show (!s.d.hif.msixOn || s.d.hif.funcMask || _) = _
      simp [hon, hfunc]
    have hother : ∀ w, w < 64 → w ≠ vec.val → u.msixMasked w = true := fun w hw hne => by
      rw [hmask]
      exact (Sparse.get_put_ne (fun _ => true) s.d.hif.masked false hne).trans (hrest ⟨w, hw⟩ fun e => hne (congrArg Fin.val e))
    have hvec : u.msixMasked vec = false := (hmask vec).trans hsame
    exact ⟨(u.held_pendingSent vec.isLt).trans (by simp [hvec]), Dev.out_pendingSent_one vec.isLt hvec hother⟩

theorem gives_unmaskFunction (hs : Settled s) : Gives (.msixUnmask .function false) s (fun t =>
    Frame [.hif] (fun _ => False) s.d t ∧ t.hif.funcMask = false
    ∧ (s.d.hif.msixOn = true → Sparse.get (fun _ => true) s.d.hif.masked vec = false →
        Sparse.get (fun _ => false) t.hif.pend vec = false
        ∧ (Sparse.get (fun _ => false) s.d.hif.pend vec = true → Output.msix vec ∈ t.out))) := by
  refine gives_run (f := fun d => Dev.pendingSent { d with hif := { d.hif with funcMask := false } })
    (Eq.refl (execMsixUnmask .function false s)) ?_
  set u : Dev := { s.d with hif := { s.d.hif with funcMask := false } } with hu
  rw [show settle u.pendingSent = u.pendingSent from u.settle_pendingSent hs.1 hs.2]
  refine ⟨(Frame.setHif _ (List.mem_singleton.mpr rfl)).trans u.pendingSent_frame, u.pendingSent_hif.2, fun hon hmask => ?_⟩
  have hvec : u.msixMasked vec = false := by
    show (!s.d.hif.msixOn || false || Sparse.get (fun _ => true) s.d.hif.masked vec) = false
    simp [hon, hmask]
  refine ⟨(u.held_pendingSent vec.isLt).trans (by simp [hvec]), fun hpend => ?_⟩
  have hheld : u.held vec = true := hpend
  rw [Dev.out_pendingSent]
  exact List.mem_append_left _ (List.mem_reverse.mpr (List.mem_map_of_mem (List.mem_filter.mpr
    ⟨List.mem_range.mpr vec.isLt, by simp [hheld, hvec]⟩)))

end

/-- Settles O5: the causes forced, the message and INT_N of the group that rises, and the messages held while masked. -/
theorem interruptMessages : Obligations.InterruptMessages := by
  unfold Obligations.InterruptMessages
  intro s m page v g vec a set live
  exact ⟨gives_intForce, fun ha hs hg hnot hlive hlt => gives_intForce_risen ha hs hg hnot hlive hlt,
    gives_unmaskVector, gives_unmaskFunction⟩

end Sys2Proof
end

