-- ==== Sys2Proof/Proofs/Locks.lean ====
section
/-! Page locks and expert sessions: the rules of their updates, and what the commands on them give (02, R60 to R68, R75). -/

namespace Sys2Proof

open Machine

theorem Frame.setBus {ps : List Part} {A : Nat → Prop} {s : Dev} (v : Bus) (h : .bus ∈ ps) : Frame ps A s { s with bus := v } :=
  ofPart h (fun _ => rfl) fun p hp => by
    cases p with
    | bus => exact absurd rfl hp
    | _ => rfl

section

variable {ps : List Part} {A : Nat → Prop} (s : Dev) (m : Master) (p : Nat) (h : .bus ∈ ps)

include h

theorem Frame.setHolder (v : BitVec 8) : Frame ps A s (s.setHolder p v) := Frame.setBus _ h

theorem Frame.setBroken (l : List (BitVec 8)) : Frame ps A s (s.setBroken p l) := Frame.setBus _ h

theorem Frame.setKeySeen (b : Bool) : Frame ps A s (s.setKeySeen m b) := Frame.setBus _ h

theorem Frame.setExpert (b : Bool) : Frame ps A s (s.setExpert m b) := Frame.setBus _ h

end

/-! ### Masters -/

theorem Machine.masterOf_masterId (m : Master) : masterOf (masterId m).toNat = some m := by
  cases m with
  | loopSeq k => revert k; decide
  | laneSeq n => revert n; decide
  | _ => rfl

theorem Machine.masterId_injective : Function.Injective masterId := fun m m' h =>
  Option.some.inj ((masterOf_masterId m).symm.trans (h ▸ masterOf_masterId m'))

/-- No master's ID is the 0 of a free lock. -/
theorem Machine.masterId_ne_zero (m : Master) : masterId m ≠ 0 := fun h => by
  have hnone : masterOf (masterId m).toNat = none := by
    rw [h]
    rfl
  exact absurd (hnone.symm.trans (masterOf_masterId m)) (by simp)

/-! ### Rejected accesses -/

/-- A write that passes the checks concerns a page of the map. -/
theorem Machine.Dev.pageRow_of_writeErr {s : Dev} {m : Master} {a : Nat} {be : BitVec 4} {al : Bool} (h : s.writeErr m a be al = none) :
    (pageRow (a / 0x1000)).isSome = true := by
  by_contra hp
  have hun : s.writeErr m a be al = some Err.unmapped := if_pos (by simpa using hp)
  exact absurd (hun.symm.trans h) (by simp)

/-- The fields of the error record that a rejection leaves (R47). -/
theorem Rejected.fields {m : Master} {a code : Nat} {s t : Dev} (h : Rejected m a code s t) (hc : code < 256) :
    t.fld (a / 0x1000 * 0x1000 + HDR.ERR_INFO) 22 8 = code
    ∧ t.fld (a / 0x1000 * 0x1000 + HDR.ERR_INFO) 14 8 = (masterId m).toNat
    ∧ t.bit (a / 0x1000 * 0x1000 + HDR.ERR_INFO) 31 = true := by
  have hid : (masterId m).toNat < 256 := (masterId m).isLt
  have hoff : a % 0x1000 / 4 * 4 < 2 ^ 14 := by omega
  have hmulti : ∀ b : Bool, (if b then 2 ^ 30 else 0) = 2 ^ 30 * b.toNat := by decide
  obtain ⟨-, herr, -⟩ := h
  rw [hmulti] at herr
  generalize s.bit (a / 0x1000 * 0x1000 + HDR.ERR_INFO) 31 = b at herr
  have hb := b.toNat_lt
  simp only [Dev.fld, Dev.bit, herr, fieldOf, bitOf, BitVec.getLsbD_ofNat, BitVec.toNat_ofNat, Nat.testBit_eq_decide_div_mod_eq,
    Bool.and_eq_true, decide_eq_true_eq]
  omega

/-! ### Locks -/

namespace Machine.Dev

variable {s : Dev} {m : Master} {p : Nat} {v : Word}

theorem holder_of_bus {s t : Dev} (h : t.bus = s.bus) (p : Nat) : t.holder p = s.holder p := by rw [holder, h, holder]

theorem brokenOf_of_bus {s t : Dev} (h : t.bus = s.bus) (p : Nat) : t.brokenOf p = s.brokenOf p := by rw [brokenOf, h, brokenOf]

@[simp] theorem holder_settle (s : Dev) (p : Nat) : (settle s).holder p = s.holder p := holder_of_bus (by simp) p

@[simp] theorem brokenOf_settle (s : Dev) (p : Nat) : (settle s).brokenOf p = s.brokenOf p := brokenOf_of_bus (by simp) p

@[simp] theorem holder_setBroken (s : Dev) (q : Nat) (l : List (BitVec 8)) : (s.setBroken q l).holder p = s.holder p := rfl

@[simp] theorem brokenOf_setHolder (s : Dev) (q : Nat) (h : BitVec 8) : (s.setHolder q h).brokenOf p = s.brokenOf p := rfl

theorem holds_iff : s.holds m p = true ↔ s.holder p = masterId m := beq_iff_eq

/-- Any page's lock but that of the security page is freed with nothing else. -/
theorem freeLock_eq (h : p ≠ Pg.BOOT / 0x1000) : s.freeLock p = s.setHolder p 0 := if_neg h

theorem lockWrite_release (hh : s.holder p = masterId m) (hv : v.toNat % 256 = (masterId m).toNat) : s.lockWrite m p v = s.freeLock p :=
  if_pos ⟨holds_iff.mpr hh, hv⟩

theorem lockWrite_refuse (h : s.holder p ≠ masterId m ∨ v.toNat % 256 ≠ (masterId m).toNat) :
    s.lockWrite m p v = s.logErr m (p * 0x1000 + HDR.LOCK) Err.notHolder :=
  if_neg fun ⟨hh, hv⟩ => h.elim (fun hn => hn (holds_iff.mp hh)) (fun hn => hn hv)

/-- The masters that may break a lock: the host, and JTAG at debug level 1 or 2 (R65). -/
def mayBreak (s : Dev) (m : Master) : Prop := m = .host ∨ m = .jtag ∧ 1 ≤ s.debugLevel

theorem mayBreak_iff : (m == .host || (m == .jtag && decide (1 ≤ s.debugLevel))) = true ↔ s.mayBreak m := by
  simp [mayBreak]

theorem lockBreak_refused (h : ¬ s.mayBreak m) :
    s.lockBreak m 0xFFFFFFFF v = s.logErr m (Pg.LOCKS + LOCKS.LOCK_BREAK) Err.notHolder :=
  if_neg (mt mayBreak_iff.mp h)

/-- What a break of a page's lock leaves (R65, R75). -/
def lockBroken (s : Dev) (p : Nat) : Dev :=
  ((s.setBroken p ((s.brokenOf p).filter (· != s.holder p) ++ [s.holder p])).freeLock p).count (Pg.LOCKS + LOCKS.BREAK_COUNT)

theorem lockBreak_of_may (h : s.mayBreak m) : s.lockBreak m 0xFFFFFFFF v =
    if s.holder (v.toNat % 1024) = 0 then s else s.lockBroken (v.toNat % 1024) := by
  have hsel : (0xFFFFFFFF &&& v) = v := by
    rw [show (0xFFFFFFFF : Word) = BitVec.allOnes 32 from rfl, BitVec.allOnes_and]
  have hone : ¬ (0xFFFFFFFF : Word).toNat % 1024 = 0 := by decide
  simp only [lockBreak, need, mayBreak_iff.mpr h, if_true, hsel, hone, or_false]
  rfl

theorem mem_former {l : List (BitVec 8)} {x h : BitVec 8} (hx : x ∈ l) : x ∈ l.filter (· != h) ++ [h] := by
  by_cases e : x = h <;> simp [e, hx]

end Machine.Dev

section

variable {s : State} {m : Master} {page : BitVec 10} {v : Word}

theorem gives_lockWrite {P : Dev → Prop} (h : s.d.writeErr m (page.toNat * 0x1000 + HDR.LOCK) 0xF false = none)
    (hp : P (settle (s.d.lockWrite m page.toNat v))) : Gives (.lockWrite m page v) s P :=
  gives_run (Eq.refl (execLockWrite m page v s)) (by simpa only [h] using hp)

theorem gives_lockWrite_release (h : s.d.writeErr m (page.toNat * 0x1000 + HDR.LOCK) 0xF false = none)
    (hh : s.d.holder page.toNat = masterId m) (hv : v.toNat % 256 = (masterId m).toNat) (hp : page.toNat ≠ Pg.BOOT / 0x1000) :
    Gives (.lockWrite m page v) s (fun t => t.holder page.toNat = 0 ∧ (∀ q, q ≠ page.toNat → t.holder q = s.d.holder q)
      ∧ Frame [.bus] (fun _ => False) s.d t) := by
  refine gives_lockWrite h ?_
  rw [Dev.lockWrite_release hh hv, Dev.freeLock_eq hp]
  exact ⟨by simp, fun q hq => by simp [Dev.holder_setHolder_ne _ _ _ hq], (Frame.setBus _ (by simp)).settle⟩

theorem gives_lockWrite_refuse (h : s.d.writeErr m (page.toNat * 0x1000 + HDR.LOCK) 0xF false = none)
    (hn : s.d.holder page.toNat ≠ masterId m ∨ v.toNat % 256 ≠ (masterId m).toNat) :
    Gives (.lockWrite m page v) s (Rejected m (page.toNat * 0x1000 + HDR.LOCK) 0x07 s.d) := by
  refine gives_lockWrite h ?_
  rw [Dev.lockWrite_refuse hn, logErr_eq_logOn (Dev.pageRow_of_writeErr h) (by decide)]
  exact (rejected_logOn _ _ _ _).settle

theorem gives_lockBreak_breaks (ha : Admits s m (Pg.LOCKS + LOCKS.LOCK_BREAK)) (hm : s.d.mayBreak m)
    (hh : s.d.holder (v.toNat % 1024) ≠ 0) (hp : v.toNat % 1024 ≠ Pg.BOOT / 0x1000) :
    Gives (.lockBreak m v) s (fun t => t.holder (v.toNat % 1024) = 0
      ∧ s.d.holder (v.toNat % 1024) ∈ t.brokenOf (v.toNat % 1024)
      ∧ (∀ x ∈ s.d.brokenOf (v.toNat % 1024), x ∈ t.brokenOf (v.toNat % 1024))
      ∧ (∀ q, q ≠ v.toNat % 1024 → t.holder q = s.d.holder q)
      ∧ t.rd (Pg.LOCKS + LOCKS.BREAK_COUNT) = s.d.rd (Pg.LOCKS + LOCKS.BREAK_COUNT) + 1
      ∧ Frame [.bus] (· = Pg.LOCKS + LOCKS.BREAK_COUNT) s.d t) := by
  refine gives_access (f := fun t => t.lockBreak m 0xFFFFFFFF v) (Eq.refl (execLockBreak m v s)) ha ?_
  rw [Dev.lockBreak_of_may hm, if_neg hh, Dev.lockBroken, Dev.freeLock_eq hp]
  have hbus : Part.bus ∈ [Part.bus] := List.mem_singleton.mpr rfl
  generalize v.toNat % 1024 = p at *
  set u := s.d.setBroken p ((s.d.brokenOf p).filter (· != s.d.holder p) ++ [s.d.holder p]) with hu
  have hholder : ∀ q, (settle ((u.setHolder p 0).count (Pg.LOCKS + LOCKS.BREAK_COUNT))).holder q = (u.setHolder p 0).holder q := fun q =>
    Dev.holder_of_bus (by simp) q
  have hbroken : (settle ((u.setHolder p 0).count (Pg.LOCKS + LOCKS.BREAK_COUNT))).brokenOf p
      = (s.d.brokenOf p).filter (· != s.d.holder p) ++ [s.d.holder p] := by
    rw [Dev.brokenOf_of_bus (s := u.setHolder p 0) (by simp), Dev.brokenOf_setHolder, hu, Dev.brokenOf_setBroken_same]
  refine ⟨?_, ?_, fun x hx => ?_, fun q hq => ?_, ?_, ?_⟩
  · rw [hholder, Dev.holder_setHolder_same]
  · simp only [hbroken, List.mem_append, List.mem_singleton, or_true]
  · rw [hbroken]
    exact Dev.mem_former hx
  · rw [hholder, Dev.holder_setHolder_ne _ _ _ hq, hu, Dev.holder_setBroken]
  · rw [settle_rd, Dev.rd_count_same]
    rfl
  · exact (((Frame.setBroken s.d p hbus _).trans (Frame.setHolder _ p hbus _)).trans (Frame.count (A := (· = _)) _ rfl)).settle

theorem gives_lockBreak_free (ha : Admits s m (Pg.LOCKS + LOCKS.LOCK_BREAK)) (hm : s.d.mayBreak m)
    (hh : s.d.holder (v.toNat % 1024) = 0) : Gives (.lockBreak m v) s (Frame [] (fun _ => False) s.d) := by
  refine gives_access (f := fun t => t.lockBreak m 0xFFFFFFFF v) (Eq.refl (execLockBreak m v s)) ha ?_
  rw [Dev.lockBreak_of_may hm, if_pos hh]
  exact (Frame.refl _).settle

theorem gives_lockBreak_refused (ha : Admits s m (Pg.LOCKS + LOCKS.LOCK_BREAK)) (hm : ¬ s.d.mayBreak m) :
    Gives (.lockBreak m v) s (Rejected m (Pg.LOCKS + LOCKS.LOCK_BREAK) 0x07 s.d) :=
  gives_rejected (f := fun t => t.lockBreak m 0xFFFFFFFF v) (Eq.refl (execLockBreak m v s)) ha (by decide)
    (Dev.lockBreak_refused hm)

end

/-- Settles O7: a lock released by its holder or the write refused, and a lock broken by a master that may. -/
theorem lockWritesAndBreaks : Obligations.LockWritesAndBreaks := by
  unfold Obligations.LockWritesAndBreaks
  intro s m page v a p may
  exact ⟨fun h => ⟨gives_lockWrite_release h, gives_lockWrite_refuse h⟩,
    fun ha => ⟨gives_lockBreak_breaks ha, gives_lockBreak_free ha, gives_lockBreak_refused ha⟩⟩

/-! ### Expert sessions (R66 to R68) -/

/-- A list of master IDs with one of them put in or taken out. -/
theorem contains_marked (l : List (BitVec 8)) (k x : BitVec 8) (b : Bool) :
    (if b then l.filter (· != k) ++ [k] else l.filter (· != k)).contains x = if x = k then b else l.contains x := by
  by_cases e : x = k <;> cases b <;> simp [e]

namespace Machine.Dev

variable (s : Dev) (m m' : Master) (b : Bool)

theorem expertOpen_of_bus {s t : Dev} (h : t.bus = s.bus) (m : Master) : t.expertOpen m = s.expertOpen m := by
  rw [expertOpen, h, expertOpen]

@[simp] theorem expertOpen_settle : (settle s).expertOpen m = s.expertOpen m := expertOpen_of_bus (by simp) m

theorem keySeen_setKeySeen : (s.setKeySeen m b).bus.keySeen.contains (masterId m')
    = if m' = m then b else s.bus.keySeen.contains (masterId m') := by
  simp only [← masterId_injective.eq_iff (a := m')]
  exact contains_marked s.bus.keySeen (masterId m) (masterId m') b

theorem expertOpen_setExpert : (s.setExpert m b).expertOpen m' = if m' = m then b else s.expertOpen m' := by
  simp only [← masterId_injective.eq_iff (a := m')]
  exact contains_marked s.bus.expert (masterId m) (masterId m') b

theorem expertKey_first : s.expertKey m 0x00005EA5 = s.setKeySeen m true := by
  simp only [expertKey, if_true]

variable {s m} in
theorem expertKey_second (h : s.bus.keySeen.contains (masterId m) = true) :
    s.expertKey m 0x0000A5E5 = (s.setKeySeen m false).setExpert m true := by
  simp only [expertKey, h, if_true, show ¬ (0x0000A5E5 : Word) = 0x00005EA5 by decide, if_false]

variable {s m} in
theorem expertKey_early (h : s.bus.keySeen.contains (masterId m) = false) :
    s.expertKey m 0x0000A5E5 = s.logErr m (Pg.DEVICE + DEVICE.EXPERT_KEY) Err.expertSequence := by
  simp only [expertKey, h, if_true, show ¬ (0x0000A5E5 : Word) = 0x00005EA5 by decide, if_false, Bool.false_eq_true]

theorem expertKey_ends : s.expertKey m 0 = (s.setKeySeen m false).setExpert m false := by
  simp only [expertKey, if_true, show ¬ (0 : Word) = 0x00005EA5 by decide, show ¬ (0 : Word) = 0x0000A5E5 by decide, if_false]

@[simp] theorem expertOpen_setKeySeen : (s.setKeySeen m b).expertOpen m' = s.expertOpen m' := rfl

@[simp] theorem keySeen_setExpert : (s.setExpert m b).bus.keySeen = s.bus.keySeen := rfl

end Machine.Dev

/-- Other masters' expert sessions and keys stay. -/
def OtherSessions (m : Master) (s t : Dev) : Prop := ∀ m', m' ≠ m → t.expertOpen m' = s.expertOpen m'
  ∧ t.bus.keySeen.contains (masterId m') = s.bus.keySeen.contains (masterId m')

theorem otherSessions_setKeySeen (s : Dev) (m : Master) (b : Bool) : OtherSessions m s (s.setKeySeen m b) := fun m' h =>
  ⟨rfl, (s.keySeen_setKeySeen m m' b).trans (if_neg h)⟩

theorem otherSessions_setExpert (s : Dev) (m : Master) (b : Bool) : OtherSessions m s (s.setExpert m b) := fun m' h =>
  ⟨(s.expertOpen_setExpert m m' b).trans (if_neg h), rfl⟩

theorem OtherSessions.trans {m : Master} {s t u : Dev} (h : OtherSessions m s t) (k : OtherSessions m t u) : OtherSessions m s u :=
  fun m' hm => ⟨(k m' hm).1.trans (h m' hm).1, (k m' hm).2.trans (h m' hm).2⟩

theorem OtherSessions.of_bus {m : Master} {s t u : Dev} (h : OtherSessions m s t) (e : u.bus = t.bus) : OtherSessions m s u :=
  fun m' hm => ⟨(Dev.expertOpen_of_bus e m').trans (h m' hm).1, by rw [e]; exact (h m' hm).2⟩

section

variable {s : State} {m : Master} {v : Word}

theorem gives_expertKey {P : Dev → Prop} (ha : Admits s m (Pg.DEVICE + DEVICE.EXPERT_KEY)) (h : P (settle (s.d.expertKey m v))) :
    Gives (.expertKey m v) s P := gives_access (f := fun t => t.expertKey m v) (Eq.refl (execExpertKey m v s)) ha h

theorem gives_expertKey_first (ha : Admits s m (Pg.DEVICE + DEVICE.EXPERT_KEY)) : Gives (.expertKey m 0x00005EA5) s (fun t =>
    t.bus.keySeen.contains (masterId m) = true ∧ t.expertOpen m = s.d.expertOpen m ∧ OtherSessions m s.d t
    ∧ Frame [.bus] (fun _ => False) s.d t) := by
  refine gives_expertKey ha ?_
  rw [Dev.expertKey_first]
  refine ⟨?_, by simp, (otherSessions_setKeySeen s.d m true).of_bus (by simp), (Frame.setBus _ (by simp)).settle⟩
  rw [(settle_frame _).2.1, Dev.keySeen_setKeySeen, if_pos rfl]

theorem gives_expertKey_second (ha : Admits s m (Pg.DEVICE + DEVICE.EXPERT_KEY)) (hk : s.d.bus.keySeen.contains (masterId m) = true) :
    Gives (.expertKey m 0x0000A5E5) s (fun t => t.expertOpen m = true ∧ t.bus.keySeen.contains (masterId m) = false
      ∧ OtherSessions m s.d t ∧ Frame [.bus] (fun _ => False) s.d t) := by
  refine gives_expertKey ha ?_
  rw [Dev.expertKey_second hk]
  refine ⟨?_, ?_, ((otherSessions_setKeySeen s.d m false).trans (otherSessions_setExpert _ m true)).of_bus (by simp),
    ((Frame.setBus _ (by simp)).trans (Frame.setBus _ (by simp))).settle⟩
  · rw [Dev.expertOpen_settle, Dev.expertOpen_setExpert, if_pos rfl]
  · rw [(settle_frame _).2.1, Dev.keySeen_setExpert, Dev.keySeen_setKeySeen, if_pos rfl]

theorem gives_expertKey_early (ha : Admits s m (Pg.DEVICE + DEVICE.EXPERT_KEY)) (hk : s.d.bus.keySeen.contains (masterId m) = false) :
    Gives (.expertKey m 0x0000A5E5) s (Rejected m (Pg.DEVICE + DEVICE.EXPERT_KEY) 0x09 s.d) :=
  gives_rejected (f := fun t => t.expertKey m 0x0000A5E5) (Eq.refl (execExpertKey m _ s)) ha (by decide)
    (Dev.expertKey_early hk)

theorem gives_expertKey_ends (ha : Admits s m (Pg.DEVICE + DEVICE.EXPERT_KEY)) : Gives (.expertKey m 0) s (fun t =>
    t.expertOpen m = false ∧ t.bus.keySeen.contains (masterId m) = false ∧ OtherSessions m s.d t
    ∧ Frame [.bus] (fun _ => False) s.d t) := by
  refine gives_expertKey ha ?_
  rw [Dev.expertKey_ends]
  refine ⟨?_, ?_, ((otherSessions_setKeySeen s.d m false).trans (otherSessions_setExpert _ m false)).of_bus (by simp),
    ((Frame.setBus _ (by simp)).trans (Frame.setBus _ (by simp))).settle⟩
  · rw [Dev.expertOpen_settle, Dev.expertOpen_setExpert, if_pos rfl]
  · rw [(settle_frame _).2.1, Dev.keySeen_setExpert, Dev.keySeen_setKeySeen, if_pos rfl]

theorem gives_expertKey_other (ha : Admits s m (Pg.DEVICE + DEVICE.EXPERT_KEY)) (h1 : v ≠ 0x00005EA5) (h2 : v ≠ 0x0000A5E5) (h3 : v ≠ 0) :
    Gives (.expertKey m v) s (fun t => t.bus.keySeen.contains (masterId m) = false ∧ t.expertOpen m = s.d.expertOpen m
      ∧ OtherSessions m s.d t ∧ t.fld (Pg.DEVICE + HDR.ERR_INFO) 22 8 = 0x09
      ∧ t.fld (Pg.DEVICE + HDR.ERR_INFO) 14 8 = (masterId m).toNat ∧ t.bit (Pg.DEVICE + HDR.ERR_INFO) 31 = true
      ∧ Frame [.bus] (fun b => b = Pg.DEVICE + HDR.ERR_INFO ∨ b = Pg.DEVICE + HDR.INT_STATUS) s.d t) := by
  refine gives_expertKey ha ?_
  set u := s.d.setKeySeen m false with hu
  have hexec : s.d.expertKey m v = u.logErr m (Pg.DEVICE + DEVICE.EXPERT_KEY) Err.expertSequence := by
    simp only [Dev.expertKey, h1, h2, h3, if_false, hu]
  have hr : Rejected m (Pg.DEVICE + DEVICE.EXPERT_KEY) 0x09 u (settle (s.d.expertKey m v)) := by
    rw [hexec, logErr_eq_logOn ha.pageRow_isSome (by decide)]
    exact (rejected_logOn _ _ _ _).settle
  obtain ⟨hcode, hid, hvalid⟩ := hr.fields (by decide)
  have hbus : (settle (s.d.expertKey m v)).bus = u.bus := hr.1.2 .bus (by decide)
  refine ⟨?_, (Dev.expertOpen_of_bus hbus m).trans rfl, (otherSessions_setKeySeen _ _ _).of_bus hbus, hcode, hid, hvalid,
    (Frame.setBus _ (by simp)).trans (hr.1.mono (by simp) fun _ => id)⟩
  rw [hbus, hu, Dev.keySeen_setKeySeen, if_pos rfl]

end

/-- Settles O8: the two keys in their order, the end of a session, and the values that restart the sequence. -/
theorem expertSessions : Obligations.ExpertSessions := by
  unfold Obligations.ExpertSessions
  intro s m v ha key others
  exact ⟨gives_expertKey_first ha, gives_expertKey_second ha, gives_expertKey_early ha, gives_expertKey_ends ha,
    gives_expertKey_other ha⟩

end Sys2Proof
end

