-- ==== Sys2Proof/Proofs/UpsetReads.lean ====
section
/-! A read checks the parity of the register it reads (02, R57). In a state whose list of upset registers names a register that
no parity bit covers, the check finds a mismatch there, and a read that should change nothing marks its page. -/

namespace Sys2Proof

open Machine

/-- The reset state with page 0x030's island released, in which the register at a is listed as upset. -/
def upsetAt (a : Nat) : State :=
  { State.reset with d := { State.reset.d with
      bus := { State.reset.d.bus with upset := [(a, some (0, 0))] }
      isl := { State.reset.d.isl with released := [(0, true)] } } }

/-- A command after which a register reads otherwise breaks every frame that keeps the register. -/
theorem not_gives_frame {i : Instr} {s : State} {d : Dev} {a : Nat} {ps : List Part} {A : Nat → Prop} {P : Dev → Prop}
    (hexec : exec i s = .next (s.after d)) (hne : (settle d).rd a ≠ s.d.rd a) (ha : ¬ A a)
    (hP : ∀ t, P t → Frame ps A s.d t) : ¬ Gives i s P := fun ⟨t, ht, _, hp⟩ => by
  have hd : t.d = settle d := congrArg State.d (Host.Outcome.next.inj (ht.symm.trans hexec))
  exact hne (hd ▸ (hP _ hp).1 a ha)

/-- The marks that the host's read of the register leaves on page 0x001 when it finds `LOCK` upset. -/
theorem lockRead_marks_upset : (settle ((upsetAt (Pg.INTR + HDR.LOCK)).d.readHalf .host (Pg.INTR + HDR.LOCK) 0 none)).rd
    (Pg.INTR + HDR.PAGE_STATUS) ≠ (upsetAt (Pg.INTR + HDR.LOCK)).d.rd (Pg.INTR + HDR.PAGE_STATUS) := by decide

theorem counterRead_marks_upset : (settle ((upsetAt (Pg.LFEC 0 + LFEC.INNER_CW)).d.readHalf .host (Pg.LFEC 0 + LFEC.INNER_CW) 0xF none)).rd
    (Pg.LFEC 0 + HDR.PAGE_STATUS) ≠ (upsetAt (Pg.LFEC 0 + LFEC.INNER_CW)).d.rd (Pg.LFEC 0 + HDR.PAGE_STATUS) := by decide

/-- Refutes O6: with `LOCK` of page 0x001 listed as upset, the host's read of it with no byte enabled marks PARITY_FAULT in
`PAGE_STATUS`, which the statement keeps. No parity bit covers `LOCK` and no command lists it, so the state is not reached. -/
theorem not_lockReads : ¬ Obligations.LockReads := by
  unfold Obligations.LockReads
  intro h
  obtain ⟨-, -, hnarrow⟩ := h (upsetAt (Pg.INTR + HDR.LOCK)) .host 1 0 (by decide)
  exact not_gives_frame (ps := [.sent]) (A := fun _ => False) (Eq.refl _) lockRead_marks_upset id (fun _ => And.left)
    (hnarrow (by decide))

/-- Refutes O11: with the low word of a counter of page 0x030 listed as upset, the host's read of it marks PARITY_FAULT in
`PAGE_STATUS`, which the statement keeps. No parity bit covers a counter and no command lists one, so the state is not reached. -/
theorem not_counterReadsAndWrites : ¬ Obligations.CounterReadsAndWrites := by
  unfold Obligations.CounterReadsAndWrites
  intro h
  obtain ⟨hlow, -⟩ := h (upsetAt (Pg.LFEC 0 + LFEC.INNER_CW)) .host 0 (BitVec.ofNat 22 (Pg.LFEC 0 + LFEC.INNER_CW)) 0 0 0 0 0
  exact not_gives_frame (ps := [.bus, .sent]) (A := fun _ => False) (Eq.refl _) counterRead_marks_upset id (fun _ => And.left)
    (hlow (by decide) (by decide))

end Sys2Proof
end

