-- ==== Sys2Proof/Proofs/RegisterWrites.lean ====
section
/-! Writes of a register of the page header, plain, masked and posted, and the writes that the checks of an access drop or
reject (02, R30 to R32, R38 to R55, R59, R63). -/

namespace Sys2Proof

open Machine

namespace Machine.Dev

variable {s : Dev} {m : Master} {p : Nat} {sel v : Word}

/-! ### INT_ENABLE (R30 to R32, R50, R54) -/

/-- `INT_ENABLE` stands in no block's table of registers. -/
theorem regRow_intEnable (t : PageType) : regRow t HDR.INT_ENABLE = none := by
  cases t <;> decide

theorem expertBits_intEnable (p : Nat) : expertBits (p * 0x1000 + HDR.INT_ENABLE) = 0 := by
  have hrow : rowAt (p * 0x1000 + HDR.INT_ENABLE) = none := by
    rw [rowAt, offsetOf_add p (by decide)]
    cases pageRow ((p * 0x1000 + HDR.INT_ENABLE) / 0x1000) with
    | none => rfl
    | some r => exact regRow_intEnable r.type
  rw [expertBits, hrow]

/-- An address with an offset other than another's. -/
theorem ne_of_offset {a b : Nat} (h : a % 0x1000 ≠ b % 0x1000) : a ≠ b := fun e => h (e ▸ rfl)

theorem needsLock_intEnable (p : Nat) (c : Word) : needsLock (p * 0x1000 + HDR.INT_ENABLE) c = false := by
  have hoff : (p * 0x1000 + HDR.INT_ENABLE) % 0x1000 = HDR.INT_ENABLE := offsetOf_add p (by decide)
  have hne : ∀ b, b % 0x1000 ≠ HDR.INT_ENABLE → (p * 0x1000 + HDR.INT_ENABLE == b) = false := fun b hb =>
    beq_eq_false_iff_ne.mpr (ne_of_offset (by rw [hoff]; exact hb.symm))
  have htime := hne (Pg.CLKRST + CLKRST.TIME_CMD) (by decide)
  have hisland := hne (Pg.CLKRST + CLKRST.ISLAND_CMD) (by decide)
  have hflash := hne (Pg.BOOT + BOOT.FLASH_GO) (by decide)
  have hvigil := hne (Pg.VIGIL + VIGIL.VIGIL_CMD) (by decide)
  have htherm := hne (Pg.THERM + THERM.THERM_CMD) (by decide)
  have hqueue : decide (QUEUE.Q_CFG ≤ HDR.INT_ENABLE) = false := by decide
  simp only [needsLock, hoff, htime, hisland, hflash, hvigil, htherm, hqueue]
  simp

/-- `INT_ENABLE` is none of the registers an alias window denies. -/
theorem writeErr_intEnable (be : BitVec 4) (al : Bool) : s.writeErr m (p * 0x1000 + HDR.INT_ENABLE) be al
    = s.writeErr m (p * 0x1000 + HDR.INT_ENABLE) be false := by
  have hoff : (p * 0x1000 + HDR.INT_ENABLE) % 0x1000 = HDR.INT_ENABLE := offsetOf_add p (by decide)
  have hkey : (p * 0x1000 + HDR.INT_ENABLE == DEVICE.EXPERT_KEY) = false :=
    beq_eq_false_iff_ne.mpr (ne_of_offset (by rw [hoff]; decide))
  have hlock : (HDR.INT_ENABLE == HDR.LOCK) = false := by decide
  simp only [writeErr, hoff, hkey, hlock, Bool.or_false, Bool.and_false]

theorem writeEffect_intEnable (h : (pageRow p).isSome = true) : writeEffect s m (p * 0x1000 + HDR.INT_ENABLE) sel v
    = (s.setUpset (p * 0x1000 + HDR.INT_ENABLE) none).wr (p * 0x1000 + HDR.INT_ENABLE)
        (mergeBits (s.rd (p * 0x1000 + HDR.INT_ENABLE)) (sel &&& causesOf p) v) := by
  obtain ⟨r, hr⟩ := Option.isSome_iff_exists.mp h
  have hpage : (p * 0x1000 + HDR.INT_ENABLE) / 0x1000 = p := pageOf_add p (by decide)
  have hoff : (p * 0x1000 + HDR.INT_ENABLE) % 0x1000 = HDR.INT_ENABLE := offsetOf_add p (by decide)
  simp only [writeEffect, effect, hpage, hoff, hr]
  rfl

/-- A write of `INT_ENABLE` that passes its checks goes into the page's buffer or acts at once. -/
theorem accept_intEnable {al : Bool} (h : s.writeErr m (p * 0x1000 + HDR.INT_ENABLE) 0xF false = none)
    (hb : masterId m ∉ s.brokenOf p) : s.accept writeEffect m (p * 0x1000 + HDR.INT_ENABLE) 0xF sel v al 0
      = if posted p then s.setBuffer p (some { master := m, off := HDR.INT_ENABLE, sel := sel, val := v, pc := 0 })
        else writeEffect s m (p * 0x1000 + HDR.INT_ENABLE) sel v := by
  have hpage : (p * 0x1000 + HDR.INT_ENABLE) / 0x1000 = p := pageOf_add p (by decide)
  have hoff : (p * 0x1000 + HDR.INT_ENABLE) % 0x1000 = HDR.INT_ENABLE := offsetOf_add p (by decide)
  have hlock : ¬ HDR.INT_ENABLE = HDR.LOCK := by decide
  have hctrl : ¬ HDR.INT_ENABLE = HDR.PAGE_CTRL := by decide
  have hkey : ¬ p * 0x1000 + HDR.INT_ENABLE = Pg.DEVICE + DEVICE.EXPERT_KEY := ne_of_offset (by rw [hoff]; decide)
  have hbreak : ¬ p * 0x1000 + HDR.INT_ENABLE = Pg.LOCKS + LOCKS.LOCK_BREAK := ne_of_offset (by rw [hoff]; decide)
  have hex : (if s.expert m p = true then (0 : Word) else 0 &&& sel) = 0 := by simp
  have hsel : sel &&& ~~~(0 : Word) = sel := (congrArg (sel &&& ·) BitVec.not_zero).trans BitVec.and_allOnes
  have hsame : ∀ x : Word, x &&& 0 = 0 := fun _ => BitVec.and_zero
  simp only [accept, writeErr_intEnable _ al, h, hpage, hoff, hlock, hctrl, hkey, hbreak, needsLock_intEnable, dropBroken, hb,
    takeWrite, expertBits_intEnable, hex, hsel, hsame, if_true, if_false, false_and, Bool.false_and, Bool.false_eq_true]

end Machine.Dev

/-- The causes a page has, of those selected, are enabled as the written word says, and no other register changes. -/
def EnableWritten (p : Nat) (sel v : Word) (s t : Dev) : Prop :=
  Frame [.bus] (· = p * 0x1000 + HDR.INT_ENABLE) s t
  ∧ ∀ i, t.bit (p * 0x1000 + HDR.INT_ENABLE) i = if sel.getLsbD i = true ∧ (Dev.causesOf p).getLsbD i = true then v.getLsbD i
      else s.bit (p * 0x1000 + HDR.INT_ENABLE) i

theorem enableWritten_writeEffect {s : Dev} {m : Master} {p : Nat} {sel v : Word} (h : (pageRow p).isSome = true) :
    EnableWritten p sel v s (settle (Dev.writeEffect s m (p * 0x1000 + HDR.INT_ENABLE) sel v)) := by
  rw [Dev.writeEffect_intEnable h]
  set a := p * 0x1000 + HDR.INT_ENABLE
  have hbus : Frame [.bus] (· = a) s (s.setUpset a none) := Frame.setBus _ (List.mem_singleton.mpr rfl)
  refine ⟨(hbus.trans (Frame.wr _ rfl)).settle, fun i => ?_⟩
  rw [Dev.bit_settle, Dev.bit, Dev.rd_wr_same, mergeBits_bit]
  simp only [bitOf, BitVec.getLsbD_and, Bool.and_eq_true]
  rfl

section

variable {s : State} {m : Master} {page : BitVec 10} {addr : BitVec 24} {al : BitVec 22} {sel v : Word}

theorem barWrite_plain {s : Dev} {a : Nat} {be : BitVec 4} (h : a < 0x400000) :
    s.barWrite Dev.writeEffect m a be v = s.accept Dev.writeEffect m a be 0xFFFFFFFF v false 0 := by
  have hdiv : a / 0x400000 = 0 := Nat.div_eq_of_lt h
  have hmod : a % 0x400000 = a := Nat.mod_eq_of_lt h
  simp only [Dev.barWrite, hdiv, hmod]

theorem gives_registerWrite {be : BitVec 4} {P : Dev → Prop} (h : addr.toNat < 0x400000)
    (p : P (settle (s.d.accept Dev.writeEffect m addr.toNat be 0xFFFFFFFF v false 0))) :
    Gives (.registerWrite m addr be v none false) s P :=
  gives_run (Eq.refl (execRegisterWrite m addr be v none false s)) (by
    simpa only [barWrite_plain h, Bool.false_eq_true, if_false] using p)

theorem intEnable_lt (page : BitVec 10) : page.toNat * 0x1000 + HDR.INT_ENABLE < 0x400000 := by
  have := page.isLt
  simp only [HDR.INT_ENABLE]
  omega

theorem enableWritten_accept {aliased : Bool} (ha : Admits s m (page.toNat * 0x1000 + HDR.INT_ENABLE))
    (hp : Dev.posted page.toNat = false) : EnableWritten page.toNat sel v s.d
      (settle (s.d.accept Dev.writeEffect m (page.toNat * 0x1000 + HDR.INT_ENABLE) 0xF sel v aliased 0)) := by
  have hrow := ha.pageRow_isSome
  obtain ⟨herr, hb⟩ := ha
  rw [pageOf_add _ (by decide)] at hrow hb
  rw [Dev.accept_intEnable herr hb, hp]
  exact enableWritten_writeEffect hrow

theorem gives_registerWrite_intEnable (ha : Admits s m (page.toNat * 0x1000 + HDR.INT_ENABLE))
    (hp : Dev.posted page.toNat = false) (h : addr.toNat = page.toNat * 0x1000 + HDR.INT_ENABLE) :
    Gives (.registerWrite m addr 0xF v none false) s (EnableWritten page.toNat 0xFFFFFFFF v s.d) := by
  refine gives_registerWrite (by rw [h]; exact intEnable_lt page) ?_
  rw [h]
  exact enableWritten_accept ha hp

theorem gives_maskedLowWrite_intEnable (ha : Admits s m (page.toNat * 0x1000 + HDR.INT_ENABLE))
    (hp : Dev.posted page.toNat = false) (h : al.toNat = page.toNat * 0x1000 + HDR.INT_ENABLE) :
    Gives (.maskedLowWrite m al 0xF v) s (EnableWritten page.toNat (maskedLowSel v) (maskedLowVal v) s.d) :=
  gives_run (Eq.refl (execMaskedLowWrite m al 0xF v s)) (by
    rw [h]
    exact enableWritten_accept ha hp)

theorem gives_maskedHighWrite_intEnable (ha : Admits s m (page.toNat * 0x1000 + HDR.INT_ENABLE))
    (hp : Dev.posted page.toNat = false) (h : al.toNat = page.toNat * 0x1000 + HDR.INT_ENABLE) :
    Gives (.maskedHighWrite m al 0xF v) s (EnableWritten page.toNat (maskedHighSel v) (maskedHighVal v) s.d) :=
  gives_run (Eq.refl (execMaskedHighWrite m al 0xF v s)) (by
    rw [h]
    exact enableWritten_accept ha hp)

theorem gives_registerWrite_posted (ha : Admits s m (page.toNat * 0x1000 + HDR.INT_ENABLE))
    (hp : Dev.posted page.toNat = true) (h : addr.toNat = page.toNat * 0x1000 + HDR.INT_ENABLE) :
    Gives (.registerWrite m addr 0xF v none false) s (fun t => Frame [.bus] (fun _ => False) s.d t
      ∧ t.busy page.toNat = true
      ∧ t.buffered page.toNat = some { master := m, off := HDR.INT_ENABLE, sel := 0xFFFFFFFF, val := v, pc := 0 }) := by
  refine gives_registerWrite (by rw [h]; exact intEnable_lt page) ?_
  obtain ⟨herr, hb⟩ := ha
  rw [pageOf_add _ (by decide)] at hb
  rw [h, Dev.accept_intEnable herr hb, if_pos hp]
  set w : PostedWrite := { master := m, off := HDR.INT_ENABLE, sel := 0xFFFFFFFF, val := v, pc := 0 }
  have hbuf : (settle (s.d.setBuffer page.toNat (some w))).buffered page.toNat = some w := by
    simp [Dev.buffered, Dev.setBuffer]
  refine ⟨(Frame.setBus _ (by simp)).settle, ?_, hbuf⟩
  rw [Dev.busy, hbuf]
  rfl

/-- With no window write waiting there is nothing to pump. -/
theorem Machine.Dev.pump_idle {s : Dev} (h : ∀ k, k < 24 → (s.sq k).winQ = []) : Dev.pump Dev.writeEffect s = s := by
  refine List.foldlRecOn (motive := (· = s)) (List.range 24) _ rfl fun t ht k hk => ?_
  rw [ht, h k (List.mem_range.mp hk)]
  rfl

theorem seqOf_external (h : isInternal m = false) : Dev.seqOf m = none := by
  cases m with
  | loopSeq _ => exact absurd h (by simp [isInternal])
  | laneSeq _ => exact absurd h (by simp [isInternal])
  | _ => rfl

/-- The buffered write of a master outside the device takes effect, with no window write waiting. -/
theorem gives_postedWriteApply {w : PostedWrite} {P : Dev → Prop} (hw : s.d.buffered page.toNat = some w)
    (hm : isInternal w.master = false) (hq : ∀ k, k < 24 → (s.d.sq k).winQ = [])
    (hkeep : ∀ k, (Dev.writeEffect (s.d.setBuffer page.toNat none) w.master (page.toNat * 0x1000 + w.off) w.sel w.val).sq k = s.d.sq k)
    (h : P (settle (Dev.writeEffect (s.d.setBuffer page.toNat none) w.master (page.toNat * 0x1000 + w.off) w.sel w.val))) :
    Gives (.postedWriteApply page) s P := by
  refine gives_run (Eq.refl (execPostedWriteApply page s)) ?_
  have happly : Dev.applyPosted Dev.writeEffect s.d page.toNat
      = Dev.writeEffect (s.d.setBuffer page.toNat none) w.master (page.toNat * 0x1000 + w.off) w.sel w.val := by
    simp only [Dev.applyPosted, hw, seqOf_external hm]
  rw [hw, happly]
  simpa only [Option.isSome_some, if_true, Dev.pump_idle fun k hk => (congrArg Seq.winQ (hkeep k)).trans (hq k hk)] using h

theorem gives_postedWriteApply_intEnable {w : PostedWrite} (hw : s.d.buffered page.toNat = some w) (ho : w.off = HDR.INT_ENABLE)
    (hm : isInternal w.master = false) (hp : (pageRow page.toNat).isSome = true) (hq : ∀ k, k < 24 → (s.d.sq k).winQ = []) :
    Gives (.postedWriteApply page) s (fun t => EnableWritten page.toNat w.sel w.val s.d t ∧ t.buffered page.toNat = none) := by
  have hbus : Frame [.bus] (· = page.toNat * 0x1000 + HDR.INT_ENABLE) s.d (s.d.setBuffer page.toNat none) :=
    Frame.setBus _ (List.mem_singleton.mpr rfl)
  have hbuf : (settle (Dev.writeEffect (s.d.setBuffer page.toNat none) w.master (page.toNat * 0x1000 + w.off) w.sel w.val)).buffered
      page.toNat = none := by
    rw [ho, Dev.writeEffect_intEnable hp]
    simp [Dev.buffered, Dev.setBuffer, Dev.setUpset]
  refine gives_postedWriteApply hw hm hq (fun k => ?_) ⟨?_, hbuf⟩
  · rw [ho, Dev.writeEffect_intEnable hp]
    rfl
  · rw [ho]
    obtain ⟨hframe, hbits⟩ := enableWritten_writeEffect (s := s.d.setBuffer page.toNat none) (m := w.master) (sel := w.sel)
      (v := w.val) hp
    exact ⟨hbus.trans hframe, hbits⟩

end

theorem Gives.mono {i : Instr} {s : State} {P Q : Dev → Prop} (h : Gives i s P) (hPQ : ∀ t, P t → Q t) : Gives i s Q := by
  obtain ⟨t, ht, hpend, hp⟩ := h
  exact ⟨t, ht, hpend, hPQ _ hp⟩

/-- The bits that the masked-low window selects, and their values (R30). -/
theorem maskedLow_bit (v x : Word) (has : Bool) (i : Nat) : (if (maskedLowSel v).getLsbD i = true ∧ has = true then
      (maskedLowVal v).getLsbD i else x.getLsbD i)
    = if i < 16 ∧ v.getLsbD (16 + i) = true ∧ has = true then v.getLsbD i else x.getLsbD i := by
  have hlow : ∀ i < 16, (0xFFFF : Word).getLsbD i = true := by decide
  rw [maskedLowSel, maskedLowVal, BitVec.getLsbD_ushiftRight, BitVec.getLsbD_and]
  by_cases hi : i < 16
  · rw [hlow i hi]
    simp [hi]
  · simp [hi, BitVec.getLsbD_of_ge v (16 + i) (by omega)]

/-- The bits that the masked-high window selects, and their values (R31). -/
theorem maskedHigh_bit (v x : Word) (has : Bool) (i : Nat) : (if (maskedHighSel v).getLsbD i = true ∧ has = true then
      (maskedHighVal v).getLsbD i else x.getLsbD i)
    = if 16 ≤ i ∧ v.getLsbD i = true ∧ has = true then v.getLsbD (i - 16) else x.getLsbD i := by
  have hlow : ∀ i < 16, (0xFFFF0000 : Word).getLsbD i = false := by decide
  have hhigh : ∀ i < 32, 16 ≤ i → (0xFFFF0000 : Word).getLsbD i = true := by decide
  rw [maskedHighSel, maskedHighVal, BitVec.getLsbD_shiftLeft, BitVec.getLsbD_and]
  by_cases hi : i < 16
  · rw [hlow i hi]
    simp [show ¬ 16 ≤ i by omega]
  · by_cases hw : i < 32
    · rw [hhigh i hw (by omega)]
      simp [hi, hw, show 16 ≤ i by omega]
    · simp [BitVec.getLsbD_of_ge v i (by omega)]

/-- Settles O9: the writes select their bits of `INT_ENABLE`, at once or from the page's buffer. -/
theorem registerWrites : Obligations.RegisterWrites := by
  unfold Obligations.RegisterWrites
  intro s m page addr al v a has only
  refine ⟨fun ha hp => ⟨fun h => ?_, fun h => ⟨?_, ?_⟩⟩, gives_registerWrite_posted, ?_⟩
  · refine (gives_registerWrite_intEnable ha hp h).mono fun t ⟨hframe, hbits⟩ => ⟨hframe, fun i hi => ?_⟩
    have hall : (0xFFFFFFFF : Word).getLsbD i = true := (BitVec.getLsbD_allOnes (v := 32) (i := i)).trans (decide_eq_true hi)
    simpa only [hall, true_and] using hbits i
  · exact (gives_maskedLowWrite_intEnable ha hp h).mono fun t ⟨hframe, hbits⟩ => ⟨hframe, fun i _ =>
      (hbits i).trans (maskedLow_bit v (s.d.rd a) _ i)⟩
  · exact (gives_maskedHighWrite_intEnable ha hp h).mono fun t ⟨hframe, hbits⟩ => ⟨hframe, fun i _ =>
      (hbits i).trans (maskedHigh_bit v (s.d.rd a) _ i)⟩
  · rintro w hw ho rfl hm hp hq
    exact (gives_postedWriteApply_intEnable hw ho hm hp hq).mono fun t ⟨⟨hframe, hbits⟩, hbuf⟩ => ⟨hframe, hbuf, fun i _ => hbits i⟩

/-! ### Writes dropped and rejected (R38, R43, R47, R51, R55, R59, R63) -/

/-- The error of a master outside the device, on a page of the map, is logged on the page alone (R38, R49). -/
theorem logErr_external {s : Dev} {m : Master} {a code : Nat} (hp : (pageRow (a / 0x1000)).isSome = true)
    (hm : isInternal m = false) (hc : code ≠ Err.islandOff) : s.logErr m a code = s.logOn m (a / 0x1000) (a % 0x1000) code := by
  simp only [Dev.logErr, hp, hm, hc, if_true, if_false, Bool.false_and, Bool.false_eq_true]

theorem gives_registerWrite_rejected {s : State} {m : Master} {addr : BitVec 24} {be : BitVec 4} {v : Word} {code : Nat}
    (h : addr.toNat < 0x400000) (hm : isInternal m = false) (hp : (pageRow (addr.toNat / 0x1000)).isSome = true)
    (hb : masterId m ∉ s.d.brokenOf (addr.toNat / 0x1000)) (he : s.d.writeErr m addr.toNat be false = some code)
    (hc : code ≠ Err.islandOff) : Gives (.registerWrite m addr be v none false) s (Rejected m addr.toNat code s.d) := by
  refine gives_registerWrite h ?_
  simp only [Dev.accept, he, Dev.dropBroken, hb, if_false, logErr_external hp hm hc]
  exact (rejected_logOn _ _ _ _).settle

section

variable {s : Dev} {m : Master} {a : Nat} {be : BitVec 4}

theorem writeErr_narrow (hp : (pageRow (a / 0x1000)).isSome = true) (hj : s.jtagRefused m a = false) (hbe : be ≠ 0xF) :
    s.writeErr m a be false = some Err.narrow := by
  simp only [Dev.writeErr, Option.isNone_eq_false_iff.mpr hp, hj, Bool.false_eq_true, if_false, if_pos hbe]

theorem writeErr_unaligned (hp : (pageRow (a / 0x1000)).isSome = true) (hj : s.jtagRefused m a = false) (hal : a % 4 ≠ 0) :
    s.writeErr m a 0xF false = some Err.unaligned := by
  simp only [Dev.writeErr, Option.isNone_eq_false_iff.mpr hp, hj, Bool.false_eq_true, if_false, ne_eq, not_true, if_pos hal]

/-- The checks that a whole aligned word meets on a page whose island is on, in their order (log entry 5). -/
theorem writeErr_whole (hp : (pageRow (a / 0x1000)).isSome = true) (hj : s.jtagRefused m a = false) (hal : a % 4 = 0)
    (hlock : a % 0x1000 ≠ HDR.LOCK) (hon : s.pageOn (a / 0x1000) = true) : s.writeErr m a 0xF false =
      if !Dev.mapped (a / 0x1000) (a % 0x1000) then some Err.unmapped
      else if s.busy (a / 0x1000) then some Err.overrun
      else if s.inSafe (a / 0x1000) && !s.holds m (a / 0x1000) then
        some (if s.holder (a / 0x1000) = 0 then Err.lockRequired else Err.locked)
      else if (s.brokenOf (a / 0x1000)).contains (masterId m) && !s.holds m (a / 0x1000) then some Err.locked
      else if s.holder (a / 0x1000) ≠ 0 && !s.holds m (a / 0x1000) then some Err.locked
      else none := by
  simp only [Dev.writeErr, Option.isNone_eq_false_iff.mpr hp, hj, hal, hlock, hon, Bool.false_eq_true, Bool.false_and, Bool.not_true,
    if_false, ne_eq, not_true]

variable (hp : (pageRow (a / 0x1000)).isSome = true) (hj : s.jtagRefused m a = false) (hal : a % 4 = 0)
  (hlock : a % 0x1000 ≠ HDR.LOCK) (hon : s.pageOn (a / 0x1000) = true)

include hp hj hal hlock hon

theorem writeErr_unmapped (hmap : Dev.mapped (a / 0x1000) (a % 0x1000) = false) : s.writeErr m a 0xF false = some Err.unmapped := by
  simp only [writeErr_whole hp hj hal hlock hon, hmap, Bool.not_false, if_true]

variable (hmap : Dev.mapped (a / 0x1000) (a % 0x1000) = true)

include hmap

theorem writeErr_overrun (hbusy : s.busy (a / 0x1000) = true) : s.writeErr m a 0xF false = some Err.overrun := by
  simp only [writeErr_whole hp hj hal hlock hon, hmap, hbusy, Bool.not_true, Bool.false_eq_true, if_false, if_true]

theorem writeErr_lockRequired (hbusy : s.busy (a / 0x1000) = false) (hsafe : s.inSafe (a / 0x1000) = true)
    (hfree : s.holder (a / 0x1000) = 0) : s.writeErr m a 0xF false = some Err.lockRequired := by
  have hnot : s.holds m (a / 0x1000) = false := beq_eq_false_iff_ne.mpr (hfree ▸ (masterId_ne_zero m).symm)
  simp only [writeErr_whole hp hj hal hlock hon, hmap, hbusy, hsafe, hnot, hfree, Bool.not_true, Bool.not_false, Bool.and_true,
    Bool.false_eq_true, if_false, if_true]

theorem writeErr_locked (hbusy : s.busy (a / 0x1000) = false) (hheld : s.holder (a / 0x1000) ≠ 0)
    (hother : s.holder (a / 0x1000) ≠ masterId m) : s.writeErr m a 0xF false = some Err.locked := by
  have hnot : s.holds m (a / 0x1000) = false := beq_eq_false_iff_ne.mpr hother
  simp only [writeErr_whole hp hj hal hlock hon, hmap, hbusy, hnot, hheld, Bool.not_true, Bool.not_false, Bool.and_true,
    Bool.false_eq_true, if_false, ne_eq, not_false_eq_true, decide_true, if_true, ite_self]

end

/-- Settles O10: the first check that a write fails gives the code it is logged with. -/
theorem rejectedWrites : Obligations.RejectedWrites := by
  unfold Obligations.RejectedWrites
  intro s m addr be v a page no plain hlt hm hp hb
  have hext : isInternal m = false := by rcases hm with rfl | rfl <;> rfl
  have hj : s.d.jtagRefused m a = false := by rcases hm with rfl | rfl <;> rfl
  have rejected : ∀ code, s.d.writeErr m a be false = some code → code ≠ Err.islandOff → no code := fun code he hc =>
    gives_registerWrite_rejected hlt hext hp hb he hc
  refine ⟨fun hbe => ?_, ?_, ?_, ?_, ?_, ?_⟩
  · exact rejected _ (writeErr_narrow hp hj hbe) (by decide)
  · rintro rfl hal
    exact rejected _ (writeErr_unaligned hp hj hal) (by decide)
  · rintro ⟨rfl, hal, hlock, hmap, hon⟩ hbusy
    exact rejected _ (writeErr_overrun hp hj hal hlock hon hmap hbusy) (by decide)
  · rintro ⟨rfl, hal, hlock, hmap, hon⟩ hbusy hheld hother
    exact rejected _ (writeErr_locked hp hj hal hlock hon hmap hbusy hheld hother) (by decide)
  · rintro ⟨rfl, hal, hlock, hmap, hon⟩ hbusy hsafe hfree
    exact rejected _ (writeErr_lockRequired hp hj hal hlock hon hmap hbusy hsafe hfree) (by decide)
  · rintro rfl hal hlock hon hmap
    exact rejected _ (writeErr_unmapped hp hj hal hlock hon hmap) (by decide)

end Sys2Proof
end

