-- ==== Sys2Proof/Proofs/SoftReset.lean ====
section
/-! A soft reset of a page: what its registers read afterwards, and the soft reset of the interrupt routes (02, R41, R59). -/

namespace Sys2Proof

open Machine

/-! ### Canonical tables -/

theorem Machine.Sparse.pairwise_of_sortedFrom {α : Type} {m : Sparse α} : ∀ {b : Option Nat}, Sparse.sortedFrom b m = true →
    (∀ c ∈ b, ∀ p ∈ m, c < p.1) ∧ m.Pairwise (fun p q => p.1 < q.1) := by
  induction m with
  | nil => simp
  | cons p r ih =>
    intro b h
    have hr : Sparse.sortedFrom (some p.1) r = true := by
      cases b with
      | none => exact h
      | some c => exact (Bool.and_eq_true_iff.mp h).2
    obtain ⟨hp, hpair⟩ := ih hr
    have hlt : ∀ q ∈ r, p.1 < q.1 := hp p.1 rfl
    refine ⟨fun c hc => ?_, List.pairwise_cons.mpr ⟨hlt, hpair⟩⟩
    obtain rfl := Option.mem_def.mp hc
    have hcp : c < p.1 := of_decide_eq_true (Bool.and_eq_true_iff.mp h).1
    exact List.forall_mem_cons.mpr ⟨hcp, fun q hq => hcp.trans (hlt q hq)⟩

/-- No key is listed twice in a canonical table. -/
theorem Machine.Sparse.keys_of_wf {α : Type} [DecidableEq α] {d : Nat → α} {m : Sparse α} (h : Sparse.wf d m = true) :
    m.Pairwise (fun p q => p.1 ≠ q.1) :=
  (pairwise_of_sortedFrom (Bool.and_eq_true_iff.mp h).1).2.imp Nat.ne_of_lt

theorem Machine.Sparse.get_of_mem {α : Type} {d : Nat → α} {m : Sparse α} (h : m.Pairwise (fun p q => p.1 ≠ q.1)) {p : Nat × α}
    (hp : p ∈ m) : Sparse.get d m p.1 = p.2 := by
  induction m with
  | nil => exact absurd hp List.not_mem_nil
  | cons q r ih =>
    obtain ⟨hq, hr⟩ := List.pairwise_cons.mp h
    rcases List.mem_cons.mp hp with rfl | hp
    · simp [Sparse.get]
    · simp [Sparse.get, hq p hp, ih hr hp]

/-! ### Registers written one after another -/

section

variable {f : Nat × Word → Word} {l : List (Nat × Word)} {s : Dev}

theorem rd_foldl_wr_of_not_mem {a : Nat} (h : ∀ p ∈ l, p.1 ≠ a) : (l.foldl (fun t r => t.wr r.1 (f r)) s).rd a = s.rd a := by
  induction l generalizing s with
  | nil => rfl
  | cons p l ih =>
    obtain ⟨hp, hl⟩ := List.forall_mem_cons.mp h
    rw [List.foldl_cons, ih hl, Dev.rd_wr_ne _ _ _ hp.symm]

theorem rd_foldl_wr_of_mem (h : l.Pairwise (fun p q => p.1 ≠ q.1)) {p : Nat × Word} (hp : p ∈ l) :
    (l.foldl (fun t r => t.wr r.1 (f r)) s).rd p.1 = f p := by
  induction l generalizing s with
  | nil => exact absurd hp List.not_mem_nil
  | cons q l ih =>
    obtain ⟨hq, hl⟩ := List.pairwise_cons.mp h
    rcases List.mem_cons.mp hp with rfl | hp
    · rw [List.foldl_cons, rd_foldl_wr_of_not_mem fun r hr => (hq r hr).symm, Dev.rd_wr_same]
    · exact ih hl hp

end

/-! ### The registers of a page cleared -/

section

variable {s : Dev} {page : Nat} {r : PageRow}

/-- A cleared page leaves the other pages' registers, and every part but the bus state. -/
theorem softClear_frame (s : Dev) (page : Nat) : Frame [.bus] (fun a => a / 0x1000 = page) s (s.softClear page) := by
  unfold Dev.softClear
  split
  · exact Frame.refl s
  · refine (Frame.setBus _ (List.mem_singleton.mpr rfl)).trans (Frame.foldl_mem fun t p hp => Frame.wr _ ?_)
    exact of_decide_eq_true (List.mem_filter.mp hp).2

/-- A register of a cleared page: one that is listed takes its value after a soft reset, any other reads as at reset already. -/
theorem rd_softClear (hr : pageRow page = some r) (hw : Sparse.wf regReset s.regs = true) {a : Nat} (ha : a / 0x1000 = page) :
    (s.softClear page).rd a = Dev.softValue r.type a (s.rd a)
    ∨ (s.softClear page).rd a = s.rd a ∧ s.rd a = regReset a := by
  have hkeys := Sparse.keys_of_wf hw
  simp only [Dev.softClear, hr]
  by_cases hmem : ∃ p ∈ s.regs, p.1 = a
  · obtain ⟨p, hp, rfl⟩ := hmem
    refine .inl ?_
    rw [rd_foldl_wr_of_mem (f := fun p => Dev.softValue r.type p.1 p.2) (hkeys.filter _)
      (List.mem_filter.mpr ⟨hp, decide_eq_true ha⟩), Dev.rd, Sparse.get_of_mem hkeys hp]
  · refine .inr ⟨?_, by_contra fun h => hmem ⟨_, Sparse.mem_of_get_ne h, rfl⟩⟩
    exact rd_foldl_wr_of_not_mem fun p hp e => hmem ⟨p, List.mem_of_mem_filter hp, e⟩

/-- The header of a cleared page, `PAGE_CTRL` apart, reads as before (R41). -/
theorem rd_softClear_header (hr : pageRow page = some r) (hw : Sparse.wf regReset s.regs = true) {off : Nat} (ho : off < 0x40)
    (hc : off ≠ HDR.PAGE_CTRL) : (s.softClear page).rd (page * 0x1000 + off) = s.rd (page * 0x1000 + off) := by
  have hoff : (page * 0x1000 + off) % 0x1000 = off := offsetOf_add page (by omega)
  rcases rd_softClear hr hw (pageOf_add page (show off < 0x1000 by omega)) with h | h
  · rw [h]
    simp only [Dev.softValue, hoff, hc, ho, if_true, if_false]
  · exact h.1

/-- A register that keeps no bit reads as at reset. -/
theorem rd_softClear_reset (hr : pageRow page = some r) (hw : Sparse.wf regReset s.regs = true) {off : Nat} (ho : 0x40 ≤ off)
    (hlt : off < 0x1000) (hk : keptBits r.type off = 0) :
    (s.softClear page).rd (page * 0x1000 + off) = regReset (page * 0x1000 + off) := by
  have hoff : (page * 0x1000 + off) % 0x1000 = off := offsetOf_add page hlt
  have hctrl : off ≠ HDR.PAGE_CTRL := by
    rintro rfl
    exact absurd ho (by decide)
  have hmerge : ∀ x y : Word, mergeBits x 0 y = x := fun x y => BitVec.eq_of_getLsbD_eq fun i _ => by
    simpa [bitOf] using mergeBits_bit x 0 y i
  rcases rd_softClear hr hw (pageOf_add page hlt) with h | h
  · rw [h]
    simp only [Dev.softValue, hoff, hctrl, Nat.not_lt.mpr ho, if_false, hk, hmerge]
  · exact h.1.trans h.2

end

/-! ### The soft reset of the interrupt routes -/

section

variable {s : State} {m : Master} {i : Instr} {a : Nat} {f : Dev → Dev} {P : Dev → Prop}

/-- A command of the lock's holder gives what its action leaves. -/
theorem gives_lockedAccess (h : exec i s = s.run (fun d => d.lockedAccess m a f)) (ha : AdmitsHeld s m a) (p : P (settle (f s.d))) :
    Gives i s P := gives_run h (by rwa [ha.lockedAccess])

/-- Without the lock it is refused (R59, R63). -/
theorem gives_lockedAccess_refused (h : exec i s = s.run (fun d => d.lockedAccess m a f)) (ha : Admits s m a)
    (hn : s.d.holder (a / 0x1000) ≠ masterId m) : Gives i s (Rejected m a Err.lockRequired s.d) :=
  gives_rejected (f := fun t => t.need m a (t.holds m (a / 0x1000)) Err.lockRequired f) h ha (by decide)
    (if_neg fun e => hn (Dev.holds_iff.mp e))

theorem softReset_intr {s : Dev} (h : s.rd (Pg.INTR + HDR.PAGE_STATUS) &&& 0x18 = 0) :
    s.softReset 1 = (s.softClear 1).setSoft 1 true := by
  have hrow : pageRow 1 = some ⟨0x001, 1, .intr, false, 0, false⟩ := rfl
  have hst : s.rd (1 * 0x1000 + HDR.PAGE_STATUS) &&& 0x18 = 0 := h
  simp only [Dev.softReset, hrow, hst, if_true, show ¬ (1 = 0) by decide, if_false]
  rfl

theorem Frame.setSoft {ps : List Part} {A : Nat → Prop} (s : Dev) (p : Nat) (b : Bool) (h : .bus ∈ ps) :
    Frame ps A s (s.setSoft p b) := Frame.setBus _ h

theorem softResetting_setSoft (s : Dev) (p : Nat) (b : Bool) : (s.setSoft p b).softResetting p = b := by
  simp [Dev.softResetting, Dev.setSoft]

theorem softResetting_settle (s : Dev) (p : Nat) : (settle s).softResetting p = s.softResetting p := by
  simp [Dev.softResetting]

theorem holder_softClear (s : Dev) (p q : Nat) : (s.softClear p).holder q = s.holder q := by
  unfold Dev.softClear
  split
  · rfl
  · exact List.foldlRecOn (motive := fun t : Dev => t.holder q = s.holder q) _ _ rfl fun t ht r _ => ht

theorem gives_softReset_intr (ha : AdmitsHeld s m (1 * 0x1000 + HDR.PAGE_CTRL)) (hw : Sparse.wf regReset s.d.regs = true)
    (hst : s.d.rd (Pg.INTR + HDR.PAGE_STATUS) &&& 0x18 = 0) : Gives (.softReset m 1) s (fun t =>
      (∀ g, g < 23 → t.rd (Pg.INTR + INTR.ROUTE + 4 * g) = regReset (Pg.INTR + INTR.ROUTE + 4 * g))
      ∧ t.busy 1 = true ∧ t.holder 1 = s.d.holder 1
      ∧ t.rd (Pg.INTR + HDR.INT_ENABLE) = s.d.rd (Pg.INTR + HDR.INT_ENABLE)
      ∧ t.rd (Pg.INTR + HDR.ERR_INFO) = s.d.rd (Pg.INTR + HDR.ERR_INFO)
      ∧ t.rd (Pg.INTR + HDR.INT_STATUS) = s.d.rd (Pg.INTR + HDR.INT_STATUS)
      ∧ Frame [.bus] (fun a => a / 0x1000 = 1) s.d t) := by
  refine gives_lockedAccess (f := fun t => t.softReset 1) (Eq.refl (execSoftReset m 1 s)) ha ?_
  rw [softReset_intr hst]
  have hrow : pageRow 1 = some ⟨0x001, 1, .intr, false, 0, false⟩ := rfl
  have hrd : ∀ a, (settle ((s.d.softClear 1).setSoft 1 true)).rd a = (s.d.softClear 1).rd a := fun a => settle_rd _ _
  have hbus : Part.bus ∈ [Part.bus] := List.mem_singleton.mpr rfl
  have hkept : ∀ g < 23, keptBits .intr (INTR.ROUTE + 4 * g) = 0 := by decide
  refine ⟨fun g hg => ?_, ?_, ?_, ?_, ?_, ?_, ((softClear_frame _ _).trans (Frame.setSoft _ _ _ hbus)).settle⟩
  · rw [hrd, Nat.add_assoc]
    exact rd_softClear_reset hrow hw (by simp only [INTR.ROUTE]; omega) (by simp only [INTR.ROUTE]; omega) (hkept g hg)
  · rw [Dev.busy, softResetting_settle, softResetting_setSoft, Bool.or_true]
  · rw [Dev.holder_settle]
    exact holder_softClear s.d 1 1
  · exact (hrd _).trans (rd_softClear_header (off := HDR.INT_ENABLE) hrow hw (by decide) (by decide))
  · exact (hrd _).trans (rd_softClear_header (off := HDR.ERR_INFO) hrow hw (by decide) (by decide))
  · exact (hrd _).trans (rd_softClear_header (off := HDR.INT_STATUS) hrow hw (by decide) (by decide))

variable {page : BitVec 10}

theorem gives_softReset_refused (ha : Admits s m (page.toNat * 0x1000 + HDR.PAGE_CTRL)) (h : s.d.holder page.toNat = 0) :
    Gives (.softReset m page) s (Rejected m (page.toNat * 0x1000 + HDR.PAGE_CTRL) 0x05 s.d) := by
  refine gives_lockedAccess_refused (f := fun t => t.softReset page.toNat) (Eq.refl (execSoftReset m page s)) ha ?_
  rw [pageOf_add _ (by decide), h]
  exact (masterId_ne_zero m).symm

theorem gives_softResetDone (h : s.d.softResetting page.toNat = true) (hq : ∀ k, k < 24 → (s.d.sq k).winQ = []) :
    Gives (.softResetDone page) s (fun t => t.softResetting page.toNat = false ∧ Frame [.bus] (fun _ => False) s.d t) := by
  refine gives_run (Eq.refl (execSoftResetDone page s)) ?_
  rw [if_pos h, Dev.pump_idle (s := s.d.setSoft page.toNat false) hq]
  exact ⟨by rw [softResetting_settle, softResetting_setSoft], (Frame.setSoft _ _ _ (List.mem_singleton.mpr rfl)).settle⟩

end

end Sys2Proof
end

