-- ==== Sys2Proof/Proofs/Parity.lean ====
section
/-! A parity fault on a host lane's page: what stops it, and the two ways it is lifted (02, R57 to R59; 20, R480). -/

namespace Sys2Proof

open Machine

/-! ### A host lane's page -/

theorem pageRow_host (n : Lane) : pageRow (0x040 + n.val) = some ⟨0x040, 16, .host, true, 6, false⟩ := by
  revert n
  decide

/-- The fault log and the Lantern senders write no register of a host lane's page. -/
theorem Frame.rd_host {ps : List Part} {s t : Dev} (h : Frame ps (OnTypes [.device, .lantern]) s t) (n : Lane) {a : Nat}
    (ha : a / 0x1000 = 0x040 + n.val) : t.rd a = s.rd a :=
  h.1 a fun hon => hon.disjoint (U := [.host]) ⟨_, ha ▸ pageRow_host n, by simp⟩ (by decide)

theorem Frame.bit_host {ps : List Part} {s t : Dev} (h : Frame ps (OnTypes [.device, .lantern]) s t) (n : Lane) {a : Nat} (i : Nat)
    (ha : a / 0x1000 = 0x040 + n.val) : t.bit a i = s.bit a i := congrArg (bitOf · i) (h.rd_host n ha)

theorem Frame.safeEdge {ps : List Part} {A : Nat → Prop} {old t : Dev} (hl : .lt ∈ ps) (hA : ∀ a, OnTypes [.lantern] a → A a) :
    Frame ps A t (Dev.safeEdge old t) := by
  refine Frame.foldl_mem fun u p hp => Frame.ite (Frame.foldl_mem fun w n hn => ?_) (Frame.refl u)
  exact Frame.ltFault (Dev.lpLanes_lt (List.mem_range.mp hp) hn) _ _ hl hA

theorem Frame.setUpset {ps : List Part} {A : Nat → Prop} (s : Dev) (a : Nat) (v : Option (Word × Word)) (h : .bus ∈ ps) :
    Frame ps A s (s.setUpset a v) := Frame.setBus _ h

/-- What stopping or releasing a host lane's page changes beside the page itself. -/
abbrev parityParts : List Part := [.log, .eg, .lt, .sent]

/-! ### A check finds a mismatch -/

/-- The marks of a mismatch stand on the register's page (R58). -/
theorem parityMark_frame (s : Dev) (a : Nat) : Frame [] (fun x => x / 0x1000 = a / 0x1000) s (s.parityMark a) := by
  have hst : (a / 0x1000 * 0x1000 + HDR.PAGE_STATUS) / 0x1000 = a / 0x1000 := pageOf_add _ (by decide)
  have hint : (a / 0x1000 * 0x1000 + HDR.INT_STATUS) / 0x1000 = a / 0x1000 := pageOf_add _ (by decide)
  have haddr : (a / 0x1000 * 0x1000 + HDR.PARITY_ADDR) / 0x1000 = a / 0x1000 := pageOf_add _ (by decide)
  unfold Dev.parityMark
  refine ((Frame.ite (Frame.refl s) (Frame.wr _ ?_)).trans (Frame.setB _ _ ?_)).trans (Frame.raise _ ?_)
  · exact haddr
  · exact hst
  · exact hint

theorem rd_parityMark_status (s : Dev) (a : Nat) : (s.parityMark a).rd (a / 0x1000 * 0x1000 + HDR.PAGE_STATUS)
    = withBit (s.rd (a / 0x1000 * 0x1000 + HDR.PAGE_STATUS)) 4 true := by
  have hint : a / 0x1000 * 0x1000 + HDR.PAGE_STATUS ≠ a / 0x1000 * 0x1000 + 0x10 := by simp
  have haddr : a / 0x1000 * 0x1000 + HDR.PAGE_STATUS ≠ a / 0x1000 * 0x1000 + HDR.PARITY_ADDR := by simp
  rw [Dev.parityMark, Dev.rd_raise_ne _ _ _ hint, Dev.rd_setB_same]
  split
  · rfl
  · rw [Dev.rd_wr_ne _ _ _ haddr]

theorem bit_parityMark_cause (s : Dev) (a : Nat) : (s.parityMark a).bit (a / 0x1000 * 0x1000 + HDR.INT_STATUS) 1 = true :=
  Dev.bit_raise_same _ _ (by decide)

theorem rd_parityMark_addr (s : Dev) (a : Nat) : (s.parityMark a).rd (a / 0x1000 * 0x1000 + HDR.PARITY_ADDR)
    = if s.bit (a / 0x1000 * 0x1000 + HDR.PAGE_STATUS) 4 then s.rd (a / 0x1000 * 0x1000 + HDR.PARITY_ADDR)
      else BitVec.ofNat 32 (a % 0x1000) := by
  have hint : a / 0x1000 * 0x1000 + HDR.PARITY_ADDR ≠ a / 0x1000 * 0x1000 + 0x10 := by simp
  have hst : a / 0x1000 * 0x1000 + HDR.PARITY_ADDR ≠ a / 0x1000 * 0x1000 + HDR.PAGE_STATUS := by simp
  rw [Dev.parityMark, Dev.rd_raise_ne _ _ _ hint, Dev.rd_setB_ne _ _ _ _ hst]
  split
  · rfl
  · exact Dev.rd_wr_same _ _ _

theorem upsetOf_of_frame {ps : List Part} {A : Nat → Prop} {s t : Dev} (h : Frame ps A s t) (hb : .bus ∉ ps) {a : Nat} (ha : ¬ A a) :
    t.upsetOf a = s.upsetOf a := by
  have hbus : t.bus = s.bus := h.2 .bus hb
  simp only [Dev.upsetOf, hbus, h.1 a ha]

theorem upsetOf_eq_none_of_page {s : Dev} {p : Nat} (h : s.pageUpset p = false) {u : Nat × Option (Word × Word)}
    (hu : u ∈ s.bus.upset) (hp : u.1 / 0x1000 = p) : s.upsetOf u.1 = none := by
  have := List.any_eq_false.mp h u hu
  simpa [hp] using this

/-- A check of every page marks no page without a register that fails. -/
theorem parityFound_all_frame {s : Dev} {p : Nat} (h : s.pageUpset p = false) :
    Frame [] (fun x => x / 0x1000 ≠ p) s (s.bus.upset.foldl (fun t u => t.parityFound u.1) s) := by
  refine List.foldlRecOn (motive := fun t => Frame [] (fun x => x / 0x1000 ≠ p) s t) _ _ (Frame.refl s) fun t ht u hu => ?_
  by_cases hp : u.1 / 0x1000 = p
  · have hnone : t.upsetOf u.1 = none :=
      (upsetOf_of_frame ht (by simp) (not_not.mpr hp)).trans (upsetOf_eq_none_of_page h hu hp)
    rw [Dev.parityFound, hnone]
    exact ht
  · refine ht.trans (Frame.ite ((parityMark_frame t u.1).mono (by simp) fun x hx => ?_) (Frame.refl t))
    exact hx ▸ hp

/-! ### A host lane's page stops (R58) -/

/-- A register with a parity bit is none of those that the fault marks. -/
theorem offset_of_configBits {a k : Nat} (h : bitOf (configBits a) k = true) :
    a % 0x1000 ≠ HDR.PAGE_STATUS ∧ a % 0x1000 ≠ HDR.INT_STATUS ∧ a % 0x1000 ≠ HDR.PARITY_ADDR := by
  have hzero : ∀ off, a % 0x1000 = off → off < 0x40 → off ≠ HDR.PAGE_CTRL → off ≠ HDR.INT_ENABLE → False := by
    intro off ho hlt hc he
    have hnone : configBits a = 0 := by
      simp only [configBits, ho, hlt, hc, he, if_true, if_false]
      split <;> rfl
    rw [hnone] at h
    exact absurd h (by simp [bitOf])
  exact ⟨fun e => hzero _ e (by decide) (by decide) (by decide), fun e => hzero _ e (by decide) (by decide) (by decide),
    fun e => hzero _ e (by decide) (by decide) (by decide)⟩

/-- The register's value with bit k wrong, and the right value kept beside it unless the two are the same again. -/
def parityUpset (s : Dev) (a k : Nat) : Option (Word × Word) :=
  let wrong := withBit (s.rd a) k (!bitOf (s.rd a) k)
  let right := ((s.upsetOf a).map Prod.snd).getD (s.rd a)
  if wrong = right then none else some (wrong, right)

/-- The page's own registers when a check has found bit k of one wrong. -/
def parityStopped (s : Dev) (a k : Nat) : Dev :=
  ((((s.parityMark a).raise (a / 0x1000 * 0x1000) 3).setUpset a (parityUpset s a k)).wr a
    (withBit (s.rd a) k (!bitOf (s.rd a) k))).setB (a / 0x1000 * 0x1000 + HDR.PAGE_STATUS) 3 true

theorem parityFault_host {s : Dev} {n : Lane} {a k : Nat} (ha : a / 0x1000 = 0x040 + n.val) (hb : bitOf (configBits a) k = true)
    (hon : s.pageOn (0x040 + n.val) = true) :
    Frame parityParts (OnTypes [.device, .lantern]) (parityStopped s a k) (s.parityFault a k) := by
  have hlog : Part.log ∈ parityParts := by simp
  have hdev : ∀ x, OnTypes [.device] x → OnTypes [.device, .lantern] x := fun _ h => h.mono (by simp)
  have hlan : ∀ x, OnTypes [.lantern] x → OnTypes [.device, .lantern] x := fun _ h => h.mono (by simp)
  have hactive : (!bitOf (configBits a) k || !s.pageOn (0x040 + n.val)) = false := by rw [hb, hon]; rfl
  simp only [Dev.parityFault, ha, pageRow_host, hactive, portPage, if_true, Bool.false_eq_true, if_false, Dev.safeUpdate]
  rw [parityStopped, ha, parityUpset]
  refine Frame.trans (Frame.trans ?_ (Frame.hostShow _ (by simp) (by simp))) (Frame.safeEdge (by simp) hlan)
  refine Frame.trans ?_ (Frame.ite (Frame.refl _) (Frame.closeFault _ _ _ _ hlog hdev))
  exact Frame.ite (Frame.refl _) (Frame.openFault (c := 8) (by decide) _ _ _ _ hlog hdev)

section

variable {s : Dev} {a k : Nat}

/-- The page's marks, and the register with its wrong bit. -/
theorem parityStopped_marks (hb : bitOf (configBits a) k = true) :
    (parityStopped s a k).rd (a / 0x1000 * 0x1000 + HDR.PAGE_STATUS)
      = withBit (withBit (s.rd (a / 0x1000 * 0x1000 + HDR.PAGE_STATUS)) 4 true) 3 true
    ∧ (parityStopped s a k).rd (a / 0x1000 * 0x1000 + HDR.INT_STATUS)
      = withBit ((s.parityMark a).rd (a / 0x1000 * 0x1000 + HDR.INT_STATUS)) 3 true
    ∧ (parityStopped s a k).rd (a / 0x1000 * 0x1000 + HDR.PARITY_ADDR)
      = (s.parityMark a).rd (a / 0x1000 * 0x1000 + HDR.PARITY_ADDR)
    ∧ (parityStopped s a k).rd a = withBit (s.rd a) k (!bitOf (s.rd a) k) := by
  obtain ⟨hst, hint, haddr⟩ := offset_of_configBits hb
  set b := a / 0x1000 * 0x1000 with hbase
  have hne : ∀ off, off < 0x1000 → a % 0x1000 ≠ off → b + off ≠ a := fun off ho h e => by
    rw [← e, hbase, offsetOf_add _ ho] at h
    exact h rfl
  have hst := hne _ (by decide) hst
  have hint := hne _ (by decide) hint
  have haddr := hne _ (by decide) haddr
  have hsi : b + HDR.PAGE_STATUS ≠ b + HDR.INT_STATUS := by simp
  have hsa : b + HDR.PAGE_STATUS ≠ b + HDR.PARITY_ADDR := by simp
  have hia : b + HDR.INT_STATUS ≠ b + HDR.PARITY_ADDR := by simp
  unfold parityStopped
  refine ⟨?_, ?_, ?_, ?_⟩
  · rw [Dev.rd_setB_same, Dev.rd_wr_ne _ _ _ hst, Dev.rd_setUpset, Dev.rd_raise_ne _ _ _ hsi, rd_parityMark_status]
  · rw [Dev.rd_setB_ne _ _ _ _ hsi.symm, Dev.rd_wr_ne _ _ _ hint, Dev.rd_setUpset, Dev.rd_raise_same]
  · rw [Dev.rd_setB_ne _ _ _ _ hsa.symm, Dev.rd_wr_ne _ _ _ haddr, Dev.rd_setUpset, Dev.rd_raise_ne _ _ _ hia.symm]
  · rw [Dev.rd_setB_ne _ _ _ _ hst.symm, Dev.rd_wr_same]

end

/-! ### The page is released (R59, R480) -/

/-- `PARITY_FAULT`, `SAFE_STATE` and `PARITY_ADDR` clear. -/
def parityMarksClear (s : Dev) (page : Nat) : Dev :=
  ((s.setB (page * 0x1000 + HDR.PAGE_STATUS) 4 false).setB (page * 0x1000 + HDR.PAGE_STATUS) 3 false).wr
    (page * 0x1000 + HDR.PARITY_ADDR) 0

theorem parityClear_host (s : Dev) (n : Lane) : Frame parityParts (OnTypes [.device, .lantern])
    (parityMarksClear s (0x040 + n.val)) (s.parityClear (0x040 + n.val)) := by
  simp only [Dev.parityClear, pageRow_host, Dev.safeUpdate]
  exact (Frame.hostShow _ (by simp) (by simp)).trans (Frame.safeEdge (by simp) fun _ h => h.mono (by simp))

/-- A page in service: neither in the safe state nor with a parity fault. -/
def Released (page : Nat) (t : Dev) : Prop := t.inSafe page = false ∧ t.bit (page * 0x1000 + HDR.PAGE_STATUS) 4 = false
  ∧ t.rd (page * 0x1000 + HDR.PARITY_ADDR) = 0

theorem released_parityMarksClear (s : Dev) (page : Nat) : Released page (parityMarksClear s page) := by
  have hne : page * 0x1000 + HDR.PAGE_STATUS ≠ page * 0x1000 + HDR.PARITY_ADDR := by simp
  have hst : (parityMarksClear s page).rd (page * 0x1000 + HDR.PAGE_STATUS)
      = withBit (withBit (s.rd (page * 0x1000 + HDR.PAGE_STATUS)) 4 false) 3 false := by
    rw [parityMarksClear, Dev.rd_wr_ne _ _ _ hne, Dev.rd_setB_same, Dev.rd_setB_same]
  refine ⟨?_, ?_, Dev.rd_wr_same _ _ _⟩
  · rw [Dev.inSafe, Dev.bit, hst, bitOf_withBit _ _ _ (by decide)]
  · rw [Dev.bit, hst, bitOf_withBit_ne _ _ _ _ (by decide), bitOf_withBit _ _ _ (by decide)]

theorem parityMarksClear_frame (s : Dev) (page : Nat) :
    Frame [] (fun x => x = page * 0x1000 + HDR.PAGE_STATUS ∨ x = page * 0x1000 + HDR.PARITY_ADDR) s (parityMarksClear s page) :=
  ((Frame.setB _ _ (.inl rfl)).trans (Frame.setB _ _ (.inl rfl))).trans (Frame.wr _ (.inr rfl))

/-- A page stays in service when the fault log and the Lantern senders are written. -/
theorem Released.of_frame {ps : List Part} {s t : Dev} {n : Lane} (h : Released (0x040 + n.val) s)
    (hf : Frame ps (OnTypes [.device, .lantern]) s t) : Released (0x040 + n.val) t := by
  obtain ⟨hsafe, hbit, haddr⟩ := h
  have hpage : ∀ off, off < 0x1000 → ((0x040 + n.val) * 0x1000 + off) / 0x1000 = 0x040 + n.val := fun off ho => pageOf_add _ ho
  exact ⟨(hf.bit_host n 3 (hpage _ (by decide))).trans hsafe, (hf.bit_host n 4 (hpage _ (by decide))).trans hbit,
    (hf.rd_host n (hpage _ (by decide))).trans haddr⟩

/-! ### What the commands give -/

theorem Machine.Dev.pageOn_of_isl {s t : Dev} (h : t.isl = s.isl) (p : Nat) : t.pageOn p = s.pageOn p := by
  simp only [Dev.pageOn, Dev.islandOn, h]

section

variable {s : State} {n : Lane}

theorem gives_parityCheckSweep {a : BitVec 22} {k : Fin 32} (ha : a.toNat / 0x1000 = 0x040 + n.val)
    (hb : bitOf (configBits a.toNat) k = true) (hon : s.d.pageOn (0x040 + n.val) = true)
    (hup : s.d.pageUpset (0x040 + n.val) = false) : Gives (.parityCheckSweep [(a, k)]) s (fun t =>
      t.inSafe (0x040 + n.val) = true ∧ t.bit (Pg.HOST n + HDR.PAGE_STATUS) 4 = true ∧ t.bit (Pg.HOST n + HDR.INT_STATUS) 1 = true
      ∧ t.bit a.toNat k = !s.d.bit a.toNat k
      ∧ (s.d.bit (Pg.HOST n + HDR.PAGE_STATUS) 4 = false → (t.rd (Pg.HOST n + HDR.PARITY_ADDR)).toNat = a.toNat % 0x1000)
      ∧ (s.d.bit (Pg.HOST n + HDR.PAGE_STATUS) 4 = true →
          t.rd (Pg.HOST n + HDR.PARITY_ADDR) = s.d.rd (Pg.HOST n + HDR.PARITY_ADDR))) := by
  refine gives_run (f := fun d => d.parityFaults [(a, k)]) (Eq.refl (execParityCheckSweep [(a, k)] s)) ?_
  set u := s.d.bus.upset.foldl (fun t x => t.parityFound x.1) s.d with hu
  have hbefore : Frame [] (fun x => x / 0x1000 ≠ 0x040 + n.val) s.d u := parityFound_all_frame hup
  have hafter := parityFault_host ha hb ((Dev.pageOn_of_isl (hbefore.2 .isl (by simp)) _).trans hon)
  obtain ⟨hst, hint, haddr, hreg⟩ := parityStopped_marks (s := u) hb
  have hkept : ∀ x, x / 0x1000 = 0x040 + n.val → u.rd x = s.d.rd x := fun x hx => hbefore.1 x (not_not.mpr hx)
  have hread : ∀ x, x / 0x1000 = 0x040 + n.val →
      (settle (s.d.parityFaults [(a, k)])).rd x = (parityStopped u a.toNat k).rd x := fun x hx =>
    (settle_rd _ _).trans (hafter.rd_host n hx)
  have hbase : a.toNat / 0x1000 * 0x1000 = Pg.HOST n := congrArg (· * 0x1000) ha
  have hpage : ∀ off, off < 0x1000 → (Pg.HOST n + off) / 0x1000 = 0x040 + n.val := fun off ho => pageOf_add _ ho
  have pst := hpage HDR.PAGE_STATUS (by decide)
  have pint := hpage HDR.INT_STATUS (by decide)
  have paddr := hpage HDR.PARITY_ADDR (by decide)
  have hmark := rd_parityMark_addr u a.toNat
  have hcause := bit_parityMark_cause u a.toNat
  rw [hbase] at hst hint haddr hmark hcause
  rw [Dev.bit_def, hkept _ pst, hkept _ paddr] at hmark
  refine ⟨?_, ?_, ?_, ?_, fun h => ?_, fun h => ?_⟩
  · rw [Dev.inSafe, Dev.bit, hread _ pst, hst, bitOf_withBit _ _ _ (by decide)]
  · rw [Dev.bit, hread _ pst, hst, bitOf_withBit_ne _ _ _ _ (by decide), bitOf_withBit _ _ _ (by decide)]
  · rw [Dev.bit, hread _ pint, hint, bitOf_withBit_ne _ _ _ _ (by decide)]
    exact hcause
  · rw [Dev.bit, hread _ ha, hreg, bitOf_withBit _ _ _ k.isLt, hkept _ ha]
    rfl
  · have hoff : a.toNat % 0x1000 < 2 ^ 32 := by omega
    rw [hread _ paddr, haddr, hmark, if_neg (by rw [← Dev.bit_def, h]; decide), BitVec.toNat_ofNat, Nat.mod_eq_of_lt hoff]
  · rw [hread _ paddr, haddr, hmark]
    exact if_pos h

variable {m : Master} {page : BitVec 10}

/-- The holder of the lock resumes a page whose registers are good. -/
theorem gives_parityFaultClear (hp : page.toNat = 0x040 + n.val) (ha : AdmitsHeld s m (Pg.HOST n + HDR.PAGE_STATUS))
    (hup : s.d.pageUpset (0x040 + n.val) = false) : Gives (.parityFaultClear m page) s (Released (0x040 + n.val)) := by
  refine gives_run (Eq.refl (execParityFaultClear m page s)) ?_
  rw [hp, ha.lockedAccess]
  simp only [Dev.parityCheck, Dev.need, hup, Bool.not_false, if_true, Dev.parityByHost, pageRow_host]
  have hclose : ∀ (t : Dev) (unit : Nat), Frame parityParts (OnTypes [.device, .lantern]) t (t.closeFault 8 unit 2 true) :=
    fun t unit => Frame.closeFault _ _ _ _ (by simp) fun _ h => h.mono (by simp)
  exact (released_parityMarksClear _ _).of_frame ((parityClear_host _ n).trans (hclose _ _)).settle

theorem gives_parityFaultClear_refused (hp : page.toNat = 0x040 + n.val) (ha : AdmitsHeld s m (Pg.HOST n + HDR.PAGE_STATUS))
    (hup : s.d.pageUpset (0x040 + n.val) = true) :
    Gives (.parityFaultClear m page) s (Rejected m (Pg.HOST n + HDR.PAGE_STATUS) 0x0D s.d) := by
  refine gives_run (Eq.refl (execParityFaultClear m page s)) ?_
  rw [hp, ha.lockedAccess]
  simp only [Dev.parityCheck, Dev.need, hup, Bool.not_true, Bool.false_eq_true, if_false]
  rw [logErr_eq_logOn ha.1.pageRow_isSome (by decide)]
  exact (rejected_logOn _ _ _ _).settle

/-- A page that waits for hardware: in the safe state with restoration on, and the register at `PARITY_ADDR` the only upset. -/
structure AwaitsRestore (s : Dev) (n : Lane) (a : Nat) (x w : Word) : Prop where
  safe : s.inSafe (0x040 + n.val) = true
  auto : s.bit (Pg.DEVICE + DEVICE.FAULT_CTRL) 1 = true
  addr : a = Pg.HOST n + s.fld (Pg.HOST n + HDR.PARITY_ADDR) 0 12
  listed : s.bus.upset = [(a, some (x, w))]
  fails : s.upsetOf a = some (x, w)

theorem AwaitsRestore.onPage {s : Dev} {a : Nat} {x w : Word} (h : AwaitsRestore s n a x w) : a / 0x1000 = 0x040 + n.val := by
  rw [h.addr]
  exact pageOf_add _ (Nat.mod_lt _ (by decide))

/-- Without a good copy the fault stays for the host (R480). -/
theorem parityRestore_bad {s : Dev} {a : Nat} {x w : Word} (h : AwaitsRestore s n a x w) :
    s.parityRestore (0x040 + n.val) false
      = s.closeFault 8 (Dev.parityUnit .host (0x040 + n.val - 0x040) (0x040 + n.val)) 2 true := by
  obtain ⟨hsafe, hauto, haddr, -, hfails⟩ := h
  simp only [Dev.parityRestore, pageRow_host, portPage, hsafe, hauto, ← haddr, hfails, Bool.not_true, Bool.or_false,
    Bool.false_eq_true, if_false]

/-- With a good copy the register takes it, and the page resumes. -/
theorem parityRestore_good {s : Dev} {a : Nat} {x w : Word} (h : AwaitsRestore s n a x w) :
    s.parityRestore (0x040 + n.val) true = (((s.wr a w).setUpset a none).parityClear (0x040 + n.val)).closeFault 8
      (Dev.parityUnit .host (0x040 + n.val - 0x040) (0x040 + n.val)) 0 true := by
  obtain ⟨hsafe, hauto, haddr, hlist, hfails⟩ := h
  have hnone : ((s.wr a w).setUpset a none).bus.upset = [] := by
    simp [Dev.setUpset, Dev.wr, hlist, Sparse.put, Sparse.drop]
  have hgood : ((s.wr a w).setUpset a none).pageUpset (0x040 + n.val) = false := by
    rw [Dev.pageUpset, hnone]
    rfl
  simp only [Dev.parityRestore, pageRow_host, portPage, hsafe, hauto, ← haddr, hfails, hgood, Bool.not_true, Bool.or_false,
    Bool.false_eq_true, if_false, if_true]

theorem gives_parityAutoRestore_bad {a : Nat} {x w : Word} (hp : page.toNat = 0x040 + n.val) (h : AwaitsRestore s.d n a x w) :
    Gives (.parityAutoRestore page false) s (fun t => t.inSafe (0x040 + n.val) = true ∧ t.rd a = s.d.rd a) := by
  refine gives_run (Eq.refl (execParityAutoRestore page false s)) ?_
  rw [hp, parityRestore_bad h]
  have hclose : Frame parityParts (OnTypes [.device, .lantern]) s.d
      (settle (s.d.closeFault 8 (Dev.parityUnit .host (0x040 + n.val - 0x040) (0x040 + n.val)) 2 true)) :=
    (Frame.closeFault _ _ _ _ (by simp) fun _ h => h.mono (by simp)).settle
  exact ⟨(hclose.bit_host n 3 (pageOf_add _ (by decide))).trans h.safe, hclose.rd_host n h.onPage⟩

theorem gives_parityAutoRestore_good {a : Nat} {x w : Word} (hp : page.toNat = 0x040 + n.val) (h : AwaitsRestore s.d n a x w)
    (hst : a % 0x1000 ≠ HDR.PAGE_STATUS) (haddr : a % 0x1000 ≠ HDR.PARITY_ADDR) :
    Gives (.parityAutoRestore page true) s (fun t => Released (0x040 + n.val) t ∧ t.rd a = w ∧ t.bus.upset = []) := by
  refine gives_run (Eq.refl (execParityAutoRestore page true s)) ?_
  rw [hp, parityRestore_good h]
  set u := (s.d.wr a w).setUpset a none
  have hclear : Frame parityParts (OnTypes [.device, .lantern]) (parityMarksClear u (0x040 + n.val))
      (settle ((u.parityClear (0x040 + n.val)).closeFault 8 (Dev.parityUnit .host (0x040 + n.val - 0x040) (0x040 + n.val)) 0 true)) :=
    ((parityClear_host u n).trans (Frame.closeFault _ _ _ _ (by simp) fun _ h => h.mono (by simp))).settle
  refine ⟨(released_parityMarksClear _ _).of_frame hclear, ?_, ?_⟩
  · have hne : ∀ off, off < 0x1000 → a % 0x1000 ≠ off → a ≠ (0x040 + n.val) * 0x1000 + off := fun off ho hoff e =>
      hoff (e ▸ offsetOf_add _ ho)
    rw [hclear.rd_host n h.onPage, (parityMarksClear_frame u _).1 a]
    · exact Dev.rd_wr_same s.d a w
    · rintro (e | e)
      · exact hne _ (by decide) hst e
      · exact hne _ (by decide) haddr e
  · have hbus : (parityMarksClear u (0x040 + n.val)).bus = u.bus := (parityMarksClear_frame u _).2 .bus (by simp)
    rw [(hclear.2 .bus (by simp) : _ = _), hbus]
    simp [u, Dev.setUpset, Dev.wr, h.listed, Sparse.put, Sparse.drop]

end

/-- Settles O12: the soft reset of the interrupt routes, and the parity fault of a host lane's page and its two ends. -/
theorem softResetsAndParityFaults : Obligations.SoftResetsAndParityFaults := by
  unfold Obligations.SoftResetsAndParityFaults
  refine ⟨fun s m page => ⟨fun hp ha hw hst => ?_, gives_softReset_refused, gives_softResetDone⟩,
    fun s m n page a k x w => ⟨gives_parityCheckSweep, gives_parityFaultClear, gives_parityFaultClear_refused, ?_⟩⟩
  · obtain rfl : page = 1 := BitVec.eq_of_toNat_eq (Nat.eq_of_mul_eq_mul_right (by decide : 0 < 0x1000) hp)
    exact gives_softReset_intr ha hw hst
  · intro hp hsafe hauto haddr hlist hfails hst
    have h : AwaitsRestore s.d n a.toNat x w := ⟨hsafe, hauto, haddr, hlist, hfails⟩
    exact ⟨gives_parityAutoRestore_good hp h hst, gives_parityAutoRestore_bad hp h⟩

end Sys2Proof
end

