-- ==== Sys2Proof/Proofs/Resets.lean ====
section
/-! Device resets, PCIe resets and those of the management controller and the test access port (02, R64; 14, R383, R384, R389;
16, R411). -/

namespace Sys2Proof

open Machine

/-! ### Locks of a master released (R64) -/

namespace Machine.Dev

variable (s : Dev) (m : Master) (id : BitVec 8)

theorem bus_dropStream : (s.dropStream id).bus = s.bus := by
  unfold dropStream
  split
  · split <;> rfl
  · rfl

theorem holder_releaseMaster (p : Nat) : (s.releaseMaster id).holder p = if s.holder p = id then 0 else s.holder p := by
  simp only [releaseMaster, bus_dropStream, holder, Sparse.get_clear, beq_iff_eq]
  rfl

theorem expertOpen_releaseMaster : (s.releaseMaster (masterId m)).expertOpen m = false := by
  simp [releaseMaster, expertOpen]

end Machine.Dev

theorem Frame.setSec {ps : List Part} {A : Nat → Prop} {s : Dev} (v : Security) (h : .sec ∈ ps) : Frame ps A s { s with sec := v } :=
  ofPart h (fun _ => rfl) fun p hp => by
    cases p with
    | sec => exact absurd rfl hp
    | _ => rfl

theorem Frame.setMbx {ps : List Part} {A : Nat → Prop} {s : Dev} (v : Mailbox) (h : .mbx ∈ ps) : Frame ps A s { s with mbx := v } :=
  ofPart h (fun _ => rfl) fun p hp => by
    cases p with
    | mbx => exact absurd rfl hp
    | _ => rfl

theorem Frame.setIsl {ps : List Part} {A : Nat → Prop} {s : Dev} (v : Islands) (h : .isl ∈ ps) : Frame ps A s { s with isl := v } :=
  ofPart h (fun _ => rfl) fun p hp => by
    cases p with
    | isl => exact absurd rfl hp
    | _ => rfl

theorem Frame.setLt {ps : List Part} {A : Nat → Prop} {s : Dev} (v : Sparse Lantern) (h : .lt ∈ ps) : Frame ps A s { s with lt := v } :=
  ofPart h (fun _ => rfl) fun p hp => by
    cases p with
    | lt => exact absurd rfl hp
    | _ => rfl

theorem releaseMaster_frame (s : Dev) (id : BitVec 8) :
    Frame [.bus, .sec] (· = Pg.BOOT + BOOT.IMG_STATUS) s (s.releaseMaster id) := by
  have hsec : Part.sec ∈ [Part.bus, .sec] := by simp
  have hdrop : Frame [.bus, .sec] (· = Pg.BOOT + BOOT.IMG_STATUS) s (s.dropStream id) := by
    unfold Dev.dropStream
    split
    · exact Frame.ite ((Frame.setB (A := (· = Pg.BOOT + BOOT.IMG_STATUS)) _ _ rfl).trans (Frame.setSec _ hsec)) (Frame.refl s)
    · exact Frame.refl s
  exact hdrop.trans (Frame.setBus _ (by simp))

/-- The locks of a master are free, every other lock as it was, and the master's expert session is closed. -/
def MasterReleased (m : Master) (s t : Dev) : Prop :=
  (∀ p, t.holder p = if s.holds m p then 0 else s.holder p) ∧ t.expertOpen m = false

theorem masterReleased_of_bus {m : Master} {s t : Dev} (h : t.bus = (s.releaseMaster (masterId m)).bus) : MasterReleased m s t := by
  refine ⟨fun p => ?_, (Dev.expertOpen_of_bus h m).trans (Dev.expertOpen_releaseMaster s m)⟩
  rw [Dev.holder_of_bus h, Dev.holder_releaseMaster]
  simp only [Dev.holds_iff]

theorem gives_trstN (s : State) :
    Gives .trstN s (fun t => MasterReleased .jtag s.d t ∧ Frame [.bus, .sec] (· = Pg.BOOT + BOOT.IMG_STATUS) s.d t) :=
  gives_run (Eq.refl (execTrstN s)) ⟨masterReleased_of_bus (settle_frame _).2.1, (releaseMaster_frame _ _).settle⟩

/-! ### What a ring's completion changes (R418 to R427) -/

section

variable {ps : List Part} {A : Nat → Prop} (s : Dev) (r : Nat) (hh : .hif ∈ ps) (ho : .sent ∈ ps) (hA : ∀ a, A a)

include hh

theorem Frame.setRing (v : RingSt) : Frame ps A s (s.setRing r v) := Frame.setHif _ hh

include ho

theorem Frame.sendMsix (v : Nat) : Frame ps A s (s.sendMsix v) :=
  Frame.ite (Frame.setHif _ hh) (Frame.emit _ ho)

include hA

theorem Frame.complete (tag : Word) (length status records : Nat) (aux : Word) :
    Frame ps A s (s.complete r tag length status records aux) := by
  have hirq : ∀ t : Dev, Frame ps A t (t.ringInterrupt r) := fun t =>
    Frame.ite ((Frame.sendMsix _ hh ho _).trans (Frame.setRing _ _ hh _)) (Frame.refl t)
  unfold Dev.complete
  extract_lets st t tail u w
  have hu : Frame ps A s u := (Frame.emit _ ho).trans (Frame.setF _ _ _ (hA _))
  have hw : Frame ps A s w := Frame.ite (hu.trans (Frame.setB _ _ (hA _))) hu
  exact ((hw.trans (Frame.count48 _ (hA _) (hA _))).trans (Frame.raise _ (hA _))).trans (hirq _)

theorem Frame.descDone (d : DmaDescriptor) : Frame ps A s (s.descDone r d) :=
  Frame.ite (((Frame.count _ (hA _)).trans (Frame.raise _ (hA _))).trans (Frame.complete _ r hh ho hA _ _ _ _ _))
    (Frame.complete _ r hh ho hA _ _ _ _ _)

theorem Frame.ringSkim (n : Nat) : Frame ps A s (s.ringSkim r n) := by
  induction n generalizing s with
  | zero => exact Frame.refl s
  | succ n ih =>
    unfold Dev.ringSkim
    extract_lets g
    split
    · exact Frame.ite (((Frame.setRing s r hh _).trans (Frame.descDone _ r hh ho hA _)).trans (ih _)) (Frame.refl s)
    · exact Frame.refl s

theorem Frame.ringNext : Frame ps A s (s.ringNext r) := Frame.ite (Frame.refl s) (Frame.ringSkim s r hh ho hA _)

end

/-! ### The management controller (R389) -/

/-- The controller in reset, its locks free and its epoch stepped: the first part of `mcReset`. -/
def mcStopped (s : Dev) : Dev :=
  let t := (s.releaseMaster (masterId .mc)).bumpEpoch 2
  { t with isl := { t.isl with mcDown := true }, mbx := { t.mbx with replies := [] } }

theorem mcStopped_bus (s : Dev) : (mcStopped s).bus = (s.releaseMaster (masterId .mc)).bus := rfl

theorem mcStopped_isl (s : Dev) : (mcStopped s).isl = { s.isl with mcDown := true } := by
  have h : (s.releaseMaster (masterId .mc)).isl = s.isl := (releaseMaster_frame s _).2 .isl (by simp)
  simp only [mcStopped, Dev.bumpEpoch, h]

theorem epoch_of_mbx {s t : Dev} {e : Nat} (he : e < 3) (h : t.mbx.epochs = s.mbx.epochs) : t.epoch e = s.epoch e := by
  simp only [Dev.epoch, he, if_true, h]

theorem mcStopped_epoch (s : Dev) : (mcStopped s).epoch 2 = s.epoch 2 + 1 := by
  have h : (s.releaseMaster (masterId .mc)).mbx = s.mbx := (releaseMaster_frame s _).2 .mbx (by simp)
  rw [← epoch_of_mbx (s := s) (by decide) (congrArg Mailbox.epochs h)]
  simp [mcStopped, Dev.bumpEpoch, Dev.epoch]

/-- Each module port makes a bus recovery. -/
def modulesRecover (s : Dev) : Dev := (List.range 16).foldl (fun t n => t.setMmo n { t.mmo n with recover := true }) s

theorem modulesRecover_frame {A : Nat → Prop} (s : Dev) : Frame [.mm] A s (modulesRecover s) :=
  Frame.foldl (fun _ _ => Frame.setMmo _ _ (by simp)) _

/-- The work of the attestation ring ends with RETRY. -/
def attestRetry (s : Dev) : Dev :=
  match (s.ring 6).work with
  | some d => ((s.setRing 6 { s.ring 6 with work := none }).complete 6 d.tag 0 4 0 0).ringNext 6
  | none => s

theorem attestRetry_frame (s : Dev) : Frame [.hif, .sent] (fun _ => True) s (attestRetry s) := by
  have hh : Part.hif ∈ [Part.hif, .sent] := by simp
  have ho : Part.sent ∈ [Part.hif, .sent] := by simp
  unfold attestRetry
  split
  · exact ((Frame.setRing s 6 hh _).trans (Frame.complete _ 6 hh ho (fun _ => trivial) _ _ _ _ _)).trans
      (Frame.ringNext _ 6 hh ho fun _ => trivial)
  · exact Frame.refl s

/-- The requests are dropped and the modules recover: what precedes the return of the start-up to its event 4. -/
def requestsDropped (s : Dev) : Dev :=
  modulesRecover ({ s with sec := { s.sec with requests := [], retries := s.sec.retries / 2 * 2 } }.setB
    (Pg.BOOT + BOOT.ATTEST_STATUS) 30 false)

theorem requestsDropped_frame (s : Dev) : Frame [.sec, .mm] (fun _ => True) s (requestsDropped s) :=
  ((Frame.setSec _ (by simp)).trans (Frame.setB _ _ trivial)).trans ((modulesRecover_frame _).mono (by simp) fun _ => id)

theorem requestsDropped_requests (s : Dev) : (requestsDropped s).sec.requests = [] := by
  have h : (requestsDropped s).sec = _ := (modulesRecover_frame (A := fun _ => True) _).2 .sec (by simp)
  rw [h]
  rfl

/-- The start-up resumes from its event 4 where it was past it. -/
def startUpResumes (s : Dev) : Dev :=
  if 5 ≤ s.sec.step ∧ s.sec.step < 11 ∧ s.bootStage ≠ 8 then
    let t := s.setF (Pg.BOOT + BOOT.BOOT_STATUS) 0 4 3
    { t with sec := { t.sec with step := 4, retries := 0, calSlice := 0 } }
  else s

theorem startUpResumes_frame (s : Dev) : Frame [.sec] (fun _ => True) s (startUpResumes s) :=
  Frame.ite ((Frame.setF _ _ _ trivial).trans (Frame.setSec _ (by simp))) (Frame.refl s)

theorem startUpResumes_requests (s : Dev) : (startUpResumes s).sec.requests = s.sec.requests := by
  unfold startUpResumes
  split <;> rfl

theorem mcReset_eq (s : Dev) : s.mcReset = startUpResumes (requestsDropped (attestRetry (mcStopped s))) := rfl

/-- The rest of the controller's reset bears on the attestation ring, the security state and the modules. -/
theorem mcReset_frame (s : Dev) : Frame [.hif, .sent, .sec, .mm] (fun _ => True) (mcStopped s) s.mcReset := by
  rw [mcReset_eq]
  exact (((attestRetry_frame _).mono (by simp) fun _ => id).trans ((requestsDropped_frame _).mono (by simp) fun _ => id)).trans
    ((startUpResumes_frame _).mono (by simp) fun _ => id)

theorem mcReset_requests (s : Dev) : s.mcReset.sec.requests = [] := by
  rw [mcReset_eq, startUpResumes_requests, requestsDropped_requests]

variable {s : State} {m : Master} {v : Word}

theorem gives_mcReset (ha : Admits s m (Pg.CLKRST + CLKRST.MC_RESET)) (h : s.d.resetAllowed m = true) :
    Gives (.mcReset m) s (fun t => MasterReleased .mc s.d t ∧ t.isl = { s.d.isl with mcDown := true }
      ∧ t.epoch 2 = s.d.epoch 2 + 1 ∧ t.sec.requests = []) := by
  refine gives_access (f := fun t => t.need m (Pg.CLKRST + CLKRST.MC_RESET) (t.resetAllowed m) Err.state (fun t => t.mcReset))
    (Eq.refl (execMcReset m s)) ha ?_
  simp only [Dev.need, h, if_true]
  have hframe := mcReset_frame s.d
  have hbus : (settle s.d.mcReset).bus = (mcStopped s.d).bus := hframe.settle.2 .bus (by simp)
  have hisl : (settle s.d.mcReset).isl = (mcStopped s.d).isl := hframe.settle.2 .isl (by simp)
  have hmbx : (settle s.d.mcReset).mbx = (mcStopped s.d).mbx := hframe.settle.2 .mbx (by simp)
  exact ⟨masterReleased_of_bus hbus, hisl.trans (mcStopped_isl _),
    (epoch_of_mbx (by decide) (congrArg Mailbox.epochs hmbx)).trans (mcStopped_epoch _), by simpa using mcReset_requests s.d⟩

theorem gives_mcReset_refused (ha : Admits s m (Pg.CLKRST + CLKRST.MC_RESET)) (h : s.d.resetAllowed m = false) :
    Gives (.mcReset m) s (Rejected m (Pg.CLKRST + CLKRST.MC_RESET) 0x0D s.d) :=
  gives_rejected (f := fun t => t.need m (Pg.CLKRST + CLKRST.MC_RESET) (t.resetAllowed m) Err.state (fun t => t.mcReset))
    (Eq.refl (execMcReset m s)) ha (by decide) (by simp only [Dev.need, h, Bool.false_eq_true, if_false])

/-! ### A PCIe reset (R384, R411) -/

/-- A ring stopped with what it held. -/
def ringDropped (s : Dev) (r : Nat) : Dev := ((s.setB (Pg.RING r + RING.RING_CTRL) 0 false).setRing r RingSt.init).ringOff r

/-- A ring is off and holds nothing. -/
def RingOff (r : Nat) (s : Dev) : Prop := s.bit (Pg.RING r + RING.RING_CTRL) 0 = false ∧ s.ring r = RingSt.init

section

variable {s : Dev} {r q : Nat}

theorem ring_ctrl_ne_status (r q : Nat) : Pg.RING r + RING.RING_CTRL ≠ Pg.RING q + RING.RING_STATUS := by
  simp only [Pg.RING, RING.RING_CTRL, RING.RING_STATUS]
  omega

theorem rd_ringDropped : (ringDropped s q).rd (Pg.RING r + RING.RING_CTRL)
    = (s.setB (Pg.RING q + RING.RING_CTRL) 0 false).rd (Pg.RING r + RING.RING_CTRL) := by
  have hdma : Pg.RING r + RING.RING_CTRL ≠ Pg.DMA + DMA.DMA_STATUS := by
    simp only [Pg.RING, RING.RING_CTRL, Pg.DMA, DMA.DMA_STATUS]
    omega
  rw [ringDropped, Dev.ringOff, Dev.rd_setB_ne _ _ _ _ hdma, Dev.rd_setB_ne _ _ _ _ (ring_ctrl_ne_status r q), Dev.rd_setRing]

theorem ringOff_ringDropped_same : RingOff r (ringDropped s r) := by
  refine ⟨?_, Dev.ring_setRing_same (s := s.setB (Pg.RING r + RING.RING_CTRL) 0 false) r RingSt.init⟩
  rw [Dev.bit, rd_ringDropped, Dev.rd_setB_same, bitOf_withBit _ _ _ (by decide)]

theorem ringOff_ringDropped (h : RingOff r s) : RingOff r (ringDropped s q) := by
  by_cases e : r = q
  · exact e ▸ ringOff_ringDropped_same
  · obtain ⟨hbit, hring⟩ := h
    have hctrl : Pg.RING r + RING.RING_CTRL ≠ Pg.RING q + RING.RING_CTRL := by
      simp only [Pg.RING, RING.RING_CTRL]
      omega
    refine ⟨?_, ?_⟩
    · rw [Dev.bit, rd_ringDropped, Dev.rd_setB_ne _ _ _ _ hctrl]
      exact hbit
    · exact (Sparse.get_put_ne _ s.hif.rings RingSt.init e).trans hring

theorem ringOff_foldl {l : List Nat} (h : r ∈ l ∨ RingOff r s) : RingOff r (l.foldl ringDropped s) := by
  induction l generalizing s with
  | nil => simpa using h
  | cons q l ih =>
    refine ih ?_
    rcases h with h | h
    · rcases List.mem_cons.mp h with rfl | h
      · exact .inr ringOff_ringDropped_same
      · exact .inl h
    · exact .inr (ringOff_ringDropped h)

theorem ringDropped_frame (s : Dev) (r : Nat) : Frame [.hif] (fun _ => True) s (ringDropped s r) :=
  (((Frame.setB _ _ trivial).trans (Frame.setRing _ _ (by simp) _)).trans (Frame.setB _ _ trivial)).trans (Frame.setB _ _ trivial)

end

/-- The host's locks are free, its epoch has stepped and its rings are stopped: the first part of `pcieReset`. -/
def hostStopped (s : Dev) : Dev := (List.range 8).foldl ringDropped ((s.releaseMaster (masterId .host)).bumpEpoch 0)

/-- Updates and frames that came over a ring are dropped, and the interrupt table starts afresh. -/
def hostForgotten (s : Dev) : Dev :=
  let mine (j : UpdJob) : Bool := match j.source with | .ring _ _ => true | _ => false
  let drop (l : Lantern) : Lantern := { l with waiting := l.waiting.filter (fun f => !f.ring) }
  let t := s.setB (Pg.DMA + DMA.HV_STATUS) 31 false
  let t := t.setB (Pg.BOOT + BOOT.ATTEST_STATUS) 30 false
  { t with cls := { t.cls with updates := t.cls.updates.filter (fun j => !mine j), ringStatus := [] },
           lt := t.lt.map (fun p => (p.1, drop p.2)),
           sec := { t.sec with requests := [] },
           hif := { t.hif with masked := [], msixOn := false, funcMask := false, pend := [], busMaster := true, hvRun := none } }

theorem pcieReset_eq (s : Dev) : s.pcieReset = hostForgotten (hostStopped s) := rfl

theorem hostForgotten_keeps (s : Dev) : (hostForgotten s).bus = s.bus ∧ (hostForgotten s).isl = s.isl ∧ (hostForgotten s).buf = s.buf
    ∧ (hostForgotten s).flow = s.flow := ⟨rfl, rfl, rfl, rfl⟩

theorem hostStopped_frame (s : Dev) : Frame [.mbx, .hif] (fun _ => True) (s.releaseMaster (masterId .host)) (hostStopped s) :=
  (Frame.setMbx _ (by simp)).trans (Frame.foldl (fun t r => (ringDropped_frame t r).mono (by simp) fun _ => id) _)

/-- What stays over a PCIe reset once the host's locks are free. -/
theorem pcieReset_keeps (s : Dev) : s.pcieReset.bus = (s.releaseMaster (masterId .host)).bus ∧ s.pcieReset.isl = s.isl
    ∧ s.pcieReset.buf = s.buf ∧ s.pcieReset.flow = s.flow := by
  have hrel := releaseMaster_frame s (masterId .host)
  have hstop := hostStopped_frame s
  have kept : ∀ p : Part, p ∉ [Part.bus, .sec, .mbx, .hif] → p.Kept s (hostStopped s) := fun p hp =>
    (hrel.2 p fun h => hp (by simp_all)).trans (hstop.2 p fun h => hp (by simp_all))
  obtain ⟨hbus, hisl, hbuf, hflow⟩ := hostForgotten_keeps (hostStopped s)
  rw [pcieReset_eq]
  exact ⟨hbus.trans (hstop.2 .bus (by simp)), hisl.trans (kept .isl (by simp)), hbuf.trans (kept .buf (by simp)),
    hflow.trans (kept .flow (by simp))⟩

theorem ringOff_hostForgotten {s : Dev} {r : Nat} (h : RingOff r s) : RingOff r (hostForgotten s) := by
  obtain ⟨hbit, hring⟩ := h
  have hhv : Pg.RING r + RING.RING_CTRL ≠ Pg.DMA + DMA.HV_STATUS := by
    simp only [Pg.RING, RING.RING_CTRL, Pg.DMA, DMA.HV_STATUS]
    omega
  have hboot : Pg.RING r + RING.RING_CTRL ≠ Pg.BOOT + BOOT.ATTEST_STATUS := by
    simp only [Pg.RING, RING.RING_CTRL, Pg.BOOT, BOOT.ATTEST_STATUS]
    omega
  refine ⟨?_, hring⟩
  have hread : (hostForgotten s).rd (Pg.RING r + RING.RING_CTRL) = s.rd (Pg.RING r + RING.RING_CTRL) :=
    (Dev.rd_setB_ne _ _ _ _ hboot).trans (Dev.rd_setB_ne _ _ _ _ hhv)
  rw [Dev.bit, hread]
  exact hbit

/-- The host interfaces of a settled device, but for the pending bits. -/
theorem hif_of_ports {s t : Dev} (h : t.ports = s.ports) : t.hif = { s.hif with pend := t.hif.pend } :=
  congrArg (fun x : HostIf => { x with pend := t.hif.pend }) h

theorem RingOff.settle {s : Dev} {r : Nat} (h : RingOff r s) : RingOff r (settle s) := by
  obtain ⟨hbit, hring⟩ := h
  refine ⟨(Dev.bit_settle _ _ _).trans hbit, ?_⟩
  rw [Dev.ring, hif_of_ports (settle_ports s)]
  exact hring

/-- What a PCIe reset leaves. -/
def PcieReset (s t : Dev) : Prop :=
  MasterReleased .host s t ∧ (∀ r, r < 8 → RingOff r t) ∧ t.hif.masked = [] ∧ t.hif.hvRun = none ∧ t.isl = s.isl
  ∧ t.buf = s.buf ∧ t.flow = s.flow

theorem pcieReset_settled (s : Dev) : PcieReset s (settle s.pcieReset) := by
  obtain ⟨hbus, hisl, hbuf, hflow⟩ := pcieReset_keeps s
  have hhif := hif_of_ports (settle_ports s.pcieReset)
  refine ⟨masterReleased_of_bus (by simpa using hbus), fun r hr => ?_, ?_, ?_, by simpa using hisl, by simpa using hbuf,
    by simpa using hflow⟩
  · exact (ringOff_hostForgotten (ringOff_foldl (.inl (List.mem_range.mpr hr)))).settle
  · rw [hhif]
    rfl
  · rw [hhif]
    rfl

/-! ### A device reset (R383, R384) -/

theorem Machine.Sparse.get_map {α : Type} {f : α → α} {d : Nat → α} (hd : ∀ k, f (d k) = d k) (m : Sparse α) (k : Nat) :
    Sparse.get d (m.map (fun p => (p.1, f p.2))) k = f (Sparse.get d m k) := by
  induction m with
  | nil => exact (hd k).symm
  | cons p m ih =>
    simp only [List.map_cons, Sparse.get]
    split
    · rfl
    · exact ih

/-- The device right after a device reset, before the cause of the reset and the checkpoints are shown. -/
def resetKeeping (s : Dev) : Dev :=
  { Dev.reset with
    regs := s.regs.filter (fun p => Dev.keptRegister p.1),
    isl := { Islands.init with held := s.isl.held, privDown := s.isl.privDown },
    rx := s.rx.map (fun p => (p.1, Dev.keptLane p.2)),
    lt := s.lt.map (fun p => (p.1, Dev.keptKeys p.2)),
    time := { s.time with latch := [], captLatch := [] },
    sec := { Security.init with fuses := s.sec.fuses },
    mon := { s.mon with zones := s.mon.zones.map (fun p => (p.1, Dev.keptZone p.2)), wakePending := false },
    mono := s.mono, fresh := s.fresh, out := s.out }

/-- A lane that kept checkpoints shows them. -/
def showCkpts (old t : Dev) (n : Nat) : Dev := if (old.rxl n).ckpts.isEmpty then t else t.ckptStatus n

theorem deviceReset_eq (s : Dev) (cause : Nat) : s.deviceReset cause
    = (List.range 16).foldl (showCkpts s) ((resetKeeping s).setB (Pg.CLKRST + CLKRST.RESET_CAUSE) cause true) := rfl

/-- The registers of the line receive lanes. -/
def OnLanes (a : Nat) : Prop := 0x010000 ≤ a ∧ a < 0x020000

theorem ckptStatus_frame (s : Dev) {n : Nat} (hn : n < 16) : Frame [] OnLanes s (s.ckptStatus n) := by
  have ha : OnLanes (Pg.LRX n + LRX.CKPT_STATUS) := by
    simp only [OnLanes, Pg.LRX, LRX.CKPT_STATUS]
    omega
  unfold Dev.ckptStatus
  extract_lets cs idx c valid newest a t
  have ht : ∀ k b, Frame [] OnLanes s ((t.setF a 8 3 k).setB a 11 b) := fun k b =>
    ((Frame.setF _ _ _ ha).trans (Frame.setF _ _ _ ha)).trans (Frame.setB _ _ ha)
  clear_value newest
  cases newest with
  | none => exact ht 0 false
  | some k => exact ht k true

theorem deviceReset_shown (s : Dev) (cause : Nat) :
    Frame [] OnLanes ((resetKeeping s).setB (Pg.CLKRST + CLKRST.RESET_CAUSE) cause true) (settle (s.deviceReset cause)) := by
  rw [deviceReset_eq]
  exact (Frame.foldl_mem fun t n hn => Frame.ite (Frame.refl t) (ckptStatus_frame t (List.mem_range.mp hn))).settle

theorem rd_resetKeeping (s : Dev) (a : Nat) : (resetKeeping s).rd a = if Dev.keptRegister a then s.rd a else regReset a := by
  have h := Sparse.get_clear regReset (fun a => !Dev.keptRegister a) s.regs a
  simp only [Sparse.clear, Bool.not_not] at h
  rw [show (resetKeeping s).rd a = _ from h]
  cases Dev.keptRegister a <;> rfl

/-- No register of a line receive lane is kept. -/
theorem not_onLanes_of_kept {a : Nat} (h : Dev.keptRegister a = true) : ¬ OnLanes a := by
  rintro ⟨hlo, hhi⟩
  have hcause : ¬ (a = Pg.CLKRST + CLKRST.RESET_CAUSE ∨ a = Pg.CLKRST + CLKRST.REF_STATUS) := by
    simp only [Pg.CLKRST, CLKRST.RESET_CAUSE, CLKRST.REF_STATUS]
    omega
  have hskew : ¬ (0x030 ≤ a / 0x1000 ∧ a / 0x1000 < 0x040) := by omega
  have hmon : ¬ (4 ≤ a / 0x1000 ∧ a / 0x1000 ≤ 7 ∧ 0x040 ≤ a % 0x1000) := by omega
  simp only [Dev.keptRegister, hcause, hskew, hmon, if_false, Bool.false_eq_true] at h

/-- What a device reset loses and keeps. -/
def DeviceReset (cause : Nat) (s t : Dev) : Prop :=
  t.bit (Pg.CLKRST + CLKRST.RESET_CAUSE) cause = true ∧ t.bus = Dev.reset.bus
  ∧ t.flow = Dev.reset.flow ∧ t.buf = Dev.reset.buf ∧ t.cls = Dev.reset.cls ∧ t.seq = Dev.reset.seq ∧ t.cal = Dev.reset.cal
  ∧ t.hif = { Dev.reset.hif with pend := t.hif.pend } ∧ t.mbx = Dev.reset.mbx ∧ t.sec = { Dev.reset.sec with fuses := s.sec.fuses }
  ∧ t.time.now = s.time.now ∧ (∀ n : Lane, (t.rxl n).ckpts = (s.rxl n).ckpts ∧ (t.ltn n).slots = (s.ltn n).slots)
  ∧ (∀ x, Dev.keptRegister x = true → x ≠ Pg.CLKRST + CLKRST.RESET_CAUSE → t.rd x = s.rd x)
  ∧ (∀ x, Dev.keptRegister x = false → x < 0x010000 ∨ 0x020000 ≤ x → t.rd x = regReset x)

theorem deviceReset_settled (s : Dev) {cause : Nat} (hc : cause < 32) : DeviceReset cause s (settle (s.deviceReset cause)) := by
  have hframe := deviceReset_shown s cause
  set t := settle (s.deviceReset cause)
  have hkept : ∀ p : Part, p.Kept ((resetKeeping s).setB (Pg.CLKRST + CLKRST.RESET_CAUSE) cause true) t := fun p =>
    hframe.2 p List.not_mem_nil
  have htime : t.time = (resetKeeping s).time := hkept .time
  have hrx : ∀ n, t.rxl n = Dev.keptLane (s.rxl n) := fun n => by
    rw [Dev.rxl, (hkept .rx : t.rx = _)]
    exact Sparse.get_map (f := Dev.keptLane) (fun _ => rfl) s.rx n
  have hlt : ∀ n, t.ltn n = Dev.keptKeys (s.ltn n) := fun n => by
    rw [Dev.ltn, (hkept .lt : t.lt = _)]
    exact Sparse.get_map (f := Dev.keptKeys) (fun _ => rfl) s.lt n
  have hcause : Dev.keptRegister (Pg.CLKRST + CLKRST.RESET_CAUSE) = true := rfl
  have hread : ∀ x, ¬ OnLanes x → x ≠ Pg.CLKRST + CLKRST.RESET_CAUSE → t.rd x = (resetKeeping s).rd x := fun x hx hne =>
    (hframe.1 x hx).trans (Dev.rd_setB_ne _ _ _ _ hne)
  refine ⟨?_, hkept .bus, hkept .flow, hkept .buf, hkept .cls, hkept .seq, hkept .cal, hif_of_ports (hkept .hif), hkept .mbx, hkept .sec,
    ?_, fun n => ⟨?_, ?_⟩, fun x hx hne => ?_, fun x hx hrange => ?_⟩
  · rw [Dev.bit, hframe.1 _ (not_onLanes_of_kept hcause), Dev.rd_setB_same, bitOf_withBit _ _ _ hc]
  · rw [htime]
    rfl
  · rw [hrx]
    rfl
  · rw [hlt]
    rfl
  · rw [hread x (not_onLanes_of_kept hx) hne, rd_resetKeeping, if_pos hx]
  · have hne : x ≠ Pg.CLKRST + CLKRST.RESET_CAUSE := by
      rintro rfl
      exact absurd (hcause.symm.trans hx) (by decide)
    have hlanes : ¬ OnLanes x := by
      rintro ⟨hlo, hhi⟩
      omega
    rw [hread x hlanes hne, rd_resetKeeping, hx]
    rfl

section

variable {s : State} {m : Master} {v : Word}

theorem gives_devReset (ha : Admits s m (Pg.CLKRST + CLKRST.DEV_RESET)) (h : s.d.resetAllowed m = true) :
    Gives (.devReset m 0xA55A) s (DeviceReset 2 s.d) := by
  refine gives_access (f := fun t => t.need m (Pg.CLKRST + CLKRST.DEV_RESET) ((0xA55A : Word) == 0xA55A && t.resetAllowed m) Err.state
    (fun t => t.deviceReset 2)) (Eq.refl (execDevReset m 0xA55A s)) ha ?_
  simp only [Dev.need, h, beq_self_eq_true, Bool.and_self, if_true]
  exact deviceReset_settled s.d (by decide)

theorem gives_devReset_refused (ha : Admits s m (Pg.CLKRST + CLKRST.DEV_RESET)) (h : v ≠ 0xA55A ∨ s.d.resetAllowed m = false) :
    Gives (.devReset m v) s (Rejected m (Pg.CLKRST + CLKRST.DEV_RESET) 0x0D s.d) := by
  have hnot : (v == 0xA55A && s.d.resetAllowed m) = false := by
    rcases h with h | h
    · rw [beq_eq_false_iff_ne.mpr h, Bool.false_and]
    · rw [h, Bool.and_false]
  exact gives_rejected (f := fun t => t.need m (Pg.CLKRST + CLKRST.DEV_RESET) (v == 0xA55A && t.resetAllowed m) Err.state
    (fun t => t.deviceReset 2)) (Eq.refl (execDevReset m v s)) ha (by decide) (by simp only [Dev.need, hnot, Bool.false_eq_true, if_false])

end

/-- Settles O45: the device reset and its refusals, the resets of the controller, of PCIe and of the test access port. -/
theorem deviceResets : Obligations.DeviceResets := by
  unfold Obligations.DeviceResets
  intro s m v b fresh released pcie
  refine ⟨gives_run (Eq.refl (execRstN s)) (deviceReset_settled s.d (by decide)),
    fun ha h => ⟨gives_devReset ha h, fun hv => gives_devReset_refused ha (.inl hv)⟩, fun ha h => gives_devReset_refused ha (.inr h),
    gives_mcReset, gives_mcReset_refused, ?_, ?_, ?_, gives_trstN s⟩
  · exact gives_run (Eq.refl (execPerstN s)) (pcieReset_settled s.d)
  · exact gives_run (Eq.refl (execFunctionLevelReset s)) (pcieReset_settled s.d)
  · exact gives_run (Eq.refl (execPcieLinkReset s)) (pcieReset_settled s.d)

end Sys2Proof
end

