-- ==== Sys2Proof/Proofs/ScanFrames.lean ====
section
/-! An eye scan keeps the index of its next point in 11 bits of `EYE_STATUS` (03, R106, R107), more than a scan has points. In a
state in which the index is beyond them the next count lies beyond the lane's page. -/

namespace Sys2Proof

open Machine

/-- The reset state with an eye scan of lane 15 in progress whose index is the largest that `EYE_STATUS` can hold. -/
def scanBeyondEnd : State :=
  { State.reset with d := State.reset.d.wr (Pg.LRX 15 + LRX.EYE_STATUS) (BitVec.ofNat 32 (2047 * 2 ^ 16 + 1)) }

/-- The register that would hold the scan's next point: one of page 0x020, a line transmitter's. -/
abbrev pointBeyondEnd : Nat := Pg.LRX 15 + LRX.EYE_DATA + 4 * (2047 / 2)

theorem not_onTypes_pointBeyondEnd : ¬ OnTypes [.lrx, .lseq, .seq] pointBeyondEnd := fun h =>
  h.disjoint (.ltx (T := [.ltx]) (i := 0) (off := 0x7FC) (by decide) (by decide) (by simp)) (by decide)

/-- The dwell of that point ends, and its count is stored there. -/
theorem eyePoint_writes_ltx : (settle ((scanBeyondEnd.d.eyePoint (Pg.LRX 15) (Pg.LRX 15 + LRX.EYE_CTRL) (Pg.LRX 15 + LRX.EYE_DATA) 2 16 15
    (eyeCount 1)).laneEvent 15 12)).rd pointBeyondEnd ≠ scanBeyondEnd.d.rd pointBeyondEnd := by decide

/-- Refutes O59: the clause on the dwell of an eye scan's point. In a state in which the scan of lane 15 has index 2,047, the
count is stored on page 0x020, a line transmitter's, which the frame does not name. A scan has at most 1,024 points, so the state
is not reached. -/
theorem not_portAndTableFrames : ¬ Obligations.PortAndTableFrames := by
  unfold Obligations.PortAndTableFrames
  intro h
  obtain ⟨-, -, -, heye, -⟩ := h scanBeyondEnd 15 0 0 false false false false false false false
    ⟨0, 0, 0, 0, 0, [], [], 0, 0, 0, 0, 0, 0⟩ 1 0 0 0 0 [] 0 0 0 0 .host 0 0 0 0 .parityStop 0 [] 0 [] [] 0 0 0 ⟨0, 0⟩ 0 0
  exact not_gives_frame (Eq.refl _) eyePoint_writes_ltx not_onTypes_pointBeyondEnd (fun _ => id) heye

end Sys2Proof
end

