-- ==== Sys2Proof/Proofs/LaneMoves.lean ====
section
/-! What a line receive lane writes as it moves from state to state (03, R87 to R101): its own state and figures, the pages of
its neighbours, and on its own page nothing else but what the state entered starts afresh. -/

namespace Sys2Proof

open Machine

/-! ### The registers of a move -/

/-- The types of the pages beside the lane's own that a move writes on. -/
def moveTypes : List PageType := [.device, .ltx, .lfec, .buf, .drop, .lantern, .lseq, .seq, .mm, .cal]

/-- The parts of the device that a move may change. -/
def moveParts : List Part := [.log, .rx, .flow, .eg, .lt, .mm, .cal, .fresh, .sent]

/-- The registers of such pages, and those of lane n's own page at the offsets named. -/
def MoveRegs (O : Nat → Prop) (n a : Nat) : Prop := OnTypes moveTypes a ∨ ∃ off, off < 0x1000 ∧ O off ∧ a = Pg.LRX n + off

/-- The lane's state and its causes. -/
abbrev StateOff (off : Nat) : Prop := off ∈ [LRX.LANE_STATE, HDR.INT_STATUS]

/-- The figures that leaving TRACK clears. -/
abbrev FigureOff (off : Nat) : Prop := off ∈ [LRX.QUALITY, LRX.SNR_EYE_LM, LRX.SNR_EYE_U, LRX.EYE_STATUS]

/-- The coefficients of the equaliser and the levels. -/
abbrev CoefOff (off : Nat) : Prop := off = LRX.DFE_TAP ∨ (0x100 ≤ off ∧ off < 0x300)

/-- What a start from nothing or from a checkpoint writes besides. -/
abbrev WorkOff (off : Nat) : Prop :=
  FigureOff off ∨ CoefOff off ∨ off ∈ [LRX.CDR_STATUS, LRX.AGC_STATUS, LRX.CKPT_STATUS]

section
variable {O : Nat → Prop} {n : Nat}

theorem MoveRegs.of_types (T : List PageType) (h : ∀ t ∈ T, t ∈ moveTypes) : ∀ a, OnTypes T a → MoveRegs O n a :=
  fun _ ha => .inl (ha.mono h)

theorem MoveRegs.own {off : Nat} (h : off < 0x1000) (ho : O off) : MoveRegs O n (Pg.LRX n + off) := .inr ⟨off, h, ho, rfl⟩

/-- A run of words of the coefficients. -/
theorem MoveRegs.coef {base len k : Nat} (hlo : 0x100 ≤ base) (hhi : base + 4 * len ≤ 0x300) (hk : k < len)
    (h : ∀ off, CoefOff off → O off) : MoveRegs O n (Pg.LRX n + base + 4 * k) := by
  rw [Nat.add_assoc]
  exact .own (by omega) (h _ (.inr (by omega)))

theorem MoveRegs.mono {P : Nat → Prop} {a : Nat} (h : MoveRegs O n a) (k : ∀ off, O off → P off) : MoveRegs P n a :=
  h.imp_right fun ⟨off, hlt, ho, e⟩ => ⟨off, hlt, k off ho, e⟩

theorem not_moveRegs_own (hn : n < 16) {off : Nat} (h : off < 0x1000) (ho : ¬ O off) : ¬ MoveRegs O n (Pg.LRX n + off) := by
  rintro (k | ⟨off', -, k, e⟩)
  · exact k.disjoint (.lrx (T := [.lrx]) hn h (by simp)) (by decide)
  · exact ho (Nat.add_left_cancel e ▸ k)

theorem not_moveRegs_of_types (hn : n < 16) {T : List PageType} {a : Nat} (h : OnTypes T a) (hT : ∀ t ∈ T, t ∉ PageType.lrx :: moveTypes) :
    ¬ MoveRegs O n a := by
  rintro (k | ⟨off, hoff, -, rfl⟩)
  · exact h.disjoint k fun t ht hm => hT t ht (List.mem_cons_of_mem _ hm)
  · exact h.disjoint (.lrx (T := [.lrx]) hn hoff (by simp)) fun t ht hm => hT t ht (by simp_all)

theorem not_moveRegs_pll (hn : n < 16) : ¬ MoveRegs O n (Pg.CLKRST + CLKRST.PLL_STATUS) :=
  not_moveRegs_of_types hn (OnTypes.page (T := [.clkrst]) (t := .clkrst) 0x008 1 (by decide) (i := 0) (by decide) (by decide) (by simp))
    (by decide)

end

/-! ### Frames of the steps of a move -/

namespace Frame

variable {ps : List Part} {A : Nat → Prop} {O : Nat → Prop} {s t : Dev} {n : Nat}

theorem nextFree (h : .fresh ∈ ps) : Frame ps A s s.nextFree :=
  ofPart h (fun _ => rfl) fun p hp => by
    cases p with
    | fresh => exact absurd rfl hp
    | _ => rfl

theorem wrWords {a : Nat} {l : List Word} (h : ∀ k, k < l.length → A (a + 4 * k)) : Frame ps A s (s.wrWords a l) := by
  induction l generalizing s a with
  | nil => exact refl s
  | cons w l ih =>
    have hrest : ∀ k, k < l.length → A (a + 4 + 4 * k) := fun k hk => by
      have := h (k + 1) (by simpa using hk)
      rwa [Nat.mul_succ, Nat.add_comm (4 * k), ← Nat.add_assoc] at this
    exact (wr w (h 0 (by simp))).trans (ih hrest)

theorem laneFaultNote (o : Nat) (h : .log ∈ ps) : Frame ps A s (s.laneFaultNote n o) := setLog _ h

theorem laneFaultClose (h : .log ∈ ps) (hA : ∀ a, OnTypes [.device] a → A a) : Frame ps A s (s.laneFaultClose n) :=
  foldl (fun _ _ => completeFault _ _ _ h hA) _

theorem ltWarm (hn : n < 16) (o us : Nat) (h : .lt ∈ ps) (hA : ∀ a, OnTypes [.lantern] a → A a) : Frame ps A s (s.ltWarm n o us) :=
  ite (refl s) (ltQueue hn _ _ h hA)

theorem setCalApplied (r w : Nat) (v : Word) (h : .cal ∈ ps) : Frame ps A s (s.setCalApplied r w v) := setCal _ h

theorem adcReapply (h : .cal ∈ ps) (hA : ∀ a, OnTypes [.cal] a → A a) : Frame ps A s (s.adcReapply n) := by
  have hpage : ∀ off, off < 0x1000 → A (Pg.CAL + off) := fun off ho =>
    hA _ (OnTypes.page (t := .cal) 0x0E0 1 (by decide) (i := 0) (by decide) ho (by simp))
  have hsettling : ∀ u : Dev, Frame ps A u u.calSettling := fun u => by
    unfold Dev.calSettling
    extract_lets a v w
    have hw : Frame ps A u w := wr _ (hpage _ (by decide))
    exact ite (hw.trans (raise _ (hpage _ (by decide)))) hw
  exact ite (refl s) ((foldl (fun _ _ => setCalApplied _ _ _ h) _).trans (hsettling _))

theorem mmUpdate (hn : n < 16) (hm : .mm ∈ ps) (ho : .sent ∈ ps) (hA : ∀ a, OnTypes [.mm] a → A a) : Frame ps A s (s.mmUpdate n) := by
  have hpoke : ∀ (u : Dev) page off v, Frame ps A u (u.mmPoke n page off v) := fun u page off v => by
    cases page with
    | none => exact emit _ ho
    | some p => exact (emit _ ho).trans (emit _ ho)
  have hset : ∀ (u : Dev) st v, Frame ps A u ((u.setMm n st).setMmo n v) := fun u st v => (setMm hn st hA).trans (setMmo _ _ hm)
  unfold Dev.mmUpdate
  extract_lets st v t u
  have ht : Frame ps A s t := hset _ _ _
  have hu : Frame ps A s u := ite ht (ht.trans (hpoke _ _ _ _))
  exact ite ((hset _ _ _).trans (hpoke _ _ _ _)) (ite (hu.trans (hpoke _ _ _ _)) (refl s))

/-! Those of a lane, within `MoveRegs` of what each of them writes -/

variable (hn : n < 16)
include hn

theorem alignClear (mask : Word) : Frame moveParts (MoveRegs O n) s (s.alignClear n mask) := by
  have hst : MoveRegs O n (Pg.LFEC n + LFEC.ALIGN_STATUS) := MoveRegs.of_types [.lfec] (by decide) _ (.lfec hn (by decide) (by simp))
  unfold Dev.alignClear
  extract_lets a t
  have ht : Frame moveParts (MoveRegs O n) s t := (wr _ hst).trans (setRxl _ _ (by decide))
  exact ite ((((ht.trans (wr _ hst)).trans (laneEvent hn _ (MoveRegs.of_types _ (by decide)))).trans
    (ltFault hn _ _ (by decide) (MoveRegs.of_types _ (by decide)))).trans
    (txUpdate (s.linePort_lt hn) (by decide) (by decide) (by decide) (by decide) (MoveRegs.of_types _ (by decide)))) ht

theorem degRestart : Frame moveParts (MoveRegs O n) s (s.degRestart n) :=
  (setRxl _ _ (by decide)).trans (wr _ (MoveRegs.of_types [.lfec] (by decide) _ (.lfec hn (by decide) (by simp))))

omit hn in
theorem coefReset (h : ∀ off, CoefOff off → O off) : Frame moveParts (MoveRegs O n) s (s.coefReset n) := by
  unfold Dev.coefReset
  extract_lets b main t
  have ht : Frame moveParts (MoveRegs O n) s t := wrWords fun k hk => MoveRegs.coef (len := 33) (by decide) (by decide) (by simpa using hk) h
  exact (ht.trans (wrWords fun k hk => MoveRegs.coef (len := 16) (by decide) (by decide) (by simpa using hk) h)).trans
    (wr _ (MoveRegs.own (by decide) (h _ (.inl rfl))))

theorem locksReset (h : O LRX.CDR_STATUS) : Frame moveParts (MoveRegs O n) s (s.locksReset n) := by
  unfold Dev.locksReset
  extract_lets a t
  have ht : Frame moveParts (MoveRegs O n) s t :=
    ite ((setB _ _ (MoveRegs.own (by decide) h)).trans (laneEvent hn _ (MoveRegs.of_types _ (by decide)))) (refl s)
  exact ht.trans (alignClear hn _)

omit hn in
theorem ckptLoad (k : Nat) (h : ∀ off, WorkOff off → O off) : Frame moveParts (MoveRegs O n) s (s.ckptLoad n k) := by
  have hcoef : ∀ off, CoefOff off → O off := fun off ho => h off (.inr (.inl ho))
  have hown : ∀ off, off < 0x1000 → WorkOff off → MoveRegs O n (Pg.LRX n + off) := fun off hlt ho => MoveRegs.own hlt (h off ho)
  have hckpt := hown LRX.CKPT_STATUS (by decide) (by decide)
  unfold Dev.ckptLoad
  extract_lets b c tap t u v w x
  have ht : Frame moveParts (MoveRegs O n) s t := wrWords fun k hk => MoveRegs.coef (len := 33) (by decide) (by decide) (by simpa using hk) hcoef
  have hu : Frame moveParts (MoveRegs O n) s u :=
    (ht.trans (wrWords fun k hk => MoveRegs.coef (len := 16) (by decide) (by decide) (by simpa using hk) hcoef)).trans
      (wr _ (hown _ (by decide) (by decide)))
  have hv : Frame moveParts (MoveRegs O n) s v := ite hu (hu.trans (setF _ _ _ (hown _ (by decide) (by decide))))
  have hw : Frame moveParts (MoveRegs O n) s w := ite hv (hv.trans (setF _ _ _ (hown _ (by decide) (by decide))))
  exact ((hw.trans (setRxl _ _ (by decide))).trans (setF _ _ _ hckpt)).trans (setB _ _ hckpt)

end Frame

namespace Machine.Dev

/-! ### A change of state (R88) -/

section
variable (s : Dev) (n st : Nat)

/-- `LANE_STATE` and its cause as a change of state leaves them. -/
def laneStamped : Dev :=
  (((((s.setF (Pg.LRX n + LRX.LANE_STATE) 4 4 (s.rxState n)).setF (Pg.LRX n + LRX.LANE_STATE) 0 4 st).setF (Pg.LRX n + LRX.LANE_STATE) 16 2
    (s.laneFormat n st)).setB (Pg.LRX n + LRX.LANE_STATE) 18 (s.typeE (n / 4))).setB (Pg.LRX n + LRX.LANE_STATE) 19 false).raise (Pg.LRX n) 8

theorem laneStamped_frame {ps : List Part} : Frame ps (MoveRegs StateOff n) s (s.laneStamped n st) := by
  have hst : MoveRegs StateOff n (Pg.LRX n + LRX.LANE_STATE) := MoveRegs.own (by decide) (by decide)
  exact (((((Frame.setF _ _ _ hst).trans (Frame.setF _ _ _ hst)).trans (Frame.setF _ _ _ hst)).trans (Frame.setB _ _ hst)).trans
    (Frame.setB _ _ hst)).trans (Frame.raise _ (MoveRegs.own (by decide) (by decide)))

theorem rd_laneStamped : (s.laneStamped n st).rd (Pg.LRX n + LRX.LANE_STATE) =
    withBit (withBit (withField (withField (withField (s.rd (Pg.LRX n + LRX.LANE_STATE)) 4 4 (s.rxState n)) 0 4 st) 16 2 (s.laneFormat n st))
      18 (s.typeE (n / 4))) 19 false := by
  rw [laneStamped, rd_raise_ne _ _ _ (by simp)]
  simp only [rd_setB_same, rd_setF_same]

/-- The rest of the change writes the figures, and beside the lane's page. -/
theorem setLane_frame (hn : n < 16) : Frame moveParts (MoveRegs FigureOff n) (s.laneStamped n st) (s.setLane n st) := by
  have hlt : ∀ off, FigureOff off → off < 0x1000 := by decide
  have hown : ∀ off, FigureOff off → MoveRegs FigureOff n (Pg.LRX n + off) := fun off h => MoveRegs.own (hlt off h) h
  have htypes : ∀ T : List PageType, (∀ t ∈ T, t ∈ moveTypes) → ∀ a, OnTypes T a → MoveRegs FigureOff n a := MoveRegs.of_types
  have heye : MoveRegs FigureOff n (Pg.LRX n + LRX.EYE_CTRL + 12) := by
    rw [Nat.add_assoc]
    exact hown _ (by decide)
  have hleave : ∀ u : Dev, Frame moveParts (MoveRegs FigureOff n) u (u.leaveTrack n) := fun u => by
    unfold Dev.leaveTrack
    extract_lets t x v
    have hv : Frame moveParts (MoveRegs FigureOff n) u v :=
      (((Frame.wr _ (hown _ (by simp))).trans (Frame.wr _ (hown _ (by simp)))).trans (Frame.wr _ (hown _ (by simp)))).trans
        (Frame.setRxl _ _ (by decide))
    exact ((hv.trans (Frame.eyeAbort heye)).trans (Frame.degClear hn (by decide) (htypes _ (by decide)))).trans
      (Frame.cutPackets (by decide) (htypes _ (by decide)))
  unfold Dev.setLane
  extract_lets a old t u x v unfit c w y
  have hu : Frame moveParts (MoveRegs FigureOff n) (s.laneStamped n st) u := Frame.laneEvent hn _ (htypes _ (by decide))
  have hw : Frame moveParts (MoveRegs FigureOff n) (s.laneStamped n st) w :=
    (hu.trans (Frame.setRxl _ _ (by decide))).trans (Frame.setCal _ (by decide))
  have hy : Frame moveParts (MoveRegs FigureOff n) (s.laneStamped n st) y := Frame.ite (hw.trans (hleave _)) hw
  exact hy.trans (Frame.ltRxUpdate hn (htypes _ (by decide)))

end

/-! ### What a move leaves -/

/-- Lane n is in state st, the state left is recorded and the change flagged, and of the lane's page nothing else changed but what
O names (R88). -/
def Moved (O : Nat → Prop) (n st : Nat) (s t : Dev) : Prop :=
  t.rxState n = st ∧ t.fld (Pg.LRX n + LRX.LANE_STATE) 4 4 = s.rxState n ∧ t.bit (Pg.LRX n + HDR.INT_STATUS) 8 = true
    ∧ Frame moveParts (MoveRegs (fun off => O off ∨ StateOff off) n) s t

section
variable {O P : Nat → Prop} {n st off : Nat} {s t u : Dev} (hn : n < 16)

theorem Moved.mono (h : Moved O n st s t) (k : ∀ off, O off → P off) : Moved P n st s t := by
  obtain ⟨hst, hold, hflag, hframe⟩ := h
  exact ⟨hst, hold, hflag, hframe.mono (fun _ => id) fun a ha => ha.mono fun off => Or.imp_left (k off)⟩

include hn

/-- A register of the lane's page that a frame does not name. -/
theorem rd_own {ps : List Part} (f : Frame ps (MoveRegs O n) s t) (h : off < 0x1000) (ho : ¬ O off) :
    t.rd (Pg.LRX n + off) = s.rd (Pg.LRX n + off) := f.1 _ (not_moveRegs_own hn h ho)

theorem Moved.rd_own (h : Moved O n st s t) (hoff : off < 0x1000) (ho : ¬ (O off ∨ StateOff off)) :
    t.rd (Pg.LRX n + off) = s.rd (Pg.LRX n + off) := by
  obtain ⟨-, -, -, hframe⟩ := h
  exact Dev.rd_own hn hframe hoff ho

/-- What follows a move without a new state belongs to the move. -/
theorem Moved.after (h : Moved O n st s t) (f : Frame moveParts (MoveRegs O n) t u) (hO : ∀ off, StateOff off → ¬ O off) :
    Moved O n st s u := by
  obtain ⟨hst, hold, hflag, hframe⟩ := h
  have hrd : u.rd (Pg.LRX n + LRX.LANE_STATE) = t.rd (Pg.LRX n + LRX.LANE_STATE) :=
    Dev.rd_own hn f (by decide) (hO _ (by decide))
  have hint : u.rd (Pg.LRX n + HDR.INT_STATUS) = t.rd (Pg.LRX n + HDR.INT_STATUS) :=
    Dev.rd_own hn f (by decide) (hO _ (by decide))
  exact ⟨(congrArg (fieldOf · 0 4) hrd).trans hst, (congrArg (fieldOf · 4 4) hrd).trans hold, (congrArg (bitOf · 8) hint).trans hflag,
    hframe.trans (f.mono (fun _ => id) fun a ha => ha.mono fun off => Or.inl)⟩

/-- So does what was done before it. -/
theorem Moved.before (h : Moved O n st t u) (f : Frame moveParts (MoveRegs O n) s t) (hO : ∀ off, StateOff off → ¬ O off) :
    Moved O n st s u := by
  obtain ⟨hst, hold, hflag, hframe⟩ := h
  have hrd : t.rd (Pg.LRX n + LRX.LANE_STATE) = s.rd (Pg.LRX n + LRX.LANE_STATE) :=
    Dev.rd_own hn f (by decide) (hO _ (by decide))
  exact ⟨hst, hold.trans (congrArg (fieldOf · 0 4) hrd), hflag,
    (f.mono (fun _ => id) fun a ha => ha.mono fun off => Or.inl).trans hframe⟩

end

/-- A cause raised after a move. -/
theorem Moved.raise {O : Nat → Prop} {n st : Nat} {s t : Dev} (h : Moved O n st s t) (c : Nat) : Moved O n st s (t.raise (Pg.LRX n) c) := by
  obtain ⟨hst, hold, hflag, hframe⟩ := h
  have hrd : (t.raise (Pg.LRX n) c).rd (Pg.LRX n + LRX.LANE_STATE) = t.rd (Pg.LRX n + LRX.LANE_STATE) := rd_raise_ne _ _ _ (by simp)
  exact ⟨(congrArg (fieldOf · 0 4) hrd).trans hst, (congrArg (fieldOf · 4 4) hrd).trans hold, FlagsKept.raise _ _ _ _ hflag,
    hframe.trans (Frame.raise _ (MoveRegs.own (by decide) (.inr (by decide))))⟩

section
variable {O : Nat → Prop} {n st : Nat} {s t : Dev}

theorem Moved.setRxl (h : Moved O n st s t) (v : RxLane) : Moved O n st s (t.setRxl n v) := by
  obtain ⟨hst, hold, hflag, hframe⟩ := h
  exact ⟨hst, hold, hflag, hframe.trans (Frame.setRxl _ _ (by decide))⟩

/-- `LANE_STATE` written after a move, but for the state and the one before it. -/
theorem Moved.wr_state (h : Moved O n st s t) {w : Word} (h0 : fieldOf w 0 4 = fieldOf (t.rd (Pg.LRX n + LRX.LANE_STATE)) 0 4)
    (h4 : fieldOf w 4 4 = fieldOf (t.rd (Pg.LRX n + LRX.LANE_STATE)) 4 4) : Moved O n st s (t.wr (Pg.LRX n + LRX.LANE_STATE) w) := by
  obtain ⟨hst, hold, hflag, hframe⟩ := h
  refine ⟨?_, ?_, ?_, hframe.trans (Frame.wr _ (MoveRegs.own (by decide) (.inr (by decide))))⟩
  · rw [rxState, fld, rd_wr_same, h0]
    exact hst
  · rw [fld, rd_wr_same, h4]
    exact hold
  · rw [bit, rd_wr_ne _ _ _ (by simp)]
    exact hflag

theorem Moved.waitEntry (h : Moved O n st s t) (first : Bool) : Moved O n st s (t.waitEntry n first) := by
  have hwait : Moved O n st s ((t.setB (Pg.LRX n + LRX.LANE_STATE) 19 true).raise (Pg.LRX n) 17) :=
    (h.wr_state (fieldOf_withBit_ne _ _ _ _ _ (by decide)) (fieldOf_withBit_ne _ _ _ _ _ (by decide))).raise 17
  unfold Dev.waitEntry
  extract_lets u
  have hu : Moved O n st s u := by
    simp only [u]
    split <;> assumption
  split
  · exact hu.setRxl _
  · exact hu

theorem warmCal_waitEntry (first : Bool) : ((t.waitEntry n first).rxl n).warmCal = (t.rxl n).warmCal := by
  unfold Dev.waitEntry
  extract_lets u
  have hu : u.rxl n = t.rxl n := by
    simp only [u]
    split <;> rfl
  split
  · rw [rxl_setRxl_same]
    exact (congrArg RxLane.warmCal hu :)
  · rw [hu]

end

/-! ### The moves of a lane (R88, R97, R98) -/

section
variable {n : Nat} (hn : n < 16) (s : Dev)
include hn

theorem moved_setLane {st : Nat} (h : st < 16) : Moved FigureOff n st s (s.setLane n st) := by
  have hstamped : Moved FigureOff n st s (s.laneStamped n st) := by
    refine ⟨?_, ?_, bit_raise_same _ _ (by decide), (s.laneStamped_frame n st).mono (fun _ => id) fun a ha => ha.mono fun off => Or.inr⟩
    · rw [rxState, fld, rd_laneStamped, fieldOf_withBit_ne _ _ _ _ _ (by decide), fieldOf_withBit_ne _ _ _ _ _ (by decide),
        fieldOf_withField_ne _ _ _ _ _ _ (by decide), fieldOf_withField _ _ _ _ (by decide)]
      exact Nat.mod_eq_of_lt h
    · rw [fld, rd_laneStamped, fieldOf_withBit_ne _ _ _ _ _ (by decide), fieldOf_withBit_ne _ _ _ _ _ (by decide),
        fieldOf_withField_ne _ _ _ _ _ _ (by decide), fieldOf_withField_ne _ _ _ _ _ _ (by decide), fieldOf_withField _ _ _ _ (by decide)]
      exact Nat.mod_eq_of_lt (fieldOf_lt _ 0 4)
  exact hstamped.after hn (s.setLane_frame n st hn) (by decide)

/-- A move counted in a counter of the lane's page. -/
theorem Moved.count {O : Nat → Prop} {st c : Nat} {s t : Dev} (h : Moved O n st s t) (hc : c < 0x1000) (hO : ¬ (O c ∨ StateOff c)) :
    Moved (fun off => O off ∨ off = c) n st s (t.count (Pg.LRX n + c)) ∧ Counted (Pg.LRX n + c) s (t.count (Pg.LRX n + c)) := by
  refine ⟨?_, (rd_count_same _ _ _).trans (congrArg (· + 1) (h.rd_own hn hc hO))⟩
  obtain ⟨hst, hold, hflag, hframe⟩ := h
  have hne : ∀ off, StateOff off → Pg.LRX n + off ≠ Pg.LRX n + c := fun off ho e => hO (.inr (Nat.add_left_cancel e ▸ ho))
  have hrd := rd_count_ne t (Pg.LRX n + c) 1 (hne LRX.LANE_STATE (by decide))
  have hint := rd_count_ne t (Pg.LRX n + c) 1 (hne HDR.INT_STATUS (by decide))
  exact ⟨(congrArg (fieldOf · 0 4) hrd).trans hst, (congrArg (fieldOf · 4 4) hrd).trans hold, (congrArg (bitOf · 8) hint).trans hflag,
    (hframe.mono (fun _ => id) fun a ha => ha.mono fun off => Or.imp_left .inl).trans (Frame.count _ (MoveRegs.own hc (.inl (.inr rfl))))⟩

theorem moved_toCalibrate (warm : Bool) : Moved FigureOff n 1 s (s.toCalibrate n warm) :=
  ((moved_setLane hn s (by decide)).setRxl _).waitEntry true

theorem moved_toTrack : Moved FigureOff n 3 s (s.toTrack n) := by
  unfold Dev.toTrack
  extract_lets up t x u v y w
  have hu : Moved FigureOff n 3 s u := ((moved_setLane hn s (by decide)).after hn (Frame.degRestart hn) (by decide)).setRxl _
  have hv : Moved FigureOff n 3 s v := by
    simp only [v]
    split
    · exact hu.waitEntry false
    · exact hu
  have hw : Moved FigureOff n 3 s w := by
    simp only [w]
    split
    · exact hv.setRxl _
    · exact hv
  exact hw.after hn (Frame.laneFaultClose (by decide) (MoveRegs.of_types _ (by decide))) (by decide)

/-- FAULT shows its cause and is counted. -/
theorem moved_toFault {cause : Nat} (h : cause < 256) : Moved (fun off => FigureOff off ∨ off = LRX.FAULT_COUNT) n 6 s (s.toFault n cause)
    ∧ (s.toFault n cause).fld (Pg.LRX n + LRX.LANE_STATE) 8 8 = cause ∧ Counted (Pg.LRX n + LRX.FAULT_COUNT) s (s.toFault n cause) := by
  set t := ((s.setLane n 6).setF (Pg.LRX n + LRX.LANE_STATE) 8 8 cause).raise (Pg.LRX n) 11 with ht
  have hmoved : Moved FigureOff n 6 s t := ((moved_setLane hn s (by decide)).wr_state (fieldOf_withField_ne _ _ _ _ _ _ (by decide))
    (fieldOf_withField_ne _ _ _ _ _ _ (by decide))).raise 11
  have hcause : t.fld (Pg.LRX n + LRX.LANE_STATE) 8 8 = cause := by
    rw [ht, fld, rd_raise_ne _ _ _ (by simp), rd_setF_same, fieldOf_withField _ _ _ _ (by decide)]
    exact Nat.mod_eq_of_lt h
  have hclose : Frame moveParts (MoveRegs FigureOff n) (t.count (Pg.LRX n + LRX.FAULT_COUNT)) (s.toFault n cause) :=
    (Frame.laneFaultNote _ (by decide)).trans (Frame.laneFaultClose (by decide) (MoveRegs.of_types _ (by decide)))
  obtain ⟨hcount, hcounted⟩ := hmoved.count hn (c := LRX.FAULT_COUNT) (by decide) (by decide)
  refine ⟨hcount.after hn (hclose.mono (fun _ => id) fun a ha => ha.mono fun _ => .inl) (by decide), ?_,
    (rd_own hn hclose (by decide) (by decide)).trans hcounted⟩
  rw [fld, rd_own hn hclose (by decide) (by decide), rd_count_ne _ _ _ (by simp)]
  exact hcause

/-- ACQUIRE begins with its locks lost and its coefficients at reset, and is counted. -/
theorem moved_toAcquire : Moved (fun off => WorkOff off ∨ off = LRX.ACQ_COUNT) n 2 s (s.toAcquire n)
    ∧ Counted (Pg.LRX n + LRX.ACQ_COUNT) s (s.toAcquire n) := by
  unfold Dev.toAcquire
  extract_lets fresh t x u
  have ht : Moved WorkOff n 2 s t := (((moved_setLane hn s (by decide)).mono fun _ => .inl).after hn (Frame.locksReset hn (by decide))
    (by decide)).after hn (Frame.coefReset fun _ h => .inr (.inl h)) (by decide)
  have hu : Moved WorkOff n 2 s u := by
    simp only [u]
    split
    · exact ht.setRxl _
    · exact ht
  exact hu.count hn (by decide) (by decide)

/-- A wait for `PROCEED` counts nothing. -/
theorem counted_waitEntry {a : Nat} {s t : Dev} (h : Counted (Pg.LRX n + a) s t) (first : Bool) (ha : a < 0x1000) (hO : ¬ StateOff a) :
    Counted (Pg.LRX n + a) s (t.waitEntry n first) := by
  have hst : ∀ off, StateOff off → MoveRegs StateOff n (Pg.LRX n + off) := fun off h => MoveRegs.own (by revert off; decide) h
  have f : Frame moveParts (MoveRegs StateOff n) t (t.waitEntry n first) := by
    unfold Dev.waitEntry
    extract_lets u
    have hu : Frame moveParts (MoveRegs StateOff n) t u :=
      Frame.ite ((Frame.setB _ _ (hst _ (by decide))).trans (Frame.raise _ (hst _ (by decide)))) (Frame.refl t)
    exact Frame.ite (hu.trans (Frame.setRxl _ _ (by decide))) hu
  exact (rd_own hn f ha hO).trans h

/-- What the entries of ACQUIRE leave. -/
abbrev Acquired (n : Nat) (s t : Dev) : Prop :=
  Moved (fun off => WorkOff off ∨ off = LRX.ACQ_COUNT) n 2 s t ∧ Counted (Pg.LRX n + LRX.ACQ_COUNT) s t

theorem acquired_acquireOn : Acquired n s (s.acquireOn n) := by
  obtain ⟨hmoved, hcount⟩ := moved_toAcquire hn s
  unfold Dev.acquireOn
  extract_lets up t
  split
  · exact ⟨hmoved.waitEntry _, counted_waitEntry hn hcount _ (by decide) (by decide)⟩
  · exact ⟨hmoved, hcount⟩

theorem acquired_reacquire : Acquired n s (s.reacquire n) := by
  obtain ⟨hmoved, hcount⟩ := moved_toAcquire hn s
  exact ⟨(hmoved.setRxl _).waitEntry _, counted_waitEntry hn (t := (s.toAcquire n).setRxl n _) hcount _ (by decide) (by decide)⟩

/-- WARM_RESTART begins from a checkpoint. -/
theorem moved_warmWith (k : Nat) : Moved WorkOff n 5 s (s.warmWith n k) :=
  (((((moved_setLane hn s (by decide)).mono fun _ => .inl).after hn (Frame.locksReset hn (by decide)) (by decide)).after hn
    (Frame.ckptLoad k fun _ => id) (by decide)).after hn (Frame.adcReapply (by decide) (MoveRegs.of_types _ (by decide))) (by decide)).setRxl _

/-- What a trigger of a warm restart leaves besides. -/
abbrev WarmOff (off : Nat) : Prop := (WorkOff off ∨ off = LRX.ACQ_COUNT) ∨ off = LRX.WR_NOCKPT

theorem moved_toWarm : Moved WarmOff n (if (s.eligible n).isSome then 5 else 2) s (s.toWarm n) := by
  cases hk : s.eligible n with
  | some k =>
    simp only [Dev.toWarm, hk]
    exact (moved_warmWith hn s k).mono fun _ h => .inl (.inl h)
  | none =>
    obtain ⟨hmoved, -⟩ := moved_toAcquire hn s
    obtain ⟨hcount, -⟩ := hmoved.count hn (c := LRX.WR_NOCKPT) (by decide) (by decide)
    simp only [Dev.toWarm, hk]
    exact (hcount.raise 14).after hn (Frame.laneFaultNote _ (by decide)) (by decide)

theorem warmEnd_frame {O : Nat → Prop} : Frame moveParts (MoveRegs O n) s (s.warmEnd n) :=
  Frame.ite ((Frame.ltWarm hn _ _ (by decide) (MoveRegs.of_types _ (by decide))).trans (Frame.nextFree (by decide))) (Frame.refl s)

/-- HOLD is entered from TRACK, and for the signal or the PLL from WARM_RESTART too, and is counted. -/
theorem moved_holdTrigger {input : Bool} (h : s.rxState n = 3 ∨ (input = true ∧ s.rxState n = 5)) :
    Moved (fun off => FigureOff off ∨ off = LRX.HOLD_COUNT) n 4 s (s.holdTrigger n input)
      ∧ Counted (Pg.LRX n + LRX.HOLD_COUNT) s (s.holdTrigger n input) := by
  have hmoved : Moved FigureOff n 4 s ((s.warmEnd n).setLane n 4) :=
    (moved_setLane hn (s.warmEnd n) (by decide)).before hn (warmEnd_frame hn s) (by decide)
  obtain ⟨hcount, hcounted⟩ := hmoved.count hn (c := LRX.HOLD_COUNT) (by decide) (by decide)
  simp only [Dev.holdTrigger]
  rw [if_pos h]
  exact ⟨hcount.after hn (Frame.laneFaultNote _ (by decide)) (by decide), hcounted⟩

omit hn in
theorem holdTrigger_idle {input : Bool} (h : ¬ (s.rxState n = 3 ∨ (input = true ∧ s.rxState n = 5))) : s.holdTrigger n input = s := by
  simp only [Dev.holdTrigger]
  rw [if_neg h]

/-- A trigger of HOLD leaves the rest of the lane's page alone, whether it acts or not. -/
theorem holdTrigger_frame (input : Bool) :
    Frame moveParts (MoveRegs (fun off => (FigureOff off ∨ off = LRX.HOLD_COUNT) ∨ StateOff off) n) s (s.holdTrigger n input) := by
  by_cases h : s.rxState n = 3 ∨ (input = true ∧ s.rxState n = 5)
  · obtain ⟨⟨-, -, -, hframe⟩, -⟩ := moved_holdTrigger hn s h
    exact hframe
  · rw [holdTrigger_idle s h]
    exact Frame.refl s

/-- The causes of HOLD that stand as TRACK is entered. -/
def Stays (s : Dev) (n : Nat) : Prop :=
  s.lossOfSignal n = false ∧ s.bit (Pg.LRX n + LRX.CDR_STATUS) 0 = true ∧ s.lpllLock (n / 4) = true

theorem stays_toTrack : Stays (s.toTrack n) n ↔ Stays s n := by
  have hmoved := moved_toTrack hn s
  have hlos := hmoved.rd_own hn (off := LRX.LOS_STATUS) (by decide) (by decide)
  have hcdr := hmoved.rd_own hn (off := LRX.CDR_STATUS) (by decide) (by decide)
  obtain ⟨-, -, -, hframe⟩ := hmoved
  have hpll : (s.toTrack n).rd (Pg.CLKRST + CLKRST.PLL_STATUS) = s.rd (Pg.CLKRST + CLKRST.PLL_STATUS) :=
    hframe.1 _ (not_moveRegs_pll hn)
  rw [Stays, Stays, lossOfSignal, lossOfSignal, lpllLock, lpllLock, bit, bit, bit, bit, bit, bit, hlos, hcdr, hpll]

theorem enterTrack_stays (h : Stays s n) : s.enterTrack n = s.toTrack n := by
  obtain ⟨hlos, hcdr, hpll⟩ := (stays_toTrack hn s).mpr h
  simp only [Dev.enterTrack, hlos, hcdr, hpll, Bool.not_false, Bool.and_self, if_true]

theorem enterTrack_holds (h : ¬ Stays s n) : s.enterTrack n = (s.toTrack n).holdTrigger n false := by
  have hnot : (!(s.toTrack n).lossOfSignal n && (s.toTrack n).bit (Pg.LRX n + LRX.CDR_STATUS) 0 && (s.toTrack n).lpllLock (n / 4)) = false := by
    rw [← Bool.not_eq_true]
    intro hall
    simp only [Bool.and_eq_true, Bool.not_eq_true', and_assoc] at hall
    exact h ((stays_toTrack hn s).mp hall)
  simp only [Dev.enterTrack, hnot, Bool.false_eq_true, if_false]

/-- With a cause of HOLD standing, TRACK goes on to HOLD at once. -/
theorem held_enterTrack (h : ¬ Stays s n) : (s.enterTrack n).rxState n = 4 ∧ Counted (Pg.LRX n + LRX.HOLD_COUNT) s (s.enterTrack n) := by
  have htrack := moved_toTrack hn s
  have hkept := htrack.rd_own hn (off := LRX.HOLD_COUNT) (by decide) (by decide)
  obtain ⟨hst, -, -, -⟩ := htrack
  obtain ⟨⟨hhold, -, -, -⟩, hcount⟩ := moved_holdTrigger hn (s.toTrack n) (input := false) (.inl hst)
  rw [enterTrack_holds hn s h]
  exact ⟨hhold, hcount.trans (congrArg (· + 1) hkept)⟩

/-- OFF: loss of signal reads 1. -/
theorem moved_toOff (h : s.rxState n ≠ 0) :
    Moved (fun off => WorkOff off ∨ off = LRX.LOS_STATUS) n 0 s (s.toOff n) ∧ (s.toOff n).lossOfSignal n = true := by
  set t := (s.setLane n 0).locksReset n with ht
  have hmoved : Moved WorkOff n 0 s t := ((moved_setLane hn s (by decide)).mono fun _ => .inl).after hn (Frame.locksReset hn (by decide))
    (by decide)
  have hclose : Frame moveParts (MoveRegs WorkOff n) (t.setB (Pg.LRX n + LRX.LOS_STATUS) 0 true) (s.toOff n) := by
    rw [Dev.toOff, if_neg h]
    exact (Frame.laneFaultNote _ (by decide)).trans (Frame.laneFaultClose (by decide) (MoveRegs.of_types _ (by decide)))
  refine ⟨((hmoved.mono fun _ => .inl).after hn (Frame.setB _ _ (MoveRegs.own (by decide) (.inr rfl))) (by decide)).after hn
    (hclose.mono (fun _ => id) fun a ha => ha.mono fun _ => .inl) (by decide), ?_⟩
  rw [lossOfSignal, bit, rd_own hn hclose (by decide) (by decide), rd_setB_same, bitOf_withBit _ _ _ (by decide)]

end

end Machine.Dev

end Sys2Proof
end

