-- ==== Sys2Proof/Proofs/LaneStates.lean ====
section
/-! The states of a line receive lane: the commands and events that move it from one to another (03, R88, R97 to R101). -/

namespace Sys2Proof

open Machine

/-! ### What settling keeps of a lane -/

namespace Machine.Dev

variable (s : Dev) (n : Nat)

@[simp] theorem rxState_settle : (settle s).rxState n = s.rxState n := fld_settle _ _ _ _
@[simp] theorem lossOfSignal_settle : (settle s).lossOfSignal n = s.lossOfSignal n := bit_settle _ _ _
@[simp] theorem rxl_settle : (settle s).rxl n = s.rxl n := by simp [rxl]

@[simp] theorem rd_laneFaultNote (o a : Nat) : (s.laneFaultNote n o).rd a = s.rd a := rfl

theorem rxl_of_rx {s t : Dev} (h : t.rx = s.rx) (n : Nat) : t.rxl n = s.rxl n := by rw [rxl, h, rxl]

theorem counted_settle_of {s t : Dev} {a : Nat} (h : Counted a s t) : Counted a s (settle t) := (settle_rd _ _).trans h

end Machine.Dev

/-! ### Lanes enabled and disabled -/

namespace Machine.Dev

section
variable {s t : Dev} {n : Nat}

/-- The hold of a line lane in OFF (R28) is read off its slice's configuration. -/
theorem lineHeld_congr
    (h : ∀ off ∈ [SLICE.SLICE_CFG, SLICE.HOST_CFG, SLICE.LP_MAP], t.rd (Pg.SLICE (n / 4) + off) = s.rd (Pg.SLICE (n / 4) + off)) :
    t.lineHeld n = s.lineHeld n := by
  have hcfg := h SLICE.SLICE_CFG (by simp)
  have hhost := h SLICE.HOST_CFG (by simp)
  have hmap := h SLICE.LP_MAP (by simp)
  have hl453 : t.l453 (n / 4) = s.l453 (n / 4) := congrArg (bitOf · 0) hcfg
  have hlayout : t.lpLayout (n / 4) = s.lpLayout (n / 4) := congrArg (fieldOf · 8 3) hcfg
  have hrate : t.hostRate (n / 4) = s.hostRate (n / 4) := congrArg (fieldOf · 0 2) hhost
  have hhp : t.hpLayout (n / 4) = s.hpLayout (n / 4) := congrArg (fieldOf · 8 3) hhost
  have hen : ∀ q, t.lpEn (n / 4) q = s.lpEn (n / 4) q := fun q => congrArg (bitOf · (4 + q)) hcfg
  have hmaps : (List.range 4).all (fun q => !s.lpEn (n / 4) q || decide (t.mapPort (4 * (n / 4) + q) = 4 * (n / 4) + q))
      = (List.range 4).all (fun q => !s.lpEn (n / 4) q || decide (s.mapPort (4 * (n / 4) + q) = 4 * (n / 4) + q)) := by
    rw [Bool.eq_iff_iff, List.all_eq_true, List.all_eq_true]
    refine forall₂_congr fun q hq => ?_
    have hdiv : (4 * (n / 4) + q) / 4 = n / 4 := by
      have := List.mem_range.mp hq
      omega
    rw [mapPort, mapPort, hdiv, fld, fld, hmap]
  have hport : t.lpOn (t.linePort n) = s.lpOn (s.linePort n) := by
    have hdiv : (s.linePort n) / 4 = n / 4 := by
      have := layoutFirst_le (s.lpLayout (n / 4)) (n % 4)
      simp only [linePort]
      omega
    have hline : t.linePort n = s.linePort n := by rw [linePort, linePort, hlayout]
    rw [hline, lpOn, lpOn, lpWidth, lpWidth, hdiv, hlayout, hen]
  have hcode : (decide (1 ≤ t.conflict (n / 4)) && decide (t.conflict (n / 4) ≤ 3))
      = (decide (1 ≤ s.conflict (n / 4)) && decide (s.conflict (n / 4) ≤ 3)) := by
    simp only [conflict, hl453, hrate, hhp, hlayout, hen, hmaps]
    split_ifs <;> rfl
  rw [lineHeld, lineHeld, hcode, hport]

/-- An enabled lane that nothing holds leaves OFF. -/
theorem rxTryUp_up (hn : n < 16) (h0 : s.rxState n = 0) (hen : s.bit (Pg.LRX n + LRX.LANE_CTRL) 0 = true) (hheld : s.lineHeld n = false)
    (hpll : s.lpllLock (n / 4) = true) :
    s.rxTryUp n = (s.sliceCheck (n / 4)).toCalibrate n ((s.sliceCheck (n / 4)).rxl n).warmUp := by
  have hframe : Frame [] (fun a => a = Pg.SLICE (n / 4) + SLICE.SLICE_STATUS ∨ a = Pg.SLICE (n / 4) + HDR.INT_STATUS) s
      (s.sliceCheck (n / 4)) := Frame.sliceCheck _ (.inl rfl) (.inr rfl)
  have hcfg : ∀ off ∈ [SLICE.SLICE_CFG, SLICE.HOST_CFG, SLICE.LP_MAP],
      (s.sliceCheck (n / 4)).rd (Pg.SLICE (n / 4) + off) = s.rd (Pg.SLICE (n / 4) + off) := fun off hoff => by
    have hne : ∀ off ∈ [SLICE.SLICE_CFG, SLICE.HOST_CFG, SLICE.LP_MAP], off ≠ SLICE.SLICE_STATUS ∧ off ≠ HDR.INT_STATUS := by decide
    obtain ⟨hstatus, hint⟩ := hne off hoff
    exact hframe.1 _ (by simpa using ⟨hstatus, hint⟩)
  have hclk : (s.sliceCheck (n / 4)).lpllLock (n / 4) = true := by
    have : Pg.CLKRST + CLKRST.PLL_STATUS < Pg.SLICE (n / 4) := by
      simp only [Pg.CLKRST, CLKRST.PLL_STATUS, Pg.SLICE]
      omega
    rw [lpllLock, bit, hframe.1 _ (by omega)]
    exact hpll
  rw [rxTryUp, if_pos ⟨h0, hen⟩]
  simp only [lineHeld_congr hcfg, hheld, hclk, Bool.not_false, Bool.and_self, if_true]

/-- `LANE_EN` written, and the module of the port told. -/
def laneSwitched (s : Dev) (n : Nat) (on : Bool) : Dev :=
  (s.setB (Pg.LRX n + LRX.LANE_CTRL) 0 on).mmUpdate ((s.setB (Pg.LRX n + LRX.LANE_CTRL) 0 on).linePort n)

theorem laneSwitched_frame (hn : n < 16) (on : Bool) : Frame moveParts (MoveRegs (· = LRX.LANE_CTRL) n) s (s.laneSwitched n on) := by
  have hctrl : Frame moveParts (MoveRegs (· = LRX.LANE_CTRL) n) s (s.setB (Pg.LRX n + LRX.LANE_CTRL) 0 on) :=
    Frame.setB _ _ (MoveRegs.own (by decide) rfl)
  exact hctrl.trans (Frame.mmUpdate (linePort_lt _ hn) (by decide) (by decide) (MoveRegs.of_types _ (by decide)))

theorem bit_laneSwitched (hn : n < 16) (on : Bool) : (s.laneSwitched n on).bit (Pg.LRX n + LRX.LANE_CTRL) 0 = on := by
  have hmm : Frame moveParts (MoveRegs (fun _ => False) n) (s.setB (Pg.LRX n + LRX.LANE_CTRL) 0 on) (s.laneSwitched n on) :=
    Frame.mmUpdate (linePort_lt _ hn) (by decide) (by decide) (MoveRegs.of_types _ (by decide))
  rw [bit, rd_own hn hmm (by decide) id, rd_setB_same, bitOf_withBit _ _ _ (by decide)]

theorem laneEnable_eq (on : Bool) : s.laneEnable n on = if (s.laneSwitched n on).rxState n = 7 then s.laneSwitched n on
    else if on then (s.laneSwitched n on).rxTryUp n
    else ((s.laneSwitched n on).setRxl n { (s.laneSwitched n on).rxl n with warmUp := false }).toOff n := rfl

theorem rxState_laneSwitched (hn : n < 16) (on : Bool) : (s.laneSwitched n on).rxState n = s.rxState n :=
  congrArg (fieldOf · 0 4) (rd_own hn (laneSwitched_frame hn on) (by decide) (by decide))

theorem moved_laneEnable (hn : n < 16) (h0 : s.rxState n = 0) (hheld : s.lineHeld n = false) (hpll : s.lpllLock (n / 4) = true) :
    (s.laneEnable n true).rxState n = 1 ∧ (s.laneEnable n true).bit (Pg.LRX n + LRX.LANE_CTRL) 0 = true
      ∧ (s.laneEnable n true).bit (Pg.LRX n + HDR.INT_STATUS) 8 = true := by
  set t := s.laneSwitched n true with ht
  have hframe : Frame moveParts (MoveRegs (· = LRX.LANE_CTRL) n) s t := laneSwitched_frame hn true
  have hst : t.rxState n = 0 := (rxState_laneSwitched hn true).trans h0
  have hen : t.bit (Pg.LRX n + LRX.LANE_CTRL) 0 = true := bit_laneSwitched hn true
  have hcfg : ∀ off ∈ [SLICE.SLICE_CFG, SLICE.HOST_CFG, SLICE.LP_MAP], t.rd (Pg.SLICE (n / 4) + off) = s.rd (Pg.SLICE (n / 4) + off) :=
    fun off hoff => by
      have hlt : ∀ off ∈ [SLICE.SLICE_CFG, SLICE.HOST_CFG, SLICE.LP_MAP], off < 0x1000 := by decide
      exact hframe.1 _ (not_moveRegs_of_types hn (.slice (T := [.slice]) (by omega) (hlt off hoff) (by simp)) (by decide))
  have hclk : t.lpllLock (n / 4) = s.lpllLock (n / 4) := congrArg (bitOf · (n / 4)) (hframe.1 _ (not_moveRegs_pll hn))
  set u := t.sliceCheck (n / 4) with hu
  have hslice : ∀ a, a < Pg.SLICE 0 → u.rd a = t.rd a := fun a ha => by
    have hne : ∀ off, a ≠ Pg.SLICE (n / 4) + off := fun off => by
      simp only [Pg.SLICE] at ha ⊢
      omega
    exact (Frame.sliceCheck (ps := []) (A := (· ≠ a)) _ (hne _).symm (hne _).symm).1 a (not_not.mpr rfl)
  have hup : s.laneEnable n true = u.toCalibrate n (u.rxl n).warmUp := by
    rw [laneEnable_eq, if_neg (by rw [← ht, hst]; decide), if_pos rfl]
    exact rxTryUp_up hn hst hen ((lineHeld_congr hcfg).trans hheld) (hclk.trans hpll)
  have hmoved := moved_toCalibrate hn u (u.rxl n).warmUp
  have hctrl := hmoved.rd_own hn (off := LRX.LANE_CTRL) (by decide) (by decide)
  obtain ⟨hone, -, hflag, -⟩ := hmoved
  rw [hup]
  refine ⟨hone, ?_, hflag⟩
  rw [bit, hctrl, hslice _ (by simp only [Pg.LRX, Pg.SLICE, LRX.LANE_CTRL]; omega)]
  exact hen

/-- A lane disabled outside a test is in OFF. -/
theorem laneEnable_off (hn : n < 16) (h7 : s.rxState n ≠ 7) : (s.laneEnable n false).rxState n = 0
    ∧ (s.laneEnable n false).bit (Pg.LRX n + LRX.LANE_CTRL) 0 = false ∧ (s.rxState n ≠ 0 → (s.laneEnable n false).lossOfSignal n = true) := by
  set t := s.laneSwitched n false with ht
  set u := t.setRxl n { t.rxl n with warmUp := false } with hu
  have hst : u.rxState n = s.rxState n := rxState_laneSwitched hn false
  have hen : u.bit (Pg.LRX n + LRX.LANE_CTRL) 0 = false := bit_laneSwitched hn false
  have hoff : s.laneEnable n false = u.toOff n := by
    rw [laneEnable_eq, if_neg (by rw [rxState_laneSwitched hn]; exact h7)]
    rfl
  rw [hoff]
  by_cases h0 : s.rxState n = 0
  · rw [toOff, if_pos (hst.trans h0)]
    exact ⟨hst.trans h0, hen, fun h => absurd h0 h⟩
  · obtain ⟨hmoved, hlos⟩ := moved_toOff hn u (by rwa [hst])
    have hctrl := hmoved.rd_own hn (off := LRX.LANE_CTRL) (by decide) (by decide)
    obtain ⟨hzero, -, -, -⟩ := hmoved
    exact ⟨hzero, (congrArg (bitOf · 0) hctrl).trans hen, fun _ => hlos⟩

end

end Machine.Dev

/-! ### The commands and events (R88, R97 to R101) -/

section
variable {s : State} {m : Master} {n : Lane}

/-- An event that acts when its condition holds gives what it leaves. -/
theorem gives_when {i : Instr} {c : Dev → Prop} {inst : ∀ d, Decidable (c d)} {g : Dev → Dev} {P : Dev → Prop}
    (h : exec i s = s.run (fun d => if c d then g d else d)) (hc : c s.d) (p : P (settle (g s.d))) : Gives i s P :=
  gives_run h (by rwa [if_pos hc])

theorem gives_laneEnable (ha : Admits s m (Pg.LRX n + LRX.LANE_CTRL)) (h0 : s.d.rxState n = 0) (hheld : s.d.lineHeld n = false)
    (hpll : s.d.lpllLock (n / 4) = true) : Gives (.laneEnable m n) s (fun t => t.rxState n = 1 ∧ t.bit (Pg.LRX n + LRX.LANE_CTRL) 0 = true
      ∧ t.bit (Pg.LRX n + HDR.INT_STATUS) 8 = true) := by
  refine gives_access (Eq.refl (execLaneEnable m n s)) ha ?_
  simpa only [Dev.rxState_settle, Dev.bit_settle] using Dev.moved_laneEnable n.isLt h0 hheld hpll

theorem gives_laneDisable (ha : Admits s m (Pg.LRX n + LRX.LANE_CTRL)) (h7 : ¬ s.d.rxState n = 7) :
    Gives (.laneDisable m n) s (fun t => t.rxState n = 0 ∧ t.bit (Pg.LRX n + LRX.LANE_CTRL) 0 = false
      ∧ (¬ s.d.rxState n = 0 → t.lossOfSignal n = true)) := by
  have hend : (s.d.warmEnd n).rxState n = s.d.rxState n :=
    congrArg (fieldOf · 0 4) (Dev.rd_own n.isLt (Dev.warmEnd_frame (O := fun _ => False) n.isLt s.d) (by decide) id)
  refine gives_access (Eq.refl (execLaneDisable m n s)) ha ?_
  rw [if_neg h7]
  simpa only [Dev.rxState_settle, Dev.bit_settle, Dev.lossOfSignal_settle, hend] using
    Dev.laneEnable_off (s := s.d.warmEnd n) n.isLt (hend.trans_ne h7)

/-- The end of calibration within a bring-up that has begun; in host-assisted calibration with a valid ADC part (R362). -/
def CalibrationEnds (s : Dev) (n : Nat) : Prop :=
  s.rxState n = 1 ∧ s.laneWaits n = false ∧ (s.assisted Pg.CAL && !s.calValidA n) = false

theorem calibrationEnds_of {s : Dev} {n : Nat} (h1 : s.rxState n = 1) (hw : s.laneWaits n = false)
    (hcal : s.assisted Pg.CAL = true → s.calValidA n = true) : CalibrationEnds s n := by
  refine ⟨h1, hw, ?_⟩
  cases ha : s.assisted Pg.CAL with
  | false => rfl
  | true => rw [hcal ha, Bool.not_true, Bool.and_false]

theorem gives_calibrate_fault (h : CalibrationEnds s.d n) :
    Gives (.calibrateComplete n false) s (fun t => t.rxState n = 6 ∧ t.fld (Pg.LRX n + LRX.LANE_STATE) 8 8 = 1) := by
  obtain ⟨⟨hst, -, -, -⟩, hcause, -⟩ := Dev.moved_toFault n.isLt s.d (cause := 1) (by decide)
  refine gives_when (Eq.refl (execCalibrateComplete n false s)) h ?_
  simpa only [Bool.not_false, if_true, Dev.rxState_settle, Dev.fld_settle] using ⟨hst, hcause⟩

theorem gives_calibrate_acquire (h : CalibrationEnds s.d n) (hc : (s.d.rxl n).warmCal = false ∨ s.d.eligible n = none) :
    Gives (.calibrateComplete n true) s (fun t => t.rxState n = 2
      ∧ t.rd (Pg.LRX n + LRX.ACQ_COUNT) = s.d.rd (Pg.LRX n + LRX.ACQ_COUNT) + 1) := by
  obtain ⟨⟨hst, -, -, -⟩, hcount⟩ := Dev.acquired_acquireOn n.isLt s.d
  have hon : (settle (s.d.acquireOn n)).rxState n = 2
      ∧ (settle (s.d.acquireOn n)).rd (Pg.LRX n + LRX.ACQ_COUNT) = s.d.rd (Pg.LRX n + LRX.ACQ_COUNT) + 1 :=
    ⟨(Dev.rxState_settle _ _).trans hst, Dev.counted_settle_of hcount⟩
  refine gives_when (Eq.refl (execCalibrateComplete n true s)) h ?_
  rcases hc with hc | hc
  · simpa only [hc, Bool.not_true, Bool.false_eq_true, if_false] using hon
  · simpa only [hc, Bool.not_true, Bool.false_eq_true, if_false, ite_self] using hon

theorem gives_calibrate_warm (h : CalibrationEnds s.d n) (hc : (s.d.rxl n).warmCal = true) (he : s.d.eligible n ≠ none) :
    Gives (.calibrateComplete n true) s (fun t => t.rxState n = 5) := by
  obtain ⟨k, hk⟩ := Option.ne_none_iff_exists'.mp he
  obtain ⟨hst, -, -, -⟩ := Dev.moved_warmWith n.isLt s.d k
  refine gives_when (Eq.refl (execCalibrateComplete n true s)) h ?_
  simpa only [hc, hk, Bool.not_true, Bool.false_eq_true, if_false, if_true, Dev.rxState_settle] using hst

theorem gives_calTimeout (h1 : s.d.rxState n = 1) (hw : s.d.laneWaits n = false) :
    Gives (.calTimeout n) s (fun t => t.rxState n = 6 ∧ t.fld (Pg.LRX n + LRX.LANE_STATE) 8 8 = 2
      ∧ t.rd (Pg.LRX n + LRX.FAULT_COUNT) = s.d.rd (Pg.LRX n + LRX.FAULT_COUNT) + 1) := by
  obtain ⟨⟨hst, -, -, -⟩, hcause, hcount⟩ := Dev.moved_toFault n.isLt s.d (cause := 2) (by decide)
  exact gives_when (Eq.refl (execCalTimeout n s)) ⟨h1, hw⟩
    ⟨(Dev.rxState_settle _ _).trans hst, (Dev.fld_settle _ _ _ _).trans hcause, Dev.counted_settle_of hcount⟩

theorem gives_acqTimeout_fault (h2 : s.d.rxState n = 2) (hw : s.d.laneWaits n = false) (hlos : s.d.lossOfSignal n = false)
    (hr : (s.d.rxl n).retries = 0) :
    Gives (.acqTimeout n) s (fun t => t.rxState n = 6 ∧ t.fld (Pg.LRX n + LRX.LANE_STATE) 8 8 = 3) := by
  obtain ⟨⟨hst, -, -, -⟩, hcause, -⟩ := Dev.moved_toFault n.isLt s.d (cause := 3) (by decide)
  refine gives_when (Eq.refl (execAcqTimeout n s)) ⟨h2, hw, hlos⟩ ?_
  simpa only [hr, if_true, Dev.rxState_settle, Dev.fld_settle] using ⟨hst, hcause⟩

theorem gives_acqTimeout_retry {r : Nat} (h2 : s.d.rxState n = 2) (hw : s.d.laneWaits n = false) (hlos : s.d.lossOfSignal n = false)
    (hr : (s.d.rxl n).retries = r + 1) :
    Gives (.acqTimeout n) s (fun t => t.rxState n = 2 ∧ (t.rxl n).retries = r
      ∧ t.rd (Pg.LRX n + LRX.ACQ_COUNT) = s.d.rd (Pg.LRX n + LRX.ACQ_COUNT) + 1) := by
  obtain ⟨⟨hst, -, -, -⟩, hcount⟩ := Dev.moved_toAcquire n.isLt s.d
  refine gives_when (Eq.refl (execAcqTimeout n s)) ⟨h2, hw, hlos⟩ ?_
  simp only [hr, Nat.succ_ne_zero, if_false]
  exact ⟨(Dev.rxState_settle _ _).trans hst, by simp, Dev.counted_settle_of hcount⟩

theorem gives_acquireLock (h2 : s.d.rxState n = 2) (hw : s.d.laneWaits n = false) (hcdr : s.d.bit (Pg.LRX n + LRX.CDR_STATUS) 0 = true)
    (hal : s.d.alignBit n 2 = true) : Gives (.acquireLock n) s (fun t =>
      (s.d.lossOfSignal n = false ∧ s.d.lpllLock (n / 4) = true → t.rxState n = 3 ∧ t.fld (Pg.LRX n + LRX.LANE_STATE) 4 4 = 2)
      ∧ (¬ (s.d.lossOfSignal n = false ∧ s.d.lpllLock (n / 4) = true) → t.rxState n = 4
        ∧ t.rd (Pg.LRX n + LRX.HOLD_COUNT) = s.d.rd (Pg.LRX n + LRX.HOLD_COUNT) + 1)) := by
  refine gives_when (Eq.refl (execAcquireLock n s)) ⟨h2, hw, hcdr, hal⟩ ⟨fun ⟨hlos, hpll⟩ => ?_, fun hnot => ?_⟩
  · obtain ⟨hst, hold, -, -⟩ := Dev.moved_toTrack n.isLt s.d
    rw [Dev.enterTrack_stays n.isLt _ ⟨hlos, hcdr, hpll⟩]
    exact ⟨(Dev.rxState_settle _ _).trans hst, (Dev.fld_settle _ _ _ _).trans (hold.trans h2)⟩
  · obtain ⟨hst, hcount⟩ := Dev.held_enterTrack n.isLt s.d fun ⟨hlos, _, hpll⟩ => hnot ⟨hlos, hpll⟩
    exact ⟨(Dev.rxState_settle _ _).trans hst, Dev.counted_settle_of hcount⟩

theorem gives_holdLimitExpiry_warm (h4 : s.d.rxState n = 4) (ho : (s.d.rxl n).holdOver = false) (hlos : s.d.lossOfSignal n = false) :
    Gives (.holdLimitExpiry n) s (fun t => t.rxState n = if (s.d.eligible n).isSome then 5 else 2) := by
  obtain ⟨hst, -, -, -⟩ := Dev.moved_toWarm n.isLt s.d
  refine gives_when (Eq.refl (execHoldLimitExpiry n s)) ⟨h4, ho⟩ ?_
  simpa only [hlos, Bool.false_eq_true, if_false, Dev.rxState_settle] using hst

theorem gives_holdLimitExpiry_waits (h4 : s.d.rxState n = 4) (ho : (s.d.rxl n).holdOver = false) (hlos : s.d.lossOfSignal n = true) :
    Gives (.holdLimitExpiry n) s (fun t => t.rxState n = 4 ∧ (t.rxl n).holdOver = true) := by
  refine gives_when (Eq.refl (execHoldLimitExpiry n s)) ⟨h4, ho⟩ ?_
  simp only [hlos, if_true]
  exact ⟨(Dev.rxState_settle _ _).trans h4, by simp⟩

theorem gives_holdRecover (h4 : s.d.rxState n = 4) (ho : (s.d.rxl n).holdOver = false) (hlos : s.d.lossOfSignal n = false)
    (hpll : s.d.lpllLock (n / 4) = true) (hal : s.d.alignBit n 2 = true) :
    Gives (.holdRecover n) s (fun t => t.rxState n = if s.d.bit (Pg.LRX n + LRX.CDR_STATUS) 0 then 3 else 4) := by
  refine gives_when (Eq.refl (execHoldRecover n s)) ⟨h4, ho, hlos, hpll, hal⟩ ((Dev.rxState_settle _ _).trans ?_)
  split
  · next hcdr =>
    obtain ⟨hst, -, -, -⟩ := Dev.moved_toTrack n.isLt s.d
    rw [Dev.enterTrack_stays n.isLt _ ⟨hlos, hcdr, hpll⟩]
    exact hst
  · next hcdr =>
    obtain ⟨hst, -⟩ := Dev.held_enterTrack n.isLt s.d fun ⟨_, h, _⟩ => hcdr h
    exact hst

theorem gives_warmRestartComplete (h5 : s.d.rxState n = 5) (hus : s.d.stateUs n ≤ 250) (hcdr : s.d.bit (Pg.LRX n + LRX.CDR_STATUS) 0 = true)
    (hal : s.d.alignBit n 2 = true) : Gives (.warmRestartComplete n) s (fun t => t.rxState n = 3
      ∧ t.rd (Pg.LRX n + LRX.WR_COUNT) = s.d.rd (Pg.LRX n + LRX.WR_COUNT) + 1 ∧ t.bit (Pg.LRX n + HDR.INT_STATUS) 12 = true) := by
  have hmoved : Dev.Moved FigureOff n 3 s.d ((s.d.ltWarm n 1 (s.d.stateUs n)).toTrack n) :=
    (Dev.moved_toTrack n.isLt _).before n.isLt (Frame.ltWarm n.isLt _ _ (by decide) (MoveRegs.of_types _ (by decide))) (by decide)
  obtain ⟨hcounted, hcount⟩ := hmoved.count n.isLt (c := LRX.WR_COUNT) (by decide) (by decide)
  obtain ⟨hst, -, -, -⟩ := hcounted.raise 12
  exact gives_when (Eq.refl (execWarmRestartComplete n s)) ⟨h5, hus, hcdr, hal⟩
    ⟨(Dev.rxState_settle _ _).trans hst, (settle_rd _ _).trans ((Dev.rd_raise_ne _ _ _ (by simp)).trans hcount),
      (Dev.bit_settle _ _ _).trans (Dev.bit_raise_same _ _ (by decide))⟩

theorem gives_warmRestartTimeout (h5 : s.d.rxState n = 5) : Gives (.warmRestartTimeout n) s (fun t => t.rxState n = 2
    ∧ t.rd (Pg.LRX n + LRX.WR_FAIL) = s.d.rd (Pg.LRX n + LRX.WR_FAIL) + 1 ∧ t.bit (Pg.LRX n + HDR.INT_STATUS) 13 = true) := by
  obtain ⟨hacq, -⟩ := Dev.moved_toAcquire n.isLt (s.d.ltWarm n 2 250)
  have hmoved := hacq.before n.isLt (Frame.ltWarm n.isLt _ _ (by decide) (MoveRegs.of_types _ (by decide))) (by decide)
  obtain ⟨hcounted, hcount⟩ := hmoved.count n.isLt (c := LRX.WR_FAIL) (by decide) (by decide)
  obtain ⟨hst, -, -, -⟩ := (hcounted.raise 13).after n.isLt (Frame.laneFaultNote 4 (by decide)) (by decide)
  refine gives_when (Eq.refl (execWarmRestartTimeout n s)) h5 ⟨(Dev.rxState_settle _ _).trans hst, ?_, ?_⟩
  · rw [settle_rd, Dev.rd_laneFaultNote, Dev.rd_raise_ne _ _ _ (by simp)]
    exact hcount
  · rw [Dev.bit_settle, Dev.bit, Dev.rd_laneFaultNote]
    exact Dev.bit_raise_same _ _ (by decide)

end

/-! ### Loss of signal and of clock lock (R84, R101) -/

namespace Machine.Dev

section
variable {s t : Dev} {n : Nat}

/-- `LOS_STATUS` with the amplitude that changed it. -/
def losShown (s : Dev) (n : Nat) (lost : Bool) (amp : Nat) : Dev :=
  (s.setB (Pg.LRX n + LRX.LOS_STATUS) 0 lost).setF (Pg.LRX n + LRX.LOS_STATUS) 16 12 amp

/-- The change flagged, and told to the lane's sequencer and to the far end. -/
def losTold (s : Dev) (n cause : Nat) (lost : Bool) : Dev := ((s.raise (Pg.LRX n) cause).laneEvent n 6).ltFault n 1 lost

theorem losShown_frame (lost : Bool) (amp : Nat) : Frame [] (MoveRegs (· = LRX.LOS_STATUS) n) s (s.losShown n lost amp) := by
  have hown : MoveRegs (· = LRX.LOS_STATUS) n (Pg.LRX n + LRX.LOS_STATUS) := MoveRegs.own (by decide) rfl
  exact (Frame.setB _ _ hown).trans (Frame.setF _ _ _ hown)

theorem lossOfSignal_losShown (lost : Bool) (amp : Nat) : (s.losShown n lost amp).lossOfSignal n = lost := by
  rw [lossOfSignal, bit, losShown, rd_setF_same, bitOf_withField_ne _ _ _ _ _ (by decide), rd_setB_same, bitOf_withBit _ _ _ (by decide)]

theorem losTold_frame (hn : n < 16) (cause : Nat) (lost : Bool) :
    Frame [.lt] (MoveRegs (· = HDR.INT_STATUS) n) s (s.losTold n cause lost) := by
  have hint : MoveRegs (· = HDR.INT_STATUS) n (Pg.LRX n + HDR.INT_STATUS) := MoveRegs.own (by decide) rfl
  exact ((Frame.raise _ hint).trans (Frame.laneEvent hn _ (MoveRegs.of_types _ (by decide)))).trans
    (Frame.ltFault hn _ _ (by simp) (MoveRegs.of_types _ (by decide)))

section
variable {O : Nat → Prop} {ps : List Part} (hn : n < 16) (f : Frame ps (MoveRegs O n) s t)
include hn f

theorem l453_of_frame : t.l453 (n / 4) = s.l453 (n / 4) :=
  congrArg (bitOf · 0) (f.1 _ (not_moveRegs_of_types hn (.slice (T := [.slice]) (by omega) (by decide) (by simp)) (by decide)))

theorem zoneTag_of_frame : t.zoneTag n = s.zoneTag n := by
  have htherm : OnTypes [.therm] (Pg.THERM + (THERM.ZONE_TEMP + 4 * (n / 4))) :=
    OnTypes.page (t := .therm) 0x004 1 (by decide) (i := 0) (by decide) (by simp only [THERM.ZONE_TEMP]; omega) (by simp)
  rw [← Nat.add_assoc] at htherm
  rw [zoneTag, zoneTag, fld, fld, f.1 _ (not_moveRegs_of_types hn htherm (by decide))]

theorem ckptSig_of_frame (hctrl : ¬ O LRX.LANE_CTRL) (hffe : ¬ O LRX.FFE_CTRL) : t.ckptSig n = s.ckptSig n := by
  rw [ckptSig, ckptSig, l453_of_frame hn f, bit, bit, fld, fld, rd_own hn f (by decide) hctrl, rd_own hn f (by decide) hffe]

/-- The checkpoint a warm restart would use is read off the slots, the lane's and the slice's configuration and the zone's
temperature. -/
theorem eligible_of_frame (hrx : .rx ∉ ps) (hctrl : ¬ O LRX.LANE_CTRL) (hffe : ¬ O LRX.FFE_CTRL) : t.eligible n = s.eligible n := by
  have hslots : t.ckpts n = s.ckpts n := by rw [ckpts, ckpts, rxl_of_rx (f.2 .rx hrx)]
  rw [eligible, eligible, hslots, zoneTag_of_frame hn f, ckptSig_of_frame hn f hctrl hffe]

end

end

end Machine.Dev

section
variable {s : State} {n : Lane}

theorem gives_losAssert {amp : BitVec 12} (h0 : ¬ s.d.rxState n = 0) (hlos : s.d.lossOfSignal n = false)
    (hamp : amp.toNat < 2 * s.d.fld (Pg.LRX n + LRX.LOS_CTRL) 0 8) : Gives (.losAssert n amp) s (fun t => t.lossOfSignal n = true
      ∧ t.rd (Pg.LRX n + LRX.LOS_COUNT) = s.d.rd (Pg.LRX n + LRX.LOS_COUNT) + 1
      ∧ t.rxState n = (if s.d.rxState n = 3 ∨ s.d.rxState n = 5 then 4 else s.d.rxState n)) := by
  set u := (s.d.losShown n true amp.toNat).count (Pg.LRX n + LRX.LOS_COUNT) with hu
  set v := u.losTold n 9 true with hv
  have hshown := Dev.losShown_frame (s := s.d) (n := n) true amp.toNat
  have htold := Dev.losTold_frame (s := u) n.isLt 9 true
  have hst : v.rxState n = s.d.rxState n := by
    refine congrArg (fieldOf · 0 4) ((Dev.rd_own n.isLt htold (by decide) (by decide)).trans ?_)
    rw [hu, Dev.rd_count_ne _ _ _ (by simp), Dev.rd_own n.isLt hshown (by decide) (by decide)]
  have hsig : v.lossOfSignal n = true := by
    rw [Dev.lossOfSignal, Dev.bit, Dev.rd_own n.isLt htold (by decide) (by decide), hu, Dev.rd_count_ne _ _ _ (by simp)]
    exact Dev.lossOfSignal_losShown true _
  have hcount : Counted (Pg.LRX n + LRX.LOS_COUNT) s.d v := by
    rw [Counted, Dev.rd_own n.isLt htold (by decide) (by decide), hu, Dev.rd_count_same, Dev.rd_own n.isLt hshown (by decide) (by decide)]
    rfl
  have hhold := Dev.holdTrigger_frame n.isLt v true
  refine gives_when (g := fun d => (((d.losShown n true amp.toNat).count (Pg.LRX n + LRX.LOS_COUNT)).losTold n 9 true).holdTrigger n true)
    (Eq.refl (execLosAssert n amp s)) ⟨h0, hlos, hamp⟩ ⟨?_, ?_, (Dev.rxState_settle _ _).trans ?_⟩
  · rw [Dev.lossOfSignal_settle, Dev.lossOfSignal, Dev.bit, Dev.rd_own n.isLt hhold (by decide) (by decide)]
    exact hsig
  · rw [settle_rd, Dev.rd_own n.isLt hhold (by decide) (by decide)]
    exact hcount
  · rw [← hst]
    split
    · next h =>
      obtain ⟨⟨hfour, -, -, -⟩, -⟩ := Dev.moved_holdTrigger n.isLt v (input := true) (h.imp_right fun h5 => ⟨rfl, h5⟩)
      exact hfour
    · next h => rw [Dev.holdTrigger_idle v fun k => h (k.imp_right And.right)]

theorem gives_losDeassert {amp : BitVec 12} (h0 : ¬ s.d.rxState n = 0) (hlos : s.d.lossOfSignal n = true)
    (hamp : 2 * s.d.fld (Pg.LRX n + LRX.LOS_CTRL) 8 8 < amp.toNat) : Gives (.losDeassert n amp) s (fun t => t.lossOfSignal n = false
      ∧ (s.d.rxState n = 4 → (s.d.rxl n).holdOver = true → t.rxState n = if (s.d.eligible n).isSome then 5 else 2)
      ∧ (¬ s.d.rxState n = 4 → t.rxState n = s.d.rxState n)) := by
  set v := (s.d.losShown n false amp.toNat).losTold n 10 false with hv
  have hframe : Frame [.lt] (MoveRegs (fun off => off = LRX.LOS_STATUS ∨ off = HDR.INT_STATUS) n) s.d v :=
    ((Dev.losShown_frame false amp.toNat).mono (by simp) fun a ha => ha.mono fun _ => .inl).trans
      ((Dev.losTold_frame n.isLt 10 false).mono (fun _ => id) fun a ha => ha.mono fun _ => .inr)
  have hst : v.rxState n = s.d.rxState n := congrArg (fieldOf · 0 4) (Dev.rd_own n.isLt hframe (by decide) (by decide))
  have hrx : v.rxl n = s.d.rxl n := Dev.rxl_of_rx (hframe.2 .rx (by decide)) n
  have hel : v.eligible n = s.d.eligible n := Dev.eligible_of_frame n.isLt hframe (by decide) (by decide) (by decide)
  have hsig : v.lossOfSignal n = false := by
    rw [Dev.lossOfSignal, Dev.bit, hv, Dev.rd_own n.isLt (Dev.losTold_frame n.isLt 10 false) (by decide) (by decide)]
    exact Dev.lossOfSignal_losShown false _
  have hwarm := Dev.moved_toWarm n.isLt v
  have hwarmLos := hwarm.rd_own n.isLt (off := LRX.LOS_STATUS) (by decide) (by decide)
  obtain ⟨hwst, -, -, -⟩ := hwarm
  refine gives_when (g := fun d => if ((d.losShown n false amp.toNat).losTold n 10 false).rxState n = 4
      ∧ (((d.losShown n false amp.toNat).losTold n 10 false).rxl n).holdOver = true
      then ((d.losShown n false amp.toNat).losTold n 10 false).toWarm n else (d.losShown n false amp.toNat).losTold n 10 false)
    (Eq.refl (execLosDeassert n amp s)) ⟨h0, hlos, hamp⟩ ?_
  simp only [← hv, hst, hrx, Dev.lossOfSignal_settle, Dev.rxState_settle]
  split
  · next h =>
    exact ⟨(congrArg (bitOf · 0) hwarmLos).trans hsig, fun _ _ => hwst.trans (by rw [hel]), fun h4 => absurd h.1 h4⟩
  · next h => exact ⟨hsig, fun h4 ho => absurd ⟨h4, ho⟩ h, fun _ => hst⟩

theorem gives_cdrLost (h0 : ¬ s.d.rxState n = 0) (hcdr : s.d.bit (Pg.LRX n + LRX.CDR_STATUS) 0 = true) :
    Gives (.cdrLockChange n false) s (fun t => t.bit (Pg.LRX n + LRX.CDR_STATUS) 0 = false
      ∧ t.rxState n = (if s.d.rxState n = 3 then 4 else s.d.rxState n)) := by
  set v := (s.d.setB (Pg.LRX n + LRX.CDR_STATUS) 0 false).laneEvent n 7 with hv
  have hevent : Frame [] (MoveRegs (fun _ => False) n) (s.d.setB (Pg.LRX n + LRX.CDR_STATUS) 0 false) v :=
    Frame.laneEvent n.isLt _ (MoveRegs.of_types _ (by decide))
  have hst : v.rxState n = s.d.rxState n :=
    congrArg (fieldOf · 0 4) ((Dev.rd_own n.isLt hevent (by decide) id).trans (Dev.rd_setB_ne _ _ _ _ (by simp)))
  have hlock : v.bit (Pg.LRX n + LRX.CDR_STATUS) 0 = false := by
    rw [Dev.bit, Dev.rd_own n.isLt hevent (by decide) id, Dev.rd_setB_same, bitOf_withBit _ _ _ (by decide)]
  refine gives_when (Eq.refl (execCdrLockChange n false s)) ⟨h0, by rw [hcdr]; decide⟩ ?_
  simp only [Bool.false_eq_true, if_false, ← hv, Dev.bit_settle, Dev.rxState_settle]
  refine ⟨(congrArg (bitOf · 0) (Dev.rd_own n.isLt (Dev.holdTrigger_frame n.isLt v false) (by decide) (by decide))).trans hlock, ?_⟩
  rw [← hst]
  split
  · next h =>
    obtain ⟨⟨hfour, -, -, -⟩, -⟩ := Dev.moved_holdTrigger n.isLt v (input := false) (.inl h)
    exact hfour
  · next h => rw [Dev.holdTrigger_idle v (by simpa using h)]

theorem gives_cdrLocked (h0 : ¬ s.d.rxState n = 0) (hcdr : s.d.bit (Pg.LRX n + LRX.CDR_STATUS) 0 = false) :
    Gives (.cdrLockChange n true) s (fun t =>
      Frame [] (fun a => a = Pg.LRX n + LRX.CDR_STATUS ∨ a = Pg.LSEQ (8 + n) + LSEQ.EVENT_PEND) s.d t
      ∧ t.rd (Pg.LRX n + LRX.CDR_STATUS) = withBit (s.d.rd (Pg.LRX n + LRX.CDR_STATUS)) 0 true
      ∧ t.bit (Pg.LSEQ (8 + n) + LSEQ.EVENT_PEND) 7 = true) := by
  have hne : Pg.LRX n + LRX.CDR_STATUS ≠ Pg.LSEQ (8 + n) + LSEQ.EVENT_PEND := by
    simp only [Pg.LRX, LRX.CDR_STATUS, Pg.LSEQ, LSEQ.EVENT_PEND]
    omega
  refine gives_when (g := fun d => (d.setB (Pg.LRX n + LRX.CDR_STATUS) 0 true).setB (Pg.LSEQ (8 + n) + LSEQ.EVENT_PEND) 7 true)
    (Eq.refl (execCdrLockChange n true s)) ⟨h0, by rw [hcdr]; decide⟩
    ⟨((Frame.setB _ _ (.inl rfl)).trans (Frame.setB _ _ (.inr rfl))).settle, ?_, ?_⟩
  · rw [settle_rd, Dev.rd_setB_ne _ _ _ _ hne, Dev.rd_setB_same]
  · rw [Dev.bit_settle, Dev.bit, Dev.rd_setB_same, bitOf_withBit _ _ _ (by decide)]

/-- Settles O13: each command and event by the move it makes. -/
theorem laneStates : Obligations.LaneStates := by
  unfold Obligations.LaneStates
  refine ⟨fun s m n => ?_, fun s n => ?_⟩
  · intro at_ ready stays
    refine ⟨gives_laneEnable, gives_laneDisable, fun h1 hw hcal => ?_, gives_calTimeout, gives_acqTimeout_fault,
      fun r => gives_acqTimeout_retry, gives_acquireLock⟩
    have hends := calibrationEnds_of h1 hw hcal
    exact ⟨gives_calibrate_fault hends, gives_calibrate_acquire hends, gives_calibrate_warm hends⟩
  · intro at_ warm locked
    exact ⟨gives_holdLimitExpiry_warm, gives_holdLimitExpiry_waits, gives_holdRecover,
      fun h5 hus ⟨hcdr, hal⟩ => gives_warmRestartComplete h5 hus hcdr hal, gives_warmRestartTimeout, fun _ => gives_losAssert,
      fun _ => gives_losDeassert, gives_cdrLost, gives_cdrLocked⟩

end

end Sys2Proof
end

