-- ==== Sys2Proof/Proofs/Checkpoints.lean ====
section
/-! Octave checkpoints: the slots of a lane, what `CKPT_STATUS` shows of them, a save, and their loss (03, R93 to R97). -/

namespace Sys2Proof

open Machine

/-! ### A word with one bit for each of a row of flags -/

theorem sum_bits_lt (f : Nat → Bool) (m : Nat) : ((List.range m).map (fun j => if f j then 2 ^ j else 0)).sum < 2 ^ m := by
  induction m with
  | zero => simp
  | succ m ih =>
    rw [List.range_succ, List.map_append, List.sum_append, List.map_singleton, List.sum_singleton, pow_succ]
    split <;> omega

theorem testBit_sum_bits (f : Nat → Bool) {m k : Nat} (hk : k < m) :
    (((List.range m).map (fun j => if f j then 2 ^ j else 0)).sum).testBit k = f k := by
  induction m with
  | zero => exact absurd hk (Nat.not_lt_zero k)
  | succ m ih =>
    have hlow := sum_bits_lt f m
    rw [List.range_succ, List.map_append, List.sum_append, List.map_singleton, List.sum_singleton]
    rcases Nat.lt_or_eq_of_le (Nat.le_of_lt_succ hk) with h | rfl
    · split
      · rw [Nat.add_comm, Nat.testBit_two_pow_add_gt h, ih h]
      · rw [Nat.add_zero, ih h]
    · cases hf : f k with
      | true => rw [if_pos rfl, Nat.add_comm, Nat.testBit_two_pow_add_eq, Nat.testBit_lt_two_pow hlow, Bool.not_false]
      | false => rw [if_neg (by decide), Nat.add_zero, Nat.testBit_lt_two_pow hlow]

namespace Machine.Dev

section
variable {s t : Dev} {n : Nat}

/-! ### The slots and what shows them -/

theorem ckpts_of_rxl (h : t.rxl n = s.rxl n) : t.ckpts n = s.ckpts n := by rw [ckpts, ckpts, h]

@[simp] theorem ckpts_settle : (settle s).ckpts n = s.ckpts n := ckpts_of_rxl (rxl_settle s n)

theorem ckpts_length : (s.ckpts n).length = 8 := by rw [ckpts, List.length_map, List.length_range]

theorem ckpts_getD {k : Nat} (hk : k < 8) : (s.ckpts n).getD k emptyCkpt = (s.rxl n).ckpts.getD k emptyCkpt := by
  simp [ckpts, List.getD_eq_getElem?_getD, hk]

/-- `CKPT_STATUS` alone follows the slots. -/
theorem ckptStatus_writes {ps : List Part} : Frame ps (· = Pg.LRX n + LRX.CKPT_STATUS) s (s.ckptStatus n) := by
  unfold Dev.ckptStatus
  extract_lets cs idx c valid newest a t
  have ht (k : Nat) (b : Bool) : Frame ps (· = Pg.LRX n + LRX.CKPT_STATUS) s ((t.setF a 8 3 k).setB a 11 b) :=
    ((Frame.setF (A := (· = Pg.LRX n + LRX.CKPT_STATUS)) _ _ _ rfl).trans (Frame.setF _ _ _ rfl)).trans (Frame.setB _ _ rfl)
  clear_value newest
  cases newest with
  | none => exact ht 0 false
  | some k => exact ht k true

/-- A slot's bit of `VALID`. -/
theorem bit_ckptStatus {k : Nat} (hk : k < 8) :
    (s.ckptStatus n).bit (Pg.LRX n + LRX.CKPT_STATUS) k = ((s.ckpts n).getD k emptyCkpt).valid := by
  unfold Dev.ckptStatus
  extract_lets cs idx c valid newest a t
  have ht : t.bit a k = (c k).valid := by
    rw [bit, rd_setF_same, bitOf, withField_bit, if_pos (by omega), Nat.sub_zero]
    simp only [show k < 32 by omega, decide_true, Bool.true_and]
    exact testBit_sum_bits (fun j => (c j).valid) hk
  have hnewest : ∀ j b, ((t.setF a 8 3 j).setB a 11 b).bit a k = (c k).valid := fun j b => by
    rw [bit, rd_setB_same, bitOf_withBit_ne _ _ _ _ (by omega), rd_setF_same, bitOf_withField_ne _ _ _ _ _ (by omega)]
    exact ht
  clear_value newest
  cases newest with
  | none => exact hnewest 0 false
  | some j => exact hnewest j true

/-! ### The slots emptied (R96) -/

theorem ckpts_of_empty (h : (s.rxl n).ckpts = []) : s.ckpts n = List.replicate 8 emptyCkpt := by
  rw [ckpts, h]
  rfl

theorem ckptStatus_of_empty (h : s.ckpts n = List.replicate 8 emptyCkpt) : s.ckptStatus n =
    ((s.setF (Pg.LRX n + LRX.CKPT_STATUS) 0 8 0).setF (Pg.LRX n + LRX.CKPT_STATUS) 8 3 0).setB (Pg.LRX n + LRX.CKPT_STATUS) 11 false := by
  simp only [ckptStatus, h]
  rfl

theorem eligible_of_empty (h : s.ckpts n = List.replicate 8 emptyCkpt) : s.eligible n = none := by
  have hnone : (List.range 8).filter (fun k => ((List.replicate 8 emptyCkpt).getD k emptyCkpt).valid
      && ((List.replicate 8 emptyCkpt).getD k emptyCkpt).sig == s.ckptSig n
      && decide ((((List.replicate 8 emptyCkpt).getD k emptyCkpt).tag - s.zoneTag n).natAbs ≤ 48)) = [] :=
    List.filter_eq_nil_iff.mpr fun k hk => by
      rw [List.getD_replicate _ (List.mem_range.mp hk)]
      simp [emptyCkpt]
  simp only [eligible, h, hnone]
  rfl

/-- All slots are empty, `CKPT_STATUS` shows it, and nothing else changes. -/
theorem ckptClear_spec : (s.ckptClear n).ckpts n = List.replicate 8 emptyCkpt ∧ (s.ckptClear n).fld (Pg.LRX n + LRX.CKPT_STATUS) 0 8 = 0
    ∧ (s.ckptClear n).bit (Pg.LRX n + LRX.CKPT_STATUS) 11 = false ∧ Frame [.rx] (· = Pg.LRX n + LRX.CKPT_STATUS) s (s.ckptClear n) := by
  set t := s.setRxl n { s.rxl n with ckpts := [] } with ht
  have hempty : t.ckpts n = List.replicate 8 emptyCkpt := ckpts_of_empty (by rw [ht, rxl_setRxl_same])
  have hshown : s.ckptClear n = _ := ckptStatus_of_empty hempty
  have hrx : (s.ckptClear n).rx = t.rx := (ckptStatus_writes (ps := [])).2 .rx (by simp)
  refine ⟨(ckpts_of_rxl (rxl_of_rx hrx n)).trans hempty, ?_, ?_, (Frame.setRxl _ _ (by simp)).trans ckptStatus_writes⟩
  · rw [hshown, fld, rd_setB_same, fieldOf_withBit_ne _ _ _ _ _ (by decide), rd_setF_same, fieldOf_withField_ne _ _ _ _ _ _ (by decide),
      rd_setF_same, fieldOf_withField _ _ _ _ (by decide), Nat.zero_mod]
  · rw [hshown, bit, rd_setB_same, bitOf_withBit _ _ _ (by decide)]

/-! ### The slot of a save (R94) -/

theorem nearer_mem {cs : List Ckpt} {tag : Int} {l : List Nat} {k : Nat} (h : l.foldl (nearer cs tag) none = some k) : k ∈ l := by
  have hall : ∀ j, l.foldl (nearer cs tag) none = some j → j ∈ l :=
    List.foldlRecOn (motive := fun b : Option Nat => ∀ j, b = some j → j ∈ l) l (nearer cs tag) (fun j hj => absurd hj (by simp))
      fun b hb a ha j hj => by
        unfold nearer at hj
        extract_lets at hj
        split at hj
        · exact Option.some.inj hj ▸ ha
        · extract_lets at hj
          split at hj
          · exact Option.some.inj hj ▸ ha
          · exact hb j hj
  exact hall k h

theorem saveSlot_lt : s.saveSlot n < 8 := by
  unfold saveSlot
  extract_lets cs c near
  split
  · next k hk => exact List.mem_range.mp (List.mem_filter.mp (nearer_mem hk)).1
  · split
    · next k hk => exact List.mem_range.mp (List.mem_of_find?_eq_some hk)
    · exact List.foldlRecOn (motive := (· < 8)) _ _ (by decide) fun b hb a ha => by
        split
        · exact List.mem_range.mp ha
        · exact hb

end

/-! ### A save (R93 to R95) -/

section
variable (s : Dev) (n : Nat)

/-- The lane is settled enough for a save, and its signal good enough. -/
def SaveFit : Prop := ((s.rxl n).tracked = true ∨ (s.rxl n).since + 1000000 ≤ s.mono)
  ∧ s.fld (Pg.LRX n + LRX.CKPT_CTRL) 16 16 ≤ s.fld (Pg.LRX n + LRX.QUALITY) 0 16

theorem saveFit_iff : (((s.rxl n).tracked || decide (1000000 ≤ s.mono - (s.rxl n).since))
    && decide (s.fld (Pg.LRX n + LRX.CKPT_CTRL) 16 16 ≤ s.fld (Pg.LRX n + LRX.QUALITY) 0 16)) = true ↔ s.SaveFit n := by
  rw [SaveFit, Bool.and_eq_true, Bool.or_eq_true, decide_eq_true_eq, decide_eq_true_eq]
  have hsub : 1000000 ≤ s.mono - (s.rxl n).since ↔ (s.rxl n).since + 1000000 ≤ s.mono := by omega
  rw [hsub]

/-- A slot given a record. -/
def slotSet (k : Nat) (c : Ckpt) : Dev := (s.setRxl n { s.rxl n with ckpts := (s.ckpts n).set k c }).ckptStatus n

variable {s n}

theorem slotSet_spec {k : Nat} (hk : k < 8) (c : Ckpt) : (s.slotSet n k c).bit (Pg.LRX n + LRX.CKPT_STATUS) k = c.valid
    ∧ ((s.slotSet n k c).ckpts n).getD k emptyCkpt = c ∧ Frame [.rx] (· = Pg.LRX n + LRX.CKPT_STATUS) s (s.slotSet n k c) := by
  set t := s.setRxl n { s.rxl n with ckpts := (s.ckpts n).set k c } with ht
  have hslot : (t.ckpts n).getD k emptyCkpt = c := by
    rw [ckpts_getD hk, ht, rxl_setRxl_same]
    simp [List.getD_eq_getElem?_getD, ckpts_length, hk]
  have hrx : (s.slotSet n k c).rx = t.rx := (ckptStatus_writes (s := t) (ps := [])).2 .rx (by simp)
  exact ⟨(bit_ckptStatus hk).trans (congrArg Ckpt.valid hslot), (congrArg (·.getD k emptyCkpt) (ckpts_of_rxl (rxl_of_rx hrx n))).trans hslot,
    (Frame.setRxl _ _ (by simp)).trans ckptStatus_writes⟩

theorem ckptSave_fit {tick : Bool} (hw : s.laneWaits n = false) (hfit : s.SaveFit n)
    (ht : tick = false ∨ (s.rxl n).unsettled = false) (cut : Bool) :
    s.ckptSave n tick cut = if cut then s.slotSet n (s.saveSlot n) { (s.ckpts n).getD (s.saveSlot n) emptyCkpt with valid := false }
      else (s.slotSet n (s.saveSlot n) (s.ckptNow n)).count (Pg.LRX n + LRX.CKPT_SAVES) := by
  have hready : (tick && (s.rxl n).unsettled) = false := by
    rcases ht with h | h
    · rw [h, Bool.false_and]
    · rw [h, Bool.and_false]
  unfold ckptSave
  simp only [hw, hready, Bool.false_eq_true, Bool.not_false, Bool.and_true, if_false]
  rw [if_pos ((saveFit_iff s n).mpr hfit)]
  rfl

theorem ckptSave_unsettled (hw : s.laneWaits n = false) (h : (s.rxl n).unsettled = true) (cut : Bool) :
    s.ckptSave n true cut = s.count (Pg.LRX n + LRX.CKPT_SKIPS) := by
  simp only [ckptSave, hw, h, Bool.and_self, Bool.not_true, Bool.and_false, Bool.false_eq_true, if_false]

/-- A save made: counted, its slot valid and holding the record. -/
def Saved (n k : Nat) (c : Ckpt) (s t : Dev) : Prop := t.rd (Pg.LRX n + LRX.CKPT_SAVES) = s.rd (Pg.LRX n + LRX.CKPT_SAVES) + 1
  ∧ t.bit (Pg.LRX n + LRX.CKPT_STATUS) k = true ∧ (t.ckpts n).getD k emptyCkpt = c

theorem Saved.settle {k : Nat} {c : Ckpt} {t : Dev} (h : Saved n k c s t) : Saved n k c s (settle t) := by
  obtain ⟨hcount, hbit, hslot⟩ := h
  exact ⟨(settle_rd _ _).trans hcount, (bit_settle _ _ _).trans hbit, by rwa [ckpts_settle]⟩

theorem saved_ckptSave {tick : Bool} (hw : s.laneWaits n = false) (hfit : s.SaveFit n) (ht : tick = false ∨ (s.rxl n).unsettled = false) :
    Saved n (s.saveSlot n) (s.ckptNow n) s (s.ckptSave n tick false) := by
  obtain ⟨hbit, hslot, hframe⟩ := slotSet_spec (s := s) (n := n) saveSlot_lt (s.ckptNow n)
  rw [ckptSave_fit hw hfit ht, if_neg (by decide)]
  refine ⟨?_, ?_, ?_⟩
  · rw [rd_count_same, hframe.1 _ (by simp)]
    rfl
  · rw [bit, rd_count_ne _ _ _ (by simp)]
    exact hbit
  · have hrx : ((s.slotSet n (s.saveSlot n) (s.ckptNow n)).count (Pg.LRX n + LRX.CKPT_SAVES)).rx
        = (s.slotSet n (s.saveSlot n) (s.ckptNow n)).rx := by simp
    rw [ckpts_of_rxl (rxl_of_rx hrx n), hslot]

/-- A save cut short: not counted, and its slot invalid (R95). -/
theorem ckptSave_cut {tick : Bool} (hw : s.laneWaits n = false) (hfit : s.SaveFit n) (ht : tick = false ∨ (s.rxl n).unsettled = false) :
    (s.ckptSave n tick true).rd (Pg.LRX n + LRX.CKPT_SAVES) = s.rd (Pg.LRX n + LRX.CKPT_SAVES)
      ∧ (s.ckptSave n tick true).bit (Pg.LRX n + LRX.CKPT_STATUS) (s.saveSlot n) = false := by
  obtain ⟨hbit, -, hframe⟩ := slotSet_spec (s := s) (n := n) saveSlot_lt { (s.ckpts n).getD (s.saveSlot n) emptyCkpt with valid := false }
  rw [ckptSave_fit hw hfit ht, if_pos rfl]
  exact ⟨hframe.1 _ (by simp), hbit⟩

/-! What a save reads, kept by a step that leaves the lane's own page and state alone -/

section
variable {ps : List Part} (hn : n < 16) (f : Frame ps (MoveRegs (fun _ => False) n) s t)
include hn f

theorem rd_of_frame {off : Nat} (ho : off < 0x1000) : t.rd (Pg.LRX n + off) = s.rd (Pg.LRX n + off) := rd_own hn f ho id

theorem laneWaits_of_frame (hrx : .rx ∉ ps) : t.laneWaits n = s.laneWaits n := by
  rw [laneWaits, laneWaits, bit, bit, rd_of_frame hn f (by decide), rxl_of_rx (f.2 .rx hrx)]

theorem saveFit_of_frame (hrx : .rx ∉ ps) (hmono : .mono ∉ ps) : t.SaveFit n ↔ s.SaveFit n := by
  have htime : t.mono = s.mono := f.2 .mono hmono
  rw [SaveFit, SaveFit, rxl_of_rx (f.2 .rx hrx), htime, fld, fld, fld, fld, rd_of_frame hn f (by decide), rd_of_frame hn f (by decide)]

theorem saveSlot_of_frame (hrx : .rx ∉ ps) : t.saveSlot n = s.saveSlot n := by
  rw [saveSlot, saveSlot, ckpts_of_rxl (rxl_of_rx (f.2 .rx hrx) n), zoneTag_of_frame hn f]

theorem ckptLevels_of_frame (hrx : .rx ∉ ps) : t.ckptLevels n = s.ckptLevels n := by
  have hlevels : t.rdWords (Pg.LRX n + LRX.MLSE_LEVEL) 16 = s.rdWords (Pg.LRX n + LRX.MLSE_LEVEL) 16 :=
    List.map_congr_left fun k hk => by
      have := List.mem_range.mp hk
      rw [Nat.add_assoc, rd_of_frame hn f (by simp only [LRX.MLSE_LEVEL]; omega)]
  rw [ckptLevels, ckptLevels, hlevels, bit, bit, rd_of_frame hn f (by decide), rxl_of_rx (f.2 .rx hrx)]

theorem fld_of_frame {off : Nat} (ho : off < 0x1000) (lo w : Nat) : t.fld (Pg.LRX n + off) lo w = s.fld (Pg.LRX n + off) lo w :=
  congrArg (fieldOf · lo w) (rd_of_frame hn f ho)

theorem ckptNow_of_frame (hrx : .rx ∉ ps) : t.ckptNow n = s.ckptNow n := by
  have hx : t.rxl n = s.rxl n := rxl_of_rx (f.2 .rx hrx) n
  have htap (k : Nat) (hk : k < 33) : t.fld (Pg.LRX n + LRX.FFE_TAP + 4 * k) 0 16 = s.fld (Pg.LRX n + LRX.FFE_TAP + 4 * k) 0 16 := by
    rw [Nat.add_assoc, fld_of_frame hn f (by simp only [LRX.FFE_TAP]; omega)]
  rw [ckptNow, ckptNow, Ckpt.mk.injEq]
  refine ⟨rfl, l453_of_frame hn f, congrArg (bitOf · 1) (rd_of_frame hn f (by decide)), fld_of_frame hn f (by decide) _ _,
    zoneTag_of_frame hn f, ckptSig_of_frame hn f id id, by rw [ckpts_of_rxl hx], List.map_congr_left fun j hj => ?_,
    ckptLevels_of_frame hn f hrx, rd_of_frame hn f (by decide), by rw [fld_of_frame hn f (by decide)],
    by rw [fld_of_frame hn f (by decide)], by rw [hx], by rw [fld_of_frame hn f (by decide)]⟩
  have hj17 := List.mem_range.mp hj
  beta_reduce
  rw [htap _ (by omega)]
  split
  · rfl
  · rw [htap _ (by omega)]

end

/-- The lane counts as settled from a tick on. -/
def tickDone (s : Dev) (n : Nat) : Dev := s.setRxl n { s.rxl n with unsettled := false }

@[simp] theorem rd_tickDone (a : Nat) : (s.tickDone n).rd a = s.rd a := rfl

@[simp] theorem ckpts_tickDone : (s.tickDone n).ckpts n = s.ckpts n := by
  rw [ckpts, tickDone, rxl_setRxl_same, ckpts]

end

end Machine.Dev

end Sys2Proof
end

