-- ==== Sys2Proof/Proofs/LaneCommands.lean ====
section
/-! The commands of `LANE_CMD` (03, R87, R88, R90, R96). -/

namespace Sys2Proof

open Machine

section
variable {s : State} {m : Master} {n : Lane}

/-! ### A command that needs a condition -/

/-- A command that needs a condition that holds gives what its action leaves. -/
theorem gives_need {i : Instr} {a code : Nat} {ok : Dev → Bool} {k : Dev → Dev} {P : Dev → Prop}
    (h : exec i s = s.run (fun d => d.access m a (fun t => t.need m a (ok t) code k))) (ha : Admits s m a) (hok : ok s.d = true)
    (p : P (settle (k s.d))) : Gives i s P :=
  gives_access h ha (by rwa [Dev.need, if_pos hok])

/-- One whose condition fails is refused with its code. -/
theorem gives_need_refused {i : Instr} {a code : Nat} {ok : Dev → Bool} {k : Dev → Dev}
    (h : exec i s = s.run (fun d => d.access m a (fun t => t.need m a (ok t) code k))) (ha : Admits s m a)
    (hc : code ≠ Err.islandOff ∧ code ≠ Err.narrow ∧ code ≠ Err.unaligned) (hok : ok s.d = false) :
    Gives i s (Rejected m a code s.d) :=
  gives_rejected h ha hc (by rw [Dev.need, if_neg (by rw [hok]; decide)])

/-! ### The commands -/

theorem gives_laneCmdRetry (ha : Admits s m (Pg.LRX n + LRX.LANE_CMD)) (h6 : s.d.rxState n = 6) :
    Gives (.laneCmdRetry m n) s (fun t => t.rxState n = 1 ∧ (t.rxl n).warmCal = true) := by
  obtain ⟨hst, -, -, -⟩ := Dev.moved_toCalibrate n.isLt s.d true
  refine gives_need (Eq.refl (execLaneCmdRetry m n s)) ha (beq_iff_eq.mpr h6) ⟨(Dev.rxState_settle _ _).trans hst, ?_⟩
  rw [Dev.rxl_settle, Dev.toCalibrate, Dev.warmCal_waitEntry, Dev.rxl_setRxl_same]

theorem gives_laneCmdReacquire (ha : Admits s m (Pg.LRX n + LRX.LANE_CMD)) (hst : 2 ≤ s.d.rxState n ∧ s.d.rxState n ≤ 4) :
    Gives (.laneCmdReacquire m n) s (fun t => t.rxState n = 2 ∧ t.rd (Pg.LRX n + LRX.ACQ_COUNT) = s.d.rd (Pg.LRX n + LRX.ACQ_COUNT) + 1) := by
  obtain ⟨⟨htwo, -, -, -⟩, hcount⟩ := Dev.acquired_reacquire n.isLt s.d
  refine gives_need (Eq.refl (execLaneCmdReacquire m n s)) ha ?_ ⟨(Dev.rxState_settle _ _).trans htwo, Dev.counted_settle_of hcount⟩
  simp only [Bool.or_eq_true, beq_iff_eq]
  omega

theorem gives_laneCmdReacquire_refused (ha : Admits s m (Pg.LRX n + LRX.LANE_CMD)) (hst : s.d.rxState n < 2 ∨ 4 < s.d.rxState n) :
    Gives (.laneCmdReacquire m n) s (Rejected m (Pg.LRX n + LRX.LANE_CMD) 0x0D s.d) := by
  refine gives_need_refused (Eq.refl (execLaneCmdReacquire m n s)) ha (by decide) ?_
  simp only [Bool.or_eq_false_iff, beq_eq_false_iff_ne]
  omega

theorem gives_laneCmdWarm (ha : Admits s m (Pg.LRX n + LRX.LANE_CMD)) (h3 : s.d.rxState n = 3) :
    Gives (.laneCmdWarm m n) s (fun t => t.rxState n = if (s.d.eligible n).isSome then 5 else 2) := by
  obtain ⟨hst, -, -, -⟩ := Dev.moved_toWarm n.isLt s.d
  exact gives_need (Eq.refl (execLaneCmdWarm m n s)) ha (beq_iff_eq.mpr h3) ((Dev.rxState_settle _ _).trans hst)

theorem gives_laneCmdCkptClear (ha : Admits s m (Pg.LRX n + LRX.LANE_CMD)) (hh : s.d.holder (0x010 + n) = masterId m) :
    Gives (.laneCmdCkptClear m n) s (fun t => t.fld (Pg.LRX n + LRX.CKPT_STATUS) 0 8 = 0 ∧ t.bit (Pg.LRX n + LRX.CKPT_STATUS) 11 = false
      ∧ t.eligible n = none ∧ Frame [.rx] (· = Pg.LRX n + LRX.CKPT_STATUS) s.d t) := by
  obtain ⟨hempty, hvalid, hnewest, hframe⟩ := Dev.ckptClear_spec (s := s.d) (n := n)
  exact gives_need (Eq.refl (execLaneCmdCkptClear m n s)) ha (beq_iff_eq.mpr hh)
    ⟨(Dev.fld_settle _ _ _ _).trans hvalid, (Dev.bit_settle _ _ _).trans hnewest,
      Dev.eligible_of_empty (Dev.ckpts_settle.trans hempty), hframe.settle⟩

theorem gives_laneCmdCkptClear_refused (ha : Admits s m (Pg.LRX n + LRX.LANE_CMD)) (hh : s.d.holder (0x010 + n) = 0) :
    Gives (.laneCmdCkptClear m n) s (Rejected m (Pg.LRX n + LRX.LANE_CMD) 0x05 s.d) :=
  gives_need_refused (Eq.refl (execLaneCmdCkptClear m n s)) ha (by decide) (beq_eq_false_iff_ne.mpr (hh ▸ (masterId_ne_zero m).symm))

theorem gives_laneCmdProceed (ha : Admits s m (Pg.LRX n + LRX.LANE_CMD)) (hw : s.d.bit (Pg.LRX n + LRX.LANE_STATE) 19 = true) :
    Gives (.laneCmdProceed m n) s (fun t =>
      Frame [] (fun a => a = Pg.LRX n + LRX.LANE_STATE ∨ a = Pg.LSEQ (8 + n) + LSEQ.EVENT_PEND) s.d t
      ∧ t.rd (Pg.LRX n + LRX.LANE_STATE) = withBit (s.d.rd (Pg.LRX n + LRX.LANE_STATE)) 19 false
      ∧ t.bit (Pg.LSEQ (8 + n) + LSEQ.EVENT_PEND) 5 = true) := by
  have hne : Pg.LRX n + LRX.LANE_STATE ≠ Pg.LSEQ (8 + n) + LSEQ.EVENT_PEND := by
    simp only [Pg.LRX, LRX.LANE_STATE, Pg.LSEQ, LSEQ.EVENT_PEND]
    omega
  have hgo : s.d.cmdProceed n = (s.d.setB (Pg.LRX n + LRX.LANE_STATE) 19 false).setB (Pg.LSEQ (8 + n) + LSEQ.EVENT_PEND) 5 true := if_pos hw
  refine gives_access (Eq.refl (execLaneCmdProceed m n s)) ha ?_
  rw [hgo]
  refine ⟨((Frame.setB _ _ (.inl rfl)).trans (Frame.setB _ _ (.inr rfl))).settle, ?_, ?_⟩
  · rw [settle_rd, Dev.rd_setB_ne _ _ _ _ hne, Dev.rd_setB_same]
  · rw [Dev.bit_settle, Dev.bit, Dev.rd_setB_same, bitOf_withBit _ _ _ (by decide)]

/-- Settles O14: each command in the states it applies in, and refused in the others. -/
theorem laneCommands : Obligations.LaneCommands := by
  unfold Obligations.LaneCommands
  intro s m n ha st
  exact ⟨gives_laneCmdRetry ha,
    fun h => gives_need_refused (Eq.refl (execLaneCmdRetry m n s)) ha (by decide) (beq_eq_false_iff_ne.mpr h),
    gives_laneCmdReacquire ha, gives_laneCmdReacquire_refused ha, gives_laneCmdWarm ha,
    fun h => ⟨gives_need_refused (Eq.refl (execLaneCmdWarm m n s)) ha (by decide) (beq_eq_false_iff_ne.mpr h),
      gives_need_refused (Eq.refl (execLaneCmdCkptNow m n false s)) ha (by decide) (beq_eq_false_iff_ne.mpr h)⟩,
    gives_laneCmdCkptClear ha, gives_laneCmdCkptClear_refused ha, gives_laneCmdProceed ha⟩

end

end Sys2Proof
end

