-- ==== Sys2Proof/Proofs/Saves.lean ====
section
/-! The command and the tick that save a checkpoint (03, R93 to R95). -/

namespace Sys2Proof

open Machine

section
variable {s : State} {m : Master} {n : Lane}

theorem gives_ckptNow (ha : Admits s m (Pg.LRX n + LRX.LANE_CMD)) (h3 : s.d.rxState n = 3) (hw : s.d.laneWaits n = false)
    (hfit : s.d.SaveFit n) :
    Gives (.laneCmdCkptNow m n false) s (Dev.Saved n (s.d.saveSlot n) (s.d.ckptNow n) s.d)
      ∧ Gives (.laneCmdCkptNow m n true) s (fun t => t.rd (Pg.LRX n + LRX.CKPT_SAVES) = s.d.rd (Pg.LRX n + LRX.CKPT_SAVES)
        ∧ t.bit (Pg.LRX n + LRX.CKPT_STATUS) (s.d.saveSlot n) = false) := by
  obtain ⟨hcount, hvalid⟩ := Dev.ckptSave_cut hw hfit (tick := false) (.inl rfl)
  exact ⟨gives_need (Eq.refl (execLaneCmdCkptNow m n false s)) ha (beq_iff_eq.mpr h3) (Dev.saved_ckptSave hw hfit (.inl rfl)).settle,
    gives_need (Eq.refl (execLaneCmdCkptNow m n true s)) ha (beq_iff_eq.mpr h3)
      ⟨(settle_rd _ _).trans hcount, (Dev.bit_settle _ _ _).trans hvalid⟩⟩

/-- A tick that is due tells the lane's sequencer, and then saves or skips. -/
theorem gives_ckptTick {cut : Bool} {P : Dev → Prop} (h3 : s.d.rxState n = 3) (hdue : s.d.fld (Pg.LRX n + LRX.CKPT_CTRL) 0 16 ≠ 0)
    (p : P (settle (((s.d.laneEvent n 11).ckptSave n true cut).tickDone n))) : Gives (.ckptTick n cut) s P :=
  gives_when (g := fun d => ((d.laneEvent n 11).ckptSave n true cut).tickDone n) (Eq.refl (execCkptTick n cut s)) ⟨h3, hdue⟩ p

theorem ckptTick_frame : Frame [] (MoveRegs (fun _ => False) n) s.d (s.d.laneEvent n 11) :=
  Frame.laneEvent n.isLt _ (MoveRegs.of_types _ (by decide))

theorem gives_ckptTick_saves (h3 : s.d.rxState n = 3) (hw : s.d.laneWaits n = false)
    (hdue : s.d.fld (Pg.LRX n + LRX.CKPT_CTRL) 0 16 ≠ 0) (hfit : s.d.SaveFit n) (hset : (s.d.rxl n).unsettled = false) :
    Gives (.ckptTick n false) s (Dev.Saved n (s.d.saveSlot n) (s.d.ckptNow n) s.d) := by
  have f := ckptTick_frame (s := s) (n := n)
  have hx : (s.d.laneEvent n 11).rxl n = s.d.rxl n := Dev.rxl_of_rx (f.2 .rx (by simp)) n
  obtain ⟨hcount, hbit, hslot⟩ := Dev.saved_ckptSave (tick := true) ((Dev.laneWaits_of_frame n.isLt f (by simp)).trans hw)
    ((Dev.saveFit_of_frame n.isLt f (by simp) (by simp)).mpr hfit) (.inr (hx ▸ hset))
  rw [Dev.saveSlot_of_frame n.isLt f (by simp)] at hbit hslot
  rw [Dev.ckptNow_of_frame n.isLt f (by simp)] at hslot
  rw [Dev.rd_of_frame n.isLt f (by decide)] at hcount
  exact gives_ckptTick h3 hdue (Dev.Saved.settle ⟨hcount, hbit, by rwa [Dev.ckpts_tickDone]⟩)

theorem gives_ckptTick_skips (h3 : s.d.rxState n = 3) (hw : s.d.laneWaits n = false)
    (hdue : s.d.fld (Pg.LRX n + LRX.CKPT_CTRL) 0 16 ≠ 0) (hset : (s.d.rxl n).unsettled = true) :
    Gives (.ckptTick n false) s (fun t => t.rd (Pg.LRX n + LRX.CKPT_SKIPS) = s.d.rd (Pg.LRX n + LRX.CKPT_SKIPS) + 1
      ∧ t.ckpts n = s.d.ckpts n ∧ (t.rxl n).unsettled = false) := by
  have f := ckptTick_frame (s := s) (n := n)
  have hx : (s.d.laneEvent n 11).rxl n = s.d.rxl n := Dev.rxl_of_rx (f.2 .rx (by simp)) n
  refine gives_ckptTick h3 hdue ?_
  rw [Dev.ckptSave_unsettled ((Dev.laneWaits_of_frame n.isLt f (by simp)).trans hw) (hx ▸ hset)]
  refine ⟨?_, ?_, ?_⟩
  · rw [settle_rd, Dev.rd_tickDone, Dev.rd_count_same, Dev.rd_of_frame n.isLt f (by decide)]
    rfl
  · rw [Dev.ckpts_settle, Dev.ckpts_tickDone]
    exact (Dev.ckpts_of_rxl (Dev.rxl_of_rx (by simp) n)).trans (Dev.ckpts_of_rxl hx)
  · rw [Dev.rxl_settle, Dev.tickDone, Dev.rxl_setRxl_same]

end

end Sys2Proof
end

