-- ==== Sys2Proof/Proofs/Reports.lean ====
section
/-! A millisecond's report of a line receive lane (03, R79 to R85, R103, R104). -/

namespace Sys2Proof

open Machine

theorem fieldOf_append_low (x y : BitVec 16) : fieldOf (x ++ y) 0 16 = y.toNat := by
  rw [fieldOf_eq, BitVec.extractLsb'_append_eq_right]

theorem fieldOf_append_high (x y : BitVec 16) : fieldOf (x ++ y) 16 16 = x.toNat := by
  rw [fieldOf_eq, BitVec.extractLsb'_append_eq_left]

namespace Machine.Dev

variable {s : Dev} {n : Nat}

/-! ### The figures of quality -/

/-- What the figures write. -/
abbrev ReportedOff (off : Nat) : Prop := off ∈ [LRX.QUALITY, LRX.SNR_EYE_LM, LRX.SNR_EYE_U, HDR.INT_STATUS]

/-- The figures of a report, before the alarm on them. -/
def figuresShown (s : Dev) (n : Nat) (r : LaneReport) : Dev :=
  ((s.wr (Pg.LRX n + LRX.QUALITY) (r.ber ++ r.snr)).wr (Pg.LRX n + LRX.SNR_EYE_LM) (r.eyeM ++ r.eyeL)).wr (Pg.LRX n + LRX.SNR_EYE_U)
    (BitVec.setWidth 32 r.eyeU)

theorem figuresShown_frame (r : LaneReport) : Frame [] (MoveRegs ReportedOff n) s (s.figuresShown n r) :=
  ((Frame.wr _ (.own (by decide) (by decide))).trans (Frame.wr _ (.own (by decide) (by decide)))).trans
    (Frame.wr _ (.own (by decide) (by decide)))

theorem rd_figuresShown (r : LaneReport) : (s.figuresShown n r).rd (Pg.LRX n + LRX.QUALITY) = r.ber ++ r.snr := by
  rw [figuresShown, rd_wr_ne _ _ _ (by simp), rd_wr_ne _ _ _ (by simp), rd_wr_same]

/-- The alarm writes at most its cause. -/
theorem alarm_frame (r : LaneReport) : Frame [.rx] (MoveRegs (· = HDR.INT_STATUS) n) (s.figuresShown n r) (s.qualityFigures n r) :=
  Frame.ite ((Frame.setRxl _ _ (by simp)).trans (Frame.raise _ (.own (by decide) rfl))) (Frame.setRxl _ _ (by simp))

theorem qualityFigures_frame (r : LaneReport) : Frame [.rx] (MoveRegs ReportedOff n) s (s.qualityFigures n r) :=
  ((figuresShown_frame r).mono (by simp) fun _ h => h).trans
    ((alarm_frame r).mono (fun _ h => h) fun _ h => h.mono fun _ e => e ▸ by decide)

theorem rd_qualityFigures (hn : n < 16) (r : LaneReport) : (s.qualityFigures n r).rd (Pg.LRX n + LRX.QUALITY) = r.ber ++ r.snr :=
  (rd_own hn (alarm_frame r) (by decide) (by decide)).trans (rd_figuresShown r)

/-! ### What adapts -/

/-- The gain: frozen in HOLD and where `AGC_CTRL` freezes it. -/
def gainShown (s : Dev) (n : Nat) (r : LaneReport) : Dev :=
  if s.rxState n == 4 || s.bit (Pg.LRX n + LRX.AGC_CTRL) 16 then s else s.setF (Pg.LRX n + LRX.AGC_STATUS) 0 16 r.gain.toNat

/-- Clock recovery, the pilot canceller and the envelope: they run on in every state. -/
def clockShown (s : Dev) (n : Nat) (r : LaneReport) : Dev :=
  let b := Pg.LRX n
  let t := if s.bit (b + LRX.CDR_CTRL) 8 then s else s.setF (b + LRX.CDR_STATUS) 16 16 r.freq.toNat
  let t := if t.bit (b + LRX.LANE_CTRL) 2 then t.wr (b + LRX.PILOT_STATUS) (r.suppr ++ r.depth) else t.wr (b + LRX.PILOT_STATUS) 0
  t.setRxl n { t.rxl n with envelope := r.envelope }

/-- The equaliser's coefficients and levels. -/
def coefShown (s : Dev) (n : Nat) (r : LaneReport) : Dev :=
  let b := Pg.LRX n
  let t := s.adaptTaps n r.ffe
  if t.bit (b + LRX.LANE_CTRL) 1 then (if t.bit (b + LRX.DFE_CTRL) 4 then t else t.wr (b + LRX.DFE_TAP) r.dfe)
  else if t.bit (b + LRX.MLSE_CTRL) 20 then t
  else t.wrWords (b + LRX.MLSE_LEVEL) ((List.range 16).map (fun w => r.levels.getD w 0))

theorem adapt_eq (r : LaneReport) : s.adapt n r = if s.rxState n == 4 || ((s.gainShown n r).clockShown n r).assisted (Pg.LRX n)
    then (s.gainShown n r).clockShown n r else ((s.gainShown n r).clockShown n r).coefShown n r := rfl

abbrev ClockOff (off : Nat) : Prop := off = LRX.CDR_STATUS ∨ off = LRX.PILOT_STATUS

theorem gainShown_frame (r : LaneReport) : Frame [] (MoveRegs (· = LRX.AGC_STATUS) n) s (s.gainShown n r) :=
  Frame.ite (Frame.refl s) (Frame.setF _ _ _ (.own (by decide) rfl))

theorem clockShown_frame (r : LaneReport) : Frame [.rx] (MoveRegs ClockOff n) s (s.clockShown n r) := by
  unfold Dev.clockShown
  extract_lets b t u
  have ht : Frame [.rx] (MoveRegs ClockOff n) s t := Frame.ite (Frame.refl s) (Frame.setF _ _ _ (.own (by decide) (.inl rfl)))
  have hpilot : MoveRegs ClockOff n (b + LRX.PILOT_STATUS) := .own (by decide) (.inr rfl)
  have hu : Frame [.rx] (MoveRegs ClockOff n) t u := Frame.ite (Frame.wr _ hpilot) (Frame.wr _ hpilot)
  exact (ht.trans hu).trans (Frame.setRxl _ _ (by simp))

theorem adaptTaps_frame (ffe : List (BitVec 16)) : Frame [] (MoveRegs CoefOff n) s (s.adaptTaps n ffe) :=
  List.foldlRecOn (motive := Frame [] (MoveRegs CoefOff n) s) _ _ (Frame.refl s) fun t ht k hk => by
    exact Frame.ite ht (ht.trans (Frame.wr _ (.coef (len := 33) (by decide) (by decide) (List.mem_range.mp hk) fun _ h => h)))

theorem coefShown_frame (r : LaneReport) : Frame [] (MoveRegs CoefOff n) s (s.coefShown n r) := by
  unfold Dev.coefShown
  extract_lets b t
  have ht : Frame [] (MoveRegs CoefOff n) s t := adaptTaps_frame r.ffe
  exact Frame.ite (Frame.ite ht (ht.trans (Frame.wr _ (.own (by decide) (.inl rfl)))))
    (Frame.ite ht (ht.trans (Frame.wrWords fun k hk => .coef (len := 16) (by decide) (by decide) (by simpa using hk) fun _ h => h)))

/-- What adapts beside the gain. -/
theorem adapt_frame (r : LaneReport) : Frame [.rx] (MoveRegs (fun off => CoefOff off ∨ ClockOff off) n) (s.gainShown n r) (s.adapt n r) := by
  have hclock : Frame [.rx] (MoveRegs (fun off => CoefOff off ∨ ClockOff off) n) (s.gainShown n r) ((s.gainShown n r).clockShown n r) :=
    (clockShown_frame r).mono (fun _ h => h) fun _ h => h.mono fun _ => .inr
  rw [adapt_eq]
  exact Frame.ite hclock (hclock.trans ((coefShown_frame r).mono (by simp) fun _ h => h.mono fun _ => .inl))

/-- A register of the lane that neither the gain nor the rest writes. -/
theorem rd_adapt (hn : n < 16) (r : LaneReport) {off : Nat} (ho : off < 0x1000) (hg : off ≠ LRX.AGC_STATUS)
    (hrest : ¬ (CoefOff off ∨ ClockOff off)) : (s.adapt n r).rd (Pg.LRX n + off) = s.rd (Pg.LRX n + off) :=
  (rd_own hn (adapt_frame r) ho hrest).trans (rd_own hn (gainShown_frame r) ho hg)

theorem rd_adapt_gain (hn : n < 16) (r : LaneReport) :
    (s.adapt n r).rd (Pg.LRX n + LRX.AGC_STATUS) = (s.gainShown n r).rd (Pg.LRX n + LRX.AGC_STATUS) :=
  rd_own hn (adapt_frame r) (by decide) (by decide)

/-- A gain that nothing freezes is the report's. -/
theorem fld_gainShown (r : LaneReport) (h4 : s.rxState n ≠ 4) (hfrozen : s.bit (Pg.LRX n + LRX.AGC_CTRL) 16 = false) :
    (s.gainShown n r).fld (Pg.LRX n + LRX.AGC_STATUS) 0 16 = r.gain.toNat := by
  have hgo : ¬ (s.rxState n == 4 || s.bit (Pg.LRX n + LRX.AGC_CTRL) 16) = true := by simp [h4, hfrozen]
  rw [gainShown, if_neg hgo, fld, rd_setF_same, fieldOf_withField _ _ _ _ (by decide), Nat.mod_eq_of_lt r.gain.isLt]

theorem gainShown_frozen (r : LaneReport) (hfrozen : s.bit (Pg.LRX n + LRX.AGC_CTRL) 16 = true) : s.gainShown n r = s := by
  rw [gainShown, if_pos (by rw [hfrozen, Bool.or_true])]

/-- In assisted mode the lane's sequencer sets the taps. -/
theorem rd_adapt_taps (hn : n < 16) (r : LaneReport) (hassist : s.assisted (Pg.LRX n) = true) {k : Nat} (hk : k < 33) :
    (s.adapt n r).rd (Pg.LRX n + LRX.FFE_TAP + 4 * k) = s.rd (Pg.LRX n + LRX.FFE_TAP + 4 * k) := by
  have hfree : ¬ ClockOff (LRX.FFE_TAP + 4 * k) ∧ LRX.FFE_TAP + 4 * k ≠ LRX.AGC_STATUS := by
    simp only [ClockOff, LRX.FFE_TAP, LRX.CDR_STATUS, LRX.PILOT_STATUS, LRX.AGC_STATUS]
    omega
  have hlt : LRX.FFE_TAP + 4 * k < 0x1000 := by
    simp only [LRX.FFE_TAP]
    omega
  have hkeep (off : Nat) (ho : off < 0x1000) (hc : ¬ ClockOff off) (hg : off ≠ LRX.AGC_STATUS) :
      ((s.gainShown n r).clockShown n r).rd (Pg.LRX n + off) = s.rd (Pg.LRX n + off) :=
    (rd_own hn (clockShown_frame r) ho hc).trans (rd_own hn (gainShown_frame r) ho hg)
  have hmode : ((s.gainShown n r).clockShown n r).assisted (Pg.LRX n) = true :=
    (congrArg (bitOf · 1) (hkeep HDR.PAGE_CTRL (by decide) (by decide) (by decide))).trans hassist
  rw [adapt_eq, hmode, Bool.or_true, if_pos rfl, Nat.add_assoc]
  exact hkeep _ hlt hfree.1 hfree.2

/-- A report in TRACK. -/
theorem laneReport_track (h3 : s.rxState n = 3) (r : LaneReport) : s.laneReport n r = (s.qualityFigures n r).adapt n r := by
  simp only [laneReport, h3, if_true, true_or]

end Machine.Dev

theorem gives_qualityUpdate {s : State} {n : Lane} (r : LaneReport) (h3 : s.d.rxState n = 3) : Gives (.qualityUpdate n r) s (fun t =>
    t.fld (Pg.LRX n + LRX.QUALITY) 0 16 = r.snr.toNat ∧ t.fld (Pg.LRX n + LRX.QUALITY) 16 16 = r.ber.toNat
    ∧ (s.d.bit (Pg.LRX n + LRX.AGC_CTRL) 16 = false → t.fld (Pg.LRX n + LRX.AGC_STATUS) 0 16 = r.gain.toNat)
    ∧ (s.d.bit (Pg.LRX n + LRX.AGC_CTRL) 16 = true → t.rd (Pg.LRX n + LRX.AGC_STATUS) = s.d.rd (Pg.LRX n + LRX.AGC_STATUS))
    ∧ (s.d.assisted (Pg.LRX n) = true → ∀ k, k < 33 → t.rd (Pg.LRX n + LRX.FFE_TAP + 4 * k) = s.d.rd (Pg.LRX n + LRX.FFE_TAP + 4 * k))
    ∧ t.rxState n = 3) := by
  set u := s.d.qualityFigures n r with hu
  have hkeep (off : Nat) (ho : off < 0x1000) (hf : ¬ Dev.ReportedOff off) : u.rd (Pg.LRX n + off) = s.d.rd (Pg.LRX n + off) :=
    Dev.rd_own n.isLt (Dev.qualityFigures_frame r) ho hf
  have hst : u.rxState n = 3 := (congrArg (fieldOf · 0 4) (hkeep LRX.LANE_STATE (by decide) (by decide))).trans h3
  have hagc : u.bit (Pg.LRX n + LRX.AGC_CTRL) 16 = s.d.bit (Pg.LRX n + LRX.AGC_CTRL) 16 :=
    congrArg (bitOf · 16) (hkeep LRX.AGC_CTRL (by decide) (by decide))
  have hmode : u.assisted (Pg.LRX n) = s.d.assisted (Pg.LRX n) := congrArg (bitOf · 1) (hkeep HDR.PAGE_CTRL (by decide) (by decide))
  have hquality : (u.adapt n r).rd (Pg.LRX n + LRX.QUALITY) = r.ber ++ r.snr :=
    (Dev.rd_adapt n.isLt r (by decide) (by decide) (by decide)).trans (Dev.rd_qualityFigures n.isLt r)
  refine gives_run (Eq.refl (execQualityUpdate n r s)) ?_
  rw [Dev.laneReport_track h3, ← hu]
  refine ⟨?_, ?_, fun hon => ?_, fun hoff => ?_, fun hassist k hk => ?_, ?_⟩
  · rw [Dev.fld_settle, Dev.fld, hquality, fieldOf_append_low]
  · rw [Dev.fld_settle, Dev.fld, hquality, fieldOf_append_high]
  · rw [Dev.fld_settle, Dev.fld, Dev.rd_adapt_gain n.isLt]
    exact Dev.fld_gainShown r (by rw [hst]; decide) (hagc.trans hon)
  · rw [settle_rd, Dev.rd_adapt_gain n.isLt, Dev.gainShown_frozen r (hagc.trans hoff), hkeep _ (by decide) (by decide)]
  · have hfree : ¬ Dev.ReportedOff (LRX.FFE_TAP + 4 * k) := by
      simp
      omega
    rw [settle_rd, Dev.rd_adapt_taps n.isLt r (hmode.trans hassist) hk, Nat.add_assoc,
      hkeep _ (by simp only [LRX.FFE_TAP]; omega) hfree]
  · rw [Dev.rxState_settle, ← hst]
    exact congrArg (fieldOf · 0 4) (Dev.rd_adapt n.isLt r (off := LRX.LANE_STATE) (by decide) (by decide) (by decide))

end Sys2Proof
end

