-- ==== Sys2Proof/Proofs/EyeScans.lean ====
section
/-! The eye scan of a line receive lane: its start, its points, its end and its abort (03, R105 to R107). -/

namespace Sys2Proof

open Machine

/-! ### The words of the counts after reset -/

/-- No register of the page at or above 0x800 has another reset value than 0. -/
theorem reset_rowsLrx : ∀ r ∈ rowsLrx, r.reset = 0 ∨ 0 < r.stride ∧ r.off + r.stride * r.count ≤ 0x800 := by decide

theorem reset_of_regRow {off : Nat} {r : RegRow} (h : regRow .lrx off = some r) (ho : 0x800 ≤ off) : r.reset = 0 := by
  have hholds : r.holds off = true := List.find?_some (p := fun r => RegRow.holds r off) h
  simp only [RegRow.holds, Bool.and_eq_true, decide_eq_true_eq] at hholds
  obtain ⟨⟨hlo, hmod⟩, hcount⟩ := hholds
  rcases reset_rowsLrx r (List.mem_of_find?_eq_some h) with h0 | ⟨hstride, hend⟩
  · exact h0
  · have hlt : off - r.off < r.stride * r.count := by
      calc off - r.off = r.stride * ((off - r.off) / r.stride) := by rw [Nat.mul_div_cancel' (Nat.dvd_of_mod_eq_zero hmod)]
        _ < r.stride * r.count := Nat.mul_lt_mul_of_pos_left hcount hstride
    omega

theorem regReset_eyeData {n : Nat} (hn : n < 16) {off : Nat} (hlo : 0x800 ≤ off) (hlt : off < 0x1000) : regReset (Pg.LRX n + off) = 0 := by
  obtain ⟨p, hp, ht⟩ : OnTypes [.lrx] (Pg.LRX n + off) := .lrx hn hlt (by simp)
  have hoff : (Pg.LRX n + off) % 0x1000 = off := offsetOf_add _ hlt
  have htype : p.type = .lrx := by simpa using ht
  have hinst (i : Nat) (r : RegRow) : instanceReset .lrx i off r = r.reset := by
    simp only [instanceReset, LRX.FFE_MU, LRX.FFE_TAP, LRX.MLSE_LEVEL]
    rw [if_neg (by omega), if_neg (by omega), if_neg (by omega)]
  simp only [regReset, hp, hoff, htype, hinst]
  rw [if_neg (by simp; omega), if_neg (by simp; omega), if_neg (by omega)]
  cases hrow : regRow .lrx off with
  | none => rfl
  | some r => exact reset_of_regRow hrow hlo

namespace Machine.Dev

section
variable {s t : Dev} {m : Master} {n : Nat}

theorem rd_clearRange (lo hi a : Nat) : (s.clearRange lo hi).rd a = if lo ≤ a ∧ a < hi then regReset a else s.rd a := by
  rw [rd, clearRange, Sparse.get_clear]
  simp only [Bool.and_eq_true, decide_eq_true_eq]
  rfl

/-! ### The registers of a scan -/

theorem eyeStatus_eq : Pg.LRX n + LRX.EYE_CTRL + 12 = Pg.LRX n + LRX.EYE_STATUS := Nat.add_assoc _ _ _

theorem eyeGrid_eq : Pg.LRX n + LRX.EYE_CTRL + 4 = Pg.LRX n + LRX.EYE_GRID := Nat.add_assoc _ _ _

theorem eyeCmd_eq : Pg.LRX n + LRX.EYE_CTRL + 8 = Pg.LRX n + LRX.EYE_CMD := Nat.add_assoc _ _ _

theorem eyeRuns_lrx : s.eyeRuns (Pg.LRX n + LRX.EYE_CTRL) = s.bit (Pg.LRX n + LRX.EYE_STATUS) 0 := by rw [eyeRuns, eyeStatus_eq]

/-! ### The start of a scan -/

/-- A start that is refused is logged and does nothing else. -/
theorem rxEyeStart_refused {code : Nat} (hlog : Rejected m (Pg.LRX n + LRX.EYE_CMD) code s (s.logErr m (Pg.LRX n + LRX.EYE_CMD) code))
    (h : s.eyeStart m (Pg.LRX n) (Pg.LRX n + LRX.EYE_CTRL) (Pg.LRX n + LRX.EYE_DATA) 512 15 (s.rxState n == 3)
      = s.logErr m (Pg.LRX n + LRX.EYE_CMD) code) : s.rxEyeStart m n = s.logErr m (Pg.LRX n + LRX.EYE_CMD) code := by
  obtain ⟨hframe, -, -⟩ := hlog
  have hpage : (Pg.LRX n + LRX.EYE_CMD) / 0x1000 = 0x010 + n := pageOf_add _ (by decide)
  have hempty : (s.logErr m (Pg.LRX n + LRX.EYE_CMD) code).bit (Pg.LRX n + LRX.EYE_STATUS) 3 = s.bit (Pg.LRX n + LRX.EYE_STATUS) 3 :=
    congrArg (bitOf · 3) (hframe.1 _ (by rw [hpage]; simp))
  simp only [rxEyeStart, h]
  rw [eyeStatus_eq, hempty, if_neg (by simp)]

/-- A scan begun: its counts cleared and the settings it keeps to. -/
def scanBegun (s : Dev) (n : Nat) : Dev :=
  { s.clearRange (Pg.LRX n + LRX.EYE_DATA) (Pg.LRX n + LRX.EYE_DATA + 4 * 512) with
    eyes := Sparse.put (fun _ => (0, 0)) s.eyes (Pg.LRX n + LRX.EYE_CTRL) (s.rd (Pg.LRX n + LRX.EYE_CTRL), s.rd (Pg.LRX n + LRX.EYE_GRID)) }

theorem rxEyeStart_starts (h3 : s.rxState n = 3) (hidle : s.bit (Pg.LRX n + LRX.EYE_STATUS) 0 = false)
    (hgood : s.eyeBad (Pg.LRX n + LRX.EYE_CTRL) = false) (hcol : s.fld (Pg.LRX n + LRX.EYE_GRID) 0 6 ≠ 0)
    (hrow : s.fld (Pg.LRX n + LRX.EYE_GRID) 8 6 ≠ 0) : s.rxEyeStart m n = (s.scanBegun n).wr (Pg.LRX n + LRX.EYE_STATUS) 1 := by
  have hstart : s.eyeStart m (Pg.LRX n) (Pg.LRX n + LRX.EYE_CTRL) (Pg.LRX n + LRX.EYE_DATA) 512 15 (s.rxState n == 3)
      = (s.scanBegun n).wr (Pg.LRX n + LRX.EYE_STATUS) 1 := by
    have hgrid : ¬ (fieldOf (s.rd (Pg.LRX n + LRX.EYE_GRID)) 0 6 = 0 ∨ fieldOf (s.rd (Pg.LRX n + LRX.EYE_GRID)) 8 6 = 0) :=
      not_or.mpr ⟨hcol, hrow⟩
    rw [eyeStart, if_neg (by rw [h3, eyeRuns_lrx, hidle]; decide), if_neg (by rw [hgood]; decide), eyeGrid_eq, eyeStatus_eq, if_neg hgrid]
    rfl
  have hruns : ((s.scanBegun n).wr (Pg.LRX n + LRX.EYE_STATUS) 1).eyeRuns (Pg.LRX n + LRX.EYE_CTRL) = true := by
    rw [eyeRuns_lrx, bit, rd_wr_same]
    decide
  simp only [rxEyeStart, hstart, hruns, Bool.not_true, Bool.and_false, Bool.false_and, Bool.false_eq_true, if_false]

theorem rd_scanBegun (hn : n < 16) {k : Nat} (hk : k < 512) : (s.scanBegun n).rd (Pg.LRX n + LRX.EYE_DATA + 4 * k) = 0 := by
  have hclear : (s.scanBegun n).rd (Pg.LRX n + LRX.EYE_DATA + 4 * k) = _ := rd_clearRange (s := s) _ _ _
  rw [hclear, if_pos (by omega), Nat.add_assoc]
  exact regReset_eyeData hn (by simp) (by simp only [LRX.EYE_DATA]; omega)

theorem eyeSet_scanBegun : (s.scanBegun n).eyeSet (Pg.LRX n + LRX.EYE_CTRL)
    = (s.rd (Pg.LRX n + LRX.EYE_CTRL), s.rd (Pg.LRX n + LRX.EYE_GRID)) := Sparse.get_put_same _ _ _ _

theorem eyeSet_of_eyes (h : t.eyes = s.eyes) (a : Nat) : t.eyeSet a = s.eyeSet a := by rw [eyeSet, h, eyeSet]

/-! ### A point -/

/-- The code of point j stored, and the index moved on. -/
def pointStored (s : Dev) (n j code : Nat) : Dev :=
  (s.setF (Pg.LRX n + LRX.EYE_DATA + 4 * (j / 2)) (16 * (j % 2)) 16 code).setF (Pg.LRX n + LRX.EYE_STATUS) 16 11 (j + 1)

/-- The point's code, the index behind it, and whether the scan goes on. -/
def PointTaken (n j code : Nat) (runs : Bool) (t : Dev) : Prop :=
  t.fld (Pg.LRX n + LRX.EYE_DATA + 4 * (j / 2)) (16 * (j % 2)) 16 = code % 2 ^ 16 ∧ t.fld (Pg.LRX n + LRX.EYE_STATUS) 16 11 = j + 1
    ∧ t.bit (Pg.LRX n + LRX.EYE_STATUS) 0 = runs

variable {j code : Nat}

theorem pointTaken_pointStored (hruns : s.bit (Pg.LRX n + LRX.EYE_STATUS) 0 = true) (hj : j < 1024) :
    PointTaken n j code true (s.pointStored n j code) := by
  have hne : Pg.LRX n + LRX.EYE_DATA + 4 * (j / 2) ≠ Pg.LRX n + LRX.EYE_STATUS := by
    simp only [LRX.EYE_DATA, LRX.EYE_STATUS]
    omega
  refine ⟨?_, ?_, ?_⟩
  · rw [pointStored, fld, rd_setF_ne _ _ _ _ _ hne, rd_setF_same, fieldOf_withField _ _ _ _ (by omega)]
  · rw [pointStored, fld, rd_setF_same, fieldOf_withField _ _ _ _ (by decide), Nat.mod_eq_of_lt (by omega)]
  · rw [pointStored, bit, rd_setF_same, bitOf_withField_ne _ _ _ _ _ (by decide), rd_setF_ne _ _ _ _ _ hne.symm]
    exact hruns

/-- The end of a scan leaves its counts and its index. -/
theorem PointTaken.eyeDone {runs : Bool} (h : PointTaken n j code runs s) (cause : Nat) :
    PointTaken n j code false (s.eyeDone (Pg.LRX n) (Pg.LRX n + LRX.EYE_CTRL) cause) := by
  obtain ⟨hcode, hindex, -⟩ := h
  have hframe : Frame [] (fun a => a = Pg.LRX n + LRX.EYE_STATUS ∨ a = Pg.LRX n + HDR.INT_STATUS) s
      (s.eyeDone (Pg.LRX n) (Pg.LRX n + LRX.EYE_CTRL) cause) := by
    rw [Dev.eyeDone, eyeStatus_eq]
    exact ((Frame.setB _ _ (.inl rfl)).trans (Frame.setB _ _ (.inl rfl))).trans (Frame.raise _ (.inr rfl))
  have hstatus : (s.eyeDone (Pg.LRX n) (Pg.LRX n + LRX.EYE_CTRL) cause).rd (Pg.LRX n + LRX.EYE_STATUS)
      = withBit (withBit (s.rd (Pg.LRX n + LRX.EYE_STATUS)) 0 false) 1 true := by
    rw [Dev.eyeDone, eyeStatus_eq, rd_raise_ne _ _ _ (by simp), rd_setB_same, rd_setB_same]
  refine ⟨?_, ?_, ?_⟩
  · rw [fld, hframe.1 _ (by simp only [LRX.EYE_DATA, LRX.EYE_STATUS, HDR.INT_STATUS]; omega)]
    exact hcode
  · rw [fld, hstatus, fieldOf_withBit_ne _ _ _ _ _ (by decide), fieldOf_withBit_ne _ _ _ _ _ (by decide)]
    exact hindex
  · rw [bit, hstatus, bitOf_withBit_ne _ _ _ _ (by decide), bitOf_withBit _ _ _ (by decide)]

/-- So does what tells the lane's sequencer. -/
theorem PointTaken.laneEvent {runs : Bool} (h : PointTaken n j code runs s) (hn : n < 16) (e : Nat) (hj : j < 1024) :
    PointTaken n j code runs (s.laneEvent n e) := by
  obtain ⟨hcode, hindex, hrun⟩ := h
  have hframe : Frame [] (MoveRegs (fun _ => False) n) s (s.laneEvent n e) := Frame.laneEvent hn _ (.of_types _ (by decide))
  refine ⟨?_, (fld_of_frame hn hframe (by decide) _ _).trans hindex, (congrArg (bitOf · 0) (rd_of_frame hn hframe (by decide))).trans hrun⟩
  rw [Nat.add_assoc, fld_of_frame hn hframe (by simp only [LRX.EYE_DATA]; omega), ← Nat.add_assoc]
  exact hcode

theorem PointTaken.settle {runs : Bool} (h : PointTaken n j code runs s) : PointTaken n j code runs (settle s) := by
  obtain ⟨hcode, hindex, hrun⟩ := h
  exact ⟨(fld_settle _ _ _ _).trans hcode, (fld_settle _ _ _ _).trans hindex, (bit_settle _ _ _).trans hrun⟩

/-- The points of the scan in progress. -/
def scanPoints (s : Dev) (n : Nat) : Nat :=
  fieldOf (s.eyeSet (Pg.LRX n + LRX.EYE_CTRL)).2 0 6 * fieldOf (s.eyeSet (Pg.LRX n + LRX.EYE_CTRL)).2 8 6

theorem pointTaken_eyePoint (hruns : s.bit (Pg.LRX n + LRX.EYE_STATUS) 0 = true) (hindex : s.fld (Pg.LRX n + LRX.EYE_STATUS) 16 11 = j)
    (hj : j < 1024) (cause : Nat) : PointTaken n j code (decide (j + 1 < s.scanPoints n))
      (s.eyePoint (Pg.LRX n) (Pg.LRX n + LRX.EYE_CTRL) (Pg.LRX n + LRX.EYE_DATA) 2 16 cause code) := by
  have hstored := pointTaken_pointStored (code := code) hruns hj
  have hgo : s.eyePoint (Pg.LRX n) (Pg.LRX n + LRX.EYE_CTRL) (Pg.LRX n + LRX.EYE_DATA) 2 16 cause code
      = if s.scanPoints n ≤ j + 1 then (s.pointStored n j code).eyeDone (Pg.LRX n) (Pg.LRX n + LRX.EYE_CTRL) cause
        else s.pointStored n j code := by
    rw [eyePoint, eyeRuns_lrx, if_pos hruns, eyeStatus_eq, hindex]
    rfl
  rw [hgo]
  split
  · next h =>
    rw [decide_eq_false (by omega)]
    exact hstored.eyeDone cause
  · next h =>
    rw [decide_eq_true (by omega)]
    exact hstored

end

end Machine.Dev

/-! ### The commands and the event -/

section
variable {s : State} {m : Master} {n : Lane}

theorem gives_eyeStart_refused {code : Nat} (ha : Admits s m (Pg.LRX n + LRX.EYE_CMD))
    (hc : code ≠ Err.islandOff ∧ code ≠ Err.narrow ∧ code ≠ Err.unaligned)
    (h : s.d.eyeStart m (Pg.LRX n) (Pg.LRX n + LRX.EYE_CTRL) (Pg.LRX n + LRX.EYE_DATA) 512 15 (s.d.rxState n == 3)
      = s.d.logErr m (Pg.LRX n + LRX.EYE_CMD) code) : Gives (.eyeStart m n) s (Rejected m (Pg.LRX n + LRX.EYE_CMD) code s.d) :=
  gives_rejected (Eq.refl (execEyeStart m n s)) ha hc
    (Dev.rxEyeStart_refused (logErr_eq_logOn ha.pageRow_isSome hc ▸ rejected_logOn _ _ _ _) h)

theorem gives_eyeStart_bad (ha : Admits s m (Pg.LRX n + LRX.EYE_CMD)) (h3 : s.d.rxState n = 3)
    (hidle : s.d.bit (Pg.LRX n + LRX.EYE_STATUS) 0 = false) (hbad : s.d.eyeBad (Pg.LRX n + LRX.EYE_CTRL) = true) :
    Gives (.eyeStart m n) s (Rejected m (Pg.LRX n + LRX.EYE_CMD) 0x0C s.d) := by
  refine gives_eyeStart_refused ha (by decide) ?_
  rw [Dev.eyeStart, if_neg (by rw [h3, Dev.eyeRuns_lrx, hidle]; decide), if_pos hbad, Dev.eyeCmd_eq]

theorem gives_eyeStart_barred (ha : Admits s m (Pg.LRX n + LRX.EYE_CMD))
    (h : s.d.rxState n ≠ 3 ∨ s.d.bit (Pg.LRX n + LRX.EYE_STATUS) 0 = true) :
    Gives (.eyeStart m n) s (Rejected m (Pg.LRX n + LRX.EYE_CMD) 0x0D s.d) := by
  have hbarred : (!(s.d.rxState n == 3) || s.d.eyeRuns (Pg.LRX n + LRX.EYE_CTRL)) = true := by
    rcases h with h3 | hruns
    · rw [beq_eq_false_iff_ne.mpr h3, Bool.not_false, Bool.true_or]
    · rw [Dev.eyeRuns_lrx, hruns, Bool.or_true]
  refine gives_eyeStart_refused ha (by decide) ?_
  rw [Dev.eyeStart, if_pos hbarred, Dev.eyeCmd_eq]

theorem gives_eyeStart (ha : Admits s m (Pg.LRX n + LRX.EYE_CMD)) (hgood : s.d.eyeBad (Pg.LRX n + LRX.EYE_CTRL) = false)
    (h3 : s.d.rxState n = 3) (hidle : s.d.bit (Pg.LRX n + LRX.EYE_STATUS) 0 = false) (hcol : s.d.fld (Pg.LRX n + LRX.EYE_GRID) 0 6 ≠ 0)
    (hrow : s.d.fld (Pg.LRX n + LRX.EYE_GRID) 8 6 ≠ 0) : Gives (.eyeStart m n) s (fun t => t.rd (Pg.LRX n + LRX.EYE_STATUS) = 1
      ∧ t.eyeSet (Pg.LRX n + LRX.EYE_CTRL) = (s.d.rd (Pg.LRX n + LRX.EYE_CTRL), s.d.rd (Pg.LRX n + LRX.EYE_GRID))
      ∧ ∀ k, k < 512 → t.rd (Pg.LRX n + LRX.EYE_DATA + 4 * k) = 0) := by
  refine gives_access (Eq.refl (execEyeStart m n s)) ha ?_
  rw [Dev.rxEyeStart_starts h3 hidle hgood hcol hrow]
  refine ⟨?_, ?_, fun k hk => ?_⟩
  · rw [settle_rd, Dev.rd_wr_same]
  · exact (Dev.eyeSet_of_eyes (by simp) _).trans Dev.eyeSet_scanBegun
  · rw [settle_rd, Dev.rd_wr_ne _ _ _ (by simp only [LRX.EYE_DATA, LRX.EYE_STATUS]; omega), Dev.rd_scanBegun n.isLt hk]

theorem gives_eyeAbort (ha : Admits s m (Pg.LRX n + LRX.EYE_CMD)) (hruns : s.d.bit (Pg.LRX n + LRX.EYE_STATUS) 0 = true) :
    Gives (.eyeAbort m n) s (fun t => Frame [] (· = Pg.LRX n + LRX.EYE_STATUS) s.d t ∧ t.bit (Pg.LRX n + LRX.EYE_STATUS) 0 = false
      ∧ t.bit (Pg.LRX n + LRX.EYE_STATUS) 2 = true) := by
  have hgo : s.d.eyeAbort (Pg.LRX n + LRX.EYE_CTRL)
      = (s.d.setB (Pg.LRX n + LRX.EYE_STATUS) 0 false).setB (Pg.LRX n + LRX.EYE_STATUS) 2 true := by
    rw [Dev.eyeAbort, Dev.eyeRuns_lrx, if_pos hruns, Dev.eyeStatus_eq]
  refine gives_access (Eq.refl (execEyeAbort m n s)) ha ?_
  rw [hgo]
  refine ⟨((Frame.setB (A := (· = Pg.LRX n + LRX.EYE_STATUS)) _ _ rfl).trans (Frame.setB _ _ rfl)).settle, ?_, ?_⟩
  · rw [Dev.bit_settle, Dev.bit, Dev.rd_setB_same, bitOf_withBit_ne _ _ _ _ (by decide), Dev.rd_setB_same, bitOf_withBit _ _ _ (by decide)]
  · rw [Dev.bit_settle, Dev.bit, Dev.rd_setB_same, bitOf_withBit _ _ _ (by decide)]

theorem gives_eyePointDone {errors j : Nat} (hruns : s.d.bit (Pg.LRX n + LRX.EYE_STATUS) 0 = true)
    (hindex : s.d.fld (Pg.LRX n + LRX.EYE_STATUS) 16 11 = j) (hj : j < 1024) :
    Gives (.eyePointDone n errors) s (Dev.PointTaken n j (eyeCount errors) (decide (j + 1 < s.d.scanPoints n))) := by
  have hpoint := Dev.pointTaken_eyePoint (code := eyeCount errors) hruns hindex hj 15
  refine gives_run (Eq.refl (execEyePointDone n errors s)) ?_
  extract_lets a t
  split
  · exact (hpoint.laneEvent n.isLt 12 hj).settle
  · exact hpoint.settle

/-- Settles O15: the saves that are due, a report's figures, and the steps of an eye scan. -/
theorem laneCheckpointsAndReports : Obligations.LaneCheckpointsAndReports := by
  unfold Obligations.LaneCheckpointsAndReports
  refine ⟨fun s m n h3 hw => ?_, fun s m n => ?_⟩
  · intro b good saved
    exact ⟨fun ha hfit => gives_ckptNow ha h3 hw hfit, gives_ckptTick_saves h3 hw, gives_ckptTick_skips h3 hw⟩
  · intro b
    exact ⟨gives_qualityUpdate, gives_eyeStart_bad, gives_eyeStart_barred, gives_eyeStart, gives_eyeAbort,
      fun _ _ => gives_eyePointDone⟩

end

end Sys2Proof
end

