-- ==== Sys2Proof/Proofs/LineDecoding.lean ====
section
/-! The counters of a decoded RS codeword (04, R131). They are 48 bits wide in two words: a count leaves the high bits of the second
word 0, and a counter that is not counted keeps whatever stands there. -/

namespace Sys2Proof

open Machine

/-- A command that is a function of the device gives nothing but what that function leaves. -/
theorem Gives.of_run {i : Instr} {s : State} {f : Dev → Dev} {P : Dev → Prop} (g : Gives i s P) (h : exec i s = s.run f) :
    P (settle (f s.d)) := by
  obtain ⟨t, ht, -, hP⟩ := g
  obtain rfl : s.after (f s.d) = t := Host.Outcome.next.inj (h.symm.trans ht)
  exact hP

/-! ### The counter that a codeword does not count on -/

/-- The registers beside the two words of the counter at a. -/
abbrev BesideWide (a x : Nat) : Prop := ¬ WideRegs a x

section
variable {ps : List Part} {s t : Dev} {a n : Nat}

theorem Frame.wide (f : Frame ps (BesideWide a) s t) : t.wide a = s.wide a :=
  Dev.wide_congr (f.1 _ (not_not.mpr (.inl rfl))) (f.1 _ (not_not.mpr (.inr rfl)))

theorem Frame.count48_beside {c : Nat} (k : Nat) (h : c + 8 ≤ a ∨ a + 8 ≤ c) : Frame ps (BesideWide a) s (s.count48 c k) :=
  Frame.count48 _ (by rintro (e | e) <;> omega) (by rintro (e | e) <;> omega)

/-- A correctable codeword does not count on `RS_UNC`. -/
theorem rsCount_some_frame (errs : List (Nat × Gf)) :
    Frame ps (BesideWide (Pg.LFEC n + LFEC.RS_UNC)) s (s.rsCount n (some errs)) := by
  unfold Dev.rsCount
  extract_lets b t
  dsimp -zeta only
  extract_lets k u v
  have ht : Frame ps (BesideWide (Pg.LFEC n + LFEC.RS_UNC)) s t := Frame.count48_beside _ (by simp [b])
  have hu : Frame ps (BesideWide (Pg.LFEC n + LFEC.RS_UNC)) s u := Frame.ite ht (ht.trans (Frame.count48_beside _ (by simp [b])))
  have hv : Frame ps (BesideWide (Pg.LFEC n + LFEC.RS_UNC)) s v :=
    (hu.trans (Frame.count48_beside _ (by simp [b]))).trans (Frame.count48_beside _ (by simp [b]))
  split
  · exact hv.trans (Frame.count48_beside _ (by simp [b]; omega))
  · exact hv

/-- An uncorrectable one does not count on `RS_SYM`. -/
theorem rsCount_none_frame : Frame ps (BesideWide (Pg.LFEC n + LFEC.RS_SYM)) s (s.rsCount n none) :=
  (Frame.count48_beside _ (by simp)).trans (Frame.count48_beside _ (by simp))

/-- The flag of a codeword may count blocks, on no wide counter (R129). -/
theorem rsFlag_frame (unc : Bool) (hr : .rx ∈ ps) : Frame ps (· = Pg.LFEC n + LFEC.BLK_ERR) s (s.rsFlag n unc) :=
  Frame.ite ((Frame.setRxl _ _ hr).trans (Frame.count _ rfl)) (Frame.setRxl _ _ hr)

/-- Nor is the degrade count one (R133). -/
theorem degAdd_frame (k : Nat) (hr : .rx ∈ ps) : Frame ps (· = Pg.LFEC n + LFEC.DEG_ACC) s (s.degAdd n k) := by
  have hbegin : Frame ps (· = Pg.LFEC n + LFEC.DEG_ACC) s (s.degBegin n) := Frame.ite (Frame.setRxl _ _ hr) (Frame.refl s)
  exact Frame.ite (Frame.ite ((hbegin.trans (Frame.setRxl _ _ hr)).trans (Frame.wr _ rfl)) hbegin) (Frame.refl s)

end

namespace Machine.Dev

/-- The device after a codeword of lane n: counted, flagged and added to the degrade count. -/
def decoded (s : Dev) (n : Nat) (r : Option (List (Nat × Gf))) : Dev :=
  ((s.rsCount n r).rsFlag n r.isNone).degAdd n (r.elim 16 List.length)

variable {s : Dev} {n : Nat}

/-- After the counters of the codeword itself none of two words changes. -/
theorem wide_decoded (r : Option (List (Nat × Gf))) {off : Nat} (h : LFEC.RS_CW ≤ off ∧ off ≤ LFEC.RS_BIT) :
    (s.decoded n r).wide (Pg.LFEC n + off) = (s.rsCount n r).wide (Pg.LFEC n + off) := by
  simp only [LFEC.RS_CW, LFEC.RS_BIT] at h
  have hflag := rsFlag_frame (ps := [.rx]) (s := s.rsCount n r) (n := n) r.isNone (by simp)
  have hadd (k : Nat) := degAdd_frame (ps := [.rx]) (s := (s.rsCount n r).rsFlag n r.isNone) (n := n) k (by simp)
  refine Frame.wide ((hflag.mono (fun _ => id) ?_).trans ((hadd _).mono (fun _ => id) ?_))
  · rintro x rfl (e | e) <;> simp only [LFEC.BLK_ERR] at e <;> omega
  · rintro x rfl (e | e) <;> simp only [LFEC.DEG_ACC] at e <;> omega

theorem wide_decoded_rsUnc (errs : List (Nat × Gf)) :
    (s.decoded n (some errs)).wide (Pg.LFEC n + LFEC.RS_UNC) = s.wide (Pg.LFEC n + LFEC.RS_UNC) :=
  (wide_decoded _ (by decide)).trans (rsCount_some_frame (ps := []) errs).wide

theorem wide_decoded_rsSym : (s.decoded n none).wide (Pg.LFEC n + LFEC.RS_SYM) = s.wide (Pg.LFEC n + LFEC.RS_SYM) :=
  (wide_decoded _ (by decide)).trans (rsCount_none_frame (ps := [])).wide

@[simp] theorem wide_settle (a : Nat) : (settle s).wide a = s.wide a := wide_congr (settle_rd _ _) (settle_rd _ _)

end Machine.Dev

/-- With codeword lock RS_CODEWORD_DECODE gives what the decoding of the next codeword leaves (R109, R127). -/
theorem Gives.rsCodeword {s : State} {n : Lane} {line : List (List (Fin 4))} {w : List Gf} {P : Dev → Prop}
    (g : Gives (.rsCodewordDecode n line) s P) (hup : s.d.rxState n ≠ 0) (hlock : s.d.alignBit n 1 = true)
    (hw : s.d.nextCodeword n line = some w) : P (settle (s.d.decoded n (rsErrors w))) := by
  have hdec : s.d.decoding n = true := bne_iff_ne.mpr hup
  have h := g.of_run (Eq.refl (execRsCodewordDecode n line s))
  simp only [hdec, hlock, hw, Bool.and_self, if_true] at h
  cases hr : rsErrors w <;> (rw [hr] at h; exact h)

/-! ### The refutation -/

/-- The reset state with lane 0 in TRACK on a slice of L453 lanes, with codeword lock and 23 decoded groups of zeros, which hold a
codeword pair, and with bit 48 of `RS_UNC` and of `RS_SYM` set. -/
def countsBeyond48 : State :=
  ⟨(((((State.reset.d.wr (Pg.SLICE 0 + SLICE.SLICE_CFG) 1).wr (Pg.LRX 0 + LRX.LANE_STATE) 3).wr (Pg.LFEC 0 + LFEC.ALIGN_STATUS) 2).wr
    (Pg.LFEC 0 + LFEC.RS_UNC + 4) 0x10000).wr (Pg.LFEC 0 + LFEC.RS_SYM + 4) 0x10000).setRxl 0
    { RxLane.init with groups := List.replicate 23 0 }, []⟩

/-- Refutes O16: the clause on the counters of a decoded RS codeword. With bit 48 of `RS_UNC` and of `RS_SYM` set the codeword of
zeros leaves that bit of one of them as it is, of `RS_UNC` if it is correctable and of `RS_SYM` if it is not, where the statement
takes both counts modulo 2^48. A count and a write of the high word clear bit 48 and those above it, so the state is not reached. -/
theorem not_lineDecoding : ¬ Obligations.LineDecoding := by
  unfold Obligations.LineDecoding
  rintro ⟨hcounts, -⟩
  obtain ⟨-, hdecode, -⟩ := hcounts countsBeyond48 0
  obtain ⟨w, hw⟩ := Option.isSome_iff_exists.mp (by decide : (countsBeyond48.d.nextCodeword (0 : Lane) []).isSome = true)
  have hup : countsBeyond48.d.rxState (0 : Lane) ≠ 0 := by decide
  have hlock : countsBeyond48.d.alignBit (0 : Lane) 1 = true := by decide
  obtain ⟨-, hunc, hsym, -⟩ := (hdecode [] w hup hlock hw).rsCodeword hup hlock hw
  have hunc48 : countsBeyond48.d.wide (Pg.LFEC (0 : Lane) + LFEC.RS_UNC) = 2 ^ 48 := by decide
  have hsym48 : countsBeyond48.d.wide (Pg.LFEC (0 : Lane) + LFEC.RS_SYM) = 2 ^ 48 := by decide
  cases hr : rsErrors w with
  | none =>
    rw [hr, Dev.wide_settle, Dev.wide_decoded_rsSym, hsym48] at hsym
    exact absurd hsym (by decide)
  | some errs =>
    rw [hr, Dev.wide_settle, Dev.wide_decoded_rsUnc, hunc48, Option.isNone_some] at hunc
    exact absurd hunc (by decide)

end Sys2Proof
end

