-- ==== Sys2Proof/Proofs/Profiles.lean ====
section
/-! Action profiles: their words staged, then committed together or rejected (05, R158, R159). -/

namespace Sys2Proof

open Machine

/-! ### Accesses of the bulk window -/

/-- A write of the bulk window that passes its checks acts on the device as it stands. -/
theorem AdmitsBulk.bulkAccess {s : State} {m : Master} {page : Nat} (h : AdmitsBulk s m page) (a : Nat) (k : Dev → Dev) :
    s.d.bulkAccess m page a k = k s.d := by
  obtain ⟨hpass, hbroken⟩ := h
  simp only [Dev.bulkAccess, hpass, Dev.dropBroken, if_neg hbroken]

/-- A command that is such a write gives what its action leaves. -/
theorem gives_bulkAccess {i : Instr} {s : State} {m : Master} {page a : Nat} {f : Dev → Dev} {P : Dev → Prop}
    (h : exec i s = s.run (fun d => d.bulkAccess m page a f)) (ha : AdmitsBulk s m page) (p : P (settle (f s.d))) :
    Gives i s P :=
  gives_run h (by rwa [ha.bulkAccess])

namespace Machine.Dev

/-! ### The words of a profile -/

theorem cls_settle (s : Dev) : (settle s).cls = s.cls := by simp

theorem profileOp_of_cls {s t : Dev} (h : t.cls = s.cls) (p j : Nat) : t.profileOp p j = s.profileOp p j := by
  rw [profileOp, h, profileOp]

theorem profileOps_congr {s t : Dev} {p : Nat} (h : ∀ j, j < 8 → t.profileOp p j = s.profileOp p j) :
    t.profileOps p = s.profileOps p :=
  List.map_congr_left fun j hj => h j (List.mem_range.mp hj)

/-- One operation of a profile written. -/
def setProfileOp (s : Dev) (p j : Nat) (v : Word) : Dev :=
  { s with cls := { s.cls with profiles := Sparse.put (fun _ => 0) s.cls.profiles (8 * p + j) v } }

theorem profileOp_setProfileOp (s : Dev) (p : Nat) (v : Word) {i j k : Nat} (hj : j < 8) (hk : k < 8) :
    (s.setProfileOp p k v).profileOp i j = if i = p ∧ j = k then v else s.profileOp i j := by
  unfold profileOp
  split
  · next h =>
    obtain ⟨rfl, rfl⟩ := h
    exact Sparse.get_put_same _ _ _ _
  · exact Sparse.get_put_ne _ _ _ (by omega)

/-- The first n operations of a profile written. -/
def setProfileOps (s : Dev) (p n : Nat) (w : Nat → Word) : Dev := (List.range n).foldl (fun t j => t.setProfileOp p j (w j)) s

theorem setProfileOps_succ (s : Dev) (p n : Nat) (w : Nat → Word) :
    s.setProfileOps p (n + 1) w = (s.setProfileOps p n w).setProfileOp p n (w n) := by
  simp only [setProfileOps, List.range_succ, List.foldl_append, List.foldl_cons, List.foldl_nil]

theorem profileOp_setProfileOps (s : Dev) (p : Nat) (w : Nat → Word) {i j n : Nat} (hj : j < 8) (hn : n ≤ 8) :
    (s.setProfileOps p n w).profileOp i j = if i = p ∧ j < n then w j else s.profileOp i j := by
  induction n with
  | zero => simp [setProfileOps]
  | succ n ih =>
    rw [setProfileOps_succ, profileOp_setProfileOp _ _ _ hj (by omega), ih (by omega)]
    by_cases hjn : j = n
    · subst hjn
      by_cases hi : i = p <;> simp [hi]
    · have : j < n + 1 ↔ j < n := by omega
      simp [hjn, this]

theorem staged_setProfileOps (s : Dev) (p n : Nat) (w : Nat → Word) : (s.setProfileOps p n w).cls.staged = s.cls.staged := by
  induction n with
  | zero => rfl
  | succ n ih =>
    rw [setProfileOps_succ]
    exact ih

theorem staged_profStage (s : Dev) (m : Master) (p w : Nat) (v : Word) :
    Sparse.get (fun _ => none) (s.profStage m p w v).cls.staged (profKey m p w) = some v := by
  rw [profStage, Sparse.get_put_same]

/-! ### The commit -/

/-- The words that a commit of a master puts together: word 7 with it, the others as staged, else as they stand. -/
def commitWord (s : Dev) (m : Master) (p : Nat) (v : Word) (j : Nat) : Word :=
  if j = 7 then v else (Sparse.get (fun _ => none) s.cls.staged (profKey m p j)).getD (s.profileOp p j)

/-- The staging copy of a profile emptied. -/
def unstaged (s : Dev) (m : Master) (p : Nat) : Dev :=
  { s with cls := { s.cls with staged := Sparse.clear (fun k => k / 8 == profKey m p 0 / 8) s.cls.staged } }

theorem staged_unstaged (s : Dev) (m : Master) (p : Nat) {j : Nat} (hj : j < 8) :
    Sparse.get (fun _ => none) (s.unstaged m p).cls.staged (profKey m p j) = none := by
  have hkey : profKey m p j / 8 = profKey m p 0 / 8 := by
    simp only [profKey]
    omega
  rw [unstaged, Sparse.get_clear, if_pos (beq_iff_eq.mpr hkey)]

/-- The device after a commit that breaks R159. -/
def profRejected (s : Dev) (m : Master) (p : Nat) : Dev :=
  (((s.unstaged m p).logOn m 0x060 (profOffset p 7 % 0x1000) Err.config).count (Pg.CLS_PROF + CLS_PROF.PROF_REJECTS)).raise
    Pg.CLS_PROF 8

/-- The device after one that does not. -/
def profAccepted (s : Dev) (m : Master) (p : Nat) (v : Word) : Dev :=
  ((s.unstaged m p).setProfileOps p 8 (s.commitWord m p v)).setF (Pg.CLS_PROF + CLS_PROF.PROF_STATUS) 0 10 p

variable {s : Dev} {m : Master} {p : Nat} {v : Word}

theorem profCommit_rejected (h : ∃ j, j < 8 ∧ opBad (s.commitWord m p v j) = true) :
    s.profCommit m p v = s.profRejected m p := by
  have hany : ((List.range 8).map (s.commitWord m p v)).any opBad = true := by simpa using h
  exact if_pos hany

theorem profCommit_accepted (h : ∀ j, j < 8 → opBad (s.commitWord m p v j) = false) :
    s.profCommit m p v = s.profAccepted m p v := by
  have hany : ¬ ((List.range 8).map (s.commitWord m p v)).any opBad = true := by simpa using h
  exact if_neg hany

theorem cls_profRejected : (s.profRejected m p).cls = (s.unstaged m p).cls := by simp [profRejected]

theorem rd_profRejected_count : (s.profRejected m p).rd (Pg.CLS_PROF + CLS_PROF.PROF_REJECTS)
    = s.rd (Pg.CLS_PROF + CLS_PROF.PROF_REJECTS) + 1 := by
  rw [profRejected, rd_raise_ne _ _ _ (by decide), rd_count_same, logOn, rd_raise_ne _ _ _ (by decide), rd_wr_ne _ _ _ (by decide)]
  rfl

theorem fld_profRejected_code : (s.profRejected m p).fld (0x060 * 0x1000 + HDR.ERR_INFO) 22 8 = Err.config := by
  have hpage : (0x060 * 0x1000 + profOffset p 7 % 0x1000) / 0x1000 = 0x060 := by omega
  have hoff : (0x060 * 0x1000 + profOffset p 7 % 0x1000) % 0x1000 = profOffset p 7 % 0x1000 := by omega
  have hlog := (rejected_logOn (s.unstaged m p) m (0x060 * 0x1000 + profOffset p 7 % 0x1000) Err.config).fields (by decide)
  rw [hpage, hoff] at hlog
  rw [profRejected, fld, rd_raise_ne _ _ _ (by decide), rd_count_ne _ _ _ (by decide)]
  exact hlog.1

end Machine.Dev

/-! ### The commands -/

section
variable {s : State} {m : Master} {p : Fin 1024} (ha : AdmitsBulk s m 0x060)
include ha

theorem gives_profileWordWrite (w : Fin 7) (v : Word) : Gives (.profileWordWrite m p w v) s (fun t =>
    Sparse.get (fun _ => none) t.cls.staged (Dev.profKey m p w) = some v
    ∧ (∀ i, t.profileOps i = s.d.profileOps i) ∧ Frame [.cls] (fun _ => False) s.d t) := by
  refine gives_bulkAccess (Eq.refl (execProfileWordWrite m p w v s)) ha ⟨?_, fun i => ?_, ?_⟩
  · rw [Dev.cls_settle, Dev.staged_profStage]
  · exact Dev.profileOps_congr fun j _ => Dev.profileOp_of_cls (s := s.d.profStage m p w v) (Dev.cls_settle _) i j
  · exact (Frame.setCls _ (by decide)).settle

theorem gives_profileCommit_accepted (v : Word) (h : ∀ j, j < 8 → Dev.opBad (s.d.commitWord m p v j) = false) :
    Gives (.profileCommit m p v) s (fun t => (∀ j, j < 8 → t.profileOp p j = s.d.commitWord m p v j)
      ∧ (∀ i, i ≠ p.val → t.profileOps i = s.d.profileOps i) ∧ t.fld (Pg.CLS_PROF + CLS_PROF.PROF_STATUS) 0 10 = p
      ∧ ∀ j, j < 7 → Sparse.get (fun _ => none) t.cls.staged (Dev.profKey m p j) = none) := by
  have hcls : (settle (s.d.profAccepted m p v)).cls
      = ((s.d.unstaged m p).setProfileOps p 8 (s.d.commitWord m p v)).cls := by simp [Dev.profAccepted]
  have hops : ∀ i j, j < 8 → (settle (s.d.profAccepted m p v)).profileOp i j
      = if i = p.val ∧ j < 8 then s.d.commitWord m p v j else s.d.profileOp i j := fun i j hj =>
    (Dev.profileOp_of_cls hcls i j).trans (Dev.profileOp_setProfileOps _ _ _ hj (Nat.le_refl 8))
  refine gives_bulkAccess (Eq.refl (execProfileCommit m p v s)) ha ?_
  rw [Dev.profCommit_accepted h]
  refine ⟨fun j hj => (hops p j hj).trans (if_pos ⟨rfl, hj⟩), fun i hi => Dev.profileOps_congr fun j hj => ?_, ?_, fun j hj => ?_⟩
  · exact (hops i j hj).trans (if_neg fun e => hi e.1)
  · rw [Dev.fld_settle, Dev.fld, Dev.profAccepted, Dev.rd_setF_same, fieldOf_withField _ _ _ _ (by decide)]
    exact Nat.mod_eq_of_lt p.isLt
  · rw [hcls, Dev.staged_setProfileOps]
    exact s.d.staged_unstaged m p (by omega)

theorem gives_profileCommit_rejected (v : Word) (h : ∃ j, j < 8 ∧ Dev.opBad (s.d.commitWord m p v j) = true) :
    Gives (.profileCommit m p v) s (fun t => (∀ i, t.profileOps i = s.d.profileOps i)
      ∧ Counted (Pg.CLS_PROF + CLS_PROF.PROF_REJECTS) s.d t ∧ t.fld (0x060 * 0x1000 + HDR.ERR_INFO) 22 8 = 0x0C
      ∧ ∀ j, j < 7 → Sparse.get (fun _ => none) t.cls.staged (Dev.profKey m p j) = none) := by
  have hcls : (settle (s.d.profRejected m p)).cls = (s.d.unstaged m p).cls :=
    (Dev.cls_settle _).trans Dev.cls_profRejected
  refine gives_bulkAccess (Eq.refl (execProfileCommit m p v s)) ha ?_
  rw [Dev.profCommit_rejected h]
  refine ⟨fun i => Dev.profileOps_congr fun j _ => Dev.profileOp_of_cls (s := s.d.unstaged m p) hcls i j,
    Dev.counted_settle_of Dev.rd_profRejected_count, (Dev.fld_settle _ _ _ _).trans Dev.fld_profRejected_code, fun j hj => ?_⟩
  rw [hcls]
  exact s.d.staged_unstaged m p (by omega)

end

end Sys2Proof
end

