-- ==== Sys2Proof/Proofs/TableWrites.lean ====
section
/-! Entries written to the classifier's table and its shadow, and records written to the flow state (05, R152 to R154, R168, R176;
06, R181, R182, R184). -/

namespace Sys2Proof

open Machine

namespace Machine.Dev

/-! ### A table entry -/

/-- A shadow entry holds its table entry in its low bits. -/
theorem setWidth_mkShadow (e : Ent) (keyType : Nat) : (BitVec.setWidth 80 (mkShadow e keyType) : Ent) = e := by
  have he : e.toNat < 2 ^ 80 := e.isLt
  apply BitVec.eq_of_toNat_eq
  rw [BitVec.toNat_setWidth, mkShadow, BitVec.toNat_ofNat]
  omega

theorem entry_congr {s t : Dev} (i : Nat) (hc : t.cls = s.cls)
    (hr : t.rd (bankBase (bankOf i) + CLS_BANK.BANK_STATUS) = s.rd (bankBase (bankOf i) + CLS_BANK.BANK_STATUS)) :
    t.entry i = s.entry i := by
  rw [entry, indexOff_congr i hc hr, sram_of_cls hc, shadowAt, hc]
  rfl

/-- A bank's status is none of the counts of occupied entries. -/
theorem bankStatus_not_occRegs (b : Nat) : ¬ OccRegs (bankBase b + CLS_BANK.BANK_STATUS) := by
  rintro (⟨c, -, e⟩ | e) <;>
    simp only [bankBase, Pg.CLS_BANK, Pg.CLS, CLS.OCCUPANCY, CLS_BANK.BANK_OCC, CLS_BANK.BANK_STATUS] at e <;> omega

section
variable {ps : List Part} (s : Dev) {i : Nat} (e : Ent) (keyType : Nat) (hi : bankOf i < 8)

theorem setShadow_frame (v : BitVec 128) (hc : .cls ∈ ps) (hb : .buf ∈ ps) : Frame ps (fun _ => False) s (s.setShadow i v) :=
  (Frame.setCls _ hc).trans (Frame.setBuf _ hb)

/-- The classifier after an entry is written: the SRAM, unless the shadow serves the entry, and the shadow. -/
theorem cls_writeEnt : (s.writeEnt i e keyType).cls = { s.cls with
    table := if s.indexOff i then s.cls.table else Sparse.put (fun _ => 0) s.cls.table i e
    shadow := Sparse.put (fun _ => mkShadow 0 0) s.cls.shadow i (mkShadow e keyType) } := by
  unfold writeEnt
  split <;> rfl

theorem shadowAt_writeEnt : (s.writeEnt i e keyType).shadowAt i = mkShadow e keyType := by
  rw [shadowAt, cls_writeEnt, Sparse.get_put_same]

theorem sram_writeEnt (h : s.indexOff i = false) : (s.writeEnt i e keyType).sram i = e := by
  rw [sram, cls_writeEnt, h, if_neg Bool.false_ne_true, Sparse.get_put_same]

include hi

theorem occupy_frame (was is : Bool) : Frame ps OccRegs s (s.occupy i was is) :=
  (Frame.setF _ _ _ (.inr rfl)).trans (Frame.setF _ _ _ (.inl ⟨_, hi, rfl⟩))

theorem writeEnt_frame (hc : .cls ∈ ps) (hb : .buf ∈ ps) : Frame ps OccRegs s (s.writeEnt i e keyType) := by
  have hocc : Frame ps OccRegs s (s.occupy i (s.entry i).valid e.valid) := s.occupy_frame hi _ _
  exact (Frame.ite hocc (hocc.trans (Frame.setCls _ hc))).trans ((setShadow_frame _ _ hc hb).mono (fun _ => id) fun _ => False.elim)

/-- Writing an entry takes no bank out of service. -/
theorem indexOff_writeEnt (j : Nat) : (s.writeEnt i e keyType).indexOff j = s.indexOff j := by
  have hrd := (s.writeEnt_frame (ps := [.cls, .buf]) e keyType hi (by decide) (by decide)).1 _ (bankStatus_not_occRegs (bankOf j))
  rw [indexOff, bankOff, fld, hrd, cls_writeEnt]
  rfl

/-- An entry written is the entry that lookups see. -/
theorem entry_writeEnt_same : (s.writeEnt i e keyType).entry i = e := by
  rw [entry, indexOff_writeEnt _ _ _ hi]
  cases hoff : s.indexOff i with
  | true => rw [if_pos rfl, shadowAt_writeEnt, setWidth_mkShadow]
  | false => rw [if_neg Bool.false_ne_true, sram_writeEnt _ _ _ hoff]

end

/-! ### A place for an entry -/

section
variable {s : Dev} {d : BitVec 40} {i : Nat}

theorem mem_ways_of_freeWay {b : Nat} (h : s.freeWay b = some i) : i ∈ ways b := by
  unfold freeWay at h
  split at h
  · exact absurd h (by simp)
  · exact List.mem_of_find?_eq_some h

/-- The free way of a first candidate bucket lies in banks 0 to 3. -/
theorem bankOf_freeWay (h : s.freeWay (bucketA d) = some i) : bankOf i < 8 := by
  have hm := mem_ways_of_freeWay h
  simp only [ways, bucketA, List.mem_cons, List.not_mem_nil, or_false] at hm
  simp only [bankOf]
  omega

/-- A free way of the first bucket is taken without a move (R169). -/
theorem plan_freeWay (h : s.freeWay (bucketA d) = some i) : s.plan d 0 = some (i, []) := by
  simp only [plan, h, Option.map_some]

end

/-! ### Flow records -/

theorem setFlowRec_frame {ps : List Part} {A : Nat → Prop} (s : Dev) (f : Nat) (r : Rec) (h : .flow ∈ ps) :
    Frame ps A s (s.setFlowRec f r) := Frame.ite (Frame.setFlow _ h) (Frame.setFlow _ h)

theorem keyRec_setKeyRec_same (s : Dev) (f : Nat) (k : KeyRec) : (s.setKeyRec f k).keyRec f = k := by
  rw [keyRec, setKeyRec, Sparse.get_put_same]

theorem keyRec_setFlowRec (s : Dev) (f : Nat) (r : Rec) (g : Nat) : (s.setFlowRec f r).keyRec g = s.keyRec g := by
  unfold setFlowRec
  split <;> rfl

/-- A state record written is the record that stands, in the cache or in HBM. -/
theorem flowRec_setFlowRec_same (s : Dev) (f : Nat) (r : Rec) : (s.setFlowRec f r).flowRec f = r := by
  unfold setFlowRec
  split
  · next h =>
    obtain ⟨l, hl⟩ := Option.isSome_iff_exists.mp h
    have hflow : (l.flow == f) = true := List.find?_some (p := fun l : CacheLine => l.flow == f) hl
    have hsel : (fun l : CacheLine => l.flow == f) ∘ (fun l => if l.flow == f then { l with record := r, dirty := true } else l)
        = fun l => l.flow == f := by
      funext x
      simp only [Function.comp_apply]
      split <;> rfl
    have hfind : s.flow.cache.find? (fun l => l.flow == f) = some l := hl
    simp only [flowRec, cacheLine, List.find?_map, hsel, hfind, Option.map_some, Option.elim_some, hflow, if_true]
  · next h =>
    have hnone : s.cacheLine f = none := Option.not_isSome_iff_eq_none.mp h
    have hnone' : (s.setHbmRec f r).cacheLine f = none := hnone
    rw [flowRec, hnone', Option.elim_none, hbmRec, setHbmRec, Sparse.get_put_same]

theorem keyRec_of_flow {s t : Dev} (h : t.flow = s.flow) (f : Nat) : t.keyRec f = s.keyRec f := by rw [keyRec, h, keyRec]

theorem flowRec_of_flow {s t : Dev} (h : t.flow = s.flow) (f : Nat) : t.flowRec f = s.flowRec f := by
  rw [flowRec, cacheLine, hbmRec, h]
  rfl

/-- The template depends on the time and on the registers of the flow page. -/
theorem template_congr {s t : Dev} (ht : t.time = s.time) (hr : ∀ off, off < 0x1000 → t.rd (Pg.FLOW + off) = s.rd (Pg.FLOW + off)) :
    t.template = s.template := by
  simp only [template, now40, timeBase, ht, hr FLOW.TPL_BURST_C (by decide), hr FLOW.TPL_BURST_E (by decide),
    hr FLOW.TPL_RATE_C (by decide), hr FLOW.TPL_RATE_E (by decide)]

end Machine.Dev

end Sys2Proof
end

