-- ==== Sys2Proof/Proofs/Learning.lean ====
section
/-! The pool of free flow IDs and the learn requests of committed packets (05, R160 to R163), and with them the obligation on
profiles and learning. -/

namespace Sys2Proof

open Machine

namespace Machine.Dev

/-! ### The pool of free IDs -/

/-- The registers in which the pool shows. -/
abbrev PoolRegs (a : Nat) : Prop := a = Pg.CLS_MISS + CLS_MISS.LEARN_POOL ∨ a = Pg.CLS_MISS + HDR.INT_STATUS

section
variable {ps : List Part} (s : Dev)

theorem poolShow_frame : Frame ps PoolRegs s s.poolShow := by
  unfold poolShow
  extract_lets a n atEnd low was t
  have ht : Frame ps PoolRegs s t := Frame.wr _ (.inl rfl)
  exact Frame.ite (ht.trans (Frame.raise _ (.inr rfl))) ht

theorem cls_poolShow : s.poolShow.cls = s.cls := (s.poolShow_frame (ps := [])).2 .cls (by decide)

theorem rd_poolShow : s.poolShow.rd (Pg.CLS_MISS + CLS_MISS.LEARN_POOL)
    = BitVec.ofNat 32 ((if s.cls.cursor == s.cls.cursorEnd then 2 ^ 31 else 0) + s.cls.fifo.length) := by
  unfold poolShow
  extract_lets a n atEnd low was t
  have ht : t.rd a = BitVec.ofNat 32 ((if atEnd then 2 ^ 31 else 0) + n) := rd_wr_same _ _ _
  split
  · exact (rd_raise_ne _ _ _ (by decide)).trans ht
  · exact ht

theorem fld_poolShow (h : s.cls.fifo.length < 2 ^ 13) :
    s.poolShow.fld (Pg.CLS_MISS + CLS_MISS.LEARN_POOL) 0 13 = s.cls.fifo.length := by
  rw [fld, rd_poolShow, fieldOf, BitVec.toNat_ofNat]
  split <;> omega

end

/-- The FIFO emptied and the learn range applied. -/
def poolInit (s : Dev) : Dev :=
  let base := s.fld (Pg.CLS_MISS + CLS_MISS.LEARN_BASE) 0 25
  let n := s.fld (Pg.CLS_MISS + CLS_MISS.LEARN_COUNT) 0 26
  { s with cls := { s.cls with fifo := [], cursor := base, cursorEnd := base + n, learnBase := base, learnEnd := base + n } }

/-- The ID at the cursor pushed. -/
def idPushed (s : Dev) : Dev :=
  { s with cls := { s.cls with fifo := s.cls.fifo ++ [s.cls.cursor], cursor := s.cls.cursor + 1 } }

/-! ### A learn request taken -/

/-- The request taken from the queue. -/
def learnTaken (s : Dev) (l : Learn) : Dev :=
  { s with cls := { s.cls with learns := s.cls.learns.erase l, lastTurn := some true } }

/-- The first free ID taken. -/
def idTaken (s : Dev) (rest : List Nat) : Dev := { s with cls := { s.cls with fifo := rest } }

/-- The key record of a learned flow. -/
def learnedKey (l : Learn) : KeyRec := { key := l.key, valid := true, digest := l.digest }

/-- An ID taken for a request and its key record written. -/
def keyLearned (s : Dev) (l : Learn) (f : Nat) (rest : List Nat) : Dev :=
  (((s.learnTaken l).idTaken rest).poolShow).setKeyRec f (learnedKey l)

/-- Then its state record, before its entry. -/
def flowLearned (s : Dev) (l : Learn) (f : Nat) (rest : List Nat) : Dev :=
  let t := s.keyLearned l f rest
  t.setFlowRec f (t.template.set Rec.LEARNED 1)

/-- The entry of a learned flow, with the profile that its port's registers name. -/
def learnedEnt (s : Dev) (l : Learn) (f : Nat) : Ent :=
  mkEnt l.digest f (s.fld (Pg.CLS_MISS + 0x100 + 16 * l.port) 16 10) 0

/-- The device after a flow is learned into a way. -/
def entryLearned (s : Dev) (l : Learn) (f : Nat) (rest : List Nat) (i : Nat) : Dev :=
  let t := s.flowLearned l f rest
  (t.writeEnt i (t.learnedEnt l f) (l.key.getD 0 0).toNat).count (Pg.CLS_MISS + CLS_MISS.LEARNED)

section
variable {s : Dev} {l : Learn} {i f : Nat} {rest : List Nat}

section
variable (hl : s.cls.learns.find? (fun r => r.ready) = some l) (hturn : s.cls.lastTurn = some true → s.cls.updates = [])
  (hfree : s.freeWay (bucketA l.digest) = some i)
include hl hturn hfree

/-- What a request does that finds a free way in its first bucket, no update having the turn. -/
theorem learnOne_freeWay : s.learnOne =
    if (s.findEnt l.digest).isSome then (s.learnTaken l).count (Pg.CLS_MISS + CLS_MISS.LEARN_EXISTS)
    else match s.cls.fifo with
      | [] => (s.learnTaken l).count (Pg.CLS_MISS + CLS_MISS.LEARN_NOID)
      | f :: rest => s.entryLearned l f rest i := by
  have hgo : ¬ (s.cls.lastTurn = some true ∧ s.cls.updates.isEmpty = false ∧ s.fenced = false) := by
    rintro ⟨hlast, hbusy, -⟩
    simp [hturn hlast] at hbusy
  have hplan : (s.learnTaken l).plan l.digest 0 = some (i, []) := plan_freeWay hfree
  simp only [learnOne, hl, if_neg hgo]
  split
  · next h => exact absurd (h.symm.trans hplan) (by simp)
  · next p h =>
    obtain rfl : p = (i, []) := Option.some.inj (h.symm.trans hplan)
    rfl

theorem learnOne_exists (h : s.findEnt l.digest ≠ none) :
    s.learnOne = (s.learnTaken l).count (Pg.CLS_MISS + CLS_MISS.LEARN_EXISTS) := by
  rw [learnOne_freeWay hl hturn hfree, if_pos (Option.isSome_iff_ne_none.mpr h)]

theorem learnOne_noId (h : s.findEnt l.digest = none) (hf : s.cls.fifo = []) :
    s.learnOne = (s.learnTaken l).count (Pg.CLS_MISS + CLS_MISS.LEARN_NOID) := by
  rw [learnOne_freeWay hl hturn hfree, h, hf]
  rfl

theorem learnOne_learned (h : s.findEnt l.digest = none) (hf : s.cls.fifo = f :: rest) :
    s.learnOne = s.entryLearned l f rest i := by
  rw [learnOne_freeWay hl hturn hfree, h, hf]
  rfl

end

/-! ### A learned flow -/

theorem keyLearned_frame : Frame [.cls, .flow] PoolRegs s (s.keyLearned l f rest) :=
  (((Frame.setCls _ (by decide)).trans (Frame.setCls _ (by decide))).trans (poolShow_frame _)).trans (Frame.setFlow _ (by decide))

theorem flowLearned_frame : Frame [.cls, .flow] PoolRegs s (s.flowLearned l f rest) :=
  keyLearned_frame.trans (setFlowRec_frame _ _ _ (by decide))

theorem cls_flowLearned : (s.flowLearned l f rest).cls = ((s.learnTaken l).idTaken rest).cls := by
  have hrec : (s.flowLearned l f rest).cls = (s.keyLearned l f rest).cls :=
    (setFlowRec_frame (ps := [.flow]) (A := fun _ => False) _ f _ (by decide)).2 .cls (by decide)
  exact hrec.trans (cls_poolShow _)

theorem keyRec_flowLearned : (s.flowLearned l f rest).keyRec f = learnedKey l :=
  (keyRec_setFlowRec _ _ _ _).trans (keyRec_setKeyRec_same _ _ _)

theorem flowRec_flowLearned : (s.flowLearned l f rest).flowRec f = s.template.set Rec.LEARNED 1 := by
  have hkey := keyLearned_frame (s := s) (l := l) (f := f) (rest := rest)
  have htpl := template_congr (hkey.2 .time (by decide)) fun off ho =>
    hkey.1 (Pg.FLOW + off) (by simp only [PoolRegs, Pg.FLOW, Pg.CLS_MISS, CLS_MISS.LEARN_POOL, HDR.INT_STATUS]; omega)
  exact (flowRec_setFlowRec_same _ _ _).trans (congrArg (Rec.set · Rec.LEARNED 1) htpl)

/-- No port's profile lies where the pool shows. -/
theorem learnedEnt_flowLearned : (s.flowLearned l f rest).learnedEnt l f = s.learnedEnt l f := by
  rw [learnedEnt, fld, flowLearned_frame.1 _ (by
    simp only [PoolRegs, Pg.CLS_MISS, CLS_MISS.LEARN_POOL, HDR.INT_STATUS]; omega)]
  rfl

theorem cls_entryLearned : (s.entryLearned l f rest i).cls
    = ((s.flowLearned l f rest).writeEnt i ((s.flowLearned l f rest).learnedEnt l f) (l.key.getD 0 0).toNat).cls := by
  simp [entryLearned]

theorem flow_entryLearned (hi : bankOf i < 8) : (s.entryLearned l f rest i).flow = (s.flowLearned l f rest).flow := by
  simp only [entryLearned, count_frame]
  exact ((s.flowLearned l f rest).writeEnt_frame (ps := [.cls, .buf]) _ _ hi (by decide) (by decide)).2 .flow (by decide)

theorem entry_entryLearned (hi : bankOf i < 8) : (s.entryLearned l f rest i).entry i = s.learnedEnt l f := by
  have hne : bankBase (bankOf i) + CLS_BANK.BANK_STATUS ≠ Pg.CLS_MISS + CLS_MISS.LEARNED := by
    simp only [bankBase, Pg.CLS_BANK, Pg.CLS_MISS, CLS_BANK.BANK_STATUS, CLS_MISS.LEARNED]
    omega
  rw [entry_congr i cls_entryLearned (rd_count_ne _ _ _ hne), entry_writeEnt_same _ _ _ hi, learnedEnt_flowLearned]

theorem counted_entryLearned (hi : bankOf i < 8) : Counted (Pg.CLS_MISS + CLS_MISS.LEARNED) s (s.entryLearned l f rest i) := by
  have hocc : ¬ OccRegs (Pg.CLS_MISS + CLS_MISS.LEARNED) := by
    rintro (⟨b, -, e⟩ | e) <;>
      simp only [bankBase, Pg.CLS_BANK, Pg.CLS, Pg.CLS_MISS, CLS.OCCUPANCY, CLS_BANK.BANK_OCC, CLS_MISS.LEARNED] at e <;> omega
  have hrd := ((s.flowLearned l f rest).writeEnt_frame (ps := [.cls, .buf]) ((s.flowLearned l f rest).learnedEnt l f)
    (l.key.getD 0 0).toNat hi (by decide) (by decide)).1 _ hocc
  rw [Counted, entryLearned, rd_count_same, hrd, flowLearned_frame.1 _ (by decide)]
  rfl

end

end Machine.Dev

/-! ### The commands -/

section
variable {s : State} {m : Master}

theorem gives_learnInit (ha : Admits s m (Pg.CLS_MISS + CLS_MISS.LEARN_CMD))
    (h : s.d.fld (Pg.CLS_MISS + CLS_MISS.LEARN_BASE) 0 25 + s.d.fld (Pg.CLS_MISS + CLS_MISS.LEARN_COUNT) 0 26 ≤ 2 ^ 25) :
    Gives (.learnInit m) s (fun t => t.cls = s.d.poolInit.cls) := by
  refine gives_access (Eq.refl (execLearnInit m s)) ha ?_
  have hinit : s.d.learnInit m = s.d.poolInit.poolShow := if_pos (decide_eq_true h)
  rw [hinit, Dev.cls_settle, Dev.cls_poolShow]

theorem gives_learnInit_rejected (ha : Admits s m (Pg.CLS_MISS + CLS_MISS.LEARN_CMD))
    (h : 2 ^ 25 < s.d.fld (Pg.CLS_MISS + CLS_MISS.LEARN_BASE) 0 25 + s.d.fld (Pg.CLS_MISS + CLS_MISS.LEARN_COUNT) 0 26) :
    Gives (.learnInit m) s (Rejected m (Pg.CLS_MISS + CLS_MISS.LEARN_CMD) 0x0C s.d) :=
  gives_rejected (Eq.refl (execLearnInit m s)) ha (by decide) (if_neg (by simpa using h))

theorem gives_freeIdRefill (hroom : s.d.cls.fifo.length < 2048) (hleft : s.d.cls.cursor < s.d.cls.cursorEnd) :
    Gives .freeIdRefill s (fun t => t.cls.fifo = s.d.cls.fifo ++ [s.d.cls.cursor] ∧ t.cls.cursor = s.d.cls.cursor + 1
      ∧ t.fld (Pg.CLS_MISS + CLS_MISS.LEARN_POOL) 0 13 = s.d.cls.fifo.length + 1) := by
  have hpush : s.d.refillIds = s.d.idPushed.poolShow := if_pos ⟨hroom, hleft⟩
  have hcls : (settle s.d.refillIds).cls = s.d.idPushed.cls := by rw [Dev.cls_settle, hpush, Dev.cls_poolShow]
  have hlen : s.d.idPushed.cls.fifo.length = s.d.cls.fifo.length + 1 := List.length_append
  refine gives_run (Eq.refl (execFreeIdRefill s)) ⟨congrArg Cls.fifo hcls, congrArg Cls.cursor hcls, ?_⟩
  rw [Dev.fld_settle, hpush, Dev.fld_poolShow _ (by omega), hlen]

/-- A request that learns nothing is taken and counted, and the table stays. -/
theorem gives_learnApply_counted {l : Learn} {a : Nat} (h : s.d.learnOne = (s.d.learnTaken l).count a) : Gives .learnApply s (fun t =>
    t.cls.learns = s.d.cls.learns.erase l ∧ Counted a s.d t ∧ t.cls.table = s.d.cls.table) := by
  refine gives_run (Eq.refl (execLearnApply s)) ?_
  have hcls : (settle ((s.d.learnTaken l).count a)).cls = (s.d.learnTaken l).cls := by simp
  rw [h, hcls]
  exact ⟨rfl, Dev.counted_settle_of (Dev.rd_count_same _ _ _), rfl⟩

theorem gives_learnApply_learned {l : Learn} {i f : Nat} {rest : List Nat} (hl : s.d.cls.learns.find? (fun r => r.ready) = some l)
    (hturn : s.d.cls.lastTurn = some true → s.d.cls.updates = []) (hfree : s.d.freeWay (bucketA l.digest) = some i)
    (h : s.d.findEnt l.digest = none) (hf : s.d.cls.fifo = f :: rest) : Gives .learnApply s (fun t =>
      t.cls.learns = s.d.cls.learns.erase l ∧ t.cls.fifo = rest ∧ Counted (Pg.CLS_MISS + CLS_MISS.LEARNED) s.d t
      ∧ t.entry i = s.d.learnedEnt l f ∧ t.keyRec f = Dev.learnedKey l ∧ t.flowRec f = s.d.template.set Rec.LEARNED 1) := by
  have hi : Dev.bankOf i < 8 := Dev.bankOf_freeWay hfree
  have hcls : (settle (s.d.entryLearned l f rest i)).cls = (s.d.entryLearned l f rest i).cls := Dev.cls_settle _
  have hflow : (settle (s.d.entryLearned l f rest i)).flow = (s.d.flowLearned l f rest).flow :=
    Eq.trans (by simp) (Dev.flow_entryLearned hi)
  refine gives_run (Eq.refl (execLearnApply s)) ?_
  rw [Dev.learnOne_learned hl hturn hfree h hf]
  refine ⟨?_, ?_, Dev.counted_settle_of (Dev.counted_entryLearned hi), ?_, ?_, ?_⟩
  · rw [hcls, Dev.cls_entryLearned, Dev.cls_writeEnt, Dev.cls_flowLearned]
    rfl
  · rw [hcls, Dev.cls_entryLearned, Dev.cls_writeEnt, Dev.cls_flowLearned]
    rfl
  · exact (Dev.entry_congr i hcls (settle_rd _ _)).trans (Dev.entry_entryLearned hi)
  · exact (Dev.keyRec_of_flow hflow f).trans Dev.keyRec_flowLearned
  · exact (Dev.flowRec_of_flow hflow f).trans Dev.flowRec_flowLearned

end

/-- Settles O20: profiles staged, committed or rejected, the learn range, the pool of free IDs, and a learn request that finds a
free way in its first bucket. -/
theorem profilesAndLearning : Obligations.ProfilesAndLearning := by
  unfold Obligations.ProfilesAndLearning
  intro s m p w v l word mine base n taken
  refine ⟨fun ha => ⟨gives_profileWordWrite ha w v, gives_profileCommit_accepted ha v, gives_profileCommit_rejected ha v⟩,
    fun ha h => ?_, gives_learnInit_rejected, gives_freeIdRefill, fun i hl hturn hfree => ⟨fun f rest => ?_, fun h hf => ?_, fun h => ?_⟩⟩
  · obtain ⟨t, hexec, hpending, hcls⟩ := gives_learnInit ha h
    refine ⟨t, hexec, hpending, ?_⟩
    simp only [hcls, Dev.learned]
    exact ⟨rfl, rfl, rfl, fun f => (Bool.decide_and _ _).symm⟩
  · exact gives_learnApply_learned hl hturn hfree
  · exact gives_learnApply_counted (Dev.learnOne_noId hl hturn hfree h hf)
  · exact gives_learnApply_counted (Dev.learnOne_exists hl hturn hfree h)

end Sys2Proof
end

