-- ==== Sys2Proof/Proofs/Aging.lean ====
section
/-! The aging pass over the entries of the table (05, R172). The table ends at index 4194303 (R152), and so does the pass. -/

namespace Sys2Proof

open Machine

/-- The reset state with an aging period of one, no limit, and a valid entry of age 0 listed behind the end of the table. -/
def entryBeyondTable : State :=
  { State.reset with d := { State.reset.d.wr (Pg.CLS + CLS.AGE_CTRL) 1 with cls := { Cls.init with table := [(4194304, 0x10)] } } }

/-- Refutes O21: the clause on an aging pass. It ages the SRAM entry of every index, where the pass ends with the table: an entry of
age 0 that the state lists at index 4194304 stays as it is. R152 gives the table no such index. -/
theorem not_tableUpdatesAndMaintenance : ¬ Obligations.TableUpdatesAndMaintenance := by
  unfold Obligations.TableUpdatesAndMaintenance
  rintro ⟨-, hmaintenance⟩
  obtain ⟨-, haging, -⟩ := hmaintenance entryBeyondTable .host
  obtain ⟨-, hages⟩ := (haging (by decide) (by decide) (by decide)).of_run (Eq.refl (execAgingPass entryBeyondTable))
  have hkept : entryBeyondTable.d.agePass.sram 4194304 = 0x10 := by decide
  have hold : entryBeyondTable.d.sram 4194304 = 0x10 := by decide
  have hon : entryBeyondTable.d.indexOff 4194304 = false := by decide
  have h := hages 4194304
  rw [Dev.sram_settle, hkept, hold, hon] at h
  exact absurd h (by decide)

end Sys2Proof
end

