-- ==== Sys2Proof/Proofs/GroupCounters.lean ====
section
/-! The group counters of a committed packet (06, R204). A decision carries the GROUP operands of its profile, of six bits each; the
state's decisions list natural numbers, and a count of a larger group lies elsewhere. -/

namespace Sys2Proof

open Machine

/-- The lookup of a packet that misses and follows a default flow without operands. -/
def missLookup : Lookup :=
  { hit := false, flow := 0, ops := [], defFlow := 0, defOps := [], missCfg := 0, puntRate := 0, host := false, parseBad := false,
    key := [], digest := 0, learn := false, overRate := false, order := 0 }

/-- A packet of the given length that holds no slot, at the verdict good, whose decision counts the group g alone. -/
def groupPacket (g len : Nat) : Packet :=
  { window := [], len := len, rxTime := 0, slot := false, rest := [], refused := none, unread := false, fetched := [],
    lookup := some missLookup, decided := some { Dev.noDecision with groups := [g] }, last := some ⟨[], false, false⟩,
    timedOut := false }

/-- The reset state with a packet of 64 bytes on port 0 whose group's byte counter lies at `SF_ADMITTED` of the port. -/
def countsSfAdmitted : State := ⟨State.reset.d.setPackets 0 [groupPacket 0x10D5 64], []⟩

/-- Refutes O18: the clause on the counter of a committed packet. A packet without a slot whose decision counts group 0x10D5, of 64
bytes, raises `SF_ADMITTED` by 65: once as a packet and by its length through the group. The GROUP operand of a profile has six
bits (R158), so the state is not reached. -/
theorem not_meterDecisionsAndVerdicts : ¬ Obligations.MeterDecisionsAndVerdicts := by
  unfold Obligations.MeterDecisionsAndVerdicts
  rintro ⟨-, hverdicts⟩
  obtain ⟨-, hsettled⟩ := hverdicts countsSfAdmitted 0 [] [] (groupPacket 0x10D5 64)
  have hleads : Leads Packet.admitted [] (groupPacket 0x10D5 64) [] (countsSfAdmitted.d.packets 0) :=
    ⟨Dev.packets_setPackets_same _ _ _, by decide, List.forall_mem_nil _⟩
  obtain ⟨hcommit, -⟩ := hsettled hleads
  obtain ⟨-, hraised, -⟩ := (hcommit _ _ _ rfl rfl rfl rfl).of_run (Eq.refl (execPacketCommit 0 countsSfAdmitted))
  have hbefore : countsSfAdmitted.d.wide (Dev.adBase (0 : Lane) + ADMIT.SF_ADMITTED) = 0 := by decide
  have hafter : (countsSfAdmitted.d.tryCommit (0 : Lane)).wide (Dev.adBase (0 : Lane) + ADMIT.SF_ADMITTED) = 65 := by decide
  rw [Raised, Dev.wide_settle, if_neg (by decide), hafter, hbefore] at hraised
  exact absurd hraised (by decide)

end Sys2Proof
end

