-- ==== Sys2Proof/Proofs/RecordStore.lean ====
section
/-! Flow records in the cache and in HBM: what each unit that changes them leaves of the others, and with that the obligation on
flow records (06, R182 to R185, R208). -/

namespace Sys2Proof

open Machine

/-- A default that changes elsewhere does not show at a key. -/
theorem Machine.Sparse.get_congr_default {α : Type} {d e : Nat → α} (m : Sparse α) {k : Nat} (h : d k = e k) :
    Sparse.get d m k = Sparse.get e m k := by
  induction m with
  | nil => exact h
  | cons p m ih => simp only [Sparse.get, ih]

/-! ### The words of a record (R180) -/

/-- Words put side by side fit their bits. -/
theorem sum_words_lt (w : Nat → Word) (n : Nat) : ((List.range n).map (fun k => (w k).toNat * 2 ^ (32 * k))).sum < 2 ^ (32 * n) := by
  induction n with
  | zero => simp
  | succ n ih =>
    have hw := (w n).isLt
    have hpow : 2 ^ (32 * (n + 1)) = 2 ^ 32 * 2 ^ (32 * n) := by rw [← Nat.pow_add]; congr 1; omega
    have hmul : ((w n).toNat + 1) * 2 ^ (32 * n) ≤ 2 ^ 32 * 2 ^ (32 * n) := Nat.mul_le_mul_right _ hw
    rw [List.range_succ, List.map_append, List.sum_append, hpow]
    simp only [List.map_cons, List.map_nil, List.sum_cons, List.sum_nil, Nat.add_zero]
    rw [Nat.add_mul, Nat.one_mul] at hmul
    omega

theorem toNat_ofNat_words (w : Nat → Word) (n : Nat) :
    (BitVec.ofNat (32 * n) ((List.range n).map (fun k => (w k).toNat * 2 ^ (32 * k))).sum).toNat
      = ((List.range n).map (fun k => (w k).toNat * 2 ^ (32 * k))).sum :=
  (BitVec.toNat_ofNat _ _).trans (Nat.mod_eq_of_lt (sum_words_lt w n))

/-- One of the words put side by side. -/
theorem sum_words_get (w : Nat → Word) {j n : Nat} (h : j < n) :
    ((List.range n).map (fun k => (w k).toNat * 2 ^ (32 * k))).sum / 2 ^ (32 * j) % 2 ^ 32 = (w j).toNat := by
  induction n with
  | zero => omega
  | succ n ih =>
    have hlt := sum_words_lt w n
    rw [List.range_succ, List.map_append, List.sum_append]
    simp only [List.map_cons, List.map_nil, List.sum_cons, List.sum_nil, Nat.add_zero]
    rcases Nat.lt_succ_iff_lt_or_eq.mp h with hj | rfl
    · have hpow : 2 ^ (32 * n) = 2 ^ (32 * j) * (2 ^ 32 * 2 ^ (32 * (n - j - 1))) := by
        rw [← Nat.pow_add, ← Nat.pow_add]
        congr 1
        omega
      rw [hpow, Nat.mul_left_comm, Nat.add_mul_div_left _ _ (by positivity), Nat.mul_left_comm, Nat.add_mul_mod_self_left, ih hj]
    · rw [Nat.add_mul_div_right _ _ (by positivity), Nat.div_eq_of_lt hlt, Nat.zero_add, Nat.mod_eq_of_lt (w j).isLt]

theorem Machine.Rec.word_ofWords (w : Nat → Word) {j : Nat} (h : j < 16) : (Rec.ofWords ((List.range 16).map w)).word j = w j := by
  have hsum : ((List.range 16).map (fun k => (((List.range 16).map w).getD k 0).toNat * 2 ^ (32 * k)))
      = (List.range 16).map (fun k => (w k).toNat * 2 ^ (32 * k)) :=
    List.map_congr_left fun k hk => by simp [List.mem_range.mp hk]
  have hnum : (Rec.ofWords ((List.range 16).map w)).toNat = ((List.range 16).map (fun k => (w k).toNat * 2 ^ (32 * k))).sum := by
    rw [Rec.ofWords, hsum]
    exact toNat_ofNat_words w 16
  rw [Rec.word, Rec.get, hnum]
  simp only [sum_words_get w h, BitVec.ofNat_toNat, BitVec.setWidth_eq]

namespace Machine.Dev

/-! ### The record of a flow -/

/-- The record as it stands depends on the cache, the records listed in HBM and their fills. -/
theorem flowRec_of_store {s t : Dev} (hcache : t.flow.cache = s.flow.cache) (hrecs : t.flow.recs = s.flow.recs)
    (hfills : t.flow.fills = s.flow.fills) (g : Nat) : t.flowRec g = s.flowRec g := by
  simp only [flowRec, cacheLine, hbmRec, hcache, hrecs, hfills]

theorem cacheLine_flow {s : Dev} {g : Nat} {l : CacheLine} (h : s.cacheLine g = some l) : l.flow = g :=
  beq_iff_eq.mp (List.find?_some (p := fun l : CacheLine => l.flow == g) h)

section
variable {s t : Dev} {c : CacheLine → CacheLine} {g : Nat}

/-- Lines changed in place are found as before. -/
theorem cacheLine_map (hc : ∀ l, (c l).flow = l.flow) (h : t.flow.cache = s.flow.cache.map c) (g : Nat) :
    t.cacheLine g = (s.cacheLine g).map c := by
  have hsel : (fun l : CacheLine => l.flow == g) ∘ c = fun l => l.flow == g := by
    funext l
    simp only [Function.comp_apply, hc]
  rw [cacheLine, h, List.find?_map, hsel, cacheLine]

/-- A record stands as it did when its line keeps it, or without a line when HBM does. -/
theorem flowRec_map (hc : ∀ l, (c l).flow = l.flow) (h : t.flow.cache = s.flow.cache.map c)
    (hline : ∀ l, s.cacheLine g = some l → (c l).record = l.record) (hhbm : s.cacheLine g = none → t.hbmRec g = s.hbmRec g) :
    t.flowRec g = s.flowRec g := by
  rw [flowRec, flowRec, cacheLine_map hc h]
  cases hl : s.cacheLine g with
  | none => exact hhbm hl
  | some l => exact hline l hl

end

theorem hbmRec_setHbmRec_ne (s : Dev) (r : Rec) {f g : Nat} (h : g ≠ f) : (s.setHbmRec f r).hbmRec g = s.hbmRec g :=
  Sparse.get_put_ne _ _ _ h

theorem flowRec_setFlowRec_ne (s : Dev) (r : Rec) {f g : Nat} (h : g ≠ f) : (s.setFlowRec f r).flowRec g = s.flowRec g := by
  unfold setFlowRec
  split
  · refine flowRec_map (c := fun l => if l.flow == f then { l with record := r, dirty := true } else l) (fun l => ?_) rfl
      (fun l hl => ?_) (fun _ => rfl)
    · split <;> rfl
    · have hne : ¬ (l.flow == f) = true := by simpa [cacheLine_flow hl] using h
      rw [if_neg hne]
  · have hline : (s.setHbmRec f r).cacheLine g = s.cacheLine g := rfl
    rw [flowRec, hline, hbmRec_setHbmRec_ne s r h, flowRec]

/-! ### Words staged and committed (R182, R183) -/

/-- The word that a master has staged. -/
def stagedWord (s : Dev) (m : Master) (j : Nat) : Option Word := Sparse.get (fun _ => none) s.flow.staged (recStageKey m j)

/-- The flow whose words a master stages. -/
def stagedFlow (s : Dev) (m : Master) : Option Nat := Sparse.get (fun _ => none) s.flow.stagedFor (masterId m).toNat

section
variable {s : Dev} {m : Master} {f i w j : Nat} {v : Word}

theorem stagedWord_recUnstage (h : j < 16) : (s.recUnstage m).stagedWord m j = none := by
  have hkey : recStageKey m j / 16 = (masterId m).toNat := by simp only [recStageKey]; omega
  rw [stagedWord, recUnstage, Sparse.get_clear, if_pos (beq_iff_eq.mpr hkey)]

/-- A write to the record whose words a master stages, or to any while it stages none, keeps them. -/
theorem recOther_same (h : s.stagedFlow m = none ∨ s.stagedFlow m = some f) : s.recOther m f = s := by
  unfold stagedFlow at h
  unfold recOther
  rcases h with h | h <;> simp only [h, if_true]

/-- A write to another record discards them. -/
theorem recOther_other {g : Nat} (hg : g ≠ f) (h : s.stagedFlow m = some g) :
    s.recOther m f = ((s.recUnstage m).count (Pg.FLOW + FLOW.STAGE_DISCARD)).raise Pg.FLOW 11 := by
  unfold stagedFlow at h
  unfold recOther
  simp only [h, if_neg hg]

/-- A word staged for a flow. -/
def stageAt (s : Dev) (m : Master) (f w : Nat) (v : Word) : Dev :=
  { s with flow := { s.flow with
      staged := Sparse.put (fun _ => none) s.flow.staged (recStageKey m w) (some v)
      stagedFor := Sparse.put (fun _ => none) s.flow.stagedFor (masterId m).toNat (some f) } }

theorem recStage_eq : s.recStage m i w v = (s.recOther m (s.windowFlow i)).stageAt m (s.windowFlow i) w v := rfl

theorem stagedWord_stageAt_same : (s.stageAt m f w v).stagedWord m w = some v := by
  rw [stagedWord, stageAt, Sparse.get_put_same]

theorem stagedWord_stageAt_ne (h : j ≠ w) : (s.stageAt m f w v).stagedWord m j = s.stagedWord m j := by
  have hkey : recStageKey m j ≠ recStageKey m w := by
    simp only [recStageKey]
    omega
  rw [stagedWord, stageAt, Sparse.get_put_ne _ _ _ hkey, stagedWord]

theorem stagedFlow_stageAt : (s.stageAt m f w v).stagedFlow m = some f := by
  rw [stagedFlow, stageAt, Sparse.get_put_same]

/-- The words that a commit puts together: word 15 with it without its reserved bits, the others as staged, else as they stand. -/
def committedWord (s : Dev) (m : Master) (f : Nat) (v : Word) (k : Nat) : Word :=
  if k = 15 then v &&& ~~~(0xC0 : Word) else (s.stagedWord m k).getD ((s.flowRec f).word k)

/-- A commit reads the record from HBM when the cache does not hold it. -/
def commitRead (s : Dev) (f : Nat) : Dev := if s.resident f then s else s.recQueue f 5 (.recWrite f)

theorem flow_commitRead : (s.commitRead f).flow = s.flow := by
  unfold commitRead
  split <;> rfl

theorem recCommit_eq (h : s.stagedFlow m = none ∨ s.stagedFlow m = some (s.windowFlow i)) :
    s.recCommit m i v = ((s.commitRead (s.windowFlow i)).setFlowRec (s.windowFlow i)
      (Rec.ofWords ((List.range 16).map (s.committedWord m (s.windowFlow i) v)))).recUnstage m := by
  simp only [recCommit, recOther_same h]
  rfl

theorem flowRec_recUnstage (g : Nat) : (s.recUnstage m).flowRec g = s.flowRec g := flowRec_of_store rfl rfl rfl g

theorem word_recCommit (h : s.stagedFlow m = none ∨ s.stagedFlow m = some (s.windowFlow i)) (hj : j < 16) :
    ((s.recCommit m i v).flowRec (s.windowFlow i)).word j = s.committedWord m (s.windowFlow i) v j := by
  rw [recCommit_eq h, flowRec_recUnstage, flowRec_setFlowRec_same, Rec.word_ofWords _ hj]

theorem flowRec_recCommit_ne (h : s.stagedFlow m = none ∨ s.stagedFlow m = some (s.windowFlow i)) {g : Nat}
    (hg : g ≠ s.windowFlow i) : (s.recCommit m i v).flowRec g = s.flowRec g := by
  rw [recCommit_eq h, flowRec_recUnstage, flowRec_setFlowRec_ne _ _ hg, flowRec_of_flow flow_commitRead]

theorem stagedWord_recCommit (h : s.stagedFlow m = none ∨ s.stagedFlow m = some (s.windowFlow i)) (hj : j < 16) :
    (s.recCommit m i v).stagedWord m j = none := by
  rw [recCommit_eq h, stagedWord_recUnstage hj]

end

/-! ### Initialisation (R184) -/

/-- The flows of an initialisation. -/
def inRange (first n g : Nat) : Bool := decide (first ≤ g) && decide (g < first + n)

theorem inRange_iff {first n g : Nat} : inRange first n g = true ↔ first ≤ g ∧ g < first + n := by
  simp only [inRange, Bool.and_eq_true, decide_eq_true_eq]

section
variable {s : Dev} {first n g : Nat}

/-- The line of a resident record of the range takes the template. -/
def templated (s : Dev) (first n : Nat) (l : CacheLine) : CacheLine :=
  if inRange first n l.flow then { l with record := s.template, dirty := true } else l

theorem templated_flow (l : CacheLine) : (templated s first n l).flow = l.flow := by
  unfold templated
  split <;> rfl

/-- The fills after an initialisation: its own first, those it does not cover behind it. -/
def fillsAfter (s : Dev) (first n : Nat) : List Fill :=
  (⟨first, n, none, s.template⟩ : Fill)
    :: s.flow.fills.filter (fun x => !(decide (first ≤ x.first) && decide (x.first + x.count ≤ first + n)))

/-- A fill holds for a flow. -/
def covers (g : Nat) (x : Fill) : Bool :=
  decide (x.first ≤ g) && decide (g < x.first + x.count) && (match x.stack with | some k => g % 64 / 16 == k | none => true)

theorem fillOf_eq (fills : List Fill) (g : Nat) : fillOf fills g = (fills.find? (covers g)).elim 0 (fun x => x.value) := rfl

theorem covers_new (r : Rec) : covers g ⟨first, n, none, r⟩ = inRange first n g := Bool.and_true _

theorem range_of_covers {x : Fill} (h : covers g x = true) : x.first ≤ g ∧ g < x.first + x.count := by
  simp only [covers, Bool.and_eq_true, decide_eq_true_eq] at h
  exact h.1

theorem fillOf_inside (h : inRange first n g = true) : fillOf (s.fillsAfter first n) g = s.template := by
  rw [fillOf_eq, fillsAfter, List.find?_cons_of_pos ((covers_new _).trans h), Option.elim_some]

/-- The fills taken away cover no flow outside of the range. -/
theorem fillOf_outside (h : inRange first n g = false) : fillOf (s.fillsAfter first n) g = fillOf s.flow.fills g := by
  have hnew : ¬ covers g ⟨first, n, none, s.template⟩ = true := by rw [covers_new, h]; decide
  have hout : ¬ (first ≤ g ∧ g < first + n) := by rw [← inRange_iff, h]; decide
  rw [fillOf_eq, fillsAfter, List.find?_cons_of_neg hnew, List.find?_filter, fillOf_eq]
  congr 2
  funext x
  cases hx : covers g x with
  | false => simp
  | true =>
    have hcovers := range_of_covers hx
    have hkept : (decide (first ≤ x.first) && decide (x.first + x.count ≤ first + n)) = false := by
      rw [Bool.and_eq_false_iff, decide_eq_false_iff_not, decide_eq_false_iff_not]
      omega
    simp only [hkept, Bool.not_false, and_self, decide_true]

theorem hbmRec_initStates : (s.initStates first n).hbmRec g = if inRange first n g then s.template else s.hbmRec g := by
  have h : (s.initStates first n).hbmRec g = Sparse.get (fillOf (s.fillsAfter first n)) (Sparse.clear (inRange first n) s.flow.recs) g :=
    rfl
  rw [h, Sparse.get_clear]
  cases hin : inRange first n g with
  | true => simp only [if_true, fillOf_inside hin]
  | false => exact Sparse.get_congr_default _ (fillOf_outside hin)

theorem flowRec_initStates_inside (h : inRange first n g = true) : (s.initStates first n).flowRec g = s.template := by
  rw [flowRec, cacheLine_map (s := s) templated_flow rfl g]
  cases hl : s.cacheLine g with
  | none => simp only [Option.map_none, Option.elim_none, hbmRec_initStates, h, if_true]
  | some l =>
    have hin : inRange first n l.flow = true := by rwa [cacheLine_flow hl]
    simp only [Option.map_some, Option.elim_some, templated, hin, if_true]

theorem flowRec_initStates_outside (h : inRange first n g = false) : (s.initStates first n).flowRec g = s.flowRec g := by
  refine flowRec_map templated_flow rfl (fun l hl => ?_) (fun _ => by rw [hbmRec_initStates, h]; rfl)
  have hin : inRange first n l.flow = false := by rwa [cacheLine_flow hl]
  rw [templated, hin]
  rfl

/-- The line of a resident record of the range loses its key. -/
def keyCleared (first n : Nat) (l : CacheLine) : CacheLine := if inRange first n l.flow then { l with kvalid := false } else l

theorem keyCleared_flow (l : CacheLine) : (keyCleared first n l).flow = l.flow := by
  unfold keyCleared
  split <;> rfl

theorem keyCleared_record (l : CacheLine) : (keyCleared first n l).record = l.record := by
  unfold keyCleared
  split <;> rfl

theorem flowRec_initKeyRecs : (s.initKeyRecs first n).flowRec g = s.flowRec g :=
  flowRec_map keyCleared_flow rfl (fun l _ => keyCleared_record l) (fun _ => rfl)

theorem keyRec_initKeyRecs : (s.initKeyRecs first n).keyRec g = if inRange first n g then KeyRec.init else s.keyRec g :=
  Sparse.get_clear _ (inRange first n) _ _

end

/-! ### The cache written back (R185) -/

section
variable {s : Dev} {l : CacheLine} {g : Nat}

theorem cache_writeBack : (s.writeBack l).flow.cache = s.flow.cache := by
  unfold writeBack
  split <;> rfl

theorem hbmRec_writeBack (h : g ≠ l.flow) : (s.writeBack l).hbmRec g = s.hbmRec g := by
  unfold writeBack
  split
  · exact hbmRec_setHbmRec_ne s l.record h
  · rfl

theorem cache_writeBacks (ls : List CacheLine) : (ls.foldl writeBack s).flow.cache = s.flow.cache := by
  induction ls generalizing s with
  | nil => rfl
  | cons l ls ih => rw [List.foldl_cons, ih, cache_writeBack]

/-- Records written back leave those of the other flows in HBM. -/
theorem hbmRec_writeBacks {ls : List CacheLine} (h : ∀ l ∈ ls, g ≠ l.flow) : (ls.foldl writeBack s).hbmRec g = s.hbmRec g := by
  induction ls generalizing s with
  | nil => rfl
  | cons l ls ih =>
    rw [List.foldl_cons, ih (fun x hx => h x (List.mem_cons_of_mem _ hx)), hbmRec_writeBack (h l (List.mem_cons_self ..))]

/-- A line that HBM agrees with. -/
def cleaned (l : CacheLine) : CacheLine := { l with dirty := false }

theorem cache_cacheFlushAll : s.cacheFlushAll.flow.cache = s.flow.cache.map cleaned :=
  congrArg (List.map cleaned) (cache_writeBacks s.flow.cache)

theorem flowRec_cacheFlushAll : s.cacheFlushAll.flowRec g = s.flowRec g := by
  refine flowRec_map (c := cleaned) (fun _ => rfl) cache_cacheFlushAll (fun _ _ => rfl) (fun hnone => ?_)
  have hkept : s.cacheFlushAll.hbmRec g = (s.flow.cache.foldl writeBack s).hbmRec g := rfl
  rw [hkept, hbmRec_writeBacks]
  rintro l hl rfl
  exact absurd (beq_self_eq_true _) (List.find?_eq_none.mp hnone l hl)

end

end Machine.Dev

end Sys2Proof
end

