-- ==== Sys2Proof/Proofs/FlowRecords.lean ====
section
/-! The units that change flow records, and with them the obligation on flow records (06, R182 to R185, R208). -/

namespace Sys2Proof

open Machine

namespace Machine.Dev

/-! ### After settling -/

@[simp] theorem flowRec_settle (s : Dev) (g : Nat) : (settle s).flowRec g = s.flowRec g := flowRec_of_flow (by simp) g
@[simp] theorem keyRec_settle (s : Dev) (g : Nat) : (settle s).keyRec g = s.keyRec g := keyRec_of_flow (by simp) g
@[simp] theorem stagedWord_settle (s : Dev) (m : Master) (j : Nat) : (settle s).stagedWord m j = s.stagedWord m j := by
  simp [stagedWord]
@[simp] theorem stagedFlow_settle (s : Dev) (m : Master) : (settle s).stagedFlow m = s.stagedFlow m := by simp [stagedFlow]

theorem bit_setB_same (s : Dev) (a : Nat) (b : Bool) {i : Nat} (h : i < 32) : (s.setB a i b).bit a i = b := by
  rw [bit_def, rd_setB_same, bitOf_withBit _ _ _ h]

/-! ### `INIT_CMD` (R184) -/

section
variable {s : Dev} {m : Master} {states keys : Bool}

/-- The range of an initialisation. -/
def initFirst (s : Dev) : Nat := s.fld (Pg.FLOW + FLOW.INIT_FIRST) 0 25
def initCount (s : Dev) : Nat := s.fld (Pg.FLOW + FLOW.INIT_COUNT) 0 26

/-- An initialisation in progress. -/
abbrev Initialising (s : Dev) : Prop := s.bit (Pg.FLOW + FLOW.INIT_STATUS) 29 = true

theorem flowInit_busy (hcmd : (!states && !keys) = false) (h : s.Initialising) :
    s.flowInit m states keys = s.logErr m (Pg.FLOW + FLOW.INIT_CMD) Err.state := by
  rw [flowInit, hcmd, if_neg (by decide), if_pos h]

theorem flowInit_beyond (hcmd : (!states && !keys) = false) (hb : ¬ s.Initialising) (h : 2 ^ 25 < s.initFirst + s.initCount) :
    s.flowInit m states keys = s.logErr m (Pg.FLOW + FLOW.INIT_CMD) Err.config := by
  have hbeyond : 33554432 < s.fld (Pg.FLOW + FLOW.INIT_FIRST) 0 25 + s.fld (Pg.FLOW + FLOW.INIT_COUNT) 0 26 := h
  rw [flowInit, hcmd, if_neg (by decide), if_neg hb]
  exact if_pos hbeyond

/-- `INIT_STATUS` shows an initialisation of n flows in progress. -/
def initShown (s : Dev) (n : Nat) : Dev := s.wr (Pg.FLOW + FLOW.INIT_STATUS) (BitVec.ofNat 32 (2 ^ 29 + n))

theorem flowInit_accepted (hcmd : (!states && !keys) = false) (hb : ¬ s.Initialising) (h : s.initFirst + s.initCount ≤ 2 ^ 25)
    (hn : s.initCount ≠ 0) :
    s.flowInit m states keys
      = (let t := if states then s.initStates s.initFirst s.initCount else s
         if keys then t.initKeyRecs s.initFirst s.initCount else t).initShown s.initCount := by
  have hwithin : ¬ 33554432 < s.fld (Pg.FLOW + FLOW.INIT_FIRST) 0 25 + s.fld (Pg.FLOW + FLOW.INIT_COUNT) 0 26 := Nat.not_lt.mpr h
  have hcount : ¬ s.fld (Pg.FLOW + FLOW.INIT_COUNT) 0 26 = 0 := hn
  rw [flowInit, hcmd, if_neg (by decide), if_neg hb]
  exact (if_neg hwithin).trans (if_neg hcount)

theorem rd_initShown {n : Nat} (h : n < 2 ^ 26) : ((s.initShown n).rd (Pg.FLOW + FLOW.INIT_STATUS)).toNat = 2 ^ 29 + n := by
  rw [initShown, rd_wr_same, BitVec.toNat_ofNat]
  omega

end

/-! ### A visit of the sweep (R208) -/

section
variable {s : Dev}

/-- A sweep starts at flow 0. -/
def sweepStarted (s : Dev) : Dev := if s.flow.sweep = 0 then { s with flow := { s.flow with sweepStart := s.mono } } else s

/-- A record that the cache does not hold is read for the visit. -/
def sweepRead (s : Dev) (f : Nat) : Dev := if s.resident f then s else s.recQueue f 5 (.sweepRead f)

/-- The sweep goes on to the next flow, or shows its end. -/
def sweepNext (s : Dev) (f : Nat) : Dev :=
  let st := Pg.FEXP + FEXP.SWEEP_STATUS
  let next := (f + 1) % 33554432
  let t := { s with flow := { s.flow with sweep := next } }
  if next = 0 then
    ((t.wr st 0).wr (Pg.FEXP + FEXP.SWEEP_TIME) (BitVec.ofNat 32 ((t.mono - t.flow.sweepStart) / 1000000))).raise Pg.FEXP 8
  else t.wr st (BitVec.ofNat 32 (2 ^ 31 + next))

theorem flowRec_sweepStarted (g : Nat) : s.sweepStarted.flowRec g = s.flowRec g := by
  unfold sweepStarted
  split
  · exact flowRec_of_store rfl rfl rfl g
  · rfl

theorem sweepStarted_frame : Frame [.flow] (fun _ => False) s s.sweepStarted := Frame.ite (Frame.setFlow _ (by decide)) (Frame.refl _)

theorem flow_sweepRead (f : Nat) : (s.sweepRead f).flow = s.flow := by
  unfold sweepRead
  split <;> rfl

theorem sweepRead_frame (f : Nat) : Frame [.buf] (fun _ => False) s (s.sweepRead f) :=
  Frame.ite (Frame.refl _) (Frame.setBuf _ (by decide))

/-- A visit that sends no record and finds none due for a refresh moves the sweep on and changes no record. -/
theorem sweepOne_quiet (hperiod : s.fld (Pg.FEXP + FEXP.SWEEP_PERIOD) 0 8 = 0)
    (hdue : sinceRefill s.now40 (s.flowRec s.flow.sweep) < 2 ^ 38) :
    s.sweepOne = (s.sweepStarted.sweepRead s.flow.sweep).sweepNext s.flow.sweep := by
  have hframe : Frame [.flow, .buf] (fun _ => False) s (s.sweepStarted.sweepRead s.flow.sweep) :=
    (sweepStarted_frame.mono (by decide) fun _ => id).trans ((sweepRead_frame _).mono (by decide) fun _ => id)
  generalize ht : s.sweepStarted.sweepRead s.flow.sweep = t at hframe ⊢
  have hrec : t.flowRec s.flow.sweep = s.flowRec s.flow.sweep := by
    rw [← ht, flowRec_of_flow (flow_sweepRead _), flowRec_sweepStarted]
  have hnow : t.now40 = s.now40 := by
    have htime : t.time = s.time := hframe.2 .time (by decide)
    rw [now40, timeBase, htime, now40, timeBase]
  have hquiet : ¬ 2 ^ 38 ≤ sinceRefill t.now40 (t.flowRec s.flow.sweep) := by
    rw [hrec, hnow]
    exact Nat.not_le.mpr hdue
  have hoff : t.fld (Pg.FEXP + FEXP.SWEEP_PERIOD) 0 8 = 0 := by
    rw [fld, hframe.1 _ id]
    exact hperiod
  have hone : s.sweepOne = (let t := s.sweepStarted.sweepRead s.flow.sweep
      let dt := sinceRefill t.now40 (t.flowRec s.flow.sweep)
      let t := if 2 ^ 38 ≤ dt then t.refresh s.flow.sweep dt else t
      (if t.fld (Pg.FEXP + FEXP.SWEEP_PERIOD) 0 8 = 0 then t else t.exportVisit s.flow.sweep).sweepNext s.flow.sweep) := rfl
  rw [hone]
  simp only [ht, if_neg hquiet, hoff, if_true]

theorem flow_sweepNext (s : Dev) (f : Nat) : (s.sweepNext f).flow = { s.flow with sweep := (f + 1) % 33554432 } := by
  unfold sweepNext
  extract_lets
  split <;> rfl

theorem flowRec_sweepNext (f g : Nat) : (s.sweepNext f).flowRec g = s.flowRec g := by
  have h := s.flow_sweepNext f
  exact flowRec_of_store (by rw [h]) (by rw [h]) (by rw [h]) g

theorem sweepNext_status {f : Nat} (h : f + 1 < 2 ^ 25) :
    ((s.sweepNext f).rd (Pg.FEXP + FEXP.SWEEP_STATUS)).toNat = 2 ^ 31 + (f + 1) := by
  have hnext : (f + 1) % 33554432 = f + 1 := Nat.mod_eq_of_lt h
  unfold sweepNext
  extract_lets st next t
  rw [if_neg (by omega), rd_wr_same, BitVec.toNat_ofNat]
  omega

theorem sweepNext_end {f : Nat} (h : f + 1 = 2 ^ 25) : (s.sweepNext f).bit (Pg.FEXP + HDR.INT_STATUS) 8 = true := by
  unfold sweepNext
  extract_lets st next t
  rw [if_pos (by omega)]
  exact bit_raise_same _ _ (by decide)

end

end Machine.Dev

/-! ### The commands -/

section
variable {s : State} {m : Master} {i : Fin 8192} {w : Fin 15} {v : Word}

theorem gives_recordWordStage (ha : AdmitsBulk s m 0x070)
    (h : s.d.stagedFlow m = none ∨ s.d.stagedFlow m = some (s.d.windowFlow i)) :
    Gives (.recordWordStage m i w v) s (fun t => t.stagedWord m w = some v
      ∧ (∀ j, j < 16 → j ≠ w.val → t.stagedWord m j = s.d.stagedWord m j) ∧ t.stagedFlow m = some (s.d.windowFlow i)
      ∧ (∀ g, t.flowRec g = s.d.flowRec g) ∧ Frame [.flow] (fun _ => False) s.d t) := by
  refine gives_bulkAccess (Eq.refl (execRecordWordStage m i w v s)) ha ?_
  rw [Dev.recStage_eq, Dev.recOther_same h]
  simp only [Dev.stagedWord_settle, Dev.stagedFlow_settle, Dev.flowRec_settle]
  exact ⟨Dev.stagedWord_stageAt_same, fun j _ => Dev.stagedWord_stageAt_ne, Dev.stagedFlow_stageAt,
    Dev.flowRec_of_store rfl rfl rfl, (Frame.setFlow _ (by decide)).settle⟩

theorem gives_recordWordStage_other {g : Nat} (ha : AdmitsBulk s m 0x070) (hg : g ≠ s.d.windowFlow i)
    (h : s.d.stagedFlow m = some g) :
    Gives (.recordWordStage m i w v) s (fun t => t.stagedWord m w = some v
      ∧ (∀ j, j < 16 → j ≠ w.val → t.stagedWord m j = none) ∧ Counted (Pg.FLOW + FLOW.STAGE_DISCARD) s.d t) := by
  refine gives_bulkAccess (Eq.refl (execRecordWordStage m i w v s)) ha ?_
  rw [Dev.recStage_eq, Dev.recOther_other hg h]
  simp only [Dev.stagedWord_settle]
  refine ⟨Dev.stagedWord_stageAt_same, fun j hj hne => (Dev.stagedWord_stageAt_ne hne).trans (Dev.stagedWord_recUnstage hj),
    Dev.counted_settle_of ?_⟩
  exact (Dev.rd_raise_ne _ _ _ (by decide)).trans (Dev.rd_count_same _ _ _)

theorem gives_recordWordCommit (ha : AdmitsBulk s m 0x070)
    (h : s.d.stagedFlow m = none ∨ s.d.stagedFlow m = some (s.d.windowFlow i)) :
    Gives (.recordWordCommit m i v) s (fun t =>
      (∀ j, j < 15 → (t.flowRec (s.d.windowFlow i)).word j = (s.d.stagedWord m j).getD ((s.d.flowRec (s.d.windowFlow i)).word j))
      ∧ (t.flowRec (s.d.windowFlow i)).word 15 = v &&& 0xFFFFFF3F ∧ (∀ g, g ≠ s.d.windowFlow i → t.flowRec g = s.d.flowRec g)
      ∧ ∀ j, j < 16 → t.stagedWord m j = none) := by
  refine gives_bulkAccess (Eq.refl (execRecordWordCommit m i v s)) ha ?_
  simp only [Dev.stagedWord_settle, Dev.flowRec_settle]
  refine ⟨fun j hj => ?_, Dev.word_recCommit h (by decide), fun g => Dev.flowRec_recCommit_ne h, fun j => Dev.stagedWord_recCommit h⟩
  rw [Dev.word_recCommit h (by omega), Dev.committedWord, if_neg (by omega)]

theorem gives_initState (ha : Admits s m (Pg.FLOW + FLOW.INIT_CMD)) (hfit : s.d.initFirst + s.d.initCount ≤ 2 ^ 25)
    (hb : ¬ s.d.Initialising) (hn : s.d.initCount ≠ 0) :
    Gives (.initState m) s (fun t => (t.rd (Pg.FLOW + FLOW.INIT_STATUS)).toNat = 2 ^ 29 + s.d.initCount
      ∧ ∀ g, t.flowRec g = if Dev.inRange s.d.initFirst s.d.initCount g then s.d.template else s.d.flowRec g) := by
  refine gives_access (Eq.refl (execInitState m s)) ha ?_
  rw [Dev.flowInit_accepted rfl hb hfit hn]
  simp only [settle_rd, Dev.flowRec_settle]
  refine ⟨Dev.rd_initShown (Dev.fieldOf_lt _ _ _), fun g => (Dev.flowRec_of_store rfl rfl rfl g).trans ?_⟩
  cases hin : Dev.inRange s.d.initFirst s.d.initCount g with
  | true => exact Dev.flowRec_initStates_inside hin
  | false => exact Dev.flowRec_initStates_outside hin

theorem gives_initKeys (ha : Admits s m (Pg.FLOW + FLOW.INIT_CMD)) (hfit : s.d.initFirst + s.d.initCount ≤ 2 ^ 25)
    (hb : ¬ s.d.Initialising) (hn : s.d.initCount ≠ 0) :
    Gives (.initKeys m) s (fun t => (t.rd (Pg.FLOW + FLOW.INIT_STATUS)).toNat = 2 ^ 29 + s.d.initCount
      ∧ (∀ g, t.keyRec g = if Dev.inRange s.d.initFirst s.d.initCount g then KeyRec.init else s.d.keyRec g)
      ∧ ∀ g, t.flowRec g = s.d.flowRec g) := by
  refine gives_access (Eq.refl (execInitKeys m s)) ha ?_
  rw [Dev.flowInit_accepted rfl hb hfit hn]
  simp only [settle_rd, Dev.flowRec_settle, Dev.keyRec_settle]
  exact ⟨Dev.rd_initShown (Dev.fieldOf_lt _ _ _), fun _ => Dev.keyRec_initKeyRecs,
    fun g => (Dev.flowRec_of_store rfl rfl rfl g).trans Dev.flowRec_initKeyRecs⟩

theorem gives_initDone (h : s.d.Initialising) :
    Gives .initDone s (fun t => t.bit (Pg.FLOW + FLOW.INIT_STATUS) 31 = true ∧ t.bit (Pg.FLOW + FLOW.INIT_STATUS) 29 = false
      ∧ t.bit (Pg.FLOW + HDR.INT_STATUS) 8 = true) := by
  refine gives_run (Eq.refl (execInitDone s)) ?_
  simp only [if_pos h, Dev.bit_settle]
  have hn : s.d.fld (Pg.FLOW + FLOW.INIT_STATUS) 0 26 < 2 ^ 26 := Dev.fieldOf_lt _ _ _
  refine ⟨?_, ?_, Dev.bit_raise_same _ _ (by decide)⟩
  · rw [Dev.bit, Dev.rd_raise_ne _ _ _ (by decide), Dev.rd_wr_same, bitOf, BitVec.getLsbD_ofNat, Nat.testBit_two_pow_add_eq,
      Nat.testBit_lt_two_pow (by omega)]
    rfl
  · rw [Dev.bit, Dev.rd_raise_ne _ _ _ (by decide), Dev.rd_wr_same, bitOf, BitVec.getLsbD_ofNat,
      Nat.testBit_two_pow_add_gt (by decide), Nat.testBit_lt_two_pow (by omega), Bool.and_false]

theorem gives_cacheFlush (ha : Admits s m (Pg.FLOW + FLOW.CACHE_CMD)) :
    Gives (.cacheFlush m) s (fun t => t.bit (Pg.FLOW + FLOW.CACHE_STATUS) 31 = true
      ∧ (∀ l ∈ t.flow.cache, l.dirty = false) ∧ ∀ g, t.flowRec g = s.d.flowRec g) := by
  refine gives_access (Eq.refl (execCacheFlush m s)) ha ⟨?_, fun l hl => ?_, fun g => ?_⟩
  · rw [Dev.bit_settle]
    exact Dev.bit_setB_same _ _ _ (by decide)
  · have hcache : (settle s.d.cacheFlush).flow.cache = s.d.flow.cache.map Dev.cleaned := by
      rw [(settle_frame s.d.cacheFlush).2.2.2.2.2.2.1]
      exact Dev.cache_cacheFlushAll
    rw [hcache] at hl
    obtain ⟨x, -, rfl⟩ := List.mem_map.mp hl
    rfl
  · rw [Dev.flowRec_settle]
    exact (Dev.flowRec_of_store rfl rfl rfl g).trans Dev.flowRec_cacheFlushAll

theorem gives_cacheFlushDone (h : s.d.bit (Pg.FLOW + FLOW.CACHE_STATUS) 31 = true) :
    Gives .cacheFlushDone s (fun t => t.bit (Pg.FLOW + FLOW.CACHE_STATUS) 31 = false ∧ t.bit (Pg.FLOW + HDR.INT_STATUS) 9 = true) := by
  refine gives_run (Eq.refl (execCacheFlushDone s)) ?_
  simp only [if_pos h, Dev.bit_settle]
  refine ⟨?_, Dev.bit_raise_same _ _ (by decide)⟩
  rw [Dev.bit, Dev.rd_raise_ne _ _ _ (by decide)]
  exact Dev.bit_setB_same _ _ _ (by decide)

theorem gives_sweepVisit (hperiod : s.d.fld (Pg.FEXP + FEXP.SWEEP_PERIOD) 0 8 = 0)
    (hdue : sinceRefill s.d.now40 (s.d.flowRec s.d.flow.sweep) < 2 ^ 38) :
    Gives .sweepVisit s (fun t => t.flow.sweep = (s.d.flow.sweep + 1) % 2 ^ 25 ∧ (∀ g, t.flowRec g = s.d.flowRec g)
      ∧ (s.d.flow.sweep + 1 < 2 ^ 25 → (t.rd (Pg.FEXP + FEXP.SWEEP_STATUS)).toNat = 2 ^ 31 + (s.d.flow.sweep + 1))
      ∧ (s.d.flow.sweep + 1 = 2 ^ 25 → t.bit (Pg.FEXP + HDR.INT_STATUS) 8 = true)) := by
  refine gives_run (Eq.refl (execSweepVisit s)) ?_
  rw [Dev.sweepOne_quiet hperiod hdue]
  simp only [settle_frame, settle_rd, Dev.bit_settle, Dev.flowRec_settle, Dev.flow_sweepNext]
  refine ⟨rfl, fun g => ?_, Dev.sweepNext_status, Dev.sweepNext_end⟩
  rw [Dev.flowRec_sweepNext, Dev.flowRec_of_flow (Dev.flow_sweepRead _), Dev.flowRec_sweepStarted]

end

/-- Settles O22: a word at a time through the staging copy, a range through the fills, the cache line by line. -/
theorem flowRecords : Obligations.FlowRecords := by
  unfold Obligations.FlowRecords
  intro s m i w v f id staged first n st inside
  refine ⟨fun ha => ⟨fun h => ⟨gives_recordWordStage ha h, gives_recordWordCommit ha h⟩, fun g => gives_recordWordStage_other ha⟩,
    fun ha => ⟨fun hfit hb hn => ?_, fun hbeyond hb => ?_, fun hb => ?_⟩, gives_initDone, gives_cacheFlush, gives_cacheFlushDone,
    fun hperiod hdue _ => gives_sweepVisit hperiod hdue⟩
  · have hidle : ¬ s.d.Initialising := by rw [Dev.Initialising, hb]; decide
    refine ⟨(gives_initState ha hfit hidle hn).mono fun t ⟨hshown, hrecs⟩ => ⟨hshown, fun g hg => ?_, fun g hg => ?_⟩,
      (gives_initKeys ha hfit hidle hn).mono fun t ⟨hshown, hkeys, hrecs⟩ => ⟨hshown, fun g hg => ?_, fun g hg => ?_, hrecs⟩⟩
    · exact (hrecs g).trans (if_pos (Dev.inRange_iff.mpr hg))
    · exact (hrecs g).trans (if_neg (mt Dev.inRange_iff.mp hg))
    · exact (hkeys g).trans (if_pos (Dev.inRange_iff.mpr hg))
    · exact (hkeys g).trans (if_neg (mt Dev.inRange_iff.mp hg))
  · have hidle : ¬ s.d.Initialising := by rw [Dev.Initialising, hb]; decide
    exact ⟨gives_rejected (Eq.refl (execInitState m s)) ha (by decide) (Dev.flowInit_beyond rfl hidle hbeyond),
      gives_rejected (Eq.refl (execInitKeys m s)) ha (by decide) (Dev.flowInit_beyond rfl hidle hbeyond)⟩
  · exact gives_rejected (Eq.refl (execInitState m s)) ha (by decide) (Dev.flowInit_busy rfl hb)

end Sys2Proof
end

