-- ==== Sys2Proof/Proofs/Fallback.lean ====
section
/-! Fallback of a lane, its reports on the Lantern channel, and the snapshot of the admission counters; with them the obligation on
them (06, R202, R205 to R207; 10, R310). -/

namespace Sys2Proof

open Machine

/-! ### The pages of fallback -/

/-- The pages of the Lantern channels. -/
def LanternPage (a : Nat) : Prop := ∃ k : Lane, a / 0x1000 = Pg.LANTERN k / 0x1000

theorem OnTypes.lanternPage {a : Nat} (h : OnTypes [.lantern] a) : LanternPage a := by
  obtain ⟨r, hr, ht⟩ := h
  have hrow : ∀ r ∈ pageIndex, r.type ∈ [PageType.lantern] → r.first = 0x090 ∧ r.count = 16 := by decide
  obtain ⟨hfirst, hcount⟩ := hrow r (List.mem_of_find?_eq_some hr) ht
  have hin := List.find?_some hr
  simp only [Bool.and_eq_true, decide_eq_true_eq, hfirst, hcount] at hin
  refine ⟨⟨a / 0x1000 - 0x090, by omega⟩, ?_⟩
  simp only [Pg.LANTERN]
  omega

theorem not_lanternPage_admit {i off : Nat} (hi : i < 4) (ho : off < 0x1000) : ¬ LanternPage (Pg.ADMIT i + off) := by
  rintro ⟨k, hk⟩
  simp only [Pg.ADMIT, Pg.LANTERN] at hk
  omega

namespace Machine.Dev

/-! ### A fault of any class in the log -/

/-- A fault logged writes on the page of the device alone. -/
theorem rd_logFault_page {c : Nat} (hc : c < 32) (s : Dev) (i : Nat) (p : Option Nat) (b : Bool) (u o : Nat) {a : Nat}
    (ha : 0x1000 ≤ a) : (s.logFault c i p b u o).rd a = s.rd a := by
  have hcnt : a ≠ faultCnt c := by simp only [faultCnt, Pg.DEVICE]; omega
  have hopen : (s.openFault c i p b u).rd a = s.rd a := by
    unfold openFault
    extract_lets t r
    have ht : t.rd a = s.rd a := rd_count_ne _ _ _ hcnt
    split
    · exact ht
    · split
      · rw [rd_raise_ne _ _ _ (by simp; omega), rd_count_ne _ _ _ (by simp; omega), ht]
      · exact ht
  have hclose : Frame [.log] (· < 0x1000) (s.openFault c i p b u) (s.logFault c i p b u o) :=
    Frame.closeFault _ _ _ _ (by decide) fun _ h => h.lt_of_device
  exact (hclose.1 a (Nat.not_lt.mpr ha)).trans hopen

/-! ### The fallback bits of a lane -/

section
variable {s t : Dev} {n k : Nat}

theorem fbBit_congr (h : t.rd (Pg.ADMIT (n / 4) + ADMIT.FB_STATUS) = s.rd (Pg.ADMIT (n / 4) + ADMIT.FB_STATUS)) :
    t.fbBit n k = s.fbBit n k := by
  rw [fbBit, bit, h, fbBit, bit]

@[simp] theorem fbBit_settle : (settle s).fbBit n k = s.fbBit n k := fbBit_congr (settle_rd _ _)

theorem fbBit_setFb_same (hk : k < 3) (b : Bool) : (s.setFb n k b).fbBit n k = b := bit_setB_same _ _ _ (by omega)

theorem fbBit_setFb_ne {j : Nat} (h : j ≠ k) (b : Bool) : (s.setFb n k b).fbBit n j = s.fbBit n j := by
  rw [fbBit, bit_def, setFb, rd_setB_same, bitOf_withBit_ne _ _ _ _ (by omega), fbBit, bit]

end

/-! ### A lane turned (R205, R310) -/

section
variable {s : Dev} {n : Nat}

/-- FAULT frames of a port change its lanes' Lantern queues and pages. -/
theorem ltPortFault_frame {p : Nat} (hp : p < 16) (code : Nat) (on : Bool) : Frame [.lt] LanternPage s (s.ltPortFault p code on) :=
  Frame.foldl_mem fun _ _ hn => Frame.ltFault (lpLanes_lt hp hn) _ _ (by decide) fun _ h => h.lanternPage

theorem fbTurn_after_setFb (hn : n < 16) (on : Bool) : Frame [.lt] LanternPage (s.setFb n 0 on) (s.fbTurn n on) :=
  Frame.ite (Frame.refl _) (ltPortFault_frame (linePort_lt _ hn) _ _)

/-- Of the admission pages a turn writes the lane's bit alone. -/
theorem rd_fbTurn (hn : n < 16) (on : Bool) {i off : Nat} (hi : i < 4) (ho : off < 0x1000) :
    (s.fbTurn n on).rd (Pg.ADMIT i + off) = (s.setFb n 0 on).rd (Pg.ADMIT i + off) :=
  (fbTurn_after_setFb hn on).1 _ (not_lanternPage_admit hi ho)

theorem rd_fbTurn_ne (hn : n < 16) (on : Bool) {off : Nat} (ho : off < 0x1000) (hne : off ≠ ADMIT.FB_STATUS) :
    (s.fbTurn n on).rd (Pg.ADMIT (n / 4) + off) = s.rd (Pg.ADMIT (n / 4) + off) := by
  rw [rd_fbTurn hn on (by omega) ho, setFb, rd_setB_ne _ _ _ _ (by omega)]

theorem fbBit_fbTurn (hn : n < 16) (on : Bool) (k : Nat) : (s.fbTurn n on).fbBit n k = (s.setFb n 0 on).fbBit n k :=
  fbBit_congr (rd_fbTurn hn on (by omega) (by decide))

end

/-! ### The end of a window -/

section
variable (s : Dev) (n : Nat)

/-- The limits of a slice's lanes and the count of a lane's window. -/
def fbEnterLimit : Nat := s.fld (Pg.ADMIT (n / 4) + ADMIT.FB_ENTER) 0 16
def fbExitLimit : Nat := s.fld (Pg.ADMIT (n / 4) + ADMIT.FB_EXIT) 0 16
def fbHold : Nat := s.fld (Pg.ADMIT (n / 4) + ADMIT.FB_HOLD) 0 8
def badPackets : Nat := s.fld (adBase n + ADMIT.FB_WIN) 0 16
def goodWindows : Nat := s.fld (adBase n + ADMIT.FB_WIN) 16 16

/-- Fallback windows run on the slice of a lane. -/
def FbRuns : Prop := s.fld (Pg.ADMIT (n / 4) + ADMIT.FB_WINDOW) 0 16 ≠ 0

/-- The window of a lane starts anew with a number of good windows behind it. -/
def fbRestart (good : Nat) : Dev := s.wr (adBase n + ADMIT.FB_WIN) (BitVec.ofNat 32 (good * 2 ^ 16))

/-- The owner program is asked for a turn. -/
def fbAsk : Dev := (s.setFb n 2 true).raise (Pg.ADMIT (n / 4)) (16 + n % 4)

/-- Fallback entered by the hardware, before the fault is logged. -/
def fbEntered : Dev := (((s.fbRestart n 0).fbTurn n true).count (adBase n + ADMIT.FB_EVENTS)).raise (Pg.ADMIT (n / 4)) (8 + n % 4)

/-- Fallback left by the hardware. -/
def fbLeft (good : Nat) : Dev :=
  (((s.fbRestart n good).fbTurn n false).wr (adBase n + ADMIT.FB_WIN) 0).raise (Pg.ADMIT (n / 4)) (12 + n % 4)

variable {s n}

/-- The counters of a lane lie behind the registers of its page. -/
theorem adBase_add_ne {off k : Nat} (h : off < k) : Pg.ADMIT (n / 4) + off ≠ adBase n + k := by
  simp only [adBase]
  omega

theorem fbBit_fbRestart {good k : Nat} : (s.fbRestart n good).fbBit n k = s.fbBit n k :=
  fbBit_congr (rd_wr_ne _ _ _ (adBase_add_ne (by decide)))

theorem fbWindow_below (hr : s.FbRuns n) (h : s.fbBit n 0 = false) (hb : s.fbEnterLimit n = 0 ∨ s.badPackets n < s.fbEnterLimit n) :
    s.fbWindow n = s.fbRestart n 0 := by
  unfold FbRuns at hr
  unfold fbEnterLimit badPackets at hb
  simp only [fbWindow, if_neg hr, h, Bool.not_false, if_true, if_pos hb]
  rfl

theorem fbWindow_asks (hr : s.FbRuns n) (h : s.fbBit n 0 = false) (he : s.fbEnterLimit n ≠ 0) (hb : s.fbEnterLimit n ≤ s.badPackets n)
    (ha : s.assisted (Pg.ADMIT (n / 4)) = true) : s.fbWindow n = (s.fbRestart n 0).fbAsk n := by
  have hreached : ¬ (s.fbEnterLimit n = 0 ∨ s.badPackets n < s.fbEnterLimit n) := by omega
  unfold FbRuns at hr
  unfold fbEnterLimit badPackets at hreached
  simp only [fbWindow, if_neg hr, h, Bool.not_false, if_true, if_neg hreached, ha]
  rfl

theorem fbWindow_enters (hr : s.FbRuns n) (h : s.fbBit n 0 = false) (he : s.fbEnterLimit n ≠ 0) (hb : s.fbEnterLimit n ≤ s.badPackets n)
    (ha : s.assisted (Pg.ADMIT (n / 4)) = false) : s.fbWindow n
      = (s.fbEntered n).logFault 16 (islandOf (0x072 + n / 4)) (some (s.linePort n)) false n 0 := by
  have hreached : ¬ (s.fbEnterLimit n = 0 ∨ s.badPackets n < s.fbEnterLimit n) := by omega
  unfold FbRuns at hr
  unfold fbEnterLimit badPackets at hreached
  simp only [fbWindow, if_neg hr, h, Bool.not_false, if_true, if_neg hreached, ha, Bool.false_eq_true, if_false]
  rfl

/-- The good windows in a row that a lane in fallback has at the end of a window. -/
def fbRow (s : Dev) (n : Nat) : Nat := if s.badPackets n < s.fbExitLimit n then min 0xFFFF (s.goodWindows n + 1) else 0

theorem fbWindow_stays (hr : s.FbRuns n) (h : s.fbBit n 0 = true) (hs : s.fbExitLimit n = 0 ∨ s.fbRow n < s.fbHold n) :
    s.fbWindow n = s.fbRestart n (s.fbRow n) := by
  unfold FbRuns at hr
  unfold fbRow fbExitLimit badPackets goodWindows fbHold at hs
  simp only [fbWindow, if_neg hr, h, Bool.not_true, Bool.false_eq_true, if_false, if_pos hs]
  rfl

theorem fbWindow_leaves (hr : s.FbRuns n) (h : s.fbBit n 0 = true) (hf : s.fbBit n 1 = false) (he : s.fbExitLimit n ≠ 0)
    (hs : s.fbHold n ≤ s.fbRow n) (ha : s.assisted (Pg.ADMIT (n / 4)) = false) : s.fbWindow n = s.fbLeft n (s.fbRow n) := by
  have hreached : ¬ (s.fbExitLimit n = 0 ∨ s.fbRow n < s.fbHold n) := by omega
  have hforced : (s.fbRestart n (s.fbRow n)).fbBit n 1 = false := fbBit_fbRestart.trans hf
  unfold FbRuns at hr
  unfold fbRow fbExitLimit badPackets goodWindows fbHold at hreached
  unfold fbRestart fbRow fbExitLimit badPackets goodWindows at hforced
  simp only [fbWindow, if_neg hr, h, Bool.not_true, Bool.false_eq_true, if_false, if_neg hreached, ha, hforced]
  rfl

/-! ### What a turn leaves -/

section
variable (hn : n < 16)
include hn

/-- A turn keeps the counters of the lane. -/
theorem rd_fbTurn_counter (on : Bool) {k : Nat} (hlo : 0x100 ≤ k) (hhi : k < 0x200) :
    (s.fbTurn n on).rd (adBase n + k) = s.rd (adBase n + k) := by
  have hoff : adBase n + k = Pg.ADMIT (n / 4) + (0x80 * (n % 4) + k) := by simp only [adBase]; omega
  rw [hoff, rd_fbTurn_ne hn on (by omega) (by simp only [ADMIT.FB_STATUS]; omega)]

theorem fbBit_fbEntered : (s.fbEntered n).fbBit n 0 = true := by
  have hrd : (s.fbEntered n).rd (Pg.ADMIT (n / 4) + ADMIT.FB_STATUS)
      = ((s.fbRestart n 0).fbTurn n true).rd (Pg.ADMIT (n / 4) + ADMIT.FB_STATUS) := by
    rw [fbEntered, rd_raise_ne _ _ _ (by simp), rd_count_ne _ _ _ (adBase_add_ne (by decide))]
  rw [fbBit_congr hrd, fbBit_fbTurn hn, fbBit_setFb_same (by decide)]

theorem counted_fbEntered : Counted (adBase n + ADMIT.FB_EVENTS) s (s.fbEntered n) := by
  rw [Counted, fbEntered, rd_raise_ne _ _ _ (adBase_add_ne (by decide)).symm, rd_count_same,
    rd_fbTurn_counter hn _ (by decide) (by decide), fbRestart, rd_wr_ne _ _ _ (by simp)]
  rfl

theorem rd_fbEntered_window : (s.fbEntered n).rd (adBase n + ADMIT.FB_WIN) = 0 := by
  rw [fbEntered, rd_raise_ne _ _ _ (adBase_add_ne (by decide)).symm, rd_count_ne _ _ _ (by simp),
    rd_fbTurn_counter hn _ (by decide) (by decide), fbRestart, rd_wr_same]
  rfl

theorem fbBit_fbLeft (good : Nat) : (s.fbLeft n good).fbBit n 0 = false := by
  have hrd : (s.fbLeft n good).rd (Pg.ADMIT (n / 4) + ADMIT.FB_STATUS)
      = ((s.fbRestart n good).fbTurn n false).rd (Pg.ADMIT (n / 4) + ADMIT.FB_STATUS) := by
    rw [fbLeft, rd_raise_ne _ _ _ (by simp), rd_wr_ne _ _ _ (adBase_add_ne (by decide))]
  rw [fbBit_congr hrd, fbBit_fbTurn hn, fbBit_setFb_same (by decide)]

end

theorem fbBit_fbAsk {k : Nat} : (s.fbAsk n).fbBit n k = (s.setFb n 2 true).fbBit n k :=
  fbBit_congr (rd_raise_ne _ _ _ (by simp))

/-! ### The commands (R207) -/

/-- The pages that fallback of a lane writes: its slice's admission page and those of the Lantern channels. -/
def FbPages (n a : Nat) : Prop := a / 0x1000 = Pg.ADMIT (n / 4) / 0x1000 ∨ LanternPage a

theorem fbPages_admit {off : Nat} (h : off < 0x1000) : FbPages n (Pg.ADMIT (n / 4) + off) := by
  refine .inl ?_
  simp only [Pg.ADMIT]
  omega

theorem fbPages_counter {k : Nat} (h : k < 0x200) : FbPages n (adBase n + k) := by
  rw [adBase, Nat.add_assoc]
  exact fbPages_admit (by omega)

theorem setFb_frame (k : Nat) (b : Bool) : Frame [.lt] (FbPages n) s (s.setFb n k b) := Frame.setB _ _ (fbPages_admit (by decide))

theorem fbTurn_frame (hn : n < 16) (on : Bool) : Frame [.lt] (FbPages n) s (s.fbTurn n on) :=
  (setFb_frame 0 on).trans ((fbTurn_after_setFb hn on).mono (fun _ => id) fun _ => .inr)

/-- Fallback that was not active is counted and its good windows start anew. -/
def fbCounted (s : Dev) (n : Nat) : Dev :=
  if s.fbBit n 0 then s else (s.count (adBase n + ADMIT.FB_EVENTS)).setF (adBase n + ADMIT.FB_WIN) 16 16 0

theorem fbEnter_eq : s.fbEnter n = (((s.fbCounted n).fbTurn n true).setFb n 1 true).setFb n 2 false := rfl

theorem fbCounted_frame : Frame [.lt] (FbPages n) s (s.fbCounted n) :=
  Frame.ite (Frame.refl _) ((Frame.count _ (fbPages_counter (by decide))).trans (Frame.setF _ _ _ (fbPages_counter (by decide))))

theorem rd_fbCounted : (s.fbCounted n).rd (adBase n + ADMIT.FB_EVENTS)
    = s.rd (adBase n + ADMIT.FB_EVENTS) + (if s.fbBit n 0 then 0 else 1) := by
  unfold fbCounted
  split
  · exact (BitVec.add_zero _).symm
  · exact (rd_setF_ne _ _ _ _ _ (by simp)).trans (rd_count_same _ _ _)

section
variable (hn : n < 16)
include hn

theorem fbEnter_frame : Frame [.lt] (FbPages n) s (s.fbEnter n) :=
  ((fbCounted_frame.trans (fbTurn_frame hn true)).trans (setFb_frame 1 true)).trans (setFb_frame 2 false)

theorem rd_fbEnter : (s.fbEnter n).rd (adBase n + ADMIT.FB_EVENTS)
    = s.rd (adBase n + ADMIT.FB_EVENTS) + (if s.fbBit n 0 then 0 else 1) := by
  have hne : adBase n + ADMIT.FB_EVENTS ≠ Pg.ADMIT (n / 4) + ADMIT.FB_STATUS := (adBase_add_ne (by decide)).symm
  rw [fbEnter_eq, setFb, rd_setB_ne _ _ _ _ hne, setFb, rd_setB_ne _ _ _ _ hne, rd_fbTurn_counter hn _ (by decide) (by decide),
    rd_fbCounted]

theorem fbBits_fbEnter : (s.fbEnter n).fbBit n 0 = true ∧ (s.fbEnter n).fbBit n 1 = true ∧ (s.fbEnter n).fbBit n 2 = false := by
  refine ⟨?_, ?_, fbBit_setFb_same (by decide) _⟩
  · rw [fbEnter_eq, fbBit_setFb_ne (by decide), fbBit_setFb_ne (by decide), fbBit_fbTurn hn, fbBit_setFb_same (by decide)]
  · rw [fbEnter_eq, fbBit_setFb_ne (by decide), fbBit_setFb_same (by decide)]

theorem fbExit_frame : Frame [.lt] (FbPages n) s (s.fbExit n) :=
  (((fbTurn_frame hn false).trans (setFb_frame 1 false)).trans (setFb_frame 2 false)).trans
    (Frame.setF _ _ _ (fbPages_counter (by decide)))

theorem fbBits_fbExit : (s.fbExit n).fbBit n 0 = false ∧ (s.fbExit n).fbBit n 1 = false ∧ (s.fbExit n).fbBit n 2 = false := by
  have hrd : ∀ k, (s.fbExit n).fbBit n k = (((s.fbTurn n false).setFb n 1 false).setFb n 2 false).fbBit n k :=
    fun k => fbBit_congr (rd_setF_ne _ _ _ _ _ (adBase_add_ne (by decide)))
  refine ⟨?_, ?_, (hrd 2).trans (fbBit_setFb_same (by decide) _)⟩
  · rw [hrd, fbBit_setFb_ne (by decide), fbBit_setFb_ne (by decide), fbBit_fbTurn hn, fbBit_setFb_same (by decide)]
  · rw [hrd, fbBit_setFb_ne (by decide), fbBit_setFb_same (by decide)]

end

/-! ### The snapshot (R202) -/

/-- Words written one behind the other. -/
theorem rd_foldl_wr_range (v : Nat → Word) (base : Nat) {j k : Nat} (h : j < k) :
    ((List.range k).foldl (fun t i => t.wr (base + 4 * i) (v i)) s).rd (base + 4 * j) = v j := by
  induction k with
  | zero => omega
  | succ k ih =>
    rw [List.range_succ, List.foldl_append, List.foldl_cons, List.foldl_nil]
    by_cases hjk : j = k
    · rw [hjk, rd_wr_same]
    · rw [rd_wr_ne _ _ _ (by omega), ih (by omega)]

theorem rd_snap (sl : Nat) {j : Nat} (h : j < 128) : (s.snap sl).rd (Pg.ADMIT sl + 0x500 + 4 * j) = s.rd (Pg.ADMIT sl + 0x100 + 4 * j) :=
  rd_foldl_wr_range (fun i => s.rd (Pg.ADMIT sl + 0x100 + 4 * i)) _ h

theorem snap_frame (sl : Nat) : Frame [] (fun a => Pg.ADMIT sl + 0x500 ≤ a ∧ a < Pg.ADMIT sl + 0x700) s (s.snap sl) :=
  Frame.foldl_mem fun _ i hi => Frame.wr _ (by
    have := List.mem_range.mp hi
    omega)

end

end Machine.Dev

/-! ### The commands -/

section
variable {s : State} {m : Master} {n : Lane}

theorem gives_fbWindowEnd_enters (hr : s.d.FbRuns n) (h : s.d.fbBit n 0 = false) (he : s.d.fbEnterLimit n ≠ 0)
    (hb : s.d.fbEnterLimit n ≤ s.d.badPackets n) (ha : s.d.assisted (Pg.ADMIT (n.val / 4)) = false) :
    Gives (.fbWindowEnd n) s (fun t => t.fbBit n 0 = true ∧ Counted (Dev.adBase n + ADMIT.FB_EVENTS) s.d t
      ∧ t.bit (Pg.ADMIT (n.val / 4) + HDR.INT_STATUS) (8 + n.val % 4) = true ∧ t.rd (Dev.adBase n + ADMIT.FB_WIN) = 0) := by
  refine gives_run (Eq.refl (execFbWindowEnd n s)) ?_
  rw [Dev.fbWindow_enters hr h he hb ha]
  generalize Dev.islandOf (0x072 + n.val / 4) = island
  generalize some (s.d.linePort n) = port
  have hrd : ∀ a, 0x1000 ≤ a → (settle ((s.d.fbEntered n).logFault 16 island port false n 0)).rd a = (s.d.fbEntered n).rd a :=
    fun a ha => (settle_rd _ _).trans (Dev.rd_logFault_page (by decide) _ _ _ _ _ _ ha)
  refine ⟨(Dev.fbBit_congr (hrd _ ?_)).trans (Dev.fbBit_fbEntered n.isLt), (hrd _ ?_).trans (Dev.counted_fbEntered n.isLt), ?_,
    (hrd _ ?_).trans (Dev.rd_fbEntered_window n.isLt)⟩
  · simp only [Pg.ADMIT]; omega
  · simp only [Dev.adBase, Pg.ADMIT]; omega
  · rw [Dev.bit, hrd _ (by simp only [Pg.ADMIT]; omega)]
    exact Dev.bit_raise_same _ _ (by omega)
  · simp only [Dev.adBase, Pg.ADMIT]; omega

theorem gives_fbWindowEnd_asks (hr : s.d.FbRuns n) (h : s.d.fbBit n 0 = false) (he : s.d.fbEnterLimit n ≠ 0)
    (hb : s.d.fbEnterLimit n ≤ s.d.badPackets n) (ha : s.d.assisted (Pg.ADMIT (n.val / 4)) = true) :
    Gives (.fbWindowEnd n) s (fun t => t.fbBit n 0 = false ∧ t.fbBit n 2 = true
      ∧ t.bit (Pg.ADMIT (n.val / 4) + HDR.INT_STATUS) (16 + n.val % 4) = true) := by
  refine gives_run (Eq.refl (execFbWindowEnd n s)) ?_
  rw [Dev.fbWindow_asks hr h he hb ha, Dev.bit_settle, Dev.fbBit_settle, Dev.fbBit_settle, Dev.fbBit_fbAsk, Dev.fbBit_fbAsk]
  refine ⟨?_, Dev.fbBit_setFb_same (by decide) _, Dev.bit_raise_same _ _ (by omega)⟩
  rw [Dev.fbBit_setFb_ne (by decide), Dev.fbBit_fbRestart, h]

theorem gives_fbWindowEnd_below (hr : s.d.FbRuns n) (h : s.d.fbBit n 0 = false)
    (hb : s.d.fbEnterLimit n = 0 ∨ s.d.badPackets n < s.d.fbEnterLimit n) :
    Gives (.fbWindowEnd n) s (fun t => t.fbBit n 0 = false ∧ t.rd (Dev.adBase n + ADMIT.FB_WIN) = 0
      ∧ Frame [] (· = Dev.adBase n + ADMIT.FB_WIN) s.d t) := by
  refine gives_run (Eq.refl (execFbWindowEnd n s)) ?_
  rw [Dev.fbWindow_below hr h hb, Dev.fbBit_settle, settle_rd]
  exact ⟨Dev.fbBit_fbRestart.trans h, Dev.rd_wr_same _ _ _, (Frame.wr (A := (· = _)) _ rfl).settle⟩

theorem gives_fbWindowEnd_leaves (hr : s.d.FbRuns n) (h : s.d.fbBit n 0 = true) (hf : s.d.fbBit n 1 = false)
    (hb : s.d.badPackets n < s.d.fbExitLimit n) (hh : s.d.fbHold n ≤ s.d.goodWindows n + 1) (hg : s.d.goodWindows n + 1 ≤ 0xFFFF)
    (ha : s.d.assisted (Pg.ADMIT (n.val / 4)) = false) :
    Gives (.fbWindowEnd n) s (fun t => t.fbBit n 0 = false
      ∧ t.bit (Pg.ADMIT (n.val / 4) + HDR.INT_STATUS) (12 + n.val % 4) = true) := by
  have hrow : s.d.fbRow n = s.d.goodWindows n + 1 := (if_pos hb).trans (Nat.min_eq_right hg)
  refine gives_run (Eq.refl (execFbWindowEnd n s)) ?_
  rw [Dev.fbWindow_leaves hr h hf (by omega) (hrow ▸ hh) ha, Dev.fbBit_settle, Dev.bit_settle]
  exact ⟨Dev.fbBit_fbLeft n.isLt _, Dev.bit_raise_same _ _ (by omega)⟩

theorem gives_fbWindowEnd_stays (hr : s.d.FbRuns n) (h : s.d.fbBit n 0 = true) (hb : s.d.fbExitLimit n ≤ s.d.badPackets n)
    (hh : s.d.fbHold n ≠ 0) :
    Gives (.fbWindowEnd n) s (fun t => t.fbBit n 0 = true ∧ t.rd (Dev.adBase n + ADMIT.FB_WIN) = 0) := by
  have hrow : s.d.fbRow n = 0 := if_neg (Nat.not_lt.mpr hb)
  refine gives_run (Eq.refl (execFbWindowEnd n s)) ?_
  rw [Dev.fbWindow_stays hr h (.inr (by omega)), hrow, Dev.fbBit_settle, settle_rd]
  exact ⟨Dev.fbBit_fbRestart.trans h, Dev.rd_wr_same _ _ _⟩

theorem gives_fbCmdEnter (ha : Admits s m (Pg.ADMIT (n.val / 4) + ADMIT.FB_CMD)) :
    Gives (.fbCmdEnter m n) s (fun t => t.fbBit n 0 = true ∧ t.fbBit n 1 = true ∧ t.fbBit n 2 = false
      ∧ t.rd (Dev.adBase n + ADMIT.FB_EVENTS) = s.d.rd (Dev.adBase n + ADMIT.FB_EVENTS) + (if s.d.fbBit n 0 then 0 else 1)
      ∧ Frame [.lt] (Dev.FbPages n) s.d t) := by
  refine gives_access (Eq.refl (execFbCmdEnter m n s)) ha ?_
  obtain ⟨hactive, hforced, hreq⟩ := Dev.fbBits_fbEnter (s := s.d) n.isLt
  simp only [Dev.fbBit_settle, settle_rd]
  exact ⟨hactive, hforced, hreq, Dev.rd_fbEnter n.isLt, (Dev.fbEnter_frame n.isLt).settle⟩

theorem gives_fbCmdExit (ha : Admits s m (Pg.ADMIT (n.val / 4) + ADMIT.FB_CMD)) :
    Gives (.fbCmdExit m n) s (fun t => t.fbBit n 0 = false ∧ t.fbBit n 1 = false ∧ t.fbBit n 2 = false
      ∧ Frame [.lt] (Dev.FbPages n) s.d t) := by
  refine gives_access (Eq.refl (execFbCmdExit m n s)) ha ?_
  obtain ⟨hactive, hforced, hreq⟩ := Dev.fbBits_fbExit (s := s.d) n.isLt
  simp only [Dev.fbBit_settle]
  exact ⟨hactive, hforced, hreq, (Dev.fbExit_frame n.isLt).settle⟩

theorem gives_admitSnap {i : Slice} (ha : Admits s m (Pg.ADMIT i + ADMIT.SNAP_CMD)) :
    Gives (.admitSnap m i) s (fun t =>
      (∀ j, j < 128 → t.rd (Pg.ADMIT i + 0x500 + 4 * j) = s.d.rd (Pg.ADMIT i + 0x100 + 4 * j))
      ∧ Frame [] (fun a => Pg.ADMIT i + 0x500 ≤ a ∧ a < Pg.ADMIT i + 0x700) s.d t) :=
  gives_access (Eq.refl (execAdmitSnap m i s)) ha
    ⟨fun _ hj => (settle_rd _ _).trans (Dev.rd_snap i hj), (Dev.snap_frame i).settle⟩

end

/-- Settles O19: the end of a window by the side of its limits on which it falls, then the commands and the snapshot. -/
theorem fallbackAndSnapshots : Obligations.FallbackAndSnapshots := by
  unfold Obligations.FallbackAndSnapshots
  intro s m n i pg bad good enter exit there
  refine ⟨fun hr => ⟨gives_fbWindowEnd_enters hr, gives_fbWindowEnd_asks hr, gives_fbWindowEnd_below hr, gives_fbWindowEnd_leaves hr,
    gives_fbWindowEnd_stays hr⟩, fun ha => ⟨gives_fbCmdEnter ha, gives_fbCmdExit ha⟩, gives_admitSnap⟩

end Sys2Proof
end

