-- ==== Sys2Proof/Proofs/VigilEntry.lean ====
section
/-! The completion of Vigil entry (17, R459, R460). It first settles the packets pending on the ports; the islands it then takes off
are those that the registers no longer keep on once that is done, and what it does in between changes none of these registers. -/

namespace Sys2Proof

open Machine

/-! ### What says whether island 0 stays on -/

/-- The registers that keep island 0 on, and the one that enables the wake sources. -/
abbrev KeepRegs (a : Nat) : Prop :=
  a = Pg.SLICE 0 + SLICE.SLICE_CFG ∨ a = Pg.LANTERN 0 + LANTERN.LT_CTRL ∨ a = Pg.VIGIL + VIGIL.VIGIL_CFG

abbrev BesideKeep (a : Nat) : Prop := ¬ KeepRegs a

/-- The parts of the device that the steps of an entry change. -/
abbrev entryParts : List Part := [.bus, .isl, .log, .rx, .cls, .flow, .buf, .ana, .seq, .sent]

/-- A step of an entry. -/
abbrev EntryStep (s t : Dev) : Prop := Frame entryParts BesideKeep s t

theorem besideKeep_of_onTypes {T : List PageType} {a : Nat} (h : OnTypes T a) (d : ∀ t ∈ T, t ∉ [PageType.slice, .lantern, .vigil]) :
    BesideKeep a := by
  have hslice : OnTypes [.slice, .lantern, .vigil] (Pg.SLICE 0 + SLICE.SLICE_CFG) := OnTypes.slice (by decide) (by decide) (by decide)
  have hlantern : OnTypes [.slice, .lantern, .vigil] (Pg.LANTERN 0 + LANTERN.LT_CTRL) :=
    OnTypes.lantern (by decide) (by decide) (by decide)
  have hvigil : OnTypes [.slice, .lantern, .vigil] (Pg.VIGIL + VIGIL.VIGIL_CFG) := ⟨_, rfl, by decide⟩
  rintro (rfl | rfl | rfl)
  · exact h.disjoint hslice d
  · exact h.disjoint hlantern d
  · exact h.disjoint hvigil d

/-- The registers below 0x40 of a page are none of them. -/
theorem besideKeep_header (page : Nat) {off : Nat} (h : off < 0x40) : BesideKeep (page * 0x1000 + off) := by
  simp only [BesideKeep, KeepRegs, Pg.SLICE, Pg.LANTERN, Pg.VIGIL, SLICE.SLICE_CFG, LANTERN.LT_CTRL, VIGIL.VIGIL_CFG]
  omega

/-- Nor are those of the pages of the buffer's queues and stacks, which lie between slice and Lantern pages. -/
theorem besideKeep_between {a : Nat} (hlo : 0x051000 ≤ a) (hhi : a < 0x090000) : BesideKeep a := by
  simp only [BesideKeep, KeepRegs, Pg.SLICE, Pg.LANTERN, Pg.VIGIL, SLICE.SLICE_CFG, LANTERN.LT_CTRL, VIGIL.VIGIL_CFG]
  omega

namespace Machine.Dev

variable {s : Dev}

theorem vigilKeeps_zero : s.vigilKeeps 0 = s.wakeLane 0 := by simp [vigilKeeps]

theorem entryStep_keeps {t : Dev} (h : EntryStep s t) : t.vigilKeeps 0 = s.vigilKeeps 0 := by
  rw [vigilKeeps_zero, vigilKeeps_zero, wakeLane, typeE, bit, bit, h.1 _ (not_not.mpr (.inl rfl)),
    h.1 _ (not_not.mpr (.inr (.inl rfl)))]
  rfl

/-! ### The cache and the queues -/

theorem writeBack_entryStep (l : CacheLine) : EntryStep s (s.writeBack l) :=
  Frame.ite (((Frame.setFlow _ (by decide)).trans (Frame.count48 _ (besideKeep_between (by decide) (by decide))
    (besideKeep_between (by decide) (by decide)))).trans (Frame.setBuf _ (by decide))) (Frame.refl _)

theorem cacheFlushAll_entryStep : EntryStep s s.cacheFlushAll :=
  (Frame.foldl (fun _ l => writeBack_entryStep l) _).trans (Frame.setFlow _ (by decide))

theorem drop_entryStep (p r n : Nat) : EntryStep s (s.drop p r n) := Frame.drop _ _ _ fun _ h => besideKeep_of_onTypes h (by decide)

theorem givePage_entryStep (page : Nat) : EntryStep s (s.givePage page) :=
  Frame.ite (Frame.refl _) ((Frame.setBuf _ (by decide)).trans (Frame.setBuf _ (by decide)))

theorem queueShow_entryStep {q : Nat} (hq : q < 128) : EntryStep s (s.queueShow q) := by
  have hreg : ∀ off, off < 0x1000 → BesideKeep (qBase q + off) := fun off ho =>
    besideKeep_between (by simp only [qBase, Pg.QUEUE]; omega) (by simp only [qBase, Pg.QUEUE]; omega)
  exact ((((Frame.setF _ _ _ (hreg _ (by decide))).trans (Frame.setF _ _ _ (hreg _ (by decide)))).trans
    (Frame.wr _ (hreg _ (by decide)))).trans (Frame.setF _ _ _ (hreg _ (by decide)))).trans (Frame.setF _ _ _ (hreg _ (by decide)))

theorem bufShow_entryStep : EntryStep s s.bufShow := by
  have hreg : ∀ off, off < 0x1000 → BesideKeep (Pg.BUF + off) := fun off ho =>
    besideKeep_between (by simp only [Pg.BUF]; omega) (by simp only [Pg.BUF]; omega)
  unfold bufShow poolAfter
  extract_lets t u
  have ht : EntryStep s t := Frame.setF _ _ _ (hreg _ (by decide))
  have hu : EntryStep s u :=
    Frame.ite ((ht.trans (Frame.setF _ _ _ (hreg _ (by decide)))).trans (Frame.raise _ (hreg _ (by decide))))
      (ht.trans (Frame.setF _ _ _ (hreg _ (by decide))))
  exact Frame.ite ((hu.trans (Frame.setF _ _ _ (hreg _ (by decide)))).trans (Frame.raise _ (hreg _ (by decide)))) hu

theorem recoverList_entryStep (c : Nat) : EntryStep s (s.recoverList c) := by
  unfold recoverList
  extract_lets f
  split
  · exact Frame.refl _
  · exact (Frame.setBuf _ (by decide)).trans bufShow_entryStep

theorem discardQueues_entryStep : EntryStep s s.discardQueues := by
  unfold discardQueues
  extract_lets t u
  have ht : EntryStep s t := Frame.foldl_mem fun v q hq => by
    have hdrop : EntryStep v (((v.queue q).recs.filter (fun r => !r.void)).foldl (fun t r => t.drop r.port 9 r.len) v) :=
      Frame.foldl (fun _ _ => drop_entryStep _ _ _) _
    exact ((hdrop.trans (Frame.setBuf _ (by decide))).trans (Frame.foldl (fun _ _ => givePage_entryStep _) _)).trans
      (queueShow_entryStep (List.mem_range.mp hq))
  have hu : EntryStep s u := ht.trans (Frame.foldl (fun _ _ => (Frame.foldl (fun _ _ => drop_entryStep _ _ _) _).trans
    (Frame.setBuf _ (by decide))) _)
  exact (hu.trans (Frame.foldl (fun _ c => recoverList_entryStep c) _)).trans bufShow_entryStep

/-! ### The stacks, the sequencers and the outputs -/

theorem peakF_entryStep {a : Nat} (lo len v : Nat) (h : BesideKeep a) : EntryStep s (s.peakF a lo len v) :=
  Frame.ite (Frame.setF _ _ _ h) (Frame.refl _)

theorem besideKeep_hbm {k off : Nat} (hk : k < 4) (ho : off < 0x1000) : BesideKeep (Pg.HBM k + off) :=
  besideKeep_between (by simp only [Pg.HBM]; omega) (by simp only [Pg.HBM]; omega)

theorem inflightShow_entryStep {k : Nat} (hk : k < 4) : EntryStep s (s.inflightShow k) :=
  (((Frame.setF _ _ _ (besideKeep_hbm hk (by decide))).trans (peakF_entryStep _ _ _ (besideKeep_hbm hk (by decide)))).trans
    (Frame.setF _ _ _ (besideKeep_between (by decide) (by decide)))).trans
    (peakF_entryStep _ _ _ (besideKeep_between (by decide) (by decide)))

section
variable {k : Nat} (hk : k < 24)
include hk

theorem besideKeep_lseq {off : Nat} (ho : off < 0x1000) : BesideKeep (Pg.LSEQ k + off) :=
  besideKeep_of_onTypes (OnTypes.seq (T := [.lseq, .seq]) hk ho (by decide) (by decide)) (by decide)

theorem markSeq_entryStep (st : Nat) : EntryStep s (s.markSeq k st) :=
  (Frame.setF _ _ _ (besideKeep_lseq hk (by decide))).trans (Frame.setF _ _ _ (besideKeep_lseq hk (by decide)))

theorem vendorTakes_entryStep : EntryStep s (s.vendorTakes k) := by
  unfold vendorTakes
  split
  · exact (Frame.setSq _ _ (by decide)).trans (markSeq_entryStep hk 5)
  · exact Frame.setSq _ _ (by decide)

theorem setSeqState_entryStep (st : Nat) : EntryStep s (s.setSeqState k st) := by
  unfold setSeqState
  extract_lets t running u v
  have ht : EntryStep s t := markSeq_entryStep hk st
  have hu : EntryStep s u := Frame.ite (ht.trans (Frame.setSq _ _ (by decide))) ht
  have hv : EntryStep s v := hu.trans (Frame.raise _ (besideKeep_lseq hk (by decide)))
  exact Frame.ite (Frame.ite (hv.trans (vendorTakes_entryStep hk)) hv) hu

theorem seqStop_entryStep : EntryStep s (s.seqStop k) :=
  Frame.ite (((Frame.setSq _ _ (by decide)).trans (Frame.wr _ (besideKeep_lseq hk (by decide)))).trans (setSeqState_entryStep hk 1))
    (Frame.refl _)

end

theorem outOff_entryStep {sl k : Nat} (hs : sl < 4) (hk : k < 10) : EntryStep s (s.outOff sl k) :=
  Frame.ite (Frame.refl _) ((Frame.setOut hs hk 0 (by decide) (by decide) fun _ h => besideKeep_of_onTypes h (by decide)).trans
    (Frame.closeFault _ _ _ _ (by decide) fun _ h => besideKeep_of_onTypes h (by decide)))

theorem ckptClear_entryStep {n : Nat} (hn : n < 16) : EntryStep s (s.ckptClear n) :=
  (Frame.setRxl _ _ (by decide)).trans (ckptStatus_writes.mono (fun _ => id) fun _ h =>
    h ▸ besideKeep_of_onTypes (OnTypes.lrx (T := [.lrx]) hn (by decide) (by decide)) (by decide))

theorem logOn_entryStep (m : Master) (page off code : Nat) : EntryStep s (s.logOn m page off code) :=
  (Frame.wr _ (besideKeep_header _ (by decide))).trans (Frame.raise _ (besideKeep_header _ (by decide)))

theorem isolate_entryStep (i : Nat) : EntryStep s (s.isolate i) :=
  Frame.foldl (fun t b => by
    split
    · exact Frame.ite (((Frame.setBus _ (by decide)).trans (logOn_entryStep _ _ _ _)).trans (Frame.count _ (by decide)))
        (Frame.refl _)
    · exact Frame.refl _) _

/-! ### The steps of an entry -/

/-- The packets pending on the ports are settled. -/
def entrySettled (s : Dev) : Dev := (List.range 16).foldl (fun t p => t.settlePort p) s

/-- Then the units are emptied and stopped. -/
def entryStopped (s : Dev) : Dev :=
  let t := (s.cacheFlushAll).discardQueues
  let t := (List.range 4).foldl (fun t k => (t.setStack4 k { t.stack4 k with waiting := [], inflight := [] }).inflightShow k) t
  let t := (List.range 24).foldl (fun t k =>
    if (t.seqState k = 2 ∨ t.seqState k = 3) ∧ ¬(k < 8 ∧ t.wakeSlice (k / 2) = true) then t.seqStop k else t) t
  let t := (List.range 4).foldl (fun t sl =>
    if t.wakeSlice sl then t else (List.range 10).foldl (fun t k => t.outOff sl k) t) t
  let t := (List.range 4).foldl (fun t k => t.setB (Pg.HBM k + HBM.STACK_STATUS) 3 true) t
  if t.mon.deep then
    let u : Dev := { t with cls := { t.cls with table := [] } }
    (List.range 16).foldl (fun t n => t.ckptClear n) u
  else t

/-- The islands that an entry takes off. -/
def entryOff (s : Dev) : List Nat := (List.range 60).filter (fun i => !s.vigilKeeps i)

/-- Islands without power. -/
def unpoweredOf (off : List Nat) : Sparse Bool := off.foldl (fun m i => Sparse.put (fun _ => false) m i true) []

/-- The islands go off. -/
def entryIsolated (s : Dev) : Dev :=
  let t := s.entryOff.foldl (fun t i => t.isolate i) s
  { t with isl := { t.isl with unpowered := unpoweredOf s.entryOff } }

/-- The entry is shown. -/
def entryShown (s : Dev) : Dev :=
  let t := (s.raise Pg.VIGIL 8).wr (Pg.VIGIL + VIGIL.ENTRY_TIME) (s.usSince s.mon.entryAt)
  let t := t.count (Pg.VIGIL + VIGIL.VIGIL_COUNT)
  t.setF (Pg.VIGIL + VIGIL.VIGIL_STATUS) 0 3 (if t.mon.deep then 3 else 2)

/-- A wake source that fires as the entry completes, or that did before, ends it. -/
def entryWoken (s : Dev) : Dev :=
  let t := if s.rd (Pg.VIGIL + VIGIL.VIGIL_TIMER) = 0 then s.wakeIf 4 2 else s
  if t.mon.wakePending then t.vigilLeave else t

theorem vigilEntered_eq : s.vigilEntered = s.entrySettled.entryStopped.entryIsolated.entryShown.entryWoken := rfl

theorem entryStopped_entryStep : EntryStep s s.entryStopped := by
  unfold entryStopped
  extract_lets t u v w x cls y
  have ht : EntryStep s t := cacheFlushAll_entryStep.trans discardQueues_entryStep
  have hu : EntryStep s u := ht.trans (Frame.foldl_mem fun _ k hk =>
    (Frame.setBuf _ (by decide)).trans (inflightShow_entryStep (List.mem_range.mp hk)))
  have hv : EntryStep s v := hu.trans (Frame.foldl_mem fun _ k hk =>
    Frame.ite (seqStop_entryStep (List.mem_range.mp hk)) (Frame.refl _))
  have hw : EntryStep s w := hv.trans (Frame.foldl_mem fun _ sl hsl =>
    Frame.ite (Frame.refl _) (Frame.foldl_mem fun _ k hk => outOff_entryStep (List.mem_range.mp hsl) (List.mem_range.mp hk)))
  have hx : EntryStep s x := hw.trans (Frame.foldl_mem fun _ k hk =>
    Frame.setB _ _ (besideKeep_hbm (List.mem_range.mp hk) (by decide)))
  have hy : EntryStep s y := hx.trans (Frame.setCls _ (by decide))
  exact Frame.ite (hy.trans (Frame.foldl_mem fun _ n hn => ckptClear_entryStep (List.mem_range.mp hn))) hx

theorem entryIsolated_entryStep : EntryStep s s.entryIsolated :=
  (Frame.foldl (fun _ i => isolate_entryStep i) _).trans (Frame.setIsl _ (by decide))

theorem entryShown_entryStep : EntryStep s s.entryShown :=
  (((Frame.raise _ (by decide)).trans (Frame.wr _ (by decide))).trans (Frame.count _ (by decide))).trans (Frame.setF _ _ _ (by decide))

/-- An island that is not among those taken off stays on. -/
theorem get_unpoweredOf {off : List Nat} {i : Nat} (h : i ∉ off) : Sparse.get (fun _ => false) (unpoweredOf off) i = false := by
  have hkept : ∀ m : Sparse Bool, Sparse.get (fun _ => false) (off.foldl (fun m i => Sparse.put (fun _ => false) m i true) m) i
      = Sparse.get (fun _ => false) m i := by
    induction off with
    | nil => exact fun _ => rfl
    | cons j off ih =>
      obtain ⟨hj, hoff⟩ := List.ne_and_not_mem_of_not_mem_cons h
      exact fun m => (ih hoff _).trans (Sparse.get_put_ne _ _ _ hj)
  exact hkept []

/-- Without a wake source, island 0 stays on when the registers keep it on once the packets are settled. -/
theorem vigilEntered_keeps (hcfg : s.entrySettled.bit (Pg.VIGIL + VIGIL.VIGIL_CFG) 4 = false)
    (hpending : s.entrySettled.mon.wakePending = false) (hkeeps : s.entrySettled.vigilKeeps 0 = true) :
    Sparse.get (fun _ => false) s.vigilEntered.isl.unpowered 0 = false := by
  have hstopped : EntryStep s.entrySettled s.entrySettled.entryStopped := entryStopped_entryStep
  have hshown : EntryStep s.entrySettled s.entrySettled.entryStopped.entryIsolated.entryShown :=
    (hstopped.trans entryIsolated_entryStep).trans entryShown_entryStep
  have hon : 0 ∉ s.entrySettled.entryStopped.entryOff := fun h => by
    have hoff := (List.mem_filter.mp h).2
    rw [entryStep_keeps hstopped, hkeeps] at hoff
    exact absurd hoff (by decide)
  rw [vigilEntered_eq]
  generalize ht : s.entrySettled.entryStopped.entryIsolated.entryShown = t at hshown
  have hnowake : t.wakeIf 4 2 = t := if_neg (by rw [bit, hshown.1 _ (not_not.mpr (.inr (.inr rfl))), ← bit, hcfg]; decide)
  have hmon : t.mon = s.entrySettled.mon := hshown.2 .mon (by decide)
  have hwoken : t.entryWoken = t := by
    unfold entryWoken
    simp only [hnowake, ite_self, hmon, hpending, Bool.false_eq_true, if_false]
  rw [hwoken, ← ht]
  exact get_unpoweredOf hon

end Machine.Dev

/-! ### The refutation -/

/-- The reset state in Vigil entry, its first slice of Type E, with a packet of 64 bytes on port 0 whose group's packet counter lies
at `LT_CTRL` of lane 0, which holds 3. -/
def countsLanternControl : State :=
  ⟨(((State.reset.d.setPackets 0 [groupPacket 0x2EC4 64]).wr (Pg.VIGIL + VIGIL.VIGIL_STATUS) 1).wr (Pg.SLICE 0 + SLICE.SLICE_CFG) 2).wr
    (Pg.LANTERN 0 + LANTERN.LT_CTRL) 3, []⟩

/-- Refutes O56: the clause on the islands that a completed entry takes off. The commit of the pending packet counts group 0x2EC4 on
`LT_CTRL` of lane 0 and so sets its `WAKE_EN`: the entry keeps island 0 on, which the state before it does not keep. The GROUP operand
of a profile has six bits (R158), so the state is not reached. -/
theorem not_vigil : ¬ Obligations.Vigil := by
  unfold Obligations.Vigil
  intro h
  obtain ⟨-, -, -, hentered, -⟩ := h countsLanternControl .host 0 [] false [] 0
  have hentering : countsLanternControl.d.vigilState = 1 := by decide
  obtain ⟨-, -, -, hislands, -⟩ := (hentered hentering).of_run (Eq.refl (execVigilEntryComplete countsLanternControl))
  obtain ⟨-, hoff⟩ := hislands (by decide) (.inr (by decide))
  have hkept : Sparse.get (fun _ => false) countsLanternControl.d.vigilEntered.isl.unpowered 0 = false :=
    Dev.vigilEntered_keeps (by decide) (by decide) (by decide)
  have hbefore : countsLanternControl.d.vigilKeeps 0 = false := by decide
  have hzero := hoff 0 (by decide)
  rw [(settle_frame _).2.2.1, if_pos hentering, hkept, hbefore] at hzero
  exact absurd hzero (by decide)

end Sys2Proof
end

