-- ==== Sys2Proof/Proofs/BufferTables.lean ====
section
/-! The buffer manager: its tables after a write, the registers its displays write, and what the operations on the records of a
queue leave in every queue (07, R216, R220 to R224, R234). -/

namespace Sys2Proof

open Machine

namespace Machine.Dev

variable {s t : Dev}

/-! ### The tables of the buffer manager -/

@[simp] theorem stack4_setStack4_same (s : Dev) (k : Nat) (v : Stack4) : (s.setStack4 k v).stack4 k = v := Sparse.get_put_same _ _ _ _
@[simp] theorem freeList_setFreeList_same (s : Dev) (c : Nat) (v : FreeList) : (s.setFreeList c v).freeList c = v :=
  Sparse.get_put_same _ _ _ _
@[simp] theorem sched_setSched_same (s : Dev) (h : Nat) (v : Sched) : (s.setSched h v).sched h = v := Sparse.get_put_same _ _ _ _

theorem stack4_setStack4_ne (s : Dev) {k j : Nat} (v : Stack4) (h : j ≠ k) : (s.setStack4 k v).stack4 j = s.stack4 j :=
  Sparse.get_put_ne _ _ _ h

theorem queue_setQueue_ne (s : Dev) {q p : Nat} (v : Queue) (h : p ≠ q) : (s.setQueue q v).queue p = s.queue p :=
  Sparse.get_put_ne _ _ _ h

theorem rd_setStack4 (s : Dev) (k : Nat) (v : Stack4) (a : Nat) : (s.setStack4 k v).rd a = s.rd a := rfl
theorem stack4_setSched (s : Dev) (h : Nat) (v : Sched) (k : Nat) : (s.setSched h v).stack4 k = s.stack4 k := rfl
theorem stack4_count (s : Dev) (a n k : Nat) : (s.count a n).stack4 k = s.stack4 k := rfl

theorem stack4_of_buf (h : t.buf = s.buf) (k : Nat) : t.stack4 k = s.stack4 k := by rw [stack4, h, stack4]
theorem queue_of_buf (h : t.buf = s.buf) (q : Nat) : t.queue q = s.queue q := by rw [queue, h, queue]
theorem freeList_of_buf (h : t.buf = s.buf) (c : Nat) : t.freeList c = s.freeList c := by rw [freeList, h, freeList]
theorem sched_of_buf (h : t.buf = s.buf) (p : Nat) : t.sched p = s.sched p := by rw [sched, h, sched]

@[simp] theorem stack4_settle (k : Nat) : (settle s).stack4 k = s.stack4 k := stack4_of_buf (by simp) k
@[simp] theorem queue_settle (q : Nat) : (settle s).queue q = s.queue q := queue_of_buf (by simp) q
@[simp] theorem freeList_settle (c : Nat) : (settle s).freeList c = s.freeList c := freeList_of_buf (by simp) c
@[simp] theorem sched_settle (p : Nat) : (settle s).sched p = s.sched p := sched_of_buf (by simp) p

end Machine.Dev

/-! ### The displays of the buffer manager -/

theorem Frame.setStack4 {ps : List Part} {A : Nat → Prop} {s : Dev} (k : Nat) (v : Stack4) (h : .buf ∈ ps) :
    Frame ps A s (s.setStack4 k v) := Frame.setBuf _ h

namespace Machine.Dev

variable {s t : Dev}

/-- The counts of pages are shown on the buffer's page. -/
theorem bufShow_frame : Frame [] (OnTypes [.buf]) s s.bufShow := by
  have hreg : ∀ off, off < 0x1000 → OnTypes [.buf] (Pg.BUF + off) := fun off ho => .buf ho (by decide)
  unfold bufShow poolAfter
  extract_lets t u
  have ht : Frame [] (OnTypes [.buf]) s (t.setF (Pg.BUF + BUF.GUARANTEE_PAGES) 0 25 s.guaranteePages) :=
    (Frame.setF _ _ _ (hreg BUF.FREE_PAGES (by decide))).trans (Frame.setF _ _ _ (hreg _ (by decide)))
  have hu : Frame [] (OnTypes [.buf]) s u := Frame.ite (ht.trans (Frame.raise _ (hreg _ (by decide)))) ht
  exact Frame.ite ((hu.trans (Frame.setF _ _ _ (hreg _ (by decide)))).trans (Frame.raise _ (hreg _ (by decide)))) hu

@[simp] theorem buf_bufShow : s.bufShow.buf = s.buf := bufShow_frame.2 .buf (by decide)

@[simp] theorem buf_queueShow (q : Nat) : (s.queueShow q).buf = s.buf := by simp [queueShow]

@[simp] theorem buf_drop (p r n : Nat) : (s.drop p r n).buf = s.buf :=
  (Frame.drop (ps := []) (A := fun _ => True) p r n fun _ _ => trivial).2 .buf (by decide)

@[simp] theorem buf_inflightShow (k : Nat) : (s.inflightShow k).buf = s.buf := by
  simp only [inflightShow, peakF]
  split <;> split <;> simp

/-! ### What leaves the queues alone -/

@[simp] theorem queue_hbmQueue (c prio : Nat) (kind : HbmKind) (off bytes q : Nat) :
    (s.hbmQueue c prio kind off bytes).queue q = s.queue q := rfl

@[simp] theorem queue_givePage (page q : Nat) : (s.givePage page).queue q = s.queue q := by
  unfold givePage
  extract_lets c f
  split <;> rfl

/-- A sequence of updates that each leave a queue alone leaves it alone. -/
theorem queue_foldl {β : Type} {f : Dev → β → Dev} {q : Nat} {l : List β} (h : ∀ t, ∀ b ∈ l, (f t b).queue q = t.queue q) :
    (l.foldl f s).queue q = s.queue q := by
  induction l generalizing s with
  | nil => rfl
  | cons b l ih => exact (ih fun t c hc => h t c (by simp [hc])).trans (h s b (by simp))

/-! ### Records of a queue -/

/-- The pages given back leave the records where they are. -/
@[simp] theorem recs_trimPages_same (q : Nat) : ((s.trimPages q).queue q).recs = (s.queue q).recs := by
  unfold trimPages
  extract_lets x keep gone
  rw [queue_foldl fun t p _ => by rw [linkQueue, queue_hbmQueue, queue_givePage], queue_setQueue_same]

theorem queue_trimPages_ne {q p : Nat} (h : p ≠ q) : (s.trimPages q).queue p = s.queue p := by
  unfold trimPages
  extract_lets x keep gone
  rw [queue_foldl fun t p _ => by rw [linkQueue, queue_hbmQueue, queue_givePage], queue_setQueue_ne _ _ h]

theorem recs_removeRec_same (q num : Nat) :
    ((s.removeRec q num).queue q).recs = (s.queue q).recs.filter (fun r => r.num != num) := by
  rw [removeRec, recs_trimPages_same, queue_setQueue_same]

theorem queue_removeRec_ne {q p : Nat} (num : Nat) (h : p ≠ q) : (s.removeRec q num).queue p = s.queue p := by
  rw [removeRec, queue_trimPages_ne h, queue_setQueue_ne _ _ h]

/-- Without such records at its head the dequeue passes none. -/
theorem passHeads_eq_self {q : Nat} (h : (s.queue q).recs.takeWhile s.passed = []) : s.passHeads q = s := by
  simp [passHeads, h]

theorem queue_passHeads_ne {q p : Nat} (h : p ≠ q) : (s.passHeads q).queue p = s.queue p := by
  unfold passHeads
  extract_lets gone t
  have ht : t.queue p = s.queue p := queue_foldl fun u r _ => by
    have hr : (u.removeRec q r.num).queue p = u.queue p := queue_removeRec_ne r.num h
    dsimp only
    split
    · exact (queue_of_buf (by simp) p).trans hr
    · exact (queue_of_buf (by simp) p).trans hr
  split
  · rfl
  · exact (queue_of_buf (by simp) p).trans ht

end Machine.Dev

end Sys2Proof
end

