-- ==== Sys2Proof/Proofs/Selection.lean ====
section
/-! The selection of a packet whose class lies beyond the eight of a line port: its queue is none that the selection passes the heads
of (07, R217, R225, R230). -/

namespace Sys2Proof

open Machine

namespace Machine.Dev

variable {s : Dev} {h : Nat}

/-! ### The heads that a selection passes -/

/-- The heads of the queues that a host port serves are passed. -/
def passServed (s : Dev) (h : Nat) : Dev :=
  (s.servedPorts h).foldl (fun t p => (List.range 8).foldl (fun t c => t.passHeads (8 * p + c)) t) s

theorem foldl_passHeads (s : Dev) (h : Nat) :
    (s.servedPorts h).foldl (fun t p => (List.range 8).foldl (fun t c => t.passHeads (8 * p + c)) t) s = s.passServed h := rfl

theorem foldl_eq_self {β : Type} {f : Dev → β → Dev} {l : List β} (hf : ∀ b ∈ l, f s b = s) : l.foldl f s = s := by
  induction l with
  | nil => rfl
  | cons b l ih => rw [List.foldl_cons, hf b (by simp), ih fun c hc => hf c (by simp [hc])]

theorem passServed_eq_self
    (hheads : ∀ p ∈ s.servedPorts h, ∀ c, c < 8 → (s.queue (8 * p + c)).recs.takeWhile s.passed = []) : s.passServed h = s :=
  foldl_eq_self fun p hp => foldl_eq_self fun c hc => passHeads_eq_self (hheads p hp c (List.mem_range.mp hc))

theorem slice_of_mem_servedPorts {p : Nat} (hp : p ∈ s.servedPorts h) : p / 4 = h / 4 := by
  obtain ⟨i, hi, rfl⟩ := List.mem_map.mp (List.mem_filter.mp hp).1
  have := List.mem_range.mp hi
  omega

/-- The queues of the other slices keep what they hold. -/
theorem queue_passServed_beyond {q : Nat} (hq : q / 32 ≠ h / 4) : (s.passServed h).queue q = s.queue q :=
  queue_foldl fun _ p hp => queue_foldl fun _ c hc => queue_passHeads_ne (by
    have := slice_of_mem_servedPorts hp
    have := List.mem_range.mp hc
    omega)

/-! ### The selection -/

/-- A record selected from a queue of another slice leaves it, and what then stands at the head of that queue stays. -/
theorem recs_select_beyond {c p : Nat} {cls lp : Dwrr} {r : BufRec} (hup : s.hostUp h = true)
    (hheads : ∀ p ∈ s.servedPorts h, ∀ c, c < 8 → (s.queue (8 * p + c)).recs.takeWhile s.passed = [])
    (hcls : s.clsNext h = some (c, cls)) (hlp : s.lpNext h c = some (p, lp)) (hr : s.headRec (8 * p + c) = some r)
    (hq : (8 * p + c) / 32 ≠ h / 4) :
    ((s.select h).queue (8 * p + c)).recs = (s.queue (8 * p + c)).recs.filter (fun y => y.num != r.num) := by
  generalize hqe : 8 * p + c = q at *
  unfold select
  simp only [hup, Bool.not_true, Bool.false_eq_true, if_false, foldl_passHeads, passServed_eq_self hheads, hcls, hlp, hqe, hr]
  generalize hv : ((s.removeRec q r.num).queueShow q).bufShow = v
  have hleft : ((v.passServed h).queue q).recs = (s.queue q).recs.filter (fun y => y.num != r.num) := by
    rw [queue_passServed_beyond hq, ← hv, queue_of_buf buf_bufShow, queue_of_buf (buf_queueShow q), recs_removeRec_same]
  have hread : (((recOps r).foldl (fun t o => t.pageQueue o.1 2 (.packetRead h r.num) o.2.1 o.2.2) (v.passServed h)).queue q).recs
      = (s.queue q).recs.filter (fun y => y.num != r.num) := by
    rw [queue_foldl fun t o _ => by rw [pageQueue, queue_hbmQueue], hleft]
  split
  · exact hread
  · exact hread

end Machine.Dev

/-! ### The refutation -/

/-- A committed and written record of 64 bytes. -/
def plainRecord (num : Nat) (void : Bool) : BufRec :=
  { num := num, port := 0, len := 64, cls := 0, colour := 0, flags := 0, flow := 0, umeta := 0, time := 0, void := void, gone := false,
    mark := none, committed := true, toWrite := 0, start := 0, pages := [], added := 0, bytes := [] }

/-- Port 0 of the first slice is up on both sides. Its class 0 has a packet; the loop of its class level stands at class 64, whose
queue for port 0 is number 64: a packet, and a void record behind it. -/
def servesClass64 : State :=
  ⟨{ ((State.reset.d.wr (Pg.SLICE 0 + SLICE.SLICE_CFG) 0x10).wr (Pg.HOST 0 + HOST.HOST_STATE) 2).wr (Pg.HOST 0 + HOST.LINK_STATUS) 8 with
      isl := { released := [(32, true)] }
      buf := { queues := [(0, { recs := [plainRecord 0 false] }), (64, { recs := [plainRecord 1 false, plainRecord 2 true] })],
               scheds := [(0, { cls := { pos := 64 } })] } }, []⟩

theorem clsNext_servesClass64 : servesClass64.d.clsNext 0 = some (64, { deficit := [(64, 176)], pos := 64, turn := true }) := by decide

theorem lpNext_servesClass64 : servesClass64.d.lpNext 0 64 = some (0, { deficit := [(0, 176)], pos := 0, turn := true }) := by decide

/-- No head of a queue that host port 0 serves is passed. -/
theorem heads_servesClass64 : ∀ p ∈ servesClass64.d.servedPorts 0, ∀ c, c < 8 →
    (servesClass64.d.queue (8 * p + c)).recs.takeWhile servesClass64.d.passed = [] := by decide

/-- Refutes O23: the clause on the selection, which does not bound the class that the class level names. With the loop at class 64 the
packet is taken from a queue whose heads the selection does not pass, so that the void record behind it stays. The loop only ever
stands at classes 0 to 7 (R230), so the state is not reached. -/
theorem not_dequeue : ¬ Obligations.Dequeue := by
  unfold Obligations.Dequeue
  intro h
  have hport : servesClass64.d.hostPort (0 : Lane) = 0 := by decide
  obtain ⟨hselect, -⟩ := h servesClass64 0 ⟨0, 0, 0, 0, [], true, true⟩ ⟨0, 0⟩ (plainRecord 1 false)
  simp only [hport] at hselect
  have hup : servesClass64.d.hostUp 0 = true := by decide
  have hhead : servesClass64.d.headRec (8 * 0 + 64) = some (plainRecord 1 false) := by decide
  obtain ⟨-, hpassed, -⟩ := (hselect _ _ _ _ hup heads_servesClass64 clsNext_servesClass64 lpNext_servesClass64 hhead
    (by decide)).of_run (Eq.refl (execSchedulerSelect 0 servesClass64))
  have hstays := Dev.recs_select_beyond hup heads_servesClass64 clsNext_servesClass64 lpNext_servesClass64 hhead (by decide)
  rw [Dev.queue_settle, hport, hstays] at hpassed
  exact absurd hpassed (by decide)

end Sys2Proof
end

