-- ==== Sys2Proof/Proofs/MemoryOperations.lean ====
section
/-! Memory operations of a stack: the one that is issued next, the one that is raised, and what the completion of the one first
issued leaves (07, R214, R216 to R218, R234). -/

namespace Sys2Proof

open Machine

/-! ### Pages of the stacks -/

theorem OnTypes.hbm {T : List PageType} {k off : Nat} (hk : k < 4) (ho : off < 0x1000) (ht : .hbm ∈ T) : OnTypes T (Pg.HBM k + off) :=
  OnTypes.page 0x088 4 (by decide) hk ho ht

/-- Two registers of a stack's page. -/
theorem hbm_add_ne {k a b : Nat} (h : a ≠ b) : Pg.HBM k + a ≠ Pg.HBM k + b := fun e => h (Nat.add_left_cancel e)

/-- A register of a stack's page lies on no page of other types. -/
theorem not_onTypes_hbm {T : List PageType} {k off : Nat} (hk : k < 4) (ho : off < 0x1000) (d : .hbm ∉ T) :
    ¬ OnTypes T (Pg.HBM k + off) := fun h =>
  h.disjoint (.hbm (T := [.hbm]) hk ho (List.mem_singleton.mpr rfl)) fun _ ht hm => d (List.mem_singleton.mp hm ▸ ht)

/-- The frame of an update gives the register of a counter that counted before it. -/
theorem Counted.trans {ps : List Part} {A : Nat → Prop} {s t u : Dev} {a : Nat} (h : Counted a s t) (f : Frame ps A t u) (ha : ¬ A a) :
    Counted a s u := (f.1 a ha).trans h

/-- What happened before it did not concern the counter. -/
theorem Counted.after {ps : List Part} {A : Nat → Prop} {s t u : Dev} {a : Nat} (h : Counted a t u) (f : Frame ps A s t) (ha : ¬ A a) :
    Counted a s u := Eq.trans h (congrArg (· + 1) (f.1 a ha))

theorem Counted.settle {s t : Dev} {a : Nat} (h : Counted a s t) : Counted a s (settle t) := (settle_rd _ _).trans h

theorem counted_count (s : Dev) (a : Nat) : Counted a s (s.count a) := Dev.rd_count_same s a 1

namespace Machine.Dev

variable {s : Dev} {k : Nat}

/-! ### The operation that is issued (R216, R217) -/

/-- The operation kept so far or one of the list has a priority as high as all of them. -/
theorem nextOp_from (l : List HbmOp) (b : HbmOp) : ∃ y, l.foldl (fun b x => match b with
      | some y => if x.prio < y.prio then some x else b
      | none => some x) (some b) = some y
    ∧ (y = b ∨ y ∈ l) ∧ y.prio ≤ b.prio ∧ ∀ z ∈ l, y.prio ≤ z.prio := by
  induction l generalizing b with
  | nil => exact ⟨b, rfl, .inl rfl, Nat.le_refl _, by simp⟩
  | cons x l ih =>
    rw [List.foldl_cons]
    dsimp only
    split
    · obtain ⟨y, hy, hm, hb, hl⟩ := ih x
      refine ⟨y, hy, ?_, by omega, List.forall_mem_cons.mpr ⟨hb, hl⟩⟩
      rcases hm with rfl | hm
      · exact .inr (by simp)
      · exact .inr (by simp [hm])
    · obtain ⟨y, hy, hm, hb, hl⟩ := ih b
      refine ⟨y, hy, ?_, hb, List.forall_mem_cons.mpr ⟨by omega, hl⟩⟩
      rcases hm with rfl | hm
      · exact .inl rfl
      · exact .inr (by simp [hm])

/-- Among waiting operations one of the highest priority is next. -/
theorem nextOp_spec {l : List HbmOp} (h : l ≠ []) : ∃ y ∈ l, nextOp l = some y ∧ ∀ z ∈ l, y.prio ≤ z.prio := by
  cases l with
  | nil => exact absurd rfl h
  | cons x l =>
    obtain ⟨y, hy, hm, hx, hl⟩ := nextOp_from l x
    exact ⟨y, by rcases hm with rfl | hm <;> simp [*], hy, List.forall_mem_cons.mpr ⟨hx, hl⟩⟩

/-- The registers that show the operations in flight. -/
def InflightRegs (k a : Nat) : Prop :=
  a = Pg.HBM k + HBM.INFLIGHT ∨ a = Pg.HBM k + HBM.INFLIGHT_PEAK ∨ a = Pg.BUF + BUF.INFLIGHT ∨ a = Pg.BUF + BUF.INFLIGHT_PEAK

theorem inflightShow_frame (k : Nat) : Frame [] (InflightRegs k) s (s.inflightShow k) := by
  have hpeak : ∀ (t : Dev) a lo len v, InflightRegs k a → Frame [] (InflightRegs k) t (t.peakF a lo len v) :=
    fun t a lo len v h => Frame.ite (Frame.setF _ _ _ h) (Frame.refl t)
  exact (((Frame.setF _ _ _ (.inl rfl)).trans (hpeak _ _ _ _ _ (.inr (.inl rfl)))).trans
    (Frame.setF _ _ _ (.inr (.inr (.inl rfl))))).trans (hpeak _ _ _ _ _ (.inr (.inr (.inr rfl))))

theorem not_inflightRegs {off : Nat} (hk : k < 4) (ho : off < 0x1000) (hshow : off ≠ HBM.INFLIGHT) (hpeak : off ≠ HBM.INFLIGHT_PEAK) :
    ¬ InflightRegs k (Pg.HBM k + off) := by
  simp only [HBM.INFLIGHT, HBM.INFLIGHT_PEAK] at hshow hpeak
  simp only [InflightRegs, Pg.HBM, Pg.BUF, HBM.INFLIGHT, HBM.INFLIGHT_PEAK, BUF.INFLIGHT, BUF.INFLIGHT_PEAK]
  omega

/-- The operations in flight are shown while the field holds their number. -/
theorem fld_inflightShow (hk : k < 4) (h : (s.stack4 k).inflight.length < 2 ^ 13) :
    (s.inflightShow k).fld (Pg.HBM k + HBM.INFLIGHT) 0 13 = (s.stack4 k).inflight.length := by
  have hrest : ∀ (t : Dev) all, ((((t.peakF (Pg.HBM k + HBM.INFLIGHT_PEAK) 0 13 (s.stack4 k).inflight.length).setF
      (Pg.BUF + BUF.INFLIGHT) 0 15 all).peakF (Pg.BUF + BUF.INFLIGHT_PEAK) 0 15 all)).rd (Pg.HBM k + HBM.INFLIGHT)
        = t.rd (Pg.HBM k + HBM.INFLIGHT) := fun t all => by
    have hpeak : ∀ (t : Dev) a lo len v, a ≠ Pg.HBM k + HBM.INFLIGHT →
        (t.peakF a lo len v).rd (Pg.HBM k + HBM.INFLIGHT) = t.rd (Pg.HBM k + HBM.INFLIGHT) := fun t a lo len v ha => by
      unfold peakF
      split
      · exact rd_setF_ne _ _ _ _ _ ha.symm
      · rfl
    have hbuf : ∀ off, off < 0x1000 → Pg.BUF + off ≠ Pg.HBM k + HBM.INFLIGHT := fun off ho => by
      simp only [Pg.BUF, Pg.HBM, HBM.INFLIGHT]
      omega
    rw [hpeak _ _ _ _ _ (hbuf _ (by decide)), rd_setF_ne _ _ _ _ _ (hbuf _ (by decide)).symm, hpeak _ _ _ _ _ (by simp)]
  rw [inflightShow, fld, hrest, rd_setF_same, fieldOf_withField _ _ _ _ (by decide), Nat.mod_eq_of_lt h]

/-- With no room nothing is issued. -/
theorem hbmIssue_full (h : 4096 ≤ (s.stack4 k).inflight.length) : s.hbmIssue k = s := by
  unfold hbmIssue
  extract_lets x
  split
  · rfl
  · exact if_pos h

/-- With room a waiting operation of the highest priority joins those in flight. -/
theorem hbmIssue_spec (hw : (s.stack4 k).waiting ≠ []) (h : (s.stack4 k).inflight.length < 4096) :
    ∃ y ∈ (s.stack4 k).waiting, (∀ z ∈ (s.stack4 k).waiting, y.prio ≤ z.prio) ∧ s.hbmIssue k
      = (s.setStack4 k { s.stack4 k with waiting := (s.stack4 k).waiting.erase y
                                         inflight := (s.stack4 k).inflight ++ [y] }).inflightShow k := by
  obtain ⟨y, hy, hnext, hprio⟩ := nextOp_spec hw
  refine ⟨y, hy, hprio, ?_⟩
  simp only [hbmIssue, hnext]
  exact if_neg (Nat.not_le.mpr h)

/-! ### The operation that is raised (R217) -/

theorem raiseFirst_of_leads {pre post l : List HbmOp} {o : HbmOp} (h : Leads (fun y => decide (4 ≤ y.prio)) pre o post l) :
    raiseFirst l = pre ++ { o with prio := 3 } :: post := by
  obtain ⟨rfl, ho, hpre⟩ := h
  induction pre with
  | nil => exact if_pos (of_decide_eq_true ho)
  | cons x pre ih =>
    obtain ⟨hx, hpre⟩ := List.forall_mem_cons.mp hpre
    rw [List.cons_append, raiseFirst, if_neg (of_decide_eq_false hx), ih hpre, List.cons_append]

theorem hbmRaise_of_leads {pre post : List HbmOp} {o : HbmOp}
    (h : Leads (fun y => decide (4 ≤ y.prio)) pre o post (s.stack4 k).waiting) :
    s.hbmRaise k = s.setStack4 k { s.stack4 k with waiting := pre ++ { o with prio := 3 } :: post } := by
  have hany : (s.stack4 k).waiting.any (fun o => decide (4 ≤ o.prio)) = true :=
    List.any_eq_true.mpr ⟨o, by rw [h.1]; simp, h.2.1⟩
  rw [hbmRaise, if_pos hany, raiseFirst_of_leads h]

/-! ### The operation that completes (R214, R216, R234) -/

/-- A stack without the operation first issued to it. -/
def inflightLeft (s : Dev) (k : Nat) (rest : List HbmOp) : Dev := (s.setStack4 k { s.stack4 k with inflight := rest }).inflightShow k

theorem inflightLeft_frame (k : Nat) (rest : List HbmOp) : Frame [.buf] (InflightRegs k) s (s.inflightLeft k rest) :=
  (Frame.setStack4 _ _ (by decide)).trans ((inflightShow_frame k).mono (by simp) fun _ => id)

@[simp] theorem inflight_inflightLeft (rest : List HbmOp) : ((s.inflightLeft k rest).stack4 k).inflight = rest := by
  rw [inflightLeft, stack4_of_buf (buf_inflightShow k), stack4_setStack4_same]

@[simp] theorem queue_inflightLeft (rest : List HbmOp) (q : Nat) : (s.inflightLeft k rest).queue q = s.queue q :=
  queue_of_buf (s := s.setStack4 k { s.stack4 k with inflight := rest }) (buf_inflightShow k) q

@[simp] theorem sched_inflightLeft (rest : List HbmOp) (h : Nat) : (s.inflightLeft k rest).sched h = s.sched h :=
  sched_of_buf (s := s.setStack4 k { s.stack4 k with inflight := rest }) (buf_inflightShow k) h

section
variable {o : HbmOp} {rest : List HbmOp} (h : (s.stack4 k).inflight = o :: rest)
include h

/-- A first parity failure leaves the operation in its place, to be retried. -/
theorem hbmComplete_retried (ho : o.retried = false) : s.hbmComplete k .parity
    = (s.setStack4 k { s.stack4 k with inflight := { o with retried := true } :: rest }).count (Pg.HBM k + HBM.PARITY_RETRY) := by
  simp only [hbmComplete, h]
  exact if_pos ⟨trivial, ho⟩

/-- A write completes with any other result. -/
theorem hbmComplete_write {r : HbmResult} (hr : r ≠ .parity ∨ o.retried = true) (ho : HbmKind.reads o.kind = false) :
    s.hbmComplete k r = (s.inflightLeft k rest).hbmDeliver o := by
  have hretry : ¬ (r = .parity ∧ o.retried = false) := fun ⟨hp, hn⟩ => by
    rcases hr with hr | hr
    · exact hr hp
    · exact absurd (hr.symm.trans hn) (by decide)
  simp only [hbmComplete, h, if_neg hretry, ho, Bool.not_false, if_true]
  rfl

section
variable (ho : HbmKind.reads o.kind = true)
include ho

theorem hbmComplete_ok : s.hbmComplete k .ok = (s.inflightLeft k rest).hbmDeliver o := by
  simp [hbmComplete, h, ho, inflightLeft]

theorem hbmComplete_corrected :
    s.hbmComplete k .corrected = ((s.inflightLeft k rest).count48 (Pg.HBM k + HBM.ECC_CORR)).hbmDeliver o := by
  simp [hbmComplete, h, ho, inflightLeft]

end

end

/-- A read of a channel that could not be corrected is counted against it. -/
def uncMarked (s : Dev) (k ch : Nat) : Dev :=
  ((s.count (Pg.HBM k + HBM.ECC_UNC)).count (Pg.HBM k + HBM.CH_UNC + 4 * (ch % 16))).raise (Pg.HBM k) 8

/-- And its instant is kept (R234, R235). -/
def uncCounted (s : Dev) (k ch : Nat) : Dev :=
  let t := s.uncMarked k ch
  t.setStack4 k { t.stack4 k with
    uncTimes := (ch, t.mono) :: (t.stack4 k).uncTimes.filter (fun u => decide (t.mono < u.2 + 1000000000)) }

theorem hbmComplete_uncorrectable {o : HbmOp} {rest : List HbmOp} (h : (s.stack4 k).inflight = o :: rest)
    (ho : HbmKind.reads o.kind = true) :
    s.hbmComplete k .uncorrectable = ((s.inflightLeft k rest).uncCounted k o.ch).hbmUnreadable o := by
  simp only [hbmComplete, h, ho, if_neg (show ¬ (HbmResult.uncorrectable = .parity ∧ o.retried = false) by simp), Bool.not_true,
    Bool.false_eq_true, if_false]
  rfl

@[simp] theorem buf_uncMarked (ch : Nat) : (s.uncMarked k ch).buf = s.buf := by simp [uncMarked]

@[simp] theorem inflight_uncCounted (ch : Nat) : ((s.uncCounted k ch).stack4 k).inflight = (s.stack4 k).inflight := by
  rw [uncCounted, stack4_setStack4_same, stack4_of_buf (buf_uncMarked ch)]

/-- The counters of a read that could not be corrected, and the cause it raises. -/
theorem uncCounted_counts (ch : Nat) : Counted (Pg.HBM k + HBM.ECC_UNC) s (s.uncCounted k ch)
    ∧ Counted (Pg.HBM k + HBM.CH_UNC + 4 * (ch % 16)) s (s.uncCounted k ch)
    ∧ (s.uncCounted k ch).bit (Pg.HBM k + HDR.INT_STATUS) 8 = true := by
  have hunc : Pg.HBM k + HBM.ECC_UNC ≠ Pg.HBM k + HBM.CH_UNC + 4 * (ch % 16) := by
    rw [Nat.add_assoc]
    exact hbm_add_ne (by simp only [HBM.ECC_UNC, HBM.CH_UNC]; omega)
  have hch : Pg.HBM k + HBM.CH_UNC + 4 * (ch % 16) ≠ Pg.HBM k + 0x10 := by
    rw [Nat.add_assoc]
    exact hbm_add_ne (by simp only [HBM.CH_UNC]; omega)
  refine ⟨?_, ?_, ?_⟩
  · rw [Counted, uncCounted, rd_setStack4, uncMarked, rd_raise_ne _ _ _ (by simp), rd_count_ne _ _ _ hunc]
    exact counted_count s _
  · rw [Counted, uncCounted, rd_setStack4, uncMarked, rd_raise_ne _ _ _ hch]
    exact Eq.trans (counted_count _ _) (congrArg (· + 1) (rd_count_ne _ _ _ hunc.symm))
  · rw [uncCounted, bit, rd_setStack4, uncMarked]
    exact bit_raise_same _ _ (by decide)

/-! ### What a completed operation brings (R218, R223, R187) -/

/-- A table whose values are all changed alike. -/
theorem sparse_get_map {α : Type} (f : α → α) (m : Sparse α) {d : Nat → α} (hd : ∀ i, f (d i) = d i) (i : Nat) :
    Sparse.get d (m.map fun p => (p.1, f p.2)) i = f (Sparse.get d m i) := by
  induction m with
  | nil => exact (hd i).symm
  | cons p m ih =>
    simp only [List.map_cons, Sparse.get]
    split
    · rfl
    · exact ih

/-- A piece of a record is written: its writes to come are one fewer. -/
def pieceWritten (num : Nat) (y : BufRec) : BufRec := if y.num = num then { y with toWrite := y.toWrite - 1 } else y

/-- A write of a record's bytes brings each queue's records the piece that is written. -/
theorem recs_hbmDeliver_packetWrite {o : HbmOp} {num : Nat} (ho : o.kind = .packetWrite num) (q : Nat) :
    ((s.hbmDeliver o).queue q).recs = (s.queue q).recs.map (pieceWritten num) := by
  simp only [hbmDeliver, ho, queue]
  rw [sparse_get_map (fun x : Queue => { x with recs := x.recs.map (fun r =>
    if r.num == num then { r with toWrite := r.toWrite - 1 } else r) }) _ (fun _ => rfl) q]
  simp only [beq_iff_eq]
  rfl

theorem stack4_hbmDeliver_packetWrite {o : HbmOp} {num : Nat} (ho : o.kind = .packetWrite num) :
    (s.hbmDeliver o).stack4 k = s.stack4 k := by simp [hbmDeliver, ho, stack4]

/-- A read of a record's bytes brings its host port the piece that is read. -/
theorem hbmDeliver_packetRead {o : HbmOp} {h num : Nat} (ho : o.kind = .packetRead h num) :
    s.hbmDeliver o = s.setSched h { s.sched h with
      txq := (s.sched h).txq.map (fun e => if e.1.num = num then (e.1, e.2 - 1) else e) } := by
  simp [hbmDeliver, ho]

/-- A packet that waits for a record that cannot be read is left without it. -/
def fillLost (f : Nat) (x : Packet) : Packet := if x.decided.isNone && x.fetched.contains f then { x with unread := true } else x

theorem packets_fillFails (f p : Nat) : (s.fillFails f).packets p = (s.packets p).map (fillLost f) :=
  sparse_get_map (List.map (fillLost f)) s.flow.ports (fun _ => rfl) p

theorem stack4_fillFails (f : Nat) : (s.fillFails f).stack4 k = s.stack4 k := rfl

theorem fillFails_frame (f : Nat) : Frame [.flow] (fun _ => False) s (s.fillFails f) := Frame.setFlow _ (by decide)

/-- Packets whose fill of a record fails are left without it. -/
theorem unread_fillFails {f p : Nat} {y : Packet} (hy : y ∈ (s.fillFails f).packets p) (hd : y.decided = none) (hf : f ∈ y.fetched) :
    y.unread = true := by
  rw [packets_fillFails] at hy
  obtain ⟨x, -, rfl⟩ := List.mem_map.mp hy
  unfold fillLost at hd hf ⊢
  split
  · rfl
  · next hx =>
    rw [if_neg hx] at hd hf
    exact absurd (by simp [hd, hf]) hx

end Machine.Dev

/-! ### The commands -/

section
variable {s : State} {k : Stack} {o : HbmOp} {rest : List HbmOp}

theorem gives_hbmIssue (hw : (s.d.stack4 k).waiting ≠ []) (h : (s.d.stack4 k).inflight.length < 4096) :
    Gives (.hbmOperationIssue k) s (fun t => ∃ y ∈ (s.d.stack4 k).waiting, (∀ z ∈ (s.d.stack4 k).waiting, y.prio ≤ z.prio)
      ∧ (t.stack4 k).waiting = (s.d.stack4 k).waiting.erase y ∧ (t.stack4 k).inflight = (s.d.stack4 k).inflight ++ [y]
      ∧ t.fld (Pg.HBM k + HBM.INFLIGHT) 0 13 = (s.d.stack4 k).inflight.length + 1) := by
  obtain ⟨y, hy, hprio, hissue⟩ := Dev.hbmIssue_spec hw h
  refine gives_run (Eq.refl (execHbmOperationIssue k s)) ⟨y, hy, hprio, ?_⟩
  rw [hissue, Dev.stack4_settle, Dev.stack4_of_buf (Dev.buf_inflightShow _), Dev.stack4_setStack4_same, Dev.fld_settle]
  refine ⟨rfl, rfl, ?_⟩
  rw [Dev.fld_inflightShow k.isLt (by simp only [Dev.stack4_setStack4_same, List.length_append, List.length_singleton]; omega)]
  simp

theorem gives_hbmIssue_full (h : 4096 ≤ (s.d.stack4 k).inflight.length) :
    Gives (.hbmOperationIssue k) s (Frame [] (fun _ => False) s.d) :=
  gives_run (Eq.refl (execHbmOperationIssue k s)) (by rw [Dev.hbmIssue_full h]; exact (Frame.refl _).settle)

theorem gives_hbmRaise {pre post : List HbmOp} (h : Leads (fun y => decide (4 ≤ y.prio)) pre o post (s.d.stack4 k).waiting) :
    Gives (.hbmPriorityRaise k) s (fun t => (t.stack4 k).waiting = pre ++ { o with prio := 3 } :: post
      ∧ Frame [.buf] (fun _ => False) s.d t) := by
  refine gives_run (Eq.refl (execHbmPriorityRaise k s)) ?_
  rw [Dev.hbmRaise_of_leads h]
  exact ⟨by simp, (Frame.setStack4 _ _ (by decide)).settle⟩

section
variable (h : (s.d.stack4 k).inflight = o :: rest)
include h

theorem gives_hbmComplete_packetWrite {num : Nat} {r : HbmResult} (ho : o.kind = .packetWrite num)
    (hr : r ≠ .parity ∨ o.retried = true) : Gives (.hbmOperationComplete k r) s (fun t => (t.stack4 k).inflight = rest
      ∧ ∀ q, (t.queue q).recs = (s.d.queue q).recs.map (Dev.pieceWritten num)) := by
  refine gives_run (Eq.refl (execHbmOperationComplete k r s)) ?_
  rw [Dev.hbmComplete_write h hr (by rw [ho]; rfl)]
  exact ⟨by rw [Dev.stack4_settle, Dev.stack4_hbmDeliver_packetWrite ho, Dev.inflight_inflightLeft],
    fun q => by rw [Dev.queue_settle, Dev.recs_hbmDeliver_packetWrite ho, Dev.queue_inflightLeft]⟩

theorem gives_hbmComplete_retried (ho : o.retried = false) : Gives (.hbmOperationComplete k .parity) s (fun t =>
    (t.stack4 k).inflight = { o with retried := true } :: rest ∧ Counted (Pg.HBM k + HBM.PARITY_RETRY) s.d t
      ∧ Frame [.buf] (· = Pg.HBM k + HBM.PARITY_RETRY) s.d t) := by
  refine gives_run (Eq.refl (execHbmOperationComplete k .parity s)) ?_
  rw [Dev.hbmComplete_retried h ho]
  have hset : Frame [.buf] (· = Pg.HBM k + HBM.PARITY_RETRY) s.d
      (s.d.setStack4 k { s.d.stack4 k with inflight := { o with retried := true } :: rest }) := Frame.setStack4 _ _ (by decide)
  refine ⟨?_, (counted_count _ _).settle, (hset.trans (Frame.count _ rfl)).settle⟩
  rw [Dev.stack4_settle, Dev.stack4_count, Dev.stack4_setStack4_same]

theorem gives_hbmComplete_packetRead {p num : Nat} (ho : o.kind = .packetRead p num) : Gives (.hbmOperationComplete k .ok) s (fun t =>
    (t.stack4 k).inflight = rest
      ∧ (t.sched p).txq = (s.d.sched p).txq.map (fun e => if e.1.num = num then (e.1, e.2 - 1) else e)) := by
  refine gives_run (Eq.refl (execHbmOperationComplete k .ok s)) ?_
  rw [Dev.hbmComplete_ok h (by rw [ho]; rfl), Dev.hbmDeliver_packetRead ho]
  exact ⟨by rw [Dev.stack4_settle, Dev.stack4_setSched, Dev.inflight_inflightLeft],
    by rw [Dev.sched_settle, Dev.sched_setSched_same, Dev.sched_inflightLeft]⟩

theorem gives_hbmComplete_corrected {p num : Nat} (ho : o.kind = .packetRead p num) :
    Gives (.hbmOperationComplete k .corrected) s (fun t => (t.stack4 k).inflight = rest
      ∧ Raised 48 (Pg.HBM k + HBM.ECC_CORR) 1 s.d t) := by
  refine gives_run (Eq.refl (execHbmOperationComplete k .corrected s)) ?_
  rw [Dev.hbmComplete_corrected h (by rw [ho]; rfl), Dev.hbmDeliver_packetRead ho]
  refine ⟨?_, ?_⟩
  · rw [Dev.stack4_settle, Dev.stack4_setSched, Dev.stack4_of_buf (s := s.d.inflightLeft k rest) (by simp), Dev.inflight_inflightLeft]
  · refine Raised.settle (((raised_count48 _ _).after (Dev.inflightLeft_frame (s := s.d) k rest) ?_).trans
      (ps := [.buf]) (A := fun _ => False) (Frame.setBuf _ (by decide)) fun _ _ => id)
    rintro x (rfl | rfl)
    · exact Dev.not_inflightRegs k.isLt (by decide) (by decide) (by decide)
    · rw [Nat.add_assoc]
      exact Dev.not_inflightRegs k.isLt (by decide) (by decide) (by decide)

theorem gives_hbmComplete_uncorrectable {f : Nat} (ho : o.kind = .flowRead f) :
    Gives (.hbmOperationComplete k .uncorrectable) s (fun t => (t.stack4 k).inflight = rest
      ∧ Counted (Pg.HBM k + HBM.ECC_UNC) s.d t ∧ Counted (Pg.HBM k + HBM.CH_UNC + 4 * (o.ch % 16)) s.d t
      ∧ t.bit (Pg.HBM k + HDR.INT_STATUS) 8 = true
      ∧ ∀ p : Lane, ∀ y ∈ t.packets p, y.decided = none → f ∈ y.fetched → y.unread = true) := by
  refine gives_run (Eq.refl (execHbmOperationComplete k .uncorrectable s)) ?_
  have hfails : ∀ t : Dev, t.hbmUnreadable o = t.fillFails f := fun t => by simp [Dev.hbmUnreadable, ho]
  rw [Dev.hbmComplete_uncorrectable h (by rw [ho]; rfl), hfails]
  obtain ⟨hunc, hch, hbit⟩ := Dev.uncCounted_counts (s := s.d.inflightLeft k rest) (k := k) o.ch
  have hleft := Dev.inflightLeft_frame (s := s.d) k rest
  have hfill := (Dev.fillFails_frame (s := (s.d.inflightLeft k rest).uncCounted k o.ch) f).settle
  have hchOff : HBM.CH_UNC + 4 * (o.ch % 16) < 0x1000 ∧ HBM.CH_UNC + 4 * (o.ch % 16) ≠ HBM.INFLIGHT
      ∧ HBM.CH_UNC + 4 * (o.ch % 16) ≠ HBM.INFLIGHT_PEAK := by simp only [HBM.CH_UNC, HBM.INFLIGHT, HBM.INFLIGHT_PEAK]; omega
  obtain ⟨hlt, hshow, hpeak⟩ := hchOff
  refine ⟨?_, ?_, ?_, ?_, fun p y hy hd hf => ?_⟩
  · rw [Dev.stack4_settle, Dev.stack4_fillFails, Dev.inflight_uncCounted, Dev.inflight_inflightLeft]
  · exact (hunc.after hleft (Dev.not_inflightRegs k.isLt (by decide) (by decide) (by decide))).trans hfill id
  · exact (hch.after hleft (by rw [Nat.add_assoc]; exact Dev.not_inflightRegs k.isLt hlt hshow hpeak)).trans hfill id
  · exact (congrArg (bitOf · 8) (hfill.1 _ id)).trans hbit
  · rw [Dev.packets_settle] at hy
    exact Dev.unread_fillFails hy hd hf

end

end

end Sys2Proof
end

