-- ==== Sys2Proof/Proofs/Retirement.lean ====
section
/-! Channels and stacks that retire: the channels leave service with their reserved content on its way, alone or with their stack (07,
R235 to R238). -/

namespace Sys2Proof

open Machine

theorem Frame.setTest {ps : List Part} {A : Nat → Prop} {s : Dev} (v : SelfTest) (h : .test ∈ ps) : Frame ps A s { s with test := v } :=
  ofPart h (fun _ => rfl) fun p hp => by
    cases p with
    | test => exact absurd rfl hp
    | _ => rfl

theorem Frame.testLoss {ps : List Part} {A : Nat → Prop} {s : Dev} (c : Nat) (h : .test ∈ ps) : Frame ps A s (s.testLoss c) :=
  ite (setTest _ h) (refl s)

namespace Machine.Dev

variable {s : Dev} {k : Nat}

/-- A channel is out of service and its reserved content on its way. -/
def Relocates (s : Dev) (i : Nat) : Prop := s.chRetired i = true ∧ i ∈ (s.stack4 (i / 16)).relocating

theorem chRetired_of_rd {t : Dev} {i : Nat} (h : t.rd (Pg.HBM (i / 16) + HBM.CH_RETIRED) = s.rd (Pg.HBM (i / 16) + HBM.CH_RETIRED)) :
    t.chRetired i = s.chRetired i := congrArg (bitOf · (i % 16)) h

/-! ### Channels leave service -/

/-- One channel leaves service. -/
def dropChannel (s : Dev) (c : Nat) : Dev :=
  let t := (s.setB (Pg.HBM (c / 16) + HBM.CH_RETIRED) (c % 16) true).setFreeList c FreeList.init
  let t := if t.test.cur == some (c / 16) && t.fld (Pg.BIST + BIST.BIST_STATUS) 24 4 == 5 then t.testLoss 5 else t
  t.setStack4 (c / 16) { t.stack4 (c / 16) with relocating := (t.stack4 (c / 16)).relocating ++ [c] }

theorem dropChannels_eq (chs : List Nat) : s.dropChannels chs = chs.foldl dropChannel s := rfl

theorem rd_testLoss (c a : Nat) : (s.testLoss c).rd a = s.rd a := (Frame.testLoss (ps := [.test]) (A := fun _ => False) c (by decide)).1 a id

theorem buf_testLoss (c : Nat) : (s.testLoss c).buf = s.buf :=
  (Frame.testLoss (ps := [.test]) (A := fun _ => False) c (by decide)).2 .buf (by decide)

theorem rd_dropChannel (c a : Nat) : (s.dropChannel c).rd a = (s.setB (Pg.HBM (c / 16) + HBM.CH_RETIRED) (c % 16) true).rd a := by
  unfold dropChannel
  extract_lets t u
  rw [rd_setStack4]
  have hu : u.rd a = t.rd a := by
    unfold u
    split
    · exact rd_testLoss 5 a
    · rfl
  exact hu

theorem chRetired_dropChannel (c i : Nat) : (s.dropChannel c).chRetired i = (i == c || s.chRetired i) := by
  rw [chRetired, bit, rd_dropChannel]
  by_cases hk : i / 16 = c / 16
  · rw [hk, rd_setB_same]
    by_cases hi : i % 16 = c % 16
    · have hic : (i == c) = true := by simp only [beq_iff_eq]; omega
      rw [hi, bitOf_withBit _ _ _ (by omega), hic, Bool.true_or]
    · have hic : (i == c) = false := by simp only [beq_eq_false_iff_ne]; omega
      rw [bitOf_withBit_ne _ _ _ _ hi, hic, Bool.false_or, chRetired, hk, bit]
  · have hic : (i == c) = false := by simp only [beq_eq_false_iff_ne]; omega
    rw [rd_setB_ne _ _ _ _ (by simp only [Pg.HBM]; omega), hic, Bool.false_or, chRetired, bit]

theorem relocating_dropChannel_same (c : Nat) :
    ((s.dropChannel c).stack4 (c / 16)).relocating = (s.stack4 (c / 16)).relocating ++ [c] := by
  unfold dropChannel
  extract_lets t u
  rw [stack4_setStack4_same]
  have hu : u.stack4 (c / 16) = s.stack4 (c / 16) := by
    unfold u
    split
    · exact stack4_of_buf (s := t) (buf_testLoss 5) _
    · rfl
  rw [hu]

theorem stack4_dropChannel_ne {c : Nat} (h : k ≠ c / 16) : (s.dropChannel c).stack4 k = s.stack4 k := by
  unfold dropChannel
  extract_lets t u
  rw [stack4_setStack4_ne _ _ h]
  unfold u
  split
  · exact stack4_of_buf (s := t) (buf_testLoss 5) _
  · rfl

theorem mem_relocating_dropChannel {c i : Nat} (h : i = c ∨ i ∈ (s.stack4 (i / 16)).relocating) :
    i ∈ ((s.dropChannel c).stack4 (i / 16)).relocating := by
  by_cases hk : i / 16 = c / 16
  · rw [hk] at h ⊢
    rw [relocating_dropChannel_same]
    simpa [or_comm] using h
  · rw [stack4_dropChannel_ne hk]
    exact h.resolve_left fun e => hk (e ▸ rfl)

theorem chRetired_dropChannels (chs : List Nat) (i : Nat) : (s.dropChannels chs).chRetired i = (chs.contains i || s.chRetired i) := by
  rw [dropChannels_eq]
  induction chs generalizing s with
  | nil => rfl
  | cons c chs ih => rw [List.foldl_cons, ih, chRetired_dropChannel, List.contains_cons, ← Bool.or_assoc, Bool.or_comm (i == c)]

theorem mem_relocating_dropChannels {chs : List Nat} {i : Nat} (h : i ∈ chs ∨ i ∈ (s.stack4 (i / 16)).relocating) :
    i ∈ ((s.dropChannels chs).stack4 (i / 16)).relocating := by
  rw [dropChannels_eq]
  induction chs generalizing s with
  | nil => exact h.resolve_left (by simp)
  | cons c chs ih =>
    rw [List.mem_cons, or_assoc] at h
    refine ih ?_
    rcases h with h | h | h
    · exact .inr (mem_relocating_dropChannel (.inl h))
    · exact .inl h
    · exact .inr (mem_relocating_dropChannel (.inr h))

/-- The registers that name the retired channels. -/
abbrev RetiredRegs (a : Nat) : Prop := ∃ k, a = Pg.HBM k + HBM.CH_RETIRED

theorem dropChannels_rd {chs : List Nat} {a : Nat} (h : ¬ RetiredRegs a) : (s.dropChannels chs).rd a = s.rd a := by
  rw [dropChannels_eq]
  induction chs generalizing s with
  | nil => rfl
  | cons c chs ih => rw [List.foldl_cons, ih, rd_dropChannel, rd_setB_ne _ _ _ _ fun e => h ⟨_, e⟩]

/-! ### Room for the relocated content -/

theorem stack4_foldl {β : Type} {f : Dev → β → Dev} {l : List β} (h : ∀ t, ∀ b ∈ l, (f t b).stack4 k = t.stack4 k) :
    (l.foldl f s).stack4 k = s.stack4 k := by
  induction l generalizing s with
  | nil => rfl
  | cons b l ih => exact (ih fun t c hc => h t c (by simp [hc])).trans (h s b (by simp))

theorem takeReloc_frame (n : Nat) : Frame [.buf] (fun _ => False) s (s.takeReloc n) :=
  (Frame.foldl (fun _ _ => Frame.setBuf _ (by decide)) _).trans (Frame.setBuf _ (by decide))

theorem stack4_takeReloc (n : Nat) : (s.takeReloc n).stack4 k = s.stack4 k := by
  unfold takeReloc
  extract_lets live j t
  have ht : t.stack4 k = s.stack4 k := stack4_foldl fun _ _ _ => rfl
  exact ht

/-! ### Channels alone (R236, R237) -/

/-- The registers that show the relocation of a stack, and those of the pages of the buffer. -/
abbrev RelocRegs (k a : Nat) : Prop := a = Pg.HBM k + HBM.RELOC_STATUS ∨ OnTypes [.buf] a

/-- Channels that retire alone leave service with CH_RETIRED; the rest shows their relocation. -/
theorem retireOnly_after (chs : List Nat) :
    Frame [.buf] (RelocRegs k) ((s.dropChannels chs).raise (Pg.HBM k) 9) (s.retireOnly k chs)
      ∧ ∀ j, (s.retireOnly k chs).stack4 j = (s.dropChannels chs).stack4 j := by
  unfold retireOnly
  extract_lets t fit rest b u v
  have hu : Frame [.buf] (RelocRegs k) t u := Frame.setBuf _ (by decide)
  have hv : Frame [.buf] (RelocRegs k) u v := Frame.ite (Frame.refl u) ((takeReloc_frame _).mono (fun _ => id) fun _ => False.elim)
  have hshow : Frame [.buf] (RelocRegs k) v ((v.relocRun k (!rest.isEmpty)).bufShow) :=
    (Frame.wr _ (.inl rfl)).trans (bufShow_frame.mono (by simp) fun _ => .inr)
  refine ⟨(hu.trans hv).trans hshow, fun j => ?_⟩
  have hvj : v.stack4 j = u.stack4 j := by
    unfold v
    split
    · rfl
    · exact stack4_takeReloc _
  have hrun : (v.relocRun k (!rest.isEmpty)).stack4 j = v.stack4 j := stack4_of_buf (by simp [relocRun]) j
  have huj : u.stack4 j = (s.dropChannels chs).stack4 j := rfl
  rw [stack4_of_buf buf_bufShow, hrun, hvj, huj]

/-- The registers of a stack's page that the relocation does not show, are none of them. -/
theorem not_relocRegs {off : Nat} (hk : k < 4) (ho : off < 0x1000) (hr : off ≠ HBM.RELOC_STATUS) : ¬ RelocRegs k (Pg.HBM k + off) := by
  rintro (h | h)
  · exact hbm_add_ne hr h
  · exact not_onTypes_hbm hk ho (by decide) h

/-- The retired channels of every stack are shown where the relocation is not. -/
theorem not_relocRegs_retired {i : Nat} (hi : i < 64) : ¬ RelocRegs k (Pg.HBM (i / 16) + HBM.CH_RETIRED) := by
  rintro (h | h)
  · simp only [Pg.HBM, HBM.CH_RETIRED, HBM.RELOC_STATUS] at h
    omega
  · exact not_onTypes_hbm (by omega) (by decide) (by decide) h

section
variable {chs : List Nat}

theorem chRetired_retireOnly {i : Nat} (hi : i < 64) : (s.retireOnly k chs).chRetired i = (chs.contains i || s.chRetired i) := by
  rw [← chRetired_dropChannels chs i]
  refine chRetired_of_rd (((retireOnly_after chs).1.1 _ (not_relocRegs_retired hi)).trans (rd_raise_ne _ _ _ ?_))
  simp only [Pg.HBM, HBM.CH_RETIRED]
  omega

theorem mem_relocating_retireOnly {i : Nat} (h : i ∈ chs) : i ∈ ((s.retireOnly k chs).stack4 (i / 16)).relocating := by
  rw [(retireOnly_after chs).2]
  exact mem_relocating_dropChannels (.inl h)

theorem bit_retireOnly (hk : k < 4) : (s.retireOnly k chs).bit (Pg.HBM k + HDR.INT_STATUS) 9 = true :=
  (congrArg (bitOf · 9) ((retireOnly_after chs).1.1 _ (not_relocRegs hk (by decide) (by decide)))).trans (bit_raise_same _ _ (by decide))

theorem stackRetired_retireOnly (hk : k < 4) : (s.retireOnly k chs).stackRetired k = s.stackRetired k := by
  have hst : ¬ RetiredRegs (Pg.HBM k + HBM.STACK_STATUS) := by
    rintro ⟨j, h⟩
    simp only [Pg.HBM, HBM.STACK_STATUS, HBM.CH_RETIRED] at h
    omega
  exact congrArg (bitOf · 2) (((retireOnly_after chs).1.1 _ (not_relocRegs hk (by decide) (by decide))).trans
    ((rd_raise_ne _ _ _ (hbm_add_ne (by decide))).trans (dropChannels_rd hst)))

end

/-- A channel in service retires alone while fewer than two of its stack are out. -/
theorem retireChannels_single {c : Nat} (auto : Bool) (hc : s.chRetired c = false)
    (hfree : ((List.range 16).filter (fun i => s.chRetired (16 * k + i))).length < 2) :
    s.retireChannels k [c] auto = s.retireOnly k [c] := by
  have hnew : [c].filter (fun i => !s.chRetired i) = [c] := by simp [hc]
  simp only [retireChannels, hnew]
  rw [if_neg (by simp), if_pos (by simp only [List.length_singleton]; omega)]

/-- A channel retired alone is out of service, its content on its way, and no other channel with it. -/
theorem retireOnly_single {c : Nat} (hc : c < 64) : (s.retireOnly k [c]).Relocates c
    ∧ ∀ i, i < 64 → i ≠ c → (s.retireOnly k [c]).chRetired i = s.chRetired i :=
  ⟨⟨by rw [chRetired_retireOnly hc]; simp, mem_relocating_retireOnly (by simp)⟩,
    fun i hi hne => by rw [chRetired_retireOnly hi]; simp [hne]⟩

/-! ### A whole stack (R238) -/

/-- The channels of a stack. -/
def stackChannels (k : Nat) : List Nat := (List.range 16).map (16 * k + ·)

theorem mem_stackChannels {i : Nat} (hi : i < 16) : 16 * k + i ∈ stackChannels k := List.mem_map.mpr ⟨i, List.mem_range.mpr hi, rfl⟩

/-- The channels of a stack still in service. -/
def inService (s : Dev) (k : Nat) : List Nat := (stackChannels k).filter (fun c => !s.chRetired c)

/-- The channels of a stack have left service, and the room for what they held is taken. -/
def stackEmptied (s : Dev) (k : Nat) : Dev :=
  let t := (s.dropChannels (s.inService k)).raise (Pg.HBM k) 10
  ({ t with buf := { t.buf with spare := t.buf.spare.filter (fun c => !(s.buf.spare.filter (fun c => c / 16 == k)).contains c) } }).takeReloc
    (17664 * 16)

/-- The stack is shown as retired, its content on its way. -/
def stackRelocates (s : Dev) (k : Nat) : Dev :=
  let t := s.setStack4 k { s.stack4 k with relocating := stackChannels k }
  (((t.setB (Pg.HBM k + HBM.STACK_STATUS) 1 false).setB (Pg.HBM k + HBM.STACK_STATUS) 2 true).setB (Pg.HBM k + HBM.STACK_STATUS) 4 true).relocRun k
    true

theorem retireStack_eq (h : s.stackRetired k = false) : s.retireStack k = ((s.stackEmptied k).stackRelocates k).bufShow := by
  rw [retireStack, if_neg (by rw [h]; decide)]
  rfl

theorem stackEmptied_after :
    Frame [.buf] (fun _ => False) ((s.dropChannels (s.inService k)).raise (Pg.HBM k) 10) (s.stackEmptied k) :=
  (Frame.setBuf _ (by decide)).trans (takeReloc_frame _)

theorem chRetired_stackEmptied {i : Nat} (hi : i < 16) : (s.stackEmptied k).chRetired (16 * k + i) = true := by
  have hdrop : (s.dropChannels (s.inService k)).chRetired (16 * k + i) = true := by
    rw [chRetired_dropChannels]
    cases hr : s.chRetired (16 * k + i) with
    | true => rw [Bool.or_true]
    | false =>
      have hmem : 16 * k + i ∈ s.inService k := List.mem_filter.mpr ⟨mem_stackChannels hi, by rw [hr]; rfl⟩
      simp [hmem]
  refine (chRetired_of_rd ((stackEmptied_after.1 _ id).trans (rd_raise_ne _ _ _ ?_))).trans hdrop
  simp only [Pg.HBM, HBM.CH_RETIRED]
  omega

/-- The registers of the page of a stack that show its retirement. -/
abbrev StackRegs (k a : Nat) : Prop := a = Pg.HBM k + HBM.STACK_STATUS ∨ a = Pg.HBM k + HBM.RELOC_STATUS

theorem stackRelocates_frame : Frame [.buf] (StackRegs k) s (s.stackRelocates k) :=
  ((((Frame.setStack4 _ _ (by decide)).trans (Frame.setB _ _ (.inl rfl))).trans (Frame.setB _ _ (.inl rfl))).trans
    (Frame.setB _ _ (.inl rfl))).trans (Frame.wr _ (.inr rfl))

/-- A stack that retires is shown, its channels out of service and their content on its way. -/
theorem retireStack_spec (hk : k < 4) (h : s.stackRetired k = false) : (s.retireStack k).stackRetired k = true
    ∧ (∀ i, i < 16 → (s.retireStack k).Relocates (16 * k + i)) ∧ (s.retireStack k).bit (Pg.HBM k + HDR.INT_STATUS) 10 = true
    ∧ (s.retireStack k).bit (Pg.HBM k + HBM.RELOC_STATUS) 30 = true := by
  have hshow : ∀ off, off < 0x1000 → (s.retireStack k).rd (Pg.HBM k + off) = ((s.stackEmptied k).stackRelocates k).rd (Pg.HBM k + off) :=
    fun off ho => by rw [retireStack_eq h, bufShow_frame.1 _ (not_onTypes_hbm hk ho (by decide))]
  have hempty : ∀ off, off < 0x1000 → off ≠ HBM.STACK_STATUS → off ≠ HBM.RELOC_STATUS →
      (s.retireStack k).rd (Pg.HBM k + off) = (s.stackEmptied k).rd (Pg.HBM k + off) := fun off ho hs hr =>
    (hshow off ho).trans (stackRelocates_frame.1 _ (by
      rintro (e | e)
      · exact hbm_add_ne hs e
      · exact hbm_add_ne hr e))
  refine ⟨?_, fun i hi => ⟨?_, ?_⟩, ?_, ?_⟩
  · rw [stackRetired, bit, hshow _ (by decide), stackRelocates, relocRun, rd_wr_ne _ _ _ (hbm_add_ne (by decide)), rd_setB_same,
      bitOf_withBit_ne _ _ _ _ (by decide), rd_setB_same, bitOf_withBit _ _ _ (by decide)]
  · refine (chRetired_of_rd (s := s.stackEmptied k) ?_).trans (chRetired_stackEmptied hi)
    rw [show (16 * k + i) / 16 = k by omega]
    exact hempty _ (by decide) (by decide) (by decide)
  · have hrel : ((s.retireStack k).stack4 k).relocating = stackChannels k := by
      rw [retireStack_eq h, stack4_of_buf buf_bufShow]
      exact congrArg Stack4.relocating (stack4_setStack4_same _ k _)
    rw [show (16 * k + i) / 16 = k by omega, hrel]
    exact mem_stackChannels hi
  · rw [bit, hempty _ (by decide) (by decide) (by decide), stackEmptied_after.1 _ id]
    exact bit_raise_same _ _ (by decide)
  · rw [bit, hshow _ (by decide), stackRelocates, relocRun, rd_wr_same]
    decide

end Machine.Dev

/-! ### The commands -/

section
variable {s : State} {m : Master} {k : Stack} {c : Fin 64}

theorem Machine.Dev.Relocates.settle {d : Dev} {i : Nat} (h : d.Relocates i) : (settle d).Relocates i :=
  ⟨(Dev.chRetired_of_rd (settle_rd _ _)).trans h.1, by rw [Dev.stack4_settle]; exact h.2⟩

/-- A fault logged leaves the stacks and what their pages show. -/
theorem Machine.Dev.openFault_hbm {d : Dev} {x : Nat} (hx : x < 16) (i : Nat) (p : Option Nat) (b : Bool) (u : Nat) :
    (d.openFault x i p b u).buf = d.buf ∧ ∀ j off, j < 4 → off < 0x1000 →
      (d.openFault x i p b u).rd (Pg.HBM j + off) = d.rd (Pg.HBM j + off) := by
  have hframe : Frame [.log] (OnTypes [.device]) d (d.openFault x i p b u) := Frame.openFault hx i p b u (by decide) fun _ => id
  exact ⟨hframe.2 .buf (by decide), fun j off hj ho => hframe.1 _ (not_onTypes_hbm hj ho (by decide))⟩

/-- A persistent parity error takes a channel out of service and logs its fault. -/
theorem channelRetirement_eq (hc : s.d.chRetired c = false)
    (hfree : ((List.range 16).filter (fun j => s.d.chRetired (16 * (c.val / 16) + j))).length < 2) :
    exec (.channelRetirement c .parityStop) s = s.run (fun _ =>
      (s.d.retireOnly (c.val / 16) [c.val]).openFault 11 (Dev.islandOf (0x088 + c.val / 16)) none false c) := by
  have hk : c.val / 16 < 4 := by omega
  obtain ⟨⟨hout, -⟩, -⟩ := Dev.retireOnly_single (s := s.d) (k := c.val / 16) c.isLt
  refine (Eq.refl (execChannelRetirement c .parityStop s)).trans (congrArg (fun d => Host.Outcome.next (s.after d)) ?_)
  simp only [hc, Dev.retireChannels_single true hc hfree, Dev.stackRetired_retireOnly hk, Bool.and_not_self, hout, beq_self_eq_true,
    Bool.true_or, Bool.not_false, Bool.and_true, if_true, Bool.false_eq_true, if_false]

theorem gives_channelRetirement (hc : s.d.chRetired c = false)
    (hfree : ((List.range 16).filter (fun j => s.d.chRetired (16 * (c.val / 16) + j))).length < 2) :
    Gives (.channelRetirement c .parityStop) s (fun t => t.Relocates c
      ∧ (∀ i, i < 64 → i ≠ c.val → t.chRetired i = s.d.chRetired i) ∧ t.bit (Pg.HBM (c.val / 16) + HDR.INT_STATUS) 9 = true) := by
  have hk : c.val / 16 < 4 := by omega
  obtain ⟨⟨hout, hrel⟩, hothers⟩ := Dev.retireOnly_single (s := s.d) (k := c.val / 16) c.isLt
  obtain ⟨hbuf, hrd⟩ := Dev.openFault_hbm (d := s.d.retireOnly (c.val / 16) [c.val]) (x := 11) (by decide)
    (Dev.islandOf (0x088 + c.val / 16)) none false c
  refine gives_run (channelRetirement_eq hc hfree) ⟨Dev.Relocates.settle ⟨?_, ?_⟩, fun i hi hne => ?_, ?_⟩
  · exact (Dev.chRetired_of_rd (hrd _ _ hk (by decide))).trans hout
  · rw [Dev.stack4_of_buf hbuf]
    exact hrel
  · rw [Dev.chRetired_of_rd (settle_rd _ _), Dev.chRetired_of_rd (hrd _ _ (by omega) (by decide)), hothers i hi hne]
  · rw [Dev.bit_settle, Dev.bit, hrd _ _ hk (by decide)]
    exact Dev.bit_retireOnly hk

/-- The channels that a selection of one bit names. -/
theorem selected_twoPow {n : Nat} (hn : n < 16) : (List.range 16).filter (fun i => (BitVec.twoPow 16 n).getLsbD i) = [n] := by
  have hall : ∀ n : Fin 16, (List.range 16).filter (fun i => (BitVec.twoPow 16 n).getLsbD i) = [n.val] := by decide
  exact hall ⟨n, hn⟩

theorem gives_retireCmdChannels {chs : BitVec 16} (ha : AdmitsHeld s m (Pg.HBM k + HBM.RETIRE_CMD)) (hk : c.val / 16 = k)
    (hchs : chs = BitVec.twoPow 16 (c.val % 16)) (hc : s.d.chRetired c = false)
    (hfree : ((List.range 16).filter (fun j => s.d.chRetired (16 * k.val + j))).length < 2) :
    Gives (.retireCmdChannels m k chs) s (fun t => t.Relocates c
      ∧ ∀ i, i < 64 → i ≠ c.val → t.chRetired i = s.d.chRetired i) := by
  have hsel : ((List.range 16).filter (fun i => chs.getLsbD i)).map (16 * k.val + ·) = [c.val] := by
    rw [hchs, selected_twoPow (by omega), List.map_singleton]
    congr 1
    omega
  refine gives_lockedAccess (Eq.refl (execRetireCmdChannels m k chs s)) ha ?_
  rw [hsel, Dev.retireChannels_single false hc hfree]
  obtain ⟨hout, hothers⟩ := Dev.retireOnly_single (s := s.d) (k := k) c.isLt
  exact ⟨hout.settle, fun i hi hne => (Dev.chRetired_of_rd (settle_rd _ _)).trans (hothers i hi hne)⟩

theorem gives_retireCmdStack (ha : AdmitsHeld s m (Pg.HBM k + HBM.RETIRE_CMD)) (h : s.d.stackRetired k = false) :
    Gives (.retireCmdStack m k) s (fun t => t.stackRetired k = true ∧ (∀ i, i < 16 → t.Relocates (16 * k.val + i))
      ∧ t.bit (Pg.HBM k + HDR.INT_STATUS) 10 = true ∧ t.bit (Pg.HBM k + HBM.RELOC_STATUS) 30 = true) := by
  obtain ⟨hout, hchs, hint, hrun⟩ := Dev.retireStack_spec k.isLt h
  exact gives_lockedAccess (Eq.refl (execRetireCmdStack m k s)) ha ⟨(Dev.bit_settle _ _ _).trans hout, fun i hi => (hchs i hi).settle,
    (Dev.bit_settle _ _ _).trans hint, (Dev.bit_settle _ _ _).trans hrun⟩

end

end Sys2Proof
end

