-- ==== Sys2Proof/Proofs/Relocation.lean ====
section
/-! What brings retired memory to an end: lines replaced as a relocation completes, and the pages of an abandoned list recovered (07,
R234, R237). -/

namespace Sys2Proof

open Machine

namespace Machine.Dev

variable {s : Dev} {k : Nat}

/-! ### Lines that are replaced (R237) -/

/-- An operation that waits for a stack leaves what is relocated there. -/
theorem relocating_hbmQueue (c prio : Nat) (kind : HbmKind) (off bytes : Nat) :
    ((s.hbmQueue c prio kind off bytes).stack4 k).relocating = (s.stack4 k).relocating := by
  unfold hbmQueue
  extract_lets ch x o
  by_cases h : k = ch / 16
  · rw [h, stack4_setStack4_same]
  · rw [stack4_setStack4_ne _ _ h]

theorem relocating_setShadow (i : Nat) (v : BitVec 128) : ((s.setShadow i v).stack4 k).relocating = (s.stack4 k).relocating := by
  rw [setShadow, shadowQueue, relocating_hbmQueue]
  rfl

theorem flow_setShadow (i : Nat) (v : BitVec 128) : (s.setShadow i v).flow = s.flow := rfl

theorem hbmRec_of_flow {t : Dev} (h : t.flow = s.flow) (f : Nat) : t.hbmRec f = s.hbmRec f := by rw [hbmRec, h, hbmRec]

theorem replaceLine_frame (x : RelocLine) : Frame [.cls, .flow, .buf] (fun _ => False) s (s.replaceLine x) := by
  cases x with
  | state f => exact (Frame.setFlow _ (by decide)).trans (Frame.setFlow _ (by decide))
  | key f => exact Frame.setFlow _ (by decide)
  | shadow i => exact (s.setShadow_frame _ (by decide) (by decide))
  | link page => exact Frame.setBuf _ (by decide)

theorem relocating_replaceLine (x : RelocLine) : ((s.replaceLine x).stack4 k).relocating = (s.stack4 k).relocating := by
  cases x with
  | state f => rfl
  | key f => rfl
  | shadow i => exact relocating_setShadow _ _
  | link page => exact relocating_hbmQueue _ _ _ _ _

/-- A state record in a channel that could not be read is what the template gives, and FREE. -/
theorem hbmRec_replaceLine_same (f : Fin 33554432) : (s.replaceLine (.state f)).hbmRec f = s.template.set Rec.STATE 0 :=
  Sparse.get_put_same _ _ _ _

theorem hbmRec_replaceLine_ne {x : RelocLine} {f : Fin 33554432} (h : x ≠ .state f) : (s.replaceLine x).hbmRec f = s.hbmRec f := by
  cases x with
  | state g => exact hbmRec_setHbmRec_ne s _ fun e => h (congrArg RelocLine.state (Fin.ext e.symm))
  | key g => rfl
  | shadow i => exact hbmRec_of_flow (flow_setShadow _ _) f
  | link page => rfl

theorem template_replaceLine (x : RelocLine) : (s.replaceLine x).template = s.template :=
  template_congr ((replaceLine_frame x).2 .time (by decide)) fun _ _ => (replaceLine_frame x).1 _ id

theorem replaceLines_frame (lines : List RelocLine) : Frame [.cls, .flow, .buf] (fun _ => False) s (lines.foldl replaceLine s) :=
  Frame.foldl (fun _ x => replaceLine_frame x) lines

theorem relocating_replaceLines (lines : List RelocLine) :
    ((lines.foldl replaceLine s).stack4 k).relocating = (s.stack4 k).relocating := by
  induction lines generalizing s with
  | nil => rfl
  | cons x lines ih => rw [List.foldl_cons, ih, relocating_replaceLine]

/-- Every state record among the lines is replaced, whatever else is. -/
theorem hbmRec_replaceLines {lines : List RelocLine} {f : Fin 33554432}
    (h : .state f ∈ lines ∨ s.hbmRec f = s.template.set Rec.STATE 0) :
    (lines.foldl replaceLine s).hbmRec f = s.template.set Rec.STATE 0 := by
  induction lines generalizing s with
  | nil => exact h.resolve_left (by simp)
  | cons x lines ih =>
    rw [List.foldl_cons, ← template_replaceLine x]
    refine ih ?_
    rw [template_replaceLine]
    by_cases hx : x = .state f
    · exact .inr (hx ▸ hbmRec_replaceLine_same f)
    · rw [List.mem_cons, hbmRec_replaceLine_ne hx] at *
      exact h.imp_left fun hm => hm.resolve_left fun e => hx e.symm

/-! ### The relocation completes (R237) -/

/-- The end of a stack's relocation as its registers show it. -/
def relocShown (s : Dev) (k : Nat) : Dev :=
  let st := Pg.HBM k + HBM.RELOC_STATUS
  let t := (s.setStack4 k { s.stack4 k with relocating := [] }).wr st
    (BitVec.ofNat 32 (2 ^ 31 + (if s.bit st 29 then 2 ^ 29 else 0) + 70656 * (s.stack4 k).relocating.length))
  (t.raise (Pg.HBM k) 11).setB (Pg.HBM k + HBM.STACK_STATUS) 4 false

/-- The faults of the relocated channels are closed. -/
def relocClosed (s : Dev) (chs : List Nat) : Dev := chs.foldl (fun t c => t.closeFault 11 c 0 false) s

theorem relocDone_eq (h : s.bit (Pg.HBM k + HBM.STACK_STATUS) 4 = false) (lines : List RelocLine) :
    s.relocDone k lines
      = ((lines.filter (fun l => (s.stack4 k).relocating.contains (lineChannel l))).foldl replaceLine (s.relocShown k)).relocClosed
          (s.stack4 k).relocating := by
  rw [relocDone, h]
  exact if_neg (by decide)

/-- The registers of a stack's page that show its relocation. -/
abbrev RelocShownRegs (k a : Nat) : Prop :=
  a = Pg.HBM k + HBM.RELOC_STATUS ∨ a = Pg.HBM k + HDR.INT_STATUS ∨ a = Pg.HBM k + HBM.STACK_STATUS

theorem relocShown_frame (s : Dev) (k : Nat) : Frame [.buf] (RelocShownRegs k) s (s.relocShown k) :=
  (((Frame.setStack4 _ _ (by decide)).trans (Frame.wr _ (.inl rfl))).trans (Frame.raise _ (.inr (.inl rfl)))).trans
    (Frame.setB _ _ (.inr (.inr rfl)))

theorem template_relocShown (s : Dev) (k : Nat) : (s.relocShown k).template = s.template :=
  template_congr ((relocShown_frame s k).2 .time (by decide)) fun off ho => (relocShown_frame s k).1 _ (by
    simp only [RelocShownRegs, Pg.FLOW, Pg.HBM, HBM.RELOC_STATUS, HDR.INT_STATUS, HBM.STACK_STATUS]
    omega)

theorem relocating_relocShown : ((s.relocShown k).stack4 k).relocating = [] := by
  have hset : (s.relocShown k).stack4 k = (s.setStack4 k { s.stack4 k with relocating := [] }).stack4 k :=
    stack4_of_buf (by simp [relocShown]) k
  rw [hset, stack4_setStack4_same]

/-- `DONE` of the relocation's status, as long as its count leaves the bit alone. -/
theorem bitOf_relocDone {n : Nat} (h : n < 2 ^ 31) : bitOf (BitVec.ofNat 32 (2 ^ 31 + n)) 31 = true := by
  rw [bitOf, BitVec.getLsbD_ofNat, Nat.testBit_two_pow_add_eq, Nat.testBit_lt_two_pow h]
  rfl

theorem relocShown_bits (h : (s.stack4 k).relocating.length ≤ 16) :
    (s.relocShown k).bit (Pg.HBM k + HBM.RELOC_STATUS) 31 = true ∧ (s.relocShown k).bit (Pg.HBM k + HDR.INT_STATUS) 11 = true := by
  refine ⟨?_, ?_⟩
  · rw [relocShown, bit, rd_setB_ne _ _ _ _ (hbm_add_ne (by decide)), rd_raise_ne _ _ _ (hbm_add_ne (by decide)), rd_wr_same, Nat.add_assoc]
    refine bitOf_relocDone ?_
    split <;> omega
  · rw [relocShown, bit, rd_setB_ne _ _ _ _ (hbm_add_ne (by decide))]
    exact bit_raise_same _ _ (by decide)

theorem relocClosed_frame (chs : List Nat) : Frame [.log] (OnTypes [.device]) s (s.relocClosed chs) :=
  Frame.foldl (fun _ _ => Frame.closeFault _ _ _ _ (by decide) fun _ => id) chs

/-- A relocation that completes without its stack: the records that could not be read are replaced, and its end is shown. -/
theorem relocDone_spec (hk : k < 4) (hlen : (s.stack4 k).relocating.length ≤ 16) (hst : s.bit (Pg.HBM k + HBM.STACK_STATUS) 4 = false)
    (lines : List RelocLine) :
    (∀ f : Fin 33554432, RelocLine.state f ∈ lines → f.val % 64 ∈ (s.stack4 k).relocating →
      (s.relocDone k lines).hbmRec f = s.template.set Rec.STATE 0)
    ∧ ((s.relocDone k lines).stack4 k).relocating = [] ∧ (s.relocDone k lines).bit (Pg.HBM k + HBM.RELOC_STATUS) 31 = true
    ∧ (s.relocDone k lines).bit (Pg.HBM k + HDR.INT_STATUS) 11 = true := by
  rw [relocDone_eq hst]
  generalize hmine : lines.filter (fun l => (s.stack4 k).relocating.contains (lineChannel l)) = mine
  generalize ht : mine.foldl replaceLine (s.relocShown k) = t
  have hclosed : Frame [.log] (OnTypes [.device]) t (t.relocClosed (s.stack4 k).relocating) := relocClosed_frame _
  have hrd : ∀ off, off < 0x1000 → (t.relocClosed (s.stack4 k).relocating).rd (Pg.HBM k + off) = (s.relocShown k).rd (Pg.HBM k + off) :=
    fun off ho => (hclosed.1 _ (not_onTypes_hbm hk ho (by decide))).trans (ht ▸ (replaceLines_frame mine).1 _ id)
  obtain ⟨hdone, hint⟩ := relocShown_bits hlen
  refine ⟨fun f hf hch => ?_, ?_, ?_, ?_⟩
  · have hmem : RelocLine.state f ∈ mine := by
      rw [← hmine]
      exact List.mem_filter.mpr ⟨hf, List.contains_iff_mem.mpr hch⟩
    have hflow : (t.relocClosed (s.stack4 k).relocating).flow = t.flow := hclosed.2 .flow (by decide)
    rw [hbmRec_of_flow hflow, ← ht, hbmRec_replaceLines (.inl hmem), template_relocShown]
  · rw [stack4_of_buf (hclosed.2 .buf (by decide)), ← ht, relocating_replaceLines, relocating_relocShown]
  · rw [bit, hrd _ (by decide)]
    exact hdone
  · rw [bit, hrd _ (by decide)]
    exact hint

/-! ### The abandoned pages of a channel (R234) -/

theorem freeList_recoverList {c n : Nat} {l : List Nat} (h : (s.freeList c).aban = some (n, l)) :
    (s.recoverList c).freeList c
      = { s.freeList c with next := n, returned := (s.freeList c).returned ++ l, aban := none } := by
  simp only [recoverList, h]
  rw [freeList_of_buf buf_bufShow, freeList_setFreeList_same]

end Machine.Dev

/-! ### The commands -/

section
variable {s : State} {k : Stack}

theorem gives_relocationDone (hrel : (s.d.stack4 k).relocating ≠ []) (hlen : (s.d.stack4 k).relocating.length ≤ 16)
    (hst : s.d.bit (Pg.HBM k + HBM.STACK_STATUS) 4 = false) (lines : List RelocLine) :
    Gives (.relocationDone k lines) s (fun t => (∀ f : Fin 33554432, RelocLine.state f ∈ lines →
        f.val % 64 ∈ (s.d.stack4 k).relocating → t.hbmRec f = s.d.template.set Rec.STATE 0)
      ∧ (t.stack4 k).relocating = [] ∧ t.bit (Pg.HBM k + HBM.RELOC_STATUS) 31 = true
      ∧ t.bit (Pg.HBM k + HDR.INT_STATUS) 11 = true) := by
  have hne : (s.d.stack4 k).relocating.isEmpty = false := by simpa using hrel
  refine gives_run (Eq.refl (execRelocationDone k lines s)) ?_
  rw [hne, hst, if_neg (by decide), if_neg (by decide), Dev.stack4_settle, Dev.bit_settle, Dev.bit_settle]
  obtain ⟨hrecs, hrest⟩ := Dev.relocDone_spec k.isLt hlen hst lines
  exact ⟨fun f hf hch => (Dev.hbmRec_of_flow (by simp) f).trans (hrecs f hf hch), hrest⟩

theorem gives_relocationScan {c : Fin 64} {n : Nat} {l : List Nat} (h : (s.d.freeList c).aban = some (n, l)) :
    Gives (.relocationScan c) s (fun t => t.freeList c
      = { s.d.freeList c with next := n, returned := (s.d.freeList c).returned ++ l, aban := none }) :=
  gives_run (Eq.refl (execRelocationScan c s)) (by rw [Dev.freeList_settle, Dev.freeList_recoverList h])

end

end Sys2Proof
end

