-- ==== Sys2Proof/Proofs/BufferMemory.lean ====
section
/-! A queue flushed, the mode registers of the stacks, the temperature that a stack reports, and the statement about the memory of the
buffer put together (07, R216 to R218, R234 to R244). -/

namespace Sys2Proof

open Machine

namespace Machine.Dev

variable {s : Dev} {k : Nat}

/-! ### A queue flushed (R242, R244) -/

/-- The records of a queue that a flush leaves. -/
def unflushed (s : Dev) (q : Nat) : List BufRec := (s.queue q).recs.filter (fun r => !(r.committed && !r.void))

theorem recs_flushQueue (q : Nat) : ((s.flushQueue q).queue q).recs = s.unflushed q := by
  unfold flushQueue
  extract_lets x gone t u
  have hshow : (((u.queueShow q).bufShow).raise (Pg.QUEUE (q / 32)) 8).buf = u.buf := by simp
  have hu : (u.queue q).recs = s.unflushed q := by
    unfold u
    rw [recs_trimPages_same, queue_setQueue_same]
    rfl
  rw [queue_of_buf hshow, hu]

theorem bit_flushQueue (q : Nat) : (s.flushQueue q).bit (Pg.QUEUE (q / 32) + HDR.INT_STATUS) 8 = true :=
  bit_raise_same _ _ (by decide)

/-! ### Mode registers (R241) -/

/-- A mode register of a channel, as `MR_ADDR` selects it. -/
abbrev modeReg (s : Dev) (k key : Nat) : BitVec 8 := Sparse.get (fun _ => 0) (s.stack4 k).modeRegs key

theorem fld_modeRead : (s.modeRead k).fld (Pg.HBM k + HBM.MR_DATA) 0 8 = (s.modeReg k (s.modeKey k)).toNat := by
  rw [modeRead, fld, rd_setF_same, fieldOf_withField _ _ _ _ (by decide)]
  exact Nat.mod_eq_of_lt (BitVec.isLt _)

theorem modeRead_frame : Frame [] (· = Pg.HBM k + HBM.MR_DATA) s (s.modeRead k) := Frame.setF _ _ _ rfl

theorem modeReg_modeWrite : ((s.modeWrite k).modeReg k (s.modeKey k)).toNat = s.fld (Pg.HBM k + HBM.MR_DATA) 0 8 := by
  have hput : (s.modeWrite k).modeReg k (s.modeKey k) = BitVec.ofNat 8 (s.fld (Pg.HBM k + HBM.MR_DATA) 0 8) := by
    rw [modeReg, modeWrite, stack4_setStack4_same]
    exact Sparse.get_put_same _ _ _ _
  rw [hput, BitVec.toNat_ofNat]
  exact Nat.mod_eq_of_lt (fieldOf_lt _ _ _)

theorem modeWrite_frame : Frame [.buf] (fun _ => False) s (s.modeWrite k) := Frame.setStack4 _ _ (by decide)

theorem modeCmd_read {m : Master} (h : s.supplyHold = false) : s.modeCmd m k false true = s.modeRead k := by
  rw [modeCmd, need, if_pos (by rw [h]; rfl)]
  rfl

theorem modeCmd_write {m : Master} (h : s.supplyHold = false) : s.modeCmd m k true false = s.modeWrite k := by
  rw [modeCmd, need, if_pos (by rw [h]; rfl)]
  rfl

theorem modeCmd_refused {m : Master} (wr rd : Bool) (h : s.supplyHold = true) :
    s.modeCmd m k wr rd = s.logErr m (Pg.HBM k + HBM.MR_CMD) Err.supplyHold :=
  if_neg (by rw [h]; decide)

end Machine.Dev

/-! ### The temperature of a stack (R240, R446, R455) -/

theorem Frame.setMon {ps : List Part} {A : Nat → Prop} {s : Dev} (v : Monitors) (h : .mon ∈ ps) : Frame ps A s { s with mon := v } :=
  ofPart h (fun _ => rfl) fun p hp => by
    cases p with
    | mon => exact absurd rfl hp
    | _ => rfl

/-- The registers that follow the zones' conditions: of the thermal page but `STACK_TEMP`, and the Lanterns' reports. -/
def ConditionRegs (a : Nat) : Prop :=
  (∃ off, a = Pg.THERM + off ∧ off < 0x1000 ∧ off ≠ THERM.STACK_TEMP) ∨ OnTypes [.lantern] a

theorem ConditionRegs.therm {off : Nat} (ho : off < 0x1000) (h : off ≠ THERM.STACK_TEMP) : ConditionRegs (Pg.THERM + off) :=
  .inl ⟨off, rfl, ho, h⟩

theorem not_conditionRegs_stackTemp : ¬ ConditionRegs (Pg.THERM + THERM.STACK_TEMP) := by
  rintro (⟨off, h, -, hne⟩ | h)
  · exact hne (Nat.add_left_cancel h).symm
  · exact h.disjoint (OnTypes.page (T := [.therm]) 0x004 1 (by decide) (i := 0) (off := THERM.STACK_TEMP) (by decide) (by decide)
      (List.mem_singleton.mpr rfl)) (by decide)

theorem not_conditionRegs_hbm {k off : Nat} (hk : k < 4) (ho : off < 0x1000) : ¬ ConditionRegs (Pg.HBM k + off) := by
  rintro (⟨x, h, hx, -⟩ | h)
  · simp only [Pg.HBM, Pg.THERM] at h
    omega
  · exact not_onTypes_hbm hk ho (by decide) h

namespace Machine.Dev

variable {s : Dev} {k : Nat}

/-- What a change of the zones' conditions touches. -/
abbrev Follows (s t : Dev) : Prop := Frame [.mon, .test, .lt] ConditionRegs s t

theorem setPause_frame (n : Nat) : Follows s (s.setPause n) := by
  have hset : Follows s (s.setF (thReg + THERM.THERM_STATUS) 8 4 n) := Frame.setF _ _ _ (.therm (by decide) (by decide))
  exact Frame.ite hset (hset.trans (Frame.foldl_mem fun t l hl => Frame.ltFault (List.mem_range.mp hl) _ _ (by decide) fun _ => .inr))

theorem throttleEnter_frame : Follows s s.throttleEnter := by
  have hloss : Follows s ((s.testLoss 4).raise thReg 9) :=
    (Frame.testLoss 4 (by decide)).trans (Frame.raise _ (.therm (by decide) (by decide)))
  exact Frame.ite hloss (hloss.trans ((Frame.count _ (.therm (by decide) (by decide))).trans (setPause_frame _)))

theorem throttleExit_frame : Follows s s.throttleExit :=
  Frame.ite (Frame.raise _ (.therm (by decide) (by decide))) (Frame.refl s)

theorem thermShow_frame : Follows s s.thermShow := by
  have hst : ConditionRegs (thReg + THERM.THERM_STATUS) := .therm (by decide) (by decide)
  exact ((((Frame.wr _ (.therm (by decide) (by decide))).trans (Frame.setB _ _ hst)).trans (Frame.setB _ _ hst)).trans
    (Frame.setF _ _ _ hst)).trans (Frame.setB _ _ hst)

/-- A stack's reading as the registers show it. -/
def tempShown (s : Dev) (k : Nat) (deg : BitVec 8) (refresh : Nat) : Dev :=
  ((s.setF (Pg.HBM k + HBM.TEMP) 0 8 deg.toNat).setF (Pg.HBM k + HBM.REFRESH) 0 2 refresh).setF (Pg.THERM + THERM.STACK_TEMP) (8 * k) 8
    deg.toNat

theorem fld_tempShown (hk : k < 4) (deg : BitVec 8) {refresh : Nat} (hr : refresh < 3) :
    (s.tempShown k deg refresh).fld (Pg.THERM + THERM.STACK_TEMP) (8 * k) 8 = deg.toNat
    ∧ (s.tempShown k deg refresh).fld (Pg.HBM k + HBM.TEMP) 0 8 = deg.toNat
    ∧ (s.tempShown k deg refresh).fld (Pg.HBM k + HBM.REFRESH) 0 2 = refresh := by
  have hdeg : deg.toNat % 2 ^ 8 = deg.toNat := Nat.mod_eq_of_lt deg.isLt
  have hpages : ∀ off, off < 0x1000 → Pg.HBM k + off ≠ Pg.THERM + THERM.STACK_TEMP := fun off ho => by
    simp only [Pg.HBM, Pg.THERM, THERM.STACK_TEMP]
    omega
  refine ⟨?_, ?_, ?_⟩
  · rw [tempShown, fld, rd_setF_same, fieldOf_withField _ _ _ _ (by omega), hdeg]
  · rw [tempShown, fld, rd_setF_ne _ _ _ _ _ (hpages _ (by decide)), rd_setF_ne _ _ _ _ _ (hbm_add_ne (by decide)), rd_setF_same,
      fieldOf_withField _ _ _ _ (by decide), hdeg]
  · rw [tempShown, fld, rd_setF_ne _ _ _ _ _ (hpages _ (by decide)), rd_setF_same, fieldOf_withField _ _ _ _ (by decide)]
    exact Nat.mod_eq_of_lt (by omega)

/-- Below the limit of the shutdown only the conditions follow the reading. -/
theorem stackTemp_frame {deg : BitVec 8} (h : deg.toInt < 105) (refresh : Nat) :
    Follows (s.tempShown k deg refresh) (s.stackTemp k deg refresh) := by
  unfold stackTemp
  extract_lets v t₀ t₁ t₂ above was rest hot n mon t₃ t₄ t₅
  have hn : n = 0 := if_neg (by unfold hot; rw [decide_eq_true_eq]; omega)
  have h₂ : Follows t₁ t₂ := Frame.ite (Frame.raise _ (.therm (by decide) (by decide))) (Frame.refl t₁)
  have h₃ : Follows t₂ t₃ := Frame.setMon _ (by decide)
  have h₄ : Follows t₃ t₄ := Frame.ite throttleEnter_frame (Frame.ite throttleExit_frame (Frame.refl t₃))
  rw [if_neg (by omega)]
  exact ((h₂.trans h₃).trans h₄).trans thermShow_frame

end Machine.Dev

/-! ### The commands -/

section
variable {s : State} {m : Master} {k : Stack} {q : QueueId}

theorem gives_queueFlush (ha : AdmitsHeld s m (qBase q + QUEUE.Q_CMD)) : Gives (.queueFlush m q) s (fun t =>
    (t.queue q).recs = s.d.unflushed q ∧ t.bit (Pg.QUEUE (q.val / 32) + HDR.INT_STATUS) 8 = true) :=
  gives_lockedAccess (Eq.refl (execQueueFlush m q s)) ha
    ⟨by rw [Dev.queue_settle, Dev.recs_flushQueue], (Dev.bit_settle _ _ _).trans (Dev.bit_flushQueue _)⟩

/-- The lock of a queue's page. -/
theorem page_qCmd (q : QueueId) : (qBase q + QUEUE.Q_CMD) / 0x1000 = 0x082 + q.val / 32 := by
  simp only [qBase, Pg.QUEUE, QUEUE.Q_CMD]
  omega

theorem gives_queueFlush_refused (ha : Admits s m (qBase q + QUEUE.Q_CMD)) (h : s.d.holder (0x082 + q.val / 32) = 0) :
    Gives (.queueFlush m q) s (Rejected m (qBase q + QUEUE.Q_CMD) 0x05 s.d) :=
  gives_lockedAccess_refused (Eq.refl (execQueueFlush m q s)) ha (by
    rw [page_qCmd, h]
    exact (masterId_ne_zero m).symm)

section
variable (ha : AdmitsHeld s m (Pg.HBM k + HBM.MR_CMD))
include ha

theorem gives_mrCmdRead (h : s.d.supplyHold = false) : Gives (.mrCmdRead m k) s (fun t =>
    t.fld (Pg.HBM k + HBM.MR_DATA) 0 8 = (s.d.modeReg k (s.d.modeKey k)).toNat ∧ Frame [] (· = Pg.HBM k + HBM.MR_DATA) s.d t) :=
  gives_lockedAccess (Eq.refl (execMrCmdRead m k s)) ha (by
    rw [Dev.modeCmd_read h]
    exact ⟨(Dev.fld_settle _ _ _ _).trans Dev.fld_modeRead, Dev.modeRead_frame.settle⟩)

theorem gives_mrCmdWrite (h : s.d.supplyHold = false) : Gives (.mrCmdWrite m k) s (fun t =>
    Frame [.buf] (fun _ => False) s.d t ∧ (t.modeReg k (s.d.modeKey k)).toNat = s.d.fld (Pg.HBM k + HBM.MR_DATA) 0 8) :=
  gives_lockedAccess (Eq.refl (execMrCmdWrite m k s)) ha (by
    rw [Dev.modeCmd_write h]
    exact ⟨Dev.modeWrite_frame.settle, by rw [Dev.modeReg, Dev.stack4_settle]; exact Dev.modeReg_modeWrite⟩)

/-- The supply hold refuses a mode command, whichever its bits are. -/
theorem gives_modeCmd_refused {i : Instr} {wr rd : Bool}
    (hi : exec i s = s.run (fun d => d.lockedAccess m (Pg.HBM k + HBM.MR_CMD) (fun t => t.modeCmd m k wr rd)))
    (h : s.d.supplyHold = true) : Gives i s (Rejected m (Pg.HBM k + HBM.MR_CMD) 0x0E s.d) :=
  gives_rejected (f := fun t => t.need m (Pg.HBM k + HBM.MR_CMD) (t.holds m ((Pg.HBM k + HBM.MR_CMD) / 0x1000)) Err.lockRequired
      (fun t => t.modeCmd m k wr rd)) hi ha.1 (by decide)
    ((if_pos (Dev.holds_iff.mpr ha.2)).trans (Dev.modeCmd_refused wr rd h))

end

theorem gives_stackTempRead {deg : BitVec 8} (refresh : Fin 3) (h : deg.toInt < 105) : Gives (.stackTempRead k deg refresh) s (fun t =>
    t.fld (Pg.THERM + THERM.STACK_TEMP) (8 * k.val) 8 = deg.toNat ∧ t.fld (Pg.HBM k + HBM.TEMP) 0 8 = deg.toNat
      ∧ t.fld (Pg.HBM k + HBM.REFRESH) 0 2 = refresh.val) := by
  have hrest := (Dev.stackTemp_frame (s := s.d) (k := k) h refresh).settle
  obtain ⟨hzone, htemp, hrefresh⟩ := Dev.fld_tempShown (s := s.d) k.isLt deg refresh.isLt
  exact gives_run (Eq.refl (execStackTempRead k deg refresh s))
    ⟨(congrArg (fieldOf · _ 8) (hrest.1 _ not_conditionRegs_stackTemp)).trans hzone,
      (congrArg (fieldOf · 0 8) (hrest.1 _ (not_conditionRegs_hbm k.isLt (by decide)))).trans htemp,
      (congrArg (fieldOf · 0 2) (hrest.1 _ (not_conditionRegs_hbm k.isLt (by decide)))).trans hrefresh⟩

end

/-- Settles O24, a command at a time: what each does to a stack's operations, its channels, a queue or a register, kept by the displays
that follow. -/
theorem bufferMemory : Obligations.BufferMemory := by
  unfold Obligations.BufferMemory
  refine ⟨fun s k o rest => ?_, fun s m k c q => ?_⟩
  · exact ⟨gives_hbmIssue, gives_hbmIssue_full, fun _ _ => gives_hbmRaise, fun h _ => ⟨fun _ _ => gives_hbmComplete_packetWrite h,
      gives_hbmComplete_retried h, fun _ _ => gives_hbmComplete_packetRead h, fun _ _ => gives_hbmComplete_corrected h,
      fun _ => gives_hbmComplete_uncorrectable h⟩⟩
  · exact ⟨gives_queueFlush, gives_queueFlush_refused, gives_channelRetirement, fun _ => gives_retireCmdChannels, gives_retireCmdStack,
      gives_relocationDone, fun _ _ => gives_relocationScan,
      fun ha => ⟨gives_mrCmdRead ha, gives_mrCmdWrite ha,
        fun h => ⟨gives_modeCmd_refused ha (Eq.refl (execMrCmdWrite m k s)) h, gives_modeCmd_refused ha (Eq.refl (execMrCmdRead m k s)) h⟩⟩,
      fun _ => gives_stackTempRead⟩

end Sys2Proof
end

