-- ==== Sys2Proof/Proofs/TimeBase.lean ====
section
/-! The time base: its commands under the lock of `CLKRST`, its reads with the upper words latched for the reader, and the edges of
PPS (08, R266, R267, R275). -/

namespace Sys2Proof

open Machine

theorem Frame.setTimeBase {ps : List Part} {A : Nat → Prop} {s : Dev} (v : TimeBase) (h : .time ∈ ps) :
    Frame ps A s { s with time := v } :=
  ofPart h (fun _ => rfl) fun p hp => by
    cases p with
    | time => exact absurd rfl hp
    | _ => rfl

namespace Machine.Dev

variable {s : Dev} {m : Master} {a : Nat}

@[simp] theorem time_settle (s : Dev) : (settle s).time = s.time := by simp

/-- What leaves the device, unless it is an interrupt message, is the latest of what was sent. -/
theorem sent_emit {o : Output} (h : ∀ v, o ≠ .msix v) : (s.emit o).sent = o :: s.sent := by
  cases o with
  | msix v => exact absurd rfl (h v)
  | _ => rfl

/-! ### Reads (R266) -/

theorem readAccess_of_readErr (h : s.readErr m a = none) (k : Dev → Dev) : s.readAccess m a k = k s := by
  simp only [readAccess, h]

/-- The words above the lowest, as a read latches them. -/
theorem upperWords_eq (x : BitVec 80) : BitVec.ofNat 48 (x.toNat / 2 ^ 32) = BitVec.setWidth 48 (x >>> 32) := by
  rw [← BitVec.ofNat_toNat, BitVec.toNat_ushiftRight, Nat.shiftRight_eq_div_pow]

theorem readTime_frame : Frame [.time, .sent] (fun _ => False) s (s.readTime m) :=
  (Frame.setTimeBase _ (by decide)).trans (Frame.emit _ (by decide))

theorem readCapt_frame : Frame [.time, .sent] (fun _ => False) s (s.readCapt m) :=
  (Frame.setTimeBase _ (by decide)).trans (Frame.emit _ (by decide))

theorem sent_readTime :
    (s.readTime m).sent = .readData m (Pg.CLKRST + CLKRST.TIME_RD) (BitVec.setWidth 32 s.time.now) :: s.sent := by
  rw [readTime, sent_emit (by simp), timeBase, BitVec.ofNat_toNat]
  rfl

theorem sent_readCapt :
    (s.readCapt m).sent = .readData m (Pg.CLKRST + CLKRST.PPS_CAPT) (BitVec.setWidth 32 s.time.capt) :: s.sent := by
  rw [readCapt, sent_emit (by simp), BitVec.ofNat_toNat]
  rfl

theorem latch_readTime : Sparse.get (fun _ => 0) (s.readTime m).time.latch (masterId m).toNat = BitVec.setWidth 48 (s.time.now >>> 32) :=
  (Sparse.get_put_same _ _ _ _).trans (upperWords_eq _)

theorem latch_readCapt :
    Sparse.get (fun _ => 0) (s.readCapt m).time.captLatch (masterId m).toNat = BitVec.setWidth 48 (s.time.capt >>> 32) :=
  (Sparse.get_put_same _ _ _ _).trans (upperWords_eq _)

/-! ### A PPS edge (R266, R267, R275) -/

/-- The time captured, the edge counted and flagged: an edge before the load it may have armed. -/
def ppsTaken (s : Dev) : Dev :=
  ((({ s with time := { s.time with capt := s.timeBase } }).count (Pg.CLKRST + CLKRST.PPS_COUNT)).setB (Pg.CLKRST + CLKRST.PPS_STATUS) 0
    true).raise Pg.CLKRST 24

/-- The load that is armed for an edge. -/
def ppsLoad (s : Dev) : Dev :=
  if s.bit (Pg.CLKRST + CLKRST.PPS_STATUS) 1 then (s.setTime s.timeWr).setB (Pg.CLKRST + CLKRST.PPS_STATUS) 1 false else s

theorem time_ppsTaken : s.ppsTaken.time = { s.time with capt := s.time.now } := rfl

theorem rd_ppsTaken_ne (hc : a ≠ Pg.CLKRST + CLKRST.PPS_COUNT) (hs : a ≠ Pg.CLKRST + CLKRST.PPS_STATUS)
    (hi : a ≠ Pg.CLKRST + HDR.INT_STATUS) : s.ppsTaken.rd a = s.rd a := by
  rw [ppsTaken, rd_raise_ne _ _ _ hi, rd_setB_ne _ _ _ _ hs, rd_count_ne _ _ _ hc]
  rfl

theorem rd_ppsTaken_count : s.ppsTaken.rd (Pg.CLKRST + CLKRST.PPS_COUNT) = s.rd (Pg.CLKRST + CLKRST.PPS_COUNT) + 1 := by
  rw [ppsTaken, rd_raise_ne _ _ _ (by decide), rd_setB_ne _ _ _ _ (by decide), rd_count_same]
  rfl

theorem rd_ppsTaken_status :
    s.ppsTaken.rd (Pg.CLKRST + CLKRST.PPS_STATUS) = withBit (s.rd (Pg.CLKRST + CLKRST.PPS_STATUS)) 0 true := by
  rw [ppsTaken, rd_raise_ne _ _ _ (by decide), rd_setB_same, rd_count_ne _ _ _ (by decide)]
  rfl

theorem timeWr_ppsTaken : s.ppsTaken.timeWr = s.timeWr := by
  simp only [timeWr, fld, rd_ppsTaken_ne (s := s) (a := Pg.CLKRST + CLKRST.TIME_WR) (by decide) (by decide) (by decide),
    rd_ppsTaken_ne (s := s) (a := Pg.CLKRST + CLKRST.TIME_WR + 4) (by decide) (by decide) (by decide),
    rd_ppsTaken_ne (s := s) (a := Pg.CLKRST + CLKRST.TIME_WR + 8) (by decide) (by decide) (by decide)]

/-- A load writes `PPS_STATUS` alone, and there it clears what armed it. -/
theorem ppsLoad_frame : Frame [.time] (· = Pg.CLKRST + CLKRST.PPS_STATUS) s s.ppsLoad :=
  Frame.ite ((Frame.setTimeBase _ (by decide)).trans (Frame.setB _ _ rfl)) (Frame.refl s)

theorem bit_ppsLoad_present :
    s.ppsLoad.bit (Pg.CLKRST + CLKRST.PPS_STATUS) 0 = s.bit (Pg.CLKRST + CLKRST.PPS_STATUS) 0 := by
  unfold ppsLoad
  split
  · rw [bit, rd_setB_same, bitOf_withBit_ne _ _ _ _ (by decide)]
    rfl
  · rfl

theorem bit_ppsLoad_armed : s.ppsLoad.bit (Pg.CLKRST + CLKRST.PPS_STATUS) 1 = false := by
  unfold ppsLoad
  split
  · rw [bit, rd_setB_same, bitOf_withBit _ _ _ (by decide)]
  · next h => exact Bool.eq_false_iff.mpr h

theorem time_ppsLoad :
    s.ppsLoad.time = { s.time with now := if s.bit (Pg.CLKRST + CLKRST.PPS_STATUS) 1 then s.timeWr else s.time.now } := by
  unfold ppsLoad
  split <;> rfl

end Machine.Dev

/-! ### The commands and the events -/

section
variable {s : State} {m : Master} {falling : Bool}

theorem gives_timeCmdSet (ha : AdmitsHeld s m (Pg.CLKRST + CLKRST.TIME_CMD)) : Gives (.timeCmdSet m) s (fun t =>
    t.time = { s.d.time with now := s.d.timeWr } ∧ Frame [.time] (fun _ => False) s.d t) :=
  gives_lockedAccess (Eq.refl (execTimeCmdSet m s)) ha
    ⟨Dev.time_settle _, (Frame.setTimeBase _ (by decide)).settle⟩

theorem gives_timeCmdStep (ha : AdmitsHeld s m (Pg.CLKRST + CLKRST.TIME_CMD)) : Gives (.timeCmdStep m) s (fun t =>
    t.time = { s.d.time with now := s.d.time.now + s.d.timeWr } ∧ Frame [.time] (fun _ => False) s.d t) :=
  gives_lockedAccess (Eq.refl (execTimeCmdStep m s)) ha
    ⟨Dev.time_settle _, (Frame.setTimeBase _ (by decide)).settle⟩

theorem gives_timeCmdSetAtPps (ha : AdmitsHeld s m (Pg.CLKRST + CLKRST.TIME_CMD)) : Gives (.timeCmdSetAtPps m) s (fun t =>
    t.bit (Pg.CLKRST + CLKRST.PPS_STATUS) 1 = true ∧ Frame [] (· = Pg.CLKRST + CLKRST.PPS_STATUS) s.d t) := by
  have harmed : (s.d.setB (Pg.CLKRST + CLKRST.PPS_STATUS) 1 true).bit (Pg.CLKRST + CLKRST.PPS_STATUS) 1 = true := by
    rw [Dev.bit, Dev.rd_setB_same, bitOf_withBit _ _ _ (by decide)]
  have hframe : Frame [] (· = Pg.CLKRST + CLKRST.PPS_STATUS) s.d (s.d.setB (Pg.CLKRST + CLKRST.PPS_STATUS) 1 true) := Frame.setB _ _ rfl
  exact gives_lockedAccess (Eq.refl (execTimeCmdSetAtPps m s)) ha ⟨(Dev.bit_settle _ _ _).trans harmed, hframe.settle⟩

/-- A command of the time base needs the lock of its page. -/
theorem gives_timeCmd_refused {i : Instr} {f : Dev → Dev}
    (hi : exec i s = s.run (fun d => d.lockedAccess m (Pg.CLKRST + CLKRST.TIME_CMD) f))
    (ha : Admits s m (Pg.CLKRST + CLKRST.TIME_CMD)) (h : s.d.holder (Pg.CLKRST / 0x1000) = 0) :
    Gives i s (Rejected m (Pg.CLKRST + CLKRST.TIME_CMD) 0x05 s.d) :=
  gives_lockedAccess_refused hi ha fun e => masterId_ne_zero m (e.symm.trans h)

theorem gives_timeRdRead (h : s.d.readErr m (Pg.CLKRST + CLKRST.TIME_RD) = none) : Gives (.timeRdRead m) s (fun t =>
    t.sent = .readData m (Pg.CLKRST + CLKRST.TIME_RD) (BitVec.setWidth 32 s.d.time.now) :: s.d.sent
      ∧ Sparse.get (fun _ => 0) t.time.latch (masterId m).toNat = BitVec.setWidth 48 (s.d.time.now >>> 32)
      ∧ t.time.now = s.d.time.now ∧ Frame [.time, .sent] (fun _ => False) s.d t) := by
  refine gives_run (Eq.refl (execTimeRdRead m s)) ?_
  rw [Dev.readAccess_of_readErr h]
  exact ⟨(settle_sent _).trans Dev.sent_readTime, by rw [Dev.time_settle]; exact Dev.latch_readTime, by rw [Dev.time_settle]; rfl,
    Dev.readTime_frame.settle⟩

theorem gives_ppsCaptRead (h : s.d.readErr m (Pg.CLKRST + CLKRST.PPS_CAPT) = none) : Gives (.ppsCaptRead m) s (fun t =>
    t.sent = .readData m (Pg.CLKRST + CLKRST.PPS_CAPT) (BitVec.setWidth 32 s.d.time.capt) :: s.d.sent
      ∧ Sparse.get (fun _ => 0) t.time.captLatch (masterId m).toNat = BitVec.setWidth 48 (s.d.time.capt >>> 32)
      ∧ t.time.now = s.d.time.now ∧ Frame [.time, .sent] (fun _ => False) s.d t) := by
  refine gives_run (Eq.refl (execPpsCaptRead m s)) ?_
  rw [Dev.readAccess_of_readErr h]
  exact ⟨(settle_sent _).trans Dev.sent_readCapt, by rw [Dev.time_settle]; exact Dev.latch_readCapt, by rw [Dev.time_settle]; rfl,
    Dev.readCapt_frame.settle⟩

theorem gives_ppsEdge (hen : s.d.bit (Pg.CLKRST + CLKRST.PPS_CTRL) 0 = true) (he : s.d.bit (Pg.CLKRST + CLKRST.PPS_CTRL) 1 = falling) :
    Gives (.ppsEdge falling) s (fun t => t.time.capt = s.d.time.now
      ∧ t.rd (Pg.CLKRST + CLKRST.PPS_COUNT) = s.d.rd (Pg.CLKRST + CLKRST.PPS_COUNT) + 1
      ∧ t.bit (Pg.CLKRST + CLKRST.PPS_STATUS) 0 = true ∧ t.bit (Pg.CLKRST + CLKRST.PPS_STATUS) 1 = false
      ∧ t.bit (Pg.CLKRST + HDR.INT_STATUS) 24 = true
      ∧ t.time.now = if s.d.bit (Pg.CLKRST + CLKRST.PPS_STATUS) 1 then s.d.timeWr else s.d.time.now) := by
  have hcond : (s.d.bit (Pg.CLKRST + CLKRST.PPS_CTRL) 0 && s.d.bit (Pg.CLKRST + CLKRST.PPS_CTRL) 1 == falling) = true := by
    rw [hen, he, BEq.rfl, Bool.and_self]
  have harmed : s.d.ppsTaken.bit (Pg.CLKRST + CLKRST.PPS_STATUS) 1 = s.d.bit (Pg.CLKRST + CLKRST.PPS_STATUS) 1 := by
    rw [Dev.bit, Dev.rd_ppsTaken_status, bitOf_withBit_ne _ _ _ _ (by decide), Dev.bit]
  have htime : (settle s.d.ppsTaken.ppsLoad).time
      = { s.d.time with capt := s.d.time.now,
                        now := if s.d.bit (Pg.CLKRST + CLKRST.PPS_STATUS) 1 then s.d.timeWr else s.d.time.now } := by
    simp only [Dev.time_settle, Dev.time_ppsLoad, Dev.time_ppsTaken, harmed, Dev.timeWr_ppsTaken]
  have hkept : ∀ a, a ≠ Pg.CLKRST + CLKRST.PPS_STATUS → s.d.ppsTaken.ppsLoad.rd a = s.d.ppsTaken.rd a := Dev.ppsLoad_frame.1
  refine gives_run (f := fun d => if d.bit (Pg.CLKRST + CLKRST.PPS_CTRL) 0 && d.bit (Pg.CLKRST + CLKRST.PPS_CTRL) 1 == falling
    then d.ppsTaken.ppsLoad else d) (Eq.refl (execPpsEdge falling s)) ?_
  rw [if_pos hcond]
  refine ⟨by rw [htime], ?_, ?_, ?_, ?_, by rw [htime]⟩
  · rw [settle_rd, hkept _ (by decide), Dev.rd_ppsTaken_count]
  · rw [Dev.bit_settle, Dev.bit_ppsLoad_present, Dev.bit, Dev.rd_ppsTaken_status, bitOf_withBit _ _ _ (by decide)]
  · rw [Dev.bit_settle, Dev.bit_ppsLoad_armed]
  · rw [Dev.bit_settle, Dev.bit, hkept _ (by decide)]
    exact Dev.bit_raise_same _ _ (by decide)

theorem gives_ppsEdge_inactive (he : s.d.bit (Pg.CLKRST + CLKRST.PPS_CTRL) 1 ≠ falling) :
    Gives (.ppsEdge falling) s (Frame [] (fun _ => False) s.d) := by
  refine gives_run (Eq.refl (execPpsEdge falling s)) ?_
  rw [if_neg (by rw [Bool.and_eq_true, beq_iff_eq]; exact fun h => he h.2)]
  exact (Frame.refl _).settle

theorem gives_ppsLost (h : s.d.bit (Pg.CLKRST + CLKRST.PPS_STATUS) 0 = true) : Gives .ppsLost s (fun t =>
    t.bit (Pg.CLKRST + CLKRST.PPS_STATUS) 0 = false ∧ t.bit (Pg.CLKRST + HDR.INT_STATUS) 25 = true
      ∧ Frame [] (fun a => a = Pg.CLKRST + CLKRST.PPS_STATUS ∨ a = Pg.CLKRST + HDR.INT_STATUS) s.d t) := by
  refine gives_run (Eq.refl (execPpsLost s)) ?_
  rw [if_pos h]
  refine ⟨?_, ?_, ((Frame.setB _ _ (.inl rfl)).trans (Frame.raise _ (.inr rfl))).settle⟩
  · rw [Dev.bit_settle, Dev.bit, Dev.rd_raise_ne _ _ _ (by decide), Dev.rd_setB_same, bitOf_withBit _ _ _ (by decide)]
  · exact (Dev.bit_settle _ _ _).trans (Dev.bit_raise_same _ _ (by decide))

end

/-- Settles O30, a command or an event at a time. -/
theorem timeBase : Obligations.TimeBase := by
  unfold Obligations.TimeBase
  intro s m b cmd given only
  exact ⟨fun ha => ⟨gives_timeCmdSet ha, gives_timeCmdStep ha, gives_timeCmdSetAtPps ha⟩,
    fun ha h => ⟨gives_timeCmd_refused (Eq.refl (execTimeCmdSet m s)) ha h, gives_timeCmd_refused (Eq.refl (execTimeCmdStep m s)) ha h,
      gives_timeCmd_refused (Eq.refl (execTimeCmdSetAtPps m s)) ha h⟩,
    fun h _ => gives_timeRdRead h, fun h _ => gives_ppsCaptRead h,
    fun _ hen => ⟨gives_ppsEdge hen, gives_ppsEdge_inactive⟩, gives_ppsLost⟩

end Sys2Proof
end

