-- ==== Sys2Proof/Proofs/HostStates.lean ====
section
/-! The states of a host lane: what a change of state and a change of its link write, and the commands and events that bring them
(08, R248, R249, R254). -/

namespace Sys2Proof

open Machine

/-- The registers of host lane n's page at these offsets. -/
def HostRegs (offs : List Nat) (n a : Nat) : Prop := ∃ off ∈ offs, a = Pg.HOST n + off

theorem HostRegs.own {offs : List Nat} {n off : Nat} (h : off ∈ offs) : HostRegs offs n (Pg.HOST n + off) := ⟨off, h, rfl⟩

theorem not_hostRegs {offs : List Nat} {n off : Nat} (h : off ∉ offs) : ¬ HostRegs offs n (Pg.HOST n + off) := by
  rintro ⟨off', hoff', e⟩
  exact h (Nat.add_left_cancel e ▸ hoff')

/-- What a host lane changes beside registers: its checker, what it sends and what its port announced. -/
abbrev hostParts : List Part := [.eg, .sent]

namespace Machine.Dev

variable {s t : Dev} {n st : Nat}

/-! ### The shape of a slice's ports -/

/-- The configuration of every slice is the same. -/
def SameShape (s t : Dev) : Prop :=
  ∀ sl, ∀ off ∈ [SLICE.SLICE_CFG, SLICE.HOST_CFG, SLICE.LP_MAP], t.rd (Pg.SLICE sl + off) = s.rd (Pg.SLICE sl + off)

section
variable (h : SameShape s t)
include h

theorem SameShape.cfg (sl : Nat) : t.rd (Pg.SLICE sl + SLICE.SLICE_CFG) = s.rd (Pg.SLICE sl + SLICE.SLICE_CFG) := h sl _ (by simp)
theorem SameShape.hostCfg (sl : Nat) : t.rd (Pg.SLICE sl + SLICE.HOST_CFG) = s.rd (Pg.SLICE sl + SLICE.HOST_CFG) := h sl _ (by simp)

theorem SameShape.lpLayout (sl : Nat) : t.lpLayout sl = s.lpLayout sl := congrArg (fieldOf · 8 3) (h.cfg sl)
theorem SameShape.lpEn (sl q : Nat) : t.lpEn sl q = s.lpEn sl q := congrArg (bitOf · (4 + q)) (h.cfg sl)
theorem SameShape.l453 (sl : Nat) : t.l453 sl = s.l453 sl := congrArg (bitOf · 0) (h.cfg sl)
theorem SameShape.hpLayout (sl : Nat) : t.hpLayout sl = s.hpLayout sl := congrArg (fieldOf · 8 3) (h.hostCfg sl)
theorem SameShape.hostRate (sl : Nat) : t.hostRate sl = s.hostRate sl := congrArg (fieldOf · 0 2) (h.hostCfg sl)

theorem SameShape.mapPort (p : Nat) : t.mapPort p = s.mapPort p :=
  congrArg (fun w => p / 4 * 4 + fieldOf w (2 * (p % 4)) 2) (h (p / 4) SLICE.LP_MAP (by simp))

end

/-- A host lane is held by a conflict of its slice's rates, layouts or map (R28). -/
def hostConflict (s : Dev) (sl : Nat) : Bool :=
  !s.l453 sl && (decide (s.hostRate sl ≠ 2) || decide (s.hpLayout sl ≠ s.lpLayout sl)
    || !(List.range 4).all (fun q => !s.lpEn sl q || decide (s.mapPort (4 * sl + q) = 4 * sl + q)))

theorem held_codes (b c1 c2 c3 c4 : Bool) :
    (let k := if b && c1 then 1 else if b && c2 then 2 else if b && c3 then 3 else if c4 then 4 else 0
     decide (1 ≤ k) && decide (k ≤ 3)) = (b && (c1 || c2 || c3)) := by
  revert b c1 c2 c3 c4
  decide

theorem hostHeld_eq : s.hostHeld n = s.hostConflict (n / 4) := held_codes _ _ _ _ _

theorem SameShape.hostHeld (h : SameShape s t) : t.hostHeld n = s.hostHeld n := by
  simp only [hostHeld_eq, hostConflict, h.l453, h.hostRate, h.hpLayout, h.lpLayout, h.lpEn, h.mapPort]

/-! ### A change of state (R249) -/

@[simp] theorem hostState_settle (s : Dev) (n : Nat) : (settle s).hostState n = s.hostState n := fld_settle _ _ _ _

/-- `HOST_STATE` and its cause as a change of state leaves them. -/
def hostStamped (s : Dev) (n st : Nat) : Dev :=
  (((s.setF (Pg.HOST n + HOST.HOST_STATE) 4 4 (s.hostState n)).setF (Pg.HOST n + HOST.HOST_STATE) 0 4 st).setF
    (Pg.HOST n + HOST.HOST_STATE) 8 2 (if st = 0 ∨ st = 4 then 0 else s.hostRate (n / 4))).raise (Pg.HOST n) 8

theorem hostStamped_frame {ps : List Part} : Frame ps (HostRegs [HOST.HOST_STATE, HDR.INT_STATUS] n) s (s.hostStamped n st) := by
  have hst : HostRegs [HOST.HOST_STATE, HDR.INT_STATUS] n (Pg.HOST n + HOST.HOST_STATE) := .own (by decide)
  exact (((Frame.setF _ _ _ hst).trans (Frame.setF _ _ _ hst)).trans (Frame.setF _ _ _ hst)).trans (Frame.raise _ (.own (by decide)))

theorem hostState_hostStamped (h : st < 16) : (s.hostStamped n st).hostState n = st := by
  rw [hostState, fld, hostStamped, rd_raise_ne _ _ _ (by simp), rd_setF_same, fieldOf_withField_ne _ _ _ _ _ _ (by decide), rd_setF_same,
    fieldOf_withField _ _ _ _ (by decide)]
  exact Nat.mod_eq_of_lt h

theorem flagsKept_hostStamped : FlagsKept (Pg.HOST n) s (s.hostStamped n st) :=
  (FlagsKept.of_rd (((rd_setF_ne _ _ _ _ _ (by simp)).trans (rd_setF_ne _ _ _ _ _ (by simp))).trans
    (rd_setF_ne _ _ _ _ _ (by simp)))).trans (.raise _ _ 8)

/-- Leaving the states where a scan runs and leaving PRBS write their own registers. -/
theorem setHost_frame : Frame hostParts (HostRegs [HOST.EYE_STATUS, HOST.PRBS_STATUS] n) (s.hostStamped n st) (s.setHost n st) := by
  have heye : HostRegs [HOST.EYE_STATUS, HOST.PRBS_STATUS] n (Pg.HOST n + HOST.EYE_CTRL + 12) := by
    rw [Nat.add_assoc]
    exact .own (by decide)
  unfold setHost
  extract_lets a old t u e v e' w
  have hu : Frame hostParts (HostRegs [HOST.EYE_STATUS, HOST.PRBS_STATUS] n) (s.hostStamped n st) u :=
    Frame.ite (Frame.refl _) (Frame.eyeAbort heye)
  have hv : Frame hostParts (HostRegs [HOST.EYE_STATUS, HOST.PRBS_STATUS] n) (s.hostStamped n st) v :=
    Frame.ite ((hu.trans (Frame.setEg _ (by decide))).trans (Frame.setB _ _ (.own (by decide)))) hu
  have hw : Frame hostParts (HostRegs [HOST.EYE_STATUS, HOST.PRBS_STATUS] n) (s.hostStamped n st) w :=
    Frame.ite (hv.trans (Frame.setEg _ (by decide))) hv
  exact hw.trans (Frame.hostShow _ (by decide) (by decide))

/-- What lane n shows of its port's traffic changes no register. -/
theorem rd_hostShow (s : Dev) (p a : Nat) : (s.hostShow p).rd a = s.rd a :=
  (Frame.hostShow (ps := hostParts) (A := fun _ => False) p (by decide) (by decide)).1 a id

/-- A lane that leaves PRBS shows no lock of its checker (R272). -/
theorem bit_setHost_prbs (h : s.hostState n = 3) : (s.setHost n st).bit (Pg.HOST n + HOST.PRBS_STATUS) 0 = false := by
  unfold setHost
  extract_lets a old t u e v e' w
  have hv : v.bit (Pg.HOST n + HOST.PRBS_STATUS) 0 = false := by
    simp only [v]
    rw [if_pos h, bit, rd_setB_same, bitOf_withBit _ _ _ (by decide)]
  have hw : w.rd (Pg.HOST n + HOST.PRBS_STATUS) = v.rd (Pg.HOST n + HOST.PRBS_STATUS) := by
    simp only [w]
    split <;> rfl
  rw [bit, rd_hostShow, hw]
  exact hv

/-- A register of the lane's page that a frame does not name. -/
theorem rd_of_hostFrame {ps : List Part} {offs : List Nat} {off : Nat} (f : Frame ps (HostRegs offs n) s t) (h : off ∉ offs) :
    t.rd (Pg.HOST n + off) = s.rd (Pg.HOST n + off) := f.1 _ (not_hostRegs h)

/-- Lane n is in a state, the change is flagged with no other flag lost, and of the lane's page nothing else changed but what O names. -/
def HostMoved (O : List Nat) (n st : Nat) (s t : Dev) : Prop :=
  t.hostState n = st ∧ t.bit (Pg.HOST n + HDR.INT_STATUS) 8 = true ∧ FlagsKept (Pg.HOST n) s t
    ∧ ∀ off ∉ O, t.rd (Pg.HOST n + off) = s.rd (Pg.HOST n + off)

/-- The registers a change of state writes. -/
abbrev moveOffs : List Nat := [HOST.HOST_STATE, HDR.INT_STATUS, HOST.EYE_STATUS, HOST.PRBS_STATUS]

theorem hostMoved_setHost (s : Dev) (n : Nat) (h : st < 16) : HostMoved moveOffs n st s (s.setHost n st) := by
  have hrest {off : Nat} (ho : off ∉ [HOST.EYE_STATUS, HOST.PRBS_STATUS]) :
      (s.setHost n st).rd (Pg.HOST n + off) = (s.hostStamped n st).rd (Pg.HOST n + off) := rd_of_hostFrame setHost_frame ho
  have hint := hrest (off := HDR.INT_STATUS) (by decide)
  refine ⟨?_, ?_, flagsKept_hostStamped.trans (.of_rd hint), fun off ho => ?_⟩
  · exact (congrArg (fieldOf · 0 4) (hrest (by decide))).trans (hostState_hostStamped h)
  · exact (congrArg (bitOf · 8) hint).trans (bit_raise_same _ _ (by decide))
  · simp only [moveOffs, List.mem_cons, List.not_mem_nil, or_false, not_or] at ho
    obtain ⟨hst, hi, heye, hprbs⟩ := ho
    rw [hrest (by simp [*]), rd_of_hostFrame (ps := hostParts) hostStamped_frame (by simp [*])]

/-! ### Leaving OFF (R28, R249, R254) -/

/-- A lane about to leave OFF: its slice checked, and no table lacking. -/
def hostChecked (s : Dev) (n : Nat) : Dev := (s.sliceCheck (n / 4)).setB (Pg.HOST n + HOST.HOST_STATE) 16 false

/-- The registers of a slice's check. -/
abbrev CheckRegs (sl a : Nat) : Prop := a = Pg.SLICE sl + SLICE.SLICE_STATUS ∨ a = Pg.SLICE sl + HDR.INT_STATUS

theorem sliceCheck_frame (s : Dev) (sl : Nat) : Frame [] (CheckRegs sl) s (s.sliceCheck sl) := Frame.sliceCheck sl (.inl rfl) (.inr rfl)

theorem hostChecked_frame : Frame [] (fun a => CheckRegs (n / 4) a ∨ a = Pg.HOST n + HOST.HOST_STATE) s (s.hostChecked n) :=
  ((sliceCheck_frame s _).mono (fun _ => id) fun _ => .inl).trans (Frame.setB _ _ (.inr rfl))

section
variable (hn : n < 16)
include hn

theorem not_checked_host {off : Nat} (h : off < 0x1000) (h' : off ≠ HOST.HOST_STATE) :
    ¬ (CheckRegs (n / 4) (Pg.HOST n + off) ∨ Pg.HOST n + off = Pg.HOST n + HOST.HOST_STATE) := by
  simp only [CheckRegs, Pg.HOST, Pg.SLICE, SLICE.SLICE_STATUS, HDR.INT_STATUS, HOST.HOST_STATE] at *
  omega

theorem sameShape_hostChecked : SameShape s (s.hostChecked n) := by
  intro sl off ho
  refine hostChecked_frame.1 _ ?_
  simp only [SLICE.SLICE_CFG, SLICE.HOST_CFG, SLICE.LP_MAP, List.mem_cons, List.not_mem_nil, or_false] at ho
  simp only [CheckRegs, Pg.HOST, Pg.SLICE, SLICE.SLICE_STATUS, HDR.INT_STATUS, HOST.HOST_STATE]
  omega

/-- A lane that is enabled, with its table loaded, its PLL locked and no conflict of its slice, leaves OFF. -/
theorem hostTryUp_goes (h0 : s.hostState n = 0) (hen : s.bit (Pg.HOST n + HOST.HOST_CTRL) 0 = true)
    (htable : s.bit (Pg.HOST n + HOST.EQ_STATUS) (if s.hostRate (n / 4) = 2 then 1 else 0) = true) (hheld : s.hostHeld n = false)
    (hpll : s.hpllLock (n / 4) = true) :
    s.hostTryUp n = (s.hostChecked n).setHost n (if s.bit (Pg.HOST n + HOST.HOST_CTRL) 1 then 3 else 1) := by
  have hrd {off : Nat} (ho : off < 0x1000) : (s.sliceCheck (n / 4)).rd (Pg.HOST n + off) = s.rd (Pg.HOST n + off) :=
    (sliceCheck_frame s (n / 4)).1 _ (by simp only [CheckRegs, Pg.HOST, Pg.SLICE, SLICE.SLICE_STATUS, HDR.INT_STATUS]; omega)
  have hrate : (s.sliceCheck (n / 4)).hostRate (n / 4) = s.hostRate (n / 4) :=
    congrArg (fieldOf · 0 2) ((sliceCheck_frame s (n / 4)).1 _ (by simp [CheckRegs]))
  have hloaded : (s.sliceCheck (n / 4)).bit (Pg.HOST n + HOST.EQ_STATUS) (if (s.sliceCheck (n / 4)).hostRate (n / 4) = 2 then 1 else 0)
      = true := by
    rw [hrate, bit, hrd (by decide)]
    exact htable
  have hheld' : (s.hostChecked n).hostHeld n = false := (sameShape_hostChecked hn).hostHeld.trans hheld
  have hpll' : (s.hostChecked n).hpllLock (n / 4) = true :=
    (congrArg (bitOf · (4 + n / 4)) (hostChecked_frame.1 _ (by simp [CheckRegs]; omega))).trans hpll
  have hmode : (s.hostChecked n).bit (Pg.HOST n + HOST.HOST_CTRL) 1 = s.bit (Pg.HOST n + HOST.HOST_CTRL) 1 :=
    congrArg (bitOf · 1) (hostChecked_frame.1 _ (not_checked_host hn (by decide) (by decide)))
  have hchecked : (s.sliceCheck (n / 4)).setB (Pg.HOST n + HOST.HOST_STATE) 16 (!true) = s.hostChecked n := rfl
  simp only [hostTryUp]
  rw [if_pos ⟨h0, hen⟩, hloaded, hchecked, hheld', hpll', hmode]
  rfl

end

/-! ### The link of a lane (R249) -/

/-- Writing one bit of a register keeps the other bits, of that register and of any other. -/
theorem bit_setB_other (s : Dev) (a : Nat) (x : Bool) {b i j : Nat} (h : b ≠ a ∨ j ≠ i) : (s.setB a i x).bit b j = s.bit b j := by
  by_cases hb : b = a
  · subst hb
    rw [bit, rd_setB_same, bitOf_withBit_ne _ _ _ _ (h.resolve_left (absurd rfl))]
    rfl
  · rw [bit, rd_setB_ne _ _ _ _ hb]
    rfl

/-- The link status of any lane. -/
abbrev LinkRegs (a : Nat) : Prop := ∃ i, a = Pg.HOST i + HOST.LINK_STATUS

theorem linkRegs (i : Nat) : LinkRegs (Pg.HOST i + HOST.LINK_STATUS) := ⟨i, rfl⟩

theorem not_linkRegs {off : Nat} (h : off < 0x1000) (h' : off ≠ HOST.LINK_STATUS) : ¬ LinkRegs (Pg.HOST n + off) := by
  rintro ⟨i, e⟩
  simp only [Pg.HOST, HOST.LINK_STATUS] at *
  omega

/-- One lane of a port shows whether the port is aligned. -/
def deskewStep (ok : Bool) (t : Dev) (i : Nat) : Dev :=
  t.setB (Pg.HOST i + HOST.LINK_STATUS) 3 (ok && t.bit (Pg.HOST i + HOST.LINK_STATUS) 2)

/-- The lanes of lane n's port show whether the port is aligned. -/
def deskewed (s : Dev) (n : Nat) : Dev :=
  (s.hpLanes (s.hostPort n)).foldl
    (deskewStep ((s.hpLanes (s.hostPort n)).all fun i => s.bit (Pg.HOST i + HOST.LINK_STATUS) 2)) s

theorem hostDeskew_eq : s.hostDeskew n = (s.deskewed n).hostShow (s.hostPort n) := rfl

theorem hostDeskew_frame : Frame hostParts LinkRegs s (s.hostDeskew n) :=
  (Frame.foldl (fun _ i => Frame.setB _ _ (linkRegs i)) _).trans (Frame.hostShow _ (by decide) (by decide))

theorem rd_hostDeskew {off : Nat} (h : off < 0x1000) (h' : off ≠ HOST.LINK_STATUS) :
    (s.hostDeskew n).rd (Pg.HOST n + off) = s.rd (Pg.HOST n + off) := hostDeskew_frame.1 _ (not_linkRegs h h')

theorem bit_hostDeskew {a j : Nat} (hj : j ≠ 3) : (s.hostDeskew n).bit a j = s.bit a j := by
  rw [hostDeskew_eq, bit, rd_hostShow]
  exact List.foldlRecOn (motive := fun t : Dev => t.bit a j = s.bit a j) _ _ rfl
    fun t ht i _ => (bit_setB_other t _ _ (.inr hj)).trans ht

/-- A lane that has lost everything shows no alignment of its port either. -/
theorem rd_hostDeskew_lost (h : s.rd (Pg.HOST n + HOST.LINK_STATUS) = 1) : (s.hostDeskew n).rd (Pg.HOST n + HOST.LINK_STATUS) = 1 := by
  rw [hostDeskew_eq, rd_hostShow]
  refine List.foldlRecOn (motive := fun t : Dev => t.rd (Pg.HOST n + HOST.LINK_STATUS) = 1) _ _ h fun t ht i _ => ?_
  by_cases hi : Pg.HOST n + HOST.LINK_STATUS = Pg.HOST i + HOST.LINK_STATUS
  · have hno : (1 : Word).getLsbD 2 = false := by decide
    rw [deskewStep, ← hi, rd_setB_same, bit, ht, bitOf, hno, Bool.and_false]
    decide
  · rw [deskewStep, rd_setB_ne _ _ _ _ hi, ht]

/-- Signal, clock and marker status as they are now, and the flag of a changed `LOS`. -/
def linked (s : Dev) (n : Nat) (signal cdr am : Bool) : Dev :=
  let a := Pg.HOST n + HOST.LINK_STATUS
  let t := ((s.setB a 0 (!signal)).setB a 1 cdr).setB a 2 am
  if s.bit a 0 == signal then t.raise (Pg.HOST n) 9 else t

section
variable {signal cdr am : Bool}

theorem hostLink_eq : s.hostLink n signal cdr am = (s.linked n signal cdr am).hostDeskew n := rfl

/-- The three bits of the link written. -/
def linkSet (s : Dev) (n : Nat) (signal cdr am : Bool) : Dev :=
  ((s.setB (Pg.HOST n + HOST.LINK_STATUS) 0 (!signal)).setB (Pg.HOST n + HOST.LINK_STATUS) 1 cdr).setB (Pg.HOST n + HOST.LINK_STATUS) 2 am

theorem linkSet_frame : Frame [] (· = Pg.HOST n + HOST.LINK_STATUS) s (s.linkSet n signal cdr am) :=
  ((Frame.setB (A := (· = _)) _ _ rfl).trans (Frame.setB _ _ rfl)).trans (Frame.setB _ _ rfl)

theorem linked_frame : Frame [] (HostRegs [HDR.INT_STATUS] n) (s.linkSet n signal cdr am) (s.linked n signal cdr am) :=
  Frame.ite (Frame.raise _ (.own (by decide))) (Frame.refl _)

theorem rd_linked {off : Nat} (h : off ≠ HDR.INT_STATUS) :
    (s.linked n signal cdr am).rd (Pg.HOST n + off) = (s.linkSet n signal cdr am).rd (Pg.HOST n + off) :=
  rd_of_hostFrame linked_frame (by simpa using h)

/-- The link of lane n reads what is there of signal, clock and markers. -/
theorem bits_hostLink : (s.hostLink n signal cdr am).bit (Pg.HOST n + HOST.LINK_STATUS) 0 = !signal
    ∧ (s.hostLink n signal cdr am).bit (Pg.HOST n + HOST.LINK_STATUS) 1 = cdr
    ∧ (s.hostLink n signal cdr am).bit (Pg.HOST n + HOST.LINK_STATUS) 2 = am := by
  have hset {j : Nat} (hj : j ≠ 3) : (s.hostLink n signal cdr am).bit (Pg.HOST n + HOST.LINK_STATUS) j
      = (s.linkSet n signal cdr am).bit (Pg.HOST n + HOST.LINK_STATUS) j :=
    (bit_hostDeskew hj).trans (congrArg (bitOf · j) (rd_linked (by decide)))
  rw [hset (by decide), hset (by decide), hset (by decide)]
  refine ⟨?_, ?_, bit_setB_same _ _ _ (by decide)⟩
  · rw [linkSet, bit_setB_other _ _ _ (.inr (by decide)), bit_setB_other _ _ _ (.inr (by decide)), bit_setB_same _ _ _ (by decide)]
  · rw [linkSet, bit_setB_other _ _ _ (.inr (by decide)), bit_setB_same _ _ _ (by decide)]

/-- A change of `LOS` is flagged. -/
theorem flag_hostLink (h : s.bit (Pg.HOST n + HOST.LINK_STATUS) 0 = signal) :
    (s.hostLink n signal cdr am).bit (Pg.HOST n + HDR.INT_STATUS) 9 = true := by
  rw [hostLink_eq, bit, rd_hostDeskew (by decide) (by decide), linked, if_pos (by simpa using h)]
  exact bit_raise_same _ _ (by decide)

theorem rd_hostLink {off : Nat} (h : off < 0x1000) (hl : off ≠ HOST.LINK_STATUS) (hi : off ≠ HDR.INT_STATUS) :
    (s.hostLink n signal cdr am).rd (Pg.HOST n + off) = s.rd (Pg.HOST n + off) := by
  rw [hostLink_eq, rd_hostDeskew h hl, rd_linked hi, linkSet_frame.1 _ (by simpa using hl)]

theorem hostState_hostLink : (s.hostLink n signal cdr am).hostState n = s.hostState n :=
  congrArg (fieldOf · 0 4) (rd_hostLink (by decide) (by decide) (by decide))

end

/-! ### Coming down (R248, R249) -/

/-- A lane that comes down from UP is counted; any other stays where it is. -/
theorem hostDrop_up (h : s.hostState n = 2) : HostMoved (HOST.DOWN_COUNT :: moveOffs) n 1 s (s.hostDrop n)
    ∧ (s.hostDrop n).rd (Pg.HOST n + HOST.DOWN_COUNT) = s.rd (Pg.HOST n + HOST.DOWN_COUNT) + 1 := by
  obtain ⟨hst, hflag, hkept, hrest⟩ := hostMoved_setHost s n (st := 1) (by decide)
  have hrd {off : Nat} (ho : off ≠ HOST.DOWN_COUNT) :
      (s.hostDrop n).rd (Pg.HOST n + off) = (s.setHost n 1).rd (Pg.HOST n + off) := by
    rw [hostDrop, if_pos h, rd_count_ne _ _ _ (by simpa using ho)]
  refine ⟨⟨?_, ?_, hkept.trans (.of_rd (hrd (by decide))), fun off ho => ?_⟩, ?_⟩
  · exact (congrArg (fieldOf · 0 4) (hrd (by decide))).trans hst
  · exact (congrArg (bitOf · 8) (hrd (by decide))).trans hflag
  · rw [List.mem_cons, not_or] at ho
    rw [hrd ho.1, hrest _ ho.2]
  · rw [hostDrop, if_pos h, rd_count_same, hrest _ (by decide)]
    rfl

theorem hostDrop_of_ne (h : s.hostState n ≠ 2) : s.hostDrop n = s := if_neg h

/-- A lane taken to OFF shows the loss of its signal and nothing else (R249). -/
theorem hostOff_spec : (s.hostOff n).hostState n = 0 ∧ (s.hostOff n).rd (Pg.HOST n + HOST.LINK_STATUS) = 1
    ∧ (s.hostOff n).rd (Pg.HOST n + HOST.HOST_CTRL) = s.rd (Pg.HOST n + HOST.HOST_CTRL) := by
  unfold hostOff
  extract_lets t u
  have hrd {off : Nat} (h : off < 0x1000) (hl : off ≠ HOST.LINK_STATUS) : u.rd (Pg.HOST n + off) = t.rd (Pg.HOST n + off) := by
    rw [rd_hostDeskew h hl, rd_wr_ne _ _ _ (by simpa using hl)]
  have ht : t.hostState n = 0 ∧ t.rd (Pg.HOST n + HOST.HOST_CTRL) = s.rd (Pg.HOST n + HOST.HOST_CTRL) := by
    by_cases h : s.hostState n = 0
    · exact ⟨(congrArg (hostState · n) (if_pos h)).trans h, congrArg (rd · _) (if_pos h)⟩
    · obtain ⟨hst, -, -, hrest⟩ := hostMoved_setHost s n (st := 0) (by decide)
      exact ⟨(congrArg (hostState · n) (if_neg h)).trans hst, (congrArg (rd · _) (if_neg h)).trans (hrest _ (by decide))⟩
  refine ⟨?_, ?_, ?_⟩
  · rw [hostState, fld, rd_setB_same, fieldOf_withBit_ne _ _ _ _ _ (by decide), hrd (by decide) (by decide)]
    exact ht.1
  · rw [rd_setB_ne _ _ _ _ (by simp), rd_hostDeskew_lost (rd_wr_same _ _ _)]
  · rw [rd_setB_ne _ _ _ _ (by simp), hrd (by decide) (by decide), ht.2]

/-! ### The commands of `HOST_CTRL` (R249) -/

/-- A write of `HOST_EN` or `PRBS_MODE` leaves the states of the lane as they are. -/
theorem hostState_setCtrl (i : Nat) (x : Bool) : (s.setB (Pg.HOST n + HOST.HOST_CTRL) i x).hostState n = s.hostState n :=
  congrArg (fieldOf · 0 4) (rd_setB_ne _ _ _ _ (by simp))

theorem hostDisable_off (h : s.hostState n ≠ 4) : (s.hostEnable n false).hostState n = 0
    ∧ (s.hostEnable n false).bit (Pg.HOST n + HOST.HOST_CTRL) 0 = false
    ∧ (s.hostEnable n false).rd (Pg.HOST n + HOST.LINK_STATUS) = 1 := by
  obtain ⟨hst, hlink, hctl⟩ := hostOff_spec (s := s.setB (Pg.HOST n + HOST.HOST_CTRL) 0 false) (n := n)
  have hoff : s.hostEnable n false = (s.setB (Pg.HOST n + HOST.HOST_CTRL) 0 false).hostOff n := by
    simp only [hostEnable]
    rw [if_neg (by rwa [hostState_setCtrl])]
    rfl
  rw [hoff]
  exact ⟨hst, (congrArg (bitOf · 0) hctl).trans (bit_setB_same _ _ _ (by decide)), hlink⟩

/-- A lane that is switched on with nothing to hold it leaves OFF. -/
theorem hostEnable_goes (hn : n < 16) (h0 : s.hostState n = 0)
    (htable : s.bit (Pg.HOST n + HOST.EQ_STATUS) (if s.hostRate (n / 4) = 2 then 1 else 0) = true) (hheld : s.hostHeld n = false)
    (hpll : s.hpllLock (n / 4) = true) :
    (s.hostEnable n true).hostState n = (if s.bit (Pg.HOST n + HOST.HOST_CTRL) 1 then 3 else 1)
      ∧ (s.hostEnable n true).bit (Pg.HOST n + HDR.INT_STATUS) 8 = true
      ∧ (s.hostEnable n true).bit (Pg.HOST n + HOST.HOST_CTRL) 0 = true := by
  set u := s.setB (Pg.HOST n + HOST.HOST_CTRL) 0 true with hu
  have hrd {off : Nat} (ho : off ≠ HOST.HOST_CTRL) : u.rd (Pg.HOST n + off) = s.rd (Pg.HOST n + off) :=
    rd_setB_ne _ _ _ _ (by simpa using ho)
  have hshape : SameShape s u := by
    intro sl off ho
    refine rd_setB_ne _ _ _ _ ?_
    simp only [SLICE.SLICE_CFG, SLICE.HOST_CFG, SLICE.LP_MAP, List.mem_cons, List.not_mem_nil, or_false] at ho
    simp only [Pg.HOST, Pg.SLICE, HOST.HOST_CTRL]
    omega
  have hpll' : u.hpllLock (n / 4) = true :=
    (congrArg (bitOf · (4 + n / 4)) (rd_setB_ne _ _ _ _ (by simp; omega))).trans hpll
  have hmode : u.bit (Pg.HOST n + HOST.HOST_CTRL) 1 = s.bit (Pg.HOST n + HOST.HOST_CTRL) 1 := bit_setB_other _ _ _ (.inr (by decide))
  have hon : u.bit (Pg.HOST n + HOST.HOST_CTRL) 0 = true := bit_setB_same _ _ _ (by decide)
  have hgoes : s.hostEnable n true = (u.hostChecked n).setHost n (if s.bit (Pg.HOST n + HOST.HOST_CTRL) 1 then 3 else 1) := by
    have h0' : u.hostState n = 0 := (hostState_setCtrl 0 true).trans h0
    have htable' : u.bit (Pg.HOST n + HOST.EQ_STATUS) (if u.hostRate (n / 4) = 2 then 1 else 0) = true := by
      rw [hshape.hostRate, bit, hrd (by decide)]
      exact htable
    rw [← hmode, ← hostTryUp_goes hn h0' hon htable' (hshape.hostHeld.trans hheld) hpll']
    simp only [hostEnable]
    rw [← hu, if_neg (by rw [h0']; decide), if_pos trivial]
  obtain ⟨hst, hflag, -, hrest⟩ := hostMoved_setHost (u.hostChecked n) n
    (st := if s.bit (Pg.HOST n + HOST.HOST_CTRL) 1 then 3 else 1) (by split <;> decide)
  have hctl : ((u.hostChecked n).setHost n (if s.bit (Pg.HOST n + HOST.HOST_CTRL) 1 then 3 else 1)).rd (Pg.HOST n + HOST.HOST_CTRL)
      = u.rd (Pg.HOST n + HOST.HOST_CTRL) :=
    (hrest _ (by decide)).trans (hostChecked_frame.1 _ (not_checked_host hn (by decide) (by decide)))
  rw [hgoes]
  exact ⟨hst, hflag, (congrArg (bitOf · 0) hctl).trans hon⟩

theorem prbsModeSet_moves (h : s.hostState n = 1 ∨ s.hostState n = 2) : (s.hostPrbs n true).hostState n = 3
    ∧ (s.hostPrbs n true).bit (Pg.HOST n + HDR.INT_STATUS) 8 = true
    ∧ (s.hostPrbs n true).bit (Pg.HOST n + HOST.HOST_CTRL) 1 = true := by
  obtain ⟨hst, hflag, -, hrest⟩ := hostMoved_setHost (s.setB (Pg.HOST n + HOST.HOST_CTRL) 1 true) n (st := 3) (by decide)
  have hgoes : s.hostPrbs n true = (s.setB (Pg.HOST n + HOST.HOST_CTRL) 1 true).setHost n 3 := by
    simp only [hostPrbs, hostState_setCtrl]
    exact if_pos ⟨trivial, h⟩
  rw [hgoes]
  exact ⟨hst, hflag, (congrArg (bitOf · 1) (hrest _ (by decide))).trans (bit_setB_same _ _ _ (by decide))⟩

theorem prbsModeClear_moves (h : s.hostState n = 3) : (s.hostPrbs n false).hostState n = 1
    ∧ (s.hostPrbs n false).bit (Pg.HOST n + HDR.INT_STATUS) 8 = true
    ∧ (s.hostPrbs n false).bit (Pg.HOST n + HOST.HOST_CTRL) 1 = false
    ∧ (s.hostPrbs n false).bit (Pg.HOST n + HOST.PRBS_STATUS) 0 = false := by
  obtain ⟨hst, hflag, -, hrest⟩ := hostMoved_setHost (s.setB (Pg.HOST n + HOST.HOST_CTRL) 1 false) n (st := 1) (by decide)
  have hgoes : s.hostPrbs n false = (s.setB (Pg.HOST n + HOST.HOST_CTRL) 1 false).setHost n 1 := by
    simp only [hostPrbs, hostState_setCtrl, h]
    rfl
  rw [hgoes]
  exact ⟨hst, hflag, (congrArg (bitOf · 1) (hrest _ (by decide))).trans (bit_setB_same _ _ _ (by decide)),
    bit_setHost_prbs ((hostState_setCtrl 1 false).trans h)⟩

/-! ### The events of a lane (R248, R249) -/

/-- A lane comes up when its signal, its clock and its markers are there. -/
theorem hostUp_moves : ((s.hostLink n true true true).setHost n 2).hostState n = 2
    ∧ ((s.hostLink n true true true).setHost n 2).bit (Pg.HOST n + HDR.INT_STATUS) 8 = true
    ∧ ((s.hostLink n true true true).setHost n 2).bit (Pg.HOST n + HOST.LINK_STATUS) 0 = false
    ∧ ((s.hostLink n true true true).setHost n 2).bit (Pg.HOST n + HOST.LINK_STATUS) 1 = true
    ∧ ((s.hostLink n true true true).setHost n 2).bit (Pg.HOST n + HOST.LINK_STATUS) 2 = true := by
  obtain ⟨hst, hflag, -, hrest⟩ := hostMoved_setHost (s.hostLink n true true true) n (st := 2) (by decide)
  obtain ⟨h0, h1, h2⟩ := bits_hostLink (s := s) (n := n) (signal := true) (cdr := true) (am := true)
  have hlink := hrest HOST.LINK_STATUS (by decide)
  exact ⟨hst, hflag, (congrArg (bitOf · 0) hlink).trans h0, (congrArg (bitOf · 1) hlink).trans h1,
    (congrArg (bitOf · 2) hlink).trans h2⟩

/-- A lane that was up comes down with its link as it is now. -/
theorem hostDown_moves {signal cdr am : Bool} (h : s.hostState n = 2) :
    HostMoved (HOST.DOWN_COUNT :: moveOffs) n 1 (s.hostLink n signal cdr am) ((s.hostLink n signal cdr am).hostDrop n)
    ∧ ((s.hostLink n signal cdr am).hostDrop n).rd (Pg.HOST n + HOST.DOWN_COUNT) = s.rd (Pg.HOST n + HOST.DOWN_COUNT) + 1
    ∧ ((s.hostLink n signal cdr am).hostDrop n).bit (Pg.HOST n + HOST.LINK_STATUS) 0 = !signal := by
  obtain ⟨⟨hst, hflag, hkept, hrest⟩, hcount⟩ := hostDrop_up (s := s.hostLink n signal cdr am) (hostState_hostLink.trans h)
  refine ⟨⟨hst, hflag, hkept, hrest⟩, ?_, ?_⟩
  · rw [hcount, rd_hostLink (by decide) (by decide) (by decide)]
  · exact (congrArg (bitOf · 0) (hrest _ (by decide))).trans bits_hostLink.1

/-- The lane after its loss of signal came or went. -/
def losChanged (s : Dev) (n : Nat) (los : Bool) : Dev :=
  let t := s.hostLink n (!los) (s.bit (Pg.HOST n + HOST.LINK_STATUS) 1) (s.bit (Pg.HOST n + HOST.LINK_STATUS) 2)
  if los then t.hostDrop n else t

theorem losChanged_moves (los : Bool) : (s.losChanged n los).bit (Pg.HOST n + HOST.LINK_STATUS) 0 = los
    ∧ (s.losChanged n los).hostState n = (if los ∧ s.hostState n = 2 then 1 else s.hostState n)
    ∧ (s.bit (Pg.HOST n + HOST.LINK_STATUS) 0 ≠ los → (s.losChanged n los).bit (Pg.HOST n + HDR.INT_STATUS) 9 = true) := by
  unfold losChanged
  extract_lets t
  have hlos : t.bit (Pg.HOST n + HOST.LINK_STATUS) 0 = los := bits_hostLink.1.trans (Bool.not_not los)
  have hst : t.hostState n = s.hostState n := hostState_hostLink
  have hflag (h : s.bit (Pg.HOST n + HOST.LINK_STATUS) 0 ≠ los) : t.bit (Pg.HOST n + HDR.INT_STATUS) 9 = true :=
    flag_hostLink (Bool.eq_not_iff.mpr h)
  by_cases h : los = true ∧ s.hostState n = 2
  · obtain ⟨⟨hst', -, hkept, hrest⟩, -⟩ := hostDrop_up (s := t) (n := n) (hst.trans h.2)
    rw [if_pos h.1, if_pos h]
    exact ⟨(congrArg (bitOf · 0) (hrest _ (by decide))).trans hlos, hst', fun hne => hkept 9 (hflag hne)⟩
  · have hsame : (if los = true then t.hostDrop n else t) = t := by
      split
      · next hl => exact hostDrop_of_ne fun h2 => h ⟨hl, hst ▸ h2⟩
      · rfl
    rw [hsame, if_neg h]
    exact ⟨hlos, hst, hflag⟩

/-- The faults the other side reports, and their flag when one changed. -/
def faultHeard (s : Dev) (n : Nat) (lf rf : Bool) : Dev :=
  let a := Pg.HOST n + HOST.LINK_STATUS
  let t := (s.setB a 4 lf).setB a 5 rf
  if s.bit a 4 != lf || s.bit a 5 != rf then t.raise (Pg.HOST n) 16 else t

theorem faultHeard_reports (lf rf : Bool) : (s.faultHeard n lf rf).bit (Pg.HOST n + HOST.LINK_STATUS) 4 = lf
    ∧ (s.faultHeard n lf rf).bit (Pg.HOST n + HOST.LINK_STATUS) 5 = rf
    ∧ (s.bit (Pg.HOST n + HOST.LINK_STATUS) 4 ≠ lf ∨ s.bit (Pg.HOST n + HOST.LINK_STATUS) 5 ≠ rf →
        (s.faultHeard n lf rf).bit (Pg.HOST n + HDR.INT_STATUS) 16 = true)
    ∧ Frame [] (fun a => a = Pg.HOST n + HOST.LINK_STATUS ∨ a = Pg.HOST n + HDR.INT_STATUS) s (s.faultHeard n lf rf) := by
  unfold faultHeard
  extract_lets a t
  have hlink : (if (s.bit a 4 != lf || s.bit a 5 != rf) = true then t.raise (Pg.HOST n) 16 else t).rd a = t.rd a := by
    split
    · exact rd_raise_ne _ _ _ (by simp [a])
    · rfl
  refine ⟨?_, ?_, fun h => ?_, ?_⟩
  · rw [bit, hlink]
    exact (bit_setB_other _ _ _ (.inr (by decide))).trans (bit_setB_same _ _ _ (by decide))
  · rw [bit, hlink]
    exact bit_setB_same _ _ _ (by decide)
  · rw [if_pos (by simpa [a] using h)]
    exact bit_raise_same _ _ (by decide)
  · exact ((Frame.setB _ _ (.inl rfl)).trans (Frame.setB _ _ (.inl rfl))).trans
      (Frame.ite (Frame.raise _ (.inr rfl)) (Frame.refl _))

end Machine.Dev

/-! ### The commands and events as they run -/

section
variable {s : State} {m : Master} {n : Lane}

theorem gives_hostEnable (ha : Admits s m (Pg.HOST n + HOST.HOST_CTRL)) (h0 : s.d.hostState n = 0)
    (htable : s.d.bit (Pg.HOST n + HOST.EQ_STATUS) (if s.d.hostRate (n / 4) = 2 then 1 else 0) = true) (hheld : s.d.hostHeld n = false)
    (hpll : s.d.hpllLock (n / 4) = true) : Gives (.hostEnable m n) s (fun t =>
      (t.hostState n = (if s.d.bit (Pg.HOST n + HOST.HOST_CTRL) 1 then 3 else 1) ∧ t.bit (Pg.HOST n + HDR.INT_STATUS) 8 = true)
        ∧ t.bit (Pg.HOST n + HOST.HOST_CTRL) 0 = true) := by
  obtain ⟨hst, hflag, hon⟩ := Dev.hostEnable_goes n.isLt h0 htable hheld hpll
  refine gives_access (Eq.refl (execHostEnable m n s)) ha ?_
  simp only [Dev.hostState_settle, Dev.bit_settle]
  exact ⟨⟨hst, hflag⟩, hon⟩

theorem gives_hostDisable (ha : Admits s m (Pg.HOST n + HOST.HOST_CTRL)) (h : s.d.hostState n ≠ 4) :
    Gives (.hostDisable m n) s (fun t => t.hostState n = 0 ∧ t.bit (Pg.HOST n + HOST.HOST_CTRL) 0 = false
      ∧ t.rd (Pg.HOST n + HOST.LINK_STATUS) = 1) := by
  refine gives_access (Eq.refl (execHostDisable m n s)) ha ?_
  simp only [Dev.hostState_settle, Dev.bit_settle, settle_rd]
  exact Dev.hostDisable_off h

theorem gives_prbsModeSet (ha : Admits s m (Pg.HOST n + HOST.HOST_CTRL)) (h : s.d.hostState n = 1 ∨ s.d.hostState n = 2) :
    Gives (.prbsModeSet m n) s (fun t => (t.hostState n = 3 ∧ t.bit (Pg.HOST n + HDR.INT_STATUS) 8 = true)
      ∧ t.bit (Pg.HOST n + HOST.HOST_CTRL) 1 = true) := by
  refine gives_access (Eq.refl (execPrbsModeSet m n s)) ha ?_
  simp only [Dev.hostState_settle, Dev.bit_settle, and_assoc]
  exact Dev.prbsModeSet_moves h

theorem gives_prbsModeClear (ha : Admits s m (Pg.HOST n + HOST.HOST_CTRL)) (h : s.d.hostState n = 3) :
    Gives (.prbsModeClear m n) s (fun t => (t.hostState n = 1 ∧ t.bit (Pg.HOST n + HDR.INT_STATUS) 8 = true)
      ∧ t.bit (Pg.HOST n + HOST.HOST_CTRL) 1 = false ∧ t.bit (Pg.HOST n + HOST.PRBS_STATUS) 0 = false) := by
  refine gives_access (Eq.refl (execPrbsModeClear m n s)) ha ?_
  simp only [Dev.hostState_settle, Dev.bit_settle, and_assoc]
  exact Dev.prbsModeClear_moves h

theorem gives_hostLaneUp (h : s.d.hostState n = 1) (hpll : s.d.hpllLock (n / 4) = true) : Gives (.hostLaneUp n) s (fun t =>
    (t.hostState n = 2 ∧ t.bit (Pg.HOST n + HDR.INT_STATUS) 8 = true) ∧ t.bit (Pg.HOST n + HOST.LINK_STATUS) 0 = false
      ∧ t.bit (Pg.HOST n + HOST.LINK_STATUS) 1 = true ∧ t.bit (Pg.HOST n + HOST.LINK_STATUS) 2 = true) := by
  refine gives_run (Eq.refl (execHostLaneUp n s)) ?_
  rw [if_pos ⟨h, hpll⟩]
  simp only [Dev.hostState_settle, Dev.bit_settle, and_assoc]
  exact Dev.hostUp_moves

theorem gives_hostLaneDown {signal cdr am : Bool} (h : s.d.hostState n = 2) (hlost : (signal && cdr && am) = false) :
    Gives (.hostLaneDown n signal cdr am) s (fun t => (t.hostState n = 1 ∧ t.bit (Pg.HOST n + HDR.INT_STATUS) 8 = true)
      ∧ t.rd (Pg.HOST n + HOST.DOWN_COUNT) = s.d.rd (Pg.HOST n + HOST.DOWN_COUNT) + 1
      ∧ t.bit (Pg.HOST n + HOST.LINK_STATUS) 0 = !signal) := by
  obtain ⟨⟨hst, hflag, -, -⟩, hcount, hsignal⟩ := Dev.hostDown_moves (signal := signal) (cdr := cdr) (am := am) h
  have hdown : (!signal || !cdr || !am || !s.d.hpllLock (n / 4)) = true := by
    simp only [Bool.and_eq_false_iff] at hlost
    simp only [Bool.or_eq_true, Bool.not_eq_true']
    exact .inl hlost
  refine gives_run (Eq.refl (execHostLaneDown n signal cdr am s)) ?_
  rw [if_pos ⟨h, hdown⟩]
  simp only [Dev.hostState_settle, Dev.bit_settle, settle_rd]
  exact ⟨⟨hst, hflag⟩, hcount, hsignal⟩

theorem gives_hostLosChange {los : Bool} (h : s.d.hostState n ≠ 0) : Gives (.hostLosChange n los) s (fun t =>
    t.bit (Pg.HOST n + HOST.LINK_STATUS) 0 = los
      ∧ t.hostState n = (if los ∧ s.d.hostState n = 2 then 1 else s.d.hostState n)
      ∧ (s.d.bit (Pg.HOST n + HOST.LINK_STATUS) 0 ≠ los → t.bit (Pg.HOST n + HDR.INT_STATUS) 9 = true)) := by
  refine gives_run (f := fun d => if d.hostState n = 0 then d else d.losChanged n los) (Eq.refl (execHostLosChange n los s)) ?_
  rw [if_neg h]
  simp only [Dev.hostState_settle, Dev.bit_settle]
  exact Dev.losChanged_moves los

theorem gives_hostLinkFaultReceived (lf rf : Bool) : Gives (.hostLinkFaultReceived n lf rf) s (fun t =>
    t.bit (Pg.HOST n + HOST.LINK_STATUS) 4 = lf ∧ t.bit (Pg.HOST n + HOST.LINK_STATUS) 5 = rf
      ∧ (s.d.bit (Pg.HOST n + HOST.LINK_STATUS) 4 ≠ lf ∨ s.d.bit (Pg.HOST n + HOST.LINK_STATUS) 5 ≠ rf →
          t.bit (Pg.HOST n + HDR.INT_STATUS) 16 = true)
      ∧ Frame [] (fun a => a = Pg.HOST n + HOST.LINK_STATUS ∨ a = Pg.HOST n + HDR.INT_STATUS) s.d t) := by
  obtain ⟨hlf, hrf, hflag, hframe⟩ := s.d.faultHeard_reports (n := n) lf rf
  refine gives_run (f := fun d => d.faultHeard n lf rf) (Eq.refl (execHostLinkFaultReceived n lf rf s)) ?_
  simp only [Dev.bit_settle]
  exact ⟨hlf, hrf, hflag, hframe.settle⟩

end

end Sys2Proof
end

