-- ==== Sys2Proof/Proofs/HostTests.lean ====
section
/-! The tests of a host lane: its PRBS commands and checker, and its eye scan (08, R272 to R274; 03, R105, R106). -/

namespace Sys2Proof

open Machine

theorem Frame.setWide_wide {ps : List Part} (s : Dev) (w a v : Nat) : Frame ps (WideRegs a) s (s.setWide w a v) :=
  Frame.setWide w v (.inl rfl) (.inr rfl)

namespace Machine.Dev

variable {s t : Dev} {n : Nat}

/-! ### Wide counters set and raised -/

theorem wide_setWide64 (s : Dev) (a v : Nat) : (s.setWide 64 a v).wide a = v % 2 ^ 64 := by
  have hlow : (s.setWide 64 a v).rd a = BitVec.ofNat 32 v := by
    rw [setWide, rd_wr_ne _ _ _ (by omega), rd_wr_same]
  have hhigh : (s.setWide 64 a v).rd (a + 4) = BitVec.ofNat 32 ((v % 2 ^ 64) / 2 ^ 32) := by
    rw [setWide, rd_wr_same]
  rw [wide, hlow, hhigh, BitVec.toNat_ofNat, BitVec.toNat_ofNat]
  omega

theorem wide_of_frame {ps : List Part} {A : Nat → Prop} {a : Nat} (f : Frame ps A s t) (d : ∀ x, WideRegs a x → ¬ A x) :
    t.wide a = s.wide a := wide_congr (f.1 a (d _ (.inl rfl))) (f.1 (a + 4) (d _ (.inr rfl)))

/-! ### PRBS (R272) -/

/-- The registers of the checker, which `PRBS_CMD.CLEAR` writes too. -/
abbrev PrbsRegs (n a : Nat) : Prop := Pg.HOST n + HOST.PRBS_STATUS ≤ a ∧ a ≤ Pg.HOST n + HOST.PRBS_ERRS + 4

theorem prbsStatus_mem : PrbsRegs n (Pg.HOST n + HOST.PRBS_STATUS) := by simp [PrbsRegs]

theorem prbsBits_mem {a : Nat} (h : WideRegs (Pg.HOST n + HOST.PRBS_BITS) a) : PrbsRegs n a := by
  simp only [WideRegs, PrbsRegs, HOST.PRBS_STATUS, HOST.PRBS_BITS, HOST.PRBS_ERRS] at *
  omega

theorem prbsErrs_mem {a : Nat} (h : WideRegs (Pg.HOST n + HOST.PRBS_ERRS) a) : PrbsRegs n a := by
  simp only [WideRegs, PrbsRegs, HOST.PRBS_STATUS, HOST.PRBS_ERRS] at *
  omega

theorem prbsBits_ne_errs {a : Nat} (h : WideRegs (Pg.HOST n + HOST.PRBS_BITS) a) : ¬ WideRegs (Pg.HOST n + HOST.PRBS_ERRS) a := by
  simp only [WideRegs, HOST.PRBS_BITS, HOST.PRBS_ERRS] at *
  omega

/-- The two counters of a checker are apart from its status and from its page's interrupts. -/
theorem prbsCounter_ne {a : Nat} (h : WideRegs (Pg.HOST n + HOST.PRBS_BITS) a ∨ WideRegs (Pg.HOST n + HOST.PRBS_ERRS) a) :
    ¬ (a = Pg.HOST n + HOST.PRBS_STATUS ∨ a = Pg.HOST n + HDR.INT_STATUS) := by
  simp only [WideRegs, HOST.PRBS_STATUS, HOST.PRBS_BITS, HOST.PRBS_ERRS, HDR.INT_STATUS] at *
  omega

theorem prbsClear_frame : Frame [] (PrbsRegs n) s (prbsClear s n) :=
  (((Frame.setWide_wide s _ _ _).mono (fun _ => id) fun _ => prbsBits_mem).trans
    ((Frame.setWide_wide _ _ _ _).mono (fun _ => id) fun _ => prbsErrs_mem)).trans (Frame.setB _ _ prbsStatus_mem)

theorem prbsClear_clears : (prbsClear s n).wide (Pg.HOST n + HOST.PRBS_BITS) = 0 ∧ (prbsClear s n).wide (Pg.HOST n + HOST.PRBS_ERRS) = 0
    ∧ (prbsClear s n).bit (Pg.HOST n + HOST.PRBS_STATUS) 1 = false := by
  have hlost (t : Dev) : Frame [] (fun a => a = Pg.HOST n + HOST.PRBS_STATUS ∨ a = Pg.HOST n + HDR.INT_STATUS) t
      (t.setB (Pg.HOST n + HOST.PRBS_STATUS) 1 false) := Frame.setB _ _ (.inl rfl)
  refine ⟨?_, ?_, bit_setB_same _ _ _ (by decide)⟩
  · rw [prbsClear, wide_of_frame (hlost _) fun _ h => prbsCounter_ne (.inl h),
      wide_of_frame (Frame.setWide_wide (ps := []) _ _ _ _) fun _ => prbsBits_ne_errs, wide_setWide64, Nat.zero_mod]
  · rw [prbsClear, wide_of_frame (hlost _) fun _ h => prbsCounter_ne (.inr h), wide_setWide48, Nat.zero_mod]

/-- What the checker of lane n makes of symbols. -/
def prbsRun (s : Dev) (n : Nat) (symbols : List (Fin 4)) : PrbsRun :=
  symbols.foldl (prbsSymbol (fieldOf (s.rd (Pg.HOST n + HOST.PRBS_CTRL)) 4 2) (bitOf (s.rd (Pg.HOST n + HOST.PRBS_CTRL)) 9))
    ⟨Sparse.get (fun _ => Prbs.init) s.eg.prbs n, s.bit (Pg.HOST n + HOST.PRBS_STATUS) 0, false, 0, 0⟩

/-- The checker's state after a run. -/
def setPrbs (s : Dev) (n : Nat) (c : Prbs) : Dev :=
  { s with eg := { s.eg with prbs := Sparse.put (fun _ => Prbs.init) s.eg.prbs n c } }

/-- The checker's state and its two counters after a run. -/
def prbsCounted (s : Dev) (n : Nat) (r : PrbsRun) : Dev :=
  ((s.setPrbs n r.c).count64 (Pg.HOST n + HOST.PRBS_BITS) r.bits).count48 (Pg.HOST n + HOST.PRBS_ERRS) r.errs

/-- The status of the checker after a run, and the flag of a lost lock. -/
def prbsShown (s : Dev) (n : Nat) (r : PrbsRun) : Dev :=
  let t := s.setB (Pg.HOST n + HOST.PRBS_STATUS) 0 r.lock
  if r.lost then (t.setB (Pg.HOST n + HOST.PRBS_STATUS) 1 true).raise (Pg.HOST n) 10 else t

theorem prbsCheck_eq {symbols : List (Fin 4)} (h : s.hostState n = 3) (hkind : fieldOf (s.rd (Pg.HOST n + HOST.PRBS_CTRL)) 4 2 ≠ 0) :
    prbsCheck s n symbols = (s.prbsCounted n (s.prbsRun n symbols)).prbsShown n (s.prbsRun n symbols) :=
  if_neg (not_or.mpr ⟨not_not_intro h, hkind⟩)

section
variable (s) (n) (r : PrbsRun)

theorem prbsCounted_frame : Frame [.eg] (PrbsRegs n) s (s.prbsCounted n r) :=
  ((Frame.setEg _ (by decide)).trans ((Frame.setWide_wide _ _ _ _).mono (fun _ => id) fun _ => prbsBits_mem)).trans
    ((Frame.setWide_wide _ _ _ _).mono (fun _ => id) fun _ => prbsErrs_mem)

theorem raised_prbsCounted : Raised 64 (Pg.HOST n + HOST.PRBS_BITS) r.bits s (s.prbsCounted n r)
    ∧ Raised 48 (Pg.HOST n + HOST.PRBS_ERRS) r.errs s (s.prbsCounted n r) := by
  set t := s.setPrbs n r.c
  set u := t.count64 (Pg.HOST n + HOST.PRBS_BITS) r.bits
  have hseed : Frame [.eg] (fun _ => False) s t := Frame.setEg _ (by decide)
  have hbits : Frame [] (WideRegs (Pg.HOST n + HOST.PRBS_BITS)) t u := Frame.setWide_wide _ _ _ _
  have herrs : Frame [] (WideRegs (Pg.HOST n + HOST.PRBS_ERRS)) u (s.prbsCounted n r) := Frame.setWide_wide _ _ _ _
  have hb : Raised 64 (Pg.HOST n + HOST.PRBS_BITS) r.bits t u := wide_setWide64 _ _ _
  have he : Raised 48 (Pg.HOST n + HOST.PRBS_ERRS) r.errs u (s.prbsCounted n r) := wide_setWide48 _ _ _
  exact ⟨(hb.trans herrs fun _ => prbsBits_ne_errs).after hseed fun _ _ => id,
    (he.after hbits fun _ h h' => prbsBits_ne_errs h' h).after hseed fun _ _ => id⟩

theorem prbsShown_frame : Frame [] (fun a => a = Pg.HOST n + HOST.PRBS_STATUS ∨ a = Pg.HOST n + HDR.INT_STATUS) s (s.prbsShown n r) :=
  (Frame.setB _ _ (.inl rfl)).trans (Frame.ite ((Frame.setB _ _ (.inl rfl)).trans (Frame.raise _ (.inr rfl))) (Frame.refl _))

theorem prbsShown_shows : (s.prbsShown n r).bit (Pg.HOST n + HOST.PRBS_STATUS) 0 = r.lock
    ∧ (r.lost = true → (s.prbsShown n r).bit (Pg.HOST n + HOST.PRBS_STATUS) 1 = true
      ∧ (s.prbsShown n r).bit (Pg.HOST n + HDR.INT_STATUS) 10 = true) := by
  simp only [prbsShown]
  split
  · refine ⟨?_, fun _ => ⟨?_, bit_raise_same _ _ (by decide)⟩⟩
    · rw [bit, rd_raise_ne _ _ _ (by simp)]
      exact (bit_setB_other _ _ _ (.inr (by decide))).trans (bit_setB_same _ _ _ (by decide))
    · rw [bit, rd_raise_ne _ _ _ (by simp)]
      exact bit_setB_same _ _ _ (by decide)
  · next h => exact ⟨bit_setB_same _ _ _ (by decide), fun hl => absurd hl h⟩

end

/-- What lane n shows after its checker heard a run. -/
def PrbsHeard (n : Nat) (r : PrbsRun) (s t : Dev) : Prop :=
  Sparse.get (fun _ => Prbs.init) t.eg.prbs n = r.c
    ∧ Raised 64 (Pg.HOST n + HOST.PRBS_BITS) r.bits s t ∧ Raised 48 (Pg.HOST n + HOST.PRBS_ERRS) r.errs s t
    ∧ t.bit (Pg.HOST n + HOST.PRBS_STATUS) 0 = r.lock
    ∧ (r.lost = true → t.bit (Pg.HOST n + HOST.PRBS_STATUS) 1 = true ∧ t.bit (Pg.HOST n + HDR.INT_STATUS) 10 = true)
    ∧ Frame [.eg] (fun a => a = Pg.HOST n + HDR.INT_STATUS ∨ PrbsRegs n a) s t

theorem prbsHeard_prbsShown (r : PrbsRun) : PrbsHeard n r s (settle ((s.prbsCounted n r).prbsShown n r)) := by
  obtain ⟨hbits, herrs⟩ := raised_prbsCounted s n r
  obtain ⟨hlock, hlost⟩ := prbsShown_shows (s.prbsCounted n r) n r
  have hshown := prbsShown_frame (s.prbsCounted n r) n r
  have heg : (settle ((s.prbsCounted n r).prbsShown n r)).eg = (s.prbsCounted n r).eg := hshown.settle.2 .eg (by decide)
  refine ⟨?_, (hbits.trans hshown fun _ h => prbsCounter_ne (.inl h)).settle,
    (herrs.trans hshown fun _ h => prbsCounter_ne (.inr h)).settle, (bit_settle _ _ _).trans hlock, fun hl => ?_, ?_⟩
  · rw [heg]
    exact Sparse.get_put_same _ _ _ _
  · rw [bit_settle, bit_settle]
    exact hlost hl
  · refine (((prbsCounted_frame s n r).mono (fun _ => id) fun _ => .inr).trans (hshown.mono (by simp) ?_)).settle
    rintro a (rfl | rfl)
    · exact .inr prbsStatus_mem
    · exact .inl rfl

/-! ### Eye scans, of any block (R105, R106) -/

section
variable {m : Master} {page a data words cause per width j code : Nat} {inState : Bool}

/-- A scan is started in a state of its lane that has one, while none runs. -/
theorem eyeStart_barred (h : inState = false ∨ s.eyeRuns a = true) :
    s.eyeStart m page a data words cause inState = s.logErr m (a + 8) Err.state := by
  refine if_pos ?_
  rcases h with h | h <;> simp [h]

theorem eyeStart_bad (hst : inState = true) (hidle : s.eyeRuns a = false) (hbad : s.eyeBad a = true) :
    s.eyeStart m page a data words cause inState = s.logErr m (a + 8) Err.config := by
  rw [eyeStart, if_neg (by simp [hst, hidle]), if_pos hbad]

/-- A scan's points cleared and the settings it keeps to. -/
def eyeBegun (s : Dev) (a data words : Nat) : Dev :=
  { s.clearRange data (data + 4 * words) with eyes := Sparse.put (fun _ => (0, 0)) s.eyes a (s.rd a, s.rd (a + 4)) }

theorem eyeStart_starts (hst : inState = true) (hidle : s.eyeRuns a = false) (hgood : s.eyeBad a = false)
    (hcol : s.fld (a + 4) 0 6 ≠ 0) (hrow : s.fld (a + 4) 8 6 ≠ 0) :
    s.eyeStart m page a data words cause inState = (s.eyeBegun a data words).wr (a + 12) 1 := by
  rw [eyeStart, if_neg (by simp [hst, hidle]), if_neg (by simp [hgood])]
  exact if_neg (not_or.mpr ⟨hcol, hrow⟩)

theorem rd_eyeBegun {k : Nat} (hk : k < words) : (s.eyeBegun a data words).rd (data + 4 * k) = regReset (data + 4 * k) :=
  (rd_clearRange _ _ _).trans (if_pos (by omega))

theorem eyeSet_eyeBegun : (s.eyeBegun a data words).eyeSet a = (s.rd a, s.rd (a + 4)) := Sparse.get_put_same _ _ _ _

/-- The code of point j stored, and the index moved on. -/
def eyeStored (s : Dev) (a data per width j code : Nat) : Dev :=
  (s.setF (data + 4 * (j / per)) (width * (j % per)) width code).setF (a + 12) 16 11 (j + 1)

/-- The index behind point j, its code, and whether the scan goes on. -/
def EyeTaken (a data per width j code : Nat) (runs : Bool) (t : Dev) : Prop :=
  t.fld (a + 12) 16 11 = j + 1 ∧ t.fld (data + 4 * (j / per)) (width * (j % per)) width = code % 2 ^ width ∧ t.bit (a + 12) 0 = runs

theorem eyeTaken_eyeStored (hruns : s.eyeRuns a = true) (hj : j < 1024) (hne : data + 4 * (j / per) ≠ a + 12)
    (hfit : width * (j % per) + width ≤ 32) : EyeTaken a data per width j code true (s.eyeStored a data per width j code) := by
  refine ⟨?_, ?_, ?_⟩
  · rw [eyeStored, fld, rd_setF_same, fieldOf_withField _ _ _ _ (by decide), Nat.mod_eq_of_lt (by omega)]
  · rw [eyeStored, fld, rd_setF_ne _ _ _ _ _ hne, rd_setF_same, fieldOf_withField _ _ _ _ hfit]
  · rw [eyeStored, bit, rd_setF_same, bitOf_withField_ne _ _ _ _ _ (by decide), rd_setF_ne _ _ _ _ _ hne.symm]
    exact hruns

/-- The end of a scan leaves its points and its index. -/
theorem EyeTaken.eyeDone {runs : Bool} (h : EyeTaken a data per width j code runs s) (hne : data + 4 * (j / per) ≠ a + 12)
    (hne' : data + 4 * (j / per) ≠ page + HDR.INT_STATUS) (hstatus : a + 12 ≠ page + HDR.INT_STATUS) :
    EyeTaken a data per width j code false (s.eyeDone page a cause) := by
  obtain ⟨hindex, hcode, -⟩ := h
  have hshown : (s.eyeDone page a cause).rd (a + 12) = withBit (withBit (s.rd (a + 12)) 0 false) 1 true := by
    rw [Dev.eyeDone, rd_raise_ne _ _ _ hstatus, rd_setB_same, rd_setB_same]
  refine ⟨?_, ?_, ?_⟩
  · rw [fld, hshown, fieldOf_withBit_ne _ _ _ _ _ (by decide), fieldOf_withBit_ne _ _ _ _ _ (by decide)]
    exact hindex
  · rw [fld, Dev.eyeDone, rd_raise_ne _ _ _ hne', rd_setB_ne _ _ _ _ hne, rd_setB_ne _ _ _ _ hne]
    exact hcode
  · rw [bit, hshown, bitOf_withBit_ne _ _ _ _ (by decide), bitOf_withBit _ _ _ (by decide)]

theorem EyeTaken.settle {runs : Bool} (h : EyeTaken a data per width j code runs s) :
    EyeTaken a data per width j code runs (settle s) := by
  obtain ⟨hindex, hcode, hruns⟩ := h
  exact ⟨(fld_settle _ _ _ _).trans hindex, (fld_settle _ _ _ _).trans hcode, (bit_settle _ _ _).trans hruns⟩

/-- The points of the scan in progress. -/
def eyePoints (s : Dev) (a : Nat) : Nat := fieldOf (s.eyeSet a).2 0 6 * fieldOf (s.eyeSet a).2 8 6

theorem eyeTaken_eyePoint (hruns : s.eyeRuns a = true) (hindex : s.fld (a + 12) 16 11 = j) (hj : j < 1024)
    (hne : data + 4 * (j / per) ≠ a + 12) (hne' : data + 4 * (j / per) ≠ page + HDR.INT_STATUS)
    (hstatus : a + 12 ≠ page + HDR.INT_STATUS) (hfit : width * (j % per) + width ≤ 32) :
    EyeTaken a data per width j code (decide (j + 1 < s.eyePoints a)) (s.eyePoint page a data per width cause code) := by
  have hstored := eyeTaken_eyeStored (code := code) hruns hj hne hfit
  have hgo : s.eyePoint page a data per width cause code
      = if s.eyePoints a ≤ j + 1 then (s.eyeStored a data per width j code).eyeDone page a cause
        else s.eyeStored a data per width j code := by
    rw [eyePoint, if_pos hruns, hindex]
    rfl
  rw [hgo]
  split
  · next h =>
    rw [decide_eq_false (by omega)]
    exact hstored.eyeDone hne hne' hstatus
  · next h =>
    rw [decide_eq_true (by omega)]
    exact hstored

theorem eyeAbort_aborts (hruns : s.eyeRuns a = true) : (s.eyeAbort a).bit (a + 12) 0 = false ∧ (s.eyeAbort a).bit (a + 12) 2 = true
    ∧ Frame [] (· = a + 12) s (s.eyeAbort a) := by
  refine ⟨?_, ?_, Frame.eyeAbort rfl⟩
  · rw [eyeAbort, if_pos hruns, bit_setB_other _ _ _ (.inr (by decide)), bit_setB_same _ _ _ (by decide)]
  · rw [eyeAbort, if_pos hruns, bit_setB_same _ _ _ (by decide)]

end

end Machine.Dev

/-! ### The points of a host lane after reset -/

/-- No register of a host page at or above 0x800 has another reset value than 0. -/
theorem reset_rowsHost : ∀ r ∈ regRows .host, r.reset = 0 ∨ 0 < r.stride ∧ r.off + r.stride * r.count ≤ 0x800 := by decide
/-- A register at or above the end of every row with another reset value resets to 0. -/
theorem reset_of_rowsBelow {t : PageType} {lim off : Nat} {r : RegRow}
    (hrows : ∀ r ∈ regRows t, r.reset = 0 ∨ 0 < r.stride ∧ r.off + r.stride * r.count ≤ lim) (h : regRow t off = some r)
    (ho : lim ≤ off) : r.reset = 0 := by
  have hholds : r.holds off = true := List.find?_some (p := fun r => RegRow.holds r off) h
  simp only [RegRow.holds, Bool.and_eq_true, decide_eq_true_eq] at hholds
  obtain ⟨⟨hlo, hmod⟩, hcount⟩ := hholds
  refine (hrows r (List.mem_of_find?_eq_some h)).resolve_right fun ⟨hstride, hend⟩ => ?_
  have hlt : r.stride * ((off - r.off) / r.stride) < r.stride * r.count := Nat.mul_lt_mul_of_pos_left hcount hstride
  rw [Nat.mul_div_cancel' (Nat.dvd_of_mod_eq_zero hmod)] at hlt
  omega

theorem regReset_hostEye {n off : Nat} (hn : n < 16) (hlo : 0x800 ≤ off) (hlt : off < 0x1000) : regReset (Pg.HOST n + off) = 0 := by
  obtain ⟨p, hp, ht⟩ : OnTypes [.host] (Pg.HOST n + off) := .host hn hlt (by simp)
  have hoff : (Pg.HOST n + off) % 0x1000 = off := offsetOf_add _ hlt
  have htype : p.type = .host := by simpa using ht
  simp only [regReset, hp, hoff, htype, instanceReset]
  rw [if_neg (by simp; omega), if_neg (by simp; omega), if_neg (by omega)]
  cases hrow : regRow .host off with
  | none => rfl
  | some r => exact reset_of_rowsBelow reset_rowsHost hrow hlo

/-! ### The registers of a host lane's scan -/

theorem hostEyeGrid_eq (n : Nat) : Pg.HOST n + HOST.EYE_CTRL + 4 = Pg.HOST n + HOST.EYE_GRID := Nat.add_assoc _ _ _

theorem hostEyeCmd_eq (n : Nat) : Pg.HOST n + HOST.EYE_CTRL + 8 = Pg.HOST n + HOST.EYE_CMD := Nat.add_assoc _ _ _

theorem hostEyeStatus_eq (n : Nat) : Pg.HOST n + HOST.EYE_CTRL + 12 = Pg.HOST n + HOST.EYE_STATUS := Nat.add_assoc _ _ _

theorem eyeRuns_host (s : Dev) (n : Nat) : s.eyeRuns (Pg.HOST n + HOST.EYE_CTRL) = s.bit (Pg.HOST n + HOST.EYE_STATUS) 0 := by
  rw [Dev.eyeRuns, hostEyeStatus_eq]

/-! ### The commands and events as they run -/

section
variable {s : State} {m : Master} {n : Lane}

theorem gives_prbsInject (ha : Admits s m (Pg.HOST n + HOST.PRBS_CMD)) (h : s.d.hostState n = 3) : Gives (.prbsInject m n) s (fun t =>
    t.sent = .invertBit n :: s.d.sent ∧ Frame [.sent] (fun _ => False) s.d t) := by
  refine gives_access (Eq.refl (execPrbsInject m n s)) ha ?_
  rw [prbsInject, if_pos h]
  exact ⟨(settle_sent _).trans (Dev.sent_emit (by simp)), (Frame.emit _ (by decide)).settle⟩

theorem gives_prbsClear (ha : Admits s m (Pg.HOST n + HOST.PRBS_CMD)) : Gives (.prbsClear m n) s (fun t =>
    t.wide (Pg.HOST n + HOST.PRBS_BITS) = 0 ∧ t.wide (Pg.HOST n + HOST.PRBS_ERRS) = 0 ∧ t.bit (Pg.HOST n + HOST.PRBS_STATUS) 1 = false
      ∧ Frame [] (Dev.PrbsRegs n) s.d t) := by
  obtain ⟨hbits, herrs, hlost⟩ := Dev.prbsClear_clears (s := s.d) (n := n)
  refine gives_access (Eq.refl (execPrbsClear m n s)) ha ?_
  simp only [Dev.wide_settle, Dev.bit_settle]
  exact ⟨hbits, herrs, hlost, Dev.prbsClear_frame.settle⟩

/-- Symbols that the checker of a lane in PRBS hears. -/
theorem gives_prbsCheck {i : Instr} {symbols : List (Fin 4)} (hi : exec i s = s.run (fun d => prbsCheck d n symbols))
    (h : s.d.hostState n = 3) (hkind : fieldOf (s.d.rd (Pg.HOST n + HOST.PRBS_CTRL)) 4 2 ≠ 0) :
    Gives i s (Dev.PrbsHeard n (s.d.prbsRun n symbols) s.d) := by
  refine gives_run hi ?_
  rw [Dev.prbsCheck_eq h hkind]
  exact Dev.prbsHeard_prbsShown _

theorem gives_prbsCheck_idle {i : Instr} {symbols : List (Fin 4)} (hi : exec i s = s.run (fun d => prbsCheck d n symbols))
    (h : s.d.hostState n ≠ 3 ∨ fieldOf (s.d.rd (Pg.HOST n + HOST.PRBS_CTRL)) 4 2 = 0) :
    Gives i s (Frame [] (fun _ => False) s.d) := by
  refine gives_run hi ?_
  rw [prbsCheck, if_pos h]
  exact (Frame.refl _).settle

/-- The lane's state is one that a scan may start in. -/
theorem mayScan (h : s.d.hostState n = 2 ∨ s.d.hostState n = 3) : (s.d.hostState n == 2 || s.d.hostState n == 3) = true := by
  simpa using h

theorem gives_hostEyeStart (ha : Admits s m (Pg.HOST n + HOST.EYE_CMD)) (hgood : s.d.eyeBad (Pg.HOST n + HOST.EYE_CTRL) = false)
    (hst : s.d.hostState n = 2 ∨ s.d.hostState n = 3) (hidle : s.d.bit (Pg.HOST n + HOST.EYE_STATUS) 0 = false)
    (hcol : s.d.fld (Pg.HOST n + HOST.EYE_GRID) 0 6 ≠ 0) (hrow : s.d.fld (Pg.HOST n + HOST.EYE_GRID) 8 6 ≠ 0) :
    Gives (.hostEyeStart m n) s (fun t => t.rd (Pg.HOST n + HOST.EYE_STATUS) = 1
      ∧ t.eyeSet (Pg.HOST n + HOST.EYE_CTRL) = (s.d.rd (Pg.HOST n + HOST.EYE_CTRL), s.d.rd (Pg.HOST n + HOST.EYE_GRID))
      ∧ ∀ k, k < 256 → t.rd (Pg.HOST n + HOST.EYE_DATA + 4 * k) = 0) := by
  refine gives_access (Eq.refl (execHostEyeStart m n s)) ha ?_
  rw [hostEyeStart, Dev.eyeStart_starts (mayScan hst) (by rw [eyeRuns_host, hidle]) hgood (by rwa [hostEyeGrid_eq])
    (by rwa [hostEyeGrid_eq]), hostEyeStatus_eq]
  refine ⟨(settle_rd _ _).trans (Dev.rd_wr_same _ _ _), ?_, fun k hk => ?_⟩
  · rw [← hostEyeGrid_eq]
    exact (Dev.eyeSet_of_eyes (s := s.d.eyeBegun _ (Pg.HOST n + HOST.EYE_DATA) 256) (by simp) _).trans Dev.eyeSet_eyeBegun
  · rw [settle_rd, Dev.rd_wr_ne _ _ _ (by simp only [HOST.EYE_DATA, HOST.EYE_STATUS]; omega), Dev.rd_eyeBegun hk, Nat.add_assoc]
    exact regReset_hostEye n.isLt (by simp) (by simp only [HOST.EYE_DATA]; omega)

theorem gives_hostEyeStart_barred (ha : Admits s m (Pg.HOST n + HOST.EYE_CMD))
    (h : s.d.hostState n ≠ 2 ∧ s.d.hostState n ≠ 3 ∨ s.d.bit (Pg.HOST n + HOST.EYE_STATUS) 0 = true) :
    Gives (.hostEyeStart m n) s (Rejected m (Pg.HOST n + HOST.EYE_CMD) 0x0D s.d) := by
  refine gives_rejected (Eq.refl (execHostEyeStart m n s)) ha (by decide) ?_
  rw [hostEyeStart, Dev.eyeStart_barred (h.imp (fun hst => by simpa using hst) (by rw [eyeRuns_host]; exact id)), hostEyeCmd_eq]

theorem gives_hostEyeStart_bad (ha : Admits s m (Pg.HOST n + HOST.EYE_CMD)) (hbad : s.d.eyeBad (Pg.HOST n + HOST.EYE_CTRL) = true)
    (hst : s.d.hostState n = 2 ∨ s.d.hostState n = 3) (hidle : s.d.bit (Pg.HOST n + HOST.EYE_STATUS) 0 = false) :
    Gives (.hostEyeStart m n) s (Rejected m (Pg.HOST n + HOST.EYE_CMD) 0x0C s.d) := by
  refine gives_rejected (Eq.refl (execHostEyeStart m n s)) ha (by decide) ?_
  rw [hostEyeStart, Dev.eyeStart_bad (mayScan hst) (by rw [eyeRuns_host, hidle]) hbad, hostEyeCmd_eq]

theorem gives_hostEyeAbort (ha : Admits s m (Pg.HOST n + HOST.EYE_CMD)) (hruns : s.d.bit (Pg.HOST n + HOST.EYE_STATUS) 0 = true) :
    Gives (.hostEyeAbort m n) s (fun t => t.bit (Pg.HOST n + HOST.EYE_STATUS) 0 = false
      ∧ t.bit (Pg.HOST n + HOST.EYE_STATUS) 2 = true ∧ Frame [] (· = Pg.HOST n + HOST.EYE_STATUS) s.d t) := by
  obtain ⟨hidle, haborted, hframe⟩ := Dev.eyeAbort_aborts (a := Pg.HOST n + HOST.EYE_CTRL) ((eyeRuns_host _ _).trans hruns)
  rw [hostEyeStatus_eq] at hidle haborted hframe
  exact gives_access (Eq.refl (execHostEyeAbort m n s)) ha
    ⟨(Dev.bit_settle _ _ _).trans hidle, (Dev.bit_settle _ _ _).trans haborted, hframe.settle⟩

theorem gives_hostEyePointDone {errors j : Nat} (hruns : s.d.bit (Pg.HOST n + HOST.EYE_STATUS) 0 = true)
    (hindex : s.d.fld (Pg.HOST n + HOST.EYE_STATUS) 16 11 = j) (hj : j < 1024) : Gives (.hostEyePointDone n errors) s (fun t =>
      t.fld (Pg.HOST n + HOST.EYE_STATUS) 16 11 = j + 1
        ∧ t.fld (Pg.HOST n + HOST.EYE_DATA + 4 * (j / 4)) (8 * (j % 4)) 8
          = contourCode (2 ^ fieldOf (s.d.eyeSet (Pg.HOST n + HOST.EYE_CTRL)).1 8 5) errors % 2 ^ 8
        ∧ t.bit (Pg.HOST n + HOST.EYE_STATUS) 0 = decide (j + 1 < s.d.eyePoints (Pg.HOST n + HOST.EYE_CTRL))) := by
  have hdata : Pg.HOST n + HOST.EYE_DATA + 4 * (j / 4) ≠ Pg.HOST n + HOST.EYE_CTRL + 12
      ∧ Pg.HOST n + HOST.EYE_DATA + 4 * (j / 4) ≠ Pg.HOST n + HDR.INT_STATUS := by
    simp only [HOST.EYE_DATA, HOST.EYE_CTRL, HDR.INT_STATUS]
    omega
  have htaken := Dev.eyeTaken_eyePoint (page := Pg.HOST n) (cause := 11) (per := 4) (width := 8)
    (code := contourCode (2 ^ fieldOf (s.d.eyeSet (Pg.HOST n + HOST.EYE_CTRL)).1 8 5) errors)
    ((eyeRuns_host _ _).trans hruns) (by rwa [hostEyeStatus_eq]) hj hdata.1 hdata.2 (by simp [Nat.add_assoc]) (by omega)
  rw [← hostEyeStatus_eq]
  exact gives_run (Eq.refl (execHostEyePointDone n errors s)) htaken.settle

end

/-- Settles O27: the states of a host lane, a command or an event at a time, then its tests. -/
theorem hostLanes : Obligations.HostLanes := by
  unfold Obligations.HostLanes
  refine ⟨fun s m n => ?_, fun s m n => ?_⟩
  · intro b st at_
    exact ⟨gives_hostEnable, gives_hostDisable, gives_prbsModeSet, gives_prbsModeClear, gives_hostLaneUp,
      fun _ _ _ => gives_hostLaneDown, fun _ => gives_hostLosChange, gives_hostLinkFaultReceived⟩
  · intro b es ctl eye runs heard
    exact ⟨gives_prbsInject, gives_prbsClear,
      fun symbols h hkind => ⟨gives_prbsCheck (Eq.refl (execPrbsLock n symbols s)) h hkind,
        gives_prbsCheck (Eq.refl (execPrbsLoss n symbols s)) h hkind⟩,
      fun symbols h => ⟨gives_prbsCheck_idle (Eq.refl (execPrbsLock n symbols s)) h,
        gives_prbsCheck_idle (Eq.refl (execPrbsLoss n symbols s)) h⟩,
      gives_hostEyeStart, gives_hostEyeStart_barred, gives_hostEyeStart_bad, gives_hostEyeAbort, fun _ _ => gives_hostEyePointDone⟩

end Sys2Proof
end

