-- ==== Sys2Proof/Proofs/EgressFrames.lean ====
section
/-! The frames a host lane delivers: their bytes, what their counting leaves as it was, and the share they join (08, R256 to R260,
R507). -/

namespace Sys2Proof

open Machine

/-! ### The bytes of a tagged frame (R256) -/

theorem bytesBE_succ (n v : Nat) : bytesBE (n + 1) v = bytesBE n (v / 256) ++ [BitVec.ofNat 8 v] := by
  rw [bytesBE, bytesLE, List.reverse_cons, bytesBE]

theorem natBE_bytesBE (n v : Nat) : natBE (bytesBE n v) = v % 256 ^ n := by
  induction n generalizing v with
  | zero => simp [bytesBE, bytesLE, natBE, Nat.mod_one]
  | succ n ih =>
    rw [bytesBE_succ, natBE_append_singleton, ih, BitVec.toNat_ofNat, pow_succ' 256 n, Nat.mod_mul]
    omega

/-- A tagged frame from its first byte to its FCS. -/
def egFrame (tag : BitVec 64) (body : List Byte) (fcs : BitVec 32) : List Byte := bytesBE 8 tag.toNat ++ body ++ bytesBE 4 fcs.toNat

section
variable (tag : BitVec 64) (body : List Byte) (fcs : BitVec 32)

theorem egFrame_length : (egFrame tag body fcs).length = 8 + (body.length + 4) := by
  simp only [egFrame, List.length_append, bytesBE_length]
  omega

theorem egFrame_start {k : Nat} (hk : k ≤ 8) (l : List Byte) : (egFrame tag body fcs ++ l).take k = (bytesBE 8 tag.toNat).take k := by
  rw [egFrame, List.append_assoc, List.append_assoc, List.take_append_of_le_length (by rw [bytesBE_length]; exact hk)]

theorem egFrame_tag : BitVec.ofNat 64 (natBE ((egFrame tag body fcs ++ List.replicate 8 0).take 8)) = tag := by
  have hlen : (bytesBE 8 tag.toNat).length ≤ 8 := (bytesBE_length _ _).le
  rw [egFrame_start _ _ _ (by decide), List.take_of_length_le hlen, natBE_bytesBE,
    Nat.mod_eq_of_lt (by exact tag.isLt), BitVec.ofNat_toNat, BitVec.setWidth_eq]

/-- The first six bytes of a tagged frame are the top of its tag. -/
theorem egFrame_destination : natBE ((egFrame tag body fcs).take 6) = tag.toNat / 2 ^ 16 := by
  have hstart := egFrame_start tag body fcs (k := 6) (by decide) []
  rw [List.append_nil] at hstart
  have htop : (bytesBE 8 tag.toNat).take 6 = bytesBE 6 (tag.toNat / 2 ^ 16) := by
    rw [bytesBE_succ, bytesBE_succ, Nat.div_div_eq_div_mul, List.append_assoc,
      List.take_append_of_le_length (bytesBE_length _ _).ge, List.take_of_length_le (bytesBE_length _ _).le]
    rfl
  rw [hstart, htop, natBE_bytesBE]
  exact Nat.mod_eq_of_lt (Nat.div_lt_of_lt_mul tag.isLt)

theorem egFrame_body : slice (egFrame tag body fcs) 8 body.length = body := by
  have h := slice_middle (bytesBE 8 tag.toNat) body (bytesBE 4 fcs.toNat)
  rwa [bytesBE_length, ← List.append_assoc] at h

theorem fcsBad_egFrame : fcsBad (egFrame tag body fcs) = true ↔ bytesBE 4 fcs.toNat ≠ fcsBytes (bytesBE 8 tag.toNat ++ body) := by
  have hlen : (egFrame tag body fcs).length - 4 = (bytesBE 8 tag.toNat ++ body).length := by
    rw [egFrame_length, List.length_append, bytesBE_length]
    omega
  rw [fcsBad, hlen, egFrame, List.take_left, List.drop_left, bne_iff_ne]
  exact ne_comm

end

/-! ### Registers of a host page -/

theorem HostRegs.mono {offs offs' : List Nat} {h : Nat} (hs : ∀ off ∈ offs, off ∈ offs') {a : Nat} (ha : HostRegs offs h a) :
    HostRegs offs' h a := by
  obtain ⟨off, ho, e⟩ := ha
  exact ⟨off, hs off ho, e⟩

theorem wideRegs_host {offs : List Nat} {h off a : Nat} (hlo : off ∈ offs) (hhi : off + 4 ∈ offs) (ha : WideRegs (Pg.HOST h + off) a) :
    HostRegs offs h a := by
  rcases ha with rfl | rfl
  · exact .own hlo
  · rw [Nat.add_assoc]
    exact .own hhi

/-- A wide counter apart from registers of its page. -/
theorem not_hostRegs_wide {offs : List Nat} {h off : Nat} (hlo : off ∉ offs) (hhi : off + 4 ∉ offs) :
    ∀ a, WideRegs (Pg.HOST h + off) a → ¬ HostRegs offs h a := by
  rintro a (rfl | rfl)
  · exact not_hostRegs hlo
  · rw [Nat.add_assoc]
    exact not_hostRegs hhi

theorem hostRegs_setWide {offs : List Nat} {h off : Nat} (s : Dev) (w v : Nat) (hlo : off ∈ offs) (hhi : off + 4 ∈ offs) :
    Frame [] (HostRegs offs h) s (s.setWide w (Pg.HOST h + off) v) :=
  (Frame.setWide_wide s w _ v).mono (fun _ => id) fun _ => wideRegs_host hlo hhi

namespace Machine.Dev

variable {s t u : Dev} {n p h : Nat}

/-! ### What the counting of a frame leaves as it was -/

/-- The registers, at any page, from which a port's width, rate and state are told. -/
def portOffs : List Nat :=
  [HDR.PAGE_STATUS, SLICE.SLICE_CFG, LTX.TX_STATE, HOST.LINK_STATUS, SLICE.HOST_CFG, SLICE.LP_MAP]

/-- The ports stand as they stood: their configuration, their states, their shares and their islands. -/
structure PortsKept (s t : Dev) : Prop where
  regs : ∀ page, ∀ off ∈ portOffs, t.rd (page * 0x1000 + off) = s.rd (page * 0x1000 + off)
  eg : t.eg = s.eg
  isl : t.isl = s.isl

theorem PortsKept.of_frame {A : Nat → Prop} (f : Frame [] A s t) (h : ∀ page, ∀ off ∈ portOffs, ¬ A (page * 0x1000 + off)) :
    PortsKept s t := ⟨fun page off ho => f.1 _ (h page off ho), f.2 .eg (by decide), f.2 .isl (by decide)⟩

/-- Registers of a host page that tell nothing of a port. -/
theorem PortsKept.of_hostRegs {offs : List Nat} (f : Frame [] (HostRegs offs h) s t)
    (d : ∀ off ∈ offs, off < 0x1000 ∧ off ∉ portOffs) : PortsKept s t := by
  have hsmall : ∀ off ∈ portOffs, off < 0x1000 := by decide
  refine .of_frame f fun page off ho ⟨off', ho', e⟩ => ?_
  obtain ⟨hlt, hnot⟩ := d off' ho'
  have hoff : off = off' := by
    have := hsmall off ho
    simp only [Pg.HOST] at e
    omega
  exact hnot (hoff ▸ ho)

theorem PortsKept.trans (h : PortsKept s t) (k : PortsKept t u) : PortsKept s u :=
  ⟨fun page off ho => (k.regs page off ho).trans (h.regs page off ho), k.eg.trans h.eg, k.isl.trans h.isl⟩

section
variable (k : PortsKept s t)
include k

theorem PortsKept.shape : SameShape s t := fun sl off ho => k.regs (0x050 + sl) off (by revert off; decide)

theorem PortsKept.hostPort : t.hostPort n = s.hostPort n := by rw [Dev.hostPort, k.shape.hpLayout, Dev.hostPort]

theorem PortsKept.hpWidth : t.hpWidth p = s.hpWidth p := by rw [Dev.hpWidth, k.shape.hpLayout, Dev.hpWidth]

theorem PortsKept.lpWidth : t.lpWidth p = s.lpWidth p := by rw [Dev.lpWidth, k.shape.lpLayout, Dev.lpWidth]

theorem PortsKept.hpLanes : t.hpLanes p = s.hpLanes p := by rw [Dev.hpLanes, k.hpWidth, Dev.hpLanes]

theorem PortsKept.lpLanes : t.lpLanes p = s.lpLanes p := by rw [Dev.lpLanes, k.lpWidth, Dev.lpLanes]

theorem PortsKept.islandOn (i : Nat) : t.islandOn i = s.islandOn i := by rw [Dev.islandOn, k.isl, Dev.islandOn]

theorem PortsKept.inSafe (page : Nat) : t.inSafe page = s.inSafe page := congrArg (bitOf · 3) (k.regs page _ (by decide))

theorem PortsKept.hostSafe : t.hostSafe p = s.hostSafe p := by
  simp only [Dev.hostSafe, k.inSafe, k.hpLanes]

theorem PortsKept.hostUp : t.hostUp p = s.hostUp p := by
  have hst (i : Nat) : t.hostState i = s.hostState i := congrArg (fieldOf · 0 4) (k.regs (0x040 + i) HOST.HOST_STATE (by decide))
  have hlink (i : Nat) : t.bit (Pg.HOST i + HOST.LINK_STATUS) 3 = s.bit (Pg.HOST i + HOST.LINK_STATUS) 3 :=
    congrArg (bitOf · 3) (k.regs (0x040 + i) HOST.LINK_STATUS (by decide))
  simp only [Dev.hostUp, k.hpLanes, k.hostSafe, hst, hlink, k.islandOn]

theorem PortsKept.lpOn : t.lpOn p = s.lpOn p := by simp only [Dev.lpOn, k.lpWidth, k.shape.lpEn]

theorem PortsKept.portHeld : t.portHeld p = s.portHeld p := by
  have halign (i : Nat) : t.bit (Pg.LFEC i + LFEC.ALIGN_STATUS) 7 = s.bit (Pg.LFEC i + LFEC.ALIGN_STATUS) 7 :=
    congrArg (bitOf · 7) (k.regs (0x030 + i) LFEC.ALIGN_STATUS (by decide))
  simp only [Dev.portHeld, k.lpLanes, halign]

theorem PortsKept.sendsRf : t.sendsRf p = s.sendsRf p := by
  have halign (i : Nat) : t.bit (Pg.LFEC i + LFEC.ALIGN_STATUS) 2 = s.bit (Pg.LFEC i + LFEC.ALIGN_STATUS) 2 :=
    congrArg (bitOf · 2) (k.regs (0x030 + i) LFEC.ALIGN_STATUS (by decide))
  have hctrl (i : Nat) : t.bit (Pg.LFEC i + LFEC.FEC_CTRL) 11 = s.bit (Pg.LFEC i + LFEC.FEC_CTRL) 11 :=
    congrArg (bitOf · 11) (k.regs (0x030 + i) LFEC.FEC_CTRL (by decide))
  simp only [Dev.sendsRf, k.lpLanes, k.portHeld, halign, hctrl]

theorem PortsKept.egressDown : t.egressDown p = s.egressDown p := by
  have hst (i : Nat) : t.txState i = s.txState i := congrArg (fieldOf · 0 4) (k.regs (0x020 + i) LTX.TX_STATE (by decide))
  simp only [Dev.egressDown, k.lpLanes, k.portHeld, k.sendsRf, hst]

theorem PortsKept.share : t.share p = s.share p := by rw [Dev.share, k.eg, Dev.share]

theorem PortsKept.cutThrough : t.cutThrough n p = s.cutThrough n p := by
  simp only [Dev.cutThrough, Dev.lpRate, Dev.hpRate, k.share, k.lpWidth, k.hpWidth, k.hostPort, k.shape.l453, k.shape.hostRate, k.eg]
  rfl

end

theorem hostPort_lt (hn : n < 16) : s.hostPort n < 16 := by
  have := layoutFirst_le (s.hpLayout (n / 4)) (n % 4)
  simp only [Dev.hostPort]
  omega

/-- A port that is up is not in the safe state (R250). -/
theorem hostSafe_of_hostUp (hup : s.hostUp p = true) : s.hostSafe p = false := by
  simp only [hostUp, Bool.and_eq_true, Bool.not_eq_true'] at hup
  obtain ⟨⟨-, hsafe⟩, -⟩ := hup
  exact hsafe

/-! ### The counting of a frame (R248, R256) -/

/-- The counters of a host port that every frame of a port that is up raises. -/
abbrev frameOffs : List Nat :=
  [HOST.RX_FRAMES, HOST.RX_FRAMES + 4, HOST.RX_BYTES, HOST.RX_BYTES + 4, HOST.RS_CORR, HOST.RS_UNC]

/-- A frame's codewords counted, then the frame and its bytes. -/
def egressCounted (s : Dev) (n len : Nat) (fec : HostFec) : Dev :=
  ((s.hostCodewords n fec).count48 (Pg.HOST (s.hostPort n) + HOST.RX_FRAMES)).count64 (Pg.HOST (s.hostPort n) + HOST.RX_BYTES) len

/-- The frame, its bytes and its codewords are counted. -/
def EgressCounted (h len : Nat) (fec : HostFec) (s t : Dev) : Prop :=
  Raised 48 (Pg.HOST h + HOST.RX_FRAMES) 1 s t ∧ Raised 64 (Pg.HOST h + HOST.RX_BYTES) len s t
    ∧ t.rd (Pg.HOST h + HOST.RS_CORR) = s.rd (Pg.HOST h + HOST.RS_CORR) + BitVec.ofNat 32 fec.corrected
    ∧ t.rd (Pg.HOST h + HOST.RS_UNC) = s.rd (Pg.HOST h + HOST.RS_UNC) + BitVec.ofNat 32 fec.uncorrectable

/-- Counters stay as they are counted while nothing writes them. -/
theorem EgressCounted.trans {ps : List Part} {A : Nat → Prop} {len : Nat} {fec : HostFec} (c : EgressCounted h len fec s t)
    (f : Frame ps A t u) (d : ∀ off ∈ frameOffs, ¬ A (Pg.HOST h + off)) : EgressCounted h len fec s u := by
  obtain ⟨hframes, hbytes, hcorr, hunc⟩ := c
  have hwide {off : Nat} (hlo : off ∈ frameOffs) (hhi : off + 4 ∈ frameOffs) : ∀ a, WideRegs (Pg.HOST h + off) a → ¬ A a := by
    rintro a ha
    obtain ⟨off', ho, rfl⟩ := wideRegs_host hlo hhi ha
    exact d off' ho
  exact ⟨hframes.trans f (hwide (by simp) (by simp)), hbytes.trans f (hwide (by simp) (by simp)),
    (f.1 _ (d _ (by simp))).trans hcorr, (f.1 _ (d _ (by simp))).trans hunc⟩

section
variable (s) (n) (len : Nat) (fec : HostFec)

theorem hostCodewords_frame : Frame [] (HostRegs [HOST.RS_CORR, HOST.RS_UNC] (s.hostPort n)) s (s.hostCodewords n fec) :=
  (Frame.count _ (.own (by decide))).trans (Frame.count _ (.own (by decide)))

theorem portsKept_hostCodewords : PortsKept s (s.hostCodewords n fec) := .of_hostRegs (hostCodewords_frame s n fec) (by decide)

theorem egressCounted_frame : Frame [] (HostRegs frameOffs (s.hostPort n)) s (s.egressCounted n len fec) :=
  (((hostCodewords_frame s n fec).mono (fun _ => id) fun _ => HostRegs.mono (by decide)).trans
    (hostRegs_setWide _ _ _ (by decide) (by decide))).trans (hostRegs_setWide _ _ _ (by decide) (by decide))

theorem portsKept_egressCounted : PortsKept s (s.egressCounted n len fec) := .of_hostRegs (egressCounted_frame s n len fec) (by decide)

theorem egressCounted_counts : EgressCounted (s.hostPort n) len fec s (s.egressCounted n len fec) := by
  set b := Pg.HOST (s.hostPort n)
  set u := s.hostCodewords n fec
  set v := u.count48 (b + HOST.RX_FRAMES)
  set w := s.egressCounted n len fec
  have hcw : Frame [] (HostRegs [HOST.RS_CORR, HOST.RS_UNC] (s.hostPort n)) s u := hostCodewords_frame s n fec
  have hframes : Frame [] (HostRegs [HOST.RX_FRAMES, HOST.RX_FRAMES + 4] (s.hostPort n)) u v :=
    hostRegs_setWide _ _ _ (by decide) (by decide)
  have hbytes : Frame [] (HostRegs [HOST.RX_BYTES, HOST.RX_BYTES + 4] (s.hostPort n)) v w :=
    hostRegs_setWide _ _ _ (by decide) (by decide)
  have hone : Raised 48 (b + HOST.RX_FRAMES) 1 u v := raised_count48 _ _
  have hlen : Raised 64 (b + HOST.RX_BYTES) len v w := wide_setWide64 _ _ _
  have hkept {off : Nat} (h : off ∉ [HOST.RX_FRAMES, HOST.RX_FRAMES + 4]) (h' : off ∉ [HOST.RX_BYTES, HOST.RX_BYTES + 4]) :
      w.rd (b + off) = u.rd (b + off) := (hbytes.1 _ (not_hostRegs h')).trans (hframes.1 _ (not_hostRegs h))
  refine ⟨(hone.after hcw (not_hostRegs_wide (by decide) (by decide))).trans hbytes (not_hostRegs_wide (by decide) (by decide)),
    (hlen.after hframes (not_hostRegs_wide (by decide) (by decide))).after hcw (not_hostRegs_wide (by decide) (by decide)), ?_, ?_⟩
  · rw [hkept (by decide) (by decide)]
    exact (rd_count_ne _ _ _ (by simp [b])).trans (rd_count_same _ _ _)
  · rw [hkept (by decide) (by decide)]
    exact (rd_count_same _ _ _).trans (congrArg (· + _) (rd_count_ne _ _ _ (by simp)))

end

/-! ### A port's share (R260, R261) -/

theorem share_setShare_ne {q : Nat} (x : Share) (hq : q ≠ p) : (s.setShare p x).share q = s.share q := Sparse.get_put_ne _ _ _ hq

/-- Which frames wait is no matter of a share's fill. -/
theorem frames_shareUpdate (s : Dev) (p : Nat) : ((s.shareUpdate p).share p).frames = (s.share p).frames := by
  simp only [shareUpdate]
  split
  · change ((s.setShare p { s.share p with xoff := true }).share p).frames = _
    rw [share_setShare_same]
  · split
    · rw [share_setShare_same]
    · rfl

theorem share_shareUpdate_ne {q : Nat} (hq : q ≠ p) : (s.shareUpdate p).share q = s.share q := by
  simp only [shareUpdate]
  split
  · exact share_setShare_ne _ hq
  · split
    · exact share_setShare_ne _ hq
    · rfl

/-- A share's fill changes its own XOFF alone. -/
theorem shareUpdate_frame (s : Dev) (p : Nat) : Frame [.eg] (· = egBase p + SLICE.EG_XOFF_EVENTS) s (s.shareUpdate p) :=
  Frame.ite ((Frame.setEg _ (by decide)).trans (Frame.count _ rfl)) (Frame.ite (Frame.setEg _ (by decide)) (Frame.refl s))

theorem reports_shareUpdate (s : Dev) (p : Nat) : (s.shareUpdate p).eg.reports = s.eg.reports := by
  simp only [shareUpdate]
  split
  · rfl
  · split <;> rfl

section
variable {f : EgFrame}

theorem egEnqueue_room (hroom : fillCells (s.share p) + cells f.len ≤ s.lpWidth p * 16384) :
    s.egEnqueue p f = (s.setShare p { s.share p with frames := (s.share p).frames ++ [f] }).shareUpdate p := by
  simp only [egEnqueue]
  exact if_neg (Nat.not_lt.mpr hroom)

theorem egEnqueue_full (hfull : ¬ fillCells (s.share p) + cells f.len ≤ s.lpWidth p * 16384) :
    s.egEnqueue p f = s.count48 (egBase p + SLICE.EG_OVERFLOW) := by
  simp only [egEnqueue]
  exact if_pos (Nat.lt_of_not_le hfull)

/-- A frame there is room for joins its share, and no other share changes. -/
theorem share_egEnqueue (hroom : fillCells (s.share p) + cells f.len ≤ s.lpWidth p * 16384) :
    ((s.egEnqueue p f).share p).frames = (s.share p).frames ++ [f] ∧ ∀ q, q ≠ p → (s.egEnqueue p f).share q = s.share q := by
  rw [egEnqueue_room hroom]
  exact ⟨(frames_shareUpdate _ _).trans (congrArg Share.frames (share_setShare_same _ _ _)),
    fun _ hq => (share_shareUpdate_ne hq).trans (share_setShare_ne _ hq)⟩

/-- The registers of a share's fill and overflow. -/
abbrev ShareRegs (p a : Nat) : Prop :=
  a = egBase p + SLICE.EG_XOFF_EVENTS ∨ a = egBase p + SLICE.EG_OVERFLOW ∨ a = egBase p + SLICE.EG_OVERFLOW + 4

theorem egEnqueue_frame (s : Dev) (p : Nat) (f : EgFrame) : Frame [.eg] (ShareRegs p) s (s.egEnqueue p f) :=
  Frame.ite (Frame.count48 _ (.inr (.inl rfl)) (.inr (.inr rfl)))
    ((Frame.setEg _ (by decide)).trans ((shareUpdate_frame _ _).mono (fun _ => id) fun _ => .inl))

end

/-- A frame with a wrong FCS is counted and flagged (R259). -/
def fcsJudged (s : Dev) (h : Nat) (fcsOk : Bool) : Dev :=
  if fcsOk then s else (s.count (Pg.HOST h + HOST.FCS_ERRS)).raise (Pg.HOST h) 13

theorem fcsJudged_frame (s : Dev) (h : Nat) (fcsOk : Bool) :
    Frame [] (HostRegs [HOST.FCS_ERRS, HDR.INT_STATUS] h) s (s.fcsJudged h fcsOk) :=
  Frame.ite (Frame.refl s) ((Frame.count _ (.own (by decide))).trans (Frame.raise _ (.own (by decide))))

theorem fcsJudged_bad (s : Dev) (h : Nat) : (s.fcsJudged h false).rd (Pg.HOST h + HOST.FCS_ERRS) = s.rd (Pg.HOST h + HOST.FCS_ERRS) + 1
    ∧ (s.fcsJudged h false).bit (Pg.HOST h + HDR.INT_STATUS) 13 = true :=
  ⟨(rd_raise_ne _ _ _ (by simp)).trans (rd_count_same _ _ _), bit_raise_same _ _ (by decide)⟩

/-- A frame for a port that takes frames: it is offered to the port's share, unless its FCS is wrong and it has not started on the
line (R259, R507). -/
def egressTaken (t : Dev) (n h p : Nat) (f : EgFrame) : Dev :=
  if f.bad && !t.cutThrough n p then t.fcsJudged h (!f.bad) else (t.fcsJudged h (!f.bad)).egEnqueue p f

/-! ### The checks of a tagged frame (R259, R260, R507) -/

/-- The checks of a frame that is counted, in their order. -/
def egressJudged (t : Dev) (n h : Nat) (tag : BitVec 64) (body : List Byte) (fcsOk : Bool) : Dev :=
  let p := tag.toNat / 2 ^ 56 % 16
  let len := body.length + 4
  if !egTagOk tag then (t.count (Pg.HOST h + HOST.TAG_ERRS)).raise (Pg.HOST h) 12
  else if p / 4 ≠ n / 4 ∨ t.lpOn p = false then t.count48 (Pg.DROP + DROP.EG_WRONG_SLICE + 0x10 * (n / 4))
  else if t.egressDown p then t.count48 (Pg.DROP + DROP.EG_PORT_DOWN + 0x10 * (n / 4))
  else
    let cut := t.cutThrough n p
    let badLen := decide (len < 64) || decide (16000 < len)
    let t := if badLen then t.count (Pg.HOST h + HOST.LENGTH_ERRS) else t
    let t := if fcsOk then t else (t.count (Pg.HOST h + HOST.FCS_ERRS)).raise (Pg.HOST h) 13
    if (badLen || !fcsOk) && !cut then t
    else t.egEnqueue p { len := len, bytes := body, tag := tag, host := n, bad := badLen || !fcsOk }

section
variable {tag : BitVec 64} {body : List Byte} {fcs : BitVec 32} {fec : HostFec} {fcsOk : Bool}

theorem egressRx_egFrame (hup : s.hostUp (s.hostPort n) = true) : (s.hostCodewords n fec).egressRx n (egFrame tag body fcs)
    = (s.egressCounted n (8 + (body.length + 4)) fec).egressJudged n (s.hostPort n) tag body (!fcsBad (egFrame tag body fcs)) := by
  have k := portsKept_hostCodewords s n fec
  have hup' := k.hostUp.trans hup
  simp only [egressRx, egFrame_tag, egFrame_length, Nat.add_sub_cancel_left, Nat.add_sub_cancel, egFrame_body, k.hostPort]
  rw [if_neg (by rw [hostSafe_of_hostUp hup']; decide), if_neg (by rw [hup']; decide)]
  rfl

theorem egressJudged_badTag (htag : egTagOk tag = false) :
    t.egressJudged n h tag body fcsOk = (t.count (Pg.HOST h + HOST.TAG_ERRS)).raise (Pg.HOST h) 12 := by
  simp only [egressJudged]
  rw [htag, if_pos Bool.not_false]

theorem egressJudged_wrongSlice (htag : egTagOk tag = true)
    (hwrong : tag.toNat / 2 ^ 56 % 16 / 4 ≠ n / 4 ∨ t.lpOn (tag.toNat / 2 ^ 56 % 16) = false) :
    t.egressJudged n h tag body fcsOk = t.count48 (Pg.DROP + DROP.EG_WRONG_SLICE + 0x10 * (n / 4)) := by
  simp only [egressJudged]
  rw [if_neg (by rw [htag]; decide), if_pos hwrong]

/-- A frame for its own slice, for a port that takes frames and of a length that may be. -/
theorem egressJudged_taken (htag : egTagOk tag = true) (hslice : tag.toNat / 2 ^ 56 % 16 / 4 = n / 4)
    (hon : t.lpOn (tag.toNat / 2 ^ 56 % 16) = true) (hdown : t.egressDown (tag.toNat / 2 ^ 56 % 16) = false)
    (hmin : 64 ≤ body.length + 4) (hmax : body.length + 4 ≤ 16000) :
    t.egressJudged n h tag body fcsOk = t.egressTaken n h (tag.toNat / 2 ^ 56 % 16)
      { len := body.length + 4, bytes := body, tag := tag, host := n, bad := !fcsOk } := by
  have hlen : (decide (body.length + 4 < 64) || decide (16000 < body.length + 4)) = false := by
    simp only [Bool.or_eq_false_iff, decide_eq_false_iff_not]
    omega
  simp only [egressJudged]
  rw [if_neg (by rw [htag]; decide), if_neg (by rw [hon]; simpa using hslice), if_neg (by rw [hdown]; decide), hlen]
  simp only [Bool.false_eq_true, if_false, Bool.false_or, egressTaken, fcsJudged, Bool.not_not]

end

/-! ### Registers of a host page beside those of a share and of the drops -/

theorem not_shareRegs_host (hh : h < 16) {off : Nat} (ho : off < 0x1000) : ¬ ShareRegs p (Pg.HOST h + off) := by
  simp only [ShareRegs, egBase, Pg.HOST, Pg.SLICE, SLICE.EG_XOFF_EVENTS, SLICE.EG_OVERFLOW]
  omega

theorem not_wideRegs_drop (hh : h < 16) {off k : Nat} (ho : off < 0x1000) : ¬ WideRegs (Pg.DROP + k) (Pg.HOST h + off) := by
  simp only [WideRegs, Pg.HOST, Pg.DROP]
  omega

/-! ### What becomes of a frame that is counted -/

section
variable {len : Nat} {fec : HostFec} (hc : EgressCounted h len fec s t)
include hc

section
variable (hf : Frame [] (HostRegs frameOffs h) s t)
include hf

/-- A bad tag is counted, and no share changes. -/
theorem counted_badTag : let u := settle ((t.count (Pg.HOST h + HOST.TAG_ERRS)).raise (Pg.HOST h) 12)
    EgressCounted h len fec s u ∧ u.eg = s.eg ∧ u.rd (Pg.HOST h + HOST.TAG_ERRS) = s.rd (Pg.HOST h + HOST.TAG_ERRS) + 1 := by
  have hapart : ∀ off ∈ frameOffs, off ∉ [HOST.TAG_ERRS, HDR.INT_STATUS] := by decide
  have hframe : Frame [] (HostRegs [HOST.TAG_ERRS, HDR.INT_STATUS] h) t
      (settle ((t.count (Pg.HOST h + HOST.TAG_ERRS)).raise (Pg.HOST h) 12)) :=
    ((Frame.count _ (.own (by decide))).trans (Frame.raise _ (.own (by decide)))).settle
  refine ⟨hc.trans hframe fun off ho => not_hostRegs (hapart off ho), (hf.2 .eg (by decide)).trans (hframe.2 .eg (by decide)), ?_⟩
  rw [settle_rd, rd_raise_ne _ _ _ (by simp), rd_count_same, rd_of_hostFrame hf (by decide)]
  rfl

/-- A frame for another slice is counted among the drops of its own. -/
theorem counted_wrongSlice (hh : h < 16) {k : Nat} : let u := settle (t.count48 (Pg.DROP + k))
    EgressCounted h len fec s u ∧ u.eg = s.eg ∧ u.wide (Pg.DROP + k) = (s.wide (Pg.DROP + k) + 1) % 2 ^ 48 := by
  have hsmall : ∀ off ∈ frameOffs, off < 0x1000 := by decide
  have hframe : Frame [] (WideRegs (Pg.DROP + k)) t (settle (t.count48 (Pg.DROP + k))) := (Frame.count48_wide _ _).settle
  have hraised : Raised 48 (Pg.DROP + k) 1 s (settle (t.count48 (Pg.DROP + k))) := by
    refine ((raised_count48 t _).after hf fun a ha => ?_).settle
    rintro ⟨off, ho, rfl⟩
    exact not_wideRegs_drop hh (hsmall off ho) ha
  exact ⟨hc.trans hframe fun off ho => not_wideRegs_drop hh (hsmall off ho),
    (hf.2 .eg (by decide)).trans (hframe.2 .eg (by decide)), hraised⟩

end

/-- What the counts of a frame read after its FCS is judged and after it was offered to a share. -/
theorem counted_judged (hh : h < 16) (fcsOk : Bool) {f : EgFrame} {u : Dev} (hu : u = (t.fcsJudged h fcsOk).egEnqueue p f
      ∨ u = t.fcsJudged h fcsOk) : EgressCounted h len fec s (settle u)
    ∧ ∀ off ∈ [HOST.FCS_ERRS, HDR.INT_STATUS], (settle u).rd (Pg.HOST h + off) = (t.fcsJudged h fcsOk).rd (Pg.HOST h + off) := by
  have hapart : ∀ off ∈ frameOffs, off ∉ [HOST.FCS_ERRS, HDR.INT_STATUS] := by decide
  have hsmall : ∀ off ∈ frameOffs ++ [HOST.FCS_ERRS, HDR.INT_STATUS], off < 0x1000 := by decide
  have hoffered : Frame [.eg] (ShareRegs p) (t.fcsJudged h fcsOk) (settle u) := by
    rcases hu with rfl | rfl
    · exact (egEnqueue_frame _ _ _).settle
    · exact (Frame.refl _).settle
  have hjudged := hc.trans (fcsJudged_frame t h fcsOk) fun off ho => not_hostRegs (hapart off ho)
  exact ⟨hjudged.trans hoffered fun off ho => not_shareRegs_host hh (hsmall off (List.mem_append_left _ ho)),
    fun off ho => hoffered.1 _ (not_shareRegs_host hh (hsmall off (List.mem_append_right _ ho)))⟩

end

/-- The frame is the last of its share, and no other share changed. -/
def JoinsShare (p : Nat) (f : EgFrame) (s t : Dev) : Prop :=
  (t.share p).frames = (s.share p).frames ++ [f] ∧ ∀ q, q ≠ p → t.share q = s.share q

@[simp] theorem eg_settle (s : Dev) : (settle s).eg = s.eg := by simp

theorem share_settle (s : Dev) (p : Nat) : (settle s).share p = s.share p := by rw [share, eg_settle, share]

theorem portsKept_fcsJudged (s : Dev) (h : Nat) (fcsOk : Bool) : PortsKept s (s.fcsJudged h fcsOk) :=
  .of_hostRegs (fcsJudged_frame s h fcsOk) (by decide)

section
variable {f : EgFrame}

theorem egressTaken_good (hf : f.bad = false) : t.egressTaken n h p f = t.egEnqueue p f := by
  simp only [egressTaken, hf, Bool.false_and, Bool.false_eq_true, if_false]
  rfl

theorem egressTaken_bad (hf : f.bad = true) : t.egressTaken n h p f
    = if t.cutThrough n p then (t.fcsJudged h false).egEnqueue p f else t.fcsJudged h false := by
  simp only [egressTaken, hf, Bool.true_and, Bool.not_true]
  cases t.cutThrough n p <;> rfl

theorem joinsShare_egEnqueue (k : PortsKept s t) (hroom : fillCells (s.share p) + cells f.len ≤ s.lpWidth p * 16384) :
    JoinsShare p f s (settle (t.egEnqueue p f)) := by
  obtain ⟨hp, hq⟩ := share_egEnqueue (s := t) (p := p) (f := f) (by rwa [k.share, k.lpWidth])
  exact ⟨by rw [share_settle, hp, k.share], fun q hne => by rw [share_settle, hq q hne, k.share]⟩

section
variable {len : Nat} {fec : HostFec} (hc : EgressCounted h len fec s t) (hf : Frame [] (HostRegs frameOffs h) s t) (hh : h < 16)
include hc hf hh

/-- A frame with no room in its share is counted there. -/
theorem counted_overflow (hfull : ¬ fillCells (s.share p) + cells f.len ≤ s.lpWidth p * 16384) :
    let u := settle (t.egEnqueue p f)
    EgressCounted h len fec s u ∧ u.eg = s.eg
      ∧ u.wide (egBase p + SLICE.EG_OVERFLOW) = (s.wide (egBase p + SLICE.EG_OVERFLOW) + 1) % 2 ^ 48 := by
  have hsmall : ∀ off ∈ frameOffs, off < 0x1000 := by decide
  have k : PortsKept s t := .of_hostRegs hf (by decide)
  obtain ⟨hcounted, -⟩ := counted_judged (p := p) (f := f) hc hh true (.inl rfl)
  have hover : t.egEnqueue p f = t.count48 (egBase p + SLICE.EG_OVERFLOW) := egEnqueue_full (by rwa [k.share, k.lpWidth])
  have hraised : Raised 48 (egBase p + SLICE.EG_OVERFLOW) 1 s (settle (t.count48 (egBase p + SLICE.EG_OVERFLOW))) := by
    refine ((raised_count48 t _).after hf fun a ha => ?_).settle
    rintro ⟨off, ho, rfl⟩
    exact not_shareRegs_host hh (hsmall off ho) (.inr ha)
  refine ⟨hcounted, ?_, ?_⟩
  · rw [eg_settle, hover]
    exact k.eg
  · rw [hover]
    exact hraised

/-- A frame with a wrong FCS is counted and flagged, and joins its share only as one that had started on the line. -/
theorem counted_bad (hbad : f.bad = true) : let u := settle (t.egressTaken n h p f)
    EgressCounted h len fec s u ∧ u.rd (Pg.HOST h + HOST.FCS_ERRS) = s.rd (Pg.HOST h + HOST.FCS_ERRS) + 1
      ∧ u.bit (Pg.HOST h + HDR.INT_STATUS) 13 = true ∧ (s.cutThrough n p = false → u.eg = s.eg)
      ∧ (s.cutThrough n p = true → fillCells (s.share p) + cells f.len ≤ s.lpWidth p * 16384 → JoinsShare p f s u) := by
  have k : PortsKept s t := .of_hostRegs hf (by decide)
  have kj : PortsKept s (t.fcsJudged h false) := k.trans (portsKept_fcsJudged t h false)
  have hcut : (s.cutThrough n p = true → t.egressTaken n h p f = (t.fcsJudged h false).egEnqueue p f)
      ∧ (s.cutThrough n p = false → t.egressTaken n h p f = t.fcsJudged h false) := by
    rw [egressTaken_bad hbad, k.cutThrough]
    exact ⟨fun e => if_pos e, fun e => if_neg (by rw [e]; decide)⟩
  obtain ⟨hcounted, hshown⟩ := counted_judged (p := p) (f := f) (u := t.egressTaken n h p f) hc hh false <| by
    cases e : s.cutThrough n p
    · exact .inr (hcut.2 e)
    · exact .inl (hcut.1 e)
  obtain ⟨herrs, hflag⟩ := fcsJudged_bad t h
  refine ⟨hcounted, ?_, ?_, fun e => ?_, fun e hroom => ?_⟩
  · rw [hshown _ (by simp), herrs, rd_of_hostFrame hf (by decide)]
  · rw [bit, hshown _ (by simp)]
    exact hflag
  · rw [hcut.2 e, eg_settle]
    exact kj.eg
  · rw [hcut.1 e]
    exact joinsShare_egEnqueue kj hroom

end

end

end Machine.Dev

theorem egTagOk_iff (tag : BitVec 64) : Dev.egTagOk tag = true ↔
    crc8 ((bytesBE 8 tag.toNat).take 7) = tag.toNat % 256 ∧ tag.toNat / 2 ^ 60 = 1 ∧ tag.toNat / 2 ^ 54 % 4 ≠ 3 := by
  simp only [Dev.egTagOk, Bool.and_eq_true, decide_eq_true_eq, and_assoc]

/-! ### A frame as it is received -/

section
variable {s : State} {n : Lane} {tag : BitVec 64} {body : List Byte} {fcs : BitVec 32} {pcsOk : Bool} {fec : HostFec} {P : Dev → Prop}

/-- A frame with a good tag is no MAC control frame. -/
theorem not_macControl (htag : Dev.egTagOk tag = true) : tag.toNat / 2 ^ 16 ≠ 0x0180C2000001 := by
  obtain ⟨-, htop, -⟩ := (egTagOk_iff tag).mp htag
  omega

variable (hup : s.d.hostUp (s.d.hostPort n) = true)
include hup

theorem gives_egressFrameRx (hmac : tag.toNat / 2 ^ 16 ≠ 0x0180C2000001)
    (h : P (settle ((s.d.egressCounted n (8 + (body.length + 4)) fec).egressJudged n (s.d.hostPort n) tag body
      (!fcsBad (egFrame tag body fcs))))) : Gives (.egressFrameRx n (egFrame tag body fcs) pcsOk fec) s P := by
  refine gives_run (Eq.refl (execEgressFrameRx n (egFrame tag body fcs) pcsOk fec s)) ?_
  rwa [Dev.hostRx, egFrame_destination, if_neg hmac, Dev.egressRx_egFrame hup]

theorem gives_egress_badTag (htag : Dev.egTagOk tag = false) (hmac : tag.toNat / 2 ^ 16 ≠ 0x0180C2000001) :
    Gives (.egressFrameRx n (egFrame tag body fcs) pcsOk fec) s (fun t =>
      Dev.EgressCounted (s.d.hostPort n) (8 + (body.length + 4)) fec s.d t ∧ t.eg = s.d.eg
      ∧ t.rd (Pg.HOST (s.d.hostPort n) + HOST.TAG_ERRS) = s.d.rd (Pg.HOST (s.d.hostPort n) + HOST.TAG_ERRS) + 1) := by
  refine gives_egressFrameRx hup hmac ?_
  rw [Dev.egressJudged_badTag htag]
  exact Dev.counted_badTag (Dev.egressCounted_counts _ _ _ _) (Dev.egressCounted_frame _ _ _ _)

theorem gives_egress_wrongSlice (htag : Dev.egTagOk tag = true)
    (hwrong : tag.toNat / 2 ^ 56 % 16 / 4 ≠ n / 4 ∨ s.d.lpOn (tag.toNat / 2 ^ 56 % 16) = false) :
    Gives (.egressFrameRx n (egFrame tag body fcs) pcsOk fec) s (fun t =>
      Dev.EgressCounted (s.d.hostPort n) (8 + (body.length + 4)) fec s.d t ∧ t.eg = s.d.eg
      ∧ t.wide (Pg.DROP + DROP.EG_WRONG_SLICE + 0x10 * (n / 4))
        = (s.d.wide (Pg.DROP + DROP.EG_WRONG_SLICE + 0x10 * (n / 4)) + 1) % 2 ^ 48) := by
  refine gives_egressFrameRx hup (not_macControl htag) ?_
  rw [Dev.egressJudged_wrongSlice htag (by rwa [(Dev.portsKept_egressCounted _ _ _ _).lpOn]), Nat.add_assoc]
  exact Dev.counted_wrongSlice (Dev.egressCounted_counts _ _ _ _) (Dev.egressCounted_frame _ _ _ _) (Dev.hostPort_lt n.isLt)

section
variable (htag : Dev.egTagOk tag = true) (hslice : tag.toNat / 2 ^ 56 % 16 / 4 = n / 4)
  (hon : s.d.lpOn (tag.toNat / 2 ^ 56 % 16) = true) (hdown : s.d.egressDown (tag.toNat / 2 ^ 56 % 16) = false)
  (hmin : 64 ≤ body.length + 4) (hmax : body.length + 4 ≤ 16000)
include htag hslice hon hdown hmin hmax

/-- The frame as its share keeps it. -/
theorem gives_egress_taken {bad : Bool} (hbad : fcsBad (egFrame tag body fcs) = bad)
    (h : P (settle ((s.d.egressCounted n (8 + (body.length + 4)) fec).egressTaken n (s.d.hostPort n) (tag.toNat / 2 ^ 56 % 16)
      { len := body.length + 4, bytes := body, tag := tag, host := n, bad := bad }))) :
    Gives (.egressFrameRx n (egFrame tag body fcs) pcsOk fec) s P := by
  have k := Dev.portsKept_egressCounted s.d n (8 + (body.length + 4)) fec
  refine gives_egressFrameRx hup (not_macControl htag) ?_
  rwa [Dev.egressJudged_taken htag hslice (k.lpOn.trans hon) (k.egressDown.trans hdown) hmin hmax, Bool.not_not, hbad]

theorem gives_egress_joins (hgood : fcsBad (egFrame tag body fcs) = false)
    (hroom : Dev.fillCells (s.d.share (tag.toNat / 2 ^ 56 % 16)) + Dev.cells (body.length + 4)
      ≤ s.d.lpWidth (tag.toNat / 2 ^ 56 % 16) * 16384) :
    Gives (.egressFrameRx n (egFrame tag body fcs) pcsOk fec) s (fun t =>
      Dev.EgressCounted (s.d.hostPort n) (8 + (body.length + 4)) fec s.d t
      ∧ Dev.JoinsShare (tag.toNat / 2 ^ 56 % 16)
        { len := body.length + 4, bytes := body, tag := tag, host := n, bad := false } s.d t) := by
  refine gives_egress_taken hup htag hslice hon hdown hmin hmax hgood ?_
  rw [Dev.egressTaken_good rfl]
  obtain ⟨hcounted, -⟩ := Dev.counted_judged (Dev.egressCounted_counts s.d n _ fec) (Dev.hostPort_lt n.isLt) true (.inl rfl)
  exact ⟨hcounted, Dev.joinsShare_egEnqueue (Dev.portsKept_egressCounted _ _ _ _) hroom⟩

theorem gives_egress_overflows (hgood : fcsBad (egFrame tag body fcs) = false)
    (hfull : ¬ Dev.fillCells (s.d.share (tag.toNat / 2 ^ 56 % 16)) + Dev.cells (body.length + 4)
      ≤ s.d.lpWidth (tag.toNat / 2 ^ 56 % 16) * 16384) :
    Gives (.egressFrameRx n (egFrame tag body fcs) pcsOk fec) s (fun t =>
      Dev.EgressCounted (s.d.hostPort n) (8 + (body.length + 4)) fec s.d t ∧ t.eg = s.d.eg
      ∧ t.wide (Dev.egBase (tag.toNat / 2 ^ 56 % 16) + SLICE.EG_OVERFLOW)
        = (s.d.wide (Dev.egBase (tag.toNat / 2 ^ 56 % 16) + SLICE.EG_OVERFLOW) + 1) % 2 ^ 48) := by
  refine gives_egress_taken hup htag hslice hon hdown hmin hmax hgood ?_
  rw [Dev.egressTaken_good rfl]
  exact Dev.counted_overflow (Dev.egressCounted_counts _ _ _ _) (Dev.egressCounted_frame _ _ _ _) (Dev.hostPort_lt n.isLt)
    hfull

theorem gives_egress_badFcs (hbad : fcsBad (egFrame tag body fcs) = true) :
    Gives (.egressFrameRx n (egFrame tag body fcs) pcsOk fec) s (fun t =>
      Dev.EgressCounted (s.d.hostPort n) (8 + (body.length + 4)) fec s.d t
      ∧ t.rd (Pg.HOST (s.d.hostPort n) + HOST.FCS_ERRS) = s.d.rd (Pg.HOST (s.d.hostPort n) + HOST.FCS_ERRS) + 1
      ∧ t.bit (Pg.HOST (s.d.hostPort n) + HDR.INT_STATUS) 13 = true
      ∧ (s.d.cutThrough n (tag.toNat / 2 ^ 56 % 16) = false → t.eg = s.d.eg)
      ∧ (s.d.cutThrough n (tag.toNat / 2 ^ 56 % 16) = true →
          Dev.fillCells (s.d.share (tag.toNat / 2 ^ 56 % 16)) + Dev.cells (body.length + 4)
            ≤ s.d.lpWidth (tag.toNat / 2 ^ 56 % 16) * 16384 →
          Dev.JoinsShare (tag.toNat / 2 ^ 56 % 16)
            { len := body.length + 4, bytes := body, tag := tag, host := n, bad := true } s.d t)) := by
  refine gives_egress_taken hup htag hslice hon hdown hmin hmax hbad ?_
  exact Dev.counted_bad (Dev.egressCounted_counts _ _ _ _) (Dev.egressCounted_frame _ _ _ _) (Dev.hostPort_lt n.isLt)
    rfl

end

end

end Sys2Proof
end

