-- ==== Sys2Proof/Proofs/EgressTransmission.lean ====
section
/-! The frames that leave a share for the line: what a line port that sends leaves behind it, the corrected time of a one-step frame
and the reports of a two-step one (08, R268 to R271). -/

namespace Sys2Proof

open Machine

/-! ### The samples of a line port's lanes (R276) -/

/-- A run of samples at a lane's DAC. -/
def isSamples (o : Output) : Bool := match o with | .lineSamples _ _ => true | _ => false

namespace Machine.Dev

variable {s t u : Dev} {p : Nat}

/-- Nothing left the device but samples, and no share and no report changed. -/
def OnlySamples (s t : Dev) : Prop :=
  t.eg.shares = s.eg.shares ∧ t.eg.reports = s.eg.reports ∧ ∃ l, (∀ o ∈ l, isSamples o = true) ∧ t.sent = l ++ s.sent

theorem OnlySamples.refl (s : Dev) : OnlySamples s s := ⟨rfl, rfl, [], by simp⟩

theorem OnlySamples.trans (h : OnlySamples s t) (k : OnlySamples t u) : OnlySamples s u := by
  obtain ⟨hshares, hreports, l, hl, hsent⟩ := h
  obtain ⟨hshares', hreports', l', hl', hsent'⟩ := k
  refine ⟨hshares'.trans hshares, hreports'.trans hreports, l' ++ l, fun o ho => ?_, by rw [hsent', hsent, List.append_assoc]⟩
  exact (List.mem_append.mp ho).elim (hl' o) (hl o)

theorem OnlySamples.foldl {β : Type} {f : Dev → β → Dev} (h : ∀ t b, OnlySamples t (f t b)) (l : List β) :
    OnlySamples s (l.foldl f s) :=
  List.foldlRecOn (motive := OnlySamples s) l f (.refl s) fun t ht b _ => ht.trans (h t b)

theorem OnlySamples.of_kept (hs : t.eg.shares = s.eg.shares) (hr : t.eg.reports = s.eg.reports) (ho : t.sent = s.sent) :
    OnlySamples s t := ⟨hs, hr, [], by simp, ho⟩

theorem onlySamples_setTxl (s : Dev) (n : Nat) (x : TxLane) : OnlySamples s (s.setTxl n x) := .of_kept rfl rfl rfl

theorem onlySamples_emit (s : Dev) (n : Nat) (l : List Int) : OnlySamples s (s.emit (.lineSamples n l)) :=
  ⟨rfl, rfl, [.lineSamples n l], by simp [isSamples], sent_emit (by simp)⟩

/-- Clips are counted and flagged. -/
theorem onlySamples_clips (s : Dev) (a k b c : Nat) : OnlySamples s ((s.count48 a k).raise b c) := .of_kept rfl rfl rfl

theorem onlySamples_sendSymbols (s : Dev) (n : Nat) (syms : List (Fin 4)) : OnlySamples s (s.sendSymbols n syms) := by
  unfold sendSymbols
  extract_lets b x level pd taps ys n' tick pilots depth out clips last t u
  have hu : OnlySamples s u := (onlySamples_setTxl _ _ _).trans (onlySamples_emit _ _ _)
  split
  · exact hu
  · exact hu.trans (onlySamples_clips _ _ _ _ _)

theorem onlySamples_sendPrecoded (s : Dev) (n : Nat) (syms : List (Fin 4)) : OnlySamples s (s.sendPrecoded n syms) := by
  unfold sendPrecoded
  extract_lets on out
  exact (onlySamples_setTxl _ _ _).trans (onlySamples_sendSymbols _ _ _)

theorem onlySamples_setPcsFlow (s : Dev) (n : Nat) (v : PcsFlow) : OnlySamples s (s.setPcsFlow n v) := .of_kept rfl rfl rfl

theorem onlySamples_sendPairs (s : Dev) (p j : Nat) (pairs : List (List Gf)) : OnlySamples s (s.sendPairs p j pairs) := by
  unfold sendPairs
  split
  · exact onlySamples_sendSymbols _ _ _
  · exact .foldl (fun _ _ => onlySamples_sendPrecoded _ _ _) _

theorem onlySamples_sendFlow (s : Dev) (p j : Nat) (blocks : List PcsBlock) : OnlySamples s (s.sendFlow p j blocks) := by
  unfold sendFlow
  extract_lets rate lanes r
  exact (onlySamples_setPcsFlow _ _ _).trans (onlySamples_sendPairs _ _ _ _)

theorem onlySamples_sendUnits (s : Dev) (p k : Nat) (blocks : List PcsBlock) : OnlySamples s (s.sendUnits p k blocks) := by
  induction k generalizing s blocks with
  | zero => exact .refl s
  | succ k ih =>
    have hflows (l : List PcsBlock) : OnlySamples s ((List.range (s.portFlows p)).foldl (fun t j => t.sendFlow p j l) s) :=
      .foldl (fun _ _ => onlySamples_sendFlow _ _ _ _) _
    simp only [sendUnits]
    split
    · exact hflows _
    · exact (hflows _).trans (ih _ _)

theorem onlySamples_lineSend (s : Dev) (p : Nat) (blocks : List PcsBlock) : OnlySamples s (s.lineSend p blocks) :=
  onlySamples_sendUnits _ _ _ _

/-! ### A frame on the line (R268) -/

/-- A frame counted, put on its line and sent. -/
def frameSent (s : Dev) (p : Nat) (f : EgFrame) (bytes : List Byte) : Dev :=
  ((((s.count48 (Pg.LTX p + LTX.TX_FRAMES)).count64 (Pg.LTX p + LTX.TX_BYTES) f.len).emit (.lineFrame p f.len bytes f.bad)).frameBegins
    p f.len).lineSend p (pcsFrame bytes f.bad)

/-- The registers of a transmitter that a frame on its line writes. -/
abbrev LineRegs (p a : Nat) : Prop := WideRegs (Pg.LTX p + LTX.TX_FRAMES) a ∨ WideRegs (Pg.LTX p + LTX.TX_BYTES) a ∨ SendRegs a

section
variable (s) (p) (f : EgFrame) (bytes : List Byte)

theorem frameSent_frame : Frame [.eg, .tx, .sent] (LineRegs p) s (s.frameSent p f bytes) := by
  have hcount : Frame [.eg, .tx, .sent] (LineRegs p) s
      ((s.count48 (Pg.LTX p + LTX.TX_FRAMES)).count64 (Pg.LTX p + LTX.TX_BYTES) f.len) :=
    ((Frame.setWide_wide _ _ _ _).mono (fun _ => id) fun _ => .inl).trans
      ((Frame.setWide_wide _ _ _ _).mono (fun _ => id) fun _ h => .inr (.inl h))
  exact ((hcount.trans (Frame.emit _ (by decide))).trans (Frame.setEg _ (by decide))).trans
    (Frame.lineSend _ _ (by decide) (by decide) (by decide) fun _ h => .inr (.inr h))

/-- The frame is the last to leave but for samples, and it leaves every share and report as it was. -/
theorem frameSent_sends : (s.frameSent p f bytes).eg.shares = s.eg.shares ∧ (s.frameSent p f bytes).eg.reports = s.eg.reports
    ∧ (s.frameSent p f bytes).sent.dropWhile isSamples = .lineFrame p f.len bytes f.bad :: s.sent := by
  obtain ⟨hshares, hreports, l, hl, hsent⟩ := onlySamples_lineSend
    ((((s.count48 (Pg.LTX p + LTX.TX_FRAMES)).count64 (Pg.LTX p + LTX.TX_BYTES) f.len).emit (.lineFrame p f.len bytes f.bad)).frameBegins
      p f.len) p (pcsFrame bytes f.bad)
  refine ⟨hshares, hreports, ?_⟩
  rw [frameSent, hsent, List.dropWhile_append_of_pos hl]
  rfl

theorem raised_frameSent : Raised 48 (Pg.LTX p + LTX.TX_FRAMES) 1 s (s.frameSent p f bytes) := by
  set t := s.count48 (Pg.LTX p + LTX.TX_FRAMES)
  have hbytes : Frame [.eg, .tx, .sent] (fun a => WideRegs (Pg.LTX p + LTX.TX_BYTES) a ∨ SendRegs a) t
      (t.count64 (Pg.LTX p + LTX.TX_BYTES) f.len) := (Frame.setWide_wide _ _ _ _).mono (fun _ => id) fun _ => .inl
  have hrest : Frame [.eg, .tx, .sent] (fun a => WideRegs (Pg.LTX p + LTX.TX_BYTES) a ∨ SendRegs a) t (s.frameSent p f bytes) :=
    ((hbytes.trans (Frame.emit _ (by decide))).trans (Frame.setEg _ (by decide))).trans
      (Frame.lineSend _ _ (by decide) (by decide) (by decide) fun _ h => .inr h)
  refine (raised_count48 s _).trans hrest fun a ha => ?_
  simp only [WideRegs, SendRegs, Pg.LTX, LTX.TX_FRAMES, LTX.TX_BYTES, LTX.CLIPS, HDR.INT_STATUS] at *
  rintro (h | ⟨n, h⟩) <;> omega

end

/-- What a timestamp operation counts on a host page is no matter of the share or of the line. -/
theorem rd_frameSent_stamps (s : Dev) (p h : Nat) (f : EgFrame) (bytes : List Byte) {off : Nat}
    (ho : off ∈ [HOST.TS_RANGE, HOST.TS_DROPPED]) : (s.frameSent p f bytes).rd (Pg.HOST h + off) = s.rd (Pg.HOST h + off) := by
  refine (frameSent_frame s p f bytes).1 _ ?_
  simp only [List.mem_cons, List.not_mem_nil, or_false, HOST.TS_RANGE, HOST.TS_DROPPED] at ho
  simp only [LineRegs, WideRegs, SendRegs, Pg.LTX, Pg.HOST, LTX.TX_FRAMES, LTX.TX_BYTES, LTX.CLIPS, HDR.INT_STATUS]
  rintro (h | h | ⟨n, h⟩) <;> omega

/-! ### The head of a share leaves it -/

/-- The share without its head, and its fill noted. -/
def headGone (s : Dev) (p : Nat) (rest : List EgFrame) : Dev := (s.setShare p { s.share p with frames := rest }).shareUpdate p

section
variable (s) (p) (rest : List EgFrame)

theorem frames_headGone : ((s.headGone p rest).share p).frames = rest := by
  rw [headGone, frames_shareUpdate, share_setShare_same]

theorem reports_headGone : (s.headGone p rest).eg.reports = s.eg.reports := reports_shareUpdate _ _

theorem headGone_frame : Frame [.eg] (· = egBase p + SLICE.EG_XOFF_EVENTS) s (s.headGone p rest) :=
  (Frame.setEg _ (by decide)).trans (shareUpdate_frame _ _)

end

theorem rd_headGone_stamps (s : Dev) (p h : Nat) (rest : List EgFrame) {off : Nat}
    (ho : off ∈ [HOST.TS_RANGE, HOST.TS_DROPPED, HOST.TS_ADJ]) : (s.headGone p rest).rd (Pg.HOST h + off) = s.rd (Pg.HOST h + off) := by
  refine (headGone_frame s p rest).1 _ ?_
  simp only [List.mem_cons, List.not_mem_nil, or_false, HOST.TS_RANGE, HOST.TS_DROPPED, HOST.TS_ADJ] at ho
  simp only [egBase, Pg.SLICE, Pg.HOST, SLICE.EG_XOFF_EVENTS]
  omega

/-- The frame left its share for the line. -/
def LeftShare (p : Nat) (f : EgFrame) (rest : List EgFrame) (bytes : List Byte) (s t : Dev) : Prop :=
  (t.share p).frames = rest ∧ t.sent.dropWhile isSamples = .lineFrame p f.len bytes f.bad :: s.sent
    ∧ t.wide (Pg.LTX p + LTX.TX_FRAMES) = (s.wide (Pg.LTX p + LTX.TX_FRAMES) + 1) % 2 ^ 48

/-- The counter of a late timestamp does not concern the frame. -/
theorem leftShare_frameSent {f : EgFrame} {rest : List EgFrame} {bytes : List Byte}
    (hu : u = s.headGone p rest ∨ u = (s.headGone p rest).count (Pg.HOST p + HOST.TS_RANGE)) :
    LeftShare p f rest bytes s (u.frameSent p f bytes) ∧ (u.frameSent p f bytes).reports p = s.reports p := by
  have hframe : Frame [.eg] (fun a => a = egBase p + SLICE.EG_XOFF_EVENTS ∨ a = Pg.HOST p + HOST.TS_RANGE) s u := by
    have hgone : Frame [.eg] (fun a => a = egBase p + SLICE.EG_XOFF_EVENTS ∨ a = Pg.HOST p + HOST.TS_RANGE) s (s.headGone p rest) :=
      (headGone_frame s p rest).mono (fun _ => id) fun _ => .inl
    rcases hu with rfl | rfl
    · exact hgone
    · exact hgone.trans (Frame.count _ (.inr rfl))
  have heg : u.eg = (s.headGone p rest).eg := by
    rcases hu with rfl | rfl <;> rfl
  obtain ⟨hshares, hreports, hsent⟩ := frameSent_sends u p f bytes
  refine ⟨⟨?_, ?_, ?_⟩, ?_⟩
  · rw [share, hshares, heg]
    exact frames_headGone s p rest
  · rw [hsent, show u.sent = s.sent from hframe.2 .sent (by decide)]
  · refine (raised_frameSent u p f bytes).after hframe fun a ha => ?_
    simp only [WideRegs, egBase, Pg.SLICE, Pg.HOST, Pg.LTX, SLICE.EG_XOFF_EVENTS, HOST.TS_RANGE, LTX.TX_FRAMES] at *
    omega
  · rw [reports, hreports, heg, reports_headGone, reports]

/-! ### The corrected time (R269, R270) -/

theorem patch_eq (l b : List Byte) (off : Nat) (h : off + b.length ≤ l.length) :
    patch l off b = l.take off ++ b ++ l.drop (off + b.length) := by
  induction b generalizing l off with
  | nil => simp [patch]
  | cons x b ih =>
    rw [List.length_cons] at h
    have hlen : off + 1 + b.length ≤ (l.set off x).length := by
      rw [List.length_set]
      omega
    have htake : (l.set off x).take (off + 1) = l.take off ++ [x] := by
      rw [List.set_eq_take_append_cons_drop, if_pos (by omega), List.take_append, List.length_take, Nat.min_eq_left (by omega),
        Nat.add_sub_cancel_left, List.take_of_length_le (by rw [List.length_take]; omega)]
      rfl
    rw [patch, ih _ _ hlen, htake, List.drop_set_of_lt (by omega), List.length_cons, Nat.add_assoc, Nat.add_comm 1]
    simp

/-- The time a frame leaves at, corrected by its port's adjustment. -/
theorem txTimeOf_eq (s : Dev) (p : Nat) (time : BitVec 80) : s.txTimeOf p time
    = time + BitVec.ofInt 80 (BitVec.ofNat 16 (s.fld (Pg.HOST p + HOST.TS_ADJ) 16 16)).toInt := by
  rw [txTimeOf, signedOf_eq_toInt]

theorem txTimeOf_headGone (rest : List EgFrame) (time : BitVec 80) : (s.headGone p rest).txTimeOf p time = s.txTimeOf p time := by
  have hadj : (s.headGone p rest).fld (Pg.HOST p + HOST.TS_ADJ) 16 16 = s.fld (Pg.HOST p + HOST.TS_ADJ) 16 16 :=
    congrArg (fieldOf · 16 16) (rd_headGone_stamps s p p rest (by simp))
  rw [txTimeOf, hadj, txTimeOf]

section
variable {f : EgFrame} {stamp : BitVec 80}

/-- A one-step frame that needs no checksum carries the time at the offset its tag names. -/
theorem oneStep_stamped (hfix : f.tag.getLsbD 53 = false) (hlen : f.tag.toNat / 2 ^ 44 % 256 + 48 ≤ f.len)
    (hbytes : f.tag.toNat / 2 ^ 44 % 256 + 44 ≤ f.bytes.length) :
    oneStep f stamp = some (f.bytes.take (f.tag.toNat / 2 ^ 44 % 256 + 34) ++ bytesBE 6 (stamp.toNat / 10 ^ 9 % 2 ^ 48)
      ++ bytesBE 4 (stamp.toNat % 10 ^ 9) ++ f.bytes.drop (f.tag.toNat / 2 ^ 44 % 256 + 44)) := by
  have hstamp : (stampBytes stamp).length = 10 := by rw [stampBytes, List.length_append, bytesBE_length, bytesBE_length]
  simp only [oneStep, hfix, Bool.false_eq_true, false_and, or_false, if_false]
  rw [if_neg (by omega), patch_eq _ _ _ (by rw [hstamp]; omega), hstamp, stampBytes, ← List.append_assoc]

/-- A frame too short for the time at its offset has none. -/
theorem oneStep_late (hlen : f.len < f.tag.toNat / 2 ^ 44 % 256 + 48) : oneStep f stamp = none := by
  simp only [oneStep]
  exact if_pos (.inl (by omega))

end

/-! ### Reports (R271) -/

section
variable (s) (p) (l : List (BitVec 16 × BitVec 80))

theorem reports_raise (b c : Nat) : (s.raise b c).reports p = s.reports p := by
  have heg : (s.raise b c).eg = s.eg := by simp
  rw [reports, heg, reports]

theorem reports_setReports : (s.setReports p l).reports p = l := Sparse.get_put_same _ _ _ _

/-- The registers that show the reports of a port. -/
abbrev reportOffs : List Nat :=
  [HOST.TXTS_STATUS, HOST.TXTS_SEQ, HOST.TXTS_TIME, HOST.TXTS_TIME + 4, HOST.TXTS_TIME + 8, HOST.TS_DROPPED, HDR.INT_STATUS]

/-- The reports of a port before they are shown. -/
def withReports (s : Dev) (p : Nat) (l : List (BitVec 16 × BitVec 80)) : Dev :=
  { s with eg := { s.eg with reports := Sparse.put (fun _ => []) s.eg.reports p l } }

/-- The head of the reports is shown behind their number. -/
theorem reportHead_frame {offs : List Nat}
    (hoffs : HOST.TXTS_SEQ ∈ offs ∧ ∀ k < 3, HOST.TXTS_TIME + 4 * k ∈ offs) :
    Frame [] (HostRegs offs p) ((s.withReports p l).setF (Pg.HOST p + HOST.TXTS_STATUS) 0 5 l.length) (s.setReports p l) := by
  refine (Frame.wr _ (.own hoffs.1)).trans (Frame.wrWords fun k hk => ?_)
  rw [Nat.add_assoc]
  exact .own (hoffs.2 k hk)

theorem setReports_frame : Frame [.eg] (HostRegs reportOffs p) s (s.setReports p l) := by
  have hlist : Frame [.eg] (HostRegs reportOffs p) s (s.withReports p l) := Frame.setEg _ (by decide)
  exact (hlist.trans (Frame.setF _ _ _ (.own (by decide)))).trans ((reportHead_frame s p l (by decide)).mono (by simp) fun _ => id)

/-- The number of reports is shown. -/
theorem fld_setReports (hl : l.length < 32) : (s.setReports p l).fld (Pg.HOST p + HOST.TXTS_STATUS) 0 5 = l.length := by
  have hhead := reportHead_frame s p l (offs := [HOST.TXTS_SEQ, HOST.TXTS_TIME, HOST.TXTS_TIME + 4, HOST.TXTS_TIME + 8]) (by decide)
  rw [fld, rd_of_hostFrame hhead (by decide), rd_setF_same, fieldOf_withField _ _ _ _ (by decide)]
  exact Nat.mod_eq_of_lt hl

end

/-- What shows the reports of a port leaves the frame on its line. -/
theorem LeftShare.trans {f : EgFrame} {rest : List EgFrame} {bytes : List Byte} (h : LeftShare p f rest bytes s t)
    (hf : Frame [.eg] (HostRegs reportOffs p) t u) (hshares : u.eg.shares = t.eg.shares) : LeftShare p f rest bytes s u := by
  obtain ⟨hfirst, hsent, hcount⟩ := h
  refine ⟨?_, ?_, ?_⟩
  · rw [share, hshares]
    exact hfirst
  · rw [show u.sent = t.sent from hf.2 .sent (by decide)]
    exact hsent
  · rw [wide_of_frame hf fun a ha => ?_]
    · exact hcount
    · rintro ⟨off, ho, rfl⟩
      simp only [reportOffs, List.mem_cons, List.not_mem_nil, or_false, WideRegs, Pg.HOST, Pg.LTX, LTX.TX_FRAMES, HOST.TXTS_STATUS,
        HOST.TXTS_SEQ, HOST.TXTS_TIME, HOST.TS_DROPPED, HDR.INT_STATUS] at ho ha
      omega

section
variable (s) (p) (seq : BitVec 16) (stamp : BitVec 80)

theorem report_frame : Frame [.eg] (HostRegs reportOffs p) s (s.report p seq stamp) :=
  Frame.ite ((setReports_frame _ _ _).trans (Frame.raise _ (.own (by decide))))
    ((Frame.count _ (.own (by decide))).trans (Frame.raise _ (.own (by decide))))

theorem shares_report : (s.report p seq stamp).eg.shares = s.eg.shares := by
  simp only [report]
  split <;> rfl

variable {s} {p}

theorem report_room (h : (s.reports p).length < 16) : (s.report p seq stamp).reports p = s.reports p ++ [(seq, stamp)]
    ∧ (s.report p seq stamp).bit (Pg.HOST p + HDR.INT_STATUS) 14 = true := by
  simp only [report]
  rw [if_pos h]
  exact ⟨(reports_raise _ _ _ _).trans (reports_setReports _ _ _), bit_raise_same _ _ (by decide)⟩

theorem report_full (h : 16 ≤ (s.reports p).length) : (s.report p seq stamp).reports p = s.reports p
    ∧ (s.report p seq stamp).rd (Pg.HOST p + HOST.TS_DROPPED) = s.rd (Pg.HOST p + HOST.TS_DROPPED) + 1 := by
  simp only [report]
  rw [if_neg (by omega)]
  exact ⟨(reports_raise _ _ _ _).trans rfl, (rd_raise_ne _ _ _ (by simp)).trans (rd_count_same _ _ _)⟩

end

/-! ### The head of a share, by its timestamp operation (R268 to R271) -/

section
variable {f : EgFrame} {rest : List EgFrame} {time : BitVec 80} (hfirst : (s.share p).frames = f :: rest) (hdown : s.egressDown p = false)
  (hpause : Sparse.get (fun _ => 0) s.eg.rxPause p = 0) (hon : ∀ i ∈ s.lpLanes p, s.islandOn (16 + i) = true)
include hfirst hdown hpause hon

/-- A port that may send takes the head of its share. -/
theorem egressTx_head : s.egressTx p time =
    (let when_ := (s.headGone p rest).txTimeOf p time
     let op := f.tag.toNat / 2 ^ 54 % 4
     if op = 1 then
       match oneStep f when_ with
       | some b => (s.headGone p rest).frameSent p f b
       | none => ((s.headGone p rest).count (Pg.HOST p + HOST.TS_RANGE)).frameSent p f f.bytes
     else if op = 2 then ((s.headGone p rest).frameSent p f f.bytes).report p (BitVec.ofNat 16 (f.tag.toNat / 2 ^ 28)) when_
     else (s.headGone p rest).frameSent p f f.bytes) := by
  have hgo : (s.egressDown p || Sparse.get (fun _ => 0) s.eg.rxPause p != 0 || !(s.lpLanes p).all (fun n => s.islandOn (16 + n)))
      = false := by
    rw [hdown, hpause, List.all_eq_true.mpr hon]
    rfl
  simp only [egressTx, hfirst, hgo]
  rfl

end

theorem LeftShare.settle {f : EgFrame} {rest : List EgFrame} {bytes : List Byte} (h : LeftShare p f rest bytes s t) :
    LeftShare p f rest bytes s (settle t) :=
  h.trans (Frame.refl t).settle (by rw [eg_settle])

@[simp] theorem reports_settle (s : Dev) (p : Nat) : (settle s).reports p = s.reports p := by rw [reports, eg_settle, reports]

end Machine.Dev

/-! ### The events and the command -/

section
variable {s : State} {m : Master} {p : Lane} {time : BitVec 80} {f : EgFrame} {rest : List EgFrame}

theorem gives_txtsPop (ha : Admits s m (Pg.HOST p + HOST.TXTS_POP)) (hl : (s.d.reports p).length ≤ 16) : Gives (.txtsPop m p) s (fun t =>
    t.reports p = (s.d.reports p).drop 1 ∧ t.fld (Pg.HOST p + HOST.TXTS_STATUS) 0 5 = (s.d.reports p).length - 1) := by
  have hlen : ((s.d.reports p).drop 1).length = (s.d.reports p).length - 1 := List.length_drop
  refine gives_access (Eq.refl (execTxtsPop m p s)) ha ?_
  simp only [Dev.reports_settle, Dev.fld_settle]
  refine ⟨Dev.reports_setReports _ _ _, ?_⟩
  rw [Dev.fld_setReports _ _ _ (by omega), hlen]

section
variable (hfirst : (s.d.share p).frames = f :: rest) (hdown : s.d.egressDown p = false)
  (hpause : Sparse.get (fun _ => 0) s.d.eg.rxPause p = 0) (hon : ∀ i ∈ s.d.lpLanes p, s.d.islandOn (16 + i) = true)
include hfirst hdown hpause hon

theorem gives_egressFrameTx_plain (hop : f.tag.toNat / 2 ^ 54 % 4 = 0 ∨ f.tag.toNat / 2 ^ 54 % 4 = 3) :
    Gives (.egressFrameTx p time) s (fun t => Dev.LeftShare p f rest f.bytes s.d t ∧ t.reports p = s.d.reports p) := by
  obtain ⟨hleft, hreports⟩ := Dev.leftShare_frameSent (s := s.d) (p := p) (f := f) (rest := rest) (bytes := f.bytes) (.inl rfl)
  refine gives_run (Eq.refl (execEgressFrameTx p time s)) ?_
  rw [Dev.egressTx_head hfirst hdown hpause hon]
  simp only
  rw [if_neg (by omega), if_neg (by omega)]
  exact ⟨hleft.settle, (Dev.reports_settle _ _).trans hreports⟩

theorem gives_egressFrameTx_stamped (hop : f.tag.toNat / 2 ^ 54 % 4 = 1) {bytes : List Byte}
    (hb : Dev.oneStep f (s.d.txTimeOf p time) = some bytes) :
    Gives (.egressFrameTx p time) s (fun t => Dev.LeftShare p f rest bytes s.d t) := by
  obtain ⟨hleft, -⟩ := Dev.leftShare_frameSent (s := s.d) (p := p) (f := f) (rest := rest) (bytes := bytes) (.inl rfl)
  refine gives_run (Eq.refl (execEgressFrameTx p time s)) ?_
  rw [Dev.egressTx_head hfirst hdown hpause hon]
  simp only [hop, if_true, Dev.txTimeOf_headGone, hb]
  exact hleft.settle

theorem gives_egressFrameTx_late (hop : f.tag.toNat / 2 ^ 54 % 4 = 1) (hlate : f.len < f.tag.toNat / 2 ^ 44 % 256 + 48) :
    Gives (.egressFrameTx p time) s (fun t => Dev.LeftShare p f rest f.bytes s.d t
      ∧ t.rd (Pg.HOST p + HOST.TS_RANGE) = s.d.rd (Pg.HOST p + HOST.TS_RANGE) + 1) := by
  obtain ⟨hleft, -⟩ := Dev.leftShare_frameSent (s := s.d) (p := p) (f := f) (rest := rest) (bytes := f.bytes) (.inr rfl)
  refine gives_run (Eq.refl (execEgressFrameTx p time s)) ?_
  rw [Dev.egressTx_head hfirst hdown hpause hon]
  simp only [hop, if_true, Dev.oneStep_late hlate]
  refine ⟨hleft.settle, ?_⟩
  rw [settle_rd, Dev.rd_frameSent_stamps _ _ _ _ _ (by simp), Dev.rd_count_same, Dev.rd_headGone_stamps _ _ _ _ (by simp)]
  rfl

/-- A two-step frame leaves unchanged, and its report follows it. -/
theorem gives_egressFrameTx_twoStep (hop : f.tag.toNat / 2 ^ 54 % 4 = 2) {P : Dev → Prop}
    (h : ∀ u, Dev.LeftShare p f rest f.bytes s.d u → u.reports p = s.d.reports p →
      u.rd (Pg.HOST p + HOST.TS_DROPPED) = s.d.rd (Pg.HOST p + HOST.TS_DROPPED) →
      P (settle (u.report p (BitVec.ofNat 16 (f.tag.toNat / 2 ^ 28)) (s.d.txTimeOf p time)))) :
    Gives (.egressFrameTx p time) s P := by
  obtain ⟨hleft, hreports⟩ := Dev.leftShare_frameSent (s := s.d) (p := p) (f := f) (rest := rest) (bytes := f.bytes) (.inl rfl)
  refine gives_run (Eq.refl (execEgressFrameTx p time s)) ?_
  rw [Dev.egressTx_head hfirst hdown hpause hon]
  simp only [Dev.txTimeOf_headGone]
  rw [if_neg (by omega), if_pos hop]
  exact h _ hleft hreports
    ((Dev.rd_frameSent_stamps _ _ _ _ _ (by simp)).trans (Dev.rd_headGone_stamps _ _ _ _ (by simp)))

theorem gives_egressFrameTx_reported (hop : f.tag.toNat / 2 ^ 54 % 4 = 2) (hroom : (s.d.reports p).length < 16) :
    Gives (.egressFrameTx p time) s (fun t => Dev.LeftShare p f rest f.bytes s.d t
      ∧ t.reports p = s.d.reports p ++ [(BitVec.ofNat 16 (f.tag.toNat / 2 ^ 28), s.d.txTimeOf p time)]
      ∧ t.bit (Pg.HOST p + HDR.INT_STATUS) 14 = true) := by
  refine gives_egressFrameTx_twoStep hfirst hdown hpause hon hop fun u hleft hsame _ => ?_
  obtain ⟨hreports, hflag⟩ := Dev.report_room (s := u) (p := p) (BitVec.ofNat 16 (f.tag.toNat / 2 ^ 28)) (s.d.txTimeOf p time)
    (by rwa [hsame])
  refine ⟨(hleft.trans (Dev.report_frame _ _ _ _) (Dev.shares_report _ _ _ _)).settle, ?_, (Dev.bit_settle _ _ _).trans hflag⟩
  rw [Dev.reports_settle, hreports, hsame]

theorem gives_egressFrameTx_dropped (hop : f.tag.toNat / 2 ^ 54 % 4 = 2) (hfull : 16 ≤ (s.d.reports p).length) :
    Gives (.egressFrameTx p time) s (fun t => Dev.LeftShare p f rest f.bytes s.d t ∧ t.reports p = s.d.reports p
      ∧ t.rd (Pg.HOST p + HOST.TS_DROPPED) = s.d.rd (Pg.HOST p + HOST.TS_DROPPED) + 1) := by
  refine gives_egressFrameTx_twoStep hfirst hdown hpause hon hop fun u hleft hsame hdropped => ?_
  obtain ⟨hreports, hcount⟩ := Dev.report_full (s := u) (p := p) (BitVec.ofNat 16 (f.tag.toNat / 2 ^ 28)) (s.d.txTimeOf p time)
    (by rwa [hsame])
  refine ⟨(hleft.trans (Dev.report_frame _ _ _ _) (Dev.shares_report _ _ _ _)).settle, ?_, ?_⟩
  · rw [Dev.reports_settle, hreports, hsame]
  · rw [settle_rd, hcount, hdropped]

end

end

end Sys2Proof
end

