-- ==== Sys2Proof/Proofs/EgressFlowControl.lean ====
section
/-! Flow control toward the NPU: the frames that announce the asserted priorities, and when they leave (08, R261, R262). -/

namespace Sys2Proof

open Machine

/-! ### The bytes of a flow-control frame (R261) -/

/-- A MAC control frame of a payload, padded to 64 bytes with its FCS. -/
def controlFrame (sa payload : List Byte) : List Byte :=
  let head := [0x01, 0x80, 0xC2, 0x00, 0x00, 0x01] ++ sa ++ [0x88, 0x08] ++ payload
  let padded := head ++ List.replicate (60 - head.length) 0
  padded ++ fcsBytes padded

theorem fcBytes_pause (sa : List Byte) (set quanta : Nat) :
    Dev.fcBytes sa false set quanta = controlFrame sa ([0x00, 0x01] ++ bytesBE 2 quanta) := by
  have hop : bytesBE 2 0x0001 = [0x00, 0x01] := by decide
  rw [controlFrame, Dev.fcBytes, if_neg Bool.false_ne_true, hop]
  simp only [List.length_append]

theorem bytesBE_enables (set : Nat) : bytesBE 2 (set % 256) = [0x00, BitVec.ofNat 8 set] := by
  have hlow : BitVec.ofNat 8 (set % 256) = BitVec.ofNat 8 set := BitVec.eq_of_toNat_eq (Nat.mod_mod _ _)
  have hhigh : set % 256 / 256 = 0 := Nat.div_eq_of_lt (Nat.mod_lt _ (by decide))
  rw [bytesBE_succ, bytesBE_succ, hlow, hhigh]
  rfl

/-- What a PFC frame carries: the priorities it names, and the pause time of each. -/
def pfcPayload (set quanta : Nat) : List Byte :=
  [0x01, 0x01, 0x00, BitVec.ofNat 8 set] ++ (List.range 8).flatMap (fun i => bytesBE 2 (if set.testBit i then quanta else 0))

theorem fcBytes_pfc (sa : List Byte) (set quanta : Nat) :
    Dev.fcBytes sa true set quanta = controlFrame sa (pfcPayload set quanta) := by
  have hop : bytesBE 2 0x0101 ++ [0x00, BitVec.ofNat 8 set] = [0x01, 0x01, 0x00, BitVec.ofNat 8 set] :=
    congrArg (· ++ [0x00, BitVec.ofNat 8 set]) (by decide : bytesBE 2 0x0101 = [0x01, 0x01])
  rw [controlFrame, pfcPayload, Dev.fcBytes, if_pos rfl, bytesBE_enables, hop]
  simp only [List.length_append]

namespace Machine.Dev

variable {s t : Dev} {h : Nat}

/-! ### A flow-control frame that leaves -/

/-- What the announcements of host port h are, without the frame that makes one. -/
theorem announced_setAnnounced {v : Nat} (hv : v < 256) : (s.setAnnounced h v).announced h = v := by
  rw [announced, setAnnounced, Sparse.get_put_same, BitVec.toNat_ofNat, Nat.mod_eq_of_lt (by exact hv)]

theorem announced_lt (s : Dev) (h : Nat) : s.announced h < 256 := BitVec.isLt _

/-- One frame left for host port h, and v is what is announced. -/
def Announces (h v : Nat) (bytes : List Byte) (s t : Dev) : Prop :=
  (t.sent = .flowControl h bytes :: s.sent
    ∧ t.rd (Pg.SLICE (h / 4) + SLICE.EG_FC_SENT) = s.rd (Pg.SLICE (h / 4) + SLICE.EG_FC_SENT) + 1) ∧ t.announced h = v

theorem Announces.settle {v : Nat} {bytes : List Byte} (a : Announces h v bytes s t) : Announces h v bytes s (settle t) := by
  obtain ⟨⟨hsent, hcount⟩, hv⟩ := a
  exact ⟨⟨(settle_sent t).trans hsent, (settle_rd t _).trans hcount⟩, by rw [announced, eg_settle]; exact hv⟩

theorem announces_fcFrame (s : Dev) (h : Nat) (pfc : Bool) (set quanta : Nat) :
    Announces h (s.announced h) (fcBytes (s.egSource (h / 4)) pfc set quanta) s (s.fcFrame h pfc set quanta) := by
  refine ⟨⟨(sent_emit (by simp) : (s.emit _).sent = _), ?_⟩, rfl⟩
  have hcounters : Frame [] (HostRegs [HOST.TX_FRAMES, HOST.TX_FRAMES + 4, HOST.TX_BYTES, HOST.TX_BYTES + 4] h)
      ((s.emit (.flowControl h (fcBytes (s.egSource (h / 4)) pfc set quanta))).count (Pg.SLICE (h / 4) + SLICE.EG_FC_SENT))
      (s.fcFrame h pfc set quanta) :=
    (hostRegs_setWide _ _ _ (by decide) (by decide)).trans (hostRegs_setWide _ _ _ (by decide) (by decide))
  rw [hcounters.1, rd_count_same]
  · rfl
  · rintro ⟨off, ho, e⟩
    simp only [List.mem_cons, List.not_mem_nil, or_false, HOST.TX_FRAMES, HOST.TX_BYTES] at ho
    simp only [Pg.SLICE, Pg.HOST, SLICE.EG_FC_SENT] at e
    omega

/-- The frame that announces a new set. -/
theorem announces_setAnnounced {v : Nat} (hv : v < 256) (pfc : Bool) (set quanta : Nat) :
    Announces h v (fcBytes (s.egSource (h / 4)) pfc set quanta) s ((s.setAnnounced h v).fcFrame h pfc set quanta) := by
  obtain ⟨⟨hsent, hcount⟩, hann⟩ := announces_fcFrame (s.setAnnounced h v) h pfc set quanta
  exact ⟨⟨hsent, hcount⟩, hann.trans (announced_setAnnounced hv)⟩

/-! ### The announcement of a change (R261) -/

theorem and_xor_zero {v : Nat} (hv : v < 256) : v &&& (0 ^^^ 0xFF) = v := by
  rw [Nat.zero_xor]
  exact (Nat.and_two_pow_sub_one_eq_mod v 8).trans (Nat.mod_eq_of_lt hv)

section
variable (hon : s.fcOn h = true)
include hon

theorem fcAnnounce_pause (hmode : bitOf (s.rd (Pg.SLICE (h / 4) + SLICE.EG_CTRL)) 0 = true)
    (hne : s.asserted (h / 4) ≠ s.announced h) (hnone : s.announced h = 0 ∨ s.asserted (h / 4) = 0) :
    s.fcAnnounce h = (s.setAnnounced h (s.asserted (h / 4))).fcFrame h false 0
      (if s.announced h = 0 then fieldOf (s.rd (Pg.SLICE (h / 4) + SLICE.EG_CTRL)) 16 16 else 0) := by
  simp only [fcAnnounce]
  rw [if_neg (by simp [hon, hne]), if_pos hmode]
  split
  · rfl
  · next hq => exact if_pos (hnone.resolve_left hq)

theorem fcAnnounce_gain (hmode : bitOf (s.rd (Pg.SLICE (h / 4) + SLICE.EG_CTRL)) 0 = false) (hp : s.asserted (h / 4) < 256)
    (hq : s.announced h = 0) (hne : s.asserted (h / 4) ≠ 0) :
    s.fcAnnounce h = (s.setAnnounced h (s.asserted (h / 4))).fcFrame h true (s.asserted (h / 4))
      (fieldOf (s.rd (Pg.SLICE (h / 4) + SLICE.EG_CTRL)) 16 16) := by
  simp only [fcAnnounce]
  rw [if_neg (by simp [hon, hq, hne]), hmode, if_neg Bool.false_ne_true, hq, Nat.zero_and, if_neg (not_not_intro rfl),
    and_xor_zero hp, if_pos hne]

theorem fcAnnounce_loss (hmode : bitOf (s.rd (Pg.SLICE (h / 4) + SLICE.EG_CTRL)) 0 = false)
    (hq : s.announced h ≠ 0) (hp : s.asserted (h / 4) = 0) :
    s.fcAnnounce h = (s.setAnnounced h 0).fcFrame h true (s.announced h) 0 := by
  simp only [fcAnnounce]
  rw [if_neg (by simp [hon, hp, hq.symm]), hmode, if_neg Bool.false_ne_true, hp, Nat.zero_and, if_neg (not_not_intro rfl),
    and_xor_zero (announced_lt s h), if_pos hq]

end

theorem fcAnnounce_same (he : s.asserted (h / 4) = s.announced h) : s.fcAnnounce h = s := by
  simp only [fcAnnounce]
  exact if_pos (.inr he)

theorem fcRepeat_repeats (hon : s.fcOn h = true) (hp : s.asserted (h / 4) ≠ 0) (he : s.announced h = s.asserted (h / 4)) :
    s.fcRepeat h = s.fcFrame h (!bitOf (s.rd (Pg.SLICE (h / 4) + SLICE.EG_CTRL)) 0)
      (if bitOf (s.rd (Pg.SLICE (h / 4) + SLICE.EG_CTRL)) 0 then 0 else s.asserted (h / 4))
      (fieldOf (s.rd (Pg.SLICE (h / 4) + SLICE.EG_CTRL)) 16 16) := by
  simp only [fcRepeat]
  exact if_pos (by simp [hon, hp, he])

theorem fcOn_of (hen : bitOf (s.rd (Pg.SLICE (h / 4) + SLICE.EG_CTRL)) 1 = true)
    (htime : fieldOf (s.rd (Pg.SLICE (h / 4) + SLICE.EG_CTRL)) 16 16 ≠ 0) (hup : s.hostUp h = true) : s.fcOn h = true := by
  simp only [fcOn, hen, hup, Bool.true_and, Bool.and_true, decide_eq_true_eq]
  exact htime

end Machine.Dev

/-! ### The announcements as they run -/

section
variable {s : State} {h : Lane} (hon : s.d.fcOn h = true)

section
include hon

/-- A PAUSE frame announces the first priority with the pause time, and the end of the last with none. -/
theorem gives_fcAnnounce_pause {v quanta : Nat} (hmode : bitOf (s.d.rd (Pg.SLICE (h / 4) + SLICE.EG_CTRL)) 0 = true)
    (hv : s.d.asserted (h / 4) = v) (hp : v < 256) (hne : v ≠ s.d.announced h) (hnone : s.d.announced h = 0 ∨ v = 0)
    (hquanta : (if s.d.announced h = 0 then fieldOf (s.d.rd (Pg.SLICE (h / 4) + SLICE.EG_CTRL)) 16 16 else 0) = quanta) :
    Gives (.flowControlFrameTx h) s
      (Dev.Announces h v (controlFrame (s.d.egSource (h / 4)) ([0x00, 0x01] ++ bytesBE 2 quanta)) s.d) := by
  subst hv hquanta
  refine gives_run (Eq.refl (execFlowControlFrameTx h s)) ?_
  rw [Dev.fcAnnounce_pause hon hmode hne hnone, ← fcBytes_pause _ 0]
  exact (Dev.announces_setAnnounced hp _ _ _).settle

theorem gives_fcAnnounce_gain (hmode : bitOf (s.d.rd (Pg.SLICE (h / 4) + SLICE.EG_CTRL)) 0 = false)
    (hp : s.d.asserted (h / 4) < 256) (hq : s.d.announced h = 0) (hne : s.d.asserted (h / 4) ≠ 0) :
    Gives (.flowControlFrameTx h) s (Dev.Announces h (s.d.asserted (h / 4)) (controlFrame (s.d.egSource (h / 4))
      (pfcPayload (s.d.asserted (h / 4)) (fieldOf (s.d.rd (Pg.SLICE (h / 4) + SLICE.EG_CTRL)) 16 16))) s.d) := by
  refine gives_run (Eq.refl (execFlowControlFrameTx h s)) ?_
  rw [Dev.fcAnnounce_gain hon hmode hp hq hne, ← fcBytes_pfc]
  exact (Dev.announces_setAnnounced hp _ _ _).settle

theorem gives_fcAnnounce_loss (hmode : bitOf (s.d.rd (Pg.SLICE (h / 4) + SLICE.EG_CTRL)) 0 = false)
    (hq : s.d.announced h ≠ 0) (hp : s.d.asserted (h / 4) = 0) : Gives (.flowControlFrameTx h) s
      (Dev.Announces h 0 (controlFrame (s.d.egSource (h / 4)) (pfcPayload (s.d.announced h) 0)) s.d) := by
  refine gives_run (Eq.refl (execFlowControlFrameTx h s)) ?_
  rw [Dev.fcAnnounce_loss hon hmode hq hp, ← fcBytes_pfc]
  exact (Dev.announces_setAnnounced (by decide) _ _ _).settle

/-- The set announced is announced again, as the mode of the slice has it. -/
theorem gives_fcRepeat (hp : s.d.asserted (h / 4) ≠ 0) (he : s.d.asserted (h / 4) = s.d.announced h) :
    Gives (.flowControlRepeat h) s (Dev.Announces h (s.d.announced h) (controlFrame (s.d.egSource (h / 4))
      (if bitOf (s.d.rd (Pg.SLICE (h / 4) + SLICE.EG_CTRL)) 0 then
        [0x00, 0x01] ++ bytesBE 2 (fieldOf (s.d.rd (Pg.SLICE (h / 4) + SLICE.EG_CTRL)) 16 16)
      else pfcPayload (s.d.asserted (h / 4)) (fieldOf (s.d.rd (Pg.SLICE (h / 4) + SLICE.EG_CTRL)) 16 16))) s.d) := by
  refine gives_run (Eq.refl (execFlowControlRepeat h s)) ?_
  rw [Dev.fcRepeat_repeats hon hp he.symm]
  cases bitOf (s.d.rd (Pg.SLICE (h / 4) + SLICE.EG_CTRL)) 0
  · rw [if_neg Bool.false_ne_true, ← fcBytes_pfc]
    exact (Dev.announces_fcFrame _ _ _ _ _).settle
  · rw [if_pos rfl, ← fcBytes_pause _ 0]
    exact (Dev.announces_fcFrame _ _ _ _ _).settle

end

theorem gives_fcAnnounce_same (he : s.d.asserted (h / 4) = s.d.announced h) :
    Gives (.flowControlFrameTx h) s (Frame [] (fun _ => False) s.d) := by
  refine gives_run (Eq.refl (execFlowControlFrameTx h s)) ?_
  rw [Dev.fcAnnounce_same he]
  exact (Frame.refl _).settle

end

/-- Settles O29: the frames received, the frames sent and their reports, and flow control. -/
theorem egress : Obligations.Egress := by
  unfold Obligations.Egress
  refine ⟨fun s n tag body fcs pcsOk fec => ?_, fun s m p time f rest => ?_, fun s h => ?_⟩
  · intro h p len frame fcsOk tagOk room counted joins hup
    have hbad : fcsBad (egFrame tag body fcs) = true ↔ ¬ fcsOk := fcsBad_egFrame tag body fcs
    have hgood (h : fcsOk) : fcsBad (egFrame tag body fcs) = false := Bool.eq_false_iff.mpr fun e => hbad.mp e h
    exact ⟨fun ht hmac => gives_egress_badTag hup (Bool.eq_false_iff.mpr fun e => ht ((egTagOk_iff tag).mp e)) hmac,
      fun ht => gives_egress_wrongSlice hup ((egTagOk_iff tag).mpr ht),
      fun ht hs hon hdown hmin hmax =>
        have ht' := (egTagOk_iff tag).mpr ht
        ⟨fun hf => gives_egress_joins hup ht' hs hon hdown hmin hmax (hgood hf),
          fun hf => gives_egress_badFcs hup ht' hs hon hdown hmin hmax (hbad.mpr hf),
          fun hf => gives_egress_overflows hup ht' hs hon hdown hmin hmax (hgood hf)⟩⟩
  · intro op ptp stamp samples gone
    have hsamples : samples = isSamples := rfl
    have hstamp : s.d.txTimeOf p time = stamp := Dev.txTimeOf_eq _ _ _
    refine ⟨fun hfirst hdown hpause hon => ⟨gives_egressFrameTx_plain hfirst hdown hpause hon,
      fun hop hfix hlen hbytes => ?_, gives_egressFrameTx_late hfirst hdown hpause hon, fun hop hroom => ?_,
      gives_egressFrameTx_dropped hfirst hdown hpause hon⟩, gives_txtsPop⟩
    · rw [← hstamp]
      exact gives_egressFrameTx_stamped hfirst hdown hpause hon hop (Dev.oneStep_stamped hfix hlen hbytes)
    · rw [← hstamp]
      exact gives_egressFrameTx_reported hfirst hdown hpause hon hop hroom
  · intro ctrl time p q frame pause pfc sentOne hen htime hup hp
    have hon : s.d.fcOn h = true := Dev.fcOn_of hen htime hup
    refine ⟨fun hmode hq hne => gives_fcAnnounce_pause hon hmode rfl hp (fun e => hne (e.trans hq)) (.inl hq) (if_pos hq),
      fun hmode hq hz => gives_fcAnnounce_pause hon hmode hz (by decide) (Ne.symm hq) (.inr rfl) (if_neg hq),
      fun hmode => gives_fcAnnounce_gain hon hmode hp, gives_fcAnnounce_loss hon, gives_fcAnnounce_same, fun he hne => ?_⟩
    refine (gives_fcRepeat hon hne he).mono fun t ⟨hsent, hann⟩ => ⟨hann, ?_⟩
    rcases Bool.eq_false_or_eq_true (bitOf ctrl 0) with hmode | hmode
    · rw [if_pos hmode] at hsent ⊢
      exact hsent
    · rw [if_neg (by rw [hmode]; decide)] at hsent ⊢
      exact hsent

end Sys2Proof
end
